-- ==== Sys2Proof/Word.lean ====
section
/-! DEFINITION. The machine's plain words: what the spec treats as bits. -/

namespace Sys2Proof

/-- A byte, the smallest addressable unit of every memory the spec names (00, notation). -/
abbrev Byte := BitVec 8

/-- A 64-bit word: a scalar register (R222), a BAR0 register (R463), a handle-table word (R225). -/
abbrev Word := BitVec 64

/-- A 32-bit word: a program counter (R222), a KF32 code (R35), a half of a register (R465). -/
abbrev Half := BitVec 32

/-- A local address has 48 bits (R168); the key of a memory cell is its value as a natural number. -/
abbrev LAddr := BitVec 48

end Sys2Proof
end

