-- ==== Sys2Proof/Syntax.lean ====
section
/-! DEFINITION. The commands of the V12: one constructor of `Instr` per row of spec/opcode_table.json, with the row's
operands. A flyer instruction names its thread and the fields of its word (R247); an event names what it happens to and
carries what comes in from outside (data read from the host, a message, a sensor reading). A word with a reserved opcode comes
under `nop` (DESIGN CHOICE, log 11). -/

namespace Sys2Proof

/-- A context number, 0-63 (R218). -/
abbrev CtxN := Fin 64

/-- A logical spindle number, 0-63 (R228). -/
abbrev LSpin := Fin 64

/-- A partition number, 0-3 (R330). -/
abbrev PartN := Fin 4

/-- A flyer thread: a context's thread on one logical spindle (R220). -/
structure Tid where
  ctx : CtxN
  lsp : LSpin
  deriving DecidableEq, Repr

/-- The fields of a Necel word beside its opcode, which the command's row fixes (R247): variant, extension and six
operand slots. -/
structure Fields where
  variant : BitVec 8 := 0
  ext : BitVec 16 := 0
  sl0 : BitVec 16 := 0
  sl1 : BitVec 16 := 0
  sl2 : BitVec 16 := 0
  sl3 : BitVec 16 := 0
  sl4 : BitVec 16 := 0
  sl5 : BitVec 16 := 0
  deriving DecidableEq, Repr

/-- A PCIe function: 0 is PF0, n is VF n (R420). -/
abbrev Func := Fin 16

/-- A command ring: a context's, or the admin ring of PF0 (R427, R431). -/
inductive Ring where
  | ctx (c : CtxN)
  | admin
  deriving DecidableEq, Repr

/-- A 64 B Hokuras record: eight little-endian 64-bit words (R430). -/
structure Rec where
  w0 : Word := 0
  w1 : Word := 0
  w2 : Word := 0
  w3 : Word := 0
  w4 : Word := 0
  w5 : Word := 0
  w6 : Word := 0
  w7 : Word := 0
  deriving DecidableEq, Repr

/-- A BAR0 write to one 8 B slot: all 8 bytes, or 4 B of bits 31:0 or of bits 63:32 (R464, R465). -/
inductive BarAcc where
  | whole (v : Word)
  | low (v : Half)
  | high (v : Half)
  deriving DecidableEq, Repr

/-- How the host answered a read or a write of the device (R424, R431). -/
inductive HostReply where
  | ok (data : List Byte)
  /-- a completion with UR, CA or poison -/
  | bad
  deriving DecidableEq, Repr

/-- How the far end of a stream that lies outside the device answered a load: with the bytes asked for; for the host as above; for
another device with the cause of a LINK fault (R394). -/
inductive FarReply where
  | ok (data : List Byte)
  | bad
  | refused (cause : BitVec 8)
  deriving DecidableEq, Repr

/-- The kinds of link message (R382, word 0 bits 31:28). -/
inductive MsgOp where
  | put | getRequest | getResponse | add | signal | multicastPut | acknowledgement | refusal | draftTile | tileRequest
  deriving DecidableEq, Repr

/-- A field of a function's configuration space that the model holds (R419-R421, R436; PRESUMED, log 132): its IDs, its power state,
the size of its BAR4, and the mask bit of an MSI-X vector. -/
inductive CfgField where
  | ids | powerState | bar4Size
  | vectorMask (n : Fin 256)
  deriving DecidableEq, Repr

/-- What a host's access reaches (R421): BAR0, the doorbell pages of BAR2, or configuration space. -/
inductive Space where
  | bar0 | bar2
  | config (k : CfgField)
  deriving DecidableEq, Repr

/-- A host's access of a function: the bytes from an offset on, whether every byte enable is set (R464), whether its data are poisoned
(R419), and the words of a write behind its first. -/
structure Tlp where
  fn : Func := 0
  space : Space := .bar0
  off : Nat := 0
  len : Nat := 8
  enabled : Bool := true
  poisoned : Bool := false
  more : List Word := []
  deriving DecidableEq, Repr

/-- A read on the management bus (R486): a Read Word of a command code, or of the Alert Response Address. -/
inductive SmbRead where
  | word (code : BitVec 8)
  | alertResponse
  deriving DecidableEq, Repr

/-- A link message: the fields of its 32 B header (R382) and its data. The virtual channel follows from `op` (R375). -/
structure Msg where
  dst : BitVec 16 := 0
  src : BitVec 16 := 0
  op : MsgOp := .put
  ctx : CtxN := 0
  epoch : BitVec 4 := 0
  tag : BitVec 12 := 0
  cls : BitVec 2 := 0
  last : Bool := false
  sig : Bool := false
  mcg : BitVec 8 := 0
  addr : LAddr := 0
  hops : BitVec 6 := 0
  seg : BitVec 2 := 0
  wcnt : BitVec 2 := 0
  w2 : BitVec 13 := 0
  w1 : BitVec 13 := 0
  redop : BitVec 3 := 0
  rank : BitVec 6 := 0
  ranked : Bool := false
  len : BitVec 14 := 0
  word3 : Word := 0
  data : List Byte := []
  deriving DecidableEq, Repr

/-- A Skein port, 0-15 (R367). -/
abbrev PortN := Fin 16

/-- What reaches a port from its link: a flit of 256 bytes, the symbol errors by lane of each codeword that FEC could not correct, and
how many codewords it corrected (R373, R374, R454); or what a control flit carries, a request to send again from a SEQ on (R374) or so many credits of a
(VC, CLASS) pair given back (R376). (DESIGN CHOICE, log 127.) -/
inductive FlitIn where
  | flit (bytes : List Byte) (bursts : List (List Nat)) (fixed : Nat)
  | resend (seq : BitVec 12)
  | credit (vc : BitVec 2) (cls : BitVec 4) (n : Nat)
  deriving DecidableEq, Repr

/-- A unit that can be retired: its type t and its index (R454). -/
structure UnitId where
  ty : Fin 7
  idx : Nat
  deriving DecidableEq, Repr

/-- Where an uncorrectable error is (R451). -/
inductive UErr where
  /-- spindle SRAM, flyer state, accumulator store, vector lanes, distaff or spindle draft engine of a spindle -/
  | spindle (i : Fin 64)
  /-- carding unit, swift engine, quarter draft engine or bridge switch of a quarter -/
  | quarterUnit (q : Fin 4)
  /-- creel data, of the line that holds an address: treated as a miss -/
  | creelData (q : Fin 4) (a : LAddr)
  /-- creel tags: every line invalidated -/
  | creelTags (q : Fin 4)
  | codecSram (n : Fin 8)
  /-- an uncorrectable 32 B word at a local address of HBM or the board tier (R452) -/
  | memWord (a : LAddr)
  /-- hub die SRAM or hub controller memory -/
  | hub
  /-- an error of the PCIe link that its FEC, CRC and replay do not correct -/
  | pcie
  deriving DecidableEq, Repr

/-- What the training of a port found (R370): the live lanes (0: none of the groups trained), the peer's identity and
the measured delay. -/
structure Training where
  lanes : Fin 9
  peerDev : BitVec 16
  peerPort : BitVec 4
  delay : BitVec 16
  deriving DecidableEq, Repr

/-- The readings of one fine tick (R483, R484): the package power estimate in W and the hottest junction sensor in °C. -/
structure Monitor where
  watts : Nat := 0
  hottest : Int := 0
  deriving DecidableEq, Repr

/-- A reference clock (R475). -/
inductive RefClk where
  | pcie | sk0 | sk1 | core
  deriving DecidableEq, Repr

/-- A power rail (R477). -/
inductive Rail where
  | vddQ (q : Fin 4) | vddSram | vddHub | vddSer | vddLp | vddHbm | vddqlHbm | vppHbm | vddIo | vaux
  deriving DecidableEq, Repr

/-- A commit record as the standby receives it entire (R326). -/
structure PlyRecord where
  edge : Word
  staged : List (Nat × Word) := []
  entries : List (Nat × List Byte) := []
  /-- addresses of the flipped shadows, whose written maps are the granules listed -/
  shadows : List Nat := []
  granules : List (Nat × List Byte) := []
  /-- the join image's share of the stroke (R329): the spans that it covers, their bytes that are not 0, and whether it is the
  last -/
  imageSpans : List (Nat × Nat) := []
  image : List (Nat × Byte) := []
  /-- the 32 B words of what it carries that are uncorrectable, by local address / 32 (R452) -/
  hurt : List Nat := []
  imageLast : Bool := false
  deriving DecidableEq, Repr

/-- What a treadle marker carries (R396): target stroke index, target fine tick, and picoseconds until it. -/
structure Marker where
  index : Word
  tick : Nat
  remain : Nat
  deriving DecidableEq, Repr

/-- One command of the V12, one constructor per row of spec/opcode_table.json. -/
inductive Instr where
  -- control (11)
  /-- with the opcode of the word where it is a reserved one (R249, R272) -/
  | nop (t : Tid) (f : Fields) (reserved : Option (BitVec 8))
  | loop (t : Tid) (f : Fields)
  | jmp (t : Tid) (f : Fields)
  | brCond (t : Tid) (f : Fields)
  | call (t : Tid) (f : Fields)
  | ret (t : Tid) (f : Fields)
  | wait (t : Tid) (f : Fields)
  | semWaitSatisfied (t : Tid)
  | sig (t : Tid) (f : Fields)
  | turn (t : Tid) (f : Fields)
  | fence (t : Tid) (f : Fields)
  | fenceRelease (t : Tid)
  | halt (t : Tid) (f : Fields)
  -- scalar (11)
  | add (t : Tid) (f : Fields)
  | sub (t : Tid) (f : Fields)
  | mul (t : Tid) (f : Fields)
  | divu (t : Tid) (f : Fields)
  | remu (t : Tid) (f : Fields)
  | and (t : Tid) (f : Fields)
  | or (t : Tid) (f : Fields)
  | xor (t : Tid) (f : Fields)
  | shl (t : Tid) (f : Fields)
  | shr (t : Tid) (f : Fields)
  | sar (t : Tid) (f : Fields)
  | min (t : Tid) (f : Fields)
  | max (t : Tid) (f : Fields)
  | slt (t : Tid) (f : Fields)
  | li (t : Tid) (f : Fields)
  | mov (t : Tid) (f : Fields)
  | lds (t : Tid) (f : Fields)
  | sts (t : Tid) (f : Fields)
  | hget (t : Tid) (f : Fields)
  | hset (t : Tid) (f : Fields)
  -- splices (11, 13)
  | splBegin (t : Tid) (f : Fields)
  | splPoolGrant (t : Tid)
  | splCommit (t : Tid) (f : Fields)
  | commitCheck (p : PartN) (slot : BitVec 8)
  | shadowFillComplete (p : PartN) (slot : BitVec 8)
  | splAbort (t : Tid) (f : Fields)
  | splStatus (t : Tid) (f : Fields)
  -- draft engines (09, 12)
  | draftLd (t : Tid) (f : Fields)
  | draftSt (t : Tid) (f : Fields)
  | draftGather (t : Tid) (f : Fields)
  | draftMcastSend (t : Tid) (f : Fields)
  | draftMcastRecv (t : Tid) (f : Fields)
  | draftPlanStart (t : Tid) (f : Fields)
  | draftPlanAdvance (t : Tid) (f : Fields)
  | planCursor (n : BitVec 8)
  | draftWait (t : Tid) (f : Fields)
  | draftWaitFree (t : Tid) (f : Fields)
  | draftWaitClose (t : Tid) (f : Fields)
  | draftWaitDone (t : Tid)
  /-- the far end's bytes that come from outside the device (host window, remote device), if any -/
  | tileArrive (t : Tid) (sid : BitVec 5) (reply : FarReply)
  | migrationComplete (page : BitVec 21)
  | slotDrain (t : Tid) (sid : BitVec 5)
  | gatherEntryDeliver (t : Tid) (sid : BitVec 5)
  | mcastTileDeliver (t : Tid) (sid : BitVec 5)
  | streamStall (t : Tid) (sid : BitVec 5)
  | engineComplete (t : Tid) (id : Nat)
  -- matrix, vector, softmax, carding, swift, noise (12)
  | mma (t : Tid) (f : Fields)
  | qnt (t : Tid) (f : Fields)
  | vadd (t : Tid) (f : Fields)
  | vmul (t : Tid) (f : Fields)
  | vfma (t : Tid) (f : Fields)
  | vmax (t : Tid) (f : Fields)
  | vmin (t : Tid) (f : Fields)
  | vred (t : Tid) (f : Fields)
  | vcvt (t : Tid) (f : Fields)
  | vepi (t : Tid) (f : Fields)
  | vrot (t : Tid) (f : Fields)
  | vfn (t : Tid) (f : Fields)
  | vstat (t : Tid) (f : Fields)
  | vnorm (t : Tid) (f : Fields)
  | vsmxScore (t : Tid) (f : Fields)
  | vsmxAcc (t : Tid) (f : Fields)
  | vsmxRecomp (t : Tid) (f : Fields)
  | vsmxEnd (t : Tid) (f : Fields)
  | cardBuild (t : Tid) (f : Fields)
  | cardSel (t : Tid) (f : Fields)
  | swConv (t : Tid) (f : Fields)
  | swPool (t : Tid) (f : Fields)
  | swBox (t : Tid) (f : Fields)
  | swNms (t : Tid) (f : Fields)
  | swPatch (t : Tid) (f : Fields)
  | swPix (t : Tid) (f : Fields)
  | vrng (t : Tid) (f : Fields)
  -- links, codec, reel instructions (12)
  | lkPut (t : Tid) (f : Fields)
  | lkGet (t : Tid) (f : Fields)
  | lkAdd (t : Tid) (f : Fields)
  | lkSig (t : Tid) (f : Fields)
  | lkMcast (t : Tid) (f : Fields)
  | lkWait (t : Tid) (f : Fields)
  | lkWaitDone (t : Tid)
  | cdcSubmit (t : Tid) (f : Fields)
  | reelMark (t : Tid) (f : Fields)
  -- codec (17)
  | cdcJobStart (p : PartN)
  /-- of the core's pixel engine, or of its entropy engine in a ganged job (R412) -/
  | cdcUnitDone (core : Fin 8) (entropy : Bool)
  | cdcJobEnd (job : Nat)
  -- treadle (10, 16)
  | strokeEdge (m : Monitor)
  | fineTick (m : Monitor)
  | turnOverrun (t : Tid)
  | treadleMarkerSend
  | trdMarkerReceive (port : PortN) (m : Marker)
  | trdParentTimeout
  | trdSyncInEdge
  | hbmTempRead (stack : Fin 12) (celsius : BitVec 8)
  -- ply pair (13)
  | plyHeartbeatReceive (edge : Word)
  | plyHeartbeatAck (edge : Word)
  | plyRecordReceive (r : PlyRecord)
  | plyRecordAck (edge : Word)
  | plyLoss
  | plyTakeover
  | plyJoin
  | plyJoined
  | reelDeliver (p : PartN)
  -- scheduling (14)
  | contextSuspend (c : CtxN)
  | saveComplete (c : CtxN)
  | restoreComplete (c : CtxN)
  -- errors (20)
  | correctedError (u : UnitId)
  | uncorrectableError (e : UErr)
  | retireWindowClose (u : UnitId)
  | watchdogExpiry
  -- Skein links (16)
  | flitReceive (port : PortN) (x : FlitIn)
  | portTrain (port : PortN)
  | portTrained (port : PortN) (r : Training)
  | portStateReport (rank : Fin 8) (live : BitVec 8)
  | messageForward (m : Msg)
  | put (m : Msg)
  | getRequest (m : Msg)
  | getResponse (m : Msg)
  | atomicAdd (m : Msg)
  | linkSignal (m : Msg)
  | multicastPut (m : Msg)
  | draftTile (m : Msg)
  | tileRequest (m : Msg)
  | acknowledgement (m : Msg)
  | refusal (m : Msg)
  | responseTimeout (c : CtxN) (tag : BitVec 12)
  -- host rings and doorbells (18)
  /-- at a page of the function's BAR2 (R421), whole or in another form (R426) -/
  | inlineRecord (fn : Func) (page : Fin 64) (whole : Bool) (r : Rec)
  /-- at a page of the function's BAR2, `c`, or in `GLB_ADM_DB` -/
  | sqTailWrite (fn : Func) (ring : Ring) (v : Half)
  | cqHeadWrite (fn : Func) (ring : Ring) (v : Half)
  | create (ring : Ring) (r : Rec)
  | launch (ring : Ring) (r : Rec)
  | teardown (ring : Ring) (r : Rec)
  | move (ring : Ring) (r : Rec)
  | ringFence (ring : Ring) (r : Rec)
  | signal (ring : Ring) (r : Rec)
  | stage (ring : Ring) (r : Rec)
  -- critical commands (19)
  | fwLoad (r : Rec) (payload : HostReply)
  | fwActivate (r : Rec) (payload : HostReply)
  | stageApply (r : Rec) (payload : HostReply)
  | keyInstall (r : Rec) (payload : HostReply)
  | keyRotate (r : Rec) (payload : HostReply)
  | debugUnlock (r : Rec) (payload : HostReply)
  | reelExport (r : Rec) (payload : HostReply)
  | devidAssign (r : Rec) (payload : HostReply)
  -- BAR4 and the host window (18)
  | bar4Read (fn : Func) (off : Nat) (len : Nat)
  | bar4Write (fn : Func) (off : Nat) (data : List Byte) (poisoned : Bool)
  | hostWindowCompletion (t : Tid) (reply : HostReply)
  -- BAR0 (21)
  | regWrite (x : Tlp) (v : Word)
  | counterRead (x : Tlp)
  | regReadLatch (x : Tlp)
  | ctxHtabWrite (fn : Func) (c : CtxN) (a : BarAcc)
  | ctxLkcredWrite (fn : Func) (c : CtxN) (a : BarAcc)
  | ringEnableWrite (fn : Func) (ring : Ring) (cq : Bool) (a : BarAcc)
  | stgEntryWrite (fn : Func) (b : Fin 5) (n : Fin 256) (val : Bool) (a : BarAcc)
  | stgClear (fn : Func) (b : Fin 5) (a : BarAcc)
  | stgCheck (fn : Func) (b : Fin 5) (a : BarAcc)
  | stgApply (fn : Func) (b : Fin 5) (a : BarAcc)
  | stgCancel (fn : Func) (b : Fin 5) (a : BarAcc)
  | retireReq (fn : Func) (a : BarAcc)
  | unretireReq (fn : Func) (a : BarAcc)
  | attGo (fn : Func) (a : BarAcc)
  | rcvGo (fn : Func) (a : BarAcc) (image : HostReply)
  | evtRingEnable (fn : Func) (a : BarAcc)
  | evtRingHeadWrite (fn : Func) (a : BarAcc)
  | lnkPhyWrite (fn : Func) (port : PortN) (a : BarAcc)
  -- resets and pins (18, 22)
  | functionLevelReset (fn : Func)
  | vfEnableClear
  | conventionalReset
  /-- with the coldest sensor reading and the levels of GPIO[15:0] -/
  | coldReset (coldest : Int) (gpio : BitVec 16)
  | bootTempRetry (coldest : Int)
  | powerDown
  | prochotAssert
  | prochotRelease
  | thermtrip
  | refclkLoss (k : RefClk)
  | refclkReturn (k : RefClk)
  | railFault (r : Rail)
  | avsTimeout (q : Fin 4)
  /-- a Write Word of a command code, with its packet error code where it carries one; PLIMIT is 0x05, and a code that is no
  register's comes under this row -/
  | smbPlimitWrite (code : BitVec 8) (v : BitVec 16) (pec : Option Byte)
  | smbAlertmaskWrite (v : BitVec 16) (pec : Option Byte)
  /-- a read on the bus; the Read Words come under this row -/
  | smbAlertResponse (x : SmbRead)
  | prtReset (p : PartN)
  | stgCheckDone (b : Fin 5)
  | attReportDone (written : Bool)
  | moveDone (ring : Ring) (cmdid : Half) (reply : HostReply)
  | avsRequestComplete (q : Fin 4)
  | vauxLoss
  | vfEnableSet (n : Fin 16)
  deriving DecidableEq, Repr

end Sys2Proof
end

