-- ==== Sys2Proof/Decode.lean ====
section
/-! DEFINITION. Words. opcode_table.json gives no row any bits, so a table word spells no command; a Necel word (R247, R249,
R272) spells the command that a thread issues when it reaches it. -/

namespace Sys2Proof

/-- The command that a table word spells: no row of the table gives bits, so none. -/
def decodeTableWord (_nbits _w : Nat) : Option Instr := none

/-! ## Necel words (R247) -/

/-- The fields of a word: variant 119:112, extension 111:96, slot n at 16n + 15:16n. -/
def Fields.ofWord (w : BitVec 128) : Fields :=
  { variant := w.extractLsb' 112 8, ext := w.extractLsb' 96 16,
    sl0 := w.extractLsb' 0 16, sl1 := w.extractLsb' 16 16, sl2 := w.extractLsb' 32 16,
    sl3 := w.extractLsb' 48 16, sl4 := w.extractLsb' 64 16, sl5 := w.extractLsb' 80 16 }

/-- The word that 16 bytes of an instruction table hold, little-endian. -/
def Necel.wordOf (bs : List Byte) : BitVec 128 :=
  bs.reverse.foldl (fun w b => (w <<< 8) ||| b.zeroExtend 128) 0

/-- The opcodes that are defined (R250, R272). -/
def Necel.opcodes : List (BitVec 8) :=
  [0x00, 0x01, 0x02, 0x03, 0x04, 0x05, 0x06, 0x07, 0x08, 0x09, 0x0A] ++
  [0x10, 0x11, 0x12, 0x13, 0x14, 0x15, 0x16, 0x17, 0x18, 0x19, 0x1A, 0x1B, 0x1C, 0x1D, 0x1E, 0x1F, 0x20, 0x21] ++
  [0x30, 0x31, 0x38, 0x39, 0x3A, 0x3B] ++ [0x40, 0x41, 0x42, 0x43, 0x44, 0x45] ++ [0x50, 0x51] ++
  [0x60, 0x61, 0x62, 0x63, 0x64, 0x65, 0x66, 0x67] ++ [0x70, 0x78, 0x79, 0x80, 0x81, 0x88, 0x89] ++
  [0x90, 0x91, 0x92, 0x93, 0x94, 0x95] ++ [0xA0] ++ [0xB0, 0xB1, 0xB2, 0xB3, 0xB4, 0xB5] ++ [0xC0, 0xD0]

/-- The command of a word below opcode 0x40 (R250). -/
def Necel.low (t : Tid) (f : Fields) (op : BitVec 8) : Instr :=
  match op.toNat with
  | 0x00 => .nop t f none | 0x01 => .loop t f | 0x02 => .jmp t f | 0x03 => .brCond t f | 0x04 => .call t f
  | 0x05 => .ret t f | 0x06 => .wait t f | 0x07 => .sig t f | 0x08 => .turn t f | 0x09 => .fence t f | 0x0A => .halt t f
  | 0x10 => .add t f | 0x11 => .sub t f | 0x12 => .mul t f | 0x13 => .divu t f | 0x14 => .remu t f | 0x15 => .and t f
  | 0x16 => .or t f | 0x17 => .xor t f | 0x18 => .shl t f | 0x19 => .shr t f | 0x1A => .sar t f | 0x1B => .min t f
  | 0x1C => .max t f | 0x1D => .slt t f | 0x1E => .li t f | 0x1F => .mov t f | 0x20 => .lds t f | 0x21 => .sts t f
  | 0x30 => .hget t f | 0x31 => .hset t f | 0x38 => .splBegin t f | 0x39 => .splCommit t f | 0x3A => .splAbort t f
  | 0x3B => .splStatus t f
  | _ => .nop t f (some op)

/-- The command of a word from opcode 0x40 on (R272); variant bits choose among the rows of one opcode. -/
def Necel.high (t : Tid) (f : Fields) (op : BitVec 8) : Instr :=
  let b (n : Nat) : Bool := f.variant.getLsbD n
  match op.toNat with
  | 0x40 => .draftLd t f | 0x41 => .draftSt t f | 0x42 => .draftGather t f
  | 0x43 => if b 0 then .draftMcastRecv t f else .draftMcastSend t f
  | 0x44 => if b 0 then .draftPlanAdvance t f else .draftPlanStart t f
  | 0x45 => if b 0 then .draftWaitClose t f else if b 1 then .draftWaitFree t f else .draftWait t f
  | 0x50 => .mma t f | 0x51 => .qnt t f
  | 0x60 => .vadd t f | 0x61 => .vmul t f | 0x62 => .vfma t f | 0x63 => if b 4 then .vmin t f else .vmax t f
  | 0x64 => .vred t f | 0x65 => .vcvt t f | 0x66 => .vepi t f | 0x67 => .vrot t f
  | 0x70 => .vfn t f | 0x78 => .vstat t f | 0x79 => .vnorm t f
  | 0x80 => if b 1 then .vsmxRecomp t f else if b 0 then .vsmxAcc t f else .vsmxScore t f
  | 0x81 => .vsmxEnd t f | 0x88 => .cardBuild t f | 0x89 => .cardSel t f
  | 0x90 => .swConv t f | 0x91 => .swPool t f | 0x92 => .swBox t f | 0x93 => .swNms t f | 0x94 => .swPatch t f
  | 0x95 => .swPix t f | 0xA0 => .vrng t f
  | 0xB0 => .lkPut t f | 0xB1 => .lkGet t f | 0xB2 => .lkAdd t f | 0xB3 => .lkSig t f | 0xB4 => .lkMcast t f
  | 0xB5 => .lkWait t f | 0xC0 => .cdcSubmit t f | 0xD0 => .reelMark t f
  | _ => .nop t f (some op)

/-- The command that thread `t` issues when it reaches a word (R247, R249): opcode 127:120; a word with a reserved opcode is the
one that faults. -/
def Necel.command (t : Tid) (w : BitVec 128) : Instr :=
  let op : BitVec 8 := w.extractLsb' 120 8
  if op.toNat < 0x40 then Necel.low t (Fields.ofWord w) op else Necel.high t (Fields.ofWord w) op

end Sys2Proof
end

