-- ==== Sys2Proof/Config.lean ====
section
/-! DEFINITION. What an implementation fixes, and the free values: constants with no body, so that a claim holds for
every value of them. -/

namespace Sys2Proof

/-- The free value number `n` as a byte: what the spec leaves undefined after a step that goes on (DESIGN CHOICE, log 6). The
counter `State.freeCtr` supplies `n`. -/
opaque Config.freeByte : Nat → Byte

/-- The free value number `n` as a 64-bit word (DESIGN CHOICE, log 6). -/
opaque Config.freeWord : Nat → Word

/-- How the tables or zero points of a weight are given, by the words of its scale handle (R31): 1 to 4 for groups of 32, 64, 128 or
256 columns, any other number for the whole tensor; the spec does not say where a program says which (DEDUCED, log 40). -/
opaque Config.kw6Choice : List Word → Nat

/-- The number of the table or zero point that column `j` takes under a choice (R31). -/
def Config.kw6Group (choice j : Nat) : Nat :=
  if 1 ≤ choice ∧ choice ≤ 4 then j / (16 * 2 ^ choice) else 0

/-- The block, in 4 KiB units within its port's carve-out, that holds block `i` of the page whose frame starts at an address:
the spec says which port a board-resident page's blocks lie on (R183) and not where on it (DESIGN CHOICE, log 113). -/
opaque Config.stripeSlot : Nat → Nat → Nat

/-- The sectors that KC compression gives a 4 KiB block that is not all zero (R175): the spec does not state the encoding, and
says that N depends only on the contents (DESIGN CHOICE, log 114). -/
opaque Config.kcSectors : List Byte → Nat

/-- Flits of a (VC, CLASS) pair that a port's buffer holds beyond those of one message (R376): the spec gives no sizes
(DESIGN CHOICE, log 127). -/
opaque Config.rxExtra : Nat → Nat → Nat

/-- Flits of a (VC, CLASS) pair that a port has buffer space for: one message of 16,384 B at least (DESIGN CHOICE, log 127). -/
def Config.rxFlits (vc cls : Nat) : Nat := 68 + Config.rxExtra vc cls

/-- Byte `i` of the SHA3-512 digest of FIPS 202 (19): the spec names the other standard and does not restate it, so the
function is left uninterpreted (DESIGN CHOICE, log 12). -/
opaque Config.sha3Byte : List Byte → Nat → Byte

/-- SHA3-512: 64 bytes (DESIGN CHOICE, log 12). -/
def Config.sha3x512 (data : List Byte) : List Byte := (List.range 64).map (Config.sha3Byte data)

/-- Byte `i` of KMAC256 of SP 800-185: key, data, output bits, customisation string (R439, R444, R446, R449, R457) (DESIGN CHOICE, log 12). -/
opaque Config.kmacByte : List Byte → List Byte → Nat → String → Nat → Byte

/-- KMAC256: as many bytes as the output bits ask (DESIGN CHOICE, log 12). -/
def Config.kmac256 (key data : List Byte) (bits : Nat) (custom : String) : List Byte :=
  (List.range (bits / 8)).map (Config.kmacByte key data bits custom)

/-- ML-DSA-87 verification under FIPS 204: public key, message, context string, signature (R440, R441, R449) (DESIGN CHOICE, log 12). -/
opaque Config.mldsaVerify : List Byte → List Byte → String → List Byte → Bool

/-- Byte `i` of an ML-DSA-87 signature under FIPS 204: seed of the signing key, message, context string (R445) (DESIGN CHOICE, log 12). -/
opaque Config.signByte : List Byte → List Byte → String → Nat → Byte

/-- An ML-DSA-87 signature: 4,627 bytes (R440) (DESIGN CHOICE, log 12). -/
def Config.mldsaSign (seed msg : List Byte) (context : String) : List Byte :=
  (List.range 4627).map (Config.signByte seed msg context)

/-- Byte `i` of the ML-DSA-87 public key that key generation gives for a seed (R444) (DESIGN CHOICE, log 12). -/
opaque Config.publicByte : List Byte → Nat → Byte

/-- An ML-DSA-87 public key: 2,592 bytes (DESIGN CHOICE, log 12). -/
def Config.mldsaPublic (seed : List Byte) : List Byte := (List.range 2592).map (Config.publicByte seed)

/-- The X.509 v3 alias certificate, in DER, that the key of a seed signs for a public key and a layer's measurement (R444): X.509 is
another standard (DESIGN CHOICE, log 12). -/
opaque Config.aliasCert : List Byte → List Byte → List Byte → List Byte

/-- The key and the customisation string of the authenticated region's tag (R439): the spec gives neither (DESIGN CHOICE, log 128). -/
opaque Config.authKey : List Byte
opaque Config.authCustom : String

/-- The customisation string of the tags of the retirement map's copies (R457): the spec gives none (DESIGN CHOICE, log 128). -/
opaque Config.rmapCustom : String

/-- Whether the UDS reconstructed from PUF helper data fits the data's check value (R441): the PUF's code is not given (DESIGN
CHOICE, log 12). -/
opaque Config.helperFits : List Byte → Bool

/-- The unique device secret that the PUF gives this device (R441): 32 bytes, different on every device. -/
opaque Config.uds : List Byte

/-- The digest of the Fjoaris root public key that the boot ROM holds (19). -/
opaque Config.rootDigest : List Byte

/-- What the encoder settles for a picture before it codes it (R413-R415): the frame of the job, the type (0 key, 1 P, 2 B), its QP or
base_q_idx under CQP, the CTU columns that it refreshes and the number of those that are refreshed with it, how many frames earlier in
coding order its primary_ref_frame lies (0: none), and the bytes that rate control leaves for it, if it bounds them. -/
structure CdcPic where
  frame : Nat
  kind : Nat
  qp : Option Int
  fresh : Nat × Nat
  clean : Nat
  primaryRef : Nat
  room : Option Nat
  deriving DecidableEq, Repr

/-- The coding of one CTU column of a picture: descriptor, what the encoder has settled, the column, every sample of the job, and the
reconstructed columns that prediction and loop filtering may take samples from: those of earlier pictures, by picture and column, and
those before it in the picture. Its bits, and its reconstructed samples. The bits are those of the HEVC or AV1 specification (R402), and
depend on nothing else (R411) (DESIGN CHOICE, log 125). -/
opaque Config.cdcColumn : List Word → CdcPic → Nat → List Nat → List (Nat × Nat × List Nat) → List (List Nat) → List Byte × List Nat

/-- The coded picture of its columns' bits (DESIGN CHOICE, log 125). -/
opaque Config.cdcPicture : List Word → CdcPic → List (List Byte) → List Byte

/-- What stands before a key picture, for a descriptor: parameter sets with the frame rate as HEVC VUI timing, or a sequence header
with AV1 timing_info: FRN and FRD (R414) (DESIGN CHOICE, log 125). -/
opaque Config.cdcHeader : List Word → Nat → Nat → List Byte

/-- A recovery point SEI with a recovery_poc_cnt (R415); a metadata OBU of type ITU-T T.35 with country code, provider code and
payload (R415) (DESIGN CHOICE, log 125). -/
opaque Config.cdcRecoverySei : Nat → List Byte
opaque Config.cdcT35 : Nat → Nat → List Byte → List Byte

/-- Byte `i` of `n` bytes of HEVC filler data NAL units (false) or AV1 padding OBUs (true) (R414) (DESIGN CHOICE, log 125). -/
opaque Config.cdcFillerByte : Bool → Nat → Nat → Byte

/-- Choices of the encoder that the spec leaves to it (DESIGN CHOICE, log 125): by descriptor and place in coding order, the frame and
type under hierarchical B, the distance of primary_ref_frame, and the earlier places that the picture references; by descriptor, the
bits in the buffer when the first picture is taken. -/
opaque Config.cdcOrder : List Word → Nat → Nat × Nat
opaque Config.cdcPrimaryRef : List Word → Nat → Nat
opaque Config.cdcRefs : List Word → Nat → List Nat
opaque Config.cdcStart : List Word → Nat

/-- What the syntax of an access unit or temporal unit says (R401, R402, R406, R408): where it lies, whether it breaks the standard's
syntax, its profile is one accepted, level × 10, the CTB size of HEVC, the features of AV1 that are refused, whether its samples have 10
bits, its type, recovery point and place in output order, how far back its references and its primary_ref_frame lie in decode order,
the bytes of its syntax elements, and its units in order: luma samples, and the units of the frame that each waits for. -/
structure StreamUnit where
  offset : Nat
  size : Nat
  broken : Bool
  accepted : Bool
  level : Nat
  ctb : Nat
  sb128 : Bool
  largeScale : Bool
  mono : Bool
  ten : Bool
  kind : Nat
  recovery : Bool
  order : Nat
  refs : List Nat
  primaryRef : Nat
  elements : Nat
  units : List (Nat × List Nat)
  deriving DecidableEq, Repr

/-- The parts of a bitstream, NAL units (false) or OBUs (true): nuh_layer_id (0 for an OBU), offset, bytes; and unit `k` of a stream of
such parts: standards of their own (DESIGN CHOICE, log 125). -/
opaque Config.cdcParts : Bool → List Byte → List (Nat × Nat × List Byte)
opaque Config.cdcUnit : Bool → List (Nat × List Byte) → Nat → Option StreamUnit

/-- A sample of the output of the decoding process (R402): of unit `k` of a stream, by plane, row and column; and for AV1 what film grain
synthesis makes of the picture (DESIGN CHOICE, log 125). -/
opaque Config.cdcSample : Bool → List (Nat × List Byte) → Nat → Nat → Nat → Nat → Nat
opaque Config.cdcGrain : List (Nat × List Byte) → Nat → Nat → Nat → Nat → Nat

/-- Bytes of the syntax elements of a picture that a ganged encode codes (R412) (DESIGN CHOICE, log 125). -/
opaque Config.cdcElements : List Word → Nat → Nat

/-- Whether partition `p` of the other device of a ply pair has the shape that a `PRT_COMP_p` value gives (R324): the other
device's registers are outside this one (DESIGN CHOICE, log 58). -/
opaque Config.plyShape : Nat → Word → Bool

/-- The voltage, in mV, that the V12 asks of VDD_Q0-VDD_Q3 for the clock `k` steps below 2,700 MHz (R478): the spec gives
the range and not the values (DESIGN CHOICE, log 59). -/
opaque Config.vddFor : Nat → BitVec 16

/-- The parts of an owner configuration blob (R442): UID, SEQ, owner public keys, OWNER_FW, NO_DEBUG3, signature. The spec says
what it carries and not where (DESIGN CHOICE, log 61). -/
opaque Config.ownerParts : List Byte → List Byte × Nat × List (List Byte) × Bool × Bool × List Byte

end Sys2Proof
end

