-- ==== Sys2Proof/Machine/State.lean ====
section
/-! DEFINITION. Everything the spec gives the V12 to hold, as plain data; the state after reset; the reasons a step can
stop. -/

namespace Sys2Proof.Machine

/-- A sparse table: key and value, keys strictly rising. What an unlisted key reads as is said where the table is used. -/
abbrev Tab (α : Type) := List (Nat × α)

/-- The memory of the device by local address (R168): sparse bytes, an unlisted address reads 0 (DESIGN CHOICE, log 4). -/
abbrev Memory := List Host.Cell

/-- Why the machine stops. No step of this model ends in a fault: what the spec calls a program fault is a next state
(the context is torn down, R348), and a device failure is a next state too (R458). -/
inductive Fault where
  /-- Raised by no meaning. Safe: nothing rests on it. -/
  | unused
  deriving DecidableEq, Repr

/-- Why a command has no step. -/
inductive Refusal where
  /-- Raised only by an arm of `exec` whose row has no meaning yet. Safe. -/
  | notModelled (mnemonic : String)
  /-- Raised by every meaning whose event cannot occur in the state: an instruction of a thread that is not running or
  is blocked, an arrival for a stream that is not open, a tick in the middle of a tick. The device takes no such step,
  so the model takes none. Safe. -/
  | notEnabled (why : String)
  deriving DecidableEq, Repr

/-! ## Flyer threads (10, 11) -/

/-- A loop record (R253) and the order in which its loop was started. -/
structure LoopRec where
  active : Bool := false
  start : Half := 0
  stop : Half := 0
  depth : Nat := 0
  order : Nat := 0
  deriving DecidableEq, Repr

/-- An open turn (R234): start and end as stroke indices, or as fine ticks for class 0; how often it was stretched; its
ordinal since launch; the issue number at which its instructions begin. -/
structure TurnSt where
  start : Nat
  stop : Nat
  stretched : Nat := 0
  overrun : Bool := false
  ordinal : Nat := 0
  fromSeq : Nat := 0
  deriving DecidableEq, Repr

/-- What a pending `draft.wait` waits for (R197, R280). -/
inductive DWait where
  /-- tile or fill `t` of the stream has arrived or become visible -/
  | tile (sid : Nat) (t : Nat)
  /-- the claimed slot is filled; it is then freed unread -/
  | free (sid : Nat) (t : Nat)
  /-- the stream has finished; it is then closed -/
  | close (sid : Nat)
  deriving DecidableEq, Repr

/-- A declared handle (R305, R306): the entry's word 0, its span, its shadow, and the granules written. -/
structure Decl where
  idx : Nat
  base : Word
  span : Nat
  len : Nat
  shadow : Nat
  written : List Nat := []
  deriving DecidableEq, Repr

/-- What a thread is blocked on. `seq` is the issue number, which gives the order of service. -/
inductive Block where
  | none
  | sem (shared : Bool) (n : Nat) (amount : Nat) (seq : Nat)
  /-- at `turn n`, for the new turn's start -/
  | turn (n : Nat)
  /-- with the load and gather streams whose transfer had started and stalled, and their tiles filled so far -/
  | fence (mask : BitVec 4) (seq : Nat) (started : List (Nat × Nat))
  /-- `spl.begin` for pool space (R308): its token register, the declarations it has read -/
  | pool (reg : Nat) (decls : List Decl) (seq : Nat)
  | commit (slot : Nat) (reg : Nat)
  | draft (w : DWait) (seq : Nat)
  | links (groups : BitVec 16) (seq : Nat)
  deriving DecidableEq, Repr

/-- A load from the host window that has not returned (R424): destination register, bytes, sign extension; or a write's
absence of one. -/
structure HostLoad where
  reg : Nat
  bytes : Nat
  signed : Bool
  addr : Nat
  seq : Nat
  deriving DecidableEq, Repr

/-- The flyer state of one thread (R222). -/
structure Thread where
  pc : Half := 0
  s : Vector Word 64 := Vector.replicate 64 0
  lc : Vector Half 4 := Vector.replicate 4 0
  loops : Vector LoopRec 4 := Vector.replicate 4 {}
  stack : List Half := []
  sems : Vector (BitVec 16) 16 := Vector.replicate 16 0
  turn : Option TurnSt := none
  /-- turns opened since launch -/
  turns : Nat := 0
  halted : Bool := false
  block : Block := .none
  /-- waiting for the edge or fine tick at which it may first issue (R234, R334) -/
  atEdge : Bool := false
  hostLoads : List HostLoad := []
  /-- the ACC hand-off producer that has no consumer yet (R287) -/
  accProd : Option Nat := none
  /-- the VEPI hand-off producer that has no consumer yet (R287) -/
  vepiProd : Option Nat := none
  /-- the program counter has gone past word 2^32 − 1, the last of the table (R223) -/
  pastEnd : Bool := false
  deriving DecidableEq, Repr

/-! ## Contexts and rings (10, 14, 18) -/

/-- `CTX_STATE`.STATE (21). -/
inductive CState where
  | none | stopped | running | suspended | tearing
  deriving DecidableEq, Repr

/-- A context (R218-R220, R333-R336). -/
structure CtxSt where
  st : CState := .none
  cls : Fin 4 := 3
  filler : Bool := false
  primary : CtxN := 0
  first : Nat := 0
  count : Nat := 0
  turnRec : Bool := false
  /-- order of launch decode (R334) -/
  order : Nat := 0
  /-- a launch waits for its range (R333) -/
  queued : Bool := false
  /-- the launch's record number and CMDID, completed when the context first issues (R429) -/
  launchCmd : Option (Nat × Half) := none
  /-- entry point and s1-s6 of a queued launch -/
  entry : Half := 0
  args : List Word := []
  /-- chosen to be suspended at the next fine-tick boundary (R333) -/
  preempt : Bool := false
  /-- a suspension has begun and its images are not all saved (R336); its engine work has reached its save point -/
  saving : Bool := false
  atPoint : Bool := false
  /-- a restore has begun and is not complete (R334) -/
  restoring : Bool := false
  /-- stroke index of the last edge before the suspension (R239) -/
  suspEdge : Nat := 0
  /-- words of the context's instruction table (R223, DESIGN CHOICE, log 5) -/
  tableWords : Nat := 4294967296
  deriving DecidableEq, Repr

/-- A decoded record that has not completed (R429): its number in the ring, CMDID, whether it is a FENCE, and the stage bank
whose check a STAGE waits for. -/
structure Pend where
  num : Nat
  cmdid : Half
  fence : Bool := false
  bank : Option Nat := none
  deriving DecidableEq, Repr

/-- A MOVE in flight (R429, R430). -/
structure MoveSt where
  num : Nat
  cmdid : Half
  host : Word
  loc : Nat
  len : Nat
  toHost : Bool
  deriving DecidableEq, Repr

/-- One ring pair (R427-R433): what its registers do not show. -/
structure RingSt where
  sqTail : Nat := 0
  cqHead : Nat := 0
  /-- PHASE of the next completion record -/
  phase : Bool := true
  /-- the function that wrote the submission tail last (R431) -/
  sender : Nat := 0
  /-- records decoded so far -/
  nums : Nat := 0
  pending : List Pend := []
  moves : List MoveSt := []
  /-- held completion records (R433) -/
  held : List (Word × Word) := []
  fullRaised : Bool := false
  /-- 256 records were held at an edge: the context's threads issue nothing (R433) -/
  stop : Bool := false
  deriving DecidableEq, Repr

/-- A completion that has fallen due and is not posted (R432). Ring 64 is the admin ring. -/
structure Due where
  ring : Nat
  kind : BitVec 3
  status : BitVec 8 := 0
  flags : BitVec 8 := 0
  ref : Half := 0
  /-- of a halt record: the launch it is of, by its order (R432) -/
  launch : Nat := 0
  deriving DecidableEq, Repr

/-! ## Handles, streams (09, 10, 12) -/

/-- A handle-table entry as an instruction read it (R225, R226). -/
structure Handle where
  idx : Nat := 0
  w0 : Word := 0
  w1 : Word := 0
  w2 : Word := 0
  w3 : Word := 0
  w4 : Word := 0
  w5 : Word := 0
  w6 : Word := 0
  w7 : Word := 0
  /-- what is added to its addresses: nothing where it lies on this device, else 2^48 × (device + 1) (R171, DESIGN CHOICE, log 116) -/
  far : Nat := 0
  deriving DecidableEq, Repr

/-- The kind of a stream (R194). -/
inductive SKind where
  | load | store | gather | member
  deriving DecidableEq, Repr

/-- The walk of a stream (R279). -/
inductive Walk where
  /-- first tile row and column, tiles down and across, rows innermost, repeats -/
  | tiles (r0 c0 nr nc : Nat) (rowsInner : Bool) (rep : Nat)
  /-- first row, rows, repeats -/
  | rows (r0 n rep : Nat)
  | driven
  | localS
  /-- a receive stream whose group has not started (R281) -/
  | unbound
  /-- gather: first list region and list count (R277) -/
  | lists (r0 n : Nat)
  deriving DecidableEq, Repr

/-- The tiles that one binding instruction asks of a driven stream (R285, R289): its far end, the tiles in order by
(tile row, tile column), and the stream's index of the first. -/
structure Seg where
  op : Nat
  h : Handle
  tiles : List (Nat × Nat)
  first : Nat
  /-- the scale handle of its operand -/
  scaleH : Option Handle := none
  /-- tiles in B layout (columns outermost) -/
  isB : Bool := false
  /-- the slub handle of its operand, whose regions go with the tiles (R28) -/
  slubH : Option Handle := none
  /-- 0: tiles of a view; 1, 2: K or V parts of pages' subpages, the tiles being (page, head) (R125, R289) -/
  page : Nat := 0
  /-- word that bound it -/
  pc : Half := 0
  deriving DecidableEq, Repr

/-- An entry that a gather stream has delivered (R200, R201). -/
structure GEnt where
  list : Nat
  entry : Nat
  slot : Nat
  page : Nat
  fill : Nat
  freed : Bool := false
  deriving DecidableEq, Repr

/-- The elements that the fill of a local slot covers: rows, elements of a row, bytes from row to row. -/
structure SlotShape where
  tile : Nat
  rows : Nat
  len : Nat
  pitch : Nat
  deriving DecidableEq, Repr

/-- An open stream (R194-R201). Tile t lies in slot t mod count; `slots` says which tile a slot holds. -/
structure Stream where
  t : Tid
  sid : Nat
  /-- word that opened it -/
  pc : Half := 0
  kind : SKind := .load
  scratch : Bool := false
  creel : Bool := false
  hold : Bool := false
  off : Nat := 0
  size : Nat := 64
  count : Nat := 1
  fmt : BitVec 4 := 0
  h : Handle := {}
  scaleH : Option Handle := none
  slubH : Option Handle := none
  walk : Walk := .localS
  slots : List (Option Nat) := []
  /-- tiles filled so far (load: by the engine; store and local: by producers) -/
  filled : Nat := 0
  /-- next tile that a consumer claims; a tile is in its slot until it is freed -/
  cons : Nat := 0
  /-- next fill that a producer claims -/
  prod : Nat := 0
  /-- fills claimed by instructions that issued before the thread's open turn (R235) -/
  before : Nat := 0
  /-- tiles drained so far, in walk order -/
  drained : Nat := 0
  /-- rows that a fill covered, for fills that cover fewer than the slot's (tile, rows) -/
  short : List (Nat × Nat) := []
  /-- what the fills of a local stream cover, noted as their slots are claimed (R280, R292) -/
  shapes : List SlotShape := []
  /-- A tiles kept in their slots by KEEPA (R284) -/
  kept : Nat := 0
  segs : List Seg := []
  /-- the slub regions that came with the tiles in its slots (R28) -/
  regions : List (Nat × List Byte) := []
  /-- the page whose migration the stream waits for (R181), and whether the transfer of its next tile has started (R258) -/
  miss : Option Nat := none
  begun : Bool := false
  /-- consecutive stalled strokes, and whether data moved in this stroke (R215) -/
  stall : Nat := 0
  moved : Bool := false
  seq : Nat := 0
  /-- gather: next list and entry to deliver, and what is delivered -/
  gList : Nat := 0
  gEntry : Nat := 0
  /-- gather: COUNT of that list, once it is read -/
  gCount : Option Nat := none
  gents : List GEnt := []
  /-- multicast group tag of a member stream, and whether it continues by unicast (R211) -/
  tag : Nat := 0
  dropped : Bool := false
  /-- its transfer is not complete (R275) -/
  live : Bool := true
  /-- member of a remote group: the device that its tiles come from, and the parts of the next tile that are in its slot (R393) -/
  home : Option (BitVec 16) := none
  parts : Nat := 0
  deriving DecidableEq, Repr

/-- A member of a multicast group: a stream, and the tiles delivered to it. -/
structure Member where
  t : Tid
  sid : Nat
  got : Nat := 0
  deriving DecidableEq, Repr

/-- A multicast group that has started (R209-R211): sender, source walk, members and skew window; remote members by
device with the tiles they have acknowledged (R393). -/
structure Group where
  ctx : CtxN
  quarter : Nat
  tag : Nat
  sender : Tid
  sid : Nat
  window : Nat
  members : List Member := []
  remote : List (Nat × Nat) := []
  /-- it started with remote members -/
  spread : Bool := false
  /-- its local members have closed; its source serves the tile requests of remote members still (R211, R393) -/
  ended : Bool := false
  /-- the sender's stream as it was opened: what is read and how (R211) -/
  src : Stream
  deriving DecidableEq, Repr

/-! ## Engine instructions (12) -/

/-- Which engine instruction. -/
inductive EngTag where
  | mma | qnt | vadd | vmul | vfma | vmax | vmin | vred | vcvt | vepi | vrot | vfn | vstat | vnorm
  | smScore | smAcc | smRecomp | smEnd | cardBuild | cardSel
  | swConv | swPool | swBox | swNms | swPatch | swPix | vrng
  deriving DecidableEq, Repr

/-- A slot that an engine instruction has claimed (R280, R285): the tile's index in the stream, and whether the
instruction fills it (a producer) or frees it. -/
structure Claim where
  sid : Nat
  tile : Nat
  fills : Bool
  deriving DecidableEq, Repr

/-- What a conversion or a rounding met (R41): elements counted as new poison, consumed poison, saturation, stored poison. -/
structure Cnt where
  new : Nat := 0
  cons : Nat := 0
  sat : Nat := 0
  st : Nat := 0
  deriving DecidableEq, Repr

/-- A tile of LA192 accumulators (R83, R88): its place in D and its values by row. -/
structure AccTile where
  mt : Nat
  nt : Nat
  q : List (List (BitVec 192)) := []
  deriving DecidableEq, Repr

/-- An engine instruction that has issued and is not complete (R275): everything it read at issue, and how far it is. -/
structure EngOp where
  id : Nat
  t : Tid
  pc : Half := 0
  tag : EngTag
  f : Fields := {}
  s : Vector Word 64 := Vector.replicate 64 0
  hs : List Handle := []
  claims : List Claim := []
  /-- units done so far: passes of an `mma`, slots of a stream source, tiles of the others -/
  prog : Nat := 0
  /-- accumulator tiles that stay in their slots (R95); what another instruction has taken in and not used yet -/
  acc : List AccTile := []
  /-- tiles complete and not read out -/
  out : List AccTile := []
  /-- what an `mma` has met in tiles that it has not delivered, by tile: M, N (R44) -/
  met : List (Nat × Nat × Cnt) := []
  /-- the hand-off producer this instruction consumes (R287) -/
  src : Option Nat := none
  /-- vector scratch ranges that it reads and writes -/
  rds : List (Nat × Nat) := []
  wrs : List (Nat × Nat) := []
  /-- rows and columns of its output (R75) -/
  m : Nat := 0
  n : Nat := 0
  /-- handles that it writes directly -/
  writes : List Nat := []
  /-- stream positions of its first A, B and D tiles (R285) -/
  aBase : Nat := 0
  bBase : Nat := 0
  dBase : Nat := 0
  /-- a replay of its splice runs it with own-scale and the doubled limit (R70) -/
  replay : Bool := false
  deriving DecidableEq, Repr

/-- What the engines keep of a softmax row state beside its bytes in vector scratch (R143, R145): thread and offset name it;
the recompute form's visits are kept apart; the last entry stepped; whether its accumulate step is due; α of each row, as
KF32 codes. -/
structure RowSt where
  t : Tid
  off : Nat
  recomp : Bool := false
  last : Nat := 0
  due : Bool := false
  alpha : List Nat := []
  deriving DecidableEq, Repr

/-! ## Splices (11, 13) -/

/-- A replay point (R72). -/
structure Replay where
  s : Vector Word 64 := Vector.replicate 64 0
  lc : Vector Half 4 := Vector.replicate 4 0
  loops : Vector LoopRec 4 := Vector.replicate 4 {}
  stack : List Half := []
  pc : Half := 0
  streams : List Stream := []
  /-- prior entries of handles written with `hset` -/
  entries : List (Nat × List Byte) := []
  deriving DecidableEq, Repr

/-- STATE of `spl.status` for an existing splice (R269). -/
inductive SplSt where
  | opened | pending | passed
  deriving DecidableEq, Repr

/-- A splice that exists (R265). `slot` is its slot of partition `part`. -/
structure Splice where
  part : PartN
  slot : Nat
  gen : BitVec 16
  opener : Tid
  decls : List Decl := []
  st : SplSt := .opened
  /-- underflow, overflow, slub overflow, clip (R66) -/
  nUnder : Half := 0
  nOver : Half := 0
  nSlub : Half := 0
  nClip : Half := 0
  replayed : Bool := false
  degraded : Bool := false
  replayable : Bool := true
  replay : Replay := {}
  /-- scratch bytes read before being written since `spl.begin`, and bytes written (R71) -/
  scrRead : List (Nat × Nat) := []
  scrWritten : List (Nat × Nat) := []
  filledIn : Bool := false
  /-- an uncorrectable memory error was reported in a shadow (R311) -/
  hurt : Bool := false
  /-- order in which checks passed (R313) -/
  passed : Nat := 0
  committer : Tid
  tokenReg : Nat := 0
  deriving DecidableEq, Repr

/-- What a splice leaves when it ends: after a flip (`flip`) the superseded span `span` joins the pool once the instructions
that read the old entry complete, and writes through it land in the ex-shadow `dest` (R309, R314); after a discard the shadow `dest`
returns to the pool once the writes that had begun complete, and they land in it (R315): those of instructions that issued
before number `seq`, and of the tiles before the ones given of store streams. -/
structure Retiring where
  part : PartN
  span : Nat
  dest : Nat
  len : Nat
  ctx : CtxN
  idx : Nat
  seq : Nat
  flip : Bool
  tiles : List (Tid × Nat × Nat) := []
  deriving DecidableEq, Repr

/-! ## Unified range and plans (08, 09) -/

/-- A unified page that holds a frame (R180): the frame's local address, the stroke of its last access, and its place in
the order of release. -/
structure PageSt where
  frame : Nat
  last : Word := 0
  released : Option Nat := none
  deriving DecidableEq, Repr

/-- A migration in motion or waiting (R180-R183): page, quarter it goes to, the context it is for, and the partition whose buffer it
uses. -/
structure Mig where
  page : Nat
  quarter : Nat
  ctx : CtxN
  part : Nat := 0
  deriving DecidableEq, Repr

/-- A plan (R212-R214). -/
structure Plan where
  region : Nat
  t : Tid
  h : Handle
  depth : Nat
  cursor : Nat := 0
  /-- pages of the present fetch entry already asked for -/
  inEntry : Nat := 0
  advances : List Half := []
  /-- fetched pages that wait for their first access -/
  waiting : List Nat := []
  deriving DecidableEq, Repr

/-! ## Links (16) -/

/-- A link instruction that is not complete (R382-R385). -/
structure LkOp where
  id : Nat
  t : Tid
  seq : Nat
  group : Nat
  op : MsgOp
  /-- header fields common to its messages -/
  proto : Msg := {}
  /-- local address of the next byte to send or to receive, remote address, bytes left to send -/
  loc : Nat := 0
  hidx : Nat := 0
  remote : Nat := 0
  left : Nat := 0
  /-- a last message with SIG waits for the others (R386); one of which no acknowledgement can come any more -/
  sig : Option Word := none
  failed : Bool := false
  /-- messages outstanding, and the quarter of its thread at issue (R180) -/
  out : Nat := 0
  quarter : Nat := 0
  /-- torn down: runs to completion and reports nothing (R349) -/
  quiet : Bool := false
  deriving DecidableEq, Repr

/-- A tile of a multicast on its way to a member device: what of it has been sent, in parts (R393). -/
structure TileOut where
  ctx : CtxN
  quarter : Nat
  tag : Nat
  dst : Nat
  tile : Nat
  last : Bool
  part : Nat := 0
  data : List Byte
  deriving DecidableEq, Repr

/-- An outstanding message (R389, R390). -/
structure OutMsg where
  ctx : CtxN
  tag : BitVec 12
  op : MsgOp
  lk : Nat
  loc : Nat := 0
  len : Nat := 0
  hidx : Nat := 0
  dst : BitVec 16 := 0
  /-- the global address of its target -/
  goal : Word := 0
  edge : Nat := 0
  /-- devices whose answers are to come: its target, or the members of a multicast put (R385, R392) -/
  due : List Nat := []
  /-- its context was torn down: it holds its tag and no credit, and reports nothing (R349, R389) -/
  free : Bool := false
  /-- the quarter of its operation's thread (R180) -/
  quarter : Nat := 0
  deriving DecidableEq, Repr

/-- What a flit carries beside SEQ and ACK (R373). -/
structure Flit where
  vc : BitVec 2 := 0
  cls : BitVec 4 := 0
  som : Bool := false
  eom : Bool := false
  payload : List Byte := []
  deriving DecidableEq, Repr

/-- A message that waits at a port for credits or for the port (R371, R376): the port and class of the buffer it came over (none: injected
here), the class of its flits, the flits sent, and the buffer that holds them until then. -/
structure TxMsg where
  m : Msg
  came : Option (Nat × Nat) := none
  cls : Nat := 0
  sent : Nat := 0
  hold : Option Nat := none
  deriving DecidableEq, Repr

/-- Flits of a message in transit in the buffer that it came into: a flit is released, and its credit goes back, when every branch has taken
it (R376, R392). `opened`: branches may still be added. -/
structure Held where
  id : Nat
  port : Nat
  vc : Nat
  cls : Nat
  flits : Nat
  given : Nat := 0
  opened : Bool := true
  deriving DecidableEq, Repr

/-- A message in a buffer of this device, complete: the port and the class it came over, none where it was made here for this
device; and the flits whose credits go back when it leaves. -/
structure InMsg where
  m : Msg
  came : Option (Nat × Nat) := none
  owes : Nat := 0
  deriving DecidableEq, Repr

/-- The state of a Skein port beyond its registers (R370-R376): the SEQ it expects, the SEQ it sends next, its retry buffer of
sent flits by SEQ, whether it has asked for a resend that has not come, the messages that wait, the credits in use and the bytes and
flits of messages that are coming in, both by pair (key 16·VC + CLASS). -/
structure PortSt where
  expect : BitVec 12 := 0
  next : BitVec 12 := 0
  retry : List (BitVec 12 × Flit) := []
  resend : Bool := false
  waiting : List TxMsg := []
  used : Tab Nat := []
  parts : Tab (List Byte × Nat) := []
  deriving DecidableEq, Repr

/-- A flit that goes out on a port, or the content of a control message of one hop (R375). -/
inductive LinkOut where
  | flit (port : Nat) (bytes : List Byte)
  | credit (port vc cls n : Nat)
  | marker (port : Nat) (m : Marker)
  | resend (port : Nat) (seq : BitVec 12)
  /-- this device's ID and the port, in training (R370) -/
  | identity (port dev : Nat)
  | portStates (live : BitVec 8)
  /-- bytes, or the low or high half of a byte, that a store stream or an engine sends to another device (DESIGN CHOICE, log 33) -/
  | far (dev addr : Nat) (data : List Byte)
  | farHalf (dev addr : Nat) (high : Bool) (v : BitVec 4)
  /-- bytes that an engine asks of another device (DESIGN CHOICE, log 116) -/
  | farRead (dev addr len : Nat)
  | heartbeat (edge : Word)
  | heartbeatAck (edge : Word)
  | record (r : PlyRecord)
  | recordAck (edge : Word)
  deriving DecidableEq, Repr

/-- Whose an access to the host is (R424, R427): the function of its requester ID, and the context's PASID where it carries one. -/
structure HostId where
  fn : Nat := 0
  pasid : Option (BitVec 20) := none
  deriving DecidableEq, Repr

/-- What AER reports (R419, R451, R458): an uncorrectable internal error, a poisoned TLP, an error of the PCIe link. -/
inductive AerKind where
  | internal | poisoned | link
  deriving DecidableEq, Repr

/-- What leaves for the host (18). -/
inductive HostOut where
  /-- bytes written at a bus address; of a host-window access each naturally aligned piece of 1 to 8 B is one TLP (R424) -/
  | write (addr : Nat) (data : List Byte) (who : HostId := {})
  /-- the low or high half of a byte, of a tensor of 4-bit elements (R25, DESIGN CHOICE, log 33) -/
  | writeHalf (addr : Nat) (high : Bool) (v : BitVec 4) (who : HostId := {})
  /-- a read request for the host's memory -/
  | read (addr : Nat) (len : Nat) (who : HostId := {})
  | msix (fn : Nat) (vector : Nat)
  /-- BAR4 read data, or a poisoned or unsupported completion -/
  | bar4 (data : Option (List Byte))
  | unsupported
  | aer (k : AerKind)
  /-- bytes that leave as poisoned TLPs (R452) -/
  | poison (addr : Nat) (data : List Byte) (who : HostId := {})
  /-- Configuration Request Retry Status (R480) -/
  | retry
  deriving DecidableEq, Repr

/-! ## Codec (17) -/

/-- A codec job, queued or running (R403-R412). -/
structure CdcJob where
  id : Nat
  t : Tid
  seq : Nat
  desc : List Word
  hs : List Handle := []
  /-- handles that it writes -/
  writes : List Nat := []
  sem : Nat
  amount : Nat
  /-- the cores that it holds, and the unit of each that has one: core, frame, unit (R408) -/
  cores : List Nat := []
  work : List (Nat × Nat × Nat) := []
  started : Bool := false
  torn : Bool := false
  ended : Bool := false
  /-- a core of it has failed: it ends with STATUS TORN (R451) -/
  hurt : Bool := false
  /-- cores to be given up at the next unit boundary (R409) -/
  yields : List Nat := []
  /-- what it has read: the samples of its frames in coded depth, or the bytes of its bitstream, and `CDC_CFG_p` (R411) -/
  input : List Nat := []
  cfg : Word := 0
  /-- units done, by frame, of the frames that are not written; frames written; and whether a frame did not fit the bitstream handle
  (R406) -/
  units : List (Nat × Nat) := []
  done : Nat := 0
  full : Bool := false
  /-- ganged mode (R412): frames whose syntax elements are in the syntax buffer whole, and the frame of each entropy engine at work -/
  parsed : List Nat := []
  parsing : List (Nat × Nat) := []
  deriving DecidableEq, Repr

/-! ## Reel, ply, security, power -/

/-- A record of the reel that waits for its edge or for its delivery (R359, R360). -/
structure ReelRec where
  ty : BitVec 8
  ctx : CtxN
  stroke : Nat
  tick : Nat
  payload : List Byte
  /-- SEQ, of a record read back -/
  seq : Nat := 0
  deriving DecidableEq, Repr

/-- The reel of a partition (15). -/
structure ReelSt where
  buf : List ReelRec := []
  seq : BitVec 24 := 0
  stopped : Bool := false
  /-- bytes of records in the ring, and the offset of the oldest -/
  used : Nat := 0
  oldest : Nat := 0
  /-- end of the recorded bytes, for replay -/
  last : Nat := 0
  /-- STROKE of the start record -/
  s0 : Nat := 0
  /-- recorded link headers, digests and marks whose live counterpart has not come; and live ones whose record has not been
  delivered (R364) -/
  wanted : List ReelRec := []
  came : List ReelRec := []
  deriving DecidableEq, Repr

/-- A ply pair's state beyond its registers (13). -/
structure PlySt where
  /-- the last heartbeat edge answered (active) or received (standby) -/
  lastOk : Nat := 0
  /-- the image of a join is on its way (R329); the bytes of it that have been shipped, and whether it has come whole -/
  joining : Bool := false
  cursor : Nat := 0
  imaged : Bool := false
  /-- records that found no live lane of P14 and P15, oldest first -/
  unsent : List PlyRecord := []
  /-- handle-table entries of mirrored contexts written since the previous record, by local address -/
  touched : List Nat := []
  /-- PLY_LOST has been raised for the present run of misses -/
  lost : Bool := false
  deriving DecidableEq, Repr

/-- The owner configuration blob (R442). -/
structure OwnerBlob where
  bytes : List Byte := []
  uid : List Byte := []
  seq : Nat := 0
  keys : List (List Byte) := []
  ownerFw : Bool := false
  noDebug3 : Bool := false
  sig : List Byte := []
  deriving DecidableEq, Repr

/-- What the authenticated region of the flash holds (R438): the SVN floor, the owner sequence floor, OWNED, the preferred slot (true: B),
the counter reservation, the wrapped command key, and a pending request for debug level 3. -/
structure AuthRegion where
  svnFloor : Nat := 0
  ownerFloor : Nat := 0
  owned : Bool := false
  preferred : Bool := false
  cres : Nat := 0
  wrapped : Option (List Byte) := none
  debug3 : Bool := false
  deriving DecidableEq, Repr

/-- The bytes of a number, lowest first. -/
def numBytes (n v : Nat) : List Byte := (List.range n).map (fun i => BitVec.ofNat 8 (v / 256 ^ i))

/-- The bytes of the authenticated region that its tag covers (R439); their order is the model's (DESIGN CHOICE, log 128). -/
def AuthRegion.bytes (a : AuthRegion) : List Byte :=
  numBytes 4 a.svnFloor ++ numBytes 8 a.ownerFloor ++ numBytes 8 a.cres ++
  numBytes 1 ((if a.owned then 1 else 0) + (if a.preferred then 2 else 0) + (if a.wrapped.isSome then 4 else 0) +
    (if a.debug3 then 8 else 0)) ++ a.wrapped.getD []

/-- The tag of the authenticated region over its contents and a count of the RPMC (R439). -/
def AuthRegion.tagFor (a : AuthRegion) (count : Nat) : List Byte :=
  Config.kmac256 Config.authKey (a.bytes ++ numBytes 4 count) 256 Config.authCustom

/-- A copy of the retirement map (R457): its sequence number, the `GLB_RMAP_w` words, its tag. -/
structure RmapCopy where
  seq : Nat := 0
  words : List Word := []
  tag : List Byte := []
  deriving DecidableEq, Repr

/-- The flash (R438-R440, R457), by the parts of its map: root key block; PUF helper data and the Fjoaris device certificate; owner
configuration blob, in force and installed; authenticated region and its tag; whether it provides an RPMC, counter 0 of that and its
root key once written; two copies of the retirement map; two firmware slots. -/
structure FlashSt where
  rootKey : List Byte := []
  helper : List Byte := []
  devCert : List Byte := []
  owner : Option OwnerBlob := none
  newOwner : Option OwnerBlob := none
  auth : AuthRegion := {}
  authTag : List Byte := AuthRegion.tagFor {} 0
  hasRpmc : Bool := true
  rpmc : Nat := 0
  rpmcKey : Option (List Byte) := none
  rmapA : RmapCopy := {}
  rmapB : RmapCopy := {}
  slotA : List Byte := []
  slotB : List Byte := []
  deriving DecidableEq, Repr

/-- The security block (19). -/
structure SecSt where
  ident : Bool := false
  key : List Byte := []
  measures : List (List Byte) := []
  /-- the seed of the alias private key that each layer was handed, its own only, and the alias certificates (R444) -/
  handed : List (List Byte) := []
  certs : List (List Byte) := []
  runSvn : Nat := 0
  layers : Nat := 0
  uid : List Byte := []
  loaded : Option Bool := none
  /-- consecutive AUTH failures (R446) -/
  failRun : Nat := 0
  ownerBlob : Option OwnerBlob := none
  /-- nonce, address and CHAIN of the attestation request in progress (R445) -/
  att : Option (List Byte × Nat × Bool) := none
  deriving DecidableEq, Repr

/-- A hub firmware activation (R347): the edge at which its stall begins and the edge at which it ends. -/
structure FwSt where
  from' : Nat
  to' : Nat
  cmdid : Half
  num : Nat
  raise : Bool
  slot : Bool
  deriving DecidableEq, Repr

/-- What the V12 answers on the management bus (R486): an acknowledgement, none, a word with its packet error code, or its address at
the Alert Response Address. -/
inductive SmbOut where
  | ack | nack
  | word (v : BitVec 16) (pec : Byte)
  | alert (addr : Byte)
  deriving DecidableEq, Repr

/-- PCI Express (18): functions in D3hot (R419), the size of each BAR4 as a power of two of GiB (unlisted: 1 GiB, R421), and the MSI-X
vectors that are masked, and pending, by function (R436). Reset values: DESIGN CHOICE, log 132. -/
structure PciSt where
  d3hot : List Nat := []
  bar4Log : Tab Nat := []
  masked : List (Nat × Nat) := []
  pending : List (Nat × Nat) := []
  deriving DecidableEq, Repr

/-- Pins, clocks, rails and the clock control (22). -/
structure PowerSt where
  pwrok : Bool := true
  prochotN : Bool := true
  thermtripN : Bool := true
  alertN : Bool := true
  syncOut : Bool := false
  smbAddr : BitVec 8 := 0x60
  plimit : BitVec 16 := 2600
  plimitNew : Option (BitVec 16) := none
  alertMask : BitVec 16 := 0x001C
  status : BitVec 16 := 0
  /-- 27 MHz steps below 2,700 MHz, 0-50 (R482) -/
  step : Nat := 0
  lowPower : Nat := 0
  lowTemp : Nat := 0
  watts : Nat := 0
  /-- the estimates of the last 2,000 fine ticks, latest first (R486), and the levels of GPIO[15:0] (R474) -/
  wattsLog : List Nat := []
  gpio : BitVec 16 := 0
  tj : Int := 0
  /-- causes of the present throttling -/
  causes : BitVec 3 := 0
  /-- requests outstanding at the VDD_Qq regulators: those of reset release at first, for the clock 0 steps down, and a clock held by a
  timeout (R478); the voltages in force -/
  avs : List Nat := [0, 1, 2, 3]
  asked : Nat := 0
  avsHeld : Bool := false
  vdd : Vector (BitVec 16) 4 := Vector.replicate 4 750
  clkPcie : Bool := true
  clkSk0 : Bool := true
  clkSk1 : Bool := true
  clkCore : Bool := true
  /-- at the floor the power rule still asks for a step down: issue in alternate fine ticks only (R483) -/
  halfRate : Bool := false
  issueOff : Bool := false
  /-- the boot ROM waits for 0 °C (R487) -/
  bootWait : Bool := false
  /-- what the V12 has answered on the management bus (R486; DESIGN CHOICE, log 3) -/
  smbOut : List SmbOut := []
  deriving DecidableEq, Repr

/-- The open error window of a unit (R454): the fine tick at which it opened, and the errors counted since. -/
structure Window where
  unit : UnitId
  opened : Nat
  count : Nat
  deriving DecidableEq, Repr

/-- A contribution that arrived before its turn (R191): its granule and rank, its place in the granule, its length, its element format,
and the context of this device that issued it (64: none). Its bytes are in the hold area. -/
structure HeldRed where
  gran : Nat
  rank : Nat
  off : Nat
  len : Nat
  kf16 : Bool
  ctx : Nat := 64
  deriving DecidableEq, Repr

/-- A doorbell that is held: a submission tail, a completion head, or an inline record (R347, R364). -/
inductive Bell where
  | tail (fn : Nat) (ring : Ring) (v : Half)
  | head (ring : Ring) (v : Half)
  | inline (fn : Nat) (c : CtxN) (whole : Bool) (r : Rec)
  deriving DecidableEq, Repr

/-- The whole state of the V12. -/
structure State where
  /-- the commands that wait, first in first out -/
  pending : List Instr := []
  /-- stored register values by BAR0 offset; an unlisted register holds its reset value -/
  regs : Tab Word := []
  /-- values in force of the edge-effective registers (R467), likewise -/
  act : Tab Word := []
  /-- held write halves (R465): function, slot offset, value -/
  halves : List (Nat × Nat × Half) := []
  /-- latched read halves (R465): function, slot offset, value -/
  latches : List (Nat × Nat × Half) := []
  /-- data of the last register or BAR4 read -/
  rdata : Word := 0
  mem : Memory := []
  /-- 32 B words of memory that are uncorrectable (R452), by local address / 32 -/
  ue : List Nat := []
  /-- bobbin memory and vector scratch by physical spindle -/
  bobbin : Tab Memory := []
  scratch : Tab Memory := []
  /-- the 32 B words of them that are uncorrectable, since a restore brought them in so (R452), by place in an image / 32 -/
  sramUe : Tab (List Nat) := []
  ctxs : Tab CtxSt := []
  threads : Tab Thread := []
  rings : Tab RingSt := []
  due : List Due := []
  /-- counts of the shared semaphores, key 256 × partition + n -/
  sems : Tab (BitVec 16) := []
  /-- creel tags (R202): key 512 × quarter + set, the set's lines with their ways, most recently used first -/
  creel : Tab (List (Nat × Nat)) := []
  streams : List Stream := []
  groups : List Group := []
  ops : List EngOp := []
  /-- issue number of the next instruction, and what it was at the last stroke edge -/
  seq : Nat := 0
  edgeSeq : Nat := 0
  splices : List Splice := []
  /-- GEN of the last use of a splice slot, key 256 × partition + slot; unlisted: never taken -/
  gens : Tab (BitVec 16) := []
  /-- free runs of the splice pools: partition, address, length, in ascending address -/
  pool : List (Nat × Nat × Nat) := []
  /-- contexts that have had a thread blocked for pool space in the present fine tick (R308) -/
  poolWaited : List Nat := []
  retiring : List Retiring := []
  /-- logical spindle that runs on a doubled physical spindle, key physical index; unlisted: the lower one -/
  running : Tab Nat := []
  /-- mapping in force: physical spindles of P per partition (R228); key 4 + partition: its lease's spindles (R343) -/
  pmap : Tab (List Nat) := []
  pages : Tab PageSt := []
  releases : Nat := 0
  migs : List Mig := []
  migQueue : List Mig := []
  plans : List Plan := []
  /-- ranks received in the present round, key granule number: list of ranks (R191) -/
  ranks : Tab (List Nat) := []
  heldReds : List HeldRed := []
  rowStates : List RowSt := []
  lkops : List LkOp := []
  outMsgs : List OutMsg := []
  /-- tiles that wait to go to member devices (R393) -/
  tilesOut : List TileOut := []
  /-- epochs of tags, key 4096 × context + tag; unlisted 0 -/
  epochs : Tab (BitVec 4) := []
  ports : Tab PortSt := []
  /-- messages that have come and have not been served or sent on -/
  inbox : List InMsg := []
  /-- messages in transit that hold their buffers (R376, R392) -/
  held : List Held := []
  /-- mesh port states that hank peers reported (R379), key rank -/
  meshes : Tab (BitVec 8) := []
  jobs : List CdcJob := []
  reels : Tab ReelSt := []
  ply : PlySt := {}
  windows : List Window := []
  /-- units to leave the retirement map at the next cold reset (R455) -/
  unretire : List UnitId := []
  /-- pseudo-channels and board channels that have left L (R172-R174) -/
  pcOut : List Nat := []
  bcOut : List Nat := []
  /-- banks with a check running (R320), and edges of armed banks (R321) -/
  checking : List Nat := []
  armed : Tab Word := []
  /-- HBM stacks throttled in the present stroke (R187) -/
  throttled : List Nat := []
  fw : Option FwSt := none
  /-- doorbells that wait for the end of a firmware stall or of a replay, in order -/
  bells : List Bell := []
  failed : Bool := false
  /-- fine tick of the hub watchdog's last expiry (R458) -/
  lastExpiry : Option Nat := none
  /-- partitions whose reset has begun and is not complete (R350), with its cause -/
  resetting : List (Nat × Nat) := []
  /-- fine ticks since reset release -/
  fticks : Nat := 0
  /-- waiting for TRD_SYNC_IN (R398) -/
  treadleHeld : Bool := false
  /-- the follower listens to ALTPORT (R397) -/
  onAlt : Bool := false
  /-- fine tick of the last marker received; whether the follower has locked, and whether it has missed its parent since (R397) -/
  lastMarker : Nat := 0
  lockedOnce : Bool := false
  parentLost : Bool := false
  /-- picoseconds by which the present fine tick is lengthened (positive) or shortened (R396) -/
  phase : Int := 0
  vfs : Nat := 0
  evtPhase : Bool := true
  evtSeq : Half := 0
  flash : FlashSt := {}
  sec : SecSt := {}
  power : PowerSt := {}
  pci : PciSt := {}
  hostOut : List HostOut := []
  /-- what waits to leave for the host while the PCIe link is down (R476) -/
  hostWait : List HostOut := []
  linkOut : List LinkOut := []
  /-- the model's own: number of the next free value (DESIGN CHOICE, log 6) -/
  freeCtr : Nat := 0
  deriving DecidableEq, Repr

/-- The machine right after a cold reset: every register at its reset value (an unlisted register holds it), nothing
listed in any memory, no context, no stream, an empty queue. The flash holds no retired unit and no image that this
state has started; the hub runtime is taken to run (DESIGN CHOICE, log 10). -/
def State.reset : State := {}

end Sys2Proof.Machine
end

