-- ==== Sys2Proof/Machine/Bits.lean ====
section
/-! DEFINITION. Bit fields, byte order, sparse tables and byte memory: the shared plain operations. -/

namespace Sys2Proof.Machine

/-- Bits hi:lo of a word as a number (00, notation: bit 0 is the LSB). -/
def fld {n : Nat} (w : BitVec n) (hi lo : Nat) : Nat := (w.toNat >>> lo) % 2 ^ (hi + 1 - lo)

/-- One bit of a word. -/
def bit {n : Nat} (w : BitVec n) (i : Nat) : Bool := w.getLsbD i

/-- A word with bits hi:lo replaced by `v`, taken modulo the field's size. -/
def setFld {n : Nat} (w : BitVec n) (hi lo v : Nat) : BitVec n :=
  let m : BitVec n := BitVec.ofNat n ((2 ^ (hi + 1 - lo) - 1) <<< lo)
  (w &&& ~~~m) ||| (BitVec.ofNat n (v <<< lo) &&& m)

/-- Sign extension of the low `n` bits of a number to a signed integer. -/
def signedOf (n v : Nat) : Int := (BitVec.ofNat n v).toInt

/-- The `n` little-endian bytes of a number (R25, R247). -/
def leBytes : Nat → Nat → List Byte
  | 0, _ => []
  | n + 1, v => BitVec.ofNat 8 v :: leBytes n (v / 256)

/-- The number whose little-endian bytes these are. -/
def ofBytes : List Byte → Nat
  | [] => 0
  | b :: bs => b.toNat + 256 * ofBytes bs

/-- The eight bytes of a 64-bit word. -/
def wordBytes (w : Word) : List Byte := leBytes 8 w.toNat

/-- ⌈a / b⌉. -/
def ceilDiv (a b : Nat) : Nat := (a + b - 1) / b

/-- `a` rounded up to a multiple of `b`. -/
def roundUp (a b : Nat) : Nat := ceilDiv a b * b

/-- Whether [a, a + n) and [b, b + m) share a byte. -/
def overlaps (a n b m : Nat) : Bool := decide (a < b + m) && decide (b < a + n) && decide (0 < n) && decide (0 < m)

/-- A range of bytes less the ranges of a list. -/
def minusRanges (r : Nat × Nat) (ws : List (Nat × Nat)) : List (Nat × Nat) :=
  ws.foldl (fun (acc : List (Nat × Nat)) (w : Nat × Nat) => acc.flatMap (fun (p : Nat × Nat) =>
    if overlaps p.1 p.2 w.1 w.2 then
      (if p.1 < w.1 then [(p.1, w.1 - p.1)] else []) ++
      (if w.1 + w.2 < p.1 + p.2 then [(w.1 + w.2, p.1 + p.2 - (w.1 + w.2))] else [])
    else [p])) [r]

/-! ## Sparse tables -/

/-- The value a table lists for a key. -/
def tabGet? {α : Type} (t : Tab α) (k : Nat) : Option α :=
  match t with
  | [] => none
  | (j, v) :: r => if j = k then some v else tabGet? r k

/-- The value for a key, `d` when none is listed. -/
def tabGet {α : Type} (d : α) (t : Tab α) (k : Nat) : α := (tabGet? t k).getD d

/-- The table with key `k` listed as `v`, or with `k` not listed. Keys stay strictly rising. -/
def tabPut {α : Type} (t : Tab α) (k : Nat) (v : Option α) : Tab α :=
  match t with
  | [] => match v with
    | some x => [(k, x)]
    | none => []
  | (j, y) :: r =>
    if k < j then
      match v with
      | some x => (k, x) :: (j, y) :: r
      | none => (j, y) :: r
    else if k = j then
      match v with
      | some x => (k, x) :: r
      | none => r
    else (j, y) :: tabPut r k v

/-- The table with key `k` listed as `v`. -/
def tabSet {α : Type} (t : Tab α) (k : Nat) (v : α) : Tab α := tabPut t k (some v)

/-- The table without key `k`. -/
def tabDel {α : Type} (t : Tab α) (k : Nat) : Tab α := tabPut t k none

/-- Every key of the table is above `lo` and the keys rise strictly. -/
def tabAbove {α : Type} (lo : Nat) : Tab α → Bool
  | [] => true
  | (j, _) :: r => decide (lo < j) && tabAbove j r

/-- The keys of a table rise strictly. -/
def tabRising {α : Type} : Tab α → Bool
  | [] => true
  | (j, _) :: r => tabAbove j r

/-! ## Byte memory -/

/-- What an unlisted address reads as (DESIGN CHOICE, log 4). -/
def Memory.unlisted : Byte := 0

/-- The byte at an address. -/
def memByte (m : Memory) (a : Nat) : Byte := tabGet Memory.unlisted m a

/-- The memory after one byte is written; writing what an unlisted address reads as removes the entry. -/
def memPut (m : Memory) (a : Nat) (b : Byte) : Memory :=
  tabPut m a (if b = Memory.unlisted then none else some b)

/-- The memory after consecutive bytes are written. -/
def memWrite (m : Memory) (a : Nat) : List Byte → Memory
  | [] => m
  | b :: bs => memWrite (memPut m a b) (a + 1) bs

/-- `n` consecutive bytes. -/
def memRead (m : Memory) (a : Nat) : Nat → List Byte
  | 0 => []
  | n + 1 => memByte m a :: memRead m (a + 1) n

/-- A little-endian number of `n` bytes. -/
def memNat (m : Memory) (a n : Nat) : Nat := ofBytes (memRead m a n)

/-- The memory with [a, a + n) as if never written: every byte of it reads 0. -/
def memClear (m : Memory) (a n : Nat) : Memory := m.filter (fun c => !(decide (a ≤ c.1) && decide (c.1 < a + n)))

/-- The bytes of a range as a memory of their own, from address 0. -/
def memSlice (m : Memory) (a n : Nat) : Memory :=
  (m.filter (fun c => decide (a ≤ c.1) && decide (c.1 < a + n))).map (fun c => (c.1 - a, c.2))

/-- The listed bytes of a memory written from an address on. -/
def memPaste (m : Memory) (a : Nat) (x : Memory) : Memory := x.foldl (fun m c => memPut m (a + c.1) c.2) m

/-- The canonical form: addresses strictly rising, and no entry equal to what an unlisted address reads as. -/
def Memory.wf (m : Memory) : Bool := tabRising m && m.all (fun c => c.2 != Memory.unlisted)

end Sys2Proof.Machine
end

