-- ==== Sys2Proof/Machine/Regs.lean ====
section
/-! DEFINITION. The register map of BAR0 (21): every register, its offset, its access masks and its reset value. -/

namespace Sys2Proof.Machine

/-- The registers of BAR0 (21). -/
inductive Reg where
  | glbId | glbStatus | glbRetireReq
  | glbRetire (t : Nat) | bar4Win (f : Nat)
  | admSqBase | admSqCtl | admCqBase | admCqCtl | admDb
  | rmap (w : Nat) | ce (t n : Nat)
  | trdStroke | trdIndex | trdTick | trdSync
  | prtComp (p : Nat) | prtLease (p : Nat) | prtSave (p : Nat) | prtSpindles (p : Nat) | prtSplpool (p : Nat)
  | prtSem (p n : Nat)
  | numpol (c : Nat) | qhpol (c : Nat) | timepol (c : Nat) | tstat (c : Nat) | detstat (c : Nat) | htab (c : Nat)
  | lkcred (c : Nat) | ctxHost (c : Nat) | sqBase (c : Nat) | sqCtl (c : Nat) | cqBase (c : Nat) | cqCtl (c : Nat)
  | ctxState (c : Nat)
  | stgEaddr (b n : Nat) | stgEval (b n : Nat) | stgClear (b : Nat) | stgCheck (b : Nat) | stgApply (b : Nat)
  | stgCancel (b : Nat) | stgStatus (b : Nat)
  | secStatus | secSvn | secCtr | secUid (i : Nat) | secAuthfail | attNonce (i : Nat) | attAddr | attCtl
  | rcvAddr | rcvLen | rcvCtl
  | evtBase | evtCtl | evtHead | evtTail | evtLost
  | cnt (c i : Nat)
  | poolHbm (q : Nat) | poolBt (p : Nat) | memShare (n : Nat) | hbmTemp (n : Nat) | qlive (q : Nat) | blive (p : Nat)
  | usize | rwinBase (p n : Nat) | rwinHold (p n : Nat) | rwinSize (p n : Nat) | ureg (n : Nat)
  | lnkId | lnkCfg | lnkPhy (n : Nat) | lnkPort (n : Nat) | lnkImport (p : Nat) | feccor (n : Nat) | retry (n : Nat)
  | unreach (n : Nat) | plyCfg | plyStat | plyAck | plyBacklog | mcg (n : Nat) | detour (n : Nat)
  | cdcCfg (p : Nat) | cdcCore (n : Nat)
  | reelCtl (p : Nat) | reelRing (p : Nat) | reelHead (p : Nat) | reelStart (p : Nat) | reelLost (p : Nat)
  | reelStat (p : Nat)
  | qStat (q : Nat) | qClk (q : Nat) | qSpin (q n : Nat) | qPc (q n : Nat)
  deriving DecidableEq, Repr

/-- The first offset of a partition's registers. -/
def prtOff (p : Nat) : Nat := 0x200000 + p * 0x10000

/-- The first offset of a context's registers. -/
def ctxOff (c : Nat) : Nat := 0x240000 + c * 0x1000

/-- The first offset of a stage bank. -/
def stgOff (b : Nat) : Nat := 0x300000 + b * 0x2000

/-- The first offset of a quarter block. -/
def qOff (q : Nat) : Nat := 0x1000000 + q * 0x400000

/-- The BAR0 offset of a register (the tables of 21). -/
def Reg.offset : Reg → Nat
  | glbId => 0x0 | glbStatus => 0x8 | glbRetireReq => 0x10
  | glbRetire t => 0x100 + 8 * t | bar4Win f => 0x200 + 8 * f
  | admSqBase => 0x400 | admSqCtl => 0x408 | admCqBase => 0x410 | admCqCtl => 0x418 | admDb => 0x420
  | rmap w => 0x1000 + 8 * w | ce t n => 0x10000 + t * 0x1000 + 8 * n
  | trdStroke => 0x100000 | trdIndex => 0x100008 | trdTick => 0x100010 | trdSync => 0x100018
  | prtComp p => prtOff p | prtLease p => prtOff p + 0x8 | prtSave p => prtOff p + 0x10
  | prtSpindles p => prtOff p + 0x18 | prtSplpool p => prtOff p + 0x20 | prtSem p n => prtOff p + 0x800 + 8 * n
  | numpol c => ctxOff c | qhpol c => ctxOff c + 0x8 | timepol c => ctxOff c + 0x10 | tstat c => ctxOff c + 0x18
  | detstat c => ctxOff c + 0x20 | htab c => ctxOff c + 0x28 | lkcred c => ctxOff c + 0x30
  | ctxHost c => ctxOff c + 0x38 | sqBase c => ctxOff c + 0x40 | sqCtl c => ctxOff c + 0x48
  | cqBase c => ctxOff c + 0x50 | cqCtl c => ctxOff c + 0x58 | ctxState c => ctxOff c + 0x60
  | stgEaddr b n => stgOff b + 16 * n | stgEval b n => stgOff b + 8 + 16 * n | stgClear b => stgOff b + 0x1000
  | stgCheck b => stgOff b + 0x1008 | stgApply b => stgOff b + 0x1010 | stgCancel b => stgOff b + 0x1018
  | stgStatus b => stgOff b + 0x1020
  | secStatus => 0x400000 | secSvn => 0x400008 | secCtr => 0x400010 | secUid i => 0x400020 + 8 * i
  | secAuthfail => 0x400040 | attNonce i => 0x400080 + 8 * i | attAddr => 0x4000C0 | attCtl => 0x4000C8
  | rcvAddr => 0x400100 | rcvLen => 0x400108 | rcvCtl => 0x400110
  | evtBase => 0x500000 | evtCtl => 0x500008 | evtHead => 0x500010 | evtTail => 0x500018 | evtLost => 0x500020
  | cnt c i => 0x510000 + c * 0x200 + 8 * i
  | poolHbm q => 0x600000 + 8 * q | poolBt p => 0x600100 + 8 * p | memShare n => 0x600200 + 8 * n
  | hbmTemp n => 0x600300 + 8 * n | qlive q => 0x600400 + 8 * q | blive p => 0x600500 + 8 * p | usize => 0x600600
  | rwinBase p n => 0x601000 + p * 0x400 + n * 0x20 | rwinHold p n => 0x601008 + p * 0x400 + n * 0x20
  | rwinSize p n => 0x601010 + p * 0x400 + n * 0x20 | ureg n => 0x602000 + 8 * n
  | lnkId => 0x800000 | lnkCfg => 0x800008 | lnkPhy n => 0x800100 + 8 * n | lnkPort n => 0x800200 + 8 * n
  | lnkImport p => 0x800300 + 8 * p | feccor n => 0x800400 + 8 * n | retry n => 0x800500 + 8 * n
  | unreach n => 0x800600 + 8 * n | plyCfg => 0x800800 | plyStat => 0x800808 | plyAck => 0x800810
  | plyBacklog => 0x800818 | mcg n => 0x801000 + 8 * n | detour n => 0x810000 + 8 * n
  | cdcCfg p => 0xA00000 + 8 * p | cdcCore n => 0xA00100 + 8 * n
  | reelCtl p => 0xC00000 + p * 0x100 | reelRing p => 0xC00008 + p * 0x100 | reelHead p => 0xC00010 + p * 0x100
  | reelStart p => 0xC00018 + p * 0x100 | reelLost p => 0xC00020 + p * 0x100 | reelStat p => 0xC00028 + p * 0x100
  | qStat q => qOff q | qClk q => qOff q + 0x8 | qSpin q n => qOff q + 0x100 + 8 * n
  | qPc q n => qOff q + 0x1000 + 8 * n

/-- An index into an array of registers 8 B apart. -/
def slotIn (off base n : Nat) : Option Nat :=
  if base ≤ off ∧ off < base + 8 * n then some ((off - base) / 8) else none

/-- How many units of a type there are (R454). -/
def unitCount : Nat → Nat
  | 0 => 384 | 1 => 64 | 2 => 128 | 3 => 16 | 4 => 8 | 5 => 64 | 6 => 4 | _ => 0

/-- The register at an offset of the global block. -/
def regGlb (off : Nat) : Option Reg :=
  if off = 0 then some .glbId else if off = 8 then some .glbStatus else if off = 0x10 then some .glbRetireReq else
  match slotIn off 0x100 7 with
  | some t => some (.glbRetire t)
  | none =>
    match slotIn off 0x200 16 with
    | some f => some (.bar4Win f)
    | none =>
      if off = 0x400 then some .admSqBase else if off = 0x408 then some .admSqCtl
      else if off = 0x410 then some .admCqBase else if off = 0x418 then some .admCqCtl
      else if off = 0x420 then some .admDb else
      match slotIn off 0x1000 11 with
      | some w => some (.rmap w)
      | none =>
        if 0x10000 ≤ off ∧ off < 0x17000 then
          if off % 0x1000 / 8 < unitCount ((off - 0x10000) / 0x1000)
          then some (.ce ((off - 0x10000) / 0x1000) (off % 0x1000 / 8)) else none
        else none

/-- The register at offset `o` of partition `p`'s registers. -/
def regPrt (p o : Nat) : Option Reg :=
  if o = 0 then some (.prtComp p) else if o = 8 then some (.prtLease p) else if o = 0x10 then some (.prtSave p)
  else if o = 0x18 then some (.prtSpindles p) else if o = 0x20 then some (.prtSplpool p)
  else (slotIn o 0x800 256).map (.prtSem p)

/-- The register at offset `o` of context `c`'s registers. -/
def regCtx (c o : Nat) : Option Reg :=
  if o = 0 then some (.numpol c) else if o = 0x8 then some (.qhpol c) else if o = 0x10 then some (.timepol c)
  else if o = 0x18 then some (.tstat c) else if o = 0x20 then some (.detstat c) else if o = 0x28 then some (.htab c)
  else if o = 0x30 then some (.lkcred c) else if o = 0x38 then some (.ctxHost c) else if o = 0x40 then some (.sqBase c)
  else if o = 0x48 then some (.sqCtl c) else if o = 0x50 then some (.cqBase c) else if o = 0x58 then some (.cqCtl c)
  else if o = 0x60 then some (.ctxState c) else none

/-- The register at offset `o` of stage bank `b`. -/
def regStg (b o : Nat) : Option Reg :=
  if o < 0x1000 then (if o % 16 = 0 then some (.stgEaddr b (o / 16)) else some (.stgEval b (o / 16)))
  else if o = 0x1000 then some (.stgClear b) else if o = 0x1008 then some (.stgCheck b)
  else if o = 0x1010 then some (.stgApply b) else if o = 0x1018 then some (.stgCancel b)
  else if o = 0x1020 then some (.stgStatus b) else none

/-- The register at an offset of the security block, or of the event block. -/
def regSecEvt (off : Nat) : Option Reg :=
  if off = 0x400000 then some .secStatus else if off = 0x400008 then some .secSvn
  else if off = 0x400010 then some .secCtr else if off = 0x400040 then some .secAuthfail
  else if off = 0x4000C0 then some .attAddr else if off = 0x4000C8 then some .attCtl
  else if off = 0x400100 then some .rcvAddr else if off = 0x400108 then some .rcvLen
  else if off = 0x400110 then some .rcvCtl else if off = 0x500000 then some .evtBase
  else if off = 0x500008 then some .evtCtl else if off = 0x500010 then some .evtHead
  else if off = 0x500018 then some .evtTail else if off = 0x500020 then some .evtLost else
  match slotIn off 0x400020 4 with
  | some i => some (.secUid i)
  | none =>
    match slotIn off 0x400080 8 with
    | some i => some (.attNonce i)
    | none =>
      if 0x510000 ≤ off ∧ off < 0x518000 ∧ off % 0x200 / 8 < 40
      then some (.cnt ((off - 0x510000) / 0x200) (off % 0x200 / 8)) else none

/-- The register at an offset of the memory block. -/
def regMem (off : Nat) : Option Reg :=
  if off = 0x600600 then some .usize
  else if 0x601000 ≤ off ∧ off < 0x602000 then
    let p := (off - 0x601000) / 0x400
    let n := off % 0x400 / 0x20
    if off % 0x400 < 0x200 then
      (if off % 0x20 = 0 then some (.rwinBase p n) else if off % 0x20 = 8 then some (.rwinHold p n)
       else if off % 0x20 = 0x10 then some (.rwinSize p n) else none)
    else none
  else
    ((slotIn off 0x600000 4).map .poolHbm).or <| ((slotIn off 0x600100 16).map .poolBt).or <|
    ((slotIn off 0x600200 4).map .memShare).or <| ((slotIn off 0x600300 12).map .hbmTemp).or <|
    ((slotIn off 0x600400 4).map .qlive).or <| ((slotIn off 0x600500 16).map .blive).or <|
    ((slotIn off 0x602000 256).map .ureg)

/-- The register at an offset of the link and ply block. -/
def regLnk (off : Nat) : Option Reg :=
  if off = 0x800000 then some .lnkId else if off = 0x800008 then some .lnkCfg
  else if off = 0x800800 then some .plyCfg else if off = 0x800808 then some .plyStat
  else if off = 0x800810 then some .plyAck else if off = 0x800818 then some .plyBacklog
  else
    ((slotIn off 0x800100 16).map .lnkPhy).or <| ((slotIn off 0x800200 16).map .lnkPort).or <|
    ((slotIn off 0x800300 4).map .lnkImport).or <| ((slotIn off 0x800400 16).map .feccor).or <|
    ((slotIn off 0x800500 16).map .retry).or <| ((slotIn off 0x800600 16).map .unreach).or <|
    ((slotIn off 0x801000 256).map .mcg).or <| ((slotIn off 0x810000 8192).map .detour)

/-- The register at offset `o` of quarter `q`'s block. -/
def regQ (q o : Nat) : Option Reg :=
  if o = 0 then some (.qStat q) else if o = 8 then some (.qClk q)
  else ((slotIn o 0x100 16).map (.qSpin q)).or ((slotIn o 0x1000 96).map (.qPc q))

/-- The register whose 8 B slot begins at an offset; none where the offset is unimplemented (R462, R463). -/
def regAt (off : Nat) : Option Reg :=
  if off % 8 ≠ 0 then none
  else if off < 0x100000 then regGlb off
  else if off = 0x100000 then some .trdStroke else if off = 0x100008 then some .trdIndex
  else if off = 0x100010 then some .trdTick else if off = 0x100018 then some .trdSync
  else if off < 0x200000 then none
  else if off < 0x240000 then regPrt ((off - 0x200000) / 0x10000) (off % 0x10000)
  else if off < 0x280000 then regCtx ((off - 0x240000) / 0x1000) (off % 0x1000)
  else if off < 0x300000 then none
  else if off < 0x30A000 then regStg ((off - 0x300000) / 0x2000) (off % 0x2000)
  else if off < 0x400000 then none
  else if off < 0x600000 then regSecEvt off
  else if off < 0x800000 then regMem off
  else if off < 0xA00000 then regLnk off
  else if off < 0xC00000 then
    ((slotIn off 0xA00000 4).map .cdcCfg).or ((slotIn off 0xA00100 8).map .cdcCore)
  else if off < 0x1000000 then
    let p := (off - 0xC00000) / 0x100
    let o := off % 0x100
    if 4 ≤ p then none
    else if o = 0 then some (.reelCtl p) else if o = 8 then some (.reelRing p) else if o = 0x10 then some (.reelHead p)
    else if o = 0x18 then some (.reelStart p) else if o = 0x20 then some (.reelLost p)
    else if o = 0x28 then some (.reelStat p) else none
  else if off < 0x2000000 then regQ ((off - 0x1000000) / 0x400000) (off % 0x400000)
  else none

/-- Whether a register is 64 bits wide (21). -/
def Reg.wide : Reg → Bool
  | glbId | glbRetireReq | bar4Win _ | admSqBase | admCqBase | admDb | rmap _ | ce _ _ | trdIndex | prtComp _
  | prtSave _ | prtSplpool _ | htab _ | ctxHost _ | sqBase _ | cqBase _ | ctxState _ | stgEaddr _ _ | stgEval _ _
  | stgApply _ | secSvn | secCtr | secUid _ | secAuthfail | attNonce _ | attAddr | attCtl | rcvAddr | rcvLen
  | evtBase | evtLost | cnt _ _ | rwinBase _ _ | rwinHold _ _ | ureg _ | lnkId | lnkPort _ | lnkImport _ | feccor _
  | retry _ | unreach _ | plyAck | plyBacklog | mcg _ | detour _ | cdcCfg _ | reelRing _ | reelHead _ | reelStart _
  | reelLost _ | qClk _ => true
  | _ => false

/-- The reset value of a register's stored fields (the Reset columns). REV of `GLB_ID` is 0xA1, that of FJ-KV12-768-A1, where the
table gives 0xA1 or 0xE0 by part number (R2; DESIGN CHOICE, log 126). -/
def Reg.reset : Reg → Word
  | glbId => 0x1E9C0C12A1000000
  | glbRetire t => match t with
    | 0 => 0x10000E10 | 1 => 0x10000E10 | 2 => 0x00400001 | 3 => 0x0004003C | 4 => 0x01000E10 | 5 => 0x01000E10
    | _ => 0x04000E10
  | admSqCtl | admCqCtl | sqCtl _ | cqCtl _ => 0x40000
  | trdStroke => 500
  | qhpol _ => 0x60
  | lkcred _ => 255
  | memShare _ => 0x0CCB
  | lnkCfg => 0x400
  | lnkPort _ => 0x1C000000000
  | plyCfg => 0x4200
  | _ => 0

/-- The bits hi:lo. -/
def mask (hi lo : Nat) : Word := BitVec.ofNat 64 ((2 ^ (hi + 1 - lo) - 1) <<< lo)

/-- The RW bits of a register. -/
def Reg.rw : Reg → Word
  | glbRetire _ => mask 31 0
  | bar4Win _ => mask 20 0
  | admSqBase | admCqBase | sqBase _ | cqBase _ | evtBase | attAddr => mask 63 6
  | admSqCtl | sqCtl _ => mask 31 31 ||| mask 19 16
  | admCqCtl | cqCtl _ => mask 31 31 ||| mask 27 16
  | trdStroke => mask 17 0
  | trdSync => mask 31 24 ||| mask 3 0
  | prtComp _ => mask 63 63 ||| mask 55 8
  | prtLease _ => mask 31 31 ||| mask 21 16 ||| mask 10 6 ||| mask 3 0
  | prtSave _ | prtSplpool _ | reelRing _ => mask 63 45 ||| mask 26 0
  | prtSpindles _ => mask 6 0
  | prtSem _ _ => mask 31 31 ||| mask 17 0
  | numpol _ => mask 4 1
  | qhpol _ => mask 7 4 ||| mask 2 0
  | timepol _ => mask 15 8 ||| mask 0 0
  | htab _ => mask 63 12
  | lkcred _ => mask 11 0
  | ctxHost _ => mask 63 63 ||| mask 19 0
  | stgEaddr _ _ => mask 63 63 ||| mask 25 3
  | stgEval _ _ | attNonce _ | rcvAddr | rcvLen => mask 63 0
  | attCtl => mask 1 1
  | evtCtl => mask 31 31 ||| mask 7 0
  | evtHead => mask 11 0
  | poolHbm _ | poolBt _ => mask 7 0
  | memShare _ => mask 31 31 ||| mask 14 0
  | rwinBase _ _ => mask 63 63 ||| mask 47 8
  | rwinHold _ _ => mask 63 58 ||| mask 47 8
  | rwinSize _ _ => mask 17 0
  | ureg _ => mask 63 63 ||| mask 55 48 ||| mask 44 24 ||| mask 20 0
  | lnkCfg => mask 15 8 ||| mask 0 0
  | lnkPhy _ => mask 3 3 ||| mask 1 0
  | lnkImport _ => mask 63 63 ||| mask 31 0
  | plyCfg => mask 14 11 ||| mask 9 4 ||| mask 1 0
  | mcg _ => mask 63 62 ||| mask 33 0
  | detour _ => mask 63 63 ||| mask 27 0
  | cdcCfg _ => mask 63 24 ||| mask 0 0
  | reelCtl _ => mask 4 3 ||| mask 1 0
  | _ => 0

/-- The W1C bits of a register. -/
def Reg.w1c : Reg → Word
  | tstat _ => mask 2 2 ||| mask 0 0
  | detstat _ => mask 6 2
  | hbmTemp _ => mask 17 16
  | reelStat _ => mask 2 0
  | ce _ _ | cnt _ _ | secAuthfail | evtLost | feccor _ | retry _ | unreach _ | reelLost _ => mask 63 63
  | _ => 0

/-- The RC bits of a register (R460: the counts of the event counters). -/
def Reg.rc : Reg → Word
  | ce _ _ | cnt _ _ | secAuthfail | evtLost | feccor _ | retry _ | unreach _ | reelLost _ => mask 47 0
  | _ => 0

/-- The staged-only registers (R319). -/
def Reg.staged : Reg → Bool
  | trdStroke | prtComp _ | prtLease _ | prtSave _ | prtSpindles _ | prtSem _ _ | prtSplpool _ | poolHbm _ | poolBt _
  | ureg _ | memShare _ | rwinBase _ _ | rwinHold _ _ | rwinSize _ _ | plyCfg => true
  | _ => false

/-- The registers whose bank entries are critical (R323). -/
def Reg.critical : Reg → Bool
  | trdStroke | plyCfg | poolHbm _ | poolBt _ | prtComp _ | prtLease _ | prtSave _ => true
  | _ => false

/-- The edge-effective registers (R467): R42, R68, R237, R378, R380, R391, R395, 17, R358. -/
def Reg.atEdge : Reg → Bool
  | numpol _ | qhpol _ | timepol _ | lnkCfg | detour _ | mcg _ | trdSync | cdcCfg _ | reelCtl _ | reelRing _ => true
  | _ => false

/-- The written value of a register: what its stored fields hold. -/
def getR (s : State) (r : Reg) : Word := tabGet r.reset s.regs r.offset

/-- The state with a register's stored fields set; a register at its reset value is unlisted. -/
def setR (s : State) (r : Reg) (v : Word) : State :=
  { s with regs := tabPut s.regs r.offset (if v = r.reset then none else some v) }

/-- The acting value of an edge-effective register (R467). -/
def actR (s : State) (r : Reg) : Word := tabGet r.reset s.act r.offset

/-- The state with the acting value of a register set. -/
def setAct (s : State) (r : Reg) (v : Word) : State :=
  { s with act := tabPut s.act r.offset (if v = r.reset then none else some v) }

/-- Whether an offset is that of an edge-effective register. -/
def edgeOff (off : Nat) : Bool := match regAt off with
  | some r => r.atEdge
  | none => false

/-- One field of a register. -/
def rfld (s : State) (r : Reg) (hi lo : Nat) : Nat := fld (getR s r) hi lo

/-- The state with one field of a register set. -/
def setF (s : State) (r : Reg) (hi lo v : Nat) : State := setR s r (setFld (getR s r) hi lo v)

end Sys2Proof.Machine
end

