-- ==== Sys2Proof/Machine/Parts.lean ====
section
/-! DEFINITION. What the registers say of partitions, quarters, spindles and memory regions: queries over the state, no
effects. -/

namespace Sys2Proof.Machine

/-! ## Retirement map -/

/-- Word and bit of a unit in the retirement map (R457). -/
def rmapPos (ty idx : Nat) : Nat × Nat :=
  match ty with
  | 0 => (idx / 64, idx % 64)
  | 1 => (6, idx % 64)
  | 2 => (7 + idx / 64, idx % 64)
  | 3 => (9, idx % 16)
  | 4 => (9, 16 + idx % 8)
  | 5 => (10, idx % 64)
  | _ => (9, 24 + idx % 4)

/-- Whether a unit is retired in the map. -/
def retired (s : State) (ty idx : Nat) : Bool :=
  let (w, b) := rmapPos ty idx
  bit (getR s (.rmap w)) b

/-- The map with a unit's bit set or cleared. -/
def setRetired (s : State) (ty idx : Nat) (v : Bool) : State :=
  let (w, b) := rmapPos ty idx
  setF s (.rmap w) b b (if v then 1 else 0)

/-! ## Partitions -/

/-- Partition of a context (R218). -/
def partOf (c : Nat) : Nat := c / 16

/-- Whether a partition is defined (R330). -/
def pValid (s : State) (p : Nat) : Bool := bit (getR s (.prtComp p)) 63

/-- FUNC of a partition (R330). -/
def pFunc (s : State) (p : Nat) : Nat := rfld s (.prtComp p) 55 52

/-- Whether a valid partition holds quarter `q`. -/
def pHasQ (s : State) (p q : Nat) : Bool := pValid s p && bit (getR s (.prtComp p)) (48 + q)

/-- Whether a valid partition holds codec core `n`. -/
def pHasCodec (s : State) (p n : Nat) : Bool := pValid s p && bit (getR s (.prtComp p)) (40 + n)

/-- Whether a valid partition holds Skein port `n`. -/
def pHasPort (s : State) (p n : Nat) : Bool := pValid s p && bit (getR s (.prtComp p)) (24 + n)

/-- Whether a valid partition holds board port `n`. -/
def pHasBoard (s : State) (p n : Nat) : Bool := pValid s p && bit (getR s (.prtComp p)) (8 + n)

/-- Whether a codec core has left service: it is retired, and no job holds it (R400, R456). -/
def coreGone (s : State) (n : Nat) : Bool := retired s 4 n && !s.jobs.any (fun j => !j.ended && j.cores.contains n)

/-- The CODEC masks without the cores that have left service. -/
def maskRetired (s : State) : State :=
  (List.range 8).foldl (fun s n =>
    if coreGone s n then (List.range 4).foldl (fun s p => setF s (.prtComp p) (40 + n) (40 + n) 0) s else s) s

/-- The valid partition that holds quarter `q`. -/
def partOfQ (s : State) (q : Nat) : Option Nat := (List.range 4).find? (fun p => pHasQ s p q)

/-- The valid partition that a function owns (R420). -/
def partOfFunc (s : State) (f : Nat) : Option Nat := (List.range 4).find? (fun p => pValid s p && pFunc s p == f)

/-- Whether the partition's host function is present (R420): PF0 always, a VF while it is enabled. -/
def hasHost (s : State) (p : Nat) : Bool := pValid s p && decide (pFunc s p ≤ s.vfs)

/-- The quarters of a partition, ascending. -/
def quartersOf (s : State) (p : Nat) : List Nat := (List.range 4).filter (fun q => pHasQ s p q)

/-- NL in force (21, R228). -/
def nlEff (s : State) (p : Nat) : Nat :=
  let nl := rfld s (.prtSpindles p) 6 0
  if nl = 0 then 16 * (quartersOf s p).length else nl

/-! ## Spindles -/

/-- The live spindles of a quarter, ascending (R456). -/
def liveSpindles (s : State) (q : Nat) : List Nat :=
  if retired s 6 q then []
  else ((List.range 16).map (fun i => 16 * q + i)).filter (fun i => !retired s 5 i)

/-- Whether a lease is active, and of which quarter, how many spindles (R341). -/
def leaseOf (s : State) (p : Nat) : Option (Nat × Nat) :=
  if bit (getR s (.prtLease p)) 31 && pValid s p
  then some (rfld s (.prtLease p) 3 2, rfld s (.prtLease p) 1 0 + 1) else none

/-- The spindles that the configuration gives a lease, ascending (R343). -/
def leaseWant (s : State) (p : Nat) : List Nat :=
  match leaseOf s p with
  | none => []
  | some (q, n) =>
    let l := liveSpindles s q
    l.drop (l.length - n)

/-- The spindles a lease holds, in force: the mapping changes at a stroke edge (R229). -/
def leaseSpindles (s : State) (p : Nat) : List Nat := if (leaseOf s p).isSome then tabGet [] s.pmap (4 + p) else []

/-- The list P that the configuration gives (R228). -/
def liveList (s : State) (p : Nat) : List Nat :=
  ((quartersOf s p).flatMap (liveSpindles s)).filter (fun i => !(leaseWant s p).contains i)

/-- The list P in force: the mapping changes at a stroke edge (R229). -/
def pList (s : State) (p : Nat) : List Nat := tabGet [] s.pmap p

/-- The class of a context. -/
def ctxCls (s : State) (c : Nat) : Nat := (tabGet {} s.ctxs c : CtxSt).cls.val

/-- The context whose spindles a context runs on: a filler's primary (R220). -/
def homeCtx (s : State) (c : Nat) : Nat :=
  let x : CtxSt := tabGet {} s.ctxs c
  if x.filler then x.primary else c

/-- Whether a context runs on lease spindles (R344). -/
def onLease (s : State) (c : Nat) : Bool := ctxCls s (homeCtx s c) == 0

/-- NL as a context sees it (R261, R344). -/
def ctxNL (s : State) (c : Nat) : Nat :=
  if onLease s c then (leaseSpindles s (partOf c)).length else nlEff s (partOf c)

/-- The physical spindle of a context's logical spindle (R229, R344). -/
def physOf (s : State) (c l : Nat) : Option Nat :=
  let p := partOf c
  if onLease s c then (leaseSpindles s p)[l]?
  else
    let P := pList s p
    if P.length = 0 then none else P[l % P.length]?

/-- Whether a logical spindle of a partition is doubled (R229). -/
def doubled (s : State) (p l : Nat) : Bool :=
  let np := (pList s p).length
  decide (0 < np) && decide (l % np + np < nlEff s p)

/-- The other logical spindle of a doubled one. -/
def otherOf (s : State) (p l : Nat) : Nat :=
  let np := (pList s p).length
  if l < np then l + np else l - np

/-- Whether the logical spindle has its spindle: the running side of a doubled one, or not doubled (R230). -/
def onSpindle (s : State) (c l : Nat) : Bool :=
  if onLease s c then true
  else if doubled s (partOf c) l then
    match physOf s c l with
    | none => false
    | some i => tabGet (l % (pList s (partOf c)).length) s.running i == l
  else true

/-! ## Memory regions -/

/-- 1 GiB. -/
def gib : Nat := 0x40000000

/-- Base of HBM quarter region `q` (R168). -/
def hbmBase (q : Nat) : Nat := q * 0x3000000000

/-- Base of board port region `p` (R168). -/
def boardBase (p : Nat) : Nat := 0x10000000000 + p * 0x1800000000

/-- First address of the unified range (R168). -/
def uniBase : Nat := 0x100000000000

/-- First address of the host window (R168). -/
def hostBase : Nat := 0x800000000000

/-- Pseudo-channels in L of a quarter (R172, R173). -/
def qLive (s : State) (q : Nat) : Nat :=
  if retired s 6 q then 0 else 96 - (s.pcOut.filter (fun i => i / 96 = q)).length

/-- Board channels in L of a port (R174). -/
def bLive (s : State) (p : Nat) : Nat := 4 - (s.bcOut.filter (fun i => i / 4 = p)).length

/-- Live size of a quarter region, and of a port region. -/
def hbmLive (s : State) (q : Nat) : Nat := qLive s q * 2 * gib
def boardLive (s : State) (p : Nat) : Nat := bLive s p * 24 * gib

/-- Carve-outs (R177). A retired quarter's region is absent, and its carve-out with it (R13). (DESIGN CHOICE, log 112.) -/
def poolHbmBytes (s : State) (q : Nat) : Nat := rfld s (.poolHbm q) 7 0 * gib
def carveHbm (s : State) (q : Nat) : Nat := if retired s 6 q then 0 else poolHbmBytes s q
def carveBoard (s : State) (p : Nat) : Nat := rfld s (.poolBt p) 7 0 * gib

/-- U in bytes (R177): the sum of all pools, as the registers set them. -/
def uniSize (s : State) : Nat :=
  ((List.range 4).map (poolHbmBytes s)).sum + ((List.range 16).map (carveBoard s)).sum

/-- Whether a frame lies in a stack that cannot be reached: a retired quarter's (R13). -/
def frameLost (s : State) (f : Nat) : Bool := decide (f < 0xC000000000) && retired s 6 (f / 0x3000000000)

/-- A page of the unified range: 2 MiB. -/
def pageBytes : Nat := 0x200000

/-- A region of the unified range (R178). -/
structure UReg where
  idx : Nat
  qmask : Nat
  owner : Nat
  policy : Nat
  size : Nat
  base : Nat
  deriving DecidableEq, Repr

/-- The region that a `MEM_UREG_n` value defines. -/
def uregOf (n : Nat) (w : Word) : Option UReg :=
  if bit w 63 then some ⟨n, fld w 55 52, fld w 51 50, fld w 49 48, fld w 44 24, fld w 20 0⟩ else none

/-- The valid unified regions. -/
def uregs (s : State) : List UReg := (List.range 256).filterMap (fun n => uregOf n (getR s (.ureg n)))

/-- The region that holds a page. -/
def uregOfPage (s : State) (pg : Nat) : Option UReg :=
  (uregs s).find? (fun r => decide (r.base ≤ pg) && decide (pg < r.base + r.size))

/-- What lies at a local address (R168). -/
inductive Place where
  | hbm (q : Nat)
  | board (p : Nat)
  | unified (page : Nat)
  | host
  | absent
  deriving DecidableEq, Repr

/-- What lies at a local address, whoever asks. A unified page whose frame a retired quarter's stacks hold cannot be reached
(R13, DESIGN CHOICE, log 112). -/
def placeOf (s : State) (a : Nat) : Place :=
  if a < 0xC000000000 then
    let q := a / 0x3000000000
    if a % 0x3000000000 < hbmLive s q - carveHbm s q then .hbm q else .absent
  else if 0x10000000000 ≤ a ∧ a < 0x28000000000 then
    let p := (a - 0x10000000000) / 0x1800000000
    if (a - 0x10000000000) % 0x1800000000 < boardLive s p - carveBoard s p then .board p else .absent
  else if uniBase ≤ a ∧ a < uniBase + uniSize s then
    let pg := (a - uniBase) / pageBytes
    if (uregOfPage s pg).isSome && !(match tabGet? s.pages pg with
      | some x => frameLost s x.frame
      | none => false) then .unified pg else .absent
  else if hostBase ≤ a ∧ a < 0x1000000000000 then .host
  else .absent

/-- Whether partition `p` may access what lies at a local address (R168, R169). A quarter that lies off the chain, two diagonal ones being
retired, is reached all the same (R13; DESIGN CHOICE, log 139). -/
def mayAccess (s : State) (p a : Nat) : Bool :=
  match placeOf s a with
  | .hbm q => pHasQ s p q
  | .board b => pHasBoard s p b
  | .unified pg => match uregOfPage s pg with
    | some r => r.owner == p && pValid s p
    | none => false
  | .host => hasHost s p
  | .absent => false

/-- Break points inside a range at which what lies there may change: region, page and GiB bounds. -/
def rangePoints (a n : Nat) : List Nat :=
  a :: (a + n - 1) :: ((List.range ((a + n - 1) / pageBytes - a / pageBytes)).map
    (fun i => (a / pageBytes + 1 + i) * pageBytes))

/-- Whether a whole range may be accessed: regions, carve-outs and unified regions change only at 2 MiB bounds. -/
def mayAccessRange (s : State) (p a n : Nat) : Bool := n == 0 || (rangePoints a n).all (mayAccess s p)

/-- Whether a range lies wholly within the partition's HBM quarter regions. -/
def inHbm (s : State) (p a n : Nat) : Bool :=
  n == 0 || (rangePoints a n).all (fun x => match placeOf s x with
    | .hbm q => pHasQ s p q
    | _ => false)

/-- Whether a range lies wholly in the partition's HBM quarter regions or board port regions (R358). -/
def inHbmOrBoard (s : State) (p a n : Nat) : Bool :=
  n == 0 || (rangePoints a n).all (fun x => match placeOf s x with
    | .hbm q => pHasQ s p q
    | .board b => pHasBoard s p b
    | _ => false)

/-- Whether a range lies wholly in the partition's HBM quarter regions or its pinned unified regions. -/
def inHbmOrPinned (s : State) (p a n : Nat) : Bool :=
  n == 0 || (rangePoints a n).all (fun x => match placeOf s x with
    | .hbm q => pHasQ s p q
    | .unified pg => match uregOfPage s pg with
      | some r => r.owner == p && r.policy == 2
      | none => false
    | _ => false)

/-- The bytes of a unified carve-out that overlap [a, a + n). -/
def inCarve (s : State) (a n : Nat) : Bool :=
  (List.range 4).any (fun q => overlaps a n (hbmBase q + (hbmLive s q - carveHbm s q)) (carveHbm s q)) ||
  (List.range 16).any (fun b => overlaps a n (boardBase b + (boardLive s b - carveBoard s b)) (carveBoard s b))

/-- The device's own ID (R377). -/
def devId (s : State) : Nat := rfld s .lnkId 15 0

/-- Whether a global address is local (R171, R377). -/
def isLocal (s : State) (g : Word) : Bool := fld g 63 48 == devId s

/-- The local address of a global one. -/
def localOf (g : Word) : Nat := fld g 47 0

/-! ## Contexts and threads -/

/-- A context's record. -/
def getC (s : State) (c : Nat) : CtxSt := tabGet {} s.ctxs c

/-- The state with a context's record set. -/
def setC (s : State) (c : Nat) (x : CtxSt) : State := { s with ctxs := tabSet s.ctxs c x }

/-- Key of a thread. -/
def Tid.key (t : Tid) : Nat := 64 * t.ctx.val + t.lsp.val

/-- A thread, if the context has been launched on that logical spindle. -/
def getT? (s : State) (t : Tid) : Option Thread := tabGet? s.threads (Tid.key t)

/-- The state with a thread set. -/
def setT (s : State) (t : Tid) (th : Thread) : State := { s with threads := tabSet s.threads (Tid.key t) th }

/-- The threads of a context with their logical spindles. -/
def threadsOf (s : State) (c : Nat) : List (Nat × Thread) :=
  s.threads.filterMap (fun (k, th) => if k / 64 = c then some (k % 64, th) else none)

/-- The thread identifier of a context's logical spindle; both are below 64. -/
def tid (c l : Nat) : Tid := ⟨Fin.ofNat 64 c, Fin.ofNat 64 l⟩

/-- The context exists (R218). -/
def exists' (s : State) (c : Nat) : Bool := (getC s c).st != .none && (getC s c).st != .tearing

/-- Contexts that exist, ascending. -/
def liveCtxs (s : State) : List Nat := (List.range 64).filter (exists' s)

/-- Contexts of a partition that exist. -/
def partCtxs (s : State) (p : Nat) : List Nat := ((List.range 16).map (16 * p + ·)).filter (exists' s)

/-- A ring's state: context 0-63, or 64 for the admin ring. -/
def getRing (s : State) (r : Nat) : RingSt := tabGet {} s.rings r

/-- The state with a ring's state set. -/
def setRing (s : State) (r : Nat) (x : RingSt) : State := { s with rings := tabSet s.rings r x }

/-- The key of a ring. -/
def Ring.key : Ring → Nat
  | .ctx c => c.val
  | .admin => 64

/-- The control registers of a ring. -/
def ringSqCtl (r : Nat) : Reg := if r = 64 then .admSqCtl else .sqCtl r
def ringCqCtl (r : Nat) : Reg := if r = 64 then .admCqCtl else .cqCtl r
def ringSqBase (r : Nat) : Reg := if r = 64 then .admSqBase else .sqBase r
def ringCqBase (r : Nat) : Reg := if r = 64 then .admCqBase else .cqBase r

/-- Entries of a ring whose LOG2 field is `f` (R427). -/
def ringSize (f : Nat) : Nat := if f = 0 then 65536 else 2 ^ f

/-- TRD_INDEX and TRD_TICK (R232). -/
def strokeNow (s : State) : Word := getR s .trdIndex
def tickNow (s : State) : Nat := rfld s .trdTick 17 0
def strokeLen (s : State) : Nat := rfld s .trdStroke 17 0

/-- Whether the stroke index, which wraps from 2^64 − 1 to 0, has come to edge `k` (R233). -/
def edgeReached (now : Word) (k : Nat) : Bool := decide ((now - BitVec.ofNat 64 k).toNat < 2 ^ 63)

/-- Whether a firmware stall is in progress (R347). -/
def fwStalls (s : State) : Bool := match s.fw with
  | some f => edgeReached (strokeNow s) f.from' && !edgeReached (strokeNow s) f.to'
  | none => false

end Sys2Proof.Machine
end

