-- ==== Sys2Proof/Machine/Ops.lean ====
section
/-! DEFINITION. The shared operations: events, counters, completion records, stops. -/

namespace Sys2Proof.Machine

/-- The outcome of a command. -/
abbrev Res := Host.Outcome State Fault Refusal

/-- A program fault (R459): code, LINK or NUMERIC cause, link group, AUX, PRECISE. -/
structure PFault where
  code : Nat
  cause : Nat := 0
  group : Nat := 0
  aux : Word := 0
  precise : Bool := true
  deriving DecidableEq, Repr

/-- Why a meaning does not go on: its event cannot occur, or the instruction faults in the state given. -/
inductive Halt where
  | no (why : String)
  | fault (s : State) (f : PFault)

/-- A computation that may stop so. -/
abbrev Ex (α : Type) := Except Halt α

/-- The fault codes (R252, R276, R459). -/
def fDecode : PFault := { code := 0x01 }
def fHandle (i : Nat) : PFault := { code := 0x02, aux := BitVec.ofNat 64 i }
def fAddr (a : Word) : PFault := { code := 0x03, aux := a }
def fCallDepth : PFault := { code := 0x04 }
def fLoopBusy : PFault := { code := 0x05 }
def fSem : PFault := { code := 0x06 }
def fSigClass : PFault := { code := 0x07 }
def fWaitClass : PFault := { code := 0x08 }
def fSplice : PFault := { code := 0x09 }
def fHaltOpen : PFault := { code := 0x0A }
def fStream : PFault := { code := 0x10 }
def fFormat : PFault := { code := 0x11 }
def fHandoff : PFault := { code := 0x12 }
def fOperand : PFault := { code := 0x13 }
def fNumeric (causes : Nat) : PFault := { code := 0x14, cause := causes }
def fQhealth : PFault := { code := 0x15 }
def fAttOrder : PFault := { code := 0x16 }
def fPlan (entry : Nat) : PFault := { code := 0x17, aux := BitVec.ofNat 64 entry, precise := false }
/-- PLAN at issue is precise (R212, R276). -/
def fPlan0 : PFault := { code := 0x17 }
def fStall : PFault := { code := 0x18, precise := false }
def fLink (cause group tag epoch dev : Nat) : PFault :=
  { code := 0x19, cause := cause, group := group, precise := false,
    aux := BitVec.ofNat 64 (tag + epoch * 4096 + dev * 65536) }
def fOverrun : PFault := { code := 0x20, precise := false }
def fFenced : PFault := { code := 0x21, precise := false }
def fMemUe (a : Word) : PFault := { code := 0x22, aux := a, precise := false }
def fPartReset : PFault := { code := 0x23, precise := false }

/-! ## Free values -/

/-- The next free word, and the state that has used it (DESIGN CHOICE, log 6). -/
def freeWord (s : State) : Word × State :=
  (Config.freeWord s.freeCtr, { s with freeCtr := s.freeCtr + 1 })

/-- `n` free bytes, and the state that has used them (DESIGN CHOICE, log 6). -/
def freeBytes (s : State) (n : Nat) : List Byte × State :=
  ((List.range n).map (fun i => Config.freeByte (s.freeCtr + i)), { s with freeCtr := s.freeCtr + n })

/-! ## Outputs and events (18, 20) -/

/-- One more output to the host; it waits while the PCIe link is down (R476). (DESIGN CHOICE, log 3.). (DESIGN CHOICE, log 8.) -/
def toHost (s : State) (o : HostOut) : State :=
  { s with hostOut := if s.power.clkPcie then s.hostOut ++ [o] else s.hostOut
           hostWait := if s.power.clkPcie then s.hostWait else s.hostWait ++ [o] }

/-- An MSI-X message of a function, or its vector's pending bit where the vector is masked (R436). -/
def sendMsix (s : State) (fn v : Nat) : State :=
  if !s.pci.masked.contains (fn, v) then toHost s (.msix fn v)
  else if s.pci.pending.contains (fn, v) then s
  else { s with pci := { s.pci with pending := s.pci.pending ++ [(fn, v)] } }

/-- Whose a host access of a context is: its partition's function, with its PASID when `CTX_HOST`.PASIDV is 1 (R424). -/
def hostId (s : State) (c : Nat) : HostId :=
  { fn := pFunc s (partOf c)
    pasid := if bit (getR s (.ctxHost c)) 63 then some (BitVec.ofNat 20 (rfld s (.ctxHost c) 19 0)) else none }

/-- Whose an access of a ring is; the admin ring is PF0's and carries no PASID (R427, R431). -/
def ringId (s : State) (ring : Nat) : HostId := if ring < 64 then hostId s ring else {}

/-- One more output on the links. -/
def toLink (s : State) (o : LinkOut) : State := { s with linkOut := s.linkOut ++ [o] }

/-- An event counter after `k` more counts, and whether it has reached its limit by them (R460). -/
def countUp (w : Word) (k : Nat) : Word × Bool :=
  let m := 0xFFFFFFFFFFFF
  let c := fld w 47 0
  if k = 0 ∨ c = m then (w, false)
  else if m ≤ c + k then (setFld (setFld w 47 0 m) 63 63 1, true)
  else (setFld w 47 0 (c + k), false)

/-- The 32 bytes of an event entry (R435). -/
def eventBytes (s : State) (code : Nat) (ctx part : Option Nat) (detail : List Byte) : List Byte :=
  wordBytes (strokeNow s) ++ leBytes 2 code ++
  leBytes 1 (match ctx with
    | some c => 64 + c
    | none => 0) ++
  leBytes 1 ((match part with
    | some p => 4 + p
    | none => 0) + (if s.evtPhase then 128 else 0)) ++
  leBytes 4 s.evtSeq.toNat ++ (detail ++ List.replicate 16 0).take 16

/-- An event is raised (R434, R435): written to the event ring with its message, or counted in `EVT_LOST`. (DEDUCED,
log 23.) -/
def event (s : State) (code : Nat) (ctx part : Option Nat) (detail : List Byte) : State :=
  let s1 := { s with evtSeq := s.evtSeq + 1 }
  let tail := rfld s .evtTail 11 0
  let head := rfld s .evtHead 11 0
  if bit (getR s .evtCtl) 31 && decide ((tail + 1) % 4096 ≠ head) then
    let base := (getR s .evtBase).toNat
    let s2 := toHost s1 (.write (base + 32 * tail) (eventBytes s code ctx part detail))
    let s3 := setF s2 .evtTail 11 0 ((tail + 1) % 4096)
    let s4 := { s3 with evtPhase := if tail = 4095 then !s3.evtPhase else s3.evtPhase }
    sendMsix s4 0 (rfld s .evtCtl 7 0)
  else setR s1 .evtLost (countUp (getR s1 .evtLost) 1).1

/-- An event that concerns a context. -/
def eventC (s : State) (code c : Nat) (detail : List Byte) : State :=
  event s code (some c) (some (partOf c)) detail

/-- An event that concerns no context and no partition. -/
def eventG (s : State) (code : Nat) (detail : List Byte) : State := event s code none none detail

/-- An event of a register: its DETAIL names the register (R459). -/
def eventReg (s : State) (code : Nat) (r : Reg) : State := eventG s code (leBytes 4 r.offset)

/-- `k` more counts in an event counter (R460): one CNT_OVF when it reaches its limit. -/
def bump (s : State) (r : Reg) (k : Nat) : State :=
  let (w, full) := countUp (getR s r) k
  let s1 := setR s r w
  if full then eventG s1 0x0103 (leBytes 4 r.offset) else s1

/-- The context counters (R472). -/
def kPoisonNew := 0
def kPoisonCons := 1
def kPoisonSt := 2
def kSat := 3
def kUnder := 4
def kOver := 5
def kSlubovf := 6
def kClip := 7
def kEsc := 8
def kQstall := 9
def kReplay := 10
def kDegraded := 11
def kAttEmpty := 12
def kCardShort := 13
def kCardPoison := 14
def kUniMiss := 15
def kUniIn := 16
def kUniOut := 17
def kUniStall := 18
def kRedDup := 19
def kCreelHit := 20
def kCreelMiss := 21
def kGatherHold := 22
def kGatherRead := 23
def kMcastDrop := 24
def kDftStall := 25
def kOverrun := 26
def kOverrunStk := 27
def kSplCommit := 28
def kSplAbort := 29
def kSplDiscard := 30
def kSplFill := 31
def kSplPoolwait := 32
def kSplMirhold := 33
def kLkStale := 34
def kLkTmo := 35
def kCdcJobs := 36
def kCdcErr := 37
def kCdcFrames := 38
def kCdcYield := 39

/-- `k` more counts in counter `i` of context `c`; an agent of no context (`c` beyond 63) counts nowhere. -/
def bumpC (s : State) (c i k : Nat) : State := if c < 64 then bump s (.cnt c i) k else s

/-! ## Completion records (18) -/

/-- A completion falls due at the next edge, or the next fine tick for class 0 (R432). -/
def dueUp (s : State) (d : Due) : State := { s with due := s.due ++ [d] }

/-- The FENCE records of a ring that have no earlier record left complete, front first (R429). -/
def fencesDone (ring : Nat) : List Pend → List Pend × List Due
  | [] => ([], [])
  | x :: r =>
    if x.fence then
      let (l, d) := fencesDone ring r
      (l, { ring := ring, kind := 0, ref := x.cmdid } :: d)
    else (x :: r, [])

/-- A record of a ring completes with a status: it leaves the ring's outstanding records, and FENCE records behind it
may complete (R429). -/
def complete (s : State) (ring num : Nat) (cmdid : Half) (status : Nat) : State :=
  let r := getRing s ring
  let (rest, ds) := fencesDone ring (r.pending.filter (fun x => x.num ≠ num))
  let s1 := setRing s ring { r with pending := rest }
  { s1 with due := s1.due ++ ({ ring := ring, kind := 0, status := BitVec.ofNat 8 status, ref := cmdid } :: ds) }

/-- A record leaves its ring without a completion record of its own (R432). -/
def leaveRec (s : State) (k num : Nat) : State :=
  let r := getRing s k
  let (rest, ds) := fencesDone k (r.pending.filter (fun x => x.num ≠ num))
  let s1 := setRing s k { r with pending := rest }
  { s1 with due := s1.due ++ ds }

/-- FLAGS of a completion record of a context as it is posted (R432, R238). -/
def postFlags (s : State) (ring : Nat) (f : BitVec 8) : BitVec 8 :=
  if ring < 64 then
    f ||| (if bit (getR s (.tstat ring)) 0 then 1 else 0) ||| (if bit (getR s (.tstat ring)) 2 then 2 else 0)
  else f

/-- The two words of a record without PHASE (R432). -/
def dueWords (s : State) (tick : Nat) (d : Due) : Word × Word :=
  (BitVec.ofNat 64 (tick * 2 ^ 46 + (strokeNow s).toNat % 2 ^ 46),
   BitVec.ofNat 64 (d.kind.toNat * 2 ^ 60 + d.status.toNat * 2 ^ 52 + (postFlags s d.ring d.flags).toNat * 2 ^ 32 +
     d.ref.toNat))

/-- Whether a completion ring can take a record now. -/
def cqRoom (s : State) (ring : Nat) : Bool :=
  let ctl := getR s (ringCqCtl ring)
  let n := ringSize (fld ctl 19 16)
  bit ctl 31 && decide ((fld ctl 15 0 + 1) % n ≠ (getRing s ring).cqHead % n)

/-- A record is written at the tail of its completion ring (R428, R432). -/
def cqWrite (s : State) (ring : Nat) (w0 w1 : Word) : State :=
  let ctl := getR s (ringCqCtl ring)
  let n := ringSize (fld ctl 19 16)
  let tail := fld ctl 15 0
  let r := getRing s ring
  let w1' := if r.phase then setFld w1 63 63 1 else w1
  let s1 := toHost s (.write ((getR s (ringCqBase ring)).toNat + 16 * tail) (wordBytes w0 ++ wordBytes w1') (ringId s ring))
  let s2 := setF s1 (ringCqCtl ring) 15 0 ((tail + 1) % n)
  setRing s2 ring { r with phase := if tail + 1 = n then !r.phase else r.phase }

/-- A completion ring in use has begun to be full with records held: CQ_FULL, once until the host frees space (R433). -/
def raiseFull (s : State) (ring : Nat) : State :=
  let r := getRing s ring
  if r.fullRaised || !bit (getR s (ringCqCtl ring)) 31 then s
  else
    let s1 := setRing s ring { r with fullRaised := true }
    if ring < 64 then eventC s1 0x0206 ring (leBytes 4 (Reg.offset (.cqCtl ring))) else eventReg s1 0x0206 .admCqCtl

/-- A record finds its ring full, or behind held records, and is held (R433); so is one that finds its ring not in use (DEDUCED, log
95). -/
def cqHold (s : State) (ring : Nat) (w0 w1 : Word) : State :=
  let r := getRing s ring
  raiseFull (setRing s ring { r with held := r.held ++ [(w0, setFld w1 37 37 1)] }) ring

/-- A held record as it is posted: TIMING_LOST and SUSPENDED_TURN as they then stand too (R238, R433). -/
def heldFlags (s : State) (ring : Nat) (w1 : Word) : Word :=
  setFld w1 39 32 (postFlags s ring (BitVec.ofNat 8 (fld w1 39 32))).toNat

/-- Held records are posted, in order, while there is room (R433); the count written. -/
def postHeld (s : State) (ring : Nat) : Nat → State × Nat
  | 0 => (s, 0)
  | fuel + 1 =>
    let r := getRing s ring
    match r.held with
    | [] => (s, 0)
    | (w0, w1) :: rest =>
      if cqRoom s ring then
        let s1 := cqWrite (setRing s ring { r with held := rest }) ring w0 (heldFlags s ring w1)
        let (s2, n) := postHeld s1 ring fuel
        (s2, n + 1)
      else (raiseFull s ring, 0)

/-- Due records of one ring are posted in order, or held. -/
def postDues (s : State) (tick : Nat) : List Due → State × Nat
  | [] => (s, 0)
  | d :: rest =>
    let (w0, w1) := dueWords s tick d
    if (getRing s d.ring).held.isEmpty && cqRoom s d.ring then
      let (s1, n) := postDues (cqWrite s d.ring w0 w1) tick rest
      (s1, n + 1)
    else postDues (cqHold s d.ring w0 w1) tick rest

/-- Function and vector of a ring's MSI-X messages (R436). -/
def ringVector (s : State) (ring : Nat) : Nat × Nat :=
  let v := rfld s (ringCqCtl ring) 27 20
  if ring = 64 then (0, v)
  else
    let f := pFunc s (partOf ring)
    (f, if f = 0 then v else v % 16)

/-- One ring's postings at an edge or a fine tick, with at most one message (R436). -/
def postRing (s : State) (ring tick : Nat) (ds : List Due) : State :=
  let (s1, n) := postHeld s ring ((getRing s ring).held.length)
  let (s2, m) := postDues s1 tick ds
  let r := getRing s2 ring
  let s3 := setRing s2 ring { r with stop := r.stop && decide (256 ≤ r.held.length) }
  if n + m = 0 then s3 else sendMsix s3 (ringVector s3 ring).1 (ringVector s3 ring).2

/-- Postings of the rings that `sel` chooses, in ascending context number; the admin ring last (R245 step 5, R433). -/
def postAll (s : State) (sel : Nat → Bool) : State :=
  (List.range 65).foldl (fun s r =>
    let ds := s.due.filter (fun d => d.ring = r)
    if !sel r || (ds.isEmpty && (getRing s r).held.isEmpty) then s
    else
      let tick := if r < 64 && ctxCls s r == 0 then tickNow s else 0
      postRing { s with due := s.due.filter (fun d => d.ring ≠ r) } r tick ds) s

end Sys2Proof.Machine
end

