-- ==== Sys2Proof/Machine/Route.lean ====
section
/-! DEFINITION. Link routes (R377-R381): device coordinates, the next port of a message, the fields that change on the way,
and the header words (R382). -/

namespace Sys2Proof.Machine

/-! ## Device IDs (R3, R377) -/

/-- Coordinates and rank of a device ID: x, y, z, rank. -/
structure Coord where
  x : Nat
  y : Nat
  z : Nat
  rank : Nat
  deriving DecidableEq, Repr

/-- The coordinates of a device ID (R3). -/
def coordOf (d : Nat) : Coord := ⟨d / 2048 % 32, d / 128 % 16, d / 8 % 16, d % 8⟩

/-- The device ID of coordinates. -/
def Coord.id (c : Coord) : Nat := c.x * 2048 + c.y * 128 + c.z * 8 + c.rank

/-- The hank of a device ID: bits 15:3. -/
def hankOf (d : Nat) : Nat := d / 8

/-- Extents of the system: X, Y, Z, ranks per hank. -/
def extents (s : State) : Coord :=
  ⟨rfld s .lnkId 20 16 + 1, rfld s .lnkId 24 21 + 1, rfld s .lnkId 28 25 + 1, rfld s .lnkId 31 29 + 1⟩

/-- This device's coordinates. -/
def here (s : State) : Coord := coordOf (devId s)

/-- ASSIGNED (R377). -/
def assigned (s : State) : Bool := bit (getR s .lnkId) 63

/-! ## Ports -/

/-- STATE of a port: 2 is up. -/
def portState (s : State) (n : Nat) : Nat := rfld s (.lnkPort n) 2 0

/-- Whether a port carries traffic. -/
def portUp (s : State) (n : Nat) : Bool := portState s n == 2

/-- Whether a port is in use for routes: while it trains, messages wait for it (R371, R381). -/
def portLive (s : State) (n : Nat) : Bool := portState s n == 2 || portState s n == 1

/-- The port that carries the mesh link of this device to rank `b`: the mesh port, or P7 in its place (R372). -/
def meshPort (s : State) (b : Nat) : Option Nat :=
  let j := Nat.xor (here s).rank b - 1
  if portLive s j then some j
  else if portLive s 7 && rfld s (.lnkPort 7) 40 38 == j then some 7
  else none

/-- Whether the mesh link between two ranks of this hank is live, as the peers have reported (R379). -/
def meshLive (s : State) (a b : Nat) : Bool :=
  if a = (here s).rank then (meshPort s b).isSome
  else if b = (here s).rank then (meshPort s a).isSome
  else (tabGet 0 s.meshes a).getLsbD (Nat.xor a b - 1)

/-- The rank to which a hank hop to rank `b` goes: `b`, or the lowest rank through which it takes two hops (R379);
`second`: only the direct link is left. -/
def hankNext (s : State) (b : Nat) (second : Bool) : Option Nat :=
  let a := (here s).rank
  if meshLive s a b then some b
  else if second then none
  else (List.range (extents s).rank).find? (fun c => c != a && c != b && meshLive s a c && meshLive s c b)

/-- The direction of a leg in one dimension: none where it has arrived, else whether it goes up (R378; a tie goes up). -/
def legDir (size from' to' : Nat) : Option Bool :=
  let d := (to' + size - from') % size
  if d = 0 then none else some (decide (2 * d ≤ size))

/-- The torus port of the next hop towards a hank, and none once there (R367, R378). -/
def torusPort (s : State) (hank : Nat) : Option Nat :=
  let h := here s
  let t := coordOf (8 * hank)
  let e := extents s
  match legDir e.x h.x t.x with
  | some up => some (if up then 8 else 9)
  | none =>
    match legDir e.y h.y t.y with
    | some up => some (if up then 10 else 11)
    | none => (legDir e.z h.z t.z).map (fun up => if up then 12 else 13)

/-! ## A message's way -/

/-- The hanks of a message's legs: its waypoints, then its destination. -/
def legs (m : Msg) : List Nat :=
  (if 1 ≤ m.wcnt.toNat then [m.w1.toNat] else []) ++ (if 2 ≤ m.wcnt.toNat then [m.w2.toNat] else []) ++
  [hankOf m.dst.toNat]

/-- SEG moves on while the hank of the present leg is reached and a further leg follows. -/
def legStep (s : State) (m : Msg) : Nat → Msg
  | 0 => m
  | fuel + 1 =>
    match (legs m)[m.seg.toNat]? with
    | some h =>
      if h = hankOf (devId s) ∧ m.seg.toNat + 1 < (legs m).length then legStep s { m with seg := m.seg + 1 } fuel else m
    | none => m

/-- RAILSRC in force (R378). -/
def railSrc (s : State) : Bool := bit (actR s .lnkCfg) 0

/-- Whether a hop on a torus port crosses the dateline of its dimension (R378). -/
def crosses (s : State) (p : Nat) : Bool :=
  let h := here s
  let e := extents s
  let (v, size) := if p < 10 then (h.x, e.x) else if p < 12 then (h.y, e.y) else (h.z, e.z)
  if p % 2 = 0 then v + 1 == size else v == 0

/-- The class of the flits of a hop on torus port `p` in segment `seg`, for a message that came over a port in a class (R378): the
second from the dateline on, in the same dimension. -/
def torusClass (s : State) (came : Option (Nat × Nat)) (seg p : Nat) : Nat :=
  let past := match came with
    | some (q, k) => decide (8 ≤ q) && q / 2 == p / 2 && k == 3 + 2 * seg
    | none => false
  2 + 2 * seg + (if crosses s p || past then 1 else 0)

/-- The next port of a message at this device and the class of its flits there (R376, R378, R379), for a message that came over a
port in a class, or is injected here; none where it is unreachable, with the port it could not take (R381). A hank hop at the source hank
comes first with RAILSRC, and for a copy of a multicast put (R392 step 1). -/
def nextHop (s : State) (came : Option (Nat × Nat)) (m : Msg) : Except Nat (Nat × Nat) :=
  let d := m.dst.toNat
  let b := d % 8
  let away := (here s).rank != b
  let hank (k : Nat) (second : Bool) : Except Nat (Nat × Nat) :=
    match (hankNext s b second).bind (meshPort s) with
    | some p => .ok (p, k)
    | none => .error (Nat.xor (here s).rank b - 1)
  if 63 ≤ m.hops.toNat then .error ((torusPort s (hankOf d)).getD (Nat.xor (here s).rank b - 1))
  else if away && came.any (fun x => x.2 == 0) then hank 1 true
  else if away && came.any (fun x => x.2 == 8) then hank 9 true
  else if away && came.isNone && (railSrc s || m.op == .multicastPut) then hank 0 false
  else
    match (legs m)[m.seg.toNat]?.bind (torusPort s) with
    | some p => if portLive s p then .ok (p, torusClass s came m.seg.toNat p) else .error p
    | none => if away then hank 8 false else .error 0

/-- A message as it is injected: no hops, leg 0, the waypoints of the detour entry in force (R378, R380). -/
def injected (s : State) (m : Msg) : Msg :=
  let w := actR s (.detour (hankOf m.dst.toNat))
  let n := if bit w 63 then fld w 27 26 else 0
  let n' := if 2 < n then 2 else n
  legStep s { m with src := BitVec.ofNat 16 (devId s), hops := 0, seg := 0, wcnt := BitVec.ofNat 2 n',
                     w1 := if 1 ≤ n' then BitVec.ofNat 13 (fld w 12 0) else 0,
                     w2 := if 2 ≤ n' then BitVec.ofNat 13 (fld w 25 13) else 0 } 3

/-- A message discarded as unreachable counts for the port that it could not take (R381, R399). -/
def countUnreach (s : State) (port : Nat) : State := if port < 16 then bump s (.unreach port) 1 else s

/-! ## Why a request does not leave its source (R377, R381, R394) -/

/-- The LINK causes (R394). -/
def lkAddress := 1
def lkImport := 2
def lkSignal := 3
def lkSemovf := 4
def lkUnreach := 5
def lkTimeout := 6
def lkPort := 7

/-- The cause of the LINK fault that a message of partition `p` meets at its source: no assigned ID, a first hop on a port outside
the partition's SKEIN mask, or none that it can take; none where it leaves. -/
def linkCause (s : State) (p : Nat) (m : Msg) : Option Nat :=
  if !assigned s then some lkPort
  else match nextHop s none m with
    | .ok (q, _) => if pHasPort s p q then none else some lkPort
    | .error q => some (if q < 16 && !pHasPort s p q then lkPort else lkUnreach)

/-! ## Header words (R382) -/

/-- OP of a message. -/
def opCode : MsgOp → Nat
  | .put => 0 | .getRequest => 1 | .getResponse => 2 | .add => 3 | .signal => 4 | .multicastPut => 5
  | .acknowledgement => 6 | .refusal => 7 | .draftTile => 8 | .tileRequest => 9

/-- The kind of message that an OP names; 0xA to 0xF are reserved. -/
def opOf : Nat → Option MsgOp
  | 0 => some .put | 1 => some .getRequest | 2 => some .getResponse | 3 => some .add | 4 => some .signal
  | 5 => some .multicastPut | 6 => some .acknowledgement | 7 => some .refusal | 8 => some .draftTile
  | 9 => some .tileRequest | _ => none

/-- The virtual channel of a kind of message (R375). (DEDUCED, log 105.) -/
def opVc : MsgOp → Nat
  | .getRequest | .add | .signal | .tileRequest => 0
  | .acknowledgement | .getResponse | .refusal => 1
  | .put | .multicastPut | .draftTile => 2

/-- Header word 0. -/
def hdr0 (m : Msg) : Word :=
  BitVec.ofNat 64 (m.dst.toNat * 2 ^ 48 + m.src.toNat * 2 ^ 32 + opCode m.op * 2 ^ 28 + opVc m.op * 2 ^ 26 + m.ctx.val * 2 ^ 20 +
    m.epoch.toNat * 2 ^ 16 + m.tag.toNat * 2 ^ 4 + m.cls.toNat * 4 + (if m.last then 2 else 0) + (if m.sig then 1 else 0))

/-- Header word 1. -/
def hdr1 (m : Msg) : Word := BitVec.ofNat 64 (m.mcg.toNat * 2 ^ 56 + m.addr.toNat)

/-- Header word 2. -/
def hdr2 (m : Msg) : Word :=
  BitVec.ofNat 64 (m.hops.toNat * 2 ^ 56 + m.seg.toNat * 2 ^ 54 + m.wcnt.toNat * 2 ^ 52 + m.w2.toNat * 2 ^ 39 +
    m.w1.toNat * 2 ^ 26 + m.redop.toNat * 2 ^ 23 + m.rank.toNat * 2 ^ 17 + (if m.ranked then 65536 else 0) + m.len.toNat)

/-- The 32 header bytes of a message. -/
def headerBytes (m : Msg) : List Byte := wordBytes (hdr0 m) ++ wordBytes (hdr1 m) ++ wordBytes (hdr2 m) ++ wordBytes m.word3

/-- The message whose header words these are, without its data; none for a reserved OP. -/
def headerMsg (w0 w1 w2 w3 : Word) : Option Msg :=
  (opOf (fld w0 31 28)).map (fun op =>
    { dst := BitVec.ofNat 16 (fld w0 63 48), src := BitVec.ofNat 16 (fld w0 47 32), op := op, ctx := Fin.ofNat 64 (fld w0 25 20),
      epoch := BitVec.ofNat 4 (fld w0 19 16), tag := BitVec.ofNat 12 (fld w0 15 4), cls := BitVec.ofNat 2 (fld w0 3 2),
      last := bit w0 1, sig := bit w0 0, mcg := BitVec.ofNat 8 (fld w1 63 56), addr := BitVec.ofNat 48 (fld w1 47 0),
      hops := BitVec.ofNat 6 (fld w2 61 56), seg := BitVec.ofNat 2 (fld w2 55 54), wcnt := BitVec.ofNat 2 (fld w2 53 52),
      w2 := BitVec.ofNat 13 (fld w2 51 39), w1 := BitVec.ofNat 13 (fld w2 38 26), redop := BitVec.ofNat 3 (fld w2 25 23),
      rank := BitVec.ofNat 6 (fld w2 22 17), ranked := bit w2 16, len := BitVec.ofNat 14 (fld w2 13 0), word3 := w3 })

end Sys2Proof.Machine
end

