-- ==== Sys2Proof/Machine/Mem.lean ====
section
/-! DEFINITION. Access to memory by address and through handles: checks, the unified range, shadows of declared handles,
uncorrectable words, spindle SRAM. -/

namespace Sys2Proof.Machine

/-- Go on only if a condition holds; otherwise stop so. -/
def need (b : Bool) (h : Halt) : Ex Unit := if b then .ok () else .error h

/-- Go on only if the event can occur. (DEDUCED, log 108.) -/
def can (b : Bool) (why : String) : Ex Unit := need b (.no why)

/-- A value that must be present for the event to occur. -/
def the {α : Type} (o : Option α) (why : String) : Ex α :=
  match o with
  | some a => .ok a
  | none => .error (.no why)

/-- A value whose absence is a fault. -/
def theF {α : Type} (s : State) (o : Option α) (f : PFault) : Ex α :=
  match o with
  | some a => .ok a
  | none => .error (.fault s f)

/-- A condition whose failure is a fault. -/
def needF (s : State) (b : Bool) (f : PFault) : Ex Unit := need b (.fault s f)

/-- Whether a step goes through. -/
def passes {α : Type} : Ex α → Bool
  | .ok _ => true
  | .error _ => false

/-- The state that a step gives, or this one where it gives none. -/
def passOr (s : State) : Ex State → State
  | .ok t => t
  | .error _ => s

/-! ## Bytes by local address -/

/-- Bytes of memory by local address. -/
def rd (s : State) (a n : Nat) : List Byte := memRead s.mem a n

/-- A little-endian number of memory. -/
def rdN (s : State) (a n : Nat) : Nat := ofBytes (rd s a n)

/-- Whether [a, a + n) touches an uncorrectable word (R452). -/
def ueIn (s : State) (a n : Nat) : Bool := s.ue.any (fun w => overlaps (32 * w) 32 a n)

/-- The handle-table entries of mirrored contexts that a write touches, added to those to be shipped (R326). -/
def touchEntries (s : State) (a n : Nat) : List Nat :=
  if rfld s .plyCfg 1 0 = 1 then
    (List.range 64).foldl (fun acc c =>
      if bit (getR s .plyCfg) (4 + partOf c) && exists' s c then
        let base := rfld s (.htab c) 47 12 * 4096
        let cnt := rfld s (.htab c) 63 48 + 1
        if overlaps base (64 * cnt) a n then
          let lo := (max a base - base) / 64
          let hi := (min (a + n) (base + 64 * cnt) - 1 - base) / 64
          (List.range (hi - lo + 1)).foldl (fun acc i =>
            let e := base + 64 * (lo + i)
            if acc.contains e then acc else acc ++ [e]) acc
        else acc
      else acc) s.ply.touched
  else s.ply.touched

/-- Creel tags after a write to a range: its lines are invalid in all four creels (R203). -/
def creelDrop (t : Tab (List (Nat × Nat))) (a n : Nat) : Tab (List (Nat × Nat)) :=
  (t.map (fun k => (k.1, k.2.filter (fun w => !overlaps (4096 * w.2) 4096 a n)))).filter (fun k => !k.2.isEmpty)

/-- Bytes are written to memory by local address. A 32 B word written whole is no longer uncorrectable (R452). -/
def wr (s : State) (a : Nat) (bs : List Byte) : State :=
  let n := bs.length
  { s with
    mem := memWrite s.mem a bs
    ue := s.ue.filter (fun w => !(decide (a ≤ 32 * w) && decide (32 * w + 32 ≤ a + n)))
    creel := creelDrop s.creel a n
    ply := { s.ply with touched := touchEntries s a n } }

/-! ## What lies outside the device (R171, R424)

An address from 2^48 on stands for one on another device (DESIGN CHOICE, log 116). -/

/-- What is added to a local address of another device, the device, and the local address. -/
def farBase (dev : Nat) : Nat := (dev + 1) * 2 ^ 48
def farDev (a : Nat) : Nat := a / 2 ^ 48 - 1
def farLoc (a : Nat) : Nat := a % 2 ^ 48
def isFar (a : Nat) : Bool := decide (2 ^ 48 ≤ a)

/-- Bytes of a context are written by local address, or leave for the host's memory (R424) or for another device (R171). -/
def putA (s : State) (c a : Nat) (bs : List Byte) : State :=
  if a < hostBase then wr s a bs
  else if isFar a then toLink s (.far (farDev a) (farLoc a) bs)
  else toHost s (.write (a - hostBase) bs (hostId s c))

/-- The low or high half of a byte leaves the device (R25). -/
def halfOut (s : State) (c a : Nat) (high : Bool) (v : Nat) : State :=
  if isFar a then toLink s (.farHalf (farDev a) (farLoc a) high (BitVec.ofNat 4 v))
  else toHost s (.writeHalf (a - hostBase) high (BitVec.ofNat 4 v) (hostId s c))

/-- A message of a context to another device leaves, or is a LINK fault at its source (R377, R381, R394). -/
def mayDepart (s : State) (c dev : Nat) : Ex Unit :=
  let m := injected s { dst := BitVec.ofNat 16 dev }
  match linkCause s (partOf c) m, nextHop s none m with
  | some k, .error q => .error (.fault (if k = lkUnreach then countUnreach s q else s) (fLink k 0 0 0 dev))
  | some k, .ok _ => .error (.fault s (fLink k 0 0 0 dev))
  | none, _ => .ok ()

/-- An agent of a context reads a span: what lies outside the device is asked for, and what comes is held at its addresses until the next
such read. A free value says whether it comes: a host read that does not is an address fault (R424), one that a target or the way to it
refuses is a LINK fault (R394). (DESIGN CHOICE, log 116.) -/
def askOutside (s : State) (c a n : Nat) : Ex State :=
  if a < hostBase ∨ n = 0 then .ok s
  else
    let (b, s1) := freeBytes (if isFar a then toLink s (.farRead (farDev a) (farLoc a) n)
      else toHost s (.read (a - hostBase) n (hostId s c))) 1
    let k := (b.headD 0).toNat % 8
    let (bs, s2) := freeBytes s1 n
    if isFar a then do
      mayDepart s c (farDev a)
      if k = 0 ∨ k = lkPort then .ok { s2 with mem := memWrite s2.mem a bs }
      else .error (.fault s1 (fLink k 0 0 0 (farDev a)))
    else if k = 0 then .ok { s2 with mem := memWrite s2.mem a bs }
    else .error (.fault s1 (fAddr (BitVec.ofNat 64 (devId s * 2 ^ 48 + a))))

/-- The same for several spans in turn. -/
def askAll (s : State) (c : Nat) (ss : List (Nat × Nat)) : Ex State := ss.foldlM (fun s x => askOutside s c x.1 x.2) s

/-- A range is copied with its uncorrectable marks (R452). -/
def copyMem (s : State) (src dst n : Nat) : State :=
  let marks := s.ue.filter (fun w => overlaps (32 * w) 32 src n)
  let s1 := wr s dst (rd s src n)
  { s1 with ue := marks.foldl (fun u w =>
      let x := (dst + 32 * w - src) / 32
      if u.contains x then u else u ++ [x]) s1.ue }

/-- A range reads as zeros again. -/
def clearMem (s : State) (a n : Nat) : State :=
  { s with mem := memClear s.mem a n
           creel := creelDrop s.creel a n
           ue := s.ue.filter (fun w => !(decide (a ≤ 32 * w) && decide (32 * w + 32 ≤ a + n))) }

/-! ## The unified range (R179-R184) -/

/-- Whether a frame is an HBM frame. -/
def isHbmFrame (f : Nat) : Bool := decide (f < 0xC000000000)

/-- Quarter of an HBM frame. -/
def frameQ (f : Nat) : Nat := f / 0x3000000000

/-- Frames of a quarter's carve-out, ascending. (DEDUCED, log 25.) -/
def hbmFrames (s : State) (q : Nat) : List Nat :=
  (List.range (carveHbm s q / pageBytes)).map (fun i => hbmBase q + (hbmLive s q - carveHbm s q) + i * pageBytes)

/-- Board frames of a partition, ascending. -/
def boardFrames (s : State) (p : Nat) : List Nat :=
  ((List.range 16).filter (pHasBoard s p)).flatMap (fun b =>
    (List.range (carveBoard s b / pageBytes)).map (fun i => boardBase b + (boardLive s b - carveBoard s b) + i * pageBytes))

/-- Partition of a unified page's owner. -/
def ownerOf (s : State) (pg : Nat) : Nat := match uregOfPage s pg with
  | some r => r.owner
  | none => 0

/-- Migrations in motion of a partition. -/
def migsOf (s : State) (p : Nat) : List Mig := s.migs.filter (fun m => m.part == p)

/-- Whether a page is in motion, or a miss on it waits for its migration: every access to it waits (R181). -/
def pageBusy (s : State) (pg : Nat) : Bool := s.migs.any (fun m => m.page == pg) || s.migQueue.any (fun m => m.page == pg)

/-- The frames that hold pages. -/
def usedFrames (s : State) : List Nat := s.pages.map (fun x => x.2.frame)

/-- The lowest free frame of a list (R177). -/
def firstFree (s : State) (fs : List Nat) : Option Nat := fs.find? (fun f => !(usedFrames s).contains f)

/-- Whether a page must be brought into HBM before an engine's access: it resides on the board tier, or it holds no
frame and is written (R180). -/
def pageMiss (s : State) (pg : Nat) (write : Bool) : Bool :=
  match tabGet? s.pages pg with
  | none => write
  | some x => !isHbmFrame x.frame

/-- The better of two victims under R180: released longest ago, else lowest last access, else lower page. -/
def victimLt (a b : Nat × PageSt) : Bool :=
  match a.2.released, b.2.released with
  | some x, some y => decide (x < y)
  | some _, none => true
  | none, some _ => false
  | none, none =>
    decide (a.2.last.toNat < b.2.last.toNat) || (a.2.last == b.2.last && decide (a.1 < b.1))

/-- The page that gives up its frame in quarter `q` (R180 cases 2 and 3); pinned pages never do. -/
def victim (s : State) (q : Nat) : Option (Nat × PageSt) :=
  (s.pages.filter (fun x => isHbmFrame x.2.frame && frameQ x.2.frame == q &&
      (match uregOfPage s x.1 with
       | some r => r.policy != 2
       | none => true))).foldl
    (fun best x => match best with
      | none => some x
      | some b => if victimLt x b then some x else some b) none

/-- Whether a quarter has a stack at step 4: a frame of the quarter lies on all three of its stacks, so none of its pages moves (R172,
R187). -/
def hotQuarter (s : State) (q : Nat) : Bool := (List.range 3).any (fun i => rfld s (.hbmTemp (3 * q + i)) 10 8 == 4)

/-- A page comes into an HBM frame for an access from quarter `A` (R180); none where no frame can be had, or the frame's stacks issue
nothing (R187). A retired quarter is no target (R13, DESIGN CHOICE, log 112). -/
def bringIn (s : State) (pg A c : Nat) : Option State :=
  match uregOfPage s pg with
  | none => none
  | some r =>
    let may (q : Nat) : Bool := r.qmask.testBit q && !retired s 6 q
    let q := if may A then A else ((List.range 4).find? may).getD 0
    let old := (tabGet? s.pages pg).map (·.frame)
    let put (s : State) (f : Nat) : State :=
      bumpC { s with pages := tabSet s.pages pg { frame := f, last := strokeNow s } } c kUniIn 1
    if hotQuarter s q then none
    else match firstFree s (hbmFrames s q) with
    | some f => some (put s f)
    | none =>
      match victim s q with
      | none => none
      | some (vp, vs) =>
        match (match old with
          | some b => some b
          | none => firstFree s (boardFrames s r.owner)) with
        | none => none
        | some b =>
          let s1 := { s with pages := tabSet s.pages vp { vs with frame := b, released := none }
                             creel := creelDrop s.creel (uniBase + vp * pageBytes) pageBytes }
          some (put (bumpC s1 c kUniOut 1) vs.frame)

/-- The unified pages of a range. -/
def pagesIn (a n : Nat) : List Nat :=
  if n = 0 ∨ a < uniBase ∨ hostBase ≤ a then []
  else (List.range ((a + n - 1) / pageBytes - a / pageBytes + 1)).map (fun i => (a - uniBase) / pageBytes + i)

/-! ## Where bytes lie (R172-R175, R183), and stacks that issue nothing (R187) -/

/-- The rotation of R172 and R174 for a row. -/
def rowHash (r : Nat) : Nat := Nat.xor (Nat.xor (r % 128) (r / 128 % 128)) (Nat.xor (r / 16384 % 128) (r / 2097152 % 128))

/-- The entry of a list of live channels that holds unit `g` of interleaving, and the row of it. -/
def interleave (live : List Nat) (g : Nat) : Nat × Nat :=
  ((live[(g % live.length + rowHash (g / live.length)) % live.length]?).getD 0, g / live.length)

/-- The place of a byte in a unit (R454's types and indices): a byte of a pseudo-channel, or a byte of a board channel's block
slots. -/
structure Loc where
  ty : Nat
  idx : Nat
  byte : Nat
  deriving DecidableEq, Repr

/-- The place of offset `o` of quarter region `q` (R172). -/
def hbmLoc (s : State) (q o : Nat) : Loc :=
  let (pc, r) := interleave (((List.range 96).map (96 * q + ·)).filter (fun i => !s.pcOut.contains i)) (o / 256)
  ⟨0, pc, r * 256 + o % 256⟩

/-- The place of offset `o` of port region `p` (R174): byte o mod 4096 of block slot r. -/
def boardLoc (s : State) (p o : Nat) : Loc :=
  let (ch, r) := interleave (((List.range 4).map (4 * p + ·)).filter (fun i => !s.bcOut.contains i)) (o / 4096)
  ⟨1, ch, r * 4096 + o % 4096⟩

/-- The board ports of a partition, ascending. -/
def portsOf (s : State) (p : Nat) : List Nat := (List.range 16).filter (pHasBoard s p)

/-- The place of byte `o` of a page that resides in a frame: an HBM frame is 2 MiB of its quarter; a board-resident page is
striped over its partition's ports (R183). -/
def frameLoc (s : State) (p f o : Nat) : Loc :=
  if isHbmFrame f then hbmLoc s (frameQ f) (f % 0x3000000000 + o)
  else
    let ports := portsOf s p
    let b := (ports[o / 4096 % ports.length]?).getD 0
    let blocks := carveBoard s b / 4096
    boardLoc s b (boardLive s b - carveBoard s b + Config.stripeSlot f (o / 4096) % blocks * 4096 + o % 4096)

/-- Where the byte at a local address lies (R172, R174, R183); none where the address names no byte of HBM or of the board
tier. -/
def locate (s : State) (a : Nat) : Option Loc :=
  match placeOf s a with
  | .hbm q => some (hbmLoc s q (a % 0x3000000000))
  | .board b => some (boardLoc s b ((a - boardBase 0) % 0x1800000000))
  | .unified pg => (tabGet? s.pages pg).map (fun x => frameLoc s (ownerOf s pg) x.frame ((a - uniBase) % pageBytes))
  | _ => none

/-- N of the block directory for the 4 KiB block of the board tier that starts at `a` (R175): 0 where every byte is 0, else 1-8
by the contents (DESIGN CHOICE, log 114). -/
def blockSectors (s : State) (a : Nat) : Nat :=
  let bs := rd s a 4096
  if bs.all (· == 0) then 0 else max 1 (min 8 (Config.kcSectors bs))

/-- HBM stacks at step 4: their controllers issue no reads or writes (R187). -/
def hotStacks (s : State) : List Nat := (List.range 12).filter (fun n => rfld s (.hbmTemp n) 10 8 == 4)

/-- Whether a range touches a stack at step 4: a request for it waits (R187). A stack has 32 of the device's pseudo-channels,
in order. (DEDUCED, log 111.) -/
def waitsHot (s : State) (a n : Nat) : Bool :=
  let hot := hotStacks s
  !hot.isEmpty && n != 0 && (List.range ((a + n - 1) / 256 - a / 256 + 1)).any (fun i =>
    match locate s ((a / 256 + i) * 256) with
    | some l => l.ty == 0 && hot.contains (l.idx / 32)
    | none => false)

/-! ## Accesses to pages -/

/-- The last access of pages is now (R180). -/
def touchPages (s : State) (pgs : List Nat) : State :=
  pgs.foldl (fun s pg => match tabGet? s.pages pg with
    | some x => { s with pages := tabSet s.pages pg { x with last := strokeNow s } }
    | none => s) s

/-- An agent that is no stream accesses unified pages: the access waits for a page in motion or for a free migration buffer
of the partition, and a page that must come into HBM does so within the step (R181, R183, DESIGN CHOICE, log 20). -/
def admitPages (s : State) (A c a n : Nat) (write : Bool) : Ex State := do
  let s1 ← (pagesIn a n).foldlM (fun s pg =>
    if pageBusy s pg then .error (.no "the page waits for its migration (R181)")
    else if pageMiss s pg write then
      if (migsOf s (ownerOf s pg)).length < 4 then the (bringIn s pg A c) "no frame can be had for the page"
      else .error (.no "the partition's migration buffers are in use (R183)")
    else .ok s) s
  can (!waitsHot s1 a n) "the stack's controller issues nothing (R187)"
  .ok (touchPages s1 (pagesIn a n))

/-- Several ranges are admitted in turn. -/
def admitAll (s : State) (A c : Nat) (ss : List (Nat × Nat)) (write : Bool) : Ex State :=
  ss.foldlM (fun s x => admitPages s A c x.1 x.2 write) s

/-! ## Checked access by a thread's own addresses -/

/-- Quarter from which a thread's accesses come. -/
def quarterOf (s : State) (t : Tid) : Nat := ((physOf s t.ctx.val t.lsp.val).getD 0) / 16

/-- Whether a range touches the ring of a partition's reel in force, which programs and the host cannot read (R366). -/
def inReel (s : State) (a n : Nat) : Bool :=
  (List.range 4).any (fun p =>
    let w := actR s (.reelRing p)
    overlaps a n (fld w 26 0 * pageBytes) (fld w 63 45 * pageBytes))

/-- Whether a range may be accessed by a context (R168, R169), and whether it may be read (R366). -/
def okRange (s : State) (c a n : Nat) : Bool :=
  decide (a + n ≤ 0x1000000000000) && mayAccessRange s (partOf c) a n
def okRead (s : State) (c a n : Nat) : Bool := okRange s c a n && !inReel s a n

/-- The global address of a local one on this device (R171). -/
def gAddr (s : State) (a : Nat) : Word := BitVec.ofNat 64 (devId s * 2 ^ 48 + a)

/-- A checked read by an agent of a context: ADDRESS, then MEM_UE (R452). -/
def readA (s : State) (t : Tid) (a n : Nat) : Ex (State × List Byte) := do
  needF s (okRead s t.ctx.val a n) (fAddr (gAddr s a))
  let s1 ← admitPages s (quarterOf s t) t.ctx.val a n false
  needF s1 (!ueIn s1 a n) (fMemUe (gAddr s a))
  let s2 ← askOutside s1 t.ctx.val a n
  .ok (s2, rd s2 a n)

/-- A checked write by an agent of a context. -/
def writeA (s : State) (t : Tid) (a : Nat) (bs : List Byte) : Ex State := do
  needF s (okRange s t.ctx.val a bs.length) (fAddr (gAddr s a))
  let s1 ← admitPages s (quarterOf s t) t.ctx.val a bs.length true
  .ok (putA s1 t.ctx.val a bs)

/-! ## Declared handles (R309, R310) -/

/-- The declaration of a handle in an existing splice of a context. -/
def declOf (s : State) (c h : Nat) : Option (Splice × Decl) :=
  (s.splices.filter (fun x => x.opener.ctx.val == c)).findSome? (fun x =>
    (x.decls.find? (fun d => d.idx == h)).map (fun d => (x, d)))

/-- A splice replaced by its new value; slot and partition name it. -/
def setSplice (s : State) (x : Splice) : State :=
  { s with splices := s.splices.map (fun y => if y.part == x.part && y.slot == x.slot then x else y) }

/-- A declaration replaced in its splice. -/
def setDecl (x : Splice) (d : Decl) : Splice :=
  { x with decls := x.decls.map (fun e => if e.idx == d.idx then d else e) }

/-- Whether an address lies in a declared span. -/
def Decl.covers (d : Decl) (a : Nat) : Bool := decide (d.span ≤ a) && decide (a < d.span + d.len)

/-- Whether an address's granule of a declared span is written. -/
def Decl.wrote (d : Decl) (a : Nat) : Bool := d.written.contains ((a - d.span) / 4096)

/-- A byte's address as a context reads it through handle `h`: in the shadow where its granule is written (R310). -/
def viewAddr (s : State) (c h a : Nat) : Nat :=
  match declOf s c h with
  | none => a
  | some (_, d) => if d.covers a && d.wrote a then d.shadow + (a - d.span) else a

/-- The pieces of a range within one granule each. -/
def pieces (a n : Nat) : List (Nat × Nat) :=
  if n = 0 then [] else
  (List.range ((a + n - 1) / 4096 - a / 4096 + 1)).map (fun i =>
    let lo := max a ((a / 4096 + i) * 4096)
    let hi := min (a + n) ((a / 4096 + i + 1) * 4096)
    (lo, hi - lo))

/-- Bytes as a context reads them through handle `h`. -/
def readV (s : State) (c h a n : Nat) : List Byte :=
  (pieces a n).flatMap (fun (lo, m) => rd s (viewAddr s c h lo) m)

/-- Whether a read through handle `h` meets an uncorrectable word. -/
def ueV (s : State) (c h a n : Nat) : Bool := (pieces a n).any (fun (lo, m) => ueIn s (viewAddr s c h lo) m)

/-- The addresses that a read through handle `h` reaches. -/
def readSpans (s : State) (c h a n : Nat) : List (Nat × Nat) := (pieces a n).map (fun x => (viewAddr s c h x.1, x.2))

/-- Who writes: an instruction by its issue number, or a store stream's drain of one tile. -/
inductive Writer where
  | op (seq : Nat)
  | tile (t : Tid) (sid n : Nat)
  deriving DecidableEq, Repr

/-- Whether a write had begun when a splice was discarded: its instruction had issued, or its slot was claimed (R315). -/
def begun (r : Retiring) : Writer → Bool
  | .op seq => decide (seq < r.seq)
  | .tile t sid n => r.tiles.any (fun x => x.1 == t && x.2.1 == sid && decide (n < x.2.2))

/-- Where a write through handle `h` lands that began before its splice ended: after a flip in the ex-shadow (R309), after a
discard in the shadow, which is then its last place (R315). The flag says that it is. (DEDUCED, log 115.) -/
def redirect (s : State) (c h a : Nat) (w : Writer) : Nat × Bool :=
  s.retiring.foldl (fun acc r =>
    if !acc.2 && r.ctx.val == c && r.idx == h && decide (r.span ≤ acc.1) && decide (acc.1 < r.span + r.len) &&
        (r.flip || begun r w)
    then (r.dest + (acc.1 - r.span), !r.flip) else acc) (a, false)

/-- The address at which a writer finds the present value of a byte. -/
def writerView (s : State) (c h a : Nat) (w : Writer) : Nat :=
  let x := redirect s c h a w
  if x.2 then x.1 else viewAddr s c h x.1

/-- The addresses that a write through handle `h` reaches, and those that it reads first: a granule that it covers in part
(R309). -/
def writeSpans (s : State) (c h a n : Nat) (w : Writer) : List (Nat × Nat) × List (Nat × Nat) :=
  (pieces a n).foldl (fun acc x =>
    let y := redirect s c h x.1 w
    match (if y.2 then none else declOf s c h) with
    | some (_, d) =>
      if d.covers y.1 then
        (acc.1 ++ [(d.shadow + (y.1 - d.span), x.2)],
         if d.wrote y.1 || x.2 == 4096 then acc.2 else acc.2 ++ [(y.1 / 4096 * 4096, 4096)])
      else (acc.1 ++ [(y.1, x.2)], acc.2)
    | none => (acc.1 ++ [(y.1, x.2)], acc.2)) ([], [])

/-- A granule of a committed buffer is copied into a shadow; what a reel's ring holds is read by no program, and its bytes are free values
(R366; DESIGN CHOICE, log 138). -/
def copyGranule (s : State) (src dst : Nat) : State :=
  if inReel s src 4096 then
    let (bs, s1) := freeBytes s 4096
    wr s1 dst bs
  else copyMem s src dst 4096

/-- One piece within a granule is written through handle `h`: a granule written in part is copied first (R309). -/
def writePiece (s : State) (c h a : Nat) (bs : List Byte) (w : Writer) : State :=
  let y := redirect s c h a w
  match (if y.2 then none else declOf s c h) with
  | none => putA s c y.1 bs
  | some (x, d) =>
    if d.covers y.1 then
      let g := (y.1 - d.span) / 4096
      let s1 := if d.wrote y.1 || bs.length == 4096 then s
        else bumpC (copyGranule s (d.span + 4096 * g) (d.shadow + 4096 * g)) c kSplFill 1
      let s2 := if d.wrote y.1 then s1 else setSplice s1 (setDecl x { d with written := d.written ++ [g] })
      wr s2 (d.shadow + (y.1 - d.span)) bs
    else putA s c y.1 bs

/-- Bytes are written as a context writes them through handle `h`. -/
def writeV (s : State) (c h a : Nat) (bs : List Byte) (w : Writer) : State :=
  ((pieces a bs.length).foldl (fun (acc : State × List Byte) (p : Nat × Nat) =>
    (writePiece acc.1 c h p.1 (acc.2.take p.2) w, acc.2.drop p.2)) (s, bs)).1

/-- Spans in ascending order, those that touch joined. -/
def joinSpans (ss : List (Nat × Nat)) : List (Nat × Nat) :=
  (ss.insertionSort (fun a b => a.1 ≤ b.1)).foldr (fun x acc => match acc with
    | y :: r => if y.1 ≤ x.1 + x.2 then (x.1, max (x.1 + x.2) (y.1 + y.2) - x.1) :: r else x :: acc
    | [] => [x]) []

/-- One write covers `ss`, in 4-bit units: granules of a declared handle that it covers whole are written without a copy
(R309). -/
def coverV (s : State) (c h : Nat) (ss : List (Nat × Nat)) (w : Writer) : State :=
  match declOf s c h with
  | none => s
  | some (x, d) =>
    let dst := ss.filterMap (fun r =>
      let y := redirect s c h (r.1 / 2) w
      if y.2 then none else some (2 * y.1 + r.1 % 2, r.2))
    let runs := joinSpans dst
    let gs := (List.range (d.len / 4096)).filter (fun g => !d.written.contains g &&
      runs.any (fun r => decide (r.1 ≤ 2 * (d.span + 4096 * g)) && decide (2 * (d.span + 4096 * (g + 1)) ≤ r.1 + r.2)))
    if gs.isEmpty then s else setSplice s (setDecl x { d with written := d.written ++ gs })

/-- After one write that covers `ss`, in 4-bit units: the 32 B words that it covers whole are uncorrectable no more (R452). -/
def mendV (s : State) (c h : Nat) (ss : List (Nat × Nat)) (w : Writer) : State :=
  { s with ue := s.ue.filter (fun u => !(joinSpans (ss.map (fun r => (2 * writerView s c h (r.1 / 2) w + r.1 % 2, r.2)))).any
      (fun r => decide (r.1 ≤ 64 * u) && decide (64 * u + 64 ≤ r.1 + r.2))) }

/-- The same for spans of bytes. -/
def coverBytes (s : State) (c h : Nat) (ss : List (Nat × Nat)) (w : Writer) : State :=
  coverV s c h (ss.map (fun x => (2 * x.1, 2 * x.2))) w
def mendBytes (s : State) (c h : Nat) (ss : List (Nat × Nat)) (w : Writer) : State :=
  mendV s c h (ss.map (fun x => (2 * x.1, 2 * x.2))) w

/-! ## Spindle SRAM (R9) -/

/-- Save area of a partition, and Z (R337). -/
def saveSpan (s : State) (p : Nat) : Nat × Nat :=
  (fld (getR s (.prtSave p)) 26 0 * pageBytes, fld (getR s (.prtSave p)) 63 45 * pageBytes)
def saveZ (nl : Nat) : Nat := roundUp (nl * 13107200) pageBytes

/-- Local address of the image of a context's logical spindle: saved, or idle on a doubled spindle (R230, R337). A filler shares
its primary's spindles and images (R335). -/
def imageAt (s : State) (c l : Nat) : Nat :=
  let x := getC s c
  let root := if x.filler then x.primary.val else c
  (saveSpan s (partOf c)).1 + root % 16 * saveZ (nlEff s (partOf c)) + l * 13107200

/-- The order of what an image holds: bobbin memory, accumulator store, vector scratch, 512 KiB of state (DESIGN CHOICE, log 21). -/
def imageScratch : Nat := 0xB00000

/-- A span of memory takes the contents of an SRAM. -/
def setSlice (s : State) (a n : Nat) (m : Memory) : State :=
  let s1 := clearMem s a n
  { s1 with mem := memPaste s1.mem a m }

/-- Bytes of a span take free values. -/
def freeSpan (s : State) (a n : Nat) : State :=
  if n = 0 then s else
    let (bs, s1) := freeBytes s n
    wr s1 a bs

/-- The two SRAMs of a spindle, and their words that are uncorrectable, by place in an image / 32 (R452). -/
structure Sram where
  bobbin : Memory := []
  scratch : Memory := []
  marks : List Nat := []
  deriving DecidableEq, Repr

/-- Bobbin memory and vector scratch of an image, with its uncorrectable words. -/
def imageSram (s : State) (c l : Nat) : Sram :=
  let a := imageAt s c l
  { bobbin := memSlice s.mem a 0x800000
    scratch := memSlice s.mem (a + imageScratch) 0x100000
    marks := (s.ue.filter (fun w => decide (a ≤ 32 * w) && decide (32 * w < a + 13107200))).map (fun w => w - a / 32) }

/-- The regions of retired quarters, which cannot be reached (R13). -/
def lostRegions (s : State) : List (Nat × Nat) := ((List.range 4).filter (retired s 6)).map (fun q => (hbmBase q, 0x3000000000))

/-- Bytes of a span that lie in regions that cannot be reached read as free values (R13; DESIGN CHOICE, log 112). -/
def freeLost (s : State) (a n : Nat) : State :=
  (lostRegions s).foldl (fun s r =>
    let lo := max a r.1
    freeSpan s lo (min (a + n) (r.1 + r.2) - lo)) s

/-- An image is written (R336), with its uncorrectable words (R452): what it holds beside the two SRAMs stands in the state's own
fields, and its bytes are free values (DESIGN CHOICE, log 21). -/
def saveImage (s : State) (c l : Nat) (m : Sram) : State :=
  let a := imageAt s c l
  let s1 := freeSpan (freeSpan (setSlice (setSlice s a 0x800000 m.bobbin) (a + imageScratch) 0x100000 m.scratch) (a + 0x800000) 0x300000)
    (a + 0xC00000) 0x80000
  freeLost { s1 with ue := s1.ue ++ m.marks.map (a / 32 + ·) } a 13107200

/-- A physical spindle's SRAMs, and the state with them set. -/
def spindleSram (s : State) (i : Nat) : Sram := ⟨tabGet [] s.bobbin i, tabGet [] s.scratch i, tabGet [] s.sramUe i⟩
def setSpindle (s : State) (i : Nat) (m : Sram) : State :=
  { s with bobbin := tabSet s.bobbin i m.bobbin
           scratch := tabSet s.scratch i m.scratch
           sramUe := if m.marks.isEmpty then tabDel s.sramUe i else tabSet s.sramUe i m.marks }

/-- Whether a thread's SRAM is on its spindle, not in an image. -/
def inPlace (s : State) (c l : Nat) : Bool := onSpindle s c l && (getC s c).st != .suspended

/-- Bobbin memory of a thread's logical spindle. -/
def bobbinOf (s : State) (c l : Nat) : Memory :=
  if inPlace s c l then tabGet [] s.bobbin ((physOf s c l).getD 64) else (imageSram s c l).bobbin

/-- Vector scratch of a thread's logical spindle. -/
def scratchOf (s : State) (c l : Nat) : Memory :=
  if inPlace s c l then tabGet [] s.scratch ((physOf s c l).getD 64) else (imageSram s c l).scratch

/-- Words of a spindle's SRAM that a write of [a, a + n) covers whole, by place in an image, are uncorrectable no more (R452). -/
def mendSram (t : Tab (List Nat)) (i a n : Nat) : Tab (List Nat) :=
  (t.map (fun k => if k.1 = i then (k.1, k.2.filter (fun w => !(decide (a ≤ 32 * w) && decide (32 * w + 32 ≤ a + n)))) else k)).filter
    (fun k => !k.2.isEmpty)

/-- Bytes are written to the bobbin memory of a logical spindle. -/
def bobbinWrite (s : State) (c l a : Nat) (bs : List Byte) : State :=
  if inPlace s c l then
    let i := (physOf s c l).getD 64
    { s with bobbin := tabSet s.bobbin i (memWrite (tabGet [] s.bobbin i) a bs), sramUe := mendSram s.sramUe i a bs.length }
  else wr s (imageAt s c l + a) bs

/-- Bytes are written to the vector scratch of a logical spindle. -/
def scratchWrite (s : State) (c l a : Nat) (bs : List Byte) : State :=
  if inPlace s c l then
    let i := (physOf s c l).getD 64
    { s with scratch := tabSet s.scratch i (memWrite (tabGet [] s.scratch i) a bs)
             sramUe := mendSram s.sramUe i (imageScratch + a) bs.length }
  else wr s (imageAt s c l + imageScratch + a) bs

/-- Whether a range of a thread's bobbin memory or vector scratch meets an uncorrectable word (R452). -/
def sramHurt (s : State) (t : Tid) (scratch : Bool) (a n : Nat) : Bool :=
  let a' := if scratch then imageScratch + a else a
  if inPlace s t.ctx t.lsp then (tabGet [] s.sramUe ((physOf s t.ctx t.lsp).getD 64)).any (fun w => overlaps (32 * w) 32 a' n)
  else ueIn s (imageAt s t.ctx t.lsp + a') n

/-- A thread reads vector scratch: noted for the splices it has open (R71). -/
def noteScrRead (s : State) (t : Tid) (a n : Nat) : State :=
  { s with splices := s.splices.map (fun x =>
      if x.opener == t && x.st == .opened then { x with scrRead := x.scrRead ++ minusRanges (a, n) x.scrWritten } else x) }

/-- A thread writes vector scratch: bytes read before they were written make a splice not replayable (R71). -/
def noteScrWrite (s : State) (t : Tid) (a n : Nat) : State :=
  { s with splices := s.splices.map (fun x =>
      if x.opener == t && x.st == .opened then
        { x with scrWritten := x.scrWritten ++ [(a, n)]
                 replayable := x.replayable && !(x.scrRead.any (fun r => overlaps r.1 r.2 a n)) }
      else x) }

/-- Bytes of a thread's vector scratch. (DESIGN CHOICE, log 7.) -/
def scrRd (s : State) (t : Tid) (a n : Nat) : List Byte := memRead (scratchOf s t.ctx.val t.lsp.val) a n

/-- Bytes are written to a thread's vector scratch. -/
def scrWr (s : State) (t : Tid) (a : Nat) (bs : List Byte) : State :=
  noteScrWrite (scratchWrite s t.ctx.val t.lsp.val a bs) t a bs.length

/-- The open splices of a thread become not replayable (R71). -/
def notReplayable (s : State) (t : Tid) : State :=
  { s with splices := s.splices.map (fun x => if x.opener == t && x.st == .opened then { x with replayable := false } else x) }

/-- A thread writes through handle `h`: the splices it has open that do not declare it become not replayable (R71). -/
def noteHandleWrite (s : State) (t : Tid) (h : Nat) : State :=
  { s with splices := s.splices.map (fun x =>
      if x.opener == t && x.st == .opened && !(x.decls.any (fun d => d.idx == h)) then { x with replayable := false } else x) }

end Sys2Proof.Machine
end

