-- ==== Sys2Proof/Machine/Flits.lean ====
section
/-! DEFINITION. The link layer (R373-R376): flits and their CRC, messages cut into flits and put together again, credits and
buffers, the retry buffer; a message on its way, and what becomes of one that is unreachable (R381). -/

namespace Sys2Proof.Machine

/-! ## CRC-32 (R373) -/

/-- One bit of the CRC-32 of IEEE 802.3, low bit first. -/
def crcBit (c : BitVec 32) : BitVec 32 := if c.getLsbD 0 then (c >>> 1) ^^^ 0xEDB88320 else c >>> 1

/-- One byte more. -/
def crcByte (c : BitVec 32) (b : Byte) : BitVec 32 :=
  crcBit (crcBit (crcBit (crcBit (crcBit (crcBit (crcBit (crcBit (c ^^^ b.setWidth 32))))))))

/-- The CRC-32 of bytes, with the polynomial 0x04C1_1DB7, as IEEE 802.3 computes it. -/
def crc32 (bs : List Byte) : BitVec 32 := ~~~(bs.foldl crcByte 0xFFFFFFFF)

/-! ## A flit (R373) -/

/-- The header word of a flit. -/
def flitHead (seq ack : BitVec 12) (x : Flit) : Word :=
  BitVec.ofNat 64 (seq.toNat + ack.toNat * 2 ^ 12 + x.vc.toNat * 2 ^ 24 + x.cls.toNat * 2 ^ 26 + (if x.som then 2 ^ 30 else 0) +
    (if x.eom then 2 ^ 31 else 0) + x.payload.length * 2 ^ 32)

/-- The 256 bytes of a flit: header, payload, and the CRC, low byte first; the payload's unused bytes are 0 (DESIGN CHOICE, log 127). -/
def flitBytes (seq ack : BitVec 12) (x : Flit) : List Byte :=
  let body := wordBytes (flitHead seq ack x) ++ (x.payload ++ List.replicate (244 - x.payload.length) 0)
  body ++ leBytes 4 (crc32 body).toNat

/-- Whether the bytes are a flit whose CRC holds. -/
def flitGood (bs : List Byte) : Bool := bs.length == 256 && ofBytes (bs.drop 252) == (crc32 (bs.take 252)).toNat

/-- SEQ, ACK and the rest of a flit from its bytes. -/
def flitParts (bs : List Byte) : BitVec 12 × BitVec 12 × Flit :=
  let h := BitVec.ofNat 64 (ofBytes (bs.take 8))
  (BitVec.ofNat 12 (fld h 11 0), BitVec.ofNat 12 (fld h 23 12),
   { vc := BitVec.ofNat 2 (fld h 25 24), cls := BitVec.ofNat 4 (fld h 29 26), som := bit h 30, eom := bit h 31,
     payload := (bs.drop 8).take (min 244 (fld h 39 32)) })

/-! ## Messages and flits -/

/-- Bytes of a message: its header, then its data. -/
def msgBytes (m : Msg) : List Byte := headerBytes m ++ m.data

/-- The flits of a message in a class (R373): the header and 212 B of data in the first, 244 B in each further one. -/
def flitsOf (m : Msg) (cls : Nat) : List Flit :=
  let bs := msgBytes m
  let k := ceilDiv bs.length 244
  (List.range k).map (fun i => { vc := BitVec.ofNat 2 (opVc m.op), cls := BitVec.ofNat 4 cls, som := i == 0, eom := i + 1 == k,
                                 payload := (bs.drop (244 * i)).take 244 })

/-- Whether a kind of message carries data. -/
def opData : MsgOp → Bool
  | .put | .add | .multicastPut | .draftTile | .getResponse => true
  | _ => false

/-- The message that bytes put together from flits are; none for a reserved OP, or where LEN does not count the data. -/
def msgOf (bs : List Byte) : Option Msg :=
  let w (i : Nat) : Word := BitVec.ofNat 64 (ofBytes ((bs.drop (8 * i)).take 8))
  let data := bs.drop 32
  match headerMsg (w 0) (w 1) (w 2) (w 3) with
  | some m => if 32 ≤ bs.length ∧ data.length = (if opData m.op then m.len.toNat + 1 else 0) then some { m with data := data } else none
  | none => none

/-! ## Sending (R374-R376) -/

/-- What a port holds beyond its registers. -/
def getPort (s : State) (n : Nat) : PortSt := tabGet {} s.ports n
def setPortSt (s : State) (n : Nat) (x : PortSt) : State := { s with ports := tabSet s.ports n x }

/-- The key of a (VC, CLASS) pair. -/
def pairKey (vc cls : Nat) : Nat := 16 * vc + cls

/-- The bytes of a flit that port `n` sends now: its ACK is the last SEQ received in order (R373). -/
def emitFlit (s : State) (n : Nat) (e : BitVec 12 × Flit) : State :=
  toLink s (.flit n (flitBytes e.1 ((getPort s n).expect - 1) e.2))

/-- A flit is sent for the first time: it takes the next SEQ and stays in the retry buffer (R374). -/
def sendFlit (s : State) (n : Nat) (x : Flit) : State :=
  let p := getPort s n
  emitFlit (setPortSt s n { p with next := p.next + 1, retry := p.retry ++ [(p.next, x)] }) n (p.next, x)

/-- One waiting message sends as many of its flits as its pair has credits for (R376), if no message before it waits for the same pair;
the messages that still wait. -/
def txStep (n : Nat) (acc : State × List TxMsg) (w : TxMsg) : State × List TxMsg :=
  let (s, kept) := acc
  let vc := opVc w.m.op
  let key := pairKey vc w.cls
  if kept.any (fun y => opVc y.m.op == vc && y.cls == w.cls) then (s, kept ++ [w])
  else
    let p := getPort s n
    let inUse := tabGet 0 p.used key
    let fl := (flitsOf w.m w.cls).drop w.sent
    let k := min fl.length (Config.rxFlits vc w.cls - inUse)
    let s1 := (fl.take k).foldl (fun s x => sendFlit s n x) (setPortSt s n { p with used := tabSet p.used key (inUse + k) })
    (s1, if fl.length ≤ k then kept else kept ++ [{ w with sent := w.sent + k }])

/-- Credits go back to the sender of a port (R376). -/
def giveCredit (s : State) (n vc cls k : Nat) : State := if k = 0 then s else toLink s (.credit n vc cls k)

/-- Flits of a held message that every branch has taken: all, where no branch waits any more. -/
def takenFlits (s : State) (h : Held) : Nat :=
  ((s.ports.flatMap (fun p => p.2.waiting)).filter (fun w => w.hold == some h.id)).foldl (fun k w => min k w.sent) h.flits

/-- Flits that every branch has taken are released, and their credits go back (R376, R392). -/
def releaseHeld (s : State) : State :=
  s.held.foldl (fun s h =>
    let k := takenFlits s h
    if h.opened then s
    else giveCredit { s with held := s.held.filterMap (fun x =>
        if x.id = h.id then (if h.flits ≤ k then none else some { x with given := k }) else some x) } h.port h.vc h.cls (k - h.given)) s

/-- A port in service sends what its credits allow. -/
def drainPort (s : State) (n : Nat) : State :=
  if portState s n = 2 ∨ portState s n = 3 then
    let ws := (getPort s n).waiting
    let (s1, kept) := ws.foldl (txStep n) (s, [])
    releaseHeld (setPortSt s1 n { getPort s1 n with waiting := kept })
  else s

/-- A message leaves on a port in a class, one link further (R382). -/
def portMsg (s : State) (n cls : Nat) (came : Option (Nat × Nat)) (hold : Option Nat) (m : Msg) : State :=
  let p := getPort s n
  let w : TxMsg := { m := { m with hops := m.hops + 1 }, came := came, cls := cls, hold := hold }
  drainPort (setPortSt s n { p with waiting := p.waiting ++ [w] }) n

/-! ## A message that cannot go on (R381) -/

/-- A response to a message. -/
def respond (m : Msg) (op : MsgOp) (cause : Nat) (data : List Byte) : Msg :=
  { dst := m.src, src := m.dst, op := op, ctx := m.ctx, epoch := m.epoch, tag := m.tag, cls := m.cls, last := m.last,
    mcg := m.mcg, addr := if op == .getResponse then m.addr else 0, len := BitVec.ofNat 14 (data.length - 1),
    word3 := BitVec.ofNat 64 cause, data := data }

/-- A refusal, or an acknowledgement. -/
def refuse (m : Msg) (cause : Nat) : Msg := respond m .refusal cause []
def ackOf (m : Msg) : Msg := respond m .acknowledgement 0 []

/-- The refusal that tells the issuer of a message that it is unreachable: it speaks for the message's target, which is where a response
comes from. -/
def unreachable (m : Msg) : Msg :=
  if opVc m.op = 1 then { refuse m lkUnreach with dst := m.dst, src := m.src } else refuse m lkUnreach

/-- A message made here for this device needs no link. -/
def toSelf (s : State) (m : Msg) : State := { s with inbox := s.inbox ++ [{ m := m }] }

/-- A refusal is injected; one that is unreachable is discarded (R381). -/
def sendRefusal (s : State) (r : Msg) : State :=
  if r.dst.toNat = devId s then toSelf s r
  else
    let i := { injected s r with src := r.src }
    match nextHop s none i with
    | .ok (p, k) => portMsg s p k none none i
    | .error p => countUnreach s p

/-- A message goes out on its next port; where it is unreachable it is discarded and counted, and its issuer has a refusal
(R381). -/
def sendOn (s : State) (came : Option (Nat × Nat)) (hold : Option Nat) (m : Msg) : State :=
  match nextHop s came m with
  | .ok (p, k) => portMsg s p k came hold m
  | .error p =>
    let s1 := countUnreach s p
    if m.op = .refusal then s1 else sendRefusal s1 (unreachable m)

/-- A response leaves the target. -/
def sendResponse (s : State) (r : Msg) : State :=
  if r.dst.toNat = devId s then toSelf s r else sendOn s none none (injected s r)

/-- A port is dead: what it held is lost, and the messages that wait for it take another way or are unreachable (R371, R372, R381). -/
def strand (s : State) (n : Nat) : State :=
  let ws := (getPort s n).waiting
  let s1 : State := { s with ports := tabDel s.ports n
                             held := s.held.filter (fun h => h.port != n)
                             inbox := s.inbox.map (fun e => if e.came.any (fun x => x.1 == n) then { e with owes := 0 } else e) }
  releaseHeld (ws.foldl (fun s w => sendOn s w.came w.hold { w.m with hops := w.m.hops - 1 }) s1)

/-! ## Receiving (R374-R376) -/

/-- The retry buffer after an acknowledgement of a SEQ: what came before it is no longer kept. -/
def ackRetry (l : List (BitVec 12 × Flit)) (ack : BitVec 12) : List (BitVec 12 × Flit) :=
  if l.any (fun e => e.1 == ack) then (l.dropWhile (fun e => e.1 != ack)).drop 1 else l

/-- A flit that was accepted joins its message; a complete message is in the inbox. What no message can hold goes, and its credits
with it (DESIGN CHOICE, log 127). -/
def takeFlit (s : State) (n : Nat) (x : Flit) : State :=
  let vc := x.vc.toNat
  let cls := x.cls.toNat
  let p := getPort s n
  let key := pairKey vc cls
  let old := tabGet ([], 0) p.parts key
  let (bs, k) := if x.som then (x.payload, old.2 + 1) else (old.1 ++ x.payload, old.2 + 1)
  if vc = 3 then s
  else if !x.eom then setPortSt s n { p with parts := tabSet p.parts key (bs, k) }
  else
    let s1 := setPortSt s n { p with parts := tabDel p.parts key }
    match msgOf bs with
    | some m => if opVc m.op = vc then { s1 with inbox := s1.inbox ++ [{ m := m, came := some (n, cls), owes := k }] }
                else giveCredit s1 n vc cls k
    | none => giveCredit s1 n vc cls k

/-- A resend is asked for, from the SEQ that is expected. -/
def askResend (s : State) (n : Nat) (p : PortSt) : State := toLink (setPortSt s n { p with resend := true }) (.resend n p.expect)

/-- A flit is received (R374): accepted in order, or discarded. A bad one asks for a resend from the SEQ that is expected, and so does one
after a gap, unless that resend is on its way. One of the 2,047 SEQ before the expected one is a repetition (DESIGN CHOICE, log 136). -/
def hearFlit (s : State) (n : Nat) (bs : List Byte) (corrupt : Bool) : State :=
  let p := getPort s n
  let (seq, ack, x) := flitParts bs
  if corrupt || !flitGood bs then askResend s n p
  else
    let q := { p with retry := ackRetry p.retry ack }
    if seq = p.expect then takeFlit (setPortSt s n { q with expect := p.expect + 1, resend := false }) n x
    else if (p.expect - seq).toNat < 2048 then setPortSt s n q
    else if p.resend then setPortSt s n q
    else askResend s n q

/-- The flits of the retry buffer are sent again, all of them. -/
def sendAgain (s : State) (n : Nat) : State := (getPort s n).retry.foldl (fun s e => emitFlit s n e) s

/-- The peer asks for a resend from a SEQ onwards (R374): each flit sent again is counted, not those sent again after a retraining
(DEDUCED, log 56). -/
def hearResend (s : State) (n : Nat) (seq : BitVec 12) : State :=
  let p := getPort s n
  if p.retry.any (fun e => e.1 == seq) then
    let rest := p.retry.dropWhile (fun e => e.1 != seq)
    bump (sendAgain (setPortSt s n { p with retry := rest }) n) (.retry n) rest.length
  else s

/-- Credits of a pair come back (R376). -/
def hearCredit (s : State) (n vc cls k : Nat) : State :=
  let p := getPort s n
  let key := pairKey vc cls
  drainPort (setPortSt s n { p with used := tabSet p.used key (tabGet 0 p.used key - k) }) n

/-- A message leaves the buffer that it came into, and its credits go back (R376): the state after, and the port and class it came over. -/
def takeMsg (s : State) (m : Msg) : Ex (State × Option (Nat × Nat)) := do
  let e ← the (s.inbox.find? (fun e => e.m == m)) "no such message has come"
  let s1 : State := { s with inbox := s.inbox.erase e }
  .ok (match e.came with
    | some (n, cls) => giveCredit s1 n (opVc m.op) cls e.owes
    | none => s1, e.came)

/-- A message begins to go on: its flits hold the buffer that it came into until they are taken. The state after, the port and class it came
over, and the number of what is held. -/
def holdMsg (s : State) (m : Msg) : Ex (State × Option (Nat × Nat) × Option Nat) := do
  let e ← the (s.inbox.find? (fun e => e.m == m)) "no such message has come"
  let s1 : State := { s with inbox := s.inbox.erase e }
  let id := (s.held.map (·.id)).foldl max 0 + 1
  .ok (match e.came with
    | some (n, cls) => ({ s1 with held := s1.held ++ [{ id := id, port := n, vc := opVc m.op, cls := cls, flits := e.owes }] }, e.came, some id)
    | none => (s1, e.came, none))

/-- Every branch of a held message is known: what all have taken is released. -/
def closeHeld (s : State) (hold : Option Nat) : State :=
  releaseHeld { s with held := s.held.map (fun h => if hold = some h.id then { h with opened := false } else h) }

end Sys2Proof.Machine
end

