-- ==== Sys2Proof/Machine/Num.lean ====
section
/-! DEFINITION. The number formats of 02: exact values, the one rounding of R17, encodings, saturation, conversions. A
value is a rational number or poison; every finite code of every format is a rational. -/

namespace Sys2Proof.Machine

/-- A value: poison (R18), or an exact number. -/
inductive Val where
  | poison
  | num (q : ℚ)
  deriving DecidableEq, Repr

/-- The format codes (R26). -/
inductive Fmt where
  | kf4 | ki4 | kf8 | ki8 | kf16 | kf32 | ks8 | u8 | u10 | u16 | i32 | i64
  deriving DecidableEq, Repr

/-- The format a code names; 0xC-0xF are reserved (R26). -/
def fmtOf (c : Nat) : Option Fmt :=
  match c with
  | 0 => some .kf4 | 1 => some .ki4 | 2 => some .kf8 | 3 => some .ki8 | 4 => some .kf16 | 5 => some .kf32
  | 6 => some .ks8 | 7 => some .u8 | 8 => some .u10 | 9 => some .u16 | 10 => some .i32 | 11 => some .i64
  | _ => none

/-- Element bits in storage (R26). -/
def Fmt.bits : Fmt → Nat
  | .kf4 | .ki4 => 4
  | .kf8 | .ki8 | .ks8 | .u8 => 8
  | .kf16 | .u10 | .u16 => 16
  | .kf32 | .i32 => 32
  | .i64 => 64

/-- 2 to an integer power. -/
def pow2 (e : Int) : ℚ := if 0 ≤ e then (2 : ℚ) ^ e.toNat else 1 / (2 : ℚ) ^ (-e).toNat

/-- Round a rational to the nearest integer, a tie to the even one (R17). -/
def rne (q : ℚ) : Int :=
  let f := q.floor
  let d := q - f
  if d < 1 / 2 then f else if 1 / 2 < d then f + 1 else if f % 2 = 0 then f else f + 1

/-- ⌊log2 q⌋ for q > 0. -/
def ilog2 (q : ℚ) : Int :=
  let e : Int := (Nat.log2 q.num.natAbs : Int) - (Nat.log2 q.den : Int)
  if pow2 e ≤ q then (if pow2 (e + 1) ≤ q then e + 1 else e) else e - 1

/-- |q|. -/
def qabs (q : ℚ) : ℚ := if q < 0 then -q else q

/-- A binary floating format: fraction bits, exponent bias, exponent field size, and whether exponent 0 keeps
subnormals (R21). -/
structure FloatFmt where
  frac : Nat
  bias : Int
  expBits : Nat
  subn : Bool

def FloatFmt.kf4 : FloatFmt := ⟨1, 2, 2, true⟩
def FloatFmt.kf8 : FloatFmt := ⟨3, 8, 4, true⟩
def FloatFmt.kf16 : FloatFmt := ⟨9, 31, 6, false⟩
def FloatFmt.kf32 : FloatFmt := ⟨22, 255, 9, false⟩

/-- Total bits of the format: sign, exponent, fraction. -/
def FloatFmt.width (F : FloatFmt) : Nat := 1 + F.expBits + F.frac

/-- The code that is never a number: sign 1 and every other bit 0 (R18). -/
def FloatFmt.poisonCode (F : FloatFmt) : Nat := 2 ^ (F.expBits + F.frac)

/-- The value of a code by the formulas of R27, R33, R34, R35, with R21's zeros; poison for R18's code (in KF4 that code
is the slub escape, and its readers decide, R29). -/
def FloatFmt.decode (F : FloatFmt) (c : Nat) : Val :=
  if c % 2 ^ F.width = F.poisonCode then .poison
  else
    let m : Nat := c % 2 ^ F.frac
    let e : Nat := (c / 2 ^ F.frac) % 2 ^ F.expBits
    let neg := (c / F.poisonCode) % 2 = 1
    let mag : ℚ :=
      if e = 0 then (if F.subn then (m : ℚ) * pow2 (1 - F.bias - F.frac) else 0)
      else ((2 ^ F.frac + m : Nat) : ℚ) * pow2 ((e : Int) - F.bias - F.frac)
    .num (if neg then -mag else mag)

/-- The largest magnitude. -/
def FloatFmt.max (F : FloatFmt) : ℚ :=
  ((2 ^ (F.frac + 1) - 1 : Nat) : ℚ) * pow2 ((2 ^ F.expBits - 1 : Nat) - F.bias - F.frac)

/-- The exponent of the smallest normal. -/
def FloatFmt.minExp (F : FloatFmt) : Int := 1 - F.bias

/-- Round a non-negative number to the format's grid with no upper bound on the exponent (R20), subnormals kept or
flushed (R21). -/
def FloatFmt.roundMag (F : FloatFmt) (a : ℚ) : ℚ :=
  if a = 0 then 0
  else
    let e := ilog2 a
    let e' := if F.subn then (if e < F.minExp then F.minExp else e) else e
    let u := pow2 (e' - F.frac)
    let r := (rne (a / u) : ℚ) * u
    if !F.subn && decide (r < pow2 F.minExp) then 0 else r

/-- Round an exact number to the format: the value written and whether it is counted as a saturation (R17, R20, R21). -/
def FloatFmt.round (F : FloatFmt) (q : ℚ) : ℚ × Bool :=
  let r := F.roundMag (qabs q)
  if F.max < r then (if q < 0 then -F.max else F.max, true)
  else (if q < 0 then -r else r, false)

/-- The code of a value that lies on the grid; zero is all zeros (R19). -/
def FloatFmt.encode (F : FloatFmt) (q : ℚ) : Nat :=
  if q = 0 then 0
  else
    let a := qabs q
    let e := ilog2 a
    let s := if q < 0 then F.poisonCode else 0
    if e < F.minExp then s + (a / pow2 (F.minExp - F.frac)).floor.toNat
    else s + (e + F.bias).toNat * 2 ^ F.frac + ((a / pow2 (e - F.frac)).floor.toNat - 2 ^ F.frac)

/-- Round a value to KF32 (R101): the value and whether it is counted as a saturation. -/
def rn32c (v : Val) : Val × Bool :=
  match v with
  | .poison => (.poison, false)
  | .num q => let r := FloatFmt.kf32.round q; (.num r.1, r.2)

/-- Round an exact number to KF32. -/
def rn32 (q : ℚ) : ℚ := (FloatFmt.kf32.round q).1

/-- Round an exact number to KF16. -/
def rn16 (q : ℚ) : ℚ := (FloatFmt.kf16.round q).1

/-- The value of a KF32 code. -/
def kf32Val (c : Nat) : Val := FloatFmt.kf32.decode (c % 2 ^ 32)

/-- The value of a KF16 code. -/
def kf16Val (c : Nat) : Val := FloatFmt.kf16.decode (c % 2 ^ 16)

/-- The KF32 code of a value on its grid. -/
def kf32Code : Val → Nat
  | .poison => FloatFmt.kf32.poisonCode
  | .num q => FloatFmt.kf32.encode q

/-- The KF16 code of a value on its grid. -/
def kf16Code : Val → Nat
  | .poison => FloatFmt.kf16.poisonCode
  | .num q => FloatFmt.kf16.encode q

/-- The KS8 scale of a code: 0 for a zero block (R36). -/
def ks8Val (c : Nat) : ℚ :=
  let e := (c / 4) % 64
  if e = 0 then 0 else pow2 ((e : Int) - 42) * ((4 + c % 4 : Nat) : ℚ)

/-- The smallest KS8 code of a non-zero scale that is at least `x`; 0xFF when none is (R48). -/
def ks8AtLeast (x : ℚ) : Nat :=
  (((List.range 252).map (· + 4)).find? (fun c => decide (x ≤ ks8Val c))).getD 255

/-- Two's complement value of the low `n` bits. -/
def twos (n c : Nat) : Int := signedOf n c

/-- The integer range of an integer or pixel format (R37, R30). -/
def Fmt.range : Fmt → Int × Int
  | .ki4 => (-8, 7) | .ki8 => (-128, 127) | .i32 => (-2147483648, 2147483647)
  | .i64 => (-9223372036854775808, 9223372036854775807)
  | .u8 => (0, 255) | .u10 => (0, 1023) | .u16 => (0, 65535)
  | _ => (0, 0)

/-- The floating format of a format code, if it is one. -/
def Fmt.float? : Fmt → Option FloatFmt
  | .kf4 => some .kf4 | .kf8 => some .kf8 | .kf16 => some .kf16 | .kf32 => some .kf32
  | _ => none

/-- The value of an element's code (02). A KF4 escape reads as poison here (R29, every other use). U10 ignores bits
15:10 (R25). -/
def Fmt.value (f : Fmt) (c : Nat) : Val :=
  match f with
  | .kf4 => FloatFmt.kf4.decode (c % 16)
  | .kf8 => FloatFmt.kf8.decode (c % 256)
  | .kf16 => kf16Val c
  | .kf32 => kf32Val c
  | .ks8 => .num (ks8Val (c % 256))
  | .ki4 => .num (twos 4 c) | .ki8 => .num (twos 8 c) | .i32 => .num (twos 32 c) | .i64 => .num (twos 64 c)
  | .u8 => .num ((c % 256 : Nat) : ℚ) | .u10 => .num ((c % 1024 : Nat) : ℚ) | .u16 => .num ((c % 65536 : Nat) : ℚ)

def Cnt.add (a b : Cnt) : Cnt := ⟨a.new + b.new, a.cons + b.cons, a.sat + b.sat, a.st + b.st⟩

/-- Write a value into a format (R38, R39): the code and what is counted. KF4 is written by `qnt` alone and is rounded on
its own grid there; here it is rounded likewise (R28). -/
def Fmt.write (f : Fmt) (v : Val) : Nat × Cnt :=
  match v with
  | .poison =>
    match f with
    | .kf4 => (8, {})
    | .kf8 => (0x80, {})
    | .kf16 => (FloatFmt.kf16.poisonCode, {})
    | .kf32 => (FloatFmt.kf32.poisonCode, {})
    | _ => (0, { cons := 1 })
  | .num q =>
    match f.float? with
    | some F => let r := F.round q; (F.encode r.1, { sat := if r.2 then 1 else 0 })
    | none =>
      let i := rne q
      let lo := f.range.1
      let hi := f.range.2
      if i < lo then ((lo % (2 ^ f.bits : Nat)).toNat, { sat := 1 })
      else if hi < i then ((hi % (2 ^ f.bits : Nat)).toNat, { sat := 1 })
      else ((i % (2 ^ f.bits : Nat)).toNat, {})

/-- Whether a format is floating with poison or KS8 (R38's "any float"). -/
def Fmt.isFloat : Fmt → Bool
  | .kf4 | .kf8 | .kf16 | .kf32 => true
  | _ => false

/-- The conversion pairs that R38 lists, a format to itself included. -/
def convertible (src dst : Fmt) : Bool :=
  src = dst ||
  match dst with
  | .kf4 | .ks8 => false
  | .ki4 => src = .ki8 || src = .i32 || src = .kf16 || src = .kf32
  | .kf8 => src = .kf16 || src = .kf32 || src = .ki8 || src = .i32 || src = .u8
  | .kf16 => src != .ks8
  | .kf32 => true
  | .ki8 | .i32 | .i64 => src != .ks8
  | .u8 | .u10 | .u16 => src != .ks8

/-- A format copied to itself: bits kept, but for the non-written zeros of KF16 and KF32 and the high bits of U10
(R38). -/
def Fmt.copy (f : Fmt) (c : Nat) : Nat :=
  match f with
  | .kf16 => if c % 65536 ≠ 0x8000 ∧ (c / 512) % 64 = 0 then 0 else c % 65536
  | .kf32 => if c % 2 ^ 32 ≠ 0x80000000 ∧ (c / 2 ^ 22) % 512 = 0 then 0 else c % 2 ^ 32
  | .u10 => c % 1024
  | _ => c % 2 ^ f.bits

/-- Convert one element's code (R38): the code and what is counted. -/
def convertCode (src dst : Fmt) (c : Nat) : Nat × Cnt :=
  if src = dst then (src.copy c, {})
  else
    let w := dst.write (src.value c)
    if src = .kf4 ∧ c % 16 = 8 then (w.1, w.2.add { new := 1 }) else w

/-! ## Arithmetic with poison (R22) -/

def Val.map1 (g : ℚ → ℚ) : Val → Val
  | .poison => .poison
  | .num a => .num (g a)

def Val.map2 (g : ℚ → ℚ → ℚ) : Val → Val → Val
  | .num a, .num b => .num (g a b)
  | _, _ => .poison

def Val.isPoison : Val → Bool
  | .poison => true
  | _ => false

/-- The number, 0 for poison. -/
def Val.get : Val → ℚ
  | .poison => 0
  | .num q => q

/-- A value rounded to KF32, uncounted. -/
def Val.rn (v : Val) : Val := (rn32c v).1

/-- Larger and smaller of two numbers. -/
def qmax (a b : ℚ) : ℚ := if a < b then b else a
def qmin (a b : ℚ) : ℚ := if b < a then b else a

/-! ## LA192 accumulators (R83) -/

/-- The value of an LA192 code: q · 2^-102, and the minimum is poison. -/
def la192 (c : BitVec 192) : Val :=
  if c = BitVec.ofNat 192 (2 ^ 191) then .poison else .num ((c.toInt : ℚ) * pow2 (-102))

/-- The LA192 code of a value that is a multiple of 2^-102 in range. -/
def la192Code : Val → BitVec 192
  | .poison => BitVec.ofNat 192 (2 ^ 191)
  | .num q => BitVec.ofInt 192 (q * pow2 102).floor

/-- Round to a significand of 34 bits with no exponent limit (R86). -/
def round34 (q : ℚ) : ℚ :=
  if q = 0 then 0
  else
    let u := pow2 (ilog2 (qabs q) - 33)
    (rne (q / u) : ℚ) * u

end Sys2Proof.Machine
end

