-- ==== Sys2Proof/Machine/Reducer.lean ====
section
/-! DEFINITION. The memory-side reducers (R188-R191): element operations, requests, ordered windows. -/

namespace Sys2Proof.Machine

/-- Element format of a reducer OP (R188, R299): ADD.KF32, ADD.KF16, ADD.I32, ADD.I64, then the maxima. -/
def redFmt (op : Nat) : Fmt := match op % 4 with
  | 0 => .kf32
  | 1 => .kf16
  | 2 => .i32
  | _ => .i64

/-- Element bytes of a reducer OP. -/
def redBytes (op : Nat) : Nat := (redFmt op).bits / 8

/-- Whether an OP is a KF add, the operations that windows order. -/
def redKfAdd (op : Nat) : Bool := decide (op < 2)

/-- One element: memory code `m`, incoming code `x`; the code written, and whether a sum saturated (R188). -/
def redElem (op m x : Nat) : Nat × Bool :=
  let f := redFmt op
  if f.isFloat then
    if op < 4 then
      let w := f.write ((f.value m).map2 (· + ·) (f.value x))
      (w.1, decide (0 < w.2.sat))
    else
      match f.value m, f.value x with
      | .num a, .num b => (if a < b then f.copy x else f.copy m, false)
      | _, _ => ((f.write .poison).1, false)
  else
    let n := f.bits
    if op < 4 then ((m + x) % 2 ^ n, false) else (if twos n m < twos n x then x else m, false)

/-- A request is applied to memory at `a`, element by element; the count of saturated sums (R188, R189). -/
def redApply (s : State) (op a : Nat) (data : List Byte) : State × Nat :=
  let e := redBytes op
  let rs := (List.range (data.length / e)).map (fun i =>
    redElem op (rdN s (a + e * i) e) (ofBytes ((data.drop (e * i)).take e)))
  (wr s a (rs.flatMap (fun r => leBytes e r.1)), (rs.filter (fun r => r.2)).length)

/-- An armed ordered window of a partition (R190): first granule's address, granules, rank count, hold area. -/
structure RWin where
  base : Nat
  size : Nat
  ranks : Nat
  hold : Nat
  deriving DecidableEq, Repr

/-- Window `n` of partition `p`, if it is armed. -/
def rwinOf (s : State) (p n : Nat) : Option RWin :=
  let b := getR s (.rwinBase p n)
  let h := getR s (.rwinHold p n)
  if bit b 63 then some ⟨fld b 47 8 * 256, rfld s (.rwinSize p n) 17 0 + 1, fld h 63 58 + 1, fld h 47 8 * 256⟩ else none

/-- The window of a partition that holds an address. -/
def winAt (s : State) (p a : Nat) : Option RWin :=
  ((List.range 16).filterMap (rwinOf s p)).find? (fun w => decide (w.base ≤ a) && decide (a < w.base + 256 * w.size))

/-- Bytes of a window's hold area (R190). -/
def RWin.holdBytes (w : RWin) : Nat := w.size + (w.ranks - 1) * w.size * 256

/-- Address of the slot of a rank's early contribution to granule `g` (R190, DEDUCED, log 50). -/
def RWin.slot (w : RWin) (rank g : Nat) : Nat := w.hold + w.size + ((rank - 1) * w.size + g) * 256

/-- Whether a KF add may be made in a window: it carries a rank below N (R191), and the hold area can be reached (R13). -/
def RWin.takes (w : RWin) (s : State) (rank : Option Nat) : Bool :=
  rank.any (fun r => decide (r < w.ranks)) && (rangePoints w.hold w.holdBytes).all (fun a => placeOf s a != .absent)

/-- What a KF add in granule `g` of a window may read and write of its hold area: address and bytes. -/
def RWin.spans (w : RWin) (g : Nat) : List (Nat × Nat) :=
  (w.hold + g, 1) :: (List.range (w.ranks - 1)).map (fun r => (w.slot (r + 1) g, 256))

/-- Whether a request may be made where it is (R188, R191): HBM or a unified page, and for a KF add in a window as that takes it. -/
def redAllowed (s : State) (p op a : Nat) (rank : Option Nat) : Bool :=
  (match placeOf s a with
   | .hbm _ | .unified _ => true
   | _ => false) &&
  (match winAt s p a with
   | some w => !redKfAdd op || w.takes s rank
   | none => true)

/-- Whether the requests of a range wait for a stack of a window's hold area (R187). -/
def holdHot (s : State) (p op a n : Nat) : Bool :=
  redKfAdd op && !(hotStacks s).isEmpty && n != 0 && (List.range ((a + n - 1) / 256 - a / 256 + 1)).any (fun i =>
    let g := a / 256 + i
    match winAt s p (256 * g) with
    | some w => (w.spans (g - w.base / 256)).any (fun x => waitsHot s x.1 x.2)
    | none => false)

/-- The next rank of a granule, applied: held contributions that are then due follow (R191), and what saturates of one counts in the
context that issued it (R188); `fuel` bounds them. -/
def redDue (s : State) (w : RWin) (g : Nat) : Nat → State
  | 0 => s
  | fuel + 1 =>
    let next := rdN s (w.hold + g) 1
    let gran := w.base / 256 + g
    if w.ranks ≤ next then
      { wr s (w.hold + g) [0] with ranks := tabDel s.ranks gran, heldReds := s.heldReds.filter (fun h => h.gran != gran) }
    else
      match s.heldReds.find? (fun h => h.gran == gran && h.rank == next) with
      | none => s
      | some h =>
        let data := rd s (w.slot h.rank g + h.off) h.len
        let (s1, k) := redApply s (if h.kf16 then 1 else 0) (w.base + 256 * g + h.off) data
        redDue (wr (bumpC s1 h.ctx kSat k) (w.hold + g) [BitVec.ofNat 8 (next + 1)]) w g fuel

/-- One request of a context within a granule: the state with its saturated sums and its duplicate counted (R188, R191). -/
def redOne (s : State) (p c op a : Nat) (data : List Byte) (rank : Option Nat) : State :=
  match (if redKfAdd op then winAt s p a else none), rank with
  | some w, some r =>
    let g := (a - w.base) / 256
    let gran := a / 256
    let got := tabGet [] s.ranks gran
    if got.contains r then bumpC s c kRedDup 1
    else
      let s1 : State := { s with ranks := tabSet s.ranks gran (got ++ [r]) }
      if rdN s (w.hold + g) 1 = r then
        let (s2, k) := redApply s1 op a data
        redDue (wr (bumpC s2 c kSat k) (w.hold + g) [BitVec.ofNat 8 (r + 1)]) w g 65
      else
        let s2 := wr s1 (w.slot r g + a % 256) data
        { s2 with heldReds := s2.heldReds ++
                    [{ gran := gran, rank := r, off := a % 256, len := data.length, kf16 := op == 1, ctx := c }] }
  | _, _ =>
    let (s1, k) := redApply s op a data
    bumpC s1 c kSat k

/-- The requests of a range: one per 256 B granule (R188, R299). -/
def redPieces (a : Nat) (data : List Byte) : List (Nat × List Byte) :=
  if data.isEmpty then [] else
  (List.range ((a + data.length - 1) / 256 - a / 256 + 1)).map (fun i =>
    let lo := max a ((a / 256 + i) * 256)
    let hi := min (a + data.length) ((a / 256 + i + 1) * 256)
    (lo, (data.drop (lo - a)).take (hi - lo)))

/-- All requests of a range. -/
def redAll (s : State) (p c op a : Nat) (data : List Byte) (rank : Option Nat) : State :=
  (redPieces a data).foldl (fun s x => redOne s p c op x.1 x.2 rank) s

end Sys2Proof.Machine
end

