-- ==== Sys2Proof/Machine/Sched.lean ====
section
/-! DEFINITION. Contexts: launch placement, stops, suspension, teardown, program faults; partition reset and device
failure (14, 20). -/

namespace Sys2Proof.Machine

/-! ## Flags and alerts -/

/-- A SMBus STATUS bit rises (R486): SMB_ALERT_N falls where ALERTMASK selects the bit. -/
def statusRise (s : State) (b : Nat) : State :=
  let p := s.power
  if bit p.status b then s
  else { s with power := { p with status := setFld p.status b b 1, alertN := p.alertN && !bit p.alertMask b } }

/-- A SMBus STATUS bit falls. -/
def statusFall (s : State) (b : Nat) : State :=
  { s with power := { s.power with status := setFld s.power.status b b 0 } }

/-- Flags are set in `CTX_DETSTAT` of a context (R355). -/
def setDet (s : State) (c : Nat) (bits : Word) : State := setR s (.detstat c) (getR s (.detstat c) ||| bits)

/-- Flags are set in `CTX_TSTAT` of a context (R237). -/
def setTstat (s : State) (c : Nat) (bits : Word) : State := setR s (.tstat c) (getR s (.tstat c) ||| bits)

/-- Running contexts, ascending. -/
def runningCtxs (s : State) : List Nat := (List.range 64).filter (fun c => (getC s c).st == .running)

/-- Flags are set in `CTX_DETSTAT` of every running context that `sel` chooses. -/
def setDetRunning (s : State) (sel : Nat → Bool) (bits : Word) : State :=
  ((runningCtxs s).filter sel).foldl (fun s c => setDet s c bits) s

/-- Device failure (R458): issue stops everywhere, AER reports, an SMBus alert rises. -/
def deviceFail (s : State) : State := statusRise (toHost { s with failed := true } (.aer .internal)) 2

/-! ## Splice pool (R308, R314, R315) -/

/-- A run of free space of a partition's pool is added, joined with its neighbours, in ascending address. -/
def poolAdd (p a n : Nat) : List (Nat × Nat × Nat) → List (Nat × Nat × Nat)
  | [] => if n = 0 then [] else [(p, a, n)]
  | (q, b, m) :: r =>
    if q ≠ p then (q, b, m) :: poolAdd p a n r
    else if a + n < b then (p, a, n) :: (q, b, m) :: r
    else if a + n = b then poolAdd p a (n + m) r
    else if b + m = a then poolAdd p b (m + n) r
    else (q, b, m) :: poolAdd p a n r

/-- Tiles that a wait counts: arrived, drained, or filled (R197, R280). -/
def arrived (x : Stream) : Nat := if x.kind == .store then x.drained else x.filled

/-- Whether an entry that was read is the one of index `h`. -/
def names (k : Option Handle) (h : Nat) : Bool := match k with
  | some x => x.idx == h
  | none => false

/-- Whether an instruction that issued before number `seq` and uses a context's handle is not complete (R275). -/
def usesHandle (s : State) (c h seq : Nat) : Bool :=
  s.ops.any (fun o => o.t.ctx.val == c && decide (o.id < seq) && o.hs.any (fun x => x.idx == h)) ||
  s.streams.any (fun x => x.t.ctx.val == c &&
    ((decide (x.seq < seq) && x.live && ((bit x.h.w1 0 && x.h.idx == h) || names x.scaleH h || names x.slubH h)) ||
    x.segs.any (fun g => decide (g.op < seq) && (g.h.idx == h || names g.scaleH h || names g.slubH h) &&
      decide (arrived x < g.first + g.tiles.length)))) ||
  s.lkops.any (fun x => x.t.ctx.val == c && decide (x.seq < seq) && x.op != .signal && x.hidx == h) ||
  s.jobs.any (fun j => j.t.ctx.val == c && decide (j.seq < seq) && !j.ended && j.hs.any (fun x => x.idx == h))

/-- Whether a write that had begun when a splice was discarded is not complete (R315). -/
def writesShadow (s : State) (r : Retiring) : Bool :=
  s.ops.any (fun o => o.t.ctx == r.ctx && decide (o.id < r.seq) && o.writes.contains r.idx) ||
  s.lkops.any (fun x => x.t.ctx == r.ctx && decide (x.seq < r.seq) && x.op == .getRequest && x.hidx == r.idx) ||
  s.jobs.any (fun j => j.t.ctx == r.ctx && decide (j.seq < r.seq) && !j.ended && j.writes.contains r.idx) ||
  r.tiles.any (fun x => s.streams.any (fun y => y.t == x.1 && y.sid == x.2.1 && decide (y.drained < x.2.2)))

/-- Whether a retiring span stays out of the pool still. -/
def stillUsed (s : State) (r : Retiring) : Bool := if r.flip then usesHandle s r.ctx r.idx r.seq else writesShadow s r

/-- A span joins the free space of a partition's pool, its bytes in retired quarters apart (R13). -/
def poolGive (s : State) (p a n : Nat) : State :=
  (minusRanges (a, n) (lostRegions s)).foldl (fun s x => { s with pool := poolAdd p x.1 x.2 s.pool }) s

/-- A retiring span joins the pool. -/
def poolTakeBack (s : State) (r : Retiring) : State := poolGive s r.part (if r.flip then r.span else r.dest) r.len

/-- A span returns to the pool, once nothing that used it runs any more. -/
def poolFree (s : State) (r : Retiring) : State :=
  if stillUsed s r then { s with retiring := s.retiring ++ [r] } else poolTakeBack s r

/-- Retiring spans whose users have completed join the free space (R314, R315). -/
def poolSettle (s : State) : State :=
  let (stay, go) := s.retiring.partition (stillUsed s)
  go.foldl poolTakeBack { s with retiring := stay }

/-- The store streams of a context with the tiles that instructions have claimed to fill. -/
def begunTiles (s : State) (c h : Nat) : List (Tid × Nat × Nat) :=
  (s.streams.filter (fun x => x.t.ctx.val == c && x.kind == .store && decide (x.drained < x.prod) &&
    (match x.walk with
     | .driven => x.segs.any (fun g => g.h.idx == h || names g.scaleH h)
     | _ => x.h.idx == h || names x.scaleH h))).map (fun x => (x.t, x.sid, x.prod))

/-- A splice is discarded: its shadows return to the pool, its slot is free (R315). -/
def discardSplice (s : State) (x : Splice) : State :=
  let s1 := { s with splices := s.splices.filter (fun y => !(y.part == x.part && y.slot == x.slot)) }
  let c := x.opener.ctx
  x.decls.foldl (fun s d => poolFree s { part := x.part, span := d.span, dest := d.shadow, len := d.len, ctx := c, idx := d.idx,
                                         seq := s.seq, flip := false, tiles := begunTiles s c d.idx }) s1

/-! ## Placement (R333, R334) -/

/-- Whether two contexts' ranges overlap. -/
def rangesMeet (x y : CtxSt) : Bool := overlaps x.first x.count y.first y.count

/-- The running contexts of classes 1-3 whose range meets that of context `c`; fillers apart. -/
def rivals (s : State) (c : Nat) : List Nat :=
  let x := getC s c
  ((List.range 16).map (16 * partOf c + ·)).filter (fun d =>
    let y := getC s d
    d != c && y.st == .running && !y.filler && y.cls != 0 && rangesMeet x y)

/-- The flags that a context's run starts, or goes on, with (R355): LEND, a throttled stroke, a lowered clock, a firmware
stall. -/
def startFlags (s : State) (c : Nat) : Word :=
  (if fwStalls s then 32 else 0) |||
  (if bit (getR s (.memShare (partOf c))) 31 then 16 else 0) |||
  (if s.throttled.any (fun k => pHasQ s (partOf c) (k / 3)) then 8 else 0) |||
  (if s.power.step ≠ 0 then 4 else 0)

/-- Registers at launch (R222): s1-s6 from the record, the rest 0. -/
def launchRegs (args : List Word) : Vector Word 64 :=
  Vector.ofFn (fun i => if i.val = 0 then 0 else (args[i.val - 1]?).getD 0)

/-- A context starts: every thread of its range begins at its entry point (R222, R344). -/
def startOne (s : State) (c : Nat) : State :=
  let x := getC s c
  let th : Thread := { pc := x.entry, s := launchRegs x.args, atEdge := x.cls == 0 }
  let s1 : State := { s with threads := s.threads.filter (fun k => k.1 / 64 ≠ c)
                             rowStates := s.rowStates.filter (fun r => r.t.ctx.val ≠ c) }
  let s2 := (List.range x.count).foldl (fun s i => setT s (tid c (x.first + i)) th) s1
  let y := { x with st := .running, queued := false, preempt := false, saving := false, atPoint := false, restoring := false }
  let s3 := setC s2 c y
  setR s3 (.detstat c) (startFlags s c)

/-- The filler contexts that wait for a primary start with its range. -/
def startFillers (s : State) (c : Nat) : State :=
  ((List.range 16).map (16 * partOf c + ·)).foldl (fun s d =>
    let y := getC s d
    if y.filler && y.queued && y.primary.val == c && y.st == .stopped then
      startOne (setC s d { y with first := (getC s c).first, count := (getC s c).count }) d
    else s) s

/-- A context starts, and with it the filler contexts that wait for it. -/
def startCtx (s : State) (c : Nat) : State := startFillers (startOne s c) c

/-- A waiting context is placed, if it may be (R333): it starts, begins its restore, has lower classes chosen for
suspension, or waits. -/
def place (s : State) (c : Nat) : State :=
  let x := getC s c
  let rs := rivals s c
  if rs.isEmpty then
    (if x.st == .suspended then setC s c { x with st := .running, restoring := true } else startCtx s c)
  else if rs.all (fun d => decide (x.cls.val < (getC s d).cls.val)) then
    rs.foldl (fun s d => setC s d { getC s d with preempt := !(getC s d).saving }) s
  else s

/-- Whether a context waits for its range: a queued launch or a suspended context. -/
def waits (x : CtxSt) : Bool :=
  !x.filler && x.cls != 0 && ((x.queued && x.st == .stopped) || x.st == .suspended)

/-- Order of service of waiting contexts (R334). -/
def serveLe (s : State) (a b : Nat) : Bool :=
  let x := getC s a
  let y := getC s b
  decide (x.cls.val < y.cls.val) || (x.cls == y.cls && decide (x.order ≤ y.order))

/-- A waiting context for which every overlapping running context is being suspended, or will be (R333). -/
def evicts (s : State) (c : Nat) : Bool :=
  let rs := rivals s c
  waits (getC s c) && !rs.isEmpty && rs.all (fun d => decide ((getC s c).cls.val < (getC s d).cls.val))

/-- A waiting context is placed, unless it would take spindles that a context before it in order is having freed. (DEDUCED,
log 107.) -/
def serveOne (s : State) (c : Nat) : State :=
  if waits (getC s c) && !((List.range 16).map (16 * partOf c + ·)).any (fun d =>
      d != c && evicts s d && serveLe s d c && rangesMeet (getC s c) (getC s d))
  then place s c else s

/-- Waiting contexts of a partition are served (R334). -/
def serve (s : State) (p : Nat) : State :=
  let ws := ((List.range 16).map (16 * p + ·)).filter (fun c => waits (getC s c))
  (ws.mergeSort (serveLe s)).foldl serveOne s

/-- A context stops because its last thread has halted: the halt record falls due and its range is free (R259, R334). -/
def stopCtx (s : State) (c : Nat) : State :=
  let x := getC s c
  let s1 := setC s c { x with st := .stopped, preempt := false }
  serve (dueUp s1 { ring := c, kind := 3, launch := x.order }) (partOf c)

/-! ## Teardown and faults (R349, R459) -/

/-- A context is torn down (R349), with the status and the reference of its teardown record. The record
replaces the halt record of that launch (R432). The record of a launch that has not issued never completes (R429; DEDUCED, log 66). -/
def teardown (s : State) (c : Nat) (status : Nat) (ref : Half) : State :=
  let x := getC s c
  let mine (t : Tid) : Bool := t.ctx.val == c
  let s1 : State := { s with
    ops := s.ops.filter (fun o => !mine o.t)
    streams := s.streams.filter (fun z => !mine z.t)
    groups := (s.groups.filter (fun g => g.ctx.val != c)).map (fun g =>
      { g with members := g.members.filter (fun m => !mine m.t) })
    plans := s.plans.filter (fun q => !mine q.t)
    rowStates := s.rowStates.filter (fun r => !mine r.t)
    lkops := s.lkops.map (fun l => if mine l.t then { l with quiet := true } else l)
    outMsgs := s.outMsgs.map (fun m => if m.ctx.val == c then { m with free := true } else m)
    tilesOut := s.tilesOut.filter (fun x => x.ctx.val != c)
    jobs := s.jobs.map (fun j => if mine j.t then { j with torn := true } else j)
    threads := s.threads.filter (fun k => k.1 / 64 ≠ c)
    due := (s.due.filter (fun d => !(d.ring == c && d.kind == 3 && d.launch == x.order))) ++
      [{ ring := c, kind := 4, status := BitVec.ofNat 8 status, flags := 16, ref := ref }] }
  let s2 := poolSettle ((s1.splices.filter (fun z => mine z.opener)).foldl discardSplice s1)
  let busy := s2.jobs.any (fun j => mine j.t && !j.ended)
  let s3 := setC s2 c { st := if busy then .tearing else .none, cls := x.cls }
  serve s3 (partOf c)

/-- The FAULT event of a fault at a thread (R459). -/
def faultEvent (s : State) (c l : Nat) (pc : Half) (f : PFault) : State :=
  eventC s 0x0001 c (leBytes 1 f.code ++ leBytes 1 f.cause ++
    leBytes 1 (l % 64 + (if (getC s c).filler then 64 else 0) + (if f.precise then 128 else 0)) ++
    leBytes 1 f.group ++ leBytes 4 pc.toNat ++ wordBytes f.aux)

/-- A program fault: its event, and the teardown of its context (R348, R459). -/
def progFault (s : State) (t : Tid) (pc : Half) (f : PFault) : State :=
  teardown (faultEvent s t.ctx.val t.lsp.val pc f) t.ctx.val f.code 0

/-- Program counter of a thread. -/
def pcOf (s : State) (t : Tid) : Half := match getT? s t with
  | some th => th.pc
  | none => 0

/-- A program fault at a thread's own program counter. -/
def threadFault (s : State) (t : Tid) (f : PFault) : State := progFault s t (pcOf s t) f

/-- A turn overrun fault (R237, R459): one event for each thread, then the teardown. -/
def overrunFault (s : State) (c : Nat) : State :=
  teardown ((threadsOf s c).foldl (fun s x => faultEvent s c x.1 x.2.pc fOverrun) s) c 0x20 0

/-- Shared semaphores of a partition take their INIT (R243, R350). -/
def reloadSems (s : State) (p : Nat) : State :=
  let load (m : Tab (BitVec 16)) (n : Nat) : Tab (BitVec 16) :=
    if bit (getR s (.prtSem p n)) 31 then tabSet m (256 * p + n) (BitVec.ofNat 16 (rfld s (.prtSem p n) 15 0)) else m
  { s with sems := (List.range 256).foldl load s.sems }

/-- A partition reset begins (R350): every context is torn down with PART_RESET, spindle SRAM and images are cleared,
shared semaphores reload; a save image that is discarded reads as zeros, as cleared SRAM does (DESIGN CHOICE, log 21). Cause 0: uncorrectable error; 1: quarter retired. -/
def beginReset (s : State) (p cause : Nat) : State :=
  let s1 := (partCtxs s p).foldl (fun s c =>
    let (l, pc) := match (threadsOf s c).head? with
      | some (l, th) => (l, th.pc)
      | none => (0, 0)
    teardown (faultEvent s c l pc fPartReset) c 0x23 0) s
  let inP (i : Nat) : Bool := pHasQ s p (i / 16)
  let s2 : State := { s1 with
    bobbin := s1.bobbin.filter (fun k => !inP k.1)
    scratch := s1.scratch.filter (fun k => !inP k.1)
    sramUe := s1.sramUe.filter (fun k => !inP k.1)
    resetting := s1.resetting ++ [(p, cause)] }
  let (a, n) := saveSpan s p
  reloadSems (if n = 0 then s2 else clearMem s2 a n) p

/-! ## Issue -/

/-- Whether the device works: powered, clocks running, not in failure, its firmware started. -/
def powered (s : State) : Bool :=
  s.power.pwrok && s.power.thermtripN && !s.power.bootWait

/-- Whether flyers may issue: not in failure, recovery, a firmware stall or an idle tick of R483. -/
def issuing (s : State) : Bool :=
  powered s && !s.failed && rfld s .secStatus 3 0 != 2 && !s.power.issueOff && s.power.clkCore &&
  !fwStalls s

/-- Whether a thread may issue its next instruction (R222, R230, R234, R333, R433). -/
def canIssue (s : State) (t : Tid) (th : Thread) : Bool :=
  let x := getC s t.ctx.val
  issuing s && x.st == .running && !x.saving && !x.restoring && !th.halted && th.block == .none && !th.atEdge &&
  onSpindle s t.ctx.val t.lsp.val && !(getRing s t.ctx.val).stop &&
  (!x.filler || !(getC s x.primary.val).saving)

/-- The launch command of a context completes when the context first issues (R429). -/
def firstIssue (s : State) (c : Nat) : State :=
  let x := getC s c
  match x.launchCmd with
  | some (n, id) => complete (setC s c { x with launchCmd := none }) c n id 0
  | none => s

/-- Whether a scalar register is still being written by a load from the host window (R251, R262); s0 never is (R222).
(DEDUCED, log 98.) -/
def regPending (th : Thread) (r : Nat) : Bool := decide (r ≠ 0) && th.hostLoads.any (fun h => h.reg == r)

/-- One instruction of a thread: it issues at the thread's program counter, with a stop turned into a refusal or a
program fault. -/
def runThread (s : State) (t : Tid) (k : State → Thread → Ex State) : Res :=
  match getT? s t with
  | none => .refused (.notEnabled "the thread does not exist")
  | some th =>
    if canIssue s t th then
      let s1 := firstIssue s t.ctx.val
      if th.pastEnd || decide ((getC s t.ctx.val).tableWords ≤ th.pc.toNat) then .next (progFault s1 t th.pc (fAddr 0))
      else
        match k s1 th with
        | .ok s' => .next s'
        | .error (.no why) => .refused (.notEnabled why)
        | .error (.fault s' f) => .next (progFault s' t th.pc f)
    else .refused (.notEnabled "the thread cannot issue")

/-- An event that is not an instruction: it occurs, or cannot occur. A fault in it is that of thread `t` at `pc`. -/
def runEvent (r : Ex State) (t : Tid) (pc : Half) : Res :=
  match r with
  | .ok s' => .next s'
  | .error (.no why) => .refused (.notEnabled why)
  | .error (.fault s' f) => .next (progFault s' t pc f)

/-- An event that cannot fault a thread. -/
def runPlain (r : Ex State) : Res := runEvent r (tid 0 0) 0

/-! ## Sequence (R251, R253) -/

/-- The active loops whose end word is `w` at the thread's call depth, most recently started first (R254). -/
def endingLoops (th : Thread) (w : Half) : List (Fin 4) :=
  ((List.finRange 4).filter (fun i =>
    let r := th.loops.get i
    r.active && r.stop == w && r.depth == th.stack.length)).mergeSort (fun i j =>
      decide ((th.loops.get j).order ≤ (th.loops.get i).order))

/-- End tests of loops that share an end word, innermost first (R253, R254). -/
def endTests (th : Thread) : List (Fin 4) → Thread
  | [] => th
  | i :: r =>
    let n := th.lc.get i
    let l := th.loops.get i
    if 1 < n.toNat then { th with lc := th.lc.set i (n - 1), pc := l.start }
    else endTests { th with lc := th.lc.set i 0, loops := th.loops.set i { l with active := false } } r

/-- The thread after an instruction that does not transfer control: the next word, or what the end tests say. No loop starts
at word 0, so a program counter that has wrapped to 0 has left the table (R223). -/
def advance (th : Thread) : Thread :=
  let w := th.pc
  let r := endTests { th with pc := w + 1 } (endingLoops th w)
  { r with pastEnd := r.pc == 0 }

/-- The thread's record after an instruction that does not transfer control. -/
def stepOn (s : State) (t : Tid) (th : Thread) : State := setT { s with seq := s.seq + 1 } t (advance th)

/-- A scalar register's value; s0 reads 0 (R222). -/
def reg (th : Thread) (i : Nat) : Word := if i = 0 then 0 else (th.s[i]?).getD 0

/-- The thread with a scalar register written; a write to s0 is discarded (R222). -/
def setReg (th : Thread) (i : Nat) (v : Word) : Thread :=
  if i = 0 then th else { th with s := th.s.setIfInBounds i v }

end Sys2Proof.Machine
end

