-- ==== Sys2Proof/Machine/Operands.lean ====
section
/-! DEFINITION. Operand forms: slots of a Necel word (R248, R249), registers, immediates, handle-table entries (R225,
R226). -/

namespace Sys2Proof.Machine

/-- The kinds of operand slot (R248). -/
inductive SlotK where
  | handle | scalar | counter | localSem | sharedSem | imm | unused
  /-- a register group of n (R273) -/
  | group (n : Nat)
  | stream
  deriving DecidableEq, Repr

/-- Whether a slot obeys its kind (R248). -/
def slotOk (k : SlotK) (v : BitVec 16) : Bool :=
  match k with
  | .handle | .imm => true
  | .scalar => decide (v.toNat < 64)
  | .counter => decide (v.toNat < 4)
  | .localSem => decide (v.toNat < 16)
  | .sharedSem => decide (v.toNat < 256)
  | .unused => v == 0
  | .group n => decide (1 ≤ v.toNat) && decide (v.toNat + n ≤ 64)
  | .stream => decide (v.toNat < 32)

/-- The six slots of a word. -/
def slots (f : Fields) : List (BitVec 16) := [f.sl0, f.sl1, f.sl2, f.sl3, f.sl4, f.sl5]

/-- The decode checks of R249 on a word's fields: only the variant and extension bits given may be set, and the slots
obey the kinds given; slots beyond the list are unused. -/
def formOk (f : Fields) (var ext : Nat) (ks : List SlotK) : Bool :=
  (f.variant &&& ~~~(BitVec.ofNat 8 var)) == 0 && (f.ext &&& ~~~(BitVec.ofNat 16 ext)) == 0 &&
  ((slots f).zip (ks ++ List.replicate 6 .unused)).all (fun x => slotOk x.2 x.1)

/-- A decode check: a DECODE fault where it fails (R249). -/
def dec (s : State) (b : Bool) : Ex Unit := needF s b fDecode

/-- A scalar source register; the instruction waits while a load still writes it (R251). -/
def src (th : Thread) (v : BitVec 16) : Ex Word := do
  can (!regPending th v.toNat) "a scalar source is still being written (R251)"
  .ok (reg th v.toNat)

/-- A register is written, and a load that has not returned no longer writes it. -/
def dst (th : Thread) (v : BitVec 16) (x : Word) : Thread :=
  let t1 := setReg th v.toNat x
  { t1 with hostLoads := t1.hostLoads.map (fun h => if h.reg == v.toNat then { h with reg := 0 } else h) }

/-- An imm16, sign-extended (R248). -/
def imm16 (v : BitVec 16) : Word := v.signExtend 64

/-- An imm32 of two slots as a signed number. -/
def imm32 (lo hi : BitVec 16) : Int := ((hi ++ lo : BitVec 32)).toInt

/-- An imm48 of three slots, sign-extended. -/
def imm48 (a b c : BitVec 16) : Word := (c ++ b ++ a : BitVec 48).signExtend 64

/-- Register `k` of the group that a slot names, read at issue. -/
def srcG (th : Thread) (v : BitVec 16) (k : Nat) : Ex Word := src th (v + BitVec.ofNat 16 k)

/-! ## Handle-table entries -/

/-- Address of entry `i` of a context's handle table (R224). -/
def entryAddr (s : State) (c i : Nat) : Nat := rfld s (.htab c) 47 12 * 4096 + 64 * i

/-- Whether an index is within a context's handle table. -/
def idxOk (s : State) (c i : Nat) : Bool := decide (i ≤ rfld s (.htab c) 63 48)

/-- The entry of index `i` that 64 bytes hold. -/
def mkHandle (i : Nat) (bs : List Byte) : Handle :=
  let w (k : Nat) : Word := BitVec.ofNat 64 (ofBytes ((bs.drop (8 * k)).take 8))
  { idx := i, w0 := w 0, w1 := w 1, w2 := w 2, w3 := w 3, w4 := w 4, w5 := w 5, w6 := w 6, w7 := w 7 }

/-- Fields of an entry (R225). -/
def Handle.base (h : Handle) : Word := h.w0
def Handle.slub (h : Handle) : Nat := fld h.w1 63 48
def Handle.scale (h : Handle) : Nat := fld h.w1 47 32
def Handle.pmv (h : Handle) : Bool := bit h.w1 13
def Handle.slv (h : Handle) : Bool := bit h.w1 12
def Handle.scv (h : Handle) : Bool := bit h.w1 11
def Handle.rank (h : Handle) : Nat := fld h.w1 10 8
def Handle.fmt (h : Handle) : Nat := fld h.w1 7 4
def Handle.valid (h : Handle) : Bool := bit h.w1 0
def Handle.pmapE (h : Handle) : Nat := fld h.w2 63 48 + 1
def Handle.pmap (h : Handle) : Nat := fld h.w2 47 0

/-- Word 3 + d of an entry. -/
def Handle.dimWord (h : Handle) (d : Nat) : Word :=
  match d with
  | 0 => h.w3 | 1 => h.w4 | 2 => h.w5 | 3 => h.w6 | _ => h.w7

/-- Extent and stride of dimension d (R225). -/
def Handle.dim (h : Handle) (d : Nat) : Nat := fld (h.dimWord d) 23 0 + 1
def Handle.stride (h : Handle) (d : Nat) : Nat := fld (h.dimWord d) 63 24

/-- The device and the address of element 0. -/
def Handle.dev (h : Handle) : Nat := fld h.w0 63 48
def Handle.loc (h : Handle) : Nat := h.far + fld h.w0 47 0

/-- Whether an entry passes the checks of R226 that concern the entry alone. -/
def Handle.ok (h : Handle) : Bool :=
  h.valid && decide (h.fmt < 12) && decide (1 ≤ h.rank) && decide (h.rank ≤ 5) && fld h.w1 31 14 == 0 && fld h.w1 3 1 == 0 &&
  (List.range 5).all (fun d => decide (d < h.rank) || h.dimWord d == 0) && (h.pmv || h.w2 == 0)

/-- Bits of an element of the handle's format (R26). -/
def Handle.ebits (h : Handle) : Nat :=
  match fmtOf h.fmt with
  | some f => f.bits
  | none => 8

/-- The index of the highest element counted in strides (R225, R306). -/
def Handle.top (h : Handle) : Nat := ((List.range h.rank).map (fun d => (h.dim d - 1) * h.stride d)).sum

/-- First byte and one past the last byte of a view. -/
def Handle.lo (h : Handle) : Nat := h.loc
def Handle.hi (h : Handle) : Nat := h.loc + (h.top * h.ebits + h.ebits + 7) / 8

/-- A handle is read at issue (R226): BAD_HANDLE, or ADDRESS where the table or the view leaves its space. (DEDUCED,
log 83.) -/
def getH (s : State) (c i : Nat) : Ex Handle := do
  needF s (idxOk s c i) (fHandle i)
  let a := entryAddr s c i
  needF s (inHbmOrPinned s (partOf c) a 64 && !inReel s a 64) (fAddr (gAddr s a))
  can (!waitsHot s a 64) "a stack's controller issues nothing (R187)"
  needF s (!ueIn s a 64) (fMemUe (gAddr s a))
  let e := mkHandle i (rd s a 64)
  let h := { e with far := if e.dev = devId s then 0 else farBase e.dev }
  needF s h.ok (fHandle i)
  needF s (decide (h.hi ≤ h.far + 2 ^ 48)) (fAddr (h.base))
  .ok h

/-- The scale axis that a scale handle's shape names for a data handle (R489): the last dimension or the one before. -/
def scaleAxisOk (h k : Handle) (b : Nat) : Bool :=
  k.rank == h.rank && decide (b < h.rank) &&
  (List.range h.rank).all (fun d => k.dim d == (if d = b then ceilDiv (h.dim d) 32 else h.dim d))

/-- The scale handle of a handle, read at issue (R226, R489). -/
def getScale (s : State) (c : Nat) (h : Handle) : Ex Handle := do
  needF s h.scv (fHandle h.idx)
  let k ← getH s c h.scale
  needF s (k.fmt == 6) (fHandle h.scale)
  needF s (scaleAxisOk h k (h.rank - 1) || (decide (2 ≤ h.rank) && scaleAxisOk h k (h.rank - 2))) (fHandle h.scale)
  .ok k

/-- The slub handle of a handle, read at issue (R59, R226). -/
def getSlub (s : State) (c : Nat) (h : Handle) : Ex Handle := do
  needF s h.slv (fHandle h.idx)
  let k ← getH s c h.slub
  needF s (k.fmt == 10) (fHandle h.slub)
  .ok k

/-- Element offset of an index list (R225). -/
def Handle.off (h : Handle) (ix : List Nat) : Nat :=
  ((List.range h.rank).map (fun d => (ix[d]?).getD 0 * h.stride d)).sum

/-- The code of element `off` of a tensor at a local byte address, bytes read through `rdb`. -/
def elemOf (rdb : Nat → Nat → List Byte) (base bits off : Nat) : Nat :=
  if bits = 4 then
    let b := ofBytes (rdb (base + off / 2) 1)
    if off % 2 = 0 then b % 16 else b / 16
  else ofBytes (rdb (base + off * (bits / 8)) (bits / 8))

/-- Columns and rows of a handle's 2-D view (R279): the last dimension, and the outer ones flattened. -/
def Handle.cols (h : Handle) : Nat := h.dim (h.rank - 1)
def Handle.rows (h : Handle) : Nat := ((List.range (h.rank - 1)).map h.dim).foldl (· * ·) 1

/-- The index list of a flat index over extents, first extent outermost. -/
def unflat : List Nat → Nat → List Nat
  | [], _ => []
  | _ :: ds, r => let p := ds.foldl (· * ·) 1; (r / p) :: unflat ds (r % p)

/-- The index list of a view's row and column. -/
def Handle.ix (h : Handle) (r c : Nat) : List Nat := unflat ((List.range (h.rank - 1)).map h.dim) r ++ [c]

/-- First byte and byte count of `n` elements of a view's row from column `c`. -/
def Handle.span (h : Handle) (r c n : Nat) : Nat × Nat :=
  let o := h.off (h.ix r c)
  let lo := h.loc + o * h.ebits / 8
  (lo, h.loc + ((o + (n - 1) * h.stride (h.rank - 1)) * h.ebits + h.ebits + 7) / 8 - lo)

/-- The block axis that a scale handle's shape names (R489). -/
def scaleAxis (h k : Handle) : Nat := if scaleAxisOk h k (h.rank - 1) then h.rank - 1 else h.rank - 2

/-- Index list of the scale of an element (R489). -/
def scaleIx (h k : Handle) (ix : List Nat) : List Nat :=
  ix.zipIdx.map (fun x => if x.2 = scaleAxis h k then x.1 / 32 else x.1)

/-- The code of an element as context `c` reads it through handle `h` (R310). -/
def elemV (s : State) (c : Nat) (h : Handle) (ix : List Nat) : Nat :=
  elemOf (fun a n => readV s c h.idx a n) h.loc h.ebits (h.off ix)

/-- The state after an element's code is written as context `c` writes through handle `h` (R309). -/
def putElemV (s : State) (c : Nat) (h : Handle) (w : Writer) (ix : List Nat) (v : Nat) : State :=
  let off := h.off ix
  if h.ebits = 4 then
    let a := h.loc + off / 2
    if hostBase ≤ a then halfOut s c a (off % 2 == 1) v
    else
    let b := rdN s (writerView s c h.idx a w) 1
    let b' := if off % 2 = 0 then b / 16 * 16 + v % 16 else b % 16 + v % 16 * 16
    writeV s c h.idx a [BitVec.ofNat 8 b'] w
  else writeV s c h.idx (h.loc + off * (h.ebits / 8)) (leBytes (h.ebits / 8) v) w

/-- An element's place in 4-bit units. -/
def Handle.nibbles (h : Handle) (ix : List Nat) : Nat × Nat := (2 * h.loc + h.off ix * (h.ebits / 4), h.ebits / 4)

/-- The state after the codes of elements are written as one write through handle `h` (R309). -/
def putElemsV (s : State) (c : Nat) (h : Handle) (w : Writer) (es : List (List Nat × Nat)) : State :=
  let ns := es.map (fun e => h.nibbles e.1)
  mendV (es.foldl (fun s e => putElemV s c h w e.1 e.2) (coverV s c h.idx ns w)) c h.idx ns w

/-- The words of an entry. -/
def Handle.words (h : Handle) : List Word := [h.w0, h.w1, h.w2, h.w3, h.w4, h.w5, h.w6, h.w7]

/-- Whether a view's bytes may be accessed by a context; one on another device is checked there (R171). -/
def viewOk (s : State) (c : Nat) (h : Handle) : Bool :=
  h.dev != devId s || okRange s c h.lo (h.hi - h.lo)

/-- The entry of all zeros, which no checked handle is. -/
def noHandle : Handle := {}

/-! ## Rules shared by several instructions -/

/-- `turn`, `halt` and `spl.commit` fault while a hand-off producer has no consumer (R287). -/
def noProducer (s : State) (th : Thread) : Ex Unit := needF s (th.accProd.isNone && th.vepiProd.isNone) fHandoff

/-- Whether a splice of the context whose check has passed declares handle `h` (R267). -/
def passedDecl (s : State) (c h : Nat) : Bool := match declOf s c h with
  | some (x, _) => x.st == .passed
  | none => false

/-- An instruction that would write a handle between the pass and the flip of its splice faults (R267). -/
def mayWrite (s : State) (c h : Nat) : Ex Unit := needF s (!passedDecl s c h) fSplice

/-- The handles at a stream's far end: its own, and those of its binding instructions when driven. -/
def farHandles (x : Stream) : List Nat := match x.walk with
  | .driven => x.segs.map (fun g => g.h.idx)
  | .localS => []
  | _ => [x.h.idx]

/-- The rows of a thread's work that are complete: every engine instruction, load, link operation and codec job that it
issued from number `lo` on (R235, R275). -/
def workDone (s : State) (t : Tid) (th : Thread) (lo : Nat) : Bool :=
  s.ops.all (fun o => o.t != t || decide (o.id < lo)) &&
  s.lkops.all (fun l => l.t != t || l.quiet || decide (l.seq < lo)) &&
  s.jobs.all (fun j => j.t != t || j.ended || decide (j.seq < lo)) &&
  th.hostLoads.all (fun h => decide (h.seq < lo))

/-- Every filled slot of a thread's store streams has drained (R196, R235). -/
def storesDrained (s : State) (t : Tid) : Bool :=
  s.streams.all (fun x => x.t != t || x.kind != .store || decide (x.filled ≤ x.drained))

/-- Every slot that an instruction of the thread's open turn filled has drained (R235, R236). -/
def turnDrained (s : State) (t : Tid) : Bool :=
  s.streams.all (fun x => x.t != t || x.kind != .store || decide (x.filled ≤ max x.drained x.before))

/-- A thread's turn opens: what its store streams' producers have claimed so far belongs to no turn, or to an earlier one. -/
def newTurn (s : State) (t : Tid) : State :=
  { s with streams := s.streams.map (fun x => if x.t == t then { x with before := x.prod } else x) }

end Sys2Proof.Machine
end

