-- ==== Sys2Proof/Machine/Reel.lean ====
section
/-! DEFINITION. The reel of a partition (15): what is recorded, how records are written, comparison during replay, and
`reel.mark`. Delivery of records stands in Deliver. -/

namespace Sys2Proof.Machine

/-- A partition's reel beyond its registers. -/
def getReel (s : State) (p : Nat) : ReelSt := tabGet {} s.reels p

/-- The state with a partition's reel set. -/
def setReel (s : State) (p : Nat) (r : ReelSt) : State := { s with reels := tabSet s.reels p r }

/-- MODE in force: 0 off, 1 record, 2 replay (R357). -/
def reelMode (s : State) (p : Nat) : Nat := fld (actR s (.reelCtl p)) 1 0

/-- FULL and WRAP in force. (DEDUCED, log 26.) -/
def reelFull (s : State) (p : Nat) : Bool := bit (actR s (.reelCtl p)) 3
def reelWrap (s : State) (p : Nat) : Bool := bit (actR s (.reelCtl p)) 4

/-- First byte and bytes of the ring in force. -/
def reelBase (s : State) (p : Nat) : Nat := fld (actR s (.reelRing p)) 26 0 * pageBytes
def reelSize (s : State) (p : Nat) : Nat := fld (actR s (.reelRing p)) 63 45 * pageBytes

/-- MODE returns to 0, written and acting. -/
def reelOff (s : State) (p : Nat) : State :=
  let s1 := setF s (.reelCtl p) 1 0 0
  let s2 := setAct s1 (.reelCtl p) (setFld (actR s1 (.reelCtl p)) 1 0 0)
  setReel s2 p { getReel s2 p with wanted := [], came := [] }

/-- A record's length: header and payload, padded to a multiple of 64 B (R359). -/
def recLen (r : ReelRec) : Nat := roundUp (16 + r.payload.length) 64

/-- A record's bytes (R359). -/
def recBytes (r : ReelRec) (len : Nat) (seq : Nat) : List Byte :=
  let w1 := r.ty.toNat * 2 ^ 56 + len / 64 * 2 ^ 48 + r.ctx.val * 2 ^ 42 + r.tick % 2 ^ 18 * 2 ^ 24 + seq % 2 ^ 24
  leBytes 8 r.stroke ++ leBytes 8 w1 ++ r.payload ++ List.replicate (len - 16 - r.payload.length) 0

/-- The oldest records leave the ring until `n` bytes are free (R362); `fuel` bounds their number. -/
def reelDrop (s : State) (p n : Nat) : Nat → State
  | 0 => s
  | fuel + 1 =>
    let r := getReel s p
    if r.used + n ≤ reelSize s p ∨ r.used = 0 then s
    else
      let len := 64 * rdN s (reelBase s p + r.oldest + 14) 1
      let s1 := setReel s p { r with used := r.used - len, oldest := (r.oldest + len) % reelSize s p }
      reelDrop (setR s1 (.reelStat p) (getR s1 (.reelStat p) ||| 4)) p n fuel

/-- One record is lost (R362). -/
def reelLose (s : State) (p : Nat) : State := bump s (.reelLost p) 1

/-- Bytes of a record at HEAD, which moves on. -/
def reelPut (s : State) (p : Nat) (r : ReelRec) (len : Nat) : State :=
  let x := getReel s p
  let head := (getR s (.reelHead p)).toNat
  let s1 := wr s (reelBase s p + head) (recBytes r len x.seq.toNat)
  let s2 := setReel s1 p { x with seq := x.seq + 1, used := x.used + len, last := head + len }
  setR s2 (.reelHead p) (BitVec.ofNat 64 ((head + len) % reelSize s p))

/-- Whether a ring lies in part where memory cannot be reached (R13). -/
def ringGone (s : State) (p : Nat) : Bool := (lostRegions s).any (fun r => overlaps r.1 r.2 (reelBase s p) (reelSize s p))

/-- Room for `n` bytes is made in a ring that overwrites (R362). -/
def reelRoom (s : State) (p n : Nat) : State := if reelWrap s p then reelDrop s p n (reelSize s p / 64) else s

/-- A pad record takes what is left before the end of the ring, where a record does not fit there (R359). -/
def reelPad (s : State) (p : Nat) (r : ReelRec) : State :=
  let rest := reelSize s p - (getR s (.reelHead p)).toNat
  if rest < recLen r then reelPut (reelRoom s p rest) p { r with ty := 6, payload := [] } rest else s

/-- A record is written to the ring; one that finds it full is lost, and recording stops (R359, R362). -/
def reelWrite (s : State) (p : Nat) (r : ReelRec) : State :=
  if (getReel s p).stopped || ringGone s p then reelLose s p
  else
    let len := recLen r
    let s1 := reelRoom (reelPad s p r) p len
    if reelSize s p < (getReel s1 p).used + len then
      reelLose (event (setReel s1 p { getReel s1 p with stopped := true }) 0x0401 none (some p) (leBytes 1 p)) p
    else reelPut s1 p r len

/-- STROKE of an input that arrives now: the next edge, modulo 2^64 (R233, R360). -/
def stampNow (s : State) : Word := strokeNow s + 1

/-- Step 6 of an edge: the records that arrived before it are written in arrival order (R360). -/
def reelEdge (s : State) (p : Nat) : State :=
  let x := getReel s p
  let (later, now) := x.buf.partition (fun r => r.stroke == (stampNow s).toNat)
  now.foldl (fun s r => reelWrite s p r) (setReel s p { x with buf := later })

/-- Replay stops at a difference (R365). -/
def reelMismatch (s : State) (p seq : Nat) : State :=
  let s1 := reelOff s p
  event (setR s1 (.reelStat p) (getR s1 (.reelStat p) ||| 2)) 0x0402 none (some p) ([BitVec.ofNat 8 p, 0, 0, 0] ++ leBytes 4 seq)

/-- An input is recorded with its stamp (R357, R360); with the 4 MiB buffer full it is lost (R362). -/
def reelRecord (s : State) (p : Nat) (ty : BitVec 8) (c : Nat) (payload : List Byte) : State :=
  let x := getReel s p
  let r : ReelRec := { ty := ty, ctx := Fin.ofNat 64 c, stroke := (stampNow s).toNat, tick := tickNow s, payload := payload }
  if 0x400000 < (x.buf.map recLen).sum + recLen r then reelLose s p
  else setReel s p { x with buf := x.buf ++ [r] }

/-- Whether a live input is the recorded one (R364, R365): a header with its stamp, relative to the start of replay; a digest with its
address and length; a mark's value and tag. -/
def reelSame (r live : ReelRec) : Bool :=
  r.payload.take live.payload.length == live.payload && (r.ty != 2 || (r.stroke == live.stroke && r.tick == live.tick))

/-- Every record has been delivered (R365). -/
def reelDone (s : State) (p : Nat) : State :=
  let s1 := reelOff s p
  setR s1 (.reelStat p) (getR s1 (.reelStat p) ||| 1)

/-- Replay is done once HEAD has reached the end of the records and every recorded input has been compared (DEDUCED, log 27). -/
def reelEnd (s : State) (p : Nat) : State :=
  let x := getReel s p
  if x.wanted.isEmpty && decide (x.last ≤ (getR s (.reelHead p)).toNat) then reelDone s p else s

/-- A live header, digest or mark is recorded, or meets its record: the next recorded one of its kind (R357, R364, R365). A live one
that comes before its record's delivery waits for it. -/
def reelLive (s : State) (p : Nat) (ty : BitVec 8) (c : Nat) (payload : List Byte) : State :=
  match reelMode s p with
  | 1 => reelRecord s p ty c payload
  | 2 =>
    let x := getReel s p
    let live : ReelRec := { ty := ty, ctx := Fin.ofNat 64 c, tick := tickNow s, payload := payload,
                            stroke := (stampNow s + BitVec.ofNat 64 x.s0 - getR s (.reelStart p)).toNat }
    match x.wanted.find? (fun r => r.ty == ty) with
    | some r =>
      if reelSame r live then reelEnd (setReel s p { x with wanted := x.wanted.erase r }) p else reelMismatch s p r.seq
    | none => setReel s p { x with came := x.came ++ [live] }
  | _ => s

/-- A recorded header, digest or mark is delivered: it meets the live one that has come, or waits for it. -/
def reelWant (s : State) (p : Nat) (r : ReelRec) : State :=
  let x := getReel s p
  match x.came.find? (fun k => k.ty == r.ty) with
  | some live => if reelSame r live then setReel s p { x with came := x.came.erase live } else reelMismatch s p r.seq
  | none => setReel s p { x with wanted := x.wanted ++ [r] }

/-- `reel.mark` (R303, R364). -/
def reelMark (s : State) (p c : Nat) (payload : List Byte) : State := reelLive s p 5 c payload

/-- An inbound message header of a partition (R357, R364). -/
def reelHeader (s : State) (p c : Nat) (header : List Byte) : State := reelLive s p 2 c header

/-- A command that a context decodes is recorded (R357). -/
def reelCommand (s : State) (c : Nat) (record : List Byte) : State :=
  if reelMode s (partOf c) = 1 then reelRecord s (partOf c) 1 c record else s

/-- Pieces of a transfer for data records of at most 16,288 B (R359); `fuel` bounds their number. -/
def reelChunks (a : Nat) (bs : List Byte) : Nat → List (Nat × List Byte)
  | 0 => []
  | fuel + 1 => if bs.isEmpty then [] else (a, bs.take 16288) :: reelChunks (a + 16288) (bs.drop 16288) fuel

/-- Payload of a digest record (R359). -/
def digestPayload (a : Nat) (bs : List Byte) : List Byte := leBytes 8 a ++ leBytes 8 bs.length ++ Config.sha3x512 bs

/-- A host transfer into a partition's memory has become visible: its data is recorded where FULL is set; else its digest is recorded
or compared (R357, R364). -/
def reelTransfer (s : State) (p c a : Nat) (bs : List Byte) : State :=
  if reelMode s p = 1 ∧ reelFull s p then
    (reelChunks a bs (bs.length + 1)).foldl (fun s x =>
      reelRecord s p 4 c (leBytes 8 x.1 ++ leBytes 8 x.2.length ++ x.2)) s
  else reelLive s p 3 c (digestPayload a bs)

/-- Types of the records of a ring from an offset on, up to the last one; `fuel` bounds their number. -/
def reelTypes (s : State) (p off : Nat) : Nat → List Nat
  | 0 => []
  | fuel + 1 =>
    if (getReel s p).last ≤ off then []
    else
      let w := rdN s (reelBase s p + off + 8) 8
      w / 2 ^ 56 :: reelTypes s p (off + max 64 (64 * (w / 2 ^ 48 % 256))) fuel

/-- Whether a replay delivers the transfers themselves: the next transfer record holds data, or the last one where none is left; FULL says
so of a ring without any. (DESIGN CHOICE, log 138: a ring may hold both kinds.) -/
def reelHasData (s : State) (p : Nat) : Bool :=
  let of (off : Nat) : List Nat := (reelTypes s p off (reelSize s p / 64)).filter (fun k => k == 3 || k == 4)
  if (getReel s p).wanted.any (fun r => r.ty == 3) then false
  else match (of (getR s (.reelHead p)).toNat).head?, (of 0).getLast? with
    | some k, _ | none, some k => k == 4
    | none, none => reelFull s p

/-- Whether a host transfer into a partition is refused: in a replay that delivers transfer data itself (R364). -/
def reelRefuses (s : State) (p : Nat) : Bool := reelMode s p == 2 && reelHasData s p

/-- A refused host transfer raises REEL_INPUT (R364). -/
def reelInput (s : State) (p : Nat) : State := event s 0x0403 none (some p) (leBytes 1 p)

/-! ## Change of MODE at an edge (R358, R363) -/

/-- Whether the ring written lies where R358 allows. -/
def reelPlaceOk (s : State) (p : Nat) : Bool :=
  let w := getR s (.reelRing p)
  let a := fld w 26 0 * pageBytes
  let n := fld w 63 45 * pageBytes
  let pool := getR s (.prtSplpool p)
  let save := getR s (.prtSave p)
  inHbmOrBoard s p a n && !inCarve s a n &&
  !overlaps a n (fld pool 26 0 * pageBytes) (fld pool 63 45 * pageBytes) &&
  !overlaps a n (fld save 26 0 * pageBytes) (fld save 63 45 * pageBytes) && decide (0 < n)

/-- Payload of the start record (R359). -/
def startPayload (s : State) (p : Nat) : List Byte :=
  leBytes 8 (strokeLen s) ++ wordBytes (getR s (.prtComp p)) ++ leBytes 8 (nlEff s p) ++ leBytes 8 (devId s)

/-- Whether replay may start: nothing overwritten or lost, and the start record names the present N and composition. -/
def replayOk (s : State) (p : Nat) : Bool :=
  let a := fld (getR s (.reelRing p)) 26 0 * pageBytes
  !bit (getR s (.reelStat p)) 2 && getR s (.reelLost p) == 0 && rdN s (a + 15) 1 == 0 && decide (0 < (getReel s p).last) &&
  rdN s (a + 16) 8 == strokeLen s && rdN s (a + 24) 8 == (getR s (.prtComp p)).toNat

/-- A recording ends at an edge, its records stamped with it written; a replay ends too (R358, R360). -/
def reelStop (s : State) (p : Nat) : State :=
  let s1 := if reelMode s p = 1 then reelEdge s p else s
  setReel s1 p { getReel s1 p with stopped := false, buf := [], wanted := [], came := [] }

/-- A recording or a replay begins at an edge (R358, R363, R364). -/
def reelStart (s : State) (p new : Nat) : State :=
  let s1 := setR s (.reelStart p) (strokeNow s)
  if new = 1 then
    let s2 := setR (setReel s1 p {}) (.reelHead p) 0
    reelWrite s2 p { ty := 0, ctx := 0, stroke := (strokeNow s).toNat, tick := 0, payload := startPayload s p }
  else
    let s2 := setR s1 (.reelHead p) 64
    setReel s2 p { getReel s2 p with s0 := rdN s2 (reelBase s2 p) 8 }

/-- The written REEL_CTL and REEL_RING of a partition come into force (R358, R363). A change between recording and replay ends the
one and begins the other with the tests of a change from off (DEDUCED, log 26). -/
def reelApply (s : State) (p : Nat) : State :=
  let old := reelMode s p
  let new := rfld s (.reelCtl p) 1 0
  let adopt (s : State) : State := setAct (setAct s (.reelCtl p) (getR s (.reelCtl p))) (.reelRing p) (getR s (.reelRing p))
  if old = new then adopt s
  else
    let s1 := if old = 0 then s else reelStop s p
    if new = 0 then adopt s1
    else if reelPlaceOk s1 p ∧ (new = 1 ∨ replayOk s1 p) then reelStart (adopt s1) p new
    else event (adopt (setF s1 (.reelCtl p) 1 0 0)) 0x0400 none (some p) (leBytes 1 p)

end Sys2Proof.Machine
end

