-- ==== Sys2Proof/Machine/Control.lean ====
section
/-! DEFINITION. Control instructions (11): nop, loop, jumps, semaphores, turn, fence, halt, and the events that end
their waits. -/

namespace Sys2Proof.Machine

/-- nop (R251): issues, no effect. A word whose opcode is reserved comes under this command and raises the DECODE fault of R249
(R272; DESIGN CHOICE, log 11). -/
def execNop (t : Tid) (f : Fields) (reserved : Option (BitVec 8)) (s : State) : Res :=
  runThread s t fun s th => do
    dec s reserved.isNone
    dec s (formOk f 0 0 [])
    .ok (stepOn s t th)

/-! ## Loops and transfers (R253-R256) -/

/-- A 64-bit or computed word index that is inside the context's instruction table (R223). -/
def inTable (s : State) (c : Nat) (w : Int) : Bool := decide (0 ≤ w) && decide (w < (getC s c).tableWords)

/-- loop (R253). -/
def execLoop (t : Tid) (f : Fields) (s : State) : Res :=
  runThread s t fun s th => do
    let imm := bit f.variant 0
    dec s (formOk f 1 0 [.counter, if imm then .imm else .scalar, .imm])
    dec s (f.sl2 != 0)
    let n : Half ← if imm then .ok (f.sl1.zeroExtend 32) else do
      let v ← src th f.sl1
      .ok (v.setWidth 32)
    let i : Fin 4 := Fin.ofNat 4 f.sl0.toNat
    let w := th.pc.toNat
    let l := f.sl2.toNat
    needF s (!(th.loops.get i).active) fLoopBusy
    needF s (inTable s t.ctx.val (w + l : Nat)) (fAddr 0)
    if n = 0 then
      .ok (setT { s with seq := s.seq + 1 } t { th with lc := th.lc.set i 0, pc := BitVec.ofNat 32 (w + 1 + l),
                                                        pastEnd := decide (2 ^ 32 ≤ w + 1 + l) })
    else
      let r : LoopRec := { active := true, start := BitVec.ofNat 32 (w + 1), stop := BitVec.ofNat 32 (w + l),
                           depth := th.stack.length, order := s.seq }
      .ok (stepOn s t { th with lc := th.lc.set i n, loops := th.loops.set i r })

/-- Loops that a taken transfer leaves lose their flag (R254): those at the target's depth whose body does not hold the
target, and those deeper than the target's depth. -/
def leaveLoops (th : Thread) (target : Half) (depth : Nat) : Vector LoopRec 4 :=
  th.loops.map (fun r =>
    if r.active && ((r.depth == depth && !(decide (r.start ≤ target) && decide (target ≤ r.stop))) ||
        decide (depth < r.depth))
    then { r with active := false } else r)

/-- A taken transfer of control to a word, with the call stack it leaves (R223, R254). -/
def transfer (s : State) (t : Tid) (th : Thread) (w : Int) (stack : List Half) : Ex State := do
  needF s (inTable s t.ctx.val w) (fAddr 0)
  let pc : Half := BitVec.ofNat 32 w.toNat
  .ok (setT { s with seq := s.seq + 1 } t
    { th with pc := pc, stack := stack, loops := leaveLoops th pc stack.length })

/-- The target of `jmp` or `call`: relative to the word, or an absolute index in a register. -/
def jumpTarget (s : State) (th : Thread) (f : Fields) : Ex Int := do
  if bit f.variant 0 then
    dec s (formOk f 1 0 [.scalar])
    let v ← src th f.sl0
    .ok v.toNat
  else
    dec s (formOk f 1 0 [.imm, .imm])
    .ok (th.pc.toNat + imm32 f.sl0 f.sl1)

/-- jmp (R254). -/
def execJmp (t : Tid) (f : Fields) (s : State) : Res :=
  runThread s t fun s th => do
    let w ← jumpTarget s th f
    transfer s t th w th.stack

/-- Whether a `br.cond` comparison holds (R255). -/
def brHolds (cond : Nat) (a b : Word) : Bool :=
  match cond with
  | 0 => a == b
  | 1 => a != b
  | 2 => a.slt b
  | 3 => !a.slt b
  | 4 => a.ult b
  | _ => !a.ult b

/-- br.cond (R255). -/
def execBrCond (t : Tid) (f : Fields) (s : State) : Res :=
  runThread s t fun s th => do
    let cond := fld f.ext 3 0
    let kind := fld f.ext 5 4
    let bimm := bit f.ext 6
    let ka : SlotK := match kind with
      | 0 => .scalar
      | 1 => .counter
      | _ => .localSem
    dec s (formOk f 0 0x7F [ka, if bimm then .imm else .scalar, .imm, .imm])
    dec s (decide (cond < 6) && decide (kind < 3))
    let a : Word ← match kind with
      | 0 => src th f.sl0
      | 1 => .ok ((th.lc.get (Fin.ofNat 4 f.sl0.toNat)).zeroExtend 64)
      | _ => .ok ((th.sems.get (Fin.ofNat 16 f.sl0.toNat)).zeroExtend 64)
    let b ← if bimm then .ok (imm16 f.sl1) else src th f.sl1
    if brHolds cond a b then transfer s t th (th.pc.toNat + imm32 f.sl2 f.sl3) th.stack
    else .ok (stepOn s t th)

/-- call (R256): CALL_DEPTH with 8 entries on the stack (R223). -/
def execCall (t : Tid) (f : Fields) (s : State) : Res :=
  runThread s t fun s th => do
    let w ← jumpTarget s th f
    needF s (decide (th.stack.length < 8)) fCallDepth
    transfer s t th w ((th.pc + 1) :: th.stack)

/-- ret (R256): CALL_DEPTH with the stack empty; a return address of 0 is that of a `call` in the last word, beyond the table
(R223). -/
def execRet (t : Tid) (f : Fields) (s : State) : Res :=
  runThread s t fun s th => do
    dec s (formOk f 0 0 [])
    match th.stack with
    | [] => .error (.fault s fCallDepth)
    | w :: rest => transfer s t th (if w = 0 then 2 ^ 32 else (w.toNat : Int)) rest

/-! ## Semaphores (R241-R244, R257) -/

/-- Count of shared semaphore `n` of partition `p`. -/
def sharedCount (s : State) (p n : Nat) : Nat := (tabGet 0 s.sems (256 * p + n)).toNat

/-- The state with a shared semaphore's count set. -/
def setShared (s : State) (p n v : Nat) : State :=
  { s with sems := tabSet s.sems (256 * p + n) (BitVec.ofNat 16 v) }

/-- Whether a shared semaphore is defined (R243). -/
def semDefined (s : State) (p n : Nat) : Bool := bit (getR s (.prtSem p n)) 31

/-- SCLASS of a shared semaphore. -/
def semClass (s : State) (p n : Nat) : Nat := rfld s (.prtSem p n) 17 16

/-- Whether a thread's state is on its spindle, neither saved nor being saved or restored (R257). -/
def present (s : State) (t : Tid) : Bool :=
  let x := getC s t.ctx.val
  x.st == .running && !x.saving && !x.restoring && onSpindle s t.ctx.val t.lsp.val

/-- Whether engine work of a thread goes on: its state is on its spindle, and a suspension has not reached its save point (R336). -/
def working (s : State) (t : Tid) : Bool :=
  let x := getC s t.ctx.val
  x.st == .running && !(x.saving && x.atPoint) && !x.restoring && onSpindle s t.ctx.val t.lsp.val

/-- The threads that wait on a shared semaphore of partition `p`, with amount and issue number. (DEDUCED, log 78.) -/
def sharedWaiters (s : State) (p n : Nat) : List (Nat × Nat × Nat) :=
  s.threads.filterMap (fun (k, th) => match th.block with
    | .sem true m amount seq => if m = n ∧ partOf (k / 64) = p then some (k, amount, seq) else none
    | _ => none)

/-- Whether a waiter issued before number `seq` could be served now (R244, R257). -/
def earlierServable (s : State) (p n seq : Nat) : Bool :=
  (sharedWaiters s p n).any (fun (k, amount, q) =>
    decide (q < seq) && decide (amount ≤ sharedCount s p n) && present s (tid (k / 64) (k % 64)))

/-- A wait takes its amount if it can be served now (R241, R244); otherwise none. -/
def semTake (s : State) (t : Tid) (th : Thread) (shared : Bool) (n amount seq : Nat) : Option (State × Thread) :=
  let p := partOf t.ctx.val
  if shared then
    (if amount ≤ sharedCount s p n ∧ !earlierServable s p n seq
     then some (setShared s p n (sharedCount s p n - amount), th) else none)
  else
    let i : Fin 16 := Fin.ofNat 16 n
    let c := (th.sems.get i).toNat
    if amount ≤ c then some (s, { th with sems := th.sems.set i (BitVec.ofNat 16 (c - amount)) }) else none

/-- wait (R241, R243, R257). -/
def execWait (t : Tid) (f : Fields) (s : State) : Res :=
  runThread s t fun s th => do
    let sh := bit f.variant 0
    dec s (formOk f 1 0 [if sh then .sharedSem else .localSem, .imm])
    dec s (f.sl1 != 0)
    let p := partOf t.ctx.val
    let n := f.sl0.toNat
    if sh then
      needF s (semDefined s p n) fSem
      needF s (decide (semClass s p n ≤ ctxCls s t.ctx.val)) fWaitClass
    let s1 := notReplayable s t
    match semTake s1 t th sh n f.sl1.toNat s.seq with
    | some (s2, th2) => .ok (stepOn s2 t th2)
    | none => .ok (setT { s1 with seq := s.seq + 1 } t { th with block := .sem sh n f.sl1.toNat s.seq })

/-- A blocked wait is served (R244): the amount is subtracted and the thread goes on. -/
def execSemWaitSatisfied (t : Tid) (s : State) : Res :=
  runPlain do
    let th ← the (getT? s t) "the thread does not exist"
    match th.block with
    | .sem sh n amount seq =>
      can (powered s && !s.failed && present s t) "the waiter is saved (R257)"
      let (s1, th1) ← the (semTake s t th sh n amount seq) "the wait cannot be served (R244)"
      .ok (stepOn s1 t { th1 with block := .none })
    | _ => .error (.no "the thread waits on no semaphore")

/-- An amount is added to a local semaphore of a context's thread; none on overflow (R241). -/
def addLocal (s : State) (u : Tid) (n amount : Nat) : Option State :=
  match getT? s u with
  | none => none
  | some th =>
    let i : Fin 16 := Fin.ofNat 16 n
    let c := (th.sems.get i).toNat + amount
    if c < 65536 then some (setT s u { th with sems := th.sems.set i (BitVec.ofNat 16 c) }) else none

/-- An amount is added to a shared semaphore; none on overflow (R241). -/
def addShared (s : State) (p n amount : Nat) : Option State :=
  let c := sharedCount s p n + amount
  if c < 65536 then some (setShared s p n c) else none

/-- sig (R241-R243, R257). (DEDUCED, log 16.) -/
def execSig (t : Tid) (f : Fields) (s : State) : Res :=
  runThread s t fun s th => do
    let sh := bit f.variant 0
    dec s (formOk f 1 0 [if sh then .unused else .scalar, if sh then .sharedSem else .localSem, .imm])
    dec s (f.sl2 != 0)
    let p := partOf t.ctx.val
    let n := f.sl1.toNat
    let s0 := notReplayable (stepOn s t th) t
    if sh then
      needF s (semDefined s p n) fSem
      needF s (decide (ctxCls s t.ctx.val ≤ semClass s p n)) fSigClass
      theF s (addShared s0 p n f.sl2.toNat) fSem
    else
      let v ← src th f.sl0
      needF s (decide (v.toNat < 64)) fSem
      theF s (addLocal s0 (tid t.ctx.val v.toNat) n f.sl2.toNat) fSem

/-! ## Turns (R234-R240) -/

/-- turn (R234): the open turn's last instruction has issued; the thread waits for the new turn's start. -/
def execTurn (t : Tid) (f : Fields) (s : State) : Res :=
  runThread s t fun s th => do
    dec s (formOk f 0 0 [.imm])
    dec s (decide (1 ≤ f.sl0.toNat) && decide (f.sl0.toNat ≤ 255))
    noProducer s th
    .ok (setT { s with seq := s.seq + 1 } t { th with block := .turn f.sl0.toNat })

/-! ## Fences (R258) -/

/-- Streams of a thread. -/
def streamsOf (s : State) (t : Tid) : List Stream := s.streams.filter (fun x => x.t == t)

/-- Whether a receive stream has asked for its next tile (R393). -/
def tileAsked (s : State) (x : Stream) : Bool :=
  s.outMsgs.any (fun o => o.op == .tileRequest && o.ctx == x.t.ctx && o.lk == x.t.lsp.val && o.hidx == x.sid)

/-- The load, gather and receive streams of a thread whose transfer has started: it stalls or has stalled on a migration, or its tile is
asked for. -/
def startedStreams (s : State) (t : Tid) : List (Nat × Nat) :=
  ((streamsOf s t).filter (fun x => x.kind != .store && (x.begun || tileAsked s x))).map (fun x => (x.sid, x.filled))

/-- Condition of MASK bit 0: transfers that had started have arrived, and loads have returned. -/
def fence0 (s : State) (t : Tid) (th : Thread) (started : List (Nat × Nat)) : Bool :=
  th.hostLoads.isEmpty && started.all (fun (sid, n) =>
    (streamsOf s t).all (fun x => x.sid != sid || decide (n < x.filled)))

/-- Condition of MASK bit 1: fillers of store slots have completed and what they filled has drained. -/
def fence1 (s : State) (t : Tid) (seq : Nat) : Bool :=
  (streamsOf s t).all (fun x => x.kind != .store ||
    (decide (x.drained = x.filled) &&
     s.ops.all (fun o => o.t != t || decide (seq ≤ o.id) || o.claims.all (fun c => c.sid != x.sid || !c.fills))))

/-- Condition of MASK bit 3: outgoing link operations have completed. -/
def fence3 (s : State) (t : Tid) (seq : Nat) : Bool := s.lkops.all (fun l => l.t != t || l.quiet || decide (seq ≤ l.seq))

/-- Whether every condition that a fence's MASK selects holds; `hset` writes are visible at once (bit 2). -/
def fenceHolds (s : State) (t : Tid) (th : Thread) (m : BitVec 4) (seq : Nat) (started : List (Nat × Nat)) : Bool :=
  (!bit m 0 || fence0 s t th started) && (!bit m 1 || fence1 s t seq) && (!bit m 3 || fence3 s t seq)

/-- fence (R258). -/
def execFence (t : Tid) (f : Fields) (s : State) : Res :=
  runThread s t fun s th => do
    dec s (formOk f 0xF 0 [])
    dec s (f.variant != 0)
    let m := f.variant.setWidth 4
    let st := startedStreams s t
    if fenceHolds s t th m s.seq st then .ok (stepOn s t th)
    else .ok (setT { s with seq := s.seq + 1 } t { th with block := .fence m s.seq st })

/-- The conditions of a pending fence hold (R258). -/
def execFenceRelease (t : Tid) (s : State) : Res :=
  runPlain do
    let th ← the (getT? s t) "the thread does not exist"
    match th.block with
    | .fence m seq st =>
      can (powered s && !s.failed && present s t) "the thread is saved"
      can (fenceHolds s t th m seq st) "a condition does not hold (R258)"
      .ok (stepOn s t { th with block := .none })
    | _ => .error (.no "the thread waits at no fence")

end Sys2Proof.Machine
end

