-- ==== Sys2Proof/Machine/Flags.lean ====
section
/-! DEFINITION. Counting and policy: numeric counters and faults (R41-R44), quantisation health (R66-R70). -/

namespace Sys2Proof.Machine

/-- Counted conditions go to the context's counters (R41). -/
def countNum (s : State) (c : Nat) (k : Cnt) : State :=
  bumpC (bumpC (bumpC (bumpC s c kPoisonNew k.new) c kPoisonCons k.cons) c kPoisonSt k.st) c kSat k.sat

/-- Whether a condition met is one that the acting `CTX_NUMPOL` selects to fault (R42). -/
def numSelected (s : State) (c : Nat) (k : Cnt) : Bool :=
  let p := actR s (.numpol c)
  (bit p 1 && decide (0 < k.new)) || (bit p 4 && decide (0 < k.cons)) || (bit p 2 && decide (0 < k.st)) ||
  (bit p 3 && decide (0 < k.sat))

/-- Every condition met, as CAUSE of a fault record (R44, R459). -/
def numCauses (k : Cnt) : Nat :=
  (if 0 < k.new then 1 else 0) + (if 0 < k.cons then 2 else 0) + (if 0 < k.st then 4 else 0) + (if 0 < k.sat then 8 else 0)

/-- Conditions are counted, and one fault is raised if any of them is selected; its record lists all of them (R43,
R44). (DEDUCED, log 73.) -/
def account (s : State) (c : Nat) (k : Cnt) : Ex State :=
  let s1 := countNum s c k
  if numSelected s c k then .error (.fault s1 (fNumeric (numCauses k))) else .ok s1

/-- Block outcomes of a `qnt` (R66): blocks of each kind, and slub records written. -/
structure Health where
  under : Nat := 0
  high : Nat := 0
  slub : Nat := 0
  clip : Nat := 0
  esc : Nat := 0
  deriving DecidableEq, Repr

def Health.add (a b : Health) : Health :=
  ⟨a.under + b.under, a.high + b.high, a.slub + b.slub, a.clip + b.clip, a.esc + b.esc⟩

/-- A 32-bit health counter after more counts; it saturates (R66). -/
def satAdd (n : Half) (k : Nat) : Half := if 0xFFFFFFFF ≤ n.toNat + k then 0xFFFFFFFF else n + BitVec.ofNat 32 k

/-- The open splice of a context that declares a handle (R66). -/
def openDecl (s : State) (c h : Nat) : Option Splice :=
  match declOf s c h with
  | some (x, _) => if x.st == .passed then none else some x
  | none => none

/-- Outcomes go to the context's counters (R67) and to the open splice that declares the destination (R66). -/
def countHealth (s : State) (c h : Nat) (k : Health) : State :=
  let s1 := bumpC (bumpC (bumpC (bumpC (bumpC s c kUnder k.under) c kOver k.high) c kSlubovf k.slub) c kClip k.clip)
    c kEsc k.esc
  match openDecl s1 c h with
  | some x => setSplice s1 { x with nUnder := satAdd x.nUnder k.under, nOver := satAdd x.nOver k.high,
                                    nSlub := satAdd x.nSlub k.slub, nClip := satAdd x.nClip k.clip }
  | none => s1

/-- Whether outcomes hold an event that the acting policy selects (R68). -/
def selectedHealth (s : State) (c : Nat) (k : Health) : Bool :=
  let q := actR s (.qhpol c)
  (bit q 4 && decide (0 < k.under)) || (bit q 5 && decide (0 < k.high)) || (bit q 6 && decide (0 < k.slub)) ||
  (bit q 7 && decide (0 < k.clip))

/-- Outcomes are counted, and a selected one faults under Fault, or under Replay outside any splice (R69). -/
def accountHealth (s : State) (c h : Nat) (k : Health) : Ex State :=
  let s1 := countHealth s c h k
  let pol := fld (actR s (.qhpol c)) 1 0
  if selectedHealth s c k && (pol == 2 || (pol == 1 && (openDecl s c h).isNone))
  then .error (.fault s1 fQhealth) else .ok s1

end Sys2Proof.Machine
end

