-- ==== Sys2Proof/Machine/Streams.lean ====
section
/-! DEFINITION. Streams (09, 12): regions, walks, slots and credits, tile layout, conversion, the creel, migration. -/

namespace Sys2Proof.Machine

/-! ## Streams of a spindle (R194) -/

/-- The contexts that share a context's spindles at the same time: itself, its filler, its primary (R220). -/
def partners (s : State) (c : Nat) : List Nat :=
  let x := getC s c
  let root := if x.filler then x.primary.val else c
  (List.range 64).filter (fun d => d == root || ((getC s d).filler && (getC s d).primary.val == root && exists' s d))

/-- The open streams of a thread's spindle, of primary and filler. -/
def spindleStreams (s : State) (t : Tid) : List Stream :=
  s.streams.filter (fun x => x.t.lsp == t.lsp && (partners s t.ctx.val).contains x.t.ctx.val)

/-- A thread's open stream. -/
def stream? (s : State) (t : Tid) (sid : Nat) : Option Stream := s.streams.find? (fun x => x.t == t && x.sid == sid)

/-- A stream that an instruction names must be open (R194). -/
def needStream (s : State) (t : Tid) (sid : Nat) : Ex Stream := theF s (stream? s t sid) fStream

/-- The region word (R278), after its checks. -/
structure Region where
  off : Nat
  size : Nat
  count : Nat
  scratch : Bool
  creel : Bool
  hold : Bool
  deriving DecidableEq, Repr

/-- R278 and the region rule of R194. -/
def readRegion (s : State) (t : Tid) (w : Word) (spaceOk holdOk creelOk : Bool) : Ex Region := do
  let r : Region := { off := fld w 23 0, size := 64 * (fld w 39 24 + 1), count := fld w 47 40 + 1, scratch := bit w 48,
                      creel := bit w 49 && creelOk, hold := bit w 50 }
  needF s (fld w 63 51 == 0 && fld w 5 0 == 0 && (spaceOk || !r.scratch) && (holdOk || !r.hold)) fStream
  needF s (decide (r.off + r.size * r.count ≤ (if r.scratch then 0x100000 else 0x800000))) fStream
  needF s ((spindleStreams s t).all (fun x => x.scratch != r.scratch ||
    !overlaps x.off (x.size * x.count) r.off (r.size * r.count))) fStream
  .ok r

/-- Whether no instruction that issued before a stream opened still uses its region as plain scratch: nothing moves in the region before
(R195, R275, DEDUCED, log 122). -/
def regionIdle (s : State) (x : Stream) : Bool :=
  !x.scratch || s.ops.all (fun o => decide (x.seq ≤ o.id) || o.t.lsp != x.t.lsp || !(partners s x.t.ctx).contains o.t.ctx.val ||
    !(o.rds ++ o.wrs).any (fun r => overlaps r.1 r.2 x.off (x.size * x.count)))

/-- A stream ID must not be open on the spindle (R194). -/
def freshSid (s : State) (t : Tid) (sid : Nat) : Ex Unit :=
  needF s ((spindleStreams s t).all (fun x => x.sid != sid)) fStream

/-- A stream over a region with nothing in its slots. -/
def newStream (t : Tid) (th : Thread) (sid : Nat) (k : SKind) (r : Region) (seq : Nat) : Stream :=
  { t := t, sid := sid, pc := th.pc, kind := k, scratch := r.scratch, creel := r.creel, hold := r.hold, off := r.off,
    size := r.size, count := r.count, slots := List.replicate r.count none, seq := seq }

/-! ## Slots and credits (R196) -/

/-- The slot of tile `t`. -/
def Stream.slotNo (x : Stream) (t : Nat) : Nat := t % x.count

/-- Offset of a slot. -/
def Stream.slotOff (x : Stream) (slot : Nat) : Nat := x.off + x.size * slot

/-- Whether tile `t` is in its slot. -/
def Stream.has (x : Stream) (t : Nat) : Bool := (x.slots[x.slotNo t]?).getD none == some t

/-- Whether the slot of tile `t` is free. -/
def Stream.free (x : Stream) (t : Nat) : Bool := ((x.slots[x.slotNo t]?).getD (some 0)).isNone

/-- The stream with tile `t` in its slot, or with that slot free. -/
def Stream.put (x : Stream) (t : Nat) : Stream := { x with slots := x.slots.set (x.slotNo t) (some t) }
def Stream.release (x : Stream) (t : Nat) : Stream :=
  if x.has t then { x with slots := x.slots.set (x.slotNo t) none, regions := x.regions.filter (fun r => r.1 != t) } else x

/-- The memory that holds a stream's slots. -/
def slotMem (s : State) (x : Stream) : Memory :=
  if x.scratch then scratchOf s x.t.ctx x.t.lsp else bobbinOf s x.t.ctx x.t.lsp

/-- Bytes of a stream's slots are written. -/
def slotWrite (s : State) (x : Stream) (off : Nat) (bs : List Byte) : State :=
  if x.scratch then scratchWrite s x.t.ctx x.t.lsp off bs else bobbinWrite s x.t.ctx x.t.lsp off bs

/-- The slot of tile `n` holds no uncorrectable word: MEM_UE where it does, with the address of its place in the save area (R452, DEDUCED,
log 21). -/
def slotClean (s : State) (x : Stream) (n : Nat) : Ex Unit :=
  let a := x.slotOff (x.slotNo n)
  needF s (!sramHurt s x.t x.scratch a x.size)
    (fMemUe (gAddr s (imageAt s x.t.ctx x.t.lsp + (if x.scratch then imageScratch else 0) + a)))

/-! ## Walks (R279) -/

/-- ORDER and coordinates of a tile walk's tile `t`. -/
def walkTile (r0 c0 nr nc : Nat) (rowsInner : Bool) (t : Nat) : Nat × Nat :=
  let i := t % (nr * nc)
  if rowsInner then (r0 + i % nr, c0 + i / nr) else (r0 + i / nc, c0 + i % nc)

/-- Bytes of one row of `n` elements in a format, rounded up to 64 (R274). -/
def rowBytes64 (bits n : Nat) : Nat := roundUp ((n * bits + 7) / 8) 64

/-- Bits of an element of a format code. -/
def bitsOf (fmt : Nat) : Nat := match fmtOf fmt with
  | some f => f.bits
  | none => 8

/-- Rows of the view that one slot of a rows-mode stream carries. -/
def Stream.rowsPer (x : Stream) : Nat := x.size / rowBytes64 (bitsOf x.fmt.toNat) x.h.cols

/-- Tiles of a stream's walk; none where the walk is set by others or has no end of its own. -/
def Stream.total (x : Stream) : Option Nat :=
  match x.walk with
  | .tiles _ _ nr nc _ rep => some (nr * nc * rep)
  | .rows _ n rep => some (ceilDiv n x.rowsPer * rep)
  | .driven => some ((x.segs.map (fun g => g.tiles.length)).sum)
  | .unbound => if x.segs.isEmpty then none else some ((x.segs.map (fun g => g.tiles.length)).sum)
  | .localS | .lists _ _ => none

/-- A stream replaced by its new value; with every tile of its walk moved, its transfer is complete. -/
def setStream (s : State) (x : Stream) : State :=
  let z := { x with live := match x.total with
    | some n => decide (arrived x < n)
    | none => x.live }
  { s with streams := s.streams.map (fun y => if y.t == x.t && y.sid == x.sid then z else y) }

/-- Where tile `t` of a stream lies: its far-end handle, layout, and either a 256 × 256 tile or a run of rows. -/
inductive Geo where
  | tile (h : Handle) (isB : Bool) (r c : Nat)
  | rows (h : Handle) (r n : Nat)
  /-- the K or V part of a head's subpage of a page (R125) -/
  | page (h : Handle) (v : Bool) (p hd : Nat)
  deriving DecidableEq, Repr

/-- Whether a handle's tiles take the B layout in a tile walk: its blocks run along the rows (R489, DEDUCED, log 34). -/
def bLayout (h : Handle) (k? : Option Handle) : Bool := match k? with
  | some k => decide (2 ≤ h.rank) && scaleAxis h k != h.rank - 1
  | none => false

/-- The place of tile `t` of a stream; none beyond its walk. -/
def Stream.geo (x : Stream) (t : Nat) : Option Geo :=
  match x.walk with
  | .tiles r0 c0 nr nc inner rep =>
    if t < nr * nc * rep then
      let p := walkTile r0 c0 nr nc inner t
      some (.tile x.h (bLayout x.h x.scaleH) p.1 p.2)
    else none
  | .rows r0 n rep =>
    let per := x.rowsPer
    let one := ceilDiv n per
    if t < one * rep then
      let i := t % one
      some (.rows x.h (r0 + i * per) (min per (n - i * per)))
    else none
  | .driven =>
    (x.segs.find? (fun g => decide (g.first ≤ t) && decide (t < g.first + g.tiles.length))).bind (fun g =>
      (g.tiles[t - g.first]?).map (fun p =>
        if g.page = 0 then .tile g.h g.isB p.1 p.2 else .page g.h (g.page == 2) p.1 p.2))
  | _ => none

/-- Rows, elements of a row and bytes from row to row of the KF32 elements in the slot of tile `n` (R193, R274, R279): as the walk
or the fill of the slot says, else the whole slot. (DEDUCED, log 38.) -/
def Stream.shape (x : Stream) (n : Nat) : SlotShape :=
  match x.geo n, x.shapes.find? (fun z => z.tile == n) with
  | some (.tile h _ r c), _ => ⟨n, min 256 (h.rows - 256 * r), min 256 (h.cols - 256 * c), 1024⟩
  | some (.rows h _ k), _ => ⟨n, k, h.cols, rowBytes64 32 h.cols⟩
  | _, some z => z
  | _, none => ⟨n, 1, x.size / 4, x.size⟩

/-- Tile footprint (R193, R285). -/
def footprint (fmt : Nat) : Nat :=
  match fmt with
  | 0 | 1 => 34816
  | 2 => 67584
  | 4 => 131072
  | 5 => 262144
  | k => 8192 * bitsOf k

/-- Whether a format's tile carries KS8 scales. -/
def scaledFmt (fmt : Nat) : Bool := fmt == 0 || fmt == 1 || fmt == 2

/-! ## What a far end may be -/

/-- What a filler's stream reaches must be HBM or pinned (R208): a range of this device, or a handle's view. (DEDUCED, log 28.) -/
def fillerRange (s : State) (t : Tid) (a n : Nat) : Bool := !(getC s t.ctx).filler || inHbmOrPinned s (partOf t.ctx) a n
def fillerOk (s : State) (t : Tid) (h : Handle) : Bool := fillerRange s t h.lo (h.hi - h.lo)

/-- Whether a handle's view may be the source of a multicast: from end to end in HBM or in the unified range of this device (R209). -/
def mcastSource (s : State) (h : Handle) : Bool :=
  h.dev == devId s && (match placeOf s h.lo, placeOf s (h.hi - 1) with
    | .hbm _, .hbm _ | .unified _, .unified _ => true
    | _, _ => false)

/-! ## Codes of a far end -/

/-- Spans of the view rows that a tile or a run of rows touches: address and bytes. -/
def Geo.spans : Geo → List (Nat × Nat)
  | .tile h _ r c => (List.range (min 256 (h.rows - 256 * r))).map (fun i =>
      h.span (256 * r + i) (256 * c) (min 256 (h.cols - 256 * c)))
  | .rows h r n => (List.range n).map (fun i => h.span (r + i) 0 h.cols)
  | .page _ _ _ _ => []

/-- The handle of a place. -/
def Geo.h : Geo → Handle
  | .tile h _ _ _ => h
  | .rows h _ _ => h
  | .page h _ _ _ => h

/-- The lowest address of spans, and the bytes from it to their end. -/
def hull (ss : List (Nat × Nat)) : Nat × Nat :=
  let lo := ss.foldl (fun a x => min a x.1) ((ss.headD (0, 0)).1)
  (lo, ss.foldl (fun a x => max a (x.1 + x.2)) 0 - lo)

/-- How a transfer reads bytes: handle index, address, count. -/
abbrev FarRd := Nat → Nat → Nat → List Byte

/-- Bytes that came from outside the device: handle index, address of the first, bytes. -/
abbrev Outside := List (Nat × Nat × List Byte)

/-- Bytes of a far end: as context `c` sees its own memory, or what came from outside. -/
def farBytes (s : State) (c : Nat) (outs : Outside) : FarRd := fun h a n =>
  match outs.find? (fun o => o.1 == h) with
  | some (_, lo, bs) => (bs.drop (a - lo)).take n
  | none => readV s c h a n

/-- The code of an element of a tensor as a transfer reads it. -/
def elemF (rdf : FarRd) (h : Handle) (ix : List Nat) : Nat := elemOf (rdf h.idx) h.loc h.ebits (h.off ix)

/-- The scale code of an element of a view as a transfer reads it (R489). -/
def scaleCodeF (rdf : FarRd) (h k : Handle) (r col : Nat) : Nat := elemF rdf k (scaleIx h k (h.ix r col))

/-- The scale code of an element of a view (R489). -/
def scaleCode (s : State) (c : Nat) (h k : Handle) (r col : Nat) : Nat := scaleCodeF (readV s c) h k r col

/-! ## Slub records (R57-R60) -/

/-- Slots of each region of a slub tensor: its last dimension is a header and the records (R59, DEDUCED, log 35). -/
def Handle.slubSlots (k : Handle) : Nat := k.cols - 1

/-- Bytes of a region: a header and its slots, padded to a multiple of 64 B; and the region's first address (R59, DEDUCED,
log 35). -/
def Handle.slubSize (k : Handle) : Nat := roundUp (4 * k.cols) 64
def Handle.slubAddr (k : Handle) (region : Nat) : Nat := k.loc + region * k.slubSize

/-- The region number of the tile that holds an element, row tiles outermost, and the element's INDEX in it (R58, R59). -/
def slubPlace (h : Handle) (isB : Bool) (r c : Nat) : Nat × Nat :=
  (r / 256 * ceilDiv h.cols 256 + c / 256, if isB then c % 256 * 256 + r % 256 else r % 256 * 256 + c % 256)

/-- The records of a region; none where its header counts more than its slots (R60). -/
def slubRecords (rdf : FarRd) (k : Handle) (region : Nat) : Option (List (Nat × Nat)) :=
  let a := k.slubAddr region
  let n := ofBytes (rdf k.idx a 4) % 8192
  if k.slubSlots < n then none
  else some ((List.range n).map (fun i =>
    let w := ofBytes (rdf k.idx (a + 4 * (i + 1)) 4)
    (w % 65536, w / 65536)))

/-- The value that a slub region gives an escaped element (R29, R60): none where no record or more than one names it. -/
def slubValue (recs : List (Nat × Nat)) (ix : Nat) : Option Val :=
  match recs.filter (fun x => x.1 == ix) with
  | [x] => some (kf16Val x.2)
  | _ => none

/-! ## Conversion (R38-R40, R199) -/

/-- The value of a far-end element for a conversion, with its scale and its slub record (R29, R40), and what is
counted. -/
def convValue (src : Fmt) (code : Nat) (scale : Option Nat) (slub : Option Val) : Val × Cnt :=
  let zero := match scale with
    | some k => decide (k % 256 / 4 = 0)
    | none => false
  if (src == .kf4 || src == .kf8) && zero then (.num 0, {})
  else if src == .kf4 && code % 16 == 8 then
    match slub with
    | some v => (v, {})
    | none => (.poison, { new := 1 })
  else
    let v := src.value code
    match scale with
    | some k => if src == .kf4 || src == .kf8 then (v.map1 (· * ks8Val (k % 256)), {}) else (v, {})
    | none => (v, {})

/-- A value written to a format after a conversion, with what both count. -/
def convWrite (dst : Fmt) (x : Val × Cnt) : Nat × Cnt :=
  let w := dst.write x.1
  (w.1, x.2.add w.2)

/-- Codes packed into bytes (R25). -/
def packCodes (bits : Nat) (cs : List Nat) : List Byte :=
  if bits = 4 then
    (List.range (ceilDiv cs.length 2)).map (fun i =>
      BitVec.ofNat 8 ((cs[2 * i]?).getD 0 % 16 + (cs[2 * i + 1]?).getD 0 % 16 * 16))
  else cs.flatMap (leBytes (bits / 8))

/-- One element of a load in the stream's format (R199). -/
def loadElem (x : Stream) (h : Handle) (rdf : FarRd) (r c : Nat) : Nat × Cnt :=
  let code := elemF rdf h (h.ix r c)
  match fmtOf h.fmt, fmtOf x.fmt.toNat with
  | some src, some dst =>
    if src = dst then (src.copy code, {})
    else
      let sc := x.scaleH.map (fun k => scaleCodeF rdf h k r c)
      let sv : Option Val := match x.slubH with
        | none => none
        | some k =>
          if code % 16 = 8 then
            let p := slubPlace h (bLayout h x.scaleH) r c
            ((slubRecords rdf k p.1).bind (fun rs => slubValue rs p.2))
          else none
      convWrite dst (convValue src code sc sv)
  | _, _ => (code, {})

/-- The scale handle of the far end of a tile. -/
def geoScale (x : Stream) (g : Geo) : Option Handle := match x.walk with
  | .driven => (x.segs.find? (fun sg => sg.h == g.h)).bind (fun sg => sg.scaleH)
  | _ => x.scaleH

/-- The slub region that goes with a tile of KF4 codes to an `mma` (R28, R59): handle, address, bytes. -/
def tileRegion (x : Stream) (g : Geo) : Option (Handle × Nat × Nat) := match x.walk, g with
  | .driven, .tile h _ r c => ((x.segs.find? (fun sg => sg.h == h)).bind (fun sg => sg.slubH)).map (fun k =>
      (k, k.slubAddr (r * ceilDiv h.cols 256 + c), 4 * k.cols))
  | _, _ => none

/-- A stream with the slub region of its tile `n`, of a place of stream `src`. -/
def Stream.withRegion (x : Stream) (rdf : FarRd) (src : Stream) (g : Geo) (n : Nat) : Stream := match tileRegion src g with
  | some (k, a, m) => { x with regions := x.regions ++ [(n, rdf k.idx a m)] }
  | none => x

/-- Whether a load converts. -/
def converts (x : Stream) (h : Handle) : Bool := fmtOf h.fmt != fmtOf x.fmt.toNat

/-- The slub regions that a load of rows converts from. -/
def slubRegions (x : Stream) (h : Handle) (r n : Nat) : List Nat :=
  ((List.range n).flatMap (fun i => (List.range (ceilDiv h.cols 256)).map (fun j =>
    (slubPlace h (bLayout h x.scaleH) (r + i) (256 * j)).1))).eraseDups

/-- The slub regions that a load converts from have no header count above their slots: BAD_HANDLE otherwise (R60).
(DEDUCED, log 79.) -/
def slubsOk (s : State) (rdf : FarRd) (x : Stream) (g : Geo) : Ex Unit :=
  match g, x.slubH with
  | .rows h r n, some k =>
    needF s (!converts x h || (slubRegions x h r n).all (fun m => (slubRecords rdf k m).isSome)) (fHandle k.idx)
  | _, _ => .ok ()

/-- The elements that head the blocks of a tile or a run of rows, and so name its scales: row and column (R193, R489). -/
def Geo.heads (k : Handle) : Geo → List (Nat × Nat)
  | .tile h isB r c => (List.range 256).flatMap (fun i => (List.range 8).filterMap (fun b =>
      let p := if isB then (256 * r + 32 * b, 256 * c + i) else (256 * r + i, 256 * c + 32 * b)
      if p.1 < h.rows ∧ p.2 < h.cols then some p else none))
  | .rows h r n => (List.range n).flatMap (fun i =>
      if scaleAxis h k = h.rank - 1 then (List.range (ceilDiv h.cols 32)).map (fun b => (r + i, 32 * b))
      else (List.range h.cols).map (fun j => (r + i, j)))
  | .page _ _ _ _ => []

/-- What a transfer reaches through one handle: spans of addresses as the entry gives them. -/
structure Part where
  h : Handle
  ss : List (Nat × Nat)
  deriving DecidableEq, Repr

/-- The scales of a far end as a part (R193, R489). -/
def scalePart (h k : Handle) (g : Geo) : Part :=
  ⟨k, joinSpans ((g.heads k).map (fun p => (k.loc + k.off (scaleIx h k (h.ix p.1 p.2)), 1)))⟩

/-- What a load of a tile reads: its elements, the scales that go with them or are applied to them, and the slub regions of a
conversion, or the one that goes with the tile (R28, R29, R40, R193). -/
def loadParts (x : Stream) (g : Geo) : List Part :=
  let h := g.h
  let scales : List Part := match geoScale x g, g with
    | some k, .tile _ _ _ _ => if scaledFmt h.fmt then [scalePart h k g] else []
    | some k, .rows _ _ _ => if converts x h then [scalePart h k g] else []
    | _, _ => []
  let region : List Part := (tileRegion x g).toList.map (fun z => ⟨z.1, [z.2]⟩)
  let slubs : List Part := match x.slubH, g with
    | some k, .rows _ r n =>
      if converts x h then [⟨k, (slubRegions x h r n).map (fun m => (k.slubAddr m, 4 * k.cols))⟩] else []
    | _, _ => []
  ⟨h, g.spans⟩ :: (scales ++ slubs ++ region)

/-- Bytes of a tile in tile layout (R193): elements, then scales. Elements beyond the view are 0, scales 0x00. -/
def tileBytes (bits : Nat) (isB scaled : Bool) (rows cols : Nat) (elem scale : Nat → Nat → Nat) : List Byte :=
  let at' (i k : Nat) : Nat × Nat := if isB then (k, i) else (i, k)
  let g (f : Nat → Nat → Nat) (p : Nat × Nat) : Nat := if p.1 < rows ∧ p.2 < cols then f p.1 p.2 else 0
  ((List.range 256).flatMap (fun i => packCodes bits ((List.range 256).map (fun k => g elem (at' i k))))) ++
  (if scaled then (List.range 256).flatMap (fun i => (List.range 8).map (fun b =>
    BitVec.ofNat 8 (g scale (at' i (32 * b))))) else [])

/-- The bytes that a load puts into a slot, and what the conversion counts. -/
def loadBytes (rdf : FarRd) (x : Stream) (g : Geo) : List Byte × Cnt :=
  match g with
  | .tile h isB r c =>
    (tileBytes h.ebits isB (scaledFmt h.fmt) (h.rows - 256 * r) (h.cols - 256 * c)
      (fun i j => ((fmtOf h.fmt).getD .kf8).copy (elemF rdf h (h.ix (256 * r + i) (256 * c + j))))
      (fun i j => match geoScale x g with
        | some k => scaleCodeF rdf h k (256 * r + i) (256 * c + j)
        | none => 0), {})
  | .rows h r n =>
    let bits := bitsOf x.fmt.toNat
    (List.range n).foldl (fun acc i =>
      let cs := (List.range h.cols).map (loadElem x h rdf (r + i))
      let bs := packCodes bits (cs.map (·.1))
      (acc.1 ++ bs ++ List.replicate (rowBytes64 bits h.cols - bs.length) 0, cs.foldl (fun k y => k.add y.2) acc.2))
      ([], {})
  | .page _ _ _ _ => ([], {})

/-! ## KV pages and page lists (R124, R138) -/

/-- G and D of a KV handle (R124): its last two dimensions (DEDUCED, log 37). -/
def kvDims (s : State) (h : Handle) : Ex (Nat × Nat) := do
  let d := h.dim (h.rank - 1)
  let g := if h.rank = 1 then 1 else h.dim (h.rank - 2)
  needF s (h.pmv && decide (g ≤ 8) && decide (d % 32 = 0) && decide (32 ≤ d) && decide (d ≤ 256)) (fHandle h.idx)
  .ok (g, d)

/-- COUNT of the k-th list that a gather stream follows. -/
def listCount (s : State) (x : Stream) (k : Nat) : Nat :=
  match x.walk, x.scaleH with
  | .lists r0 _, some l =>
    (elemV s x.t.ctx l (l.ix (r0 + k) 0) + 65536 * elemV s x.t.ctx l (l.ix (r0 + k) 1)) % 1024
  | _, _ => 0

/-- Lists that a gather stream follows, and the row of the first. -/
def listsOf (x : Stream) : Nat := match x.walk with
  | .lists _ n => n
  | _ => 0
def listRow (x : Stream) : Nat := match x.walk with
  | .lists r _ => r
  | _ => 0

/-- Page index of an entry of a list region (R138). (DEDUCED, log 69.) -/
def listPage (s : State) (x : Stream) (l e : Nat) : Nat :=
  match x.walk, x.scaleH with
  | .lists r0 _, some lh => elemV s x.t.ctx lh (lh.ix (r0 + l) (e + 2))
  | _, _ => 0

/-! ## The creel (R202-R204) -/

/-- Set of a creel line (R202). (DEDUCED, log 30.) -/
def creelSet (a : Nat) : Nat := Nat.xor (a / 4096 % 512) (a / 2097152 % 512)

/-- One lookup of a line in the creel of a quarter: the tags after it, and whether it hit. `ways`: the ways in which a
miss may allocate; none for a filler's (R208). -/
def creelLook (t : Tab (List (Nat × Nat))) (q a : Nat) (ways : List Nat) : Tab (List (Nat × Nat)) × Bool :=
  let key := 512 * q + creelSet a
  let set := tabGet [] t key
  match set.find? (fun w => w.2 == a / 4096) with
  | some w => (tabSet t key (w :: set.filter (fun v => v != w)), true)
  | none =>
    match ways.find? (fun n => !(set.any (fun w => w.1 == n))) with
    | some n => (tabSet t key ((n, a / 4096) :: set), false)
    | none =>
      match (set.filter (fun w => ways.contains w.1)).getLast? with
      | some w => (tabSet t key ((w.1, a / 4096) :: set.filter (fun v => v != w)), false)
      | none => (t, false)

/-- The ways in which a stream's misses allocate (R204, R208). -/
def creelWays (s : State) (t : Tid) (q : Nat) : List Nat :=
  let leased := (List.range 4).any (fun p => match leaseOf s p with
    | some (q', _) => q' == q
    | none => false)
  if (getC s t.ctx).filler then []
  else if !leased then List.range 16
  else if ctxCls s t.ctx = 0 then [12, 13, 14, 15] else List.range 12

/-- Whether an address is one whose line the creel caches: an HBM local address, or a unified page resident in HBM (R202). -/
def creelHolds (s : State) (a : Nat) : Bool := match placeOf s a with
  | .hbm _ => true
  | .unified pg => (tabGet? s.pages pg).any (fun x => isHbmFrame x.frame)
  | _ => false

/-- The lines of spans, once each. -/
def linesOf (ss : List (Nat × Nat)) : List Nat :=
  (ss.flatMap (fun x => if x.2 = 0 then [] else
    (List.range ((x.1 + x.2 - 1) / 4096 - x.1 / 4096 + 1)).map (fun i => x.1 / 4096 + i))).eraseDups

/-- A stream's lookups for one tile, counted (R202, R217). -/
def creelFetch (s : State) (x : Stream) (ss : List (Nat × Nat)) : State :=
  if x.creel then
    let q := quarterOf s x.t
    let ways := creelWays s x.t q
    let r := ((linesOf ss).filter (fun l => creelHolds s (4096 * l))).foldl (fun (acc : Tab (List (Nat × Nat)) × Nat × Nat) l =>
      let y := creelLook acc.1 q (4096 * l) ways
      (y.1, if y.2 then (acc.2.1 + 1, acc.2.2) else (acc.2.1, acc.2.2 + 1))) (s.creel, 0, 0)
    bumpC (bumpC { s with creel := r.1 } x.t.ctx kCreelHit r.2.1) x.t.ctx kCreelMiss r.2.2
  else s

/-! ## Migration of a stream's pages (R181, R183) -/

/-- A page's migration to a quarter is asked for by a context: one per page, at most 4 of a partition in motion, the rest in order of
arrival (R183). (DEDUCED, log 109.) -/
def askMig (s : State) (pg q : Nat) (c : CtxN) : State :=
  let m : Mig := ⟨pg, q, c, ownerOf s pg⟩
  if pageBusy s pg then s
  else if (migsOf s m.part).length < 4 then { s with migs := s.migs ++ [m] }
  else { s with migQueue := s.migQueue ++ [m] }

/-- A partition's next queued migration begins (R183). -/
def nextMig (s : State) (p : Nat) : State :=
  match s.migQueue.find? (fun m => m.part == p) with
  | some m =>
    if (migsOf s p).length < 4 then
      { s with migs := s.migs ++ [m], migQueue := s.migQueue.filter (fun k => k.page != m.page) }
    else s
  | none => s

/-- Streams that stall on a page no longer do. -/
def wakeStreams (s : State) (pg : Nat) : State :=
  { s with streams := s.streams.map (fun x => if x.miss == some pg then { x with miss := none } else x) }

/-- A migration ends without effect: its page is dead, or its region has gone (R179, R182); what waited for it tries again. -/
def dropMig (s : State) (pg : Nat) : State :=
  let p := (((s.migs ++ s.migQueue).find? (fun m => m.page == pg)).map (·.part)).getD (ownerOf s pg)
  nextMig (wakeStreams { s with migs := s.migs.filter (fun m => m.page != pg)
                                migQueue := s.migQueue.filter (fun m => m.page != pg) } pg) p

/-- The first page of spans that is in motion or must come into HBM before the access (R180, R181). -/
def missingPage (s : State) (ss : List (Nat × Nat)) (write : Bool) : Option Nat :=
  (ss.flatMap (fun x => pagesIn x.1 x.2)).eraseDups.find? (fun pg =>
    pageBusy s pg || pageMiss s pg write)

/-- A stream misses: it stalls until the page is resident (R181). -/
def missPage (s : State) (x : Stream) (pg : Nat) : State :=
  let s1 := askMig s pg (quarterOf s x.t) x.t.ctx
  setStream (bumpC s1 x.t.ctx kUniMiss 1) { x with miss := some pg, begun := true }

/-- Pages of spans are accessed now: last access, and the plans whose fetched pages they were (R180, R213). -/
def accessPages (s : State) (c : Nat) (ss : List (Nat × Nat)) : State :=
  let pgs := (ss.flatMap (fun x => pagesIn x.1 x.2)).eraseDups
  let s1 := touchPages s pgs
  { s1 with plans := s1.plans.map (fun q =>
      if q.t.ctx.val == c then { q with waiting := q.waiting.filter (fun w => !pgs.contains w) } else q) }

/-! ## After a piece of work completes -/

/-- A group's source as it now stands: the sender's stream while it is open, else as it was last. -/
def groupSrc (s : State) (g : Group) : Stream := match stream? s g.sender g.sid with
  | some x => if x.seq = g.src.seq then x else g.src
  | none => g.src

/-- The group of a context on a quarter with a tag. -/
def groupOf (s : State) (c q tag : Nat) : Option Group :=
  s.groups.find? (fun g => g.ctx.val == c && g.quarter == q && g.tag == tag && !g.ended)

/-- A group whose local members are now these: with none left it is gone, unless its source still serves remote members (R211,
R393). -/
def leaveGroup (s : State) (ms : List Member) (g : Group) : Option Group :=
  let g1 := { g with members := ms, src := groupSrc s g }
  if !ms.isEmpty then some g1 else if g.spread then some { g1 with ended := true } else none

/-- A context whose threads have all halted and whose work is complete stops; its open streams close (R259, DEDUCED, log 36). -/
def maybeStop (s : State) (c : Nat) : State :=
  let ths := threadsOf s c
  if (getC s c).st == .running && !ths.isEmpty && ths.all (fun k =>
      k.2.halted && workDone s (tid c k.1) k.2 0 && storesDrained s (tid c k.1)) then
    stopCtx { s with streams := s.streams.filter (fun x => x.t.ctx.val != c)
                     groups := s.groups.filterMap (fun g => if g.ctx.val == c then leaveGroup s [] g else some g) } c
  else s

/-- What follows when an instruction or a transfer of a context completes. -/
def settle (s : State) (c : Nat) : State := maybeStop (poolSettle s) c

end Sys2Proof.Machine
end

