-- ==== Sys2Proof/Machine/Links.lean ====
section
/-! DEFINITION. Link operations (12, 16): the target's checks and effects (R384-R387), responses at the issuer (R385,
R389, R390), the injection of messages against credits (R382, R383, R386, R388), the link instructions (R299-R301). -/

namespace Sys2Proof.Machine

/-- Whether the links work: powered, not in failure, past the boot ROM. -/
def linksUp (s : State) : Bool := powered s && !s.failed && rfld s .secStatus 3 0 != 2

/-! ## Checks at the target (R384) -/

/-- The valid partition that owns the region an address lies in. -/
def ownerAt (s : State) (a : Nat) : Option Nat :=
  match placeOf s a with
  | .hbm q => partOfQ s q
  | .board b => (List.range 4).find? (fun p => pHasBoard s p b)
  | .unified pg => (uregOfPage s pg).bind (fun r => if pValid s r.owner then some r.owner else none)
  | _ => none

/-- The partition whose memory an access reaches, or the cause of its refusal (R384). An access from this device's own context is
local (R171): the context's own rights decide, and the host window is one of its places. (DEDUCED, log 15.) -/
def reachTarget (s : State) (m : Msg) (n : Nat) (reads : Bool) : Except Nat Nat :=
  let a := m.addr.toNat
  if m.src.toNat = devId s then
    if (if reads then okRead s m.ctx a n else okRange s m.ctx a n) then .ok (partOf m.ctx) else .error lkAddress
  else match ownerAt s a with
  | none => .error lkAddress
  | some p =>
    if !(decide (a + n ≤ hostBase)) || !mayAccessRange s p a n || (reads && inReel s a n) then .error lkAddress
    else
      let w := getR s (.lnkImport p)
      if bit w 63 && decide (fld w 15 0 ≤ m.src.toNat) && decide (m.src.toNat ≤ fld w 31 16) then .ok p else .error lkImport

/-- The context that counts for a message: the issuing one where it is this device's, none otherwise (DEDUCED, log 51). -/
def countCtx (s : State) (m : Msg) : Nat := if m.src.toNat = devId s then m.ctx.val else 64

/-- Unified pages of a remote access come into HBM within the step; a page in motion makes it wait (R180, R181, R384,
log 20). -/
def admitRemote (s : State) (m : Msg) (n : Nat) (write : Bool) : Ex State :=
  admitPages s 4 (countCtx s m) m.addr.toNat n write

/-! ## Signals (R387) -/

/-- Whether an amount may be added for a signal word, and the state after (R241, R387); `cls`: the signaller's class,
none for the host (R430). -/
def applySignal (s : State) (w : Word) (sh : Bool) (cls : Option Nat) : Except Nat State :=
  let c := fld w 21 16
  let amount := fld w 51 36
  let n := fld w 35 28
  let p := partOf c
  if !exists' s c || amount == 0 then .error lkSignal
  else if sh then
    if !semDefined s p n || (match cls with
        | some k => decide (semClass s p n < k)
        | none => false) then .error lkSignal
    else match addShared s p n amount with
      | some s1 => .ok s1
      | none => .error lkSemovf
  else
    let l := fld w 27 22
    if ctxNL s c ≤ l ∨ 16 ≤ n then .error lkSignal
    else match getT? s (tid c l) with
      | none => .ok s
      | some _ => match addLocal s (tid c l) n amount with
        | some s1 => .ok s1
        | none => .error lkSemovf

/-! ## What the target does (R384-R387) -/

/-- A put or a multicast put at a member (R384, R385): memory written by address, then the signal of a put with SIG. One whose
signal is refused has no effect. (DEDUCED, log 71.) -/
def targetPut (s : State) (m : Msg) : Ex (State × Msg) :=
  match reachTarget s m m.data.length false with
  | .error k => .ok (s, refuse m k)
  | .ok _ => do
    let s1 ← admitRemote s m m.data.length true
    let s2 := putA s1 m.ctx m.addr.toNat m.data
    if m.sig then
      match applySignal s2 m.word3 (bit m.redop 0) (some m.cls.toNat) with
      | .ok s3 => .ok (s3, ackOf m)
      | .error k => .ok (s, refuse m k)
    else .ok (s2, ackOf m)

/-- A get request (R385): its data is read by address; an uncorrectable word refuses it (R452). (DESIGN CHOICE, log 18.) -/
def targetGet (s : State) (m : Msg) : Ex (State × Msg) :=
  let n := m.len.toNat + 1
  let a := m.addr.toNat
  match reachTarget s m n true with
  | .error k => .ok (s, refuse m k)
  | .ok _ => do
    let s1 ← admitRemote s m n false
    if ueIn s1 a n then (if m.src.toNat = devId s then .error (.fault s1 (fMemUe (gAddr s a))) else .ok (s1, refuse m lkAddress))
    else
      let s2 ← askOutside s1 m.ctx a n
      .ok (s2, respond m .getResponse 0 (rd s2 a n))

/-- The cause by which a target says that an add met an uncorrectable word: the fault code of MEM_UE, which R394 does not give to
a cause (DESIGN CHOICE, log 18). -/
def lkMemUe := 0x22

/-- An add (R188, R191, R384): applied by the reducer, or written to a hold area; not where it meets an uncorrectable word (R452).
(DEDUCED, log 71.) -/
def targetAdd (s : State) (m : Msg) : Ex (State × Msg) :=
  let n := m.data.length
  let a := m.addr.toNat
  let op := m.redop.toNat
  let rank := if m.ranked then some m.rank.toNat else none
  match reachTarget s m n false with
  | .error k => .ok (s, refuse m k)
  | .ok p =>
    if a % redBytes op != 0 || n % redBytes op != 0 || !(redPieces a m.data).all (fun x => redAllowed s p op x.1 rank) then
      .ok (s, refuse m lkAddress)
    else do
      can (!holdHot s p op a n) "a stack's controller issues nothing (R187)"
      let s1 ← admitRemote s m n true
      if ueIn s1 a n then .ok (s1, refuse m lkMemUe)
      else .ok (redAll s1 p (countCtx s m) op a m.data rank, ackOf m)

/-- A signal (R385, R387). -/
def targetSignal (s : State) (m : Msg) : State × Msg :=
  match applySignal s m.word3 (bit m.redop 0) (some m.cls.toNat) with
  | .ok s1 => (s1, ackOf m)
  | .error k => (s, refuse m k)

/-- What a target does with a message, and its one response (R385). -/
def atTarget (s : State) (m : Msg) : Ex (State × Msg) :=
  match m.op with
  | .put | .multicastPut => targetPut s m
  | .getRequest => targetGet s m
  | .add => targetAdd s m
  | .signal => .ok (targetSignal s m)
  | _ => .error (.no "not a request")

/-! ## The multicast tree (R391, R392) -/

/-- A link multicast group in force: RMASK and the box; none where it is invalid. -/
structure Box where
  rmask : Nat
  z1 : Nat
  z0 : Nat
  y1 : Nat
  y0 : Nat
  x1 : Nat
  x0 : Nat
  draft : Bool
  deriving DecidableEq, Repr

/-- The box of a group in force (R391, R392). -/
def boxOf (s : State) (n : Nat) : Option Box :=
  let w := actR s (.mcg n)
  let b : Box := ⟨fld w 33 26, fld w 25 22, fld w 21 18, fld w 17 14, fld w 13 10, fld w 9 5, fld w 4 0, bit w 62⟩
  if bit w 63 && decide (b.x0 ≤ b.x1) && decide (b.y0 ≤ b.y1) && decide (b.z0 ≤ b.z1) then some b else none

/-- The ranks of a box. -/
def Box.ranks (b : Box) : List Nat := (List.range 8).filter (fun r => b.rmask.testBit r)

/-- The devices of a box. -/
def Box.members (b : Box) : List Nat :=
  (List.range (b.x1 + 1 - b.x0)).flatMap (fun x => (List.range (b.y1 + 1 - b.y0)).flatMap (fun y =>
    (List.range (b.z1 + 1 - b.z0)).flatMap (fun z => b.ranks.map (fun r =>
      Coord.id ⟨b.x0 + x, b.y0 + y, b.z0 + z, r⟩))))

/-- The neighbours to which a device of the box hands a copy on, with the ports (R392 step 3). -/
def Box.next (b : Box) (c : Coord) : List (Nat × Coord) :=
  (if c.y = b.y0 ∧ c.z = b.z0 ∧ c.x < b.x1 then [(8, { c with x := c.x + 1 })] else []) ++
  (if c.z = b.z0 ∧ c.y < b.y1 then [(10, { c with y := c.y + 1 })] else []) ++
  (if c.z < b.z1 then [(12, { c with z := c.z + 1 })] else [])

/-! ## Responses at the issuer (R385, R389) -/

/-- The epoch of a tag. -/
def epochOf (s : State) (c : Nat) (tag : BitVec 12) : BitVec 4 := tabGet 0 s.epochs (4096 * c + tag.toNat)

/-- An outstanding message of a context, by tag. -/
def outMsg? (s : State) (c : Nat) (tag : BitVec 12) : Option OutMsg :=
  s.outMsgs.find? (fun o => o.ctx.val == c && o.tag == tag)

/-- A tag is freed, and its epoch advances (R389). -/
def freeTag (s : State) (c : Nat) (tag : BitVec 12) : State :=
  { s with outMsgs := s.outMsgs.filter (fun o => !(o.ctx.val == c && o.tag == tag))
           epochs := tabSet s.epochs (4096 * c + tag.toNat) (epochOf s c tag + 1) }

/-- A link operation by its number. -/
def lkop? (s : State) (id : Nat) : Option LkOp := s.lkops.find? (fun l => l.id == id)

/-- Data bytes of an operation's next message: up to 16,384, and for an add whole elements up to a granule's bound (R383, DEDUCED,
log 55). -/
def nextLen (l : LkOp) : Nat :=
  match l.op with
  | .add => let n := 16384 - l.remote % 256
            min l.left (n - n % redBytes l.proto.redop.toNat)
  | .signal => l.left
  | _ => min l.left 16384

/-- Whether what an operation has still to send is its message with LAST and SIG, and that is not sent: not every other message of it has been
acknowledged (R386). -/
def barred (l : LkOp) : Bool := l.failed && l.sig.isSome && decide (l.left ≤ nextLen l)

/-- A link operation replaced by its new value, or removed once nothing of it is left to send or outstanding. -/
def setLkOp (s : State) (l : LkOp) : State :=
  if (l.left = 0 ∨ barred l) ∧ l.out = 0 then settle { s with lkops := s.lkops.filter (fun x => x.id != l.id) } l.t.ctx
  else { s with lkops := s.lkops.map (fun x => if x.id == l.id then l else x) }

/-- A LINK fault in the context of a link operation, unless it was torn down (R349, R394). -/
def linkFault (s : State) (l : LkOp) (cause : Nat) (tag : BitVec 12) (epoch : BitVec 4) (dev : Nat) : State :=
  if l.quiet then s else threadFault s l.t (fLink cause l.group tag.toNat epoch.toNat dev)

/-- The fault that a refusal gives: MEM_UE where a reducer met an uncorrectable word (R452), else LINK (R394). -/
def answerFault (s : State) (l : LkOp) (o : OutMsg) (cause : Nat) (epoch : BitVec 4) (dev : Nat) : State :=
  if cause = lkMemUe then (if l.quiet then s else threadFault s l.t (fMemUe o.goal)) else linkFault s l cause o.tag epoch dev

/-- A message is complete, acknowledged or not: its tag is free, and its operation has one message less (R385, R389). -/
def finished (s : State) (o : OutMsg) (acked : Bool) : State :=
  let s1 := freeTag s o.ctx o.tag
  match (if o.op == .draftTile || o.op == .tileRequest then none else lkop? s1 o.lk) with
  | some l => setLkOp s1 { l with out := l.out - 1, failed := l.failed || !acked }
  | none => s1

/-- The answers of some devices to a message have come, and with the last one it is complete (R385, R392). -/
def answered (s : State) (o : OutMsg) (devs : List Nat) (acked : Bool) : State :=
  let rest := o.due.filter (fun d => !devs.contains d)
  if rest.isEmpty then finished s o acked
  else { s with outMsgs := s.outMsgs.map (fun x => if x.ctx == o.ctx && x.tag == o.tag then { x with due := rest } else x) }

/-- The data of a get response is written where the operation reads it to (R300, R309), if the context still may (R169, R179); an operation
whose context was torn down began before its splices were discarded (R315). Pages come in as for any access (R180). -/
def landGet (s : State) (o : OutMsg) (data : List Byte) : Ex State :=
  let c := o.ctx.val
  let w : Writer := .op o.lk
  if !okRange s c o.loc data.length then (if o.free then .ok s else .error (.fault s (fAddr (gAddr s o.loc))))
  else if hostBase ≤ o.loc then .ok (putA s c o.loc data)
  else if o.free then do
    let dst := (pieces o.loc data.length).map (fun x => ((redirect s c o.hidx x.1 w).1, x))
    let s1 ← admitAll s o.quarter c (dst.map (fun x => (x.1, x.2.2))) true
    .ok (dst.foldl (fun s x => wr s x.1 ((data.drop (x.2.1 - o.loc)).take x.2.2)) s1)
  else do
    let (ws, rs) := writeSpans s c o.hidx o.loc data.length w
    let s1 ← admitAll s o.quarter c rs false
    let s2 ← admitAll s1 o.quarter c ws true
    .ok (writeV s2 c o.hidx o.loc data w)

/-- Bytes of a tile in one message (R382); the parts of a tile; and the tile index, part and parts that ADDR gives (R382; DESIGN CHOICE, log
137). -/
def partBytes : Nat := 16384
def tileParts (n : Nat) : Nat := max 1 (ceilDiv n partBytes)
def tileAddr (tile part parts : Nat) : BitVec 48 := BitVec.ofNat 48 (tile % 2 ^ 32 + part % 256 * 2 ^ 32 + (parts - 1) % 256 * 2 ^ 40)
def tileOf (m : Msg) : Nat := m.addr.toNat % 2 ^ 32
def partOfTile (m : Msg) : Nat := m.addr.toNat / 2 ^ 32 % 256
def partsOfTile (m : Msg) : Nat := m.addr.toNat / 2 ^ 40 + 1

/-- The next part of its next tile is in the slot of a remote member (R393); with the last part the slot is filled. -/
def takePart (s : State) (x : Stream) (m : Msg) : State :=
  let n := x.filled
  let k := x.parts
  let s1 := slotWrite s x (x.slotOff (x.slotNo n) + partBytes * k) (m.data.take (x.size - partBytes * k))
  if k + 1 < partsOfTile m then setStream s1 { x with parts := k + 1, moved := true, stall := 0 }
  else setStream s1 { x.put n with filled := n + 1, parts := 0, moved := true, stall := 0, begun := false,
                                   walk := if m.last && x.segs.isEmpty then .tiles 0 0 (n + 1) 1 false 1 else x.walk }

/-- A part of a tile that a dropped remote member fetches arrives (R393). -/
def landTile (s : State) (o : OutMsg) (m : Msg) : State :=
  match stream? s (tid o.ctx o.lk) o.hidx with
  | some x => if x.filled = o.loc ∧ x.parts = o.len ∧ x.free o.loc then takePart s x m else s
  | none => s

/-- The thread and the group that a message's fault names, where it is a draft message: its context's first thread. -/
def draftOp (s : State) (o : OutMsg) : LkOp :=
  let l := match (threadsOf s o.ctx).head? with
    | some (l, _) => l
    | none => 0
  { id := 0, t := tid o.ctx l, seq := 0, group := 0, op := o.op, quiet := o.free }

/-- A member device has acknowledged a part of a tile: with the last part its lag is less (R393). -/
def tileAcked (s : State) (o : OutMsg) : State :=
  if s.outMsgs.any (fun x => x.tag != o.tag && x.op == .draftTile && x.ctx == o.ctx && x.hidx == o.hidx && x.lk == o.lk && x.dst == o.dst &&
      x.loc == o.loc) || s.tilesOut.any (fun x => x.ctx == o.ctx && x.tag == o.hidx && x.quarter == o.lk && x.dst == o.dst.toNat &&
      x.tile == o.loc) then s
  else { s with groups := s.groups.map (fun g =>
      if g.ctx == o.ctx && g.tag == o.hidx && g.quarter == o.lk then
        { g with remote := g.remote.map (fun r => if r.1 = o.dst.toNat then (r.1, r.2 + 1) else r) }
      else g) }

/-- A response reaches the issuer (R385, R389): stale ones are counted; a refusal gives the context a LINK fault. Of a get response no more
lands than was asked for (DESIGN CHOICE, log 127). -/
def onResponse (s : State) (m : Msg) : Ex State :=
  match outMsg? s m.ctx m.tag with
  | none => .ok (bumpC s m.ctx kLkStale 1)
  | some o =>
    let dev := m.src.toNat
    if m.epoch != epochOf s m.ctx m.tag then .ok (bumpC s m.ctx kLkStale 1)
    else
      let l := if o.op == .draftTile || o.op == .tileRequest then draftOp s o else (lkop? s o.lk).getD (draftOp s o)
      match m.op with
      | .getResponse =>
        if o.op == .tileRequest then .ok (answered (landTile s o m) o [dev] true)
        else match landGet s o (m.data.take o.len) with
          | .ok s1 => .ok (answered s1 o [dev] true)
          | .error (.fault s1 f) => .ok (answered (if o.free then s1 else threadFault s1 l.t f) o [dev] false)
          | .error (.no why) => .error (.no why)
      | .refusal => .ok (answered (answerFault s l o (m.word3.toNat % 256) m.epoch dev) o [dev] false)
      | _ => .ok (answered (if o.op == .draftTile then tileAcked s o else s) o [dev] true)

/-- The members that a branch of the tree reaches from a device of the box: those beyond it in the branch's direction (R392). -/
def Box.below (b : Box) (c : Coord) (port : Nat) : List Nat :=
  b.members.filter (fun d =>
    let e := coordOf d
    e.rank == c.rank && (if port = 8 then decide (c.x < e.x) else e.x == c.x && (if port = 10 then decide (c.y < e.y)
      else e.y == c.y && decide (c.z < e.z))))

/-- Copies of a multicast put go over branches of the tree (R392), from a device which it came to over a port in a class or is sent by; a
branch whose port is dead is unreachable, and its member is refused to the issuer (R381). -/
def spread (s : State) (next : List (Nat × Coord)) (came : Option (Nat × Nat)) (hold : Option Nat) (m : Msg) : State :=
  next.foldl (fun s x =>
    let copy := { m with dst := BitVec.ofNat 16 x.2.id, seg := 1 }
    if portLive s x.1 && decide (m.hops.toNat < 63) then portMsg s x.1 (torusClass s came 1 x.1) came hold copy
    else sendRefusal (countUnreach s x.1) (unreachable copy)) s

/-! ## Injection (R382, R383, R386, R388) -/

/-- Whether a context has a free credit (R388). -/
def freeCredit (s : State) (c : Nat) : Bool :=
  decide ((s.outMsgs.filter (fun o => o.ctx.val == c && !o.free)).length < rfld s (.lkcred c) 11 0 + 1)

/-- The lowest free tag of a context. (DEDUCED, log 87.) -/
def freeTagOf (s : State) (c : Nat) : Option (BitVec 12) :=
  ((List.range 4096).find? (fun n => (outMsg? s c (BitVec.ofNat 12 n)).isNone)).map (BitVec.ofNat 12)

/-- Whether an operation has a message that it may send now: the last message of a put with SIG waits for the others
(R386). -/
def maySend (s : State) (l : LkOp) : Bool :=
  decide (0 < l.left) && !barred l && (l.sig.isNone || decide (nextLen l < l.left) || l.out == 0) && (l.quiet || freeCredit s l.t.ctx)

/-- The data of an operation's next message, read from its local source (R300): the context must still have access to it (R169, R179),
and a word of it that is uncorrectable is MEM_UE (R452). -/
def sourceData (s : State) (l : LkOp) (n : Nat) : Ex (State × List Byte) :=
  match l.op with
  | .put | .add | .multicastPut => do
    let c := l.t.ctx.val
    needF s (okRead s c l.loc n) (fAddr (gAddr s l.loc))
    needF s (!ueV s c l.hidx l.loc n) (fMemUe (gAddr s l.loc))
    let s1 ← admitAll s l.quarter c (readSpans s c l.hidx l.loc n) false
    let s2 ← askOutside s1 c l.loc n
    .ok (s2, readV s2 c l.hidx l.loc n)
  | _ => .ok (s, [])

/-- An operation's next message, before its tag. -/
def nextMsg (s : State) (l : LkOp) (n : Nat) (data : List Byte) : Msg :=
  let last := decide (n = l.left)
  { l.proto with src := BitVec.ofNat 16 (devId s), op := l.op, ctx := l.t.ctx, last := last,
                 addr := BitVec.ofNat 48 l.remote, len := BitVec.ofNat 14 (n - 1), data := data,
                 sig := l.op == .signal || (last && l.sig.isSome),
                 word3 := if l.op == .signal then l.proto.word3 else if last then l.sig.getD 0 else 0 }

/-- A message leaves its source over a link; where it cannot, the port that it could not take is counted, and the cause of the LINK
fault is the answer (R381, R394). -/
def depart (s : State) (p : Nat) (i : Msg) : State × Option Nat :=
  match nextHop s none i, linkCause s p i with
  | .ok (q, k), none => (portMsg s q k none none i, none)
  | .error q, some k => (if k = lkUnreach then countUnreach s q else s, some k)
  | _, k => (s, k)

/-- The devices of a multicast's box that lie on a rail, this one apart. -/
def railOf (s : State) (b : Box) (r : Nat) : List Nat := b.members.filter (fun d => d % 8 == r && d != devId s)

/-- A LINK fault at the source of a message: the cause, the device that it names, and the devices that no copy leaves for. -/
abbrev NotSent := Nat × Nat × List Nat

/-- A multicast put leaves its source for the corners of the box, rail by rail (R392); a first hop on a port outside the partition's SKEIN
mask is not taken (R394). -/
def launchCopies (s : State) (c : Nat) (b : Box) (m : Msg) : State × List NotSent :=
  let corner (r : Nat) : Nat := Coord.id ⟨b.x0, b.y0, b.z0, r⟩
  if !assigned s then (s, b.ranks.map (fun r => (lkPort, corner r, railOf s b r)))
  else b.ranks.foldl (fun (acc : State × List NotSent) r =>
    let copy := { m with dst := BitVec.ofNat 16 (corner r), hops := 0, seg := 0, wcnt := 0 }
    if corner r = devId s then
      let (go, stay) := (b.next (here s)).partition (fun x => pHasPort s (partOf c) x.1)
      (spread acc.1 go none none copy, acc.2 ++ stay.map (fun x => (lkPort, x.2.id, b.below (here s) x.1)))
    else match depart acc.1 (partOf c) copy with
      | (s1, some k) => (s1, acc.2 ++ [(k, corner r, railOf s b r)])
      | (s1, none) => (s1, acc.2)) (s, [])

/-- A request leaves its source, or reaches its target at once where that is this device: the state after, and the LINK faults at the
source (R381, R392, R394). An access to this device itself that is refused is an address fault (R169, R171). -/
def launchMsg (s : State) (c : Nat) (m : Msg) : Ex (State × List NotSent) :=
  if m.op == .multicastPut then
    match boxOf s m.mcg.toNat with
    | none => .ok (s, [(lkAddress, 0, [])])
    | some b => .ok (launchCopies s c b m)
  else if m.dst.toNat = devId s then do
    let (s1, r) ← atTarget s m
    needF s1 (!(r.op == .refusal && r.word3.toNat % 256 == lkAddress)) (fAddr (gAddr s m.addr.toNat))
    let s2 ← onResponse s1 r
    .ok (s2, [])
  else
    let d := m.dst.toNat
    if !assigned s then .ok (s, [(lkPort, d, [d])])
    else match depart s (partOf c) (injected s m) with
      | (s1, k) => .ok (s1, k.toList.map (fun k => (k, d, [d])))

/-- The devices that answer a message: its target, or every member of a multicast (R385, R392). -/
def answersOf (s : State) (m : Msg) : List Nat :=
  if m.op == .multicastPut then
    match boxOf s m.mcg.toNat with
    | some b => b.members.filter (fun d => d != devId s)
    | none => []
  else [m.dst.toNat]

/-- LINK faults at the source of a message, in turn: nothing of it is awaited from the devices that it did not leave for. -/
def unsent (s : State) (l : LkOp) (o : OutMsg) (epoch : BitVec 4) (ks : List NotSent) : State :=
  let s1 := ks.foldl (fun s k => linkFault s l k.1 o.tag epoch k.2.1) s
  answered s1 o (ks.flatMap (·.2.2)) false

/-- A fault of a link operation's access to this device's memory, in its thread; what a torn-down operation has still to send is dropped. -/
def opFault (s : State) (l : LkOp) (f : PFault) : State :=
  if l.quiet then setLkOp s { l with left := 0, failed := true } else threadFault s l.t f

/-- An operation sends its next message; the flag says whether it went, or can no more. -/
def sendNext (s : State) (l : LkOp) : State × Bool :=
  let c := l.t.ctx.val
  match freeTagOf s c with
  | none => (s, false)
  | some tag =>
    let n := nextLen l
    match sourceData s l n with
    | .error (.no _) => (s, false)
    | .error (.fault s1 f) => (opFault s1 l f, true)
    | .ok (s1, data) =>
      let m := { nextMsg s1 l n data with tag := tag, epoch := epochOf s1 c tag }
      let o : OutMsg := { ctx := l.t.ctx, tag := tag, op := l.op, lk := l.id, loc := l.loc, len := n, hidx := l.hidx, dst := m.dst,
                          goal := BitVec.ofNat 64 (m.dst.toNat * 2 ^ 48 + l.remote),
                          edge := (strokeNow s1).toNat, due := answersOf s1 m, free := l.quiet, quarter := l.quarter }
      let l1 := { l with loc := l.loc + n, remote := l.remote + n, left := l.left - n, out := l.out + 1,
                         sig := if n = l.left then none else l.sig }
      let s2 : State := { s1 with lkops := s1.lkops.map (fun x => if x.id == l.id then l1 else x)
                                  outMsgs := s1.outMsgs ++ [o] }
      match launchMsg s2 c m with
      | .error (.no _) => (s, false)
      | .error (.fault s3 f) => (finished (if l.quiet then s3 else threadFault s3 l.t f) o false, true)
      | .ok (s3, []) => (if o.due.isEmpty then finished s3 o true else s3, true)
      | .ok (s3, ks) => (unsent s3 l1 o m.epoch ks, true)

/-- The next part of a tile goes to a member device, with a credit of the sending context (R393, DEDUCED, log 52). -/
def sendPart (s : State) (x : TileOut) (tag : BitVec 12) : Ex State := do
  let parts := tileParts x.data.length
  let data := (x.data.drop (partBytes * x.part)).take partBytes
  let m : Msg := { dst := BitVec.ofNat 16 x.dst, src := BitVec.ofNat 16 (devId s), op := .draftTile, ctx := x.ctx, tag := tag,
                   epoch := epochOf s x.ctx tag, cls := BitVec.ofNat 2 (ctxCls s x.ctx), last := x.last,
                   mcg := BitVec.ofNat 8 x.tag, addr := tileAddr x.tile x.part parts, len := BitVec.ofNat 14 (data.length - 1),
                   data := data }
  let o : OutMsg := { ctx := x.ctx, tag := tag, op := .draftTile, lk := x.quarter, loc := x.tile, hidx := x.tag, dst := m.dst,
                      edge := (strokeNow s).toNat, due := [x.dst] }
  let rest := if x.part + 1 < parts then { x with part := x.part + 1 } :: s.tilesOut.tail else s.tilesOut.tail
  let (s1, ks) ← launchMsg { s with outMsgs := s.outMsgs ++ [o], tilesOut := rest } x.ctx m
  .ok (if ks.isEmpty then s1 else unsent s1 (draftOp s1 o) o m.epoch ks)

/-- Tiles of a context leave for member devices in order, as long as credits are free; `fuel` bounds the parts. -/
def pumpTiles (s : State) (c : Nat) : Nat → State
  | 0 => s
  | fuel + 1 =>
    match s.tilesOut.find? (fun x => x.ctx.val == c), freeTagOf s c with
    | some x, some tag =>
      if freeCredit s c then
        let front : State := { s with tilesOut := x :: s.tilesOut.erase x }
        match sendPart front x tag with
        | .ok s1 => pumpTiles s1 c fuel
        | .error _ => s
      else s
    | _, _ => s

/-- Operations of a context send messages in issue order as long as credits are free (R388); `fuel` bounds their number. -/
def pump (s : State) (c : Nat) : Nat → State
  | 0 => s
  | fuel + 1 =>
    match s.lkops.find? (fun l => l.t.ctx.val == c && maySend s l) with
    | none => s
    | some l =>
      let (s1, went) := sendNext s l
      if went then pump s1 c fuel else s1

/-- Messages that a context's operations have still to send, at most. -/
def pumpFuel (s : State) (c : Nat) : Nat :=
  ((s.lkops.filter (fun l => l.t.ctx.val == c)).map (fun l => l.left / 8192 + 2)).sum

/-- Parts of tiles that a context has still to send, at most. -/
def tileFuel (s : State) (c : Nat) : Nat :=
  ((s.tilesOut.filter (fun x => x.ctx.val == c)).map (fun x => tileParts x.data.length)).sum

/-- A context's operations go on, and after them its tiles. -/
def pumpCtx (s : State) (c : Nat) : State :=
  let s1 := pump s c (pumpFuel s c)
  pumpTiles s1 c (tileFuel s1 c)

/-- The operations and tiles of every context go on, after something that they may have waited for (R181, R183, R187). -/
def pumpAll (s : State) : State :=
  ((s.lkops.map (·.t.ctx.val) ++ s.tilesOut.map (·.ctx.val)).eraseDups).foldl pumpCtx s

/-! ## The link instructions (R299) -/

/-- An access of a link operation to this device itself is a local access (R171): outside the context's rights it is an address fault,
and so is a reduction outside HBM and the unified range, off its element's alignment, or a KF add that a window does not take (R169, R188,
R191). -/
def localTarget (s : State) (t : Tid) (l : LkOp) : Ex Unit :=
  let fits : Bool := match l.op with
    | .put => okRange s t.ctx l.remote l.left
    | .getRequest => okRead s t.ctx l.remote l.left
    | .add =>
      let op := l.proto.redop.toNat
      okRange s t.ctx l.remote l.left && l.remote % redBytes op == 0 && (pieces l.remote l.left).all (fun x => match placeOf s x.1 with
        | .hbm _ | .unified _ => true
        | _ => false) &&
      (!redKfAdd op || ((List.range 16).filterMap (rwinOf s (partOf t.ctx))).all (fun w =>
        !overlaps w.base (256 * w.size) l.remote l.left || w.takes s (if l.proto.ranked then some l.proto.rank.toNat else none)))
    | _ => true
  needF s (l.proto.dst.toNat != devId s || fits) (fAddr (gAddr s l.remote))

/-- A link operation is issued: it needs a free credit (R304), makes the thread's open splices not replayable (R71), and
sends what credits allow. -/
def issueLk (s : State) (t : Tid) (th : Thread) (l : LkOp) : Ex State := do
  localTarget s t l
  can (freeCredit s t.ctx) "the context has no free link credit (R304)"
  let s1 := stepOn (notReplayable s t) t th
  .ok (pumpCtx { s1 with lkops := s1.lkops ++ [l] } t.ctx)

/-- A local range of a handle: inside its extent, on this device, and one that the context may access (R299). -/
def localRange (s : State) (t : Tid) (h : Handle) (off n : Nat) (reads : Bool) : Ex Nat := do
  needF s (h.dev == devId s && decide (off + n ≤ h.hi - h.lo) && (if reads then okRead s t.ctx (h.loc + off) n else okRange s t.ctx (h.loc + off) n)) (fAddr (h.base))
  .ok (h.loc + off)

/-- Bytes of a link instruction: 1 to 2^30 (R299). -/
def lkCount (s : State) (w : Word) : Ex Nat := do
  needF s (decide (1 ≤ w.toNat) && decide (w.toNat ≤ 2 ^ 30)) fOperand
  .ok w.toNat

/-- A link operation with the fields that all share. -/
def newLk (s : State) (t : Tid) (g : BitVec 16) (op : MsgOp) : LkOp :=
  { id := s.seq, t := t, seq := s.seq, group := g.toNat, op := op, proto := { cls := BitVec.ofNat 2 (ctxCls s t.ctx) },
    quarter := quarterOf s t }

/-- lk.put (R299, R301). -/
def execLkPut (t : Tid) (f : Fields) (s : State) : Res :=
  runThread s t fun s th => do
    let sg := bit f.variant 0
    dec s (formOk f 1 0 [.handle, .scalar, .scalar, .scalar, .imm, if sg then .scalar else .unused])
    dec s (decide (f.sl4.toNat < 16))
    let off ← src th f.sl1
    let g ← src th f.sl2
    let w ← src th f.sl3
    let sw ← if sg then src th f.sl5 else .ok 0
    let h ← getH s t.ctx f.sl0.toNat
    let n ← lkCount s w
    let a ← localRange s t h off.toNat n true
    let l := newLk s t f.sl4 .put
    issueLk s t th { l with proto := { l.proto with dst := BitVec.ofNat 16 (fld g 63 48) }, loc := a, hidx := h.idx,
                            remote := localOf g, left := n, sig := if sg then some sw else none }

/-- lk.get (R299, R300): its destination is written through the handle. -/
def execLkGet (t : Tid) (f : Fields) (s : State) : Res :=
  runThread s t fun s th => do
    dec s (formOk f 0 0 [.handle, .scalar, .scalar, .scalar, .imm])
    dec s (decide (f.sl4.toNat < 16))
    let off ← src th f.sl1
    let g ← src th f.sl2
    let w ← src th f.sl3
    let h ← getH s t.ctx f.sl0.toNat
    let n ← lkCount s w
    let a ← localRange s t h off.toNat n false
    mayWrite s t.ctx h.idx
    let l := newLk s t f.sl4 .getRequest
    issueLk (noteHandleWrite s t h.idx) t th
      { l with proto := { l.proto with dst := BitVec.ofNat 16 (fld g 63 48) }, loc := a, hidx := h.idx, remote := localOf g,
               left := n }

/-- lk.add (R299): a count that is a multiple of the element size. -/
def execLkAdd (t : Tid) (f : Fields) (s : State) : Res :=
  runThread s t fun s th => do
    let op := fld f.variant 2 0
    let ranked := bit f.variant 3
    dec s (formOk f 0xF 0 [.handle, .scalar, .scalar, .scalar, .imm, if ranked then .scalar else .unused])
    dec s (decide (f.sl4.toNat < 16))
    let off ← src th f.sl1
    let g ← src th f.sl2
    let w ← src th f.sl3
    let r ← if ranked then src th f.sl5 else .ok 0
    let h ← getH s t.ctx f.sl0.toNat
    let n ← lkCount s w
    needF s (n % redBytes op == 0) fOperand
    let a ← localRange s t h off.toNat n true
    let l := newLk s t f.sl4 .add
    issueLk s t th { l with proto := { l.proto with dst := BitVec.ofNat 16 (fld g 63 48), redop := BitVec.ofNat 3 op,
                                                    ranked := ranked, rank := BitVec.ofNat 6 (fld r 5 0) },
                            loc := a, hidx := h.idx, remote := localOf g, left := n }

/-- lk.sig (R299, R301): one message; SH travels in REDOP (DEDUCED, log 49). -/
def execLkSig (t : Tid) (f : Fields) (s : State) : Res :=
  runThread s t fun s th => do
    dec s (formOk f 1 0 [.scalar, .imm])
    dec s (decide (f.sl1.toNat < 16))
    let w ← src th f.sl0
    let l := newLk s t f.sl1 .signal
    issueLk s t th { l with proto := { l.proto with dst := BitVec.ofNat 16 (fld w 15 0), word3 := w,
                                                    redop := if bit f.variant 0 then 1 else 0 }, left := 1 }

/-- lk.mcast (R299, R392): an invalid group is a LINK fault at the source. -/
def execLkMcast (t : Tid) (f : Fields) (s : State) : Res :=
  runThread s t fun s th => do
    dec s (formOk f 0 0 [.handle, .scalar, .group 2, .scalar, .imm])
    dec s (decide (f.sl4.toNat < 16))
    let off ← src th f.sl1
    let g ← srcG th f.sl2 0
    let a' ← srcG th f.sl2 1
    let w ← src th f.sl3
    needF s (decide (g.toNat < 256)) fOperand
    let h ← getH s t.ctx f.sl0.toNat
    let n ← lkCount s w
    let a ← localRange s t h off.toNat n true
    let l := newLk s t f.sl4 .multicastPut
    issueLk s t th { l with proto := { l.proto with mcg := BitVec.ofNat 8 g.toNat }, loc := a, hidx := h.idx,
                            remote := localOf a', left := n }

/-- Whether every link instruction of a thread issued before number `seq` in the groups of a mask is complete (R300). -/
def groupsDone (s : State) (t : Tid) (m : BitVec 16) (seq : Nat) : Bool :=
  s.lkops.all (fun l => l.t != t || l.quiet || decide (seq ≤ l.seq) || !bit m l.group)

/-- lk.wait (R299, R300). -/
def execLkWait (t : Tid) (f : Fields) (s : State) : Res :=
  runThread s t fun s th => do
    dec s (formOk f 0 0 [.imm])
    dec s (f.sl0 != 0)
    let s1 := notReplayable s t
    if groupsDone s1 t f.sl0 s.seq then .ok (stepOn s1 t th)
    else .ok (setT { s1 with seq := s.seq + 1 } t { th with block := .links f.sl0 s.seq })

/-- The link instructions that a pending lk.wait covers are complete (R300). -/
def execLkWaitDone (t : Tid) (s : State) : Res :=
  runPlain do
    let th ← the (getT? s t) "the thread does not exist"
    match th.block with
    | .links m seq =>
      can (powered s && !s.failed && present s t) "the thread is saved"
      can (groupsDone s t m seq) "a link instruction is not complete (R300)"
      .ok (stepOn s t { th with block := .none })
    | _ => .error (.no "the thread waits at no lk.wait")

/-- A message has had no response for TMO strokes (R390): its tag is free, it is counted, and its context faults. -/
def execResponseTimeout (c : CtxN) (tag : BitVec 12) (s : State) : Res :=
  runPlain do
    can (linksUp s) "the links do not work"
    let o ← the (outMsg? s c tag) "the tag is not taken"
    can (decide (fld (actR s .lnkCfg) 15 8 ≤ (strokeNow s - BitVec.ofNat 64 o.edge).toNat)) "TMO strokes have not passed (R390)"
    let e := epochOf s c tag
    let l := if o.op == .draftTile || o.op == .tileRequest then draftOp s o else (lkop? s o.lk).getD (draftOp s o)
    let dev := o.due.headD o.dst.toNat
    .ok (pumpCtx (finished (linkFault (bumpC s c kLkTmo 1) l lkTimeout tag e dev) o false) c)

/-- A message in transit goes on, or is discarded as unreachable (R378, R381); its buffer is free as its flits leave. -/
def execMessageForward (m : Msg) (s : State) : Res :=
  runPlain do
    can (linksUp s) "the links do not work"
    can (m.dst.toNat != devId s) "the message is for this device"
    let (s1, came, hold) ← holdMsg s m
    .ok (closeHeld (sendOn s1 came hold (legStep s1 m 3)) hold)

end Sys2Proof.Machine
end

