-- ==== Sys2Proof/Machine/Draft.lean ====
section
/-! DEFINITION. Draft instructions and the movement of tiles (09, 12): open forms, waits, tile arrival, drain, gather
delivery, migration, stalls, plans. Multicast stands in Links. -/

namespace Sys2Proof.Machine

/-! ## Open forms (R194, R277-R279) -/

/-- A format code that exists; a reserved one has no conversion (R38). -/
def needFmt (s : State) (c : Nat) : Ex Fmt := theF s (fmtOf c) fFormat

/-- The walk words' mode, element format and repeat, after the reserved-bit check (R279). -/
def walkMode (s : State) (w1 : Word) : Ex (Nat × Nat × Nat) := do
  needF s (fld w1 63 40 == 0 && fld w1 31 8 == 0 && decide (fld w1 2 0 < 4)) fStream
  .ok (fld w1 2 0, fld w1 7 4, fld w1 39 32 + 1)

/-- A tile walk after the checks of R279. -/
def tileWalk (s : State) (h : Handle) (w0 w1 : Word) (rep fmt size : Nat) : Ex Walk := do
  let r0 := fld w0 15 0
  let c0 := fld w0 31 16
  let nr := fld w0 47 32 + 1
  let nc := fld w0 63 48 + 1
  needF s (fmt == h.fmt) fFormat
  needF s (decide (256 * (r0 + nr - 1) < h.rows) && decide (256 * (c0 + nc - 1) < h.cols)) fStream
  needF s (decide (footprint fmt ≤ size)) fStream
  .ok (.tiles r0 c0 nr nc (bit w1 3) rep)

/-- A rows walk after the checks of R279. -/
def rowsWalk (s : State) (h : Handle) (w0 : Word) (rep fmt size : Nat) : Ex Walk := do
  let r0 := fld w0 31 0
  let n := fld w0 63 32 + 1
  needF s (decide (r0 + n ≤ h.rows)) fStream
  needF s (decide (rowBytes64 (bitsOf fmt) h.cols ≤ size)) fStream
  .ok (.rows r0 n rep)

/-- The scale handle of a far end where one is named (R40, R489). -/
def scaleOf? (s : State) (c : Nat) (h : Handle) : Ex (Option Handle) :=
  if h.scv && (h.fmt == 0 || h.fmt == 1 || h.fmt == 2) then do
    let k ← getScale s c h
    .ok (some k)
  else .ok none

/-- The slub handle that a conversion of a KF4 source reads (R29). -/
def slubOf? (s : State) (c : Nat) (h : Handle) (fmt : Nat) : Ex (Option Handle) :=
  if h.fmt == 0 && h.slv && fmt != 0 then do
    let k ← getSlub s c h
    .ok (some k)
  else .ok none

/-- The conversion of a stream is one that R38 lists, and none into a block-scaled destination (R40, R199). -/
def convOk (s : State) (store : Bool) (h : Handle) (fmt : Fmt) : Ex Unit := do
  let far ← needFmt s h.fmt
  let src := if store then fmt else far
  let dst := if store then far else fmt
  needF s (convertible src dst) fFormat
  needF s (!(store && src != dst && (dst == .kf4 || dst == .kf8) && h.scv)) fFormat

/-- `draft.ld` and `draft.st` in their open form (R277-R279, R199). -/
def openLdSt (t : Tid) (f : Fields) (s : State) (store : Bool) : Res :=
  runThread s t fun s th => do
    dec s (formOk f 0 0 [.stream, .handle, .scalar, .group 2])
    let w ← src th f.sl2
    let w0 ← srcG th f.sl3 0
    let w1 ← srcG th f.sl3 1
    let sid := f.sl0.toNat
    freshSid s t sid
    let r ← readRegion s t w true false (!store)
    let (mode, fc, rep) ← walkMode s w1
    let x0 := { newStream t th sid (if store then .store else .load) r s.seq with fmt := BitVec.ofNat 4 fc }
    let x : Stream ←
      if mode = 2 then do
        let _ ← needFmt s fc
        .ok { x0 with walk := .driven }
      else if mode = 3 then do
        let _ ← needFmt s fc
        .ok { x0 with walk := .localS, kind := .load }
      else do
        let h ← getH s t.ctx f.sl1.toNat
        let fmt ← needFmt s fc
        if store then mayWrite s t.ctx h.idx
        let wk ← if mode = 0 then tileWalk s h w0 w1 rep fc r.size else do
          convOk s store h fmt
          rowsWalk s h w0 rep fc r.size
        let sc ← scaleOf? s t.ctx h
        let sl ← if store then .ok none else slubOf? s t.ctx h fc
        needF s ((h :: (sc.toList ++ sl.toList)).all (fillerOk s t)) fStream
        .ok { x0 with h := h, walk := wk, scaleH := sc, slubH := sl }
    let s1 := if store && mode < 2 then noteHandleWrite s t f.sl1.toNat else s
    .ok (stepOn { s1 with streams := s1.streams ++ [x] } t th)

/-- draft.ld (R277). -/
def execDraftLd (t : Tid) (f : Fields) (s : State) : Res := openLdSt t f s false

/-- draft.st (R277). -/
def execDraftSt (t : Tid) (f : Fields) (s : State) : Res := openLdSt t f s true

/-- draft.gather (R200, R201, R277). -/
def execDraftGather (t : Tid) (f : Fields) (s : State) : Res :=
  runThread s t fun s th => do
    dec s (formOk f 0 0 [.stream, .handle, .scalar, .handle, .scalar, .scalar])
    let w ← src th f.sl2
    let lw ← src th f.sl4
    let hw ← src th f.sl5
    freshSid s t f.sl0.toNat
    let r ← readRegion s t w false true true
    let h ← getH s t.ctx f.sl1.toNat
    needF s (h.fmt == 2) fFormat
    let (g, d) ← kvDims s h
    let l ← getH s t.ctx f.sl3.toNat
    needF s (l.fmt == 9) fFormat
    let head := fld hw 2 0
    needF s (decide (head < g)) fOperand
    needF s (decide (528 * d ≤ r.size)) fStream
    let r0 := fld lw 31 0
    let n := fld lw 47 32 + 1
    needF s (decide (r0 + n ≤ l.rows)) fStream
    needF s (fillerOk s t h && fillerOk s t l && fillerRange s t h.pmap (8 * h.pmapE)) fStream
    let x := { newStream t th f.sl0.toNat .gather r s.seq with
                 fmt := 2, h := h, scaleH := some l, walk := .lists r0 n, tag := head }
    .ok (stepOn { s with streams := s.streams ++ [x] } t th)

/-- Spans at local addresses that a handle leads to: a page map or a page (R127). -/
def localPart (s : State) (h : Handle) (a : Nat) (ss : List (Nat × Nat)) : Part := ⟨{ idx := h.idx, w0 := gAddr s a }, ss⟩

/-- The entry of a page in a page map. -/
def mapPart (s : State) (h : Handle) (p : Nat) : Part := localPart s h h.pmap [(h.pmap + 8 * p, 8)]

/-- Whether a page's bytes lie in HBM or in the unified range, and do not cross the end of it (R128). -/
def pageBaseOk (s : State) (b n : Nat) : Bool :=
  b % 256 == 0 && (match placeOf s b, placeOf s (b + n - 1) with
    | .hbm q, .hbm r => q == r
    | .unified _, .unified _ => true
    | _, _ => false)

/-- A page-map entry after the checks of R127 and R128: base and fill count. (DEDUCED, log 68.) -/
def pageEntry (s : State) (c : Nat) (h : Handle) (g d p : Nat) : Ex (State × Nat × Nat) := do
  needF s (decide (p < h.pmapE)) (fHandle h.idx)
  let a := h.pmap + 8 * p
  needF s (okRead s c a 8) (fAddr (gAddr s a))
  needF s (!ueIn s a 8) (fMemUe (gAddr s a))
  let s1 ← askOutside s c a 8
  let w : Word := BitVec.ofNat 64 (rdN s1 a 8)
  needF s1 (fld w 63 57 == 0 && decide (fld w 56 48 ≤ 256)) (fHandle h.idx)
  let b := fld w 47 0
  needF s1 (pageBaseOk s1 b (g * 528 * d)) (fAddr (gAddr s1 b))
  .ok (s1, b, fld w 56 48)

/-! ## draft.wait (R280) -/

/-- Whether a gather stream has delivered every entry of its lists. -/
def gatherDone (x : Stream) : Bool := decide (listsOf x ≤ x.gList)

/-- Whether a stream has moved every tile of its walk (R280, CLOSE). -/
def walkDone (s : State) (x : Stream) : Bool :=
  match x.walk with
  | .lists _ _ => gatherDone x
  | .localS => s.ops.all (fun o => o.t != x.t || o.claims.all (fun c => c.sid != x.sid))
  | _ => match x.total with
    | some n => decide (n ≤ arrived x)
    | none => false

/-- Whether the condition of a pending `draft.wait` holds. (DEDUCED, log 32.) -/
def waitHolds (s : State) (t : Tid) (w : DWait) : Bool :=
  match w with
  | .tile sid n => (stream? s t sid).any (fun x => decide (n < arrived x))
  | .free sid n => (stream? s t sid).any (fun x => if x.kind == .gather then x.gents.any (fun e => !e.freed) else x.has n)
  | .close sid => (stream? s t sid).any (fun x => walkDone s x)

/-- The oldest delivered entry of a gather stream that is not freed is freed. -/
def freeFirst : List GEnt → List GEnt
  | [] => []
  | e :: r => if e.freed then e :: freeFirst r else { e with freed := true } :: r

/-- What a wait whose condition holds does to its stream (R280). -/
def waitEffect (s : State) (t : Tid) (w : DWait) : State :=
  match w with
  | .tile _ _ => s
  | .free sid n =>
    match stream? s t sid with
    | some x => setStream s (if x.kind == .gather then { x with gents := freeFirst x.gents } else x.release n)
    | none => s
  | .close sid =>
    { s with streams := s.streams.filter (fun x => !(x.t == t && x.sid == sid))
             groups := s.groups.filterMap (fun g =>
               leaveGroup s (g.members.filter (fun m => !(m.t == t && m.sid == sid))) g) }

/-- A wait that holds takes effect at once, or blocks the thread (R280). -/
def doWait (s : State) (t : Tid) (th : Thread) (w : DWait) : State :=
  if waitHolds s t w then stepOn (waitEffect s t w) t { th with block := .none }
  else setT { s with seq := s.seq + 1 } t { th with block := .draft w s.seq }

/-- draft.wait (R197, R280). -/
def execDraftWait (t : Tid) (f : Fields) (s : State) : Res :=
  runThread s t fun s th => do
    dec s (formOk f 0 0 [.stream, .scalar])
    let v ← src th f.sl1
    let x ← needStream s t f.sl0.toNat
    let n := fld v 31 0
    needF s (match x.walk with
      | .localS | .lists _ _ | .driven | .unbound => true
      | _ => match x.total with
        | some k => decide (n < k)
        | none => true) fStream
    needF s (match x.walk with
      | .driven => match x.total with
        | some k => decide (n < k)
        | none => true
      | _ => true) fStream
    .ok (doWait s t th (.tile x.sid n))

/-- Open splices of the thread that had the stream open at their start become not replayable when it closes or, for a
local stream, when a tile filled before is freed (R71). -/
def noteStreamUse (s : State) (t : Tid) (sid tile : Nat) (closing : Bool) : State :=
  { s with splices := s.splices.map (fun x =>
      if x.opener == t && x.st == .opened && x.replay.streams.any (fun y => y.sid == sid &&
          (closing || (match y.walk with
            | .localS => decide (tile < y.filled)
            | _ => false)))
      then { x with replayable := false } else x) }

/-- draft.wait.free (R280). -/
def execDraftWaitFree (t : Tid) (f : Fields) (s : State) : Res :=
  runThread s t fun s th => do
    dec s (formOk { f with variant := f.variant &&& 0xFD } 0 0 [.stream, .unused])
    let x ← needStream s t f.sl0.toNat
    needF s (x.kind != .store) fStream
    let n := x.cons
    let s1 := noteStreamUse (setStream s { x with cons := n + 1, kept := x.kept - 1 }) t x.sid n false
    .ok (doWait s1 t th (.free x.sid n))

/-- draft.wait.close (R280). -/
def execDraftWaitClose (t : Tid) (f : Fields) (s : State) : Res :=
  runThread s t fun s th => do
    dec s (formOk { f with variant := f.variant &&& 0xFE } 0 0 [.stream, .unused])
    let x ← needStream s t f.sl0.toNat
    .ok (doWait (noteStreamUse s t x.sid 0 true) t th (.close x.sid))

/-- The condition of a pending draft.wait holds (R197, R280). -/
def execDraftWaitDone (t : Tid) (s : State) : Res :=
  runPlain do
    let th ← the (getT? s t) "the thread does not exist"
    match th.block with
    | .draft w _ =>
      can (powered s && !s.failed && present s t) "the thread is saved"
      can (waitHolds s t w) "the condition does not hold (R280)"
      .ok (stepOn (waitEffect s t w) t { th with block := .none })
    | _ => .error (.no "the thread waits at no draft.wait")

/-! ## Tile movement (R196, R199) -/

/-- A stream of a running context whose engines can move data. -/
def movable (s : State) (t : Tid) (sid : Nat) : Ex Stream := do
  can (powered s && !s.failed && working s t) "the context does not run"
  let x ← the (stream? s t sid) "the stream is not open"
  can x.miss.isNone "the stream waits for a page (R181)"
  can (regionIdle s x) "an instruction that uses the region as plain scratch is not complete (R195)"
  .ok x

/-- Whether a far end lies outside the device's own memory: on another device, or in the host window. -/
def farOutside (h : Handle) : Bool := decide (hostBase ≤ h.loc)

/-- What a transfer reaches may be reached: the context may access each span (R168, R169), and a message to another device leaves
(R377, R394). -/
def partsOk (s : State) (c : Nat) (ps : List Part) (reads : Bool) : Ex Unit :=
  ps.forM (fun p =>
    if p.h.dev == devId s then
      match p.ss.find? (fun x => !(if reads then okRead s c x.1 x.2 else okRange s c x.1 x.2)) with
      | some x => .error (.fault s (fAddr (gAddr s x.1)))
      | none => .ok ()
    else
      mayDepart s c p.h.dev)

/-- The addresses on this device that a transfer's reads reach (R310). -/
def readReach (s : State) (c : Nat) (ps : List Part) : List (Nat × Nat) :=
  (ps.filter (fun p => !farOutside p.h)).flatMap (fun p => p.ss.flatMap (fun x => readSpans s c p.h.idx x.1 x.2))

/-- The addresses on this device that a transfer's writes reach, and those that they read first (R309). -/
def writeReach (s : State) (c : Nat) (ps : List Part) (w : Writer) : List (Nat × Nat) × List (Nat × Nat) :=
  (ps.filter (fun p => !farOutside p.h)).foldl (fun acc p => p.ss.foldl (fun acc x =>
    let r := writeSpans s c p.h.idx x.1 x.2 w
    (acc.1 ++ r.1, acc.2 ++ r.2)) acc) ([], [])

/-- No address lies in a stack whose controller issues nothing (R187). -/
def cool (s : State) (ss : List (Nat × Nat)) : Ex Unit :=
  can (ss.all (fun x => !waitsHot s x.1 x.2)) "a stack's controller issues nothing (R187)"

/-- A transfer reads parts: the checks that come first, and the page that must be brought in before it (R181). -/
def readReady (s : State) (c : Nat) (ps : List Part) : Ex (Option Nat) := do
  partsOk s c ps true
  let rs := readReach s c ps
  cool s rs
  .ok (missingPage s rs false)

/-- The same for writes. -/
def writeReady (s : State) (c : Nat) (ps : List Part) (w : Writer) : Ex (Option Nat) := do
  partsOk s c ps false
  let (ws, rs) := writeReach s c ps w
  cool s (ws ++ rs)
  .ok ((missingPage s ws true).or (missingPage s rs false))

/-- A transfer on this device meets no uncorrectable word (R452). -/
def partsClean (s : State) (c : Nat) (ps : List Part) : Ex Unit :=
  (ps.filter (fun p => !farOutside p.h)).forM (fun p =>
    match p.ss.find? (fun x => ueV s c p.h.idx x.1 x.2) with
    | some x => .error (.fault s (fMemUe (gAddr s x.1)))
    | none => .ok ())

/-- The bytes of parts outside the device, from the one reply that answers for all of them; host reads are sent (R424). -/
def fromOutside (s : State) (c : Nat) (ps : List Part) (reply : FarReply) : Ex (State × Outside) :=
  let outs := (ps.filter (fun p => farOutside p.h)).map (fun p => (p.h, hull p.ss))
  match outs, reply with
  | [], _ => .ok (s, [])
  | _, .ok bs => do
    can (decide (bs.length = (outs.map (fun o => o.2.2)).sum)) "the data has the length of the tile's spans"
    let (_, got) := outs.foldl (fun (acc : List Byte × Outside) o =>
      (acc.1.drop o.2.2, acc.2 ++ [(o.1.idx, o.2.1, acc.1.take o.2.2)])) (bs, [])
    .ok (outs.foldl (fun s o => if o.1.dev == devId s then toHost s (.read (o.2.1 - hostBase) o.2.2 (hostId s c)) else s) s, got)
  | _, .bad => do
    let o ← the (outs.find? (fun o => o.1.dev == devId s)) "no part lies in the host window"
    .error (.fault s (fAddr (gAddr s o.2.1)))
  | _, .refused k => do
    let o ← the (outs.find? (fun o => o.1.dev != devId s)) "no part lies on another device"
    can (k != 0 && decide (k.toNat < lkPort)) "a target or the way to it refuses with a cause of R394"
    .error (.fault s (fLink k.toNat 0 0 0 o.1.dev))

/-- A stream's fill `n` is in its slot: the next tile follows. -/
def Stream.filledOne (x : Stream) (n : Nat) : Stream :=
  { x.put n with filled := n + 1, moved := true, stall := 0, begun := false }

/-- A load stream's next tile fills its free slot (R196), or meets a page that is not resident (R181). -/
def arriveTile (s : State) (t : Tid) (sid : Nat) (reply : FarReply) : Ex State := do
  let x ← movable s t sid
  can (x.kind == .load || (x.kind == .member && x.dropped && x.home.isNone)) "not a load stream"
  let n := x.filled
  let g ← the (x.geo n) "the walk has no further tile"
  can (x.free n) "the slot is not free (R196)"
  let c := t.ctx.val
  let ps := loadParts x g
  match ← readReady s c ps with
  | some pg => .ok (missPage s x pg)
  | none =>
    let (s1, outs) ← fromOutside s c ps reply
    partsClean s1 c ps
    let rdf := farBytes s c outs
    slubsOk s1 rdf x g
    let rs := readReach s c ps
    let (data, k) := loadBytes rdf x g
    let s2 ← account (accessPages (creelFetch s1 x rs) c rs) c k
    .ok (poolSettle (setStream (slotWrite s2 x (x.slotOff (x.slotNo n)) data) ((x.filledOne n).withRegion rdf x g n)))

/-- Word that opened a stream, for the record of a fault it meets (R43). -/
def streamPc (s : State) (t : Tid) (sid : Nat) : Half := match stream? s t sid with
  | some x => x.pc
  | none => 0

/-- A draft engine fills the next free slot of a load stream (R196). -/
def execTileArrive (t : Tid) (sid : BitVec 5) (reply : FarReply) (s : State) : Res :=
  runEvent (arriveTile s t sid.toNat reply) t (streamPc s t sid.toNat)

/-- A stored code, converted to the destination (R199), with what is counted: a poison result in a floating format counts as stored
(R41), but not in a zero block (R24). -/
def storeCode (src dst : Fmt) (code : Nat) (scale : Option Nat) : Nat × Cnt :=
  let r := if src = dst then (src.copy code, {}) else convWrite dst (convValue src code none none)
  let poison := (dst == .kf8 || dst == .kf16 || dst == .kf32) && (dst.value r.1).isPoison && !(scale.any (fun k => k / 4 == 0))
  (r.1, { r.2 with st := if poison then 1 else 0 })

/-- An element of a filled slot with its place in the far end: row, column, code, the code of its block's scale. -/
structure SlotElem where
  row : Nat
  col : Nat
  code : Nat
  scale : Option Nat := none
  deriving DecidableEq, Repr

/-- The elements of a filled slot (R193, R279). -/
def slotElems (s : State) (x : Stream) (n : Nat) (g : Geo) : List SlotElem :=
  let m := slotMem s x
  let base := x.slotOff (x.slotNo n)
  let rdb (a k : Nat) : List Byte := memRead m a k
  match g with
  | .tile h isB r c =>
    let rows := min 256 (h.rows - 256 * r)
    let cols := min 256 (h.cols - 256 * c)
    (List.range rows).flatMap (fun i => (List.range cols).map (fun j =>
      let p := if isB then (j, i) else (i, j)
      ⟨256 * r + i, 256 * c + j, elemOf rdb base h.ebits (256 * p.1 + p.2),
       if scaledFmt h.fmt && (geoScale x g).isSome then some (memByte m (base + 8192 * h.ebits + 8 * p.1 + p.2 / 32)).toNat else none⟩))
  | .rows h r k =>
    let bits := bitsOf x.fmt.toNat
    let rows := match x.short.find? (fun y => y.1 == n) with
      | some y => min k y.2
      | none => k
    (List.range rows).flatMap (fun i => (List.range h.cols).map (fun j =>
      ⟨r + i, j, elemOf rdb (base + i * rowBytes64 bits h.cols) bits j, none⟩))
  | .page _ _ _ _ => []

/-- The scales of a filled tile with the elements that head their blocks: row, column, code (R193). -/
def slotScales (s : State) (x : Stream) (n : Nat) (g : Geo) : List (Nat × Nat × Nat) :=
  match g with
  | .tile h isB r c =>
    let m := slotMem s x
    let base := x.slotOff (x.slotNo n) + 8192 * h.ebits
    (List.range 256).flatMap (fun i => (List.range 8).filterMap (fun b =>
      let p := if isB then (256 * r + 32 * b, 256 * c + i) else (256 * r + i, 256 * c + 32 * b)
      if p.1 < h.rows ∧ p.2 < h.cols then some (p.1, p.2, (memByte m (base + 8 * i + b)).toNat) else none))
  | _ => []

/-- Whether a row ends with a pad nibble: an odd row of 4-bit elements that starts at a byte (R25). -/
def padded (h : Handle) (r : Nat) : Bool :=
  h.ebits == 4 && h.cols % 2 == 1 && h.stride (h.rank - 1) == 1 && h.off (h.ix r 0) % 2 == 0

/-- The place of a row's pad nibble, in 4-bit units. -/
def padAt (h : Handle) (r : Nat) : Nat := (h.nibbles (h.ix r (h.cols - 1))).1 + 1

/-- The pad nibble after a row is written as 0 (R25). -/
def padRow (s : State) (c : Nat) (h : Handle) (w : Writer) (r : Nat) : State :=
  let a := padAt h r / 2
  let b := rdN s (writerView s c h.idx a w) 1
  writeV s c h.idx a [BitVec.ofNat 8 (b % 16)] w

/-- Rows that the fill of a slot covered. -/
def Stream.rowsOf (x : Stream) (n : Nat) : Nat := match x.short.find? (fun y => y.1 == n) with
  | some y => y.2
  | none => 256

/-- The bytes of a page part that a slot's tile gives (R124, R125): byte offset in the subpage, and bytes. -/
def pageBytesOf (s : State) (x : Stream) (n d : Nat) (v : Bool) : List (Nat × List Byte) :=
  let m := slotMem s x
  let b := x.slotOff (x.slotNo n)
  let rows := x.rowsOf n
  let code (i k : Nat) : Byte := memByte m (b + 256 * i + k)
  let sc (i k : Nat) : Byte := memByte m (b + 65536 + 8 * i + k)
  if v then
    (List.range rows).map (fun j => (256 * d + j * d, (List.range d).map (fun i => code i j))) ++
    (List.range d).map (fun i => (520 * d + 8 * i, (List.range (ceilDiv rows 32)).map (sc i)))
  else
    (List.range rows).map (fun j => (j * d, (List.range d).map (code j))) ++
    (List.range rows).map (fun j => (512 * d + j * (d / 32), (List.range (d / 32)).map (sc j)))

/-- Poison codes among the tokens of a slot of page parts, those of zero blocks apart (R24, R41). -/
def pagePoison (s : State) (x : Stream) (n d : Nat) (v : Bool) : Nat :=
  let m := slotMem s x
  let b := x.slotOff (x.slotNo n)
  let rows := x.rowsOf n
  let (ni, nk) := if v then (d, rows) else (rows, d)
  ((List.range ni).map (fun i => ((List.range nk).filter (fun k =>
    memByte m (b + 256 * i + k) == 0x80 && decide ((memByte m (b + 65536 + 8 * i + k / 32)).toNat / 4 ≠ 0))).length)).sum

/-- A stream whose fill `n` has drained: its slot is free. -/
def Stream.drainedOne (x : Stream) (n : Nat) : Stream := { x.release n with drained := n + 1, moved := true, stall := 0 }

/-- A filled slot of page parts drains into its page (R125, R128). -/
def drainPage (s : State) (x : Stream) (n : Nat) (h : Handle) (v : Bool) (p hd : Nat) : Ex State := do
  let c := x.t.ctx.val
  let (g, d) ← kvDims s h
  match ← readReady s c [mapPart s h p] with
  | some pg => .ok (missPage s x pg)
  | none =>
    let (s0, base, _) ← pageEntry s c h g d p
    let lo := base + hd * 528 * d
    let ws := pageBytesOf s x n d v
    let ss := ws.map (fun w => (lo + w.1, w.2.length))
    let w : Writer := .tile x.t x.sid n
    match ← writeReady s0 c [localPart s h base (joinSpans ss)] w with
    | some pg => .ok (missPage s0 x pg)
    | none =>
      let s1 ← account s0 c { st := pagePoison s x n d v }
      let s2 := accessPages s1 c ((h.pmap + 8 * p, 8) :: ss)
      let s3 := ws.foldl (fun s y => writeV s c h.idx (lo + y.1) y.2 w) (coverBytes s2 c h.idx ss w)
      .ok (settle (setStream (mendBytes s3 c h.idx ss w) (x.drainedOne n)) c)

/-- What a drain writes through one handle: elements by index list with their codes, and the rows that end in a pad nibble. -/
structure FarWrite where
  h : Handle
  es : List (List Nat × Nat)
  pads : List Nat := []
  deriving DecidableEq, Repr

/-- The runs of bytes that a write touches (R25). -/
def FarWrite.part (f : FarWrite) : Part :=
  ⟨f.h, (joinSpans (f.es.map (fun e => f.h.nibbles e.1) ++ f.pads.map (fun r => (padAt f.h r, 1)))).map
    (fun x => (x.1 / 2, (x.1 + x.2 + 1) / 2 - x.1 / 2))⟩

/-- The elements of a filled slot as a drain writes them: row, column, code, what is counted. -/
def drainElems (s : State) (x : Stream) (n : Nat) (g : Geo) : List (Nat × Nat × Nat × Cnt) :=
  let src := (fmtOf x.fmt.toNat).getD .kf32
  let dst := (fmtOf g.h.fmt).getD .kf32
  (slotElems s x n g).map (fun e => (e.row, e.col, storeCode src dst e.code e.scale))

/-- What the drain of a filled slot writes: the elements, and the scales of a tile (R193). -/
def drainWrites (s : State) (x : Stream) (n : Nat) (g : Geo) (es : List (Nat × Nat × Nat × Cnt)) : List FarWrite :=
  let h := g.h
  { h := h, es := es.map (fun e => (h.ix e.1 e.2.1, e.2.2.1)),
    pads := ((es.map (·.1)).eraseDups).filter (padded h) } ::
  (match geoScale x g with
   | some k => [{ h := k, es := (slotScales s x n g).map (fun e => (scaleIx h k (h.ix e.1 e.2.1), e.2.2)) }]
   | none => [])

/-- Runs of 4-bit digits, ascending, from pieces of place, length and value. -/
def nibbleRuns (ps : List (Nat × Nat × Nat)) : List (Nat × List Nat) :=
  (ps.insertionSort (fun a b => a.1 ≤ b.1)).foldr (fun x acc =>
    let ds := (List.range x.2.1).map (fun i => x.2.2 / 16 ^ i % 16)
    match acc with
    | y :: r => if y.1 = x.1 + x.2.1 then (x.1, ds ++ y.2) :: r else (x.1, ds) :: acc
    | [] => [(x.1, ds)]) []

/-- A run of 4-bit digits leaves for a far end outside the device: whole bytes, and a half at either end (R25). -/
def runOut (s : State) (c : Nat) (r : Nat × List Nat) : State :=
  let odd := r.1 % 2
  let s1 := if odd = 1 then halfOut s c (r.1 / 2) true (r.2.headD 0) else s
  let body := r.2.drop odd
  let a := (r.1 + odd) / 2
  let bs := (List.range (body.length / 2)).map (fun i =>
    BitVec.ofNat 8 ((body[2 * i]?).getD 0 + (body[2 * i + 1]?).getD 0 * 16))
  let s2 := if bs.isEmpty then s1 else putA s1 c a bs
  if body.length % 2 = 1 then halfOut s2 c (a + bs.length) false (body.getLastD 0) else s2

/-- A write through a handle lands in memory or in a shadow, or leaves the device (R25, R309). -/
def putFar (s : State) (c : Nat) (w : Writer) (f : FarWrite) : State :=
  let h := f.h
  let ns := f.es.map (fun e => h.nibbles e.1)
  if farOutside h then
    (nibbleRuns ((f.es.map (fun e => ((h.nibbles e.1).1, (h.nibbles e.1).2, e.2))) ++ f.pads.map (fun r => (padAt h r, 1, 0)))).foldl
      (fun s r => runOut s c r) s
  else
    let all := ns ++ f.pads.map (fun r => (padAt h r, 1))
    let s1 := coverV s c h.idx all w
    mendV (f.pads.foldl (fun s r => padRow s c h w r) (f.es.foldl (fun s e => putElemV s c h w e.1 e.2) s1)) c h.idx all w

/-- A filled slot drains to its far end and is free (R196, R309). -/
def drainSlot (s : State) (t : Tid) (sid : Nat) : Ex State := do
  let x ← movable s t sid
  let n := x.drained
  can (x.kind == .store) "not a store stream"
  can (decide (n < x.filled) && x.has n) "no filled slot"
  slotClean s x n
  let g ← the (x.geo n) "the walk has no further tile"
  match g with
  | .page h v p hd => drainPage s x n h v p hd
  | _ =>
  let c := t.ctx.val
  let es := drainElems s x n g
  let fs := drainWrites s x n g es
  let w : Writer := .tile t sid n
  match ← writeReady s c (fs.map (·.part)) w with
  | some pg => .ok (missPage s x pg)
  | none =>
    let k := es.foldl (fun k e => k.add e.2.2.2) ({} : Cnt)
    let s1 ← account s c k
    let r := writeReach s c (fs.map (·.part)) w
    let s2 := fs.foldl (fun s f => putFar s c w f) (accessPages s1 c (r.1 ++ r.2))
    .ok (settle (setStream s2 (x.drainedOne n)) c)

/-- The word that the record of a drain's fault names: the one that bound page parts, else the stream's (R43, R128). -/
def drainPc (s : State) (t : Tid) (sid : Nat) : Half := match stream? s t sid with
  | some x =>
    match x.segs.find? (fun g => g.page != 0 && decide (g.first ≤ x.drained) && decide (x.drained < g.first + g.tiles.length)) with
    | some g => g.pc
    | none => x.pc
  | none => 0

/-- A filled store-stream slot has drained (R196). -/
def execSlotDrain (t : Tid) (sid : BitVec 5) (s : State) : Res :=
  runEvent (drainSlot s t sid.toNat) t (drainPc s t sid.toNat)

/-! ## Migration (R180-R183) -/

/-- A page migration completes atomically, and the stalled streams resume (R181). -/
def execMigrationComplete (page : BitVec 21) (s : State) : Res :=
  runPlain do
    can (powered s && !s.failed) "the device is not powered"
    let pg := page.toNat
    let m ← the (s.migs.find? (fun m => m.page == pg)) "the page is not in motion"
    let s1 ← the (if pageMiss s pg true then bringIn s pg m.quarter m.ctx else some s) "no frame can be had (R180)"
    .ok (pumpAll (dropMig s1 pg))

/-! ## Gather (R200, R201) -/

/-- The last appearance of a slot's page among the delivered entries, ordered by (list, entry). -/
def lastUse (x : Stream) (slot : Nat) : Option GEnt := (x.gents.filter (fun e => e.slot == slot)).getLast?

/-- The slot that a page which is not held takes under hold (R201): a slot never filled, else the one whose page appeared
least recently and is not of the present list. -/
def holdSlot (x : Stream) (pages : List Nat) : Option Nat :=
  match (List.range x.count).find? (fun n => (lastUse x n).isNone) with
  | some n => some n
  | none =>
    ((List.range x.count).filterMap (fun n => match lastUse x n with
      | some e => if pages.contains e.page then none else some (n, e)
      | none => none)).foldl (fun (best : Option (Nat × GEnt)) y => match best with
        | none => some y
        | some b => if y.2.list < b.2.list ∨ (y.2.list = b.2.list ∧ y.2.entry < b.2.entry) then some y else some b)
      none |>.map (·.1)

/-- A gather stream that has no entry left in its list comes to the next one. -/
def Stream.nextList (x : Stream) : Stream := { x with gList := x.gList + 1, gEntry := 0, gCount := none }

/-- A gather stream after the next entry of its list, of `n`, is delivered into a slot (R200). -/
def Stream.gave (x : Stream) (n slot p fill : Nat) : Stream :=
  let y : Stream := { x with gEntry := x.gEntry + 1, filled := x.filled + 1, moved := true, stall := 0, begun := false,
                             gents := x.gents ++ [{ list := x.gList, entry := x.gEntry, slot := slot, page := p, fill := fill }] }
  let z := if x.gEntry + 1 < n then y else y.nextList
  { z with live := !gatherDone z }

/-- What a gather stream reads: the checks, and the page that must be brought in before it; else the state with what lies outside the
device at hand (R181, R452). A filler's lies in HBM or pinned (R208). -/
def gatherRead (s : State) (x : Stream) (ps : List Part) : Ex (State × Option Nat) := do
  let c := x.t.ctx.val
  needF s (ps.all (fun p => p.ss.all (fun a => fillerRange s x.t a.1 a.2))) fStream
  match ← readReady s c ps with
  | some pg => .ok (s, some pg)
  | none => do
    partsClean s c ps
    let s1 ← ps.foldlM (fun s p => askAll s c p.ss) s
    .ok (accessPages s1 c (readReach s c ps), none)

/-- A gather stream comes to its next list that is not empty, and reads its COUNT (R138, R200); `fuel` bounds the lists. Also the page that must be
brought in first. -/
def openList (s : State) (x : Stream) : Nat → Ex (State × Stream × Option Nat)
  | 0 => .ok (s, x, none)
  | fuel + 1 =>
    match x.gCount, x.scaleH with
    | none, some lh =>
      if gatherDone x then .ok (s, x, none)
      else do
        let (s1, miss) ← gatherRead s x [⟨lh, [lh.span (listRow x + x.gList) 0 2]⟩]
        let n := listCount s1 x x.gList
        if miss.isSome then .ok (s1, x, miss)
        else if x.gEntry < n then .ok (s1, { x with gCount := some n }, none)
        else openList s1 { x.nextList with moved := true, stall := 0 } fuel
    | _, _ => .ok (s, x, none)

/-- A gather stream serves the next entry of its list of `n` (R201). -/
def serveEntry (s : State) (x : Stream) (n : Nat) : Ex State := do
  let c := x.t.ctx.val
  let lh ← the x.scaleH "not a gather stream"
  let lists : Part := ⟨lh, [lh.span (listRow x + x.gList) 0 (n + 2)]⟩
  let (s1, miss) ← gatherRead s x [lists]
  match miss with
  | some pg => .ok (missPage s1 x pg)
  | none =>
  needF s1 (!(x.hold && x.gEntry == 0 && decide (x.count < n))) fStream
  let p := listPage s1 x x.gList x.gEntry
  let (g, d) ← kvDims s1 x.h
  match ← readReady s1 c [mapPart s1 x.h p] with
  | some pg => .ok (missPage s1 x pg)
  | none =>
  let (s2, base, fill) ← pageEntry s1 c x.h g d p
  let s3 := accessPages s2 c [(x.h.pmap + 8 * p, 8)]
  match (if x.hold then x.gents.reverse.find? (fun k => k.page == p) else none) with
  | some k => .ok (bumpC (poolSettle (setStream s3 (x.gave n k.slot p fill))) c kGatherHold 1)
  | none =>
    let slot ← the (if x.hold then holdSlot x ((List.range n).map (listPage s3 x x.gList))
      else some (x.filled % x.count)) "no slot may be taken (R201)"
    can (x.gents.all (fun k => k.slot != slot || k.freed)) "the slot's last use is not freed (R201)"
    let a := base + x.tag * 528 * d
    let (s4, miss) ← gatherRead s3 x [localPart s3 x.h base [(a, 528 * d)]]
    match miss with
    | some pg => .ok (missPage s4 x pg)
    | none =>
      let y := { x with gents := x.gents.filter (fun k => k.slot != slot) }
      let s5 := slotWrite (creelFetch s4 x [(a, 528 * d)]) x (x.slotOff slot) (rd s4 a (528 * d))
      .ok (bumpC (poolSettle (setStream s5 (y.gave n slot p fill))) c kGatherRead 1)

/-- A gather stream goes on: its next list where it has none open, then that list's next entry (R200, R201). -/
def deliverEntry (s : State) (t : Tid) (sid : Nat) : Ex State := do
  let x ← movable s t sid
  can (x.kind == .gather) "not a gather stream"
  can (!gatherDone x) "every entry is delivered"
  let (s1, y, miss) ← openList s x (listsOf x)
  match miss, y.gCount with
  | some pg, _ => .ok (missPage s1 y pg)
  | none, some n => serveEntry s1 y n
  | none, none => .ok (poolSettle (setStream s1 { y with live := !gatherDone y }))

/-- A gather stream serves a list entry (R201). -/
def execGatherEntryDeliver (t : Tid) (sid : BitVec 5) (s : State) : Res :=
  runEvent (deliverEntry s t sid.toNat) t (streamPc s t sid.toNat)

/-! ## Stalls (R215) -/

/-- A stream stalled for four consecutive running strokes raises its fault (R215). -/
def execStreamStall (t : Tid) (sid : BitVec 5) (s : State) : Res :=
  runEvent (do
    can (powered s && !s.failed && present s t) "the context does not run"
    let x ← the (stream? s t sid.toNat) "the stream is not open"
    can (decide (4 ≤ x.stall)) "not stalled for four strokes (R215)"
    .error (.fault s fStall)) t (streamPc s t sid.toNat)

/-! ## Plans (R212-R214) -/

/-- draft.plan, start form (R212, R282). -/
def execDraftPlanStart (t : Tid) (f : Fields) (s : State) : Res :=
  runThread s t fun s th => do
    dec s (formOk f 0 0 [.handle, .imm, .imm])
    let n := f.sl1.toNat
    let depth := f.sl2.toNat
    dec s (decide (n ≤ 255) && decide (1 ≤ depth) && decide (depth ≤ 64))
    let h ← getH s t.ctx f.sl0.toNat
    needF s (h.fmt == 11 && h.rank == 1) fFormat
    let ok := match uregOf n (getR s (.ureg n)) with
      | some r => r.owner == partOf t.ctx && r.policy == 1
      | none => false
    needF s ok fPlan0
    let s1 := notReplayable s t
    let plans := s1.plans.filter (fun q => q.region != n) ++ [{ region := n, t := t, h := h, depth := depth }]
    .ok (stepOn { s1 with plans := plans } t th)

/-- draft.plan, advance form (R213): kept until the cursor reaches a mark, up to 65,535. -/
def execDraftPlanAdvance (t : Tid) (f : Fields) (s : State) : Res :=
  runThread s t fun s th => do
    dec s (formOk { f with variant := f.variant &&& 0xFE } 0 0 [.scalar, .imm])
    let n := f.sl1.toNat
    dec s (decide (n ≤ 255))
    let v ← src th f.sl0
    let q ← theF s (s.plans.find? (fun q => q.region == n && partOf q.t.ctx == partOf t.ctx)) fPlan0
    needF s (decide (q.advances.length < 65535)) fPlan0
    let q1 := { q with advances := q.advances ++ [v.setWidth 32] }
    let s1 := notReplayable s t
    .ok (stepOn { s1 with plans := s1.plans.map (fun k => if k.region == n then q1 else k) } t th)

/-- A page is released: it becomes a preferred victim (R182). -/
def releasePage (s : State) (pg : Nat) : State :=
  match tabGet? s.pages pg with
  | some x => { s with pages := tabSet s.pages pg { x with released := some s.releases }, releases := s.releases + 1 }
  | none => s

/-- A page is dead: it loses its frame and next reads as zeros (R182). -/
def killPage (s : State) (pg : Nat) : State :=
  let s1 := dropMig s pg
  { clearMem s1 (uniBase + pg * pageBytes) pageBytes with pages := tabDel s1.pages pg }

/-- A plan replaced by its new value, or ended. -/
def setPlan (s : State) (n : Nat) (q : Option Plan) : State :=
  { s with plans := s.plans.filterMap (fun k => if k.region == n then q else some k) }

/-- The cursor acts on one page of a fetch entry, or on one entry of another kind (R213). (DEDUCED, log 110.) -/
def planStep (s : State) (n : Nat) (q : Plan) (r : UReg) (w0 w1 : Word) : Ex State := do
  let op := fld w0 63 60
  let page := fld w0 20 0
  let cnt := fld w1 20 0
  let fault : Halt := .fault s (fPlan q.cursor)
  need (decide (op ≤ 4) && fld w0 59 21 == 0 && fld w1 31 21 == 0 && (op == 4 || fld w1 63 32 == 0) &&
    (if op = 0 ∨ op = 4 then cnt == 0 && page == 0 else decide (1 ≤ cnt) && decide (page + cnt ≤ r.size))) fault
  let next : Plan := { q with cursor := q.cursor + 1, inEntry := 0 }
  match op with
  | 0 => .ok (setPlan s n none)
  | 1 =>
    if q.inEntry < cnt then
      let pg := r.base + page + q.inEntry
      can (decide (q.waiting.length < q.depth)) "depth fetched pages wait for their access (R213)"
      let q1 := { q with inEntry := q.inEntry + 1, waiting := q.waiting ++ [pg] }
      let s1 := setPlan s n (some q1)
      let away := match tabGet? s.pages pg with
        | some x => !isHbmFrame x.frame
        | none => true
      .ok (if away then askMig s1 pg (quarterOf s q.t) q.t.ctx else s1)
    else
      can q.waiting.isEmpty "a fetched page has not been passed (R213)"
      .ok (setPlan s n (some next))
  | 4 =>
    match q.advances with
    | [] => .error (.no "the cursor stops at a mark (R213)")
    | v :: rest =>
      need (v.toNat == fld w1 63 32) fault
      .ok (setPlan s n (some { next with advances := rest }))
  | _ =>
    can q.waiting.isEmpty "a fetched page has not been passed (R213)"
    let pgs := (List.range cnt).map (fun i => r.base + page + i)
    .ok (setPlan (pgs.foldl (if op = 2 then releasePage else killPage) s) n (some next))

/-- The plan cursor reaches and acts on its next entry (R213, R214). -/
def execPlanCursor (n : BitVec 8) (s : State) : Res :=
  let who := match s.plans.find? (fun q => q.region == n.toNat) with
    | some q => q.t
    | none => tid 0 0
  runEvent (do
    can (powered s && !s.failed) "the device is not powered"
    let q ← the (s.plans.find? (fun q => q.region == n.toNat)) "the region has no plan"
    can ((getC s q.t.ctx).st == .running && !(getC s q.t.ctx).saving && !(getC s q.t.ctx).restoring) "the context does not run"
    let r ← the (uregOf n.toNat (getR s (.ureg n.toNat))) "the region is not valid"
    needF s (decide (2 * q.cursor + 1 < q.h.dim 0)) (fPlan q.cursor)
    let entry : Part := ⟨q.h, [q.h.span 0 (2 * q.cursor) 1, q.h.span 0 (2 * q.cursor + 1) 1]⟩
    match ← readReady s q.t.ctx [entry] with
    | some pg =>
      can (!pageBusy s pg) "the page of the plan's entry is in motion (R181)"
      .ok (askMig s pg (quarterOf s q.t) q.t.ctx)
    | none =>
    partsClean s q.t.ctx [entry]
    let s1 ← askAll s q.t.ctx entry.ss
    let w (i : Nat) : Word := BitVec.ofNat 64 (elemV s1 q.t.ctx q.h (q.h.ix 0 (2 * q.cursor + i)))
    let s2 ← planStep s1 n.toNat q r (w 0) (w 1)
    .ok (pumpAll s2)) who (pcOf s who)

end Sys2Proof.Machine
end

