-- ==== Sys2Proof/Machine/Engine.lean ====
section
/-! DEFINITION. Engine instructions (12): vector operands, slot claims, issue, order, completion (R274, R275, R280). -/

namespace Sys2Proof.Machine

/-! ## Engines and order (R275, R304) -/

/-- The engines of an instruction: array 0, quantiser 1, vector lanes with the distaff 2, carding unit 3, swift engine 4;
`card.sel` scores on the array (R140). -/
def enginesOf : EngTag → List Nat
  | .mma => [0]
  | .qnt => [1]
  | .cardBuild => [3]
  | .cardSel => [0, 3]
  | .swConv | .swPool | .swBox | .swNms | .swPatch | .swPix => [4]
  | _ => [2]

/-- Whether two kinds of instruction share an engine. -/
def shareEngine (a b : EngTag) : Bool := (enginesOf a).any (fun e => (enginesOf b).contains e)

/-- A thread blocks when four of its instructions wait for the engine (R304). -/
def engineRoom (s : State) (t : Tid) (e : Nat) : Ex Unit :=
  can (decide ((s.ops.filter (fun o => o.t == t && (enginesOf o.tag).contains e)).length ≤ 4))
    "four instructions wait for the engine (R304)"

/-- Whether the thread replays a splice (R70). -/
def replaying (s : State) (t : Tid) : Bool := s.splices.any (fun x => x.opener == t && x.st == .opened && x.replayed)

/-- An engine instruction as it issues. -/
def newOp (s : State) (t : Tid) (th : Thread) (tag : EngTag) (f : Fields) : EngOp :=
  { id := s.seq, t := t, pc := th.pc, tag := tag, f := f, s := th.s, replay := replaying s t }

/-- The instruction is issued, and the thread goes on. -/
def issueOp (s : State) (t : Tid) (th : Thread) (o : EngOp) : State := stepOn { s with ops := s.ops ++ [o] } t th

/-- A register of an instruction as it read it at issue; s0 reads 0. -/
def EngOp.reg (o : EngOp) (v : BitVec 16) : Word := if v = 0 then 0 else (o.s[v.toNat]?).getD 0

/-- An instruction replaced by its new value, or removed as complete. -/
def setOp (s : State) (o : EngOp) : State := { s with ops := s.ops.map (fun x => if x.id = o.id then o else x) }
def dropOp (s : State) (o : EngOp) : State := { s with ops := s.ops.filter (fun x => x.id ≠ o.id) }

/-- Whether two lists of ranges meet. -/
def rangesMeet' (a b : List (Nat × Nat)) : Bool := a.any (fun x => b.any (fun y => overlaps x.1 x.2 y.1 y.2))

/-- Whether an instruction may run now: no earlier one of the thread keeps its engine, and no earlier incomplete one of the thread
writes what it reads or writes, or reads what it writes (R275). `done` says which ones have left the engine though they are not
complete. A hand-off's consumer reads no range of its producer. -/
def mayRunIf (done : EngOp → Bool) (s : State) (o : EngOp) : Bool :=
  s.ops.all (fun x => x.t != o.t || decide (o.id ≤ x.id) ||
    ((done x || !shareEngine x.tag o.tag) && !rangesMeet' x.wrs (o.rds ++ o.wrs) && !rangesMeet' x.rds o.wrs))
def mayRun (s : State) (o : EngOp) : Bool := mayRunIf (fun _ => false) s o

/-! ## Vector operands (R274) -/

/-- A vector operand word. -/
structure Vop where
  rows : Nat
  len : Nat
  fmt : Nat
  off : Nat
  deriving DecidableEq, Repr

/-- The fields of a VOP word. -/
def vopOf (w : Word) : Vop := ⟨fld w 57 42 + 1, fld w 41 24 + 1, fld w 23 20, 64 * fld w 19 6⟩

/-- Row pitch S, bytes of all rows, and the format. -/
def Vop.pitch (v : Vop) : Nat := rowBytes64 (bitsOf v.fmt) v.len
def Vop.bytes (v : Vop) : Nat := v.pitch * v.rows
def Vop.f (v : Vop) : Fmt := (fmtOf v.fmt).getD .kf32

/-- A VOP after its checks at issue (R274). -/
def readVop (s : State) (w : Word) : Ex Vop := do
  let v := vopOf w
  needF s (fld w 63 58 == 0 && fld w 5 0 == 0 && (fmtOf v.fmt).isSome && v.fmt != 0 && v.fmt != 1 && v.fmt != 6) fOperand
  needF s (decide (v.off + v.bytes ≤ 0x100000)) (fAddr (BitVec.ofNat 64 v.off))
  .ok v

/-- Codes of one row of a VOP in a thread's scratch. -/
def vopRow (s : State) (t : Tid) (v : Vop) (r : Nat) : List Nat :=
  let m := scratchOf s t.ctx t.lsp
  (List.range v.len).map (fun i => elemOf (fun a n => memRead m a n) (v.off + r * v.pitch) (bitsOf v.fmt) i)

/-- Values of one row, converted to KF32 on read (R101). -/
def vopVals (s : State) (t : Tid) (v : Vop) (r : Nat) : List Val :=
  (vopRow s t v r).map (fun c => match v.f with
    | .kf32 => v.f.value c
    | f => (f.value c).rn)

/-- The state after a row's codes are written, the rest of the pitch left as it was. -/
def putRow (s : State) (t : Tid) (v : Vop) (r : Nat) (cs : List Nat) : State :=
  scratchWrite s t.ctx t.lsp (v.off + r * v.pitch) (packCodes (bitsOf v.fmt) cs)

/-! ## Slots named by VOPs (R280) -/

/-- Whether a range lies in a stream's region of vector scratch. -/
def inRegion (x : Stream) (a n : Nat) : Bool := x.scratch && overlaps a n x.off (x.size * x.count)

/-- The stream of the spindle whose vector scratch region a range meets. -/
def regionOf (s : State) (t : Tid) (a n : Nat) : Option Stream := (spindleStreams s t).find? (fun x => inRegion x a n)

/-- An instruction consumes slots of a local stream: one that was filled before a splice began makes the splice not replayable (R71). -/
def noteLocalUse (s : State) (t : Tid) (x : Stream) : State :=
  { s with splices := s.splices.map (fun z =>
      if z.opener == t && z.st == .opened && z.replay.streams.any (fun y => y.sid == x.sid && y.walk == .localS &&
        decide (x.cons < y.filled)) then { z with replayable := false } else z) }

/-- A source range in a load or local stream of the thread claims its next slot in consumer order (R280); elsewhere it is
plain scratch. However many operands name one slot, the instruction claims it once. -/
def claimSrc (s : State) (t : Tid) (o : EngOp) (a n : Nat) : Ex (State × EngOp) :=
  match regionOf s t a n with
  | none => .ok (noteScrRead s t a n, { o with rds := o.rds ++ [(a, n)] })
  | some x =>
    if o.claims.any (fun k => k.sid == x.sid && !k.fills && x.slotOff (x.slotNo k.tile) == a) then
      .ok (s, { o with rds := o.rds ++ [(a, n)] })
    else if x.t == t && x.kind != .store then do
      needF s (a == x.slotOff (x.slotNo x.cons) && decide (n ≤ x.size)) fStream
      .ok (setStream (noteLocalUse s t x) { x with cons := x.cons + 1 },
           { o with claims := o.claims ++ [⟨x.sid, x.cons, false⟩], rds := o.rds ++ [(a, n)] })
    else .ok (s, { o with rds := o.rds ++ [(a, n)] })

/-- A destination range in a store or local stream of the thread claims its next slot in producer order (R280); any
other stream's region is reserved (R195). -/
def claimDst (s : State) (t : Tid) (o : EngOp) (a n : Nat) : Ex (State × EngOp) :=
  match regionOf s t a n with
  | none => .ok (noteScrWrite s t a n, { o with wrs := o.wrs ++ [(a, n)] })
  | some x => do
    needF s (x.t == t && (x.kind == .store || x.walk == .localS) && a == x.slotOff (x.slotNo x.prod) &&
      decide (n ≤ x.size)) fStream
    if x.kind == .store then (farHandles x).forM (fun h => mayWrite s t.ctx h)
    let s1 := if x.kind == .store then (farHandles x).foldl (fun s h => noteHandleWrite s t h) s else s
    .ok (setStream s1 { x with prod := x.prod + 1 },
         { o with claims := o.claims ++ [⟨x.sid, x.prod, true⟩], wrs := o.wrs ++ [(a, n)] })

/-- The shape of slots that are claimed to be filled. -/
def noteShapes (s : State) (t : Tid) (cs : List Claim) (rows len pitch : Nat) : State :=
  cs.foldl (fun s k => match stream? s t k.sid with
    | some x => if x.walk == .localS then setStream s { x with shapes := x.shapes ++ [⟨k.tile, rows, len, pitch⟩] } else s
    | none => s) s

/-- VOP claims. -/
def srcVop (s : State) (t : Tid) (o : EngOp) (v : Vop) : Ex (State × EngOp) := claimSrc s t o v.off v.bytes
def dstVop (s : State) (t : Tid) (o : EngOp) (v : Vop) : Ex (State × EngOp) := do
  let (s1, o1) ← claimDst s t o v.off v.bytes
  .ok (noteShapes s1 t (o1.claims.drop o.claims.length) v.rows v.len v.pitch, o1)

/-- Whether the slots that an instruction claimed are filled, or free and next in fill order (R280). -/
def claimsReady (s : State) (o : EngOp) : Bool :=
  o.claims.all (fun c => match stream? s o.t c.sid with
    | none => false
    | some x => if c.fills then x.free c.tile && x.filled == c.tile && regionIdle s x else x.has c.tile)

/-- The state after a claimed slot is filled, with the rows it covers, or freed. -/
def doneClaim (s : State) (t : Tid) (rows : Nat) (c : Claim) : State :=
  match stream? s t c.sid with
  | none => s
  | some x =>
    if c.fills then setStream s { x.put c.tile with filled := c.tile + 1, short := x.short ++ [(c.tile, rows)] }
    else setStream s (x.release c.tile)

/-- An instruction completes: its slots are filled or freed, and what waited for it goes on. -/
def finishOp (s : State) (o : EngOp) (rows : Nat) : State :=
  settle (dropOp (o.claims.foldl (fun s c => doneClaim s o.t rows c) s) o) o.t.ctx

/-- Spans of a view are reached by an agent of quarter `A` (4: of none), to be read, or written by `w`: unified pages come in within
the step (DESIGN CHOICE, log 20); what lies outside the device is asked for (DESIGN CHOICE, log 116). -/
def reachFrom (s : State) (A c : Nat) (h : Handle) (ss : List (Nat × Nat)) (w : Option Writer) : Ex State := do
  if h.dev = devId s then
    needF s (ss.all (fun x => if w.isSome then okRange s c x.1 x.2 else okRead s c x.1 x.2)) (fAddr h.base)
  else mayDepart s c h.dev
  match w with
  | none =>
    let s1 ← admitAll s A c (ss.flatMap (fun x => readSpans s c h.idx x.1 x.2)) false
    needF s1 (ss.all (fun x => !ueV s1 c h.idx x.1 x.2)) (fMemUe h.base)
    askAll s1 c ss
  | some w =>
    let rs := ss.map (fun x => writeSpans s c h.idx x.1 x.2 w)
    let s1 ← admitAll s A c (rs.flatMap (·.2)) false
    admitAll s1 A c (rs.flatMap (·.1)) true

/-- The same for an engine that a thread uses. -/
def reachView (s : State) (t : Tid) (h : Handle) (ss : List (Nat × Nat)) (w : Option Writer) : Ex State :=
  reachFrom s (quarterOf s t) t.ctx h ss w

/-! ## Hand-offs (R287) -/

/-- A producer issues: HANDOFF while an earlier one of its kind has no consumer. -/
def produceAcc (s : State) (th : Thread) : Ex Thread := do
  needF s th.accProd.isNone fHandoff
  .ok { th with accProd := some s.seq }
def produceVepi (s : State) (th : Thread) : Ex Thread := do
  needF s th.vepiProd.isNone fHandoff
  .ok { th with vepiProd := some s.seq }

/-- A consumer takes the pending producer of its kind: HANDOFF where there is none. -/
def consumeAcc (s : State) (th : Thread) : Ex (Nat × Thread) := do
  let n ← theF s th.accProd fHandoff
  .ok (n, { th with accProd := none })
def consumeVepi (s : State) (th : Thread) : Ex (Nat × Thread) := do
  let n ← theF s th.vepiProd fHandoff
  .ok (n, { th with vepiProd := none })

/-- The hand-off producer of an instruction. -/
def producer (s : State) (o : EngOp) : Option EngOp := o.src.bind (fun n => s.ops.find? (fun x => x.id = n))

/-- The producer's first output tile that waits. -/
def handTile (s : State) (o : EngOp) : Option (EngOp × AccTile) :=
  (producer s o).bind (fun p => p.out.head?.map (fun a => (p, a)))

/-- A producer with nothing left is complete; an `mma` has freed its slots pass by pass. -/
def endOp (s : State) (o : EngOp) : State := if o.tag == .mma then settle (dropOp s o) o.t.ctx else finishOp s o 0

/-- The state after the consumer has taken the producer's first tile. -/
def takeTile (s : State) (p : EngOp) (more : Bool) : State :=
  let p1 := { p with out := p.out.drop 1 }
  if more || !p1.out.isEmpty then setOp s p1 else endOp s p1

/-! ## Counting per element (R41) -/

/-- One count of each kind at most for one element of one instruction. (DEDUCED, log 106.) -/
def Cnt.once (k : Cnt) : Cnt := ⟨min 1 k.new, min 1 k.cons, min 1 k.sat, min 1 k.st⟩

/-- Sum of counts. -/
def sumCnt (ks : List Cnt) : Cnt := ks.foldl Cnt.add {}

/-- A KF32 result stored in a format (R101). -/
def storeVal (f : Fmt) (x : Val × Cnt) : Nat × Cnt :=
  let w := f.write x.1
  (w.1, (x.2.add w.2).once)

/-- An exact value rounded to KF32, with its saturation counted. -/
def rnC (v : Val) : Val × Cnt := let r := rn32c v; (r.1, { sat := if r.2 then 1 else 0 })

end Sys2Proof.Machine
end

