-- ==== Sys2Proof/Machine/Matrix.lean ====
section
/-! DEFINITION. `mma` (04, 12): problem, expansion into chunks, exact block sums, slub products, accumulators, images,
readout. -/

namespace Sys2Proof.Machine

/-! ## Expansion (R92-R95) -/

/-- A chunk: M, N and K tiles [lo, hi), and the number of its level-2 chunk. -/
structure Chunk where
  m0 : Nat
  m1 : Nat
  n0 : Nat
  n1 : Nat
  k0 : Nat
  k1 : Nat
  c2 : Nat := 0
  deriving DecidableEq, Repr

/-- A grid visited in a nesting order, outermost first (R92). -/
def nest {α : Type} (ord : Nat) (ms ns ks : List Nat) (g : Nat → Nat → Nat → α) : List α :=
  match ord with
  | 0 => ms.flatMap (fun m => ns.flatMap (fun n => ks.map (fun k => g m n k)))
  | 1 => ms.flatMap (fun m => ks.flatMap (fun k => ns.map (fun n => g m n k)))
  | 2 => ns.flatMap (fun n => ms.flatMap (fun m => ks.map (fun k => g m n k)))
  | 3 => ns.flatMap (fun n => ks.flatMap (fun k => ms.map (fun m => g m n k)))
  | 4 => ks.flatMap (fun k => ms.flatMap (fun m => ns.map (fun n => g m n k)))
  | _ => ks.flatMap (fun k => ns.flatMap (fun n => ms.map (fun m => g m n k)))

/-- Starts of chunks of extent `e` over [lo, hi). -/
def starts (lo hi e : Nat) : List Nat := (List.range (ceilDiv (hi - lo) e)).map (fun i => lo + i * e)

/-- A descriptor's ORDER and extents, clipped to the problem (R92). -/
structure Desc where
  ord : Nat
  m : Nat
  n : Nat
  k : Nat
  deriving DecidableEq, Repr

def descOf (w : Word) (mt nt kt : Nat) : Desc :=
  ⟨fld w 50 48, min (fld w 15 0 + 1) mt, min (fld w 31 16 + 1) nt, min (fld w 47 32 + 1) kt⟩

/-- The chunks of a grid over a box. -/
def gridOf (d : Desc) (b : Chunk) : List Chunk :=
  nest d.ord (starts b.m0 b.m1 d.m) (starts b.n0 b.n1 d.n) (starts b.k0 b.k1 d.k) (fun m n k =>
    ⟨m, min (m + d.m) b.m1, n, min (n + d.n) b.n1, k, min (k + d.k) b.k1, b.c2⟩)

/-- Level-2 chunks, and level-1 chunks in expansion order (R93). -/
def level2 (d2 : Desc) (mt nt kt : Nat) : List Chunk :=
  (gridOf d2 ⟨0, mt, 0, nt, 0, kt, 0⟩).zipIdx.map (fun c => { c.1 with c2 := c.2 })
def level1 (d2 d1 : Desc) (mt nt kt : Nat) : List Chunk := (level2 d2 mt nt kt).flatMap (gridOf d1)

/-- A tiles of a level-2 chunk in ascending M tile, then K tile; B tiles in ascending K tile, then N tile (R285). -/
def aTiles (c : Chunk) : List (Nat × Nat) :=
  (List.range (c.m1 - c.m0)).flatMap (fun m => (List.range (c.k1 - c.k0)).map (fun k => (c.m0 + m, c.k0 + k)))
def bTiles (c : Chunk) : List (Nat × Nat) :=
  (List.range (c.k1 - c.k0)).flatMap (fun k => (List.range (c.n1 - c.n0)).map (fun n => (c.k0 + k, c.n0 + n)))

/-- D tiles of a level-1 chunk in the order of their final passes. -/
def dTiles (ord : Nat) (c : Chunk) : List (Nat × Nat) :=
  let ms := (List.range (c.m1 - c.m0)).map (c.m0 + ·)
  let ns := (List.range (c.n1 - c.n0)).map (c.n0 + ·)
  nest ord ms ns [c.k1 - 1] (fun m n _ => (m, n))

/-- Whether a chunk covers a D tile. -/
def covers (c : Chunk) (p : Nat × Nat) : Bool :=
  decide (c.m0 ≤ p.1) && decide (p.1 < c.m1) && decide (c.n0 ≤ p.2) && decide (p.2 < c.n1)

/-- Whether a tile of chunk `i` is spilled after it (R95). -/
def spillsAfter (cs : List Chunk) (kt i : Nat) (p : Nat × Nat) : Bool :=
  match cs[i]? with
  | none => false
  | some c => c.k1 != kt && !((cs[i + 1]?).any (fun d => covers d p))

/-- Whether an expansion spills (R95). -/
def spills (cs : List Chunk) (kt : Nat) : Bool :=
  cs.zipIdx.any (fun c => (dTiles 0 c.1).any (spillsAfter cs kt c.2))

/-! ## Binding (R283-R286) -/

/-- The binding word's fields (R284). -/
structure Binding where
  glist : Nat
  gentry : Nat
  img : Nat
  hand : Bool
  imgh : Nat
  dstr : Nat
  bstr : Nat
  astr : Nat
  gpart : Bool
  keepa : Bool
  deriving DecidableEq, Repr

/-- The binding that slot 5 selects: the default for s0 (R284). -/
def bindingOf (slot : BitVec 16) (w : Word) : Binding :=
  if slot = 0 then ⟨0, 0, 0, false, 0, 2, 1, 0, false, false⟩
  else ⟨fld w 63 48, fld w 47 39, fld w 38 37, bit w 36, fld w 35 20, fld w 19 15, fld w 14 10, fld w 9 5, bit w 4, bit w 3⟩

/-- A and B formats of a PAIR (R283). -/
def pairFmts (pair : Nat) : Nat × Nat :=
  match pair with
  | 0 => (0, 0) | 1 => (0, 1) | 2 => (0, 2) | 3 => (2, 0) | 4 => (2, 2) | 5 => (2, 1) | _ => (4, 4)

/-- The problem of an `mma` in tiles, from its recorded dimensions. -/
def mmaTiles (o : EngOp) : Nat × Nat × Nat :=
  let k := match o.hs with
    | a :: _ => a.cols
    | [] => 1
  (ceilDiv o.m 256, ceilDiv o.n 256, ceilDiv k 256)

/-- The level-1 chunks of an issued `mma`. -/
def mmaChunks (o : EngOp) : List Chunk :=
  let (mt, nt, kt) := mmaTiles o
  level1 (descOf (o.reg o.f.sl3) mt nt kt) (descOf (o.reg o.f.sl4) mt nt kt) mt nt kt

/-- The level-2 chunks of an issued `mma`. -/
def mmaChunks2 (o : EngOp) : List Chunk :=
  let (mt, nt, kt) := mmaTiles o
  level2 (descOf (o.reg o.f.sl3) mt nt kt) mt nt kt

/-- A stream bound as A or B must be a driven load (or multicast member), local, or for B gather (R285); its slots hold
a footprint, and a driven one twice the chunk's tiles: R285 asks the count of each A and B stream, R94 of driven ones, and a local
stream's count is not tested (DESIGN CHOICE, log 129). -/
def operandStream (s : State) (t : Tid) (sid fmt tiles : Nat) (gatherOk : Bool) : Ex Stream := do
  let x ← needStream s t sid
  match x.walk with
  | .lists _ _ => needF s gatherOk fStream
  | .driven => do
    needF s (x.kind != .store) fStream
    needF s (x.fmt.toNat == fmt) fFormat
    needF s (decide (footprint fmt ≤ x.size) && decide (2 * tiles ≤ x.count)) fStream
  | .unbound => needF s (decide (footprint fmt ≤ x.size) && decide (2 * tiles ≤ x.count)) fStream
  | .localS => needF s (decide (footprint fmt ≤ x.size)) fStream
  | _ => .error (.fault s fStream)
  .ok x

/-- A stream after a binding that asks `tiles` of it from its consumer position: tiles that KEEPA has left come first,
and the last `keep` stay for the next binding (R284, R285). -/
def bindOperand (x : Stream) (op : Nat) (h : Handle) (k? sl? : Option Handle) (isB : Bool) (tiles : List (Nat × Nat))
    (keep : Nat) : Stream :=
  let total := (x.segs.map (fun g => g.tiles.length)).sum
  let seg : Seg := { op := op, h := h, scaleH := k?, slubH := sl?, tiles := tiles.drop x.kept, first := total, isB := isB }
  let y := match x.walk with
    | .driven | .unbound => { x with segs := x.segs ++ [seg] }
    | _ => x
  { y with cons := x.cons + tiles.length - keep, kept := keep }

/-- The block axis of an `mma` operand must be its K (R489). -/
def operandScale (s : State) (c : Nat) (h : Handle) (isB : Bool) : Ex (Option Handle) :=
  if scaledFmt h.fmt then do
    let k ← getScale s c h
    needF s (if isB then decide (2 ≤ h.rank) && scaleAxisOk h k (h.rank - 2) else scaleAxisOk h k (h.rank - 1))
      (fHandle h.scale)
    .ok (some k)
  else .ok none

/-- The page that a binding's list entry names, read from the list. -/
def boundPage (s : State) (x : Stream) (b : Binding) : Nat := listPage s x b.glist b.gentry

/-- The addresses from a view's first byte to its last. -/
def viewRange (h : Handle) : List (Nat × Nat) := [(h.lo, h.hi - h.lo)]

/-- The handle that a check gives, where it gives one. -/
def peekH : Ex Handle → List Handle
  | .ok h => [h]
  | .error _ => []

/-- Bytes of the KW6 tables or zero points that follow a weight's scales (R31, DEDUCED, log 40). -/
def kw6Bytes (k : Handle) (n : Nat) (zp : Bool) : Nat :=
  (Config.kw6Group (Config.kw6Choice k.words) (n - 1) + 1) * (if zp then 1 else 16)

/-- The memory of the operands that an image may not overlap (R96): A, B, D, their scale tensors with what follows them, their slub
tensors, and the page that a gather B reads. -/
def operandRanges (s : State) (c : Nat) (x : Stream) (b : Binding) (ah bh : Handle) (dh : List Handle) (n : Nat) (zp : Bool) :
    List (Nat × Nat) :=
  let scales := (if scaledFmt ah.fmt then peekH (getScale s c ah) else []) ++
    (if scaledFmt bh.fmt && bh.fmt != 1 && x.kind != .gather then peekH (getScale s c bh) else [])
  let tables := if bh.fmt = 1 then peekH (getScale s c bh) else []
  let slubs := (([ah] ++ (if x.kind == .gather then [] else [bh]) ++ dh).filter (·.slv)).flatMap (fun h => peekH (getSlub s c h))
  (([ah] ++ (if x.kind == .gather then [] else [bh]) ++ dh ++ scales).flatMap viewRange) ++
  (tables.flatMap (fun k => (viewRange k).map (fun r => (r.1, r.2 + kw6Bytes k n zp)))) ++
  (slubs.map (fun k => (k.lo, k.slubSize * k.rows))) ++
  (if x.kind == .gather then
    let g := if bh.rank = 1 then 1 else bh.dim (bh.rank - 2)
    let base := rdN s (bh.pmap + 8 * boundPage s x b) 8 % 2 ^ 48
    [(base, g * 528 * bh.dim (bh.rank - 1))]
  else [])

/-- The image handle of a binding after its checks (R96): it may not reach into what lies between the first and the last byte of an
operand (DESIGN CHOICE, log 120). -/
def imageOf (s : State) (t : Tid) (b : Binding) (m n : Nat) (others : List (Nat × Nat)) : Ex (Option Handle) :=
  if b.img = 0 then .ok none
  else do
    let h ← getH s t.ctx b.imgh
    needF s (h.fmt == 11) fFormat
    needF s (h.rank == 3 && h.dim 0 == m && h.dim 1 == n && h.dim 2 == 3) fOperand
    needF s (viewOk s t.ctx h && !others.any (fun r => overlaps h.lo (h.hi - h.lo) r.1 r.2)) (fAddr h.base)
    .ok (some h)

/-- The D handle's index: the slot, or a register with DREG (R283). -/
def dIndex (s : State) (th : Thread) (f : Fields) : Ex Nat :=
  if bit f.variant 4 then do
    let w ← src th f.sl2
    needF s (decide (w.toNat < 65536)) (fHandle (w.toNat % 65536))
    .ok w.toNat
  else .ok f.sl2.toNat

/-- An instruction that names an entry of a gather stream's lists needs one that is there: STREAM otherwise (R286, R293). COUNT of its list is
read (R138). -/
def needEntry (s : State) (x : Stream) (list entry : Nat) : Ex State :=
  match x.scaleH with
  | some l => do
    needF s (decide (list < listsOf x)) fStream
    let s1 ← reachView s x.t l [l.span (listRow x + list) 0 2] none
    needF s1 (decide (entry < listCount s1 x list)) fStream
    .ok s1
  | none => .error (.fault s fStream)

/-- The B problem of a gather stream, K and N, after the checks of R124 and R286. -/
def gatherProblem (s : State) (x : Stream) (b : Binding) (h : Handle) : Ex (State × Nat × Nat) := do
  let (_, d) ← kvDims s h
  let s1 ← needEntry s x b.glist b.gentry
  .ok (s1, if b.gpart then (256, d) else (d, 256))

/-- The far end that an `mma` gives a driven stream: HBM or pinned for a filler (R208), and what a multicast may send (R209). -/
def boundOk (s : State) (t : Tid) (x : Stream) (hs : List Handle) : Ex Unit :=
  match x.walk with
  | .driven => do
    needF s (hs.all (fillerOk s t)) fStream
    needF s (x.kind != .member || hs.all (mcastSource s)) fStream
  | .unbound => needF s (hs.all (fillerOk s t)) fStream
  | _ => .ok ()

/-- mma (R75-R78, R92-R96, R283-R287). Of a KF16 pair whose K is too large the bad handle is A, though B has that K too (DESIGN
CHOICE, log 129). (DEDUCED, log 72.) -/
def execMma (t : Tid) (f : Fields) (s : State) : Res :=
  runThread s t fun s th => do
    let pair := fld f.variant 2 0
    let zp := bit f.variant 3
    let dreg := bit f.variant 4
    dec s (decide (pair < 7) && (!zp || pair == 1 || pair == 5))
    dec s (formOk f 0x1F 0 [.handle, .handle, if dreg then .scalar else .handle, .scalar, .scalar, .scalar])
    engineRoom s t 0
    let w2 ← src th f.sl3
    let w1 ← src th f.sl4
    let wb ← src th f.sl5
    let c := t.ctx.val
    let b := bindingOf f.sl5 wb
    needF s ((f.sl5 == 0 || fld wb 2 0 == 0) && !(b.hand && decide (2 ≤ b.img))) fOperand
    let ah ← getH s c f.sl0.toNat
    let bh ← getH s c f.sl1.toNat
    let (fa, fb) := pairFmts pair
    needF s (ah.fmt == fa && bh.fmt == fb) fFormat
    needF s (!(ah.slv && pair != 1 && pair != 5)) fDecode
    let dh? : Option Handle ← if b.hand then .ok none else do
      let i ← dIndex s th f
      let h ← getH s c i
      needF s (h.fmt == 4 || h.fmt == 5) fFormat
      .ok (some h)
    let bx ← needStream s t b.bstr
    let m := ah.rows
    let (s, kk, n) ← if bx.kind == .gather then gatherProblem s bx b bh else .ok (s, bh.rows, bh.cols)
    needF s (decide (m ≤ 16777216) && decide (ah.cols ≤ 16777216)) (fHandle ah.idx)
    needF s (decide (kk ≤ 16777216) && decide (n ≤ 16777216)) (fHandle bh.idx)
    dh?.toList.forM (fun d => needF s (decide (d.rows ≤ 16777216) && decide (d.cols ≤ 16777216)) (fHandle d.idx))
    needF s (!(pair == 6 && decide (4194304 < kk))) (fHandle ah.idx)
    needF s (ah.cols == kk && (bx.kind != .gather || decide (m ≤ 256))) fOperand
    needF s (dh?.all (fun d => d.rows == m && d.cols == n)) fOperand
    needF s (fld w2 63 51 == 0 && fld w1 63 51 == 0 && decide (fld w2 50 48 < 6) && decide (fld w1 50 48 < 6)) fOperand
    let mt := ceilDiv m 256
    let nt := ceilDiv n 256
    let kt := ceilDiv kk 256
    let d2 := descOf w2 mt nt kt
    let d1 := descOf w1 mt nt kt
    needF s (decide (d1.m ≤ d2.m) && decide (d1.n ≤ d2.n) && decide (d1.k ≤ d2.k) && decide (d1.m * d1.n ≤ 2)) fOperand
    let ax ← operandStream s t b.astr fa (d2.m * d2.k) false
    let bx ← operandStream s t b.bstr fb (d2.n * d2.k) true
    let ak? ← if ax.walk == .localS then .ok none else operandScale s c ah false
    let bk? ← if bx.walk == .localS || bx.kind == .gather then .ok none else operandScale s c bh true
    let tk? ← if fb = 1 then operandScale s c bh true else .ok none
    let sl? : Option Handle ← if ah.slv && pair == 1 then do
        let k ← getSlub s c ah
        .ok (some k)
      else .ok none
    let cs := level1 d2 d1 mt nt kt
    let spill := spills cs kt
    needF s (!(spill && b.img == 0)) fOperand
    needF s (!((getC s c).filler && (spill || b.img != 0))) fOperand
    let hs := [ah, bh] ++ dh?.toList ++ ak?.toList ++ bk?.toList ++ sl?.toList ++ tk?.toList
    let im? ← imageOf s t b m n (operandRanges s c bx b ah bh dh?.toList n zp)
    boundOk s t ax (ah :: (ak?.toList ++ sl?.toList))
    boundOk s t bx (bh :: bk?.toList)
    if spill || decide (2 ≤ b.img) then im?.toList.forM (fun h => mayWrite s c h.idx)
    let toD := !b.hand && decide (b.img < 2)
    let o0 := newOp s t th .mma f
    let l2 := level2 d2 mt nt kt
    let at' := l2.flatMap aTiles
    let bt := l2.flatMap bTiles
    let keep := if b.keepa then (match l2.getLast? with
      | some k => (aTiles k).length
      | none => 0) else 0
    let im := if spill || decide (2 ≤ b.img) then im?.toList.map (·.idx) else []
    let s0 := im.foldl (fun s h => noteHandleWrite s t h) s
    let s0 := if ax.walk == .localS then noteLocalUse s0 t ax else s0
    let s0 := if bx.walk == .localS then noteLocalUse s0 t bx else s0
    let s1 := setStream s0 (bindOperand ax s.seq ah ak? sl? false at' keep)
    let s2 := match stream? s1 t b.bstr with
      | some y => if y.kind == .gather then s1 else setStream s1 (bindOperand y s.seq bh bk? none true bt 0)
      | none => s1
    let bBase := (match stream? s1 t b.bstr with
      | some y => y.cons
      | none => 0)
    let (s3, dBase) : State × Nat ← match dh?, toD with
      | some d, true => do
        let x ← needStream s2 t b.dstr
        needF s2 ((x.walk == .driven && x.kind == .store) || x.walk == .localS) fStream
        needF s2 (x.walk == .localS || x.fmt.toNat == d.fmt) fFormat
        needF s2 (decide (footprint d.fmt ≤ x.size)) fStream
        if x.walk == .driven then mayWrite s2 c d.idx
        boundOk s2 t x [d]
        let order := cs.flatMap (fun k => if k.k1 = kt then dTiles d1.ord k else [])
        let first := (x.segs.map (fun g => g.tiles.length)).sum
        let y := match x.walk with
          | .driven => { x with segs := x.segs ++ [{ op := s.seq, h := d, tiles := order, first := first : Seg }] }
          | _ => x
        let s' := if x.walk == .driven then noteHandleWrite s2 t d.idx else s2
        let z : Stream := { y with prod := x.prod + order.length }
        .ok (setStream s' (if x.walk == .localS then { z with shapes := z.shapes ++ order.zipIdx.map (fun p =>
          ⟨x.prod + p.2, min 256 (m - 256 * p.1.1), min 256 (n - 256 * p.1.2), 256 * bitsOf d.fmt / 8⟩) } else z), x.prod)
      | _, _ => .ok (s2, 0)
    let th1 ← if b.hand then produceAcc s3 th else .ok th
    let claims : List Claim := [⟨b.astr, ax.cons, false⟩] ++ (if bx.kind == .gather then [] else [⟨b.bstr, bBase, false⟩]) ++
      (if toD then [⟨b.dstr, dBase, true⟩] else [])
    let o : EngOp := { o0 with hs := hs ++ im?.toList, claims := claims, m := m, n := n, aBase := ax.cons, bBase := bBase,
                               dBase := dBase, writes := im }
    .ok (issueOp s3 t th1 o)

/-! ## Exact sums (R79-R82, R86) -/

/-- Bytes of a slot as an array. -/
def slotBytes (s : State) (x : Stream) (slot n : Nat) : Array Byte := (memRead (slotMem s x) (x.slotOff slot) n).toArray

/-- Element code (i, k) of a tile in tile layout, and the scale code of its block (R193). -/
def tileCode (bs : Array Byte) (bits i k : Nat) : Nat :=
  elemOf (fun a n => (List.range n).map (fun j => (bs[a + j]?).getD 0)) 0 bits (256 * i + k)
def tileScale (bs : Array Byte) (bits i b : Nat) : Nat := ((bs[8192 * bits + 8 * i + b]?).getD 0).toNat

/-- One operand of a block pair: its scale code, its 32 element values. -/
structure Blk where
  scale : Nat
  xs : List Val

/-- Whether a block is a zero block (R36). -/
def Blk.zero (b : Blk) : Bool := decide (b.scale % 256 / 4 = 0)

/-- Whether a block holds poison. -/
def Blk.bad (b : Blk) : Bool := b.xs.any Val.isPoison

/-- The contribution of one block pair (R79-R81). -/
def blockPair (a b : Blk) : Val :=
  if a.zero && b.zero then .num 0
  else if a.zero then (if b.bad then .poison else .num 0)
  else if b.zero then (if a.bad then .poison else .num 0)
  else
    let sum := (a.xs.zip b.xs).foldl (fun acc x => Val.map2 (· + ·) acc (Val.map2 (· * ·) x.1 x.2)) (.num 0)
    sum.map1 (· * (ks8Val a.scale * ks8Val b.scale))

/-- A KF16 run of 16 products, rounded once to 34 bits (R86). -/
def runSum (a b : List Val) : Val :=
  ((a.zip b).foldl (fun acc x => Val.map2 (· + ·) acc (Val.map2 (· * ·) x.1 x.2)) (.num 0)).map1 round34

/-- What an `mma` reads of one A tile: its slot, the slub records of its region, and how many of its K positions lie within K
(R78). -/
structure ATile where
  bs : Array Byte
  bits : Nat
  recs : List (Nat × Nat)
  slub : Bool
  ks : Nat := 256

/-- Whether an A element is an escape outside a zero block, within K (R29, R60). -/
def ATile.escape (a : ATile) (i k : Nat) : Bool :=
  decide (k < a.ks) && decide (a.bits = 4) && tileCode a.bs a.bits i k == 8 &&
  decide (tileScale a.bs a.bits i (k / 32) / 4 ≠ 0)

/-- The slub value of an A element, where exactly one record names it (R60). -/
def ATile.record (a : ATile) (i k : Nat) : Option Val := if a.slub then slubValue a.recs (256 * i + k) else none

/-- The value of an A element: 0 for a resolved escape (R29, R60), and 0 beyond K (R78). -/
def ATile.val (a : ATile) (i k : Nat) : Val :=
  let c := tileCode a.bs a.bits i k
  if a.ks ≤ k then .num 0
  else if a.bits = 4 then
    (if c = 8 then (if (a.record i k).isSome then .num 0 else .poison) else FloatFmt.kf4.decode c)
  else if a.bits = 8 then FloatFmt.kf8.decode c
  else kf16Val c

/-- Whether an A element is an escape that nothing resolves, outside a zero block: new poison (R29). -/
def ATile.lost (a : ATile) (i k : Nat) : Bool := a.escape i k && (a.record i k).isNone

/-- The escaped elements of a row that the slub lane retires, one per cycle, and so the array's stall cycles in a pass over rows
(R64): those that one record resolves (DESIGN CHOICE, log 140). -/
def ATile.escapes (a : ATile) (i : Nat) : Nat := ((List.range a.ks).filter (fun k => a.escape i k && (a.record i k).isSome)).length
def ATile.stalls (a : ATile) (rows : Nat) : Nat := ((List.range rows).map (fun i => a.escapes i - 1)).sum

/-- What an `mma` reads of one B tile by position k and column j: the element's value, its scale code, its KW6 code, whether it is
a KF4 escape, and the granule of its codes. -/
structure BTile where
  val : Nat → Nat → Val
  scale : Nat → Nat → Nat
  kw6 : Nat → Nat → Int
  lost : Nat → Nat → Bool
  half : ℚ

/-- The accumulator terms of one A row and one B column over one K tile (R79-R82, R86). -/
def dotTile (kf16 : Bool) (a : ATile) (b : BTile) (i j : Nat) : Val :=
  if kf16 then
    (List.range 16).foldl (fun acc r =>
      Val.map2 (· + ·) acc (runSum ((List.range 16).map (fun x => a.val i (16 * r + x)))
        ((List.range 16).map (fun x => b.val (16 * r + x) j)))) (.num 0)
  else
    let blocks := (List.range 8).foldl (fun acc q =>
      Val.map2 (· + ·) acc (blockPair
        ⟨tileScale a.bs a.bits i q, (List.range 32).map (fun x => a.val i (32 * q + x))⟩
        ⟨b.scale q j, (List.range 32).map (fun x => b.val (32 * q + x) j)⟩)) (.num 0)
    (List.range 256).foldl (fun acc k =>
      if a.escape i k then
        match a.record i k with
        | some v => Val.map2 (· + ·) acc (v.map1 (· * ((b.kw6 k j : ℚ) * b.half * ks8Val (b.scale (k / 32) j))))
        | none => acc
      else acc) blocks

/-! ## Operand tiles -/

/-- The slub records that an A tile's region holds, as they came with tile `p` of its stream, or read where the stream carries none (R28);
BAD_HANDLE where its header counts too many (R60). -/
def aRecords (s : State) (o : EngOp) (x : Stream) (p mt kt : Nat) : Ex (State × Bool × List (Nat × Nat)) :=
  let ah := (o.hs[0]?).getD noHandle
  match (if ah.slv && fld o.f.variant 2 0 == 1 then o.hs.find? (fun h => h.idx == ah.slub && h.fmt == 10) else none) with
  | some k => do
    let g := mt * ceilDiv ah.cols 256 + kt
    match x.regions.find? (fun r => r.1 == p) with
    | some r =>
      let rs ← theF s (slubRecords (fun _ a n => (r.2.drop (a - k.slubAddr g)).take n) k g) (fHandle k.idx)
      .ok (s, true, rs)
    | none =>
      let s1 ← reachView s o.t k [(k.slubAddr g, 4 * k.cols)] none
      let rs ← theF s1 (slubRecords (readV s1 o.t.ctx) k g) (fHandle k.idx)
      .ok (s1, true, rs)
  | none => .ok (s, false, [])

/-- The scale handle of B, which its tables follow (R31). -/
def EngOp.tables (o : EngOp) : Handle :=
  let bh := (o.hs[1]?).getD noHandle
  (o.hs.find? (fun h => h.idx == bh.scale && h.fmt == 6)).getD noHandle

/-- Table or zero-point bytes that follow a weight's scales (R31, R32, DEDUCED, log 40). -/
def kw6Byte (s : State) (o : EngOp) (k : Handle) (i : Nat) : Nat := ofBytes (readV s o.t.ctx k.idx (k.hi + i) 1)

/-- The KW6 code of a KI4 weight of column `j` (R31, R32). -/
def kw6Code (s : State) (o : EngOp) (k : Handle) (zp : Bool) (j q : Nat) : Int :=
  let g := Config.kw6Group (Config.kw6Choice k.words) j
  if zp then twos 4 q - twos 4 (kw6Byte s o k g)
  else max (-32) (min 31 (twos 8 (kw6Byte s o k (16 * g + q))))

/-- Saturated entries of the tables that an `mma` loads (R32). -/
def kw6Sat (s : State) (o : EngOp) (k : Handle) : Nat :=
  let gs := ((List.range o.n).map (Config.kw6Group (Config.kw6Choice k.words))).eraseDups
  (gs.map (fun g => ((List.range 16).filter (fun q =>
    let v := twos 8 (kw6Byte s o k (16 * g + q))
    decide (v < -32) || decide (31 < v))).length)).sum

/-- A B tile in tile layout (R193). -/
def bTileOf (s : State) (o : EngOp) (bs : Array Byte) (nt : Nat) : BTile :=
  let pair := fld o.f.variant 2 0
  let zp := bit o.f.variant 3
  let k := o.tables
  let kw (r j : Nat) : Int := kw6Code s o k zp (256 * nt + j) (tileCode bs 4 j r)
  match pair with
  | 1 | 5 =>
    { val := fun r j => .num ((kw r j : ℚ) * (if zp then 1 else 1 / 8)), scale := fun q j => tileScale bs 4 j q, kw6 := kw,
      lost := fun _ _ => false, half := if zp then 1 else 1 / 8 }
  | 0 | 3 =>
    { val := fun r j => FloatFmt.kf4.decode (tileCode bs 4 j r), scale := fun q j => tileScale bs 4 j q, kw6 := fun _ _ => 0,
      lost := fun r j => tileCode bs 4 j r == 8 && decide (tileScale bs 4 j (r / 32) / 4 ≠ 0), half := 1 }
  | 2 | 4 =>
    { val := fun r j => FloatFmt.kf8.decode (tileCode bs 8 j r), scale := fun q j => tileScale bs 8 j q, kw6 := fun _ _ => 0,
      lost := fun _ _ => false, half := 1 }
  | _ =>
    { val := fun r j => kf16Val (tileCode bs 16 j r), scale := fun _ _ => 0, kw6 := fun _ _ => 0,
      lost := fun _ _ => false, half := 1 }

/-- A gather entry's subpage as B (R124, R126, R286): absent slots read 0, scales that cover only them as zero blocks. -/
def bGather (bs : Array Byte) (d fill : Nat) (vpart : Bool) : BTile :=
  let byte (i : Nat) : Nat := ((bs[i]?).getD 0).toNat
  let none' : Nat → Nat → Bool := fun _ _ => false
  if vpart then
    { val := fun k j => if k < fill then FloatFmt.kf8.decode (byte (256 * d + k * d + j)) else .num 0,
      scale := fun q j => if 32 * q < fill then byte (520 * d + 8 * j + q) else 0, kw6 := fun _ _ => 0,
      lost := none', half := 1 }
  else
    { val := fun k j => if j < fill ∧ k < d then FloatFmt.kf8.decode (byte (j * d + k)) else .num 0,
      scale := fun q j => if j < fill ∧ 32 * q < d then byte (512 * d + j * (d / 32) + q) else 0, kw6 := fun _ _ => 0,
      lost := none', half := 1 }

/-! ## Accumulator images (R96, R97) -/

/-- The three words of an image entry. -/
def imageIx (i j k : Nat) : List Nat := [i, j, k]

/-- Spans of an image tile. -/
def imageSpans (h : Handle) (mt nt m n : Nat) : List (Nat × Nat) :=
  (List.range (min 256 (m - 256 * mt))).map (fun i =>
    let a := h.loc + 8 * h.off (imageIx (256 * mt + i) (256 * nt) 0)
    let e := h.loc + 8 * h.off (imageIx (256 * mt + i) (min (256 * nt + 255) (n - 1)) 2) + 8
    (a, e - a))

/-- An entry as it is loaded at a tile's first pass: a magnitude of 2^88 or more is poison, counted as new (R97). -/
def imageLoad (c : BitVec 192) : Val × Cnt :=
  match la192 c with
  | .poison => (.poison, {})
  | .num q => if pow2 88 ≤ qabs q then (.poison, { new := 1 }) else (.num q, {})

/-- An entry as it is reloaded after a spill: exactly (R95). That the test of R97 is not made again is read from R95 and R99
(DEDUCED, log 121). -/
def imageReload (c : BitVec 192) : Val × Cnt := (la192 c, {})

/-- A tile's accumulators from its image. -/
def loadImage (s : State) (o : EngOp) (h : Handle) (mt nt : Nat) (load : BitVec 192 → Val × Cnt) : List (List (Val × Cnt)) :=
  (List.range (min 256 (o.m - 256 * mt))).map (fun i => (List.range (min 256 (o.n - 256 * nt))).map (fun j =>
    let w (k : Nat) := elemV s o.t.ctx h (imageIx (256 * mt + i) (256 * nt + j) k)
    load (BitVec.ofNat 192 (w 0 + w 1 * 2 ^ 64 + w 2 * 2 ^ 128))))

/-- A tile's accumulators are written to its image. -/
def storeImage (s : State) (o : EngOp) (h : Handle) (a : AccTile) : State :=
  putElemsV s o.t.ctx h (.op o.id) (a.q.zipIdx.flatMap (fun r => r.1.zipIdx.flatMap (fun e => (List.range 3).map (fun k =>
    (imageIx (256 * a.mt + r.2) (256 * a.nt + e.2) k, e.1.toNat / 2 ^ (64 * k) % 2 ^ 64)))))

/-! ## Running (R93-R99) -/

/-- A pass: the level-1 chunk it belongs to with its number, and its M, N and K tiles (R93). -/
structure Pass where
  i : Nat
  c : Chunk
  m : Nat
  n : Nat
  k : Nat
  deriving DecidableEq, Repr

/-- The passes of chunks in order, each visited in ORDER1 (R93). -/
def passesOf (ord : Nat) (cs : List Chunk) : List Pass :=
  cs.zipIdx.flatMap (fun x =>
    let c := x.1
    nest ord ((List.range (c.m1 - c.m0)).map (c.m0 + ·)) ((List.range (c.n1 - c.n0)).map (c.n0 + ·))
      ((List.range (c.k1 - c.k0)).map (c.k0 + ·)) (fun m n k => ⟨x.2, c, m, n, k⟩))

/-- The passes of an issued `mma` (R93). -/
def mmaPasses (o : EngOp) : List Pass := passesOf (descOf (o.reg o.f.sl4) 1 1 1).ord (mmaChunks o)

/-- Whether an `mma` has made its last pass. -/
def passesDone (o : EngOp) : Bool := o.tag == .mma && decide ((mmaPasses o).length ≤ o.prog)

/-- The accumulator slots of a thread's spindle that hold a tile, of its primary's and its filler's instructions (R88); those that a filler
holds between its steps delay no primary (R221; DESIGN CHOICE, log 124). -/
def slotsUsed (s : State) (t : Tid) : Nat :=
  ((s.ops.filter (fun x => x.tag == .mma && x.t.lsp == t.lsp && (partners s t.ctx).contains x.t.ctx.val &&
    ((getC s t.ctx).filler || !(getC s x.t.ctx).filler))).map (fun x => x.acc.length + x.out.length)).sum

/-- Position of an A or a B tile in its stream: tiles of the level-2 chunks before, and its place in its chunk. -/
def aPos (o : EngOp) (l2 : List Chunk) (c : Chunk) (m k : Nat) : Nat :=
  let big := (l2[c.c2]?).getD c
  o.aBase + (((l2.take c.c2).map (fun z => (aTiles z).length)).sum) + (m - big.m0) * (big.k1 - big.k0) + (k - big.k0)
def bPos (o : EngOp) (l2 : List Chunk) (c : Chunk) (k n : Nat) : Nat :=
  let big := (l2[c.c2]?).getD c
  o.bBase + (((l2.take c.c2).map (fun z => (bTiles z).length)).sum) + (k - big.k0) * (big.n1 - big.n0) + (n - big.n0)

/-- The binding of an issued `mma`. -/
def EngOp.binding (o : EngOp) : Binding := bindingOf o.f.sl5 (o.reg o.f.sl5)

/-- The gather entry that a binding names, delivered and not freed. -/
def boundEntry (x : Stream) (b : Binding) : Option GEnt :=
  x.gents.find? (fun e => e.list == b.glist && e.entry == b.gentry && !e.freed)

/-- The image handle of an issued `mma`. -/
def EngOp.image (o : EngOp) : Option Handle := if o.binding.img = 0 then none else o.hs.find? (fun h => h.idx == o.binding.imgh && h.fmt == 11)

/-- The B tile (kt, nt) that an `mma` reads, from its slot. -/
def readTileB (s : State) (o : EngOp) (l2 : List Chunk) (c : Chunk) (kt nt : Nat) : Ex BTile := do
  let b := o.binding
  let x ← the (stream? s o.t b.bstr) "the B stream is not open"
  if x.kind == .gather then
    let e ← the (boundEntry x b) "the entry is not delivered (R286)"
    let bh := (o.hs[1]?).getD noHandle
    let d := bh.dim (bh.rank - 1)
    .ok (bGather (slotBytes s x e.slot (528 * d)) d e.fill b.gpart)
  else
    let p := bPos o l2 c kt nt
    can (x.has p) "a B tile is not in its slot (R196)"
    .ok (bTileOf s o (slotBytes s x (x.slotNo p) (footprint ((o.hs[1]?).getD noHandle).fmt)) nt)

/-- The A tile (mt, kt) that an `mma` reads, from its slot, with its slub records. -/
def readTileA (s : State) (o : EngOp) (l2 : List Chunk) (c : Chunk) (mt kt : Nat) : Ex (State × ATile) := do
  let x ← the (stream? s o.t o.binding.astr) "the A stream is not open"
  let p := aPos o l2 c mt kt
  can (x.has p) "an A tile is not in its slot (R196)"
  let ah := (o.hs[0]?).getD noHandle
  let (s1, slub, recs) ← aRecords s o x p mt kt
  .ok (s1, ⟨slotBytes s1 x (x.slotNo p) (footprint ah.fmt), ah.ebits, recs, slub, min 256 (ah.cols - 256 * kt)⟩)

/-- One pass: the accumulators of its D tile with the products of its A and B tiles added, what is counted of lost escapes (each
element once per instruction: A elements in the first N tile, B elements in the first M tile), and the stall cycles (R64). -/
def passTile (s : State) (o : EngOp) (l2 : List Chunk) (p : Pass) (start : List (List Val)) :
    Ex (State × List (List Val) × Cnt × Nat) := do
  let kf16 := fld o.f.variant 2 0 == 6
  let (s1, a) ← readTileA s o l2 p.c p.m p.k
  let b0 ← readTileB s1 o l2 p.c p.k p.n
  let b : BTile := { b0 with val := fun k j => if k < a.ks then b0.val k j else .num 0 }
  let rows := start.zipIdx.map (fun r => r.1.zipIdx.map (fun v => Val.map2 (· + ·) v.1 (dotTile kf16 a b r.2 v.2)))
  let lostA := if p.n = 0 then ((List.range start.length).map (fun i => ((List.range a.ks).filter (a.lost i)).length)).sum else 0
  let lostB := if p.m = 0 then ((List.range (start.headD []).length).map (fun j =>
    ((List.range a.ks).filter (fun k => b.lost k j)).length)).sum else 0
  .ok (s1, rows, { new := lostA + lostB }, a.stalls start.length)

/-- The slots that the last pass to read them frees (R285): A's unless KEEPA holds the last level-2 chunk's, and B's; a gather entry
after the last pass of its V part. -/
def freePass (s : State) (o : EngOp) (ps : List Pass) (l2 : List Chunk) (j : Nat) (p : Pass) : State :=
  let b := o.binding
  let later := ps.drop (j + 1)
  let s1 := match stream? s o.t b.astr with
    | none => s
    | some x =>
      if (b.keepa && p.c.c2 + 1 == l2.length) || later.any (fun q => q.c.c2 == p.c.c2 && q.m == p.m && q.k == p.k) then s
      else setStream s (x.release (aPos o l2 p.c p.m p.k))
  match stream? s1 o.t b.bstr with
  | none => s1
  | some x =>
    if x.kind == .gather then
      (if later.isEmpty && b.gpart then setStream s1 { x with gents := x.gents.map (fun e =>
         if e.list == b.glist && e.entry == b.gentry then { e with freed := true } else e) } else s1)
    else if later.any (fun q => q.c.c2 == p.c.c2 && q.n == p.n && q.k == p.k) then s1
    else setStream s1 (x.release (bPos o l2 p.c p.k p.n))

/-- The accumulators with which a pass starts: held in their slot, reloaded exactly after a spill (R95), loaded from the image (R96,
R97), or 0; with what their loading counts. -/
def startTile (s : State) (o : EngOp) (cs : List Chunk) (p : Pass) : Ex (State × List (List Val) × Cnt) :=
  let load (h : Handle) (f : BitVec 192 → Val × Cnt) : Ex (State × List (List Val) × Cnt) := do
    let s1 ← reachView s o.t h (imageSpans h p.m p.n o.m o.n) none
    let v := loadImage s1 o h p.m p.n f
    .ok (s1, v.map (fun r => r.map (·.1)), sumCnt (v.map (fun r => sumCnt (r.map (·.2)))))
  match o.acc.find? (fun a => a.mt == p.m && a.nt == p.n), o.image with
  | some a, _ => .ok (s, a.q.map (fun r => r.map la192), {})
  | none, some h =>
    if (cs.take p.i).any (fun c => covers c (p.m, p.n)) then load h imageReload
    else if o.binding.img == 1 || o.binding.img == 3 then load h imageLoad
    else .ok (s, List.replicate (min 256 (o.m - 256 * p.m)) (List.replicate (min 256 (o.n - 256 * p.n)) (.num 0)), {})
  | none, none =>
    .ok (s, List.replicate (min 256 (o.m - 256 * p.m)) (List.replicate (min 256 (o.n - 256 * p.n)) (.num 0)), {})

/-- A tile's accumulators go to its image: a spill, or the end in modes out and in and out (R95, R96). -/
def tileOut (s : State) (o : EngOp) (a : AccTile) : Ex State := do
  let h ← the o.image "no image"
  let s1 ← reachView s o.t h (imageSpans h a.mt a.nt o.m o.n) (some (.op o.id))
  .ok (storeImage s1 o h a)

/-- Where a tile goes after a pass: with its K reduction complete it is read out, handed off or written to its image; else it stays
in its slot (R95, R96). -/
def placeTile (s : State) (o : EngOp) (kt : Nat) (p : Pass) (a : AccTile) : Ex (State × EngOp) :=
  let others := o.acc.filter (fun x => !(x.mt == a.mt && x.nt == a.nt))
  if p.k + 1 ≠ kt then .ok (s, { o with acc := others ++ [a] })
  else if 2 ≤ o.binding.img then do
    let s1 ← tileOut s o a
    .ok (s1, { o with acc := others })
  else .ok (s, { o with acc := others, out := o.out ++ [a] })

/-- A level-1 chunk ends: the tiles that the next one does not cover are spilled (R95). -/
def spillTiles (s : State) (o : EngOp) (cs : List Chunk) (kt i : Nat) : Ex (State × EngOp) := do
  let go := o.acc.filter (fun a => spillsAfter cs kt i (a.mt, a.nt))
  let s1 ← go.foldlM (fun s a => tileOut s o a) s
  .ok (s1, { o with acc := o.acc.filter (fun a => !spillsAfter cs kt i (a.mt, a.nt)) })

/-- A readout element in the D format (R87). -/
def readoutCode (fmt : Nat) (v : Val) : Nat × Cnt :=
  match v with
  | .poison => (if fmt = 4 then FloatFmt.kf16.poisonCode else FloatFmt.kf32.poisonCode, {})
  | .num q =>
    let F := if fmt = 4 then FloatFmt.kf16 else FloatFmt.kf32
    let r := F.round q
    (F.encode r.1, { sat := if r.2 then 1 else 0 })

/-- Tiles complete after the first `i` passes. -/
def doneTiles (ps : List Pass) (kt i : Nat) : Nat := ((ps.take i).filter (fun p => p.k + 1 == kt)).length

/-- An `mma` after a unit of its work: complete with its last pass made and nothing left to read out. -/
def mmaNext (s : State) (o : EngOp) : State :=
  if passesDone o && o.out.isEmpty then settle (dropOp s o) o.t.ctx else setOp s o

/-- What an instruction has met in a tile and not yet accounted for, and the instruction with more of it, or without (R44). -/
def EngOp.metIn (o : EngOp) (m n : Nat) : Cnt := sumCnt ((o.met.filter (fun x => x.1 == m && x.2.1 == n)).map (·.2.2))
def EngOp.meets (o : EngOp) (m n : Nat) (k : Cnt) : EngOp := { o with met := o.met ++ [(m, n, k)] }
def EngOp.told (o : EngOp) (m n : Nat) : EngOp := { o with met := o.met.filter (fun x => !(x.1 == m && x.2.1 == n)) }

/-- Readout of the first complete tile into the D stream (R87, R285); all that its passes and its readout have met is counted as one, with
one fault (R44). -/
def readoutTile (s : State) (o : EngOp) (a : AccTile) : Ex State := do
  let x ← the (stream? s o.t o.binding.dstr) "the D stream is not open"
  let n := o.dBase + doneTiles (mmaPasses o) (mmaTiles o).2.2 o.prog - o.out.length
  can (x.free n && x.filled == n) "the D slot is not free (R196)"
  let fmt := ((o.hs[2]?).getD noHandle).fmt
  let rows := a.q.map (fun r => r.map (fun v => readoutCode fmt (la192 v)))
  let s1 ← account s o.t.ctx ((o.metIn a.mt a.nt).add (sumCnt (rows.map (fun r => sumCnt (r.map (·.2))))))
  let w := 256 * bitsOf fmt / 8
  let s2 := rows.zipIdx.foldl (fun s r =>
    slotWrite s x (x.slotOff (x.slotNo n) + w * r.2) (packCodes (bitsOf fmt) (r.1.map (·.1)))) s1
  .ok (mmaNext (setStream s2 { x.put n with filled := n + 1 }) { o.told a.mt a.nt with out := o.out.drop 1 })

/-- The tables or zero points of KI4 weights are loaded before the first pass: saturated entries count (R31, R32). -/
def loadTables (s : State) (o : EngOp) : Ex (State × Cnt) :=
  let k := o.tables
  if o.prog = 0 && ((o.hs[1]?).getD noHandle).fmt == 1 then do
    let s1 ← reachView s o.t k [(k.hi, kw6Bytes k o.n (bit o.f.variant 3))] none
    .ok (s1, { sat := if bit o.f.variant 3 then 0 else kw6Sat s1 o k })
  else .ok (s, {})

/-- The next pass of an `mma` (R93, R95); its slots are freed at once where `free` says so. What a tile's passes meet is accounted for when the
tile is delivered: here where it goes to its image or to a hand-off, else at its readout (R44). -/
def runPass (s : State) (o : EngOp) (free : Bool) : Ex (State × EngOp) := do
  let ps := mmaPasses o
  let cs := mmaChunks o
  let l2 := mmaChunks2 o
  let kt := (mmaTiles o).2.2
  let p ← the (ps[o.prog]?) "every pass has run"
  can (o.acc.any (fun a => a.mt == p.m && a.nt == p.n) || decide (slotsUsed s o.t < 2)) "both accumulator slots are in use (R88)"
  let (s1, k1) ← loadTables s o
  let (s2, start, k2) ← startTile s1 o cs p
  let (s3, vals, k3, stall) ← passTile s2 o l2 p start
  let o := o.meets p.m p.n ((k1.add k2).add k3)
  let ends := p.k + 1 == kt && (o.binding.hand || decide (2 ≤ o.binding.img))
  let s4 ← if ends then account s3 o.t.ctx (o.metIn p.m p.n) else .ok s3
  let (s5, o1) ← placeTile (bumpC s4 o.t.ctx kQstall stall) (if ends then o.told p.m p.n else o) kt p
    ⟨p.m, p.n, vals.map (fun r => r.map la192Code)⟩
  let (s6, o2) ← if (ps[o.prog + 1]?).any (fun q => q.i == p.i) then .ok (s5, o1) else spillTiles s5 o1 cs kt p.i
  .ok (if free then freePass s6 o ps l2 o.prog p else s6, { o2 with prog := o.prog + 1 })

/-- Array order: earlier `mma`s have made their passes, and an earlier `card.sel` is complete (R88, R91, R140). -/
def mayPass (s : State) (o : EngOp) : Bool := mayRunIf passesDone s o

/-- One unit of an `mma`: a readout that waits, or the next pass (R93, R95). -/
def runMma (s : State) (o : EngOp) : Ex State := do
  can (mayPass s o) "an earlier instruction is not complete (R275)"
  match (if o.binding.hand then none else o.out.head?) with
  | some a => readoutTile s o a
  | none => do
    let (s1, o1) ← runPass s o true
    .ok (mmaNext s1 o1)

/-- The passes of a filler's step (R221): one level-1 chunk. No operand slot is freed yet; a tile whose K reduction goes on in the
next chunk keeps its accumulators (DESIGN CHOICE, log 124). -/
def stepPasses (i : Nat) : List Pass → State → EngOp → Ex (State × EngOp)
  | [], s, o => .ok (s, o)
  | p :: r, s, o =>
    if p.i == i then do
      let (s1, o1) ← runPass s o false
      stepPasses i r (setOp s1 o1) o1
    else .ok (s, o)

/-- The slots that a filler's step from pass `j` on has read for the last time are freed (R221). -/
def freeStep (s : State) (o : EngOp) (j : Nat) : State :=
  let ps := mmaPasses o
  let l2 := mmaChunks2 o
  (ps.zipIdx.filter (fun x => decide (j ≤ x.2) && decide (x.2 < o.prog))).foldl (fun s x => freePass s o ps l2 x.2 x.1) s

/-- The tiles of an `mma` that wait are read out. -/
def readAll : Nat → State → Nat → Ex State
  | 0, s, _ => .ok s
  | n + 1, s, id =>
    match (s.ops.find? (fun x => x.id == id)).bind (fun o => o.out.head?.map (fun a => (o, a))) with
    | some (o, a) => do
      let s1 ← readoutTile s o a
      readAll n s1 id
    | none => .ok s

end Sys2Proof.Machine
end

