-- ==== Sys2Proof/Machine/Splice.lean ====
section
/-! DEFINITION. Splices (11, 13, R66-R74): spl.begin and its pool, commit, check, replay, fill, flip, abort, status. -/

namespace Sys2Proof.Machine

/-! ## Declarations (R305, R306) -/

/-- The declaration of a handle: its span, granule by granule, with no shadow yet (R306). -/
def declare (h : Handle) : Decl :=
  let lo := h.loc / 4096 * 4096
  { idx := h.idx, base := h.w0, span := lo, len := roundUp (h.hi - lo) 4096, shadow := 0 }

/-- The handles that R305 adds for the handles listed. -/
def addedHandles (hs : List Handle) : List Nat :=
  hs.foldl (fun acc h =>
    let a1 := if h.scv && !(hs.any (fun k => k.idx == h.scale)) && !acc.contains h.scale then acc ++ [h.scale] else acc
    if h.slv && !(hs.any (fun k => k.idx == h.slub)) && !a1.contains h.slub then a1 ++ [h.slub] else a1) []

/-- The `spl.begin` instructions of a partition that wait for pool space: thread, slot, declarations, issue number. -/
def poolWaiters (s : State) (p : Nat) : List (Nat × List Decl × Nat) :=
  s.threads.filterMap (fun k => match k.2.block with
    | .pool _ ds seq => if partOf (k.1 / 64) = p then some (k.1, ds, seq) else none
    | _ => none)

/-- Whether a handle of a context is declared, by an existing splice or by a `spl.begin` that waits. -/
def declared (s : State) (c h : Nat) : Bool :=
  (declOf s c h).isSome ||
  (poolWaiters s (partOf c)).any (fun w => decide (w.1 / 64 = c) && w.2.1.any (fun d => d.idx == h))

/-- The lowest free splice slot of a partition (R265). -/
def freeSlot (s : State) (p : Nat) : Option Nat :=
  (List.range 256).find? (fun n => !(s.splices.any (fun x => x.part.val == p && x.slot == n)))

/-- The GEN that a slot takes next (R265): 0 at its first use. -/
def nextGen (s : State) (p slot : Nat) : BitVec 16 :=
  match tabGet? s.gens (256 * p + slot) with
  | none => 0
  | some g => g + 1

/-- The capacity of a partition's pool (R307, R314). -/
def poolCapacity (s : State) (p : Nat) : Nat := rfld s (.prtSplpool p) 63 45 * pageBytes

/-- The lowest free run of a partition's pool that holds `n` bytes, and the free runs left. -/
def poolTake (p n : Nat) : List (Nat × Nat × Nat) → Option (Nat × List (Nat × Nat × Nat))
  | [] => none
  | (q, a, m) :: r =>
    if q = p ∧ n ≤ m then some (a, if n = m then r else (q, a + n, m - n) :: r)
    else (poolTake p n r).map (fun x => (x.1, (q, a, m) :: x.2))

/-- Shadows for all declarations, in order, or none (R308). -/
def poolTakeAll (p : Nat) : List Decl → List (Nat × Nat × Nat) → Option (List Decl × List (Nat × Nat × Nat))
  | [], r => some ([], r)
  | d :: ds, r =>
    match poolTake p d.len r with
    | none => none
    | some (a, r1) => (poolTakeAll p ds r1).map (fun x => ({ d with shadow := a } :: x.1, x.2))

/-- A splice token (R265). -/
def token (c slot : Nat) (gen : BitVec 16) : Word := BitVec.ofNat 64 (c * 2 ^ 24 + gen.toNat * 256 + slot)

/-- A splice opens: the token is written, the thread goes on, and the replay point is what stands then (R72, R266). -/
def openSplice (s : State) (t : Tid) (th : Thread) (slot reg : Nat) (ds : List Decl)
    (free : List (Nat × Nat × Nat)) : State :=
  let p := partOf t.ctx.val
  let gen := nextGen s p slot
  let th1 := advance { setReg th reg (token t.ctx.val slot gen) with block := .none }
  let s1 := setT (notReplayable { s with pool := free, seq := s.seq + 1, gens := tabSet s.gens (256 * p + slot) gen } t) t th1
  let pt : Replay := { s := th1.s, lc := th1.lc, loops := th1.loops, stack := th1.stack, pc := th1.pc,
                       streams := s.streams.filter (fun x => x.t == t) }
  { s1 with splices := s1.splices ++ [{ part := Fin.ofNat 4 p, slot := slot, gen := gen, opener := t, decls := ds,
                                        replay := pt, committer := t }] }

/-- The declarations that `spl.begin` reads through its descriptor, after the checks of R266 and R305. -/
def readDecls (s : State) (c : Nat) (d : Word) : Ex (List Decl) := do
  let p := partOf c
  let n := fld d 59 48 + 1
  let a := fld d 47 0
  needF s (fld d 63 60 == 0) fSplice
  needF s (a % 2 == 0 && inHbmOrPinned s p a (2 * n) && !inReel s a (2 * n)) (fAddr (gAddr s a))
  needF s (!ueIn s a (2 * n)) (fMemUe (gAddr s a))
  let is := (List.range n).map (fun i => rdN s (a + 2 * i) 2)
  let hs ← is.mapM (getH s c)
  needF s (is.eraseDups.length == n && !is.any (declared s c)) fSplice
  let more := addedHandles hs
  let ks ← more.mapM (getH s c)
  needF s (!more.any (declared s c)) fSplice
  let all := hs ++ ks
  needF s (decide (all.length ≤ 4096)) fSplice
  needF s (all.all (fun h => !h.pmv && h.dev == devId s)) fSplice
  let ds := all.map declare
  needF s (ds.all (fun x => inHbmOrPinned s p x.span x.len)) fSplice
  needF s (ds.all (fun x => !inReel s x.span x.len)) (fAddr (gAddr s ((ds.find? (fun x => inReel s x.span x.len)).elim 0 (·.span))))
  .ok ds

/-- spl.begin (R265, R266, R305, R308): SPLICE where no slot is free or the shadows exceed the pool's capacity; the
thread blocks where they do not fit now, whoever else waits. -/
def execSplBegin (t : Tid) (f : Fields) (s : State) : Res :=
  runThread s t fun s th => do
    dec s (formOk f 0 0 [.scalar])
    let d ← src th f.sl0
    let p := partOf t.ctx.val
    let ds ← readDecls s t.ctx.val d
    let slot ← theF s (freeSlot s p) fSplice
    needF s (decide ((ds.map (·.len)).sum ≤ poolCapacity s p)) fSplice
    match poolTakeAll p ds s.pool with
    | some (ds', free) => .ok (openSplice s t th slot f.sl0.toNat ds' free)
    | none => .ok (setT { s with seq := s.seq + 1, poolWaited := t.ctx.val :: s.poolWaited.erase t.ctx.val } t
        { th with block := .pool f.sl0.toNat ds s.seq })

/-- A blocked `spl.begin` gets its shadows, in issue order (R308), and takes its slot (DEDUCED, log 64). -/
def execSplPoolGrant (t : Tid) (s : State) : Res :=
  runPlain do
    can (powered s && !s.failed) "the device is not powered"
    let th ← the (getT? s t) "the thread does not exist"
    let p := partOf t.ctx.val
    match th.block with
    | .pool reg ds seq =>
      can ((poolWaiters s p).all (fun w => decide (seq ≤ w.2.2))) "an earlier spl.begin waits (R308)"
      let slot ← the (freeSlot s p) "no splice slot is free (R265)"
      let (ds', free) ← the (poolTakeAll p ds s.pool) "the shadows do not fit (R308)"
      .ok (openSplice s t th slot reg ds' free)
    | _ => .error (.no "the thread waits for no pool space")

/-! ## Commit (R267, R70, R311) -/

/-- The splice that a token names for a context (R265). -/
def spliceOf (s : State) (c : Nat) (tok : Word) : Option Splice :=
  if fld tok 63 30 = 0 ∧ fld tok 29 24 = c then
    s.splices.find? (fun x => x.opener.ctx.val == c && x.slot == fld tok 7 0 && x.gen.toNat == fld tok 23 8)
  else none

/-- spl.commit (R267): the thread blocks until the commit check. -/
def execSplCommit (t : Tid) (f : Fields) (s : State) : Res :=
  runThread s t fun s th => do
    dec s (formOk f 0 0 [.scalar])
    let tok ← src th f.sl0
    noProducer s th
    let x ← theF s (spliceOf s t.ctx.val tok) fSplice
    needF s (x.st == .opened) fSplice
    let x1 := { x with st := .pending, committer := t, tokenReg := f.sl0.toNat,
                       replayable := x.replayable && x.opener == t }
    .ok (setT (setSplice { s with seq := s.seq + 1 } x1) t { th with block := .commit x.slot f.sl0.toNat })

/-- Whether what the commit check waits for holds (R267): the thread's earlier work, and the drains of the context's
store streams to declared handles. -/
def commitReady (s : State) (x : Splice) : Bool :=
  let c := x.committer
  (match getT? s c with
   | some th => workDone s c th 0 && storesDrained s c
   | none => false) &&
  s.streams.all (fun y => y.t.ctx != c.ctx || y.kind != .store || decide (y.filled ≤ y.drained) ||
    !((farHandles y).any (fun h => x.decls.any (fun d => d.idx == h))))

/-- Whether a splice's health fails under the acting policy's mask (R68). -/
def healthFails (s : State) (x : Splice) : Bool :=
  let q := actR s (.qhpol x.opener.ctx)
  (bit q 4 && x.nUnder != 0) || (bit q 5 && x.nOver != 0) || (bit q 6 && x.nSlub != 0) || (bit q 7 && x.nClip != 0)

/-- POLICY in force: 0 Ignore, 1 Replay, 2 Fault (R68, R69). -/
def qhPolicy (s : State) (c : Nat) : Nat := fld (actR s (.qhpol c)) 1 0

/-- The slots of a stream that hold tiles below `n`. -/
def Stream.slotsBelow (x : Stream) (n : Nat) : List (Option Nat) :=
  x.slots.map (fun k => if k.any (fun t => decide (t < n)) then k else none)

/-- A gather stream as it resumes at the first entry that was not freed at the replay point (R72). -/
def rewindGather (now old : Stream) : Stream :=
  let again := old.gents.filter (fun e => !e.freed)
  let (l, e) := match again with
    | k :: _ => (k.list, k.entry)
    | [] => (old.gList, old.gEntry)
  { now with gList := l, gEntry := e, gCount := none, filled := old.filled - again.length, cons := old.cons, live := old.live || !again.isEmpty,
             miss := none, begun := false, gents := now.gents.filter (fun k => decide (k.list < l ∨ (k.list = l ∧ k.entry < e))) }

/-- A stream at a replay point's positions (R72): a load stream delivers again from its consumer position; a store or local stream
drops what was produced after its producer position. What earlier instructions have freed or drained since stays so. -/
def rewind (now old : Stream) : Stream :=
  let z : Stream := { now with
    cons := old.cons, kept := old.kept, prod := old.prod, before := min now.before old.prod, segs := old.segs, miss := none, begun := false }
  match old.walk, old.kind with
  | .lists _ _, _ => rewindGather now old
  | .localS, _ | _, .store =>
    { z with filled := min now.filled old.prod, drained := min now.drained old.prod, slots := now.slotsBelow old.prod,
             short := now.short.filter (fun x => decide (x.1 < old.prod)),
             shapes := now.shapes.filter (fun x => decide (x.tile < old.prod)) }
  | _, _ => { z with filled := old.cons, dropped := now.dropped || old.kind == .member, slots := now.slotsBelow old.cons }

/-- A replay (R70, R72): shadows discarded, health counters cleared, the replay point restored. -/
def replaySplice (s : State) (x : Splice) (th : Thread) : State :=
  let t := x.opener
  let pt := x.replay
  let x1 := { x with st := .opened, nUnder := 0, nOver := 0, nSlub := 0, nClip := 0, replayed := true,
                     decls := x.decls.map (fun d => { d with written := [] }), scrRead := [], scrWritten := [] }
  let s1 := bumpC (setSplice s x1) t.ctx kReplay 1
  let s2 := pt.entries.foldl (fun s e => wr s e.1 e.2) s1
  let ys := s2.streams.filterMap (fun y =>
    if y.t == t then (pt.streams.find? (fun o => o.sid == y.sid && o.seq == y.seq)).map (rewind y) else some y)
  let s3 : State := { (ys.filter (fun y => y.t == t && y.kind != .gather)).foldl setStream { s2 with streams := ys } with
    groups := s2.groups.filterMap (fun g =>
      if g.members.any (fun m => m.t == t) then leaveGroup s2 (g.members.filter (fun m => m.t != t)) g else some g) }
  setT s3 t { th with s := pt.s, lc := pt.lc, loops := pt.loops, stack := pt.stack, pc := pt.pc, block := .none }

/-- A commit check passes (R267): the thread goes on, and the fill may begin. -/
def passSplice (s : State) (x : Splice) (th : Thread) (degraded : Bool) : State :=
  let full := x.decls.all (fun d => decide (d.written.length = d.len / 4096))
  let s1 := setSplice s { x with st := .passed, degraded := degraded, filledIn := full, passed := s.seq,
                                 nUnder := 0, nOver := 0, nSlub := 0, nClip := 0 }
  stepOn (if degraded then bumpC s1 x.opener.ctx kDegraded 1 else s1) x.committer { th with block := .none }

/-- A splice whose fault test fails (R311): discarded, its token register 0, its record due. -/
def dropSplice (s : State) (x : Splice) (th : Thread) : State :=
  let c := x.opener.ctx.val
  let s1 := dueUp (bumpC (discardSplice s x) c kSplDiscard 1)
    { ring := c, kind := 1, flags := 8, ref := (token c x.slot x.gen).setWidth 32 }
  stepOn s1 x.committer { setReg th x.tokenReg 0 with block := .none }

/-- The commit check (R70, R267, R311): the fault test, then the health test under the context's policy. -/
def execCommitCheck (p : PartN) (slot : BitVec 8) (s : State) : Res :=
  let found := s.splices.find? (fun x => x.part == p && x.slot == slot.toNat && x.st == .pending)
  let who := match found with
    | some x => x.committer
    | none => tid 0 0
  runEvent (do
    can (powered s && !s.failed) "the device is not powered"
    let x ← the found "no commit check is pending in the slot"
    let th ← the (getT? s x.committer) "the thread does not exist"
    can (commitReady s x) "prior work is not complete (R267)"
    if x.hurt || x.decls.any (fun d => ueIn s d.shadow d.len) then .ok (dropSplice s x th)
    else if qhPolicy s x.opener.ctx == 1 && healthFails s x then
      if x.replayable && !x.replayed then .ok (replaySplice s x th)
      else if bit (actR s (.qhpol x.opener.ctx)) 2 then .error (.fault s fQhealth)
      else .ok (passSplice s x th true)
    else .ok (passSplice s x th false)) who (pcOf s who)

/-! ## Fill and flip (R312-R314) -/

/-- The granules of a declaration that are not written. -/
def Decl.blank (d : Decl) : List Nat := (List.range (d.len / 4096)).filter (fun g => !d.written.contains g)

/-- One declaration's unwritten granules are copied into its shadow (R312): the committed granules are read and the shadow's
written as an access from no quarter's engine is. -/
def fillDecl (s : State) (c : Nat) (d : Decl) : Ex State :=
  d.blank.foldlM (fun s g => do
    let s1 ← admitPages s 4 c (d.span + 4096 * g) 4096 false
    let s2 ← admitPages s1 4 c (d.shadow + 4096 * g) 4096 true
    .ok (copyGranule s2 (d.span + 4096 * g) (d.shadow + 4096 * g))) s

/-- The shadow fill of a passed splice finishes (R312). -/
def execShadowFillComplete (p : PartN) (slot : BitVec 8) (s : State) : Res :=
  runPlain do
    can (powered s && !s.failed) "the device is not powered"
    let x ← the (s.splices.find? (fun x => x.part == p && x.slot == slot.toNat && x.st == .passed && !x.filledIn))
      "no shadow fill is running in the slot"
    let c := x.opener.ctx.val
    let s1 ← x.decls.foldlM (fun s d => fillDecl s c d) s
    .ok (bumpC (setSplice s1 { x with filledIn := true }) c kSplFill (x.decls.map (fun d => d.blank.length)).sum)

/-- Word 0 of a declared handle's entry after the flip (R306, R313). -/
def flippedBase (d : Decl) : Word := setFld d.base 47 0 (d.shadow + fld d.base 11 0)

/-- A splice flips (R313, R314): entries rewritten, superseded spans retire, the splice ends, its record falls due. -/
def flipSplice (s : State) (x : Splice) : State :=
  let c := x.opener.ctx.val
  let s1 := x.decls.foldl (fun s d => wr s (entryAddr s c d.idx) (wordBytes (flippedBase d))) s
  let s2 : State := { s1 with splices := s1.splices.filter (fun y => !(y.part == x.part && y.slot == x.slot)) }
  let s3 := x.decls.foldl (fun s d => poolFree s { part := x.part, span := d.span, dest := d.shadow, len := d.len,
                                                   ctx := x.opener.ctx, idx := d.idx, seq := s.seq, flip := true }) s2
  dueUp (bumpC s3 c kSplCommit 1)
    { ring := c, kind := 1, flags := if x.degraded then 4 else 0, ref := (token c x.slot x.gen).setWidth 32 }

/-- The splices ready under R312, in the order of R313. -/
def readySplices (s : State) : List Splice :=
  (s.splices.filter (fun x => x.st == .passed && x.filledIn)).mergeSort (fun x y =>
    decide (x.opener.ctx.val < y.opener.ctx.val) || (x.opener.ctx == y.opener.ctx && decide (x.passed ≤ y.passed)))

/-! ## Abort and status (R268-R270) -/

/-- Whether an incomplete instruction of a thread writes a handle that a splice declares (R268). -/
def writesDeclared (s : State) (t : Tid) (x : Splice) : Bool :=
  let dcl (h : Nat) : Bool := x.decls.any (fun d => d.idx == h)
  let far (sid : Nat) : Bool := s.streams.any (fun y => y.t == t && y.sid == sid && (farHandles y).any dcl)
  s.ops.any (fun o => o.t == t && (o.writes.any dcl || o.claims.any (fun c => c.fills && far c.sid))) ||
  s.lkops.any (fun l => l.t == t && !l.quiet && l.op == .getRequest && dcl l.hidx) ||
  s.jobs.any (fun j => j.t == t && !j.ended && j.writes.any dcl) ||
  s.streams.any (fun y => y.t == t && y.kind == .store && (farHandles y).any dcl && decide (y.drained < y.filled))

/-- The thread that waits for the check of a splice that an abort ends: its token register becomes 0 (DESIGN CHOICE, log 31). -/
def releaseCommitter (s : State) (x : Splice) : State :=
  match x.st, getT? s x.committer with
  | .pending, some th => stepOn s x.committer { setReg th x.tokenReg 0 with block := .none }
  | _, _ => s

/-- spl.abort (R268): waits for the thread's earlier writes to declared handles; an abort after the pass has no
effect. -/
def execSplAbort (t : Tid) (f : Fields) (s : State) : Res :=
  runThread s t fun s th => do
    dec s (formOk f 0 0 [.scalar])
    let tok ← src th f.sl0
    let x ← theF s (spliceOf s t.ctx.val tok) fSplice
    if x.st == .passed then .ok (stepOn s t th)
    else
      can (!writesDeclared s t x) "an earlier write to a declared handle is not complete (R268)"
      .ok (stepOn (bumpC (releaseCommitter (discardSplice s x) x) t.ctx kSplAbort 1) t th)

/-- The value that `spl.status` returns (R269). -/
def statusWord (x? : Option Splice) (sel : Nat) : Word :=
  match x? with
  | none => 0
  | some x =>
    let cnt (n : Half) : Word := if x.st == .passed then 0 else n.zeroExtend 64
    match sel with
    | 0 => BitVec.ofNat 64 ((match x.st with
        | .opened => 1
        | .pending => 2
        | .passed => 3) + (if x.replayed then 8 else 0) + (if x.degraded then 16 else 0))
    | 1 => cnt x.nUnder
    | 2 => cnt x.nOver
    | 3 => cnt x.nSlub
    | _ => cnt x.nClip

/-- spl.status (R269). -/
def execSplStatus (t : Tid) (f : Fields) (s : State) : Res :=
  runThread s t fun s th => do
    dec s (formOk f 0 0 [.scalar, .scalar, .imm])
    dec s (decide (f.sl2.toNat ≤ 4))
    let tok ← src th f.sl1
    .ok (stepOn s t (dst th f.sl0 (statusWord (spliceOf s t.ctx.val tok) f.sl2.toNat)))

end Sys2Proof.Machine
end

