-- ==== Sys2Proof/Machine/Real.lean ====
section
/-! DEFINITION. Correctly rounded values of real functions (R109: "the function's values at x0, xm and x1, rounded to KF32"):
each function is enclosed between two rationals, at a precision high enough that both ends round to the same KF32 value.
The precision is a bound of the model; every node the spec's tables name is decided by it (DEDUCED, log 13). -/

namespace Sys2Proof.Machine

/-- An enclosure: two rationals with the real number between them. -/
structure Encl where
  lo : ℚ
  hi : ℚ

/-- Significant bits kept in an enclosure. -/
def enclBits : Int := 160

/-- A rational rounded down, and up, to `enclBits` significant bits. -/
def qDown (q : ℚ) : ℚ :=
  if q = 0 then 0 else let u := pow2 (ilog2 (qabs q) - enclBits); (q / u).floor * u
def qUp (q : ℚ) : ℚ :=
  if q = 0 then 0 else let u := pow2 (ilog2 (qabs q) - enclBits); -((-q / u).floor * u)

/-- An enclosure widened to `enclBits` significant bits. -/
def Encl.cut (a : Encl) : Encl := ⟨qDown a.lo, qUp a.hi⟩

def Encl.exact (q : ℚ) : Encl := ⟨q, q⟩
def Encl.plus (a b : Encl) : Encl := Encl.cut ⟨a.lo + b.lo, a.hi + b.hi⟩
def Encl.minus (a b : Encl) : Encl := Encl.cut ⟨a.lo - b.hi, a.hi - b.lo⟩
/-- Product and quotient of enclosures of non-negative numbers. -/
def Encl.times (a b : Encl) : Encl := Encl.cut ⟨a.lo * b.lo, a.hi * b.hi⟩
def Encl.over' (a b : Encl) : Encl := Encl.cut ⟨a.lo / b.hi, a.hi / b.lo⟩

/-- Σ of x^i / i! for i < n, and the next term, folded with cut terms: an enclosure of e^x for 0 ≤ x ≤ 1. -/
def expSmall (x : ℚ) : Encl :=
  let step (a : ℚ × ℚ × ℚ × ℚ) (i : Nat) : ℚ × ℚ × ℚ × ℚ :=
    (a.1 + a.2.2.1, a.2.1 + a.2.2.2, qDown (a.2.2.1 * x / (i + 1 : Nat)), qUp (a.2.2.2 * x / (i + 1 : Nat)))
  let r := (List.range 60).foldl step (0, 0, 1, 1)
  ⟨r.1, r.2.1 + 2 * r.2.2.2⟩

/-- An enclosure squared `k` times. -/
def Encl.squares : Nat → Encl → Encl
  | 0, a => a
  | k + 1, a => (a.times a).squares k

/-- e^x for x ≥ 0. -/
def expPos (x : ℚ) : Encl :=
  let k := Nat.log2 (x.floor.toNat + 1) + 2
  (expSmall (x / ((2 ^ k : Nat) : ℚ))).squares k

/-- e^-x for x ≥ 0. -/
def expNeg (x : ℚ) : Encl := (Encl.exact 1).over' (expPos x)

/-- Σ z^(2i+1) / (2i+1), i < 120, for 0 ≤ z ≤ 1/3: atanh z. -/
def atanhEncl (z : ℚ) : Encl :=
  let step (a : ℚ × ℚ × ℚ × ℚ) (i : Nat) : ℚ × ℚ × ℚ × ℚ :=
    (a.1 + a.2.2.1 / (2 * i + 1 : Nat), a.2.1 + a.2.2.2 / (2 * i + 1 : Nat), qDown (a.2.2.1 * z * z), qUp (a.2.2.2 * z * z))
  let r := (List.range 60).foldl step (0, 0, z, z)
  Encl.cut ⟨r.1, r.2.1 + 2 * r.2.2.2⟩

/-- ln m for 1 ≤ m ≤ 2. -/
def lnEncl (m : ℚ) : Encl :=
  let a := atanhEncl ((m - 1) / (m + 1))
  ⟨2 * a.lo, 2 * a.hi⟩

/-- ln 2. -/
def ln2Encl : Encl := lnEncl 2

/-- atan(1/n) by its alternating series. -/
def atanInv (n : Nat) : Encl :=
  let z : ℚ := 1 / (n : ℚ)
  let s := (List.range 80).foldl (fun (a : ℚ × ℚ) i =>
    (a.1 + (if i % 2 = 0 then a.2 else -a.2) / (2 * i + 1 : Nat), a.2 * z * z)) (0, z)
  Encl.cut ⟨s.1 - s.2, s.1 + s.2⟩

/-- π = 16 atan(1/5) - 4 atan(1/239). -/
def piEncl : Encl :=
  let a := atanInv 5
  let b := atanInv 239
  Encl.cut ⟨16 * a.lo - 4 * b.hi, 16 * a.hi - 4 * b.lo⟩

/-- Partial sums of the sine series at θ: below with an even number of terms, above with an odd number; 0 ≤ θ ≤ π/2. -/
def sinSum (n : Nat) (θ : ℚ) : ℚ :=
  ((List.range n).foldl (fun (a : ℚ × ℚ) i =>
    (a.1 + a.2, -(a.2 * θ * θ) / ((2 * i + 2) * (2 * i + 3) : Nat))) (0, θ)).1

/-- sin(2πx) for 0 ≤ x ≤ 1/4. -/
def sinTurns (x : ℚ) : Encl :=
  if x = 0 then Encl.exact 0
  else ⟨sinSum 30 (qDown (2 * piEncl.lo * x)), sinSum 31 (qUp (2 * piEncl.hi * x))⟩

/-- √q for q ≥ 0. -/
def sqrtEncl (q : ℚ) : Encl :=
  let k : Nat := 200 + q.den.log2
  let n := Nat.sqrt ((q * ((4 ^ k : Nat) : ℚ)).floor.toNat)
  ⟨(n : ℚ) / ((2 ^ k : Nat) : ℚ), ((n + 1 : Nat) : ℚ) / ((2 ^ k : Nat) : ℚ)⟩

/-- The KF32 value of a positive real number from its enclosure: both ends round to it. -/
def Encl.rn (a : Encl) : ℚ := (FloatFmt.kf32.round a.lo).1

/-- Whether an enclosure decides its KF32 value. -/
def Encl.decides (a : Encl) : Bool := decide ((FloatFmt.kf32.round a.lo).1 = (FloatFmt.kf32.round a.hi).1)

/-- 2^f, 0 ≤ f ≤ 1. -/
def exp2Encl (f : ℚ) : Encl :=
  if f = 0 then Encl.exact 1 else if f = 1 then Encl.exact 2
  else ⟨(expSmall (qDown (ln2Encl.lo * f))).lo, (expSmall (qUp (ln2Encl.hi * f))).hi⟩

/-- log2 m, 1 ≤ m ≤ 2. -/
def log2Encl (m : ℚ) : Encl :=
  if m = 1 then Encl.exact 0 else if m = 2 then Encl.exact 1 else (lnEncl m).over' ln2Encl

/-- σ(u) for u ≥ 0, and σ(-u). -/
def sigmaEncl (u : ℚ) : Encl := (Encl.exact 1).over' ((Encl.exact 1).plus (expNeg u))
def sigmaNegEncl (u : ℚ) : Encl :=
  let e := expNeg u
  e.over' ((Encl.exact 1).plus e)

/-- tanh u for u ≥ 0. -/
def tanhEncl (u : ℚ) : Encl :=
  if u = 0 then Encl.exact 0
  else
    let e := expNeg (2 * u)
    ((Encl.exact 1).minus e).over' ((Encl.exact 1).plus e)

/-- 1 - Φ(y) for y ≥ 0: 1/2 - φ(y) Σ y^(2k+1)/(1·3···(2k+1)). -/
def upperTail (y : ℚ) : Encl :=
  let step (a : ℚ × ℚ × ℚ × ℚ) (i : Nat) : ℚ × ℚ × ℚ × ℚ :=
    (a.1 + a.2.2.1, a.2.1 + a.2.2.2, qDown (a.2.2.1 * y * y / (2 * i + 3 : Nat)), qUp (a.2.2.2 * y * y / (2 * i + 3 : Nat)))
  let r := (List.range 160).foldl step (0, 0, y, y)
  let s : Encl := ⟨r.1, r.2.1 + 2 * r.2.2.2⟩
  let w := Encl.cut ⟨(sqrtEncl (2 * piEncl.lo)).lo, (sqrtEncl (2 * piEncl.hi)).hi⟩
  let g := ((expNeg (y * y / 2)).over' w).times (Encl.cut s)
  ⟨1 / 2 - g.hi, 1 / 2 - g.lo⟩

/-- The KF32 value nearest to Ψ(v) = -Φ⁻¹(v), 0 < v ≤ 1/2 (R298): the tail at the midpoint between two neighbouring
grid values tells on which side Ψ(v) lies. The search halves the range of KF32 codes. -/
def psiNode (v : ℚ) : ℚ :=
  if v = 1 / 2 then 0
  else
    let val (c : Nat) : ℚ := (FloatFmt.kf32.decode c).get
    -- the tail falls as y rises: above v means Ψ(v) is larger
    let go := (List.range 32).foldl (fun (a : Nat × Nat) _ =>
      if a.1 + 1 < a.2 then
        let m := (a.1 + a.2) / 2
        if decide (v < (upperTail (val m)).lo) then (m, a.2) else (a.1, m)
      else a) (FloatFmt.kf32.encode (pow2 (-30)), FloatFmt.kf32.encode 8)
    let mid := (val go.1 + val go.2) / 2
    if decide (v < (upperTail mid).lo) then val go.2 else val go.1

/-- The KF32 constants of R115 and R165: rn(0.044715), rn(√(2/π)), rn(1/ln 2). -/
def cGelu : ℚ := rn32 (44715 / 1000000)
def kGelu : ℚ := (sqrtEncl (2 / piEncl.hi)).rn
def l2e : ℚ := ((Encl.exact 1).over' ln2Encl).rn

end Sys2Proof.Machine
end

