-- ==== Sys2Proof/Machine/Distaff.lean ====
section
/-! DEFINITION. The distaff functions (R106-R112): range reduction, a table of 64 quadratics, seam clamp, composition and
one rounding. The same construction serves `vepi`, `vsmx`, `vrot`, the swift engine's exp2 and the Gaussian of `vrng`. -/

namespace Sys2Proof.Machine

/-- The quadratic with seam clamp of one table (R109): the table covers [a, a + 64h), `node` gives the function's value
rounded to KF32, `u` is the reduced argument. u at the very end of the interval is segment 63 at t = 1. -/
def seam (node : ℚ → ℚ) (a h u : ℚ) : ℚ :=
  let i0 := ((u - a) / h).floor.toNat
  let i := if i0 < 64 then i0 else 63
  let x0 := a + i * h
  let t := (u - x0) / h
  let y0 := node x0
  let ym := node (x0 + h / 2)
  let y1 := node (x0 + h)
  let p := y0 + (4 * ym - 3 * y0 - y1) * t + (2 * y0 + 2 * y1 - 4 * ym) * t * t
  qmin (qmax p (qmin y0 y1)) (qmax y0 y1)

/-- Largest KF32 magnitude. -/
def kf32Max : ℚ := FloatFmt.kf32.max

/-- 2^x before the final rounding: exponent n and clamped quadratic (R112). -/
def exp2Raw (x : ℚ) : Int × ℚ :=
  let n := x.floor
  (n, seam (fun z => (exp2Encl z).rn) 0 (1 / 64) (x - n))

/-- exp2, one rounding; the scale 2^n is not formed where it is certain to saturate or to flush. -/
def dExp2 (x : ℚ) : ℚ × Bool :=
  let r := exp2Raw x
  if 300 < r.1 then (kf32Max, true) else if r.1 < -300 then (0, false)
  else FloatFmt.kf32.round (pow2 r.1 * r.2)

/-- The table of a positive argument on 2^n · [1, 2) of R112's sigmoid and tanh, or the first table [0, 2^-8). -/
def octave (node : ℚ → ℚ) (u : ℚ) : ℚ :=
  if u < pow2 (-8) then seam node 0 (pow2 (-14)) u
  else
    let n := ilog2 u
    seam node (pow2 n) (pow2 (n - 6)) u

def sigmaNode (u : ℚ) : ℚ := if u = 0 then 1 / 2 else (sigmaEncl u).rn
def sigmaNegNode (u : ℚ) : ℚ := if u = 0 then 1 / 2 else (sigmaNegEncl u).rn
def tanhNode (u : ℚ) : ℚ := (tanhEncl u).rn

/-- sin of a phase in turns, exact reduction (R112), before the final rounding. -/
def sinRaw (x : ℚ) : ℚ :=
  let r := x - x.floor
  let q := (4 * r).floor
  let u := if q = 0 then r else if q = 1 then 1 / 2 - r else if q = 2 then r - 1 / 2 else 1 - r
  let y := seam (fun z => (sinTurns z).rn) 0 (1 / 256) u
  if q < 2 then y else -y

def cosRaw (x : ℚ) : ℚ := sinRaw (x + 1 / 4)

/-- The distaff functions, numbered as FUNC of `vfn` (R290). -/
inductive DFun where
  | exp2 | log2 | recip | rsqrt | sigmoid | tanh | sin | cos
  deriving DecidableEq, Repr

/-- One distaff result of a number (R106-R113): the KF32 value and what is counted. -/
def dEval (f : DFun) (x : ℚ) : Val × Cnt :=
  let fin (r : ℚ × Bool) : Val × Cnt := (.num r.1, { sat := if r.2 then 1 else 0 })
  match f with
  | .exp2 => fin (dExp2 x)
  | .log2 =>
    if x = 0 then (.num (-kf32Max), { sat := 1 })
    else if x < 0 then (.poison, { new := 1 })
    else
      let n := ilog2 x
      fin (FloatFmt.kf32.round (n + seam (fun z => (log2Encl z).rn) 1 (1 / 64) (x / pow2 n)))
  | .recip =>
    if x = 0 then (.num kf32Max, { sat := 1 })
    else
      let n := ilog2 (qabs x)
      let m := qabs x / pow2 n
      let j := ((m - 1) * 8).floor
      let q := seam (fun z => rn32 (1 / z)) (1 + j / 8) (1 / 512) m
      fin (FloatFmt.kf32.round ((if x < 0 then -1 else 1) * pow2 (-n) * q))
  | .rsqrt =>
    if x = 0 then (.num kf32Max, { sat := 1 })
    else if x < 0 then (.poison, { new := 1 })
    else
      let e := ilog2 x
      let k := e.fdiv 2
      let m := x / pow2 (2 * k)
      let j := ((m - 1) * 4).floor
      let q := seam (fun z => (sqrtEncl (1 / z)).rn) (1 + j / 4) (1 / 256) m
      fin (FloatFmt.kf32.round (pow2 (-k) * q))
  | .sigmoid =>
    if 32 ≤ x then (.num 1, {}) else if x ≤ -256 then (.num 0, {})
    else if 0 ≤ x then fin (FloatFmt.kf32.round (octave sigmaNode x))
    else fin (FloatFmt.kf32.round (octave sigmaNegNode (-x)))
  | .tanh =>
    let a := qabs x
    let y := if 16 ≤ a then 1 else octave tanhNode a
    fin (FloatFmt.kf32.round (if x < 0 then -y else y))
  | .sin => fin (FloatFmt.kf32.round (sinRaw x))
  | .cos => fin (FloatFmt.kf32.round (cosRaw x))

/-- A distaff result of a value: poison gives poison (R110). -/
def distaff (f : DFun) : Val → Val × Cnt
  | .poison => (.poison, {})
  | .num x => dEval f x

/-- FUNC codes of `vfn` (R290). -/
def dfunOf (n : Nat) : DFun :=
  match n % 8 with
  | 0 => .exp2 | 1 => .log2 | 2 => .recip | 3 => .rsqrt | 4 => .sigmoid | 5 => .tanh | 6 => .sin | _ => .cos

/-- Ψ by the construction of R109 on 2^n · [1, 2), n = -23 to -2 (R298). -/
def psi (v : ℚ) : ℚ :=
  if v = 1 / 2 then rn32 (seam psiNode (1 / 4) (1 / 256) v)
  else
    let n := ilog2 v
    rn32 (seam psiNode (pow2 n) (pow2 (n - 6)) v)

/-- The activations of `vepi` (R115): ACT code, argument, result and what is counted. -/
def activate (act : Nat) (v : Val) : Val × Cnt :=
  match v with
  | .poison => (.poison, {})
  | .num z =>
    let r (q : ℚ) : ℚ × Cnt := let x := FloatFmt.kf32.round q; (x.1, { sat := if x.2 then 1 else 0 })
    match act with
    | 0 => (.num z, {})
    | 1 => (.num (qmax z 0), {})
    | 2 =>
      let z2 := r (z * z)
      let z3 := r (z2.1 * z)
      let w0 := r (z + cGelu * z3.1)
      let w := r (kGelu * w0.1)
      let th := dEval .tanh w.1
      let h := r (z / 2)
      let a := r (h.1 * th.1.get + h.1)
      (.num a.1, (((z2.2.add z3.2).add (w0.2.add w.2)).add (th.2.add h.2)).add a.2)
    | 3 =>
      let g := dEval .sigmoid z
      let a := r (z * g.1.get)
      (.num a.1, g.2.add a.2)
    | 4 => dEval .sigmoid z
    | _ => dEval .tanh z

end Sys2Proof.Machine
end

