-- ==== Sys2Proof/Machine/Vector.lean ====
section
/-! DEFINITION. Vector, distaff, normalisation and noise instructions (05, 12). Each issues with its checks and claims;
its results are computed and written as one unit when it runs (R43). -/

namespace Sys2Proof.Machine

/-! ## Operands -/

/-- A scalar operand: the KF32 value in bits 31:0 of a register (R274). -/
def scalarVal (w : Word) : Val := kf32Val (fld w 31 0)

/-- An operand of an element-wise instruction: a VOP, one row for every row, or a scalar (R290). -/
inductive Opd where
  | vop (v : Vop)
  | row (v : Vop)
  | scalar (x : Val)

/-- An operand as the variant bits choose it. -/
def opdOf (w : Word) (bs brow : Bool) : Opd :=
  if bs then .scalar (scalarVal w) else if brow then .row (vopOf w) else .vop (vopOf w)

/-- Row `r` of an operand with `n` elements. -/
def opdRow (s : State) (t : Tid) (x : Opd) (n r : Nat) : List Val :=
  match x with
  | .vop v => vopVals s t v r
  | .row v => vopVals s t v 0
  | .scalar q => List.replicate n q

/-- An operand's checks and claim at issue, against the shape rows × len (R291). -/
def takeOpd (s : State) (t : Tid) (o : EngOp) (w : Word) (bs brow : Bool) (rows len : Nat) : Ex (State × EngOp) := do
  if bs then .ok (s, o)
  else
    let v ← readVop s w
    needF s (v.len == len && v.rows == (if brow then 1 else rows)) fOperand
    srcVop s t o v

/-- All rows of a destination are written, with what they count beside `k` (R43, R44). -/
def putRowsWith (s : State) (t : Tid) (d : Vop) (k : Cnt) (rows : List (List (Nat × Cnt))) : Ex State := do
  let s1 ← account s t.ctx (k.add (sumCnt (rows.map (fun r => sumCnt (r.map (·.2))))))
  .ok ((rows.zipIdx).foldl (fun s r => putRow s t d r.2 (r.1.map (·.1))) s1)

/-- All rows of a destination are written, with what they count. -/
def putRows (s : State) (t : Tid) (d : Vop) (rows : List (List (Nat × Cnt))) : Ex State := putRowsWith s t d {} rows

/-- Whether an instruction that runs whole may run, with its slots ready. -/
def unitReady (s : State) (o : EngOp) : Ex Unit := do
  can (mayRun s o) "an earlier instruction is not complete (R275)"
  can (claimsReady s o) "a slot is not ready (R280)"

/-! ## Element-wise operations (R101) -/

/-- The exact result of an element-wise operation. -/
def elemOp (tag : EngTag) (a b c : Val) : Val :=
  match tag, c with
  | .vadd, _ => Val.map2 (· + ·) a b
  | .vmul, _ => Val.map2 (· * ·) a b
  | .vmax, _ => Val.map2 qmax a b
  | .vmin, _ => Val.map2 qmin a b
  | _, .poison => .poison
  | _, .num z => (Val.map2 (· * ·) a b).map1 (· + z)

/-- Issue of vadd, vmul, vmax, vmin and vfma (R290, R291). -/
def issueElem (t : Tid) (f : Fields) (s : State) (tag : EngTag) (var : Nat) (fma : Bool) : Res :=
  runThread s t fun s th => do
    dec s (formOk f var 0 ([.scalar, .scalar, .scalar] ++ (if fma then [.scalar] else [])))
    let bs := bit f.variant 0
    let brow := bit f.variant 1
    let cs := bit f.variant 2
    let crow := bit f.variant 3
    dec s (!(bs && brow) && !(cs && crow))
    engineRoom s t 2
    let wd ← src th f.sl0
    let wa ← src th f.sl1
    let wb ← src th f.sl2
    let wc ← src th f.sl3
    let a ← readVop s wa
    let d ← readVop s wd
    needF s (d.rows == a.rows && d.len == a.len) fOperand
    let (s1, o1) ← srcVop s t (newOp s t th tag f) a
    let (s2, o2) ← takeOpd s1 t o1 wb bs brow a.rows a.len
    let (s3, o3) ← if fma then takeOpd s2 t o2 wc cs crow a.rows a.len else .ok (s2, o2)
    let (s4, o4) ← dstVop s3 t o3 d
    .ok (issueOp s4 t th o4)

/-- vadd (R101). -/
def execVadd (t : Tid) (f : Fields) (s : State) : Res := issueElem t f s .vadd 3 false
/-- vmul (R101). -/
def execVmul (t : Tid) (f : Fields) (s : State) : Res := issueElem t f s .vmul 3 false
/-- vfma (R101). -/
def execVfma (t : Tid) (f : Fields) (s : State) : Res := issueElem t f s .vfma 0xF true
/-- vmax (R101). -/
def execVmax (t : Tid) (f : Fields) (s : State) : Res :=
  issueElem t { f with variant := f.variant &&& 0xEF } s .vmax 3 false
/-- vmin, the MIN form of vmax (R290). -/
def execVmin (t : Tid) (f : Fields) (s : State) : Res :=
  issueElem t { f with variant := f.variant &&& 0xEF } s .vmin 3 false

/-- An element-wise instruction runs (R101). -/
def runElem (s : State) (o : EngOp) : Ex State := do
  unitReady s o
  let d := vopOf (o.reg o.f.sl0)
  let a := vopOf (o.reg o.f.sl1)
  let b := opdOf (o.reg o.f.sl2) (bit o.f.variant 0) (bit o.f.variant 1)
  let c := if o.tag == .vfma then opdOf (o.reg o.f.sl3) (bit o.f.variant 2) (bit o.f.variant 3) else .scalar (.num 0)
  let rows := (List.range a.rows).map (fun r =>
    ((vopVals s o.t a r).zip ((opdRow s o.t b a.len r).zip (opdRow s o.t c a.len r))).map (fun x =>
      storeVal d.f (rnC (elemOp o.tag x.1 x.2.1 x.2.2))))
  let s1 ← putRows s o.t d rows
  .ok (finishOp s1 o d.rows)

/-- Issue of the forms d, a with equal shapes: vcvt and vfn. -/
def issueUnary (t : Tid) (f : Fields) (s : State) (tag : EngTag) (var : Nat) : Res :=
  runThread s t fun s th => do
    dec s (formOk f var 0 [.scalar, .scalar])
    engineRoom s t 2
    let wd ← src th f.sl0
    let wa ← src th f.sl1
    let a ← readVop s wa
    let d ← readVop s wd
    needF s (d.rows == a.rows && d.len == a.len) fOperand
    needF s (tag != .vcvt || convertible a.f d.f) fFormat
    let (s1, o1) ← srcVop s t (newOp s t th tag f) a
    let (s2, o2) ← dstVop s1 t o1 d
    .ok (issueOp s2 t th o2)

/-- vcvt (R38). -/
def execVcvt (t : Tid) (f : Fields) (s : State) : Res := issueUnary t f s .vcvt 0

/-- vfn (R106). -/
def execVfn (t : Tid) (f : Fields) (s : State) : Res := issueUnary t f s .vfn 7

/-- vcvt and vfn run. -/
def runUnary (s : State) (o : EngOp) : Ex State := do
  unitReady s o
  let d := vopOf (o.reg o.f.sl0)
  let a := vopOf (o.reg o.f.sl1)
  let rows := (List.range a.rows).map (fun r =>
    if o.tag == .vcvt then (vopRow s o.t a r).map (convertCode a.f d.f)
    else (vopVals s o.t a r).map (fun x => storeVal d.f (distaff (dfunOf (fld o.f.variant 2 0)) x)))
  let s1 ← putRows s o.t d rows
  .ok (finishOp s1 o d.rows)

/-! ## Reductions (R103-R105) -/

/-- Neighbours of a level combined; a node with one side absent passes the other through (R103). -/
def pairUp {α : Type} (g : α → α → α × Cnt) : List (Option α) → List (Option α) × Cnt
  | some a :: some b :: r =>
    let x := g a b
    let y := pairUp g r
    (some x.1 :: y.1, x.2.add y.2)
  | a :: b :: r =>
    let y := pairUp g r
    ((a.or b) :: y.1, y.2)
  | l => (l, {})

/-- The pairwise tree of R103, `n` levels. -/
def pairTree {α : Type} (g : α → α → α × Cnt) : Nat → List (Option α) → Option α × Cnt
  | 0, l => (l.head?.getD none, {})
  | n + 1, l =>
    let x := pairUp g l
    let y := pairTree g n x.1
    (y.1, x.2.add y.2)

/-- One block of up to 256 elements folded into the lanes (R103). -/
def foldBlock {α : Type} (step : Option α → Val → α × Cnt) (lanes : List (Option α)) (xs : List Val) :
    List (Option α) × Cnt :=
  let ys := lanes.zipIdx.map (fun l => match xs[l.2]? with
    | some x => let r := step l.1 x; (some r.1, r.2)
    | none => (l.1, {}))
  (ys.map (·.1), sumCnt (ys.map (·.2)))

/-- Chunk results of a sequence (R103): lanes folded in ascending index, then 8 levels; with what each chunk counts. -/
def chunkResults {α : Type} (step : Option α → Val → α × Cnt) (comb : α → α → α × Cnt) (xs : List Val) :
    List (Option α × Cnt) :=
  (List.range (ceilDiv xs.length 65536)).map (fun c =>
    let part := (xs.drop (65536 * c)).take 65536
    let folded := (List.range (ceilDiv part.length 256)).foldl (fun (acc : List (Option α) × Cnt) b =>
      let r := foldBlock step acc.1 ((part.drop (256 * b)).take 256)
      (r.1, acc.2.add r.2)) (List.replicate 256 none, {})
    let y := pairTree comb 8 folded.1
    (y.1, folded.2.add y.2))

/-- The whole of a sequence: chunk results combined in their tree (R103). A saturation in any step of it counts once, for the one
element that it gives (R41, DEDUCED, log 106). -/
def wholeSeq {α : Type} (step : Option α → Val → α × Cnt) (comb : α → α → α × Cnt) (xs : List Val) : Option α × Cnt :=
  let c := chunkResults step comb xs
  let r := pairTree comb 16 (c.map (·.1))
  (r.1, ((sumCnt (c.map (·.2))).add r.2).once)

/-- `vred` kinds (R104): 0 sum, 1 sumsq, 2 max, 3 min, 4 absmax. -/
def redStep (kind : Nat) (acc : Option Val) (x : Val) : Val × Cnt :=
  match kind, acc with
  | 0, none => (x, {})
  | 0, some a => rnC (Val.map2 (· + ·) a x)
  | 1, a => rnC (Val.map2 (· + ·) (a.getD (.num 0)) (Val.map2 (· * ·) x x))
  | 4, none => (x.map1 qabs, {})
  | 4, some a => (Val.map2 qmax a (x.map1 qabs), {})
  | _, none => (x, {})
  | 2, some a => (Val.map2 qmax a x, {})
  | _, some a => (Val.map2 qmin a x, {})

/-- The combine of a kind. -/
def redComb (kind : Nat) (a b : Val) : Val × Cnt :=
  match kind with
  | 0 | 1 => rnC (Val.map2 (· + ·) a b)
  | 3 => (Val.map2 qmin a b, {})
  | _ => (Val.map2 qmax a b, {})

/-- The reduction of a sequence. -/
def reduceSeq (kind : Nat) (xs : List Val) : Val × Cnt :=
  let r := wholeSeq (redStep kind) (redComb kind) xs
  (r.1.getD (.num 0), r.2)

/-- A statistic's state (R118). -/
structure Stat where
  n : Nat
  mean : Val
  m2 : Val
  deriving DecidableEq, Repr

/-- The lane fold of `vstat` (R118). -/
def statStep (a : Option Stat) (x : Val) : Stat × Cnt :=
  let z := a.getD ⟨0, .num 0, .num 0⟩
  let n := z.n + 1
  let d := rnC (Val.map2 (· - ·) x z.mean)
  let mean := rnC (Val.map2 (fun p q => p + q / (n : ℚ)) z.mean d.1)
  let e := rnC (Val.map2 (· - ·) x mean.1)
  let m2 := rnC (Val.map2 (· + ·) z.m2 (Val.map2 (· * ·) d.1 e.1))
  (⟨n, mean.1, m2.1.map1 (qmax 0)⟩, ((d.2.add mean.2).add (e.2.add m2.2)).once)

/-- The combine of `vstat` (R118). -/
def statComb (a b : Stat) : Stat × Cnt :=
  let n := a.n + b.n
  let d := rnC (Val.map2 (· - ·) b.mean a.mean)
  let mean := rnC (Val.map2 (fun p q => p + q * (b.n : ℚ) / (n : ℚ)) a.mean d.1)
  let m2 := rnC (Val.map2 (· + ·) (Val.map2 (· + ·) a.m2 b.m2)
    (d.1.map1 (fun q => q * q * (a.n : ℚ) * (b.n : ℚ) / (n : ℚ))))
  (⟨n, mean.1, m2.1.map1 (qmax 0)⟩, ((d.2.add mean.2).add m2.2).once)

/-- The 16 bytes of a statistic record (R120). -/
def statBytes (a : Stat) : List Byte := leBytes 8 a.n ++ leBytes 4 (kf32Code a.mean) ++ leBytes 4 (kf32Code a.m2)

/-- The statistic record at a scratch offset; none where COUNT is 0. -/
def statAt (s : State) (t : Tid) (a : Nat) : Option Stat :=
  let m := scratchOf s t.ctx t.lsp
  let n := memNat m a 8
  if n = 0 then none else some ⟨n, kf32Val (memNat m (a + 8) 4), kf32Val (memNat m (a + 12) 4)⟩

/-- How many slots of a stream hold `n` elements, the slot `i` places on holding `len i`. -/
def slotsFor (len : Nat → Nat) : Nat → Nat → Nat → Nat
  | 0, i, _ => i
  | fuel + 1, i, n => if n ≤ len i then i + 1 else slotsFor len fuel (i + 1) (n - len i)

/-- The source of `vred` and `vstat`: a VOP, or `n` KF32 elements of the next slots of a stream (R292, DEDUCED, log 38), which are one
row (DESIGN CHOICE, log 141). -/
def takeSrc (s : State) (t : Tid) (o : EngOp) (th : Thread) (v : BitVec 16) (sstr : Bool) (n : Nat) :
    Ex (State × EngOp × Nat × Nat) := do
  if sstr then
    let x ← needStream s t v.toNat
    needF s (x.scratch && x.kind != .store) fStream
    needF s (x.fmt == 5) fFormat
    let k := slotsFor (fun i => (x.shape (x.cons + i)).rows * (x.shape (x.cons + i)).len) n 0 n
    .ok (setStream (noteLocalUse s t x) { x with cons := x.cons + k },
      { o with claims := o.claims ++ (List.range k).map (fun i => ⟨x.sid, x.cons + i, false⟩) }, 1, n)
  else
    let w ← src th v
    let a ← readVop s w
    let (s1, o1) ← srcVop s t o a
    .ok (s1, o1, a.rows, a.len)

/-- The next slot of a stream source is read, row by row, and freed (R196, R279); the instruction keeps its codes. -/
def readSlot (s : State) (o : EngOp) (v : BitVec 16) : Ex (State × EngOp) := do
  let x ← the (stream? s o.t v.toNat) "the stream is not open"
  let c ← the ((o.claims.filter (fun c => !c.fills))[o.prog]?) "every slot is read"
  can (x.has c.tile) "a slot is not filled (R280)"
  let m := slotMem s x
  let z := x.shape c.tile
  let cs := (List.range z.rows).flatMap (fun r => (List.range z.len).map (fun i =>
    BitVec.ofNat 192 (memNat m (x.slotOff (x.slotNo c.tile) + r * z.pitch + 4 * i) 4)))
  let o1 := { o with prog := o.prog + 1, acc := o.acc ++ [⟨0, o.prog, [cs]⟩] }
  .ok (setOp (setStream s (x.release c.tile)) o1, o1)

/-- A source is taken in: a VOP at once, a stream slot by slot; whether all of it is now there. A filler's starts with every slot it reads
filled and every slot it writes free (R221). -/
def takeUnit (s : State) (o : EngOp) (v : BitVec 16) (sstr : Bool) : Ex (State × EngOp × Bool) := do
  if sstr then
    can (mayRun s o) "an earlier instruction is not complete (R275)"
    can (!(getC s o.t.ctx).filler || decide (0 < o.prog) || claimsReady s o) "a slot is not ready (R221)"
    let (s1, o1) ← readSlot s o v
    let whole := decide ((o.claims.filter (fun c => !c.fills)).length ≤ o1.prog)
    can (!whole || claimsReady s1 { o1 with claims := o1.claims.filter (fun c => c.fills) }) "a slot is not ready (R280)"
    .ok (s1, o1, whole)
  else
    unitReady s o
    .ok (s, o, true)

/-- The elements of a source, row by row. -/
def srcElems (s : State) (o : EngOp) (v : BitVec 16) (sstr : Bool) (n : Nat) : List (List Val) :=
  if sstr then [((o.acc.flatMap (fun a => a.q.flatten)).take n).map (fun c => kf32Val c.toNat)]
  else
    let a := vopOf (o.reg v)
    (List.range a.rows).map (vopVals s o.t a)

/-- A part's first element and length fit the whole sequence (R105). -/
def partOk (s : State) (first len whole : Nat) : Ex Unit :=
  needF s (decide (first % 65536 = 0) && decide (first + len ≤ whole) && decide (whole ≤ 4294967296) &&
    (decide ((first + len) % 65536 = 0) || first + len == whole)) fOperand

/-- A length register: value + 1, at most 2^32 (R103). -/
def lenOf (s : State) (w : Word) : Ex Nat := do
  needF s (decide (w.toNat + 1 ≤ 4294967296)) fOperand
  .ok (w.toNat + 1)

/-- vred (R104, R105, R292). A part takes the first L elements of a source VOP that holds more; one that holds fewer, and records that
lie outside their VOP, are OPERAND faults (DESIGN CHOICE, log 123). -/
def execVred (t : Tid) (f : Fields) (s : State) : Res :=
  runThread s t fun s th => do
    let kind := fld f.variant 2 0
    let form := fld f.variant 4 3
    let sstr := bit f.variant 5
    dec s (decide (kind < 5) && decide (form < 3) && !(sstr && form == 2))
    dec s (formOk f 0x3F 0 [.scalar, if sstr then .stream else .scalar,
      if form = 1 then .scalar else .unused, if form ≠ 0 ∨ sstr then .scalar else .unused,
      if form = 1 then .scalar else .unused])
    engineRoom s t 2
    let wd ← src th f.sl0
    let w2 ← src th f.sl2
    let w3 ← src th f.sl3
    let w4 ← src th f.sl4
    let n ← lenOf s w3
    let d ← readVop s wd
    let (s1, o1, rows, len) ← takeSrc s t (newOp s t th .vred f) th f.sl1 sstr n
    match form with
    | 0 => needF s1 (d.rows == rows && d.len == 1) fOperand
    | 1 => do
      partOk s1 w2.toNat n (w4.toNat + 1)
      needF s1 (decide (n ≤ rows * len) && decide (8 * ceilDiv n 65536 ≤ d.bytes)) fOperand
    | _ => needF s1 (d.rows == 1 && d.len == 1 && decide (8 * ceilDiv n 65536 ≤ (vopOf (reg th f.sl1.toNat)).bytes)) fOperand
    let (s2, o2) ← dstVop s1 t o1 d
    .ok (issueOp s2 t th o2)

/-- The `vred` chunk records at a source offset, each at the leaf that its index names (R105). -/
def redRecords (s : State) (t : Tid) (a k : Nat) : Option (List (Option Val)) :=
  let m := scratchOf s t.ctx t.lsp
  let rs := (List.range k).map (fun i => (memNat m (a + 8 * i + 4) 4, kf32Val (memNat m (a + 8 * i) 4)))
  if (List.range k).all (fun i => (rs.filter (fun r => r.1 == i)).length == 1)
  then some ((List.range k).map (fun i => (rs.find? (fun r => r.1 == i)).map (·.2))) else none

/-- vred runs. -/
def runVred (s : State) (o : EngOp) : Ex State := do
  let sstr := bit o.f.variant 5
  let (s, o, whole) ← takeUnit s o o.f.sl1 sstr
  if !whole then .ok s else
  let kind := fld o.f.variant 2 0
  let form := fld o.f.variant 4 3
  let n := (o.reg o.f.sl3).toNat + 1
  let d := vopOf (o.reg o.f.sl0)
  match form with
  | 0 =>
    let rows := (srcElems s o o.f.sl1 sstr n).map (fun xs => [storeVal d.f (reduceSeq kind xs)])
    let s1 ← putRows s o.t d rows
    .ok (finishOp s1 o d.rows)
  | 1 =>
    let xs := ((srcElems s o o.f.sl1 sstr n).flatten).take n
    let c := chunkResults (redStep kind) (redComb kind) xs
    let first := (o.reg o.f.sl2).toNat / 65536
    let s1 ← account s o.t.ctx (sumCnt (c.map (fun v => v.2.once)))
    let bs := c.zipIdx.flatMap (fun v => leBytes 4 (kf32Code (v.1.1.getD (.num 0))) ++ leBytes 4 (first + v.2))
    .ok (finishOp (scratchWrite s1 o.t.ctx o.t.lsp d.off bs) o d.rows)
  | _ =>
    let rs ← theF s (redRecords s o.t (vopOf (o.reg o.f.sl1)).off (ceilDiv n 65536)) fOperand
    let r := pairTree (redComb kind) 16 rs
    let s1 ← putRows s o.t d [[storeVal d.f (r.1.getD (.num 0), r.2)]]
    .ok (finishOp s1 o d.rows)

/-! ## Statistics and normalisation (R118-R123) -/

/-- Elements per row group, rows per statistic, and number of statistics that a layout word names (R292, R122). -/
def layoutOf (s : State) (w : Word) (group : Bool) (rows len : Nat) : Ex (Nat × Nat × Nat) := do
  let g := if group then fld w 15 0 + 1 else len
  let rps := fld w 31 16 + 1
  needF s ((group || fld w 15 0 == 0) && decide (rows % rps = 0) && decide (len % g = 0) &&
    decide (rps * g ≤ 4294967296)) fOperand
  .ok (g, rps, rows / rps * (len / g))

/-- A record range of vector scratch must lie within it. -/
def recordsOk (s : State) (a n : Nat) : Ex Unit := needF s (decide (a + n ≤ 0x100000)) (fAddr (BitVec.ofNat 64 a))

/-- The elements of statistic `k`: row block first, group second (R292). -/
def statElems (rows : List (List Val)) (g rps len k : Nat) : List Val :=
  let per := len / g
  ((rows.drop (k / per * rps)).take rps).flatMap (fun r => (r.drop (k % per * g)).take g)

/-- vstat (R118, R120, R292). A part's source and a merge's records are held to their VOP as `vred`'s are (DESIGN CHOICE, log 123). -/
def execVstat (t : Tid) (f : Fields) (s : State) : Res :=
  runThread s t fun s th => do
    let form := fld f.variant 1 0
    let sstr := bit f.variant 2
    let group := bit f.variant 3
    dec s (decide (form < 3) && !(sstr && form == 2) && !(group && form != 0))
    dec s (formOk f 0xF 0 [.scalar, if sstr then .stream else .scalar,
      if form = 0 then .scalar else .unused, if form = 1 then .scalar else .unused,
      if form ≠ 0 ∨ sstr then .scalar else .unused, if form = 1 then .scalar else .unused])
    engineRoom s t 2
    let w0 ← src th f.sl0
    let w2 ← src th f.sl2
    let w3 ← src th f.sl3
    let w4 ← src th f.sl4
    let w5 ← src th f.sl5
    let n ← lenOf s w4
    let (s1, o1, rows, len) ← takeSrc s t (newOp s t th .vstat f) th f.sl1 sstr n
    let k : Nat ← match form with
      | 0 => do
        let (_, _, k) ← layoutOf s1 w2 group rows len
        .ok k
      | 1 => do
        partOk s1 w3.toNat n (w5.toNat + 1)
        needF s1 (decide (n ≤ rows * len)) fOperand
        .ok (ceilDiv n 65536)
      | _ => do
        needF s1 (decide (16 * ceilDiv n 65536 ≤ (vopOf (reg th f.sl1.toNat)).bytes)) fOperand
        .ok 1
    recordsOk s1 w0.toNat (16 * k)
    let (s2, o2) ← claimDst s1 t o1 w0.toNat (16 * k)
    .ok (issueOp s2 t th o2)

/-- vstat runs. Saturations inside a statistic count once for it (R41, DEDUCED, log 106). -/
def runVstat (s : State) (o : EngOp) : Ex State := do
  let sstr := bit o.f.variant 2
  let (s, o, whole) ← takeUnit s o o.f.sl1 sstr
  if !whole then .ok s else
  let form := fld o.f.variant 1 0
  let n := (o.reg o.f.sl4).toNat + 1
  let put (s : State) (recs : List Stat) : State :=
    scratchWrite s o.t.ctx o.t.lsp (o.reg o.f.sl0).toNat (recs.flatMap statBytes)
  match form with
  | 0 =>
    let rows := srcElems s o o.f.sl1 sstr n
    let len := (rows.head?.getD []).length
    let (g, rps, k) ← layoutOf s (o.reg o.f.sl2) (bit o.f.variant 3) rows.length len
    let rs := (List.range k).map (fun i =>
      let r := wholeSeq statStep statComb (statElems rows g rps len i)
      (r.1.getD ⟨0, .num 0, .num 0⟩, r.2))
    let s1 ← account s o.t.ctx (sumCnt (rs.map (·.2)))
    .ok (finishOp (put s1 (rs.map (·.1))) o 1)
  | 1 =>
    let c := chunkResults statStep statComb (((srcElems s o o.f.sl1 sstr n).flatten).take n)
    let s1 ← account s o.t.ctx (sumCnt (c.map (fun v => v.2.once)))
    .ok (finishOp (put s1 (c.filterMap (·.1))) o 1)
  | _ =>
    let a := vopOf (o.reg o.f.sl1)
    let rs := (List.range (ceilDiv n 65536)).map (fun i => statAt s o.t (a.off + 16 * i))
    needF s (((rs.filterMap id).map (·.n)).sum == n) fOperand
    let r := pairTree statComb 16 rs
    let s1 ← account s o.t.ctx r.2.once
    .ok (finishOp (put s1 [r.1.getD ⟨0, .num 0, .num 0⟩]) o 1)

/-- vnorm (R122, R292). -/
def execVnorm (t : Tid) (f : Fields) (s : State) : Res :=
  runThread s t fun s th => do
    let mode := fld f.variant 1 0
    let gcol := bit f.variant 2
    let bcol := bit f.variant 3
    dec s (decide (mode < 3))
    dec s (formOk f 0xF 0 [.scalar, .scalar, .group 2, .scalar, .scalar, .scalar])
    engineRoom s t 2
    let wd ← src th f.sl0
    let wa ← src th f.sl1
    let wr ← srcG th f.sl2 0
    let wl ← srcG th f.sl2 1
    let wg ← src th f.sl3
    let wb ← src th f.sl4
    let we ← src th f.sl5
    let a ← readVop s wa
    let d ← readVop s wd
    needF s (d.rows == a.rows && d.len == a.len) fOperand
    needF s (match scalarVal we with
      | .num q => decide (0 ≤ q)
      | .poison => false) fOperand
    let (_, _, k) ← layoutOf s wl (mode == 2) a.rows a.len
    recordsOk s wr.toNat (16 * k)
    let (s1, o1) ← srcVop s t (newOp s t th .vnorm f) a
    let (s2, o2) ← takeOpd s1 t o1 wg (!gcol) true a.rows a.len
    let (s3, o3) ← takeOpd s2 t o2 wb (!bcol) true a.rows a.len
    let (s4, o4) ← claimSrc s3 t o3 wr.toNat (16 * k)
    let (s5, o5) ← dstVop s4 t o4 d
    .ok (issueOp s5 t th o5)

/-- The reciprocal deviation of a statistic, and its mean to subtract (R122, R123). -/
def normScale (mode : Nat) (z : Stat) (eps : Val) : Val × Cnt :=
  let v := if mode = 1
    then rnC (Val.map2 (fun m2 m => m2 / (z.n : ℚ) + m * m) z.m2 z.mean)
    else rnC (z.m2.map1 (· / (z.n : ℚ)))
  let e := rnC (Val.map2 (· + ·) v.1 eps)
  let r := distaff .rsqrt e.1
  (r.1, ((v.2.add e.2).add r.2).once)

/-- vnorm of one element (R122). -/
def normElem (mode : Nat) (z : Stat) (r g b x : Val) : Val × Cnt :=
  let dv := if mode = 1 then (x, {}) else rnC (Val.map2 (· - ·) x z.mean)
  let q := rnC (Val.map2 (· * ·) dv.1 r)
  let y := rnC (Val.map2 (· + ·) (Val.map2 (· * ·) g q.1) b)
  (y.1, (dv.2.add q.2).add y.2)

/-- vnorm runs. -/
def runVnorm (s : State) (o : EngOp) : Ex State := do
  unitReady s o
  let mode := fld o.f.variant 1 0
  let d := vopOf (o.reg o.f.sl0)
  let a := vopOf (o.reg o.f.sl1)
  let rec0 := (o.reg o.f.sl2).toNat
  let gs := opdRow s o.t (opdOf (o.reg o.f.sl3) (!bit o.f.variant 2) true) a.len 0
  let bs := opdRow s o.t (opdOf (o.reg o.f.sl4) (!bit o.f.variant 3) true) a.len 0
  let eps := scalarVal (o.reg o.f.sl5)
  let (g, rps, k) ← layoutOf s (o.reg (o.f.sl2 + 1)) (mode == 2) a.rows a.len
  let zs := (List.range k).map (fun i => statAt s o.t (rec0 + 16 * i))
  needF s (zs.all (·.isSome)) fOperand
  let ss := (zs.filterMap id).map (fun z => (z, normScale mode z eps))
  let rows := (List.range a.rows).map (fun r =>
    ((vopVals s o.t a r).zip (gs.zip bs)).zipIdx.map (fun x =>
      match ss[r / rps * (a.len / g) + x.2 / g]? with
      | some z => storeVal d.f (normElem mode z.1 z.2.1 x.1.2.1 x.1.2.2 x.1.1)
      | none => (0, {})))
  let s2 ← putRowsWith s o.t d (sumCnt (ss.map (fun z => z.2.2))) rows
  .ok (finishOp s2 o d.rows)

/-! ## Rotary embedding (R117) -/

/-- vrot (R117, R290, R291). -/
def execVrot (t : Tid) (f : Fields) (s : State) : Res :=
  runThread s t fun s th => do
    dec s (formOk f 0 0 [.scalar, .scalar, .scalar, .scalar])
    engineRoom s t 2
    let wd ← src th f.sl0
    let wa ← src th f.sl1
    let wp ← src th f.sl2
    let wq ← src th f.sl3
    let a ← readVop s wa
    let d ← readVop s wd
    let p ← readVop s wp
    let q ← readVop s wq
    needF s (d.rows == a.rows && d.len == a.len && decide (a.len % 2 = 0) && p.rows == a.rows && p.len == 1 &&
      q.rows == 1 && 2 * q.len == a.len) fOperand
    needF s (p.fmt == 10 && q.fmt == 5) fFormat
    let (s1, o1) ← srcVop s t (newOp s t th .vrot f) a
    let (s2, o2) ← srcVop s1 t o1 p
    let (s3, o3) ← srcVop s2 t o2 q
    let (s4, o4) ← dstVop s3 t o3 d
    .ok (issueOp s4 t th o4)

/-- One rotated pair (R117): sin and cos by the construction of R109, each rounded to KF32. -/
def rotPair (p : Int) (w x y : Val) : List (Val × Cnt) :=
  match w, x, y with
  | .num w, .num x, .num y =>
    let ph := (p : ℚ) * w
    let c := rn32 (cosRaw ph)
    let sn := rn32 (sinRaw ph)
    [rnC (.num (x * c - y * sn)), rnC (.num (x * sn + y * c))]
  | _, _, _ => [(.poison, {}), (.poison, {})]

/-- vrot runs; a position outside 0 to 2^24 - 1 raises OPERAND (R117, DEDUCED, log 39). -/
def runVrot (s : State) (o : EngOp) : Ex State := do
  unitReady s o
  let d := vopOf (o.reg o.f.sl0)
  let a := vopOf (o.reg o.f.sl1)
  let p := vopOf (o.reg o.f.sl2)
  let ws := vopVals s o.t (vopOf (o.reg o.f.sl3)) 0
  let pos (r : Nat) : Int := twos 32 ((vopRow s o.t p r).head?.getD 0)
  needF s ((List.range a.rows).all (fun r => decide (0 ≤ pos r) && decide (pos r < 16777216))) fOperand
  let rows := (List.range a.rows).map (fun r =>
    let xs := vopVals s o.t a r
    ws.zipIdx.flatMap (fun w =>
      (rotPair (pos r) w.1 ((xs[2 * w.2]?).getD .poison) ((xs[2 * w.2 + 1]?).getD .poison)).map (storeVal d.f)))
  let s1 ← putRows s o.t d rows
  .ok (finishOp s1 o d.rows)

/-! ## The epilogue (R114, R115) -/

/-- The element function of `vepi`: y = s_out · act(s_in · x + b). -/
def epilogue (act : Nat) (x sin b sout : Val) : Val × Cnt :=
  let z := rnC (Val.map2 (· + ·) (Val.map2 (· * ·) sin x) b)
  let a := activate act z.1
  let y := rnC (Val.map2 (· * ·) sout a.1)
  (y.1, ((z.2.add a.2).add y.2).once)

/-- vepi (R114, R287, R290, R291): variant bits 7:5 are CIN (bit 7), CB and COUT (bit 5), listed MSB first (00_scope.md). -/
def execVepi (t : Tid) (f : Fields) (s : State) : Res :=
  runThread s t fun s th => do
    let act := fld f.variant 2 0
    let srcacc := bit f.variant 3
    let dstqnt := bit f.variant 4
    dec s (decide (act < 6))
    dec s (formOk f 0xFF 0 [if dstqnt then .unused else .scalar, if srcacc then .unused else .scalar,
      .scalar, .scalar, .scalar])
    engineRoom s t 2
    let wd ← src th f.sl0
    let wa ← src th f.sl1
    let wi ← src th f.sl2
    let wb ← src th f.sl3
    let wo ← src th f.sl4
    let o0 := newOp s t th .vepi f
    let (s1, o1, th1) ←
      if srcacc then do
        let (n, th1) ← consumeAcc s th
        let p ← the (s.ops.find? (fun x => x.id = n)) "the producer is not in the engines"
        .ok (s, { o0 with src := some n, m := p.m, n := p.n }, th1)
      else do
        let a ← readVop s wa
        let (s1, o1) ← srcVop s t o0 a
        .ok (s1, { o1 with m := a.rows, n := a.len }, th)
    let (s2, o2) ← takeOpd s1 t o1 wi (!bit f.variant 7) true o1.m o1.n
    let (s3, o3) ← takeOpd s2 t o2 wb (!bit f.variant 6) true o1.m o1.n
    let (s4, o4) ← takeOpd s3 t o3 wo (!bit f.variant 5) true o1.m o1.n
    if dstqnt then
      let th2 ← produceVepi s4 th1
      .ok (issueOp s4 t th2 o4)
    else
      let d ← readVop s4 wd
      needF s4 (d.rows == o1.m && d.len == o1.n) fOperand
      let (s5, o5) ← dstVop s4 t o4 d
      .ok (issueOp s5 t th1 o5)

/-- Column operands of `vepi` for columns c0 to c0 + n - 1. -/
def epiCols (s : State) (o : EngOp) (v : BitVec 16) (k c0 n : Nat) : List Val :=
  let xs := opdRow s o.t (opdOf (o.reg v) (!bit o.f.variant k) true) o.n 0
  (xs.drop c0).take n

/-- The results of `vepi` for a block of values whose first column is c0. -/
def epiBlock (s : State) (o : EngOp) (c0 : Nat) (rows : List (List Val)) : List (List (Val × Cnt)) :=
  let n := (rows.head?.getD []).length
  let ci := epiCols s o o.f.sl2 7 c0 n
  let cb := epiCols s o o.f.sl3 6 c0 n
  let co := epiCols s o o.f.sl4 5 c0 n
  rows.map (fun r => (r.zip (ci.zip (cb.zip co))).map (fun x =>
    epilogue (fld o.f.variant 2 0) x.1 x.2.1 x.2.2.1 x.2.2.2))

/-- Tiles of an instruction's output. -/
def EngOp.tiles (o : EngOp) : Nat := ceilDiv o.m 256 * ceilDiv o.n 256

/-- KF32 results as a tile that is handed off. -/
def kfTile (mt nt : Nat) (rows : List (List (Val × Cnt))) : AccTile :=
  ⟨mt, nt, rows.map (fun r => r.map (fun x => BitVec.ofNat 192 (kf32Code x.1)))⟩

/-- A block of results goes to its columns of the destination VOP. -/
def putBlock (s : State) (t : Tid) (d : Vop) (r0 c0 : Nat) (rows : List (List (Nat × Cnt))) : State :=
  rows.zipIdx.foldl (fun s r =>
    let old := vopRow s t d (r0 + r.2)
    putRow s t d (r0 + r.2) (old.take c0 ++ r.1.map (·.1) ++ old.drop (c0 + r.1.length))) s

/-- `vepi` from an accumulator readout to a VOP: tiles are taken in as they come, and with the last one every result is counted and
written as one unit (R43, R44). (DEDUCED, log 70.) -/
def runVepiVop (s : State) (o : EngOp) : Ex State := do
  let (p, a) ← the (handTile s o) "the producer has no tile ready"
  let o1 := { o with prog := o.prog + 1, acc := o.acc ++ [a] }
  let s0 := takeTile s p (decide (o1.prog < o.tiles))
  if o1.prog < o.tiles then .ok (setOp s0 o1) else
  let d := vopOf (o.reg o.f.sl0)
  let res := o1.acc.map (fun a => (a, (epiBlock s0 o (256 * a.nt) (a.q.map (fun r => r.map la192))).map (fun r => r.map (storeVal d.f))))
  let s1 ← account s0 o.t.ctx (sumCnt (res.flatMap (fun z => z.2.map (fun r => sumCnt (r.map (·.2))))))
  .ok (finishOp (res.foldl (fun s z => putBlock s o.t d (256 * z.1.mt) (256 * z.1.nt) z.2) s1) o1 d.rows)

/-- A tile of `vepi` results is handed off, once the last one is taken (R287). -/
def handVepi (s : State) (o : EngOp) (mt nt : Nat) (vals : List (List Val)) : Ex State := do
  let res := epiBlock s o (256 * nt) vals
  let s1 ← account s o.t.ctx (sumCnt (res.map (fun r => sumCnt (r.map (·.2)))))
  .ok (setOp s1 { o with prog := o.prog + 1, out := [kfTile mt nt res] })

/-- One unit of `vepi`: the whole of a VOP to a VOP; otherwise one tile (R114, R287). (DEDUCED, log 70.) -/
def runVepi (s : State) (o : EngOp) : Ex State := do
  unitReady s o
  can o.out.isEmpty "the last tile handed off waits"
  can (decide (o.prog < o.tiles)) "every tile is handed off"
  match bit o.f.variant 3, bit o.f.variant 4 with
  | true, true => do
    let (p, a) ← the (handTile s o) "the producer has no tile ready"
    handVepi (takeTile s p (decide (o.prog + 1 < o.tiles))) o a.mt a.nt (a.q.map (fun r => r.map la192))
  | true, false => runVepiVop s o
  | false, true =>
    let a := vopOf (o.reg o.f.sl1)
    let nt := ceilDiv o.n 256
    let (i, j) := (o.prog / nt, o.prog % nt)
    handVepi s o i j ((List.range (min 256 (o.m - 256 * i))).map (fun r => ((vopVals s o.t a (256 * i + r)).drop (256 * j)).take 256))
  | false, false =>
    let a := vopOf (o.reg o.f.sl1)
    let d := vopOf (o.reg o.f.sl0)
    let rows := (epiBlock s o 0 ((List.range a.rows).map (vopVals s o.t a))).map (fun r => r.map (storeVal d.f))
    let s1 ← putRows s o.t d rows
    .ok (finishOp s1 o d.rows)

/-! ## Noise (R296-R298) -/

/-- Rotation amounts of the whorl rounds (R297). -/
def rho1 : List Nat := [16, 8, 13, 5, 11, 21, 3, 14, 23, 18]
def rho2 : List Nat := [12, 7, 17, 24, 19, 9, 26, 6, 10, 15]

/-- whorl(K, X) (R297): four 32-bit words. -/
def whorl (k x : BitVec 128) : List Half :=
  let w (v : BitVec 128) (i : Nat) : Half := v.extractLsb' (32 * i) 32
  let r := (List.range 10).foldl (fun (z : Half × Half × Half × Half) i =>
    let a := z.1 + z.2.1 + w k (i % 4) + BitVec.ofNat 32 ((i + 1) * 0x9E3779B9)
    let d := (z.2.2.2 ^^^ a).rotateLeft ((rho1[i]?).getD 0)
    let c := z.2.2.1 + d
    let b := (z.2.1 ^^^ c).rotateLeft ((rho2[i]?).getD 0)
    (a, b, c, d)) (w x 0, w x 1, w x 2, w x 3)
  [r.1 + w k 0, r.2.1 + w k 1, r.2.2.1 + w k 2, r.2.2.2 + w k 3]

/-- The uniform value of a word (R298). -/
def uniformVal (w : Half) : ℚ := ((2 * (w.toNat / 1024) + 1 : Nat) : ℚ) * pow2 (-23)

/-- The Gaussian value of a word (R298). -/
def gaussVal (w : Half) : ℚ :=
  let u := uniformVal w
  let q := psi (qmin u (1 - u))
  if u < 1 / 2 then -q else q

/-- vrng (R296). -/
def execVrng (t : Tid) (f : Fields) (s : State) : Res :=
  runThread s t fun s th => do
    let dist := fld f.variant 1 0
    dec s (decide (dist < 3))
    dec s (formOk f 3 0 [.scalar, .group 2, .group 2])
    engineRoom s t 2
    let wd ← src th f.sl0
    for k in [0, 1] do
      let _ ← srcG th f.sl1 k
      let _ ← srcG th f.sl2 k
    let d ← readVop s wd
    needF s (dist != 0 || d.fmt == 10) fFormat
    let (s1, o1) ← dstVop s t (newOp s t th .vrng f) d
    .ok (issueOp s1 t th o1)

/-- vrng runs (R296). -/
def runVrng (s : State) (o : EngOp) : Ex State := do
  unitReady s o
  let d := vopOf (o.reg o.f.sl0)
  let key : BitVec 128 := o.reg (o.f.sl1 + 1) ++ o.reg o.f.sl1
  let c0 : BitVec 128 := o.reg (o.f.sl2 + 1) ++ o.reg o.f.sl2
  let words := (List.range (ceilDiv (d.rows * d.len) 4)).flatMap (fun i => whorl key (c0 + BitVec.ofNat 128 i))
  let one (w : Half) : Nat × Cnt := match fld o.f.variant 1 0 with
    | 0 => (w.toNat, {})
    | 1 => storeVal d.f (.num (uniformVal w), {})
    | _ => storeVal d.f (.num (gaussVal w), {})
  let rows := (List.range d.rows).map (fun r => ((words.drop (r * d.len)).take d.len).map one)
  let s1 ← putRows s o.t d rows
  .ok (finishOp s1 o d.rows)

end Sys2Proof.Machine
end

