-- ==== Sys2Proof/Machine/Quant.lean ====
section
/-! DEFINITION. `qnt` (03, 06, 12): block outcomes, the slub escape and its admission, tiles and page parts. -/

namespace Sys2Proof.Machine

/-! ## Blocks (R45-R56) -/

/-- The grid that a `qnt` writes: its format, largest magnitude, and the code of poison and of an escape (R55, R125). -/
structure QGrid where
  F : FloatFmt
  bound : ℚ
  bad : Nat

def QGrid.kf4 : QGrid := ⟨.kf4, 3, 8⟩
def QGrid.kf8 : QGrid := ⟨.kf8, 240, 0x80⟩

/-- A quantised block: its scale, its codes, and what is counted. -/
structure QBlk where
  scale : Nat
  codes : List Nat
  h : Health := {}
  k : Cnt := {}

/-- The elements of a block that are not poison, with their index. -/
def nums (xs : List Val) : List (ℚ × Nat) := xs.zipIdx.filterMap (fun x => match x.1 with
  | .num q => some (q, x.2)
  | .poison => none)

/-- The largest magnitude among the elements neither escaped nor poison (R48). -/
def absMax (xs : List Val) (esc : List Nat) : ℚ :=
  (nums xs).foldl (fun a x => if esc.contains x.2 then a else qmax a (qabs x.1)) 0

/-- Escape candidates (R56): 31 x² > T² (S - x²). -/
def candidates (t : ℚ) (xs : List Val) : List Nat :=
  let ns := nums xs
  let total := (ns.map (fun x => x.1 * x.1)).sum
  (ns.filter (fun x => decide (t * t * (total - x.1 * x.1) < 31 * (x.1 * x.1)))).map (·.2)

/-- Codes of a block under a scale, and the elements that saturate (R28). -/
def roundBlock (g : QGrid) (xs : List Val) (esc : List Nat) (scale : Nat) : List Nat × Nat :=
  let ys := xs.zipIdx.map (fun x => match x.1 with
    | .poison => (g.bad, false)
    | .num q =>
      if esc.contains x.2 then (g.bad, false)
      else
        let r := g.F.round (q / ks8Val scale)
        (g.F.encode r.1, r.2))
  (ys.map (·.1), (ys.filter (·.2)).length)

/-- The underflow threshold: the bound times 2^-39 (R54, R125). -/
def QGrid.under (g : QGrid) : ℚ := g.bound * pow2 (-39)

/-- The outcome of a block under own-scale (R52). -/
def ownBlock (g : QGrid) (xs : List Val) (esc : List Nat) : QBlk :=
  let a := absMax xs esc
  let poison := xs.any Val.isPoison
  let nonzero := (nums xs).any (fun x => x.1 != 0)
  let zeros := List.replicate xs.length 0
  if !poison && !nonzero then ⟨0, zeros, {}, {}⟩
  else if decide (a < g.under) then
    (if poison then ⟨4, (roundBlock g xs esc 4).1, { under := if nonzero then 1 else 0 }, {}⟩
     else ⟨0, zeros, { under := 1 }, {}⟩)
  else if decide (g.bound * 14680064 < a) then
    let r := roundBlock g xs esc 255
    ⟨255, r.1, { high := 1 }, { sat := r.2 }⟩
  else
    let c := ks8AtLeast (a / g.bound)
    let r := roundBlock g xs esc c
    ⟨c, r.1, {}, { sat := r.2 }⟩

/-- The outcome of a block under a carried scale (R50, R51). -/
def carriedBlock (g : QGrid) (xs : List Val) (esc : List Nat) (scale : Nat) : QBlk :=
  if scale < 4 then
    ⟨0, List.replicate xs.length 0, { under := if (nums xs).any (fun x => x.1 != 0) then 1 else 0 },
     { cons := (xs.filter Val.isPoison).length }⟩
  else
    let r := roundBlock g xs esc scale
    ⟨scale, r.1, { clip := if r.2 = 0 then 0 else 1 }, { sat := r.2 }⟩

/-! ## Tiles (R57, R61, R62) -/

/-- The operands of a tile's quantisation: grid, threshold, escape limit (0: no slub test), carried scales by position
across and block. -/
structure QPar where
  g : QGrid
  t : ℚ
  c : Nat
  carried : Option (Nat → Nat → Nat)

/-- A quantised tile: codes and scales by position across the blocks and along them, slub records (INDEX, VALUE). -/
structure QTile where
  codes : List (List Nat) := []
  scales : List (List Nat) := []
  recs : List (Nat × Nat) := []
  full : Bool := false
  h : Health := {}
  k : Cnt := {}

/-- A block's escapes after R53's withdrawal. It comes before R62's admission, so a withdrawn block neither counts as a slub-overflow
block nor ends escaping for its tile (DESIGN CHOICE, log 118). -/
def wanted (p : QPar) (xs : List Val) (scale? : Option Nat) : List Nat :=
  if p.c = 0 then [] else
  match scale? with
  | some k => if k < 4 then [] else candidates p.t xs
  | none =>
    let e := candidates p.t xs
    if !xs.any Val.isPoison && decide (absMax xs e < p.g.under) then [] else e

/-- One block of a tile is quantised: position `i`, block `b`, its elements padded to 32, `n` of them written. The block's
codes, its scale, and the tile's records and counts after it (R57, R62). -/
def quantBlock (p : QPar) (z : QTile) (i b n : Nat) (xs : List Val) : List Nat × Nat × QTile :=
  let scale? := p.carried.map (fun f => f i b % 256)
  let cand := wanted p xs scale?
  let fits := !z.full && decide (z.recs.length + cand.length ≤ p.c)
  let esc := if fits then cand else []
  let q := match scale? with
    | some k => carriedBlock p.g xs esc k
    | none => ownBlock p.g xs esc
  let recs := esc.map (fun j => match xs[j]? with
    | some (.num v) => let r := FloatFmt.kf16.round v; ((256 * i + 32 * b + j, FloatFmt.kf16.encode r.1), r.2)
    | _ => ((256 * i + 32 * b + j, 0), false))
  let refused := !cand.isEmpty && !fits
  (q.codes.take n, q.scale,
   { z with recs := z.recs ++ recs.map (·.1), full := z.full || refused,
            h := (z.h.add q.h).add { slub := if refused then 1 else 0, esc := esc.length },
            k := (z.k.add q.k).add { sat := (recs.filter (·.2)).length } })

/-- A tile is quantised block by block, in ascending element order (R62). -/
def quantTile (p : QPar) (rows : List (List Val)) : QTile :=
  rows.zipIdx.foldl (fun z r =>
    let x := (List.range (ceilDiv r.1.length 32)).foldl (fun (a : List Nat × List Nat × QTile) b =>
      let part := (r.1.drop (32 * b)).take 32
      let y := quantBlock p a.2.2 r.2 b part.length (part ++ List.replicate (32 - part.length) (.num 0))
      (a.1 ++ y.1, a.2.1 ++ [y.2.1], y.2.2)) ([], [], z)
    { x.2.2 with codes := z.codes ++ [x.1], scales := z.scales ++ [x.2.1] }) {}

/-- Rows and columns exchanged. -/
def transpose (rows : List (List Val)) : List (List Val) :=
  let a := (rows.map List.toArray).toArray
  (List.range ((rows.head?.getD []).length)).map (fun j =>
    (List.range rows.length).map (fun i => ((a[i]?).bind (fun r => r[j]?)).getD (.num 0)))

/-- A quantised tile in tile layout (R193). -/
def qTileBytes (bits : Nat) (isB : Bool) (rows cols : Nat) (q : QTile) : List Byte :=
  let cs := (q.codes.map List.toArray).toArray
  let ss := (q.scales.map List.toArray).toArray
  let at' (a : Array (Array Nat)) (i k : Nat) : Nat := ((a[i]?).bind (fun r => r[k]?)).getD 0
  tileBytes bits isB true rows cols
    (fun r c => if isB then at' cs c r else at' cs r c)
    (fun r c => if isB then at' ss c (r / 32) else at' ss r (c / 32))

/-! ## Issue (R56, R59, R61, R288, R289) -/

/-- Fields of the variant: DF, SRC. -/
def qDf (f : Fields) : Nat := fld f.variant 1 0
def qSrc (f : Fields) : Nat := fld f.variant 3 2

/-- D tiles of an instruction's output in the order in which it delivers them (R285, R287). -/
def outOrder (s : State) : Nat → EngOp → List (Nat × Nat)
  | 0, _ => []
  | fuel + 1, o =>
    if o.tag == .mma then
      let (_, _, kt) := mmaTiles o
      let ord := (descOf (o.reg o.f.sl4) 1 1 1).ord
      (mmaChunks o).flatMap (fun c => if c.k1 = kt then dTiles ord c else [])
    else
      match o.src.bind (fun n => s.ops.find? (fun x => x.id = n)) with
      | some p => outOrder s fuel p
      | none =>
        (List.range (ceilDiv o.m 256)).flatMap (fun i => (List.range (ceilDiv o.n 256)).map (fun j => (i, j)))

/-- The destination's slub tensor after the checks of R59 and R61, with its slot count; the escape limit in force (R70). Too few
regions, or a slot count outside 1-4,096, is BAD_HANDLE (DESIGN CHOICE, log 130). -/
def qSlub (s : State) (t : Tid) (h : Handle) (c : Nat) (replay : Bool) : Ex (Option Handle × Nat) := do
  if h.slv then
    let k ← getSlub s t.ctx h
    let n := k.slubSlots
    needF s (decide (1 ≤ n) && decide (n ≤ 4096) && decide (ceilDiv h.rows 256 * ceilDiv h.cols 256 ≤ k.rows))
      (fHandle k.idx)
    needF s (decide (c ≤ n)) (fHandle k.idx)
    mayWrite s t.ctx k.idx
    .ok (some k, if replay then min (2 * c) (min 4096 n) else c)
  else
    needF s (c == 0) (fHandle h.idx)
    .ok (none, 0)

/-- The destination stream of a `qnt` for tiles in order (R289): a tile-mode one has the destination as its far end. -/
def qStream (s : State) (t : Tid) (sid : Nat) (h : Handle) (page : Bool) (tiles : List (Nat × Nat)) : Ex Stream := do
  let x ← needStream s t sid
  needF s (match x.walk with
    | .localS => true
    | .driven => x.kind == .store && fillerOk s t h
    | .tiles _ _ _ _ _ _ => x.kind == .store && !page && x.h.words == h.words && tiles.zipIdx.all (fun p =>
      match x.geo (x.prod + p.2) with
      | some (.tile _ _ r c) => r == p.1.1 && c == p.1.2
      | _ => false)
    | _ => false) fStream
  needF s (x.walk == .localS || x.fmt.toNat == h.fmt) fFormat
  needF s (decide (footprint h.fmt ≤ x.size)) fStream
  .ok x

/-- The scale handle of a `qnt.kf4`'s far end, whose block axis is the one that AXIS names (R289, R489). -/
def qScale (s : State) (t : Tid) (f : Fields) (h : Handle) (x : Stream) : Ex (Option Handle) :=
  if x.kind == .store && x.walk != .localS then do
    let k ← getScale s t.ctx h
    needF s (if bit f.variant 5 then decide (2 ≤ h.rank) && scaleAxisOk h k (h.rank - 2) else scaleAxisOk h k (h.rank - 1))
      (fHandle h.scale)
    needF s (fillerOk s t k) fStream
    .ok (some k)
  else .ok none

/-- The threshold T (R56). -/
def qThreshold (w : Word) : Option ℚ := match kf16Val (fld w 15 0) with
  | .num q => if 1 ≤ q then some q else none
  | .poison => none

/-- The rows, columns and order of a `qnt`'s tiles, with its source: a hand-off's producer, or a VOP whose claim is taken
(R287, R289, R291). -/
structure QIn where
  s : State
  o : EngOp
  th : Thread
  tiles : List (Nat × Nat)

/-- Where a hand-off comes from. -/
def takeHand (s : State) (th : Thread) (o : EngOp) (acc : Bool) : Ex QIn := do
  let (n, th1) ← if acc then consumeAcc s th else consumeVepi s th
  let p ← the (s.ops.find? (fun x => x.id = n)) "the producer is not in the engines"
  .ok ⟨s, { o with src := some n, m := p.m, n := p.n }, th1, outOrder s (s.ops.length + 1) p⟩

/-- The source of the KF4 form. A VOP that reaches past its destination is an OPERAND fault (DESIGN CHOICE, log 131). -/
def qInTiles (s : State) (t : Tid) (th : Thread) (o : EngOp) (f : Fields) (h : Handle) : Ex QIn := do
  if qSrc f = 2 then
    let wv ← src th f.sl2
    let wo ← src th f.sl5
    let v ← readVop s wv
    needF s (v.fmt == 5) fFormat
    let r0 := fld wo 31 0
    let c0 := fld wo 47 32
    let er := r0 + v.rows
    let ec := 256 * c0 + v.len
    needF s (r0 % 256 == 0 && decide (er ≤ h.rows) && decide (ec ≤ h.cols) &&
      (v.rows % 256 == 0 || er == h.rows) && (v.len % 256 == 0 || ec == h.cols)) fOperand
    let (s1, o1) ← srcVop s t o v
    .ok ⟨s1, { o1 with m := v.rows, n := v.len }, th,
      (List.range (ceilDiv v.rows 256)).flatMap (fun i => (List.range (ceilDiv v.len 256)).map (fun j =>
        (r0 / 256 + i, c0 + j)))⟩
  else
    let q ← takeHand s th o (qSrc f == 0)
    needF s (q.o.m == h.rows && q.o.n == h.cols) fOperand
    .ok q

/-- The source of the page forms: tiles are (page, head) (R289, DEDUCED, log 41). -/
def qInPages (s : State) (t : Tid) (th : Thread) (o : EngOp) (f : Fields) (h : Handle) : Ex QIn := do
  let (g, d) ← kvDims s h
  if qSrc f = 2 then
    let wv ← src th f.sl2
    let wo ← src th f.sl5
    let v ← readVop s wv
    needF s (v.fmt == 5) fFormat
    let p0 := fld wo 15 0
    let hd := fld wo 18 16
    let n := ceilDiv v.rows 256
    needF s (v.len == d && decide (hd < g)) fOperand
    needF s (decide (p0 + n ≤ h.pmapE)) (fHandle h.idx)
    let (s1, o1) ← srcVop s t o v
    .ok ⟨s1, { o1 with m := v.rows, n := v.len }, th, (List.range n).map (fun i => (p0 + i, hd))⟩
  else
    let q ← takeHand s th o (qSrc f == 0)
    needF s (q.o.n == d || (d == 256 && q.o.n == 256 * g)) fOperand
    needF s (decide (ceilDiv q.o.m 256 ≤ h.pmapE)) (fHandle h.idx)
    .ok q

/-- The carried-scale handle of a `qnt` (R50, R288). (DEDUCED, log 74.) -/
def qCarried (s : State) (t : Tid) (f : Fields) (h : Handle) : Ex (Option Handle) := do
  if bit f.variant 4 then
    let k ← getH s t.ctx f.sl4.toNat
    needF s (k.fmt == 6) fFormat
    needF s (if bit f.variant 5 then decide (2 ≤ h.rank) && scaleAxisOk h k (h.rank - 2)
      else scaleAxisOk h k (h.rank - 1)) (fHandle k.idx)
    .ok (some k)
  else .ok none

/-- qnt (R288, R289). T is checked for the KF4 form alone: the page forms make no slub test (R56, DESIGN CHOICE, log 119). -/
def execQnt (t : Tid) (f : Fields) (s : State) : Res :=
  runThread s t fun s th => do
    let df := qDf f
    let sk := qSrc f
    let c := fld f.ext 12 0
    let fromVop := decide (sk = 2)
    let carried := bit f.variant 4
    dec s (decide (df < 3) && decide (sk < 3) && decide (c ≤ 4096) && (df == 0 || (!carried && c == 0)))
    dec s (formOk f 0x3F 0x1FFF [.handle, .stream, if fromVop then .scalar else .unused, .scalar,
      if carried then .handle else .unused, if fromVop then .scalar else .unused])
    engineRoom s t 1
    let wt ← src th f.sl3
    let h ← getH s t.ctx f.sl0.toNat
    needF s (h.fmt == (if df = 0 then 0 else 2)) fFormat
    needF s (df != 0 || (qThreshold wt).isSome) fOperand
    let o0 := newOp s t th .qnt f
    let (sl?, limit) ← if df = 0 then qSlub s t h c o0.replay else .ok (none, 0)
    let ck? ← if df = 0 then qCarried s t f h else .ok none
    let q ← if df = 0 then qInTiles s t th o0 f h else qInPages s t th o0 f h
    let x ← qStream q.s t f.sl1.toNat h (df != 0) q.tiles
    let driven := x.walk == .driven
    let sk? ← if df = 0 then qScale s t f h x else .ok none
    let far := if driven then [h.idx] else if x.kind == .store then farHandles x else []
    far.forM (fun k => mayWrite s t.ctx k)
    let first := (x.segs.map (fun g => g.tiles.length)).sum
    let seg : Seg := { op := s.seq, h := h, tiles := q.tiles, first := first, scaleH := sk?, isB := bit f.variant 5,
                       page := df, pc := th.pc }
    let y := { x with prod := x.prod + q.tiles.length, segs := if driven then x.segs ++ [seg] else x.segs }
    let ws := far ++ sl?.toList.map (·.idx)
    .ok (issueOp (ws.foldl (fun s k => noteHandleWrite s t k) (setStream q.s y)) t q.th { q.o with
      hs := [h] ++ sl?.toList ++ ck?.toList, claims := q.o.claims ++ [⟨x.sid, x.prod, true⟩], dBase := x.prod,
      aBase := limit, writes := ws })

/-! ## Running (R43, R289) -/

/-- The slub tensor of an issued `qnt`. -/
def EngOp.qSlub (o : EngOp) : Option Handle := match o.hs with
  | h :: r => if h.slv && h.fmt == 0 then r.find? (fun k => k.fmt == 10 && k.idx == h.slub) else none
  | [] => none

/-- The carried scales of an issued `qnt`; a replay uses own-scale (R70). -/
def EngOp.qCarried (o : EngOp) : Option Handle :=
  if bit o.f.variant 4 && !o.replay then o.hs.getLast? else none

/-- A tile's source values and its place: from the producer's waiting tile, or from the VOP. -/
def qInput (s : State) (o : EngOp) : Ex (State × Nat × Nat × List (List Val)) := do
  let sk := qSrc o.f
  if sk = 2 then
    let v := vopOf (o.reg o.f.sl2)
    let w := o.reg o.f.sl5
    let nt := ceilDiv v.len 256
    let i := o.prog / nt
    let j := o.prog % nt
    let rows := (List.range (min 256 (v.rows - 256 * i))).map (fun r =>
      ((vopVals s o.t v (256 * i + r)).drop (256 * j)).take 256)
    .ok (if qDf o.f = 0 then (s, fld w 31 0 / 256 + i, fld w 47 32 + j, rows) else (s, fld w 15 0 + i, fld w 18 16, rows))
  else
    let (p, a) ← the (handTile s o) "the producer has no tile ready"
    let rows := a.q.map (fun r => r.map (fun c => if sk = 0 then la192 c else kf32Val c.toNat))
    .ok (takeTile s p (decide (o.prog + 1 < o.tiles)), a.mt, a.nt, rows)

/-- A slub region is written: its header and its records, in ascending INDEX order (R59, DEDUCED, log 42). -/
def putRegion (s : State) (o : EngOp) (k : Handle) (region : Nat) (recs : List (Nat × Nat)) : Ex State := do
  let a := k.slubAddr region
  let sorted := recs.mergeSort (fun a b => decide (a.1 ≤ b.1))
  let bs := (recs.length :: sorted.map (fun r => r.1 + 65536 * r.2)).flatMap (leBytes 4)
  let s1 ← reachView s o.t k [(a, bs.length)] (some (.op o.id))
  .ok (writeV s1 o.t.ctx k.idx a bs (.op o.id))

/-- One tile of a `qnt`. -/
def runQnt (s : State) (o : EngOp) : Ex State := do
  can (mayRun s o) "an earlier instruction is not complete (R275)"
  let ins := o.claims.filter (fun c => !c.fills)
  can (claimsReady s { o with claims := ins }) "a slot is not ready (R280)"
  let dc ← the (o.claims.find? (fun c => c.fills)) "no destination"
  let x ← the (stream? s o.t dc.sid) "the destination stream is not open"
  let n := o.dBase + o.prog
  can (x.free n && x.filled == n) "the destination slot is not free (R196)"
  let h ← the o.hs.head? "no destination"
  let df := qDf o.f
  let isB := if df = 0 then bit o.f.variant 5 else df == 2
  let (sq, a, b, vals) ← qInput s o
  let s0 ← match o.qCarried with
    | some k => reachView sq o.t k (scalePart h k (.tile h isB a b)).ss none
    | none => .ok sq
  let rows := vals.length
  let cols := (vals.head?.getD []).length
  let car : Option (Nat → Nat → Nat) := o.qCarried.map (fun k => fun i q =>
    if isB then scaleCode s0 o.t.ctx h k (256 * a + 32 * q) (256 * b + i)
    else scaleCode s0 o.t.ctx h k (256 * a + i) (256 * b + 32 * q))
  let par : QPar := ⟨if df = 0 then .kf4 else .kf8, (qThreshold (o.reg o.f.sl3)).getD 8, o.aBase, car⟩
  let q := quantTile par (if isB then transpose vals else vals)
  let s1 ← account (countHealth s0 o.t.ctx h.idx q.h) o.t.ctx q.k
  let pol := qhPolicy s o.t.ctx
  needF s1 (!(selectedHealth s o.t.ctx q.h && (pol == 2 || (pol == 1 && (openDecl s o.t.ctx h.idx).isNone)))) fQhealth
  let s2 ← match o.qSlub with
    | some k => putRegion s1 o k (slubPlace h isB (256 * a) (256 * b)).1 q.recs
    | none => .ok s1
  let s3 := slotWrite s2 x (x.slotOff (x.slotNo n)) (qTileBytes (if df = 0 then 4 else 8) isB rows cols q)
  let s4 := setStream s3 { x.put n with filled := n + 1, short := if df = 0 then x.short else x.short ++ [(n, rows)] }
  let o1 := { o with prog := o.prog + 1 }
  .ok (if o1.prog < o.tiles then setOp s4 o1 else finishOp s4 { o1 with claims := ins } 0)

end Sys2Proof.Machine
end

