-- ==== Sys2Proof/Machine/Attn.lean ====
section
/-! DEFINITION. Softmax steps and carding (06, 12): row states, masks, cards, page lists. -/

namespace Sys2Proof.Machine

/-! ## Masks (R141, R142, R294) -/

/-- The mask word's fields. -/
structure MaskW where
  causal : Bool
  b : Nat
  tile : Nat
  deriving DecidableEq, Repr

def maskOf (w : Word) : MaskW := ⟨bit w 63, fld w 47 24 + 1, fld w 15 0⟩

/-- Whether the pair of query row `r` of tile `t` and slot `j` of page `p` is masked (R141). -/
def masked (m : MaskW) (t r p j fill : Nat) : Bool :=
  decide (fill ≤ j) || (m.causal && decide ((256 * t + r) / m.b < (256 * p + j) / m.b))

/-- The mask floor (R142). -/
def floorQ : ℚ := -(pow2 200)

/-! ## Row states (R143, R145) -/

/-- The operands of the state group (R293): offset, mask, c, n_t, D. -/
structure SGroup where
  off : Nat
  mask : MaskW
  c : Val
  n : Nat
  d : Nat

def sgroup (w0 w1 w2 w3 : Word) : SGroup := ⟨w0.toNat, maskOf w1, scalarVal w2, fld w3 7 0 + 1, fld w3 24 16 + 1⟩

/-- The state group of an issued instruction. -/
def EngOp.group (o : EngOp) : SGroup :=
  sgroup (o.reg o.f.sl0) (o.reg (o.f.sl0 + 1)) (o.reg (o.f.sl0 + 2)) (o.reg (o.f.sl0 + 3))

/-- Bytes of a row state: m, l, then o (DEDUCED, log 43). -/
def SGroup.row (g : SGroup) (i : Nat) : Nat := g.off + i * (4 * (g.d + 2))
def SGroup.bytes (g : SGroup) : Nat := g.n * (4 * (g.d + 2))

/-- A KF32 value at a scratch offset. -/
def scrVal (s : State) (t : Tid) (a : Nat) : Val := kf32Val (memNat (scratchOf s t.ctx t.lsp) a 4)

/-- KF32 values are written at a scratch offset. -/
def scrPut (s : State) (t : Tid) (a : Nat) (vs : List Val) : State :=
  scratchWrite s t.ctx t.lsp a (vs.flatMap (fun v => leBytes 4 (kf32Code v)))

/-- The row state that a thread's offset names. -/
def rowSt? (s : State) (t : Tid) (off : Nat) (rc : Bool) : Option RowSt :=
  s.rowStates.find? (fun r => r.t == t && r.off == off && r.recomp == rc)

/-- A row state set, or ended. -/
def setRow (s : State) (t : Tid) (off : Nat) (rc : Bool) (r : Option RowSt) : State :=
  { s with rowStates := s.rowStates.filter (fun x => !(x.t == t && x.off == off && x.recomp == rc)) ++ r.toList }

/-- The entry word's fields (R284, R293). -/
def entryList (w : Word) : Nat := fld w 63 48
def entryNo (w : Word) : Nat := fld w 47 39

/-- The state group read at issue, its range within vector scratch and in no stream's region (R195). -/
def readGroup (s : State) (t : Tid) (th : Thread) (v : BitVec 16) : Ex SGroup := do
  let w0 ← srcG th v 0
  let w1 ← srcG th v 1
  let w2 ← srcG th v 2
  let w3 ← srcG th v 3
  let g := sgroup w0 w1 w2 w3
  recordsOk s g.off g.bytes
  needF s (regionOf s t g.off g.bytes).isNone fStream
  .ok g

/-- The gather stream of a step, with the entry it names within its lists (R286, R293). -/
def stepStream (s : State) (t : Tid) (v : BitVec 16) (w : Word) : Ex State := do
  let x ← needStream s t v.toNat
  needF s (x.kind == .gather) fStream
  needEntry s x (entryList w) (entryNo w)

/-- The page and fill count of a delivered entry. -/
def stepEntry (s : State) (o : EngOp) : Ex GEnt := do
  let w := o.reg o.f.sl1
  let x ← the (stream? s o.t o.f.sl2.toNat) "the gather stream is not open"
  the (x.gents.find? (fun e => e.list == entryList w && e.entry == entryNo w)) "the entry is not delivered (R286)"

/-- The producer that a step consumes must have the shape given (R287). -/
def stepHand (s : State) (th : Thread) (o : EngOp) (m n : Nat) : Ex (EngOp × Thread) := do
  let (k, th1) ← consumeAcc s th
  let p ← the (s.ops.find? (fun x => x.id = k)) "the producer is not in the engines"
  needF s (p.m == m && p.n == n) fOperand
  .ok ({ o with src := some k, m := m, n := n }, th1)

/-- A local stream's next slot, to be filled with `n` bytes of rows of 1,024 B or of one tile (R280, R293); any local
stream whose slots are large enough will do (DESIGN CHOICE, log 145). -/
def stepDst (s : State) (t : Tid) (o : EngOp) (v : BitVec 16) (n : Nat) : Ex (State × EngOp) := do
  let x ← needStream s t v.toNat
  needF s (x.walk == .localS && decide (n ≤ x.size)) fStream
  .ok (setStream s { x with prod := x.prod + 1, shapes := x.shapes ++ [⟨x.prod, n / 1024, 256, 1024⟩] },
       { o with claims := o.claims ++ [⟨x.sid, x.prod, true⟩] })

/-- The state's range as an instruction reads and writes it (R71, R275): a fresh state is not read, and the end step writes none of it
(R143). -/
def useState (s : State) (t : Tid) (o : EngOp) (g : SGroup) (reads writes : Bool) : State × EngOp :=
  let s1 := if reads then noteScrRead s t g.off g.bytes else s
  (if writes then noteScrWrite s1 t g.off g.bytes else s1,
   { o with rds := if reads then o.rds ++ [(g.off, g.bytes)] else o.rds, wrs := if writes then o.wrs ++ [(g.off, g.bytes)] else o.wrs })

/-- Slots of `vsmx.step` (R293): FORM 3 is none; slots 4 and 5 serve `recomp` alone. -/
def stepForm (f : Fields) (rc : Bool) : Bool :=
  fld f.variant 1 0 != 3 && formOk { f with variant := f.variant &&& 0xFC } 0 0
    [.group 4, .scalar, .stream, .stream, if rc then .handle else .unused,
     if rc then .scalar else .unused]

/-- α of each row, as an accumulate step holds it: its score step has run before it (R145, R275). -/
def alphaTile (al : List Nat) : List AccTile := [⟨0, 0, [al.map (BitVec.ofNat 192)]⟩]

/-- α of each row that an accumulate step holds. -/
def EngOp.alpha (o : EngOp) : List Nat := o.acc.flatMap (fun a => a.q.flatMap (fun r => r.map (·.toNat)))

/-- A score step hands α on: to its row state, for an accumulate step that has not issued, and to the accumulate steps that wait
in the engines (R143). -/
def giveAlpha (s : State) (t : Tid) (off : Nat) (al : List Nat) : State :=
  { s with
    rowStates := s.rowStates.map (fun r => if r.t == t && r.off == off && !r.recomp then { r with alpha := al } else r)
    ops := s.ops.map (fun o => if o.t == t && o.tag == .smAcc && o.group.off == off then { o with acc := alphaTile al } else o) }

/-- vsmx.step, score form (R143-R145). -/
def execVsmxScore (t : Tid) (f : Fields) (s : State) : Res :=
  runThread s t fun s th => do
    dec s (stepForm f false)
    engineRoom s t 2
    let we ← src th f.sl1
    let g ← readGroup s t th f.sl0
    let s ← stepStream s t f.sl2 we
    let e := entryNo we
    needF s (match rowSt? s t g.off false with
      | some r => e == r.last + 1
      | none => e == 0) fAttOrder
    let fresh := (rowSt? s t g.off false).isNone
    let (o1, th1) ← stepHand s th (newOp s t th .smScore f) g.n 256
    let (s1, o2) ← stepDst s t o1 f.sl3 34816
    let (s2, o3) := useState s1 t { o2 with aBase := if fresh then 1 else 0 } g (!fresh) true
    let al := match rowSt? s t g.off false with
      | some r => r.alpha
      | none => []
    .ok (issueOp (setRow s2 t g.off false (some ⟨t, g.off, false, e, true, al⟩)) t th1 o3)

/-- vsmx.step, accumulate form (R143, R145). -/
def execVsmxAcc (t : Tid) (f : Fields) (s : State) : Res :=
  runThread s t fun s th => do
    dec s (stepForm f false)
    engineRoom s t 2
    let we ← src th f.sl1
    let g ← readGroup s t th f.sl0
    let s ← stepStream s t f.sl2 we
    let r ← theF s (rowSt? s t g.off false) fAttOrder
    needF s (r.due && entryNo we == r.last) fAttOrder
    let (o1, th1) ← stepHand s th { newOp s t th .smAcc f with acc := alphaTile r.alpha } g.n g.d
    let (s2, o2) := useState s t o1 g true true
    .ok (issueOp (setRow s2 t g.off false (some { r with due := false })) t th1 o2)

/-- The record range of a statistics handle: 16 B records from the view's first byte (R148, DEDUCED, log 44). -/
def statSpan (h : Handle) (first n : Nat) : Nat × Nat := (h.lo + 16 * first, 16 * n)

/-- The records lie within the view. -/
def statOk (s : State) (h : Handle) (first n : Nat) : Ex Unit :=
  needF s (decide (h.lo + 16 * (first + n) ≤ h.hi)) (fAddr h.base)

/-- vsmx.step, recompute form (R149); its visits follow R145 and begin anew at entry 0 (DEDUCED, log 45). -/
def execVsmxRecomp (t : Tid) (f : Fields) (s : State) : Res :=
  runThread s t fun s th => do
    dec s (stepForm f true)
    engineRoom s t 2
    let we ← src th f.sl1
    let wr ← src th f.sl5
    let g ← readGroup s t th f.sl0
    let s ← stepStream s t f.sl2 we
    let e := entryNo we
    needF s (e == 0 || (rowSt? s t g.off true).any (fun r => e == r.last + 1)) fAttOrder
    let h ← getH s t.ctx f.sl4.toNat
    statOk s h wr.toNat g.n
    let (o1, th1) ← stepHand s th (newOp s t th .smRecomp f) g.n 256
    let (s1, o2) ← stepDst s t o1 f.sl3 (1024 * g.n)
    .ok (issueOp (setRow s1 t g.off true (some ⟨t, g.off, true, e, false, []⟩)) t th1 { o2 with hs := [h] })

/-- vsmx.end (R143, R146, R148). -/
def execVsmxEnd (t : Tid) (f : Fields) (s : State) : Res :=
  runThread s t fun s th => do
    let stats := bit f.variant 0
    dec s (formOk f 1 0 [.group 4, .scalar, if stats then .handle else .unused, if stats then .scalar else .unused])
    engineRoom s t 2
    let wd ← src th f.sl1
    let wr ← src th f.sl3
    let g ← readGroup s t th f.sl0
    let d ← readVop s wd
    needF s (d.fmt == 5) fFormat
    needF s (d.rows == g.n && d.len == g.d) fOperand
    let hs ← if stats then do
        let h ← getH s t.ctx f.sl2.toNat
        statOk s h wr.toNat g.n
        mayWrite s t.ctx h.idx
        .ok [h]
      else .ok []
    let fresh := (rowSt? s t g.off false).isNone
    let s0 := hs.foldl (fun s h => noteHandleWrite s t h.idx) s
    let (s1, o1) ← dstVop s0 t { newOp s t th .smEnd f with hs := hs, writes := hs.map (·.idx), aBase := if fresh then 1 else 0 } d
    let (s2, o2) := useState s1 t o1 g (!fresh) false
    .ok (issueOp (setRow s2 t g.off false none) t th o2)

/-! ## Softmax arithmetic (R143, R149) -/

/-- The scaled score of one pair: the floor where it is masked (R142). -/
def score1 (c qk : Val) (mk : Bool) : Val × Cnt := if mk then (.num floorQ, {}) else rnC (Val.map2 (· * ·) c qk)

/-- exp2 of a rounded difference. (DEDUCED, log 75.) -/
def expDiff (a b : Val) : Val × Cnt :=
  let d := rnC (Val.map2 (· - ·) a b)
  let e := distaff .exp2 d.1
  (e.1, d.2.add e.2)

/-- A row's score step: new m and l, α, the quantised probabilities by block with their scales, and what is counted. -/
structure ScoreRow where
  m : Val
  l : Val
  alpha : Val
  codes : List Nat
  scales : List Nat
  k : Cnt

def scoreRow (c m l : Val) (qk : List Val) (mk : Nat → Bool) : ScoreRow :=
  let ts := qk.zipIdx.map (fun x => score1 c x.1 (mk x.2))
  let m1 := ts.zipIdx.foldl (fun a x => if mk x.2 then a else Val.map2 qmax a x.1.1) m
  let al := if m == .num floorQ then (.num 0, {}) else expDiff m m1
  let ps := ts.zipIdx.map (fun x => if mk x.2 then (.num 0, {}) else expDiff x.1.1 m1)
  let bs := (List.range 8).map (fun b => ownBlock .kf4 (((ps.map (·.1)).drop (32 * b)).take 32) [])
  let sum := bs.foldl (fun acc q => q.codes.foldl (fun acc x =>
    Val.map2 (· + ·) acc ((if q.scale < 4 then .num 0 else FloatFmt.kf4.decode x).map1 (· * ks8Val q.scale))) acc) (.num 0)
  let l1 := rnC (Val.map2 (· + ·) (Val.map2 (· * ·) al.1 l) sum)
  let els := sumCnt ((ts.zip ps).map (fun x => (x.1.2.add x.2.2).once))
  ⟨m1, l1.1, al.1, bs.flatMap (·.codes), bs.map (·.scale), (els.add al.2.once).add l1.2⟩

/-- A score step runs. -/
def runScore (s : State) (o : EngOp) : Ex State := do
  can (mayRun s o) "an earlier instruction is not complete (R275)"
  can (claimsReady s o) "the slot is not free (R280)"
  let g := o.group
  let e ← stepEntry s o
  let (p, a) ← the (handTile s o) "the producer has no tile ready"
  let c ← the o.claims.head? "no destination"
  let x ← the (stream? s o.t c.sid) "the stream is not open"
  let fresh := o.aBase == 1
  let rows := a.q.zipIdx.map (fun r =>
    let m := if fresh then .num floorQ else scrVal s o.t (g.row r.2)
    let l := if fresh then .num 0 else scrVal s o.t (g.row r.2 + 4)
    scoreRow g.c m l (r.1.map la192) (fun j => masked g.mask g.mask.tile r.2 e.page j e.fill))
  let s1 ← account (takeTile s p false) o.t.ctx (sumCnt (rows.map (·.k)))
  let s2 := rows.zipIdx.foldl (fun s r =>
    let s' := scrPut s o.t (g.row r.2) [r.1.m, r.1.l]
    if fresh then scrPut s' o.t (g.row r.2 + 8) (List.replicate g.d (.num 0)) else s') s1
  let q : QTile := { codes := rows.map (·.codes), scales := rows.map (·.scales) }
  let s3 := slotWrite s2 x (x.slotOff (x.slotNo c.tile)) (qTileBytes 4 false rows.length 256 q)
  .ok (finishOp (giveAlpha s3 o.t g.off (rows.map (fun z => kf32Code z.alpha))) o g.n)

/-- An accumulate step runs. -/
def runAcc (s : State) (o : EngOp) : Ex State := do
  can (mayRun s o) "an earlier instruction is not complete (R275)"
  let g := o.group
  let (p, a) ← the (handTile s o) "the producer has no tile ready"
  let al := o.alpha
  let rows := a.q.zipIdx.map (fun r => r.1.zipIdx.map (fun v =>
    rnC (Val.map2 (· + ·) (Val.map2 (· * ·) (kf32Val ((al[r.2]?).getD 0)) (scrVal s o.t (g.row r.2 + 8 + 4 * v.2)))
      (la192 v.1))))
  let s1 ← account (takeTile s p false) o.t.ctx (sumCnt (rows.map (fun r => sumCnt (r.map (·.2)))))
  let s2 := rows.zipIdx.foldl (fun s r => scrPut s o.t (g.row r.2 + 8) (r.1.map (·.1))) s1
  .ok (finishOp s2 o g.n)

/-- One recomputed row (R149). -/
def recompRow (c lse : Val) (empty : Bool) (qk : List Val) (mk : Nat → Bool) : List (Val × Cnt) :=
  qk.zipIdx.map (fun x =>
    if empty || mk x.2 then (.num 0, {})
    else
      let t := score1 c x.1 false
      let e := expDiff t.1 lse
      (e.1, (t.2.add e.2).once))

/-- A recompute step runs. -/
def runRecomp (s : State) (o : EngOp) : Ex State := do
  can (mayRun s o) "an earlier instruction is not complete (R275)"
  can (claimsReady s o) "the slot is not free (R280)"
  let g := o.group
  let e ← stepEntry s o
  let (p, a) ← the (handTile s o) "the producer has no tile ready"
  let c ← the o.claims.head? "no destination"
  let x ← the (stream? s o.t c.sid) "the stream is not open"
  let h ← the o.hs.head? "no statistics handle"
  let sp := statSpan h (o.reg o.f.sl5).toNat g.n
  let s0 ← reachView s o.t h [sp] none
  let field (i k : Nat) : Nat := ofBytes (readV s0 o.t.ctx h.idx (sp.1 + 16 * i + k) 4)
  let rows := a.q.zipIdx.map (fun r =>
    recompRow g.c (kf32Val (field r.2 4)) (decide (field r.2 12 % 2 = 1)) (r.1.map la192)
      (fun j => masked g.mask g.mask.tile r.2 e.page j e.fill))
  let s1 ← account (takeTile s0 p false) o.t.ctx (sumCnt (rows.map (fun r => sumCnt (r.map (·.2)))))
  let s2 := slotWrite s1 x (x.slotOff (x.slotNo c.tile))
    (rows.flatMap (fun r => r.flatMap (fun v => leBytes 4 (kf32Code v.1))))
  .ok (finishOp s2 o g.n)

/-- The end of one row (R143, R146): y, the statistics record, whether it is empty, and what is counted. -/
def endRow (m l : Val) (os : List Val) : List (Val × Cnt) × List Byte × Bool × Cnt :=
  if l == .num 0 then
    (os.map (fun _ => (.num 0, {})),
     leBytes 4 (kf32Code (.num floorQ)) ++ leBytes 4 (kf32Code (.num floorQ)) ++ leBytes 4 0 ++ leBytes 4 1, true, {})
  else
    let lg := distaff .log2 l
    let lse := rnC (Val.map2 (· + ·) m lg.1)
    let bad := m.isPoison || l.isPoison || lse.1.isPoison
    (os.map (fun v => rnC (Val.map2 (· / ·) v l)),
     leBytes 4 (kf32Code m) ++ leBytes 4 (kf32Code lse.1) ++ leBytes 4 (kf32Code l) ++ leBytes 4 (if bad then 2 else 0),
     false, (lg.2.add lse.2).once)

/-- vsmx.end runs. -/
def runEnd (s : State) (o : EngOp) : Ex State := do
  unitReady s o
  let g := o.group
  let d := vopOf (o.reg o.f.sl1)
  let fresh := o.aBase == 1
  let rows := (List.range g.n).map (fun i =>
    if fresh then endRow (.num floorQ) (.num 0) (List.replicate g.d (.num 0))
    else endRow (scrVal s o.t (g.row i)) (scrVal s o.t (g.row i + 4))
      ((List.range g.d).map (fun k => scrVal s o.t (g.row i + 8 + 4 * k))))
  let s2 ← putRowsWith s o.t d (sumCnt (rows.map (fun r => r.2.2.2))) (rows.map (fun r => r.1.map (storeVal d.f)))
  let s3 := bumpC s2 o.t.ctx kAttEmpty (rows.filter (fun r => r.2.2.1)).length
  let s4 ← match o.hs.head? with
    | none => .ok s3
    | some h => do
      let sp := statSpan h (o.reg o.f.sl3).toNat g.n
      let s' ← reachView s3 o.t h [sp] (some (.op o.id))
      .ok (writeV s' o.t.ctx h.idx sp.1 (rows.flatMap (fun r => r.2.1)) (.op o.id))
  .ok (finishOp s4 o g.n)

/-! ## Cards (R130-R132) -/

/-- Addresses of a card's mean key and norm in its set (R130). -/
def cardMean (h : Handle) (d p : Nat) : Nat := h.loc + 2 * d * p
def cardNorm (h : Handle) (d e p : Nat) : Nat := h.loc + roundUp (2 * d * e) 256 + 2 * p

/-- Fields of `card.build`'s register. -/
def buildFirst (w : Word) : Nat := fld w 15 0
def buildCount (w : Word) : Nat := fld w 31 16 + 1
def buildHead (w : Word) : Nat := fld w 34 32

/-- The card set lies in memory that the context may access (R130). -/
def cardSetOk (s : State) (t : Tid) (h : Handle) (d e : Nat) (reads : Bool) : Ex Unit := do
  needF s (h.fmt == 4) fFormat
  let n := roundUp (2 * d * e) 256 + 2 * e
  needF s (h.dev != devId s || (if reads then okRead s t.ctx h.loc n else okRange s t.ctx h.loc n)) (fAddr h.base)

/-- card.build (R131, R293). -/
def execCardBuild (t : Tid) (f : Fields) (s : State) : Res :=
  runThread s t fun s th => do
    dec s (formOk f 0 0 [.handle, .handle, .scalar])
    engineRoom s t 3
    let w ← src th f.sl2
    let h ← getH s t.ctx f.sl0.toNat
    needF s (h.fmt == 2) fFormat
    let (g, d) ← kvDims s h
    let k ← getH s t.ctx f.sl1.toNat
    cardSetOk s t k d h.pmapE false
    needF s (decide (buildHead w < g)) fOperand
    needF s (decide (buildFirst w + buildCount w ≤ h.pmapE)) (fHandle h.idx)
    mayWrite s t.ctx k.idx
    .ok (issueOp (noteHandleWrite s t k.idx) t th { newOp s t th .cardBuild f with hs := [h, k], writes := [k.idx] })

/-- The exact value of K element (j, i) of a subpage, by its code and scale (R124, R24). -/
def subK (bs : Array Byte) (d j i : Nat) : Val :=
  let sc := ((bs[512 * d + j * (d / 32) + i / 32]?).getD 0).toNat
  if sc < 4 then .num 0
  else (FloatFmt.kf8.decode ((bs[j * d + i]?).getD 0).toNat).map1 (· * ks8Val sc)

/-- √q rounded once to KF16 (R131). -/
def sqrt16 (q : ℚ) : ℚ × Bool := if q ≤ 0 then (0, false) else FloatFmt.kf16.round (sqrtEncl q).lo

/-- The card of a page's subpage (R131): mean codes, norm code, and what is counted. The norm takes the values with their scales (DESIGN CHOICE,
log 142). (DEDUCED, log 76.) -/
def cardOf (bs : Array Byte) (d fill : Nat) : List Nat × Nat × Cnt :=
  let rows := (List.range fill).map (fun j => (List.range d).map (subK bs d j))
  let bad := (rows.map (fun r => (r.filter Val.isPoison).length)).sum
  if fill = 0 then (List.replicate d 0, 0, {})
  else if bad ≠ 0 then (List.replicate d FloatFmt.kf16.poisonCode, FloatFmt.kf16.poisonCode, { new := bad })
  else
    let mu := (List.range d).map (fun i =>
      FloatFmt.kf16.round ((rows.map (fun r => ((r[i]?).getD (.num 0)).get)).sum / (fill : ℚ)))
    let big := rows.foldl (fun a r => qmax a ((r.map (fun v => v.get * v.get)).sum)) 0
    let nu := sqrt16 big
    (mu.map (fun v => FloatFmt.kf16.encode v.1), FloatFmt.kf16.encode nu.1,
     { sat := (mu.filter (·.2)).length + (if nu.2 then 1 else 0) })

/-- A page-map entry as the carding unit reads it (R128, R132). -/
def cardEntry (s : State) (t : Tid) (h : Handle) (g d p : Nat) : Ex (State × Nat × Nat) := do
  let s1 ← admitPages s (quarterOf s t) t.ctx (h.pmap + 8 * p) 8 false
  pageEntry s1 t.ctx h g d p

/-- One card of `card.build` (R131, R132). -/
def runBuild (s : State) (o : EngOp) : Ex State := do
  can (mayRun s o) "an earlier instruction is not complete (R275)"
  let w := o.reg o.f.sl2
  let h := (o.hs[0]?).getD noHandle
  let k := (o.hs[1]?).getD noHandle
  let (g, d) ← kvDims s h
  let p := buildFirst w + o.prog
  let (s0, base, fill) ← cardEntry s o.t h g d p
  let a := base + buildHead w * 528 * d
  let s1 ← if fill = 0 then .ok s0 else reachView s0 o.t { idx := h.idx, w0 := gAddr s0 a } [(a, 528 * d)] none
  let (mu, nu, cnt) := cardOf (if fill = 0 then #[] else (readV s1 o.t.ctx h.idx a (528 * d)).toArray) d fill
  let s2 ← account s1 o.t.ctx cnt
  let s3 ← reachView s2 o.t k [(cardMean k d p, 2 * d), (cardNorm k d h.pmapE p, 2)] (some (.op o.id))
  let s4 := writeV s3 o.t.ctx k.idx (cardMean k d p) (mu.flatMap (leBytes 2)) (.op o.id)
  let s5 := writeV s4 o.t.ctx k.idx (cardNorm k d h.pmapE p) (leBytes 2 nu) (.op o.id)
  let o1 := { o with prog := o.prog + 1 }
  .ok (if o1.prog < buildCount w then setOp s5 o1 else finishOp s5 o1 0)

/-! ## Selection (R133-R138) -/

/-- The tiles word (R293). -/
def selFirst (w : Word) : Nat := fld w 15 0
def selCount (w : Word) : Nat := fld w 23 16 + 1

/-- Fields of `card.sel`'s variant and extension. -/
def selF (f : Fields) : Nat := fld f.variant 6 0
def selK (f : Fields) : Nat := fld f.ext 9 0

/-- Bytes of a list region (R138). -/
def listStride (k : Nat) : Nat := roundUp (4 + 2 * k) 64

/-- The address of a tile's list region (R138, DEDUCED, log 69). -/
def listAt (l : Handle) (k t : Nat) : Nat := l.loc + t * listStride k

/-- The forced entries that bytes hold (R136). -/
def forcedWords (bs : List Byte) : List Half :=
  (List.range (bs.length / 4)).map (fun i => BitVec.ofNat 32 (ofBytes ((bs.drop (4 * i)).take 4)))

/-- The page that a forced entry names for a tile; none where it is dropped. -/
def forcedPage (w : Half) (t e : Nat) : Option Nat :=
  if fld w 31 30 = 0 then some (fld w 15 0)
  else
    let p : Int := (t : Int) + signedOf 17 (fld w 16 0)
    if 0 ≤ p ∧ p < e then some p.toNat else none

/-- card.sel (R133-R138, R293). The shapes of its handles: DESIGN CHOICE, log 144. -/
def execCardSel (t : Tid) (f : Fields) (s : State) : Res :=
  runThread s t fun s th => do
    let nf := selF f
    let k := selK f
    dec s (formOk f 0x7F 0x3FF [.handle, .handle, .handle, .handle, .group 4])
    dec s (decide (nf ≤ 64) && decide (1 ≤ k) && decide (k ≤ 512))
    engineRoom s t 3
    engineRoom s t 0
    let wt ← srcG th f.sl4 0
    let wa ← srcG th f.sl4 1
    let _ ← srcG th f.sl4 2
    let _ ← srcG th f.sl4 3
    needF s (decide (nf ≤ k)) fOperand
    let q ← getH s t.ctx f.sl0.toNat
    let cs ← getH s t.ctx f.sl1.toNat
    let kv ← getH s t.ctx f.sl2.toNat
    let l ← getH s t.ctx f.sl3.toNat
    needF s (q.fmt == 2 && kv.fmt == 2 && l.fmt == 9) fFormat
    let (_, d) ← kvDims s kv
    let qs ← getScale s t.ctx q
    needF s (scaleAxisOk q qs (q.rank - 1)) (fHandle q.scale)
    cardSetOk s t cs d kv.pmapE true
    let last := selFirst wt + selCount wt - 1
    needF s (q.cols == d && decide (256 * last < q.rows) && decide (last < l.rows) && decide (2 + k ≤ l.cols)) fOperand
    let a := localOf wa
    needF s (nf == 0 || (isLocal s wa && a % 4 == 0)) (fAddr wa)
    let (s, bs) ← if nf = 0 then .ok (s, []) else readA s t a (4 * nf)
    let ws := forcedWords bs
    needF s (ws.all (fun w => decide (fld w 31 30 < 2) && fld w 29 17 == 0)) fOperand
    needF s (ws.all (fun w => fld w 31 30 == 1 || decide (fld w 16 0 < kv.pmapE))) (fHandle kv.idx)
    mayWrite s t.ctx l.idx
    let o := { newOp s t th .cardSel f with
                 hs := [q, cs, kv, l, qs], writes := [l.idx], rds := [],
                 acc := [⟨0, 0, [ws.map (fun w => w.zeroExtend 192)]⟩] }
    .ok (issueOp (noteHandleWrite s t l.idx) t th o)

/-- The forced entries of an issued `card.sel`. -/
def EngOp.forced (o : EngOp) : List Half := match o.acc with
  | a :: _ => (a.q.head?.getD []).map (fun w => w.setWidth 32)
  | [] => []

/-- The mean query of a tile (R133): D values, or none where it is poison, with what is counted. -/
def meanQuery (s : State) (c : Nat) (q k : Handle) (t n : Nat) : Option (List ℚ) × Cnt :=
  let el (r i : Nat) : Val :=
    let sc := scaleCode s c q k (256 * t + r) i
    if sc < 4 then .num 0 else (FloatFmt.kf8.decode (elemV s c q (q.ix (256 * t + r) i))).map1 (· * ks8Val sc)
  let cols := (List.range q.cols).map (fun i => (List.range n).map (fun r => el r i))
  if cols.any (fun x => x.any Val.isPoison) then (none, {})
  else
    let ms := cols.map (fun x => FloatFmt.kf16.round ((x.map Val.get).sum / (n : ℚ)))
    (some (ms.map (·.1)), { sat := (ms.filter (·.2)).length })

/-- A card's values, none where it is poison. -/
def cardVals (mu : List Nat) (nu : Nat) : Option (List ℚ × ℚ) :=
  let vs := mu.map kf16Val
  if vs.any Val.isPoison || (kf16Val nu).isPoison then none else some (vs.map Val.get, (kf16Val nu).get)

/-- A page's score for a mean query (R134): runs of 16, then λν added exactly, one rounding. -/
def pageScore (qv mu : List ℚ) (lam : Val) (nu : ℚ) : Val × Cnt :=
  let runs := (List.range (ceilDiv qv.length 16)).map (fun r =>
    round34 ((((qv.drop (16 * r)).take 16).zip ((mu.drop (16 * r)).take 16)).map (fun x => x.1 * x.2)).sum)
  rnC (lam.map1 (fun l => runs.sum + l * nu))

/-- Whether some pair of the tile and a page is unmasked (R135). -/
def someUnmasked (m : MaskW) (t n p fill : Nat) : Bool := decide (1 ≤ fill) && !masked m t (n - 1) p 0 fill

/-- Insertion of ranked pages: score descending, equal scores by page ascending (R137). -/
def rankLe (a b : ℚ × Nat) : Bool := decide (b.1 < a.1) || (a.1 == b.1 && decide (a.2 ≤ b.2))

/-- The list region's U16 words (R138). -/
def listWords (k : Nat) (list : List Nat) (forced : Nat) (short poison : Bool) : List Nat :=
  let h := list.length + forced * 1024 + (if short then 131072 else 0) + (if poison then 262144 else 0)
  let ws := [h % 65536, h / 65536] ++ list
  ws ++ List.replicate (listStride k / 2 - ws.length) 0

/-- The fill counts of a KV handle's pages (R128). -/
def pageFills (s : State) (t : Tid) (kv : Handle) (g d : Nat) : Ex (State × List Nat) :=
  (List.range kv.pmapE).foldlM (fun (z : State × List Nat) p => do
    let (s1, _, fill) ← cardEntry z.1 t kv g d p
    .ok (s1, z.2 ++ [fill])) (s, [])

/-- One tile of `card.sel`: its page list is written (R137, R138); it occupies the array as an `mma` does (R140). Poison
scores and saturation: DESIGN CHOICE, log 143. -/
def runSel (s : State) (o : EngOp) : Ex State := do
  can (mayPass s o) "an earlier instruction is not complete (R275)"
  let c := o.t.ctx.val
  let hd (i : Nat) : Handle := (o.hs[i]?).getD noHandle
  let q := hd 0
  let cs := hd 1
  let kv := hd 2
  let l := hd 3
  let qs := hd 4
  let wt := o.reg o.f.sl4
  let lam := scalarVal (o.reg (o.f.sl4 + 2))
  let mk := maskOf (o.reg (o.f.sl4 + 3))
  let k := selK o.f
  let t := selFirst wt + o.prog
  let n := min 256 (q.rows - 256 * t)
  let (g, d) ← kvDims s kv
  let e := kv.pmapE
  let s1 ← reachView s o.t q ((List.range n).map (fun r => q.span (256 * t + r) 0 d)) none
  let s1 ← reachView s1 o.t qs (scalePart q qs (.rows q (256 * t) n)).ss none
  let s1 ← reachView s1 o.t cs [(cs.loc, roundUp (2 * d * e) 256 + 2 * e)] none
  let (s2, fills) ← pageFills s1 o.t kv g d
  let mean := meanQuery s2 c q qs t n
  let phi := ((o.forced.filterMap (fun w => forcedPage w t e)).filter (fun p => (fills[p]?).getD 0 != 0)).eraseDups
  let open' := (List.range e).filter (fun p => someUnmasked mk t n p ((fills[p]?).getD 0))
  let cards := open'.map (fun p =>
    (p, cardVals ((List.range d).map (fun i => ofBytes (readV s2 c cs.idx (cardMean cs d p + 2 * i) 2)))
      (ofBytes (readV s2 c cs.idx (cardNorm cs d e p) 2))))
  let bad := (cards.filter (fun x => x.2.isNone)).length
  let scored : List (Nat × (Val × Cnt)) := match mean.1 with
    | none => []
    | some qv => cards.filterMap (fun x => x.2.map (fun v => (x.1, pageScore qv v.1 lam v.2)))
  let cand := scored.filterMap (fun x => match x.2.1 with
    | .num v => if phi.contains x.1 then none else some (v, x.1)
    | .poison => none)
  let chosen := ((cand.mergeSort rankLe).take (k - phi.length)).map (·.2)
  let list := (phi ++ chosen).mergeSort (fun a b => decide (a ≤ b))
  let short := decide (list.length < k)
  let s3 ← account s2 o.t.ctx (mean.2.add (sumCnt (scored.map (fun x => x.2.2))))
  let s4 := bumpC (bumpC s3 c kCardPoison (bad + (if mean.1.isNone then 1 else 0))) c kCardShort (if short then 1 else 0)
  let bs := (listWords k list phi.length short mean.1.isNone).flatMap (leBytes 2)
  let s5 ← reachView s4 o.t l [(listAt l k t, bs.length)] (some (.op o.id))
  let s6 := writeV (coverBytes s5 c l.idx [(listAt l k t, bs.length)] (.op o.id)) c l.idx (listAt l k t) bs (.op o.id)
  let o1 := { o with prog := o.prog + 1 }
  .ok (if o1.prog < selCount wt then setOp s6 o1 else finishOp s6 { o1 with acc := [] } 0)

end Sys2Proof.Machine
end

