-- ==== Sys2Proof/Machine/Codec.lean ====
section
/-! DEFINITION. The codec cores (17): descriptors and their checks, the job queue, what the encoder settles, cores, units and the end
of a job. The bits of a coded picture and the samples of a decoded one are those of another standard (R402): uninterpreted functions of
the descriptor and of what the job reads (R411). -/

namespace Sys2Proof.Machine

/-! ## Descriptors (R403) -/

/-- Bits of a word of a descriptor. -/
def dFld (d : List Word) (k hi lo : Nat) : Nat := fld ((d[k]?).getD 0) hi lo

/-- Fields of a descriptor (R403), the sizes and counts as they are meant. -/
def dDecode (d : List Word) : Bool := dFld d 0 63 60 == 1
def dAv1 (d : List Word) : Bool := dFld d 0 59 58 == 1
def dGang (d : List Word) : Bool := dFld d 0 57 57 == 1
def dCores (d : List Word) : Nat := dFld d 0 56 55 + 1
def dSplit (d : List Word) : Nat := dFld d 0 54 53
def dFrames (d : List Word) : Nat := dFld d 0 47 32 + 1
def dWidth (d : List Word) : Nat := dFld d 0 31 16 + 1
def dHeight (d : List Word) : Nat := dFld d 0 15 0 + 1
def dFirst (d : List Word) : Nat := dFld d 6 63 32

/-- Reserved fields are 0 (R403). -/
def dReservedOk (d : List Word) : Bool :=
  dFld d 0 51 48 == 0 && dFld d 2 3 0 == 0 && dFld d 3 53 48 == 0 && dFld d 4 5 0 == 0 && dFld d 7 63 0 == 0

/-- The fields that only an encode uses (R403). -/
def dEncodeOnly (d : List Word) : List Nat :=
  [dSplit d, dFld d 0 52 52, dFld d 2 31 14, dFld d 2 13 13, dFld d 2 11 4, dFld d 3 63 0, dFld d 4 63 0, dFld d 5 63 0]

/-- A size in luma samples is even and 16-16,384 (R403). -/
def dSizeOk (n : Nat) : Bool := decide (16 ≤ n) && decide (n ≤ 16384) && n % 2 == 0

/-! ## Levels of the standards (R404; PRESUMED, log 57) -/

/-- Limits of a level: the largest picture in luma samples, the largest width and height, the luma samples in a second, kbit/s in Main and
in High tier (0: the level has no High tier), and for HEVC slices, tile rows and tile columns, for AV1 tiles and tile columns. -/
structure CdcLevel where
  picture : Nat
  width : Nat
  height : Nat
  rate : Nat
  main : Nat
  high : Nat
  parts : Nat
  rows : Nat
  cols : Nat
  deriving DecidableEq, Repr

/-- The HEVC levels up to 6.2; a side is at most the root of 8 times the picture. -/
def hevcLevel (level : Nat) : Option CdcLevel :=
  let mk (picture side rate main high parts rows cols : Nat) : Option CdcLevel :=
    some ⟨picture, side, side, rate, main, high, parts, rows, cols⟩
  match level with
  | 10 => mk 36864 543 552960 128 0 16 1 1
  | 20 => mk 122880 991 3686400 1500 0 16 1 1
  | 21 => mk 245760 1402 7372800 3000 0 20 1 1
  | 30 => mk 552960 2103 16588800 6000 0 30 2 2
  | 31 => mk 983040 2804 33177600 10000 0 40 3 3
  | 40 => mk 2228224 4222 66846720 12000 30000 75 5 5
  | 41 => mk 2228224 4222 133693440 20000 50000 75 5 5
  | 50 => mk 8912896 8444 267386880 25000 100000 200 11 10
  | 51 => mk 8912896 8444 534773760 40000 160000 200 11 10
  | 52 => mk 8912896 8444 1069547520 60000 240000 200 11 10
  | 60 => mk 35651584 16888 1069547520 60000 240000 600 22 20
  | 61 => mk 35651584 16888 2139095040 120000 480000 600 22 20
  | 62 => mk 35651584 16888 4278190080 240000 800000 600 22 20
  | _ => none

/-- The AV1 levels up to 6.2. -/
def av1Level (level : Nat) : Option CdcLevel :=
  let mk (picture width height rate main high parts cols : Nat) : Option CdcLevel :=
    some ⟨picture, width, height, rate, main, high, parts, 64, cols⟩
  match level with
  | 20 => mk 147456 2048 1152 4423680 1500 0 8 4
  | 21 => mk 278784 2816 1584 8363520 3000 0 8 4
  | 30 => mk 665856 4352 2448 19975680 6000 0 16 6
  | 31 => mk 1065024 5504 3096 31950720 10000 0 16 6
  | 40 => mk 2359296 6144 3456 70778880 12000 30000 32 8
  | 41 => mk 2359296 6144 3456 141557760 20000 50000 32 8
  | 50 => mk 8912896 8192 4352 267386880 30000 100000 64 8
  | 51 => mk 8912896 8192 4352 534773760 40000 160000 64 8
  | 52 => mk 8912896 8192 4352 1069547520 60000 240000 64 8
  | 53 => mk 8912896 8192 4352 1069547520 60000 240000 64 8
  | 60 => mk 35651584 16384 8704 1069547520 60000 240000 128 16
  | 61 => mk 35651584 16384 8704 2139095040 100000 480000 128 16
  | 62 => mk 35651584 16384 8704 4278190080 160000 800000 128 16
  | _ => none

/-- The level that an encode names, of its standard. -/
def dLevel (d : List Word) : Option CdcLevel := if dAv1 d then av1Level (dFld d 2 11 4) else hevcLevel (dFld d 2 11 4)

/-- Columns and rows of CTUs, and of tiles. -/
def dCtuCols (d : List Word) : Nat := ceilDiv (dWidth d) 64
def dCtuRows (d : List Word) : Nat := ceilDiv (dHeight d) 64
def dTileCols (d : List Word) : Nat := dFld d 2 31 26 + 1
def dTileRows (d : List Word) : Nat := dFld d 2 25 20 + 1

/-- The CTUs of part `i` of `n` uniform parts of `c` CTUs. -/
def partCtus (c n i : Nat) : Nat := (i + 1) * c / n - i * c / n

/-- A tile grid that the standard permits at a level: in HEVC a tile of several is at least 256 luma samples wide and 64 high; in AV1 at
most 4,096 wide and 4,096 x 2,304 in area. -/
def dTilesOk (d : List Word) (l : CdcLevel) : Bool :=
  let nc := dTileCols d
  let nr := dTileRows d
  let widths := (List.range nc).map (partCtus (dCtuCols d) nc)
  let heights := (List.range nr).map (partCtus (dCtuRows d) nr)
  decide (nc ≤ l.cols) && decide (nr ≤ l.rows) && widths.all (fun w => decide (1 ≤ w)) && heights.all (fun h => decide (1 ≤ h)) &&
  (if dAv1 d then
    decide (nc * nr ≤ l.parts) && widths.all (fun w => decide (w ≤ 64) && heights.all (fun h => decide (w * h ≤ 2304)))
   else nc * nr == 1 || widths.all (fun w => decide (4 ≤ w)))

/-- A slice height that the standard permits for the frame. -/
def dSlicesOk (d : List Word) (l : CdcLevel) : Bool :=
  let n := dFld d 2 19 14 + 1
  decide (n ≤ dCtuRows d) && decide (ceilDiv (dCtuRows d) n ≤ l.parts)

/-- Size, frame rate, TARGET, MAXRATE and the parts of a frame are within the named level and tier (R404). -/
def dLevelOk (d : List Word) : Bool :=
  match dLevel d with
  | none => false
  | some l =>
    let kbit := if dFld d 2 13 13 = 1 then l.high else l.main
    kbit != 0 && decide (dWidth d * dHeight d ≤ l.picture) && decide (dWidth d ≤ l.width) && decide (dHeight d ≤ l.height) &&
    decide (dWidth d * dHeight d * dFld d 5 63 32 ≤ l.rate * dFld d 5 31 0) && decide (dFld d 3 47 24 ≤ kbit) &&
    decide (dFld d 3 23 0 ≤ kbit) &&
    (match dSplit d with
     | 0 => dTilesOk d l
     | 1 => dSlicesOk d l
     | _ => true)

/-- The values that an encode's fields may take (R403, R404). -/
def dEncodeOk (d : List Word) : Bool :=
  let refresh := dFld d 4 39 32
  dSplit d != 3 && !(dAv1 d && dSplit d != 0) && dFld d 3 63 62 != 3 && (dAv1 d || decide (dFld d 3 61 54 ≤ 63)) &&
  (refresh == 0 || (decide (2 ≤ refresh) && decide (refresh ≤ 120) && dFld d 4 31 16 == 0 && dFld d 4 7 6 == 0)) &&
  decide (1 ≤ dFld d 4 15 8) && decide (dFld d 4 15 8 ≤ 4) && decide (dFld d 4 7 6 ≤ 1) && dFld d 5 63 32 != 0 &&
  dFld d 5 31 0 != 0 && dLevelOk d

/-- The checks of R404 that concern the descriptor's fields alone. -/
def dFieldsOk (d : List Word) : Bool :=
  dReservedOk d && decide (dFld d 0 63 60 ≤ 1) && decide (dFld d 0 59 58 ≤ 1) && dSizeOk (dWidth d) && dSizeOk (dHeight d) &&
  (if dDecode d then (dEncodeOnly d).all (· == 0) else dEncodeOk d)

/-- Handle indices: Y, Cb, Cr, bitstream, workspace, status. -/
def dHandles (d : List Word) : List Nat :=
  [dFld d 1 63 48, dFld d 1 47 32, dFld d 1 31 16, dFld d 1 15 0, dFld d 2 63 48, dFld d 2 47 32]

/-- Workspace bytes that R416 asks. -/
def dWorkspace (d : List Word) : Nat :=
  let f := roundUp (dWidth d) 64 * roundUp (dHeight d) 64 * 3 * 65 / 64
  let c := if dGang d then 8 else dCores d
  let pics := if dDecode d then (if dAv1 d then 9 else 17) else dFld d 4 15 8 + 2
  pics * f + c * 0x1000000 + (if dGang d then 0x4000000 else 0)

/-- A plane holds the job's frames (R405). -/
def planeOk (h : Handle) (frames rows cols : Nat) : Bool :=
  h.rank == 3 && decide (frames ≤ h.dim 0) && decide (rows ≤ h.dim 1) && decide (cols ≤ h.dim 2)

/-- Y, Cb, Cr, bitstream, workspace and status handles have the shapes of R405 and R416; a workspace holds its extent, from
its first element to its highest (DEDUCED, log 67). -/
def dShapesOk (d : List Word) (hs : List Handle) : Bool :=
  let h (k : Nat) : Handle := (hs[k]?).getD noHandle
  let n := dFirst d + dFrames d
  planeOk (h 0) n (dHeight d) (dWidth d) && planeOk (h 1) n (dHeight d / 2) (dWidth d / 2) &&
  planeOk (h 2) n (dHeight d / 2) (dWidth d / 2) && (h 3).rank == 1 &&
  (h 4).rank == 1 && (h 4).fmt == 7 && decide (dWorkspace d ≤ (h 4).hi - (h 4).lo) &&
  (h 5).rank == 1 && decide (64 + 16 * (dFrames d + 1) ≤ (h 5).dim 0)

/-! ## Submission (R302, R404) -/

/-- Codec cores of a partition, ascending, retired ones apart (R400). -/
def coresOf (s : State) (p : Nat) : List Nat := (List.range 8).filter (fun n => pHasCodec s p n && !retired s 4 n)

/-- The core that a partition's lease names (R341). -/
def leasedCore (s : State) (p : Nat) : Option Nat :=
  match leaseOf s p with
  | some _ => some (rfld s (.prtLease p) 10 8)
  | none => none

/-- The handles that a job writes, in a descriptor's order. -/
def dWritten (d : List Word) (hs : List Handle) : List Handle :=
  if dDecode d then hs.take 3 ++ hs.drop 4 else hs.drop 3

/-- Jobs of a context that wait for cores. -/
def queuedJobs (s : State) (c : Nat) : Nat := (s.jobs.filter (fun j => j.t.ctx.val == c && !j.started && !j.ended)).length

/-- cdc.submit (R302, R404): the descriptor is copied and checked, and its job is queued. (DEDUCED, log 77.) -/
def execCdcSubmit (t : Tid) (f : Fields) (s : State) : Res :=
  runThread s t fun s th => do
    dec s (formOk f 0 0 [.scalar, .localSem, .imm])
    dec s (f.sl2 != 0)
    can (decide (queuedJobs s t.ctx < 16)) "the context's job queue is full (R302)"
    let w ← src th f.sl0
    needF s (fld w 63 48 == 0 && fld w 5 0 == 0) (fAddr w)
    let (s1, bs) ← readA s t (fld w 47 0) 64
    let d := (List.range 8).map (fun k => BitVec.ofNat 64 (ofBytes ((bs.drop (8 * k)).take 8)))
    let hs ← (dHandles d).mapM (getH s1 t.ctx)
    needF s1 ((hs.take 3).all (fun h => h.fmt == 7 || h.fmt == 8) && [3, 5].all (fun k => ((hs[k]?).getD noHandle).fmt == 7)) fFormat
    needF s1 (dFieldsOk d && dShapesOk d hs) fOperand
    let p := partOf t.ctx
    needF s1 (!dGang d || (decide ((coresOf s1 p).length = 8) && (leasedCore s1 p).isNone)) fOperand
    needF s1 (ctxCls s1 t.ctx != 0 || (dCores d == 1 && !dGang d)) fOperand
    let wsp := (hs[4]?).getD noHandle
    needF s1 (inHbmOrPinned s1 p wsp.lo (wsp.hi - wsp.lo)) (fAddr wsp.base)
    needF s1 (hs.all (viewOk s1 t.ctx)) (fAddr ((hs.find? (fun h => !viewOk s1 t.ctx h)).getD noHandle).base)
    let ws := dWritten d hs
    ws.forM (fun h => mayWrite s1 t.ctx h.idx)
    let s2 := ws.foldl (fun s h => noteHandleWrite s t h.idx) (notReplayable s1 t)
    let j : CdcJob := { id := s.seq, t := t, seq := s.seq, desc := d, hs := hs, writes := ws.map (·.idx), sem := f.sl1.toNat, amount := f.sl2.toNat }
    .ok (stepOn { s2 with jobs := s2.jobs ++ [j] } t th)

/-! ## What a job decodes (R401, R402) -/

/-- The bytes of a decode's bitstream, and its parts; NAL units of another layer than 0 are skipped. -/
def CdcJob.stream (j : CdcJob) : List Byte := j.input.map (BitVec.ofNat 8)
def CdcJob.parts (j : CdcJob) : List (Nat × List Byte) :=
  ((Config.cdcParts (dAv1 j.desc) j.stream).filter (fun x => x.1 == 0)).map (·.2)

/-- Unit `k` of a decode's stream. -/
def CdcJob.unit? (j : CdcJob) (k : Nat) : Option StreamUnit := Config.cdcUnit (dAv1 j.desc) j.parts k

/-- A unit uses a feature that the decoder refuses (R401). -/
def refusedUnit (av1 : Bool) (u : StreamUnit) : Bool :=
  !u.accepted || decide (62 < u.level) || (if av1 then u.sb128 || u.largeScale || u.mono else u.ctb != 64)

/-- How a decode of at most `n` further frames ends, from unit `k` on: its status and the frames that it gives (R401, R402, R406). A unit
that breaks the syntax and uses a refused feature ends it with BITSTREAM (DEDUCED, log 125). -/
def decodeEnd (av1 : Bool) (unit : Nat → Option StreamUnit) : Nat → Nat → Nat × Nat
  | 0, k => (if (unit k).isSome then 5 else 0, k)
  | n + 1, k =>
    match unit k with
    | none => (0, k)
    | some u => if u.broken then (2, k) else if refusedUnit av1 u then (1, k) else decodeEnd av1 unit n (k + 1)

/-- How a decode ends. -/
def CdcJob.ends (j : CdcJob) : Nat × Nat := decodeEnd (dAv1 j.desc) j.unit? (dFrames j.desc) 0

/-- The frames that a job writes where nothing stops it. -/
def CdcJob.goal (j : CdcJob) : Nat := if dDecode j.desc then j.ends.2 else dFrames j.desc

/-- Whether a job has written all it will (R401, R402, R406). -/
def CdcJob.finished (j : CdcJob) : Bool := j.full || decide (j.goal ≤ j.done)

/-! ## Units (R408, R412, R413) -/

/-- Luma samples of part `i` of `n` uniform parts of a side of `size` samples. -/
def partSize (size n i : Nat) : Nat :=
  let c := ceilDiv size 64
  min size ((i + 1) * c / n * 64) - i * c / n * 64

/-- Groups of `n` CTU rows of a frame: the luma samples of each. -/
def rowGroups (d : List Word) (n : Nat) : List (Nat × List Nat) :=
  (List.range (ceilDiv (dHeight d) (64 * n))).map (fun i => (dWidth d * min (64 * n) (dHeight d - 64 * n * i), []))

/-- The units of a frame of an encode: tiles, slices, or CTU rows with wavefronts, whose order lets a row follow the one above it. -/
def encodeUnits (d : List Word) : List (Nat × List Nat) :=
  match dSplit d with
  | 0 => (List.range (dTileRows d)).flatMap (fun r => (List.range (dTileCols d)).map (fun c =>
      (partSize (dWidth d) (dTileCols d) c * partSize (dHeight d) (dTileRows d) r, [])))
  | 1 => rowGroups d (dFld d 2 19 14 + 1)
  | _ => rowGroups d 1

/-- The units of frame `k` of a job in order, with the units of the frame that each waits for; a ganged job takes CTU-row groups of 64
luma rows where a frame has fewer units than engines (R412). -/
def CdcJob.frameUnits (j : CdcJob) (k : Nat) : List (Nat × List Nat) :=
  let us := if dDecode j.desc then (match j.unit? k with
      | some u => u.units
      | none => []) else encodeUnits j.desc
  if us.isEmpty || (dGang j.desc && decide (us.length < 8)) then rowGroups j.desc 1 else us

/-- How far back primary_ref_frame lies at place `k` of an encode (R413): under GANG never the frame just before. -/
def picRef (d : List Word) (k : Nat) : Nat :=
  let n := Config.cdcPrimaryRef d k
  if !dAv1 d || k < n || (dGang d && n == 1) then 0 else n

/-- Frame and type of the picture at place `k` of coding order: key pictures at the GOP period, else P in order, or as hierarchical B
places them (R403, R414). -/
def picOrder (d : List Word) (k : Nat) : Nat × Nat :=
  let x := if dFld d 4 7 6 = 1 then Config.cdcOrder d k else (k, 1)
  let gop := dFld d 4 31 16
  if x.1 = 0 ∨ (gop ≠ 0 ∧ x.1 % gop = 0) then (x.1, 0) else (x.1, if x.2 = 2 then 2 else 1)

/-- The frame whose parse the parse of frame `k` needs, by AV1 CDF inheritance (R412). -/
def CdcJob.parseNeeds (j : CdcJob) (k : Nat) : Option Nat :=
  let n := if dDecode j.desc then (match j.unit? k with
      | some u => u.primaryRef
      | none => 0) else picRef j.desc k
  if dAv1 j.desc && n != 0 && decide (n ≤ k) then some (k - n) else none

/-- The earlier frames whose data frame `k` needs. -/
def CdcJob.refs (j : CdcJob) (k : Nat) : List Nat :=
  let rs := if dDecode j.desc then (match j.unit? k with
      | some u => (u.refs.filter (fun n => n != 0 && decide (n ≤ k))).map (k - ·)
      | none => [])
    else if (picOrder j.desc k).2 = 0 then [] else (Config.cdcRefs j.desc k).filter (fun n => decide (n < k))
  rs ++ (j.parseNeeds k).toList

/-- Whether a unit, and a frame, is done. -/
def CdcJob.unitDone (j : CdcJob) (k u : Nat) : Bool := decide (k < j.done) || j.units.contains (k, u)
def CdcJob.frameDone (j : CdcJob) (k : Nat) : Bool :=
  decide (k < j.done) || (List.range (j.frameUnits k).length).all (fun u => j.unitDone k u)

/-- Whether a unit has been taken by a core. -/
def CdcJob.taken (j : CdcJob) (k u : Nat) : Bool := j.unitDone k u || j.work.any (fun w => w.2 == (k, u))

/-- Whether a frame's units may be taken: its reference data are complete, and in a ganged job its syntax elements are there. -/
def CdcJob.open? (j : CdcJob) (k : Nat) : Bool :=
  (j.refs k).all j.frameDone && (!dGang j.desc || j.parsed.contains k)

/-- The lowest-numbered unit that no core has taken and that may be, in decode order and then unit order, of at most `most` luma samples
where that is given (R408, R410). -/
def CdcJob.nextUnit (j : CdcJob) (most : Option Nat) : Option (Nat × Nat) :=
  if j.full || j.torn || j.hurt then none
  else (List.range (j.goal - j.done)).findSome? (fun i =>
    let k := j.done + i
    if j.open? k then
      (j.frameUnits k).zipIdx.findSome? (fun x =>
        if !j.taken k x.2 && x.1.2.all (j.unitDone k) && most.all (fun m => decide (x.1.1 ≤ m)) then some (k, x.2) else none)
    else none)

/-! ## The entropy engines of a ganged job (R412) -/

/-- Bytes of the syntax buffer (R416). -/
def syntaxBuffer : Nat := 0x4000000

/-- Bytes of the syntax elements of frame `k`. -/
def CdcJob.elements (j : CdcJob) (k : Nat) : Nat :=
  if dDecode j.desc then (match j.unit? k with
    | some u => u.elements
    | none => 0) else Config.cdcElements j.desc k

/-- What the syntax buffer holds: the elements of frames parsed, or being parsed, and not complete. -/
def CdcJob.buffered (j : CdcJob) : Nat :=
  (((j.parsed ++ j.parsing.map (·.2)).filter (fun k => !j.frameDone k)).map j.elements).sum

/-- The next frame of an entropy engine: 0 takes the even frames, 1 the odd ones. -/
def CdcJob.nextParse (j : CdcJob) (e : Nat) : Option Nat :=
  (List.range (j.goal - j.done)).findSome? (fun i =>
    let k := j.done + i
    if k % 2 = e ∧ !j.parsed.contains k then some k else none)

/-- An entropy engine begins its next frame, unless it has one, the frame waits for another's parse, or the buffer is full. A frame alone
in the buffer is parsed whatever its size (DEDUCED, log 125). -/
def feedEngine (j : CdcJob) (e : Nat) : CdcJob :=
  if !dGang j.desc || !j.started || j.torn || j.hurt || j.full || j.parsing.any (fun x => x.1 == e) then j
  else match j.nextParse e with
    | none => j
    | some k =>
      let used := j.buffered
      if (j.parseNeeds k).all (fun r => decide (r < j.done) || j.parsed.contains r) &&
          (used == 0 || decide (used + j.elements k ≤ syntaxBuffer)) then
        { j with parsing := j.parsing ++ [(e, k)] }
      else j

/-- Both engines. -/
def feedEngines (j : CdcJob) : CdcJob := feedEngine (feedEngine j 0) 1

/-! ## The queue and the cores (R408-R412) -/

/-- The state with a job replaced. -/
def setJob (s : State) (j : CdcJob) : State := { s with jobs := s.jobs.map (fun k => if k.id == j.id then j else k) }

/-- Class of a job's context. -/
def jobCls (s : State) (j : CdcJob) : Nat := ctxCls s j.t.ctx

/-- The job that a core serves. -/
def jobOn (s : State) (n : Nat) : Option CdcJob := s.jobs.find? (fun j => !j.ended && j.cores.contains n)

/-- A live job waits in a partition's queue (R410). -/
def liveWaits (s : State) (p : Nat) : Bool :=
  s.jobs.any (fun j => !j.ended && !j.torn && !j.started && partOf j.t.ctx == p && jobCls s j == 0)

/-- Whether a job may use a leased core that is not its own: under LSHARE, with no live job queued, and never a ganged one (R410). -/
def mayShare (s : State) (j : CdcJob) : Bool :=
  let p := partOf j.t.ctx
  !dGang j.desc && bit (actR s (.cdcCfg p)) 0 && !liveWaits s p

/-- Whether a job may use a core now: a live job the leased core alone, a ganged job all but it (R410, R412). -/
def usable (s : State) (j : CdcJob) (n : Nat) : Bool :=
  let leased := leasedCore s (partOf j.t.ctx) == some n
  if jobCls s j = 0 then leased else !leased || mayShare s j

/-- Luma samples of the largest unit that a job may take on a core: 2^20 on the leased core, unless it is live (R410). -/
def mostOn (s : State) (j : CdcJob) (n : Nat) : Option Nat :=
  if jobCls s j != 0 && leasedCore s (partOf j.t.ctx) == some n then some 0x100000 else none

/-- Free cores that a job may use, ascending. -/
def freeCores (s : State) (j : CdcJob) : List Nat :=
  (coresOf s (partOf j.t.ctx)).filter (fun n => (jobOn s n).isNone && usable s j n)

/-- The cores that a job may hold. -/
def coreLimit (s : State) (j : CdcJob) : Nat := if dGang j.desc then 8 else if jobCls s j = 0 then 1 else dCores j.desc

/-- The cores of a job that have no unit take one each, in ascending order (R408). -/
def giveWork (s : State) (j : CdcJob) : CdcJob :=
  (j.cores.insertionSort (· ≤ ·)).foldl (fun j n =>
    if j.work.any (fun w => w.1 == n) then j
    else match j.nextUnit (mostOn s j n) with
      | some w => { j with work := j.work ++ [(n, w)] }
      | none => j) j

/-- A job takes further free cores in ascending order, each with a unit that is ready, up to its limit (R408, R409). -/
def moreCores (s : State) (j : CdcJob) : CdcJob :=
  (freeCores s j).foldl (fun j n =>
    if coreLimit s j ≤ j.cores.length then j
    else match j.nextUnit (mostOn s j n) with
      | some w => { j with cores := j.cores ++ [n], work := j.work ++ [(n, w)] }
      | none => j) j

/-- A core without a unit releases itself; a ganged job holds its eight to its end (R408, R412). -/
def releaseIdle (j : CdcJob) : CdcJob :=
  if dGang j.desc then j else { j with cores := j.cores.filter (fun n => j.work.any (fun w => w.1 == n)) }

/-- Jobs of a partition that are not ended or torn, in queue order (R408). -/
def cdcOrderOf (s : State) (p : Nat) : List CdcJob :=
  (s.jobs.filter (fun j => !j.ended && !j.torn && partOf j.t.ctx == p)).insertionSort (fun a b =>
    jobCls s a < jobCls s b ∨ (jobCls s a = jobCls s b ∧ a.seq ≤ b.seq))

/-- Jobs that wait. -/
def cdcQueue (s : State) (p : Nat) : List CdcJob := (cdcOrderOf s p).filter (fun j => !j.started)

/-- Whether a queued job can start now. -/
def startable (s : State) (j : CdcJob) : Bool :=
  if dGang j.desc then decide ((freeCores s j).length = 8) else !(freeCores s j).isEmpty

/-- The running jobs of a partition take up the free cores, in queue order; a job that can start, or a ganged job that waits, comes before
those behind it. -/
def shareOut (s : State) : List CdcJob → State
  | [] => s
  | j :: rest =>
    if !j.started then (if startable s j || dGang j.desc then s else shareOut s rest)
    else shareOut (setJob s (moreCores s (giveWork s (feedEngines j)))) rest
def shareCores (s : State) (p : Nat) : State := shareOut s (cdcOrderOf s p)

/-- One core is asked of each running job of a lower class in the partition that holds two or more (R409): its
highest-numbered one. -/
def askYield (s : State) (j : CdcJob) : State :=
  { s with jobs := s.jobs.map (fun k =>
      if !k.ended && partOf k.t.ctx == partOf j.t.ctx && decide (jobCls s j < jobCls s k) && decide (2 ≤ k.cores.length) &&
          k.yields.isEmpty
      then { k with yields := ((k.cores.insertionSort (· ≤ ·)).getLast?).toList } else k) }

/-- Whether a job could yield a core to a queued job. -/
def canYield (s : State) (j : CdcJob) : Bool := decide (askYield s j ≠ s)

/-- Service of a queue in order: the first job that can start does, on the lowest-numbered free core, a ganged one on all eight; a class 1
or 2 job on the way that finds none asks for cores; a waiting ganged job holds back those behind it. -/
def serveQueue (s : State) : List CdcJob → Option State
  | [] => none
  | j :: rest =>
    if startable s j then
      some (setJob s { j with started := true, cores := (freeCores s j).take (if dGang j.desc then 8 else 1) })
    else if (jobCls s j = 1 ∨ jobCls s j = 2) ∧ canYield s j then some (askYield s j)
    else if dGang j.desc then none
    else serveQueue s rest

/-- Rows of a plane of a frame: address and bytes. -/
def planeSpans (h : Handle) (f rows cols : Nat) : List (Nat × Nat) :=
  (List.range rows).map (fun r => (h.loc + h.off [f, r, 0] * (h.ebits / 8), ((cols - 1) * h.stride 2 + 1) * (h.ebits / 8)))

/-- The planes of a job: number of the handle, rows, columns. -/
def planesOf (d : List Word) : List (Nat × Nat × Nat) :=
  [(0, dHeight d, dWidth d), (1, dHeight d / 2, dWidth d / 2), (2, dHeight d / 2, dWidth d / 2)]

/-- A sample on its way from a plane to the coded depth, or back (R405): U10 to 8 bit is x/4 rounded and clamped, U8 to 10 bit 4x. -/
def toDepth (from10 to10 : Bool) (x : Nat) : Nat :=
  if from10 && !to10 then min 255 (rne ((x : ℚ) / 4)).toNat
  else if !from10 && to10 then 4 * x
  else x

/-- A job reads its input as it starts (DESIGN CHOICE, log 125): the samples of its frames in coded depth, or its bitstream to the
handle's extent (R405). -/
def readInput (s : State) (j : CdcJob) : Ex (State × List Nat) := do
  let c := j.t.ctx.val
  let h (k : Nat) : Handle := (j.hs[k]?).getD noHandle
  if dDecode j.desc then
    let b := h 3
    let s1 ← reachFrom s 4 c b [(b.lo, b.hi - b.lo)] none
    .ok (s1, (List.range (b.dim 0)).map (fun i => elemV s1 c b [i]))
  else
    let fs := (List.range (dFrames j.desc)).map (dFirst j.desc + ·)
    let ps := planesOf j.desc
    let s1 ← ps.foldlM (fun s p => reachFrom s 4 c (h p.1) (fs.flatMap (fun f => planeSpans (h p.1) f p.2.1 p.2.2)) none) s
    .ok (s1, fs.flatMap (fun f => ps.flatMap (fun p => (List.range p.2.1).flatMap (fun r => (List.range p.2.2).map (fun k =>
      let x := elemV s1 c (h p.1) [f, r, k]
      if (h p.1).fmt = 8 then toDepth true (dFld j.desc 0 52 52 == 1) (x % 1024)
      else toDepth false (dFld j.desc 0 52 52 == 1) x)))))

/-- Jobs that hold cores read their input once. -/
def readInputs (s : State) (js : List CdcJob) : Ex State :=
  js.foldlM (fun s j => do
    let (s1, xs) ← readInput s j
    .ok (setJob s1 { j with input := xs, cfg := actR s (.cdcCfg (partOf j.t.ctx)) })) s

/-- A job that has read its input takes its first units. -/
def beginJob (s : State) (j : CdcJob) : State :=
  match s.jobs.find? (fun k => k.id == j.id) with
  | some k => setJob s (releaseIdle (moreCores s (giveWork s (feedEngines k))))
  | none => s

/-- A queued job starts on free cores, or asks lower classes for cores (R408, R409); where none does, running jobs take further free
cores. -/
def execCdcJobStart (p : PartN) (s : State) : Res :=
  let served := serveQueue s (cdcQueue s p)
  let begun : List CdcJob := match served with
    | some s1 => s1.jobs.filter (fun j => j.started && s.jobs.any (fun k => k.id == j.id && !k.started))
    | none => []
  let who := match begun with
    | j :: _ => j.t
    | [] => tid 0 0
  runEvent (do
    can (powered s && !s.failed) "the device does not run"
    match served with
    | some s1 => do
      let s2 ← readInputs s1 begun
      .ok (begun.foldl beginJob s2)
    | none => do
      can (decide (shareCores s p ≠ s)) "no queued job can start, and no running one takes a core"
      .ok (shareCores s p)) who (pcOf s who)

/-! ## What the encoder settles (R413-R415) -/

/-- QP or base_q_idx of a picture under CQP, clamped to the standard's range (R414): HEVC -12 to 51 in 10 bits and 0 to 51 in 8, AV1 0
to 255. -/
def picQp (d : List Word) (kind : Nat) : Int :=
  let q : Int := dFld d 3 61 54
  if dAv1 d then max 0 (min 255 (q + 4 * kind))
  else max (if dFld d 0 52 52 = 1 then -12 else 0) (min 51 (q - 12 + kind))

/-- The CTU columns that frame `i` refreshes, and the columns refreshed in its period up to it (R415). -/
def picFresh (d : List Word) (i : Nat) : (Nat × Nat) × Nat :=
  let p := dFld d 4 39 32
  let c := ceilDiv (dWidth d) 64
  if p = 0 then ((0, 0), 0) else ((i % p * c / p, (i % p + 1) * c / p), (i % p + 1) * c / p)

/-- Whether frame `i` carries a recovery-point signal: the first of every later period (R415). -/
def recovers (d : List Word) (i : Nat) : Bool := dFld d 4 39 32 != 0 && i != 0 && i % dFld d 4 39 32 == 0

/-- What the encoder settles for place `k`, with the bytes that rate control leaves for the picture. -/
def picOf (d : List Word) (k : Nat) (room : Option Nat) : CdcPic :=
  let x := picOrder d k
  let r := picFresh d x.1
  { frame := x.1, kind := x.2, qp := if dFld d 3 63 62 = 0 then some (picQp d x.2) else none, fresh := r.1, clean := r.2,
    primaryRef := picRef d k, room := room }

/-- The recovery-point signal of R415. -/
def recoveryBytes (d : List Word) (cfg : Word) : List Byte :=
  let p := dFld d 4 39 32
  if dAv1 d then Config.cdcT35 (fld cfg 31 24) (fld cfg 63 32) [1, BitVec.ofNat 8 (p - 1)] else Config.cdcRecoverySei (p - 1)

/-- A picture that has been coded: what was settled for it, and its reconstructed columns. -/
structure Recon where
  pic : CdcPic
  cols : List (List Nat)

/-- The reconstructed columns of earlier pictures that prediction in a column of a picture may take samples from (R415): in a refreshed
column only refreshed columns of pictures of the same refresh period, and none in a column that is being refreshed; elsewhere all. -/
def seenColumns (d : List Word) (before : List Recon) (p : CdcPic) (col : Nat) : List (Nat × Nat × List Nat) :=
  let n := dFld d 4 39 32
  if p.kind = 0 ∨ (n ≠ 0 ∧ p.fresh.1 ≤ col ∧ col < p.fresh.2) then []
  else before.zipIdx.flatMap (fun x => (x.1.cols.zipIdx.filter (fun y =>
    n == 0 || decide (p.clean ≤ col) || (x.1.pic.frame / n == p.frame / n && decide (y.2 < x.1.pic.clean)))).map (fun y =>
      (x.2, y.2, y.1)))

/-- The columns of a picture, coded from the left: the bits and the reconstruction of each. A column sees those before it, so that in
refreshed columns neither prediction nor loop filtering takes unrefreshed samples (R415). -/
def codeColumns (d : List Word) (input : List Nat) (before : List Recon) (p : CdcPic) : List (List Byte × List Nat) :=
  (List.range (dCtuCols d)).foldl (fun (acc : List (List Byte × List Nat)) col =>
    acc ++ [Config.cdcColumn d p col input (seenColumns d before p col) (acc.map (·.2))]) []

/-- What stands before a picture in its access unit or temporal unit: headers before a key picture, the recovery-point signal. -/
def unitHead (d : List Word) (cfg : Word) (p : CdcPic) : List Byte :=
  (if p.kind = 0 then Config.cdcHeader d (dFld d 5 63 32) (dFld d 5 31 0) else []) ++
  (if recovers d p.frame then recoveryBytes d cfg else [])

/-- A picture's bits: of no more bytes than rate control leaves for its unit (R414). -/
def picBytes (d : List Word) (p : CdcPic) (head : Nat) (cols : List (List Byte)) : List Byte :=
  let bs := Config.cdcPicture d p cols
  match p.room with
  | some n => bs.take (n - head)
  | none => bs

/-- `n` bytes of filler (R414). -/
def fillerBytes (av1 : Bool) (n : Nat) : List Byte := (List.range n).map (Config.cdcFillerByte av1 n)

/-- Bits of a coded unit. -/
def bitLen (bs : List Byte) : ℚ := (8 * bs.length : Nat)

/-- Size of the buffer in bits, and the bits that arrive between two pictures: at TARGET under CBR, at most at MAXRATE under VBR
(R414). -/
def vbvSize (d : List Word) : ℚ := (1000 * dFld d 4 63 40 : Nat)
def kbitFill (d : List Word) (kbit : Nat) : ℚ := (1000 * kbit : Nat) * (dFld d 5 31 0 : ℚ) / (dFld d 5 63 32 : ℚ)
def vbvFill (d : List Word) : ℚ := kbitFill d (if dFld d 3 63 62 = 1 then dFld d 3 47 24 else dFld d 3 23 0)

/-- The bits of a whole job at TARGET: the sum that VBR gives it (R414). -/
def jobBits (d : List Word) : ℚ := kbitFill d (dFld d 3 47 24) * (dFrames d : ℚ)

/-- A job's access units so far: bytes and entry FLAGS, the pictures, the bits in the buffer when the next picture is taken, and the bits
written. -/
structure Coded where
  us : List (List Byte × Nat) := []
  pics : List Recon := []
  room : ℚ := 0
  spent : ℚ := 0

/-- The bytes that rate control leaves for the next unit: those that the buffer holds, so that it does not underflow; under VBR no more
than is left of the job's bits. -/
def unitRoom (d : List Word) (z : Coded) : Option Nat :=
  match dFld d 3 63 62 with
  | 0 => none
  | 1 => some (z.room / 8).floor.toNat
  | _ => some (min (z.room / 8) ((jobBits d - z.spent) / 8)).floor.toNat

/-- The filler behind a unit of so many bits: what keeps the buffer from overflowing under CBR; under VBR what the later units could not
carry of the job's bits, at the last all that is left, as far as the buffer holds (DEDUCED, log 125). -/
def unitFiller (d : List Word) (z : Coded) (k : Nat) (bits : ℚ) : Nat :=
  let spare := z.room - bits + vbvFill d - vbvSize d
  let later : ℚ := ((dFrames d - 2 - k : Nat) : ℚ)
  let rest := jobBits d - z.spent - bits
  match dFld d 3 63 62 with
  | 1 => (spare / 8).ceil.toNat
  | 2 => if dFrames d ≤ k + 1 then (min rest (z.room - bits) / 8).floor.toNat
         else (min spare (rest - vbvSize d - later * vbvFill d) / 8).ceil.toNat
  | _ => 0

/-- The next access unit (R406, R414). -/
def codeNext (d : List Word) (cfg : Word) (input : List Nat) (z : Coded) (k : Nat) : Coded :=
  let p := picOf d k (unitRoom d z)
  let head := unitHead d cfg p
  let cols := codeColumns d input z.pics p
  let bs := head ++ picBytes d p head.length (cols.map (·.1))
  let all := bs ++ fillerBytes (dAv1 d) (unitFiller d z k (bitLen bs))
  { us := z.us ++ [(all, p.kind + (if recovers d p.frame then 4 else 0) + p.frame % 65536 * 65536)]
    pics := z.pics ++ [{ pic := p, cols := cols.map (·.2) }]
    room := min (vbvSize d) (z.room - bitLen all + vbvFill d), spent := z.spent + bitLen all }

/-- The access units of an encode, in coding order (R411). -/
def codedUnits (j : CdcJob) : List (List Byte × Nat) :=
  ((List.range (dFrames j.desc)).foldl (codeNext j.desc j.cfg j.input)
    { room := min (vbvSize j.desc) (Config.cdcStart j.desc) }).us

/-! ## What a job gives -/

/-- FLAGS of a frame's entry (R406). -/
def unitFlags (u : StreamUnit) : Nat := u.kind % 3 + (if u.recovery then 4 else 0) + u.order % 65536 * 65536

/-- Offset, bytes and FLAGS of the frames written so far (R406). -/
def CdcJob.entries (j : CdcJob) : List (Nat × Nat × Nat) :=
  if dDecode j.desc then (List.range j.done).filterMap (fun k => (j.unit? k).map (fun u => (u.offset, u.size, unitFlags u)))
  else ((codedUnits j).take j.done).foldl (fun (acc : List (Nat × Nat × Nat)) u =>
    acc ++ [((acc.map (·.2.1)).sum, u.1.length, u.2)]) []

/-- Bytes written, or consumed: to the end of the last frame (R406; DEDUCED, log 125). -/
def CdcJob.bytes (j : CdcJob) : Nat := match j.entries.getLast? with
  | some e => e.1 + e.2.1
  | none => 0

/-- The status that a job ends with (R406, R407, R451). -/
def CdcJob.status (j : CdcJob) : Nat :=
  if j.torn || j.hurt then 4 else if dDecode j.desc then j.ends.1 else if j.full then 3 else 0

/-- Bytes are written by a job to elements of a handle of rank 1, from one on: to shadows, to memory or to the host (R405, R225, R424). -/
def cdcWrite (s : State) (j : CdcJob) (h : Handle) (off : Nat) (bs : List Byte) : Ex State := do
  let span := if bs.isEmpty then 0 else (bs.length - 1) * h.stride 0 + 1
  let a := h.loc + off * h.stride 0
  let s1 ← reachFrom s 4 j.t.ctx h [(a, span)] (some (.op j.seq))
  .ok (if h.stride 0 = 1 then writeV s1 j.t.ctx h.idx a bs (.op j.seq)
    else putElemsV s1 j.t.ctx h (.op j.seq) (bs.zipIdx.map (fun x => ([off + x.2], x.1.toNat))))

/-- A sample of a decoded frame, within its depth; film grain is applied to AV1 where FGRAIN asks (R402). -/
def decodedSample (j : CdcJob) (u : StreamUnit) (k plane row col : Nat) : Nat :=
  (if dAv1 j.desc && dFld j.desc 2 12 12 == 1 then Config.cdcGrain j.parts k plane row col
   else Config.cdcSample (dAv1 j.desc) j.parts k plane row col) % (if u.ten then 1024 else 256)

/-- A decoded frame is written to the planes, at its place in output order (R405; DESIGN CHOICE, log 125). -/
def writeFrame (s : State) (j : CdcJob) (k : Nat) : Ex State := do
  let d := j.desc
  let u ← the (j.unit? k) "the stream holds no such frame"
  let f := dFirst d + u.order % 65536 % dFrames d
  (planesOf d).foldlM (fun s p => do
    let h := (j.hs[p.1]?).getD noHandle
    let s1 ← reachFrom s 4 j.t.ctx h (planeSpans h f p.2.1 p.2.2) (some (.op j.seq))
    .ok (putElemsV s1 j.t.ctx h (.op j.seq) ((List.range p.2.1).flatMap (fun r => (List.range p.2.2).map (fun q =>
      ([f, r, q], toDepth u.ten (h.fmt == 8) (decodedSample j u k p.1 r q))))))) s

/-- The next frame is written and counted (R407), or an encode stops as its bytes do not fit (R406). -/
def frameOut (s : State) (j : CdcJob) : Ex (State × CdcJob) := do
  let wrote (s : State) : Ex (State × CdcJob) :=
    .ok (bumpC s j.t.ctx kCdcFrames 1, { j with done := j.done + 1, units := j.units.filter (fun x => x.1 != j.done) })
  if dDecode j.desc then
    let s1 ← writeFrame s j j.done
    wrote s1
  else
    let u := ((codedUnits j)[j.done]?).getD ([], 0)
    let h := (j.hs[3]?).getD noHandle
    if h.dim 0 < j.bytes + u.1.length then .ok (s, { j with full := true, work := [] })
    else
      let s1 ← cdcWrite s j h j.bytes u.1
      wrote s1

/-- The frames that are complete are written in order, at most `n`. -/
def framesOut (s : State) (j : CdcJob) : Nat → Ex (State × CdcJob)
  | 0 => .ok (s, j)
  | n + 1 =>
    if j.finished || !j.frameDone j.done then .ok (s, j)
    else do
      let (s1, j1) ← frameOut s j
      framesOut s1 j1 n

/-- A core is given up at a unit boundary: asked for by a queued job, of a job that is torn down, or a leased core that the job may not use
any more (R407, R409, R410). -/
def givesUp (s : State) (j : CdcJob) (n : Nat) : Bool :=
  j.yields.contains n || j.torn || j.hurt ||
  (jobCls s j != 0 && leasedCore s (partOf j.t.ctx) == some n && !mayShare s j)

/-- A core leaves a job. -/
def CdcJob.without (j : CdcJob) (n : Nat) : CdcJob :=
  { j with cores := j.cores.filter (· != n), work := j.work.filter (fun w => w.1 != n), yields := j.yields.filter (· != n) }

/-- A core that its job has given up, or that the job's end leaves free, serves the partition's running jobs again; a retired one leaves
every CODEC mask (R400, R456). -/
def coresFreed (s : State) (p : Nat) : State := shareCores (maskRetired s) p

/-- A core finishes a unit: a frame that is complete with it is written, and the core takes the next unit or releases itself
(R408-R410). In a ganged job an entropy engine finishes a frame, and goes on with its next (R412). -/
def execCdcUnitDone (core : Fin 8) (entropy : Bool) (s : State) : Res :=
  let who := match jobOn s core with
    | some j => j.t
    | none => tid 0 0
  runEvent (do
    can (powered s && !s.failed) "the device does not run"
    let j ← the (jobOn s core) "the core serves no job"
    let p := partOf j.t.ctx
    if entropy then
      let x ← the (j.parsing.find? (fun x => x.1 == core.val)) "the entropy engine has no frame"
      let j1 := feedEngines { j with parsed := j.parsed ++ [x.2], parsing := j.parsing.filter (fun y => y.1 != core.val) }
      .ok (setJob s (giveWork s j1))
    else
      let w ← the (j.work.find? (fun w => w.1 == core.val)) "the core has no unit"
      let j1 := { j with units := j.units ++ [w.2], work := j.work.filter (fun y => y.1 != core.val) }
      let (s1, j2) ← if j.torn || j.hurt then .ok (s, j1) else framesOut s j1 j1.units.length
      if givesUp s1 j2 core then
        let s2 := setJob s1 (j2.without core)
        .ok (coresFreed (if j.torn || j.hurt then s2 else bumpC s2 j.t.ctx kCdcYield 1) p)
      else .ok (coresFreed (setJob s1 (releaseIdle (giveWork s1 (feedEngines j2)))) p)) who (pcOf s who)

/-! ## The end of a job (R406, R407) -/

/-- The status record (R406). -/
def statusRecord (j : CdcJob) (status : Nat) : List Byte :=
  leBytes 8 (j.done % 2 ^ 32 * 65536 + status % 256) ++ leBytes 8 j.bytes ++ leBytes 8 (dFld j.desc 6 31 0) ++
  List.replicate 40 0 ++ j.entries.flatMap (fun x => leBytes 8 x.1 ++ leBytes 4 x.2.1 ++ leBytes 4 (x.2.2 % 2 ^ 32))

/-- A job leaves the cores; a context that is torn down and has no job left ceases to exist (R349). -/
def dropJob (s : State) (j : CdcJob) : State :=
  let s1 := maskRetired { s with jobs := s.jobs.filter (fun k => k.id != j.id) }
  let c := j.t.ctx.val
  if (getC s1 c).st == .tearing && !(s1.jobs.any (fun k => k.t.ctx.val == c)) then setC s1 c { getC s1 c with st := .none }
  else s1

/-- A job ends: its status record, the workspace left undefined (R416), its counters, and its signal unless it is torn (R406,
R407). -/
def endJob (s : State) (j : CdcJob) (status : Nat) (signals : Bool) : Ex State := do
  let c := j.t.ctx.val
  let sth := (j.hs[5]?).getD noHandle
  let wsp := (j.hs[4]?).getD noHandle
  let s1 ← cdcWrite s j sth 0 (statusRecord j status)
  let (junk, s2) := freeBytes s1 (if j.started then wsp.hi - wsp.lo else 0)
  let s3 ← if junk.isEmpty then .ok s2 else cdcWrite s2 j wsp 0 junk
  let s4 := bumpC (bumpC s3 c kCdcJobs 1) c kCdcErr (if status = 0 then 0 else 1)
  let s5 := shareCores (dropJob s4 j) (partOf c)
  if signals then
    match addLocal s5 j.t j.sem j.amount with
    | some s6 => .ok (settle s6 c)
    | none => .error (.fault s5 fSem)
  else .ok (settle s5 c)

/-- A codec job writes its status record and signals its semaphore (R407); one whose context was torn down ends TORN once its cores have
reached their unit boundaries. -/
def execCdcJobEnd (job : Nat) (s : State) : Res :=
  let found := s.jobs.find? (fun j => j.id == job && !j.ended)
  let who := match found with
    | some j => j.t
    | none => tid 0 0
  runEvent (do
    can (powered s && !s.failed) "the device does not run"
    let j ← the found "no such job"
    can (j.hurt || (j.torn && j.work.isEmpty) || (!j.torn && j.started && j.finished)) "the job has not written its frames"
    endJob s j j.status (!j.torn)) who (pcOf s who)

/-- A codec core fails under an uncorrectable SRAM error: its job ends TORN and signals (R451); where its status page cannot be reached now, it
stops and ends later. -/
def tearJob (s : State) (core : Nat) : State :=
  match jobOn s core with
  | none => s
  | some j =>
    match endJob s j 4 (!j.torn) with
    | .ok s1 => s1
    | .error (.fault s1 f) => progFault s1 j.t (pcOf s1 j.t) f
    | .error (.no _) => coresFreed (setJob s { j with hurt := true, cores := [], work := [], parsing := [] }) (partOf j.t.ctx)

end Sys2Proof.Machine
end

