-- ==== Sys2Proof/Machine/Stage.lean ====
section
/-! DEFINITION. The stage banks (13, R318-R323, R471): entries, the test of R320 with every consistency rule that names
STG_CHECK, arming, and the effects of an apply (R321, R322). -/

namespace Sys2Proof.Machine

/-! ## Entries -/

/-- The valid entries of a bank in order: entry number, BAR0 offset, value (R318). -/
def stgEntries (s : State) (b : Nat) : List (Nat × Nat × Word) :=
  (List.range 256).filterMap (fun n =>
    let a := getR s (.stgEaddr b n)
    if bit a 63 then some (n, fld a 25 3 * 8, getR s (.stgEval b n)) else none)

/-- The bits of a staged-only register that are fields: those of `PRT_SPINDLES_p` that are RO are fields too (21). -/
def stgFields (r : Reg) : Word := match r with
  | .prtSpindles _ => r.rw ||| mask 22 16 ||| mask 14 8
  | _ => r.rw

/-- Whether a partition's own bank may name a register with a value (R320, R470). -/
def stgOwn (s : State) (p : Nat) (r : Reg) (v : Word) : Bool :=
  match r with
  | .prtComp q | .prtLease q | .prtSave q | .prtSpindles q | .prtSplpool q | .prtSem q _ | .memShare q
  | .rwinBase q _ | .rwinHold q _ | .rwinSize q _ => q == p
  | .poolHbm q => pHasQ s p q
  | .poolBt b => pHasBoard s p b
  | .ureg n =>
    let old := getR s (.ureg n)
    (!bit old 63 || fld old 51 50 == p) && fld v 51 50 == p
  | _ => false

/-- A field value outside its stated range (R320): a register's own ranges, a pool's against the live sizes of the configuration
`t` that results (R177). -/
def stgRangeOk (t : State) (r : Reg) (v : Word) : Bool :=
  match r with
  | .trdStroke => decide (20 ≤ fld v 17 0) && decide (fld v 17 0 ≤ 200000)
  | .prtSpindles _ => decide (fld v 6 0 ≤ 64)
  | .ureg _ => fld v 49 48 != 3 && (!bit v 63 || (decide (1 ≤ fld v 44 24) && decide (fld v 44 24 ≤ 1179648) &&
      decide (fld v 20 0 ≤ 1179647)))
  | .plyCfg => fld v 1 0 != 3 && fld v 14 11 != 0
  | .poolHbm q => decide (fld v 7 0 * gib ≤ hbmLive t q)
  | .poolBt b => decide (fld v 7 0 * gib ≤ boardLive t b)
  | _ => true

/-- The refusal code of one entry, 0 where it passes (R320). `seen`: offsets of the entries before it; `part`: the bank's
partition, or 4 for the device bank; `t`: the configuration that results. -/
def entryErr (s t : State) (part : Nat) (seen : List Nat) (off : Nat) (v : Word) : Nat :=
  match regAt off with
  | none => 2
  | some r =>
    if !r.staged then 2
    else if (v &&& ~~~(stgFields r)) != 0 then 1
    else if part != 4 && !stgOwn s part r v then 3
    else if seen.contains off then 4
    else if !stgRangeOk t r v then 5
    else 0

/-- The first entry that fails on its own: code and entry number. (DEDUCED, log 81.) -/
def entriesErr (s t : State) (part : Nat) : List Nat → List (Nat × Nat × Word) → Option (Nat × Nat)
  | _, [] => none
  | seen, (n, off, v) :: rest =>
    let e := entryErr s t part seen off v
    if e = 0 then entriesErr s t part (off :: seen) rest else some (e, n)

/-! ## The configuration that results -/

/-- The registers after every entry (R322): whole values. -/
def stgRegs (s : State) (es : List (Nat × Nat × Word)) : State :=
  es.foldl (fun s e => match regAt e.2.1 with
    | some r => setR s r (e.2.2 &&& r.rw)
    | none => s) s

/-- Whether a bank names a register. -/
def stgNames (es : List (Nat × Nat × Word)) (r : Reg) : Bool := es.any (fun e => e.2.1 == r.offset)

/-- Partitions that a bank reconfigures: those whose composition it names, be it the same value again (R173, R456, DEDUCED,
log 117). -/
def recomposed (es : List (Nat × Nat × Word)) : List Nat := (List.range 4).filter (fun p => stgNames es (.prtComp p))

/-- Retired pseudo-channels and board channels of the regions of reconfigured partitions leave L (R173, R174). -/
def shrinkLive (t : State) (es : List (Nat × Nat × Word)) : State :=
  let ps := recomposed es
  { t with
    pcOut := (List.range 384).filter (fun i => t.pcOut.contains i || (retired t 0 i && ps.any (fun p => pHasQ t p (i / 96))))
    bcOut := (List.range 64).filter (fun i => t.bcOut.contains i || (retired t 1 i && ps.any (fun p => pHasBoard t p (i / 4)))) }

/-! ## Consistency rules -/

/-- A rule that fails: its code and the registers that it concerns. -/
structure RuleFail where
  code : Nat
  regs : List Reg
  deriving DecidableEq, Repr

/-- A rule fails unless a condition holds. -/
def rule (ok : Bool) (code : Nat) (regs : List Reg) : List RuleFail := if ok then [] else [⟨code, regs⟩]

/-- Whether a partition has any context. -/
def anyCtx (s : State) (p : Nat) : Bool := (List.range 16).any (fun i => (getC s (16 * p + i)).st != .none)

/-- Splice pool span of a partition. -/
def poolSpan (s : State) (p : Nat) : Nat × Nat :=
  (fld (getR s (.prtSplpool p)) 26 0 * pageBytes, fld (getR s (.prtSplpool p)) 63 45 * pageBytes)

/-- A span lies wholly in the partition's HBM quarter regions, outside carve-outs. -/
def spanInHbm (s : State) (p : Nat) (x : Nat × Nat) : Bool := inHbm s p x.1 x.2

/-- Compositions (R331). -/
def ruleComp (s t : State) (es : List (Nat × Nat × Word)) (p : Nat) : List RuleFail :=
  let w := getR t (.prtComp p)
  rule (!(anyCtx s p) || (!(recomposed es).contains p && getR s (.prtSave p) == getR t (.prtSave p))) 7
    [.prtComp p, .prtSave p] ++
  rule (!bit w 63 || (fld w 51 48 != 0 && (List.range 4).all (fun q => !(bit w (48 + q) && retired t 6 q)) &&
    (List.range 8).all (fun n => !(bit w (40 + n) && coreGone t n)))) 6 [.prtComp p] ++
  ((List.range 4).flatMap (fun r =>
    let v := getR t (.prtComp r)
    rule (!(decide (r < p) && bit w 63 && bit v 63 && (fld w 51 8 &&& fld v 51 8 != 0 || fld w 55 52 == fld v 55 52))) 6
      [.prtComp p, .prtComp r]))

/-- Lease slots of a kind per 20 (R341). -/
def leaseSlots (lsplit : Nat) (write : Bool) : Nat :=
  if lsplit = 0 then 1 else if lsplit = 1 then (if write then 0 else 2) else if lsplit = 2 then (if write then 2 else 0) else 0

/-- A ganged job holds a core (R410). -/
def gangHolds (s : State) (n : Nat) : Bool := match jobOn s n with
  | some j => dGang j.desc
  | none => false

/-- Leases (R342, R410). -/
def ruleLease (s t : State) (p : Nat) : List RuleFail :=
  let old := getR s (.prtLease p)
  let w := getR t (.prtLease p)
  let sh := getR t (.memShare p)
  let k := fld w 7 6
  rule (old == w || !((getC s (fld old 21 16)).st != .none || (getC s (fld w 21 16)).st != .none)) 7 [.prtLease p] ++
  rule (old == w || !bit w 31 || !gangHolds s (fld w 10 8)) 7 [.prtLease p] ++
  rule (!bit w 31 || (pHasQ t p (fld w 3 2) && pHasCodec t p (fld w 10 8) && !retired t 4 (fld w 10 8) && fld w 21 16 / 16 == p && k != 3 &&
    decide (leaseSlots k false < fld sh 4 0) && decide (leaseSlots k true < fld sh 9 5))) 6 [.prtLease p, .memShare p, .prtComp p]

/-- Logical spindles (R228). -/
def ruleSpindles (s t : State) (p : Nat) : List RuleFail :=
  rule (!anyCtx s p || nlEff s p == nlEff t p) 7 [.prtSpindles p, .prtComp p] ++
  rule (!pValid t p || decide (nlEff t p ≤ 2 * (liveList t p).length)) 6 [.prtSpindles p, .prtLease p, .prtComp p]

/-- Save areas (R337), of a defined partition and of one that the bank gives an area; an empty area lies anywhere. -/
def ruleSave (t : State) (es : List (Nat × Nat × Word)) (p : Nat) : List RuleFail :=
  let x := saveSpan t p
  let y := poolSpan t p
  rule (!(stgNames es (.prtSave p) || pValid t p) || (decide (16 * saveZ (nlEff t p) ≤ x.2) &&
    (x.2 == 0 || spanInHbm t p x) && !overlaps x.1 x.2 y.1 y.2)) 6
    [.prtSave p, .prtSpindles p, .prtSplpool p, .prtComp p]

/-- Splice pools (R307): a value that the bank names is a new one, though it be the present one. -/
def rulePool (s t : State) (es : List (Nat × Nat × Word)) (p : Nat) : List RuleFail :=
  let y := poolSpan t p
  let named := stgNames es (.prtSplpool p)
  rule (!anyCtx s p || !named) 7 [.prtSplpool p] ++
  rule (!(named || pValid t p) || spanInHbm t p y) 6 [.prtSplpool p, .prtComp p]

/-- Memory shares (R207). -/
def ruleShare (t : State) (p : Nat) : List RuleFail :=
  let w := getR t (.memShare p)
  rule (decide (fld w 4 0 + fld w 9 5 + fld w 14 10 = 20) && fld w 4 0 != 0 && fld w 9 5 != 0 && fld w 14 10 != 0) 6 [.memShare p]

/-- Frames of a quarter's and of a port's carve-out. -/
def framesQ (t : State) (q : Nat) : Nat := carveHbm t q / pageBytes
def framesB (t : State) (b : Nat) : Nat := carveBoard t b / pageBytes

/-- Frames of a partition's pool. -/
def poolFrames (t : State) (p : Nat) : Nat :=
  (((List.range 4).filter (pHasQ t p)).map (framesQ t)).sum + (((List.range 16).filter (pHasBoard t p)).map (framesB t)).sum

/-- Port of a board frame. -/
def frameB (f : Nat) : Nat := (f - boardBase 0) / 0x1800000000

/-- Whether a pool change removes a frame (R177): it lies below the part of its region that the pool now takes. -/
def frameRemoved (s t : State) (f : Nat) : Bool :=
  if isHbmFrame f then !frameLost s f && decide (f < hbmBase (frameQ f) + (hbmLive s (frameQ f) - poolHbmBytes t (frameQ f)))
  else decide (f < boardBase (frameB f) + (boardLive s (frameB f) - carveBoard t (frameB f)))

/-- Whether a page keeps its frame across an apply: it lies in a region of the same entry and owner before and after
(R179). -/
def pageKept (s t : State) (pg : Nat) : Bool :=
  match uregOfPage s pg, uregOfPage t pg with
  | some a, some b => a.idx == b.idx && a.owner == b.owner
  | _, _ => false

/-- Whether a page keeps its frame though its quarter or port is re-initialised: it does not (R173). -/
def frameCleared (t : State) (es : List (Nat × Nat × Word)) (f : Nat) : Bool :=
  (recomposed es).any (fun p => if isHbmFrame f then pHasQ t p (frameQ f) else pHasBoard t p (frameB f))

/-- Unified pools and regions (R177, R178). A pool of a quarter that is not retired, or of a port, fits the live size that results. -/
def ruleUnified (s t : State) : List RuleFail :=
  let rs := uregs t
  let all := rs.map (fun r => Reg.ureg r.idx)
  let pools := (List.range 4).map Reg.poolHbm ++ (List.range 16).map Reg.poolBt
  rule (s.pages.all (fun x => !frameRemoved s t x.2.frame)) 7 pools ++
  (List.range 4).flatMap (fun q => rule (retired t 6 q || decide (poolHbmBytes t q ≤ hbmLive t q)) 6
    (.poolHbm q :: (List.range 4).map Reg.prtComp)) ++
  (List.range 16).flatMap (fun b => rule (decide (carveBoard t b ≤ boardLive t b)) 6
    (.poolBt b :: (List.range 4).map Reg.prtComp)) ++
  rs.flatMap (fun r =>
    rule (rs.all (fun o => o.idx == r.idx || !overlaps r.base r.size o.base o.size) &&
      decide ((r.base + r.size) * pageBytes ≤ uniSize t) && r.qmask != 0 &&
      (List.range 4).all (fun q => !r.qmask.testBit q || pHasQ t r.owner q)) 6 (.ureg r.idx :: pools)) ++
  (List.range 4).flatMap (fun p =>
    let mine := rs.filter (fun r => r.owner == p)
    rule (decide ((mine.map (·.size)).sum ≤ poolFrames t p) && (List.range 16).all (fun m =>
      decide (((mine.filter (fun r => r.policy == 2 && (r.qmask &&& m) == r.qmask)).map (·.size)).sum ≤
        (((List.range 4).filter (fun q => m.testBit q)).map (framesQ t)).sum))) 6 (pools ++ all))

/-- Span of a window, and of its hold area. -/
def winSpan (t : State) (p n : Nat) : Nat × Nat :=
  (fld (getR t (.rwinBase p n)) 47 8 * 256, (rfld t (.rwinSize p n) 17 0 + 1) * 256)
def holdSpan (t : State) (p n : Nat) : Nat × Nat :=
  let k := rfld t (.rwinSize p n) 17 0 + 1
  (fld (getR t (.rwinHold p n)) 47 8 * 256, k + fld (getR t (.rwinHold p n)) 63 58 * k * 256)

/-- Reduction windows (R190). -/
def ruleWindows (t : State) (p : Nat) : List RuleFail :=
  let ns := (List.range 16).filter (fun n => bit (getR t (.rwinBase p n)) 63)
  let meet (x y : Nat × Nat) : Bool := overlaps x.1 x.2 y.1 y.2
  ns.flatMap (fun n =>
    rule (ns.all (fun m => (m == n || !meet (winSpan t p n) (winSpan t p m)) && !meet (holdSpan t p n) (winSpan t p m)) &&
      spanInHbm t p (winSpan t p n) && spanInHbm t p (holdSpan t p n)) 6 [.rwinBase p n, .rwinHold p n, .rwinSize p n])

/-- Ply pairs (R324): tested where the bank names `PLY_CFG`. -/
def rulePly (t : State) (named : Bool) : List RuleFail :=
  let w := getR t .plyCfg
  rule (!named || ((portUp t 14 || portUp t 15) &&
    (List.range 4).all (fun p => !bit w (4 + p) || Config.plyShape p (getR t (.prtComp p))))) 6 [.plyCfg]

/-- Every rule that names STG_CHECK, on the configuration `t` that results from `s`; changes that need a partition without
contexts come first. -/
def stgRules (s t : State) (es : List (Nat × Nat × Word)) : List RuleFail :=
  let per (f : Nat → List RuleFail) : List RuleFail := (List.range 4).flatMap f
  let all := per (ruleComp s t es) ++ per (ruleLease s t) ++ per (ruleSpindles s t) ++ per (rulePool s t es) ++
    ruleUnified s t ++ per (ruleSave t es) ++ per (ruleShare t) ++ per (ruleWindows t) ++ rulePly t (stgNames es .plyCfg)
  all.filter (fun r => r.code == 7) ++ all.filter (fun r => r.code != 7)

/-- The test of R320: none where the bank passes, else the code and the first offending entry. -/
def stgTest (s : State) (b : Nat) : Option (Nat × Nat) :=
  let es := stgEntries s b
  let t := shrinkLive (stgRegs s es) es
  match entriesErr s t b [] es with
  | some e => some e
  | none =>
    match stgRules s t es with
    | [] => none
    | f :: _ =>
      match es.find? (fun e => f.regs.any (fun r => r.offset == e.2.1)) with
      | some e => some (f.code, e.1)
      | none => some (f.code, 0)

/-! ## States of a bank (R318-R321) -/

/-- Whether a bank holds a critical entry (R323). -/
def stgAuth (s : State) (b : Nat) : Bool := (stgEntries s b).any (fun e => match regAt e.2.1 with
  | some r => r.critical
  | none => false)

/-- STATE of a bank. -/
def stgState (s : State) (b : Nat) : Nat := rfld s (.stgStatus b) 2 0

/-- A bank takes a STATE; ERR and ERR_ENTRY as given. -/
def setStg (s : State) (b st err entry : Nat) : State :=
  setR s (.stgStatus b) (BitVec.ofNat 64 (st + entry * 256 + err * 65536))

/-- Checks and arms of a bank end. -/
def disarm (s : State) (b : Nat) : State :=
  { s with checking := s.checking.filter (· != b), armed := tabDel s.armed b }

/-- A write to an entry sets FILLING and disarms (R319, R471); the last refusal stays readable. -/
def stgWritten (s : State) (b : Nat) : State := setF (disarm s b) (.stgStatus b) 2 0 1

/-- Every VALID is cleared; STATE becomes EMPTY (R318). -/
def stgClearAll (s : State) (b : Nat) : State :=
  setStg (disarm ((List.range 256).foldl (fun s n => setF s (.stgEaddr b n) 63 63 0) s) b) b 0 0 0

/-- A check begins; STATE is left as it is until the check ends (R320). -/
def stgBegin (s : State) (b : Nat) : State :=
  if s.checking.contains b then s else { s with checking := s.checking ++ [b] }

/-- A check ends (R320). -/
def stgFinish (s : State) (b : Nat) : State :=
  let s1 := disarm s b
  match stgTest s1 b with
  | none => setStg s1 b 2 0 0
  | some (e, n) => setStg s1 b 5 e n

/-- An apply that is refused: the bank becomes REFUSED with the code. -/
def stgRefuse (s : State) (b code : Nat) : State := setStg (disarm s b) b 5 code 0

/-- A bank is armed for an edge, or refused (R320, R321, R323): `critical` where the command is authenticated. Debug level 3
lifts R323 (R450). -/
def stgArm (s : State) (b : Nat) (edge : Word) (critical : Bool) : State × Bool :=
  if stgState s b ≠ 2 then (stgRefuse s b 0x0B, false)
  else if stgAuth s b && !critical && rfld s .secStatus 9 8 != 3 then (stgRefuse s b 0x09, false)
  else if edge.toNat < (strokeNow s).toNat + 2 then (stgRefuse s b 0x08, false)
  else (setStg { s with armed := tabSet s.armed b edge } b 3 0 0, true)

/-- An armed bank is disarmed and returns to CHECKED (R318). -/
def stgDisarm (s : State) (b : Nat) : State := if stgState s b = 3 then setStg (disarm s b) b 2 0 0 else s

/-! ## Applying (R321, R322) -/

/-- Regions of reconfigured partitions are cleared, and their unified pages hold no frame (R173). -/
def reinit (t : State) (es : List (Nat × Nat × Word)) : State :=
  let ps := recomposed es
  let t1 := ((List.range 4).filter (fun q => ps.any (fun p => pHasQ t p q))).foldl
    (fun t q => clearMem t (hbmBase q) 0x3000000000) t
  ((List.range 16).filter (fun b => ps.any (fun p => pHasBoard t p b))).foldl
    (fun t b => clearMem t (boardBase b) 0x1800000000) t1

/-- Pages whose region has gone, or whose frame was cleared, hold no frame and read as zeros (R173, R179); a migration of a page
whose region has gone ends with it. -/
def dropPages (s t : State) (es : List (Nat × Nat × Word)) : State :=
  let t1 := ((t.migs ++ t.migQueue).filter (fun m => !(pageKept s t m.page))).foldl (fun t m => dropMig t m.page) t
  (t1.pages.filter (fun x => !(pageKept s t x.1) || frameCleared t es x.2.frame)).foldl (fun t x =>
    clearMem { t with pages := tabDel t.pages x.1 } (uniBase + x.1 * pageBytes) pageBytes) t1

/-- Memory that leaves a carve-out joins its direct range with contents that are not defined; memory that joins one is free
frames (R177). (DEDUCED, log 82.) -/
def moveCarves (s t : State) : State :=
  let step (t : State) (base live old new : Nat) : State :=
    if new < old then freeSpan t (base + (live - old)) (old - new)
    else if old < new then clearMem t (base + (live - new)) (new - old) else t
  let t1 := (List.range 4).foldl (fun t q => step t (hbmBase q) (hbmLive t q) (carveHbm s q) (carveHbm t q)) t
  (List.range 16).foldl (fun t b => step t (boardBase b) (boardLive t b) (carveBoard s b) (carveBoard t b)) t1

/-- The effect of one applied entry beside its register (R190, R206, R243, R307). -/
def applyEffect (s : State) (r : Reg) : State :=
  match r with
  | .prtSem p n =>
    if bit (getR s r) 31 then { s with sems := tabSet s.sems (256 * p + n) (BitVec.ofNat 16 (rfld s r 15 0)) } else s
  | .prtSplpool p =>
    let x := poolSpan s p
    { s with pool := poolAdd p x.1 x.2 (s.pool.filter (fun y => y.1 != p))
             retiring := s.retiring.filter (fun y => y.part.val != p) }
  | .rwinBase p n =>
    if bit (getR s r) 63 then
      let w := winSpan s p n
      let inWin (g : Nat) : Bool := decide (w.1 / 256 ≤ g) && decide (g < (w.1 + w.2) / 256)
      clearMem { s with ranks := s.ranks.filter (fun x => !inWin x.1)
                        heldReds := s.heldReds.filter (fun h => !inWin h.gran) } (holdSpan s p n).1 (w.2 / 256)
    else s
  | .memShare p => if bit (getR s r) 31 then setDetRunning s (fun c => partOf c == p) 16 else s
  | _ => s

/-- A new `PLY_CFG` (R324, R329): a role or a further mirrored partition begins a join; none ends the pair. -/
def applyPly (s t : State) : State :=
  let old := getR s .plyCfg
  let new := getR t .plyCfg
  if old = new then t
  else if fld new 1 0 = 0 ∨ fld new 7 4 = 0 then setF (setF { t with ply := {} } .plyStat 2 0 0) .plyStat 4 3 0
  else if fld new 1 0 ≠ fld old 1 0 ∨ (fld new 7 4 ||| fld old 7 4) ≠ fld old 7 4 then
    setF (setF { t with ply := { t.ply with joining := false, lost := false, lastOk := (strokeNow t).toNat - 1 } }
      .plyStat 2 0 1) .plyStat 4 3 0
  else t

/-- Entries are applied all at once, with everything that follows from them (R321, R326). -/
def applyEntries (s : State) (es : List (Nat × Nat × Word)) : State :=
  let t := shrinkLive (stgRegs s es) es
  let t1 := applyPly s (dropPages s (moveCarves s (reinit t es)) es)
  (es.filterMap (fun e => regAt e.2.1)).foldl applyEffect t1

/-- A bank applies all of its entries (R321). -/
def stgApplyAll (s : State) (b : Nat) : State := setStg (disarm (applyEntries s (stgEntries s b)) b) b 4 0 0

/-- Step 3 of an edge: the banks armed for edge `k` apply in the order 4, 0, 1, 2, 3, each tested again (R321); with the
entries applied, by offset and value (R326). -/
def stgEdge (s : State) (k : Word) : State × List (Nat × Word) :=
  [4, 0, 1, 2, 3].foldl (fun (acc : State × List (Nat × Word)) b =>
    let (s, done) := acc
    if stgState s b = 3 ∧ tabGet? s.armed b = some k then
      match stgTest s b with
      | none => (stgApplyAll s b, done ++ (stgEntries s b).map (fun e => e.2))
      | some (_, n) =>
        (event (setStg (disarm s b) b 5 0x0A n) 0x0202 none (if b < 4 then some b else none) (leBytes 4 b), done)
    else acc) (s, [])

end Sys2Proof.Machine
end

