-- ==== Sys2Proof/Machine/Ply.lean ====
section
/-! DEFINITION. Ply pairs (13, R324-R329): the flip rule and the commit record of an edge, heartbeats, takeover, joining. -/

namespace Sys2Proof.Machine

/-- ROLE, STATE and MISSES of a ply pair. -/
def plyRole (s : State) : Nat := rfld s .plyCfg 1 0
def plyState (s : State) : Nat := rfld s .plyStat 2 0
def plyMisses (s : State) : Nat := rfld s .plyStat 4 3

/-- Whether a partition is mirrored. -/
def mirrored (s : State) (p : Nat) : Bool := plyRole s != 0 && bit (getR s .plyCfg) (4 + p)

/-- The active side of a pair that runs: joining or mirrored. -/
def plyActive (s : State) : Bool := plyRole s == 1 && (plyState s == 1 || plyState s == 2)

/-- The standby side of a pair that runs. -/
def plyStandby (s : State) : Bool := plyRole s == 2 && (plyState s == 1 || plyState s == 2)

/-- Whether a partition's memory and contexts are closed to the host: mirrored, on a standby (R324). -/
def plyClosed (s : State) (p : Nat) : Bool := plyRole s == 2 && mirrored s p

/-- Live lanes of P14 and P15. -/
def plyLanes (s : State) : Nat :=
  (if portUp s 14 then rfld s (.lnkPort 14) 11 8 else 0) + (if portUp s 15 then rfld s (.lnkPort 15) 11 8 else 0)

/-- Bytes of records that a stroke may carry: Bs (R325), less JOINSHARE sixteenths while an image is shipped (R329). -/
def plyBudget (s : State) : Nat :=
  let b := 12500 * strokeLen s * plyLanes s
  if plyState s = 1 then b * (16 - rfld s .plyCfg 14 11) / 16 else b

/-- Bytes of a splice's part of a commit record (R326). -/
def plyBytes (x : Splice) : Nat :=
  64 + (x.decls.map (fun d => 64 + roundUp (ceilDiv (d.len / 4096) 8) 64 + 4096 * d.written.length)).sum

/-- The written granules of a splice's shadows (R326). -/
def plyGranules (s : State) (x : Splice) : List (Nat × List Byte) :=
  x.decls.flatMap (fun d => d.written.map (fun g => (d.shadow + 4096 * g, rd s (d.shadow + 4096 * g) 4096)))

/-- What the splices that flip at an edge add to its record: their shadows, and the written granules (R326). -/
structure PlyOut where
  shadows : List Nat := []
  granules : List (Nat × List Byte) := []

/-- The part of one splice added. -/
def PlyOut.add (o : PlyOut) (s : State) (x : Splice) : PlyOut :=
  ⟨o.shadows ++ x.decls.map (·.shadow), o.granules ++ plyGranules s x⟩

/-- An edge counts a miss, or returns the count to 0, with which a further run of misses may be reported (R327, R328). -/
def plyCount (s : State) (k : Nat) : State :=
  if plyActive s || plyStandby s then
    let n := if edgeReached (BitVec.ofNat 64 (s.ply.lastOk + 1)) k then 0 else min 3 (plyMisses s + 1)
    setF { s with ply := { s.ply with lost := s.ply.lost && n != 0 } } .plyStat 4 3 n
  else s

/-- Whether an active holds every flip of its mirrored partitions: it fences (R327). -/
def plyFences (s : State) : Bool :=
  plyRole s == 1 && (plyState s == 3 || (plyActive s && plyMisses s == 3 && !bit (getR s .plyCfg) 8))

/-- Step 4 of an edge for one ready splice (R313, R325): it flips, or is held. Beside the state: backlog, whether a flip was
held, what is to be shipped. -/
def flipOne (budget : Nat) (acc : State × Nat × Bool × PlyOut) (x : Splice) : State × Nat × Bool × PlyOut :=
  let (s, d, held, gs) := acc
  if mirrored s x.part then
    if plyFences s then (s, d, true, gs)
    else if plyActive s then
      let r := plyBytes x
      if d = 0 ∨ d + r ≤ budget then (flipSplice s x, d + r, held, gs.add s x)
      else (bumpC s x.opener.ctx kSplMirhold 1, d, true, gs)
    else (flipSplice s x, d, held, gs)
  else (flipSplice s x, d, held, gs)

/-- Step 4 of an edge (R245, R313, R325), with what is to be shipped. -/
def flipAll (s : State) : State × PlyOut :=
  let budget := plyBudget s
  let d0 := if plyActive s then (getR s .plyBacklog).toNat - budget else 0
  let (s1, d, held, gs) := (readySplices s).foldl (flipOne budget) (s, d0, false, ⟨[], []⟩)
  (setF (setR s1 .plyBacklog (BitVec.ofNat 64 d)) .plyStat 7 7 (if held then 1 else 0), gs)

/-- The applied stage entries that concern mirrored partitions. -/
def plyStaged (s : State) (es : List (Nat × Word)) : List (Nat × Word) :=
  es.filter (fun e => match regAt e.1 with
    | some r => (List.range 4).any (fun p => mirrored s p && stgOwn s p r e.2)
    | none => false)

/-- The quarter regions of the mirrored partitions, in ascending address: what a join's image covers (R329). -/
def imageRegions (s : State) : List (Nat × Nat) :=
  ((List.range 4).filter (fun q => (List.range 4).any (fun p => mirrored s p && pHasQ s p q))).map (fun q => (hbmBase q, hbmLive s q))

/-- Bytes of an image. -/
def imageSize (s : State) : Nat := ((imageRegions s).map (·.2)).sum

/-- The spans of regions that lie from byte `lo` up to byte `hi` of them all together. -/
def spansFrom (rs : List (Nat × Nat)) (lo hi : Nat) : List (Nat × Nat) :=
  match rs with
  | [] => []
  | (a, n) :: r =>
    let here := if lo < n ∧ 0 < hi then [(a + lo, min n hi - lo)] else []
    here ++ spansFrom r (lo - n) (hi - n)

/-- Where an image's cursor stands after a stroke: JOINSHARE sixteenths of Bs further, in whole granules (R329). -/
def nextCursor (s : State) : Nat :=
  min (imageSize s) (s.ply.cursor + 12500 * strokeLen s * plyLanes s * rfld s .plyCfg 14 11 / 16 / 4096 * 4096)

/-- A record with the image's share of its stroke: a granule ahead of the cursor is sent by the image alone (R329); one that no image
sends, in a pinned unified region, stays in the record. -/
def withImage (s : State) (r : PlyRecord) : PlyRecord :=
  let behind := spansFrom (imageRegions s) 0 s.ply.cursor
  let spans := spansFrom (imageRegions s) s.ply.cursor (nextCursor s)
  let within (ss : List (Nat × Nat)) (a : Nat) : Bool := ss.any (fun x => decide (x.1 ≤ a) && decide (a < x.1 + x.2))
  { r with granules := r.granules.filter (fun g => within behind g.1 || !within (imageRegions s) g.1)
           imageSpans := spans
           image := s.mem.filter (fun c => within spans c.1)
           imageLast := nextCursor s == imageSize s }

/-- A record names the words of what it carries that are uncorrectable (R452). -/
def markHurt (s : State) (r : PlyRecord) : PlyRecord :=
  { r with hurt := s.ue.filter (fun w => r.granules.any (fun g => overlaps (32 * w) 32 g.1 4096) ||
             r.imageSpans.any (fun x => overlaps (32 * w) 32 x.1 x.2)) }

/-- Step 7 of an edge (R326, R327, R329): the commit record, with the image of a join, and the heartbeat leave. With no live lane
the records wait. -/
def plyShip (s : State) (k : Word) (es : List (Nat × Word)) (gs : PlyOut) : State :=
  if plyActive s then
    let r0 : PlyRecord := { edge := k, staged := plyStaged s es, entries := s.ply.touched.map (fun a => (a, rd s a 64)),
                            shadows := gs.shadows, granules := gs.granules }
    let imaging := plyState s == 1 && s.ply.joining && !s.ply.imaged && decide (0 < plyLanes s)
    let r := markHurt s (if imaging then withImage s r0 else r0)
    let s1 : State := { s with ply := { s.ply with touched := [], cursor := if imaging then nextCursor s else s.ply.cursor,
                                                   imaged := s.ply.imaged || r.imageLast } }
    if plyLanes s1 = 0 then { s1 with ply := { s1.ply with unsent := s1.ply.unsent ++ [r] } }
    else
      let out := s1.ply.unsent ++ [r]
      out.foldl (fun s x => toLink s (.record x)) (toLink { s1 with ply := { s1.ply with unsent := [] } } (.heartbeat k))
  else s

/-! ## The commands -/

/-- The last edge whose heartbeat has come, or has been answered: the later of two (R327). -/
def plyHeard (s : State) (edge : Word) : State :=
  { s with ply := { s.ply with lastOk := if edgeReached edge s.ply.lastOk then edge.toNat else s.ply.lastOk } }

/-- The standby receives a heartbeat and answers it (R327). -/
def execPlyHeartbeatReceive (edge : Word) (s : State) : Res :=
  runPlain do
    can (powered s && !s.failed && plyStandby s) "the device is no running standby"
    .ok (toLink (plyHeard s edge) (.heartbeatAck edge))

/-- The active receives the answer to a heartbeat (R327). -/
def execPlyHeartbeatAck (edge : Word) (s : State) : Res :=
  runPlain do
    can (powered s && !s.failed && plyActive s && edgeReached (strokeNow s) edge.toNat) "no such heartbeat is out"
    .ok (plyHeard s edge)

/-- The standby's own fill for one entry of a record (R326): where the entry now names a flipped shadow, the granules that the
record does not carry are copied from the committed buffer that it named before. -/
def plyFill (s : State) (r : PlyRecord) (e : Nat × List Byte) : State :=
  let old := declare (mkHandle 0 (rd s e.1 64))
  let new := declare (mkHandle 0 e.2)
  if !(mkHandle 0 e.2).valid || !r.shadows.contains new.span then s
  else (List.range (new.len / 4096)).foldl (fun s g =>
    if r.granules.any (fun x => x.1 == new.span + 4096 * g) then s
    else copyMem s (old.span + 4096 * g) (new.span + 4096 * g) 4096) s

/-- The image's share of a stroke is placed (R329). -/
def plyImage (s : State) (r : PlyRecord) : State :=
  let s1 := r.image.foldl (fun s c => wr s c.1 [c.2]) (r.imageSpans.foldl (fun s x => clearMem s x.1 x.2) s)
  if r.imageLast then { s1 with ply := { s1.ply with imaged := true } } else s1

/-- A commit record is applied as one unit: staged entries first, with all that their application does, then granules with the
fill, then handle-table entries; after them the image's share; what was uncorrectable stays so (R326, R329, R452). -/
def plyApply (s : State) (r : PlyRecord) : State :=
  let s1 := applyEntries s (r.staged.map (fun e => (0, e.1, e.2)))
  let s2 := r.entries.foldl (fun s e => plyFill s r e) s1
  let s3 := r.granules.foldl (fun s g => wr s g.1 g.2) s2
  let s4 := plyImage (r.entries.foldl (fun s e => wr s e.1 e.2) s3) r
  { s4 with ue := r.hurt.foldl (fun u w => if u.contains w then u else u ++ [w]) s4.ue }

/-- The standby receives a commit record entire, applies it and acknowledges it (R326). -/
def execPlyRecordReceive (r : PlyRecord) (s : State) : Res :=
  runPlain do
    can (powered s && !s.failed && plyStandby s) "the device is no running standby"
    .ok (toLink (setR (plyApply s r) .plyAck r.edge) (.recordAck r.edge))

/-- The active receives a record's acknowledgement (R326). -/
def execPlyRecordAck (edge : Word) (s : State) : Res :=
  runPlain do
    can (powered s && !s.failed && plyActive s && edgeReached (strokeNow s) edge.toNat) "no such record is out"
    .ok (setR s .plyAck edge)

/-- A ply event carries `PLY_ACK` in bytes 15:8 of its DETAIL (R459). -/
def plyEvent (s : State) (code : Nat) : State := eventG s code (List.replicate 8 0 ++ wordBytes (getR s .plyAck))

/-- The contexts of mirrored partitions are torn down with PLY_FENCED (R327). -/
def plyFence (s : State) : State :=
  (((List.range 4).filter (mirrored s)).flatMap (partCtxs s)).foldl (fun s c =>
    let (l, pc) := match (threadsOf s c).head? with
      | some (l, th) => (l, th.pc)
      | none => (0, 0)
    teardown (faultEvent s c l pc fFenced) c 0x21 0) s

/-- The third consecutive miss (R327, R328): the active fences or goes on alone; a standby that does not take over reports. -/
def execPlyLoss (s : State) : Res :=
  runPlain do
    can (powered s && !s.failed && plyMisses s == 3) "fewer than three misses"
    if plyActive s then
      let s1 := plyEvent s 0x0304
      if bit (getR s .plyCfg) 8 then .ok (setF s1 .plyStat 2 0 4) else .ok (plyFence (setF s1 .plyStat 2 0 3))
    else
      can (plyStandby s && !bit (getR s .plyCfg) 9 && !s.ply.lost) "no report is due"
      .ok (plyEvent { s with ply := { s.ply with lost := true } } 0x0304)

/-- The standby takes over (R328). Its records are applied as they are received. -/
def execPlyTakeover (s : State) : Res :=
  runPlain do
    can (powered s && !s.failed && plyStandby s && plyMisses s == 3) "fewer than three misses"
    can (bit (getR s .plyCfg) 9) "TAKEOVER is 0"
    can (plyState s == 2) "the join is not complete (R329)"
    .ok (plyEvent (setF (setF s .plyCfg 1 0 1) .plyStat 2 0 5) 0x0305)

/-- A partition's memory is cleared: quarter regions, port regions and unified pages. -/
def clearPartition (s : State) (p : Nat) : State :=
  let s1 := ((List.range 4).filter (pHasQ s p)).foldl (fun s q => clearMem s (hbmBase q) 0x3000000000) s
  let s2 := ((List.range 16).filter (pHasBoard s p)).foldl (fun s b => clearMem s (boardBase b) 0x1800000000) s1
  ((uregs s2).filter (fun r => r.owner == p)).foldl (fun s r =>
    clearMem { s with pages := s.pages.filter (fun x => !(decide (r.base ≤ x.1) && decide (x.1 < r.base + r.size))) }
      (uniBase + r.base * pageBytes) (r.size * pageBytes)) s2

/-- A join begins (R329): the standby's mirrored partitions are cleared; the active's image starts. -/
def execPlyJoin (s : State) : Res :=
  runPlain do
    can (powered s && !s.failed && plyState s == 1 && !s.ply.joining && plyRole s != 0) "no join is due"
    let s1 : State := { s with ply := { s.ply with joining := true, cursor := 0, imaged := false } }
    if plyRole s = 2 then .ok (((List.range 4).filter (mirrored s)).foldl clearPartition s1) else .ok s1

/-- The image of a join is complete (R329): the active has shipped it all, and the standby has its last share. -/
def execPlyJoined (s : State) : Res :=
  runPlain do
    can (powered s && !s.failed && plyState s == 1 && s.ply.joining && s.ply.imaged) "no image is complete"
    .ok (plyEvent (setF { s with ply := { s.ply with joining := false } } .plyStat 2 0 2) 0x0306)

end Sys2Proof.Machine
end

