-- ==== Sys2Proof/Machine/Host.lean ====
section
/-! DEFINITION. Command rings and command records (18, R425-R433): doorbells, the decode of a record and its checks, and what
each kind does. -/

namespace Sys2Proof.Machine

/-! ## Who answers -/

/-- The host reaches the device: it is powered and its PCIe link is up (R476). -/
def hostOk (s : State) : Bool := powered s && s.power.clkPcie

/-- Recovery, in which only the `GLB_` and `SEC_` blocks respond (R442). (DEDUCED, log 101.) -/
def recovering (s : State) : Bool := rfld s .secStatus 3 0 == 2

/-- A function that the host can use: PF0, or in operation a VF that is enabled (R420, R442). -/
def hostFn (s : State) (fn : Nat) : Bool := hostOk s && (fn == 0 || (!recovering s && decide (fn ≤ s.vfs)))

/-- A function in D3hot answers no memory request (R419; PRESUMED, log 132). -/
def inD3hot (s : State) (fn : Nat) : Bool := s.pci.d3hot.contains fn

/-- Records are decoded. -/
def hubUp (s : State) : Bool := hostOk s && !s.failed && !recovering s && !fwStalls s

/-! ## Doorbells (R425, R428) -/

/-- A ring is in use. (DESIGN CHOICE, log 91.) -/
def sqOn (s : State) (k : Nat) : Bool := bit (getR s (ringSqCtl k)) 31
def cqOn (s : State) (k : Nat) : Bool := bit (getR s (ringCqCtl k)) 31

/-- Entries of a submission ring, and its HEAD. -/
def sqSize (s : State) (k : Nat) : Nat := ringSize (rfld s (ringSqCtl k) 19 16)
def sqHead (s : State) (k : Nat) : Nat := rfld s (ringSqCtl k) 15 0

/-- A RING_ERR event of a ring's register; a context's ring names the context. (DEDUCED, log 14.) -/
def ringErr (s : State) (k : Nat) (r : Reg) : State :=
  if k < 64 then eventC s 0x0205 k (leBytes 4 r.offset) else eventReg s 0x0205 r

/-- The state after a new submission tail. -/
def newTail (s : State) (fn k v : Nat) : State :=
  let n := sqSize s k
  let t := (getRing s k).sqTail
  if v < n ∧ (v + n - t) % n ≤ (sqHead s k + 2 * n - 1 - t) % n then setRing s k { getRing s k with sqTail := v, sender := fn }
  else ringErr s k (ringSqCtl k)

/-- The state after a new completion head. -/
def newHead (s : State) (k v : Nat) : State :=
  let n := ringSize (rfld s (ringCqCtl k) 19 16)
  let h := (getRing s k).cqHead
  let r := getRing s k
  if v < n ∧ (v + n - h) % n ≤ (rfld s (ringCqCtl k) 15 0 + n - h) % n then
    setRing s k { r with cqHead := v, fullRaised := r.fullRaised && v == h }
  else ringErr s k (ringCqCtl k)

/-- A doorbell waits (R347, R364). -/
def holdBell (s : State) (b : Bell) : State := { s with bells := s.bells ++ [b] }

/-- Whether a ring's doorbells respond: in recovery only those of the admin ring, which stand in the `GLB_` block (R431, R442). -/
def bellOn (s : State) (ring : Ring) : Bool := !recovering s || ring == .admin

/-- The effect of a SQ_TAIL or CQ_HEAD write (R428). -/
def tailBell (s : State) (fn : Nat) (ring : Ring) (v : Half) : State :=
  if bellOn s ring && sqOn s (Ring.key ring) then newTail s fn (Ring.key ring) (fld v 15 0) else s
def headBell (s : State) (ring : Ring) (v : Half) : State :=
  if bellOn s ring && cqOn s (Ring.key ring) then newHead s (Ring.key ring) (fld v 15 0) else s

/-- A new tail or head is written; it is held during a firmware stall (R347). -/
def writeTail (s : State) (fn : Nat) (ring : Ring) (v : Half) : State :=
  if fwStalls s then holdBell s (.tail fn ring v) else tailBell s fn ring v
def writeHead (s : State) (ring : Ring) (v : Half) : State := if fwStalls s then holdBell s (.head ring v) else headBell s ring v

/-! ## Records (R430, R431) -/

/-- OP and CMDID of a record. -/
def recOp (r : Rec) : Nat := fld r.w0 7 0
def cmdId (r : Rec) : Half := BitVec.ofNat 32 (fld r.w0 63 32)

/-- The 64 bytes of a record. -/
def recData (r : Rec) : List Byte := [r.w0, r.w1, r.w2, r.w3, r.w4, r.w5, r.w6, r.w7].flatMap wordBytes

/-- Whether an OP is accepted on a ring (R429). -/
def opOk (k op : Nat) : Bool :=
  if k = 64 then op == 4 || op == 5 || op == 7 || op == 8 else decide (1 ≤ op) && decide (op ≤ 7)

/-- The bits that are fields, of words 1, 2 and 3, and whether words 4-7 are (R430). -/
def recFields (op : Nat) : Word × Word × Word × Bool :=
  match op with
  | 1 => (mask 1 0, 0, 0, false)
  | 2 => (mask 37 0 ||| mask 45 40 ||| mask 55 48, mask 63 0, mask 63 0, true)
  | 4 => (mask 63 0, mask 47 0, mask 32 0, false)
  | 6 => (mask 51 22, mask 0 0, 0, false)
  | 7 => (mask 9 8 ||| mask 2 0, mask 63 0, 0, false)
  | 8 => (mask 63 0, mask 63 0, mask 63 0, true)
  | _ => (0, 0, 0, false)

/-- Reserved fields of a record are 0. -/
def reservedOk (r : Rec) : Bool :=
  let (a, b, c, d) := recFields (recOp r)
  fld r.w0 31 8 == 0 && r.w1 &&& ~~~a == 0 && r.w2 &&& ~~~b == 0 && r.w3 &&& ~~~c == 0 &&
  (d || (r.w4 == 0 && r.w5 == 0 && r.w6 == 0 && r.w7 == 0))

/-- What a record does: its refusal with a status, or the state and whether the record is complete. -/
abbrev Eff := Except (State × Nat) (State × Bool)

/-- CREDITS + 1 of the contexts that exist, but one (R388). -/
def creditSum (s : State) (but : Nat) : Nat :=
  (((liveCtxs s).filter (· != but)).map (fun c => rfld s (.lkcred c) 11 0 + 1)).sum

/-- The counters of a context read 0 (R41); OVF stays (R460). -/
def clearCounters (s : State) (c : Nat) : State := (List.range 40).foldl (fun s i => setF s (.cnt c i) 47 0 0) s

/-- The epochs of a context's free tags are 0; held tags keep theirs (R389). -/
def clearEpochs (s : State) (c : Nat) : State :=
  { s with epochs := s.epochs.filter (fun e => e.1 / 4096 != c ||
      s.outMsgs.any (fun m => m.ctx.val == c && m.tag.toNat == e.1 % 4096)) }

/-- Whether a valid lease names a context (R342). -/
def leaseNames (s : State) (c : Nat) : Bool :=
  (leaseOf s (partOf c)).isSome && rfld s (.prtLease (partOf c)) 21 16 == c

/-- CREATE (R429, R388, R342, R350). -/
def effCreate (s : State) (c : Nat) (r : Rec) : Eff :=
  let cls := Fin.ofNat 4 (fld r.w1 1 0)
  if (getC s c).st ≠ .none ∨ s.resetting.any (fun x => x.1 == partOf c) ∨ plyClosed s (partOf c) ∨
      (cls = 0 ∧ !leaseNames s c) then .error (s, 3)
  else if 16384 < creditSum s c + rfld s (.lkcred c) 11 0 + 1 then .error (eventC s 0x0207 c
      (leBytes 4 (Reg.offset (.lkcred c))), 3)
  else .ok (setR (clearEpochs (clearCounters (setC { s with poolWaited := s.poolWaited.erase c } c { st := .stopped, cls := cls }) c) c)
      (.detstat c) 0, true)

/-- The order of the next launch decode (R334). -/
def nextOrder (s : State) : Nat := (s.ctxs.map (fun x => x.2.order)).foldl max 0 + 1

/-- A launch as its record gives it: range, filler and primary, TURNREC, entry point, s1-s6. -/
def launchOf (x : CtxSt) (r : Rec) : CtxSt :=
  { x with filler := bit r.w1 48, primary := Fin.ofNat 64 (fld r.w1 54 49), first := fld r.w1 37 32,
           count := fld r.w1 45 40 + 1, turnRec := bit r.w1 55, entry := BitVec.ofNat 32 (fld r.w1 31 0),
           args := [r.w2, r.w3, r.w4, r.w5, r.w6, r.w7], queued := true }

/-- Whether a launch as a filler is allowed (R220, R335): its primary exists in the partition, is no filler, and has no other
filler; the context is no primary of a filler. -/
def mayFill (s : State) (c d : Nat) : Bool :=
  let busy (y : CtxSt) : Bool := y.st == .running || y.st == .suspended || y.queued
  let of (e : Nat) : Bool := ((List.range 16).map (16 * partOf c + ·)).any (fun i =>
    i != c && (getC s i).filler && busy (getC s i) && (getC s i).primary.val == e)
  d != c && partOf d == partOf c && exists' s d && !((getC s d).filler && busy (getC s d)) && !of d && !of c

/-- LAUNCH (R333-R335, R344): the context starts, lower classes are chosen for suspension, or it waits. (DEDUCED, log 93.) -/
def effLaunch (s : State) (c num : Nat) (r : Rec) : Eff :=
  let x := getC s c
  let y : CtxSt := { launchOf x r with order := nextOrder s, launchCmd := some (num, cmdId r) }
  let noRange := fld r.w1 37 32 == 0 && fld r.w1 45 40 == 0
  if !exists' s c then .error (s, 3)
  else if x.cls = 0 then
    if x.st ≠ .stopped ∨ y.filler then .error (s, 3)
    else if !noRange then .error (s, 2)
    else .ok (startCtx (setC s c { y with first := 0, count := ctxNL s c }) c, false)
  else if y.filler then
    if !mayFill s c y.primary then .error (s, 3)
    else if !noRange then .error (s, 2)
    else
      let p := getC s y.primary
      let s1 := setC s c { y with first := 0, count := 0 }
      .ok (if p.st == .running && !p.saving && !p.restoring then startFillers s1 y.primary else s1, false)
  else if nlEff s (partOf c) < y.first + y.count then .error (s, 3)
  else .ok (serveOne (setC s c y) c, false)

/-- TEARDOWN (R349): its completion is the teardown record, with its CMDID (R432). (DEDUCED, log 94.) -/
def effTeardown (s : State) (c num : Nat) (r : Rec) : Eff :=
  if exists' s c then .ok (leaveRec (teardown s c 0 (cmdId r)) c num, false) else .error (s, 3)

/-- The partition in whose memory a MOVE's range lies (R169): the ring's own, or any for the admin ring. (DEDUCED, log 99.) -/
def movePart (s : State) (k a n : Nat) (reads : Bool) : Option Nat :=
  ((List.range 4).filter (fun p => k == 64 || p == partOf k)).find? (fun p =>
    pValid s p && decide (a + n ≤ hostBase) && mayAccessRange s p a n && !(reads && inReel s a n))

/-- MOVE (R429, R430, R364): checked, and begun. -/
def effMove (s : State) (k num : Nat) (r : Rec) : Eff :=
  let m : MoveSt := { num := num, cmdid := cmdId r, host := r.w1, loc := fld r.w2 47 0, len := fld r.w3 31 0 + 1,
                      toHost := bit r.w3 32 }
  match movePart s k m.loc m.len m.toHost with
  | none => .error (s, 5)
  | some p =>
    if !m.toHost && reelRefuses s p then .error (reelInput s p, 0x0B)
    else
      let s1 := setRing s k { getRing s k with moves := (getRing s k).moves ++ [m] }
      .ok (if m.toHost then s1 else toHost s1 (.read m.host.toNat m.len (ringId s k)), false)

/-- SIGNAL (R430): as R387 without the class test. -/
def effSignal (s : State) (c : Nat) (r : Rec) : Eff :=
  if !exists' s c then .error (s, 3)
  else match applySignal s (setFld r.w1 21 16 c) (bit r.w2 0) none with
    | .ok s1 => .ok (s1, true)
    | .error _ => .error (s, 0x0A)

/-- Whether a ring may act on a bank: PF0 on every bank, a VF on its partition's (R318). -/
def bankOf (s : State) (k b : Nat) : Bool := decide (b ≤ 4) && (k == 64 || pFunc s (partOf k) == 0 || b == partOf k)

/-- STAGE records that wait for a check complete once it has ended (R429). -/
def stgReports (s : State) : State :=
  (s.rings.map (·.1)).foldl (fun s k =>
    ((getRing s k).pending.filter (fun x => match x.bank with
      | some b => !s.checking.contains b
      | none => false)).foldl (fun s x => match x.bank with
        | some b => complete s k x.num x.cmdid (if stgState s b = 2 then 0 else 7)
        | none => s) s) s

/-- A STAGE record waits for the check of a bank. -/
def waitBank (s : State) (k num b : Nat) : State :=
  let r := getRing s k
  setRing s k { r with pending := r.pending.map (fun x => if x.num == num then { x with bank := some b } else x) }

/-- STAGE (R430): as writes to the bank's registers. -/
def effStage (s : State) (k num : Nat) (r : Rec) : Eff :=
  let b := fld r.w1 2 0
  if !bankOf s k b then .error (s, 7)
  else match fld r.w1 9 8 with
    | 0 => .ok (waitBank (stgBegin s b) k num b, false)
    | 1 =>
      let (s1, ok) := stgArm s b r.w2 false
      if ok then .ok (stgReports s1, true) else .error (stgReports s1, 7)
    | 2 => .ok (stgReports (stgDisarm s b), true)
    | _ => .ok (stgReports (stgClearAll s b), true)

/-- What a record of a ring does that has passed the checks of R430 and R431. CRITICAL records have their own commands. -/
def effect (s : State) (k num : Nat) (r : Rec) : Eff :=
  match recOp r with
  | 1 => effCreate s k r
  | 2 => effLaunch s k num r
  | 3 => effTeardown s k num r
  | 4 => effMove s k num r
  | 5 => .ok (leaveRec s k 0, false)
  | 6 => effSignal s k r
  | 7 => effStage s k num r
  | _ => .error (s, 1)

/-- A record completes with its status, or is left outstanding. -/
def recEnd (k num : Nat) (id : Half) : Eff → State
  | .error (s, st) => complete s k num id st
  | .ok (s, true) => complete s k num id 0
  | .ok (s, false) => s

/-- Whether a context's ring is usable for a function that submits: its partition is valid and owned by the function (R431). (DEDUCED, log
80.) -/
def ringUsable (s : State) (fn k : Nat) : Bool :=
  k == 64 || (pValid s (partOf k) && pFunc s (partOf k) == fn && hasHost s (partOf k))

/-- The status with which the checks of R430 and R431 refuse a record of a function; 0 where it passes. (DEDUCED, log 92.) -/
def recCheck (s : State) (fn k : Nat) (r : Rec) : Nat :=
  if !ringUsable s fn k then 4 else if !opOk k (recOp r) then 1 else if !reservedOk r then 2 else 0

/-- A record is decoded (R429-R431, R357). -/
def decodeRec (s : State) (fn k num : Nat) (r : Rec) : State :=
  let s1 := if k = 64 then s else reelCommand s k (recData r)
  let st := recCheck s1 fn k r
  if st = 0 then recEnd k num (cmdId r) (effect s1 k num r) else complete s1 k num (cmdId r) st

/-- A record takes its number in its ring. -/
def takeRec (s : State) (k : Nat) (r : Rec) : State × Nat :=
  let x := getRing s k
  let n := x.nums + 1
  (setRing s k { x with nums := n, pending := x.pending ++ [{ num := n, cmdid := cmdId r, fence := recOp r == 5 }] }, n)

/-- Whether a record that passes its checks starts at decode: a launch of classes 1-3 waits for its context to stop, a MOVE
for a place among eight (R333, R429). -/
def mayStart (s : State) (k : Nat) (r : Rec) : Bool :=
  let x := getC s k
  match recOp r with
  | 2 => !exists' s k || x.cls == 0 || (x.st == .stopped && !x.queued)
  | 4 => decide ((getRing s k).moves.length < 8)
  | _ => true

/-- The next record of a ring can be decoded (R428, R429); in a replay of its partition it waits (R364). -/
def recWaits (s : State) (k : Nat) (r : Rec) : Bool :=
  sqOn s k && sqHead s k != (getRing s k).sqTail && (k == 64 || reelMode s (partOf k) != 2) &&
  (recCheck s (getRing s k).sender k r != 0 || mayStart s k r)

/-- The record at HEAD is read from the host's memory (R427, R428). -/
def fetchRec (s : State) (k : Nat) : State :=
  toHost s (.read ((getR s (ringSqBase k)).toNat + 64 * sqHead s k) 64 (ringId s k))

/-- HEAD moves on by one record. -/
def passHead (s : State) (k : Nat) : State := setF s (ringSqCtl k) 15 0 ((sqHead s k + 1) % sqSize s k)

/-- The record at HEAD of a ring is decoded. A record of no defined OP, or of one that the ring does not take, is decoded
under any of the commands. -/
def ringRecord (op : Nat) (ring : Ring) (r : Rec) (s : State) : Res :=
  runPlain do
    can (hubUp s) "no record is decoded"
    can (recOp r == op || !opOk (Ring.key ring) (recOp r)) "the record is another command"
    can (recWaits s (Ring.key ring) r) "the record does not start"
    let (s1, n) := takeRec (passHead (fetchRec s (Ring.key ring)) (Ring.key ring)) (Ring.key ring) r
    .ok (decodeRec s1 (getRing s (Ring.key ring)).sender (Ring.key ring) n r)

/-- CREATE. -/
def execCreate (ring : Ring) (r : Rec) (s : State) : Res := ringRecord 1 ring r s

/-- LAUNCH. -/
def execLaunch (ring : Ring) (r : Rec) (s : State) : Res := ringRecord 2 ring r s

/-- TEARDOWN. -/
def execTeardown (ring : Ring) (r : Rec) (s : State) : Res := ringRecord 3 ring r s

/-- MOVE. -/
def execMove (ring : Ring) (r : Rec) (s : State) : Res := ringRecord 4 ring r s

/-- FENCE. -/
def execRingFence (ring : Ring) (r : Rec) (s : State) : Res := ringRecord 5 ring r s

/-- SIGNAL. -/
def execSignal (ring : Ring) (r : Rec) (s : State) : Res := ringRecord 6 ring r s

/-- STAGE. -/
def execStage (ring : Ring) (r : Rec) (s : State) : Res := ringRecord 7 ring r s

/-- The effect of an inline record (R426): decoded for a context of class 0, if it is LAUNCH or SIGNAL; otherwise refused. -/
def inlineBell (s : State) (fn : Nat) (c : CtxN) (whole : Bool) (r : Rec) : State :=
  if recovering s || s.failed then s
  else if whole && exists' s c && ctxCls s c == 0 && (recOp r == 2 || recOp r == 6) then decodeRec s fn c 0 r
  else eventC s 0x0204 c (leBytes 4 (Reg.offset (.sqCtl c)))

/-- An inline record is written: it is decoded at once (R426); it waits during a firmware stall, and in a replay of its partition (R347,
R364). -/
def inlineWrite (s : State) (fn : Nat) (c : CtxN) (whole : Bool) (r : Rec) : State :=
  if fwStalls s || reelMode s (partOf c) == 2 then holdBell s (.inline fn c whole r) else inlineBell s fn c whole r

/-- Whether a doorbell that was held is decoded now. -/
def bellReady (s : State) : Bell → Bool
  | .inline _ c _ _ => !fwStalls s && reelMode s (partOf c) != 2
  | _ => !fwStalls s

/-- The effect of a doorbell that was held. -/
def ringBell (s : State) : Bell → State
  | .tail fn ring v => tailBell s fn ring v
  | .head ring v => headBell s ring v
  | .inline fn c whole r => inlineBell s fn c whole r

/-- The doorbells that need wait no longer are decoded, in order (R347, R364). -/
def releaseBells (s : State) : State :=
  let (go, stay) := s.bells.partition (bellReady s)
  go.foldl ringBell { s with bells := stay }

/-! ## The end of a MOVE (R429, R430) -/

/-- The host reads or writes unified pages where they reside (R184): the access waits for a page in motion, and a written page
without a frame gets one. -/
def hostPages (s : State) (a n : Nat) (write : Bool) : Ex State := do
  can (!waitsHot s a n) "the stack's controller issues nothing (R187)"
  (pagesIn a n).foldlM (fun s pg =>
    if pageBusy s pg then .error (.no "the page waits for its migration (R181)")
    else if !write || (tabGet? s.pages pg).isSome then .ok s
    else
      match uregOfPage s pg with
      | none => .ok s
      | some r =>
        if r.policy = 2 then the (bringIn s pg 4 64) "no frame can be had for the page"
        else do
          let f ← the (firstFree s (boardFrames s r.owner)) "no board frame is free"
          .ok { s with pages := tabSet s.pages pg { frame := f } }) s

/-- Data of a MOVE arrives from the host and is written by address; on a standby it is ignored (R324). -/
def moveIn (s : State) (c p : Nat) (m : MoveSt) (data : List Byte) : Ex State := do
  can (decide (data.length = m.len)) "the host returns the bytes asked for"
  if plyClosed s p then .ok s
  else
    let s1 ← hostPages s m.loc m.len true
    .ok (reelTransfer (wr s1 m.loc data) p c m.loc data)

/-- The bytes of a MOVE to the host leave, those of uncorrectable words as poisoned TLPs (R452). -/
def moveOut (s : State) (k host a n : Nat) : State :=
  let bad := (s.ue.map (fun w => (max a (32 * w), min (a + n) (32 * w + 32) - max a (32 * w)))).filter (fun r => decide (0 < r.2))
  let parts := (minusRanges (a, n) bad).map (fun r => (r, false)) ++ bad.map (fun r => (r, true))
  (parts.insertionSort (fun x y => x.1.1 ≤ y.1.1)).foldl (fun s x =>
    let b := rd s x.1.1 x.1.2
    let at' := host + (x.1.1 - a)
    toHost s (if x.2 then .poison at' b (ringId s k) else .write at' b (ringId s k))) s

/-- A MOVE completes (R429, R452): HOSTERR where the host's answer is bad or a word read is uncorrectable. -/
def execMoveDone (ring : Ring) (cmdid : Half) (reply : HostReply) (s : State) : Res :=
  runPlain do
    can (hostOk s && !s.failed) "the host does not reach the device"
    let k := (Ring.key ring)
    let x := getRing s k
    let m ← the (x.moves.find? (fun m => m.cmdid == cmdid)) "no such MOVE is in flight"
    let s1 := setRing s k { x with moves := x.moves.filter (fun y => y.num != m.num) }
    let fin (s : State) (st : Nat) : State := complete s k m.num cmdid st
    match movePart s k m.loc m.len m.toHost, reply with
    | none, _ => .ok (fin s1 5)
    | some _, .bad => .ok (fin s1 6)
    | some p, .ok data =>
      if m.toHost then
        let s2 ← hostPages s1 m.loc m.len false
        .ok (fin (moveOut s2 k m.host.toNat m.loc m.len) (if ueIn s2 m.loc m.len then 6 else 0))
      else
        let s2 ← moveIn s1 (k % 64) p m data
        .ok (releaseBells (fin s2 0))

end Sys2Proof.Machine
end

