-- ==== Sys2Proof/Machine/Ports.lean ====
section
/-! DEFINITION. Skein ports (16): training and roles (R367, R370-R372), what reaches a port (R374, R376), mesh port states (R379), the
retirement of units (R454-R456). -/

namespace Sys2Proof.Machine

/-- The ports' clock is present (R475). -/
def portClock (s : State) (n : Nat) : Bool := if n < 8 then s.power.clkSk0 else s.power.clkSk1

/-- The mesh links of this device that are live, one bit per link to rank xor (j + 1) (R379). -/
def meshMask (s : State) : BitVec 8 :=
  BitVec.ofNat 8 (((List.range 7).map (fun j =>
    if portLive s j || (portLive s 7 && rfld s (.lnkPort 7) 40 38 == j) then 2 ^ j else 0)).sum)

/-- The mesh link that P7's peer makes it the spare of: the peer is rank r xor (j + 1)'s Pj or P7 (R372). -/
def spareOf (s : State) : Option Nat :=
  let d := rfld s (.lnkPort 7) 63 48
  let q := rfld s (.lnkPort 7) 47 44
  let j := Nat.xor (here s).rank (d % 8) - 1
  if hankOf d = hankOf (devId s) ∧ d % 8 ≠ (here s).rank ∧ (q = j ∨ q = 7) then some j else none

/-- P7 carries the mesh link of a dead port, or stands by (R372). -/
def spareCheck (s : State) : State :=
  if portState s 7 = 2 ∨ portState s 7 = 3 then
    match spareOf s with
    | some j =>
      if portLive s j then setF (setF s (.lnkPort 7) 2 0 3) (.lnkPort 7) 40 38 7
      else setF (setF s (.lnkPort 7) 2 0 2) (.lnkPort 7) 40 38 j
    | none => s
  else s

/-- A port takes a state; P7 stays the substitute of its port while it retrains (R371); hank peers hear of a change of the mesh links (R379). One that leaves service for good loses what it held. -/
def setPort (s : State) (n st : Nat) : State :=
  let s1 := setF s (.lnkPort n) 2 0 st
  let s2 := if st = 2 ∨ st = 3 then s1 else setF s1 (.lnkPort n) 11 8 0
  let s3 := spareCheck (if n = 7 ∧ st ≠ 1 ∧ st ≠ 2 then setF s2 (.lnkPort 7) 40 38 7 else s2)
  let s4 := if st = 1 ∨ st = 2 ∨ st = 3 then s3 else strand s3 n
  if assigned s ∧ meshMask s ≠ meshMask s4 then toLink s4 (.portStates (meshMask s4)) else s4

/-- Lanes of the largest live group of a port (R371). -/
def liveGroup (s : State) (n : Nat) : Nat :=
  let ok (l : Nat) : Bool := !retired s 2 (8 * n + l)
  if (List.range 8).all ok then 8
  else if (List.range 4).all ok || (List.range 4).all (fun l => ok (4 + l)) then 4
  else if (List.range 4).any (fun p => ok (2 * p) && ok (2 * p + 1)) then 2
  else 0

/-- Whether a torus port's dimension has extent 1 (R370). -/
def unusedPort (s : State) (n : Nat) : Bool :=
  let e := extents s
  (n == 8 || n == 9) && e.x == 1 || (n == 10 || n == 11) && e.y == 1 || (n == 12 || n == 13) && e.z == 1

/-- A port begins to train, and tells its peer who it is, or it is unused (R370). -/
def trainPort (s : State) (n : Nat) : State :=
  if assigned s && unusedPort s n then setPort s n 5 else toLink (setPort s n 1) (.identity n (devId s))

/-- Whether a port may train: enabled, not retired, its clock present. -/
def mayTrain (s : State) (n : Nat) : Bool :=
  powered s && !s.failed && portClock s n && !bit (getR s (.lnkPhy n)) 3 && !retired s 3 n

/-! ## Retirement (R454-R456) -/

/-- The tag of a copy of the retirement map (R457). -/
def rmapTag (c : RmapCopy) : List Byte :=
  Config.kmac256 (Config.kmac256 Config.uds [] 256 "KV12 RMAP") (c.words.flatMap wordBytes ++ leBytes 8 c.seq) 256 Config.rmapCustom

/-- A copy of the retirement map is valid: it is whole and its tag fits. -/
def rmapGood (c : RmapCopy) : Bool := c.words.length == 11 && c.tag == rmapTag c

/-- The valid copy with the higher sequence number, and which of the two it is (R457). -/
def bestRmap (f : FlashSt) : Option (Bool × RmapCopy) :=
  if rmapGood f.rmapB && (!rmapGood f.rmapA || decide (f.rmapA.seq < f.rmapB.seq)) then some (true, f.rmapB)
  else if rmapGood f.rmapA then some (false, f.rmapA)
  else none

/-- The flash after the retirement map is written over the copy that is not in force, with the next sequence number (R457). -/
def putRmap (f : FlashSt) (ws : List Word) : FlashSt :=
  let (b, n) := match bestRmap f with
    | some (b, c) => (!b, c.seq + 1)
    | none => (false, 1)
  let c : RmapCopy := { seq := n, words := ws }
  let c1 := { c with tag := rmapTag c }
  if b then { f with rmapB := c1 } else { f with rmapA := c1 }

/-- The retirement map is written to the flash. -/
def saveRmap (s : State) : State := { s with flash := putRmap s.flash ((List.range 11).map (fun w => getR s (.rmap w))) }

/-- Retired spindles of a quarter. -/
def retiredSpindles (s : State) (q : Nat) : Nat := ((List.range 16).filter (fun i => retired s 5 (16 * q + i))).length

/-- A unit is marked retired: the map, the flash, the RETIRED event, its window gone (R456, R457). -/
def markRetired (s : State) (ty idx reason : Nat) : State :=
  let s1 := saveRmap (setRetired s ty idx true)
  let s2 : State := { s1 with windows := s1.windows.filter (fun w => !(w.unit.ty.val == ty && w.unit.idx == idx)) }
  eventG s2 0x0101 ([BitVec.ofNat 8 ty, BitVec.ofNat 8 reason] ++ leBytes 2 idx)

/-- The partition that a quarter's retirement resets, unless its reset has begun already, with what becomes of its
composition and lease (R350, R456). Its stacks cannot be reached any more, and the unified pages in its frames go with them (R13;
DESIGN CHOICE, log 112). -/
def loseQuarter (s : State) (q : Nat) : State :=
  match partOfQ s q with
  | none => s
  | some p =>
    let s1 := if s.resetting.any (fun x => x.1 == p) then s else beginReset s p 1
    let s2 := if rfld s1 (.prtLease p) 3 2 = q then setF s1 (.prtLease p) 31 31 0 else s1
    let s3 := setF (s2.pool.foldl (fun s r => poolGive s r.1 r.2.1 r.2.2) { s2 with pool := [] }) (.prtComp p) (48 + q) (48 + q) 0
    if rfld s3 (.prtComp p) 51 48 = 0 then setF s3 (.prtComp p) 63 63 0 else s3

/-- A quarter is retired, if it is not already. -/
def retireQuarter (s : State) (q reason : Nat) : State :=
  if retired s 6 q then s else loseQuarter (markRetired s 6 q reason) q

/-- Fine ticks in the window of a unit type. (DEDUCED, log 90.) -/
def windowTicks (s : State) (ty : Nat) : Nat := rfld s (.glbRetire ty) 15 0 * 2000000

/-- The open window of a unit, if it has not closed. -/
def openWindow (s : State) (u : UnitId) : Option Window :=
  s.windows.find? (fun w => w.unit == u && decide (s.fticks < w.opened + windowTicks s u.ty))

/-- The window of a unit after one more error. -/
def countedWindow (s : State) (u : UnitId) : Window :=
  match openWindow s u with
  | some w => { w with count := w.count + 1 }
  | none => { unit := u, opened := s.fticks, count := 1 }

/-- One more error of a unit: its counter, its window, and whether the window has reached THRESH (R454, R461). -/
def countError (s : State) (u : UnitId) : State × Bool :=
  let w := countedWindow s u
  let s1 := bump { s with windows := w :: s.windows.filter (fun x => x.unit != u) } (.ce u.ty u.idx) 1
  let n := rfld s (.glbRetire u.ty) 31 16
  (s1, decide (n ≠ 0 ∧ n ≤ w.count))

/-- A port in service retrains for an error or a retired lane: a retraining that reaches THRESH in its window retires it (R454,
DEDUCED, log 90). -/
def retrain (s : State) (n : Nat) : State :=
  let (s1, full) := countError s ⟨3, n⟩
  if full then setPort (markRetired s1 3 n 0) n 6 else trainPort s1 n

/-- A unit is retired (R454, R456): reason 0 threshold, 1 immediate, 2 host. Lanes retrain their port; a port with no group
of two lanes is retired; a ninth spindle retires its quarter. -/
def retireUnit (s : State) (ty idx reason : Nat) : State :=
  if retired s ty idx then s
  else
    match ty with
    | 2 =>
      let s1 := markRetired s 2 idx reason
      let n := idx / 8
      if liveGroup s1 n = 0 then
        (if retired s1 3 n then s1 else setPort (markRetired s1 3 n 1) n 6)
      else if portState s1 n = 2 ∨ portState s1 n = 3 then retrain s1 n
      else if portState s1 n = 1 then trainPort s1 n else s1
    | 3 => setPort (markRetired s 3 idx reason) idx 6
    | 5 =>
      let s1 := markRetired s 5 idx reason
      if 9 ≤ retiredSpindles s1 (idx / 16) then retireQuarter s1 (idx / 16) 1 else s1
    | 6 => retireQuarter s idx reason
    | 4 => maskRetired (markRetired s 4 idx reason)
    | _ => markRetired s ty idx reason

/-- A Skein port trains (R370); one in service does so for an error. -/
def execPortTrain (port : PortN) (s : State) : Res :=
  runPlain do
    can (mayTrain s port) "the port may not train"
    .ok (if portState s port = 2 ∨ portState s port = 3 then retrain s port else trainPort s port)

/-! ## End of training (R370-R372) -/

/-- The opposite of a torus port. -/
def opposite (n : Nat) : Nat := if n % 2 = 0 then n + 1 else n - 1

/-- The torus neighbour that a port's role names (R367). -/
def torusPeer (s : State) (n : Nat) : Coord :=
  let h := here s
  let e := extents s
  let up := n % 2 = 0
  let step (v size : Nat) : Nat := if up then (v + 1) % size else (v + size - 1) % size
  if n = 8 ∨ n = 9 then { h with x := step h.x e.x }
  else if n = 10 ∨ n = 11 then { h with y := step h.y e.y }
  else { h with z := step h.z e.z }

/-- Whether a peer is the one that a port's role expects (R367, R370, R372). -/
def peerOk (s : State) (n dev port : Nat) : Bool :=
  let h := here s
  if n < 7 then
    let r := Nat.xor h.rank (n + 1)
    dev == Coord.id { h with rank := r } && decide (r < (extents s).rank) && (port == n || port == 7)
  else if n = 7 then
    let j := Nat.xor h.rank (dev % 8) - 1
    hankOf dev == hankOf (devId s) && dev % 8 != h.rank && (port == j || port == 7)
  else if n < 14 then dev == (torusPeer s n).id && port == opposite n
  else port == n

/-- A port that has trained sends the flits of its retry buffer again, and then what waits (R371). -/
def resume (s : State) (n : Nat) : State :=
  drainPort (sendAgain (setPortSt s n { getPort s n with resend := false }) n) n

/-- The training of a port ends (R370): in service, miswired, standing by, or retired where no group of lanes trained. A
device without an ID enters no port into service. -/
def execPortTrained (port : PortN) (r : Training) (s : State) : Res :=
  runPlain do
    let n := port.val
    can (mayTrain s n && portState s n == 1) "the port is not training"
    can (r.lanes.val == 0 || ((r.lanes.val == 2 || r.lanes.val == 4 || r.lanes.val == 8) && decide (r.lanes.val ≤ liveGroup s n)))
      "the lanes are no live group (R371)"
    if r.lanes.val = 0 then .ok (retireUnit s 3 n 1)
    else
      let s1 := setF (setF (setF s (.lnkPort n) 63 48 r.peerDev.toNat) (.lnkPort n) 47 44 r.peerPort.toNat) (.lnkPort n)
        31 16 r.delay.toNat
      if !assigned s then .ok (setF (setPort s1 n 0) (.lnkPort n) 11 8 r.lanes.val)
      else if peerOk s1 n r.peerDev.toNat r.peerPort.toNat then
        let s2 := setF (setPort s1 n (if n = 7 then 3 else 2)) (.lnkPort n) 11 8 r.lanes.val
        let s3 := spareCheck s2
        .ok (resume (if meshMask s2 != meshMask s3 then toLink s3 (.portStates (meshMask s3)) else s3) n)
      else
        .ok (eventG (setPort s1 n 4) 0x0300 ([BitVec.ofNat 8 n, 0] ++ leBytes 2 r.peerDev.toNat ++ [r.peerPort.setWidth 8]))

/-- A mesh port state report from a hank peer (R379). -/
def execPortStateReport (rank : Fin 8) (live : BitVec 8) (s : State) : Res :=
  runPlain do
    can (powered s && !s.failed && assigned s && rank.val != (here s).rank) "no such hank peer"
    .ok { s with meshes := tabSet s.meshes rank live }

/-! ## What reaches a port (R374, R376, R454) -/

/-- The lane that contributed the most symbol errors to a codeword, the lower of two that contributed as many (R454). -/
def burstLane (errors : List Nat) : Nat := (errors.idxOf? (errors.foldl max 0)).getD 0

/-- A burst counts for its lane of a port, which is retired at THRESH (R454). -/
def countBurst (s : State) (n : Nat) (errors : List Nat) : State :=
  let u : UnitId := ⟨2, 8 * n + burstLane errors⟩
  let (s1, full) := countError s u
  if full then retireUnit s1 2 u.idx 0 else s1

/-- A flit is received, or what a control flit carries (R374, R376). -/
def execFlitReceive (port : PortN) (x : FlitIn) (s : State) : Res :=
  runPlain do
    let n := port.val
    can (powered s && !s.failed && (portState s n == 2 || portState s n == 3)) "the port is not in service"
    match x with
    | .flit bytes bursts fixed => do
      can (bytes.length == 256) "a flit has 256 bytes"
      .ok (bursts.foldl (fun s e => countBurst s n e) (hearFlit (bump s (.feccor n) fixed) n bytes (!bursts.isEmpty)))
    | .resend seq => .ok (hearResend s n seq)
    | .credit vc cls k => .ok (hearCredit s n vc.toNat cls.toNat k)

end Sys2Proof.Machine
end

