-- ==== Sys2Proof/Machine/Secure.lean ====
section
/-! DEFINITION. Firmware images, boot and identity (19, R438-R444, R457): what the boot ROM tests, and what it derives. The
hash, MAC and signature functions are those of other standards (DESIGN CHOICE, log 12). -/

namespace Sys2Proof.Machine

/-! ## Images (R440) -/

/-- Bytes of an image. -/
def imgBytes (b : List Byte) (off n : Nat) : List Byte := (b.drop off).take n

/-- A little-endian number of an image. -/
def imgN (b : List Byte) (off n : Nat) : Nat := ofBytes (imgBytes b off n)

/-- ASCII "KV12FWIM". -/
def imgMagic : List Byte := [0x4B, 0x56, 0x31, 0x32, 0x46, 0x57, 0x49, 0x4D]

/-- LAYERS and SVN of an image. -/
def imgLayers (b : List Byte) : Nat := imgN b 16 4
def imgSvn (b : List Byte) : Nat := imgN b 12 4

/-- Digest of layer `i` + 1 in the header, and the layer's bytes. -/
def imgDigest (b : List Byte) (i : Nat) : List Byte := imgBytes b (64 + 80 * i + 16) 64
def imgLayer (b : List Byte) (i : Nat) : List Byte := imgBytes b (imgN b (64 + 80 * i) 4) (imgN b (68 + 80 * i) 4)

/-- Whether a slot with these bytes is valid (R440), for a root key, the owner blob in force and the SVN floor. -/
def imgOk (root : List Byte) (owner : Option OwnerBlob) (floor : Nat) (b : List Byte) : Bool :=
  imgBytes b 0 8 == imgMagic && imgN b 8 4 == 1 && decide (1 ≤ imgLayers b) && decide (imgLayers b ≤ 4) &&
  Config.mldsaVerify root (imgBytes b 0 384) "KV12 firmware" (imgBytes b 384 4627) &&
  (match owner with
   | some o => !o.ownerFw || o.keys.any (fun k => Config.mldsaVerify k (imgBytes b 0 384) "KV12 firmware" (imgBytes b 5024 4627))
   | none => true) &&
  (List.range (imgLayers b)).all (fun i => Config.sha3x512 (imgLayer b i) == imgDigest b i) && decide (floor ≤ imgSvn b)

/-- The bytes of a slot: false A, true B. -/
def fwSlot (f : FlashSt) (b : Bool) : List Byte := if b then f.slotB else f.slotA

/-- Whether a slot is valid now. -/
def slotOkNow (s : State) (b : Bool) : Bool := imgOk s.flash.rootKey s.sec.ownerBlob s.flash.auth.svnFloor (fwSlot s.flash b)

/-! ## The flash map (R438) -/

/-- A part of the flash map. -/
inductive FlashPart where
  | rootKeyBlock | puf | ownerBlob | authRegion | retirement | erased | slotA | slotB
  deriving DecidableEq, Repr

/-- Offset and size of a part of the flash (R438). -/
def FlashPart.span : FlashPart → Nat × Nat
  | rootKeyBlock => (0, 0x10000)
  | puf => (0x10000, 0x10000)
  | ownerBlob => (0x20000, 0x10000)
  | authRegion => (0x30000, 0x10000)
  | retirement => (0x40000, 0x10000)
  | erased => (0x50000, 0xB0000)
  | slotA => (0x100000, 0xF00000)
  | slotB => (0x1000000, 0xF00000)

/-- Bytes that a firmware slot holds. -/
def flashSlotBytes : Nat := FlashPart.slotA.span.2

/-- The copies of the retirement map lie at the offsets of their halves (R457). -/
def rmapOffset (b : Bool) : Nat := FlashPart.retirement.span.1 + (if b then 0x8000 else 0)

/-! ## Identity (R444) -/

/-- The DeviceID public key and the UID. -/
def devPublic : List Byte := Config.mldsaPublic (Config.kmac256 Config.uds [] 256 "KV12 DeviceID")
def devUid : List Byte := (Config.sha3x512 devPublic).take 32

/-- The seed of the DeviceID key. -/
def devSeed : List Byte := Config.kmac256 Config.uds [] 256 "KV12 DeviceID"

/-- cdi[i] after the measurements of layers 1 to i. -/
def cdiOf (ms : List (List Byte)) : List Byte := ms.foldl (fun c m => Config.kmac256 c m 512 "KV12 CDI") Config.uds

/-- Seed of the alias key of the last of the layers measured. -/
def aliasSeed (ms : List (List Byte)) : List Byte := Config.kmac256 (cdiOf ms) [] 256 "KV12 Alias"

/-- The seeds of the alias keys of layers 1 to n. -/
def aliasSeeds (ms : List (List Byte)) : List (List Byte) := (List.range ms.length).map (fun i => aliasSeed (ms.take (i + 1)))

/-- The certificate of layer `i` + 1, signed with the DeviceID key for layer 1 and alias key `i` for a later one. -/
def layerCert (ms : List (List Byte)) (i : Nat) : List Byte :=
  Config.aliasCert (if i = 0 then devSeed else aliasSeed (ms.take i)) (Config.mldsaPublic (aliasSeed (ms.take (i + 1))))
    ((ms[i]?).getD [])

/-- The key that wraps the command key in the flash (R449); its first 32 bytes are used (DESIGN CHOICE, log 128). -/
def wrapKey : List Byte := (Config.kmac256 Config.uds [] 512 "KV12 Wrap").take 32

/-- Byte by byte exclusive or. -/
def xorBytes (a b : List Byte) : List Byte := (a.zip b).map (fun x => x.1 ^^^ x.2)

/-- The command key wrapped, or unwrapped (DESIGN CHOICE, log 128). -/
def wrapped (key : List Byte) : List Byte := xorBytes key wrapKey

/-! ## Starting a slot -/

/-- The UID registers. -/
def setUid (s : State) (u : List Byte) : State :=
  (List.range 4).foldl (fun s i => setR s (.secUid i) (BitVec.ofNat 64 (ofBytes ((u.drop (8 * i)).take 8)))) s

/-- The keys of R444 for the layers of an image, and what each layer is handed (R441 step 5); none at debug level 3 (R450). -/
def deriveKeys (s : State) (ms : List (List Byte)) : State :=
  if rfld s .secStatus 9 8 = 3 then s
  else
    let s1 : State := { s with sec := { s.sec with ident := true, uid := devUid, key := wrapped (s.flash.auth.wrapped.getD [])
                                                   handed := aliasSeeds ms, certs := (List.range ms.length).map (layerCert ms) } }
    setF (setF (setUid s1 devUid) .secStatus 7 7 1) .secStatus 6 6 (if s.flash.auth.wrapped.isSome then 1 else 0)

/-- Firmware of a slot runs: keys, measurements, SVN, SLOT, BOOT (R441 step 5, R446), and the SMBus STATUS (R486). -/
def startSlot (s : State) (b : Bool) : State :=
  let img := fwSlot s.flash b
  let n := imgLayers img
  let ms := (List.range n).map (imgDigest img)
  let s1 := deriveKeys { s with sec := { s.sec with measures := ms, layers := n, runSvn := imgSvn img } } ms
  let s2 := setR s1 .secSvn (BitVec.ofNat 64 (s1.flash.auth.svnFloor * 2 ^ 32 + imgSvn img))
  statusRise (setF (setF s2 .secStatus 4 4 (if b then 1 else 0)) .secStatus 3 0 1) 1

/-- Recovery (R442). -/
def recover (s : State) : State := setF s .secStatus 3 0 2

/-- Whether the owner blob of the flash passes step 3 of R441; without identity (debug level 3) its UID is not
compared. (DEDUCED, log 84.) -/
def ownerOk (f : FlashSt) (ident : Bool) : Bool :=
  if f.auth.owned then
    match f.owner with
    | some o => Config.mldsaVerify f.rootKey o.bytes "" o.sig && (!ident || o.uid == devUid) && decide (f.auth.ownerFloor ≤ o.seq)
    | none => false
  else true

/-- The check of the authenticated region (R439): its tag fits its contents and the present count, so an older copy fails. -/
def authGood (f : FlashSt) : Bool := f.authTag == f.auth.tagFor f.rpmc

/-- The RPMC's root key, which the first boot writes (R439). -/
def rpmcRoot : List Byte := Config.kmac256 Config.uds [] 256 "KV12 RPMC"

/-- The JTAG IDCODE (R450): version 1 on A1 and 0 on ES, part number, manufacturer. -/
def idcode (s : State) : Nat :=
  (if rfld s .glbId 31 24 = 0xA1 then 1 else 0) * 2 ^ 28 + 0x0C12 * 2 ^ 12 + 0x3AB * 2 + 1

/-! ## Writes of the authenticated region (R439) -/

/-- The flash after a write of the authenticated region: counter 0 of the RPMC is incremented first, and the new tag covers the new
contents and the new count. -/
def putAuth (f : FlashSt) (g : AuthRegion → AuthRegion) : FlashSt :=
  { f with auth := g f.auth, rpmc := f.rpmc + 1, authTag := (g f.auth).tagFor (f.rpmc + 1) }

/-- The authenticated region is written in operation: it is read first, and a check that fails raises SEC_FLASH (DEDUCED, log 85). -/
def writeAuth (s : State) (g : AuthRegion → AuthRegion) : State :=
  let s1 := if authGood s.flash then s else eventG s 0x0404 []
  { s1 with flash := putAuth s.flash g }

/-! ## Boot (R441, R442, R448-R450) -/

/-- An owner blob installed before comes into force at a cold reset: OWNED, and the raised floor (R449). -/
def adoptOwner (f : FlashSt) : FlashSt :=
  match f.newOwner with
  | some o =>
    if authGood f then
      { putAuth f (fun a => { a with owned := true, ownerFloor := max a.ownerFloor o.seq }) with newOwner := none, owner := some o }
    else f
  | none => f

/-- What the boot ROM tests before it tests a slot (R438, R439, R441 steps 1-3). Debug level 3 skips step 2, and with it the keys under
which the counter is read (R450). -/
def romTests (f : FlashSt) : Bool :=
  let dbg := f.auth.debug3
  f.hasRpmc && Config.sha3x512 f.rootKey == Config.rootDigest && (dbg || Config.helperFits f.helper) && authGood f &&
  (dbg || f.rpmcKey.all (fun k => k == rpmcRoot)) && ownerOk f (!dbg)

/-- The flash once the ROM has read it: the RPMC's root key is written at the first boot (R439), and the request for debug level 3 is
cleared by the boot that uses it (R450). -/
def romFlash (f : FlashSt) : FlashSt :=
  let f1 := if f.auth.debug3 then f else { f with rpmcKey := some rpmcRoot }
  if f.auth.debug3 then putAuth f1 (fun a => { a with debug3 := false }) else f1

/-- The boot ROM's steps after reset release. -/
def bootRom (s : State) : State :=
  let f := s.flash
  if romTests f then
    let s1 : State := { s with flash := romFlash f, sec := { s.sec with ownerBlob := if f.auth.owned then f.owner else none } }
    let s2 := setR s1 .secCtr (BitVec.ofNat 64 f.auth.cres)
    let s3 := setR s2 .secStatus (BitVec.ofNat 64 ((if f.auth.debug3 then 3 * 256 else 0) + (if f.auth.owned then 32 else 0) +
      (if f.auth.cres = 2 ^ 64 - 1 then 4096 else 0)))
    if slotOkNow s3 f.auth.preferred then startSlot s3 f.auth.preferred
    else if slotOkNow s3 (!f.auth.preferred) then startSlot s3 (!f.auth.preferred)
    else recover s3
  else recover s

/-! ## Hub firmware activation (R347, R446) -/

/-- The stall of an activation ends: the loaded slot runs and is preferred, the floor rises where asked (R443), the record
completes. -/
def fwDone (s : State) (f : FwSt) : State :=
  let svn := imgSvn (fwSlot s.flash f.slot)
  let s1 := writeAuth s (fun a => { a with preferred := f.slot, svnFloor := if f.raise then max a.svnFloor svn else a.svnFloor })
  complete (startSlot { s1 with fw := none } f.slot) 64 f.num f.cmdid 0

/-- The stall begins at its edge: open turns end later by the stalled strokes, or by their fine ticks for class 0, and the
flags are set (R347). -/
def fwBegin (s : State) (f : FwSt) : State :=
  let n := f.to' - f.from'
  ((runningCtxs s).filter (fun c => !(getC s c).saving && !(getC s c).restoring)).foldl (fun s c =>
    let live := ctxCls s c == 0
    let d := if live then n * strokeLen s else n
    let open' := (threadsOf s c).any (fun x => x.2.turn.isSome)
    let s1 := (threadsOf s c).foldl (fun s x => match x.2.turn with
      | some u => setT s (tid c x.1) { x.2 with turn := some { u with stop := u.stop + d } }
      | none => s) s
    setDet (if open' then setTstat s1 c 4 else s1) c 32) s

end Sys2Proof.Machine
end

