-- ==== Sys2Proof/Machine/Bar.lean ====
section
/-! DEFINITION. BAR0 (18, R422; 21, R462-R470): what a read of each register returns, what a write does, halves held and
latched, and the rows that write one register each. -/

namespace Sys2Proof.Machine

/-! ## Who may (R422, R470) -/

/-- Whether a register is one of a partition's own that its VF reads and writes. (DEDUCED, log 102.) -/
def vfOwns (p : Nat) : Reg → Bool
  | .numpol c | .qhpol c | .timepol c | .tstat c | .detstat c | .htab c | .lkcred c | .ctxHost c | .sqBase c | .sqCtl c
  | .cqBase c | .cqCtl c | .ctxState c | .cnt c _ => partOf c == p
  | .prtComp q | .prtLease q | .prtSave q | .prtSpindles q | .prtSplpool q | .prtSem q _ | .reelCtl q | .reelRing q
  | .reelHead q | .reelStart q | .reelLost q | .reelStat q | .cdcCfg q => q == p
  | .stgEaddr b _ | .stgEval b _ | .stgClear b | .stgCheck b | .stgApply b | .stgCancel b | .stgStatus b => b == p
  | _ => false

/-- The `GLB_` and `SEC_` blocks, which respond in recovery (R442). -/
def inGlb (r : Reg) : Bool := decide (r.offset < 0x100000)
def inSec (r : Reg) : Bool := decide (0x400000 ≤ r.offset) && decide (r.offset < 0x500000)

/-- Whether a function writes, and reads, a register (R422). -/
def mayW (s : State) (fn : Nat) (r : Reg) : Bool :=
  fn == 0 || (match partOfFunc s fn with
    | some p => vfOwns p r
    | none => false)
def mayR (s : State) (fn : Nat) (r : Reg) : Bool :=
  mayW s fn r || (match r with
    | .bar4Win f => f == fn
    | .secStatus | .trdStroke | .trdIndex | .trdTick | .trdSync => true
    | _ => inGlb r)

/-- Whether a register responds: in recovery only two blocks do. -/
def responds (s : State) (r : Reg) : Bool := !recovering s || inGlb r || inSec r

/-! ## What a register reads as -/

/-- Bits of a list of conditions, the first lowest. -/
def flagsOf (l : List Bool) : Nat := (l.zipIdx.map (fun x => if x.1 then 2 ^ x.2 else 0)).sum

/-- `GLB_STATUS`. -/
def glbStatusValue (s : State) : Nat :=
  flagsOf ((List.range 8).map (fun n => !retired s 4 n)) * 2 ^ 8 + flagsOf ((List.range 4).map (fun q => !retired s 6 q)) * 2 ^ 16 +
  flagsOf ((List.range 4).map (pValid s)) * 2 ^ 24 + (if s.failed then 2 ^ 31 else 0)

/-- STATE of `CTX_STATE`; a context that is being restored is suspended still (R334). -/
def ctxCode (x : CtxSt) : Nat :=
  match x.st with
  | .none => 0
  | .stopped => 1
  | .running => if x.restoring then 3 else 2
  | .suspended => 3
  | .tearing => 4

/-- `CTX_STATE`: CLASS reads its reset value 0 while STATE is 0. DESIGN CHOICE (log 65): the register map calls it valid only
where STATE is not 0. -/
def ctxStateValue (s : State) (c : Nat) : Nat :=
  let x := getC s c
  ctxCode x + (if x.st = .none then 0 else x.cls.val) * 2 ^ 4 + (if x.filler then 2 ^ 8 + x.primary.val * 2 ^ 16 else 0) +
    min 256 (getRing s c).held.length * 2 ^ 32

/-- DOUBLED of `CTX_TSTAT`. -/
def ctxDoubled (s : State) (c : Nat) : Bool :=
  let x := getC s c
  !onLease s c && x.st != .none && (List.range x.count).any (fun i => doubled s (partOf c) (x.first + i))

/-- `CTX_TSTAT` and `CTX_DETSTAT`. -/
def tstatValue (s : State) (c : Nat) : Word := setFld (getR s (.tstat c)) 1 1 (if ctxDoubled s c then 1 else 0)
def detstatValue (s : State) (c : Nat) : Word :=
  let d := getR s (.detstat c)
  setFld d 7 7 (if fld d 6 0 = 0 ∧ fld (tstatValue s c) 2 0 = 0 then 1 else 0)

/-- `CDC_CORE_n`. -/
def cdcCoreValue (s : State) (n : Nat) : Nat :=
  (if retired s 4 n then 2 ^ 23 else 0) + match jobOn s n with
    | none => 0
    | some j => (if dGang j.desc then 2 ^ 22 else 0) + (if jobCls s j = 0 then 2 ^ 21 else 0) + 2 ^ 20 + j.t.ctx.val * 2 ^ 8

/-- `Qq_STAT`. -/
def qStatValue (s : State) (q : Nat) : Nat :=
  flagsOf ((List.range 16).map (fun i => !retired s 5 (16 * q + i))) + (if retired s 6 q then 2 ^ 31 else 0) +
  match partOfQ s q with
  | some p => 2 ^ 26 + p * 2 ^ 24
  | none => 0

/-- `Qq_CLK`: its reset value until the first fine tick (R469), and then what is in force. (DEDUCED, log 97.) -/
def qClkValue (s : State) (q : Nat) : Nat :=
  if s.fticks = 0 then 0 else 2700 - 27 * s.power.step + (if s.power.step = 0 then 0 else 2 ^ 16) + ((s.power.vdd.toList[q]?).getD 0).toNat * 2 ^ 32

/-- Logical spindles mapped to a physical one: first and second, 127 for none. -/
def spinLogical (s : State) (i : Nat) : Nat × Nat :=
  match (List.range 4).findSome? (fun p => (leaseSpindles s p).idxOf? i) with
  | some l => (l, 127)
  | none =>
    match (List.range 4).findSome? (fun p => ((pList s p).idxOf? i).map (fun l => (p, l))) with
    | some (p, l) => (l, if doubled s p l then l + (pList s p).length else 127)
    | none => (127, 127)

/-- The context whose primary thread runs on a physical spindle. -/
def spinCtx (s : State) (i : Nat) : Option Nat :=
  (runningCtxs s).find? (fun c =>
    let x := getC s c
    !x.filler && (List.range x.count).any (fun k => physOf s c (x.first + k) == some i && onSpindle s c (x.first + k)))

/-- `Qq_SPIN_s` of the physical spindle `i`. -/
def qSpinValue (s : State) (i : Nat) : Nat :=
  let (a, b) := spinLogical s i
  a + b * 2 ^ 8 + (if b = 127 then 0 else 2 ^ 29) + (if retired s 5 i then 2 ^ 31 else 0) +
  (if (List.range 4).any (fun p => (leaseSpindles s p).contains i) then 2 ^ 30 else 0) +
  match spinCtx s i with
  | some c => 2 ^ 22 + c * 2 ^ 16
  | none => 0

/-- `Qq_PC_n`. -/
def qPcValue (s : State) (q n : Nat) : Nat :=
  let inL := !retired s 6 q && !s.pcOut.contains (96 * q + n)
  (if inL then 1 else 0) + (if inL && retired s 0 (96 * q + n) then 2 else 0)

/-- What a read of a register returns. -/
def regValue (s : State) (r : Reg) : Word :=
  match r with
  | .glbStatus => BitVec.ofNat 64 (glbStatusValue s)
  | .prtSpindles p => BitVec.ofNat 64 (rfld s r 6 0 + (pList s p).length * 2 ^ 8 + nlEff s p * 2 ^ 16)
  | .tstat c => tstatValue s c
  | .detstat c => detstatValue s c
  | .ctxState c => BitVec.ofNat 64 (ctxStateValue s c)
  | .stgStatus b => setFld (getR s r) 24 24 (if stgAuth s b then 1 else 0)
  | .qlive q => BitVec.ofNat 64 (qLive s q)
  | .blive p => BitVec.ofNat 64 (bLive s p)
  | .usize => BitVec.ofNat 64 (uniSize s / pageBytes)
  | .plyStat => setFld (getR s r) 12 8 (plyLanes s)
  | .cdcCore n => BitVec.ofNat 64 (cdcCoreValue s n)
  | .qStat q => BitVec.ofNat 64 (qStatValue s q)
  | .qClk q => BitVec.ofNat 64 (qClkValue s q)
  | .qSpin q n => BitVec.ofNat 64 (qSpinValue s (16 * q + n))
  | .qPc q n => BitVec.ofNat 64 (qPcValue s q n)
  | .admDb | .glbRetireReq | .stgClear _ | .stgCheck _ | .stgApply _ | .stgCancel _ => 0
  | _ => getR s r

/-! ## Plain writes (R4) -/

/-- Fields that a write of certain values leaves unchanged. -/
def keepField (old new : Word) (hi lo : Nat) (keep : Nat → Bool) : Word :=
  if keep (fld new hi lo) then setFld new hi lo (fld old hi lo) else new

/-- The fields' own rules on written values (R68, R357, R370, R378, R395, R427, R454). -/
def fieldRule (r : Reg) (old new : Word) : Word :=
  match r with
  | .trdSync | .reelCtl _ | .lnkPhy _ | .qhpol _ => keepField old new 1 0 (· == 3)
  | .lnkCfg => keepField old new 15 8 (· == 0)
  | .glbRetire _ => keepField old new 15 0 (· == 0)
  | .sqCtl _ | .cqCtl _ | .admSqCtl | .admCqCtl => keepField old new 19 16 (fun v => v == 1 || v == 2 || v == 3)
  | _ => new

/-- RW fields take the written bits that `m` covers; W1C bits written with 1 are cleared (R4). -/
def regPut (s : State) (r : Reg) (v m : Word) : State :=
  let old := getR s r
  let new := (old &&& ~~~(r.rw &&& m)) ||| (v &&& r.rw &&& m)
  setR s r (fieldRule r old new &&& ~~~(v &&& r.w1c &&& m))

/-- All 64 bits, and the upper half. -/
def allBits : Word := 0xFFFFFFFFFFFFFFFF
def highBits : Word := 0xFFFFFFFF00000000

/-- A CTX_BUSY event of a context's register. -/
def ctxBusy (s : State) (c : Nat) (r : Reg) : State := eventC s 0x0200 c (leBytes 4 r.offset)

/-- Whether a context runs or is suspended. -/
def ctxActive (s : State) (c : Nat) : Bool := (getC s c).st == .running || (getC s c).st == .suspended

/-! ## Writes with effects -/

/-- `CTX_HTAB` (R224). -/
def htabWrite (s : State) (c : Nat) (v m : Word) : State :=
  if ctxActive s c then ctxBusy s c (.htab c) else regPut s (.htab c) v m

/-- `CTX_LKCRED` (R388). -/
def lkcredWrite (s : State) (c : Nat) (v m : Word) : State :=
  if ctxActive s c then ctxBusy s c (.lkcred c)
  else if 16384 < creditSum s c + fld v 11 0 + 1 then eventC s 0x0207 c (leBytes 4 (Reg.offset (.lkcred c)))
  else regPut s (.lkcred c) v m

/-- A ring control register (R427): ENABLE set zeroes head and tail and begins the first pass; ENABLE cleared while the context
exists is refused. -/
def ringCtlWrite (s : State) (k : Nat) (cq : Bool) (v m : Word) : State :=
  let r := if cq then ringCqCtl k else ringSqCtl k
  if bit (getR s r) 31 then
    if bit v 31 then s
    else if k < 64 ∧ (getC s k).st ≠ .none then ctxBusy s k r
    else setF s r 31 31 0
  else
    let s1 := regPut s r v m
    if bit v 31 then
      let s2 := setF s1 r 15 0 0
      let x := getRing s2 k
      if cq then setRing s2 k { x with cqHead := 0, phase := true, fullRaised := false } else setRing s2 k { x with sqTail := 0 }
    else s1

/-- A ring base register: written only while the ring is not in use (R427). -/
def ringBaseWrite (s : State) (k : Nat) (cq : Bool) (v m : Word) : State :=
  if (if cq then cqOn s k else sqOn s k) then s else regPut s (if cq then ringCqBase k else ringSqBase k) v m

/-- `GLB_RETIRE_REQ` (R455). -/
def retireWrite (s : State) (v : Word) : State :=
  let t := fld v 18 16
  let i := fld v 15 0
  if unitCount t ≤ i then ringErr s 64 .glbRetireReq
  else if bit v 63 then
    let u : UnitId := ⟨Fin.ofNat 7 t, i⟩
    if s.unretire.contains u then s else { s with unretire := s.unretire ++ [u] }
  else retireUnit s t i 2

/-- `SEC_ATT_CTL` (R445): CHAIN, and GO where BUSY is 0; without identity ERR is set. -/
def attWrite (s : State) (v m : Word) : State :=
  let s1 := regPut s .attCtl v m
  if bit m 0 && bit v 0 && !bit (getR s .attCtl) 2 then
    if s1.sec.ident then
      let nonce := (List.range 8).flatMap (fun i => wordBytes (getR s1 (.attNonce i)))
      let s2 := setF (setF s1 .attCtl 11 8 0) .attCtl 2 2 1
      { s2 with sec := { s2.sec with att := some (nonce, (getR s2 .attAddr).toNat, bit (getR s2 .attCtl) 1) } }
    else setF s1 .attCtl 11 8 1
  else s1

/-- `EVT_RING_CTL` (R434). -/
def evtCtlWrite (s : State) (v m : Word) : State :=
  if bit (getR s .evtCtl) 31 then (if bit v 31 then s else setF s .evtCtl 31 31 0)
  else
    let s1 := regPut s .evtCtl v m
    if bit v 31 then { setR (setR s1 .evtHead 0) .evtTail 0 with evtPhase := true } else s1

/-- `EVT_RING_HEAD` (R434): a value beyond TAIL is ignored. -/
def evtHeadWrite (s : State) (v m : Word) : State :=
  let h := rfld s .evtHead 11 0
  let t := rfld s .evtTail 11 0
  if (fld v 11 0 + 4096 - h) % 4096 ≤ (t + 4096 - h) % 4096 then regPut s .evtHead v m else s

/-- `LNK_PHY_n` (R370): the port is held down, or retrains. -/
def lnkPhyPut (s : State) (n : Nat) (v m : Word) : State :=
  let s1 := regPut s (.lnkPhy n) v m
  if retired s1 3 n then s1 else if bit (getR s1 (.lnkPhy n)) 3 then setPort s1 n 0 else if mayTrain s1 n then trainPort s1 n else s1

/-- A write of the bits `m` of a register takes effect. -/
def doWrite (s : State) (r : Reg) (v m : Word) : State :=
  if r.staged then eventReg s 0x0201 r
  else
    match r with
    | .glbRetireReq => if bit m 0 then retireWrite s v else s
    | .admSqBase => ringBaseWrite s 64 false v m
    | .admCqBase => ringBaseWrite s 64 true v m
    | .admSqCtl => ringCtlWrite s 64 false v m
    | .admCqCtl => ringCtlWrite s 64 true v m
    | .sqBase c => ringBaseWrite s c false v m
    | .cqBase c => ringBaseWrite s c true v m
    | .sqCtl c => ringCtlWrite s c false v m
    | .cqCtl c => ringCtlWrite s c true v m
    | .htab c => htabWrite s c v m
    | .lkcred c => lkcredWrite s c v m
    | .stgEaddr b _ | .stgEval b _ => stgReports (stgWritten (regPut s r v m) b)
    | .stgClear b => if bit v 0 then stgReports (stgClearAll s b) else s
    | .stgCheck b => if bit v 0 then stgBegin s b else s
    | .stgApply b => stgReports (stgArm s b (v &&& m) false).1
    | .stgCancel b => if bit v 0 then stgReports (stgDisarm s b) else s
    | .attCtl => attWrite s v m
    | .evtBase => if bit (getR s .evtCtl) 31 then s else regPut s r v m
    | .evtCtl => evtCtlWrite s v m
    | .evtHead => evtHeadWrite s v m
    | .lnkPhy n => lnkPhyPut s n v m
    | _ => regPut s r v m

/-! ## Halves (R464, R465) -/

/-- A REG_ERR event. -/
def regErr (s : State) (off kind : Nat) : State := eventG s 0x0209 (leBytes 4 off ++ leBytes 1 kind)

/-- The half a function holds is taken for the upper half of the same slot, or discarded. (DEDUCED, log 96.) -/
def takeHalf (s : State) (fn slot : Nat) (high : Bool) : State × Option Half :=
  match s.halves.find? (fun h => h.1 == fn) with
  | none => (s, none)
  | some (_, sl, lo) =>
    let s1 : State := { s with halves := s.halves.filter (fun h => h.1 != fn) }
    if high && sl == slot then (s1, some lo) else (regErr s1 sl 1, none)

/-- A 64-bit value whose upper half is `v`. -/
def highWord (v : Half) : Word := (v ++ (0 : Half) : BitVec 64)

/-- A write to a register that responds to the function. -/
def regSlotWrite (s : State) (fn : Nat) (r : Reg) (a : BarAcc) (low : Option Half) : State :=
  if r = .admDb then
    match a with
    | .whole v => writeHead (writeTail s fn .admin (BitVec.ofNat 32 (fld v 31 0))) .admin (BitVec.ofNat 32 (fld v 63 32))
    | .low v => writeTail s fn .admin v
    | .high v => writeHead s .admin v
  else if r.wide then
    match a, low with
    | .whole v, _ => doWrite s r v allBits
    | .low v, _ => { s with halves := (fn, r.offset, v) :: s.halves }
    | .high v, some lo => doWrite s r (v ++ lo : BitVec 64) allBits
    | .high v, none => doWrite s r (highWord v) highBits
  else
    match a with
    | .whole v => doWrite s r (v &&& mask 31 0) allBits
    | .low v => doWrite s r (v.setWidth 64) allBits
    | .high _ => s

/-- A write of 8 B, or of one half, to a slot. -/
def barWrite (s : State) (fn slot : Nat) (a : BarAcc) : State :=
  let (s1, low) := takeHalf s fn slot (match a with
    | .high _ => true
    | _ => false)
  match regAt slot with
  | none => s1
  | some r => if responds s1 r && mayW s1 fn r then regSlotWrite s1 fn r a low else s1

/-- Whether an access is one that R464 accepts. -/
def sizeOk (x : Tlp) : Bool := (x.len == 4 || x.len == 8) && x.off % x.len == 0 && x.enabled

/-- An access that R464 does not accept. -/
def badAccess (s : State) (off size : Nat) : State :=
  let s1 := regErr s off 0
  if 8 < size then toHost s1 .unsupported else s1

/-- An access of a function's memory space (R421): what it does, or Unsupported Request in D3hot. -/
def memRow (s : State) (fn : Nat) (s' : State) : Res :=
  runPlain do
    can (hostFn s fn) "the host does not reach the function"
    .ok (if inD3hot s fn then toHost s .unsupported else s')

/-- A write to the slot of a register. -/
def regRow (s : State) (fn : Func) (r : Reg) (a : BarAcc) : Res := memRow s fn (barWrite s fn r.offset a)

/-! ## Doorbell pages (R421, R425, R426) -/

/-- The context of a page of a function's BAR2: PF0's page c is context c, page i of a VF is context 16p + i of its partition p. -/
def pageCtx (s : State) (fn page : Nat) : Option CtxN :=
  if fn = 0 then (if page < 64 then some (Fin.ofNat 64 page) else none)
  else if page < 16 then (partOfFunc s fn).map (fun p => Fin.ofNat 64 (16 * p + page))
  else none

/-- A doorbell of a function: a page's, or the admin ring's, which is a 4 B write to a half of `GLB_ADM_DB` (R431, R465). -/
def tailRow (s : State) (fn : Nat) (ring : Ring) (v : Half) : State :=
  match ring with
  | .admin => barWrite s fn (Reg.offset .admDb) (.low v)
  | .ctx c => match pageCtx s fn c with
    | some x => writeTail s fn (.ctx x) v
    | none => s
def headRow (s : State) (fn : Nat) (ring : Ring) (v : Half) : State :=
  match ring with
  | .admin => barWrite s fn (Reg.offset .admDb) (.high v)
  | .ctx c => match pageCtx s fn c with
    | some x => writeHead s (.ctx x) v
    | none => s

/-- An inline record at a page of a function. -/
def inlineRow (s : State) (fn page : Nat) (whole : Bool) (r : Rec) : State :=
  match pageCtx s fn page with
  | some c => inlineWrite s fn c whole r
  | none => s

/-- SQ_TAIL write (R425, R428). -/
def execSqTailWrite (fn : Func) (ring : Ring) (v : Half) (s : State) : Res := memRow s fn (tailRow s fn ring v)

/-- CQ_HEAD write (R425, R428). -/
def execCqHeadWrite (fn : Func) (ring : Ring) (v : Half) (s : State) : Res := memRow s fn (headRow s fn ring v)

/-- An inline record (R426). -/
def execInlineRecord (fn : Func) (page : Fin 64) (whole : Bool) (r : Rec) (s : State) : Res := memRow s fn (inlineRow s fn page whole r)

/-- The record that a write of 64 B carries. -/
def recWords (v : Word) (more : List Word) : Rec :=
  let w (i : Nat) : Word := (more[i]?).getD 0
  { w0 := v, w1 := w 0, w2 := w 1, w3 := w 2, w4 := w 3, w5 := w 4, w6 := w 5, w7 := w 6 }

/-- A write to a function's BAR2 (R425): to RECORD it is an inline record, whole in one form only; to SQ_TAIL, CQ_HEAD or, with 8 B, both;
the rest of the page ignores it. (DEDUCED, log 134.) -/
def bar2Write (s : State) (x : Tlp) (v : Word) : State :=
  let page := x.off / 4096
  let o := x.off % 4096
  let ring : Ring := .ctx (Fin.ofNat 64 page)
  if 64 ≤ page then s
  else if o < 0x40 then inlineRow s x.fn page (o == 0 && x.len == 64 && x.enabled) (recWords v x.more)
  else if !x.enabled then s
  else if o = 0x40 ∧ x.len = 4 then tailRow s x.fn ring (v.setWidth 32)
  else if o = 0x44 ∧ x.len = 4 then headRow s x.fn ring (v.setWidth 32)
  else if o = 0x40 ∧ x.len = 8 then headRow (tailRow s x.fn ring (v.setWidth 32)) x.fn ring (BitVec.ofNat 32 (fld v 63 32))
  else s

/-! ## Configuration space (R419-R421, R436; PRESUMED, log 132) -/

/-- Vendor, device ID, class code and revision ID of a function (R420, R2). -/
def functionIds (s : State) (fn : Nat) : Nat × Nat × Nat × Nat :=
  (0x1E9C, if fn = 0 then 0x0C12 else 0x0C13, 0x120000, rfld s .glbId 31 24)

/-- MSI-X vectors of a function (R436). -/
def vectorsOf (fn : Nat) : Nat := if fn = 0 then 256 else 16

/-- Bytes of a function's BAR4 (R421). -/
def bar4Bytes (s : State) (fn : Nat) : Nat := 2 ^ (30 + tabGet 0 s.pci.bar4Log fn)

/-- A vector's mask bit is written; unmasked, a pending message is sent (R436). -/
def maskVector (s : State) (fn n : Nat) (on : Bool) : State :=
  let p := s.pci
  if vectorsOf fn ≤ n then s
  else if on then { s with pci := { p with masked := (fn, n) :: p.masked.filter (· != (fn, n)) } }
  else
    let s1 : State := { s with pci := { p with masked := p.masked.filter (· != (fn, n)), pending := p.pending.filter (· != (fn, n)) } }
    if p.pending.contains (fn, n) then sendMsix s1 fn n else s1

/-- A write of a field: D0 or D3hot, a size of BAR4 from 1 GiB to 4 TiB, or a vector's mask bit; another value changes nothing. -/
def configWrite (s : State) (fn : Nat) (k : CfgField) (v : Word) : State :=
  let rest := s.pci.d3hot.filter (· != fn)
  match k with
  | .ids => s
  | .powerState =>
    if v = 3 then { s with pci := { s.pci with d3hot := fn :: rest } }
    else if v = 0 then { s with pci := { s.pci with d3hot := rest } }
    else s
  | .bar4Size =>
    if v.toNat ≤ 12 then { s with pci := { s.pci with bar4Log := tabPut s.pci.bar4Log fn (if v = 0 then none else some v.toNat) } } else s
  | .vectorMask n => maskVector s fn n (bit v 0)

/-- What a field reads as; a vector's pending bit stands beside its mask bit. -/
def configValue (s : State) (fn : Nat) (k : CfgField) : Word :=
  match k with
  | .ids =>
    let i := functionIds s fn
    BitVec.ofNat 64 (i.1 + i.2.1 * 2 ^ 16 + (i.2.2.1 * 2 ^ 8 + i.2.2.2) * 2 ^ 32)
  | .powerState => if inD3hot s fn then 3 else 0
  | .bar4Size => BitVec.ofNat 64 (tabGet 0 s.pci.bar4Log fn)
  | .vectorMask n => BitVec.ofNat 64 ((if s.pci.masked.contains (fn, n.val) then 1 else 0) +
      (if s.pci.pending.contains (fn, n.val) then 2 else 0))

/-- A configuration request: in recovery, before layer 1 has started, it is answered with Retry Status and has no effect (R480). -/
def configRow (s s' : State) : State := if recovering s then toHost s .retry else s'

/-! ## Reads -/

/-- The state after the RC fields of a register are read. -/
def clearRead (s : State) (r : Reg) : State := setR s r (getR s r &&& ~~~r.rc)

/-- A read of a register that responds to the function: the value, and the state after it (R465). -/
def regSlotRead (s : State) (fn : Nat) (r : Reg) (size : Nat) (high : Bool) : State × Word :=
  let v := regValue s r
  if size = 8 then (clearRead s r, v)
  else if !r.wide then (if high then (s, 0) else (clearRead s r, v))
  else if high then
    match s.latches.find? (fun l => l.1 == fn && l.2.1 == r.offset) with
    | some (_, _, w) => ({ s with latches := s.latches.filter (fun l => !(l.1 == fn && l.2.1 == r.offset)) }, w.setWidth 64)
    | none => (s, v >>> 32)
  else
    let rest := s.latches.filter (fun l => !(l.1 == fn && l.2.1 == r.offset))
    (clearRead { s with latches := (fn, r.offset, BitVec.ofNat 32 (fld v 63 32)) :: rest } r, v &&& mask 31 0)

/-- A BAR0 read. -/
def barRead (s : State) (x : Tlp) : State :=
  if !sizeOk x then { badAccess s x.off x.len with rdata := 0 }
  else
    match regAt (x.off / 8 * 8) with
    | none => { s with rdata := 0 }
    | some r =>
      if responds s r && mayR s x.fn r then
        let (s1, v) := regSlotRead s x.fn r x.len (x.off % 8 == 4)
        { s1 with rdata := v }
      else { s with rdata := 0 }

/-! ## The commands -/

/-- Bytes of a BAR that is not resizable (R421); configuration space is named by its fields. -/
def barBytes (fn : Nat) : Space → Nat
  | .bar0 => 0x4000000
  | .bar2 => if fn = 0 then 0x40000 else 0x10000
  | .config _ => 1

/-- A BAR0 write of 4 B or 8 B (R464, R465). -/
def bar0Write (s : State) (x : Tlp) (v : Word) : State :=
  if !sizeOk x then badAccess (takeHalf s x.fn x.off false).1 x.off x.len
  else barWrite s x.fn (x.off / 8 * 8) (if x.len = 8 then .whole v else if x.off % 8 = 0 then .low (v.setWidth 32)
    else .high (v.setWidth 32))

/-- REG_WRITE (R464, R465; R425, R419): any write of a function; a poisoned TLP is refused and reported. One that sets `SEC_RCV_CTL`.GO in
recovery is RCV_GO, which carries the image. -/
def execRegWrite (x : Tlp) (v : Word) (s : State) : Res :=
  match x.space with
  | .config k => runPlain do
      can (hostFn s x.fn) "the host does not reach the function"
      .ok (if x.poisoned then toHost s (.aer .poisoned) else configRow s (configWrite s x.fn k v))
  | .bar0 => runPlain do
      can (decide (x.off < barBytes x.fn .bar0)) "the offset lies beyond BAR0"
      can (!(x.off == Reg.offset .rcvCtl && bit v 0 && recovering s && sizeOk x && !x.poisoned)) "the write is RCV_GO"
      can (hostFn s x.fn) "the host does not reach the function"
      .ok (if inD3hot s x.fn then toHost s .unsupported else if x.poisoned then toHost s (.aer .poisoned) else bar0Write s x v)
  | .bar2 => runPlain do
      can (decide (x.off < barBytes x.fn .bar2)) "the offset lies beyond BAR2"
      can (hostFn s x.fn && !recovering s) "the host does not reach the function"
      .ok (if inD3hot s x.fn then toHost s .unsupported else if x.poisoned then toHost s (.aer .poisoned) else bar2Write s x v)

/-- A read of a function (R464, R465; R425: a doorbell page reads 0). -/
def readRow (s : State) (x : Tlp) : Res :=
  match x.space with
  | .config k => runPlain do
      can (hostFn s x.fn) "the host does not reach the function"
      .ok (configRow s { s with rdata := configValue s x.fn k })
  | .bar0 => runPlain do
      can (decide (x.off < barBytes x.fn .bar0)) "the offset lies beyond BAR0"
      can (hostFn s x.fn) "the host does not reach the function"
      .ok (if inD3hot s x.fn then toHost s .unsupported else barRead s x)
  | .bar2 => runPlain do
      can (decide (x.off < barBytes x.fn .bar2)) "the offset lies beyond BAR2"
      can (hostFn s x.fn && !recovering s) "the host does not reach the function"
      .ok (if inD3hot s x.fn then toHost s .unsupported else { s with rdata := 0 })

/-- COUNTER_READ (R460): a read; an RC counter is cleared by it. -/
def execCounterRead (x : Tlp) (s : State) : Res := readRow s x

/-- REG_READ_LATCH (R465): a 4 B read. -/
def execRegReadLatch (x : Tlp) (s : State) : Res := readRow s { x with len := 4 }

/-- CTX_HTAB_WRITE. -/
def execCtxHtabWrite (fn : Func) (c : CtxN) (a : BarAcc) (s : State) : Res := regRow s fn (.htab c) a

/-- CTX_LKCRED_WRITE. -/
def execCtxLkcredWrite (fn : Func) (c : CtxN) (a : BarAcc) (s : State) : Res := regRow s fn (.lkcred c) a

/-- RING_ENABLE_WRITE: a write to a ring control register. -/
def execRingEnableWrite (fn : Func) (ring : Ring) (cq : Bool) (a : BarAcc) (s : State) : Res :=
  regRow s fn (if cq then ringCqCtl (Ring.key ring) else ringSqCtl (Ring.key ring)) a

/-- STG_ENTRY_WRITE. -/
def execStgEntryWrite (fn : Func) (b : Fin 5) (n : Fin 256) (val : Bool) (a : BarAcc) (s : State) : Res :=
  regRow s fn (if val then .stgEval b n else .stgEaddr b n) a

/-- STG_CLEAR. -/
def execStgClear (fn : Func) (b : Fin 5) (a : BarAcc) (s : State) : Res := regRow s fn (.stgClear b) a

/-- STG_CHECK: the check begins; STG_CHECK_DONE ends it. -/
def execStgCheck (fn : Func) (b : Fin 5) (a : BarAcc) (s : State) : Res := regRow s fn (.stgCheck b) a

/-- STG_APPLY. -/
def execStgApply (fn : Func) (b : Fin 5) (a : BarAcc) (s : State) : Res := regRow s fn (.stgApply b) a

/-- STG_CANCEL. -/
def execStgCancel (fn : Func) (b : Fin 5) (a : BarAcc) (s : State) : Res := regRow s fn (.stgCancel b) a

/-- A running check finishes (R320). -/
def execStgCheckDone (b : Fin 5) (s : State) : Res :=
  runPlain do
    can (powered s && !s.failed && s.checking.contains b.val) "no check of the bank runs"
    .ok (stgReports (stgFinish s b))

/-- RETIRE_REQ (R455): a write to `GLB_RETIRE_REQ`. -/
def execRetireReq (fn : Func) (a : BarAcc) (s : State) : Res := regRow s fn .glbRetireReq a

/-- UNRETIRE_REQ (R455): a write to `GLB_RETIRE_REQ`. -/
def execUnretireReq (fn : Func) (a : BarAcc) (s : State) : Res := regRow s fn .glbRetireReq a

/-- ATT_GO (R445): a write to `SEC_ATT_CTL`. -/
def execAttGo (fn : Func) (a : BarAcc) (s : State) : Res := regRow s fn .attCtl a

/-- EVT_RING_ENABLE: a write to `EVT_RING_CTL`. -/
def execEvtRingEnable (fn : Func) (a : BarAcc) (s : State) : Res := regRow s fn .evtCtl a

/-- EVT_RING_HEAD_WRITE. -/
def execEvtRingHeadWrite (fn : Func) (a : BarAcc) (s : State) : Res := regRow s fn .evtHead a

/-- LNK_PHY_WRITE. -/
def execLnkPhyWrite (fn : Func) (port : PortN) (a : BarAcc) (s : State) : Res := regRow s fn (.lnkPhy port) a

/-! ## Attestation (R445) and recovery (R442) -/

/-- Bytes padded with zeros, or cut, to a length. -/
def padTo (n : Nat) (l : List Byte) : List Byte := (l ++ List.replicate n 0).take n

/-- Bytes 527:0 of a report. -/
def reportBody (s : State) (nonce : List Byte) : List Byte :=
  let part := (List.range 4).map Reg.prtComp ++ (List.range 4).map Reg.prtLease ++ [.plyCfg, .lnkId]
  let cfg := match s.sec.ownerBlob with
    | some o => Config.sha3x512 o.bytes
    | none => []
  [0x4B, 0x56, 0x31, 0x32, 0x41, 0x54, 0x54, 0x52] ++ leBytes 4 1 ++ leBytes 4 5184 ++ padTo 64 nonce ++
  padTo 32 s.sec.uid ++ wordBytes (strokeNow s) ++ leBytes 4 s.sec.runSvn ++ leBytes 4 s.flash.auth.svnFloor ++
  leBytes 4 (getR s .secStatus).toNat ++ leBytes 4 s.sec.layers ++ padTo 64 cfg ++
  ((List.range 4).flatMap (fun i => padTo 64 ((s.sec.measures[i]?).getD []))) ++
  padTo 64 (Config.sha3x512 (part.flatMap (fun r => wordBytes (getR s r)))) ++ wordBytes (getR s .secCtr)

/-- A report. -/
def report (s : State) (nonce : List Byte) : List Byte :=
  let body := reportBody s nonce
  padTo 5184 (padTo 528 body ++ padTo 4627 (Config.mldsaSign (s.sec.handed.getLastD []) body "KV12 attest"))

/-- The certificates from the device certificate to the last alias certificate (R444, R445). -/
def certChain (s : State) : List Byte := s.flash.devCert ++ s.sec.certs.flatten

/-- ATT_REPORT_DONE (R445): the report and the chain are visible at the host, or ERR is set; BUSY falls. -/
def execAttReportDone (written : Bool) (s : State) : Res :=
  runPlain do
    can (hostOk s && !s.failed && !fwStalls s) "no report is produced now"
    let x ← the s.sec.att "no report is being produced"
    let s1 : State := { s with sec := { s.sec with att := none } }
    let s2 := setF s1 .attCtl 2 2 0
    if written then
      let s3 := toHost s2 (.write x.2.1 (report s x.1))
      let chain := certChain s
      .ok (if x.2.2 then setF (toHost s3 (.write (x.2.1 + 5184) chain)) .attCtl 63 32 chain.length else s3)
    else .ok (setF s2 .attCtl 11 8 2)

/-- An image that recovery fetches is tested; a valid one goes to slot A and the ROM starts again (R442). -/
def rcvImage (s : State) (image : HostReply) : State :=
  match image with
  | .bad => setF s .rcvCtl 1 1 1
  | .ok b =>
    if decide (b.length ≤ flashSlotBytes) && imgOk s.flash.rootKey s.sec.ownerBlob s.flash.auth.svnFloor b then
      bootRom (setF { s with flash := { s.flash with slotA := b } } .rcvCtl 1 1 0)
    else setF s .rcvCtl 1 1 1

/-- RCV_GO (R442): a write to `SEC_RCV_CTL`; GO acts in recovery only. -/
def execRcvGo (fn : Func) (a : BarAcc) (image : HostReply) (s : State) : Res :=
  runPlain do
    can (hostFn s fn) "the host does not reach the function"
    can (match image with
      | .ok b => decide (b.length = (getR s .rcvLen).toNat)
      | .bad => true) "the host returns the bytes asked for"
    let go := match a with
      | .whole v => bit v 0
      | .low v => bit v 0
      | .high _ => false
    let s1 := barWrite s fn (Reg.offset .rcvCtl) a
    if inD3hot s fn then .ok (toHost s .unsupported)
    else if go && fn.val == 0 && recovering s then
      .ok (rcvImage (toHost s1 (.read (getR s .rcvAddr).toNat (getR s .rcvLen).toNat)) image)
    else .ok s1

/-! ## BAR4 (R423, R184, R364, R324) -/

/-- The partition whose unified regions hold every byte of [a, a + n), where the function owns it. -/
def bar4Part (s : State) (fn a n : Nat) : Option Nat :=
  (List.range 4).find? (fun p => pValid s p && (fn == 0 || pFunc s p == fn) && decide (uniBase ≤ a) &&
    (rangePoints a n).all (fun x => match placeOf s x with
      | .unified pg => (match uregOfPage s pg with
        | some r => r.owner == p
        | none => false)
      | _ => false))

/-- Local address of a BAR4 offset. -/
def bar4Addr (s : State) (fn off : Nat) : Nat := uniBase + rfld s (.bar4Win fn) 20 0 * pageBytes + off

/-- A refused BAR4 access: Unsupported Request and HOST_UR. -/
def hostUr (s : State) (off : Nat) : State := eventG (toHost s .unsupported) 0x0203 (leBytes 4 off)

/-- BAR4_READ. -/
def execBar4Read (fn : Func) (off len : Nat) (s : State) : Res :=
  runPlain do
    can (hostFn s fn && !recovering s && decide (0 < len)) "the host does not reach the window"
    can (decide (off + len ≤ bar4Bytes s fn)) "the offset lies beyond BAR4"
    let a := bar4Addr s fn off
    if inD3hot s fn then .ok (toHost s .unsupported)
    else match bar4Part s fn a len with
    | none => .ok (hostUr s off)
    | some _ =>
      let s1 ← hostPages s a len false
      .ok (toHost s1 (.bar4 (if ueIn s1 a len then none else some (rd s1 a len))))

/-- BAR4_WRITE. -/
def execBar4Write (fn : Func) (off : Nat) (data : List Byte) (poisoned : Bool) (s : State) : Res :=
  runPlain do
    can (hostFn s fn && !recovering s && decide (0 < data.length)) "the host does not reach the window"
    can (decide (off + data.length ≤ bar4Bytes s fn)) "the offset lies beyond BAR4"
    let a := bar4Addr s fn off
    if inD3hot s fn then .ok (toHost s .unsupported)
    else if poisoned then .ok (toHost s (.aer .poisoned))
    else match bar4Part s fn a data.length with
    | none => .ok (hostUr s off)
    | some p =>
      if reelRefuses s p then .ok (reelInput s p)
      else if plyClosed s p then .ok s
      else
        let s1 ← hostPages s a data.length true
        .ok (releaseBells (reelTransfer (wr s1 a data) p (16 * p) a data))

end Sys2Proof.Machine
end

