-- ==== Sys2Proof/Machine/Critical.lean ====
section
/-! DEFINITION. Critical commands (19, R446-R450; 16, R377; 15, R366): the steps of R446 and the action of each kind. -/

namespace Sys2Proof.Machine

/-! ## The record (R430) -/

/-- KIND, payload length, ARG, COUNTER and tag of a CRITICAL record. -/
def critKind (r : Rec) : Nat := fld r.w1 7 0
def critLen (r : Rec) : Nat := fld r.w1 39 8
def critArg (r : Rec) : Nat := fld r.w1 63 40
def critTag (r : Rec) : List Byte := [r.w4, r.w5, r.w6, r.w7].flatMap wordBytes

/-- Words 0-3 as 32 bytes. -/
def critHead (r : Rec) : List Byte := [r.w0, r.w1, r.w2, r.w3].flatMap wordBytes

/-- The bits of ARG that a kind has, and its payload's length where the kind fixes it. KEY_INSTALL of the command key carries
its signature behind the key (DEDUCED, log 62). -/
def critShape (kind arg : Nat) : Nat × Option Nat :=
  match kind with
  | 1 => (1, none)
  | 2 => (1, some 8)
  | 3 => (7, some 72)
  | 4 => (1, if arg = 1 then none else some 32)
  | 5 => (0, some 32)
  | 6 => (0x303, some 0)
  | 7 => (3, some 24)
  | _ => (0, some 8)

/-- Whether the payload's length is one that the kind has. A key that is installed is followed by its signature while there is none, and may be
where there is one (R449; DEDUCED, log 62). -/
def critLenOk (kind arg : Nat) (keyed : Bool) (n : Nat) : Bool :=
  if kind = 4 ∧ arg = 0 then n == 32 + 4627 || (keyed && n == 32)
  else match (critShape kind arg).2 with
    | some l => n == l
    | none => true

/-- Step 2 of R446 for a record and its payload: 0, RESERVED or OPCODE. The upper half of the payload of DEVID_ASSIGN is reserved. -/
def critForm (r : Rec) (keyed : Bool) (d : List Byte) : Nat :=
  let k := critKind r
  let m := (critShape k (critArg r)).1
  if fld r.w0 31 8 != 0 then 2
  else if k = 0 ∨ 8 < k then 1
  else if critArg r &&& m != critArg r || !critLenOk k (critArg r) keyed d.length then 2
  else if k == 4 && critArg r == 0 && !keyed && critTag r != List.replicate 32 0 then 2
  else if k == 8 && (d.drop 4).any (· != 0) then 2
  else 0

/-! ## Tag and counter (R446-R449) -/

/-- Whether a command key is installed. -/
def keyed (s : State) : Bool := rfld s .secStatus 6 6 == 1

/-- The last counter value. -/
def lastCtr : Word := 0xFFFFFFFFFFFFFFFF

/-- Step 3 of R446: the tag, or for the first command key the signature of R449. At debug level 3 there is no key. -/
def critAuth (s : State) (r : Rec) (data : List Byte) : Bool :=
  if rfld s .secStatus 9 8 = 3 then false
  else if keyed s then Config.kmac256 s.sec.key (s.sec.uid ++ critHead r ++ data) 256 "KV12 Critical" == critTag r
  else
    let msg := s.sec.uid ++ wordBytes r.w2 ++ data.take 32
    let keys := match s.sec.ownerBlob with
      | some o => o.keys
      | none => [s.flash.rootKey]
    critKind r == 4 && critArg r == 0 && keys.any (fun k => Config.mldsaVerify k msg "KV12 key" (data.drop 32))

/-- Step 4 of R446. -/
def critCounter (s : State) (r : Rec) : Bool :=
  let c := getR s .secCtr
  decide (c.toNat < r.w2.toNat) || (critKind r == 5 && c == lastCtr && r.w2 == lastCtr)

/-- C takes a value; EXHAUSTED says whether it is the last one (R447). -/
def setCtr (s : State) (c : Word) : State :=
  setF (setR s .secCtr c) .secStatus 12 12 (if c = lastCtr then 1 else 0)

/-- An accepted counter is persisted (R448): CRES first where it must rise. KEY_ROTATE writes its own. -/
def persist (s : State) (r : Rec) : State :=
  let s1 : State := { s with sec := { s.sec with failRun := 0 } }
  if critKind r = 5 then s1
  else
    let c := r.w2.toNat
    let s2 := if s1.flash.auth.cres ≤ c then writeAuth s1 (fun a => { a with cres := min (c + 0x10000) lastCtr.toNat }) else s1
    setCtr s2 r.w2

/-! ## Actions (R446, R449, R450, R377, R366) -/

/-- A little-endian number of a payload. -/
def payN (d : List Byte) (off n : Nat) : Nat := ofBytes ((d.drop off).take n)

/-- FW_LOAD: the image is written to the slot and tested; one that fails the test, or that the slot does not hold (R438), leaves the slot
invalid. -/
def actFwLoad (s : State) (r : Rec) (d : List Byte) : Eff :=
  let b := critArg r == 1
  if rfld s .secStatus 4 4 = critArg r then .error (s, 3)
  else
    let img := if d.length ≤ flashSlotBytes then d else []
    let s1 : State := { s with flash := if b then { s.flash with slotB := img } else { s.flash with slotA := img } }
    if slotOkNow s1 b then .ok ({ s1 with sec := { s1.sec with loaded := some b } }, true)
    else .error ({ s1 with sec := { s1.sec with loaded := none } }, 3)

/-- FW_ACTIVATE: a stall from EDGE of one or two strokes, which of the two is free (DESIGN CHOICE, log 63). -/
def actFwActivate (s : State) (r : Rec) (d : List Byte) (num : Nat) : Eff :=
  let edge := payN d 0 8
  match s.sec.loaded with
  | none => .error (s, 3)
  | some b =>
    if edge < (strokeNow s).toNat + 2 ∨ !slotOkNow s b then .error (s, 3)
    else
      let (w, s1) := freeWord s
      .ok ({ s1 with fw := some { from' := edge, to' := edge + 1 + w.toNat % 2, cmdid := cmdId r, num := num,
                                  raise := critArg r == 1, slot := b } }, false)

/-- The digest of a bank (19). -/
def bankDigest (s : State) (b : Nat) : List Byte :=
  Config.sha3x512 ((stgEntries s b).flatMap (fun e =>
    leBytes 8 e.1 ++ wordBytes (getR s (.stgEaddr b e.1)) ++ wordBytes (getR s (.stgEval b e.1))))

/-- STAGE_APPLY: a checked bank whose digest matches is armed. -/
def actStageApply (s : State) (r : Rec) (d : List Byte) : Eff :=
  let b := critArg r
  if 4 < b ∨ bankDigest s b ≠ d.drop 8 then .error (s, 7)
  else
    let (s1, ok) := stgArm s b (BitVec.ofNat 64 (payN d 0 8)) true
    if ok then .ok (stgReports s1, true) else .error (stgReports s1, 7)

/-- KEY_INSTALL: the first command key, or an owner blob (R449). -/
def actKeyInstall (s : State) (r : Rec) (d : List Byte) : Eff :=
  if critArg r = 0 then
    if keyed s then .error (s, 3)
    else
      let k := d.take 32
      let s1 := writeAuth s (fun a => { a with wrapped := some (wrapped k) })
      .ok (setF { s1 with sec := { s1.sec with key := k } } .secStatus 6 6 1, true)
  else
    let o := Config.ownerParts d
    if o.2.1 ≤ s.flash.auth.ownerFloor then .error (s, 3)
    else
      let blob : OwnerBlob := { bytes := d, uid := o.1, seq := o.2.1, keys := o.2.2.1, ownerFw := o.2.2.2.1,
                                noDebug3 := o.2.2.2.2.1, sig := o.2.2.2.2.2 }
      .ok ({ s with flash := { s.flash with newOwner := some blob } }, true)

/-- KEY_ROTATE: the new key, C and CRES 0 (R447, R448). -/
def actKeyRotate (s : State) (r : Rec) (d : List Byte) : Eff :=
  let k := xorBytes d (Config.kmac256 s.sec.key (s.sec.uid ++ wordBytes r.w2) 256 "KV12 Wrap")
  let s1 := writeAuth s (fun a => { a with wrapped := some (wrapped k), cres := 0 })
  .ok (setCtr { s1 with sec := { s1.sec with key := k } } 0, true)

/-- DEBUG_UNLOCK (R450). A level granted until the next cold reset stays when a lower one is asked for. -/
def actDebugUnlock (s : State) (r : Rec) : Eff :=
  let level := critArg r % 4
  let p := critArg r / 256 % 4
  let raise (s : State) (n : Nat) : State := setF s .secStatus 9 8 (max n (rfld s .secStatus 9 8))
  match level with
  | 0 => .ok (s, true)
  | 1 => .ok (raise s 1, true)
  | 2 => .ok (beginReset (setF (raise s 2) .secStatus 11 10 p) p 0, true)
  | _ =>
    if (match s.sec.ownerBlob with
        | some o => o.noDebug3
        | none => false) then .error (s, 3)
    else .ok (setF (writeAuth s (fun a => { a with debug3 := true })) .secStatus 13 13 1, true)

/-- REEL_EXPORT (R366): bytes of the ring go to the host. -/
def actReelExport (s : State) (r : Rec) (d : List Byte) : Eff :=
  let p := critArg r
  let off := payN d 0 8
  let n := payN d 8 8
  let a := reelBase s p + off
  if reelMode s p ≠ 0 ∨ rfld s (.reelCtl p) 1 0 ≠ 0 then .error (s, 3)
  else if reelSize s p < off + n ∨ !inHbmOrBoard s p a n then .error (s, 5)
  else if ueIn s a n then .error (s, 6)
  else .ok (toHost s (.write (payN d 16 8) (rd s a n)), true)

/-- Whether a device ID lies within its extents (R377). -/
def devidOk (v : Word) : Bool :=
  let c := coordOf (fld v 15 0)
  decide (c.x ≤ fld v 20 16) && decide (c.y ≤ fld v 24 21) && decide (c.z ≤ fld v 28 25) && decide (c.rank ≤ fld v 31 29)

/-- Every port that may train begins to. -/
def retrainAll (s : State) : State :=
  (List.range 16).foldl (fun s n => if mayTrain s n then trainPort s n else s) s

/-- DEVID_ASSIGN (R377). -/
def actDevidAssign (s : State) (d : List Byte) : Eff :=
  let v : Word := BitVec.ofNat 64 (payN d 0 8)
  if !devidOk v || (List.range 64).any (fun c => (getC s c).st != .none) then .error (s, 3)
  else .ok (retrainAll (setR s .lnkId (v ||| mask 63 63)), true)

/-- The action of a kind. -/
def critAct (s : State) (r : Rec) (d : List Byte) (num : Nat) : Eff :=
  match critKind r with
  | 1 => actFwLoad s r d
  | 2 => actFwActivate s r d num
  | 3 => actStageApply s r d
  | 4 => actKeyInstall s r d
  | 5 => actKeyRotate s r d
  | 6 => actDebugUnlock s r
  | 7 => actReelExport s r d
  | _ => actDevidAssign s d

/-! ## The steps of R446 -/

/-- A CRITICAL whose payload has been fetched. (DEDUCED, log 100.) -/
def critSteps (s : State) (r : Rec) (d : List Byte) (num : Nat) : Eff :=
  let f := critForm r (keyed s) d
  if f ≠ 0 then .error (s, f)
  else if !critAuth s r d then
    .error (bump { s with sec := { s.sec with failRun := s.sec.failRun + 1 } } .secAuthfail 1, 8)
  else if !critCounter s r then .error (s, 9)
  else critAct (persist s r) r d num

/-- A CRITICAL record at HEAD of the admin ring is handled, one at a time (R446). A record of no defined KIND is handled under
any of the commands. -/
def critRecord (kind : Nat) (r : Rec) (payload : HostReply) (s : State) : Res :=
  runPlain do
    can (hubUp s && s.fw.isNone) "no CRITICAL is handled now"
    can (recOp r == 8 && (critKind r == kind || critKind r == 0 || decide (8 < critKind r))) "the record is another command"
    can (sqOn s 64 && sqHead s 64 != (getRing s 64).sqTail) "no record waits"
    can (match payload with
      | .ok d => decide (d.length = critLen r)
      | .bad => true) "the host returns the bytes asked for"
    let (s1, n) := takeRec (passHead (fetchRec s 64) 64) 64 r
    let s2 := if critLen r = 0 then s1 else toHost s1 (.read r.w3.toNat (critLen r))
    match payload with
    | .bad => .ok (complete s2 64 n (cmdId r) 6)
    | .ok d => .ok (recEnd 64 n (cmdId r) (critSteps s2 r d n))

/-- FW_LOAD. -/
def execFwLoad (r : Rec) (payload : HostReply) (s : State) : Res := critRecord 1 r payload s

/-- FW_ACTIVATE. -/
def execFwActivate (r : Rec) (payload : HostReply) (s : State) : Res := critRecord 2 r payload s

/-- STAGE_APPLY. -/
def execStageApply (r : Rec) (payload : HostReply) (s : State) : Res := critRecord 3 r payload s

/-- KEY_INSTALL. -/
def execKeyInstall (r : Rec) (payload : HostReply) (s : State) : Res := critRecord 4 r payload s

/-- KEY_ROTATE. -/
def execKeyRotate (r : Rec) (payload : HostReply) (s : State) : Res := critRecord 5 r payload s

/-- DEBUG_UNLOCK. -/
def execDebugUnlock (r : Rec) (payload : HostReply) (s : State) : Res := critRecord 6 r payload s

/-- REEL_EXPORT. -/
def execReelExport (r : Rec) (payload : HostReply) (s : State) : Res := critRecord 7 r payload s

/-- DEVID_ASSIGN. -/
def execDevidAssign (r : Rec) (payload : HostReply) (s : State) : Res := critRecord 8 r payload s

end Sys2Proof.Machine
end

