-- ==== Sys2Proof/Machine/Clock.lean ====
section
/-! DEFINITION. The arithmetic clock (22, R482-R485): the power and junction rules, PROCHOT_N, the regulators, the thermal
trip. -/

namespace Sys2Proof.Machine

/-- The arithmetic clock in MHz (R482). -/
def freq (s : State) : Nat := 2700 - 27 * s.power.step

/-- THERMTRIP_N is driven low and every clock outside the VAUX domain stops (R485). -/
def trip (s : State) : State :=
  let s1 := statusRise s 4
  { s1 with power := { s1.power with thermtripN := false } }

/-- The voltages for a clock `k` steps down are asked of the four regulators, where they are not those asked last (R478). -/
def askVolts (p : PowerSt) (k : Nat) : PowerSt := if p.asked = k then p else { p with asked := k, avs := [0, 1, 2, 3] }

/-- Whether the regulators carry the voltage for a clock `k` steps down, with no request outstanding (R478). -/
def voltsOk (p : PowerSt) (k : Nat) : Bool := p.avs.isEmpty && p.vdd.toList.all (fun v => decide (Config.vddFor k ≤ v))

/-- The clock's next step (R485), and whether a higher voltage must be asked for first. -/
def nextStep (p : PowerSt) (down up : Bool) : Nat × Bool :=
  if !p.prochotN then (50, false)
  else if p.avsHeld then (p.step, false)
  else if down then (min 50 (p.step + 1), false)
  else if up && p.step != 0 then
    (if voltsOk p (p.step - 1) then (p.step - 1, false) else (p.step, p.avs.isEmpty))
  else (p.step, false)

/-- A fine-tick boundary moves the clock (R483-R485); a reading of 115 °C trips. -/
def clockTick (s : State) (m : Monitor) : State :=
  let p := s.power
  let limit := p.plimitNew.getD p.plimit
  let hungry := decide (limit.toNat < m.watts)
  let hot := decide (103 ≤ m.hottest)
  let lowP := if m.watts * 100 ≤ 97 * limit.toNat then min 2000 (p.lowPower + 1) else 0
  let lowT := if m.hottest ≤ 100 then min 2000 (p.lowTemp + 1) else 0
  let (k, ask) := nextStep p (hungry || hot) (lowP == 2000 && lowT == 2000)
  let half := k == 50 && hungry
  let why : BitVec 3 := BitVec.ofNat 3 ((if hungry then 1 else 0) + (if p.prochotN then 0 else 2) + (if hot then 4 else 0))
  let p1 := { p with plimit := limit, plimitNew := none, watts := m.watts, wattsLog := (m.watts :: p.wattsLog).take 2000, tj := m.hottest, lowPower := lowP, lowTemp := lowT,
                     step := k, causes := why, halfRate := half, issueOff := half && !p.issueOff }
  let p2 := if p.step < k then askVolts p1 k else if ask then askVolts p1 (k - 1) else p1
  let s1 : State := { s with power := p2 }
  let tell (s : State) (b : Nat) : State :=
    eventG s 0x0104 ([BitVec.ofNat 8 b, 0] ++ leBytes 2 (freq s))
  let s2 := if p.step = 0 ∧ k ≠ 0 then statusRise (tell s1 why.toNat) 5
    else if p.step ≠ 0 ∧ k = 0 then statusFall (tell s1 0) 5 else s1
  let s3 := if k = 0 then s2 else setDetRunning s2 (fun _ => true) 4
  if 115 ≤ m.hottest then trip s3 else s3

end Sys2Proof.Machine
end

