-- ==== Sys2Proof/Machine/Mcast.lean ====
section
/-! DEFINITION. Multicast of tiles (09 R209-R211, 12 R281, 16 R393): the send and receive forms of `draft.mcast`, delivery
to members within a quarter, remote members and tile requests. -/

namespace Sys2Proof.Machine

/-- A group replaced by its new value. -/
def setGroup (s : State) (g : Group) : State :=
  { s with groups := s.groups.map (fun x => if x.ctx == g.ctx && x.quarter == g.quarter && x.tag == g.tag then g else x) }

/-- The member streams of a context on a quarter with a tag, whether their group has started or not. -/
def membersOn (s : State) (c q tag : Nat) : List Stream :=
  s.streams.filter (fun x => x.kind == .member && x.tag == tag && x.t.ctx.val == c && quarterOf s x.t == q && !x.dropped)

/-- A member stream takes the sender's walk and formats; a driven group leaves each member's far end to its own bindings
(R281, R285). -/
def bindMember (src x : Stream) : Stream :=
  { x with h := src.h, walk := src.walk, fmt := src.fmt, scaleH := src.scaleH, slubH := src.slubH }

/-- The remote devices of a group: those of the link multicast group with its tag, where DRAFT is set (R393). -/
def remoteOf (s : State) (tag : Nat) : List (Nat × Nat) :=
  match boxOf s tag with
  | some b => if b.draft && assigned s then (b.members.filter (fun d => d != devId s)).map (fun d => (d, 0)) else []
  | none => []

/-- Whether a group tag is that of a link multicast group whose DRAFT is set (R393). -/
def drafted (s : State) (tag : Nat) : Bool := match boxOf s tag with
  | some b => b.draft && assigned s
  | none => false

/-- The receive streams of a context with a tag that belong to no group of this device: those that a sender on another device
reaches (R393). -/
def farMembers (s : State) (c tag : Nat) : List Stream :=
  s.streams.filter (fun x => x.kind == .member && x.tag == tag && x.t.ctx.val == c && !x.dropped &&
    (groupOf s c (quarterOf s x.t) tag).isNone)

/-- draft.mcast, send form (R209, R277, R281): the sender's own load stream opens and the group starts. (DEDUCED, log 53.) -/
def execDraftMcastSend (t : Tid) (f : Fields) (s : State) : Res :=
  runThread s t fun s th => do
    dec s (formOk f 0 0 [.stream, .handle, .scalar, .group 2, .imm, .imm])
    dec s (decide (f.sl4.toNat ≤ 255) && decide (1 ≤ f.sl5.toNat) && decide (f.sl5.toNat ≤ 64))
    let w ← src th f.sl2
    let w0 ← srcG th f.sl3 0
    let w1 ← srcG th f.sl3 1
    let tag := f.sl4.toNat
    let q := quarterOf s t
    freshSid s t f.sl0.toNat
    let r ← readRegion s t w false false false
    let (mode, fc, rep) ← walkMode s w1
    needF s (mode != 3) fStream
    let x0 := { newStream t th f.sl0.toNat .member r s.seq with fmt := BitVec.ofNat 4 fc, tag := tag }
    let x : Stream ←
      if mode = 2 then do
        let _ ← needFmt s fc
        .ok { x0 with walk := .driven }
      else do
        let h ← getH s t.ctx f.sl1.toNat
        let fmt ← needFmt s fc
        needF s (mcastSource s h) fStream
        let wk ← if mode = 0 then tileWalk s h w0 w1 rep fc r.size else do
          convOk s false h fmt
          rowsWalk s h w0 rep fc r.size
        let sc ← scaleOf? s t.ctx h
        let sl ← slubOf? s t.ctx h fc
        needF s ((sc.toList ++ sl.toList).all (mcastSource s)) fStream
        needF s ((h :: (sc.toList ++ sl.toList)).all (fillerOk s t)) fStream
        .ok { x0 with h := h, walk := wk, scaleH := sc, slubH := sl }
    needF s (groupOf s t.ctx q tag).isNone fStream
    let wait := (membersOn s t.ctx q tag).filter (fun y => y.walk == .unbound)
    needF s (wait.all (fun y => y.size == r.size) && decide (wait.length ≤ 15)) fStream
    let g : Group := { ctx := t.ctx, quarter := q, tag := tag, sender := t, sid := x.sid, window := f.sl5.toNat, src := x,
                       members := { t := t, sid := x.sid } :: wait.map (fun y => { t := y.t, sid := y.sid }),
                       remote := remoteOf s tag, spread := !(remoteOf s tag).isEmpty }
    let s1 := wait.foldl (fun s y => setStream s (bindMember x y)) s
    let others := s1.groups.filter (fun z => !(z.ctx == t.ctx && z.quarter == q && z.tag == tag))
    .ok (stepOn { s1 with streams := s1.streams ++ [x], groups := others ++ [g] } t th)

/-- draft.mcast, receive form (R209, R281): a member stream opens; a seventeenth member, or another slot size than the
sender's, is a STREAM fault; so is a seventeenth of the device that a remote sender reaches (R393). (DEDUCED, log 19.) -/
def execDraftMcastRecv (t : Tid) (f : Fields) (s : State) : Res :=
  runThread s t fun s th => do
    dec s (formOk { f with variant := f.variant &&& 0xFE } 0 0 [.stream, .imm, .scalar])
    dec s (decide (f.sl1.toNat ≤ 255))
    let w ← src th f.sl2
    let tag := f.sl1.toNat
    let q := quarterOf s t
    freshSid s t f.sl0.toNat
    let r ← readRegion s t w false false false
    needF s (decide ((membersOn s t.ctx q tag).length < 16) && (!drafted s tag || (groupOf s t.ctx q tag).isSome ||
      decide ((farMembers s t.ctx tag).length < 16))) fStream
    let x := { newStream t th f.sl0.toNat .member r s.seq with walk := .unbound, tag := tag }
    match groupOf s t.ctx q tag with
    | none => .ok (stepOn { s with streams := s.streams ++ [x] } t th)
    | some g =>
      needF s (g.src.size == r.size) fStream
      let s1 := setGroup s { g with members := g.members ++ [{ t := t, sid := x.sid }] }
      .ok (stepOn { s1 with streams := s1.streams ++ [bindMember (groupSrc s g) x] } t th)

/-! ## Delivery (R210, R211) -/

/-- Tiles delivered to a member. -/
def gotOf (s : State) (m : Member) : Nat := match stream? s m.t m.sid with
  | some x => x.filled
  | none => m.got

/-- Tiles delivered to the leading member. -/
def leadOf (s : State) (g : Group) : Nat := (g.members.map (gotOf s)).foldl max 0

/-- A member leaves its group: it goes on by unicast, with an MCAST_DROP event (R211). -/
def dropMember (s : State) (t : Tid) (sid tile : Nat) : State :=
  let s1 := match stream? s t sid with
    | some x => setStream s { x with dropped := true }
    | none => s
  let phys := (physOf s t.ctx t.lsp).getD 0
  bumpC (eventC s1 0x0208 t.ctx ([BitVec.ofNat 8 phys, BitVec.ofNat 8 sid, 0, 0] ++ leBytes 4 tile)) t.ctx kMcastDrop 1

/-- Before the leading member takes tile `n`: every member whose lag is the window, or more where it joined late, is
dropped (R210). -/
def dropLagging (s : State) (g : Group) (n : Nat) : State × Group :=
  let late := g.members.filter (fun m => decide (gotOf s m + g.window ≤ n))
  let s1 := late.foldl (fun s m => dropMember s m.t m.sid (gotOf s m)) s
  let far := g.remote.filter (fun r => decide (n < r.2 + g.window))
  let s2 : State := { s1 with tilesOut := s1.tilesOut.filter (fun x =>
    !(x.ctx == g.ctx && x.quarter == g.quarter && x.tag == g.tag) || far.any (fun r => r.1 == x.dst)) }
  (s2, { g with members := g.members.filter (fun m => decide (n < gotOf s m + g.window)), remote := far })

/-- A tile is to go to each remote device of the group (R393). -/
def sendTiles (s : State) (g : Group) (n : Nat) (last : Bool) (data : List Byte) : State :=
  pumpCtx { s with tilesOut := s.tilesOut ++ g.remote.map (fun r =>
    { ctx := g.ctx, quarter := g.quarter, tag := g.tag, dst := r.1, tile := n, last := last, data := data }) } g.ctx

/-- A member of a started group takes its next tile (R210): from the sender's stream, as a load would fill it. -/
def deliverMember (s : State) (x : Stream) (g : Group) : Ex State := do
  let n := x.filled
  let from' := groupSrc s g
  let p ← the (from'.geo n) "the walk has no further tile"
  can (x.free n) "the slot is not free (R196)"
  let c := x.t.ctx.val
  let ps := loadParts from' p
  needF s (ps.all (fun k => mcastSource s k.h)) fStream
  match ← readReady s c ps with
  | some pg => .ok (missPage s x pg)
  | none =>
    partsClean s c ps
    slubsOk s (readV s c) from' p
    let leads := n == leadOf s g
    let (s1, g1) := if leads then dropLagging s g n else (s, g)
    let s2 := accessPages (setGroup s1 g1) c (readReach s c ps)
    let (data, k) := loadBytes (readV s c) from' p
    let s3 ← account s2 c k
    let s4 := poolSettle (setStream (slotWrite s3 x (x.slotOff (x.slotNo n)) data)
      ((x.filledOne n).withRegion (readV s c) from' p n))
    .ok (if leads then sendTiles s4 g1 n (from'.total == some (n + 1)) data else s4)

/-- A member of a remote group that no longer gets its tiles asks for the next one, part by part (R393, DEDUCED, log 54). -/
def requestTile (s : State) (x : Stream) : Ex State := do
  let home ← the x.home "no tile of a remote group has come"
  let n := x.filled
  can (x.free n) "the slot is not free (R196)"
  let c := x.t.ctx
  can (!tileAsked s x) "its request is outstanding"
  can (freeCredit s c) "the context has no free link credit"
  let tag ← the (freeTagOf s c) "the context has no free tag"
  let s1 := if x.dropped then s else dropMember s x.t x.sid n
  let m : Msg := { dst := home, src := BitVec.ofNat 16 (devId s), op := .tileRequest, ctx := c, tag := tag,
                   epoch := epochOf s c tag, cls := BitVec.ofNat 2 (ctxCls s c), last := true, mcg := BitVec.ofNat 8 x.tag,
                   addr := tileAddr n x.parts 1 }
  let o : OutMsg := { ctx := c, tag := tag, op := .tileRequest, lk := x.t.lsp, loc := n, len := x.parts, hidx := x.sid, dst := home,
                      edge := (strokeNow s).toNat, due := [home.toNat] }
  let (s2, ks) ← launchMsg { s1 with outMsgs := s1.outMsgs ++ [o] } c m
  .ok (if ks.isEmpty then s2 else unsent s2 (draftOp s2 o) o m.epoch ks)

/-- A multicast tile is delivered to a member stream (R209-R211, R393). -/
def execMcastTileDeliver (t : Tid) (sid : BitVec 5) (s : State) : Res :=
  runEvent (do
    let x ← movable s t sid.toNat
    can (x.kind == .member) "not a multicast member"
    match groupOf s t.ctx (quarterOf s t) x.tag with
    | some g =>
      if g.members.any (fun m => m.t == t && m.sid == x.sid) then deliverMember s x g else requestTile s x
    | none => requestTile s x) t (streamPc s t sid.toNat)

/-! ## Remote members (R393) -/

/-- Whether an earlier message of a multicast to this device has come and waits: the part of a tile that a stream needs next (R210). -/
def earlierWaits (s : State) (x : Stream) (m : Msg) : Bool :=
  s.inbox.any (fun e => e.m.op == .draftTile && e.m.src == m.src && e.m.ctx == m.ctx && e.m.mcg == m.mcg && tileOf e.m == x.filled &&
    partOfTile e.m == x.parts)

/-- What a part of a remote tile is to a member stream: the one that it needs next, one that it has had, one to wait with, or, after a gap,
one that it can no longer use. -/
inductive TileFit where
  | next | had | waits | gap
  deriving DecidableEq, Repr

/-- R210, R393 (DEDUCED, log 17). A member of a suspended context accepts no tiles (R211). -/
def tileFit (s : State) (x : Stream) (m : Msg) : TileFit :=
  let n := tileOf m
  let k := partOfTile m
  if x.dropped || decide (n < x.filled) || (n == x.filled && decide (k < x.parts)) then .had
  else if !working s x.t then .gap
  else if n = x.filled ∧ k = x.parts then (if x.free n then .next else .waits)
  else if earlierWaits s x m then .waits
  else .gap

/-- A part of a remote tile at one member stream: it goes into the next slot as soon as that is free (R210, R393). -/
def takeTileMsg (s : State) (x : Stream) (m : Msg) : State :=
  let y := { x with home := some m.src }
  match tileFit s x m with
  | .next =>
    if x.size < partBytes * partOfTile m + m.data.length then progFault s x.t x.pc fStream else takePart s y m
  | .had | .waits => setStream s y
  | .gap => dropMember (setStream s y) x.t x.sid x.filled

/-- The streams of this device that a multicast from another reaches (R393). -/
def reachedBy (s : State) (m : Msg) : List Stream :=
  s.streams.filter (fun x => x.kind == .member && x.t.ctx == m.ctx && x.tag == m.mcg.toNat &&
    (groupOf s x.t.ctx (quarterOf s x.t) x.tag).isNone)

end Sys2Proof.Machine
end

