-- ==== Sys2Proof/Machine/Treadle.lean ====
section
/-! DEFINITION. The treadle (10, R232-R246; 16, R395-R398): fine ticks, stroke edges, overrun tests, turn starts, the
switches of doubled spindles, stall counts, markers, and the temperature readings of the HBM stacks (R186, R187). -/

namespace Sys2Proof.Machine

/-! ## Turns (R234-R240) -/

/-- The thread has issued its next `turn` or its `halt`. -/
def turnIssued (th : Thread) : Bool := th.halted || (match th.block with
  | .turn _ => true
  | _ => false)

/-- A turn's work is complete (R235). -/
def turnWorkDone (s : State) (t : Tid) (th : Thread) (u : TurnSt) : Bool :=
  turnIssued th && workDone s t th u.fromSeq && turnDrained s t

/-- Whether a turn's end has come: class 0 counts fine ticks, the others stroke edges, whose index wraps (R233, R240). -/
def turnEnded (live : Bool) (now stop : Nat) : Bool :=
  if live then decide (stop ≤ now) else edgeReached (BitVec.ofNat 64 now) stop

/-- A turn ends: its record is due where the launch asked for it, and the thread has no turn open (R430). -/
def closeTurn (s : State) (t : Tid) (th : Thread) (u : TurnSt) : State :=
  let s1 := setT s t { th with turn := none }
  if (getC s t.ctx).turnRec then dueUp s1 { ring := t.ctx, kind := 2, ref := BitVec.ofNat 32 u.ordinal } else s1

/-- A turn has overrun (R237): counted, then stretched by one stroke (one fine tick for class 0) or faulted. -/
def overrunTurn (s : State) (t : Tid) (th : Thread) (u : TurnSt) : State :=
  let c := t.ctx.val
  let s1 := if u.overrun then s else bumpC s c kOverrun 1
  let pol := actR s (.timepol c)
  let most := fld pol 15 8
  if bit pol 0 || (most != 0 && decide (most ≤ u.stretched)) then overrunFault s1 c
  else
    let s2 := setTstat (bumpC s1 c kOverrunStk 1) c 1
    setT s2 t { th with turn := some { u with stop := u.stop + 1, stretched := u.stretched + 1, overrun := true } }

/-- A context whose turns are tested: neither suspended nor being saved or restored. -/
def turnsRun (x : CtxSt) : Bool := (x.st == .running || x.st == .stopped) && !x.saving && !x.restoring

/-- The test of one thread's turn whose end has come (R237). -/
def testTurn (s : State) (now : Nat) (live : Bool) (k : Nat) : State :=
  let t := tid (k / 64) (k % 64)
  match getT? s t with
  | none => s
  | some th =>
    match th.turn with
    | none => s
    | some u =>
      if turnEnded live now u.stop && turnsRun (getC s t.ctx) && (ctxCls s t.ctx == 0) == live then
        (if turnWorkDone s t th u then closeTurn s t th u else overrunTurn s t th u)
      else s

/-- Overrun tests of every turn that has reached its end: class 0 in fine ticks, the others in strokes. -/
def testTurns (s : State) (now : Nat) (live : Bool) : State :=
  (s.threads.map (·.1)).foldl (fun s k => testTurn s now live k) s

/-- Strokes that a firmware stall still has from edge `k` on (R347). -/
def stallLeft (s : State) (k : Word) : Nat := match s.fw with
  | some f => if edgeReached k f.from' && !edgeReached k f.to' then (BitVec.ofNat 64 f.to' - k).toNat else 0
  | none => 0

/-- A thread that waits at `turn` with no turn open goes on, and its new turn starts now (R234); a filler's sets no deadline
(R236); on a doubled spindle it is twice as long (R231); what is left of a firmware stall comes on top (R347). -/
def startTurn (s : State) (t : Tid) (th : Thread) (n now : Nat) : State :=
  let c := t.ctx.val
  let x := getC s c
  let th1 := advance { th with block := .none }
  if x.filler then setT s t th1
  else
    let len := if x.cls != 0 && doubled s (partOf c) t.lsp then 2 * n else n
    let late := stallLeft s (strokeNow s)
    let more := if x.cls = 0 then late * strokeLen s - tickNow s else late
    let s1 := setT (newTurn s t) t { th1 with turn := some { start := now, stop := now + len + more, ordinal := th.turns, fromSeq := s.seq },
                                              turns := th.turns + 1 }
    if late = 0 then s1 else setTstat s1 c 4

/-- Threads of the classes given that may issue from this boundary on: those that wait for it, and those that wait at
`turn`. -/
def startThreads (s : State) (now : Nat) (live : Bool) : State :=
  (s.threads.map (·.1)).foldl (fun s k =>
    let t := tid (k / 64) (k % 64)
    let x := getC s t.ctx
    match getT? s t with
    | none => s
    | some th =>
      if x.st == .running && !x.saving && !x.restoring && (x.cls == 0) == live then
        let th1 := { th with atEdge := false }
        match th1.block, th1.turn with
        | .turn n, none => startTurn s t th1 n now
        | _, _ => setT s t th1
      else s) s

/-- TURN_OVERRUN: the test of one thread's turn at its end, as step 2 of an edge makes it (R237). (DEDUCED, log 22.) -/
def execTurnOverrun (t : Tid) (s : State) : Res :=
  runPlain do
    can (powered s && !s.failed && turnsRun (getC s t.ctx)) "the context does not run"
    let th ← the (getT? s t) "the thread does not exist"
    let u ← the th.turn "no turn is open"
    let live := ctxCls s t.ctx == 0
    can (turnEnded live (if live then s.fticks else (strokeNow s).toNat) u.stop) "the turn's end has not come"
    can (!turnWorkDone s t th u) "the turn's work is complete"
    .ok (overrunTurn s t th u)

/-! ## Mapping and doubled spindles (R229, R230) -/

/-- The primary context of classes 1-3 whose range holds a logical spindle and that is on it. -/
def sideCtx (s : State) (p l : Nat) : Option Nat :=
  ((List.range 16).map (16 * p + ·)).find? (fun c =>
    let x := getC s c
    x.st == .running && x.cls != 0 && !x.filler && decide (x.first ≤ l) && decide (l < x.first + x.count))

/-- SRAM of a logical spindle of a partition: on its spindle, or in the image of the context whose side idles or is being restored; an
idle side of no context keeps nothing. -/
def sramOf (s : State) (p l : Nat) : Sram :=
  let P := pList s p
  match P[l % P.length]? with
  | none => {}
  | some i =>
    let idle := doubled s p l && tabGet (l % P.length) s.running i != l
    match sideCtx s p l with
    | some c => if idle || (getC s c).restoring then imageSram s c l else spindleSram s i
    | none => if idle then {} else spindleSram s i

/-- SRAM of a logical spindle put into the image of the context that is on it; one that is being restored keeps its image (R336). -/
def saveSide (s : State) (p l : Nat) (m : Sram) : State := match sideCtx s p l with
  | some c => if (getC s c).restoring then s else saveImage s c l m
  | none => s

/-- SRAM of a logical spindle put on its physical spindle, or into its idle image for the upper side of a doubled one. -/
def putSram (s : State) (p l : Nat) (m : Sram) : State :=
  let P := pList s p
  match P[l % P.length]? with
  | none => s
  | some i => if l < P.length then setSpindle s i m else saveSide s p l m

/-- A list of spindles in force, or none. -/
def setPmap (s : State) (k : Nat) (l : List Nat) : State :=
  { s with pmap := if l.isEmpty then tabDel s.pmap k else tabSet s.pmap k l }

/-- A change of a partition's mapping takes effect (R229): `s0` is the state before the configuration changed. Both sides of
a doubled spindle keep their state; the lower one runs. -/
def remapList (s0 s : State) (p : Nat) : State :=
  let new := liveList s p
  if new = pList s0 p ∧ nlEff s p = nlEff s0 p then s
  else
    let keep := (List.range (min (nlEff s0 p) (nlEff s p))).map (sramOf s0 p)
    let s1 : State := { s with
      running := s.running.filter (fun x => !(pList s0 p).contains x.1 && !new.contains x.1) }
    keep.zipIdx.foldl (fun s x => putSram s p x.2 x.1) (setPmap s1 p new)

/-- A change of a lease's spindles takes effect; the live context's state moves with its logical spindles. -/
def remapLease (s0 s : State) (p : Nat) : State :=
  let old := tabGet [] s0.pmap (4 + p)
  let new := leaseWant s p
  if new = old then s
  else
    let s1 := (old.zip new).foldl (fun s x => setSpindle s x.2 (spindleSram s0 x.1)) s
    setPmap s1 (4 + p) new

/-- Both mappings of a partition. -/
def remapOne (s0 s : State) (p : Nat) : State := remapList s0 (remapLease s0 s p) p

/-- Mapping changes of every partition. -/
def remapAll (s0 s : State) : State := (List.range 4).foldl (remapOne s0) s

/-- The primary threads of a partition on a logical spindle, of contexts that run. -/
def threadsOn (s : State) (p l : Nat) : List (Nat × Thread) :=
  ((List.range 16).map (16 * p + ·)).filterMap (fun c =>
    let x := getC s c
    if x.st == .running && x.cls != 0 && !x.filler && !x.saving && !x.restoring then
      (getT? s (tid c l)).map (fun th => (c, th))
    else none)

/-- A turn of the thread starts at this edge. -/
def startsNow (th : Thread) : Bool := (match th.block with
  | .turn _ => true
  | _ => false) && th.turn.isNone

/-- What a blocked thread waits for has come: its instruction is ready. -/
def waitReady (s : State) (t : Tid) (th : Thread) : Bool := match th.block with
  | .sem sh n a q => (semTake s t th sh n a q).isSome
  | .draft w _ => waitHolds s t w
  | .links m q => groupsDone s t m q
  | .fence m q st => fenceHolds s t th m q st
  | _ => false

/-- The running side may be switched out (R230): it waits at `turn`, has halted, or has waited without progress for the whole
stroke. (DEDUCED, log 107.) -/
def mayLeave (s : State) (p l : Nat) : Bool :=
  (threadsOn s p l).all (fun x => turnIssued x.2 || (match x.2.block with
    | .sem _ _ _ q | .draft _ q | .links _ q => decide (q < s.edgeSeq) && !waitReady s (tid x.1 l) x.2
    | _ => false))

/-- The idle side has an instruction ready, or a turn that starts at this edge. -/
def wantsIn (s : State) (p l : Nat) : Bool :=
  (threadsOn s p l).any (fun x => startsNow x.2 || (!x.2.halted && (x.2.block == .none || waitReady s (tid x.1 l) x.2)))

/-- The save area of a context's logical spindle waits for a hot stack (R187). -/
def imageHot (s : State) (c l : Nat) : Bool := waitsHot s (imageAt s c l) 13107200

/-- A doubled spindle switches sides at an edge, if it may (R230) and both images can be reached (R187). -/
def switchOne (s : State) (p i low : Nat) : State :=
  let run := tabGet low s.running i
  let idle := otherOf s p run
  let first := (threadsOn s p run).any (fun x => startsNow x.2) && (threadsOn s p idle).any (fun x => startsNow x.2) &&
    decide (run < idle)
  let hot := [run, idle].any (fun l => (sideCtx s p l).any (fun c => imageHot s c l))
  if mayLeave s p run && wantsIn s p idle && !first && !hot then
    let m := sramOf s p idle
    let s1 := saveSide s p run (sramOf s p run)
    { setSpindle s1 i m with running := tabSet s.running i idle }
  else s

/-- Switches of every doubled spindle (step 8). -/
def switchAll (s : State) : State :=
  (List.range 4).foldl (fun s p =>
    (pList s p).zipIdx.foldl (fun s x => if doubled s p x.2 then switchOne s p x.1 x.2 else s) s) s

/-! ## Stalls (R215) -/

/-- Whether a stream has a tile to move and a credit (R215). -/
def hasWork (s : State) (x : Stream) : Bool :=
  match x.kind with
  | .load => (x.geo x.filled).isSome && x.free x.filled
  | .store => decide (x.drained < x.filled) && x.has x.drained
  | .gather => !gatherDone x &&
    match x.gCount with
    | none => true
    | some n =>
      let p := listPage s x x.gList x.gEntry
      let slot := if x.hold && x.gents.any (fun k => k.page == p) then none
        else if x.hold then holdSlot x ((List.range n).map (listPage s x x.gList)) else some (x.filled % x.count)
      match slot with
      | none => x.hold
      | some n => x.gents.all (fun k => k.slot != n || k.freed)
  | .member =>
    let led := (groupOf s x.t.ctx (quarterOf s x.t) x.tag).filter (fun g => g.members.any (fun m => m.t == x.t && m.sid == x.sid))
    (match led, x.walk with
    | some g, _ => ((groupSrc s g).geo x.filled).isSome
    | none, .unbound => x.home.isSome && (match x.total with
      | some n => decide (x.filled < n)
      | none => true)
    | none, _ => (x.geo x.filled).isSome) && x.free x.filled

/-- Whether a stream was stalled in the stroke that ends: it had work at both its ends and moved nothing. -/
def stalledNow (s : State) (x : Stream) : Bool := present s x.t && !x.moved && hasWork s x

/-- The stroke that ends is counted for every stream and context (R215, `CNT_DFT_STALL`). A stream with nothing to move at
this edge is not stalled in the stroke that begins. -/
def countStalls (s : State) : State :=
  let hit := (s.streams.filter (stalledNow s)).map (fun x => x.t.ctx.val)
  let s1 : State := { s with streams := s.streams.map (fun x =>
    if present s x.t then { x with stall := if stalledNow s x then x.stall + 1 else 0, moved := !hasWork s x } else x) }
  hit.eraseDups.foldl (fun s c => bumpC s c kDftStall 1) s1

/-! ## Boundaries -/

/-- Counts of a fine tick: contexts with a stream stalled on migration, and with a thread blocked for pool space (R185,
R316). -/
def tickCounts (s : State) : State :=
  let waiting := ((s.streams.filter (fun x => x.miss.isSome)).map (fun x => x.t.ctx.val)).eraseDups
  let pooled := ((s.threads.filter (fun k => match k.2.block with
    | .pool _ _ _ => true
    | _ => false)).map (fun k => k.1 / 64)).eraseDups
  s.poolWaited.foldl (fun s c => bumpC s c kSplPoolwait 1) (waiting.foldl (fun s c => bumpC s c kUniStall 1)
    { s with poolWaited := pooled })

/-- The treadle runs. -/
def treadleRuns (s : State) : Bool := powered s && s.power.clkCore && !s.treadleHeld

/-- A context and the fillers that are suspended and resumed with it (R335). -/
def withFillers (s : State) (c : Nat) : List Nat :=
  c :: ((List.range 16).map (16 * partOf c + ·)).filter (fun d =>
    let y := getC s d
    d != c && y.filler && y.primary.val == c && (y.st == .running || y.st == .suspended))

/-- The ends of a context's open turns move by strokes. -/
def moveTurns (s : State) (c : Nat) (g : Nat → Nat) : State :=
  (threadsOf s c).foldl (fun s x => match x.2.turn with
    | some u => setT s (tid c x.1) { x.2 with turn := some { u with stop := g u.stop } }
    | none => s) s

/-- Suspensions begin at a fine-tick boundary (R333): the threads of the contexts chosen, and of their fillers, stop at their next
unissued instruction. What a firmware stall has still to run is no longer added to their turns: the suspension counts it (R239). -/
def beginSaves (s : State) : State :=
  ((List.range 64).filter (fun c => (getC s c).preempt && (getC s c).st == .running && !(getC s c).saving &&
    !(getC s c).restoring)).foldl (fun s c =>
    (withFillers s c).foldl (fun s d =>
      setC (moveTurns s d (· - stallLeft s (strokeNow s))) d { getC s d with
        saving := true, atPoint := false, preempt := false, suspEdge := (strokeNow s).toNat }) s) s

/-- A boundary at which time passes and the clock's control runs, and nothing else (R453, R458, R485): the device has failed, or its clocks
stop at this boundary's reading. -/
def onlyClock (m : Monitor) (s s0 : State) : Bool := s.failed || !(clockTick s0 m).power.thermtripN

/-- A fine-tick boundary inside a stroke (R246): clock control and counts; live overrun tests, completion postings, live
turn starts. -/
def tickOnce (m : Monitor) (s : State) : State :=
  let s0 := setF { s with fticks := s.fticks + 1 } .trdTick 17 0 (tickNow s + 1)
  if !s.power.thermtripN then s
  else if onlyClock m s s0 then clockTick s0 m
  else
  let s1 := tickCounts (clockTick s0 m)
  let s2 := testTurns s1 s1.fticks true
  let s3 := postAll s2 (fun r => decide (r < 64) && ctxCls s2 r == 0)
  beginSaves (startThreads s3 s3.fticks true)

/-- `n` fine ticks with one reading. -/
def tickN (m : Monitor) : Nat → State → State
  | 0, s => s
  | n + 1, s => tickN m n (tickOnce m s)

/-- Written values of edge-effective registers come into force (R467); the reel's go through their own checks (R358). -/
def adoptRegs (s : State) : State :=
  let reels := (List.range 4).flatMap (fun p => [Reg.reelCtl p, Reg.reelRing p])
  let isReel (o : Nat) : Bool := reels.any (fun r => r.offset == o)
  let base := s.regs.filter (fun x => edgeOff x.1 && !isReel x.1)
  let old := s.act.filter (fun x => isReel x.1)
  let s1 : State := { s with act := old.foldl (fun t x => tabSet t x.1 x.2) base }
  (List.range 4).foldl reelApply s1

/-- A change of `TRD_SYNC` takes effect (R395, R398). -/
def adoptSync (s0 s : State) : State :=
  let old := actR s0 .trdSync
  let new := actR s .trdSync
  let s1 : State := if fld new 1 0 = fld old 1 0 then s
    else { setF s .trdSync 5 4 0 with onAlt := false, lastMarker := s.fticks, lockedOnce := false, parentLost := false }
  if bit new 2 then { setF (setR s1 .trdIndex 0) .trdTick 17 0 0 with treadleHeld := true } else s1

/-- Stacks with a step above 0 mark the stroke that begins as throttled (R187). -/
def markThrottle (s : State) : State :=
  let hot := (List.range 12).filter (fun n => rfld s (.hbmTemp n) 10 8 != 0)
  setDetRunning { s with throttled := hot } (fun c => hot.any (fun n => pHasQ s (partOf c) (n / 3))) 8

/-- Contexts that come to an edge with 256 held records issue nothing from it on, unless this edge's postings leave fewer
(R433); `postRing` ends it. -/
def stopFull (s : State) : State :=
  (List.range 64).foldl (fun s c =>
    let r := getRing s c
    if 256 ≤ r.held.length then setRing s c { r with stop := true } else s) s

/-- The start and the end of a firmware stall at an edge (R347). -/
def fwEdge (s : State) (k : Word) : State :=
  match s.fw with
  | some f => if edgeReached k f.to' then fwDone s f else if k.toNat = f.from' then fwBegin s f else s
  | none => s

/-- Step 3 of an edge (R245): staged changes, edge-effective registers, mapping changes. -/
def edgeApply (s : State) : State × List (Nat × Word) :=
  let (s1, es) := stgEdge s (strokeNow s)
  let s2 := adoptRegs s1
  (remapAll s (adoptSync s s2), es)

/-- A stroke edge (R245): the index advances, overrun tests, a firmware stall begins or ends with the doorbells it held, staged changes, flips, postings, reel records, shipping, turn
starts and switches. -/
def edgeOnce (m : Monitor) (s : State) : State :=
  let k := strokeNow s + 1
  let n := k.toNat
  let s0 := setF (setR { s with fticks := s.fticks + 1 } .trdIndex k) .trdTick 17 0 0
  if !s.power.thermtripN then s
  else if onlyClock m s s0 then clockTick s0 m
  else
  let s1 := tickCounts (clockTick (countStalls s0) m)
  let s2 := testTurns (testTurns s1 s1.fticks true) n false
  let s3 := releaseBells (fwEdge s2 k)
  let (s3', es) := edgeApply s3
  let s4 := releaseBells s3'
  let (s5, gs) := flipAll (plyCount s4 n)
  let s6 := postAll (stopFull s5) (fun _ => true)
  let s7 := plyShip ((List.range 4).foldl (fun s p => if reelMode s p = 1 then reelEdge s p else s) s6) k es gs
  let s8 := markThrottle (switchAll s7)
  let s9 := startThreads (startThreads s8 n false) s8.fticks true
  pumpAll (beginSaves { s9 with edgeSeq := s9.seq })

/-- STROKE_EDGE (R245). Fine ticks of the stroke that no FINE_TICK has run pass first, with the same reading (DESIGN CHOICE, log 60). -/
def execStrokeEdge (m : Monitor) (s : State) : Res :=
  runPlain do
    can (treadleRuns s) "the treadle does not run"
    .ok (edgeOnce m (tickN m (strokeLen s - 1 - tickNow s) s))

/-- FINE_TICK (R246): the next fine-tick boundary, which may be a stroke edge. -/
def execFineTick (m : Monitor) (s : State) : Res :=
  runPlain do
    can (treadleRuns s) "the treadle does not run"
    .ok (if tickNow s + 1 < strokeLen s then tickOnce m s else edgeOnce m s)

/-! ## Coupled treadles (R395-R398) -/

/-- MODE of `TRD_SYNC` in force: 0 local, 1 root, 2 follower. -/
def syncMode (s : State) : Nat := fld (actR s .trdSync) 1 0

/-- LOCK of `TRD_SYNC`. -/
def syncLock (s : State) : Nat := rfld s .trdSync 5 4

/-- The port that a follower listens to. -/
def syncPort (s : State) : Nat := if s.onAlt then fld (actR s .trdSync) 31 28 else fld (actR s .trdSync) 27 24

/-- A marker leaves on every live port but one. -/
def spreadMarker (s : State) (m : Marker) (but : Nat) : State :=
  ((List.range 16).filter (fun n => portUp s n && n != but)).foldl (fun s n => toLink s (.marker n m)) s

/-- The root sends a marker, 64 fine ticks ahead of its boundary (R396). -/
def execTreadleMarkerSend (s : State) : Res :=
  runPlain do
    can (treadleRuns s && !s.failed && syncMode s == 1) "the device is not the treadle root"
    can (s.fticks % 64 == 0 && (s.fticks == 0 || decide (s.lastMarker < s.fticks))) "no marker is due"
    let n := strokeLen s
    let at' := tickNow s + 64
    let m : Marker := { index := strokeNow s + BitVec.ofNat 64 (at' / n), tick := at' % n, remain := 32000000 }
    .ok (spreadMarker { s with lastMarker := s.fticks } m 16)

/-- Fine ticks from now to a marker's boundary, as this device counts. -/
def ticksTo (s : State) (m : Marker) : Int :=
  ((m.index.toNat : Int) - (strokeNow s).toNat) * strokeLen s + m.tick - tickNow s

/-- The stroke index that this device will have `ps` picoseconds from now, to the nearest fine tick. -/
def ownIndex (s : State) (ps : Nat) : Nat :=
  ((strokeNow s).toNat * strokeLen s + tickNow s + (ps + 250000) / 500000) / strokeLen s

/-- A correction of at most 100 ns (R396). (DEDUCED, log 29.) -/
def clampPs (e : Int) : Int := max (-100000) (min 100000 e)

/-- A follower's first lock: index and phase in one step (R397). -/
def firstLock (s : State) (m : Marker) : State :=
  let n := strokeLen s
  let left := ceilDiv m.remain 500000
  let pos := (m.index.toNat * n + m.tick) - left
  let s1 := setF (setR s .trdIndex (BitVec.ofNat 64 (pos / n))) .trdTick 17 0 (pos % n)
  { setF s1 .trdSync 5 4 1 with phase := (m.remain : Int) - 500000 * left, lockedOnce := true }

/-- A follower receives a marker (R396, R397): from another port it is discarded, as is one of another index once locked, an index error;
from its parent it is forwarded and locks the treadle or corrects its phase. -/
def execTrdMarkerReceive (port : PortN) (m : Marker) (s : State) : Res :=
  runPlain do
    can (powered s && !s.failed && s.power.clkCore && portUp s port) "the port carries no traffic"
    if syncMode s ≠ 2 ∨ port.val ≠ syncPort s then .ok s
    else
      let delay := rfld s (.lnkPort port) 31 16 * 1000 / 16
      let m1 : Marker := { m with remain := m.remain - delay }
      let own := ownIndex s m1.remain == m1.index.toNat
      if syncLock s = 1 ∧ !own then
        .ok (eventG (setF { s with lastMarker := s.fticks, parentLost := false } .trdSync 5 4 2) 0x0301 [BitVec.ofNat 8 port])
      else
      let s1 : State := spreadMarker { s with lastMarker := s.fticks, parentLost := false } m1 port
      if !s.lockedOnce then .ok (firstLock s1 m1)
      else
        let e := (m1.remain : Int) - 500000 * ticksTo s1 m1
        if own then .ok { (if -100000 ≤ e ∧ e ≤ 100000 then setF s1 .trdSync 5 4 1 else s1) with phase := clampPs e }
        else .ok s1

/-- No marker for four intervals (R397): the follower listens to ALTPORT, or enters holdover, and says so once until a marker
comes (DESIGN CHOICE, log 148). -/
def execTrdParentTimeout (s : State) : Res :=
  runPlain do
    can (treadleRuns s && !s.failed && syncMode s == 2) "the device follows no parent"
    can (decide (s.lastMarker + 256 ≤ s.fticks)) "four intervals have not passed"
    let port := [BitVec.ofNat 8 (syncPort s)]
    if bit (actR s .trdSync) 3 && !s.onAlt then
      .ok (eventG { s with onAlt := true, lastMarker := s.fticks } 0x0302 port)
    else do
      can (!s.parentLost) "the loss has been reported"
      .ok (eventG (setF { s with parentLost := true } .trdSync 5 4 2) 0x0303 port)

/-- A rising edge of TRD_SYNC_IN starts an armed treadle (R398). -/
def execTrdSyncInEdge (s : State) : Res :=
  runPlain do
    can (powered s && !s.failed) "the device does not run"
    if s.treadleHeld then
      let s1 := setF s .trdSync 2 2 0
      .ok { setAct s1 .trdSync (setFld (actR s1 .trdSync) 2 2 0) with treadleHeld := false, power := { s1.power with syncOut := true } }
    else .ok s

/-! ## HBM temperatures (R186, R187) -/

/-- Entry threshold of a duty step, °C. -/
def dutyEntry : Nat → Nat
  | 0 => 0 | 1 => 85 | 2 => 90 | 3 => 95 | _ => 105

/-- The step that a temperature asks for. -/
def tempStep (c : Nat) : Nat := if c < 85 then 0 else if c < 90 then 1 else if c < 95 then 2 else if c < 105 then 3 else 4

/-- The next step: down in duty at once, up by one after a reading 3 °C below the present step's entry threshold. -/
def nextDuty (cur c : Nat) : Nat :=
  if cur ≤ tempStep c then tempStep c else if c + 3 < dutyEntry cur then cur - 1 else cur

/-- A stack's temperature is read (R186, R187). -/
def execHbmTempRead (stack : Fin 12) (celsius : BitVec 8) (s : State) : Res :=
  runPlain do
    can (powered s && !s.failed) "the device does not run"
    let r := Reg.hbmTemp stack
    let cur := rfld s r 10 8
    let k := nextDuty cur celsius.toNat
    let s1 := setF (setF s r 7 0 celsius.toNat) r 10 8 k
    let s2 := if k ≠ cur ∧ k ≠ 0 then setF s1 r 16 16 1 else s1
    let s3 := if k = 0 ∨ s2.throttled.contains stack.val then s2
      else setDetRunning { s2 with throttled := s2.throttled ++ [stack.val] } (fun c => pHasQ s (partOf c) (stack / 3)) 8
    .ok (if cur ≠ 4 ∧ k = 4 then eventG (setF s3 r 17 17 1) 0x0102 [BitVec.ofNat 8 stack, 4]
      else if cur = 4 then pumpAll s3 else s3)

end Sys2Proof.Machine
end

