-- ==== Sys2Proof/Machine/Deliver.lean ====
section
/-! DEFINITION. Replay (15, R363-R365): the records of a partition's reel are delivered. -/

namespace Sys2Proof.Machine

/-- The record at an offset of a ring, with its length. -/
def reelAt (s : State) (p off : Nat) : ReelRec × Nat :=
  let a := reelBase s p + off
  let w := rdN s (a + 8) 8
  let len := 64 * (w / 2 ^ 48 % 256)
  ({ ty := BitVec.ofNat 8 (w / 2 ^ 56), ctx := Fin.ofNat 64 (w / 2 ^ 42 % 64), stroke := rdN s a 8, tick := w / 2 ^ 24 % 2 ^ 18,
     payload := rd s (a + 16) (len - 16), seq := w % 2 ^ 24 }, len)

/-- Edge and fine tick at which a record is delivered (R364). -/
def deliverAt (s : State) (p : Nat) (r : ReelRec) : Word × Nat :=
  (getR s (.reelStart p) + BitVec.ofNat 64 r.stroke - BitVec.ofNat 64 (getReel s p).s0 - 1, r.tick)

/-- The Hokuras record of a command record. -/
def recOf (r : ReelRec) : Rec :=
  let w (k : Nat) : Word := BitVec.ofNat 64 (ofBytes ((r.payload.drop (8 * k)).take 8))
  { w0 := w 0, w1 := w 1, w2 := w 2, w3 := w 3, w4 := w 4, w5 := w 5, w6 := w 6, w7 := w 7 }

/-- What the delivery of a record does (R364). -/
def deliver (s : State) (p : Nat) (r : ReelRec) : Ex State :=
  match r.ty.toNat with
  | 1 => do
    let q := recOf r
    let fn := pFunc s (partOf r.ctx)
    can (hubUp s && (recCheck s fn r.ctx q != 0 || mayStart s r.ctx q)) "the command does not start"
    let (s1, n) := takeRec s r.ctx q
    .ok (decodeRec s1 fn r.ctx n q)
  | 2 | 3 | 5 => .ok (reelWant s p r)
  | 4 => do
    let a := ofBytes (r.payload.take 8)
    let n := ofBytes ((r.payload.drop 8).take 8)
    let s1 ← hostPages s a n true
    .ok (wr s1 a ((r.payload.drop 16).take n))
  | _ => .ok s

/-- REEL_LATE in every running context of a partition. -/
def markLate (s : State) (p : Nat) : State := setDetRunning s (fun c => partOf c == p) 64

/-- The record at HEAD is delivered, at its time or late (R364); after the last one replay is done (R365). -/
def execReelDeliver (p : PartN) (s : State) : Res :=
  runPlain do
    can (treadleRuns s && !s.failed && reelMode s p == 2) "no replay runs"
    let head := (getR s (.reelHead p)).toNat
    if (getReel s p).last ≤ head then
      can (getReel s p).wanted.isEmpty "a recorded input has not been compared"
      .ok (releaseBells (reelDone s p))
    else
      let (r, len) := reelAt s p head
      let (k, t) := deliverAt s p r
      let now := strokeNow s
      can (edgeReached now k.toNat && (k != now || decide (t ≤ tickNow s))) "the record's time has not come"
      let s1 := if (k ≠ now ∨ t < tickNow s) ∧ r.ty ≠ 6 then markLate s p else s
      let s2 := setR s1 (.reelHead p) (BitVec.ofNat 64 (head + max 64 len))
      let s3 ← deliver s2 p r
      .ok (releaseBells (if reelMode s3 p = 2 then reelEnd s3 p else s3))

/-! ## reel.mark (R303) -/

/-- reel.mark: a record, a comparison, or nothing while the reel is off. -/
def execReelMark (t : Tid) (f : Fields) (s : State) : Res :=
  runThread s t fun s th => do
    dec s (formOk f 0 0 [.scalar, .imm])
    let v ← src th f.sl0
    .ok (releaseBells (reelMark (stepOn (notReplayable s t) t th) (partOf t.ctx) t.ctx (wordBytes v ++ leBytes 2 f.sl1.toNat)))

end Sys2Proof.Machine
end

