-- ==== Sys2Proof/Machine/Swift.lean ====
section
/-! DEFINITION. Swift instructions (07, 12): convolution, pooling, patchify, pixel conversion, boxes, suppression. -/

namespace Sys2Proof.Machine

/-! ## Issue (R153) -/

/-- The swift instructions of a thread's quarter. -/
def swiftOps (s : State) (t : Tid) : List EngOp :=
  s.ops.filter (fun o => (enginesOf o.tag).contains 4 && quarterOf s o.t == quarterOf s t)

/-- A flyer stalls while its quarter's swift queue is full: one instruction runs and 16 wait (R153). -/
def swiftRoom (s : State) (t : Tid) : Ex Unit :=
  can (decide ((swiftOps s t).length ≤ 16)) "the quarter's swift queue is full (R153)"

/-- The swift engine runs one instruction at a time (R153): one that has begun is not overtaken, unless its context is not running
or it is a filler's, which a primary's abandons (R221). Of two that have begun, one while the other's context was suspended, the older
goes on first. -/
def maySwift (s : State) (o : EngOp) : Bool :=
  mayRun s o && (swiftOps s o.t).all (fun x => x.id == o.id || x.prog == 0 || !working s x.t ||
    (decide (0 < o.prog) && decide (o.id < x.id)) || ((getC s x.t.ctx).filler && !(getC s o.t.ctx).filler))

/-- A refusal at issue of an operand's shape (R155, R163): BAD_HANDLE. -/
def shape (s : State) (h : Handle) (b : Bool) : Ex Unit := needF s b (fHandle h.idx)

/-- The instruction issues, its output handle noted as written. -/
def issueSwift (s : State) (t : Tid) (th : Thread) (o : EngOp) (hs : List Handle) (out : Handle) : Ex State := do
  mayWrite s t.ctx out.idx
  .ok (issueOp (noteHandleWrite s t out.idx) t th { o with hs := hs, writes := [out.idx] })

/-- The handle number `i` of an instruction. -/
def EngOp.h (o : EngOp) (i : Nat) : Handle := (o.hs[i]?).getD noHandle

/-- Spans of single elements of a view. -/
def elemSpans (h : Handle) (ixs : List (List Nat)) : List (Nat × Nat) :=
  ixs.map (fun ix => (h.loc + h.off ix * h.ebits / 8, h.ebits / 8))

/-- The value of an element as a context sees it. -/
def valV (s : State) (c : Nat) (h : Handle) (ix : List Nat) : Val := ((fmtOf h.fmt).getD .kf32).value (elemV s c h ix)

/-- Codes are written to views as one unit, all their conversions counted first (R43, R44). -/
def storeUnits (s : State) (o : EngOp) (us : List (Handle × List (List Nat × Nat × Cnt))) : Ex State := do
  let s1 ← account s o.t.ctx (sumCnt (us.flatMap (fun u => u.2.map (fun e => e.2.2))))
  let s2 ← us.foldlM (fun s u => reachView s o.t u.1 (elemSpans u.1 (u.2.map (·.1))) (some (.op o.id))) s1
  .ok (us.foldl (fun s u => putElemsV s o.t.ctx u.1 (.op o.id) (u.2.map (fun e => (e.1, e.2.1)))) s2)
def storeUnit (s : State) (o : EngOp) (h : Handle) (es : List (List Nat × Nat × Cnt)) : Ex State := storeUnits s o [(h, es)]

/-- A unit of `total` is done. -/
def nextUnit (s : State) (o : EngOp) (total : Nat) : State :=
  let o1 := { o with prog := o.prog + 1 }
  if o1.prog < total then setOp s o1 else finishOp s o1 0

/-! ## Windows (R155, R156, R162) -/

/-- One dimension of a window operation: input extent, kernel, stride, dilation, padding before and after. -/
structure WDim where
  i : Nat
  k : Nat
  st : Nat
  dl : Nat
  pb : Nat
  pa : Nat
  deriving DecidableEq, Repr

/-- The output extent; 0 where it would be less than 1. -/
def WDim.out (d : WDim) : Nat :=
  if d.dl * (d.k - 1) + 1 ≤ d.i + d.pb + d.pa then (d.i + d.pb + d.pa - d.dl * (d.k - 1) - 1) / d.st + 1 else 0

/-- The input coordinate of an output position and a tap; none at a padding coordinate under zero padding (R156). -/
def WDim.coord (d : WDim) (rep : Bool) (o tap : Nat) : Option Nat :=
  let p := o * d.st + tap * d.dl
  if p < d.pb then (if rep then some 0 else none)
  else if d.i ≤ p - d.pb then (if rep then some (d.i - 1) else none)
  else some (p - d.pb)

/-- Coordinates of a position and a tap in T, H and W. -/
def coord3 (t h w : WDim) (rep : Bool) (o k : Nat × Nat × Nat) : Option (Nat × Nat × Nat) :=
  match t.coord rep o.1 k.1, h.coord rep o.2.1 k.2.1, w.coord rep o.2.2 k.2.2 with
  | some a, some b, some c => some (a, b, c)
  | _, _, _ => none

/-- A flat position in (T, H, W) order. -/
def pos3 (h w p : Nat) : Nat × Nat × Nat := (p / (h * w), p / w % h, p % w)

/-- Every triple below three bounds, the first outermost. -/
def grid3 (a b c : Nat) : List (Nat × Nat × Nat) := (List.range (a * b * c)).map (pos3 b c)

/-! ## Convolution (R154-R159) -/

/-- Fields of `sw.conv`'s extension. -/
def convK (f : Fields) : Nat × Nat × Nat := (fld f.ext 2 0 + 1, fld f.ext 5 3 + 1, fld f.ext 8 6 + 1)
def convS (f : Fields) : Nat × Nat × Nat := (fld f.ext 10 9 + 1, fld f.ext 12 11 + 1, fld f.ext 14 13 + 1)

/-- The three dimensions of a convolution from its words; their bits above the fields say nothing (DESIGN CHOICE, log 146). -/
def convDims (f : Fields) (inp : Handle) (pad dil : Word) : WDim × WDim × WDim :=
  let k := convK f
  let st := convS f
  (⟨inp.dim 0, k.1, st.1, fld dil 5 0 + 1, fld pad 8 0, fld pad 17 9⟩,
   ⟨inp.dim 1, k.2.1, st.2.1, fld dil 11 6 + 1, fld pad 26 18, fld pad 35 27⟩,
   ⟨inp.dim 2, k.2.2, st.2.2, fld dil 17 12 + 1, fld pad 44 36, fld pad 53 45⟩)

/-- Padding within R155's bounds. -/
def WDim.padOk (d : WDim) : Bool := decide (d.pb ≤ d.dl * (d.k - 1)) && decide (d.pa ≤ d.dl * (d.k - 1))

/-- sw.conv (R154, R155, R295). A padding, dilation or channel count that is refused names the input handle (DESIGN CHOICE, log 146). -/
def execSwConv (t : Tid) (f : Fields) (s : State) : Res :=
  runThread s t fun s th => do
    let bias := bit f.variant 2
    dec s (formOk f 7 0x7FFF [.handle, .handle, .handle, if bias then .handle else .unused, .group 2])
    let k := convK f
    dec s (decide (k.1 ≤ 7) && decide (k.2.1 ≤ 7) && decide (k.2.2 ≤ 7))
    swiftRoom s t
    let pad ← srcG th f.sl4 0
    let dil ← srcG th f.sl4 1
    let x ← getH s t.ctx f.sl0.toNat
    let w ← getH s t.ctx f.sl1.toNat
    let y ← getH s t.ctx f.sl2.toNat
    let b? : Option Handle ← if bias then do
        let b ← getH s t.ctx f.sl3.toNat
        .ok (some b)
      else .ok none
    needF s (x.fmt == 4 && w.fmt == 4 && (y.fmt == 4 || y.fmt == 5) && b?.all (fun b => b.fmt == 5)) fFormat
    shape s x (x.rank == 4)
    shape s w (w.rank == 5 && w.dim 0 == k.1 && w.dim 1 == k.2.1 && w.dim 2 == k.2.2 && w.dim 3 == x.dim 3)
    let ci := x.dim 3
    let co := w.dim 4
    shape s x (decide (ci ≤ 1024) && decide (co ≤ 1024) && (decide (ci ≤ 64) || decide (co ≤ 64)))
    let (dt, dh, dw) := convDims f x pad dil
    shape s x (dt.padOk && dh.padOk && dw.padOk)
    shape s y (y.rank == 4 && decide (1 ≤ dt.out) && decide (1 ≤ dh.out) && decide (1 ≤ dw.out) && y.dim 0 == dt.out &&
      y.dim 1 == dh.out && y.dim 2 == dw.out && y.dim 3 == co)
    b?.toList.forM (fun b => shape s b (b.rank == 1 && b.dim 0 == co))
    issueSwift s t th (newOp s t th .swConv f) ([x, w, y] ++ b?.toList) y

/-- The dimensions of an issued convolution. -/
def EngOp.conv (o : EngOp) : WDim × WDim × WDim := convDims o.f (o.h 0) (o.reg o.f.sl4) (o.reg (o.f.sl4 + 1))

/-- Whether the transform path serves it (R158). -/
def EngOp.winograd (o : EngOp) : Bool :=
  let (_, h, w) := o.conv
  h.k == 3 && w.k == 3 && h.st == 1 && w.st == 1 && h.dl == 1 && w.dl == 1 && !bit o.f.variant 1

/-- The bias of an output channel. -/
def EngOp.bias (o : EngOp) (s : State) (co : Nat) : Val :=
  if bit o.f.variant 2 then valV s o.t.ctx (o.h 3) [co] else .num 0

/-- Input of a coordinate and channel; 0 at zero padding. -/
def convIn (s : State) (o : EngOp) (p : Option (Nat × Nat × Nat)) (c : Nat) : Val := match p with
  | some q => valV s o.t.ctx (o.h 0) [q.1, q.2.1, q.2.2, c]
  | none => .num 0

/-- Sum of values. -/
def vsum (vs : List Val) : Val := vs.foldl (Val.map2 (· + ·)) (.num 0)

/-- One output of the direct path, exact (R157). -/
def directSum (s : State) (o : EngOp) (p : Nat × Nat × Nat) (co : Nat) : Val :=
  let (dt, dh, dw) := o.conv
  let rep := bit o.f.variant 0
  vsum ((grid3 dt.k dh.k dw.k).map (fun k =>
    let q := coord3 dt dh dw rep p k
    vsum ((List.range ((o.h 0).dim 3)).map (fun c =>
      Val.map2 (· * ·) (valV s o.t.ctx (o.h 1) [k.1, k.2.1, k.2.2, c, co]) (convIn s o q c)))))

/-- The transform matrices (R159). -/
def wBT : List (List ℚ) :=
  [[4, 0, -5, 0, 1, 0], [0, -4, -4, 1, 1, 0], [0, 4, -4, -1, 1, 0],
   [0, -2, -1, 2, 1, 0], [0, 2, -1, -2, 1, 0], [0, 4, 0, -5, 0, 1]]
def wG : List (List ℚ) :=
  let a := rn32 (1 / 6)
  let b := rn32 (1 / 12)
  let c := rn32 (1 / 24)
  [[1 / 4, 0, 0], [-a, -a, -a], [-a, a, -a], [c, b, a], [c, -b, a], [0, 0, 1]]
def wAT : List (List ℚ) :=
  [[1, 1, 1, 1, 1, 0], [0, 1, -1, 2, -2, 0], [0, 1, 1, 4, 4, 0], [0, 1, -1, 8, -8, 1]]

/-- A constant matrix times a matrix, and a matrix times the transpose of a constant one, each element rounded once. -/
def mulL (m : List (List ℚ)) (d : List (List Val)) : List (List Val) :=
  m.map (fun r => (List.range ((d.head?.getD []).length)).map (fun j =>
    (vsum (r.zipIdx.map (fun x => (((d[x.2]?).bind (fun y => y[j]?)).getD (.num 0)).map1 (x.1 * ·)))).rn))
def mulRExact (d : List (List Val)) (m : List (List ℚ)) : List (List Val) :=
  d.map (fun r => m.map (fun c => vsum ((r.zip c).map (fun x => x.1.map1 (· * x.2)))))
def mulR (d : List (List Val)) (m : List (List ℚ)) : List (List Val) := (mulRExact d m).map (fun r => r.map Val.rn)

/-- The 4 × 4 outputs of a transform tile for one output channel, before the store conversion (R159). -/
def winoTile (s : State) (o : EngOp) (t i j co : Nat) : List (List (Val × Cnt)) :=
  let (dt, dh, dw) := o.conv
  let rep := bit o.f.variant 0
  let ms := (List.range dt.k).flatMap (fun τ => (List.range ((o.h 0).dim 3)).map (fun c =>
    let d := (List.range 6).map (fun y => (List.range 6).map (fun x =>
      convIn s o (coord3 dt dh dw rep (t, 4 * i + y, 4 * j + x) (τ, 0, 0)) c))
    let v := mulR (mulL wBT d) wBT
    let g := (List.range 3).map (fun y => (List.range 3).map (fun x => valV s o.t.ctx (o.h 1) [τ, y, x, c, co]))
    let u := mulR (mulL wG g) wG
    (u.zip v).map (fun r => (r.1.zip r.2).map (fun e => Val.map2 (· * ·) e.1 e.2))))
  let m := (List.range 6).map (fun y => (List.range 6).map (fun x =>
    (vsum (ms.map (fun z => ((z[y]?).bind (fun r => r[x]?)).getD (.num 0)))).rn))
  (mulRExact (mulL wAT m) wAT).map (fun r => r.map (fun e => rnC (Val.map2 (· + ·) e (o.bias s co))))

/-- Indices that a window of outputs reads. -/
def convReads (o : EngOp) (ps : List (Nat × Nat × Nat)) (taps : List (Nat × Nat × Nat)) : List (List Nat) :=
  let (dt, dh, dw) := o.conv
  let qs := (ps.flatMap (fun p => taps.filterMap (coord3 dt dh dw (bit o.f.variant 0) p))).eraseDups
  qs.flatMap (fun q => (List.range ((o.h 0).dim 3)).map (fun c => [q.1, q.2.1, q.2.2, c]))

/-- One output group of a convolution: the output positions of a group of lanes on the direct path, a 4 × 4 tile on the
transform path (R43, R157, R159, DEDUCED, log 46). -/
def runConv (s : State) (o : EngOp) : Ex State := do
  can (maySwift s o) "an earlier instruction is not complete (R275)"
  let y := o.h 2
  let fmt := (fmtOf y.fmt).getD .kf32
  let (dt, dh, dw) := o.conv
  let co := y.dim 3
  let w := o.h 1
  let wIx := (grid3 dt.k dh.k dw.k).flatMap (fun k => (List.range (w.dim 3)).flatMap (fun c =>
    (List.range co).map (fun e => [k.1, k.2.1, k.2.2, c, e])))
  let s0 ← reachView s o.t w (elemSpans w wIx) none
  let s1 ← if bit o.f.variant 2 then reachView s0 o.t (o.h 3) (elemSpans (o.h 3) ((List.range co).map (fun c => [c]))) none
    else .ok s0
  if o.winograd then
    let th := ceilDiv dh.out 4
    let tw := ceilDiv dw.out 4
    let (t, i, j) := pos3 th tw o.prog
    let s2 ← reachView s1 o.t (o.h 0) (elemSpans (o.h 0) (convReads o
      ((List.range 6).flatMap (fun a => (List.range 6).map (fun b => (t, 4 * i + a, 4 * j + b))))
      ((List.range dt.k).map (fun τ => (τ, 0, 0))))) none
    let es := (List.range co).flatMap (fun c => (winoTile s2 o t i j c).zipIdx.flatMap (fun r => r.1.zipIdx.filterMap (fun e =>
      if 4 * i + r.2 < dh.out ∧ 4 * j + e.2 < dw.out then some ([t, 4 * i + r.2, 4 * j + e.2, c], storeVal fmt e.1) else none)))
    let s3 ← storeUnit s2 o y es
    .ok (nextUnit s3 o (dt.out * th * tw))
  else
    let per := if co ≤ 64 then 64 / co else 1
    let sub := ceilDiv co 64
    let first := o.prog / sub * per
    let total := dt.out * dh.out * dw.out
    let ps := (List.range (min per (total - first))).map (fun k => pos3 dh.out dw.out (first + k))
    let s2 ← reachView s1 o.t (o.h 0) (elemSpans (o.h 0) (convReads o ps (grid3 dt.k dh.k dw.k))) none
    let cs := (List.range (min 64 (co - 64 * (o.prog % sub)))).map (64 * (o.prog % sub) + ·)
    let es := ps.flatMap (fun p => cs.map (fun c =>
      ([p.1, p.2.1, p.2.2, c], storeVal fmt (rnC (Val.map2 (· + ·) (directSum s2 o p c) (o.bias s2 c))))))
    let s3 ← storeUnit s2 o y es
    .ok (nextUnit s3 o (ceilDiv total per * sub))

/-! ## Pooling (R162) -/

/-- The three dimensions of a pooling. -/
def poolDims (f : Fields) (inp : Handle) (pad : Word) : WDim × WDim × WDim :=
  (⟨inp.dim 0, fld f.ext 8 6 + 1, fld f.sl2 8 6 + 1, 1, fld pad 2 0, fld pad 5 3⟩,
   ⟨inp.dim 1, fld f.ext 5 3 + 1, fld f.sl2 5 3 + 1, 1, fld pad 8 6, fld pad 11 9⟩,
   ⟨inp.dim 2, fld f.ext 2 0 + 1, fld f.sl2 2 0 + 1, 1, fld pad 14 12, fld pad 17 15⟩)

/-- sw.pool (R162, R295). A padding that is refused is OPERAND (DESIGN CHOICE, log 146). -/
def execSwPool (t : Tid) (f : Fields) (s : State) : Res :=
  runThread s t fun s th => do
    dec s (formOk f 3 0x1FF [.handle, .handle, .imm, .scalar] && fld f.sl2 15 9 == 0)
    swiftRoom s t
    let pad ← src th f.sl3
    let x ← getH s t.ctx f.sl0.toNat
    let y ← getH s t.ctx f.sl1.toNat
    needF s ((x.fmt == 4 || x.fmt == 5) && (y.fmt == 4 || y.fmt == 5)) fFormat
    shape s x (x.rank == 4)
    let (dt, dh, dw) := poolDims f x pad
    needF s (dt.padOk && dh.padOk && dw.padOk) fOperand
    shape s y (y.rank == 4 && decide (1 ≤ dt.out) && decide (1 ≤ dh.out) && decide (1 ≤ dw.out) && y.dim 0 == dt.out &&
      y.dim 1 == dh.out && y.dim 2 == dw.out && y.dim 3 == x.dim 3)
    issueSwift s t th (newOp s t th .swPool f) [x, y] y

/-- The result of one window: its input elements, and the full window size. -/
def poolOne (avg excl : Bool) (xs : List Val) (size : Nat) : Val × Cnt :=
  if avg then
    let n := if excl then xs.length else size
    rnC ((vsum xs).map1 (· / (n : ℚ)))
  else match xs with
    | [] => (.num 0, {})
    | x :: r => (r.foldl (Val.map2 qmax) x, {})

/-- One output position of a pooling, every channel (R162, DEDUCED, log 46). -/
def runPool (s : State) (o : EngOp) : Ex State := do
  can (maySwift s o) "an earlier instruction is not complete (R275)"
  let x := o.h 0
  let y := o.h 1
  let (dt, dh, dw) := poolDims o.f x (o.reg o.f.sl3)
  let p := pos3 dh.out dw.out o.prog
  let qs := (grid3 dt.k dh.k dw.k).filterMap (coord3 dt dh dw false p)
  let s1 ← reachView s o.t x (elemSpans x (qs.flatMap (fun q =>
    (List.range (x.dim 3)).map (fun c => [q.1, q.2.1, q.2.2, c])))) none
  let es := (List.range (x.dim 3)).map (fun c =>
    let xs := qs.map (fun q => valV s1 o.t.ctx x [q.1, q.2.1, q.2.2, c])
    ([p.1, p.2.1, p.2.2, c], storeVal ((fmtOf y.fmt).getD .kf32)
      (poolOne (bit o.f.variant 0) (bit o.f.variant 1) xs (dt.k * dh.k * dw.k))))
  let s2 ← storeUnit s1 o y es
  .ok (nextUnit s2 o (dt.out * dh.out * dw.out))

/-! ## Patchify (R163) -/

/-- Patch sizes. -/
def patchP (f : Fields) : Nat × Nat × Nat := (fld f.ext 5 4 + 1, fld f.ext 3 2 + 1, fld f.ext 1 0 + 1)

/-- Token and feature of an element (R163). -/
def patchPlace (p : Nat × Nat × Nat) (h w c : Nat) (ix : Nat × Nat × Nat × Nat) : Nat × Nat :=
  let (pt, ph, pw) := p
  ((ix.1 / pt * (h / ph) + ix.2.1 / ph) * (w / pw) + ix.2.2.1 / pw,
   ((ix.1 % pt * ph + ix.2.1 % ph) * pw + ix.2.2.1 % pw) * c + ix.2.2.2)

/-- sw.patch (R163, R295). -/
def execSwPatch (t : Tid) (f : Fields) (s : State) : Res :=
  runThread s t fun s th => do
    dec s (formOk f 1 0x3F [.handle, .handle])
    swiftRoom s t
    let x ← getH s t.ctx f.sl0.toNat
    let y ← getH s t.ctx f.sl1.toNat
    needF s (x.fmt == y.fmt && (x.fmt == 4 || x.fmt == 5)) fFormat
    let inv := bit f.variant 0
    let img := if inv then y else x
    let tok := if inv then x else y
    let (pt, ph, pw) := patchP f
    shape s img (img.rank == 4 && img.dim 0 % pt == 0 && img.dim 1 % ph == 0 && img.dim 2 % pw == 0)
    shape s tok (tok.rank == 2 && tok.dim 0 == img.dim 0 / pt * (img.dim 1 / ph) * (img.dim 2 / pw) &&
      tok.dim 1 == pt * ph * pw * img.dim 3)
    issueSwift s t th (newOp s t th .swPatch f) [x, y] y

/-- sw.patch runs: every element copied bit for bit. -/
def runPatch (s : State) (o : EngOp) : Ex State := do
  can (maySwift s o) "an earlier instruction is not complete (R275)"
  let inv := bit o.f.variant 0
  let x := o.h 0
  let y := o.h 1
  let img := if inv then y else x
  let ixs := (List.range (img.dim 0)).flatMap (fun a => (List.range (img.dim 1)).flatMap (fun b =>
    (List.range (img.dim 2)).flatMap (fun c => (List.range (img.dim 3)).map (fun d => (a, b, c, d)))))
  let pairs := ixs.map (fun i =>
    let p := patchPlace (patchP o.f) (img.dim 1) (img.dim 2) (img.dim 3) i
    let a := [i.1, i.2.1, i.2.2.1, i.2.2.2]
    let b := [p.1, p.2]
    if inv then (b, a) else (a, b))
  let s1 ← reachView s o.t x (elemSpans x (pairs.map (·.1))) none
  let s2 ← storeUnit s1 o y (pairs.map (fun p => (p.2, elemV s1 o.t.ctx x p.1, {})))
  .ok (finishOp s2 o 0)

/-! ## Pixel conversion (R164) -/

/-- sw.pix (R164, R295). The planes are one handle of rank 3 (DESIGN CHOICE, log 147). -/
def execSwPix (t : Tid) (f : Fields) (s : State) : Res :=
  runThread s t fun s th => do
    dec s (formOk f 3 0 [.handle, .handle, .handle, .handle, .scalar])
    swiftRoom s t
    let w ← src th f.sl4
    let y ← getH s t.ctx f.sl0.toNat
    let cb ← getH s t.ctx f.sl1.toNat
    let cr ← getH s t.ctx f.sl2.toNat
    let k ← getH s t.ctx f.sl3.toNat
    needF s (y.fmt == 8 && cb.fmt == 8 && cr.fmt == 8 && k.fmt == 4) fFormat
    shape s y (y.rank == 2 && y.dim 0 % 2 == 0 && y.dim 1 % 2 == 0)
    shape s cb (cb.rank == 2 && 2 * cb.dim 0 == y.dim 0 && 2 * cb.dim 1 == y.dim 1)
    shape s cr (cr.rank == 2 && 2 * cr.dim 0 == y.dim 0 && 2 * cr.dim 1 == y.dim 1)
    shape s k (k.rank == 3 && k.dim 0 == 3 && k.dim 1 == y.dim 0 && k.dim 2 == y.dim 1)
    let a := localOf w
    needF s (isLocal s w && a % 4 == 0) (fAddr w)
    let (s, bs) ← readA s t a 88
    let par := (List.range 22).map (fun i => BitVec.ofNat 192 (ofBytes ((bs.drop (4 * i)).take 4)))
    let o := { newOp s t th .swPix f with acc := [⟨0, 0, [par]⟩] }
    if bit f.variant 0 then do
      mayWrite s t.ctx y.idx
      mayWrite s t.ctx cb.idx
      mayWrite s t.ctx cr.idx
      let s1 := [y, cb, cr].foldl (fun s h => noteHandleWrite s t h.idx) s
      .ok (issueOp s1 t th { o with hs := [y, cb, cr, k], writes := [y.idx, cb.idx, cr.idx] })
    else issueSwift s t th o [y, cb, cr, k] k

/-- Parameter `i` of a pixel conversion. -/
def EngOp.pix (o : EngOp) (i : Nat) : Val := match o.acc with
  | a :: _ => kf32Val ((((a.q.head?.getD [])[i]?).getD 0).toNat)
  | [] => .num 0

/-- A sample rounded once to KF32, with what it and the samples it is formed from count. -/
def pixRn (v : Val) (ks : List Cnt) : Val × Cnt := let r := rnC v; (r.1, sumCnt (r.2 :: ks))

/-- Row `r` of the matrix whose first parameter is `b`, applied to three samples with one rounding. -/
def pixRow (o : EngOp) (b r : Nat) (xs : List (Val × Cnt)) : Val × Cnt :=
  pixRn (vsum (xs.zipIdx.map (fun x => Val.map2 (· * ·) (o.pix (b + 3 * r + x.2)) x.1.1))) (xs.map (·.2))

/-- A chroma sample at luma place (r, c), from its plane of `h` rows and `w` columns (R164, step 2). -/
def upChroma (cosited : Bool) (h w : Nat) (g : Nat → Nat → Val × Cnt) (r c : Nat) : Val × Cnt :=
  if cosited then
    let i := r / 2
    let j := c / 2
    let i' := if r % 2 = 0 then i - 1 else min (i + 1) (h - 1)
    let j' := if c % 2 = 0 then j else min (j + 1) (w - 1)
    let horiz (a : Nat) : Val := Val.map2 (fun p q => (p + q) / 2) (g a j).1 (g a j').1
    pixRn (Val.map2 (fun p q => p * (3 / 4) + q / 4) (horiz i) (horiz i'))
      (([(i, j), (i, j'), (i', j), (i', j')].eraseDups).map (fun p => (g p.1 p.2).2))
  else g (r / 2) (c / 2)

/-- A chroma sample from luma-resolution values (R164, step 2 of the other direction). -/
def downChroma (cosited : Bool) (w : Nat) (g : Nat → Nat → Val × Cnt) (i j : Nat) : Val × Cnt :=
  let rs := [2 * i, 2 * i + 1]
  if cosited then
    let cs := [2 * j - 1, 2 * j, min (2 * j + 1) (w - 1)]
    let row (r : Nat) : Val :=
      vsum [(g r (2 * j - 1)).1.map1 (· / 4), (g r (2 * j)).1.map1 (· / 2), (g r (min (2 * j + 1) (w - 1))).1.map1 (· / 4)]
    pixRn (Val.map2 (fun p q => (p + q) / 2) (row (2 * i)) (row (2 * i + 1)))
      (rs.flatMap (fun r => cs.eraseDups.map (fun k => (g r k).2)))
  else
    let xs := rs.flatMap (fun r => [g r (2 * j), g r (2 * j + 1)])
    pixRn ((vsum (xs.map (·.1))).map1 (· / 4)) (xs.map (·.2))

/-- x / g + o as a U10 code (R164, step 3). 0/0 is poison (R22); another quotient by 0 is ±maximum, of KF32, and counts as a
saturation (R23; DEDUCED, log 48). -/
def pixQuot (x g o : Val) : Nat × Cnt :=
  match x, g with
  | .num a, .num 0 =>
    if a = 0 then
      let r := Fmt.u10.write .poison
      (r.1, r.2.add { new := 1 })
    else
      let r := Fmt.u10.write (Val.map2 (· + ·) (.num (if a < 0 then -kf32Max else kf32Max)) o)
      (r.1, r.2.add { sat := 1 })
  | _, _ => Fmt.u10.write (Val.map2 (· + ·) (Val.map2 (· / ·) x g) o)

/-- The code of a sample, with one count of each kind at most for the element (R41). -/
def pixCode (x : Val × Cnt) (g o : Val) : Nat × Cnt := let r := pixQuot x.1 g o; (r.1, (x.2.add r.2).once)

/-- sw.pix runs. -/
def runPix (s : State) (o : EngOp) : Ex State := do
  can (maySwift s o) "an earlier instruction is not complete (R275)"
  let y := o.h 0
  let cb := o.h 1
  let cr := o.h 2
  let k := o.h 3
  let c := o.t.ctx.val
  let cos := bit o.f.variant 1
  let hh := y.dim 0
  let ww := y.dim 1
  let pl (h w : Nat) : List (List Nat) := (List.range h).flatMap (fun r => (List.range w).map (fun q => [r, q]))
  let full := (List.range 3).flatMap (fun p => (pl hh ww).map (fun x => p :: x))
  if bit o.f.variant 0 then
    let s1 ← reachView s o.t k (elemSpans k full) none
    let m (r : Nat) (i j : Nat) : Val × Cnt := pixRow o 13 r ((List.range 3).map (fun p => (valV s1 c k [p, i, j], {})))
    let put (h : Handle) (g off : Nat) (v : Nat → Nat → Val × Cnt) : List (List Nat × Nat × Cnt) :=
      (pl (h.dim 0) (h.dim 1)).map (fun x => match x with
        | [i, j] => (x, pixCode (v i j) (o.pix g) (o.pix off))
        | _ => (x, 0, {}))
    let s2 ← storeUnits s1 o [(y, put y 2 0 (m 0)), (cb, put cb 3 1 (downChroma cos ww (m 1))),
      (cr, put cr 3 1 (downChroma cos ww (m 2)))]
    .ok (finishOp s2 o 0)
  else
    let s1 ← reachView s o.t y (elemSpans y (pl hh ww)) none
    let s2 ← reachView s1 o.t cb (elemSpans cb (pl (hh / 2) (ww / 2))) none
    let s3 ← reachView s2 o.t cr (elemSpans cr (pl (hh / 2) (ww / 2))) none
    let sc (h : Handle) (off g i j : Nat) : Val × Cnt :=
      rnC (Val.map2 (· * ·) (Val.map2 (· - ·) (valV s3 c h [i, j]) (o.pix off)) (o.pix g))
    let px (i j : Nat) : List (Val × Cnt) :=
      [sc y 0 2 i j, upChroma cos (hh / 2) (ww / 2) (sc cb 1 3) i j, upChroma cos (hh / 2) (ww / 2) (sc cr 1 3) i j]
    let es := full.map (fun x => match x with
      | [p, i, j] => (x, storeVal .kf16 (pixRow o 4 p (px i j)))
      | _ => (x, 0, {}))
    let s4 ← storeUnit s3 o k es
    .ok (finishOp s4 o 0)

/-! ## Boxes (R165) -/

/-- sw.box (R165, R295). -/
def execSwBox (t : Tid) (f : Fields) (s : State) : Res :=
  runThread s t fun s th => do
    dec s (formOk f 1 0 [.handle, .handle, .handle, .group 3])
    swiftRoom s t
    for i in [0, 1, 2] do
      let _ ← srcG th f.sl3 i
    let a ← getH s t.ctx f.sl0.toNat
    let d ← getH s t.ctx f.sl1.toNat
    let y ← getH s t.ctx f.sl2.toNat
    needF s (a.fmt == 5 && d.fmt == 5 && y.fmt == 5) fFormat
    shape s a (a.cols == 4 && decide (a.rows ≤ 65536))
    shape s d (d.cols == 4 && d.rows == a.rows)
    shape s y (y.cols == 4 && y.rows == a.rows)
    issueSwift s t th (newOp s t th .swBox f) [a, d, y] y

/-- Centre and size along one axis (R165): rn(c + d·s) and rn(s · exp2(rn(min(e, Δ) · l2e))). -/
def boxAxis (c sz d e lim : Val) : Val × Val × Cnt :=
  let p := rnC (Val.map2 (· + ·) c (Val.map2 (· * ·) d sz))
  let z := rnC ((Val.map2 qmin e lim).map1 (· * l2e))
  let x := distaff .exp2 z.1
  let w := rnC (Val.map2 (· * ·) sz x.1)
  (p.1, w.1, ((p.2.add z.2).add (x.2.add w.2)).once)

/-- The two edges along one axis, clamped to the bound if given. -/
def boxEdges (p w : Val) (bound : Option Val) : (Val × Cnt) × (Val × Cnt) :=
  let cl (x : Val × Cnt) : Val × Cnt := match bound with
    | some b => (Val.map2 qmin (Val.map2 qmax x.1 (.num 0)) b, x.2)
    | none => x
  (cl (rnC (Val.map2 (fun a b => a - b / 2) p w)), cl (rnC (Val.map2 (fun a b => a + b / 2) p w)))

/-- sw.box runs. -/
def runBox (s : State) (o : EngOp) : Ex State := do
  can (maySwift s o) "an earlier instruction is not complete (R275)"
  let a := o.h 0
  let d := o.h 1
  let y := o.h 2
  let all (h : Handle) : List (List Nat) := (List.range h.rows).flatMap (fun r => (List.range 4).map (fun i => h.ix r i))
  let s1 ← reachView s o.t a (elemSpans a (all a)) none
  let s2 ← reachView s1 o.t d (elemSpans d (all d)) none
  let c := o.t.ctx.val
  let lim := scalarVal (o.reg o.f.sl3)
  let bnd (i : BitVec 16) : Option Val := if bit o.f.variant 0 then some (scalarVal (o.reg (o.f.sl3 + i))) else none
  let es := (List.range a.rows).flatMap (fun r =>
    let va (i : Nat) := valV s2 c a (a.ix r i)
    let vd (i : Nat) := valV s2 c d (d.ix r i)
    let x := boxAxis (va 0) (va 2) (vd 0) (vd 2) lim
    let z := boxAxis (va 1) (va 3) (vd 1) (vd 3) lim
    let ex := boxEdges x.1 x.2.1 (bnd 1)
    let ez := boxEdges z.1 z.2.1 (bnd 2)
    [(y.ix r 0, storeVal .kf32 (ex.1.1, ex.1.2.add x.2.2)), (y.ix r 1, storeVal .kf32 (ez.1.1, ez.1.2.add z.2.2)),
     (y.ix r 2, storeVal .kf32 (ex.2.1, ex.2.2)), (y.ix r 3, storeVal .kf32 (ez.2.1, ez.2.2))])
  let s3 ← storeUnit s2 o y es
  .ok (finishOp s3 o 0)

/-! ## Suppression (R166, R167) -/

/-- sw.nms (R166, R167, R295). (DEDUCED, log 47.) -/
def execSwNms (t : Tid) (f : Fields) (s : State) : Res :=
  runThread s t fun s th => do
    let cls := bit f.variant 0
    dec s (formOk f 1 0 [.handle, .handle, if cls then .handle else .unused, .handle, .group 3])
    swiftRoom s t
    let wt ← srcG th f.sl4 0
    let wf ← srcG th f.sl4 1
    let wk ← srcG th f.sl4 2
    let b ← getH s t.ctx f.sl0.toNat
    let sc ← getH s t.ctx f.sl1.toNat
    let y ← getH s t.ctx f.sl3.toNat
    let k? : Option Handle ← if cls then do
        let k ← getH s t.ctx f.sl2.toNat
        .ok (some k)
      else .ok none
    needF s (b.fmt == 5 && sc.fmt == 5 && y.fmt == 9 && k?.all (fun k => k.fmt == 10)) fFormat
    let n := b.rows
    needF s (decide (n ≤ 4096) && decide (1 ≤ wk.toNat) && decide (wk.toNat ≤ 4096) && !(scalarVal wf).isPoison &&
      (match scalarVal wt with
       | .num q => decide (0 ≤ q) && decide (q ≤ 1)
       | .poison => false)) fOperand
    shape s b (b.cols == 4)
    shape s sc (sc.rows * sc.cols == n)
    k?.toList.forM (fun k => shape s k (k.rows * k.cols == n))
    shape s y (decide (roundUp (4 + 2 * min n wk.toNat) 64 ≤ y.hi - y.lo))
    issueSwift s t th (newOp s t th .swNms f) ([b, sc, y] ++ k?.toList) y

/-- A candidate: index, box, score, class. -/
structure Cand where
  idx : Nat
  x1 : ℚ
  y1 : ℚ
  x2 : ℚ
  y2 : ℚ
  score : ℚ
  cls : Nat

/-- The exact area of a box, and of two boxes' overlap (R166). -/
def areaOf (x1 y1 x2 y2 : ℚ) : ℚ := qmax 0 (x2 - x1) * qmax 0 (y2 - y1)
def Cand.area (a : Cand) : ℚ := areaOf a.x1 a.y1 a.x2 a.y2
def interOf (a b : Cand) : ℚ := areaOf (qmax a.x1 b.x1) (qmax a.y1 b.y1) (qmin a.x2 b.x2) (qmin a.y2 b.y2)

/-- Whether a kept box suppresses a candidate. -/
def suppresses (th : ℚ) (cls : Bool) (k a : Cand) : Bool :=
  let i := interOf k a
  let u := k.area + a.area - i
  (!cls || k.cls == a.cls) && decide (0 < u) && decide (th * u < i)

/-- The kept candidates in rank order, and whether the limit left any unvisited (R166, R167). -/
def nmsKeep (th : ℚ) (cls : Bool) (lim : Nat) : List Cand → List Cand → List Cand × Bool
  | kept, [] => (kept, false)
  | kept, a :: r =>
    if lim ≤ kept.length then (kept, true)
    else if kept.any (fun k => suppresses th cls k a) then nmsKeep th cls lim kept r
    else nmsKeep th cls lim (kept ++ [a]) r

/-- sw.nms runs. -/
def runNms (s : State) (o : EngOp) : Ex State := do
  can (maySwift s o) "an earlier instruction is not complete (R275)"
  let b := o.h 0
  let sc := o.h 1
  let y := o.h 2
  let cls := bit o.f.variant 0
  let c := o.t.ctx.val
  let n := b.rows
  let flat (h : Handle) (i : Nat) : List Nat := h.ix (i / h.cols) (i % h.cols)
  let s1 ← reachView s o.t b (elemSpans b ((List.range n).flatMap (fun r => (List.range 4).map (fun i => b.ix r i)))) none
  let s2 ← reachView s1 o.t sc (elemSpans sc ((List.range n).map (flat sc))) none
  let s3 ← if cls then reachView s2 o.t (o.h 3) (elemSpans (o.h 3) ((List.range n).map (flat (o.h 3)))) none else .ok s2
  let floor := (scalarVal (o.reg (o.f.sl4 + 1))).get
  let th := (scalarVal (o.reg o.f.sl4)).get
  let all := (List.range n).map (fun i =>
    let v (k : Nat) := valV s3 c b (b.ix i k)
    let q := valV s3 c sc (flat sc i)
    if (v 0).isPoison || (v 1).isPoison || (v 2).isPoison || (v 3).isPoison || q.isPoison then none
    else some ⟨i, (v 0).get, (v 1).get, (v 2).get, (v 3).get, q.get, if cls then elemV s3 c (o.h 3) (flat (o.h 3) i) else 0⟩)
  let live := (all.filterMap id).filter (fun a => decide (floor ≤ a.score))
  let ranked := live.mergeSort (fun a b => decide (b.score < a.score) || (a.score == b.score && decide (a.idx ≤ b.idx)))
  let (kept, trunc) := nmsKeep th cls (o.reg (o.f.sl4 + 2)).toNat [] ranked
  let s4 ← account s3 c { cons := (all.filter (·.isNone)).length }
  let bs := leBytes 4 (kept.length + (if trunc then 8192 else 0)) ++ kept.flatMap (fun a => leBytes 2 a.idx)
  let out := bs ++ List.replicate (roundUp bs.length 64 - bs.length) 0
  let s5 ← reachView s4 o.t y [(y.lo, out.length)] (some (.op o.id))
  .ok (finishOp (writeV s5 c y.idx y.lo out (.op o.id)) o 0)

end Sys2Proof.Machine
end

