-- ==== Sys2Proof/Machine/EngineComplete.lean ====
section
/-! DEFINITION. An engine delivers the next unit of an instruction that it runs (R43, R275). -/

namespace Sys2Proof.Machine

/-- The next unit of an engine instruction. -/
def runOp (s : State) (o : EngOp) : Ex State :=
  match o.tag with
  | .mma => runMma s o
  | .qnt => runQnt s o
  | .vadd | .vmul | .vfma | .vmax | .vmin => runElem s o
  | .vred => runVred s o
  | .vcvt | .vfn => runUnary s o
  | .vepi => runVepi s o
  | .vrot => runVrot s o
  | .vstat => runVstat s o
  | .vnorm => runVnorm s o
  | .smScore => runScore s o
  | .smAcc => runAcc s o
  | .smRecomp => runRecomp s o
  | .smEnd => runEnd s o
  | .cardBuild => runBuild s o
  | .cardSel => runSel s o
  | .swConv => runConv s o
  | .swPool => runPool s o
  | .swBox => runBox s o
  | .swNms => runNms s o
  | .swPatch => runPatch s o
  | .swPix => runPix s o
  | .vrng => runVrng s o

/-! ## Filler work (R221) -/

/-- The primary instructions that share an engine with a filler's: of its spindle for the array and the lanes, of its quarter for the
carding unit and the swift engine. -/
def primaryOps (s : State) (o : EngOp) : List EngOp :=
  s.ops.filter (fun x => !(getC s x.t.ctx).filler && working s x.t && (enginesOf o.tag).any (fun e =>
    e != 1 && (enginesOf x.tag).contains e &&
    (if e = 0 ∨ e = 2 then x.t.lsp == o.t.lsp && (partners s o.t.ctx).contains x.t.ctx.val
     else quarterOf s x.t == quarterOf s o.t)))

/-- Whether a primary instruction holds state of its engine, or has a part ready to use it. -/
def wantsEngine (s : State) (x : EngOp) : Bool :=
  (x.tag == .mma && !(x.acc.isEmpty && x.out.isEmpty)) ||
  (match runOp s x with
   | .error (.no _) => false
   | _ => true)

/-- Whether the primary thread of a filler's spindle cannot issue to the lanes before a moment that is known: it has halted, has not
been launched, or waits at `turn`, and none of its instructions is on the lanes. That the filler's instruction ends before that moment
is timing, which the model leaves out (log 9). -/
def lanesFree (s : State) (o : EngOp) : Bool :=
  let pt : Tid := { o.t with ctx := (getC s o.t.ctx).primary }
  (!present s pt || (match getT? s pt with
    | none => true
    | some th => th.halted || (match th.block with
      | .turn _ => true
      | _ => false))) &&
  (primaryOps s o).isEmpty

/-- Whether an engine takes a filler's instruction: no primary is held up by it, and a vector instruction starts only where the lanes
are free till a moment that is known. -/
def fillerMay (s : State) (o : EngOp) : Bool :=
  if (enginesOf o.tag).contains 2 then decide (0 < o.prog) || lanesFree s o
  else (primaryOps s o).all (fun x => !wantsEngine s x)

/-- The tiles that wait at a producer go to its consumer, and what that hands off to the next (R287). -/
def handAll : Nat → State → Nat → Ex State
  | 0, s, _ => .ok s
  | n + 1, s, id =>
    match s.ops.find? (fun x => x.id == id) with
    | none => .ok s
    | some p =>
      if p.out.isEmpty then .ok s
      else do
        let c ← the (s.ops.find? (fun x => x.src == some id)) "the hand-off's consumer has not issued (R221)"
        can (fillerMay s c) "the consumer's engine takes no filler work (R221)"
        let s1 ← runOp s c
        let s2 ← handAll n s1 c.id
        handAll n s2 id

/-- One step of a filler's `mma`: the passes and the readout, or the hand-off to its consumer, with its slots freed at the end
(R221). -/
def fillerMma (s : State) (o : EngOp) : Ex State := do
  can (mayPass s o) "an earlier instruction is not complete (R275)"
  let ps := mmaPasses o
  let p ← the (ps[o.prog]?) "every pass has run"
  let (s1, o1) ← stepPasses p.i (ps.drop o.prog) s o
  let s2 ← if o.binding.hand then handAll 8 s1 o.id else readAll 4 s1 o.id
  .ok (freeStep s2 o1 o.prog)

/-! ## Uncorrectable words in a spindle's SRAM (R452) -/

/-- What an instruction reads of its spindle's SRAM: whether of vector scratch, offset, bytes. -/
def sramReads (s : State) (o : EngOp) : List (Bool × Nat × Nat) :=
  let slot (x : Stream) (k : Nat) : Bool × Nat × Nat := (x.scratch, x.slotOff k, x.size)
  o.rds.map (fun r => (true, r.1, r.2)) ++
  o.claims.flatMap (fun k => match stream? s o.t k.sid with
    | some x => if k.fills then [] else if o.tag == .mma then (x.slots.filterMap id).map (fun t => slot x (x.slotNo t)) else [slot x (x.slotNo k.tile)]
    | none => []) ++
  (if o.tag == .mma then match stream? s o.t o.binding.bstr with
    | some x => if x.kind == .gather then (boundEntry x o.binding).toList.map (fun e => slot x e.slot) else []
    | none => []
   else [])

/-- None of it is uncorrectable: MEM_UE where it is, with the address of its place in the save area (R452, DEDUCED, log 21). -/
def sramClean (s : State) (o : EngOp) : Ex Unit :=
  match (sramReads s o).find? (fun r => sramHurt s o.t r.1 r.2.1 r.2.2) with
  | some r => .error (.fault s (fMemUe (gAddr s (imageAt s o.t.ctx o.t.lsp + (if r.1 then imageScratch else 0) + r.2.1))))
  | none => .ok ()

/-- The next unit of a thread's instruction: a filler's waits for its engine (R221). -/
def runUnit (s : State) (o : EngOp) : Ex State :=
  if (getC s o.t.ctx).filler then do
    can (fillerMay s o) "the engine takes no filler work (R221)"
    if o.tag == .mma then fillerMma s o else runOp s o
  else runOp s o

/-- An engine instruction of a thread delivers its next unit; with the last one it is complete (R275). Its fault names
its own word (R43). (DEDUCED, log 24.) -/
def execEngineComplete (t : Tid) (id : Nat) (s : State) : Res :=
  let found := s.ops.find? (fun o => o.id == id && o.t == t)
  runEvent (do
    can (powered s && !s.failed && working s t) "the context does not run"
    let o ← the found "no such instruction is in the engines"
    sramClean s o
    runUnit s o) t (match found with
      | some o => o.pc
      | none => 0)

end Sys2Proof.Machine
end

