-- ==== Sys2Proof/Machine/Errors.lean ====
section
/-! DEFINITION. Hardware errors (20, R451-R458): corrected errors and their windows, uncorrectable errors, the hub watchdog. -/

namespace Sys2Proof.Machine

/-! ## Corrected errors (R454, R460, R461) -/

/-- A corrected error of a unit (R451, R454): its counter and its window count; at THRESH the unit is retired. A burst of a
lane counts so too; a port counts its retrainings (`retrain`). -/
def execCorrectedError (u : UnitId) (s : State) : Res :=
  runPlain do
    can (powered s && !s.failed) "the device does not run"
    can (decide (u.idx < unitCount u.ty)) "no such unit"
    can (u.ty.val != 3) "the retrainings of a port are its own commands"
    let (s1, full) := countError s u
    .ok (if full then retireUnit s1 u.ty u.idx 0 else s1)

/-- A unit's window closes (R454). -/
def execRetireWindowClose (u : UnitId) (s : State) : Res :=
  runPlain do
    can (powered s && !s.failed) "the device does not run"
    let w ← the (s.windows.find? (fun x => x.unit == u)) "the unit has no open window"
    can (decide (w.opened + windowTicks s u.ty ≤ s.fticks)) "the window has not ended"
    .ok { s with windows := s.windows.filter (fun x => x.unit != u) }

/-! ## Uncorrectable memory words (R452) -/

/-- An uncorrectable word is detected (R452): it is marked, reported once, noted for the splices whose shadows hold it
(R311), and its channel is retired (R454). -/
def markWord (s : State) (a : Nat) (l : Loc) : State :=
  let s1 : State := { s with
    ue := s.ue ++ [a / 32]
    splices := s.splices.map (fun x =>
      if x.decls.any (fun d => overlaps d.shadow d.len (a / 32 * 32) 32) then { x with hurt := true } else x) }
  let s2 := eventG s1 0x0100 ([BitVec.ofNat 8 l.ty, 0] ++ leBytes 2 l.idx ++ List.replicate 4 0 ++ leBytes 8 (a / 32 * 32))
  retireUnit s2 l.ty l.idx 1

/-! ## Uncorrectable errors (R451) -/

/-- The partition of a quarter is reset for an uncorrectable error (R348, R350). -/
def resetQuarterPart (s : State) (q : Nat) : State :=
  match partOfQ s q with
  | some p => if s.resetting.any (fun x => x.1 == p) then s else beginReset s p 0
  | none => s

/-- An uncorrectable error (R451-R453, R458). (DEDUCED, log 88.) -/
def execUncorrectableError (e : UErr) (s : State) : Res :=
  runPlain do
    can (powered s && !s.failed) "the device does not run"
    match e with
    | .spindle i => .ok (retireUnit (resetQuarterPart s (i / 16)) 5 i 1)
    | .quarterUnit q => .ok (retireUnit (resetQuarterPart s q) 6 q 1)
    | .creelData q a => .ok { s with creel := (s.creel.map (fun k => if k.1 / 512 == q.val then
        (k.1, k.2.filter (fun w => w.2 != a.toNat / 4096)) else k)).filter (fun k => !k.2.isEmpty) }
    | .creelTags q => .ok { s with creel := s.creel.filter (fun k => k.1 / 512 != q.val) }
    | .codecSram n => .ok (retireUnit (tearJob s n) 4 n 1)
    | .memWord a =>
      let l ← the (locate s a.toNat) "no byte of HBM or of the board tier lies there"
      can (!s.ue.contains (a.toNat / 32)) "the word is known to be uncorrectable"
      .ok (markWord s a.toNat l)
    | .hub => .ok (deviceFail s)
    | .pcie => .ok (toHost s (.aer .link))

/-- The hub watchdog expires (R458): the hub controller restarts, or, within 1 s (2,000,000 fine ticks) of the last expiry, the device
fails. (DEDUCED, log 89.) -/
def execWatchdogExpiry (s : State) : Res :=
  runPlain do
    can (powered s && !s.failed) "the device does not run"
    let again := s.lastExpiry.any (fun k => decide (s.fticks ≤ k + 2000000))
    let s1 : State := { s with lastExpiry := some s.fticks }
    .ok (if again then deviceFail s1 else s1)

end Sys2Proof.Machine
end

