-- ==== Sys2Proof/Machine/Halt.lean ====
section
/-! DEFINITION. halt (11). -/

namespace Sys2Proof.Machine

/-- halt (R259): the context stops once every thread has halted and its work is complete. -/
def execHalt (t : Tid) (f : Fields) (s : State) : Res :=
  runThread s t fun s th => do
    dec s (formOk f 0 0 [])
    noProducer s th
    needF s (s.splices.all (fun x => x.opener != t || x.st == .passed)) fHaltOpen
    .ok (settle (setT { s with seq := s.seq + 1 } t { th with halted := true }) t.ctx)

end Sys2Proof.Machine
end

