-- ==== Sys2Proof/Machine/Inbound.lean ====
section
/-! DEFINITION. Messages that arrive for this device over the Skein (16, R384-R393): requests, tiles, responses. -/

namespace Sys2Proof.Machine

/-- A message's header as the reel holds it: HOPS and SEG are 0 (R382). -/
def reelHdr (m : Msg) : List Byte := headerBytes { m with hops := 0, seg := 0 }

/-- A message's header is recorded or compared for a partition (R357, R364); doorbells that waited for a replay that ends are decoded. -/
def headerSeen (s : State) (p : Nat) (m : Msg) : State := releaseBells (reelHeader s p m.ctx (reelHdr m))

/-- A message addressed to this device leaves its buffer to be served: its header is recorded for partition `p`; also the port and class that
it came over. -/
def arrives (s : State) (m : Msg) (op : MsgOp) (p : Option Nat) : Ex (State × Option (Nat × Nat)) := do
  can (linksUp s) "the links do not work"
  can (m.op == op && m.dst.toNat == devId s) "another kind of message, or one for another device"
  let (s1, came) ← takeMsg s m
  .ok (match p with
    | some p => headerSeen s1 p m
    | none => s1, came)

/-- A request is served and answered (R385). -/
def serveRequest (s : State) (m : Msg) (op : MsgOp) : Res :=
  runPlain do
    let p := if op == .signal then some (partOf (fld m.word3 21 16)) else ownerAt s m.addr.toNat
    let (s1, _) ← arrives s m op p
    let (s2, r) ← atTarget s1 m
    .ok (sendResponse s2 r)

/-- A put (R384, R385). -/
def execPut (m : Msg) (s : State) : Res := serveRequest s m .put

/-- A get request (R384, R385). -/
def execGetRequest (m : Msg) (s : State) : Res := serveRequest s m .getRequest

/-- An add (R188, R384, R385). -/
def execAtomicAdd (m : Msg) (s : State) : Res := serveRequest s m .add

/-- A signal (R385, R387). -/
def execLinkSignal (m : Msg) (s : State) : Res := serveRequest s m .signal

/-- A multicast put at a device of the box (R392): copies go on, and a member other than the source writes and answers. -/
def execMulticastPut (m : Msg) (s : State) : Res :=
  runPlain do
    can (linksUp s) "the links do not work"
    can (m.op == .multicastPut && m.dst.toNat == devId s) "another kind of message, or one for another device"
    let (s0, came, hold) ← holdMsg s m
    let s1 := match ownerAt s m.addr.toNat with
      | some p => headerSeen s0 p m
      | none => s0
    let s2 := closeHeld (match boxOf s1 m.mcg.toNat with
      | some b => spread s1 (b.next (here s1)) came hold m
      | none => s1) hold
    if m.src.toNat = devId s then .ok s2
    else
      let (s3, r) ← atTarget s2 m
      .ok (sendResponse s3 r)

/-- A response reaches the issuer; the credit and the tag that it frees let further messages go (R385, R388, R389). -/
def takeResponse (s : State) (m : Msg) (op : MsgOp) : Res :=
  runPlain do
    let (s1, _) ← arrives s m op (some (partOf m.ctx))
    let s2 ← onResponse s1 m
    .ok (pumpCtx s2 m.ctx)

/-- A get response (R385). -/
def execGetResponse (m : Msg) (s : State) : Res := takeResponse s m .getResponse

/-- An acknowledgement (R385). -/
def execAcknowledgement (m : Msg) (s : State) : Res := takeResponse s m .acknowledgement

/-- A refusal (R384, R394). -/
def execRefusal (m : Msg) (s : State) : Res := takeResponse s m .refusal

/-- A draft tile at a member device (R385, R393): each stream takes it as soon as it has a free slot (R210); it is acknowledged once it is in
every stream that takes it, and stays in its buffer until then. -/
def execDraftTile (m : Msg) (s : State) : Res :=
  runPlain do
    let xs := reachedBy s m
    let s1 := xs.foldl (fun s x => match stream? s x.t x.sid with
      | some y => takeTileMsg s y m
      | none => s) s
    if xs.any (fun x => tileFit s x m == .waits) then
      can (linksUp s && m.dst.toNat == devId s && s.inbox.any (fun e => e.m == m) && decide (s1 ≠ s)) "no member can take the tile"
      .ok s1
    else
      let (s2, _) ← arrives s1 m .draftTile (some (partOf m.ctx))
      .ok (sendResponse s2 (ackOf m))

/-- A dropped remote member's request is served from the group's source (R211, R393). -/
def execTileRequest (m : Msg) (s : State) : Res :=
  runPlain do
    let (s1, _) ← arrives s m .tileRequest (some (partOf m.ctx))
    let n := tileOf m
    match s1.groups.find? (fun g => g.ctx == m.ctx && g.tag == m.mcg.toNat) with
    | none => .ok (sendResponse s1 (refuse m lkAddress))
    | some g =>
      let x := groupSrc s1 g
      match x.geo n with
      | none => .ok (sendResponse s1 (refuse m lkAddress))
      | some p =>
        let c := x.t.ctx.val
        let ps := loadParts x p
        if ps.all (fun k => !farOutside k.h && k.ss.all (fun a => okRead s1 c a.1 a.2 && !ueV s1 c k.h.idx a.1 a.2)) &&
            passes (slubsOk s1 (readV s1 c) x p) then
          let rs := readReach s1 c ps
          let s2 ← admitAll s1 (quarterOf s1 x.t) c rs false
          let data := (loadBytes (readV s1 c) x p).1
          let k := partOfTile m
          let r := respond m .getResponse 0 ((data.drop (partBytes * k)).take partBytes)
          if tileParts data.length ≤ k then .ok (sendResponse s1 (refuse m lkAddress))
          else .ok (sendResponse (accessPages s2 c rs)
            { r with addr := tileAddr n k (tileParts data.length), last := x.total == some (n + 1) })
        else .ok (sendResponse s1 (refuse m lkAddress))

end Sys2Proof.Machine
end

