-- ==== Sys2Proof/Machine/Preempt.lean ====
section
/-! DEFINITION. Pre-emption (14, R333-R339): suspension, saves, restores. -/

namespace Sys2Proof.Machine

/-- A context leaves the multicast groups it belongs to (R211, R339). -/
def leaveGroups (s : State) (c : Nat) : State :=
  let ms := s.groups.flatMap (fun g => g.members.filter (fun m => m.t.ctx.val == c))
  let s1 := ms.foldl (fun s m => dropMember s m.t m.sid (gotOf s m)) s
  { s1 with groups := s1.groups.map (fun g => { g with members := g.members.filter (fun m => m.t.ctx.val != c) }) }

/-- A pre-empted context's engine work has reached its save point, and its save begins (R336). Its threads stopped at the fine-tick
boundary before (R333; DEDUCED, log 107). -/
def execContextSuspend (c : CtxN) (s : State) : Res :=
  runPlain do
    can (treadleRuns s && !s.failed) "the device does not run"
    can ((getC s c).saving && !(getC s c).atPoint && !(getC s c).filler) "the context is not to be suspended"
    .ok ((withFillers s c).foldl (fun s d => leaveGroups (setC s d { getC s d with atPoint := true }) d) s)

/-- No image of a context lies on a stack whose controller issues nothing (R187). -/
def imagesCool (s : State) (c : Nat) : Bool :=
  let x := getC s c
  ((List.range x.count).map (x.first + ·)).all (fun l => !(onSpindle s c l && imageHot s c l))

/-- The images of a context's logical spindles are taken (R336, R337); an idle side's is there already. -/
def saveImages (s : State) (c : Nat) : State :=
  let x := getC s c
  ((List.range x.count).map (x.first + ·)).foldl (fun s l =>
    if onSpindle s c l then saveImage s c l (sramOf s (partOf c) l) else s) s

/-- The last image of a context is saved (R338): it is suspended, and waiting work is served. -/
def execSaveComplete (c : CtxN) (s : State) : Res :=
  runPlain do
    can (powered s && !s.failed && (getC s c).saving && (getC s c).atPoint && !(getC s c).filler) "no save is running"
    can (imagesCool s c) "a stack's controller issues nothing (R187)"
    let s1 := saveImages s c
    let s2 := (withFillers s1 c).foldl (fun s d => setC s d { getC s d with st := .suspended, saving := false, atPoint := false }) s1
    .ok (serve s2 (partOf c))

/-- The images of a context go back to its spindles; that of an idle side stays. -/
def restoreImages (s : State) (c : Nat) : State :=
  let x := getC s c
  ((List.range x.count).map (x.first + ·)).foldl (fun s l =>
    let m := imageSram s c l
    match physOf s c l with
    | some i => if onSpindle s c l then setSpindle s i m else s
    | none => s) s

/-- A resumed context's open turns end later by the edges from the last one before the suspension to the next one, and by what a
firmware stall then has still to run; its threads issue from that edge on (R239, R334, R347). Its flags take what holds as it runs
again (R355). -/
def resumeThreads (s : State) (c : Nat) : State :=
  let next := strokeNow s + 1
  let d := (next - BitVec.ofNat 64 (getC s c).suspEdge).toNat + stallLeft s next
  let moved := (threadsOf s c).any (fun x => x.2.turn.isSome)
  let s1 := moveTurns ((threadsOf s c).foldl (fun s x => setT s (tid c x.1) { x.2 with atEdge := true }) s) c (· + d)
  setDet (if moved then setTstat s1 c 4 else s1) c (startFlags s c)

/-- A suspended context's restore completes (R334). -/
def execRestoreComplete (c : CtxN) (s : State) : Res :=
  runPlain do
    can (powered s && !s.failed && (getC s c).st == .running && (getC s c).restoring) "no restore is running"
    can (imagesCool s c) "a stack's controller issues nothing (R187)"
    let s1 := restoreImages s c
    let s2 := (withFillers s1 c).foldl (fun s d =>
      resumeThreads (setC s d { getC s d with st := .running, restoring := false }) d) s1
    .ok (startFillers ((withFillers s2 c).foldl settle s2) c)

end Sys2Proof.Machine
end

