-- ==== Sys2Proof/Machine/Resets.lean ====
section
/-! DEFINITION. Resets (18, R420, R437; 21, R469; 22, R479, R480, R487), pins, clocks, rails and regulators (22, R475-R485), the
management bus (R486), and the end of a partition reset (14, R350). -/

namespace Sys2Proof.Machine

/-! ## Function Level Reset (R437) -/

/-- A ring's registers, its outstanding and its held records are cleared (R437); records that have fallen due are posted or held at their
time. (DEDUCED, log 95.) -/
def clearRing (s : State) (k : Nat) : State :=
  let s1 : State := { s with rings := tabDel s.rings k }
  [ringSqBase k, ringSqCtl k, ringCqBase k, ringCqCtl k].foldl (fun s r => setR s r r.reset) s1

/-- Every context of a partition is torn down and its ring registers are cleared. -/
def flrPartition (s : State) (p : Nat) : State :=
  let s1 := (partCtxs s p).foldl (fun s c => teardown s c 0 0) s
  ((List.range 16).map (16 * p + ·)).foldl (fun s c => setR (clearRing s c) (.ctxHost c) 0) s1

/-- What a function holds and has latched of BAR0 halves is gone, and its configuration space is as after reset (R437; DESIGN CHOICE,
log 132). -/
def dropFunction (s : State) (fn : Nat) : State :=
  { s with halves := s.halves.filter (fun h => h.1 != fn), latches := s.latches.filter (fun h => h.1 != fn)
           pci := { d3hot := s.pci.d3hot.filter (· != fn), bar4Log := tabDel s.pci.bar4Log fn
                    masked := s.pci.masked.filter (fun x => x.1 != fn), pending := s.pci.pending.filter (fun x => x.1 != fn) } }

/-- Function Level Reset of a VF. -/
def flrVf (s : State) (fn : Nat) : State :=
  match partOfFunc s fn with
  | some p => flrPartition (dropFunction s fn) p
  | none => dropFunction s fn

/-- Function Level Reset of PF0: every partition, the admin ring and the event ring. -/
def flrPf0 (s : State) : State :=
  let s1 := clearRing ((List.range 4).foldl flrPartition (dropFunction s 0)) 64
  { [Reg.evtBase, .evtCtl, .evtHead, .evtTail, .evtLost].foldl (fun s r => setR s r r.reset) s1 with evtPhase := true }

/-- FUNCTION_LEVEL_RESET (R437): it is asked for in the function's configuration space. -/
def execFunctionLevelReset (fn : Func) (s : State) : Res :=
  runPlain do
    can (hostFn s fn) "the host does not reach the function"
    .ok (configRow s (if fn.val = 0 then flrPf0 s else flrVf s fn))

/-- VF_ENABLE_CLEAR (R420): a Function Level Reset of every VF. -/
def execVfEnableClear (s : State) : Res :=
  runPlain do
    can (hostOk s && decide (0 < s.vfs)) "no VF is enabled"
    .ok (configRow s { (List.range s.vfs).foldl (fun s i => flrVf s (i + 1)) s with vfs := 0 })

/-- VF_ENABLE_SET (R420). -/
def execVfEnableSet (n : Fin 16) (s : State) : Res :=
  runPlain do
    can (hostOk s && s.vfs == 0 && decide (0 < n.val)) "VF Enable is set"
    .ok (configRow s { s with vfs := n })

/-- CONVENTIONAL_RESET (R469, R480): PERST_N acts as a Function Level Reset of PF0. -/
def execConventionalReset (s : State) : Res :=
  runPlain do
    can (powered s) "the device is not powered"
    .ok (flrPf0 s)

/-! ## Cold reset (R441, R457, R480, R487) -/

/-- The newest valid copy of the retirement map, less the units whose retirement was cancelled (R455, R457). -/
def bootRmap (s : State) : List Word :=
  let base := match bestRmap s.flash with
    | some (_, c) => c.words
    | none => List.replicate 11 0
  s.unretire.foldl (fun ws u =>
    let (w, b) := rmapPos u.ty u.idx
    ws.zipIdx.map (fun x => if x.2 = w then setFld x.1 b b 0 else x.1)) base

/-- The retirement map after reset release: registers, regions at their live sizes (R173, R174), the flash where a cancellation
changed it, and SEC_FLASH where no copy was valid. -/
def loadRmap (old s : State) : State :=
  let s1 := (bootRmap old).zipIdx.foldl (fun s x => setR s (.rmap x.2) x.1) s
  let s2 : State := { s1 with pcOut := (List.range 384).filter (retired s1 0), bcOut := (List.range 64).filter (retired s1 1) }
  let s3 := if old.unretire.isEmpty then s2 else saveRmap s2
  if (bestRmap old.flash).isNone then eventG s3 0x0404 [] else s3

/-- The pins, limits and outputs that a cold reset finds: GPIO[15:0] are sampled, and give the SMBus address (R474); SMB_ALERT_N, PLIMIT and
ALERTMASK keep their values (R486); new voltages are asked of the regulators (R478). STATUS starts from 0. -/
def bootPower (p : PowerSt) (gpio : BitVec 16) : PowerSt :=
  { prochotN := p.prochotN, alertN := p.alertN, gpio := gpio, smbAddr := BitVec.ofNat 8 (0x60 + gpio.toNat % 4),
    plimit := p.plimitNew.getD p.plimit, alertMask := p.alertMask, smbOut := p.smbOut }

/-- The STATUS bits that rise at reset release: PWROK seen, and PROCHOT_N where it is low (R486). -/
def bootStatus (s : State) : State :=
  let s1 := statusRise s 0
  if s1.power.prochotN then s1 else statusRise s1 6

/-- The boot ROM runs, or waits while a sensor reads below 0 °C (R487). -/
def bootOrWait (s : State) (coldest : Int) : State :=
  if coldest < 0 then { s with power := { s.power with bootWait := true } }
  else bootRom { s with power := { s.power with bootWait := false } }

/-- COLD_RESET (R480): what is not flash, pin or output returns to its reset value, and the boot ROM runs. (DEDUCED,
log 95.) -/
def execColdReset (coldest : Int) (gpio : BitVec 16) (s : State) : Res :=
  let t : State := { State.reset with pending := s.pending, flash := adoptOwner s.flash, power := bootPower s.power gpio
                                      hostOut := s.hostOut, linkOut := s.linkOut, freeCtr := s.freeCtr }
  .next (bootOrWait (loadRmap s (bootStatus t)) coldest)

/-- BOOT_TEMP_RETRY (R487). -/
def execBootTempRetry (coldest : Int) (s : State) : Res :=
  runPlain do
    can (s.power.pwrok && s.power.thermtripN && s.power.bootWait) "the boot ROM does not wait"
    .ok (bootOrWait s coldest)

/-- POWER_DOWN (R479): PWROK falls. -/
def execPowerDown (s : State) : Res :=
  runPlain do
    can s.power.pwrok "PWROK is low"
    .ok (statusFall { s with power := { s.power with pwrok := false } } 0)

/-! ## Pins and sensors (R484, R485) -/

/-- PROCHOT_ASSERT. -/
def execProchotAssert (s : State) : Res :=
  runPlain do
    can (s.power.pwrok && s.power.prochotN) "PROCHOT_N is low"
    .ok (statusRise { s with power := { s.power with prochotN := false } } 6)

/-- PROCHOT_RELEASE. -/
def execProchotRelease (s : State) : Res :=
  runPlain do
    can (s.power.pwrok && !s.power.prochotN) "PROCHOT_N is high"
    .ok (statusFall { s with power := { s.power with prochotN := true } } 6)

/-- THERMTRIP (R485). -/
def execThermtrip (s : State) : Res :=
  runPlain do
    can (s.power.pwrok && s.power.thermtripN) "the device has tripped"
    .ok (trip s)

/-! ## Clocks, rails, regulators (R476, R478, R481) -/

/-- Whether a reference clock is present. -/
def clockOn (p : PowerSt) : RefClk → Bool
  | .pcie => p.clkPcie
  | .sk0 => p.clkSk0
  | .sk1 => p.clkSk1
  | .core => p.clkCore

/-- The ports that a Skein clock serves. -/
def clockPorts : RefClk → List Nat
  | .sk0 => List.range 8
  | .sk1 => (List.range 8).map (8 + ·)
  | _ => []

/-- A reference clock comes or goes. -/
def setClock (s : State) (k : RefClk) (on : Bool) : State :=
  let p := s.power
  { s with power := match k with
    | .pcie => { p with clkPcie := on }
    | .sk0 => { p with clkSk0 := on }
    | .sk1 => { p with clkSk1 := on }
    | .core => { p with clkCore := on } }

/-- REFCLK_LOSS (R476). -/
def execRefclkLoss (k : RefClk) (s : State) : Res :=
  runPlain do
    can (s.power.pwrok && clockOn s.power k) "the clock is absent"
    let s1 := (clockPorts k).foldl (fun s n => if portState s n = 6 then s else setPort s n 0) (setClock s k false)
    .ok (if k = .core then deviceFail s1 else s1)

/-- What waited for the PCIe link leaves once the link is there again (R476). -/
def linkBack (s : State) : State :=
  if s.power.clkPcie then { s with hostOut := s.hostOut ++ s.hostWait, hostWait := [] } else s

/-- REFCLK_RETURN (R476): the PCIe link trains, and the ports that the clock serves retrain. -/
def execRefclkReturn (k : RefClk) (s : State) : Res :=
  runPlain do
    can (s.power.pwrok && !clockOn s.power k) "the clock is present"
    .ok ((clockPorts k).foldl (fun s n => if mayTrain s n then trainPort s n else s) (linkBack (setClock s k true)))

/-- RAIL_FAULT (R481): device failure, RAIL. (DEDUCED, log 103.) -/
def execRailFault (_r : Rail) (s : State) : Res :=
  runPlain do
    can (s.power.pwrok) "PWROK is low"
    .ok (statusRise (deviceFail s) 3)

/-- AVS_TIMEOUT (R478): the clock is held, RAIL. (DEDUCED, log 86.) -/
def execAvsTimeout (q : Fin 4) (s : State) : Res :=
  runPlain do
    can (s.power.pwrok && s.power.avs.contains q.val) "no request is outstanding"
    .ok (statusRise { s with power := { s.power with avsHeld := true } } 3)

/-- AVS_REQUEST_COMPLETE (R478): the voltage asked for is in force. -/
def execAvsRequestComplete (q : Fin 4) (s : State) : Res :=
  runPlain do
    can (s.power.pwrok && s.power.avs.contains q.val) "no request is outstanding"
    let rest := s.power.avs.filter (· != q.val)
    .ok { s with power := { s.power with avs := rest, vdd := s.power.vdd.setIfInBounds q (Config.vddFor s.power.asked), avsHeld := s.power.avsHeld && !rest.isEmpty } }

/-! ## Management bus (R486) -/

/-- The word that a Read Word of an SMBus command returns; none where it is NACKed (R486). -/
def smbWord (s : State) (code : Nat) : Option (BitVec 16) :=
  let p := s.power
  if code = 1 then some p.status
  else if !p.pwrok then none
  else match code with
    | 2 => some (BitVec.ofInt 16 p.tj)
    | 3 => some (BitVec.ofNat 16 (((List.range 12).map (fun n => rfld s (.hbmTemp n) 7 0)).foldl max 0))
    | 4 => some (BitVec.ofNat 16 (p.wattsLog.sum / max 1 p.wattsLog.length))
    | 5 => some (p.plimitNew.getD p.plimit)
    | 6 => some (BitVec.ofNat 16 (freq s))
    | 7 => some p.alertMask
    | _ => none

/-- One byte of SMBus's packet error code, the CRC-8 of x^8 + x^2 + x + 1 (PRESUMED, log 133). -/
def crc8Byte (crc b : Byte) : Byte :=
  (List.range 8).foldl (fun c _ => if c.getLsbD 7 then (c <<< 1) ^^^ 0x07 else c <<< 1) (crc ^^^ b)

/-- The packet error code of a transaction's bytes. -/
def pecOf (bs : List Byte) : Byte := bs.foldl crc8Byte 0

/-- The bytes of a word on the bus, low byte first. -/
def smbBytes (v : BitVec 16) : List Byte := [BitVec.ofNat 8 (fld v 7 0), BitVec.ofNat 8 (fld v 15 8)]

/-- The address byte of a transaction: write, or read. -/
def smbAddrByte (s : State) (read : Bool) : Byte := (s.power.smbAddr <<< 1) ||| (if read then 1 else 0)

/-- Whether a packet error code fits a Write Word of a command (R486). -/
def pecOk (s : State) (code : BitVec 8) (v : BitVec 16) (pec : Option Byte) : Bool :=
  pec.all (fun p => p == pecOf (smbAddrByte s false :: code :: smbBytes v))

/-- One more answer on the management bus. -/
def smbSay (s : State) (o : SmbOut) : State := { s with power := { s.power with smbOut := s.power.smbOut ++ [o] } }

/-- A Write Word (R486): of a PLIMIT value in 300-2,600, which takes effect at the next fine-tick boundary (R485), or of ALERTMASK; any other,
one whose packet error code does not fit, and any while PWROK is low, is not acknowledged. -/
def smbWrite (s : State) (code : BitVec 8) (v : BitVec 16) (pec : Option Byte) : State :=
  if s.power.pwrok && pecOk s code v pec then
    if code = 5 ∧ 300 ≤ v.toNat ∧ v.toNat ≤ 2600 then smbSay { s with power := { s.power with plimitNew := some v } } .ack
    else if code = 7 then smbSay { s with power := { s.power with alertMask := v } } .ack
    else smbSay s .nack
  else smbSay s .nack

/-- A read (R486): of a command, with its packet error code, or of the Alert Response Address, where the V12 answers with its address if it
asserts SMB_ALERT_N, and releases it. -/
def smbRead (s : State) : SmbRead → State
  | .word code => match smbWord s code.toNat with
    | some v => smbSay s (.word v (pecOf ([smbAddrByte s false, code, smbAddrByte s true] ++ smbBytes v)))
    | none => smbSay s .nack
  | .alertResponse =>
    if s.power.alertN then smbSay s .nack
    else smbSay { s with power := { s.power with alertN := true } } (.alert (s.power.smbAddr <<< 1))

/-- SMB_PLIMIT_WRITE. -/
def execSmbPlimitWrite (code : BitVec 8) (v : BitVec 16) (pec : Option Byte) (s : State) : Res := .next (smbWrite s code v pec)

/-- SMB_ALERTMASK_WRITE. -/
def execSmbAlertmaskWrite (v : BitVec 16) (pec : Option Byte) (s : State) : Res := .next (smbWrite s 7 v pec)

/-- SMB_ALERT_RESPONSE. -/
def execSmbAlertResponse (x : SmbRead) (s : State) : Res := .next (smbRead s x)

/-- VAUX_LOSS: PLIMIT and ALERTMASK take their reset values. -/
def execVauxLoss (s : State) : Res :=
  .next { s with power := { s.power with plimit := 2600, plimitNew := none, alertMask := 0x001C } }

/-! ## The end of a partition reset (R350) -/

/-- PRT_RESET: the event, the mapping of the partition's live spindles (R456), and creation is accepted again. -/
def execPrtReset (p : PartN) (s : State) : Res :=
  runPlain do
    can (powered s && !s.failed) "the device does not run"
    let x ← the (s.resetting.find? (fun x => x.1 == p.val)) "no reset of the partition has begun"
    let s1 : State := { s with resetting := s.resetting.filter (fun y => y.1 != p.val) }
    .ok (event (remapOne s1 s1 p) 0x0002 none (some p) [BitVec.ofNat 8 x.2])

end Sys2Proof.Machine
end

