-- ==== Sys2Proof/Machine/Scalar.lean ====
section
/-! DEFINITION. Scalar instructions (11): the ALU, li, mov, lds, sts, and handle access with hget and hset. -/

namespace Sys2Proof.Machine

/-- The operands a and b of an ALU instruction with destination, after its decode checks (R260): IMM is variant bit 0;
`var` gives the variant bits the instruction defines. -/
def aluOperands (s : State) (th : Thread) (f : Fields) (var : Nat) : Ex (Word × Word) := do
  let imm := bit f.variant 0
  dec s (formOk f var 0 [.scalar, .scalar, if imm then .imm else .scalar])
  let a ← src th f.sl1
  let b ← if imm then .ok (imm16 f.sl2) else src th f.sl2
  .ok (a, b)

/-- An ALU instruction whose result is a function of its operands (R260). -/
def aluOp (t : Tid) (f : Fields) (s : State) (var : Nat) (g : Word → Word → Word) : Res :=
  runThread s t fun s th => do
    let (a, b) ← aluOperands s th f var
    .ok (stepOn s t (dst th f.sl0 (g a b)))

/-- Smaller and larger of two words, signed or unsigned (R260, variant bit 1). -/
def minW (u : Bool) (a b : Word) : Word := if (if u then b.ult a else b.slt a) then b else a
def maxW (u : Bool) (a b : Word) : Word := if (if u then a.ult b else a.slt b) then b else a

/-- Quotient and remainder with the defined results for b = 0 (R260). -/
def divW (a b : Word) : Word := if b = 0 then BitVec.allOnes 64 else a / b
def remW (a b : Word) : Word := if b = 0 then a else a % b

/-- Shifts by b mod 64 (R260). -/
def shlW (a b : Word) : Word := a <<< (b.toNat % 64)
def shrW (a b : Word) : Word := a >>> (b.toNat % 64)
def sarW (a b : Word) : Word := a.sshiftRight (b.toNat % 64)

/-- 1 if a < b, else 0 (R260). -/
def sltW (u : Bool) (a b : Word) : Word := if (if u then a.ult b else a.slt b) then 1 else 0

/-- add (R260). -/
def execAdd (t : Tid) (f : Fields) (s : State) : Res := aluOp t f s 1 (· + ·)
/-- sub (R260). -/
def execSub (t : Tid) (f : Fields) (s : State) : Res := aluOp t f s 1 (· - ·)
/-- mul (R260). -/
def execMul (t : Tid) (f : Fields) (s : State) : Res := aluOp t f s 1 (· * ·)
/-- divu (R260). -/
def execDivu (t : Tid) (f : Fields) (s : State) : Res := aluOp t f s 1 divW
/-- remu (R260). -/
def execRemu (t : Tid) (f : Fields) (s : State) : Res := aluOp t f s 1 remW
/-- and (R260). -/
def execAnd (t : Tid) (f : Fields) (s : State) : Res := aluOp t f s 1 (· &&& ·)
/-- or (R260). -/
def execOr (t : Tid) (f : Fields) (s : State) : Res := aluOp t f s 1 (· ||| ·)
/-- xor (R260). -/
def execXor (t : Tid) (f : Fields) (s : State) : Res := aluOp t f s 1 (· ^^^ ·)
/-- shl (R260). -/
def execShl (t : Tid) (f : Fields) (s : State) : Res := aluOp t f s 1 shlW
/-- shr (R260). -/
def execShr (t : Tid) (f : Fields) (s : State) : Res := aluOp t f s 1 shrW
/-- sar (R260). -/
def execSar (t : Tid) (f : Fields) (s : State) : Res := aluOp t f s 1 sarW
/-- min (R260). -/
def execMin (t : Tid) (f : Fields) (s : State) : Res := aluOp t f s 3 (minW (bit f.variant 1))
/-- max (R260). -/
def execMax (t : Tid) (f : Fields) (s : State) : Res := aluOp t f s 3 (maxW (bit f.variant 1))
/-- slt (R260). -/
def execSlt (t : Tid) (f : Fields) (s : State) : Res := aluOp t f s 3 (sltW (bit f.variant 1))

/-- li (R260): H = 0 loads the imm48; H = 1 sets bits 63:48 and keeps the rest. -/
def execLi (t : Tid) (f : Fields) (s : State) : Res :=
  runThread s t fun s th => do
    if bit f.variant 0 then
      dec s (formOk f 1 0 [.scalar, .imm])
      let v ← src th f.sl0
      .ok (stepOn s t (dst th f.sl0 (setFld v 63 48 f.sl1.toNat)))
    else
      dec s (formOk f 1 0 [.scalar, .imm, .imm, .imm])
      .ok (stepOn s t (dst th f.sl0 (imm48 f.sl1 f.sl2 f.sl3)))

/-- The special values of `mov` form 3 (R261). -/
def specialValue (s : State) (t : Tid) (th : Thread) (n : Nat) : Option Word :=
  match n with
  | 0 => some (BitVec.ofNat 64 t.lsp.val)
  | 1 => some (BitVec.ofNat 64 (ctxNL s t.ctx.val))
  | 2 => some (BitVec.ofNat 64 t.ctx.val)
  | 3 => some (if (getC s t.ctx.val).filler then 1 else 0)
  | 4 => some (BitVec.ofNat 64 (devId s))
  | 5 => some (strokeNow s)
  | 6 => some (match th.turn with
    | some u => BitVec.ofNat 64 u.start
    | none => 0)
  | _ => none

/-- mov (R261). -/
def execMov (t : Tid) (f : Fields) (s : State) : Res :=
  runThread s t fun s th => do
    match fld f.ext 2 0 with
    | 0 =>
      dec s (formOk f 0 7 [.scalar, .scalar])
      let v ← src th f.sl1
      .ok (stepOn s t (dst th f.sl0 v))
    | 1 =>
      dec s (formOk f 0 7 [.scalar, .counter])
      .ok (stepOn s t (dst th f.sl0 ((th.lc.get (Fin.ofNat 4 f.sl1.toNat)).zeroExtend 64)))
    | 2 =>
      dec s (formOk f 0 7 [.counter, .scalar])
      let v ← src th f.sl1
      .ok (stepOn s t { th with lc := th.lc.set (Fin.ofNat 4 f.sl0.toNat) (v.setWidth 32) })
    | 3 =>
      dec s (formOk f 0 7 [.scalar, .imm])
      let v ← theF s (specialValue s t th f.sl1.toNat) fDecode
      .ok (stepOn s t (dst th f.sl0 v))
    | _ => .error (.fault s fDecode)

/-! ## lds and sts (R262, R263) -/

/-- The global address of an `lds` or `sts` and its width in bytes, after the checks at issue (R262). -/
def ldstAddr (s : State) (t : Tid) (th : Thread) (f : Fields) (var : Nat) (reads : Bool) : Ex (Word × Nat) := do
  dec s (formOk f var 0 [.scalar, .scalar, .imm])
  let b ← src th f.sl1
  let g := b + imm16 f.sl2
  let n := 2 ^ fld f.variant 1 0
  let a := localOf g
  needF s (isLocal s g && a % n == 0 && (if reads then okRead s t.ctx.val a n else okRange s t.ctx.val a n)) (fAddr g)
  .ok (g, n)

/-- A loaded value, zero- or sign-extended (R262). -/
def loadValue (signed : Bool) (n v : Nat) : Word :=
  if signed then BitVec.ofInt 64 (signedOf (8 * n) v) else BitVec.ofNat 64 v

/-- lds (R262): from the host window the load returns with its completion (R424); otherwise at once. -/
def execLds (t : Tid) (f : Fields) (s : State) : Res :=
  runThread s t fun s th => do
    let (g, n) ← ldstAddr s t th f 7 true
    let a := localOf g
    let signed := bit f.variant 2
    if hostBase ≤ a then
      let th1 := dst th f.sl0 (reg th f.sl0.toNat)
      let th2 := { th1 with hostLoads := th1.hostLoads ++ [⟨f.sl0.toNat, n, signed, a, s.seq⟩] }
      .ok (toHost (stepOn s t th2) (.read (a - hostBase) n (hostId s t.ctx)))
    else
      let (s1, bs) ← readA s t a n
      .ok (stepOn s1 t (dst th f.sl0 (loadValue signed n (ofBytes bs))))

/-- sts (R262): a write to the host window leaves as one TLP (R424). -/
def execSts (t : Tid) (f : Fields) (s : State) : Res :=
  runThread s t fun s th => do
    let (g, n) ← ldstAddr s t th f 3 false
    let a := localOf g
    let v ← src th f.sl0
    let bs := leBytes n v.toNat
    let s0 := notReplayable s t
    if hostBase ≤ a then .ok (stepOn (toHost s0 (.write (a - hostBase) bs (hostId s t.ctx))) t th)
    else
      let s1 ← writeA s0 t a bs
      .ok (stepOn s1 t th)

/-- A host completion for the thread's oldest outstanding access to the host window (R424): the data, or an address
fault. Data for a thread that no longer exists is discarded (R420). -/
def execHostWindowCompletion (t : Tid) (reply : HostReply) (s : State) : Res :=
  runEvent (do
    can (powered s && s.power.clkPcie && !s.failed) "the device is not powered"
    match getT? s t with
    | none => .ok s
    | some th =>
    match th.hostLoads with
    | [] => .error (.no "no load is outstanding")
    | h :: rest =>
      match reply with
      | .bad => .error (.fault s (fAddr (gAddr s h.addr)))
      | .ok bs =>
        can (decide (bs.length = h.bytes)) "a completion carries the bytes of the request"
        let th1 := setReg th h.reg (loadValue h.signed h.bytes (ofBytes bs))
        .ok (settle (setT s t { th1 with hostLoads := rest }) t.ctx)) t (pcOf s t)

/-! ## Handle access (R264) -/

/-- The handle index of `hget` or `hset`: the slot, or bits 15:0 of a register with HREG (R264). -/
def accessIndex (s : State) (t : Tid) (th : Thread) (hreg : Bool) (v : BitVec 16) : Ex Nat := do
  let i ← if hreg then do
      let w ← src th v
      needF s (decide (w.toNat < 65536)) (fHandle (w.toNat % 65536))
      .ok w.toNat
    else .ok v.toNat
  needF s (idxOk s t.ctx.val i) (fHandle i)
  .ok i

/-- Whether the register of a whole-entry form is s1 to s56 (R264). -/
def wholeReg (v : BitVec 16) : Bool := decide (1 ≤ v.toNat) && decide (v.toNat ≤ 56)

/-- hget (R264): the table's entry, or one word of it. -/
def execHget (t : Tid) (f : Fields) (s : State) : Res :=
  runThread s t fun s th => do
    let w := bit f.variant 0
    let hreg := bit f.variant 1
    dec s (formOk f 3 0 [.scalar, if hreg then .scalar else .handle, if w then .imm else .unused])
    dec s (if w then decide (f.sl2.toNat < 8) else wholeReg f.sl0)
    let i ← accessIndex s t th hreg f.sl1
    let a := entryAddr s t.ctx.val i
    if w then
      let (s1, bs) ← readA s t (a + 8 * f.sl2.toNat) 8
      .ok (stepOn s1 t (dst th f.sl0 (BitVec.ofNat 64 (ofBytes bs))))
    else
      let (s1, bs) ← readA s t a 64
      let h := mkHandle i bs
      let ws := [h.w0, h.w1, h.w2, h.w3, h.w4, h.w5, h.w6, h.w7]
      .ok (stepOn s1 t ((ws.zipIdx).foldl (fun th x => dst th (f.sl0 + BitVec.ofNat 16 x.2) x.1) th))

/-- `hset` inside a splice: the entry's prior bytes go to the replay points of the thread's open splices at its first
write, for up to 64 entries (R71, R72). (DEDUCED, log 104.) -/
def noteHset (s : State) (t : Tid) (a : Nat) : State :=
  { s with splices := s.splices.map (fun x =>
      if x.opener == t && x.st == .opened && !(x.replay.entries.any (fun e => e.1 == a)) then
        (if x.replay.entries.length < 64
         then { x with replay := { x.replay with entries := x.replay.entries ++ [(a, rd s a 64)] } }
         else { x with replayable := false })
      else x) }

/-- hset (R227, R264): SPLICE where an existing splice of the context declares the handle. -/
def execHset (t : Tid) (f : Fields) (s : State) : Res :=
  runThread s t fun s th => do
    let w := bit f.variant 0
    let hreg := bit f.variant 1
    dec s (formOk f 3 0 [if hreg then .scalar else .handle, .scalar, if w then .imm else .unused])
    dec s (if w then decide (f.sl2.toNat < 8) else wholeReg f.sl1)
    let i ← accessIndex s t th hreg f.sl0
    needF s (declOf s t.ctx.val i).isNone fSplice
    let a := entryAddr s t.ctx.val i
    let s0 := noteHset s t a
    if w then
      let v ← src th f.sl1
      let s1 ← writeA s0 t (a + 8 * f.sl2.toNat) (wordBytes v)
      .ok (stepOn s1 t th)
    else
      let bs ← (List.range 8).foldlM (fun (acc : List Byte) k => do
        let v ← src th (f.sl1 + BitVec.ofNat 16 k)
        .ok (acc ++ wordBytes v)) []
      let s1 ← writeA s0 t a bs
      .ok (stepOn s1 t th)

end Sys2Proof.Machine
end

