-- ==== Sys2Proof/Machine/Dispatch.lean ====
section
/-! DEFINITION. The meaning of every command: one arm per row of the opcode table. -/

namespace Sys2Proof.Machine

/-- What a command does to everything but the queue. -/
def exec (i : Instr) (s : State) : Host.Outcome State Fault Refusal :=
  match i with
  | .nop t f r => Sys2Proof.Machine.execNop t f r s
  | .loop t f => Sys2Proof.Machine.execLoop t f s
  | .jmp t f => Sys2Proof.Machine.execJmp t f s
  | .brCond t f => Sys2Proof.Machine.execBrCond t f s
  | .call t f => Sys2Proof.Machine.execCall t f s
  | .ret t f => Sys2Proof.Machine.execRet t f s
  | .wait t f => Sys2Proof.Machine.execWait t f s
  | .semWaitSatisfied t => Sys2Proof.Machine.execSemWaitSatisfied t s
  | .sig t f => Sys2Proof.Machine.execSig t f s
  | .turn t f => Sys2Proof.Machine.execTurn t f s
  | .fence t f => Sys2Proof.Machine.execFence t f s
  | .fenceRelease t => Sys2Proof.Machine.execFenceRelease t s
  | .halt t f => Sys2Proof.Machine.execHalt t f s
  | .add t f => Sys2Proof.Machine.execAdd t f s
  | .sub t f => Sys2Proof.Machine.execSub t f s
  | .mul t f => Sys2Proof.Machine.execMul t f s
  | .divu t f => Sys2Proof.Machine.execDivu t f s
  | .remu t f => Sys2Proof.Machine.execRemu t f s
  | .and t f => Sys2Proof.Machine.execAnd t f s
  | .or t f => Sys2Proof.Machine.execOr t f s
  | .xor t f => Sys2Proof.Machine.execXor t f s
  | .shl t f => Sys2Proof.Machine.execShl t f s
  | .shr t f => Sys2Proof.Machine.execShr t f s
  | .sar t f => Sys2Proof.Machine.execSar t f s
  | .min t f => Sys2Proof.Machine.execMin t f s
  | .max t f => Sys2Proof.Machine.execMax t f s
  | .slt t f => Sys2Proof.Machine.execSlt t f s
  | .li t f => Sys2Proof.Machine.execLi t f s
  | .mov t f => Sys2Proof.Machine.execMov t f s
  | .lds t f => Sys2Proof.Machine.execLds t f s
  | .sts t f => Sys2Proof.Machine.execSts t f s
  | .hget t f => Sys2Proof.Machine.execHget t f s
  | .hset t f => Sys2Proof.Machine.execHset t f s
  | .splBegin t f => Sys2Proof.Machine.execSplBegin t f s
  | .splPoolGrant t => Sys2Proof.Machine.execSplPoolGrant t s
  | .splCommit t f => Sys2Proof.Machine.execSplCommit t f s
  | .commitCheck p slot => Sys2Proof.Machine.execCommitCheck p slot s
  | .shadowFillComplete p slot => Sys2Proof.Machine.execShadowFillComplete p slot s
  | .splAbort t f => Sys2Proof.Machine.execSplAbort t f s
  | .splStatus t f => Sys2Proof.Machine.execSplStatus t f s
  | .draftLd t f => Sys2Proof.Machine.execDraftLd t f s
  | .draftSt t f => Sys2Proof.Machine.execDraftSt t f s
  | .draftGather t f => Sys2Proof.Machine.execDraftGather t f s
  | .draftMcastSend t f => Sys2Proof.Machine.execDraftMcastSend t f s
  | .draftMcastRecv t f => Sys2Proof.Machine.execDraftMcastRecv t f s
  | .draftPlanStart t f => Sys2Proof.Machine.execDraftPlanStart t f s
  | .draftPlanAdvance t f => Sys2Proof.Machine.execDraftPlanAdvance t f s
  | .planCursor n => Sys2Proof.Machine.execPlanCursor n s
  | .draftWait t f => Sys2Proof.Machine.execDraftWait t f s
  | .draftWaitFree t f => Sys2Proof.Machine.execDraftWaitFree t f s
  | .draftWaitClose t f => Sys2Proof.Machine.execDraftWaitClose t f s
  | .draftWaitDone t => Sys2Proof.Machine.execDraftWaitDone t s
  | .tileArrive t sid reply => Sys2Proof.Machine.execTileArrive t sid reply s
  | .migrationComplete page => Sys2Proof.Machine.execMigrationComplete page s
  | .slotDrain t sid => Sys2Proof.Machine.execSlotDrain t sid s
  | .gatherEntryDeliver t sid => Sys2Proof.Machine.execGatherEntryDeliver t sid s
  | .mcastTileDeliver t sid => Sys2Proof.Machine.execMcastTileDeliver t sid s
  | .streamStall t sid => Sys2Proof.Machine.execStreamStall t sid s
  | .engineComplete t id => Sys2Proof.Machine.execEngineComplete t id s
  | .mma t f => Sys2Proof.Machine.execMma t f s
  | .qnt t f => Sys2Proof.Machine.execQnt t f s
  | .vadd t f => Sys2Proof.Machine.execVadd t f s
  | .vmul t f => Sys2Proof.Machine.execVmul t f s
  | .vfma t f => Sys2Proof.Machine.execVfma t f s
  | .vmax t f => Sys2Proof.Machine.execVmax t f s
  | .vmin t f => Sys2Proof.Machine.execVmin t f s
  | .vred t f => Sys2Proof.Machine.execVred t f s
  | .vcvt t f => Sys2Proof.Machine.execVcvt t f s
  | .vepi t f => Sys2Proof.Machine.execVepi t f s
  | .vrot t f => Sys2Proof.Machine.execVrot t f s
  | .vfn t f => Sys2Proof.Machine.execVfn t f s
  | .vstat t f => Sys2Proof.Machine.execVstat t f s
  | .vnorm t f => Sys2Proof.Machine.execVnorm t f s
  | .vsmxScore t f => Sys2Proof.Machine.execVsmxScore t f s
  | .vsmxAcc t f => Sys2Proof.Machine.execVsmxAcc t f s
  | .vsmxRecomp t f => Sys2Proof.Machine.execVsmxRecomp t f s
  | .vsmxEnd t f => Sys2Proof.Machine.execVsmxEnd t f s
  | .cardBuild t f => Sys2Proof.Machine.execCardBuild t f s
  | .cardSel t f => Sys2Proof.Machine.execCardSel t f s
  | .swConv t f => Sys2Proof.Machine.execSwConv t f s
  | .swPool t f => Sys2Proof.Machine.execSwPool t f s
  | .swBox t f => Sys2Proof.Machine.execSwBox t f s
  | .swNms t f => Sys2Proof.Machine.execSwNms t f s
  | .swPatch t f => Sys2Proof.Machine.execSwPatch t f s
  | .swPix t f => Sys2Proof.Machine.execSwPix t f s
  | .vrng t f => Sys2Proof.Machine.execVrng t f s
  | .lkPut t f => Sys2Proof.Machine.execLkPut t f s
  | .lkGet t f => Sys2Proof.Machine.execLkGet t f s
  | .lkAdd t f => Sys2Proof.Machine.execLkAdd t f s
  | .lkSig t f => Sys2Proof.Machine.execLkSig t f s
  | .lkMcast t f => Sys2Proof.Machine.execLkMcast t f s
  | .lkWait t f => Sys2Proof.Machine.execLkWait t f s
  | .lkWaitDone t => Sys2Proof.Machine.execLkWaitDone t s
  | .cdcSubmit t f => Sys2Proof.Machine.execCdcSubmit t f s
  | .reelMark t f => Sys2Proof.Machine.execReelMark t f s
  | .cdcJobStart p => Sys2Proof.Machine.execCdcJobStart p s
  | .cdcUnitDone core entropy => Sys2Proof.Machine.execCdcUnitDone core entropy s
  | .cdcJobEnd job => Sys2Proof.Machine.execCdcJobEnd job s
  | .strokeEdge m => Sys2Proof.Machine.execStrokeEdge m s
  | .fineTick m => Sys2Proof.Machine.execFineTick m s
  | .turnOverrun t => Sys2Proof.Machine.execTurnOverrun t s
  | .treadleMarkerSend => Sys2Proof.Machine.execTreadleMarkerSend s
  | .trdMarkerReceive port m => Sys2Proof.Machine.execTrdMarkerReceive port m s
  | .trdParentTimeout => Sys2Proof.Machine.execTrdParentTimeout s
  | .trdSyncInEdge => Sys2Proof.Machine.execTrdSyncInEdge s
  | .hbmTempRead stack celsius => Sys2Proof.Machine.execHbmTempRead stack celsius s
  | .plyHeartbeatReceive edge => Sys2Proof.Machine.execPlyHeartbeatReceive edge s
  | .plyHeartbeatAck edge => Sys2Proof.Machine.execPlyHeartbeatAck edge s
  | .plyRecordReceive r => Sys2Proof.Machine.execPlyRecordReceive r s
  | .plyRecordAck edge => Sys2Proof.Machine.execPlyRecordAck edge s
  | .plyLoss => Sys2Proof.Machine.execPlyLoss s
  | .plyTakeover => Sys2Proof.Machine.execPlyTakeover s
  | .plyJoin => Sys2Proof.Machine.execPlyJoin s
  | .plyJoined => Sys2Proof.Machine.execPlyJoined s
  | .reelDeliver p => Sys2Proof.Machine.execReelDeliver p s
  | .contextSuspend c => Sys2Proof.Machine.execContextSuspend c s
  | .saveComplete c => Sys2Proof.Machine.execSaveComplete c s
  | .restoreComplete c => Sys2Proof.Machine.execRestoreComplete c s
  | .correctedError u => Sys2Proof.Machine.execCorrectedError u s
  | .uncorrectableError e => Sys2Proof.Machine.execUncorrectableError e s
  | .retireWindowClose u => Sys2Proof.Machine.execRetireWindowClose u s
  | .watchdogExpiry => Sys2Proof.Machine.execWatchdogExpiry s
  | .flitReceive port x => Sys2Proof.Machine.execFlitReceive port x s
  | .portTrain port => Sys2Proof.Machine.execPortTrain port s
  | .portTrained port r => Sys2Proof.Machine.execPortTrained port r s
  | .portStateReport rank live => Sys2Proof.Machine.execPortStateReport rank live s
  | .messageForward m => Sys2Proof.Machine.execMessageForward m s
  | .put m => Sys2Proof.Machine.execPut m s
  | .getRequest m => Sys2Proof.Machine.execGetRequest m s
  | .getResponse m => Sys2Proof.Machine.execGetResponse m s
  | .atomicAdd m => Sys2Proof.Machine.execAtomicAdd m s
  | .linkSignal m => Sys2Proof.Machine.execLinkSignal m s
  | .multicastPut m => Sys2Proof.Machine.execMulticastPut m s
  | .draftTile m => Sys2Proof.Machine.execDraftTile m s
  | .tileRequest m => Sys2Proof.Machine.execTileRequest m s
  | .acknowledgement m => Sys2Proof.Machine.execAcknowledgement m s
  | .refusal m => Sys2Proof.Machine.execRefusal m s
  | .responseTimeout c tag => Sys2Proof.Machine.execResponseTimeout c tag s
  | .inlineRecord fn page whole r => Sys2Proof.Machine.execInlineRecord fn page whole r s
  | .sqTailWrite fn ring v => Sys2Proof.Machine.execSqTailWrite fn ring v s
  | .cqHeadWrite fn ring v => Sys2Proof.Machine.execCqHeadWrite fn ring v s
  | .create ring r => Sys2Proof.Machine.execCreate ring r s
  | .launch ring r => Sys2Proof.Machine.execLaunch ring r s
  | .teardown ring r => Sys2Proof.Machine.execTeardown ring r s
  | .move ring r => Sys2Proof.Machine.execMove ring r s
  | .ringFence ring r => Sys2Proof.Machine.execRingFence ring r s
  | .signal ring r => Sys2Proof.Machine.execSignal ring r s
  | .stage ring r => Sys2Proof.Machine.execStage ring r s
  | .fwLoad r payload => Sys2Proof.Machine.execFwLoad r payload s
  | .fwActivate r payload => Sys2Proof.Machine.execFwActivate r payload s
  | .stageApply r payload => Sys2Proof.Machine.execStageApply r payload s
  | .keyInstall r payload => Sys2Proof.Machine.execKeyInstall r payload s
  | .keyRotate r payload => Sys2Proof.Machine.execKeyRotate r payload s
  | .debugUnlock r payload => Sys2Proof.Machine.execDebugUnlock r payload s
  | .reelExport r payload => Sys2Proof.Machine.execReelExport r payload s
  | .devidAssign r payload => Sys2Proof.Machine.execDevidAssign r payload s
  | .bar4Read fn off len => Sys2Proof.Machine.execBar4Read fn off len s
  | .bar4Write fn off data poisoned => Sys2Proof.Machine.execBar4Write fn off data poisoned s
  | .hostWindowCompletion t reply => Sys2Proof.Machine.execHostWindowCompletion t reply s
  | .regWrite x v => Sys2Proof.Machine.execRegWrite x v s
  | .counterRead x => Sys2Proof.Machine.execCounterRead x s
  | .regReadLatch x => Sys2Proof.Machine.execRegReadLatch x s
  | .ctxHtabWrite fn c a => Sys2Proof.Machine.execCtxHtabWrite fn c a s
  | .ctxLkcredWrite fn c a => Sys2Proof.Machine.execCtxLkcredWrite fn c a s
  | .ringEnableWrite fn ring cq a => Sys2Proof.Machine.execRingEnableWrite fn ring cq a s
  | .stgEntryWrite fn b n val a => Sys2Proof.Machine.execStgEntryWrite fn b n val a s
  | .stgClear fn b a => Sys2Proof.Machine.execStgClear fn b a s
  | .stgCheck fn b a => Sys2Proof.Machine.execStgCheck fn b a s
  | .stgApply fn b a => Sys2Proof.Machine.execStgApply fn b a s
  | .stgCancel fn b a => Sys2Proof.Machine.execStgCancel fn b a s
  | .retireReq fn a => Sys2Proof.Machine.execRetireReq fn a s
  | .unretireReq fn a => Sys2Proof.Machine.execUnretireReq fn a s
  | .attGo fn a => Sys2Proof.Machine.execAttGo fn a s
  | .rcvGo fn a image => Sys2Proof.Machine.execRcvGo fn a image s
  | .evtRingEnable fn a => Sys2Proof.Machine.execEvtRingEnable fn a s
  | .evtRingHeadWrite fn a => Sys2Proof.Machine.execEvtRingHeadWrite fn a s
  | .lnkPhyWrite fn port a => Sys2Proof.Machine.execLnkPhyWrite fn port a s
  | .functionLevelReset fn => Sys2Proof.Machine.execFunctionLevelReset fn s
  | .vfEnableClear => Sys2Proof.Machine.execVfEnableClear s
  | .conventionalReset => Sys2Proof.Machine.execConventionalReset s
  | .coldReset coldest gpio => Sys2Proof.Machine.execColdReset coldest gpio s
  | .bootTempRetry coldest => Sys2Proof.Machine.execBootTempRetry coldest s
  | .powerDown => Sys2Proof.Machine.execPowerDown s
  | .prochotAssert => Sys2Proof.Machine.execProchotAssert s
  | .prochotRelease => Sys2Proof.Machine.execProchotRelease s
  | .thermtrip => Sys2Proof.Machine.execThermtrip s
  | .refclkLoss k => Sys2Proof.Machine.execRefclkLoss k s
  | .refclkReturn k => Sys2Proof.Machine.execRefclkReturn k s
  | .railFault r => Sys2Proof.Machine.execRailFault r s
  | .avsTimeout q => Sys2Proof.Machine.execAvsTimeout q s
  | .smbPlimitWrite code v pec => Sys2Proof.Machine.execSmbPlimitWrite code v pec s
  | .smbAlertmaskWrite v pec => Sys2Proof.Machine.execSmbAlertmaskWrite v pec s
  | .smbAlertResponse x => Sys2Proof.Machine.execSmbAlertResponse x s
  | .prtReset p => Sys2Proof.Machine.execPrtReset p s
  | .stgCheckDone b => Sys2Proof.Machine.execStgCheckDone b s
  | .attReportDone written => Sys2Proof.Machine.execAttReportDone written s
  | .moveDone ring cmdid reply => Sys2Proof.Machine.execMoveDone ring cmdid reply s
  | .avsRequestComplete q => Sys2Proof.Machine.execAvsRequestComplete q s
  | .vauxLoss => Sys2Proof.Machine.execVauxLoss s
  | .vfEnableSet n => Sys2Proof.Machine.execVfEnableSet n s

end Sys2Proof.Machine
end

