-- ==== Sys2Proof/WellFormed.lean ====
section
/-! DEFINITION. Well-formed commands: what the types of the operands do not say. A command that is not well-formed stands for
no event of the V12. -/

namespace Sys2Proof

/-- A message with data carries LEN + 1 bytes (R382). -/
def sizedOk (m : Msg) : Bool := m.data.length == m.len.toNat + 1

/-- A command ring takes a record of an OP (R429). -/
def ringTakes (ring : Ring) (op : Nat) : Bool :=
  match ring with
  | .admin => op == 4 || op == 5 || op == 7 || op == 8
  | .ctx _ => decide (1 ≤ op) && decide (op ≤ 7)

/-- A record is that of a row's OP, or one that its ring does not take, which is decoded under any row (R430, R431). -/
def recordOf (ring : Ring) (r : Rec) (op : Nat) : Bool :=
  Machine.fld r.w0 7 0 == op || !ringTakes ring (Machine.fld r.w0 7 0)

/-- A CRITICAL record is that of a row's KIND, or of an undefined KIND, and the host returns as many payload bytes as the
record names (R430, R446). -/
def criticalOf (r : Rec) (payload : HostReply) (kind : Nat) : Bool :=
  let k := Machine.fld r.w1 7 0
  Machine.fld r.w0 7 0 == 8 && (k == kind || k == 0 || decide (8 < k)) &&
    (match payload with
     | .ok d => decide (d.length = Machine.fld r.w1 39 8)
     | .bad => true)

/-- A page of a function's BAR2 (R421). -/
def pageOk (fn : Func) (page : Fin 64) : Bool := fn == 0 || decide (page.val < 16)

/-- An access lies in its BAR (R421). -/
def tlpOk (x : Tlp) : Bool :=
  match x.space with
  | .bar0 => decide (x.off < 0x4000000)
  | .bar2 => decide (x.off < if x.fn = 0 then 0x40000 else 0x10000)
  | .config _ => true

/-- Whether a command is well-formed. The arms that answer `true` have operand types that admit no other value. -/
def Instr.wf (i : Instr) : Bool :=
  match i with
  | .nop _ _ r => r.all (fun op => !(Necel.opcodes.contains op))
  | .loop _ _ | .jmp _ _ | .brCond _ _ | .call _ _ | .ret _ _ | .wait _ _ | .semWaitSatisfied _ | .sig _ _
  | .turn _ _ | .fence _ _ | .fenceRelease _ | .halt _ _ | .add _ _ | .sub _ _ | .mul _ _ | .divu _ _ | .remu _ _
  | .and _ _ | .or _ _ | .xor _ _ | .shl _ _ | .shr _ _ | .sar _ _ | .min _ _ | .max _ _ | .slt _ _ | .li _ _
  | .mov _ _ | .lds _ _ | .sts _ _ | .hget _ _ | .hset _ _ | .splBegin _ _ | .splPoolGrant _ | .splCommit _ _
  | .commitCheck _ _ | .shadowFillComplete _ _ | .splAbort _ _ | .splStatus _ _ | .draftLd _ _ | .draftSt _ _
  | .draftGather _ _ | .draftMcastSend _ _ | .draftMcastRecv _ _ | .draftPlanStart _ _ | .draftPlanAdvance _ _
  | .planCursor _ | .draftWait _ _ | .draftWaitFree _ _ | .draftWaitClose _ _ | .draftWaitDone _ | .tileArrive _ _ _
  | .migrationComplete _ | .slotDrain _ _ | .gatherEntryDeliver _ _ | .mcastTileDeliver _ _ | .streamStall _ _
  | .engineComplete _ _ | .mma _ _ | .qnt _ _ | .vadd _ _ | .vmul _ _ | .vfma _ _ | .vmax _ _ | .vmin _ _ | .vred _ _
  | .vcvt _ _ | .vepi _ _ | .vrot _ _ | .vfn _ _ | .vstat _ _ | .vnorm _ _ | .vsmxScore _ _ | .vsmxAcc _ _
  | .vsmxRecomp _ _ | .vsmxEnd _ _ | .cardBuild _ _ | .cardSel _ _ | .swConv _ _ | .swPool _ _ | .swBox _ _
  | .swNms _ _ | .swPatch _ _ | .swPix _ _ | .vrng _ _ | .lkPut _ _ | .lkGet _ _ | .lkAdd _ _ | .lkSig _ _
  | .lkMcast _ _ | .lkWait _ _ | .lkWaitDone _ | .cdcSubmit _ _ | .reelMark _ _ | .cdcJobStart _ | .cdcUnitDone _ _
  | .cdcJobEnd _ | .strokeEdge _ | .fineTick _ | .turnOverrun _ | .treadleMarkerSend | .trdMarkerReceive _ _
  | .trdParentTimeout | .trdSyncInEdge | .hbmTempRead _ _ | .plyHeartbeatReceive _ | .plyHeartbeatAck _
  | .plyRecordReceive _ | .plyRecordAck _ | .plyLoss | .plyTakeover | .plyJoin | .plyJoined | .reelDeliver _
  | .contextSuspend _ | .saveComplete _ | .restoreComplete _ | .uncorrectableError _ | .retireWindowClose _
  | .watchdogExpiry | .flitReceive _ _ | .portTrain _ | .portStateReport _ _ | .messageForward _
  | .getRequest _ | .getResponse _ | .linkSignal _ | .draftTile _ | .tileRequest _ | .acknowledgement _ | .refusal _
  | .responseTimeout _ _ | .sqTailWrite _ .admin _ | .cqHeadWrite _ .admin _ | .hostWindowCompletion _ _
  | .ctxHtabWrite _ _ _ | .ctxLkcredWrite _ _ _ | .ringEnableWrite _ _ _ _ | .stgEntryWrite _ _ _ _ _
  | .stgClear _ _ _ | .stgCheck _ _ _ | .stgApply _ _ _ | .stgCancel _ _ _ | .attGo _ _ | .rcvGo _ _ _
  | .evtRingEnable _ _ | .evtRingHeadWrite _ _ | .lnkPhyWrite _ _ _ | .functionLevelReset _ | .vfEnableClear
  | .conventionalReset | .coldReset _ _ | .bootTempRetry _ | .powerDown | .prochotAssert | .prochotRelease | .thermtrip
  | .refclkLoss _ | .refclkReturn _ | .railFault _ | .avsTimeout _ | .smbPlimitWrite _ _ _ | .smbAlertmaskWrite _ _
  | .retireReq _ _ | .unretireReq _ _ | .smbAlertResponse _ | .prtReset _ | .stgCheckDone _ | .attReportDone _ | .moveDone _ _ _ | .avsRequestComplete _
  | .vauxLoss => true
  | .correctedError u => decide (u.idx < Machine.unitCount u.ty)
  | .portTrained _ r => decide (r.lanes.val ∈ [0, 2, 4, 8])
  | .put m => sizedOk m
  | .atomicAdd m => sizedOk m
  | .multicastPut m => sizedOk m
  | .create ring r => recordOf ring r 1
  | .launch ring r => recordOf ring r 2
  | .teardown ring r => recordOf ring r 3
  | .move ring r => recordOf ring r 4
  | .ringFence ring r => recordOf ring r 5
  | .signal ring r => recordOf ring r 6
  | .stage ring r => recordOf ring r 7
  | .fwLoad r p => criticalOf r p 1
  | .fwActivate r p => criticalOf r p 2
  | .stageApply r p => criticalOf r p 3
  | .keyInstall r p => criticalOf r p 4
  | .keyRotate r p => criticalOf r p 5
  | .debugUnlock r p => criticalOf r p 6
  | .reelExport r p => criticalOf r p 7
  | .devidAssign r p => criticalOf r p 8
  | .bar4Read _ _ len => decide (0 < len)
  | .bar4Write _ _ data _ => !data.isEmpty
  | .inlineRecord fn page _ _ => pageOk fn page
  | .sqTailWrite fn (.ctx c) _ => pageOk fn c
  | .cqHeadWrite fn (.ctx c) _ => pageOk fn c
  | .regWrite x _ => tlpOk x
  | .counterRead x => tlpOk x
  | .regReadLatch x => tlpOk x && x.len == 4
  | .vfEnableSet n => decide (0 < n.val)

end Sys2Proof
end

