-- ==== Sys2Proof/Safety.lean ====
section
/-! DEFINITION. The terms in which claims speak of a run: when a thread issues, what a command answers, when the memories have
their canonical form. -/

namespace Sys2Proof.Machine

/-- Thread `t`, in state `th`, issues its next instruction in `s`: it exists, nothing holds it back, and its program counter is
inside the context's instruction table and has not run off its end (R222, R223). -/
structure Issues (s : State) (t : Tid) (th : Thread) : Prop where
  here : getT? s t = some th
  may : canIssue s t th = true
  inTable : th.pc.toNat < (getC s t.ctx.val).tableWords
  notPast : th.pastEnd = false

/-- The state that an issuing instruction meets: the context's LAUNCH record has completed with its first issue (R429). -/
def atIssue (s : State) (t : Tid) : State := firstIssue s t.ctx.val

/-- A scalar register that a slot names has its value: no load still writes it (R251). -/
def Ready (th : Thread) (v : BitVec 16) : Prop := regPending th v.toNat = false

/-- Every register of the group of `n` that a slot names has its value. -/
def ReadyG (th : Thread) (v : BitVec 16) (n : Nat) : Prop := ∀ k, k < n → Ready th (v + BitVec.ofNat 16 k)

/-- A command completes in state `s'`. -/
def Completes (i : Instr) (s s' : State) : Prop := exec i s = .next s'

/-- An instruction is refused as the flyer refuses it: a program fault at the thread's word tears its context down (R348). -/
def Faults (i : Instr) (s : State) (t : Tid) (th : Thread) (f : PFault) : Prop :=
  exec i s = .next (progFault (atIssue s t) t th.pc f)

/-- A command is no event of the device in the state. -/
def NotNow (i : Instr) (s : State) : Prop := ∃ why, exec i s = .refused (.notEnabled why)

/-- Whether a register with these indices exists: the index ranges of the tables of 21. -/
def Reg.exists' : Reg → Bool
  | .glbRetire t => decide (t < 7)
  | .bar4Win f => decide (f < 16)
  | .rmap w => decide (w < 11)
  | .ce t n => decide (t < 7) && decide (n < unitCount t)
  | .prtComp p | .prtLease p | .prtSave p | .prtSpindles p | .prtSplpool p | .lnkImport p | .cdcCfg p | .reelCtl p
  | .reelRing p | .reelHead p | .reelStart p | .reelLost p | .reelStat p | .poolHbm p | .memShare p | .qlive p | .qStat p
  | .qClk p | .secUid p => decide (p < 4)
  | .prtSem p n => decide (p < 4) && decide (n < 256)
  | .numpol c | .qhpol c | .timepol c | .tstat c | .detstat c | .htab c | .lkcred c | .ctxHost c | .sqBase c | .sqCtl c
  | .cqBase c | .cqCtl c | .ctxState c => decide (c < 64)
  | .stgEaddr b n | .stgEval b n => decide (b < 5) && decide (n < 256)
  | .stgClear b | .stgCheck b | .stgApply b | .stgCancel b | .stgStatus b => decide (b < 5)
  | .attNonce i | .cdcCore i => decide (i < 8)
  | .cnt c i => decide (c < 64) && decide (i < 40)
  | .poolBt n | .blive n | .lnkPhy n | .lnkPort n | .feccor n | .retry n | .unreach n => decide (n < 16)
  | .hbmTemp n => decide (n < 12)
  | .rwinBase p n | .rwinHold p n | .rwinSize p n => decide (p < 4) && decide (n < 16)
  | .ureg n | .mcg n => decide (n < 256)
  | .detour n => decide (n < 8192)
  | .qSpin q n => decide (q < 4) && decide (n < 16)
  | .qPc q n => decide (q < 4) && decide (n < 96)
  | _ => true

/-- Every byte memory of the device has its canonical form. -/
def State.memOk (s : State) : Bool :=
  Memory.wf s.mem && s.bobbin.all (fun x => Memory.wf x.2) && s.scratch.all (fun x => Memory.wf x.2)

/-- Every byte memory has its canonical form, and the keys of the register, ring, bobbin, scratch and image tables
rise. -/
def State.wf (s : State) : Bool :=
  State.memOk s && tabRising s.regs && tabRising s.act && tabRising s.rings && tabRising s.bobbin &&
  tabRising s.scratch

end Sys2Proof.Machine
end

