-- ==== Sys2Proof/Certificates/Slice0/Obligations.lean ====
section
/-! DEFINITION. The statements of this row: what every family of commands does, and what holds of every step. -/

open Sys2Proof Sys2Proof.Machine

/-! ## The queue and reset -/

/-- A step takes the command at the front of the queue and runs it on the state with the queue's rest; with an empty queue the
block idles (the model's choice, log 1). -/
def Obligations.StepTakesFront : Prop :=
  (∀ (c : Instr) (rest : List Instr) (s : State),
    step { s with pending := c :: rest } = exec c { s with pending := rest }) ∧
  (∀ s : State, s.pending = [] → step s = .next s)

/-- The state after reset holds the values of the Reset columns (21, 22), no context, thread, stream or splice, an empty
queue, and memories in canonical form. That memory that nothing has written reads 0 is the model's choice (log 4). Registers
without a Reset value, and that the block has booted, are the model's choice too (log 10). -/
def Obligations.ResetState : Prop :=
  let z := State.reset
  (∀ r : Reg, getR z r = r.reset) ∧
  getR z .glbId = 0x1E9C0C12A1000000 ∧ getR z .trdStroke = 500 ∧ getR z .trdIndex = 0 ∧ getR z .lnkCfg = 0x400 ∧
  getR z .plyCfg = 0x4200 ∧ getR z .admSqCtl = 0x40000 ∧
  (∀ c, getR z (.qhpol c) = 0x60 ∧ getR z (.lkcred c) = 255 ∧ getR z (.sqCtl c) = 0x40000 ∧ getR z (.htab c) = 0 ∧
    getR z (.ctxHost c) = 0 ∧ (getC z c).st = .none ∧ getRing z c = {}) ∧
  (∀ p, getR z (.memShare p) = 0x0CCB ∧ getR z (.prtComp p) = 0 ∧ pValid z p = false) ∧
  (∀ r : Reg, actR z r = r.reset) ∧ z.power.plimit = 2600 ∧ z.power.alertMask = 0x001C ∧ freq z = 2700 ∧
  z.pending = [] ∧ z.threads = [] ∧ z.streams = [] ∧ z.splices = [] ∧ z.evtPhase = true ∧
  (∀ a, memByte z.mem a = 0) ∧ State.wf z = true

/-! ## Scalar instructions and control (11) -/

/-- The scalar ALU and `li` (R260): destination in slot 0, operand a in slot 1, operand b in slot 2 as a register or, with
IMM, an imm16 sign-extended; every result modulo 2^64. The instruction completes with the destination written, the program
counter moved on, and nothing else written beyond what its issue writes. A register written holds the value, every other
register keeps its own, and s0 reads 0 and ignores writes (R222). -/
def Obligations.ScalarAluResults : Prop :=
  (∀ (s : State) (t : Tid) (th : Thread) (f : Fields), Issues s t th →
     let imm := bit f.variant 0
     let uns := bit f.variant 1
     let a : Word := reg th f.sl1.toNat
     let b : Word := if imm then f.sl2.signExtend 64 else reg th f.sl2.toNat
     let sources := Ready th f.sl1 ∧ (imm = false → Ready th f.sl2)
     let form (var : Nat) := formOk f var 0 [.scalar, .scalar, if imm then .imm else .scalar] = true
     let writes (i : Instr) (v : Word) := Completes i s (stepOn (atIssue s t) t (dst th f.sl0 v))
     (sources → form 1 →
       writes (.add t f) (a + b) ∧ writes (.sub t f) (a - b) ∧ writes (.mul t f) (a * b) ∧
       writes (.divu t f) (if b = 0 then 0xFFFFFFFFFFFFFFFF else a / b) ∧
       writes (.remu t f) (if b = 0 then a else a % b) ∧
       writes (.and t f) (a &&& b) ∧ writes (.or t f) (a ||| b) ∧ writes (.xor t f) (a ^^^ b) ∧
       writes (.shl t f) (a <<< (b.toNat % 64)) ∧ writes (.shr t f) (a >>> (b.toNat % 64)) ∧
       writes (.sar t f) (a.sshiftRight (b.toNat % 64))) ∧
     (sources → form 3 →
       let less : Bool := if uns then decide (a.toNat < b.toNat) else decide (a.toInt < b.toInt)
       let more : Bool := if uns then decide (b.toNat < a.toNat) else decide (b.toInt < a.toInt)
       writes (.min t f) (if more then b else a) ∧ writes (.max t f) (if less then b else a) ∧
       writes (.slt t f) (if less then 1 else 0)) ∧
     (imm = false → formOk f 1 0 [.scalar, .imm, .imm, .imm] = true →
       writes (.li t f) ((f.sl3 ++ f.sl2 ++ f.sl1 : BitVec 48).signExtend 64)) ∧
     (imm = true → formOk f 1 0 [.scalar, .imm] = true → Ready th f.sl0 →
       writes (.li t f) (f.sl1 ++ (reg th f.sl0.toNat).setWidth 48 : BitVec 64))) ∧
  (∀ (th : Thread) (x : BitVec 16) (v : Word) (k : Nat), k < 64 → x.toNat < 64 →
     reg (dst th x v) k = (if k = 0 then 0 else if k = x.toNat then v else reg th k))

/-- `mov` (R261): register to register, loop counter to register, bits 31:0 of a register to a loop counter, special value to
register; the reserved special values are a decode fault. -/
def Obligations.MovForms : Prop :=
  ∀ (s : State) (t : Tid) (th : Thread) (f : Fields), Issues s t th →
    let s1 := atIssue s t
    let form := fld f.ext 2 0
    let writes (v : Word) := Completes (.mov t f) s (stepOn s1 t (dst th f.sl0 v))
    (form = 0 → formOk f 0 7 [.scalar, .scalar] = true → Ready th f.sl1 → writes (reg th f.sl1.toNat)) ∧
    (form = 1 → formOk f 0 7 [.scalar, .counter] = true →
      writes ((th.lc.get (Fin.ofNat 4 f.sl1.toNat)).zeroExtend 64)) ∧
    (form = 2 → formOk f 0 7 [.counter, .scalar] = true → Ready th f.sl1 →
      Completes (.mov t f) s (stepOn s1 t
        { th with lc := th.lc.set (Fin.ofNat 4 f.sl0.toNat) ((reg th f.sl1.toNat).setWidth 32) })) ∧
    (form = 3 → formOk f 0 7 [.scalar, .imm] = true →
      (f.sl1 = 0 → writes (BitVec.ofNat 64 t.lsp.val)) ∧
      (f.sl1 = 1 → writes (BitVec.ofNat 64 (ctxNL s1 t.ctx.val))) ∧
      (f.sl1 = 2 → writes (BitVec.ofNat 64 t.ctx.val)) ∧
      (f.sl1 = 3 → writes (if (getC s1 t.ctx.val).filler then 1 else 0)) ∧
      (f.sl1 = 4 → writes (BitVec.ofNat 64 (devId s1))) ∧
      (f.sl1 = 5 → writes (strokeNow s1)) ∧
      (f.sl1 = 6 → writes (match th.turn with
        | some u => BitVec.ofNat 64 u.start
        | none => 0)) ∧
      (7 ≤ f.sl1.toNat → Faults (.mov t f) s t th fDecode)) ∧
    (4 ≤ form → Faults (.mov t f) s t th fDecode)

/-- A word whose fields break the form of its instruction, or whose opcode is reserved (R249, R250, R253-R303), is refused at decode: no
register or memory is written, and the context is torn down with a DECODE fault at that word. Every instruction is named with the form of
its slots, variant and extension and with the values that its fields may not take. That a reserved opcode comes under `nop`'s row is the
model's choice (log 11). -/
def Obligations.DecodeRefusals : Prop :=
  ∀ (s : State) (t : Tid) (th : Thread) (f : Fields), Issues s t th →
    let b : SlotK := if bit f.variant 0 then .imm else .scalar
    let v (n : Nat) : Bool := bit f.variant n
    let low (n : Nat) : Nat := fld f.variant n 0
    let cut (m : BitVec 8) : Fields := { f with variant := f.variant &&& m }
    let opt (b : Bool) (k : SlotK) : SlotK := if b then k else .unused
    let broken (var ext : Nat) (ks : List SlotK) : Prop := formOk f var ext ks = false
    let refused (is : List Instr) : Prop := ∀ i ∈ is, Faults i s t th fDecode
    -- scalar and control
    (broken 1 0 [.scalar, .scalar, b] → refused [.add t f, .sub t f, .mul t f, .divu t f, .remu t f, .and t f, .or t f, .xor t f,
      .shl t f, .shr t f, .sar t f]) ∧
    (broken 3 0 [.scalar, .scalar, b] → refused [.min t f, .max t f, .slt t f]) ∧
    (broken 1 0 (if v 0 then [.scalar, .imm] else [.scalar, .imm, .imm, .imm]) → refused [.li t f]) ∧
    (∀ ks, (fld f.ext 2 0, ks) ∈ [(0, [SlotK.scalar, .scalar]), (1, [.scalar, .counter]), (2, [.counter, .scalar]), (3, [.scalar, .imm])] →
      broken 0 7 ks → refused [.mov t f]) ∧
    (broken 7 0 [.scalar, .scalar, .imm] → refused [.lds t f]) ∧ (broken 3 0 [.scalar, .scalar, .imm] → refused [.sts t f]) ∧
    (let h : SlotK := if v 1 then .scalar else .handle
     (broken 3 0 [.scalar, h, if v 0 then .imm else .unused] → refused [.hget t f]) ∧
     (broken 3 0 [h, .scalar, if v 0 then .imm else .unused] → refused [.hset t f]) ∧
     (v 0 = true → 8 ≤ f.sl2.toNat → refused [.hget t f, .hset t f])) ∧
    (broken 0 0 [] → refused [.nop t f none, .ret t f, .halt t f]) ∧
    (∀ w : BitVec 128, w.extractLsb' 120 8 ∉ Necel.opcodes → refused [Necel.command t w]) ∧
    (broken 1 0 [.counter, b, .imm] ∨ f.sl2 = 0 → refused [.loop t f]) ∧
    (broken 1 0 (if v 0 then [.scalar] else [.imm, .imm]) → refused [.jmp t f, .call t f]) ∧
    (let kind := fld f.ext 5 4
     let a : SlotK := if kind = 0 then .scalar else if kind = 1 then .counter else .localSem
     broken 0 0x7F [a, if bit f.ext 6 then .imm else .scalar, .imm, .imm] ∨ 6 ≤ fld f.ext 3 0 ∨ kind = 3 → refused [.brCond t f]) ∧
    (broken 1 0 [if v 0 then .sharedSem else .localSem, .imm] ∨ f.sl1 = 0 → refused [.wait t f]) ∧
    (broken 1 0 [if v 0 then .unused else .scalar, if v 0 then .sharedSem else .localSem, .imm] ∨ f.sl2 = 0 → refused [.sig t f]) ∧
    (broken 0 0 [.imm] ∨ f.sl0 = 0 ∨ 255 < f.sl0.toNat → refused [.turn t f]) ∧
    (broken 0xF 0 [] ∨ f.variant = 0 → refused [.fence t f]) ∧
    -- splices, the reel, the codec
    (broken 0 0 [.scalar] → refused [.splBegin t f, .splCommit t f, .splAbort t f]) ∧
    (broken 0 0 [.scalar, .scalar, .imm] ∨ 4 < f.sl2.toNat → refused [.splStatus t f]) ∧
    (broken 0 0 [.scalar, .imm] → refused [.reelMark t f]) ∧
    (broken 0 0 [.scalar, .localSem, .imm] ∨ f.sl2 = 0 → refused [.cdcSubmit t f]) ∧
    -- streams and plans
    (broken 0 0 [.stream, .handle, .scalar, .group 2] → refused [.draftLd t f, .draftSt t f]) ∧
    (broken 0 0 [.stream, .handle, .scalar, .handle, .scalar, .scalar] → refused [.draftGather t f]) ∧
    (broken 0 0 [.stream, .handle, .scalar, .group 2, .imm, .imm] ∨ 255 < f.sl4.toNat ∨ f.sl5 = 0 ∨ 64 < f.sl5.toNat →
      refused [.draftMcastSend t f]) ∧
    (formOk (cut 0xFE) 0 0 [.stream, .imm, .scalar] = false ∨ 255 < f.sl1.toNat → refused [.draftMcastRecv t f]) ∧
    (broken 0 0 [.handle, .imm, .imm] ∨ 255 < f.sl1.toNat ∨ f.sl2 = 0 ∨ 64 < f.sl2.toNat → refused [.draftPlanStart t f]) ∧
    (formOk (cut 0xFE) 0 0 [.scalar, .imm] = false ∨ 255 < f.sl1.toNat → refused [.draftPlanAdvance t f]) ∧
    (broken 0 0 [.stream, .scalar] → refused [.draftWait t f]) ∧
    (formOk (cut 0xFD) 0 0 [.stream, .unused] = false → refused [.draftWaitFree t f]) ∧
    (formOk (cut 0xFE) 0 0 [.stream, .unused] = false → refused [.draftWaitClose t f]) ∧
    -- matrix and vector
    (broken 0x1F 0 [.handle, .handle, if v 4 then .scalar else .handle, .scalar, .scalar, .scalar] ∨ low 2 = 7 ∨
      (v 3 = true ∧ low 2 ≠ 1 ∧ low 2 ≠ 5) → refused [.mma t f]) ∧
    (let vop : Bool := fld f.variant 3 2 == 2
     let c := fld f.ext 12 0
     broken 0x3F 0x1FFF [.handle, .stream, opt vop .scalar, .scalar, opt (v 4) .handle, opt vop .scalar] ∨
       low 1 = 3 ∨ fld f.variant 3 2 = 3 ∨ 4096 < c ∨ (low 1 ≠ 0 ∧ (v 4 = true ∨ c ≠ 0)) → refused [.qnt t f]) ∧
    (broken 3 0 [.scalar, .scalar, .scalar] ∨ (v 0 = true ∧ v 1 = true) → refused [.vadd t f, .vmul t f]) ∧
    (formOk (cut 0xEF) 3 0 [.scalar, .scalar, .scalar] = false ∨ (v 0 = true ∧ v 1 = true) → refused [.vmax t f, .vmin t f]) ∧
    (broken 0xF 0 [.scalar, .scalar, .scalar, .scalar] ∨ (v 0 = true ∧ v 1 = true) ∨ (v 2 = true ∧ v 3 = true) → refused [.vfma t f]) ∧
    (let form := fld f.variant 4 3
     broken 0x3F 0 [.scalar, if v 5 then .stream else .scalar, opt (form == 1) .scalar, opt (form != 0 || v 5) .scalar,
         opt (form == 1) .scalar] ∨ 5 ≤ low 2 ∨ form = 3 ∨ (v 5 = true ∧ form = 2) → refused [.vred t f]) ∧
    (let form := low 1
     broken 0xF 0 [.scalar, if v 2 then .stream else .scalar, opt (form == 0) .scalar, opt (form == 1) .scalar,
         opt (form != 0 || v 2) .scalar, opt (form == 1) .scalar] ∨ form = 3 ∨ (v 2 = true ∧ form = 2) ∨ (v 3 = true ∧ form ≠ 0) →
       refused [.vstat t f]) ∧
    (broken 0 0 [.scalar, .scalar] → refused [.vcvt t f]) ∧ (broken 7 0 [.scalar, .scalar] → refused [.vfn t f]) ∧
    (broken 0xFF 0 [opt (!v 4) .scalar, opt (!v 3) .scalar, .scalar, .scalar, .scalar] ∨ 6 ≤ low 2 → refused [.vepi t f]) ∧
    (broken 0 0 [.scalar, .scalar, .scalar, .scalar] → refused [.vrot t f]) ∧
    (broken 0xF 0 [.scalar, .scalar, .group 2, .scalar, .scalar, .scalar] ∨ low 1 = 3 → refused [.vnorm t f]) ∧
    (broken 3 0 [.scalar, .group 2, .group 2] ∨ low 1 = 3 → refused [.vrng t f]) ∧
    -- attention, carding, swift
    (∀ i rc, (i, rc) ∈ [(Instr.vsmxScore t f, false), (.vsmxAcc t f, false), (.vsmxRecomp t f, true)] →
      low 1 = 3 ∨ formOk (cut 0xFC) 0 0 [.group 4, .scalar, .stream, .stream, opt rc .handle, opt rc .scalar] = false → refused [i]) ∧
    (broken 1 0 [.group 4, .scalar, opt (v 0) .handle, opt (v 0) .scalar] → refused [.vsmxEnd t f]) ∧
    (broken 0 0 [.handle, .handle, .scalar] → refused [.cardBuild t f]) ∧
    (broken 0x7F 0x3FF [.handle, .handle, .handle, .handle, .group 4] ∨ 64 < low 6 ∨ fld f.ext 9 0 = 0 ∨ 512 < fld f.ext 9 0 →
      refused [.cardSel t f]) ∧
    (broken 7 0x7FFF [.handle, .handle, .handle, opt (v 2) .handle, .group 2] ∨ fld f.ext 2 0 = 7 ∨ fld f.ext 5 3 = 7 ∨
      fld f.ext 8 6 = 7 → refused [.swConv t f]) ∧
    (broken 3 0x1FF [.handle, .handle, .imm, .scalar] ∨ fld f.sl2 15 9 ≠ 0 → refused [.swPool t f]) ∧
    (broken 1 0 [.handle, .handle, .handle, .group 3] → refused [.swBox t f]) ∧
    (broken 1 0 [.handle, .handle, opt (v 0) .handle, .handle, .group 3] → refused [.swNms t f]) ∧
    (broken 1 0x3F [.handle, .handle] → refused [.swPatch t f]) ∧
    (broken 3 0 [.handle, .handle, .handle, .handle, .scalar] → refused [.swPix t f]) ∧
    -- links
    (16 ≤ f.sl4.toNat → refused [.lkPut t f, .lkGet t f, .lkAdd t f, .lkMcast t f]) ∧
    (broken 1 0 [.handle, .scalar, .scalar, .scalar, .imm, opt (v 0) .scalar] → refused [.lkPut t f]) ∧
    (broken 0 0 [.handle, .scalar, .scalar, .scalar, .imm] → refused [.lkGet t f]) ∧
    (broken 0xF 0 [.handle, .scalar, .scalar, .scalar, .imm, opt (v 3) .scalar] → refused [.lkAdd t f]) ∧
    (broken 1 0 [.scalar, .imm] ∨ 16 ≤ f.sl1.toNat → refused [.lkSig t f]) ∧
    (broken 0 0 [.handle, .scalar, .group 2, .scalar, .imm] → refused [.lkMcast t f]) ∧
    (broken 0 0 [.imm] ∨ f.sl0 = 0 → refused [.lkWait t f])

/-- `lds` and `sts` (R262): the effective address is the register of slot 1 plus the imm16, one access of 1, 2, 4 or 8 bytes,
aligned to its width; `lds` zero- or sign-extends, `sts` writes the low bytes of its source, little-endian. To memory the
access is done at once; to the host window a load is sent out and its register written when it returns (R424), and a store
leaves as one write; both carry the context's function and PASID. A load, but no store, of a reel's ring is an address fault
(R366). -/
def Obligations.LoadStoreResults : Prop :=
  ∀ (s : State) (t : Tid) (th : Thread) (f : Fields), Issues s t th →
    let s1 := atIssue s t
    let g : Word := reg th f.sl1.toNat + f.sl2.signExtend 64
    let a := localOf g
    let n := 2 ^ fld f.variant 1 0
    let legal := Ready th f.sl1 ∧ isLocal s1 g = true ∧ a % n = 0
    (legal → okRead s1 t.ctx.val a n = true → formOk f 7 0 [.scalar, .scalar, .imm] = true →
      (a < hostBase → ∀ s2, admitPages s1 (quarterOf s1 t) t.ctx.val a n false = .ok s2 → ueIn s2 a n = false →
        let v := ofBytes (rd s2 a n)
        Completes (.lds t f) s (stepOn s2 t (dst th f.sl0
          (if bit f.variant 2 then BitVec.ofInt 64 (signedOf (8 * n) v) else BitVec.ofNat 64 v)))) ∧
      (hostBase ≤ a → ∃ th', Completes (.lds t f) s (toHost (stepOn s1 t th') (.read (a - hostBase) n (hostId s1 t.ctx))) ∧
        th'.hostLoads = (dst th f.sl0 (reg th f.sl0.toNat)).hostLoads ++ [⟨f.sl0.toNat, n, bit f.variant 2, a, s1.seq⟩])) ∧
    (legal → okRange s1 t.ctx.val a n = true → formOk f 3 0 [.scalar, .scalar, .imm] = true → Ready th f.sl0 →
      let bs := leBytes n (reg th f.sl0.toNat).toNat
      let s0 := notReplayable s1 t
      (a < hostBase → ∀ s2, admitPages s0 (quarterOf s0 t) t.ctx.val a n true = .ok s2 →
        Completes (.sts t f) s (stepOn (wr s2 a bs) t th)) ∧
      (hostBase ≤ a → Completes (.sts t f) s (stepOn (toHost s0 (.write (a - hostBase) bs (hostId s0 t.ctx))) t th))) ∧
    (Ready th f.sl1 → (isLocal s1 g && a % n == 0 && okRead s1 t.ctx.val a n) = false →
      formOk f 7 0 [.scalar, .scalar, .imm] = true → Faults (.lds t f) s t th (fAddr g)) ∧
    (Ready th f.sl1 → (isLocal s1 g && a % n == 0 && okRange s1 t.ctx.val a n) = false →
      formOk f 3 0 [.scalar, .scalar, .imm] = true → Faults (.sts t f) s t th (fAddr g))

/-- A store writes its bytes and no other (R262, R310): after an `sts` that completes to memory, the bytes at the address it
computes read as its source's low bytes, and every byte outside them reads as before. -/
def Obligations.StoreFrame : Prop :=
  ∀ (s s' : State) (t : Tid) (th : Thread) (f : Fields), Issues s t th → Memory.wf s.mem = true →
    let s1 := atIssue s t
    let g : Word := reg th f.sl1.toNat + f.sl2.signExtend 64
    let a := localOf g
    let n := 2 ^ fld f.variant 1 0
    formOk f 3 0 [.scalar, .scalar, .imm] = true → Ready th f.sl1 → Ready th f.sl0 → a < hostBase →
    isLocal s1 g = true → a % n = 0 → okRange s1 t.ctx.val a n = true → Completes (.sts t f) s s' →
      rd s' a n = leBytes n (reg th f.sl0.toNat).toNat ∧ Memory.wf s'.mem = true ∧
      (∀ k, k < a ∨ a + n ≤ k → memByte s'.mem k = memByte s.mem k)

/-- `hget` and `hset` (R264): one word of a handle-table entry or the whole entry, to or from registers; `hset` writes at once
where no existing splice of the context declares the handle, and is a SPLICE fault where one does; an index beyond SIZE, or a
register with bits above it, is BAD_HANDLE, and a whole-entry form whose first register is not s1 to s56 a decode fault. -/
def Obligations.HandleAccessResults : Prop :=
  ∀ (s : State) (t : Tid) (th : Thread) (f : Fields) (i : Nat), Issues s t th →
    let s1 := atIssue s t
    let a := entryAddr s1 t.ctx.val i
    let named (v : BitVec 16) := (bit f.variant 1 = false → i = v.toNat) ∧
      (bit f.variant 1 = true → Ready th v ∧ i = (reg th v.toNat).toNat ∧ i < 65536)
    let hk : SlotK := if bit f.variant 1 then .scalar else .handle
    (named f.sl1 → idxOk s1 t.ctx.val i = true →
      (bit f.variant 0 = true → formOk f 3 0 [.scalar, hk, .imm] = true → f.sl2.toNat < 8 → ∀ s2 bs,
        readA s1 t (a + 8 * f.sl2.toNat) 8 = .ok (s2, bs) →
        Completes (.hget t f) s (stepOn s2 t (dst th f.sl0 (BitVec.ofNat 64 (ofBytes bs))))) ∧
      (bit f.variant 0 = false → formOk f 3 0 [.scalar, hk, .unused] = true → 1 ≤ f.sl0.toNat → f.sl0.toNat ≤ 56 →
        ∀ s2 bs, readA s1 t a 64 = .ok (s2, bs) → ∃ th', Completes (.hget t f) s (stepOn s2 t th') ∧
          (∀ k, k < 8 → reg th' (f.sl0.toNat + k) = BitVec.ofNat 64 (ofBytes ((bs.drop (8 * k)).take 8))) ∧
          (∀ k, k < 64 → k < f.sl0.toNat ∨ f.sl0.toNat + 8 ≤ k → reg th' k = reg th k))) ∧
    (named f.sl0 → idxOk s1 t.ctx.val i = true → (declOf s1 t.ctx.val i).isNone = true →
      (bit f.variant 0 = true → formOk f 3 0 [hk, .scalar, .imm] = true → f.sl2.toNat < 8 → Ready th f.sl1 → ∀ s2,
        writeA (noteHset s1 t a) t (a + 8 * f.sl2.toNat) (wordBytes (reg th f.sl1.toNat)) = .ok s2 →
        Completes (.hset t f) s (stepOn s2 t th)) ∧
      (bit f.variant 0 = false → formOk f 3 0 [hk, .scalar, .unused] = true → 1 ≤ f.sl1.toNat → f.sl1.toNat ≤ 56 →
        ReadyG th f.sl1 8 → ∀ s2,
        writeA (noteHset s1 t a) t a ((List.range 8).flatMap (fun k => wordBytes (reg th (f.sl1.toNat + k)))) = .ok s2 →
        Completes (.hset t f) s (stepOn s2 t th))) ∧
    (let w := bit f.variant 0
     let last : SlotK := if w then .imm else .unused
     let gets := formOk f 3 0 [.scalar, hk, last] = true
     let sets := formOk f 3 0 [hk, .scalar, last] = true
     let whole (v : BitVec 16) := 1 ≤ v.toNat ∧ v.toNat ≤ 56
     let legal (v : BitVec 16) := (w = true → f.sl2.toNat < 8) ∧ (w = false → whole v)
     let wide (v : BitVec 16) := bit f.variant 1 = true ∧ Ready th v ∧ 65536 ≤ (reg th v.toNat).toNat
     let low (v : BitVec 16) := (reg th v.toNat).toNat % 65536
     (gets → w = false → ¬ whole f.sl0 → Faults (.hget t f) s t th fDecode) ∧
     (sets → w = false → ¬ whole f.sl1 → Faults (.hset t f) s t th fDecode) ∧
     (gets → legal f.sl0 → (wide f.sl1 → Faults (.hget t f) s t th (fHandle (low f.sl1))) ∧
       (named f.sl1 → idxOk s1 t.ctx.val i = false → Faults (.hget t f) s t th (fHandle i))) ∧
     (sets → legal f.sl1 → (wide f.sl0 → Faults (.hset t f) s t th (fHandle (low f.sl0))) ∧
       (named f.sl0 → idxOk s1 t.ctx.val i = false → Faults (.hset t f) s t th (fHandle i)) ∧
       (named f.sl0 → idxOk s1 t.ctx.val i = true → (declOf s1 t.ctx.val i).isSome = true →
         Faults (.hset t f) s t th fSplice)))

/-- `nop`, `jmp`, `br.cond`, `call` and `ret` (R251, R254-R256): the transfer of control, its target, the call stack, and the
loops it leaves; a branch that does not hold goes on to the next word; the reserved conditions and operand kinds are a decode
fault. A return address of 0, that of a `call` in word 2^32 − 1, stands for the word after it (R223). That the fault of a word
outside the table carries AUX 0 is the model's reading (log 23). -/
def Obligations.TransferResults : Prop :=
  ∀ (s : State) (t : Tid) (th : Thread) (f : Fields), Issues s t th →
    let s1 := atIssue s t
    let jumps (i : Instr) (w : Int) (stack : List Half) :=
      (inTable s1 t.ctx.val w = true →
        let pc : Half := BitVec.ofNat 32 w.toNat
        Completes i s (setT { s1 with seq := s1.seq + 1 } t
          { th with pc := pc, stack := stack, loops := leaveLoops th pc stack.length })) ∧
      (inTable s1 t.ctx.val w = false → Faults i s t th (fAddr 0))
    let rel : Int := th.pc.toNat + ((f.sl1 ++ f.sl0 : BitVec 32)).toInt
    (formOk f 0 0 [] = true → Completes (.nop t f none) s (stepOn s1 t th)) ∧
    (bit f.variant 0 = false → formOk f 1 0 [.imm, .imm] = true → jumps (.jmp t f) rel th.stack) ∧
    (bit f.variant 0 = true → formOk f 1 0 [.scalar] = true → Ready th f.sl0 →
      jumps (.jmp t f) (reg th f.sl0.toNat).toNat th.stack) ∧
    (th.stack.length < 8 → bit f.variant 0 = false → formOk f 1 0 [.imm, .imm] = true →
      jumps (.call t f) rel ((th.pc + 1) :: th.stack)) ∧
    (th.stack.length < 8 → bit f.variant 0 = true → formOk f 1 0 [.scalar] = true → Ready th f.sl0 →
      jumps (.call t f) (reg th f.sl0.toNat).toNat ((th.pc + 1) :: th.stack)) ∧
    (8 ≤ th.stack.length → bit f.variant 0 = false → formOk f 1 0 [.imm, .imm] = true →
      Faults (.call t f) s t th fCallDepth) ∧
    (formOk f 0 0 [] = true → th.stack = [] → Faults (.ret t f) s t th fCallDepth) ∧
    (∀ w rest, formOk f 0 0 [] = true → th.stack = w :: rest → jumps (.ret t f) (if w = 0 then 2 ^ 32 else (w.toNat : Int)) rest) ∧
    (let cond := fld f.ext 3 0
     let kind := fld f.ext 5 4
     let bimm := bit f.ext 6
     let ka : SlotK := if kind = 0 then .scalar else if kind = 1 then .counter else .localSem
     let a : Word := if kind = 0 then reg th f.sl0.toNat
       else if kind = 1 then (th.lc.get (Fin.ofNat 4 f.sl0.toNat)).zeroExtend 64
       else (th.sems.get (Fin.ofNat 16 f.sl0.toNat)).zeroExtend 64
     let b : Word := if bimm then f.sl1.signExtend 64 else reg th f.sl1.toNat
     let holds : Bool := match cond with
       | 0 => a == b
       | 1 => a != b
       | 2 => decide (a.toInt < b.toInt)
       | 3 => decide (b.toInt ≤ a.toInt)
       | 4 => decide (a.toNat < b.toNat)
       | _ => decide (b.toNat ≤ a.toNat)
     formOk f 0 0x7F [ka, if bimm then .imm else .scalar, .imm, .imm] = true → cond < 6 → kind < 3 →
     (kind = 0 → Ready th f.sl0) → (bimm = false → Ready th f.sl1) →
      (holds = true → jumps (.brCond t f) (th.pc.toNat + ((f.sl3 ++ f.sl2 : BitVec 32)).toInt) th.stack) ∧
      (holds = false → Completes (.brCond t f) s (stepOn s1 t th))) ∧
    (6 ≤ fld f.ext 3 0 ∨ fld f.ext 5 4 = 3 → Faults (.brCond t f) s t th fDecode)

/-- `loop` and the end test (R253): a count of 0 skips the body; another count starts the loop with its record. A loop whose
counter is active is LOOP_BUSY, and an end word outside the instruction table an address fault. A program counter that goes on
past word 2^32 − 1 has run off the table (R223). After the word at the end of the only loop that ends there at the thread's
call depth, a count above 1 falls by one and control returns to the start; otherwise the counter becomes 0, the loop is no
longer active and control goes on. That the fault of an end word outside the table carries AUX 0 is the model's reading (log
23). -/
def Obligations.LoopResults : Prop :=
  (∀ (s : State) (t : Tid) (th : Thread) (f : Fields), Issues s t th →
     let s1 := atIssue s t
     let imm := bit f.variant 0
     let i : Fin 4 := Fin.ofNat 4 f.sl0.toNat
     let w := th.pc.toNat
     let l := f.sl2.toNat
     let c : Half := if imm then f.sl1.zeroExtend 32 else (reg th f.sl1.toNat).setWidth 32
     formOk f 1 0 [.counter, if imm then .imm else .scalar, .imm] = true → f.sl2 ≠ 0 → (imm = false → Ready th f.sl1) →
       ((th.loops.get i).active = true → Faults (.loop t f) s t th fLoopBusy) ∧
       ((th.loops.get i).active = false → inTable s1 t.ctx.val (w + l : Nat) = false →
         Faults (.loop t f) s t th (fAddr 0)) ∧
       ((th.loops.get i).active = false → inTable s1 t.ctx.val (w + l : Nat) = true →
         (c = 0 → Completes (.loop t f) s (setT { s1 with seq := s1.seq + 1 } t
           { th with lc := th.lc.set i 0, pc := BitVec.ofNat 32 (w + 1 + l), pastEnd := decide (2 ^ 32 ≤ w + 1 + l) })) ∧
         (c ≠ 0 → Completes (.loop t f) s (stepOn s1 t { th with
           lc := th.lc.set i c
           loops := th.loops.set i { active := true, start := BitVec.ofNat 32 (w + 1), stop := BitVec.ofNat 32 (w + l),
                                     depth := th.stack.length, order := s1.seq } })))) ∧
  (∀ (th : Thread) (i : Fin 4),
     let r := th.loops.get i
     let past (u : Thread) : Thread := { u with pastEnd := u.pc == 0 }
     (endingLoops th th.pc = [] → advance th = past { th with pc := th.pc + 1 }) ∧
     (endingLoops th th.pc = [i] →
       (1 < (th.lc.get i).toNat → advance th = past { th with lc := th.lc.set i (th.lc.get i - 1), pc := r.start }) ∧
       ((th.lc.get i).toNat ≤ 1 → advance th = past
         { th with lc := th.lc.set i 0, loops := th.loops.set i { r with active := false }, pc := th.pc + 1 })))

/-- `wait`, `sig` and the service of a blocked wait (R241, R243, R244, R257). A wait whose count suffices subtracts its
amount, another blocks; a signal adds its amount, and one past 65,535 is a fault; the classes that R243 refuses are faults. A
blocked wait of a present thread is served once its count suffices and no earlier waiter can be served. -/
def Obligations.SemaphoreResults : Prop :=
  (∀ (s : State) (t : Tid) (th : Thread) (f : Fields), Issues s t th →
     let s1 := atIssue s t
     let s2 := notReplayable s1 t
     let sh := bit f.variant 0
     let p := partOf t.ctx.val
     let wn := f.sl0.toNat
     let wa := f.sl1.toNat
     let wi : Fin 16 := Fin.ofNat 16 wn
     let c := (th.sems.get wi).toNat
     let blocks := Completes (.wait t f) s (setT { s2 with seq := s2.seq + 1 } t { th with block := .sem sh wn wa s1.seq })
     let s3 := notReplayable (stepOn s1 t th) t
     let gn := f.sl1.toNat
     let ga := f.sl2.toNat
     (formOk f 1 0 [if sh then .sharedSem else .localSem, .imm] = true → f.sl1 ≠ 0 →
       (sh = false → wa ≤ c → Completes (.wait t f) s (stepOn s2 t { th with sems := th.sems.set wi (BitVec.ofNat 16 (c - wa)) })) ∧
       (sh = false → c < wa → blocks) ∧
       (sh = true → semDefined s1 p wn = false → Faults (.wait t f) s t th fSem) ∧
       (sh = true → semDefined s1 p wn = true → ctxCls s1 t.ctx.val < semClass s1 p wn →
         Faults (.wait t f) s t th fWaitClass) ∧
       (sh = true → semDefined s1 p wn = true → semClass s1 p wn ≤ ctxCls s1 t.ctx.val →
         (wa ≤ sharedCount s1 p wn → earlierServable s2 p wn s1.seq = false →
           Completes (.wait t f) s (stepOn (setShared s2 p wn (sharedCount s1 p wn - wa)) t th)) ∧
         (sharedCount s1 p wn < wa ∨ earlierServable s2 p wn s1.seq = true → blocks))) ∧
     (formOk f 1 0 [if sh then .unused else .scalar, if sh then .sharedSem else .localSem, .imm] = true → f.sl2 ≠ 0 →
       (sh = true → semDefined s1 p gn = false → Faults (.sig t f) s t th fSem) ∧
       (sh = true → semDefined s1 p gn = true → semClass s1 p gn < ctxCls s1 t.ctx.val →
         Faults (.sig t f) s t th fSigClass) ∧
       (sh = true → semDefined s1 p gn = true → ctxCls s1 t.ctx.val ≤ semClass s1 p gn →
         (sharedCount s1 p gn + ga < 65536 → Completes (.sig t f) s (setShared s3 p gn (sharedCount s1 p gn + ga))) ∧
         (65536 ≤ sharedCount s1 p gn + ga → Faults (.sig t f) s t th fSem)) ∧
       (sh = false → Ready th f.sl0 → (reg th f.sl0.toNat).toNat < 64 →
         let u := tid t.ctx.val (reg th f.sl0.toNat).toNat
         let gi : Fin 16 := Fin.ofNat 16 gn
         ∀ y, getT? s3 u = some y →
           ((y.sems.get gi).toNat + ga < 65536 → Completes (.sig t f) s
             (setT s3 u { y with sems := y.sems.set gi (BitVec.ofNat 16 ((y.sems.get gi).toNat + ga)) })) ∧
           (65536 ≤ (y.sems.get gi).toNat + ga → Faults (.sig t f) s t th fSem)))) ∧
  (∀ (s : State) (t : Tid) (th : Thread) (n amount seq : Nat), getT? s t = some th → powered s = true → s.failed = false →
     present s t = true →
     let i : Fin 16 := Fin.ofNat 16 n
     let c := (th.sems.get i).toNat
     let p := partOf t.ctx.val
     (th.block = .sem false n amount seq → amount ≤ c → Completes (.semWaitSatisfied t) s
       (stepOn s t { th with sems := th.sems.set i (BitVec.ofNat 16 (c - amount)), block := .none })) ∧
     (th.block = .sem true n amount seq → amount ≤ sharedCount s p n → earlierServable s p n seq = false →
       Completes (.semWaitSatisfied t) s
         (stepOn (setShared s p n (sharedCount s p n - amount)) t { th with block := .none })) ∧
     (th.block = .sem false n amount seq → c < amount → NotNow (.semWaitSatisfied t) s))

/-- `turn`, `fence`, its release, and `halt` (R234, R258, R259): `turn n` waits for the new turn's start; a fence whose
conditions hold goes on, another blocks until they do; a halted thread with an open splice of its own is HALT_OPEN. -/
def Obligations.TurnFenceHaltResults : Prop :=
  ∀ (s : State) (t : Tid) (th : Thread) (f : Fields),
    let s1 := atIssue s t
    let noHand := (th.accProd.isNone && th.vepiProd.isNone) = true
    let m : BitVec 4 := f.variant.setWidth 4
    let st := startedStreams s1 t
    let quiet := s1.splices.all (fun x => x.opener != t || x.st == .passed)
    (Issues s t th → formOk f 0 0 [.imm] = true → 1 ≤ f.sl0.toNat → f.sl0.toNat ≤ 255 → noHand →
      Completes (.turn t f) s (setT { s1 with seq := s1.seq + 1 } t { th with block := .turn f.sl0.toNat })) ∧
    (Issues s t th → formOk f 0xF 0 [] = true → f.variant ≠ 0 →
      (fenceHolds s1 t th m s1.seq st = true → Completes (.fence t f) s (stepOn s1 t th)) ∧
      (fenceHolds s1 t th m s1.seq st = false → Completes (.fence t f) s
        (setT { s1 with seq := s1.seq + 1 } t { th with block := .fence m s1.seq st }))) ∧
    (∀ mask seq started, getT? s t = some th → th.block = .fence mask seq started → powered s = true → s.failed = false → present s t = true →
      fenceHolds s t th mask seq started = true →
      Completes (.fenceRelease t) s (stepOn s t { th with block := .none })) ∧
    (Issues s t th → formOk f 0 0 [] = true → noHand →
      (quiet = true → Completes (.halt t f) s
        (settle (setT { s1 with seq := s1.seq + 1 } t { th with halted := true }) t.ctx)) ∧
      (quiet = false → Faults (.halt t f) s t th fHaltOpen)) ∧
    (Issues s t th → formOk f 0 0 [] = true → (th.accProd.isNone && th.vepiProd.isNone) = false →
      Faults (.halt t f) s t th fHandoff)

/-- Scalar, control and semaphore instructions leave memory, bobbin memory and vector scratch as they are, in every next
state: where they complete, where they block, and where they fault (R222, R251, R253-R262). -/
def Obligations.ScalarFrame : Prop :=
  ∀ (s s' : State) (t : Tid) (f : Fields) (i : Instr),
    i ∈ ([.nop t f none, .loop t f, .jmp t f, .brCond t f, .call t f, .ret t f, .wait t f, .semWaitSatisfied t, .sig t f, .turn t f,
      .fence t f, .fenceRelease t, .halt t f, .add t f, .sub t f, .mul t f, .divu t f, .remu t f, .and t f, .or t f, .xor t f,
      .shl t f, .shr t f, .sar t f, .min t f, .max t f, .slt t f, .li t f, .mov t f, .splStatus t f, .lkWait t f, .lkWaitDone t,
      .turnOverrun t] : List Instr) →
    exec i s = .next s' → s'.mem = s.mem ∧ s'.scratch = s.scratch ∧ s'.bobbin = s.bobbin ∧ s'.ue = s.ue

/-! ## Splices (13) -/

/-- `spl.begin` (R72, R265, R266, R305, R308): with a legal declaration list, a free slot and shadows within the pool's
capacity, the splice opens and its token is written where its shadows fit the pool's free space, whoever else waits, and the thread
blocks where they do not; without a free slot it is a SPLICE fault. A blocked one opens when its shadows fit, in issue order. An opened splice holds its slot with the slot's next
GEN, its token is in its register and in the register values that a replay restores, and the thread stands at the next word.
Which slot is taken and when is the model's reading (log 64). -/
def Obligations.SpliceBegins : Prop :=
  (∀ (s : State) (t : Tid) (th : Thread) (f : Fields),
     let s1 := atIssue s t
     let p := partOf t.ctx.val
     let r := f.sl0.toNat
     (Issues s t th → formOk f 0 0 [.scalar] = true → Ready th f.sl0 →
       ∀ ds, readDecls s1 t.ctx.val (reg th r) = .ok ds →
         (freeSlot s1 p = none → Faults (.splBegin t f) s t th fSplice) ∧
         (∀ slot, freeSlot s1 p = some slot →
           (poolCapacity s1 p < (ds.map (·.len)).sum → Faults (.splBegin t f) s t th fSplice) ∧
           ((ds.map (·.len)).sum ≤ poolCapacity s1 p →
             (∀ ds' free, poolTakeAll p ds s1.pool = some (ds', free) →
               Completes (.splBegin t f) s (openSplice s1 t th slot r ds' free)) ∧
             (poolTakeAll p ds s1.pool = none →
               Completes (.splBegin t f) s (setT { s1 with seq := s1.seq + 1,
                                                           poolWaited := t.ctx.val :: s1.poolWaited.erase t.ctx.val }
                 t { th with block := .pool r ds s1.seq }))))) ∧
     (∀ k ds seq slot ds' free, powered s = true → s.failed = false → getT? s t = some th → th.block = .pool k ds seq →
       (∀ w ∈ poolWaiters s p, seq ≤ w.2.2) → freeSlot s p = some slot → poolTakeAll p ds s.pool = some (ds', free) →
       Completes (.splPoolGrant t) s (openSplice s t th slot k ds' free))) ∧
  (∀ (s : State) (t : Tid) (th : Thread) (slot k : Nat) (ds : List Decl) (free : List (Nat × Nat × Nat)),
     0 < k → k < 64 → slot < 256 → endingLoops { setReg th k (token t.ctx.val slot (nextGen s (partOf t.ctx.val) slot)) with
       block := .none } th.pc = [] →
     let p := partOf t.ctx.val
     let s' := openSplice s t th slot k ds free
     let tok := token t.ctx.val slot (nextGen s p slot)
     (∃ th', getT? s' t = some th' ∧ reg th' k = tok ∧ th'.pc = th.pc + 1 ∧ th'.block = .none ∧
       ∃ x, s'.splices.getLast? = some x ∧ x.part.val = p ∧ x.slot = slot ∧ x.gen = nextGen s p slot ∧ x.opener = t ∧
         x.st = .opened ∧ x.decls = ds ∧ x.replay.s = th'.s ∧ x.replay.pc = th'.pc ∧ x.replay.stack = th.stack) ∧
     s'.pool = free ∧ s'.mem = s.mem ∧ s'.regs = s.regs ∧ s'.seq = s.seq + 1)

/-- `spl.commit`, `spl.abort` and `spl.status` (R267-R269): a commit of an open splice blocks the thread for its check; an
abort waits for the thread's earlier writes to the splice's handles and discards the splice, or has no effect after the pass;
a status word; and SPLICE where a token names no splice. That the thread whose commit is pending goes on after an abort is the
model's choice (log 31). -/
def Obligations.SpliceInstructions : Prop :=
  ∀ (s : State) (t : Tid) (th : Thread) (f : Fields), Issues s t th →
    let s1 := atIssue s t
    let tok := reg th f.sl0.toNat
    (formOk f 0 0 [.scalar] = true → Ready th f.sl0 →
      ((th.accProd.isNone && th.vepiProd.isNone) = true →
        (∀ x, spliceOf s1 t.ctx.val tok = some x →
          (x.st = .opened → Completes (.splCommit t f) s
            (setT (setSplice { s1 with seq := s1.seq + 1 } { x with st := .pending, committer := t, tokenReg := f.sl0.toNat,
                                                                    replayable := x.replayable && x.opener == t })
              t { th with block := .commit x.slot f.sl0.toNat })) ∧
          (x.st ≠ .opened → Faults (.splCommit t f) s t th fSplice)) ∧
        (spliceOf s1 t.ctx.val tok = none → Faults (.splCommit t f) s t th fSplice)) ∧
      (∀ x, spliceOf s1 t.ctx.val tok = some x →
        (x.st = .passed → Completes (.splAbort t f) s (stepOn s1 t th)) ∧
        (x.st ≠ .passed → writesDeclared s1 t x = true → NotNow (.splAbort t f) s) ∧
        (x.st ≠ .passed → writesDeclared s1 t x = false → Completes (.splAbort t f) s
          (stepOn (bumpC (releaseCommitter (discardSplice s1 x) x) t.ctx kSplAbort 1) t th))) ∧
      (spliceOf s1 t.ctx.val tok = none → Faults (.splAbort t f) s t th fSplice)) ∧
    (formOk f 0 0 [.scalar, .scalar, .imm] = true → f.sl2.toNat ≤ 4 → Ready th f.sl1 →
      let v := reg th f.sl1.toNat
      (spliceOf s1 t.ctx.val v = none → Completes (.splStatus t f) s (stepOn s1 t (dst th f.sl0 0))) ∧
      (∀ x, spliceOf s1 t.ctx.val v = some x →
        let shown (n : Half) : Word := if x.st = .passed then 0 else n.zeroExtend 64
        let state : Nat := match x.st with
          | .opened => 1
          | .pending => 2
          | .passed => 3
        let word : Word := BitVec.ofNat 64 (state + (if x.replayed then 8 else 0) + (if x.degraded then 16 else 0))
        (f.sl2 = 0 → Completes (.splStatus t f) s (stepOn s1 t (dst th f.sl0 word))) ∧
        (f.sl2 = 1 → Completes (.splStatus t f) s (stepOn s1 t (dst th f.sl0 (shown x.nUnder)))) ∧
        (f.sl2 = 2 → Completes (.splStatus t f) s (stepOn s1 t (dst th f.sl0 (shown x.nOver)))) ∧
        (f.sl2 = 3 → Completes (.splStatus t f) s (stepOn s1 t (dst th f.sl0 (shown x.nSlub)))) ∧
        (f.sl2 = 4 → Completes (.splStatus t f) s (stepOn s1 t (dst th f.sl0 (shown x.nClip))))))

/-- The commit check (R69, R70, R267, R311): a splice hurt by an uncorrectable error is discarded; a health failure under
Replay resumes the opening thread where a replay is possible, faults with ON_REFAIL, or passes degraded; any other check
passes. A shadow fill finishes (R312): the granules of the passed splice's declarations that are not written are copied into the
shadows, where no access of them waits, and are counted in `CNT_SPL_FILL`. What a granule of a reel's ring leaves in a shadow is a free
value (R366; the model's choice, log 138). -/
def Obligations.CommitCheckResults : Prop :=
  (∀ (s : State) (p : PartN) (slot : BitVec 8) (x : Splice) (th : Thread), powered s = true → s.failed = false →
     s.splices.find? (fun x => x.part == p && x.slot == slot.toNat && x.st == .pending) = some x →
     getT? s x.committer = some th → commitReady s x = true →
     let hurt := x.hurt || x.decls.any (fun d => ueIn s d.shadow d.len)
     let fails := qhPolicy s x.opener.ctx = 1 ∧ healthFails s x = true
     let again := x.replayable = true ∧ x.replayed = false
     (hurt = true → Completes (.commitCheck p slot) s (dropSplice s x th)) ∧
     (hurt = false → ¬ fails → Completes (.commitCheck p slot) s (passSplice s x th false)) ∧
     (hurt = false → fails → again → Completes (.commitCheck p slot) s (replaySplice s x th)) ∧
     (hurt = false → fails → ¬ again → bit (actR s (.qhpol x.opener.ctx)) 2 = false →
       Completes (.commitCheck p slot) s (passSplice s x th true)) ∧
     (hurt = false → fails → ¬ again → bit (actR s (.qhpol x.opener.ctx)) 2 = true →
       exec (.commitCheck p slot) s = .next (progFault s x.committer th.pc fQhealth))) ∧
  (∀ (s : State) (p : PartN) (slot : BitVec 8) (x : Splice), powered s = true → s.failed = false →
     s.splices.find? (fun x => x.part == p && x.slot == slot.toNat && x.st == .passed && !x.filledIn) = some x →
     let blanks (d : Decl) := (List.range (d.len / 4096)).filter (fun g => !d.written.contains g)
     let room (d : Decl) (g : Nat) (s : State) : Ex State := do
       let s1 ← admitPages s 4 x.opener.ctx (d.span + 4096 * g) 4096 false
       admitPages s1 4 x.opener.ctx (d.shadow + 4096 * g) 4096 true
     ∀ s1, x.decls.foldlM (fun s d => (blanks d).foldlM (fun s g => do
         let s1 ← room d g s
         .ok (copyGranule s1 (d.span + 4096 * g) (d.shadow + 4096 * g))) s) s = .ok s1 →
       Completes (.shadowFillComplete p slot) s
         (bumpC (setSplice s1 { x with filledIn := true }) x.opener.ctx kSplFill (x.decls.map (fun d => (blanks d).length)).sum))

/-! ## Streams (09, 12) -/

/-- `draft.ld` and `draft.st` (R194, R199, R277-R279): with a stream number that is not open on the spindle, a legal region
and legal walk words, the stream opens over its region with nothing in its slots: driven by its consumers or producers, local,
or with a walk over its far end, in tiles or in rows. The layout of a walk that follows the scale axis is the model's (log
34). -/
def Obligations.LoadStoreStreamsOpen : Prop :=
  ∀ (s : State) (t : Tid) (th : Thread) (f : Fields) (store : Bool) (r : Region) (mode fc rep : Nat) (fmt : Fmt), Issues s t th →
    let s1 := atIssue s t
    let c := t.ctx.val
    let i : Instr := if store then .draftSt t f else .draftLd t f
    let w0 := reg th f.sl3.toNat
    let w1 := reg th (f.sl3 + 1).toNat
    let x := { newStream t th f.sl0.toNat (if store then .store else .load) r s1.seq with fmt := BitVec.ofNat 4 fc }
    let opens (s2 : State) (x : Stream) := Completes i s (stepOn { s2 with streams := s2.streams ++ [x] } t th)
    formOk f 0 0 [.stream, .handle, .scalar, .group 2] = true → Ready th f.sl2 → ReadyG th f.sl3 2 →
    freshSid s1 t f.sl0.toNat = .ok () → readRegion s1 t (reg th f.sl2.toNat) true false (!store) = .ok r →
    walkMode s1 w1 = .ok (mode, fc, rep) → fmtOf fc = some fmt →
      (mode = 2 → opens s1 { x with walk := .driven }) ∧
      (mode = 3 → opens s1 { x with walk := .localS, kind := .load }) ∧
      (∀ h wk sc sl, mode < 2 → getH s1 c f.sl1.toNat = .ok h → (store = true → passedDecl s1 c h.idx = false) →
        (mode = 0 → tileWalk s1 h w0 w1 rep fc r.size = .ok wk) →
        (mode = 1 → convOk s1 store h fmt = .ok () ∧ rowsWalk s1 h w0 rep fc r.size = .ok wk) →
        scaleOf? s1 c h = .ok sc → (store = true → sl = none) → (store = false → slubOf? s1 c h fc = .ok sl) →
        (h :: (sc.toList ++ sl.toList)).all (fillerOk s1 t) = true →
        opens (if store then noteHandleWrite s1 t f.sl1.toNat else s1)
          { x with h := h, walk := wk, scaleH := sc, slubH := sl })

/-- `draft.gather` and both forms of `draft.mcast` (R200, R209, R277, R281): the gather stream opens over its lists; the
sender's stream opens and its group starts with the receivers that wait; a receiver opens and waits for its group, or joins
it; a seventeenth receiver of the quarter, or of the device where another device sends (R393), is a STREAM fault. The shapes
of the two message streams of a multicast are the model's reading (logs 37 and 53). That a list or a cache may lie outside the
device, whose bytes are then free values, is the model's choice (log 116). -/
def Obligations.GatherAndMulticastOpen : Prop :=
  ∀ (s : State) (t : Tid) (th : Thread) (f : Fields) (r : Region), Issues s t th →
    let s1 := atIssue s t
    let c := t.ctx.val
    let q := quarterOf s1 t
    (∀ h l g d, formOk f 0 0 [.stream, .handle, .scalar, .handle, .scalar, .scalar] = true → Ready th f.sl2 → Ready th f.sl4 →
      Ready th f.sl5 → freshSid s1 t f.sl0.toNat = .ok () → readRegion s1 t (reg th f.sl2.toNat) false true true = .ok r →
      getH s1 c f.sl1.toNat = .ok h → h.fmt = 2 → kvDims s1 h = .ok (g, d) → getH s1 c f.sl3.toNat = .ok l → l.fmt = 9 →
      let lw := reg th f.sl4.toNat
      let head := fld (reg th f.sl5.toNat) 2 0
      head < g → 528 * d ≤ r.size → fld lw 31 0 + (fld lw 47 32 + 1) ≤ l.rows →
      let reach := (fillerOk s1 t h && fillerOk s1 t l && fillerRange s1 t h.pmap (8 * h.pmapE)) = true
      (reach → Completes (.draftGather t f) s (stepOn { s1 with streams := s1.streams ++
        [{ newStream t th f.sl0.toNat .gather r s1.seq with
           fmt := 2, h := h, scaleH := some l, walk := .lists (fld lw 31 0) (fld lw 47 32 + 1), tag := head }] } t th)) ∧
      (¬ reach → Faults (.draftGather t f) s t th fStream)) ∧
    (∀ mode fc rep fmt, formOk f 0 0 [.stream, .handle, .scalar, .group 2, .imm, .imm] = true → f.sl4.toNat ≤ 255 →
      1 ≤ f.sl5.toNat → f.sl5.toNat ≤ 64 → Ready th f.sl2 → ReadyG th f.sl3 2 → freshSid s1 t f.sl0.toNat = .ok () →
      readRegion s1 t (reg th f.sl2.toNat) false false false = .ok r →
      let w0 := reg th f.sl3.toNat
      let w1 := reg th (f.sl3 + 1).toNat
      let tag := f.sl4.toNat
      let wait := (membersOn s1 c q tag).filter (fun y => y.walk == .unbound)
      walkMode s1 w1 = .ok (mode, fc, rep) → mode ≠ 3 → fmtOf fc = some fmt → (groupOf s1 c q tag).isNone = true →
      (∀ y ∈ wait, y.size = r.size) → wait.length ≤ 15 →
      let x0 := { newStream t th f.sl0.toNat .member r s1.seq with fmt := BitVec.ofNat 4 fc, tag := tag }
      let local' (h : Handle) := h.dev = devId s1 ∧
        ((∃ k l, placeOf s1 h.lo = .hbm k ∧ placeOf s1 (h.hi - 1) = .hbm l) ∨
         (∃ k l, placeOf s1 h.lo = .unified k ∧ placeOf s1 (h.hi - 1) = .unified l))
      let starts (x : Stream) := Completes (.draftMcastSend t f) s
        (let s2 := wait.foldl (fun s y => setStream s (bindMember x y)) s1
         stepOn { s2 with
           streams := s2.streams ++ [x]
           groups := s2.groups.filter (fun z => !(z.ctx == t.ctx && z.quarter == q && z.tag == tag)) ++
             [{ ctx := t.ctx, quarter := q, tag := tag, sender := t, sid := x.sid, window := f.sl5.toNat, src := x,
                members := { t := t, sid := x.sid } :: wait.map (fun y => { t := y.t, sid := y.sid }),
                remote := remoteOf s1 tag, spread := !(remoteOf s1 tag).isEmpty }] } t th)
      (mode = 2 → starts { x0 with walk := .driven }) ∧
      (∀ h wk sc sl, mode < 2 → getH s1 c f.sl1.toNat = .ok h → local' h → (∀ k, sc = some k → local' k) →
        (∀ k, sl = some k → local' k) →
        (mode = 0 → tileWalk s1 h w0 w1 rep fc r.size = .ok wk) →
        (mode = 1 → convOk s1 false h fmt = .ok () ∧ rowsWalk s1 h w0 rep fc r.size = .ok wk) →
        scaleOf? s1 c h = .ok sc → slubOf? s1 c h fc = .ok sl → (h :: (sc.toList ++ sl.toList)).all (fillerOk s1 t) = true →
        starts { x0 with h := h, walk := wk, scaleH := sc, slubH := sl })) ∧
    (formOk { f with variant := f.variant &&& 0xFE } 0 0 [.stream, .imm, .scalar] = true → f.sl1.toNat ≤ 255 → Ready th f.sl2 →
      freshSid s1 t f.sl0.toNat = .ok () → readRegion s1 t (reg th f.sl2.toNat) false false false = .ok r →
      let tag := f.sl1.toNat
      let x := { newStream t th f.sl0.toNat .member r s1.seq with walk := .unbound, tag := tag }
      (membersOn s1 c q tag).length < 16 → (drafted s1 tag = true → groupOf s1 c q tag = none → (farMembers s1 c tag).length < 16) →
      (groupOf s1 c q tag = none →
        Completes (.draftMcastRecv t f) s (stepOn { s1 with streams := s1.streams ++ [x] } t th)) ∧
      (∀ g, groupOf s1 c q tag = some g → g.src.size = r.size → Completes (.draftMcastRecv t f) s
        (let s2 := setGroup s1 { g with members := g.members ++ [{ t := t, sid := x.sid }] }
         stepOn { s2 with streams := s2.streams ++ [bindMember (groupSrc s1 g) x] } t th))) ∧
    (formOk { f with variant := f.variant &&& 0xFE } 0 0 [.stream, .imm, .scalar] = true → f.sl1.toNat ≤ 255 → Ready th f.sl2 →
      freshSid s1 t f.sl0.toNat = .ok () → readRegion s1 t (reg th f.sl2.toNat) false false false = .ok r →
      (16 ≤ (membersOn s1 c q f.sl1.toNat).length ∨ (drafted s1 f.sl1.toNat = true ∧ groupOf s1 c q f.sl1.toNat = none ∧
        16 ≤ (farMembers s1 c f.sl1.toNat).length)) → Faults (.draftMcastRecv t f) s t th fStream)

/-- `draft.wait` in its three forms and its end (R197, R280): a wait whose condition holds takes effect at once, another
blocks the thread until it does; a tile beyond a fixed walk is a STREAM fault; a free waits for the tile that it claims. Which
entry a free of a gather stream takes, and what its tiles count, are the model's reading (log 32). -/
def Obligations.DraftWaits : Prop :=
  ∀ (s : State) (t : Tid) (th : Thread) (f : Fields),
    let s1 := atIssue s t
    (∀ x, Issues s t th → formOk f 0 0 [.stream, .scalar] = true → Ready th f.sl1 → stream? s1 t f.sl0.toNat = some x →
      let n := fld (reg th f.sl1.toNat) 31 0
      let bounded : Bool := match x.walk with
        | .localS | .lists _ _ | .unbound => false
        | _ => true
      ((∀ k, bounded = true → x.total = some k → n < k) → Completes (.draftWait t f) s (doWait s1 t th (.tile x.sid n))) ∧
      (∀ k, bounded = true → x.total = some k → k ≤ n → Faults (.draftWait t f) s t th fStream)) ∧
    (∀ x, Issues s t th → formOk { f with variant := f.variant &&& 0xFD } 0 0 [.stream, .unused] = true →
      stream? s1 t f.sl0.toNat = some x →
      (x.kind = .store → Faults (.draftWaitFree t f) s t th fStream) ∧
      (x.kind ≠ .store → Completes (.draftWaitFree t f) s
        (doWait (noteStreamUse (setStream s1 { x with cons := x.cons + 1, kept := x.kept - 1 }) t x.sid x.cons false) t th
          (.free x.sid x.cons)))) ∧
    (∀ x, Issues s t th → formOk { f with variant := f.variant &&& 0xFE } 0 0 [.stream, .unused] = true →
      stream? s1 t f.sl0.toNat = some x →
      Completes (.draftWaitClose t f) s (doWait (noteStreamUse s1 t x.sid 0 true) t th (.close x.sid))) ∧
    (∀ w seq, getT? s t = some th → th.block = .draft w seq → powered s = true → s.failed = false → present s t = true → waitHolds s t w = true →
      Completes (.draftWaitDone t) s (stepOn (waitEffect s t w) t { th with block := .none })) ∧
    (Issues s t th → formOk f 0 0 [.stream, .scalar] = true → Ready th f.sl1 → stream? s1 t f.sl0.toNat = none →
      Faults (.draftWait t f) s t th fStream)

/-- `draft.plan` in both forms and the plan cursor (R212-R214, R282): the start form gives the region a plan with its cursor
at the first entry; the advance form keeps one more advance value; PLAN where no plan of the partition drives the region. The
cursor's end entry ends the plan; a fetch entry's next page is asked for where it is not in HBM, or the entry is passed;
release and dead entries act on their pages once every fetched page has been passed; a mark is passed by an advance with its
value, and another value is a PLAN fault. That a plan's entries may lie outside the device, whose bytes are then free values,
is the model's choice (log 116). -/
def Obligations.PlanResults : Prop :=
  (∀ (s : State) (t : Tid) (th : Thread) (f : Fields), Issues s t th →
     let s1 := atIssue s t
     let s2 := notReplayable s1 t
     let n := f.sl1.toNat
     (∀ h, formOk f 0 0 [.handle, .imm, .imm] = true → n ≤ 255 → 1 ≤ f.sl2.toNat → f.sl2.toNat ≤ 64 →
       getH s1 t.ctx f.sl0.toNat = .ok h → h.fmt = 11 → h.rank = 1 →
       (∀ r, uregOf n (getR s1 (.ureg n)) = some r → r.owner = partOf t.ctx → r.policy = 1 →
         Completes (.draftPlanStart t f) s (stepOn { s2 with plans := s2.plans.filter (fun q => q.region != n) ++
           [{ region := n, t := t, h := h, depth := f.sl2.toNat }] } t th)) ∧
       (∀ r, uregOf n (getR s1 (.ureg n)) = some r → r.owner ≠ partOf t.ctx ∨ r.policy ≠ 1 →
         Faults (.draftPlanStart t f) s t th fPlan0) ∧
       (uregOf n (getR s1 (.ureg n)) = none → Faults (.draftPlanStart t f) s t th fPlan0)) ∧
     (formOk { f with variant := f.variant &&& 0xFE } 0 0 [.scalar, .imm] = true → n ≤ 255 → Ready th f.sl0 →
       let found := s1.plans.find? (fun q => q.region == n && partOf q.t.ctx == partOf t.ctx)
       (∀ q, found = some q → q.advances.length < 65535 → Completes (.draftPlanAdvance t f) s
         (stepOn { s2 with plans := s2.plans.map (fun k => if k.region == n
           then { q with advances := q.advances ++ [(reg th f.sl0.toNat).setWidth 32] } else k) } t th)) ∧
       (∀ q, found = some q → 65535 ≤ q.advances.length → Faults (.draftPlanAdvance t f) s t th fPlan0) ∧
       (found = none → Faults (.draftPlanAdvance t f) s t th fPlan0))) ∧
  (∀ (s : State) (n : BitVec 8) (q : Plan) (r : UReg),
     powered s = true → s.failed = false → s.plans.find? (fun q => q.region == n.toNat) = some q →
     (getC s q.t.ctx).st = .running → (getC s q.t.ctx).saving = false → (getC s q.t.ctx).restoring = false →
     uregOf n.toNat (getR s (.ureg n.toNat)) = some r → 2 * q.cursor + 1 < q.h.dim 0 →
     let a (i : Nat) := q.h.span 0 (2 * q.cursor + i) 1
     let entry : Part := ⟨q.h, [a 0, a 1]⟩
     (∀ pg, readReady s q.t.ctx [entry] = .ok (some pg) → pageBusy s pg = false →
       Completes (.planCursor n) s (askMig s pg (quarterOf s q.t) q.t.ctx)) ∧
     (∀ s0, readReady s q.t.ctx [entry] = .ok none → partsClean s q.t.ctx [entry] = .ok () → askAll s q.t.ctx entry.ss = .ok s0 →
     let w (i : Nat) : Word := BitVec.ofNat 64 (elemV s0 q.t.ctx q.h (q.h.ix 0 (2 * q.cursor + i)))
     let goesOn (s' : State) := Completes (.planCursor n) s (pumpAll s')
     let stops := exec (.planCursor n) s = .next (progFault s0 q.t (pcOf s q.t) (fPlan q.cursor))
     fld (w 0) 59 21 = 0 → fld (w 1) 31 21 = 0 →
     let op := fld (w 0) 63 60
     let page := fld (w 0) 20 0
     let cnt := fld (w 1) 20 0
     let next : Plan := { q with cursor := q.cursor + 1, inEntry := 0 }
     let pages := op = 1 ∨ op = 2 ∨ op = 3
     let legal := fld (w 1) 63 32 = 0 ∧ 1 ≤ cnt ∧ page + cnt ≤ r.size
     (op = 0 → fld (w 1) 63 32 = 0 → cnt = 0 → page = 0 → goesOn (setPlan s0 n.toNat none)) ∧
     (op = 1 → legal →
       (q.inEntry < cnt → q.waiting.length < q.depth →
         let pg := r.base + page + q.inEntry
         let s1 := setPlan s0 n.toNat (some { q with inEntry := q.inEntry + 1, waiting := q.waiting ++ [pg] })
         let inHbm : Bool := match tabGet? s0.pages pg with
           | some x => isHbmFrame x.frame
           | none => false
         goesOn (if inHbm then s1 else askMig s1 pg (quarterOf s0 q.t) q.t.ctx)) ∧
       (cnt ≤ q.inEntry → q.waiting = [] → goesOn (setPlan s0 n.toNat (some next)))) ∧
     ((op = 2 ∨ op = 3) → legal → q.waiting = [] → goesOn
       (setPlan (((List.range cnt).map (fun i => r.base + page + i)).foldl (if op = 2 then releasePage else killPage) s0) n.toNat
         (some next))) ∧
     (∀ v rest, op = 4 → cnt = 0 → page = 0 → q.advances = v :: rest →
       (v.toNat = fld (w 1) 63 32 → goesOn (setPlan s0 n.toNat (some { next with advances := rest }))) ∧
       (v.toNat ≠ fld (w 1) 63 32 → stops)) ∧
     (pages → ¬ legal → stops)))

/-- Tile movement of load and store streams (R181, R193, R196, R199, R309): what a load stream's next tile reads is its elements and
the scales and slub records that go with them, of this device's memory or from outside it; the tile fills its slot. A filled store
slot is written through its far end's handles, elements and scales, and is free; a page that is not in HBM stalls the stream and is
asked for. The slub region that belongs to a tile of KF4 comes with it (R28). That a migration starts within the step that misses, how a far
end outside the device is reached, and where the address of an uncorrectable word of a slot is reported are the model's choices (logs 20,
33, 21). -/
def Obligations.TileMovement : Prop :=
  ∀ (s : State) (t : Tid) (sid : BitVec 5) (x : Stream) (g : Geo),
    powered s = true → s.failed = false → working s t = true → stream? s t sid.toNat = some x → x.miss = none →
    regionIdle s x = true →
    let c := t.ctx.val
    (∀ reply, x.kind = .load ∨ (x.kind = .member ∧ x.dropped = true ∧ x.home = none) →
      x.geo x.filled = some g → x.free x.filled = true →
      let ps := loadParts x g
      (∀ pg, readReady s c ps = .ok (some pg) → Completes (.tileArrive t sid reply) s (missPage s x pg)) ∧
      (∀ s1 outs s2, readReady s c ps = .ok none → fromOutside s c ps reply = .ok (s1, outs) → partsClean s1 c ps = .ok () →
        slubsOk s1 (farBytes s c outs) x g = .ok () →
        let l := loadBytes (farBytes s c outs) x g
        account (accessPages (creelFetch s1 x (readReach s c ps)) c (readReach s c ps)) c l.2 = .ok s2 →
        Completes (.tileArrive t sid reply) s
          (poolSettle (setStream (slotWrite s2 x (x.slotOff (x.slotNo x.filled)) l.1)
            (({ x.put x.filled with filled := x.filled + 1, moved := true, stall := 0, begun := false } : Stream).withRegion
              (farBytes s c outs) x g x.filled))))) ∧
    (x.kind = .store → x.drained < x.filled → x.has x.drained = true → slotClean s x x.drained = .ok () → x.geo x.drained = some g →
      (∀ h v p hd, g ≠ .page h v p hd) →
      let n := x.drained
      let es := drainElems s x n g
      let k := es.foldl (fun k e => k.add e.2.2.2) ({} : Cnt)
      let fs := drainWrites s x n g es
      let ps := fs.map (·.part)
      let w : Writer := .tile t sid.toNat n
      (∀ pg, writeReady s c ps w = .ok (some pg) → Completes (.slotDrain t sid) s (missPage s x pg)) ∧
      (writeReady s c ps w = .ok none → numSelected s c k = false →
        let s1 := accessPages (countNum s c k) c ((writeReach s c ps w).1 ++ (writeReach s c ps w).2)
        Completes (.slotDrain t sid) s
          (settle (setStream (fs.foldl (fun s f => putFar s c w f) s1) (x.drainedOne n)) c)) ∧
      (writeReady s c ps w = .ok none → numSelected s c k = true →
        exec (.slotDrain t sid) s = .next (progFault (countNum s c k) t x.pc (fNumeric (numCauses k)))))

/-- Page parts drain into their page (R125, R128, R196); a gather stream comes to its next list that is not empty and reads its COUNT,
then serves that list's next entry into a slot, or from a held one (R200, R201); a page in motion arrives, what waited for it goes on, and
the next one that its partition waits for begins (R181, R183); a stream stalled for four running strokes is a STALL fault (R215). How an
address outside the device is read is the model's choice (log 116). -/
def Obligations.StreamEngines : Prop :=
  ∀ (s : State), powered s = true → s.failed = false →
    (∀ (t : Tid) (sid : BitVec 5) x h v p hd g d s0 base fill, working s t = true → stream? s t sid.toNat = some x →
      x.miss = none → regionIdle s x = true → x.kind = .store → x.drained < x.filled → x.has x.drained = true →
      slotClean s x x.drained = .ok () → x.geo x.drained = some (.page h v p hd) → x.t = t → kvDims s h = .ok (g, d) →
      let c := t.ctx.val
      let n := x.drained
      let map := mapPart s h p
      (∀ pg, readReady s c [map] = .ok (some pg) → Completes (.slotDrain t sid) s (missPage s x pg)) ∧
      (readReady s c [map] = .ok none → pageEntry s c h g d p = .ok (s0, base, fill) →
        let lo := base + hd * 528 * d
        let ws := pageBytesOf s x n d v
        let ss := ws.map (fun w => (lo + w.1, w.2.length))
        let dst := localPart s h base (joinSpans ss)
        let w : Writer := .tile t x.sid n
        (∀ pg, writeReady s0 c [dst] w = .ok (some pg) → Completes (.slotDrain t sid) s (missPage s0 x pg)) ∧
        (writeReady s0 c [dst] w = .ok none → ∀ s1, account s0 c { st := pagePoison s x n d v } = .ok s1 →
          let s2 := accessPages s1 c ((h.pmap + 8 * p, 8) :: ss)
          let s3 := ws.foldl (fun s y => writeV s c h.idx (lo + y.1) y.2 w) (coverBytes s2 c h.idx ss w)
          Completes (.slotDrain t sid) s (settle (setStream (mendBytes s3 c h.idx ss w) (x.drainedOne n)) c)))) ∧
    (∀ (t : Tid) (sid : BitVec 5) x lh, working s t = true → stream? s t sid.toNat = some x →
      x.miss = none → regionIdle s x = true → x.kind = .gather → gatherDone x = false → x.scaleH = some lh →
      let c := t.ctx.val
      let goes (s' : State) := Completes (.gatherEntryDeliver t sid) s s'
      (∀ k, x.gCount ≠ none → openList s x k = .ok (s, x, none)) ∧
      (∀ k s1 miss, x.gCount = none → gatherRead s x [⟨lh, [lh.span (listRow x + x.gList) 0 2]⟩] = .ok (s1, miss) →
        let n := listCount s1 x x.gList
        openList s x (k + 1) = (match miss with
          | some pg => .ok (s1, x, some pg)
          | none => if x.gEntry < n then .ok (s1, { x with gCount := some n }, none)
            else openList s1 { x with gList := x.gList + 1, gEntry := 0, gCount := none, moved := true, stall := 0 } k)) ∧
      (∀ s1 y, openList s x (listsOf x) = .ok (s1, y, none) → y.gCount = none →
        goes (poolSettle (setStream s1 { y with live := !gatherDone y }))) ∧
      (∀ s1 y pg, openList s x (listsOf x) = .ok (s1, y, some pg) → goes (missPage s1 y pg)) ∧
      (∀ s1 y n s2 miss, openList s x (listsOf x) = .ok (s1, y, none) → y.gCount = some n → y.scaleH = some lh → y.t = t →
        let lists : Part := ⟨lh, [lh.span (listRow y + y.gList) 0 (n + 2)]⟩
        gatherRead s1 y [lists] = .ok (s2, miss) →
        (∀ pg, miss = some pg → goes (missPage s2 y pg)) ∧
        (miss = none → y.hold = true → y.gEntry = 0 → y.count < n →
          exec (.gatherEntryDeliver t sid) s = .next (progFault s2 t x.pc fStream)) ∧
        (∀ g d, miss = none → ¬ (y.hold = true ∧ y.gEntry = 0 ∧ y.count < n) → kvDims s2 y.h = .ok (g, d) →
          let p := listPage s2 y y.gList y.gEntry
          (∀ pg, readReady s2 c [mapPart s2 y.h p] = .ok (some pg) → goes (missPage s2 y pg)) ∧
          (∀ s3 base fill, readReady s2 c [mapPart s2 y.h p] = .ok none → pageEntry s2 c y.h g d p = .ok (s3, base, fill) →
            let s4 := accessPages s3 c [(y.h.pmap + 8 * p, 8)]
            let next (y : Stream) (slot : Nat) : Stream :=
              let e := y.gEntry + 1
              let z : Stream := { y with gList := if e < n then y.gList else y.gList + 1, gEntry := if e < n then e else 0,
                                         gCount := if e < n then y.gCount else none, filled := y.filled + 1, moved := true, stall := 0,
                                         begun := false, gents := y.gents ++
                                           [{ list := y.gList, entry := y.gEntry, slot := slot, page := p, fill := fill }] }
              { z with live := !gatherDone z }
            let a := base + y.tag * 528 * d
            let held := if y.hold then y.gents.reverse.find? (fun k => k.page == p) else none
            (∀ k, held = some k → goes (bumpC (poolSettle (setStream s4 (next y k.slot))) c kGatherHold 1)) ∧
            (∀ slot s5 miss, held = none → (if y.hold then holdSlot y ((List.range n).map (listPage s4 y y.gList))
                else some (y.filled % y.count)) = some slot → (∀ k ∈ y.gents, k.slot = slot → k.freed = true) →
              gatherRead s4 y [localPart s4 y.h base [(a, 528 * d)]] = .ok (s5, miss) →
              (∀ pg, miss = some pg → goes (missPage s5 y pg)) ∧
              (miss = none → goes (bumpC (poolSettle (setStream
                (slotWrite (creelFetch s5 y [(a, 528 * d)]) y (y.slotOff slot) (rd s5 a (528 * d)))
                (next { y with gents := y.gents.filter (fun k => k.slot != slot) } slot))) c kGatherRead 1))))))) ∧
    (∀ (page : BitVec 21) m s1, s.migs.find? (fun m => m.page == page.toNat) = some m →
      (pageMiss s page.toNat true = true → bringIn s page.toNat m.quarter m.ctx = some s1) →
      (pageMiss s page.toNat true = false → s1 = s) →
      let s2 : State := { s1 with
        migs := s1.migs.filter (fun k => k.page != page.toNat)
        migQueue := s1.migQueue.filter (fun k => k.page != page.toNat)
        streams := s1.streams.map (fun x => if x.miss == some page.toNat then { x with miss := none } else x) }
      ∀ k, (s1.migs ++ s1.migQueue).find? (fun m => m.page == page.toNat) = some k →
        Completes (.migrationComplete page) s (pumpAll (nextMig s2 k.part))) ∧
    (∀ (t : Tid) (sid : BitVec 5) x, present s t = true → stream? s t sid.toNat = some x →
      (4 ≤ x.stall → exec (.streamStall t sid) s = .next (progFault s t x.pc fStall)) ∧
      (x.stall < 4 → NotNow (.streamStall t sid) s))

/-- A multicast tile is delivered to a member (R209-R211, R393): it fills the member's next slot with the sender's tile; the
leading member's delivery drops the members whose lag is the window and sends the tile to the remote devices; a member outside
its group asks the group's home for the part of its tile that it needs next. A source outside the device's HBM and unified regions is a
STREAM fault. What a draft tile message carries, that a tile goes in parts whose number ADDR gives, and when a remote member is dropped,
are the model's reading (logs 52, 54 and 137). -/
def Obligations.MulticastDelivery : Prop :=
  ∀ (s : State) (t : Tid) (sid : BitVec 5) (x : Stream), powered s = true → s.failed = false → working s t = true →
    stream? s t sid.toNat = some x → x.t = t → x.miss = none → regionIdle s x = true → x.kind = .member →
    let c := t.ctx.val
    let n := x.filled
    (∀ g p, groupOf s t.ctx (quarterOf s t) x.tag = some g → g.members.any (fun m => m.t == t && m.sid == x.sid) = true →
      (groupSrc s g).geo n = some p → x.free n = true →
      let src := groupSrc s g
      let ps := loadParts src p
      let inside := ps.all (fun k => mcastSource s k.h)
      (inside = false → exec (.mcastTileDeliver t sid) s = .next (progFault s t x.pc fStream)) ∧
      (∀ pg, inside = true → readReady s c ps = .ok (some pg) → Completes (.mcastTileDeliver t sid) s (missPage s x pg)) ∧
      (inside = true → readReady s c ps = .ok none → partsClean s c ps = .ok () → slubsOk s (readV s c) src p = .ok () →
        let leads := n == leadOf s g
        let z := if leads then dropLagging s g n else (s, g)
        let s2 := accessPages (setGroup z.1 z.2) c (readReach s c ps)
        let l := loadBytes (readV s c) src p
        ∀ s3, account s2 c l.2 = .ok s3 →
          let s4 := poolSettle (setStream (slotWrite s3 x (x.slotOff (x.slotNo n)) l.1)
            (({ x.put n with filled := n + 1, moved := true, stall := 0, begun := false } : Stream).withRegion (readV s c) src p n))
          (leads = false → Completes (.mcastTileDeliver t sid) s s4) ∧
          (leads = true → Completes (.mcastTileDeliver t sid) s (sendTiles s4 z.2 n (src.total == some (n + 1)) l.1)))) ∧
    (∀ home tag, (∀ g, groupOf s t.ctx (quarterOf s t) x.tag = some g →
        g.members.any (fun m => m.t == t && m.sid == x.sid) = false) →
      x.home = some home → x.free n = true → freeCredit s c = true → freeTagOf s c = some tag →
      (∀ o ∈ s.outMsgs, ¬ (o.op = .tileRequest ∧ o.ctx = t.ctx ∧ o.lk = t.lsp.val ∧ o.hidx = x.sid)) →
      let s1 := if x.dropped then s else dropMember s t x.sid n
      ∀ m o s2 ks,
        m = ({ dst := home, src := BitVec.ofNat 16 (devId s), op := .tileRequest, ctx := t.ctx, tag := tag,
               epoch := epochOf s c tag, cls := BitVec.ofNat 2 (ctxCls s c), last := true, mcg := BitVec.ofNat 8 x.tag,
               addr := tileAddr n x.parts 1 } : Msg) →
        o = ({ ctx := t.ctx, tag := tag, op := .tileRequest, lk := t.lsp, loc := n, len := x.parts, hidx := x.sid, dst := home,
               edge := (strokeNow s).toNat, due := [home.toNat] } : OutMsg) →
        launchMsg { s1 with outMsgs := s1.outMsgs ++ [o] } c m = .ok (s2, ks) →
        Completes (.mcastTileDeliver t sid) s (if ks.isEmpty then s2 else unsent s2 (draftOp s2 o) o m.epoch ks))

/-! ## Engine instructions (05, 06, 07, 12) -/

/-- VOP claims (R280): a source or destination outside every stream's region is plain scratch; one at its stream's next slot
in consumer or producer order claims that slot, whatever the instruction has claimed before; a range elsewhere in a stream that it names
is a STREAM fault. A source at a slot that the instruction has claimed as a source claims nothing more, nor does one in a store stream, or
in another thread's. -/
def Obligations.VopClaims : Prop :=
  ∀ (s : State) (t : Tid) (o : EngOp) (v : Vop),
    let a := v.off
    let n := v.bytes
    let plain : EngOp := { o with rds := o.rds ++ [(a, n)] }
    (regionOf s t a n = none →
      srcVop s t o v = .ok (noteScrRead s t a n, plain) ∧
      dstVop s t o v = .ok (noteScrWrite s t a n, { o with wrs := o.wrs ++ [(a, n)] })) ∧
    (∀ x, regionOf s t a n = some x →
      let taken := ∃ k ∈ o.claims, k.sid = x.sid ∧ k.fills = false ∧ x.slotOff (x.slotNo k.tile) = a
      (taken → srcVop s t o v = .ok (s, plain)) ∧
      (¬ taken → x.t = t → x.kind ≠ .store →
        (a = x.slotOff (x.slotNo x.cons) → n ≤ x.size → ∃ s', srcVop s t o v = .ok (s',
          { plain with claims := o.claims ++ [⟨x.sid, x.cons, false⟩] }) ∧
          (∀ y ∈ s'.streams, y.t = t → y.sid = x.sid → y.cons = x.cons + 1)) ∧
        (¬ (a = x.slotOff (x.slotNo x.cons) ∧ n ≤ x.size) → srcVop s t o v = .error (.fault s fStream))) ∧
      (¬ taken → x.t ≠ t ∨ x.kind = .store → srcVop s t o v = .ok (s, plain)) ∧
      (x.kind = .store ∨ x.walk = .localS → x.t = t → a = x.slotOff (x.slotNo x.prod) → n ≤ x.size →
        let far := if x.kind = .store then farHandles x else []
        let s1 := far.foldl (fun s h => noteHandleWrite s t h) s
        (∀ h ∈ far, passedDecl s t.ctx h = false) →
        dstVop s t o v = .ok (noteShapes (setStream s1 { x with prod := x.prod + 1 }) t [⟨x.sid, x.prod, true⟩] v.rows v.len v.pitch,
          { o with claims := o.claims ++ [⟨x.sid, x.prod, true⟩], wrs := o.wrs ++ [(a, n)] })) ∧
      (x.t ≠ t ∨ (x.kind ≠ .store ∧ x.walk ≠ .localS) ∨ a ≠ x.slotOff (x.slotNo x.prod) ∨ x.size < n →
        dstVop s t o v = .error (.fault s fStream)))

/-- `vadd`, `vmul`, `vfma`, `vmax` with its MIN form, `vcvt` and `vfn` issue (R274, R275, R290, R291): with room in the lanes'
queue, legal operands of equal shape and their slots claimed, the instruction enters the lanes and the thread goes on;
operands of unequal shape are an OPERAND fault, and the reserved bit pairs a decode fault. -/
def Obligations.ElementwiseIssue : Prop :=
  ∀ (s : State) (t : Tid) (th : Thread) (f : Fields), Issues s t th → engineRoom (atIssue s t) t 2 = .ok () →
    let s1 := atIssue s t
    let m : Fields := { f with variant := f.variant &&& 0xEF }
    let bs := bit f.variant 0
    let brow := bit f.variant 1
    let cs := bit f.variant 2
    let crow := bit f.variant 3
    Ready th f.sl0 → Ready th f.sl1 → Ready th f.sl2 → Ready th f.sl3 →
    ∀ a d, readVop s1 (reg th f.sl1.toNat) = .ok a → readVop s1 (reg th f.sl0.toNat) = .ok d →
      let same := d.rows = a.rows ∧ d.len = a.len
      let two (tag : EngTag) (g : Fields) (i : Instr) := formOk g 3 0 [.scalar, .scalar, .scalar] = true →
        (bs && brow) = false → (cs && crow) = false →
        (same → ∀ s2 o2 s3 o3 s4 o4, srcVop s1 t (newOp s1 t th tag g) a = .ok (s2, o2) →
          takeOpd s2 t o2 (reg th f.sl2.toNat) bs brow a.rows a.len = .ok (s3, o3) → dstVop s3 t o3 d = .ok (s4, o4) →
          Completes i s (issueOp s4 t th o4)) ∧
        (¬ same → Faults i s t th fOperand)
      two .vadd f (.vadd t f) ∧ two .vmul f (.vmul t f) ∧ two .vmax m (.vmax t f) ∧ two .vmin m (.vmin t f) ∧
      (formOk f 0xF 0 [.scalar, .scalar, .scalar, .scalar] = true → (bs && brow) = false → (cs && crow) = false →
        (same → ∀ s2 o2 s3 o3 s4 o4 s5 o5, srcVop s1 t (newOp s1 t th .vfma f) a = .ok (s2, o2) →
          takeOpd s2 t o2 (reg th f.sl2.toNat) bs brow a.rows a.len = .ok (s3, o3) →
          takeOpd s3 t o3 (reg th f.sl3.toNat) cs crow a.rows a.len = .ok (s4, o4) → dstVop s4 t o4 d = .ok (s5, o5) →
          Completes (.vfma t f) s (issueOp s5 t th o5)) ∧
        (¬ same → Faults (.vfma t f) s t th fOperand)) ∧
      ((bs && brow) = true → Faults (.vadd t f) s t th fDecode ∧ Faults (.vfma t f) s t th fDecode) ∧
      (∀ tag var i, (tag, var, i) ∈ [(EngTag.vcvt, 0, Instr.vcvt t f), (EngTag.vfn, 7, Instr.vfn t f)] →
        formOk f var 0 [.scalar, .scalar] = true → (same → (tag = .vcvt → convertible a.f d.f = true) →
          ∀ s2 o2 s3 o3, srcVop s1 t (newOp s1 t th tag f) a = .ok (s2, o2) → dstVop s2 t o2 d = .ok (s3, o3) →
          Completes i s (issueOp s3 t th o3)) ∧ (¬ same → Faults i s t th fOperand) ∧
          (same → tag = .vcvt → convertible a.f d.f = false → Faults i s t th fFormat))

/-- An element-wise instruction, a conversion, a distaff function, a noise instruction, a rotary embedding, a normalisation and an epilogue
from a VOP to a VOP run (R38, R101, R106, R114, R117, R122, R275, R290, R296, R298): once its slots are ready, no earlier instruction orders
before it and a filler's holds up no primary (R221), every element of its destination is the exact result rounded once and converted at the
store, what it counts is counted, and the instruction is complete; a statistic with COUNT 0 is an OPERAND fault, and so is a position outside
0 to 2^24 - 1, which is the model's reading (log 39). What a word of SRAM that cannot be corrected does is MEM_UE (R452), with an address
of the model's reading (log 21). That the statistic's
reciprocal deviation counts for the instruction is the model's reading (log 106). -/
def Obligations.LaneResults : Prop :=
  ∀ (s : State) (o : EngOp), powered s = true → s.failed = false → working s o.t = true →
    s.ops.find? (fun x => x.id == o.id && x.t == o.t) = some o → mayRun s o = true → claimsReady s o = true →
    ((getC s o.t.ctx).filler = true → fillerMay s o = true) →
    let d := vopOf (o.reg o.f.sl0)
    let a := vopOf (o.reg o.f.sl1)
    let b := opdOf (o.reg o.f.sl2) (bit o.f.variant 0) (bit o.f.variant 1)
    let c := opdOf (o.reg o.f.sl3) (bit o.f.variant 2) (bit o.f.variant 3)
    let row (x : Opd) (r : Nat) := opdRow s o.t x a.len r
    let column (v : BitVec 16) (k : Nat) := opdRow s o.t (opdOf (o.reg v) (!bit o.f.variant k) true) a.len 0
    let faults (f : PFault) := exec (.engineComplete o.t o.id) s = .next (progFault s o.t o.pc f)
    let endsWith (k : Cnt) (rows : List (List (Nat × Cnt))) := ∀ s1, putRowsWith s o.t d k rows = .ok s1 →
      Completes (.engineComplete o.t o.id) s (finishOp s1 o d.rows)
    let ends := endsWith {}
    let elems (g : Val → Val → Val) := (List.range a.rows).map (fun r =>
      ((vopVals s o.t a r).zip (row b r)).map (fun x => storeVal d.f (rnC (g x.1 x.2))))
    (∀ f, sramClean s o = .error (.fault s f) → faults f) ∧
    (sramClean s o = .ok () →
      (o.tag = .vfma → ends ((List.range a.rows).map (fun r =>
        ((vopVals s o.t a r).zip ((row b r).zip (row c r))).map (fun x =>
          storeVal d.f (rnC (elemOp .vfma x.1 x.2.1 x.2.2)))))) ∧
      (o.tag = .vcvt → ends ((List.range a.rows).map (fun r => (vopRow s o.t a r).map (convertCode a.f d.f)))) ∧
      (o.tag = .vfn → ends ((List.range a.rows).map (fun r =>
        (vopVals s o.t a r).map (fun x => storeVal d.f (distaff (dfunOf (fld o.f.variant 2 0)) x))))) ∧
      ((∀ r, (vopVals s o.t a r).length = (row b r).length) →
        (o.tag = .vadd → ends (elems (Val.map2 (· + ·)))) ∧ (o.tag = .vmul → ends (elems (Val.map2 (· * ·)))) ∧
        (o.tag = .vmax → ends (elems (Val.map2 qmax))) ∧ (o.tag = .vmin → ends (elems (Val.map2 qmin)))) ∧
      (o.tag = .vrng →
        let key : BitVec 128 := o.reg (o.f.sl1 + 1) ++ o.reg o.f.sl1
        let base : BitVec 128 := o.reg (o.f.sl2 + 1) ++ o.reg o.f.sl2
        let words := (List.range (ceilDiv (d.rows * d.len) 4)).flatMap (fun i => whorl key (base + BitVec.ofNat 128 i))
        let rows (g : Half → Nat × Cnt) := (List.range d.rows).map (fun r => ((words.drop (r * d.len)).take d.len).map g)
        (fld o.f.variant 1 0 = 0 → ends (rows (fun w => (w.toNat, {})))) ∧
        (fld o.f.variant 1 0 = 1 → ends (rows (fun w => storeVal d.f (.num (uniformVal w), {})))) ∧
        (fld o.f.variant 1 0 = 2 → ends (rows (fun w =>
          let u := uniformVal w
          storeVal d.f (.num (if u < 1 / 2 then -psi u else psi (1 - u)), {}))))) ∧
      (o.tag = .vrot →
        let pos (r : Nat) : Int := twos 32 ((vopRow s o.t (vopOf (o.reg o.f.sl2)) r).head?.getD 0)
        let ws := vopVals s o.t (vopOf (o.reg o.f.sl3)) 0
        ((∀ r, r < a.rows → 0 ≤ pos r ∧ pos r < 16777216) → ends ((List.range a.rows).map (fun r =>
          let xs := vopVals s o.t a r
          ws.zipIdx.flatMap (fun w =>
            (rotPair (pos r) w.1 ((xs[2 * w.2]?).getD .poison) ((xs[2 * w.2 + 1]?).getD .poison)).map (storeVal d.f))))) ∧
        (∀ r, r < a.rows → pos r < 0 ∨ 16777216 ≤ pos r → faults fOperand)) ∧
      (o.tag = .vnorm → ∀ g rps k, layoutOf s (o.reg (o.f.sl2 + 1)) (fld o.f.variant 1 0 == 2) a.rows a.len = .ok (g, rps, k) →
        let stat (i : Nat) := statAt s o.t ((o.reg o.f.sl2).toNat + 16 * i)
        (∀ i, i < k → stat i = none → faults fOperand) ∧
        (∀ zs : List Stat, zs.map some = (List.range k).map stat →
          let ss := zs.map (fun z => (z, normScale (fld o.f.variant 1 0) z (scalarVal (o.reg o.f.sl5))))
          endsWith (sumCnt (ss.map (fun z => z.2.2))) ((List.range a.rows).map (fun r =>
            ((vopVals s o.t a r).zip ((column o.f.sl3 2).zip (column o.f.sl4 3))).zipIdx.map (fun x =>
              match ss[r / rps * (a.len / g) + x.2 / g]? with
              | some z => storeVal d.f (normElem (fld o.f.variant 1 0) z.1 z.2.1 x.1.2.1 x.1.2.2 x.1.1)
              | none => (0, {})))))) ∧
      (o.tag = .vepi → bit o.f.variant 3 = false → bit o.f.variant 4 = false → o.out = [] → o.prog < o.tiles →
        ends ((epiBlock s o 0 ((List.range a.rows).map (vopVals s o.t a))).map (fun r => r.map (storeVal d.f)))))

/-- `vred`, `vstat`, `vnorm`, `vrot` and `vrng` issue (R104, R105, R117, R118, R122, R292, R296). How many slots of a
stream a stream source takes, that they are one row, and how a part and records are held to their VOP, are the model's readings and choices
(logs 38, 141 and 123). -/
def Obligations.ReductionIssue : Prop :=
  ∀ (s : State) (t : Tid) (th : Thread) (f : Fields), Issues s t th → engineRoom (atIssue s t) t 2 = .ok () →
    let s1 := atIssue s t
    let w (v : BitVec 16) := reg th v.toNat
    let kind := fld f.variant 2 0
    (kind < 5 → Ready th f.sl0 → Ready th f.sl2 → Ready th f.sl3 → Ready th f.sl4 →
      let sstr := bit f.variant 5
      let from1 : SlotK := if sstr then .stream else .scalar
      let n := (w f.sl3).toNat + 1
      n ≤ 4294967296 → ∀ d s2 o2 rows len, readVop s1 (w f.sl0) = .ok d →
      takeSrc s1 t (newOp s1 t th .vred f) th f.sl1 sstr n = .ok (s2, o2, rows, len) →
      ∀ s3 o3, dstVop s2 t o2 d = .ok (s3, o3) →
      (fld f.variant 4 3 = 0 → formOk f 0x3F 0 [.scalar, from1, .unused, if sstr then .scalar else .unused] = true →
        d.rows = rows → d.len = 1 → Completes (.vred t f) s (issueOp s3 t th o3)) ∧
      (fld f.variant 4 3 = 1 → formOk f 0x3F 0 [.scalar, from1, .scalar, .scalar, .scalar] = true →
        partOk s2 (w f.sl2).toNat n ((w f.sl4).toNat + 1) = .ok () → n ≤ rows * len → 8 * ceilDiv n 65536 ≤ d.bytes →
        Completes (.vred t f) s (issueOp s3 t th o3)) ∧
      (fld f.variant 4 3 = 2 → sstr = false → formOk f 0x3F 0 [.scalar, .scalar, .unused, .scalar] = true → d.rows = 1 →
        d.len = 1 → 8 * ceilDiv n 65536 ≤ (vopOf (w f.sl1)).bytes → Completes (.vred t f) s (issueOp s3 t th o3))) ∧
    (5 ≤ kind → Faults (.vred t f) s t th fDecode) ∧
    (Ready th f.sl0 → Ready th f.sl2 → Ready th f.sl3 → Ready th f.sl4 → Ready th f.sl5 →
      let sstr := bit f.variant 2
      let from1 : SlotK := if sstr then .stream else .scalar
      let n := (w f.sl4).toNat + 1
      n ≤ 4294967296 → ∀ s2 o2 rows len, takeSrc s1 t (newOp s1 t th .vstat f) th f.sl1 sstr n = .ok (s2, o2, rows, len) →
      let writes (k : Nat) := (w f.sl0).toNat + 16 * k ≤ 0x100000 → ∀ s3 o3,
        claimDst s2 t o2 (w f.sl0).toNat (16 * k) = .ok (s3, o3) → Completes (.vstat t f) s (issueOp s3 t th o3)
      (∀ g rps k, fld f.variant 1 0 = 0 →
        formOk f 0xF 0 [.scalar, from1, .scalar, .unused, if sstr then .scalar else .unused] = true →
        layoutOf s2 (w f.sl2) (bit f.variant 3) rows len = .ok (g, rps, k) → writes k) ∧
      (fld f.variant 1 0 = 1 → bit f.variant 3 = false →
        formOk f 0xF 0 [.scalar, from1, .unused, .scalar, .scalar, .scalar] = true →
        partOk s2 (w f.sl3).toNat n ((w f.sl5).toNat + 1) = .ok () → n ≤ rows * len → writes (ceilDiv n 65536)) ∧
      (fld f.variant 1 0 = 2 → bit f.variant 3 = false → sstr = false →
        formOk f 0xF 0 [.scalar, .scalar, .unused, .unused, .scalar] = true →
        16 * ceilDiv n 65536 ≤ (vopOf (w f.sl1)).bytes → writes 1)) ∧
    (fld f.variant 1 0 < 3 → formOk f 0xF 0 [.scalar, .scalar, .group 2, .scalar, .scalar, .scalar] = true →
      Ready th f.sl0 → Ready th f.sl1 → ReadyG th f.sl2 2 → Ready th f.sl3 → Ready th f.sl4 → Ready th f.sl5 →
      ∀ a d q g rps k, readVop s1 (w f.sl1) = .ok a → readVop s1 (w f.sl0) = .ok d → d.rows = a.rows → d.len = a.len →
      scalarVal (w f.sl5) = .num q → 0 ≤ q →
      layoutOf s1 (w (f.sl2 + 1)) (fld f.variant 1 0 == 2) a.rows a.len = .ok (g, rps, k) →
      (w f.sl2).toNat + 16 * k ≤ 0x100000 → ∀ s2 o2 s3 o3 s4 o4 s5 o5 s6 o6,
      srcVop s1 t (newOp s1 t th .vnorm f) a = .ok (s2, o2) →
      takeOpd s2 t o2 (w f.sl3) (!bit f.variant 2) true a.rows a.len = .ok (s3, o3) →
      takeOpd s3 t o3 (w f.sl4) (!bit f.variant 3) true a.rows a.len = .ok (s4, o4) →
      claimSrc s4 t o4 (w f.sl2).toNat (16 * k) = .ok (s5, o5) → dstVop s5 t o5 d = .ok (s6, o6) →
      Completes (.vnorm t f) s (issueOp s6 t th o6)) ∧
    (formOk f 0 0 [.scalar, .scalar, .scalar, .scalar] = true → Ready th f.sl0 → Ready th f.sl1 → Ready th f.sl2 →
      Ready th f.sl3 → ∀ d a p q, readVop s1 (w f.sl0) = .ok d → readVop s1 (w f.sl1) = .ok a →
      readVop s1 (w f.sl2) = .ok p → readVop s1 (w f.sl3) = .ok q →
      (a.len % 2 = 1 → Faults (.vrot t f) s t th fOperand) ∧
      (d.rows = a.rows → d.len = a.len → a.len % 2 = 0 → p.rows = a.rows → p.len = 1 → q.rows = 1 → 2 * q.len = a.len →
        (p.fmt ≠ 10 ∨ q.fmt ≠ 5 → Faults (.vrot t f) s t th fFormat) ∧
        (p.fmt = 10 → q.fmt = 5 → ∀ s2 o2 s3 o3 s4 o4 s5 o5, srcVop s1 t (newOp s1 t th .vrot f) a = .ok (s2, o2) →
          srcVop s2 t o2 p = .ok (s3, o3) → srcVop s3 t o3 q = .ok (s4, o4) → dstVop s4 t o4 d = .ok (s5, o5) →
          Completes (.vrot t f) s (issueOp s5 t th o5)))) ∧
    (fld f.variant 1 0 < 3 → formOk f 3 0 [.scalar, .group 2, .group 2] = true → Ready th f.sl0 → ReadyG th f.sl1 2 →
      ReadyG th f.sl2 2 → ∀ d, readVop s1 (w f.sl0) = .ok d →
      (fld f.variant 1 0 = 0 → d.fmt ≠ 10 → Faults (.vrng t f) s t th fFormat) ∧
      (fld f.variant 1 0 ≠ 0 ∨ d.fmt = 10 → ∀ s2 o2, dstVop s1 t (newOp s1 t th .vrng f) d = .ok (s2, o2) →
        Completes (.vrng t f) s (issueOp s2 t th o2)))

/-- `vepi` issues (R114, R287, R290, R291): from a VOP or from a producer's hand-off, to a VOP or as a producer; without a
producer, and as a second producer, it is a HANDOFF fault. -/
def Obligations.EpilogueIssue : Prop :=
  ∀ (s : State) (t : Tid) (th : Thread) (f : Fields), Issues s t th → engineRoom (atIssue s t) t 2 = .ok () →
    let s1 := atIssue s t
    let w (v : BitVec 16) := reg th v.toNat
    let acc := bit f.variant 3
    let hands := bit f.variant 4
    let o0 := newOp s1 t th .vepi f
    fld f.variant 2 0 < 6 →
    formOk f 0xFF 0 [if hands then .unused else .scalar, if acc then .unused else .scalar, .scalar, .scalar, .scalar] = true →
    Ready th f.sl0 → Ready th f.sl1 → Ready th f.sl2 → Ready th f.sl3 → Ready th f.sl4 →
      (acc = true → th.accProd = none → Faults (.vepi t f) s t th fHandoff) ∧
      (∀ s2 o2 th1,
        (acc = true ∧ (∃ n p, th.accProd = some n ∧ s1.ops.find? (fun x => x.id = n) = some p ∧ s2 = s1 ∧
          o2 = { o0 with src := some n, m := p.m, n := p.n } ∧ th1 = { th with accProd := none })) ∨
        (acc = false ∧ (∃ a o1, readVop s1 (w f.sl1) = .ok a ∧ srcVop s1 t o0 a = .ok (s2, o1) ∧
          o2 = { o1 with m := a.rows, n := a.len } ∧ th1 = th)) →
        ∀ s3 o3 s4 o4 s5 o5, takeOpd s2 t o2 (w f.sl2) (!bit f.variant 7) true o2.m o2.n = .ok (s3, o3) →
        takeOpd s3 t o3 (w f.sl3) (!bit f.variant 6) true o2.m o2.n = .ok (s4, o4) →
        takeOpd s4 t o4 (w f.sl4) (!bit f.variant 5) true o2.m o2.n = .ok (s5, o5) →
        (hands = true → th.vepiProd = none → s5.seq = s1.seq →
          Completes (.vepi t f) s (issueOp s5 t { th1 with vepiProd := some s1.seq } o5)) ∧
        (hands = true → th.vepiProd.isSome = true → ∃ s', exec (.vepi t f) s = .next (progFault s' t th.pc fHandoff)) ∧
        (hands = false → ∀ d, readVop s5 (w f.sl0) = .ok d → d.rows = o2.m → d.len = o2.n → ∀ s6 o6,
          dstVop s5 t o5 d = .ok (s6, o6) → Completes (.vepi t f) s (issueOp s6 t th1 o6)))

/-- `mma` issues (R75-R78, R92-R96, R283-R287): with its handles, problem, descriptors and streams legal, it enters the array
with its dimensions, and claims its streams' next tiles; a K mismatch is an OPERAND fault, and a pair of formats other than
its PAIR's a FORMAT fault. The place of the image slots of KW6 weights, and what an image may not overlap, rest on the model's reading
(logs 40 and 120), and so does the handle that a K too large for a KF16 pair names (log 129). -/
def Obligations.MatrixIssue : Prop :=
  ∀ (s : State) (t : Tid) (th : Thread) (f : Fields), Issues s t th → engineRoom (atIssue s t) t 0 = .ok () →
    let s1 := atIssue s t
    let c := t.ctx.val
    let pair := fld f.variant 2 0
    let w2 := reg th f.sl3.toNat
    let w1 := reg th f.sl4.toNat
    let wb := reg th f.sl5.toNat
    let b := bindingOf f.sl5 wb
    let fa := (pairFmts pair).1
    let fb := (pairFmts pair).2
    pair < 7 → (bit f.variant 3 = true → pair = 1 ∨ pair = 5) →
    formOk f 0x1F 0 [.handle, .handle, if bit f.variant 4 then .scalar else .handle, .scalar, .scalar, .scalar] = true →
    Ready th f.sl3 → Ready th f.sl4 → Ready th f.sl5 → (f.sl5 = 0 ∨ fld wb 2 0 = 0) → ¬ (b.hand = true ∧ 2 ≤ b.img) →
    ∀ ah bh, getH s1 c f.sl0.toNat = .ok ah → getH s1 c f.sl1.toNat = .ok bh →
      (ah.fmt ≠ fa ∨ bh.fmt ≠ fb → Faults (.mma t f) s t th fFormat) ∧
      (ah.fmt = fa → bh.fmt = fb → ah.slv = true → pair ≠ 1 → pair ≠ 5 → Faults (.mma t f) s t th fDecode) ∧
      (ah.fmt = fa → bh.fmt = fb → (ah.slv = true → pair = 1 ∨ pair = 5) → ∀ dh? b0 s' kk n ax bx ak? bk? tk? sl? im?,
        (b.hand = true → dh? = none) →
        (b.hand = false → ∃ i d, dIndex s1 th f = .ok i ∧ getH s1 c i = .ok d ∧ (d.fmt = 4 ∨ d.fmt = 5) ∧ dh? = some d) →
        needStream s1 t b.bstr = .ok b0 →
        (if b0.kind == .gather then gatherProblem s1 b0 b bh else .ok (s1, bh.rows, bh.cols)) = .ok (s', kk, n) →
        let m := ah.rows
        let mt := ceilDiv m 256
        let nt := ceilDiv n 256
        let kt := ceilDiv kk 256
        let d2 := descOf w2 mt nt kt
        let d1 := descOf w1 mt nt kt
        m ≤ 16777216 → ah.cols ≤ 16777216 → kk ≤ 16777216 → n ≤ 16777216 →
        (∀ d ∈ dh?, d.rows ≤ 16777216 ∧ d.cols ≤ 16777216) → (pair = 6 → kk ≤ 4194304) →
        (ah.cols ≠ kk ∨ (b0.kind = .gather ∧ 256 < m) → exec (.mma t f) s = .next (progFault s' t th.pc fOperand)) ∧
        (ah.cols = kk → (b0.kind = .gather → m ≤ 256) → (∀ d ∈ dh?, d.rows = m ∧ d.cols = n) → fld w2 63 51 = 0 →
          fld w1 63 51 = 0 → fld w2 50 48 < 6 → fld w1 50 48 < 6 → d1.m ≤ d2.m → d1.n ≤ d2.n → d1.k ≤ d2.k → d1.m * d1.n ≤ 2 →
          operandStream s' t b.astr fa (d2.m * d2.k) false = .ok ax →
          operandStream s' t b.bstr fb (d2.n * d2.k) true = .ok bx → bx.kind = b0.kind →
          (if ax.walk == .localS then .ok none else operandScale s' c ah false) = .ok ak? →
          (if bx.walk == .localS || bx.kind == .gather then .ok none else operandScale s' c bh true) = .ok bk? →
          (if fb = 1 then operandScale s' c bh true else .ok none) = .ok tk? →
          (if ah.slv && pair == 1 then (getSlub s' c ah).map some else .ok none) = .ok sl? →
          let cs := level1 d2 d1 mt nt kt
          let spill := spills cs kt
          let hs := [ah, bh] ++ dh?.toList ++ ak?.toList ++ bk?.toList ++ sl?.toList ++ tk?.toList
          (spill = true → b.img ≠ 0) → ((getC s' c).filler = true → spill = false ∧ b.img = 0) →
          imageOf s' t b m n (operandRanges s' c bx b ah bh dh?.toList n (bit f.variant 3)) = .ok im? →
          boundOk s' t ax (ah :: (ak?.toList ++ sl?.toList)) = .ok () → boundOk s' t bx (bh :: bk?.toList) = .ok () →
          let im := if spill || decide (2 ≤ b.img) then im?.toList.map (·.idx) else []
          (∀ h ∈ im, passedDecl s' c h = false) →
          let l2 := level2 d2 mt nt kt
          let keep := if b.keepa then (match l2.getLast? with
            | some k => (aTiles k).length
            | none => 0) else 0
          let sa := im.foldl (fun s h => noteHandleWrite s t h) s'
          let sb := if ax.walk == .localS then noteLocalUse sa t ax else sa
          let sc := if bx.walk == .localS then noteLocalUse sb t bx else sb
          let s2 := setStream sc (bindOperand ax s'.seq ah ak? sl? false (l2.flatMap aTiles) keep)
          let s3 := match stream? s2 t b.bstr with
            | some y => if y.kind == .gather then s2 else setStream s2 (bindOperand y s'.seq bh bk? none true (l2.flatMap bTiles) 0)
            | none => s2
          (∀ d ∈ dh?, b.hand = false → b.img < 2 → ∃ x, needStream s3 t b.dstr = .ok x ∧
            ((x.walk = .driven ∧ x.kind = .store ∧ x.fmt.toNat = d.fmt ∧ passedDecl s3 c d.idx = false) ∨ x.walk = .localS) ∧
            footprint d.fmt ≤ x.size ∧ boundOk s3 t x [d] = .ok ()) →
          (b.hand = true → th.accProd = none) →
          ∃ s4 o, Completes (.mma t f) s
              (issueOp s4 t (if b.hand then { th with accProd := some s'.seq } else th) o) ∧
            o.id = s'.seq ∧ o.t = t ∧ o.tag = .mma ∧ o.f = f ∧ o.s = th.s ∧ o.m = m ∧ o.n = n ∧ o.hs = hs ++ im?.toList ∧
            o.aBase = ax.cons ∧ o.out = [] ∧ o.prog = 0 ∧ o.writes = im ∧
            s4.ops = s'.ops ∧ s4.mem = s'.mem ∧ s4.scratch = s'.scratch ∧ s4.bobbin = s'.bobbin))

/-- `qnt` issues (R56, R59, R61, R287-R289): from the accumulators, from a `vepi` or from a VOP, into KF4 with its scales and
slub records or into the two page forms; the tiles it will fill are bound to its stream. The shapes of the page forms are the
model's reading (log 41); that they make no slub test, and that T is not checked for them, is its choice (log 119), and so is the fault of
a VOP that reaches past its destination (log 131). -/
def Obligations.QuantiseIssue : Prop :=
  ∀ (s : State) (t : Tid) (th : Thread) (f : Fields), Issues s t th → engineRoom (atIssue s t) t 1 = .ok () →
    let s1 := atIssue s t
    let df := fld f.variant 1 0
    let sk := fld f.variant 3 2
    let c := fld f.ext 12 0
    let carried := bit f.variant 4
    let vop : SlotK := if sk = 2 then .scalar else .unused
    df < 3 → sk < 3 → c ≤ 4096 → (df ≠ 0 → carried = false ∧ c = 0) →
    formOk f 0x3F 0x1FFF [.handle, .stream, vop, .scalar, if carried then .handle else .unused, vop] = true →
    Ready th f.sl3 → ∀ h, getH s1 t.ctx f.sl0.toNat = .ok h →
      let wt := reg th f.sl3.toNat
      let o0 := newOp s1 t th .qnt f
      (h.fmt ≠ (if df = 0 then 0 else 2) → Faults (.qnt t f) s t th fFormat) ∧
      (h.fmt = (if df = 0 then 0 else 2) → (df = 0 → (qThreshold wt).isSome = true) → ∀ sl? limit ck? q x sk?,
        (if df = 0 then qSlub s1 t h c o0.replay else .ok (none, 0)) = .ok (sl?, limit) →
        (if df = 0 then qCarried s1 t f h else .ok none) = .ok ck? →
        (if df = 0 then qInTiles s1 t th o0 f h else qInPages s1 t th o0 f h) = .ok q →
        qStream q.s t f.sl1.toNat h (df != 0) q.tiles = .ok x →
        (if df = 0 then qScale s1 t f h x else .ok none) = .ok sk? →
        let driven := x.walk == .driven
        let far := if driven then [h.idx] else if x.kind == .store then farHandles x else []
        (∀ k ∈ far, passedDecl s1 t.ctx k = false) →
        let seg : Seg := { op := s1.seq, h := h, tiles := q.tiles, first := (x.segs.map (fun g => g.tiles.length)).sum,
                           scaleH := sk?, isB := bit f.variant 5, page := df, pc := th.pc }
        let y := { x with prod := x.prod + q.tiles.length, segs := if driven then x.segs ++ [seg] else x.segs }
        let ws := far ++ sl?.toList.map (·.idx)
        Completes (.qnt t f) s (issueOp (ws.foldl (fun s k => noteHandleWrite s t k) (setStream q.s y)) t q.th { q.o with
          hs := [h] ++ sl?.toList ++ ck?.toList, claims := q.o.claims ++ [⟨x.sid, x.prod, true⟩], dBase := x.prod,
          aBase := limit, writes := ws })) ∧
      (h.fmt = 0 → df = 0 → qThreshold wt = none → Faults (.qnt t f) s t th fOperand)

/-- The softmax instructions issue (R143-R149, R286, R293): a score step for the entry after its row state's last, an
accumulate step for the entry just scored, a recompute step, and the end of a row group; a step out of order is an ATT_ORDER
fault. A fresh row state is not read, and the end writes none of it. The layout of the row states, the place of statistics, the recompute
step's order and the local streams that serve as destinations are the model's readings and choices (logs 43, 44, 45 and 145). -/
def Obligations.SoftmaxIssue : Prop :=
  ∀ (s : State) (t : Tid) (th : Thread) (f : Fields) (g : SGroup), Issues s t th → engineRoom (atIssue s t) t 2 = .ok () →
    let s1 := atIssue s t
    let we := reg th f.sl1.toNat
    let e := entryNo we
    readGroup s1 t th f.sl0 = .ok g → Ready th f.sl1 →
    (∀ sq, stepForm f false = true → stepStream s1 t f.sl2 we = .ok sq →
      let row := rowSt? sq t g.off false
      let inOrder : Bool := match row with
        | some r => e == r.last + 1
        | none => e == 0
      (inOrder = true → ∀ o1 th1 s2 o2, stepHand sq th (newOp sq t th .smScore f) g.n 256 = .ok (o1, th1) →
        stepDst sq t o1 f.sl3 34816 = .ok (s2, o2) →
        let z := useState s2 t { o2 with aBase := if row.isNone then 1 else 0 } g (!row.isNone) true
        Completes (.vsmxScore t f) s (issueOp (setRow z.1 t g.off false (some ⟨t, g.off, false, e, true,
          (match row with
            | some r => r.alpha
            | none => [])⟩)) t th1 z.2)) ∧
      (inOrder = false → exec (.vsmxScore t f) s = .next (progFault sq t th.pc fAttOrder)) ∧
      (∀ r o1 th1, row = some r → r.due = true → e = r.last → stepHand sq th { newOp sq t th .smAcc f with acc := alphaTile r.alpha } g.n g.d =
        .ok (o1, th1) →
        let z := useState sq t o1 g true true
        Completes (.vsmxAcc t f) s (issueOp (setRow z.1 t g.off false (some { r with due := false })) t th1 z.2)) ∧
      (row.all (fun r => !r.due || e != r.last) = true → exec (.vsmxAcc t f) s = .next (progFault sq t th.pc fAttOrder))) ∧
    (∀ sq, stepForm f true = true → Ready th f.sl5 → stepStream s1 t f.sl2 we = .ok sq →
      let inOrder : Bool := e == 0 || (rowSt? sq t g.off true).any (fun r => e == r.last + 1)
      (inOrder = true → ∀ h o1 th1 s2 o2, getH sq t.ctx f.sl4.toNat = .ok h →
        h.lo + 16 * ((reg th f.sl5.toNat).toNat + g.n) ≤ h.hi →
        stepHand sq th (newOp sq t th .smRecomp f) g.n 256 = .ok (o1, th1) → stepDst sq t o1 f.sl3 (1024 * g.n) = .ok (s2, o2) →
        Completes (.vsmxRecomp t f) s
          (issueOp (setRow s2 t g.off true (some ⟨t, g.off, true, e, false, []⟩)) t th1 { o2 with hs := [h] })) ∧
      (inOrder = false → exec (.vsmxRecomp t f) s = .next (progFault sq t th.pc fAttOrder))) ∧
    (∀ d, Ready th f.sl3 → readVop s1 we = .ok d → d.fmt = 5 → d.rows = g.n → d.len = g.d →
      let o0 := newOp s1 t th .smEnd f
      let fresh := (rowSt? s1 t g.off false).isNone
      let ends (s0 : State) (hs : List Handle) := ∀ s2 o2,
        dstVop s0 t { o0 with hs := hs, writes := hs.map (·.idx), aBase := if fresh then 1 else 0 } d = .ok (s2, o2) →
        let z := useState s2 t o2 g (!fresh) false
        Completes (.vsmxEnd t f) s (issueOp (setRow z.1 t g.off false none) t th z.2)
      (bit f.variant 0 = false → formOk f 1 0 [.group 4, .scalar] = true → ends s1 []) ∧
      (bit f.variant 0 = true → formOk f 1 0 [.group 4, .scalar, .handle, .scalar] = true → ∀ h,
        getH s1 t.ctx f.sl2.toNat = .ok h → h.lo + 16 * ((reg th f.sl3.toNat).toNat + g.n) ≤ h.hi →
        passedDecl s1 t.ctx h.idx = false → ends (noteHandleWrite s1 t h.idx) [h]))

/-- `card.build` and `card.sel` issue (R130-R138, R293): their handles of the formats and shapes of the KV cache, the card set
and the page lists, the forced entries read at issue. The order of BAD_HANDLE and OPERAND among these checks is the model's
reading (log 83), and the shapes asked of Q and of the page list are its choice (log 144). -/
def Obligations.CardingIssue : Prop :=
  ∀ (s : State) (t : Tid) (th : Thread) (f : Fields), Issues s t th → engineRoom (atIssue s t) t 3 = .ok () →
    let s1 := atIssue s t
    let c := t.ctx.val
    (formOk f 0 0 [.handle, .handle, .scalar] = true → Ready th f.sl2 → ∀ h k g d, getH s1 c f.sl0.toNat = .ok h →
      (h.fmt ≠ 2 → Faults (.cardBuild t f) s t th fFormat) ∧
      (h.fmt = 2 → kvDims s1 h = .ok (g, d) → getH s1 c f.sl1.toNat = .ok k → cardSetOk s1 t k d h.pmapE false = .ok () →
        let w := reg th f.sl2.toNat
        (g ≤ fld w 34 32 → Faults (.cardBuild t f) s t th fOperand) ∧
        (fld w 34 32 < g → fld w 15 0 + (fld w 31 16 + 1) ≤ h.pmapE → passedDecl s1 c k.idx = false →
          Completes (.cardBuild t f) s (issueOp (noteHandleWrite s1 t k.idx) t th
            { newOp s1 t th .cardBuild f with hs := [h, k], writes := [k.idx] })))) ∧
    (let nf := fld f.variant 6 0
     let k := fld f.ext 9 0
     formOk f 0x7F 0x3FF [.handle, .handle, .handle, .handle, .group 4] = true → nf ≤ 64 → 1 ≤ k → k ≤ 512 →
      ReadyG th f.sl4 4 →
      (k < nf → Faults (.cardSel t f) s t th fOperand) ∧
      (nf ≤ k → ∀ q cs kv l g d qs, getH s1 c f.sl0.toNat = .ok q → getH s1 c f.sl1.toNat = .ok cs →
        getH s1 c f.sl2.toNat = .ok kv → getH s1 c f.sl3.toNat = .ok l → q.fmt = 2 → kv.fmt = 2 → l.fmt = 9 →
        kvDims s1 kv = .ok (g, d) → getScale s1 c q = .ok qs → scaleAxisOk q qs (q.rank - 1) = true →
        cardSetOk s1 t cs d kv.pmapE true = .ok () → engineRoom s1 t 0 = .ok () →
        let wt := reg th f.sl4.toNat
        let wa := reg th (f.sl4 + 1).toNat
        let a := localOf wa
        let last := fld wt 15 0 + (fld wt 23 16 + 1) - 1
        q.cols = d → 256 * last < q.rows → last < l.rows → 2 + k ≤ l.cols →
        (nf ≠ 0 → isLocal s1 wa = true ∧ a % 4 = 0) →
        ∀ s2 bs, (if nf = 0 then .ok (s1, []) else readA s1 t a (4 * nf)) = .ok (s2, bs) →
        let ws := forcedWords bs
        (∀ w ∈ ws, fld w 31 30 < 2 ∧ fld w 29 17 = 0 ∧ (fld w 31 30 = 1 ∨ fld w 16 0 < kv.pmapE)) →
        passedDecl s2 c l.idx = false →
        Completes (.cardSel t f) s (issueOp (noteHandleWrite s2 t l.idx) t th { newOp s2 t th .cardSel f with
          hs := [q, cs, kv, l, qs], writes := [l.idx], rds := [],
          acc := [⟨0, 0, [ws.map (fun w => w.zeroExtend 192)]⟩] })))

/-- The swift instructions issue (R153-R156, R162-R167, R295): with room in the quarter's queue, handles of
legal formats and shapes; a shape that the instruction's rule refuses is a BAD_HANDLE fault at the handle. The order of
BAD_HANDLE and OPERAND among these checks is the model's reading (log 83), the code of a padding refused and the handle that a refusal
names are its choices (log 146), and so is the shape of the planes (log 147). -/
def Obligations.SwiftIssue : Prop :=
  ∀ (s : State) (t : Tid) (th : Thread) (f : Fields), Issues s t th → swiftRoom (atIssue s t) t = .ok () →
    let s1 := atIssue s t
    let c := t.ctx.val
    let goes (i : Instr) (tag : EngTag) (hs : List Handle) (out : Handle) := passedDecl s1 c out.idx = false →
      Completes i s (issueOp (noteHandleWrite s1 t out.idx) t th
        { newOp s1 t th tag f with hs := hs, writes := [out.idx] })
    (∀ x w y b?, formOk f 7 0x7FFF [.handle, .handle, .handle, if bit f.variant 2 then .handle else .unused, .group 2] = true →
      fld f.ext 2 0 + 1 ≤ 7 → fld f.ext 5 3 + 1 ≤ 7 → fld f.ext 8 6 + 1 ≤ 7 → ReadyG th f.sl4 2 →
      getH s1 c f.sl0.toNat = .ok x → getH s1 c f.sl1.toNat = .ok w → getH s1 c f.sl2.toNat = .ok y →
      (if bit f.variant 2 then (getH s1 c f.sl3.toNat).map some else .ok none) = .ok b? →
      x.fmt = 4 → w.fmt = 4 → (y.fmt = 4 ∨ y.fmt = 5) → (∀ b ∈ b?, b.fmt = 5 ∧ b.rank = 1 ∧ b.dim 0 = w.dim 4) →
      (x.rank ≠ 4 → Faults (.swConv t f) s t th (fHandle x.idx)) ∧
      (x.rank = 4 → w.rank = 5 → w.dim 0 = fld f.ext 2 0 + 1 → w.dim 1 = fld f.ext 5 3 + 1 → w.dim 2 = fld f.ext 8 6 + 1 →
        w.dim 3 = x.dim 3 → x.dim 3 ≤ 1024 → w.dim 4 ≤ 1024 → (x.dim 3 ≤ 64 ∨ w.dim 4 ≤ 64) →
        let dt := (convDims f x (reg th f.sl4.toNat) (reg th (f.sl4 + 1).toNat)).1
        let dh := (convDims f x (reg th f.sl4.toNat) (reg th (f.sl4 + 1).toNat)).2.1
        let dw := (convDims f x (reg th f.sl4.toNat) (reg th (f.sl4 + 1).toNat)).2.2
        dt.padOk = true → dh.padOk = true → dw.padOk = true → y.rank = 4 → 1 ≤ dt.out → 1 ≤ dh.out → 1 ≤ dw.out →
        y.dim 0 = dt.out → y.dim 1 = dh.out → y.dim 2 = dw.out → y.dim 3 = w.dim 4 →
        goes (.swConv t f) .swConv ([x, w, y] ++ b?.toList) y)) ∧
    (∀ x y, formOk f 3 0x1FF [.handle, .handle, .imm, .scalar] = true → fld f.sl2 15 9 = 0 → Ready th f.sl3 →
      getH s1 c f.sl0.toNat = .ok x → getH s1 c f.sl1.toNat = .ok y → (x.fmt = 4 ∨ x.fmt = 5) → (y.fmt = 4 ∨ y.fmt = 5) →
      x.rank = 4 →
      let dt := (poolDims f x (reg th f.sl3.toNat)).1
      let dh := (poolDims f x (reg th f.sl3.toNat)).2.1
      let dw := (poolDims f x (reg th f.sl3.toNat)).2.2
      ((dt.padOk && dh.padOk && dw.padOk) = false → Faults (.swPool t f) s t th fOperand) ∧
      (dt.padOk = true → dh.padOk = true → dw.padOk = true → y.rank = 4 → 1 ≤ dt.out → 1 ≤ dh.out → 1 ≤ dw.out →
        y.dim 0 = dt.out → y.dim 1 = dh.out → y.dim 2 = dw.out → y.dim 3 = x.dim 3 → goes (.swPool t f) .swPool [x, y] y)) ∧
    (∀ x y, formOk f 1 0x3F [.handle, .handle] = true → getH s1 c f.sl0.toNat = .ok x → getH s1 c f.sl1.toNat = .ok y →
      x.fmt = y.fmt → (x.fmt = 4 ∨ x.fmt = 5) →
      let img := if bit f.variant 0 then y else x
      let tok := if bit f.variant 0 then x else y
      let pt := fld f.ext 5 4 + 1
      let ph := fld f.ext 3 2 + 1
      let pw := fld f.ext 1 0 + 1
      img.rank = 4 → img.dim 0 % pt = 0 → img.dim 1 % ph = 0 → img.dim 2 % pw = 0 → tok.rank = 2 →
      tok.dim 0 = img.dim 0 / pt * (img.dim 1 / ph) * (img.dim 2 / pw) → tok.dim 1 = pt * ph * pw * img.dim 3 →
      goes (.swPatch t f) .swPatch [x, y] y) ∧
    (∀ y cb cr k, formOk f 3 0 [.handle, .handle, .handle, .handle, .scalar] = true → Ready th f.sl4 →
      getH s1 c f.sl0.toNat = .ok y → getH s1 c f.sl1.toNat = .ok cb → getH s1 c f.sl2.toNat = .ok cr → getH s1 c f.sl3.toNat = .ok k →
      y.fmt = 8 → cb.fmt = 8 → cr.fmt = 8 → k.fmt = 4 → y.rank = 2 → y.dim 0 % 2 = 0 → y.dim 1 % 2 = 0 →
      cb.rank = 2 → 2 * cb.dim 0 = y.dim 0 → 2 * cb.dim 1 = y.dim 1 → cr.rank = 2 → 2 * cr.dim 0 = y.dim 0 →
      2 * cr.dim 1 = y.dim 1 → k.rank = 3 → k.dim 0 = 3 → k.dim 1 = y.dim 0 → k.dim 2 = y.dim 1 →
      let w := reg th f.sl4.toNat
      let a := localOf w
      isLocal s1 w = true → a % 4 = 0 → ∀ s2 bs, readA s1 t a 88 = .ok (s2, bs) →
      let o := { newOp s2 t th .swPix f with
        acc := [⟨0, 0, [(List.range 22).map (fun i => BitVec.ofNat 192 (ofBytes ((bs.drop (4 * i)).take 4)))]⟩],
        hs := [y, cb, cr, k] }
      (bit f.variant 0 = false → passedDecl s2 c k.idx = false → Completes (.swPix t f) s
        (issueOp (noteHandleWrite s2 t k.idx) t th { o with writes := [k.idx] })) ∧
      (bit f.variant 0 = true → passedDecl s2 c y.idx = false → passedDecl s2 c cb.idx = false →
        passedDecl s2 c cr.idx = false → Completes (.swPix t f) s
        (issueOp ([y, cb, cr].foldl (fun s h => noteHandleWrite s t h.idx) s2) t th
          { o with writes := [y.idx, cb.idx, cr.idx] }))) ∧
    (∀ a d y, formOk f 1 0 [.handle, .handle, .handle, .group 3] = true → ReadyG th f.sl3 3 → getH s1 c f.sl0.toNat = .ok a →
      getH s1 c f.sl1.toNat = .ok d → getH s1 c f.sl2.toNat = .ok y → a.fmt = 5 → d.fmt = 5 → y.fmt = 5 → a.cols = 4 →
      a.rows ≤ 65536 → d.cols = 4 → d.rows = a.rows → y.cols = 4 → y.rows = a.rows → goes (.swBox t f) .swBox [a, d, y] y) ∧
    (∀ b sc y k?, formOk f 1 0 [.handle, .handle, if bit f.variant 0 then .handle else .unused, .handle, .group 3] = true →
      ReadyG th f.sl4 3 → getH s1 c f.sl0.toNat = .ok b → getH s1 c f.sl1.toNat = .ok sc → getH s1 c f.sl3.toNat = .ok y →
      (if bit f.variant 0 then (getH s1 c f.sl2.toNat).map some else .ok none) = .ok k? →
      b.fmt = 5 → sc.fmt = 5 → y.fmt = 9 → (∀ k ∈ k?, k.fmt = 10 ∧ k.rows * k.cols = b.rows) →
      let m := (reg th (f.sl4 + 2).toNat).toNat
      ∀ iou floor, scalarVal (reg th f.sl4.toNat) = .num iou → 0 ≤ iou → iou ≤ 1 →
        scalarVal (reg th (f.sl4 + 1).toNat) = .num floor → b.rows ≤ 4096 → 1 ≤ m → m ≤ 4096 → b.cols = 4 →
        sc.rows * sc.cols = b.rows → roundUp (4 + 2 * min b.rows m) 64 ≤ y.hi - y.lo →
        goes (.swNms t f) .swNms ([b, sc, y] ++ k?.toList) y)

/-! ## Links (12, 16) -/

/-- The state once a message has left the buffer that it came into: the credits of its flits go back (R376). -/
def leftInbox (s : State) (e : InMsg) : State :=
  let s1 : State := { s with inbox := s.inbox.erase e }
  match e.came with
  | some (n, cls) => giveCredit s1 n (opVc e.m.op) cls e.owes
  | none => s1

/-- The link instructions issue (R299-R301, R304): with a local range inside its handle's extent and a free credit they enter
the context's link work, and the thread goes on; a byte count of 0 or above 2^30 is an OPERAND fault, a range outside the
handle, or one of this device itself that the context may not access, an ADDRESS fault. Each makes the open splices not
replayable (R71), and keeps the quarter of its thread, where its unified pages come in (R180). An add of this device itself that is off its
element, outside HBM and the unified range, or that a reduction window does not take (R191), is an ADDRESS fault too. `lk.wait` goes on once
the operations of its groups are complete. That an own-ID access is judged by the context's own rights, and where SH of a signal travels, are
the model's readings (logs 15 and 49). -/
def Obligations.LinkInstructions : Prop :=
  ∀ (s : State) (t : Tid) (th : Thread) (f : Fields),
    let s1 := atIssue s t
    let w (v : BitVec 16) := reg th v.toNat
    let base (op : MsgOp) (g : BitVec 16) : LkOp :=
      { id := s1.seq, t := t, seq := s1.seq, group := g.toNat, op := op,
        proto := { cls := BitVec.ofNat 2 (ctxCls s1 t.ctx) }, quarter := quarterOf s1 t }
    let goes (i : Instr) (s2 : State) (l : LkOp) := Completes i s
      (pumpCtx { stepOn (notReplayable s2 t) t th with lkops := (stepOn (notReplayable s2 t) t th).lkops ++ [l] } t.ctx)
    let n := (w f.sl3).toNat
    (Issues s t th → freeCredit s1 t.ctx = true → Ready th f.sl1 → Ready th f.sl2 → Ready th f.sl3 → f.sl4.toNat < 16 →
      ∀ h, getH s1 t.ctx f.sl0.toNat = .ok h →
      let held : Prop := h.dev = devId s1 ∧ (w f.sl1).toNat + n ≤ h.hi - h.lo
      let reads : Prop := held ∧ okRead s1 t.ctx (h.loc + (w f.sl1).toNat) n = true
      let writes : Prop := held ∧ okRange s1 t.ctx (h.loc + (w f.sl1).toNat) n = true
      let own : Prop := fld (w f.sl2) 63 48 = devId s1
      let far := localOf (w f.sl2)
      let kf := redKfAdd (fld f.variant 2 0)
      let rank := if bit f.variant 3 then some (fld (w f.sl5) 5 0) else none
      let reduces : Prop := far % redBytes (fld f.variant 2 0) = 0 ∧ (∀ x ∈ pieces far n, match placeOf s1 x.1 with
        | .hbm _ | .unified _ => True
        | _ => False) ∧ (kf = true → ∀ k z, k < 16 → rwinOf s1 (partOf t.ctx) k = some z → overlaps z.base (256 * z.size) far n = true →
          z.takes s1 rank = true)
      let s2 := noteHandleWrite s1 t h.idx
      let l0 (op : MsgOp) : LkOp := { base op f.sl4 with
        loc := h.loc + (w f.sl1).toNat, hidx := h.idx, remote := far, left := n }
      let dst := BitVec.ofNat 16 (fld (w f.sl2) 63 48)
      let put := formOk f 1 0 [.handle, .scalar, .scalar, .scalar, .imm, if bit f.variant 0 then .scalar else .unused] = true
      let add := formOk f 0xF 0 [.handle, .scalar, .scalar, .scalar, .imm, if bit f.variant 3 then .scalar else .unused] = true
      (put → Ready th f.sl5 → 1 ≤ n → n ≤ 2 ^ 30 → reads → (own → okRange s1 t.ctx far n = true) → goes (.lkPut t f) s1
        { l0 .put with proto := { (base .put f.sl4).proto with dst := dst },
                       sig := if bit f.variant 0 then some (w f.sl5) else none }) ∧
      (put → Ready th f.sl5 → n = 0 ∨ 2 ^ 30 < n → Faults (.lkPut t f) s t th fOperand) ∧
      (put → Ready th f.sl5 → 1 ≤ n → n ≤ 2 ^ 30 → ¬ reads → Faults (.lkPut t f) s t th (fAddr h.base)) ∧
      (put → Ready th f.sl5 → 1 ≤ n → n ≤ 2 ^ 30 → reads → own → okRange s1 t.ctx far n = false →
        Faults (.lkPut t f) s t th (fAddr (gAddr s1 far))) ∧
      (formOk f 0 0 [.handle, .scalar, .scalar, .scalar, .imm] = true → 1 ≤ n → n ≤ 2 ^ 30 → writes →
        (own → okRead s2 t.ctx far n = true) → passedDecl s1 t.ctx h.idx = false → freeCredit s2 t.ctx = true →
        goes (.lkGet t f) s2
          { l0 .getRequest with proto := { (base .getRequest f.sl4).proto with dst := dst } }) ∧
      (add → Ready th f.sl5 → 1 ≤ n → n ≤ 2 ^ 30 → n % redBytes (fld f.variant 2 0) = 0 → reads →
        (own → okRange s1 t.ctx far n = true ∧ reduces) → goes (.lkAdd t f) s1
        { l0 .add with proto := { (base .add f.sl4).proto with
          dst := dst, redop := BitVec.ofNat 3 (fld f.variant 2 0), ranked := bit f.variant 3,
          rank := if bit f.variant 3 then BitVec.ofNat 6 (fld (w f.sl5) 5 0) else 0 } }) ∧
      (add → Ready th f.sl5 → 1 ≤ n → n ≤ 2 ^ 30 → n % redBytes (fld f.variant 2 0) = 0 → reads → own →
        ¬ (okRange s1 t.ctx far n = true ∧ reduces) → Faults (.lkAdd t f) s t th (fAddr (gAddr s1 far))) ∧
      (add → Ready th f.sl5 → 1 ≤ n → n ≤ 2 ^ 30 → n % redBytes (fld f.variant 2 0) ≠ 0 → Faults (.lkAdd t f) s t th fOperand) ∧
      (formOk f 0 0 [.handle, .scalar, .group 2, .scalar, .imm] = true → Ready th (f.sl2 + 1) →
        ((w f.sl2).toNat < 256 → 1 ≤ n → n ≤ 2 ^ 30 → reads → goes (.lkMcast t f) s1
          { l0 .multicastPut with proto := { (base .multicastPut f.sl4).proto with mcg := BitVec.ofNat 8 (w f.sl2).toNat },
                                  remote := localOf (w (f.sl2 + 1)) }) ∧
        (256 ≤ (w f.sl2).toNat → Faults (.lkMcast t f) s t th fOperand))) ∧
    (Issues s t th → freeCredit s1 t.ctx = true → formOk f 1 0 [.scalar, .imm] = true → f.sl1.toNat < 16 → Ready th f.sl0 →
      goes (.lkSig t f) s1 { base .signal f.sl1 with left := 1, proto := { (base .signal f.sl1).proto with
        dst := BitVec.ofNat 16 (fld (w f.sl0) 15 0), word3 := w f.sl0, redop := if bit f.variant 0 then 1 else 0 } }) ∧
    (Issues s t th → formOk f 0 0 [.imm] = true → f.sl0 ≠ 0 →
      let s2 := notReplayable s1 t
      (groupsDone s2 t f.sl0 s1.seq = true → Completes (.lkWait t f) s (stepOn s2 t th)) ∧
      (groupsDone s2 t f.sl0 s1.seq = false → Completes (.lkWait t f) s
        (setT { s2 with seq := s1.seq + 1 } t { th with block := .links f.sl0 s1.seq }))) ∧
    (∀ m seq, getT? s t = some th → th.block = .links m seq → powered s = true → s.failed = false → present s t = true →
      (groupsDone s t m seq = true → Completes (.lkWaitDone t) s (stepOn s t { th with block := .none })) ∧
      (groupsDone s t m seq = false → NotNow (.lkWaitDone t) s))

/-- Remote accesses at their target (R384, R385): a message leaves its buffer, whose credits go back; the checks of an access from
another device; a refused access has no effect but its refusal; a put's data is written, a get request's data read and returned;
adds are applied by the reducer, and wait where a hold area is in a stack that issues nothing (R187); each is answered by exactly one
response. That a misaligned add is refused with cause ADDRESS, what
a remote add does not count here, that a put whose signal is refused has no effect, where SH of a signal travels, and how an uncorrectable
word is told are the model's reading (logs 18, 49, 51 and 71). -/
def Obligations.RemoteAccesses : Prop :=
  ∀ (s : State) (m : Msg) (e : InMsg), linksUp s = true → m.dst.toNat = devId s → s.inbox.find? (fun e => e.m == m) = some e →
    let heard (p : Option Nat) : State := match p with
      | some p => headerSeen (leftInbox s e) p m
      | none => leftInbox s e
    let a := m.addr.toNat
    let n := m.data.length
    let s1 := heard (ownerAt s a)
    (m.src.toNat ≠ devId s → ∀ (len : Nat) (reads : Bool) (p : Nat), reachTarget s1 m len reads = .ok p ↔
      (ownerAt s1 a = some p ∧ a + len ≤ hostBase ∧ mayAccessRange s1 p a len = true ∧ (reads = true → inReel s1 a len = false) ∧
       let w := getR s1 (.lnkImport p)
       bit w 63 = true ∧ fld w 15 0 ≤ m.src.toNat ∧ m.src.toNat ≤ fld w 31 16)) ∧
    (m.op = .put →
      (∀ k, reachTarget s1 m n false = .error k → Completes (.put m) s (sendResponse s1 (refuse m k))) ∧
      (∀ p s2, reachTarget s1 m n false = .ok p → admitRemote s1 m n true = .ok s2 →
        let s3 := putA s2 m.ctx a m.data
        (m.sig = false → Completes (.put m) s (sendResponse s3 (ackOf m))) ∧
        (∀ s4, m.sig = true → applySignal s3 m.word3 (bit m.redop 0) (some m.cls.toNat) = .ok s4 →
          Completes (.put m) s (sendResponse s4 (ackOf m))) ∧
        (∀ k, m.sig = true → applySignal s3 m.word3 (bit m.redop 0) (some m.cls.toNat) = .error k →
          Completes (.put m) s (sendResponse s1 (refuse m k))))) ∧
    (m.op = .add →
      (∀ k, reachTarget s1 m n false = .error k → Completes (.atomicAdd m) s (sendResponse s1 (refuse m k))) ∧
      (∀ p, reachTarget s1 m n false = .ok p →
        let op := m.redop.toNat
        let rank := if m.ranked then some m.rank.toNat else none
        let fits := a % redBytes op = 0 ∧ n % redBytes op = 0 ∧
          (redPieces a m.data).all (fun x => redAllowed s1 p op x.1 rank) = true
        (¬ fits → Completes (.atomicAdd m) s (sendResponse s1 (refuse m lkAddress))) ∧
        (fits → holdHot s1 p op a n = true → NotNow (.atomicAdd m) s) ∧
        (∀ s2, fits → holdHot s1 p op a n = false → admitRemote s1 m n true = .ok s2 →
          (ueIn s2 a n = false → Completes (.atomicAdd m) s
            (sendResponse (redAll s2 p (countCtx s1 m) op a m.data rank) (ackOf m))) ∧
          (ueIn s2 a n = true → Completes (.atomicAdd m) s (sendResponse s2 (refuse m lkMemUe)))))) ∧
    (m.op = .getRequest →
      let len := m.len.toNat + 1
      (∀ k, reachTarget s1 m len true = .error k → Completes (.getRequest m) s (sendResponse s1 (refuse m k))) ∧
      (∀ p s2, reachTarget s1 m len true = .ok p → admitRemote s1 m len false = .ok s2 →
        (∀ s3, ueIn s2 a len = false → askOutside s2 m.ctx a len = .ok s3 →
          Completes (.getRequest m) s (sendResponse s3 (respond m .getResponse 0 (rd s3 a len)))) ∧
        (ueIn s2 a len = true → m.src.toNat ≠ devId s → Completes (.getRequest m) s (sendResponse s2 (refuse m lkAddress))))) ∧
    (m.op = .signal →
      let s2 := heard (some (partOf (fld m.word3 21 16)))
      (∀ s3, applySignal s2 m.word3 (bit m.redop 0) (some m.cls.toNat) = .ok s3 →
        Completes (.linkSignal m) s (sendResponse s3 (ackOf m))) ∧
      (∀ k, applySignal s2 m.word3 (bit m.redop 0) (some m.cls.toNat) = .error k →
        Completes (.linkSignal m) s (sendResponse s2 (refuse m k))))

/-- The target's refusals of a signal (R387): SIGNAL for a context that does not exist, an LSPIN not below its NL, an
undefined shared semaphore, or a CLASS above its SCLASS; SEMOVF for an overflow, with the count unchanged; otherwise the
amount is added. -/
def Obligations.SignalRules : Prop :=
  ∀ (s : State) (w : Word) (cls : Nat),
    let c := fld w 21 16
    let l := fld w 27 22
    let n := fld w 35 28
    let amount := fld w 51 36
    let p := partOf c
    (∀ sh, exists' s c = false → applySignal s w sh (some cls) = .error lkSignal) ∧
    (exists' s c = true → amount ≠ 0 →
      (ctxNL s c ≤ l → applySignal s w false (some cls) = .error lkSignal) ∧
      (semDefined s p n = false ∨ semClass s p n < cls → applySignal s w true (some cls) = .error lkSignal) ∧
      (semDefined s p n = true → cls ≤ semClass s p n →
        (65536 ≤ sharedCount s p n + amount → applySignal s w true (some cls) = .error lkSemovf) ∧
        (sharedCount s p n + amount < 65536 →
          applySignal s w true (some cls) = .ok (setShared s p n (sharedCount s p n + amount)))) ∧
      (∀ y, l < ctxNL s c → n < 16 → getT? s (tid c l) = some y →
        let i : Fin 16 := Fin.ofNat 16 n
        (65536 ≤ (y.sems.get i).toNat + amount → applySignal s w false (some cls) = .error lkSemovf) ∧
        ((y.sems.get i).toNat + amount < 65536 → applySignal s w false (some cls) =
          .ok (setT s (tid c l) { y with sems := y.sems.set i (BitVec.ofNat 16 ((y.sems.get i).toNat + amount)) }))))

/-- Multicast puts, draft tiles and tile requests (R385, R391-R393): copies of a multicast put go on in its box, whose flits hold the buffer
that they came into until every branch has taken them (R376), and a member other than the source writes and answers; a part of a draft tile
goes into each stream that has room for it at once, and is acknowledged when none waits with it; a tile request is served from the group's
source, part by part, or refused where the source may not be read. What a draft tile message carries and its parts, when a remote member is
dropped, and how many bytes a tile has, are the model's readings and choices (logs 17, 52, 79 and 137). -/
def Obligations.MulticastMessages : Prop :=
  ∀ (s : State) (m : Msg) (e : InMsg), linksUp s = true → m.dst.toNat = devId s → s.inbox.find? (fun e => e.m == m) = some e →
    let heard (p : Option Nat) : State := match p with
      | some p => headerSeen (leftInbox s e) p m
      | none => leftInbox s e
    let n := tileOf m
    (m.op = .multicastPut → ∀ s0 came hold, holdMsg s m = .ok (s0, came, hold) →
      let s1 := match ownerAt s m.addr.toNat with
        | some p => headerSeen s0 p m
        | none => s0
      let s2 := closeHeld (match boxOf s1 m.mcg.toNat with
        | some b => spread s1 (b.next (here s1)) came hold m
        | none => s1) hold
      (m.src.toNat = devId s → Completes (.multicastPut m) s s2) ∧
      (∀ s3 r, m.src.toNat ≠ devId s → atTarget s2 m = .ok (s3, r) → Completes (.multicastPut m) s (sendResponse s3 r))) ∧
    (m.op = .draftTile →
      let xs := reachedBy s m
      let s1 := xs.foldl (fun s x => match stream? s x.t x.sid with
        | some y => takeTileMsg s y m
        | none => s) s
      ((∀ x ∈ xs, tileFit s x m ≠ .waits) → ∀ s2 came, takeMsg s1 m = .ok (s2, came) → linksUp s1 = true → devId s1 = devId s →
        Completes (.draftTile m) s (sendResponse (headerSeen s2 (partOf m.ctx) m) (ackOf m))) ∧
      ((∃ x ∈ xs, tileFit s x m = .waits) → (s1 ≠ s → Completes (.draftTile m) s s1) ∧ (s1 = s → NotNow (.draftTile m) s))) ∧
    (m.op = .tileRequest →
      let s1 := heard (some (partOf m.ctx))
      let refused := Completes (.tileRequest m) s (sendResponse s1 (refuse m lkAddress))
      let found := s1.groups.find? (fun g => g.ctx == m.ctx && g.tag == m.mcg.toNat)
      (found = none → refused) ∧
      (∀ g, found = some g →
        let x := groupSrc s1 g
        let c := x.t.ctx.val
        (x.geo n = none → refused) ∧
        (∀ p, x.geo n = some p →
          let ps := loadParts x p
          let data := (loadBytes (readV s1 c) x p).1
          let k := partOfTile m
          let readable : Prop := (∀ k ∈ ps, farOutside k.h = false ∧
            ∀ y ∈ k.ss, okRead s1 c y.1 y.2 = true ∧ ueV s1 c k.h.idx y.1 y.2 = false) ∧ slubsOk s1 (readV s1 c) x p = .ok ()
          (¬ readable → refused) ∧
          (∀ s2, readable → admitAll s1 (quarterOf s1 x.t) c (readReach s1 c ps) false = .ok s2 →
            (tileParts data.length ≤ k → refused) ∧
            (k < tileParts data.length → Completes (.tileRequest m) s (sendResponse (accessPages s2 c (readReach s1 c ps))
              { respond m .getResponse 0 ((data.drop (partBytes * k)).take partBytes) with
                addr := tileAddr n k (tileParts data.length), last := x.total == some (n + 1) }))))))

/-- Responses at the issuer (R385, R386, R389, R390, R394): a response whose tag is not taken or whose EPOCH differs is discarded
and counted; an acknowledgement completes its message, and one of the last part of a draft tile lets the remote member's tiles go on; a get
response lands where its operation reads to, or is an ADDRESS fault where the context may no longer write there; a refusal is a fault of its
context; a message unanswered for TMO strokes is a TIMEOUT. A message that ends without an acknowledgement keeps back the last message of a
put with SIG (R386). That a cause names an uncorrectable word is the model's choice (log 18), and so is that no more lands than was asked for
(log 127). -/
def Obligations.ResponsesAtIssuer : Prop :=
  (∀ (s : State) (m : Msg) (e : InMsg), linksUp s = true → m.dst.toNat = devId s → s.inbox.find? (fun e => e.m == m) = some e →
    let c := m.ctx.val
    let s1 := headerSeen (leftInbox s e) (partOf c) m
    let dev := [m.src.toNat]
    let cause := m.word3.toNat % 256
    let ends (i : Instr) (s2 : State) := Completes i s (pumpCtx s2 c)
    (outMsg? s1 c m.tag = none ∨ m.epoch ≠ epochOf s1 c m.tag →
      (m.op = .acknowledgement → ends (.acknowledgement m) (bumpC s1 c kLkStale 1)) ∧
      (m.op = .refusal → ends (.refusal m) (bumpC s1 c kLkStale 1)) ∧
      (m.op = .getResponse → ends (.getResponse m) (bumpC s1 c kLkStale 1))) ∧
    (∀ o, outMsg? s1 c m.tag = some o → m.epoch = epochOf s1 c m.tag →
      (m.op = .acknowledgement → o.op ≠ .draftTile → ends (.acknowledgement m) (answered s1 o dev true)) ∧
      (m.op = .acknowledgement → o.op = .draftTile →
        let more := s1.outMsgs.any (fun x => x.tag != o.tag && x.op == .draftTile && x.ctx == o.ctx && x.hidx == o.hidx && x.lk == o.lk &&
            x.dst == o.dst && x.loc == o.loc) ||
          s1.tilesOut.any (fun x => x.ctx == o.ctx && x.tag == o.hidx && x.quarter == o.lk && x.dst == o.dst.toNat && x.tile == o.loc)
        (more = true → ends (.acknowledgement m) (answered s1 o dev true)) ∧
        (more = false → ends (.acknowledgement m) (answered { s1 with
          groups := s1.groups.map (fun g => if g.ctx == o.ctx && g.tag == o.hidx && g.quarter == o.lk then
            { g with remote := g.remote.map (fun r => if r.1 = o.dst.toNat then (r.1, r.2 + 1) else r) } else g) } o dev true))) ∧
      (∀ l, m.op = .refusal → o.op ≠ .draftTile → o.op ≠ .tileRequest → lkop? s1 o.lk = some l →
        (l.quiet = true → ends (.refusal m) (answered s1 o dev false)) ∧
        (l.quiet = false → cause ≠ lkMemUe → ends (.refusal m) (answered (threadFault s1 l.t
          (fLink cause l.group o.tag.toNat m.epoch.toNat m.src.toNat)) o dev false)) ∧
        (l.quiet = false → cause = lkMemUe → ends (.refusal m) (answered (threadFault s1 l.t (fMemUe o.goal)) o dev false))) ∧
      (m.op = .getResponse → o.op ≠ .tileRequest →
        (∀ s2, landGet s1 o (m.data.take o.len) = .ok s2 → ends (.getResponse m) (answered s2 o dev true)) ∧
        (∀ l, o.op ≠ .draftTile → lkop? s1 o.lk = some l → o.free = false →
          okRange s1 c o.loc (m.data.take o.len).length = false → o.ctx.val = c →
          ends (.getResponse m) (answered (threadFault s1 l.t (fAddr (gAddr s1 o.loc))) o dev false))))) ∧
  (∀ (s : State) (c : CtxN) (tag : BitVec 12) (o : OutMsg), linksUp s = true → outMsg? s c tag = some o →
    let late := fld (actR s .lnkCfg) 15 8 ≤ (strokeNow s - BitVec.ofNat 64 o.edge).toNat
    (∀ l, late → o.op ≠ .draftTile → o.op ≠ .tileRequest → lkop? s o.lk = some l → Completes (.responseTimeout c tag) s
      (pumpCtx (finished (linkFault (bumpC s c kLkTmo 1) l lkTimeout tag (epochOf s c tag) (o.due.headD o.dst.toNat)) o false) c)) ∧
    (¬ late → NotNow (.responseTimeout c tag) s)) ∧
  (∀ l : LkOp, l.failed = true → l.sig.isSome = true → l.left ≤ nextLen l → ∀ s, maySend s l = false)

/-- Skein ports (R370-R374, R376, R379): training begins with this device's ID and port, counts for a port in service, or leaves a
port of a dimension of extent 1 unused; its end puts the port of the expected peer into service, where it sends its retry buffer
again, miswires another with its event, holds one down without an ID, and retires one with no lanes; flits are accepted in order,
and a bad one asks for a resend from the SEQ that is expected, as a gap does once; a burst counts for its lane (R454); a resend asked for is
made and counted; credits that come back let flits go. A message in transit leaves its buffer as the flits are taken. What becomes of a
retraining is the model's reading (log 90), and the 2,047 SEQ that are a repetition and the order of a flit's bytes are its choices (logs 136
and 127). -/
def Obligations.PortsAndFlits : Prop :=
  ∀ (s : State) (port : PortN),
    let n := port.val
    (mayTrain s n = true → portState s n ≠ 2 → portState s n ≠ 3 →
      (assigned s = true → unusedPort s n = true → Completes (.portTrain port) s (setPort s n 5)) ∧
      (assigned s = false ∨ unusedPort s n = false →
        Completes (.portTrain port) s (toLink (setPort s n 1) (.identity n (devId s))))) ∧
    (mayTrain s n = true → portState s n = 2 ∨ portState s n = 3 →
      let r := countError s ⟨3, n⟩
      (r.2 = false → Completes (.portTrain port) s (trainPort r.1 n)) ∧
      (r.2 = true → Completes (.portTrain port) s (setPort (markRetired r.1 3 n 0) n 6))) ∧
    (mayTrain s n = false → NotNow (.portTrain port) s) ∧
    (∀ r : Training, mayTrain s n = true → portState s n = 1 →
      let s1 := setF (setF (setF s (.lnkPort n) 63 48 r.peerDev.toNat) (.lnkPort n) 47 44 r.peerPort.toNat) (.lnkPort n) 31 16
        r.delay.toNat
      (r.lanes.val = 0 → Completes (.portTrained port r) s (retireUnit s 3 n 1)) ∧
      ((r.lanes.val = 2 ∨ r.lanes.val = 4 ∨ r.lanes.val = 8) → r.lanes.val ≤ liveGroup s n →
        (assigned s = false → Completes (.portTrained port r) s (setF (setPort s1 n 0) (.lnkPort n) 11 8 r.lanes.val)) ∧
        (assigned s = true → peerOk s1 n r.peerDev.toNat r.peerPort.toNat = false → Completes (.portTrained port r) s
          (eventG (setPort s1 n 4) 0x0300 ([BitVec.ofNat 8 n, 0] ++ leBytes 2 r.peerDev.toNat ++ [r.peerPort.setWidth 8]))) ∧
        (assigned s = true → peerOk s1 n r.peerDev.toNat r.peerPort.toNat = true →
          let s2 := setF (setPort s1 n (if n = 7 then 3 else 2)) (.lnkPort n) 11 8 r.lanes.val
          let s3 := spareCheck s2
          Completes (.portTrained port r) s
            (resume (if meshMask s2 != meshMask s3 then toLink s3 (.portStates (meshMask s3)) else s3) n)))) ∧
    (∀ (rank : Fin 8) (live : BitVec 8), powered s = true → s.failed = false → assigned s = true → rank.val ≠ (here s).rank →
      Completes (.portStateReport rank live) s { s with meshes := tabSet s.meshes rank live }) ∧
    (powered s = true → s.failed = false → (portState s n = 2 ∨ portState s n = 3) →
      let p := getPort s n
      (∀ (bytes : List Byte) (bursts : List (List Nat)) (fixed : Nat), bytes.length = 256 →
        let s1 := bump s (.feccor n) fixed
        let (seq, ack, x) := flitParts bytes
        let good : Prop := bursts = [] ∧ flitGood bytes = true
        let heard := { p with retry := ackRetry p.retry ack }
        let worst (es : List Nat) := (es.idxOf? (es.foldl max 0)).getD 0
        let counted (t : State) := bursts.foldl (fun s es =>
          let r := countError s ⟨2, 8 * n + worst es⟩
          if r.2 then retireUnit r.1 2 (8 * n + worst es) 0 else r.1) t
        let ends (t : State) := Completes (.flitReceive port (.flit bytes bursts fixed)) s t
        (good → seq = p.expect →
          ends (takeFlit (setPortSt s1 n { heard with expect := p.expect + 1, resend := false }) n x)) ∧
        (good → seq ≠ p.expect → (p.expect - seq).toNat < 2048 → ends (setPortSt s1 n heard)) ∧
        (good → seq ≠ p.expect → 2048 ≤ (p.expect - seq).toNat → p.resend = true → ends (setPortSt s1 n heard)) ∧
        (good → seq ≠ p.expect → 2048 ≤ (p.expect - seq).toNat → p.resend = false →
          ends (toLink (setPortSt s1 n { heard with resend := true }) (.resend n p.expect))) ∧
        (¬ good → ends (counted (toLink (setPortSt s1 n { p with resend := true }) (.resend n p.expect))))) ∧
      (∀ seq : BitVec 12,
        let rest := p.retry.dropWhile (fun e => e.1 != seq)
        (p.retry.any (fun e => e.1 == seq) = true → Completes (.flitReceive port (.resend seq)) s
          (bump (rest.foldl (fun s e => emitFlit s n e) (setPortSt s n { p with retry := rest })) (.retry n) rest.length)) ∧
        (p.retry.any (fun e => e.1 == seq) = false → Completes (.flitReceive port (.resend seq)) s s)) ∧
      (∀ (vc : BitVec 2) (cls : BitVec 4) (k : Nat),
        let key := pairKey vc.toNat cls.toNat
        Completes (.flitReceive port (.credit vc cls k)) s
          (drainPort (setPortSt s n { p with used := tabSet p.used key (tabGet 0 p.used key - k) }) n))) ∧
    (∀ (m : Msg) (e : InMsg), linksUp s = true → m.dst.toNat ≠ devId s → s.inbox.find? (fun e => e.m == m) = some e →
      ∀ s1 came hold, holdMsg s m = .ok (s1, came, hold) →
        Completes (.messageForward m) s (closeHeld (sendOn s1 came hold (legStep s1 m 3)) hold))

/-! ## Codec and reel (15, 17) -/

/-- Codec jobs (R302, R404-R410, R412): a legal descriptor is copied and queued behind the thread's further instructions; a queued job
takes its cores and reads its input, or asks lower classes for cores, and where none waits the running jobs take up free cores; a core ends a
unit and takes the next one, an entropy engine ends a frame; the frames that are complete with a unit are written and counted, or an encode is
full, and a core asked for is given up; a job ends with its status record, its counters and its signal. A queue of 16 holds the submitter. The
bitstreams of the codec standards are uninterpreted (log 125), the levels are presumed (log 57) and the workspace is the extent of its handle
(log 67). -/
def Obligations.CodecJobs : Prop :=
  ∀ (s : State),
    (∀ (t : Tid) (th : Thread) (f : Fields) s2 bs hs, Issues s t th →
      let s1 := atIssue s t
      let w := reg th f.sl0.toNat
      formOk f 0 0 [.scalar, .localSem, .imm] = true → f.sl2 ≠ 0 →
      (16 ≤ queuedJobs s1 t.ctx → NotNow (.cdcSubmit t f) s) ∧
      (queuedJobs s1 t.ctx < 16 → Ready th f.sl0 →
        (fld w 63 48 ≠ 0 ∨ fld w 5 0 ≠ 0 → Faults (.cdcSubmit t f) s t th (fAddr w)) ∧
        (fld w 63 48 = 0 → fld w 5 0 = 0 → readA s1 t (fld w 47 0) 64 = .ok (s2, bs) →
          let d := (List.range 8).map (fun k => BitVec.ofNat 64 (ofBytes ((bs.drop (8 * k)).take 8)))
          let p := partOf t.ctx
          let h (k : Nat) : Handle := (hs[k]?).getD noHandle
          (dHandles d).mapM (getH s2 t.ctx) = .ok hs → (∀ h ∈ hs.take 3, h.fmt = 7 ∨ h.fmt = 8) → (h 3).fmt = 7 → (h 5).fmt = 7 →
          (dFieldsOk d = false → exec (.cdcSubmit t f) s = .next (progFault s2 t th.pc fOperand)) ∧
          (dFieldsOk d = true → dShapesOk d hs = true →
            (dGang d = true → (coresOf s2 p).length = 8 ∧ leasedCore s2 p = none) →
            (ctxCls s2 t.ctx = 0 → dCores d = 1 ∧ dGang d = false) →
            inHbmOrPinned s2 p (h 4).lo ((h 4).hi - (h 4).lo) = true → (∀ h ∈ hs, viewOk s2 t.ctx h = true) →
            (∀ h ∈ dWritten d hs, passedDecl s2 t.ctx h.idx = false) →
            ∃ (s3 : State) (j : CdcJob), Completes (.cdcSubmit t f) s (stepOn { s3 with jobs := s3.jobs ++ [j] } t th) ∧ s3.jobs = s2.jobs ∧
              j.t = t ∧ j.desc = d ∧ j.hs = hs ∧ j.sem = f.sl1.toNat ∧ j.amount = f.sl2.toNat ∧ j.seq = s1.seq)))) ∧
    (∀ (p : PartN), powered s = true → s.failed = false →
      (∀ j rest s2, cdcQueue s p = j :: rest →
        let s1 := setJob s { j with started := true, cores := (freeCores s j).take (if dGang j.desc then 8 else 1) }
        let begun := s1.jobs.filter (fun x => x.started && s.jobs.any (fun y => y.id == x.id && !y.started))
        (startable s j = true → readInputs s1 begun = .ok s2 → Completes (.cdcJobStart p) s (begun.foldl beginJob s2)) ∧
        (startable s j = false → (jobCls s j = 1 ∨ jobCls s j = 2) → canYield s j = true →
          Completes (.cdcJobStart p) s (askYield s j))) ∧
      (cdcQueue s p = [] → (shareCores s p ≠ s → Completes (.cdcJobStart p) s (shareCores s p)) ∧
        (shareCores s p = s → NotNow (.cdcJobStart p) s))) ∧
    (∀ (core : Fin 8) (j : CdcJob), powered s = true → s.failed = false → jobOn s core = some j →
      let stops : Bool := j.torn || j.hurt
      (∀ x, j.parsing.find? (fun x => x.1 == core.val) = some x → Completes (.cdcUnitDone core true) s (setJob s (giveWork s (feedEngines
        { j with parsed := j.parsed ++ [x.2], parsing := j.parsing.filter (fun y => y.1 != core.val) })))) ∧
      (∀ w s1 j2, j.work.find? (fun w => w.1 == core.val) = some w →
        let j1 : CdcJob := { j with units := j.units ++ [w.2], work := j.work.filter (fun y => y.1 != core.val) }
        (if stops then .ok (s, j1) else framesOut s j1 j1.units.length) = .ok (s1, j2) →
        (givesUp s1 j2 core = true →
          let s2 := setJob s1 (j2.without core)
          Completes (.cdcUnitDone core false) s (coresFreed (if stops then s2 else bumpC s2 j2.t.ctx kCdcYield 1) (partOf j.t.ctx))) ∧
        (givesUp s1 j2 core = false → Completes (.cdcUnitDone core false) s
          (coresFreed (setJob s1 (releaseIdle (giveWork s1 (feedEngines j2)))) (partOf j.t.ctx))))) ∧
    (∀ (j : CdcJob) (n : Nat),
      let wrote (s1 : State) := framesOut (bumpC s1 j.t.ctx kCdcFrames 1)
        { j with done := j.done + 1, units := j.units.filter (fun x => x.1 != j.done) } n
      (j.finished = true ∨ j.frameDone j.done = false → framesOut s j (n + 1) = .ok (s, j)) ∧
      (j.finished = false → j.frameDone j.done = true →
        (∀ s1, dDecode j.desc = true → writeFrame s j j.done = .ok s1 → framesOut s j (n + 1) = wrote s1) ∧
        (dDecode j.desc = false →
          let u := ((codedUnits j)[j.done]?).getD ([], 0)
          let h := (j.hs[3]?).getD noHandle
          (h.dim 0 < j.bytes + u.1.length → framesOut s j (n + 1) = .ok (s, { j with full := true, work := [] })) ∧
          (∀ s1, j.bytes + u.1.length ≤ h.dim 0 → cdcWrite s j h j.bytes u.1 = .ok s1 → framesOut s j (n + 1) = wrote s1)))) ∧
    (∀ (id : Nat) (j : CdcJob), powered s = true → s.failed = false → s.jobs.find? (fun j => j.id == id && !j.ended) = some j →
      let ended : Prop := j.hurt = true ∨ (j.torn = true ∧ j.work = []) ∨ (j.torn = false ∧ j.started = true ∧ j.finished = true)
      (∀ s1, ended → endJob s j j.status (!j.torn) = .ok s1 → Completes (.cdcJobEnd id) s s1) ∧
      (¬ ended → NotNow (.cdcJobEnd id) s))

/-- `reel.mark` and the delivery of records (R303, R357, R362-R365): a mark is recorded, compared or without effect by MODE,
and the thread goes on; in a replay the record at HEAD is delivered once its time has come, and when every record is delivered and
every recorded input compared the replay is done with DONE set and MODE 0. Doorbells that a replay held back are decoded as it ends. That a
live input which comes before its record waits for
it is the model's reading (log 27). -/
def Obligations.ReelMarksAndReplay : Prop :=
  ∀ (s : State),
    (∀ (t : Tid) (th : Thread) (f : Fields), Issues s t th → formOk f 0 0 [.scalar, .imm] = true → Ready th f.sl0 →
      let s1 := stepOn (notReplayable (atIssue s t) t) t th
      let p := partOf t.ctx
      let x := getReel s1 p
      let mark := wordBytes (reg th f.sl0.toNat) ++ leBytes 2 f.sl1.toNat
      let goes (s2 : State) := Completes (.reelMark t f) s (releaseBells s2)
      (reelMode s1 p = 0 → goes s1) ∧ (reelMode s1 p = 1 → goes (reelRecord s1 p 5 t.ctx mark)) ∧
      (∀ r, reelMode s1 p = 2 → x.wanted.find? (fun r => r.ty == 5) = some r →
        (r.payload.take 10 = mark → goes (reelEnd (setReel s1 p { x with wanted := x.wanted.erase r }) p)) ∧
        (r.payload.take 10 ≠ mark → goes (reelMismatch s1 p r.seq))) ∧
      (reelMode s1 p = 2 → x.wanted.find? (fun r => r.ty == 5) = none → ∃ live : ReelRec, live.ty = 5 ∧ live.payload = mark ∧
        goes (setReel s1 p { x with came := x.came ++ [live] }))) ∧
    (∀ (p : PartN), treadleRuns s = true → s.failed = false → reelMode s p = 2 →
      let head := (getR s (.reelHead p)).toNat
      let x := getReel s p
      let r := (reelAt s p head).1
      let due := deliverAt s p r
      let now := strokeNow s
      let come := edgeReached now due.1.toNat = true ∧ (due.1 ≠ now ∨ due.2 ≤ tickNow s)
      (x.last ≤ head → x.wanted = [] → Completes (.reelDeliver p) s (releaseBells
        (setR (reelOff s p) (.reelStat p) (getR (reelOff s p) (.reelStat p) ||| 1)))) ∧
      (x.last ≤ head → x.wanted ≠ [] → NotNow (.reelDeliver p) s) ∧
      (head < x.last →
        let s1 := if (due.1 ≠ now ∨ due.2 < tickNow s) ∧ r.ty ≠ 6 then markLate s p else s
        (¬ come → NotNow (.reelDeliver p) s) ∧
        (∀ s2, come → deliver (setR s1 (.reelHead p) (BitVec.ofNat 64 (head + max 64 (reelAt s p head).2))) p r = .ok s2 →
          Completes (.reelDeliver p) s (releaseBells (if reelMode s2 p = 2 then reelEnd s2 p else s2)))))

/-! ## Time, ply pairs, pre-emption and errors (10, 13, 14, 16, 20) -/

/-- The treadle's boundaries (R234-R237, R245, R246): a fine tick inside a stroke runs the tick's part, the last one the
stroke edge; STROKE_EDGE runs the fine ticks that are left and the edge; neither occurs while the treadle is held. A turn that
has overrun is counted once and stretched by one boundary with TIMING_LOST, or is a fault of its context under ON_OVERRUN or
after STRETCH_MAX stretches; the stroke index wraps (R233). That STROKE_EDGE runs what is left of its stroke is the model's choice (log 60). -/
def Obligations.TreadleBoundaries : Prop :=
  ∀ (s : State) (m : Monitor),
    (treadleRuns s = true →
      (tickNow s + 1 < strokeLen s → Completes (.fineTick m) s (tickOnce m s)) ∧
      (strokeLen s ≤ tickNow s + 1 → Completes (.fineTick m) s (edgeOnce m s)) ∧
      Completes (.strokeEdge m) s (edgeOnce m (tickN m (strokeLen s - 1 - tickNow s) s))) ∧
    (treadleRuns s = false → NotNow (.fineTick m) s ∧ NotNow (.strokeEdge m) s) ∧
    (∀ (t : Tid) th u, powered s = true → s.failed = false → turnsRun (getC s t.ctx) = true → getT? s t = some th →
      th.turn = some u →
      let c := t.ctx.val
      let now := s.fticks
      let most := fld (actR s (.timepol c)) 15 8
      let s1 := if u.overrun then s else bumpC s c kOverrun 1
      let come : Prop := if ctxCls s c = 0 then u.stop ≤ now else edgeReached (strokeNow s) u.stop = true
      come → turnWorkDone s t th u = false →
      (bit (actR s (.timepol c)) 0 = false → (most = 0 ∨ u.stretched < most) → Completes (.turnOverrun t) s
        (setT (setTstat (bumpC s1 c kOverrunStk 1) c 1) t
          { th with turn := some { u with stop := u.stop + 1, stretched := u.stretched + 1, overrun := true } })) ∧
      (bit (actR s (.timepol c)) 0 = true ∨ (most ≠ 0 ∧ most ≤ u.stretched) →
        Completes (.turnOverrun t) s (overrunFault s1 c)))

/-- Coupled treadles (R396-R398): the root's marker names the boundary 64 fine ticks ahead on every live port; a follower
discards markers from other ports, takes its first lock in one step, corrects its phase by at most 100 ns, and enters holdover at an index
error, whose marker it does not forward; the parent's silence moves it to ALTPORT, a follower in holdover too, or into holdover, and is told once; a rising TRD_SYNC_IN starts an armed treadle. How
the phase is kept, and that a silence is told once, are the model's reading and choice (logs 29 and 148). -/
def Obligations.TreadleMarkers : Prop :=
  ∀ (s : State), powered s = true → s.failed = false →
    (treadleRuns s = true → syncMode s = 1 → s.fticks % 64 = 0 → (s.fticks = 0 ∨ s.lastMarker < s.fticks) →
      let ahead := tickNow s + 64
      Completes .treadleMarkerSend s (spreadMarker { s with lastMarker := s.fticks }
        { index := strokeNow s + BitVec.ofNat 64 (ahead / strokeLen s), tick := ahead % strokeLen s, remain := 32000000 } 16)) ∧
    (∀ (port : PortN) (m : Marker), s.power.clkCore = true → portUp s port = true →
      (syncMode s ≠ 2 ∨ port.val ≠ syncPort s → Completes (.trdMarkerReceive port m) s s) ∧
      (syncMode s = 2 → port.val = syncPort s →
        let m1 : Marker := { m with remain := m.remain - rfld s (.lnkPort port) 31 16 * 1000 / 16 }
        let s1 : State := spreadMarker { s with lastMarker := s.fticks, parentLost := false } m1 port
        let e : Int := m1.remain - 500000 * ticksTo s1 m1
        let same := ownIndex s m1.remain = m.index.toNat
        (s.lockedOnce = false → syncLock s ≠ 1 → Completes (.trdMarkerReceive port m) s (firstLock s1 m1)) ∧
        (s.lockedOnce = true → same → -100000 ≤ e → e ≤ 100000 →
          Completes (.trdMarkerReceive port m) s { setF s1 .trdSync 5 4 1 with phase := e }) ∧
        (s.lockedOnce = true → same → 100000 < e → Completes (.trdMarkerReceive port m) s { s1 with phase := 100000 }) ∧
        (s.lockedOnce = true → same → e < -100000 → Completes (.trdMarkerReceive port m) s { s1 with phase := -100000 }) ∧
        (syncLock s = 1 → ¬ same → Completes (.trdMarkerReceive port m) s
          (eventG (setF { s with lastMarker := s.fticks, parentLost := false } .trdSync 5 4 2) 0x0301 [BitVec.ofNat 8 port])) ∧
        (s.lockedOnce = true → syncLock s ≠ 1 → ¬ same → Completes (.trdMarkerReceive port m) s s1))) ∧
    (treadleRuns s = true → syncMode s = 2 →
      let port := [BitVec.ofNat 8 (syncPort s)]
      (s.lastMarker + 256 ≤ s.fticks → bit (actR s .trdSync) 3 = true → s.onAlt = false →
        Completes .trdParentTimeout s (eventG { s with onAlt := true, lastMarker := s.fticks } 0x0302 port)) ∧
      (s.lastMarker + 256 ≤ s.fticks → bit (actR s .trdSync) 3 = false ∨ s.onAlt = true →
        (s.parentLost = false → Completes .trdParentTimeout s (eventG (setF { s with parentLost := true } .trdSync 5 4 2) 0x0303 port)) ∧
        (s.parentLost = true → NotNow .trdParentTimeout s)) ∧
      (s.fticks < s.lastMarker + 256 → NotNow .trdParentTimeout s)) ∧
    (s.treadleHeld = false → Completes .trdSyncInEdge s s) ∧
    (s.treadleHeld = true → ∃ t, Completes .trdSyncInEdge s t ∧ t.treadleHeld = false ∧ t.power.syncOut = true ∧
      t.threads = s.threads ∧ t.mem = s.mem ∧ t.fticks = s.fticks)

/-- A ply pair (R326-R329): heartbeats and their answers, records applied entire and acknowledged, the third miss, a takeover,
and a join from its start, where the image's cursor stands at its first byte, to its completion once the image is whole. What a
record carries and when it leaves is the model's reading (log 104). -/
def Obligations.PlyPair : Prop :=
  ∀ (s : State), powered s = true → s.failed = false →
    (∀ edge : Word,
      let heard : State :=
        { s with ply := { s.ply with lastOk := if edgeReached edge s.ply.lastOk then edge.toNat else s.ply.lastOk } }
      (plyStandby s = true → Completes (.plyHeartbeatReceive edge) s (toLink heard (.heartbeatAck edge))) ∧
      (plyActive s = true → edgeReached (strokeNow s) edge.toNat = true →
        Completes (.plyHeartbeatAck edge) s heard ∧ Completes (.plyRecordAck edge) s (setR s .plyAck edge)) ∧
      (plyActive s = false ∨ edgeReached (strokeNow s) edge.toNat = false →
        NotNow (.plyHeartbeatAck edge) s ∧ NotNow (.plyRecordAck edge) s)) ∧
    (∀ r : PlyRecord, plyStandby s = true →
      Completes (.plyRecordReceive r) s (toLink (setR (plyApply s r) .plyAck r.edge) (.recordAck r.edge))) ∧
    (plyMisses s = 3 →
      (plyActive s = true → bit (getR s .plyCfg) 8 = true →
        Completes .plyLoss s (setF (eventG s 0x0304 (List.replicate 8 0 ++ wordBytes (getR s .plyAck))) .plyStat 2 0 4)) ∧
      (plyActive s = true → bit (getR s .plyCfg) 8 = false → Completes .plyLoss s
        (plyFence (setF (eventG s 0x0304 (List.replicate 8 0 ++ wordBytes (getR s .plyAck))) .plyStat 2 0 3))) ∧
      (plyActive s = false → plyStandby s = true → bit (getR s .plyCfg) 9 = false → s.ply.lost = false →
        Completes .plyLoss s (plyEvent { s with ply := { s.ply with lost := true } } 0x0304)) ∧
      (plyStandby s = true → bit (getR s .plyCfg) 9 = true → plyState s = 2 →
        Completes .plyTakeover s (plyEvent (setF (setF s .plyCfg 1 0 1) .plyStat 2 0 5) 0x0305)) ∧
      (plyStandby s = true → bit (getR s .plyCfg) 9 = true → plyState s = 1 → NotNow .plyTakeover s)) ∧
    (plyMisses s ≠ 3 → NotNow .plyLoss s ∧ NotNow .plyTakeover s) ∧
    (plyState s = 1 → s.ply.joining = false →
      let s1 : State := { s with ply := { s.ply with joining := true, cursor := 0, imaged := false } }
      (plyRole s = 2 → Completes .plyJoin s (((List.range 4).filter (mirrored s)).foldl clearPartition s1)) ∧
      (plyRole s = 1 → Completes .plyJoin s s1)) ∧
    (plyState s = 1 → s.ply.joining = true →
      (s.ply.imaged = true → Completes .plyJoined s
        (plyEvent (setF { s with ply := { s.ply with joining := false } } .plyStat 2 0 2) 0x0306)) ∧
      (s.ply.imaged = false → NotNow .plyJoined s))

/-- Pre-emption (R333-R339): at a fine-tick boundary a context asked to leave begins its suspension; it and its fillers then leave
their multicast groups; the finished save makes them suspended and serves what waits; a finished restore resumes their threads and
starts the fillers that wait; neither ends while its images lie in a stack that issues nothing (R187). That the suspension begins after the boundary's tests is the model's reading (log 107). -/
def Obligations.Preemption : Prop :=
  ∀ (s : State) (c : CtxN),
    ((getC s c).preempt = true → (getC s c).st = .running → (getC s c).saving = false → (getC s c).restoring = false →
      let x := getC (beginSaves s) c
      x.saving = true ∧ x.preempt = false ∧ x.atPoint = false ∧ x.suspEdge = (strokeNow s).toNat) ∧
    (s.failed = false → treadleRuns s = true → (getC s c).saving = true → (getC s c).filler = false →
      ((getC s c).atPoint = false → Completes (.contextSuspend c) s ((withFillers s c).foldl (fun s d =>
        leaveGroups (setC s d { getC s d with atPoint := true }) d) s)) ∧
      ((getC s c).atPoint = true → NotNow (.contextSuspend c) s)) ∧
    ((getC s c).saving = false → NotNow (.contextSuspend c) s ∧ NotNow (.saveComplete c) s) ∧
    (powered s = true → s.failed = false → (getC s c).saving = true → (getC s c).filler = false → (getC s c).atPoint = true →
      (imagesCool s c = false → NotNow (.saveComplete c) s) ∧
      let s1 := saveImages s c
      (imagesCool s c = true → Completes (.saveComplete c) s
        (serve ((withFillers s1 c).foldl (fun s d =>
          setC s d { getC s d with st := .suspended, saving := false, atPoint := false }) s1) (partOf c)))) ∧
    (powered s = true → s.failed = false → (getC s c).st = .running → (getC s c).restoring = true →
      (imagesCool s c = false → NotNow (.restoreComplete c) s) ∧
      let s1 := restoreImages s c
      let s2 := (withFillers s1 c).foldl (fun s d =>
        resumeThreads (setC s d { getC s d with st := .running, restoring := false }) d) s1
      (imagesCool s c = true → Completes (.restoreComplete c) s (startFillers ((withFillers s2 c).foldl settle s2) c)))

/-- Hardware errors (R451-R458): a corrected error is counted for its unit and in its window, and at THRESH the unit is
retired; a window closes after its length; each uncorrectable error resets, retires, marks or invalidates what its table says;
the hub watchdog's second expiry within 1 s fails the device. A port's retrainings have their own commands. How the windows
are measured and how retrainings are counted are the model's reading (log 90). That only memory words raise the UE event, and
that the watchdog's restart changes no state, are the model's reading (logs 88 and 89). -/
def Obligations.HardwareErrors : Prop :=
  ∀ (s : State), powered s = true → s.failed = false →
    (∀ u : UnitId, u.idx < unitCount u.ty → u.ty.val ≠ 3 →
      let w := match openWindow s u with
        | some w => { w with count := w.count + 1 }
        | none => { unit := u, opened := s.fticks, count := 1 }
      let s1 := bump { s with windows := w :: s.windows.filter (fun x => x.unit != u) } (.ce u.ty u.idx) 1
      let n := rfld s (.glbRetire u.ty) 31 16
      (n = 0 ∨ w.count < n → Completes (.correctedError u) s s1) ∧
      (n ≠ 0 → n ≤ w.count → Completes (.correctedError u) s (retireUnit s1 u.ty u.idx 0))) ∧
    (∀ u w, s.windows.find? (fun x => x.unit == u) = some w →
      (w.opened + windowTicks s u.ty ≤ s.fticks →
        Completes (.retireWindowClose u) s { s with windows := s.windows.filter (fun x => x.unit != u) }) ∧
      (s.fticks < w.opened + windowTicks s u.ty → NotNow (.retireWindowClose u) s)) ∧
    (∀ i, Completes (.uncorrectableError (.spindle i)) s (retireUnit (resetQuarterPart s (i / 16)) 5 i 1)) ∧
    (∀ q, Completes (.uncorrectableError (.quarterUnit q)) s (retireUnit (resetQuarterPart s q) 6 q 1)) ∧
    (∀ (q : Fin 4) a, Completes (.uncorrectableError (.creelData q a)) s
      (let kept := s.creel.map (fun k =>
         if k.1 / 512 == q.val then (k.1, k.2.filter (fun w => w.2 != a.toNat / 4096)) else k)
       { s with creel := kept.filter (fun k => !k.2.isEmpty) })) ∧
    (∀ q : Fin 4, Completes (.uncorrectableError (.creelTags q)) s { s with creel := s.creel.filter (fun k => k.1 / 512 != q.val) }) ∧
    (∀ n, Completes (.uncorrectableError (.codecSram n)) s (retireUnit (tearJob s n) 4 n 1)) ∧
    (∀ (a : BitVec 48) l, locate s a.toNat = some l →
      (s.ue.contains (a.toNat / 32) = false → Completes (.uncorrectableError (.memWord a)) s (markWord s a.toNat l)) ∧
      (s.ue.contains (a.toNat / 32) = true → NotNow (.uncorrectableError (.memWord a)) s)) ∧
    Completes (.uncorrectableError .hub) s (deviceFail s) ∧ Completes (.uncorrectableError .pcie) s (toHost s (.aer .link)) ∧
    (let s1 : State := { s with lastExpiry := some s.fticks }
     (s.lastExpiry = none → Completes .watchdogExpiry s s1) ∧
     (∀ k, s.lastExpiry = some k → k + 2000000 < s.fticks → Completes .watchdogExpiry s s1) ∧
     (∀ k, s.lastExpiry = some k → s.fticks ≤ k + 2000000 → Completes .watchdogExpiry s (deviceFail s1)))

/-! ## The host (18, 19) -/

/-- Doorbells (R347, R364, R419, R421, R425, R426, R428, R431, R465). Page c of PF0 is context c, and page i of a VF is context 16p + i of the
function's partition p; any other page has no effect, and a function in D3hot answers Unsupported Request. A submission tail within the free
entries and a completion head up to TAIL are taken, and the ring keeps which function wrote its tail; any other value raises RING_ERR. A
doorbell of a ring that is not enabled, or of a context's ring in recovery, has no effect (the model's choice for the former, logs 91 and
101); what comes in a firmware stall is held, and so is an inline record in a replay of its partition. The admin ring's doorbell is a write
of a half of GLB_ADM_DB, which only PF0 writes: a half that the function holds of another register is discarded with REG_ERR first. An
inline record is decoded at once for a context of class 0, if it arrives whole and is LAUNCH or SIGNAL; any other raises INLINE_REFUSED.
How a firmware stall and a replay hold them, what recovery answers, and what an event of the ring names, are the model's reading (logs 14,
101, 132 and 134). -/
def Obligations.Doorbells : Prop :=
  ∀ (s : State) (fn : Func), hostFn s fn = true →
    let named (page : Fin 64) (c : CtxN) : Prop :=
      (fn.val = 0 ∧ c = page) ∨ (fn.val ≠ 0 ∧ page.val < 16 ∧ ∃ p, partOfFunc s fn = some p ∧ c.val = 16 * p + page.val)
    let tails (i : Instr) (z : State) (ring : Ring) (v : Half) : Prop :=
      let k := Ring.key ring
      let x := fld v 15 0
      let tail := (getRing z k).sqTail
      let free := (sqHead z k + 2 * sqSize z k - 1 - tail) % sqSize z k
      (fwStalls z = true → Completes i s { z with bells := z.bells ++ [.tail fn ring v] }) ∧
      (fwStalls z = false → (recovering z = true ∧ k ≠ 64) ∨ sqOn z k = false → Completes i s z) ∧
      (fwStalls z = false → (recovering z = false ∨ k = 64) → sqOn z k = true → tail < sqSize z k →
        (∀ d, d ≤ free → x = (tail + d) % sqSize z k →
          Completes i s (setRing z k { getRing z k with sqTail := x, sender := fn })) ∧
        ((∀ d, d ≤ free → x ≠ (tail + d) % sqSize z k) → Completes i s
          (if k = 64 then eventG z 0x0205 (leBytes 4 (Reg.offset .admSqCtl))
            else eventC z 0x0205 k (leBytes 4 (Reg.offset (.sqCtl k))))))
    let heads (i : Instr) (z : State) (ring : Ring) (v : Half) : Prop :=
      let k := Ring.key ring
      let x := fld v 15 0
      let n := ringSize (rfld z (ringCqCtl k) 19 16)
      let r := getRing z k
      let used := (rfld z (ringCqCtl k) 15 0 + n - r.cqHead) % n
      (fwStalls z = true → Completes i s { z with bells := z.bells ++ [.head ring v] }) ∧
      (fwStalls z = false → (recovering z = true ∧ k ≠ 64) ∨ cqOn z k = false → Completes i s z) ∧
      (fwStalls z = false → (recovering z = false ∨ k = 64) → cqOn z k = true → r.cqHead < n →
        (∀ d, d ≤ used → x = (r.cqHead + d) % n → Completes i s
          (setRing z k { r with cqHead := x, fullRaised := r.fullRaised && x == r.cqHead })) ∧
        ((∀ d, d ≤ used → x ≠ (r.cqHead + d) % n) → Completes i s
          (if k = 64 then eventG z 0x0205 (leBytes 4 (Reg.offset .admCqCtl))
            else eventC z 0x0205 k (leBytes 4 (Reg.offset (.cqCtl k))))))
    (∀ (ring : Ring) (v : Half) (page : Fin 64) (whole : Bool) (r : Rec), inD3hot s fn = true →
      Completes (.sqTailWrite fn ring v) s (toHost s .unsupported) ∧ Completes (.cqHeadWrite fn ring v) s (toHost s .unsupported) ∧
      Completes (.inlineRecord fn page whole r) s (toHost s .unsupported)) ∧
    (inD3hot s fn = false →
      (∀ (page : Fin 64) (v : Half) (whole : Bool) (r : Rec), (∀ c, ¬ named page c) →
        Completes (.sqTailWrite fn (.ctx page) v) s s ∧ Completes (.cqHeadWrite fn (.ctx page) v) s s ∧
        Completes (.inlineRecord fn page whole r) s s) ∧
      (∀ (page : Fin 64) (c : CtxN) (v : Half), named page c →
        tails (.sqTailWrite fn (.ctx page) v) s (.ctx c) v ∧ heads (.cqHeadWrite fn (.ctx page) v) s (.ctx c) v) ∧
      (∀ v : Half,
        let held := s.halves.find? (fun h => h.1 == fn.val)
        (held = none → fn.val ≠ 0 → Completes (.sqTailWrite fn .admin v) s s ∧ Completes (.cqHeadWrite fn .admin v) s s) ∧
        (held = none → fn.val = 0 → tails (.sqTailWrite fn .admin v) s .admin v ∧ heads (.cqHeadWrite fn .admin v) s .admin v) ∧
        (∀ slot lo, held = some (fn.val, slot, lo) → slot ≠ Reg.offset .admDb →
          let z := regErr { s with halves := s.halves.filter (fun h => h.1 != fn.val) } slot 1
          (fn.val ≠ 0 → Completes (.sqTailWrite fn .admin v) s z ∧ Completes (.cqHeadWrite fn .admin v) s z) ∧
          (fn.val = 0 → tails (.sqTailWrite fn .admin v) z .admin v ∧ heads (.cqHeadWrite fn .admin v) z .admin v))) ∧
      (∀ (page : Fin 64) (c : CtxN) (whole : Bool) (r : Rec), named page c →
        let taken := whole = true ∧ exists' s c = true ∧ ctxCls s c = 0 ∧ (recOp r = 2 ∨ recOp r = 6)
        (fwStalls s = true ∨ reelMode s (partOf c) = 2 →
          Completes (.inlineRecord fn page whole r) s { s with bells := s.bells ++ [.inline fn c whole r] }) ∧
        (fwStalls s = false → reelMode s (partOf c) ≠ 2 → recovering s = true ∨ s.failed = true →
          Completes (.inlineRecord fn page whole r) s s) ∧
        (hubUp s = true → reelMode s (partOf c) ≠ 2 →
          (taken → Completes (.inlineRecord fn page whole r) s (decodeRec s fn c 0 r)) ∧
          (¬ taken → Completes (.inlineRecord fn page whole r) s (eventC s 0x0204 c (leBytes 4 (Reg.offset (.sqCtl c))))))))

/-- Command records (R333-R335, R349, R388, R429-R431): the record at HEAD of a ring is taken and numbered; the checks of R430
and R431 refuse it with their status, for the function that wrote the ring's tail; else CREATE, LAUNCH, TEARDOWN, MOVE, FENCE, SIGNAL and
STAGE do what their kind says, or are refused with the status of their table. Who submits, the order of the checks, the statuses of a
launch that no rule names, how a teardown completes, and in which partition a MOVE of the admin ring lies, are the model's reading (logs 80,
92, 93, 94 and 99). -/
def Obligations.CommandRecords : Prop :=
  ∀ (s : State) (ring : Ring) (r : Rec), hubUp s = true → recWaits s (Ring.key ring) r = true →
    let k := Ring.key ring
    let taken := takeRec (passHead (fetchRec s k) k) k r
    let n := taken.2
    let fn := (getRing s k).sender
    let s2 := if k = 64 then taken.1 else reelCommand taken.1 k (recData r)
    let ends (i : Instr) (t : State) (st : Nat) := Completes i s (complete t k n (cmdId r) st)
    let rows : List (Nat × Instr) := [(1, .create ring r), (2, .launch ring r), (3, .teardown ring r), (4, .move ring r),
      (5, .ringFence ring r), (6, .signal ring r), (7, .stage ring r)]
    (∀ x ∈ rows, recOp r = x.1 ∨ opOk k (recOp r) = false →
      (ringUsable s2 fn k = false → ends x.2 s2 4) ∧
      (ringUsable s2 fn k = true → opOk k (recOp r) = false → ends x.2 s2 1) ∧
      (ringUsable s2 fn k = true → opOk k (recOp r) = true → reservedOk r = false → ends x.2 s2 2)) ∧
    (ringUsable s2 fn k = true → opOk k (recOp r) = true → reservedOk r = true →
      (recOp r = 1 →
        let cls : Fin 4 := Fin.ofNat 4 (fld r.w1 1 0)
        let refused := (getC s2 k).st ≠ .none ∨ s2.resetting.any (fun x => x.1 == partOf k) = true ∨
          plyClosed s2 (partOf k) = true ∨ (cls = 0 ∧ leaseNames s2 k = false)
        let credits := creditSum s2 k + rfld s2 (.lkcred k) 11 0 + 1
        (refused → ends (.create ring r) s2 3) ∧
        (¬ refused → 16384 < credits →
          ends (.create ring r) (eventC s2 0x0207 k (leBytes 4 (Reg.offset (.lkcred k)))) 3) ∧
        (¬ refused → credits ≤ 16384 → ends (.create ring r)
          (setR (clearEpochs (clearCounters (setC { s2 with poolWaited := s2.poolWaited.erase k } k { st := .stopped, cls := cls }) k) k)
            (.detstat k) 0) 0)) ∧
      (recOp r = 2 →
        let x := getC s2 k
        let y : CtxSt := { launchOf x r with order := nextOrder s2, launchCmd := some (n, cmdId r) }
        let whole := fld r.w1 37 32 = 0 ∧ fld r.w1 45 40 = 0
        let fill := bit r.w1 48
        (exists' s2 k = false → ends (.launch ring r) s2 3) ∧
        (exists' s2 k = true → x.cls = 0 →
          (x.st ≠ .stopped ∨ fill = true → ends (.launch ring r) s2 3) ∧
          (x.st = .stopped → fill = false → ¬ whole → ends (.launch ring r) s2 2) ∧
          (x.st = .stopped → fill = false → whole →
            Completes (.launch ring r) s (startCtx (setC s2 k { y with first := 0, count := ctxNL s2 k }) k))) ∧
        (exists' s2 k = true → x.cls ≠ 0 → fill = true →
          let primary := getC s2 y.primary
          let s3 := setC s2 k { y with first := 0, count := 0 }
          let runs := primary.st = .running ∧ primary.saving = false ∧ primary.restoring = false
          (mayFill s2 k y.primary = false → ends (.launch ring r) s2 3) ∧
          (mayFill s2 k y.primary = true → ¬ whole → ends (.launch ring r) s2 2) ∧
          (mayFill s2 k y.primary = true → whole → runs → Completes (.launch ring r) s (startFillers s3 y.primary)) ∧
          (mayFill s2 k y.primary = true → whole → ¬ runs → Completes (.launch ring r) s s3)) ∧
        (exists' s2 k = true → x.cls ≠ 0 → fill = false →
          (nlEff s2 (partOf k) < y.first + y.count → ends (.launch ring r) s2 3) ∧
          (y.first + y.count ≤ nlEff s2 (partOf k) → Completes (.launch ring r) s (serveOne (setC s2 k y) k)))) ∧
      (recOp r = 3 →
        (exists' s2 k = true → Completes (.teardown ring r) s (leaveRec (teardown s2 k 0 (cmdId r)) k n)) ∧
        (exists' s2 k = false → ends (.teardown ring r) s2 3)) ∧
      (recOp r = 4 →
        let m : MoveSt := { num := n, cmdid := cmdId r, host := r.w1, loc := fld r.w2 47 0, len := fld r.w3 31 0 + 1,
                            toHost := bit r.w3 32 }
        let s3 := setRing s2 k { getRing s2 k with moves := (getRing s2 k).moves ++ [m] }
        (movePart s2 k m.loc m.len m.toHost = none → ends (.move ring r) s2 5) ∧
        (∀ p, movePart s2 k m.loc m.len m.toHost = some p →
          (m.toHost = true → Completes (.move ring r) s s3) ∧
          (m.toHost = false → reelRefuses s2 p = true → ends (.move ring r) (reelInput s2 p) 0x0B) ∧
          (m.toHost = false → reelRefuses s2 p = false →
            Completes (.move ring r) s (toHost s3 (.read m.host.toNat m.len (ringId s3 k)))))) ∧
      (recOp r = 5 → Completes (.ringFence ring r) s (leaveRec s2 k 0)) ∧
      (recOp r = 6 →
        let added := applySignal s2 (setFld r.w1 21 16 k) (bit r.w2 0) none
        (exists' s2 k = false → ends (.signal ring r) s2 3) ∧
        (exists' s2 k = true →
          (∀ s3, added = .ok s3 → ends (.signal ring r) s3 0) ∧
          ((∀ s3, added ≠ .ok s3) → ends (.signal ring r) s2 0x0A))) ∧
      (recOp r = 7 →
        let b := fld r.w1 2 0
        let act := fld r.w1 9 8
        let a := stgArm s2 b r.w2 false
        (bankOf s2 k b = false → ends (.stage ring r) s2 7) ∧
        (bankOf s2 k b = true →
          (act = 0 → Completes (.stage ring r) s (waitBank (stgBegin s2 b) k n b)) ∧
          (act = 1 → ends (.stage ring r) (stgReports a.1) (if a.2 then 0 else 7)) ∧
          (act = 2 → ends (.stage ring r) (stgReports (stgDisarm s2 b)) 0) ∧
          (act = 3 → ends (.stage ring r) (stgReports (stgClearAll s2 b)) 0))))

/-- CRITICAL commands (R446-R450, R377, R366): HOSTERR where the payload could not be fetched; RESERVED or OPCODE for a bad
form; AUTH, counted, for a bad tag; COUNTER for a counter not above the last; else the counter is kept and the kind acts. An image beyond
15 MiB leaves its slot invalid; a command key is kept in the flash wrapped with a key derived from the UDS. The cryptographic functions are
uninterpreted (log 12); the first KEY_INSTALL, the firmware stall, the parts of an owner blob, the order of the fetch and the checks, and
how the key is wrapped, are the model's reading (logs 61 to 63, 100 and 128). -/
def Obligations.CriticalCommands : Prop :=
  ∀ (s : State) (r : Rec), hubUp s = true → s.fw = none → recOp r = 8 → sqOn s 64 = true →
    sqHead s 64 ≠ (getRing s 64).sqTail →
    let taken := takeRec (passHead (fetchRec s 64) 64) 64 r
    let n := taken.2
    let s2 := if critLen r = 0 then taken.1 else toHost taken.1 (.read r.w3.toNat (critLen r))
    let row (p : HostReply) : List (Nat × Instr) := [(1, .fwLoad r p), (2, .fwActivate r p), (3, .stageApply r p),
      (4, .keyInstall r p), (5, .keyRotate r p), (6, .debugUnlock r p), (7, .reelExport r p), (8, .devidAssign r p)]
    let ends (i : Instr) (t : State) (st : Nat) := Completes i s (complete t 64 n (cmdId r) st)
    (∀ x ∈ row .bad, critKind r = x.1 → ends x.2 s2 6) ∧
    (∀ d : List Byte, d.length = critLen r →
      let form := critForm r (keyed s2) d
      let wrap := (Config.kmac256 Config.uds [] 512 "KV12 Wrap").take 32
      let s3 := persist s2 r
      (∀ x ∈ row (.ok d), critKind r = x.1 ∨ critKind r = 0 ∨ 8 < critKind r →
        (form ≠ 0 → ends x.2 s2 form) ∧
        (form = 0 → critAuth s2 r d = false → ends x.2
          (bump { s2 with sec := { s2.sec with failRun := s2.sec.failRun + 1 } } .secAuthfail 1) 8) ∧
        (form = 0 → critAuth s2 r d = true → critCounter s2 r = false → ends x.2 s2 9)) ∧
      (critKind r = 8 → fld r.w0 31 8 = 0 → critArg r = 0 → d.length = 8 → (∃ b ∈ d.drop 4, b ≠ 0) →
        ends (.devidAssign r (.ok d)) s2 2) ∧
      (form = 0 → critAuth s2 r d = true → critCounter s2 r = true →
        (critKind r = 1 →
          let b := critArg r == 1
          let fits := d.length ≤ 0xF00000
          let img := if fits then d else []
          let s4 : State := { s3 with flash := if b then { s3.flash with slotB := img } else { s3.flash with slotA := img } }
          (rfld s3 .secStatus 4 4 = critArg r → ends (.fwLoad r (.ok d)) s3 3) ∧
          (rfld s3 .secStatus 4 4 ≠ critArg r →
            (slotOkNow s4 b = true → fits → ends (.fwLoad r (.ok d)) { s4 with sec := { s4.sec with loaded := some b } } 0) ∧
            (slotOkNow s4 b = false ∨ ¬ fits → ends (.fwLoad r (.ok d)) { s4 with sec := { s4.sec with loaded := none } } 3))) ∧
        (critKind r = 2 →
          let edge := payN d 0 8
          (s3.sec.loaded = none → ends (.fwActivate r (.ok d)) s3 3) ∧
          (∀ b, s3.sec.loaded = some b →
            (edge < (strokeNow s3).toNat + 2 ∨ slotOkNow s3 b = false → ends (.fwActivate r (.ok d)) s3 3) ∧
            ((strokeNow s3).toNat + 2 ≤ edge → slotOkNow s3 b = true → ∃ t, Completes (.fwActivate r (.ok d)) s t ∧
              t.fw = some { from' := edge, to' := edge + 1 + (Config.freeWord s3.freeCtr).toNat % 2, cmdid := cmdId r,
                            num := n, raise := critArg r == 1, slot := b }))) ∧
        (critKind r = 3 →
          let b := critArg r
          let a := stgArm s3 b (BitVec.ofNat 64 (payN d 0 8)) true
          (4 < b ∨ bankDigest s3 b ≠ d.drop 8 → ends (.stageApply r (.ok d)) s3 7) ∧
          (b ≤ 4 → bankDigest s3 b = d.drop 8 → ends (.stageApply r (.ok d)) (stgReports a.1) (if a.2 then 0 else 7))) ∧
        (critKind r = 4 → critArg r = 0 →
          (keyed s3 = true → ends (.keyInstall r (.ok d)) s3 3) ∧
          (keyed s3 = false →
            let s4 := writeAuth s3 (fun f => { f with wrapped := some (xorBytes (d.take 32) wrap) })
            ends (.keyInstall r (.ok d)) (setF { s4 with sec := { s4.sec with key := d.take 32 } } .secStatus 6 6 1) 0)) ∧
        (critKind r = 4 → critArg r ≠ 0 →
          let seq := (Config.ownerParts d).2.1
          (seq ≤ s3.flash.auth.ownerFloor → ends (.keyInstall r (.ok d)) s3 3) ∧
          (s3.flash.auth.ownerFloor < seq → ∃ (t : State) (blob : OwnerBlob), ends (.keyInstall r (.ok d)) t 0 ∧
            t = { s3 with flash := { s3.flash with newOwner := some blob } } ∧ blob.bytes = d ∧ blob.seq = seq)) ∧
        (critKind r = 5 →
          let key := xorBytes d (Config.kmac256 s3.sec.key (s3.sec.uid ++ wordBytes r.w2) 256 "KV12 Wrap")
          let s4 := writeAuth s3 (fun f => { f with wrapped := some (xorBytes key wrap), cres := 0 })
          ends (.keyRotate r (.ok d)) (setF (setR { s4 with sec := { s4.sec with key := key } } .secCtr 0) .secStatus 12 12 0) 0) ∧
        (critKind r = 6 →
          let level := critArg r % 4
          let p := critArg r / 256 % 4
          let raise (t : State) (l : Nat) : State := setF t .secStatus 9 8 (max l (rfld t .secStatus 9 8))
          (level = 0 → ends (.debugUnlock r (.ok d)) s3 0) ∧
          (level = 1 → ends (.debugUnlock r (.ok d)) (raise s3 1) 0) ∧
          (level = 2 → ends (.debugUnlock r (.ok d)) (beginReset (setF (raise s3 2) .secStatus 11 10 p) p 0) 0) ∧
          (level = 3 → (s3.sec.ownerBlob.map (·.noDebug3)).getD false = true → ends (.debugUnlock r (.ok d)) s3 3) ∧
          (level = 3 → (s3.sec.ownerBlob.map (·.noDebug3)).getD false = false → ends (.debugUnlock r (.ok d))
            (setF (writeAuth s3 (fun f => { f with debug3 := true })) .secStatus 13 13 1) 0)) ∧
        (critKind r = 7 →
          let p := critArg r
          let off := payN d 0 8
          let len := payN d 8 8
          let a := reelBase s3 p + off
          let off? := reelMode s3 p = 0 ∧ rfld s3 (.reelCtl p) 1 0 = 0
          let inside := off + len ≤ reelSize s3 p ∧ inHbmOrBoard s3 p a len = true
          (¬ off? → ends (.reelExport r (.ok d)) s3 3) ∧
          (off? → ¬ inside → ends (.reelExport r (.ok d)) s3 5) ∧
          (off? → inside → ueIn s3 a len = true → ends (.reelExport r (.ok d)) s3 6) ∧
          (off? → inside → ueIn s3 a len = false →
            ends (.reelExport r (.ok d)) (toHost s3 (.write (payN d 16 8) (rd s3 a len))) 0)) ∧
        (critKind r = 8 →
          let v : Word := BitVec.ofNat 64 (payN d 0 8)
          let none' := ∀ c, c < 64 → (getC s3 c).st = .none
          (devidOk v = false ∨ ¬ none' → ends (.devidAssign r (.ok d)) s3 3) ∧
          (devidOk v = true → none' →
            ends (.devidAssign r (.ok d)) (retrainAll (setR s3 .lnkId (v ||| mask 63 63))) 0))))

/-- MOVE, the host window and BAR4 (R184, R364, R419-R421, R423, R424, R429-R431, R452). A MOVE ends with ADDRESS where its range
is no longer the partition's, with HOSTERR where the host's answer is bad or a word read is uncorrectable, and the bytes of such a word
leave as poisoned TLPs; else its bytes go to the host, or arrive and are written by address, and doorbells that a replay held and that may
go on are decoded. A returned load is written to its register; a bad completion faults the
thread; a BAR4 access outside the function's unified regions is unsupported and raises HOST_UR, any access in D3hot is unsupported, and
poisoned data is refused and reported; inside, it reads or writes the pages where they reside. What the host's memory holds is outside the
model (log 3); the partition of a MOVE of the admin ring, and the size of BAR4 and D3hot, are the model's reading (logs 99 and 132). -/
def Obligations.HostTransfers : Prop :=
  (∀ (s : State) (ring : Ring) (id : Half) (reply : HostReply) (m : MoveSt), hostOk s = true → s.failed = false →
     let k := Ring.key ring
     let x := getRing s k
     x.moves.find? (fun m => m.cmdid == id) = some m →
     let s1 := setRing s k { x with moves := x.moves.filter (fun y => y.num != m.num) }
     let ends (t : State) (st : Nat) := Completes (.moveDone ring id reply) s (complete t k m.num id st)
     (movePart s k m.loc m.len m.toHost = none → ends s1 5) ∧
     (∀ p, movePart s k m.loc m.len m.toHost = some p →
       (reply = .bad → ends s1 6) ∧
       (∀ data, reply = .ok data → m.toHost = true → ∀ s2, hostPages s1 m.loc m.len false = .ok s2 →
         (ueIn s2 m.loc m.len = true → ends (moveOut s2 k m.host.toNat m.loc m.len) 6) ∧
         (ueIn s2 m.loc m.len = false → 0 < m.len →
           ends (toHost s2 (.write m.host.toNat (rd s2 m.loc m.len) (ringId s2 k))) 0)) ∧
       (∀ data, reply = .ok data → m.toHost = false → data.length = m.len →
         (plyClosed s1 p = true →
           Completes (.moveDone ring id reply) s (releaseBells (complete s1 k m.num id 0))) ∧
         (plyClosed s1 p = false → ∀ s2, hostPages s1 m.loc m.len true = .ok s2 →
           Completes (.moveDone ring id reply) s
             (releaseBells (complete (reelTransfer (wr s2 m.loc data) p (k % 64) m.loc data) k m.num id 0)))))) ∧
  (∀ (s : State),
     (hostOk s = true → s.failed = false → ∀ t : Tid,
       (∀ reply, getT? s t = none → Completes (.hostWindowCompletion t reply) s s) ∧
       (∀ th h rest, getT? s t = some th → th.hostLoads = h :: rest →
         (∀ bs, bs.length = h.bytes →
           let th1 := setReg th h.reg (if h.signed then BitVec.ofInt 64 (signedOf (8 * h.bytes) (ofBytes bs))
             else BitVec.ofNat 64 (ofBytes bs))
           Completes (.hostWindowCompletion t (.ok bs)) s (settle (setT s t { th1 with hostLoads := rest }) t.ctx)) ∧
         Completes (.hostWindowCompletion t .bad) s (progFault s t th.pc (fAddr (gAddr s h.addr))))) ∧
     (∀ (fn : Func) (off : Nat), hostFn s fn = true → recovering s = false →
       let a := bar4Addr s fn off
       let inside (n : Nat) := 0 < n ∧ off + n ≤ bar4Bytes s fn
       (∀ (len : Nat) (data : List Byte) (poisoned : Bool), inD3hot s fn = true →
         (inside len → Completes (.bar4Read fn off len) s (toHost s .unsupported)) ∧
         (inside data.length → Completes (.bar4Write fn off data poisoned) s (toHost s .unsupported))) ∧
       (∀ data, inD3hot s fn = false → inside data.length →
         Completes (.bar4Write fn off data true) s (toHost s (.aer .poisoned))) ∧
       (∀ len, inD3hot s fn = false → inside len →
         (bar4Part s fn a len = none →
           Completes (.bar4Read fn off len) s (eventG (toHost s .unsupported) 0x0203 (leBytes 4 off))) ∧
         (∀ p s1, bar4Part s fn a len = some p → hostPages s a len false = .ok s1 →
           (ueIn s1 a len = false → Completes (.bar4Read fn off len) s (toHost s1 (.bar4 (some (rd s1 a len))))) ∧
           (ueIn s1 a len = true → Completes (.bar4Read fn off len) s (toHost s1 (.bar4 none))))) ∧
       (∀ data : List Byte, inD3hot s fn = false → inside data.length →
         (bar4Part s fn a data.length = none →
           Completes (.bar4Write fn off data false) s (eventG (toHost s .unsupported) 0x0203 (leBytes 4 off))) ∧
         (∀ p, bar4Part s fn a data.length = some p →
           (reelRefuses s p = true → Completes (.bar4Write fn off data false) s (reelInput s p)) ∧
           (reelRefuses s p = false → plyClosed s p = true → Completes (.bar4Write fn off data false) s s) ∧
           (∀ s1, reelRefuses s p = false → plyClosed s p = false → hostPages s a data.length true = .ok s1 →
             Completes (.bar4Write fn off data false) s
               (releaseBells (reelTransfer (wr s1 a data) p (16 * p) a data)))))))

/-! ## BAR0 (21) -/

/-- Writes of a function (R419-R422, R425, R426, R436, R464, R465, R480). BAR0: a bad size, alignment or byte enable is ignored and raises
REG_ERR; half a 64-bit register is held and taken with its upper half; the rows that name a register write its slot; a register that does
not answer the function keeps its state. BAR2: a page's RECORD, SQ_TAIL and CQ_HEAD are the inline record and the doorbells, and the rest of
the page ignores a write. Poisoned data is refused and reported, a memory access in D3hot is unsupported, and in recovery a configuration
request is retried. That an invalid access also drops a held half, the forms of a page's writes, and the fields of configuration space, are
the model's choice (logs 96, 132 and 134). -/
def Obligations.RegisterWrites : Prop :=
  (∀ (s : State) (x : Tlp) (v : Word), hostFn s x.fn = true →
    let ends := Completes (.regWrite x v) s
    (x.space = .bar0 → x.off < 0x4000000 →
      (x.off = 0x400110 → bit v 0 = false ∨ recovering s = false ∨ sizeOk x = false ∨ x.poisoned = true) →
      let kept := (takeHalf s x.fn x.off false).1
      (inD3hot s x.fn = true → ends (toHost s .unsupported)) ∧
      (inD3hot s x.fn = false → x.poisoned = true → ends (toHost s (.aer .poisoned))) ∧
      (inD3hot s x.fn = false → x.poisoned = false →
        ((x.len ≠ 4 ∧ x.len ≠ 8) ∨ x.off % x.len ≠ 0 ∨ x.enabled = false → x.len ≤ 8 →
          ends (eventG kept 0x0209 (leBytes 4 x.off ++ [0]))) ∧
        (8 < x.len → ends (toHost (eventG kept 0x0209 (leBytes 4 x.off ++ [0])) .unsupported)) ∧
        ((x.len = 4 ∨ x.len = 8) → x.off % x.len = 0 → x.enabled = true → ends (barWrite s x.fn (x.off / 8 * 8)
          (if x.len = 8 then .whole v else if x.off % 8 = 0 then .low (v.setWidth 32) else .high (v.setWidth 32)))))) ∧
    (x.space = .bar2 → recovering s = false → x.off < (if x.fn.val = 0 then 0x40000 else 0x10000) →
      let at' := x.off % 4096
      ∀ page : Fin 64, x.off / 4096 = page.val →
      (inD3hot s x.fn = true → ends (toHost s .unsupported)) ∧
      (inD3hot s x.fn = false → x.poisoned = true → ends (toHost s (.aer .poisoned))) ∧
      (inD3hot s x.fn = false → x.poisoned = false →
        let w (i : Nat) : Word := (x.more[i]?).getD 0
        let rec' : Rec := { w0 := v, w1 := w 0, w2 := w 1, w3 := w 2, w4 := w 3, w5 := w 4, w6 := w 5, w7 := w 6 }
        let whole := at' = 0 ∧ x.len = 64 ∧ x.enabled = true
        (whole → exec (.regWrite x v) s = exec (.inlineRecord x.fn page true rec') s) ∧
        (at' < 0x40 → ¬ whole → exec (.regWrite x v) s = exec (.inlineRecord x.fn page false rec') s) ∧
        (x.enabled = true → at' = 0x40 → x.len = 4 →
          exec (.regWrite x v) s = exec (.sqTailWrite x.fn (.ctx page) (v.setWidth 32)) s) ∧
        (x.enabled = true → at' = 0x44 → x.len = 4 →
          exec (.regWrite x v) s = exec (.cqHeadWrite x.fn (.ctx page) (v.setWidth 32)) s) ∧
        (x.enabled = true → at' = 0x40 → x.len = 8 →
          ends (headRow (tailRow s x.fn (.ctx page) (v.setWidth 32)) x.fn (.ctx page) (BitVec.ofNat 32 (fld v 63 32)))) ∧
        (0x48 ≤ at' → ends s))) ∧
    (∀ k, x.space = .config k →
      (x.poisoned = true → ends (toHost s (.aer .poisoned))) ∧
      (x.poisoned = false → recovering s = true → ends (toHost s .retry)) ∧
      (x.poisoned = false → recovering s = false →
        let only (p : State → Prop) : Prop := ∃ t, ends t ∧ t = { s with pci := t.pci } ∧ p t
        let others (t : State) : Prop := ∀ g, g ≠ x.fn.val → inD3hot t g = inD3hot s g ∧ bar4Bytes t g = bar4Bytes s g
        (k = .ids → ends s) ∧
        (k = .powerState → (v = 3 ∨ v = 0 → only (fun t => inD3hot t x.fn = (v == 3) ∧ others t ∧
            t.pci = { s.pci with d3hot := t.pci.d3hot })) ∧ (v ≠ 3 → v ≠ 0 → ends s)) ∧
        (k = .bar4Size → (1 ≤ v.toNat → v.toNat ≤ 12 → only (fun t => bar4Bytes t x.fn = 2 ^ (30 + v.toNat) ∧ others t ∧
            t.pci = { s.pci with bar4Log := t.pci.bar4Log })) ∧ (12 < v.toNat → ends s)) ∧
        (∀ n, k = .vectorMask n →
          let e := (x.fn.val, n.val)
          ((if x.fn.val = 0 then 256 else 16) ≤ n.val → ends s) ∧
          (n.val < (if x.fn.val = 0 then 256 else 16) →
            (bit v 0 = true → only (fun t => t.pci.pending = s.pci.pending ∧ others t ∧
              ∀ y, t.pci.masked.contains y = (y == e || s.pci.masked.contains y))) ∧
            (bit v 0 = false →
              let t : State := { s with pci := { s.pci with masked := s.pci.masked.filter (· != e)
                                                            pending := s.pci.pending.filter (· != e) } }
              (s.pci.pending.contains e = true → ends (toHost t (.msix x.fn n))) ∧
              (s.pci.pending.contains e = false → ends t))))))) ∧
  (∀ (s : State) (fn : Func), hostFn s fn = true →
    (∀ (a : BarAcc) (c : CtxN) (ring : Ring) (cq : Bool) (b : Fin 5) (n : Fin 256) (val : Bool) (port : PortN),
      let write (i : Instr) (r : Reg) :=
        (inD3hot s fn = true → Completes i s (toHost s .unsupported)) ∧
        (inD3hot s fn = false → Completes i s (barWrite s fn r.offset a))
      write (.ctxHtabWrite fn c a) (.htab c) ∧ write (.ctxLkcredWrite fn c a) (.lkcred c) ∧
      write (.ringEnableWrite fn ring cq a) (if cq then ringCqCtl (Ring.key ring) else ringSqCtl (Ring.key ring)) ∧
      write (.stgEntryWrite fn b n val a) (if val then .stgEval b n else .stgEaddr b n) ∧
      write (.stgClear fn b a) (.stgClear b) ∧ write (.stgCheck fn b a) (.stgCheck b) ∧
      write (.stgApply fn b a) (.stgApply b) ∧ write (.stgCancel fn b a) (.stgCancel b) ∧
      write (.retireReq fn a) .glbRetireReq ∧ write (.unretireReq fn a) .glbRetireReq ∧
      write (.attGo fn a) .attCtl ∧ write (.evtRingEnable fn a) .evtCtl ∧ write (.evtRingHeadWrite fn a) .evtHead ∧
      write (.lnkPhyWrite fn port a) (.lnkPhy port)) ∧
    (∀ (r : Reg), regAt r.offset = some r → r ≠ .admDb → s.halves.find? (fun h => h.1 == fn.val) = none →
      (responds s r = false ∨ mayW s fn r = false → ∀ a, barWrite s fn r.offset a = s) ∧
      (responds s r = true → mayW s fn r = true →
        (∀ v : Word, r.wide = true → barWrite s fn r.offset (.whole v) = doWrite s r v 0xFFFFFFFFFFFFFFFF) ∧
        (∀ v : Half, r.wide = true → barWrite s fn r.offset (.low v) = { s with halves := (fn.val, r.offset, v) :: s.halves }) ∧
        (∀ v : Half, r.wide = true →
          barWrite s fn r.offset (.high v) = doWrite s r (v ++ (0 : Half) : BitVec 64) 0xFFFFFFFF00000000) ∧
        (∀ v : Half, r.wide = false → barWrite s fn r.offset (.low v) = doWrite s r (v.setWidth 64) 0xFFFFFFFFFFFFFFFF) ∧
        (∀ v : Half, r.wide = false → barWrite s fn r.offset (.high v) = s))) ∧
    (∀ (r : Reg) (lo hi : Half), regAt r.offset = some r → r ≠ .admDb → r.wide = true → responds s r = true →
      mayW s fn r = true → s.halves = [(fn.val, r.offset, lo)] →
      barWrite s fn r.offset (.high hi) = doWrite { s with halves := [] } r (hi ++ lo : BitVec 64) 0xFFFFFFFFFFFFFFFF) ∧
    (∀ (r r' : Reg) (a : BarAcc) (lo : Half), r.offset ≠ r'.offset → regAt r.offset = some r → s.halves = [(fn.val, r'.offset, lo)] →
      barWrite s fn r.offset a = barWrite (eventG { s with halves := [] } 0x0209 (leBytes 4 r'.offset ++ [1])) fn r.offset a))

/-- What a write does (R4, R68, R224, R318, R319, R357, R370, R378, R388, R395, R427, R434, R445, R454, R455): of every register that has no
write of its own, RW fields take the written bits, W1C bits are cleared and every other bit stays, but a field that its rule keeps for the
value written; a staged-only register is not written and raises STG_DIRECT; a context's table and credits are refused while it
runs; rings and the event ring start empty; GLB_RETIRE_REQ retires, or notes, a unit; the bank actions. What a request to unretire keeps,
and how a write of one half meets the fields, are the model's reading (logs 81 and 96). -/
def Obligations.WriteEffects : Prop :=
  ∀ (s : State) (v m : Word),
    (∀ r : Reg, r.staged = true → doWrite s r v m = eventG s 0x0201 (leBytes 4 r.offset)) ∧
    (∀ r : Reg, r.staged = false → (match r with
        | .glbRetireReq | .admSqBase | .admCqBase | .admSqCtl | .admCqCtl | .sqBase _ | .cqBase _ | .sqCtl _ | .cqCtl _ | .htab _
        | .lkcred _ | .stgEaddr _ _ | .stgEval _ _ | .stgClear _ | .stgCheck _ | .stgApply _ | .stgCancel _ | .attCtl | .evtBase
        | .evtCtl | .evtHead | .lnkPhy _ => False
        | _ => True) →
      doWrite s r v m = regPut s r v m) ∧
    (∀ r : Reg,
      let old := getR s r
      let new := (old &&& ~~~(r.rw &&& m)) ||| (v &&& r.rw &&& m)
      let held (i : Nat) : Prop := match r with
        | .trdSync | .reelCtl _ | .lnkPhy _ | .qhpol _ => i < 2 ∧ fld new 1 0 = 3
        | .lnkCfg => 8 ≤ i ∧ i < 16 ∧ fld new 15 8 = 0
        | .glbRetire _ => i < 16 ∧ fld new 15 0 = 0
        | .sqCtl _ | .cqCtl _ | .admSqCtl | .admCqCtl => 16 ≤ i ∧ i < 20 ∧ 1 ≤ fld new 19 16 ∧ fld new 19 16 ≤ 3
        | _ => False
      ∃ w, regPut s r v m = setR s r w ∧ ∀ i, i < 64 →
        (bit r.rw i = true → bit m i = true → ¬ held i → bit w i = bit v i) ∧
        (bit r.rw i = true → held i → bit w i = bit old i) ∧
        (bit r.rw i = true → bit m i = false → bit w i = bit old i) ∧
        (bit r.rw i = false → bit r.w1c i = false → bit w i = bit old i) ∧
        (bit r.w1c i = true → bit w i = (bit old i && !(bit v i && bit m i)))) ∧
    (∀ c : CtxN,
      (ctxActive s c = true →
        doWrite s (.htab c) v m = eventC s 0x0200 c (leBytes 4 (Reg.offset (.htab c))) ∧
        doWrite s (.lkcred c) v m = eventC s 0x0200 c (leBytes 4 (Reg.offset (.lkcred c)))) ∧
      (ctxActive s c = false →
        doWrite s (.htab c) v m = regPut s (.htab c) v m ∧
        (16384 < creditSum s c + fld v 11 0 + 1 →
          doWrite s (.lkcred c) v m = eventC s 0x0207 c (leBytes 4 (Reg.offset (.lkcred c)))) ∧
        (creditSum s c + fld v 11 0 + 1 ≤ 16384 → doWrite s (.lkcred c) v m = regPut s (.lkcred c) v m)) ∧
      (bit (getR s (.sqCtl c)) 31 = true →
        (bit v 31 = true → doWrite s (.sqCtl c) v m = s) ∧
        (bit v 31 = false → (getC s c).st ≠ .none →
          doWrite s (.sqCtl c) v m = eventC s 0x0200 c (leBytes 4 (Reg.offset (.sqCtl c)))) ∧
        (bit v 31 = false → (getC s c).st = .none → doWrite s (.sqCtl c) v m = setF s (.sqCtl c) 31 31 0) ∧
        doWrite s (.sqBase c) v m = s) ∧
      (bit (getR s (.sqCtl c)) 31 = false →
        doWrite s (.sqBase c) v m = regPut s (.sqBase c) v m ∧
        (bit v 31 = true →
          let s1 := setF (regPut s (.sqCtl c) v m) (.sqCtl c) 15 0 0
          doWrite s (.sqCtl c) v m = setRing s1 c { getRing s1 c with sqTail := 0 }) ∧
        (bit v 31 = false → doWrite s (.sqCtl c) v m = regPut s (.sqCtl c) v m))) ∧
    (bit m 0 = true →
      let t := fld v 18 16
      let i := fld v 15 0
      (unitCount t ≤ i → doWrite s .glbRetireReq v m = eventG s 0x0205 (leBytes 4 (Reg.offset .glbRetireReq))) ∧
      (i < unitCount t → bit v 63 = false → doWrite s .glbRetireReq v m = retireUnit s t i 2) ∧
      (i < unitCount t → bit v 63 = true → s.unretire.contains ⟨Fin.ofNat 7 t, i⟩ = false →
        doWrite s .glbRetireReq v m = { s with unretire := s.unretire ++ [⟨Fin.ofNat 7 t, i⟩] })) ∧
    (∀ b, b ≤ 4 →
      (∀ n, n < 256 →
        doWrite s (.stgEaddr b n) v m = stgReports (setF (disarm (regPut s (.stgEaddr b n) v m) b) (.stgStatus b) 2 0 1) ∧
        doWrite s (.stgEval b n) v m = stgReports (setF (disarm (regPut s (.stgEval b n) v m) b) (.stgStatus b) 2 0 1)) ∧
      (bit v 0 = true →
        doWrite s (.stgClear b) v m = stgReports (stgClearAll s b) ∧ doWrite s (.stgCheck b) v m = stgBegin s b ∧
        doWrite s (.stgCancel b) v m = stgReports (stgDisarm s b)) ∧
      doWrite s (.stgApply b) v m = stgReports (stgArm s b (v &&& m) false).1) ∧
    (bit (getR s .evtCtl) 31 = true →
      (bit v 31 = true → doWrite s .evtCtl v m = s) ∧
      (bit v 31 = false → doWrite s .evtCtl v m = setF s .evtCtl 31 31 0) ∧ doWrite s .evtBase v m = s) ∧
    (bit (getR s .evtCtl) 31 = false → bit v 31 = true →
      let s1 := regPut s .evtCtl v m
      doWrite s .evtCtl v m = { setR (setR s1 .evtHead 0) .evtTail 0 with evtPhase := true }) ∧
    (∀ n : PortN,
      let s1 := regPut s (.lnkPhy n) v m
      retired s1 3 n = false → bit (getR s1 (.lnkPhy n)) 3 = true →
        doWrite s (.lnkPhy n) v m = setPort s1 n 0)

/-- Reads of a function (R419-R422, R425, R436, R460, R464, R465, R480). BAR0: the value of the register, with RC counters cleared by the
read of their lower half; the upper half latched with it and returned once; 0 for a bad access, an absent register and one that does not
answer the function. A page of BAR2 reads 0; a field of configuration space reads its value, and is retried in recovery; D3hot answers no
memory read. A counter stops at its limit with OVF set. CLASS at STATE 0, that a read leaves a held half, and the fields of configuration
space, are the model's choices (logs 65, 96 and 132). -/
def Obligations.RegisterReads : Prop :=
  (∀ (s : State) (x : Tlp), hostFn s x.fn = true →
    let ends (t : State) := Completes (.counterRead x) s t
    (x.space = .bar0 → x.off < 0x4000000 → inD3hot s x.fn = true →
      ends (toHost s .unsupported) ∧ Completes (.regReadLatch x) s (toHost s .unsupported)) ∧
    (x.space = .bar2 → recovering s = false → x.off < (if x.fn.val = 0 then 0x40000 else 0x10000) →
      (inD3hot s x.fn = true → ends (toHost s .unsupported)) ∧ (inD3hot s x.fn = false → ends { s with rdata := 0 })) ∧
    (∀ k, x.space = .config k →
      (recovering s = true → ends (toHost s .retry)) ∧
      (recovering s = false →
        (k = .ids → ends { s with rdata := BitVec.ofNat 64 (0x1E9C + (if x.fn.val = 0 then 0x0C12 else 0x0C13) * 2 ^ 16 +
          (0x120000 * 2 ^ 8 + rfld s .glbId 31 24) * 2 ^ 32) }) ∧
        (k = .powerState → ends { s with rdata := if inD3hot s x.fn then 3 else 0 }) ∧
        (k = .bar4Size → ∀ l, bar4Bytes s x.fn = 2 ^ (30 + l) → ends { s with rdata := BitVec.ofNat 64 l }) ∧
        (∀ n, k = .vectorMask n → ends { s with rdata := BitVec.ofNat 64 (
          (if s.pci.masked.contains (x.fn.val, n.val) then 1 else 0) +
            (if s.pci.pending.contains (x.fn.val, n.val) then 2 else 0)) })))) ∧
  (∀ (s : State) (fn : Func) (off : Nat), hostFn s fn = true → inD3hot s fn = false → off < 0x4000000 →
    let ends (len : Nat) (t : State) := Completes (.counterRead { fn := fn, off := off, len := len }) s t
    let ends4 (t : State) := ends 4 t ∧ Completes (.regReadLatch { fn := fn, off := off }) s t
    (∀ (len : Nat) (enabled : Bool), (len ≠ 4 ∧ len ≠ 8) ∨ off % len ≠ 0 ∨ enabled = false →
      let t := eventG s 0x0209 (leBytes 4 off ++ [0])
      Completes (.counterRead { fn := fn, off := off, len := len, enabled := enabled }) s
        { (if 8 < len then toHost t .unsupported else t) with rdata := 0 }) ∧
    (∀ len, (len = 4 ∨ len = 8) → off % len = 0 →
      (regAt (off / 8 * 8) = none → ends len { s with rdata := 0 }) ∧
      (∀ r, regAt (off / 8 * 8) = some r → (responds s r = false ∨ mayR s fn r = false) → ends len { s with rdata := 0 })) ∧
    (∀ r, regAt (off / 8 * 8) = some r → responds s r = true → mayR s fn r = true →
      let cleared (t : State) : State := setR t r (getR t r &&& ~~~r.rc)
      let mine (l : Nat × Nat × Half) : Bool := l.1 == fn.val && l.2.1 == r.offset
      (off % 8 = 0 →
        ends 8 { cleared s with rdata := regValue s r } ∧
        (r.wide = false → ends4 { cleared s with rdata := regValue s r }) ∧
        (r.wide = true →
          let kept := (fn.val, r.offset, BitVec.ofNat 32 (fld (regValue s r) 63 32)) :: s.latches.filter (fun l => !mine l)
          let t : State := { s with latches := kept }
          ends4 { cleared t with rdata := regValue s r &&& 0xFFFFFFFF })) ∧
      (off % 8 = 4 →
        (r.wide = false → ends4 { s with rdata := 0 }) ∧
        (r.wide = true → s.latches.find? mine = none → ends4 { s with rdata := regValue s r >>> 32 }) ∧
        (∀ l, r.wide = true → s.latches.find? mine = some l →
          ends4 { s with latches := s.latches.filter (fun l => !mine l), rdata := l.2.2.setWidth 64 })))) ∧
  (∀ (w : Word) (k : Nat),
    let c := fld w 47 0
    let full := 0xFFFFFFFFFFFF
    fld (countUp w k).1 47 0 = min full (c + k) ∧
    (countUp w k).2 = decide (c < full ∧ full ≤ c + k) ∧
    (bit (countUp w k).1 63 = (bit w 63 || decide (c < full ∧ full ≤ c + k))))

/-- The security block's events (R320, R442, R445): a check that ends leaves the bank CHECKED, or REFUSED with the code and
the entry; a report reaches the host and BUSY falls, with ERR where it could not be written; GO in recovery fetches an image,
and starts the device with it where it is valid. The cryptographic functions are uninterpreted (log 12), and so is the shape of a
certificate (log 128). -/
def Obligations.SecurityEvents : Prop :=
  (∀ (s : State) (b : Fin 5), powered s = true → s.failed = false → s.checking.contains b.val = true →
    let s1 : State := { s with checking := s.checking.filter (· != b.val), armed := tabDel s.armed b }
    let status (n : Nat) := setR s1 (.stgStatus b) (BitVec.ofNat 64 n)
    (stgTest s1 b = none → Completes (.stgCheckDone b) s (stgReports (status 2))) ∧
    (∀ e n, stgTest s1 b = some (e, n) → Completes (.stgCheckDone b) s (stgReports (status (5 + n * 256 + e * 65536))))) ∧
  (∀ (s : State) nonce addr chain, hostOk s = true → s.failed = false → fwStalls s = false →
    s.sec.att = some (nonce, addr, chain) →
    let s1 := setF { s with sec := { s.sec with att := none } } .attCtl 2 2 0
    let certs := s.flash.devCert ++ s.sec.certs.flatten
    let s2 := toHost s1 (.write addr (report s nonce))
    (chain = false → Completes (.attReportDone true) s s2) ∧
    (chain = true → Completes (.attReportDone true) s
      (setF (toHost s2 (.write (addr + 5184) certs)) .attCtl 63 32 certs.length)) ∧
    Completes (.attReportDone false) s (setF s1 .attCtl 11 8 2)) ∧
  (∀ (s : State) (fn : Func) (a : BarAcc) (image : HostReply), hostFn s fn = true →
    (∀ b, image = .ok b → b.length = (getR s .rcvLen).toNat) →
    let s1 := barWrite s fn (Reg.offset .rcvCtl) a
    let go := a = .whole 1 ∨ a = .low 1
    let s2 := toHost s1 (.read (getR s .rcvAddr).toNat (getR s .rcvLen).toNat)
    (inD3hot s fn = true → Completes (.rcvGo fn a image) s (toHost s .unsupported)) ∧
    (inD3hot s fn = false → recovering s = false ∨ fn.val ≠ 0 → Completes (.rcvGo fn a image) s s1) ∧
    (inD3hot s fn = false → recovering s = true → fn.val = 0 → go →
      (image = .bad → Completes (.rcvGo fn a image) s (setF s2 .rcvCtl 1 1 1)) ∧
      (∀ b, image = .ok b →
        let good := b.length ≤ 0xF00000 ∧ imgOk s2.flash.rootKey s2.sec.ownerBlob s2.flash.auth.svnFloor b = true
        (good → Completes (.rcvGo fn a image) s (bootRom (setF { s2 with flash := { s2.flash with slotA := b } } .rcvCtl 1 1 0))) ∧
        (¬ good → Completes (.rcvGo fn a image) s (setF s2 .rcvCtl 1 1 1)))))

/-! ## Resets, pins and power (18, 22) -/

/-- Resets (R350, R420, R437, R441, R469, R474, R479, R480, R487): a Function Level Reset tears the function's contexts down and
clears its rings; PERST_N acts as one of PF0; VF Enable; in recovery these configuration writes are retried; a cold reset keeps the flash
and the pins and samples GPIO, which gives the SMBus address, and the boot ROM runs or waits for 0 °C; a partition reset ends with its
event. What survives each reset where no rule says is the model's choice (logs 95 and 132). -/
def Obligations.Resets : Prop :=
  (∀ (s : State) (fn : Func), hostFn s fn = true →
    (recovering s = true → Completes (.functionLevelReset fn) s (toHost s .retry)) ∧
    (recovering s = false → fn.val = 0 → Completes (.functionLevelReset fn) s (flrPf0 s)) ∧
    (∀ p, recovering s = false → fn.val ≠ 0 → partOfFunc s fn = some p →
      Completes (.functionLevelReset fn) s (flrPartition (dropFunction s fn) p)) ∧
    (recovering s = false → fn.val ≠ 0 → partOfFunc s fn = none → Completes (.functionLevelReset fn) s (dropFunction s fn))) ∧
  (∀ (s : State) (fn : Nat), s.pci.bar4Log = [] ∨ tabRising s.pci.bar4Log = true →
    let t := dropFunction s fn
    inD3hot t fn = false ∧ bar4Bytes t fn = 2 ^ 30 ∧ (∀ h ∈ t.halves, h.1 ≠ fn) ∧ (∀ h ∈ t.latches, h.1 ≠ fn) ∧
    (∀ n, t.pci.masked.contains (fn, n) = false ∧ t.pci.pending.contains (fn, n) = false) ∧
    (∀ g, g ≠ fn → inD3hot t g = inD3hot s g ∧ bar4Bytes t g = bar4Bytes s g)) ∧
  (∀ (s : State) (c : Nat), c < 64 → State.wf s = true →
    getRing (clearRing s c) c = {} ∧ getR (clearRing s c) (.sqCtl c) = 0x40000 ∧ getR (clearRing s c) (.cqCtl c) = 0x40000 ∧
    getR (clearRing s c) (.sqBase c) = 0 ∧ getR (clearRing s c) (.cqBase c) = 0 ∧ (clearRing s c).mem = s.mem) ∧
  (∀ s : State, powered s = true → Completes .conventionalReset s (flrPf0 s)) ∧
  (∀ (s : State) (n : Fin 16), hostOk s = true →
    (s.vfs = 0 → 0 < n.val → Completes (.vfEnableSet n) s (if recovering s then toHost s .retry else { s with vfs := n.val })) ∧
    (0 < s.vfs → recovering s = true → Completes .vfEnableClear s (toHost s .retry)) ∧
    (0 < s.vfs → recovering s = false → ∃ t, Completes .vfEnableClear s t ∧ t.vfs = 0)) ∧
  (∀ (s : State) (coldest : Int) (gpio : BitVec 16), ∃ t, Completes (.coldReset coldest gpio) s t ∧ t.pending = s.pending ∧ t.mem = [] ∧
    t.power.gpio = gpio ∧ t.power.smbAddr.toNat = 0x60 + gpio.toNat % 4 ∧ t.power.prochotN = s.power.prochotN ∧ bit t.power.status 0 = true ∧
    t.ctxs = [] ∧ t.threads = [] ∧ t.streams = [] ∧ t.vfs = 0 ∧ t.failed = false ∧ t.power.pwrok = true ∧
    t.power.thermtripN = true ∧ t.power.alertMask = s.power.alertMask ∧
    (coldest < 0 → t.power.bootWait = true ∧ rfld t .secStatus 3 0 = 0) ∧ (0 ≤ coldest → t.power.bootWait = false)) ∧
  (∀ (s : State) (coldest : Int), s.power.pwrok = true → s.power.thermtripN = true → s.power.bootWait = true →
    (coldest < 0 → Completes (.bootTempRetry coldest) s s) ∧
    (0 ≤ coldest → Completes (.bootTempRetry coldest) s (bootRom { s with power := { s.power with bootWait := false } }))) ∧
  (∀ s : State, s.power.pwrok = true → Completes .powerDown s { s with power := { s.power with pwrok := false } }) ∧
  (∀ (s : State) (p : PartN) x, powered s = true → s.failed = false → s.resetting.find? (fun x => x.1 == p.val) = some x →
    let s1 : State := { s with resetting := s.resetting.filter (fun y => y.1 != p.val) }
    Completes (.prtReset p) s (event (remapOne s1 s1 p) 0x0002 none (some p.val) [BitVec.ofNat 8 x.2]))

/-- Pins, clocks, rails, the management bus and HBM stack temperatures (R186, R187, R476, R478, R481, R484-R486): each event's
effect, with the alerts it raises; what waited for the PCIe link leaves when its clock returns; an SMBus write is acknowledged where its
command, value and packet error code allow it, and a read answers with its word; the step of an HBM reading at once where it lowers the
duty, one step up only after a reading below its entry threshold less 3; THROTTLED set on entering any step above 0, ALARM and its event on
entering step 4. The voltage asked for at each clock is uninterpreted (log 59); how a request that is late and a rail fault show, and the
packet error code, are the model's reading (logs 86, 103 and 133). -/
def Obligations.PowerAndPins : Prop :=
  (∀ (s : State),
     (s.power.pwrok = true →
       (s.power.prochotN = true →
         Completes .prochotAssert s (statusRise { s with power := { s.power with prochotN := false } } 6)) ∧
       (s.power.prochotN = false →
         Completes .prochotRelease s (statusFall { s with power := { s.power with prochotN := true } } 6)) ∧
       (s.power.thermtripN = true → ∃ t, Completes .thermtrip s t ∧ t.power.thermtripN = false ∧ bit t.power.status 4 = true ∧
         powered t = false ∧ t.regs = s.regs ∧ t.mem = s.mem) ∧
       (∀ r : Rail, Completes (.railFault r) s (statusRise (deviceFail s) 3)) ∧
       (∀ k : RefClk, clockOn s.power k = true →
         let s1 := (clockPorts k).foldl (fun s n => if portState s n = 6 then s else setPort s n 0) (setClock s k false)
         (k = .core → Completes (.refclkLoss k) s (deviceFail s1)) ∧ (k ≠ .core → Completes (.refclkLoss k) s s1)) ∧
       (∀ k : RefClk, clockOn s.power k = false →
         Completes (.refclkReturn k) s
           (let s1 := setClock s k true
            let s2 : State := if s1.power.clkPcie then { s1 with hostOut := s1.hostOut ++ s1.hostWait, hostWait := [] } else s1
            (clockPorts k).foldl (fun s n => if mayTrain s n then trainPort s n else s) s2)) ∧
       (∀ q : Fin 4, s.power.avs.contains q.val = true →
         let rest := s.power.avs.filter (· != q.val)
         Completes (.avsTimeout q) s (statusRise { s with power := { s.power with avsHeld := true } } 3) ∧
         Completes (.avsRequestComplete q) s
           { s with power := { s.power with avs := rest, avsHeld := s.power.avsHeld && !rest.isEmpty
                                            vdd := s.power.vdd.setIfInBounds q (Config.vddFor s.power.asked) } })) ∧
     (let a := s.power.smbAddr <<< 1
      let say (p : PowerSt) (o : SmbOut) : State := { s with power := { p with smbOut := p.smbOut ++ [o] } }
      let bytes (v : BitVec 16) : List Byte := [v.setWidth 8, (v >>> 8).setWidth 8]
      (∀ (code : BitVec 8) (v : BitVec 16) (pec : Option Byte),
        let i := Instr.smbPlimitWrite code v pec
        let good := s.power.pwrok = true ∧ ∀ p, pec = some p → p = pecOf ([a, code] ++ bytes v)
        (good → code = 5 → 300 ≤ v.toNat → v.toNat ≤ 2600 → Completes i s (say { s.power with plimitNew := some v } .ack)) ∧
        (good → code = 7 → Completes i s (say { s.power with alertMask := v } .ack)) ∧
        (¬ good ∨ (code ≠ 7 ∧ (code ≠ 5 ∨ v.toNat < 300 ∨ 2600 < v.toNat)) → Completes i s (say s.power .nack)) ∧
        exec (.smbAlertmaskWrite v pec) s = exec (.smbPlimitWrite 7 v pec) s) ∧
      (let reads (code : BitVec 8) (w : BitVec 16) : Prop :=
         Completes (.smbAlertResponse (.word code)) s (say s.power (.word w (pecOf ([a, code, a ||| 1] ++ bytes w))))
       reads 1 s.power.status ∧
       (s.power.pwrok = true →
         reads 2 (BitVec.ofInt 16 s.power.tj) ∧
         reads 3 (BitVec.ofNat 16 (((List.range 12).map (fun n => rfld s (.hbmTemp n) 7 0)).foldl max 0)) ∧
         reads 4 (BitVec.ofNat 16 (s.power.wattsLog.sum / max 1 s.power.wattsLog.length)) ∧
         reads 5 (s.power.plimitNew.getD s.power.plimit) ∧ reads 6 (BitVec.ofNat 16 (freq s)) ∧ reads 7 s.power.alertMask) ∧
       (∀ code : BitVec 8, code ≠ 1 → s.power.pwrok = false ∨ code = 0 ∨ 7 < code.toNat →
         Completes (.smbAlertResponse (.word code)) s (say s.power .nack))) ∧
      (s.power.alertN = true → Completes (.smbAlertResponse .alertResponse) s (say s.power .nack)) ∧
      (s.power.alertN = false →
        Completes (.smbAlertResponse .alertResponse) s (say { s.power with alertN := true } (.alert a)))) ∧
     Completes .vauxLoss s { s with power := { s.power with plimit := 2600, plimitNew := none, alertMask := 0x001C } } ∧
     (∀ b, b < 16 →
       (bit s.power.status b = true → statusRise s b = s) ∧
       (bit s.power.status b = false →
         bit (statusRise s b).power.status b = true ∧
         (statusRise s b).power.alertN = (s.power.alertN && !bit s.power.alertMask b)))) ∧
  ((∀ c : Nat, tempStep c = (if c < 85 then 0 else if c < 90 then 1 else if c < 95 then 2 else if c < 105 then 3 else 4)) ∧
   (∀ cur c : Nat, cur ≤ 4 →
     (cur ≤ tempStep c → nextDuty cur c = tempStep c) ∧
     (tempStep c < cur → nextDuty cur c =
       (if c + 3 < (if cur = 1 then 85 else if cur = 2 then 90 else if cur = 3 then 95 else 105) then cur - 1 else cur))) ∧
   (∀ (s : State) (n : Fin 12) (c : BitVec 8), powered s = true → s.failed = false →
     let r := Reg.hbmTemp n
     let cur := rfld s r 10 8
     let k := nextDuty cur c.toNat
     let s1 := setF (setF s r 7 0 c.toNat) r 10 8 k
     (k = 0 → Completes (.hbmTempRead n c) s s1) ∧
     let s2 := if k = cur then s1 else setF s1 r 16 16 1
     (k ≠ 0 → k ≠ 4 → cur ≠ 4 → s1.throttled.contains n.val = true → Completes (.hbmTempRead n c) s s2) ∧
     (cur = 4 → s1.throttled.contains n.val = true → Completes (.hbmTempRead n c) s (pumpAll s2)) ∧
     (cur ≠ 4 → k = 4 → s1.throttled.contains n.val = true →
       Completes (.hbmTempRead n c) s (eventG (setF s2 r 17 17 1) 0x0102 [BitVec.ofNat 8 n, 4])) ∧
     (k ≠ 0 → ∃ t, Completes (.hbmTempRead n c) s t)))

/-! ## Headline results -/

/-- A message, its header, its bytes and its flits agree (R373, R382): every field of every message is read back from its header's words
as it was written, and the virtual channel follows from the kind (the model's reading); a message whose LEN counts its data is read
back from its bytes; the payloads of its flits, of at most 244 B each, are those bytes in order; and a flit's 256 bytes pass their
CRC and give back SEQ, ACK and the flit. The order of the CRC's bytes is the model's choice (log 127). The register map and its reading
agree too (R462, R463): the slot of every register that exists is that register's, and every slot that answers is that of a register that
exists, at its own offset. -/
def Obligations.RoundTrips : Prop :=
  (∀ m : Msg, headerMsg (hdr0 m) (hdr1 m) (hdr2 m) m.word3 = some { m with data := [] }) ∧
  (∀ m : Msg, m.data.length = (if opData m.op then m.len.toNat + 1 else 0) → msgOf (msgBytes m) = some m) ∧
  (∀ (m : Msg) (cls : Nat), (flitsOf m cls).flatMap (·.payload) = msgBytes m ∧
    ∀ x ∈ flitsOf m cls, x.payload.length ≤ 244 ∧ x.vc.toNat = opVc m.op) ∧
  (∀ (seq ack : BitVec 12) (x : Flit), x.payload.length ≤ 244 →
    (flitBytes seq ack x).length = 256 ∧ flitGood (flitBytes seq ack x) = true ∧ flitParts (flitBytes seq ack x) = (seq, ack, x)) ∧
  (∀ r : Reg, r.exists' = true → regAt r.offset = some r) ∧
  (∀ off r, regAt off = some r → r.offset = off ∧ r.exists' = true)

/-- The units of the other engine instructions (06, 07, 12): a reduction and a statistic, of rows, of parts and of records (R103-R105,
R118-R120, R292); an epilogue tile that is handed off (R287); a pass, a readout and a filler's step of an `mma` (R43, R44, R87, R93-R97,
R221, R285); a tile of `qnt` (R43, R56, R59, R289); the steps and the end of a softmax row group (R143-R149); a card, and a tile's page list
(R130-R138); and the swift engine's convolution, pooling, patches, pixels, boxes and suppression (R157-R167): each writes what its
arithmetic gives of what it reads, counts what it counts, frees what it has read for the last time, and is complete with its last unit. The
units of `mma`, `vepi` and `sw.conv`, what counts for one element, the slots of a stream source, the order of slub records, the place of
statistics and of page lists, and the corners of the softmax, the cards, the pixels and the suppression are the model's readings (logs 24,
38, 42, 44, 46 to 48, 69, 70, 75, 76, 106, 121, 142, 143), and so is the filler's step (log 124). -/
def Obligations.EngineResults : Prop :=
  ∀ (s : State) (o : EngOp), powered s = true → s.failed = false → working s o.t = true →
    s.ops.find? (fun x => x.id == o.id && x.t == o.t) = some o → sramClean s o = .ok () →
    ((getC s o.t.ctx).filler = true → fillerMay s o = true) →
    let c := o.t.ctx.val
    let r (v : BitVec 16) := o.reg v
    let goes (s' : State) := Completes (.engineComplete o.t o.id) s s'
    let reads (s0 : State) (h : Handle) (ss : List (Nat × Nat)) (s' : State) := reachView s0 o.t h ss none = .ok s'
    let writes (s0 : State) (h : Handle) (ss : List (Nat × Nat)) (s' : State) := reachView s0 o.t h ss (some (.op o.id)) = .ok s'
    let total (ks : List (List (Val × Cnt))) := sumCnt (ks.map (fun x => sumCnt (x.map (·.2))))
    -- reductions and statistics
    (o.tag = .vred → ∀ s0 o0 whole, takeUnit s o o.f.sl1 (bit o.f.variant 5) = .ok (s0, o0, whole) →
      let kind := fld o.f.variant 2 0
      let n := (r o.f.sl3).toNat + 1
      let d := vopOf (r o.f.sl0)
      let xs := srcElems s0 o0 o.f.sl1 (bit o.f.variant 5) n
      (whole = false → goes s0) ∧
      (whole = true →
        (fld o.f.variant 4 3 = 0 → ∀ s1, putRows s0 o.t d (xs.map (fun x => [storeVal d.f (reduceSeq kind x)])) = .ok s1 →
          goes (finishOp s1 o0 d.rows)) ∧
        (fld o.f.variant 4 3 = 1 →
          let cs := chunkResults (redStep kind) (redComb kind) (xs.flatten.take n)
          ∀ s1, account s0 c (sumCnt (cs.map (fun v => v.2.once))) = .ok s1 →
            goes (finishOp (scratchWrite s1 c o.t.lsp d.off (cs.zipIdx.flatMap (fun v =>
              leBytes 4 (kf32Code (v.1.1.getD (.num 0))) ++ leBytes 4 ((r o.f.sl2).toNat / 65536 + v.2)))) o0 d.rows)) ∧
        (fld o.f.variant 4 3 = 2 →
          let a := (vopOf (r o.f.sl1)).off
          (redRecords s0 o.t a (ceilDiv n 65536) = none →
            exec (.engineComplete o.t o.id) s = .next (progFault s0 o.t o.pc fOperand)) ∧
          (∀ rs s1, redRecords s0 o.t a (ceilDiv n 65536) = some rs →
            let z := pairTree (redComb kind) 16 rs
            putRows s0 o.t d [[storeVal d.f (z.1.getD (.num 0), z.2)]] = .ok s1 → goes (finishOp s1 o0 d.rows))))) ∧
    (o.tag = .vstat → ∀ s0 o0 whole, takeUnit s o o.f.sl1 (bit o.f.variant 2) = .ok (s0, o0, whole) →
      let n := (r o.f.sl4).toNat + 1
      let rows := srcElems s0 o0 o.f.sl1 (bit o.f.variant 2) n
      let put (s : State) (recs : List Stat) := scratchWrite s c o.t.lsp (r o.f.sl0).toNat (recs.flatMap statBytes)
      (whole = false → goes s0) ∧
      (whole = true →
        (fld o.f.variant 1 0 = 0 →
          let len := (rows.head?.getD []).length
          ∀ g rps k, layoutOf s0 (r o.f.sl2) (bit o.f.variant 3) rows.length len = .ok (g, rps, k) →
          let zs := (List.range k).map (fun i => wholeSeq statStep statComb (statElems rows g rps len i))
          ∀ s1, account s0 c (sumCnt (zs.map (·.2))) = .ok s1 →
            goes (finishOp (put s1 (zs.map (fun z => z.1.getD ⟨0, .num 0, .num 0⟩))) o0 1)) ∧
        (fld o.f.variant 1 0 = 1 →
          let cs := chunkResults statStep statComb (rows.flatten.take n)
          ∀ s1, account s0 c (sumCnt (cs.map (fun v => v.2.once))) = .ok s1 →
            goes (finishOp (put s1 (cs.filterMap (·.1))) o0 1)) ∧
        (fld o.f.variant 1 0 = 2 →
          let rs := (List.range (ceilDiv n 65536)).map (fun i => statAt s0 o.t ((vopOf (r o.f.sl1)).off + 16 * i))
          let z := pairTree statComb 16 rs
          (((rs.filterMap id).map (·.n)).sum ≠ n →
            exec (.engineComplete o.t o.id) s = .next (progFault s0 o.t o.pc fOperand)) ∧
          (((rs.filterMap id).map (·.n)).sum = n → ∀ s1, account s0 c z.2.once = .ok s1 →
            goes (finishOp (put s1 [z.1.getD ⟨0, .num 0, .num 0⟩]) o0 1))))) ∧
    -- epilogue tiles
    (o.tag = .vepi → mayRun s o = true → claimsReady s o = true → o.out = [] → o.prog < o.tiles →
      let hands (s0 : State) (mt nt : Nat) (rows : List (List Val)) := ∀ s1, account s0 c (total (epiBlock s0 o (256 * nt) rows)) = .ok s1 →
        goes (setOp s1 { o with prog := o.prog + 1, out := [kfTile mt nt (epiBlock s0 o (256 * nt) rows)] })
      (bit o.f.variant 3 = false → bit o.f.variant 4 = true →
        let nt := ceilDiv o.n 256
        hands s (o.prog / nt) (o.prog % nt) ((List.range (min 256 (o.m - 256 * (o.prog / nt)))).map (fun k =>
          ((vopVals s o.t (vopOf (r o.f.sl1)) (256 * (o.prog / nt) + k)).drop (256 * (o.prog % nt))).take 256))) ∧
      (bit o.f.variant 3 = true → ∀ p a, handTile s o = some (p, a) →
        let s0 := takeTile s p (decide (o.prog + 1 < o.tiles))
        (bit o.f.variant 4 = true → hands s0 a.mt a.nt (a.q.map (fun x => x.map la192))) ∧
        (bit o.f.variant 4 = false →
          let o1 := { o with prog := o.prog + 1, acc := o.acc ++ [a] }
          let d := vopOf (r o.f.sl0)
          let res := o1.acc.map (fun b => (b, (epiBlock s0 o (256 * b.nt) (b.q.map (fun x => x.map la192))).map (fun x => x.map (storeVal d.f))))
          (o1.prog < o.tiles → goes (setOp s0 o1)) ∧
          (o.tiles ≤ o1.prog → ∀ s1, account s0 c (sumCnt (res.flatMap (fun z => z.2.map (fun x => sumCnt (x.map (·.2)))))) = .ok s1 →
            goes (finishOp (res.foldl (fun s z => putBlock s o.t d (256 * z.1.mt) (256 * z.1.nt) z.2) s1) o1 d.rows))))) ∧
    -- the array
    (o.tag = .mma → mayPass s o = true →
      let ps := mmaPasses o
      let cs := mmaChunks o
      let l2 := mmaChunks2 o
      let kt := (mmaTiles o).2.2
      ((getC s c).filler = true → ∀ p s1 o1 s2, ps[o.prog]? = some p → stepPasses p.i (ps.drop o.prog) s o = .ok (s1, o1) →
        (if o.binding.hand then handAll 8 s1 o.id else readAll 4 s1 o.id) = .ok s2 → goes (freeStep s2 o1 o.prog)) ∧
      ((getC s c).filler = false →
        (∀ a rest x s1, o.binding.hand = false → o.out = a :: rest → stream? s o.t o.binding.dstr = some x →
          let n := o.dBase + doneTiles ps kt o.prog - o.out.length
          let fmt := ((o.hs[2]?).getD noHandle).fmt
          let rows := a.q.map (fun z => z.map (fun v => readoutCode fmt (la192 v)))
          x.free n = true → x.filled = n →
          account s c ((o.metIn a.mt a.nt).add (sumCnt (rows.map (fun z => sumCnt (z.map (·.2)))))) = .ok s1 →
          let s2 := rows.zipIdx.foldl (fun s z => slotWrite s x (x.slotOff (x.slotNo n) + 256 * bitsOf fmt / 8 * z.2)
            (packCodes (bitsOf fmt) (z.1.map (·.1)))) s1
          goes (mmaNext (setStream s2 { x.put n with filled := n + 1 }) { o.told a.mt a.nt with out := rest })) ∧
        (∀ p s1 k1 s2 start k2 s3 a b, o.binding.hand = true ∨ o.out = [] → ps[o.prog]? = some p →
          (∃ z ∈ o.acc, z.mt = p.m ∧ z.nt = p.n) ∨ slotsUsed s o.t < 2 → loadTables s o = .ok (s1, k1) →
          startTile s1 o cs p = .ok (s2, start, k2) → readTileA s2 o l2 p.c p.m p.k = .ok (s3, a) →
          readTileB s3 o l2 p.c p.k p.n = .ok b →
          let inK : BTile := { b with val := fun k j => if k < a.ks then b.val k j else .num 0 }
          let rows := start.zipIdx.map (fun x => x.1.zipIdx.map (fun v =>
            Val.map2 (· + ·) v.1 (dotTile (fld o.f.variant 2 0 == 6) a inK x.2 v.2)))
          let lost := (if p.n = 0 then ((List.range start.length).map (fun i => ((List.range a.ks).filter (a.lost i)).length)).sum else 0) +
            (if p.m = 0 then ((List.range (start.headD []).length).map (fun j =>
              ((List.range a.ks).filter (fun k => b.lost k j)).length)).sum else 0)
          let o1 := o.meets p.m p.n ((k1.add k2).add { new := lost })
          let ends : Bool := p.k + 1 == kt && (o.binding.hand || decide (2 ≤ o.binding.img))
          ∀ s4 s5 o2 s6 o3, (if ends then account s3 c (o1.metIn p.m p.n) else .ok s3) = .ok s4 →
            placeTile (bumpC s4 c kQstall (a.stalls start.length)) (if ends then o1.told p.m p.n else o1) kt p
              ⟨p.m, p.n, rows.map (fun x => x.map la192Code)⟩ = .ok (s5, o2) →
            (if (ps[o.prog + 1]?).any (fun q => q.i == p.i) then .ok (s5, o2) else spillTiles s5 o2 cs kt p.i) = .ok (s6, o3) →
            goes (mmaNext (freePass s6 o1 ps l2 o.prog p) { o3 with prog := o.prog + 1 })))) ∧
    -- the quantiser
    (o.tag = .qnt → mayRun s o = true → ∀ k x h sq i j vals s0 s1 s2,
      let ins := o.claims.filter (fun z => !z.fills)
      let df := qDf o.f
      let isB := if df = 0 then bit o.f.variant 5 else df == 2
      let n := o.dBase + o.prog
      claimsReady s { o with claims := ins } = true → o.claims.find? (fun z => z.fills) = some k → stream? s o.t k.sid = some x →
      x.free n = true → x.filled = n → o.hs.head? = some h → qInput s o = .ok (sq, i, j, vals) →
      (match o.qCarried with
        | some k => reads sq k (scalePart h k (.tile h isB i j)).ss s0
        | none => s0 = sq) →
      let carried : Option (Nat → Nat → Nat) := o.qCarried.map (fun k => fun a q =>
        if isB then scaleCode s0 c h k (256 * i + 32 * q) (256 * j + a) else scaleCode s0 c h k (256 * i + a) (256 * j + 32 * q))
      let q := quantTile ⟨if df = 0 then .kf4 else .kf8, (qThreshold (r o.f.sl3)).getD 8, o.aBase, carried⟩
        (if isB then transpose vals else vals)
      account (countHealth s0 c h.idx q.h) c q.k = .ok s1 →
      let stops := selectedHealth s c q.h && (qhPolicy s c == 2 || (qhPolicy s c == 1 && (openDecl s c h.idx).isNone))
      (stops = true → exec (.engineComplete o.t o.id) s = .next (progFault s1 o.t o.pc fQhealth)) ∧
      (stops = false → (match o.qSlub with
          | some k => putRegion s1 o k (slubPlace h isB (256 * i) (256 * j)).1 q.recs = .ok s2
          | none => s2 = s1) →
        let s3 := slotWrite s2 x (x.slotOff (x.slotNo n)) (qTileBytes (if df = 0 then 4 else 8) isB vals.length (vals.head?.getD []).length q)
        let s4 := setStream s3 { x.put n with filled := n + 1, short := if df = 0 then x.short else x.short ++ [(n, vals.length)] }
        let o1 := { o with prog := o.prog + 1 }
        goes (if o1.prog < o.tiles then setOp s4 o1 else finishOp s4 { o1 with claims := ins } 0))) ∧
    -- attention
    (let g := o.group
     let mask (e : GEnt) (i j : Nat) := masked g.mask g.mask.tile i e.page j e.fill
     (o.tag = .smScore → mayRun s o = true → claimsReady s o = true → ∀ e p a k rest x s1, stepEntry s o = .ok e →
       handTile s o = some (p, a) → o.claims = k :: rest → stream? s o.t k.sid = some x →
       let old (i n : Nat) (z : Val) : Val := if o.aBase = 1 then z else scrVal s o.t (g.row i + n)
       let rows := a.q.zipIdx.map (fun z => scoreRow g.c (old z.2 0 (.num floorQ)) (old z.2 4 (.num 0)) (z.1.map la192) (mask e z.2))
       account (takeTile s p false) c (sumCnt (rows.map (·.k))) = .ok s1 →
       let s2 := rows.zipIdx.foldl (fun s z =>
         let s' := scrPut s o.t (g.row z.2) [z.1.m, z.1.l]
         if o.aBase = 1 then scrPut s' o.t (g.row z.2 + 8) (List.replicate g.d (.num 0)) else s') s1
       let s3 := slotWrite s2 x (x.slotOff (x.slotNo k.tile))
         (qTileBytes 4 false rows.length 256 { codes := rows.map (·.codes), scales := rows.map (·.scales) })
       goes (finishOp (giveAlpha s3 o.t g.off (rows.map (fun z => kf32Code z.alpha))) o g.n)) ∧
     (o.tag = .smAcc → mayRun s o = true → ∀ p a s1, handTile s o = some (p, a) →
       let rows := a.q.zipIdx.map (fun z => z.1.zipIdx.map (fun v =>
         rnC (Val.map2 (· + ·) (Val.map2 (· * ·) (kf32Val ((o.alpha[z.2]?).getD 0)) (scrVal s o.t (g.row z.2 + 8 + 4 * v.2))) (la192 v.1))))
       account (takeTile s p false) c (total rows) = .ok s1 →
       goes (finishOp (rows.zipIdx.foldl (fun s z => scrPut s o.t (g.row z.2 + 8) (z.1.map (·.1))) s1) o g.n)) ∧
     (o.tag = .smRecomp → mayRun s o = true → claimsReady s o = true → ∀ e p a k rest x h hs s0 s1, stepEntry s o = .ok e →
       handTile s o = some (p, a) → o.claims = k :: rest → stream? s o.t k.sid = some x → o.hs = h :: hs →
       let sp := statSpan h (r o.f.sl5).toNat g.n
       reads s h [sp] s0 →
       let field (i k : Nat) : Nat := ofBytes (readV s0 c h.idx (sp.1 + 16 * i + k) 4)
       let rows := a.q.zipIdx.map (fun z => recompRow g.c (kf32Val (field z.2 4)) (decide (field z.2 12 % 2 = 1)) (z.1.map la192) (mask e z.2))
       account (takeTile s0 p false) c (total rows) = .ok s1 →
       goes (finishOp (slotWrite s1 x (x.slotOff (x.slotNo k.tile)) (rows.flatMap (fun z => z.flatMap (fun v => leBytes 4 (kf32Code v.1))))) o g.n)) ∧
     (o.tag = .smEnd → mayRun s o = true → claimsReady s o = true → ∀ s2 s4,
       let d := vopOf (r o.f.sl1)
       let rows := (List.range g.n).map (fun i =>
         if o.aBase = 1 then endRow (.num floorQ) (.num 0) (List.replicate g.d (.num 0))
         else endRow (scrVal s o.t (g.row i)) (scrVal s o.t (g.row i + 4)) ((List.range g.d).map (fun k => scrVal s o.t (g.row i + 8 + 4 * k))))
       putRowsWith s o.t d (sumCnt (rows.map (fun z => z.2.2.2))) (rows.map (fun z => z.1.map (storeVal d.f))) = .ok s2 →
       let s3 := bumpC s2 c kAttEmpty (rows.filter (fun z => z.2.2.1)).length
       (o.hs = [] → goes (finishOp s3 o g.n)) ∧
       (∀ h hs, o.hs = h :: hs → writes s3 h [statSpan h (r o.f.sl3).toNat g.n] s4 →
         goes (finishOp (writeV s4 c h.idx (statSpan h (r o.f.sl3).toNat g.n).1 (rows.flatMap (fun z => z.2.1)) (.op o.id)) o g.n)))) ∧
    -- carding
    (o.tag = .cardBuild → mayRun s o = true → ∀ h k g d s0 base fill s1 s2 s3, o.hs = [h, k] → kvDims s h = .ok (g, d) →
      let w := r o.f.sl2
      let p := buildFirst w + o.prog
      cardEntry s o.t h g d p = .ok (s0, base, fill) →
      let a := base + buildHead w * 528 * d
      (if fill = 0 then s1 = s0 else reads s0 { idx := h.idx, w0 := gAddr s0 a } [(a, 528 * d)] s1) →
      let card := cardOf (if fill = 0 then #[] else (readV s1 c h.idx a (528 * d)).toArray) d fill
      account s1 c card.2.2 = .ok s2 → writes s2 k [(cardMean k d p, 2 * d), (cardNorm k d h.pmapE p, 2)] s3 →
      let s4 := writeV (writeV s3 c k.idx (cardMean k d p) (card.1.flatMap (leBytes 2)) (.op o.id)) c k.idx (cardNorm k d h.pmapE p)
        (leBytes 2 card.2.1) (.op o.id)
      let o1 := { o with prog := o.prog + 1 }
      goes (if o1.prog < buildCount w then setOp s4 o1 else finishOp s4 o1 0)) ∧
    (o.tag = .cardSel → mayPass s o = true → ∀ q cs kv l qs g d sa sb sc s2 fills s3 s5, o.hs = [q, cs, kv, l, qs] →
      kvDims s kv = .ok (g, d) →
      let wt := r o.f.sl4
      let lam := scalarVal (r (o.f.sl4 + 2))
      let k := selK o.f
      let t := selFirst wt + o.prog
      let n := min 256 (q.rows - 256 * t)
      let e := kv.pmapE
      reads s q ((List.range n).map (fun z => q.span (256 * t + z) 0 d)) sa → reads sa qs (scalePart q qs (.rows q (256 * t) n)).ss sb →
      reads sb cs [(cs.loc, roundUp (2 * d * e) 256 + 2 * e)] sc → pageFills sc o.t kv g d = .ok (s2, fills) →
      let fill (p : Nat) := (fills[p]?).getD 0
      let mean := meanQuery s2 c q qs t n
      let forced := ((o.forced.filterMap (fun w => forcedPage w t e)).filter (fun p => fill p != 0)).eraseDups
      let cards := ((List.range e).filter (fun p => someUnmasked (maskOf (r (o.f.sl4 + 3))) t n p (fill p))).map (fun p =>
        (p, cardVals ((List.range d).map (fun i => ofBytes (readV s2 c cs.idx (cardMean cs d p + 2 * i) 2)))
          (ofBytes (readV s2 c cs.idx (cardNorm cs d e p) 2))))
      let scored : List (Nat × (Val × Cnt)) := match mean.1 with
        | none => []
        | some v => cards.filterMap (fun x => x.2.map (fun z => (x.1, pageScore v z.1 lam z.2)))
      let cand := scored.filterMap (fun x => match x.2.1 with
        | .num v => if forced.contains x.1 then none else some (v, x.1)
        | .poison => none)
      let list := (forced ++ ((cand.mergeSort rankLe).take (k - forced.length)).map (·.2)).mergeSort (fun a b => decide (a ≤ b))
      let short := decide (list.length < k)
      account s2 c (mean.2.add (sumCnt (scored.map (fun x => x.2.2)))) = .ok s3 →
      let s4 := bumpC (bumpC s3 c kCardPoison ((cards.filter (fun x => x.2.isNone)).length + (if mean.1.isNone then 1 else 0)))
        c kCardShort (if short then 1 else 0)
      let bs := (listWords k list forced.length short mean.1.isNone).flatMap (leBytes 2)
      let at' := [(listAt l k t, bs.length)]
      writes s4 l at' s5 →
      let s6 := writeV (coverBytes s5 c l.idx at' (.op o.id)) c l.idx (listAt l k t) bs (.op o.id)
      let o1 := { o with prog := o.prog + 1 }
      goes (if o1.prog < selCount wt then setOp s6 o1 else finishOp s6 { o1 with acc := [] } 0)) ∧
    -- the swift engine
    (maySwift s o = true →
      let x := o.h 0
      let out (h : Handle) := (fmtOf h.fmt).getD .kf32
      let writesEls (s1 : State) (h : Handle) (es : List (List Nat × Nat × Cnt)) (done : State → State) := ∀ s2,
        storeUnit s1 o h es = .ok s2 → goes (done s2)
      let whole (s2 : State) := finishOp s2 o 0
      (o.tag = .swConv → ∀ s0 s1 s2,
        let y := o.h 2
        let w := o.h 1
        let (dt, dh, dw) := o.conv
        let co := y.dim 3
        reads s w (elemSpans w ((grid3 dt.k dh.k dw.k).flatMap (fun k => (List.range (w.dim 3)).flatMap (fun z =>
          (List.range co).map (fun e => [k.1, k.2.1, k.2.2, z, e]))))) s0 →
        (if bit o.f.variant 2 then reads s0 (o.h 3) (elemSpans (o.h 3) ((List.range co).map (fun z => [z]))) s1 else s1 = s0) →
        (o.winograd = true →
          let th := ceilDiv dh.out 4
          let tw := ceilDiv dw.out 4
          let (t, i, j) := pos3 th tw o.prog
          reads s1 x (elemSpans x (convReads o ((List.range 6).flatMap (fun a => (List.range 6).map (fun b => (t, 4 * i + a, 4 * j + b))))
            ((List.range dt.k).map (fun z => (z, 0, 0))))) s2 →
          writesEls s2 y ((List.range co).flatMap (fun z => (winoTile s2 o t i j z).zipIdx.flatMap (fun a => a.1.zipIdx.filterMap (fun e =>
            if 4 * i + a.2 < dh.out ∧ 4 * j + e.2 < dw.out then some ([t, 4 * i + a.2, 4 * j + e.2, z], storeVal (out y) e.1) else none))))
            (fun s3 => nextUnit s3 o (dt.out * th * tw))) ∧
        (o.winograd = false →
          let per := if co ≤ 64 then 64 / co else 1
          let sub := ceilDiv co 64
          let first := o.prog / sub * per
          let all := dt.out * dh.out * dw.out
          let at' := (List.range (min per (all - first))).map (fun k => pos3 dh.out dw.out (first + k))
          reads s1 x (elemSpans x (convReads o at' (grid3 dt.k dh.k dw.k))) s2 →
          writesEls s2 y (at'.flatMap (fun p => ((List.range (min 64 (co - 64 * (o.prog % sub)))).map (64 * (o.prog % sub) + ·)).map (fun z =>
            ([p.1, p.2.1, p.2.2, z], storeVal (out y) (rnC (Val.map2 (· + ·) (directSum s2 o p z) (o.bias s2 z)))))))
            (fun s3 => nextUnit s3 o (ceilDiv all per * sub)))) ∧
      (o.tag = .swPool → ∀ s1,
        let (dt, dh, dw) := poolDims o.f x (r o.f.sl3)
        let p := pos3 dh.out dw.out o.prog
        let qs := (grid3 dt.k dh.k dw.k).filterMap (coord3 dt dh dw false p)
        reads s x (elemSpans x (qs.flatMap (fun q => (List.range (x.dim 3)).map (fun z => [q.1, q.2.1, q.2.2, z])))) s1 →
        writesEls s1 (o.h 1) ((List.range (x.dim 3)).map (fun z => ([p.1, p.2.1, p.2.2, z], storeVal (out (o.h 1))
          (poolOne (bit o.f.variant 0) (bit o.f.variant 1) (qs.map (fun q => valV s1 c x [q.1, q.2.1, q.2.2, z])) (dt.k * dh.k * dw.k)))))
          (fun s2 => nextUnit s2 o (dt.out * dh.out * dw.out))) ∧
      (o.tag = .swPatch → ∀ s1,
        let inv := bit o.f.variant 0
        let img := if inv then o.h 1 else x
        let pairs := ((List.range (img.dim 0)).flatMap (fun a => (List.range (img.dim 1)).flatMap (fun b =>
          (List.range (img.dim 2)).flatMap (fun e => (List.range (img.dim 3)).map (fun z => (a, b, e, z)))))).map (fun i =>
            let p := patchPlace (patchP o.f) (img.dim 1) (img.dim 2) (img.dim 3) i
            if inv then ([p.1, p.2], [i.1, i.2.1, i.2.2.1, i.2.2.2]) else ([i.1, i.2.1, i.2.2.1, i.2.2.2], [p.1, p.2]))
        reads s x (elemSpans x (pairs.map (·.1))) s1 →
        writesEls s1 (o.h 1) (pairs.map (fun p => (p.2, elemV s1 c x p.1, {}))) whole) ∧
      (o.tag = .swPix →
        let cos := bit o.f.variant 1
        let k := o.h 3
        let pl (h w : Nat) : List (List Nat) := (List.range h).flatMap (fun i => (List.range w).map (fun j => [i, j]))
        let full := (List.range 3).flatMap (fun p => (pl (x.dim 0) (x.dim 1)).map (fun z => p :: z))
        (bit o.f.variant 0 = true → ∀ s1 s2, reads s k (elemSpans k full) s1 →
          let m (a i j : Nat) : Val × Cnt := pixRow o 13 a ((List.range 3).map (fun p => (valV s1 c k [p, i, j], {})))
          let put (h : Handle) (g off : Nat) (v : Nat → Nat → Val × Cnt) : List (List Nat × Nat × Cnt) :=
            (pl (h.dim 0) (h.dim 1)).map (fun z => match z with
              | [i, j] => (z, pixCode (v i j) (o.pix g) (o.pix off))
              | _ => (z, 0, {}))
          storeUnits s1 o [(x, put x 2 0 (m 0)), (o.h 1, put (o.h 1) 3 1 (downChroma cos (x.dim 1) (m 1))),
            (o.h 2, put (o.h 2) 3 1 (downChroma cos (x.dim 1) (m 2)))] = .ok s2 → goes (finishOp s2 o 0)) ∧
        (bit o.f.variant 0 = false → ∀ s1 s2 s3,
          let h2 := x.dim 0 / 2
          let w2 := x.dim 1 / 2
          reads s x (elemSpans x (pl (x.dim 0) (x.dim 1))) s1 → reads s1 (o.h 1) (elemSpans (o.h 1) (pl h2 w2)) s2 →
          reads s2 (o.h 2) (elemSpans (o.h 2) (pl h2 w2)) s3 →
          let sc (h : Handle) (off g i j : Nat) : Val × Cnt :=
            rnC (Val.map2 (· * ·) (Val.map2 (· - ·) (valV s3 c h [i, j]) (o.pix off)) (o.pix g))
          writesEls s3 k (full.map (fun z => match z with
            | [p, i, j] => (z, storeVal .kf16 (pixRow o 4 p
                [sc x 0 2 i j, upChroma cos h2 w2 (sc (o.h 1) 1 3) i j, upChroma cos h2 w2 (sc (o.h 2) 1 3) i j]))
            | _ => (z, 0, {}))) whole)) ∧
      (o.tag = .swBox → ∀ s1 s2,
        let d := o.h 1
        let y := o.h 2
        let all (h : Handle) : List (List Nat) := (List.range h.rows).flatMap (fun i => (List.range 4).map (fun j => h.ix i j))
        let bnd (i : BitVec 16) : Option Val := if bit o.f.variant 0 then some (scalarVal (r (o.f.sl3 + i))) else none
        reads s x (elemSpans x (all x)) s1 → reads s1 d (elemSpans d (all d)) s2 →
        writesEls s2 y ((List.range x.rows).flatMap (fun i =>
          let va (j : Nat) := valV s2 c x (x.ix i j)
          let vd (j : Nat) := valV s2 c d (d.ix i j)
          let a := boxAxis (va 0) (va 2) (vd 0) (vd 2) (scalarVal (r o.f.sl3))
          let b := boxAxis (va 1) (va 3) (vd 1) (vd 3) (scalarVal (r o.f.sl3))
          let ea := boxEdges a.1 a.2.1 (bnd 1)
          let eb := boxEdges b.1 b.2.1 (bnd 2)
          [(y.ix i 0, storeVal .kf32 (ea.1.1, ea.1.2.add a.2.2)), (y.ix i 1, storeVal .kf32 (eb.1.1, eb.1.2.add b.2.2)),
           (y.ix i 2, storeVal .kf32 (ea.2.1, ea.2.2)), (y.ix i 3, storeVal .kf32 (eb.2.1, eb.2.2))])) whole) ∧
      (o.tag = .swNms → ∀ s1 s2 s3 s4 s5,
        let sc := o.h 1
        let y := o.h 2
        let cls := bit o.f.variant 0
        let flat (h : Handle) (i : Nat) : List Nat := h.ix (i / h.cols) (i % h.cols)
        reads s x (elemSpans x ((List.range x.rows).flatMap (fun a => (List.range 4).map (fun i => x.ix a i)))) s1 →
        reads s1 sc (elemSpans sc ((List.range x.rows).map (flat sc))) s2 →
        (if cls then reads s2 (o.h 3) (elemSpans (o.h 3) ((List.range x.rows).map (flat (o.h 3)))) s3 else s3 = s2) →
        let all := (List.range x.rows).map (fun i =>
          let v (k : Nat) := valV s3 c x (x.ix i k)
          let q := valV s3 c sc (flat sc i)
          if (v 0).isPoison || (v 1).isPoison || (v 2).isPoison || (v 3).isPoison || q.isPoison then none
          else some (⟨i, (v 0).get, (v 1).get, (v 2).get, (v 3).get, q.get, if cls then elemV s3 c (o.h 3) (flat (o.h 3) i) else 0⟩ : Cand))
        let live := (all.filterMap id).filter (fun a => decide ((scalarVal (r (o.f.sl4 + 1))).get ≤ a.score))
        let ranked := live.mergeSort (fun a b => decide (b.score < a.score) || (a.score == b.score && decide (a.idx ≤ b.idx)))
        let kept := nmsKeep (scalarVal (r o.f.sl4)).get cls (r (o.f.sl4 + 2)).toNat [] ranked
        account s3 c { cons := (all.filter (·.isNone)).length } = .ok s4 →
        let bs := leBytes 4 (kept.1.length + (if kept.2 then 8192 else 0)) ++ kept.1.flatMap (fun a => leBytes 2 a.idx)
        let res := bs ++ List.replicate (roundUp bs.length 64 - bs.length) 0
        writes s4 y [(y.lo, res.length)] s5 → goes (finishOp (writeV s5 c y.idx y.lo res (.op o.id)) o 0)))

/-- THERMTRIP_N stays low until a cold reset (R485): from any state in which it is low, every step but one of a cold reset
keeps it low, and changes no memory, context, thread, stream or engine instruction. -/
def Obligations.TripLatched : Prop :=
  ∀ s s' : State, s.power.thermtripN = false → (∀ k g rest, s.pending ≠ .coldReset k g :: rest) → step s = .next s' →
    s'.power.thermtripN = false ∧ s'.mem = s.mem ∧ s'.scratch = s.scratch ∧ s'.bobbin = s.bobbin ∧ s'.ctxs = s.ctxs ∧
    s'.threads = s.threads ∧ s'.streams = s.streams ∧ s'.ops = s.ops ∧ s'.splices = s.splices ∧ s'.sems = s.sems ∧
    s'.flash = s.flash ∧ s'.sec = s.sec ∧ s'.fticks = s.fticks

/-- The canonical form of the state is kept by every step of every command: every byte memory lists rising addresses and no
entry equal to what an unlisted address reads as, and the register, ring and memory tables list rising keys (the model's form
of its tables, log 4). -/
def Obligations.StateStaysCanonical : Prop :=
  ∀ s s' : State, State.wf s = true → step s = .next s' → State.wf s' = true
end

