-- ==== Sys2Proof/Laws/Bits.lean ====
section
/-! SUPPORT. Bytes and words: the little-endian byte order and its inverse, and a field just written. -/

namespace Sys2Proof.Machine

@[simp] theorem leBytes_length (n v : Nat) : (leBytes n v).length = n := by
  induction n generalizing v with
  | zero => rfl
  | succ n ih => simp [leBytes, ih]

/-- The bytes of the number that bytes stand for are those bytes. -/
@[simp] theorem leBytes_ofBytes (l : List Byte) : leBytes l.length (ofBytes l) = l := by
  induction l with
  | nil => rfl
  | cons b bs ih =>
    have hb := b.isLt
    have h1 : (b.toNat + 256 * ofBytes bs) / 256 = ofBytes bs := by omega
    have h2 : BitVec.ofNat 8 (b.toNat + 256 * ofBytes bs) = b := by
      apply BitVec.eq_of_toNat_eq
      simp only [BitVec.toNat_ofNat]
      omega
    simp [leBytes, ofBytes, h1, h2, ih]

/-- The number of a number's bytes is that number, as far as the bytes hold it. -/
theorem ofBytes_leBytes (n v : Nat) : ofBytes (leBytes n v) = v % 256 ^ n := by
  induction n generalizing v with
  | zero => simp [leBytes, ofBytes, Nat.mod_one]
  | succ n ih =>
    simp only [leBytes, ofBytes, ih, BitVec.toNat_ofNat]
    rw [show 256 ^ (n + 1) = 256 * 256 ^ n from Nat.pow_succ', Nat.mod_mul]

theorem ofBytes_lt (l : List Byte) : ofBytes l < 256 ^ l.length := by
  induction l with
  | nil => simp [ofBytes]
  | cons b bs ih =>
    have hb := b.isLt
    simp only [ofBytes, List.length_cons, Nat.pow_succ]
    omega

@[simp] theorem wordBytes_length (w : Word) : (wordBytes w).length = 8 := leBytes_length 8 _

/-- Eight bytes are those of the word that they make. -/
theorem wordBytes_ofBytes (l : List Byte) (h : l.length = 8) : wordBytes (BitVec.ofNat 64 (ofBytes l)) = l := by
  have hl := ofBytes_lt l
  rw [h] at hl
  have hn : (BitVec.ofNat 64 (ofBytes l)).toNat = ofBytes l := by
    simp only [BitVec.toNat_ofNat]
    omega
  rw [wordBytes, hn, ← h, leBytes_ofBytes]

/-- A bit of a field's value. -/
theorem testBit_fld {n : Nat} (w : BitVec n) (hi lo i : Nat) :
    (fld w hi lo).testBit i = (decide (i < hi + 1 - lo) && w.getLsbD (lo + i)) := by
  simp [fld, Nat.testBit_mod_two_pow, Nat.testBit_shiftRight, BitVec.getLsbD]

/-- A bit of a word with a field replaced: of the field its value's, elsewhere the word's. -/
theorem getLsbD_setFld {n : Nat} (w : BitVec n) (hi lo v i : Nat) (h : lo ≤ hi) :
    (setFld w hi lo v).getLsbD i =
      (if lo ≤ i ∧ i ≤ hi then decide (i < n) && v.testBit (i - lo) else w.getLsbD i) := by
  have hm : (2 ^ (hi + 1 - lo) - 1).testBit (i - lo) = decide (i - lo < hi + 1 - lo) := Nat.testBit_two_pow_sub_one _ _
  simp only [setFld, BitVec.getLsbD_or, BitVec.getLsbD_and, BitVec.getLsbD_not, BitVec.getLsbD_ofNat, Nat.testBit_shiftLeft, hm]
  by_cases hn : i < n
  · by_cases hl : lo ≤ i
    · have : (i - lo < hi + 1 - lo) ↔ i ≤ hi := by omega
      by_cases hh : i ≤ hi <;> simp [hn, hl, hh, this]
    · simp [hn, hl]
  · have hz : w.getLsbD i = false := BitVec.getLsbD_of_ge w i (by omega)
    simp [hn, hz]

/-- A field just written reads as the value written, as far as the field holds it. -/
theorem fld_setFld {n : Nat} (w : BitVec n) (hi lo v : Nat) (h : lo ≤ hi) (hn : hi < n) :
    fld (setFld w hi lo v) hi lo = v % 2 ^ (hi + 1 - lo) := by
  apply Nat.eq_of_testBit_eq
  intro i
  rw [testBit_fld, getLsbD_setFld w hi lo v (lo + i) h, Nat.testBit_mod_two_pow]
  by_cases hi' : i < hi + 1 - lo
  · have h1 : lo + i ≤ hi := by omega
    have h2 : lo + i < n := by omega
    simp [hi', h1, h2]
  · simp [hi']

/-- Writing one field leaves a field apart from it. -/
theorem fld_setFld_apart {n : Nat} (w : BitVec n) (hi lo v hi' lo' : Nat) (h : lo ≤ hi) (ha : hi' < lo ∨ hi < lo') :
    fld (setFld w hi lo v) hi' lo' = fld w hi' lo' := by
  apply Nat.eq_of_testBit_eq
  intro i
  rw [testBit_fld, testBit_fld, getLsbD_setFld w hi lo v (lo' + i) h]
  by_cases hi1 : i < hi' + 1 - lo'
  · have : ¬ (lo ≤ lo' + i ∧ lo' + i ≤ hi) := by omega
    simp [this]
  · simp [hi1]

end Sys2Proof.Machine
end

