-- ==== Sys2Proof/Laws/Fields.lean ====
section
/-! SUPPORT. What each plain update of the state leaves: one lemma per field per update. -/

namespace Sys2Proof.Machine

@[simp] theorem setT_pending (s : State) (t : Tid) (th : Thread) : (setT s t th).pending = s.pending := rfl
@[simp] theorem setT_regs (s : State) (t : Tid) (th : Thread) : (setT s t th).regs = s.regs := rfl
@[simp] theorem setT_act (s : State) (t : Tid) (th : Thread) : (setT s t th).act = s.act := rfl
@[simp] theorem setT_halves (s : State) (t : Tid) (th : Thread) : (setT s t th).halves = s.halves := rfl
@[simp] theorem setT_latches (s : State) (t : Tid) (th : Thread) : (setT s t th).latches = s.latches := rfl
@[simp] theorem setT_rdata (s : State) (t : Tid) (th : Thread) : (setT s t th).rdata = s.rdata := rfl
@[simp] theorem setT_mem (s : State) (t : Tid) (th : Thread) : (setT s t th).mem = s.mem := rfl
@[simp] theorem setT_ue (s : State) (t : Tid) (th : Thread) : (setT s t th).ue = s.ue := rfl
@[simp] theorem setT_bobbin (s : State) (t : Tid) (th : Thread) : (setT s t th).bobbin = s.bobbin := rfl
@[simp] theorem setT_scratch (s : State) (t : Tid) (th : Thread) : (setT s t th).scratch = s.scratch := rfl
@[simp] theorem setT_ctxs (s : State) (t : Tid) (th : Thread) : (setT s t th).ctxs = s.ctxs := rfl
@[simp] theorem setT_rings (s : State) (t : Tid) (th : Thread) : (setT s t th).rings = s.rings := rfl
@[simp] theorem setT_due (s : State) (t : Tid) (th : Thread) : (setT s t th).due = s.due := rfl
@[simp] theorem setT_sems (s : State) (t : Tid) (th : Thread) : (setT s t th).sems = s.sems := rfl
@[simp] theorem setT_creel (s : State) (t : Tid) (th : Thread) : (setT s t th).creel = s.creel := rfl
@[simp] theorem setT_streams (s : State) (t : Tid) (th : Thread) : (setT s t th).streams = s.streams := rfl
@[simp] theorem setT_groups (s : State) (t : Tid) (th : Thread) : (setT s t th).groups = s.groups := rfl
@[simp] theorem setT_ops (s : State) (t : Tid) (th : Thread) : (setT s t th).ops = s.ops := rfl
@[simp] theorem setT_seq (s : State) (t : Tid) (th : Thread) : (setT s t th).seq = s.seq := rfl
@[simp] theorem setT_edgeSeq (s : State) (t : Tid) (th : Thread) : (setT s t th).edgeSeq = s.edgeSeq := rfl
@[simp] theorem setT_splices (s : State) (t : Tid) (th : Thread) : (setT s t th).splices = s.splices := rfl
@[simp] theorem setT_gens (s : State) (t : Tid) (th : Thread) : (setT s t th).gens = s.gens := rfl
@[simp] theorem setT_pool (s : State) (t : Tid) (th : Thread) : (setT s t th).pool = s.pool := rfl
@[simp] theorem setT_retiring (s : State) (t : Tid) (th : Thread) : (setT s t th).retiring = s.retiring := rfl
@[simp] theorem setT_running (s : State) (t : Tid) (th : Thread) : (setT s t th).running = s.running := rfl
@[simp] theorem setT_pmap (s : State) (t : Tid) (th : Thread) : (setT s t th).pmap = s.pmap := rfl
@[simp] theorem setT_pages (s : State) (t : Tid) (th : Thread) : (setT s t th).pages = s.pages := rfl
@[simp] theorem setT_releases (s : State) (t : Tid) (th : Thread) : (setT s t th).releases = s.releases := rfl
@[simp] theorem setT_migs (s : State) (t : Tid) (th : Thread) : (setT s t th).migs = s.migs := rfl
@[simp] theorem setT_migQueue (s : State) (t : Tid) (th : Thread) : (setT s t th).migQueue = s.migQueue := rfl
@[simp] theorem setT_plans (s : State) (t : Tid) (th : Thread) : (setT s t th).plans = s.plans := rfl
@[simp] theorem setT_ranks (s : State) (t : Tid) (th : Thread) : (setT s t th).ranks = s.ranks := rfl
@[simp] theorem setT_heldReds (s : State) (t : Tid) (th : Thread) : (setT s t th).heldReds = s.heldReds := rfl
@[simp] theorem setT_rowStates (s : State) (t : Tid) (th : Thread) : (setT s t th).rowStates = s.rowStates := rfl
@[simp] theorem setT_lkops (s : State) (t : Tid) (th : Thread) : (setT s t th).lkops = s.lkops := rfl
@[simp] theorem setT_outMsgs (s : State) (t : Tid) (th : Thread) : (setT s t th).outMsgs = s.outMsgs := rfl
@[simp] theorem setT_epochs (s : State) (t : Tid) (th : Thread) : (setT s t th).epochs = s.epochs := rfl
@[simp] theorem setT_ports (s : State) (t : Tid) (th : Thread) : (setT s t th).ports = s.ports := rfl
@[simp] theorem setT_inbox (s : State) (t : Tid) (th : Thread) : (setT s t th).inbox = s.inbox := rfl
@[simp] theorem setT_meshes (s : State) (t : Tid) (th : Thread) : (setT s t th).meshes = s.meshes := rfl
@[simp] theorem setT_jobs (s : State) (t : Tid) (th : Thread) : (setT s t th).jobs = s.jobs := rfl
@[simp] theorem setT_reels (s : State) (t : Tid) (th : Thread) : (setT s t th).reels = s.reels := rfl
@[simp] theorem setT_ply (s : State) (t : Tid) (th : Thread) : (setT s t th).ply = s.ply := rfl
@[simp] theorem setT_windows (s : State) (t : Tid) (th : Thread) : (setT s t th).windows = s.windows := rfl
@[simp] theorem setT_unretire (s : State) (t : Tid) (th : Thread) : (setT s t th).unretire = s.unretire := rfl
@[simp] theorem setT_pcOut (s : State) (t : Tid) (th : Thread) : (setT s t th).pcOut = s.pcOut := rfl
@[simp] theorem setT_bcOut (s : State) (t : Tid) (th : Thread) : (setT s t th).bcOut = s.bcOut := rfl
@[simp] theorem setT_checking (s : State) (t : Tid) (th : Thread) : (setT s t th).checking = s.checking := rfl
@[simp] theorem setT_armed (s : State) (t : Tid) (th : Thread) : (setT s t th).armed = s.armed := rfl
@[simp] theorem setT_throttled (s : State) (t : Tid) (th : Thread) : (setT s t th).throttled = s.throttled := rfl
@[simp] theorem setT_fw (s : State) (t : Tid) (th : Thread) : (setT s t th).fw = s.fw := rfl
@[simp] theorem setT_bells (s : State) (t : Tid) (th : Thread) : (setT s t th).bells = s.bells := rfl
@[simp] theorem setT_failed (s : State) (t : Tid) (th : Thread) : (setT s t th).failed = s.failed := rfl
@[simp] theorem setT_lastExpiry (s : State) (t : Tid) (th : Thread) : (setT s t th).lastExpiry = s.lastExpiry := rfl
@[simp] theorem setT_resetting (s : State) (t : Tid) (th : Thread) : (setT s t th).resetting = s.resetting := rfl
@[simp] theorem setT_fticks (s : State) (t : Tid) (th : Thread) : (setT s t th).fticks = s.fticks := rfl
@[simp] theorem setT_treadleHeld (s : State) (t : Tid) (th : Thread) : (setT s t th).treadleHeld = s.treadleHeld := rfl
@[simp] theorem setT_onAlt (s : State) (t : Tid) (th : Thread) : (setT s t th).onAlt = s.onAlt := rfl
@[simp] theorem setT_lastMarker (s : State) (t : Tid) (th : Thread) : (setT s t th).lastMarker = s.lastMarker := rfl
@[simp] theorem setT_phase (s : State) (t : Tid) (th : Thread) : (setT s t th).phase = s.phase := rfl
@[simp] theorem setT_vfs (s : State) (t : Tid) (th : Thread) : (setT s t th).vfs = s.vfs := rfl
@[simp] theorem setT_evtPhase (s : State) (t : Tid) (th : Thread) : (setT s t th).evtPhase = s.evtPhase := rfl
@[simp] theorem setT_evtSeq (s : State) (t : Tid) (th : Thread) : (setT s t th).evtSeq = s.evtSeq := rfl
@[simp] theorem setT_flash (s : State) (t : Tid) (th : Thread) : (setT s t th).flash = s.flash := rfl
@[simp] theorem setT_sec (s : State) (t : Tid) (th : Thread) : (setT s t th).sec = s.sec := rfl
@[simp] theorem setT_power (s : State) (t : Tid) (th : Thread) : (setT s t th).power = s.power := rfl
@[simp] theorem setT_hostOut (s : State) (t : Tid) (th : Thread) : (setT s t th).hostOut = s.hostOut := rfl
@[simp] theorem setT_linkOut (s : State) (t : Tid) (th : Thread) : (setT s t th).linkOut = s.linkOut := rfl
@[simp] theorem setT_freeCtr (s : State) (t : Tid) (th : Thread) : (setT s t th).freeCtr = s.freeCtr := rfl
@[simp] theorem setT_pci (s : State) (t : Tid) (th : Thread) : (setT s t th).pci = s.pci := rfl
@[simp] theorem setT_hostWait (s : State) (t : Tid) (th : Thread) : (setT s t th).hostWait = s.hostWait := rfl
@[simp] theorem setT_tilesOut (s : State) (t : Tid) (th : Thread) : (setT s t th).tilesOut = s.tilesOut := rfl
@[simp] theorem setT_held (s : State) (t : Tid) (th : Thread) : (setT s t th).held = s.held := rfl
@[simp] theorem setT_lockedOnce (s : State) (t : Tid) (th : Thread) : (setT s t th).lockedOnce = s.lockedOnce := rfl
@[simp] theorem setT_parentLost (s : State) (t : Tid) (th : Thread) : (setT s t th).parentLost = s.parentLost := rfl
@[simp] theorem setT_sramUe (s : State) (t : Tid) (th : Thread) : (setT s t th).sramUe = s.sramUe := rfl
@[simp] theorem setT_poolWaited (s : State) (t : Tid) (th : Thread) : (setT s t th).poolWaited = s.poolWaited := rfl

@[simp] theorem setC_pending (s : State) (c : Nat) (x : CtxSt) : (setC s c x).pending = s.pending := rfl
@[simp] theorem setC_regs (s : State) (c : Nat) (x : CtxSt) : (setC s c x).regs = s.regs := rfl
@[simp] theorem setC_act (s : State) (c : Nat) (x : CtxSt) : (setC s c x).act = s.act := rfl
@[simp] theorem setC_halves (s : State) (c : Nat) (x : CtxSt) : (setC s c x).halves = s.halves := rfl
@[simp] theorem setC_latches (s : State) (c : Nat) (x : CtxSt) : (setC s c x).latches = s.latches := rfl
@[simp] theorem setC_rdata (s : State) (c : Nat) (x : CtxSt) : (setC s c x).rdata = s.rdata := rfl
@[simp] theorem setC_mem (s : State) (c : Nat) (x : CtxSt) : (setC s c x).mem = s.mem := rfl
@[simp] theorem setC_ue (s : State) (c : Nat) (x : CtxSt) : (setC s c x).ue = s.ue := rfl
@[simp] theorem setC_bobbin (s : State) (c : Nat) (x : CtxSt) : (setC s c x).bobbin = s.bobbin := rfl
@[simp] theorem setC_scratch (s : State) (c : Nat) (x : CtxSt) : (setC s c x).scratch = s.scratch := rfl
@[simp] theorem setC_threads (s : State) (c : Nat) (x : CtxSt) : (setC s c x).threads = s.threads := rfl
@[simp] theorem setC_rings (s : State) (c : Nat) (x : CtxSt) : (setC s c x).rings = s.rings := rfl
@[simp] theorem setC_due (s : State) (c : Nat) (x : CtxSt) : (setC s c x).due = s.due := rfl
@[simp] theorem setC_sems (s : State) (c : Nat) (x : CtxSt) : (setC s c x).sems = s.sems := rfl
@[simp] theorem setC_creel (s : State) (c : Nat) (x : CtxSt) : (setC s c x).creel = s.creel := rfl
@[simp] theorem setC_streams (s : State) (c : Nat) (x : CtxSt) : (setC s c x).streams = s.streams := rfl
@[simp] theorem setC_groups (s : State) (c : Nat) (x : CtxSt) : (setC s c x).groups = s.groups := rfl
@[simp] theorem setC_ops (s : State) (c : Nat) (x : CtxSt) : (setC s c x).ops = s.ops := rfl
@[simp] theorem setC_seq (s : State) (c : Nat) (x : CtxSt) : (setC s c x).seq = s.seq := rfl
@[simp] theorem setC_edgeSeq (s : State) (c : Nat) (x : CtxSt) : (setC s c x).edgeSeq = s.edgeSeq := rfl
@[simp] theorem setC_splices (s : State) (c : Nat) (x : CtxSt) : (setC s c x).splices = s.splices := rfl
@[simp] theorem setC_gens (s : State) (c : Nat) (x : CtxSt) : (setC s c x).gens = s.gens := rfl
@[simp] theorem setC_pool (s : State) (c : Nat) (x : CtxSt) : (setC s c x).pool = s.pool := rfl
@[simp] theorem setC_retiring (s : State) (c : Nat) (x : CtxSt) : (setC s c x).retiring = s.retiring := rfl
@[simp] theorem setC_running (s : State) (c : Nat) (x : CtxSt) : (setC s c x).running = s.running := rfl
@[simp] theorem setC_pmap (s : State) (c : Nat) (x : CtxSt) : (setC s c x).pmap = s.pmap := rfl
@[simp] theorem setC_pages (s : State) (c : Nat) (x : CtxSt) : (setC s c x).pages = s.pages := rfl
@[simp] theorem setC_releases (s : State) (c : Nat) (x : CtxSt) : (setC s c x).releases = s.releases := rfl
@[simp] theorem setC_migs (s : State) (c : Nat) (x : CtxSt) : (setC s c x).migs = s.migs := rfl
@[simp] theorem setC_migQueue (s : State) (c : Nat) (x : CtxSt) : (setC s c x).migQueue = s.migQueue := rfl
@[simp] theorem setC_plans (s : State) (c : Nat) (x : CtxSt) : (setC s c x).plans = s.plans := rfl
@[simp] theorem setC_ranks (s : State) (c : Nat) (x : CtxSt) : (setC s c x).ranks = s.ranks := rfl
@[simp] theorem setC_heldReds (s : State) (c : Nat) (x : CtxSt) : (setC s c x).heldReds = s.heldReds := rfl
@[simp] theorem setC_rowStates (s : State) (c : Nat) (x : CtxSt) : (setC s c x).rowStates = s.rowStates := rfl
@[simp] theorem setC_lkops (s : State) (c : Nat) (x : CtxSt) : (setC s c x).lkops = s.lkops := rfl
@[simp] theorem setC_outMsgs (s : State) (c : Nat) (x : CtxSt) : (setC s c x).outMsgs = s.outMsgs := rfl
@[simp] theorem setC_epochs (s : State) (c : Nat) (x : CtxSt) : (setC s c x).epochs = s.epochs := rfl
@[simp] theorem setC_ports (s : State) (c : Nat) (x : CtxSt) : (setC s c x).ports = s.ports := rfl
@[simp] theorem setC_inbox (s : State) (c : Nat) (x : CtxSt) : (setC s c x).inbox = s.inbox := rfl
@[simp] theorem setC_meshes (s : State) (c : Nat) (x : CtxSt) : (setC s c x).meshes = s.meshes := rfl
@[simp] theorem setC_jobs (s : State) (c : Nat) (x : CtxSt) : (setC s c x).jobs = s.jobs := rfl
@[simp] theorem setC_reels (s : State) (c : Nat) (x : CtxSt) : (setC s c x).reels = s.reels := rfl
@[simp] theorem setC_ply (s : State) (c : Nat) (x : CtxSt) : (setC s c x).ply = s.ply := rfl
@[simp] theorem setC_windows (s : State) (c : Nat) (x : CtxSt) : (setC s c x).windows = s.windows := rfl
@[simp] theorem setC_unretire (s : State) (c : Nat) (x : CtxSt) : (setC s c x).unretire = s.unretire := rfl
@[simp] theorem setC_pcOut (s : State) (c : Nat) (x : CtxSt) : (setC s c x).pcOut = s.pcOut := rfl
@[simp] theorem setC_bcOut (s : State) (c : Nat) (x : CtxSt) : (setC s c x).bcOut = s.bcOut := rfl
@[simp] theorem setC_checking (s : State) (c : Nat) (x : CtxSt) : (setC s c x).checking = s.checking := rfl
@[simp] theorem setC_armed (s : State) (c : Nat) (x : CtxSt) : (setC s c x).armed = s.armed := rfl
@[simp] theorem setC_throttled (s : State) (c : Nat) (x : CtxSt) : (setC s c x).throttled = s.throttled := rfl
@[simp] theorem setC_fw (s : State) (c : Nat) (x : CtxSt) : (setC s c x).fw = s.fw := rfl
@[simp] theorem setC_bells (s : State) (c : Nat) (x : CtxSt) : (setC s c x).bells = s.bells := rfl
@[simp] theorem setC_failed (s : State) (c : Nat) (x : CtxSt) : (setC s c x).failed = s.failed := rfl
@[simp] theorem setC_lastExpiry (s : State) (c : Nat) (x : CtxSt) : (setC s c x).lastExpiry = s.lastExpiry := rfl
@[simp] theorem setC_resetting (s : State) (c : Nat) (x : CtxSt) : (setC s c x).resetting = s.resetting := rfl
@[simp] theorem setC_fticks (s : State) (c : Nat) (x : CtxSt) : (setC s c x).fticks = s.fticks := rfl
@[simp] theorem setC_treadleHeld (s : State) (c : Nat) (x : CtxSt) : (setC s c x).treadleHeld = s.treadleHeld := rfl
@[simp] theorem setC_onAlt (s : State) (c : Nat) (x : CtxSt) : (setC s c x).onAlt = s.onAlt := rfl
@[simp] theorem setC_lastMarker (s : State) (c : Nat) (x : CtxSt) : (setC s c x).lastMarker = s.lastMarker := rfl
@[simp] theorem setC_phase (s : State) (c : Nat) (x : CtxSt) : (setC s c x).phase = s.phase := rfl
@[simp] theorem setC_vfs (s : State) (c : Nat) (x : CtxSt) : (setC s c x).vfs = s.vfs := rfl
@[simp] theorem setC_evtPhase (s : State) (c : Nat) (x : CtxSt) : (setC s c x).evtPhase = s.evtPhase := rfl
@[simp] theorem setC_evtSeq (s : State) (c : Nat) (x : CtxSt) : (setC s c x).evtSeq = s.evtSeq := rfl
@[simp] theorem setC_flash (s : State) (c : Nat) (x : CtxSt) : (setC s c x).flash = s.flash := rfl
@[simp] theorem setC_sec (s : State) (c : Nat) (x : CtxSt) : (setC s c x).sec = s.sec := rfl
@[simp] theorem setC_power (s : State) (c : Nat) (x : CtxSt) : (setC s c x).power = s.power := rfl
@[simp] theorem setC_hostOut (s : State) (c : Nat) (x : CtxSt) : (setC s c x).hostOut = s.hostOut := rfl
@[simp] theorem setC_linkOut (s : State) (c : Nat) (x : CtxSt) : (setC s c x).linkOut = s.linkOut := rfl
@[simp] theorem setC_freeCtr (s : State) (c : Nat) (x : CtxSt) : (setC s c x).freeCtr = s.freeCtr := rfl
@[simp] theorem setC_pci (s : State) (c : Nat) (x : CtxSt) : (setC s c x).pci = s.pci := rfl
@[simp] theorem setC_hostWait (s : State) (c : Nat) (x : CtxSt) : (setC s c x).hostWait = s.hostWait := rfl
@[simp] theorem setC_tilesOut (s : State) (c : Nat) (x : CtxSt) : (setC s c x).tilesOut = s.tilesOut := rfl
@[simp] theorem setC_held (s : State) (c : Nat) (x : CtxSt) : (setC s c x).held = s.held := rfl
@[simp] theorem setC_lockedOnce (s : State) (c : Nat) (x : CtxSt) : (setC s c x).lockedOnce = s.lockedOnce := rfl
@[simp] theorem setC_parentLost (s : State) (c : Nat) (x : CtxSt) : (setC s c x).parentLost = s.parentLost := rfl
@[simp] theorem setC_sramUe (s : State) (c : Nat) (x : CtxSt) : (setC s c x).sramUe = s.sramUe := rfl
@[simp] theorem setC_poolWaited (s : State) (c : Nat) (x : CtxSt) : (setC s c x).poolWaited = s.poolWaited := rfl

@[simp] theorem setRing_pending (s : State) (k : Nat) (x : RingSt) : (setRing s k x).pending = s.pending := rfl
@[simp] theorem setRing_regs (s : State) (k : Nat) (x : RingSt) : (setRing s k x).regs = s.regs := rfl
@[simp] theorem setRing_act (s : State) (k : Nat) (x : RingSt) : (setRing s k x).act = s.act := rfl
@[simp] theorem setRing_halves (s : State) (k : Nat) (x : RingSt) : (setRing s k x).halves = s.halves := rfl
@[simp] theorem setRing_latches (s : State) (k : Nat) (x : RingSt) : (setRing s k x).latches = s.latches := rfl
@[simp] theorem setRing_rdata (s : State) (k : Nat) (x : RingSt) : (setRing s k x).rdata = s.rdata := rfl
@[simp] theorem setRing_mem (s : State) (k : Nat) (x : RingSt) : (setRing s k x).mem = s.mem := rfl
@[simp] theorem setRing_ue (s : State) (k : Nat) (x : RingSt) : (setRing s k x).ue = s.ue := rfl
@[simp] theorem setRing_bobbin (s : State) (k : Nat) (x : RingSt) : (setRing s k x).bobbin = s.bobbin := rfl
@[simp] theorem setRing_scratch (s : State) (k : Nat) (x : RingSt) : (setRing s k x).scratch = s.scratch := rfl
@[simp] theorem setRing_ctxs (s : State) (k : Nat) (x : RingSt) : (setRing s k x).ctxs = s.ctxs := rfl
@[simp] theorem setRing_threads (s : State) (k : Nat) (x : RingSt) : (setRing s k x).threads = s.threads := rfl
@[simp] theorem setRing_due (s : State) (k : Nat) (x : RingSt) : (setRing s k x).due = s.due := rfl
@[simp] theorem setRing_sems (s : State) (k : Nat) (x : RingSt) : (setRing s k x).sems = s.sems := rfl
@[simp] theorem setRing_creel (s : State) (k : Nat) (x : RingSt) : (setRing s k x).creel = s.creel := rfl
@[simp] theorem setRing_streams (s : State) (k : Nat) (x : RingSt) : (setRing s k x).streams = s.streams := rfl
@[simp] theorem setRing_groups (s : State) (k : Nat) (x : RingSt) : (setRing s k x).groups = s.groups := rfl
@[simp] theorem setRing_ops (s : State) (k : Nat) (x : RingSt) : (setRing s k x).ops = s.ops := rfl
@[simp] theorem setRing_seq (s : State) (k : Nat) (x : RingSt) : (setRing s k x).seq = s.seq := rfl
@[simp] theorem setRing_edgeSeq (s : State) (k : Nat) (x : RingSt) : (setRing s k x).edgeSeq = s.edgeSeq := rfl
@[simp] theorem setRing_splices (s : State) (k : Nat) (x : RingSt) : (setRing s k x).splices = s.splices := rfl
@[simp] theorem setRing_gens (s : State) (k : Nat) (x : RingSt) : (setRing s k x).gens = s.gens := rfl
@[simp] theorem setRing_pool (s : State) (k : Nat) (x : RingSt) : (setRing s k x).pool = s.pool := rfl
@[simp] theorem setRing_retiring (s : State) (k : Nat) (x : RingSt) : (setRing s k x).retiring = s.retiring := rfl
@[simp] theorem setRing_running (s : State) (k : Nat) (x : RingSt) : (setRing s k x).running = s.running := rfl
@[simp] theorem setRing_pmap (s : State) (k : Nat) (x : RingSt) : (setRing s k x).pmap = s.pmap := rfl
@[simp] theorem setRing_pages (s : State) (k : Nat) (x : RingSt) : (setRing s k x).pages = s.pages := rfl
@[simp] theorem setRing_releases (s : State) (k : Nat) (x : RingSt) : (setRing s k x).releases = s.releases := rfl
@[simp] theorem setRing_migs (s : State) (k : Nat) (x : RingSt) : (setRing s k x).migs = s.migs := rfl
@[simp] theorem setRing_migQueue (s : State) (k : Nat) (x : RingSt) : (setRing s k x).migQueue = s.migQueue := rfl
@[simp] theorem setRing_plans (s : State) (k : Nat) (x : RingSt) : (setRing s k x).plans = s.plans := rfl
@[simp] theorem setRing_ranks (s : State) (k : Nat) (x : RingSt) : (setRing s k x).ranks = s.ranks := rfl
@[simp] theorem setRing_heldReds (s : State) (k : Nat) (x : RingSt) : (setRing s k x).heldReds = s.heldReds := rfl
@[simp] theorem setRing_rowStates (s : State) (k : Nat) (x : RingSt) : (setRing s k x).rowStates = s.rowStates := rfl
@[simp] theorem setRing_lkops (s : State) (k : Nat) (x : RingSt) : (setRing s k x).lkops = s.lkops := rfl
@[simp] theorem setRing_outMsgs (s : State) (k : Nat) (x : RingSt) : (setRing s k x).outMsgs = s.outMsgs := rfl
@[simp] theorem setRing_epochs (s : State) (k : Nat) (x : RingSt) : (setRing s k x).epochs = s.epochs := rfl
@[simp] theorem setRing_ports (s : State) (k : Nat) (x : RingSt) : (setRing s k x).ports = s.ports := rfl
@[simp] theorem setRing_inbox (s : State) (k : Nat) (x : RingSt) : (setRing s k x).inbox = s.inbox := rfl
@[simp] theorem setRing_meshes (s : State) (k : Nat) (x : RingSt) : (setRing s k x).meshes = s.meshes := rfl
@[simp] theorem setRing_jobs (s : State) (k : Nat) (x : RingSt) : (setRing s k x).jobs = s.jobs := rfl
@[simp] theorem setRing_reels (s : State) (k : Nat) (x : RingSt) : (setRing s k x).reels = s.reels := rfl
@[simp] theorem setRing_ply (s : State) (k : Nat) (x : RingSt) : (setRing s k x).ply = s.ply := rfl
@[simp] theorem setRing_windows (s : State) (k : Nat) (x : RingSt) : (setRing s k x).windows = s.windows := rfl
@[simp] theorem setRing_unretire (s : State) (k : Nat) (x : RingSt) : (setRing s k x).unretire = s.unretire := rfl
@[simp] theorem setRing_pcOut (s : State) (k : Nat) (x : RingSt) : (setRing s k x).pcOut = s.pcOut := rfl
@[simp] theorem setRing_bcOut (s : State) (k : Nat) (x : RingSt) : (setRing s k x).bcOut = s.bcOut := rfl
@[simp] theorem setRing_checking (s : State) (k : Nat) (x : RingSt) : (setRing s k x).checking = s.checking := rfl
@[simp] theorem setRing_armed (s : State) (k : Nat) (x : RingSt) : (setRing s k x).armed = s.armed := rfl
@[simp] theorem setRing_throttled (s : State) (k : Nat) (x : RingSt) : (setRing s k x).throttled = s.throttled := rfl
@[simp] theorem setRing_fw (s : State) (k : Nat) (x : RingSt) : (setRing s k x).fw = s.fw := rfl
@[simp] theorem setRing_bells (s : State) (k : Nat) (x : RingSt) : (setRing s k x).bells = s.bells := rfl
@[simp] theorem setRing_failed (s : State) (k : Nat) (x : RingSt) : (setRing s k x).failed = s.failed := rfl
@[simp] theorem setRing_lastExpiry (s : State) (k : Nat) (x : RingSt) : (setRing s k x).lastExpiry = s.lastExpiry := rfl
@[simp] theorem setRing_resetting (s : State) (k : Nat) (x : RingSt) : (setRing s k x).resetting = s.resetting := rfl
@[simp] theorem setRing_fticks (s : State) (k : Nat) (x : RingSt) : (setRing s k x).fticks = s.fticks := rfl
@[simp] theorem setRing_treadleHeld (s : State) (k : Nat) (x : RingSt) : (setRing s k x).treadleHeld = s.treadleHeld := rfl
@[simp] theorem setRing_onAlt (s : State) (k : Nat) (x : RingSt) : (setRing s k x).onAlt = s.onAlt := rfl
@[simp] theorem setRing_lastMarker (s : State) (k : Nat) (x : RingSt) : (setRing s k x).lastMarker = s.lastMarker := rfl
@[simp] theorem setRing_phase (s : State) (k : Nat) (x : RingSt) : (setRing s k x).phase = s.phase := rfl
@[simp] theorem setRing_vfs (s : State) (k : Nat) (x : RingSt) : (setRing s k x).vfs = s.vfs := rfl
@[simp] theorem setRing_evtPhase (s : State) (k : Nat) (x : RingSt) : (setRing s k x).evtPhase = s.evtPhase := rfl
@[simp] theorem setRing_evtSeq (s : State) (k : Nat) (x : RingSt) : (setRing s k x).evtSeq = s.evtSeq := rfl
@[simp] theorem setRing_flash (s : State) (k : Nat) (x : RingSt) : (setRing s k x).flash = s.flash := rfl
@[simp] theorem setRing_sec (s : State) (k : Nat) (x : RingSt) : (setRing s k x).sec = s.sec := rfl
@[simp] theorem setRing_power (s : State) (k : Nat) (x : RingSt) : (setRing s k x).power = s.power := rfl
@[simp] theorem setRing_hostOut (s : State) (k : Nat) (x : RingSt) : (setRing s k x).hostOut = s.hostOut := rfl
@[simp] theorem setRing_linkOut (s : State) (k : Nat) (x : RingSt) : (setRing s k x).linkOut = s.linkOut := rfl
@[simp] theorem setRing_freeCtr (s : State) (k : Nat) (x : RingSt) : (setRing s k x).freeCtr = s.freeCtr := rfl
@[simp] theorem setRing_pci (s : State) (k : Nat) (x : RingSt) : (setRing s k x).pci = s.pci := rfl
@[simp] theorem setRing_hostWait (s : State) (k : Nat) (x : RingSt) : (setRing s k x).hostWait = s.hostWait := rfl
@[simp] theorem setRing_tilesOut (s : State) (k : Nat) (x : RingSt) : (setRing s k x).tilesOut = s.tilesOut := rfl
@[simp] theorem setRing_held (s : State) (k : Nat) (x : RingSt) : (setRing s k x).held = s.held := rfl
@[simp] theorem setRing_lockedOnce (s : State) (k : Nat) (x : RingSt) : (setRing s k x).lockedOnce = s.lockedOnce := rfl
@[simp] theorem setRing_parentLost (s : State) (k : Nat) (x : RingSt) : (setRing s k x).parentLost = s.parentLost := rfl
@[simp] theorem setRing_sramUe (s : State) (k : Nat) (x : RingSt) : (setRing s k x).sramUe = s.sramUe := rfl
@[simp] theorem setRing_poolWaited (s : State) (k : Nat) (x : RingSt) : (setRing s k x).poolWaited = s.poolWaited := rfl

@[simp] theorem setR_pending (s : State) (r : Reg) (v : Word) : (setR s r v).pending = s.pending := rfl
@[simp] theorem setR_act (s : State) (r : Reg) (v : Word) : (setR s r v).act = s.act := rfl
@[simp] theorem setR_halves (s : State) (r : Reg) (v : Word) : (setR s r v).halves = s.halves := rfl
@[simp] theorem setR_latches (s : State) (r : Reg) (v : Word) : (setR s r v).latches = s.latches := rfl
@[simp] theorem setR_rdata (s : State) (r : Reg) (v : Word) : (setR s r v).rdata = s.rdata := rfl
@[simp] theorem setR_mem (s : State) (r : Reg) (v : Word) : (setR s r v).mem = s.mem := rfl
@[simp] theorem setR_ue (s : State) (r : Reg) (v : Word) : (setR s r v).ue = s.ue := rfl
@[simp] theorem setR_bobbin (s : State) (r : Reg) (v : Word) : (setR s r v).bobbin = s.bobbin := rfl
@[simp] theorem setR_scratch (s : State) (r : Reg) (v : Word) : (setR s r v).scratch = s.scratch := rfl
@[simp] theorem setR_ctxs (s : State) (r : Reg) (v : Word) : (setR s r v).ctxs = s.ctxs := rfl
@[simp] theorem setR_threads (s : State) (r : Reg) (v : Word) : (setR s r v).threads = s.threads := rfl
@[simp] theorem setR_rings (s : State) (r : Reg) (v : Word) : (setR s r v).rings = s.rings := rfl
@[simp] theorem setR_due (s : State) (r : Reg) (v : Word) : (setR s r v).due = s.due := rfl
@[simp] theorem setR_sems (s : State) (r : Reg) (v : Word) : (setR s r v).sems = s.sems := rfl
@[simp] theorem setR_creel (s : State) (r : Reg) (v : Word) : (setR s r v).creel = s.creel := rfl
@[simp] theorem setR_streams (s : State) (r : Reg) (v : Word) : (setR s r v).streams = s.streams := rfl
@[simp] theorem setR_groups (s : State) (r : Reg) (v : Word) : (setR s r v).groups = s.groups := rfl
@[simp] theorem setR_ops (s : State) (r : Reg) (v : Word) : (setR s r v).ops = s.ops := rfl
@[simp] theorem setR_seq (s : State) (r : Reg) (v : Word) : (setR s r v).seq = s.seq := rfl
@[simp] theorem setR_edgeSeq (s : State) (r : Reg) (v : Word) : (setR s r v).edgeSeq = s.edgeSeq := rfl
@[simp] theorem setR_splices (s : State) (r : Reg) (v : Word) : (setR s r v).splices = s.splices := rfl
@[simp] theorem setR_gens (s : State) (r : Reg) (v : Word) : (setR s r v).gens = s.gens := rfl
@[simp] theorem setR_pool (s : State) (r : Reg) (v : Word) : (setR s r v).pool = s.pool := rfl
@[simp] theorem setR_retiring (s : State) (r : Reg) (v : Word) : (setR s r v).retiring = s.retiring := rfl
@[simp] theorem setR_running (s : State) (r : Reg) (v : Word) : (setR s r v).running = s.running := rfl
@[simp] theorem setR_pmap (s : State) (r : Reg) (v : Word) : (setR s r v).pmap = s.pmap := rfl
@[simp] theorem setR_pages (s : State) (r : Reg) (v : Word) : (setR s r v).pages = s.pages := rfl
@[simp] theorem setR_releases (s : State) (r : Reg) (v : Word) : (setR s r v).releases = s.releases := rfl
@[simp] theorem setR_migs (s : State) (r : Reg) (v : Word) : (setR s r v).migs = s.migs := rfl
@[simp] theorem setR_migQueue (s : State) (r : Reg) (v : Word) : (setR s r v).migQueue = s.migQueue := rfl
@[simp] theorem setR_plans (s : State) (r : Reg) (v : Word) : (setR s r v).plans = s.plans := rfl
@[simp] theorem setR_ranks (s : State) (r : Reg) (v : Word) : (setR s r v).ranks = s.ranks := rfl
@[simp] theorem setR_heldReds (s : State) (r : Reg) (v : Word) : (setR s r v).heldReds = s.heldReds := rfl
@[simp] theorem setR_rowStates (s : State) (r : Reg) (v : Word) : (setR s r v).rowStates = s.rowStates := rfl
@[simp] theorem setR_lkops (s : State) (r : Reg) (v : Word) : (setR s r v).lkops = s.lkops := rfl
@[simp] theorem setR_outMsgs (s : State) (r : Reg) (v : Word) : (setR s r v).outMsgs = s.outMsgs := rfl
@[simp] theorem setR_epochs (s : State) (r : Reg) (v : Word) : (setR s r v).epochs = s.epochs := rfl
@[simp] theorem setR_ports (s : State) (r : Reg) (v : Word) : (setR s r v).ports = s.ports := rfl
@[simp] theorem setR_inbox (s : State) (r : Reg) (v : Word) : (setR s r v).inbox = s.inbox := rfl
@[simp] theorem setR_meshes (s : State) (r : Reg) (v : Word) : (setR s r v).meshes = s.meshes := rfl
@[simp] theorem setR_jobs (s : State) (r : Reg) (v : Word) : (setR s r v).jobs = s.jobs := rfl
@[simp] theorem setR_reels (s : State) (r : Reg) (v : Word) : (setR s r v).reels = s.reels := rfl
@[simp] theorem setR_ply (s : State) (r : Reg) (v : Word) : (setR s r v).ply = s.ply := rfl
@[simp] theorem setR_windows (s : State) (r : Reg) (v : Word) : (setR s r v).windows = s.windows := rfl
@[simp] theorem setR_unretire (s : State) (r : Reg) (v : Word) : (setR s r v).unretire = s.unretire := rfl
@[simp] theorem setR_pcOut (s : State) (r : Reg) (v : Word) : (setR s r v).pcOut = s.pcOut := rfl
@[simp] theorem setR_bcOut (s : State) (r : Reg) (v : Word) : (setR s r v).bcOut = s.bcOut := rfl
@[simp] theorem setR_checking (s : State) (r : Reg) (v : Word) : (setR s r v).checking = s.checking := rfl
@[simp] theorem setR_armed (s : State) (r : Reg) (v : Word) : (setR s r v).armed = s.armed := rfl
@[simp] theorem setR_throttled (s : State) (r : Reg) (v : Word) : (setR s r v).throttled = s.throttled := rfl
@[simp] theorem setR_fw (s : State) (r : Reg) (v : Word) : (setR s r v).fw = s.fw := rfl
@[simp] theorem setR_bells (s : State) (r : Reg) (v : Word) : (setR s r v).bells = s.bells := rfl
@[simp] theorem setR_failed (s : State) (r : Reg) (v : Word) : (setR s r v).failed = s.failed := rfl
@[simp] theorem setR_lastExpiry (s : State) (r : Reg) (v : Word) : (setR s r v).lastExpiry = s.lastExpiry := rfl
@[simp] theorem setR_resetting (s : State) (r : Reg) (v : Word) : (setR s r v).resetting = s.resetting := rfl
@[simp] theorem setR_fticks (s : State) (r : Reg) (v : Word) : (setR s r v).fticks = s.fticks := rfl
@[simp] theorem setR_treadleHeld (s : State) (r : Reg) (v : Word) : (setR s r v).treadleHeld = s.treadleHeld := rfl
@[simp] theorem setR_onAlt (s : State) (r : Reg) (v : Word) : (setR s r v).onAlt = s.onAlt := rfl
@[simp] theorem setR_lastMarker (s : State) (r : Reg) (v : Word) : (setR s r v).lastMarker = s.lastMarker := rfl
@[simp] theorem setR_phase (s : State) (r : Reg) (v : Word) : (setR s r v).phase = s.phase := rfl
@[simp] theorem setR_vfs (s : State) (r : Reg) (v : Word) : (setR s r v).vfs = s.vfs := rfl
@[simp] theorem setR_evtPhase (s : State) (r : Reg) (v : Word) : (setR s r v).evtPhase = s.evtPhase := rfl
@[simp] theorem setR_evtSeq (s : State) (r : Reg) (v : Word) : (setR s r v).evtSeq = s.evtSeq := rfl
@[simp] theorem setR_flash (s : State) (r : Reg) (v : Word) : (setR s r v).flash = s.flash := rfl
@[simp] theorem setR_sec (s : State) (r : Reg) (v : Word) : (setR s r v).sec = s.sec := rfl
@[simp] theorem setR_power (s : State) (r : Reg) (v : Word) : (setR s r v).power = s.power := rfl
@[simp] theorem setR_hostOut (s : State) (r : Reg) (v : Word) : (setR s r v).hostOut = s.hostOut := rfl
@[simp] theorem setR_linkOut (s : State) (r : Reg) (v : Word) : (setR s r v).linkOut = s.linkOut := rfl
@[simp] theorem setR_freeCtr (s : State) (r : Reg) (v : Word) : (setR s r v).freeCtr = s.freeCtr := rfl
@[simp] theorem setR_pci (s : State) (r : Reg) (v : Word) : (setR s r v).pci = s.pci := rfl
@[simp] theorem setR_hostWait (s : State) (r : Reg) (v : Word) : (setR s r v).hostWait = s.hostWait := rfl
@[simp] theorem setR_tilesOut (s : State) (r : Reg) (v : Word) : (setR s r v).tilesOut = s.tilesOut := rfl
@[simp] theorem setR_held (s : State) (r : Reg) (v : Word) : (setR s r v).held = s.held := rfl
@[simp] theorem setR_lockedOnce (s : State) (r : Reg) (v : Word) : (setR s r v).lockedOnce = s.lockedOnce := rfl
@[simp] theorem setR_parentLost (s : State) (r : Reg) (v : Word) : (setR s r v).parentLost = s.parentLost := rfl
@[simp] theorem setR_sramUe (s : State) (r : Reg) (v : Word) : (setR s r v).sramUe = s.sramUe := rfl
@[simp] theorem setR_poolWaited (s : State) (r : Reg) (v : Word) : (setR s r v).poolWaited = s.poolWaited := rfl

@[simp] theorem setAct_pending (s : State) (r : Reg) (v : Word) : (setAct s r v).pending = s.pending := rfl
@[simp] theorem setAct_regs (s : State) (r : Reg) (v : Word) : (setAct s r v).regs = s.regs := rfl
@[simp] theorem setAct_halves (s : State) (r : Reg) (v : Word) : (setAct s r v).halves = s.halves := rfl
@[simp] theorem setAct_latches (s : State) (r : Reg) (v : Word) : (setAct s r v).latches = s.latches := rfl
@[simp] theorem setAct_rdata (s : State) (r : Reg) (v : Word) : (setAct s r v).rdata = s.rdata := rfl
@[simp] theorem setAct_mem (s : State) (r : Reg) (v : Word) : (setAct s r v).mem = s.mem := rfl
@[simp] theorem setAct_ue (s : State) (r : Reg) (v : Word) : (setAct s r v).ue = s.ue := rfl
@[simp] theorem setAct_bobbin (s : State) (r : Reg) (v : Word) : (setAct s r v).bobbin = s.bobbin := rfl
@[simp] theorem setAct_scratch (s : State) (r : Reg) (v : Word) : (setAct s r v).scratch = s.scratch := rfl
@[simp] theorem setAct_ctxs (s : State) (r : Reg) (v : Word) : (setAct s r v).ctxs = s.ctxs := rfl
@[simp] theorem setAct_threads (s : State) (r : Reg) (v : Word) : (setAct s r v).threads = s.threads := rfl
@[simp] theorem setAct_rings (s : State) (r : Reg) (v : Word) : (setAct s r v).rings = s.rings := rfl
@[simp] theorem setAct_due (s : State) (r : Reg) (v : Word) : (setAct s r v).due = s.due := rfl
@[simp] theorem setAct_sems (s : State) (r : Reg) (v : Word) : (setAct s r v).sems = s.sems := rfl
@[simp] theorem setAct_creel (s : State) (r : Reg) (v : Word) : (setAct s r v).creel = s.creel := rfl
@[simp] theorem setAct_streams (s : State) (r : Reg) (v : Word) : (setAct s r v).streams = s.streams := rfl
@[simp] theorem setAct_groups (s : State) (r : Reg) (v : Word) : (setAct s r v).groups = s.groups := rfl
@[simp] theorem setAct_ops (s : State) (r : Reg) (v : Word) : (setAct s r v).ops = s.ops := rfl
@[simp] theorem setAct_seq (s : State) (r : Reg) (v : Word) : (setAct s r v).seq = s.seq := rfl
@[simp] theorem setAct_edgeSeq (s : State) (r : Reg) (v : Word) : (setAct s r v).edgeSeq = s.edgeSeq := rfl
@[simp] theorem setAct_splices (s : State) (r : Reg) (v : Word) : (setAct s r v).splices = s.splices := rfl
@[simp] theorem setAct_gens (s : State) (r : Reg) (v : Word) : (setAct s r v).gens = s.gens := rfl
@[simp] theorem setAct_pool (s : State) (r : Reg) (v : Word) : (setAct s r v).pool = s.pool := rfl
@[simp] theorem setAct_retiring (s : State) (r : Reg) (v : Word) : (setAct s r v).retiring = s.retiring := rfl
@[simp] theorem setAct_running (s : State) (r : Reg) (v : Word) : (setAct s r v).running = s.running := rfl
@[simp] theorem setAct_pmap (s : State) (r : Reg) (v : Word) : (setAct s r v).pmap = s.pmap := rfl
@[simp] theorem setAct_pages (s : State) (r : Reg) (v : Word) : (setAct s r v).pages = s.pages := rfl
@[simp] theorem setAct_releases (s : State) (r : Reg) (v : Word) : (setAct s r v).releases = s.releases := rfl
@[simp] theorem setAct_migs (s : State) (r : Reg) (v : Word) : (setAct s r v).migs = s.migs := rfl
@[simp] theorem setAct_migQueue (s : State) (r : Reg) (v : Word) : (setAct s r v).migQueue = s.migQueue := rfl
@[simp] theorem setAct_plans (s : State) (r : Reg) (v : Word) : (setAct s r v).plans = s.plans := rfl
@[simp] theorem setAct_ranks (s : State) (r : Reg) (v : Word) : (setAct s r v).ranks = s.ranks := rfl
@[simp] theorem setAct_heldReds (s : State) (r : Reg) (v : Word) : (setAct s r v).heldReds = s.heldReds := rfl
@[simp] theorem setAct_rowStates (s : State) (r : Reg) (v : Word) : (setAct s r v).rowStates = s.rowStates := rfl
@[simp] theorem setAct_lkops (s : State) (r : Reg) (v : Word) : (setAct s r v).lkops = s.lkops := rfl
@[simp] theorem setAct_outMsgs (s : State) (r : Reg) (v : Word) : (setAct s r v).outMsgs = s.outMsgs := rfl
@[simp] theorem setAct_epochs (s : State) (r : Reg) (v : Word) : (setAct s r v).epochs = s.epochs := rfl
@[simp] theorem setAct_ports (s : State) (r : Reg) (v : Word) : (setAct s r v).ports = s.ports := rfl
@[simp] theorem setAct_inbox (s : State) (r : Reg) (v : Word) : (setAct s r v).inbox = s.inbox := rfl
@[simp] theorem setAct_meshes (s : State) (r : Reg) (v : Word) : (setAct s r v).meshes = s.meshes := rfl
@[simp] theorem setAct_jobs (s : State) (r : Reg) (v : Word) : (setAct s r v).jobs = s.jobs := rfl
@[simp] theorem setAct_reels (s : State) (r : Reg) (v : Word) : (setAct s r v).reels = s.reels := rfl
@[simp] theorem setAct_ply (s : State) (r : Reg) (v : Word) : (setAct s r v).ply = s.ply := rfl
@[simp] theorem setAct_windows (s : State) (r : Reg) (v : Word) : (setAct s r v).windows = s.windows := rfl
@[simp] theorem setAct_unretire (s : State) (r : Reg) (v : Word) : (setAct s r v).unretire = s.unretire := rfl
@[simp] theorem setAct_pcOut (s : State) (r : Reg) (v : Word) : (setAct s r v).pcOut = s.pcOut := rfl
@[simp] theorem setAct_bcOut (s : State) (r : Reg) (v : Word) : (setAct s r v).bcOut = s.bcOut := rfl
@[simp] theorem setAct_checking (s : State) (r : Reg) (v : Word) : (setAct s r v).checking = s.checking := rfl
@[simp] theorem setAct_armed (s : State) (r : Reg) (v : Word) : (setAct s r v).armed = s.armed := rfl
@[simp] theorem setAct_throttled (s : State) (r : Reg) (v : Word) : (setAct s r v).throttled = s.throttled := rfl
@[simp] theorem setAct_fw (s : State) (r : Reg) (v : Word) : (setAct s r v).fw = s.fw := rfl
@[simp] theorem setAct_bells (s : State) (r : Reg) (v : Word) : (setAct s r v).bells = s.bells := rfl
@[simp] theorem setAct_failed (s : State) (r : Reg) (v : Word) : (setAct s r v).failed = s.failed := rfl
@[simp] theorem setAct_lastExpiry (s : State) (r : Reg) (v : Word) : (setAct s r v).lastExpiry = s.lastExpiry := rfl
@[simp] theorem setAct_resetting (s : State) (r : Reg) (v : Word) : (setAct s r v).resetting = s.resetting := rfl
@[simp] theorem setAct_fticks (s : State) (r : Reg) (v : Word) : (setAct s r v).fticks = s.fticks := rfl
@[simp] theorem setAct_treadleHeld (s : State) (r : Reg) (v : Word) : (setAct s r v).treadleHeld = s.treadleHeld := rfl
@[simp] theorem setAct_onAlt (s : State) (r : Reg) (v : Word) : (setAct s r v).onAlt = s.onAlt := rfl
@[simp] theorem setAct_lastMarker (s : State) (r : Reg) (v : Word) : (setAct s r v).lastMarker = s.lastMarker := rfl
@[simp] theorem setAct_phase (s : State) (r : Reg) (v : Word) : (setAct s r v).phase = s.phase := rfl
@[simp] theorem setAct_vfs (s : State) (r : Reg) (v : Word) : (setAct s r v).vfs = s.vfs := rfl
@[simp] theorem setAct_evtPhase (s : State) (r : Reg) (v : Word) : (setAct s r v).evtPhase = s.evtPhase := rfl
@[simp] theorem setAct_evtSeq (s : State) (r : Reg) (v : Word) : (setAct s r v).evtSeq = s.evtSeq := rfl
@[simp] theorem setAct_flash (s : State) (r : Reg) (v : Word) : (setAct s r v).flash = s.flash := rfl
@[simp] theorem setAct_sec (s : State) (r : Reg) (v : Word) : (setAct s r v).sec = s.sec := rfl
@[simp] theorem setAct_power (s : State) (r : Reg) (v : Word) : (setAct s r v).power = s.power := rfl
@[simp] theorem setAct_hostOut (s : State) (r : Reg) (v : Word) : (setAct s r v).hostOut = s.hostOut := rfl
@[simp] theorem setAct_linkOut (s : State) (r : Reg) (v : Word) : (setAct s r v).linkOut = s.linkOut := rfl
@[simp] theorem setAct_freeCtr (s : State) (r : Reg) (v : Word) : (setAct s r v).freeCtr = s.freeCtr := rfl
@[simp] theorem setAct_pci (s : State) (r : Reg) (v : Word) : (setAct s r v).pci = s.pci := rfl
@[simp] theorem setAct_hostWait (s : State) (r : Reg) (v : Word) : (setAct s r v).hostWait = s.hostWait := rfl
@[simp] theorem setAct_tilesOut (s : State) (r : Reg) (v : Word) : (setAct s r v).tilesOut = s.tilesOut := rfl
@[simp] theorem setAct_held (s : State) (r : Reg) (v : Word) : (setAct s r v).held = s.held := rfl
@[simp] theorem setAct_lockedOnce (s : State) (r : Reg) (v : Word) : (setAct s r v).lockedOnce = s.lockedOnce := rfl
@[simp] theorem setAct_parentLost (s : State) (r : Reg) (v : Word) : (setAct s r v).parentLost = s.parentLost := rfl
@[simp] theorem setAct_sramUe (s : State) (r : Reg) (v : Word) : (setAct s r v).sramUe = s.sramUe := rfl
@[simp] theorem setAct_poolWaited (s : State) (r : Reg) (v : Word) : (setAct s r v).poolWaited = s.poolWaited := rfl

@[simp] theorem toHost_pending (s : State) (o : HostOut) : (toHost s o).pending = s.pending := rfl
@[simp] theorem toHost_regs (s : State) (o : HostOut) : (toHost s o).regs = s.regs := rfl
@[simp] theorem toHost_act (s : State) (o : HostOut) : (toHost s o).act = s.act := rfl
@[simp] theorem toHost_halves (s : State) (o : HostOut) : (toHost s o).halves = s.halves := rfl
@[simp] theorem toHost_latches (s : State) (o : HostOut) : (toHost s o).latches = s.latches := rfl
@[simp] theorem toHost_rdata (s : State) (o : HostOut) : (toHost s o).rdata = s.rdata := rfl
@[simp] theorem toHost_mem (s : State) (o : HostOut) : (toHost s o).mem = s.mem := rfl
@[simp] theorem toHost_ue (s : State) (o : HostOut) : (toHost s o).ue = s.ue := rfl
@[simp] theorem toHost_bobbin (s : State) (o : HostOut) : (toHost s o).bobbin = s.bobbin := rfl
@[simp] theorem toHost_scratch (s : State) (o : HostOut) : (toHost s o).scratch = s.scratch := rfl
@[simp] theorem toHost_ctxs (s : State) (o : HostOut) : (toHost s o).ctxs = s.ctxs := rfl
@[simp] theorem toHost_threads (s : State) (o : HostOut) : (toHost s o).threads = s.threads := rfl
@[simp] theorem toHost_rings (s : State) (o : HostOut) : (toHost s o).rings = s.rings := rfl
@[simp] theorem toHost_due (s : State) (o : HostOut) : (toHost s o).due = s.due := rfl
@[simp] theorem toHost_sems (s : State) (o : HostOut) : (toHost s o).sems = s.sems := rfl
@[simp] theorem toHost_creel (s : State) (o : HostOut) : (toHost s o).creel = s.creel := rfl
@[simp] theorem toHost_streams (s : State) (o : HostOut) : (toHost s o).streams = s.streams := rfl
@[simp] theorem toHost_groups (s : State) (o : HostOut) : (toHost s o).groups = s.groups := rfl
@[simp] theorem toHost_ops (s : State) (o : HostOut) : (toHost s o).ops = s.ops := rfl
@[simp] theorem toHost_seq (s : State) (o : HostOut) : (toHost s o).seq = s.seq := rfl
@[simp] theorem toHost_edgeSeq (s : State) (o : HostOut) : (toHost s o).edgeSeq = s.edgeSeq := rfl
@[simp] theorem toHost_splices (s : State) (o : HostOut) : (toHost s o).splices = s.splices := rfl
@[simp] theorem toHost_gens (s : State) (o : HostOut) : (toHost s o).gens = s.gens := rfl
@[simp] theorem toHost_pool (s : State) (o : HostOut) : (toHost s o).pool = s.pool := rfl
@[simp] theorem toHost_retiring (s : State) (o : HostOut) : (toHost s o).retiring = s.retiring := rfl
@[simp] theorem toHost_running (s : State) (o : HostOut) : (toHost s o).running = s.running := rfl
@[simp] theorem toHost_pmap (s : State) (o : HostOut) : (toHost s o).pmap = s.pmap := rfl
@[simp] theorem toHost_pages (s : State) (o : HostOut) : (toHost s o).pages = s.pages := rfl
@[simp] theorem toHost_releases (s : State) (o : HostOut) : (toHost s o).releases = s.releases := rfl
@[simp] theorem toHost_migs (s : State) (o : HostOut) : (toHost s o).migs = s.migs := rfl
@[simp] theorem toHost_migQueue (s : State) (o : HostOut) : (toHost s o).migQueue = s.migQueue := rfl
@[simp] theorem toHost_plans (s : State) (o : HostOut) : (toHost s o).plans = s.plans := rfl
@[simp] theorem toHost_ranks (s : State) (o : HostOut) : (toHost s o).ranks = s.ranks := rfl
@[simp] theorem toHost_heldReds (s : State) (o : HostOut) : (toHost s o).heldReds = s.heldReds := rfl
@[simp] theorem toHost_rowStates (s : State) (o : HostOut) : (toHost s o).rowStates = s.rowStates := rfl
@[simp] theorem toHost_lkops (s : State) (o : HostOut) : (toHost s o).lkops = s.lkops := rfl
@[simp] theorem toHost_outMsgs (s : State) (o : HostOut) : (toHost s o).outMsgs = s.outMsgs := rfl
@[simp] theorem toHost_epochs (s : State) (o : HostOut) : (toHost s o).epochs = s.epochs := rfl
@[simp] theorem toHost_ports (s : State) (o : HostOut) : (toHost s o).ports = s.ports := rfl
@[simp] theorem toHost_inbox (s : State) (o : HostOut) : (toHost s o).inbox = s.inbox := rfl
@[simp] theorem toHost_meshes (s : State) (o : HostOut) : (toHost s o).meshes = s.meshes := rfl
@[simp] theorem toHost_jobs (s : State) (o : HostOut) : (toHost s o).jobs = s.jobs := rfl
@[simp] theorem toHost_reels (s : State) (o : HostOut) : (toHost s o).reels = s.reels := rfl
@[simp] theorem toHost_ply (s : State) (o : HostOut) : (toHost s o).ply = s.ply := rfl
@[simp] theorem toHost_windows (s : State) (o : HostOut) : (toHost s o).windows = s.windows := rfl
@[simp] theorem toHost_unretire (s : State) (o : HostOut) : (toHost s o).unretire = s.unretire := rfl
@[simp] theorem toHost_pcOut (s : State) (o : HostOut) : (toHost s o).pcOut = s.pcOut := rfl
@[simp] theorem toHost_bcOut (s : State) (o : HostOut) : (toHost s o).bcOut = s.bcOut := rfl
@[simp] theorem toHost_checking (s : State) (o : HostOut) : (toHost s o).checking = s.checking := rfl
@[simp] theorem toHost_armed (s : State) (o : HostOut) : (toHost s o).armed = s.armed := rfl
@[simp] theorem toHost_throttled (s : State) (o : HostOut) : (toHost s o).throttled = s.throttled := rfl
@[simp] theorem toHost_fw (s : State) (o : HostOut) : (toHost s o).fw = s.fw := rfl
@[simp] theorem toHost_bells (s : State) (o : HostOut) : (toHost s o).bells = s.bells := rfl
@[simp] theorem toHost_failed (s : State) (o : HostOut) : (toHost s o).failed = s.failed := rfl
@[simp] theorem toHost_lastExpiry (s : State) (o : HostOut) : (toHost s o).lastExpiry = s.lastExpiry := rfl
@[simp] theorem toHost_resetting (s : State) (o : HostOut) : (toHost s o).resetting = s.resetting := rfl
@[simp] theorem toHost_fticks (s : State) (o : HostOut) : (toHost s o).fticks = s.fticks := rfl
@[simp] theorem toHost_treadleHeld (s : State) (o : HostOut) : (toHost s o).treadleHeld = s.treadleHeld := rfl
@[simp] theorem toHost_onAlt (s : State) (o : HostOut) : (toHost s o).onAlt = s.onAlt := rfl
@[simp] theorem toHost_lastMarker (s : State) (o : HostOut) : (toHost s o).lastMarker = s.lastMarker := rfl
@[simp] theorem toHost_phase (s : State) (o : HostOut) : (toHost s o).phase = s.phase := rfl
@[simp] theorem toHost_vfs (s : State) (o : HostOut) : (toHost s o).vfs = s.vfs := rfl
@[simp] theorem toHost_evtPhase (s : State) (o : HostOut) : (toHost s o).evtPhase = s.evtPhase := rfl
@[simp] theorem toHost_evtSeq (s : State) (o : HostOut) : (toHost s o).evtSeq = s.evtSeq := rfl
@[simp] theorem toHost_flash (s : State) (o : HostOut) : (toHost s o).flash = s.flash := rfl
@[simp] theorem toHost_sec (s : State) (o : HostOut) : (toHost s o).sec = s.sec := rfl
@[simp] theorem toHost_power (s : State) (o : HostOut) : (toHost s o).power = s.power := rfl
@[simp] theorem toHost_linkOut (s : State) (o : HostOut) : (toHost s o).linkOut = s.linkOut := rfl
@[simp] theorem toHost_freeCtr (s : State) (o : HostOut) : (toHost s o).freeCtr = s.freeCtr := rfl
@[simp] theorem toHost_pci (s : State) (o : HostOut) : (toHost s o).pci = s.pci := rfl
@[simp] theorem toHost_tilesOut (s : State) (o : HostOut) : (toHost s o).tilesOut = s.tilesOut := rfl
@[simp] theorem toHost_held (s : State) (o : HostOut) : (toHost s o).held = s.held := rfl
@[simp] theorem toHost_lockedOnce (s : State) (o : HostOut) : (toHost s o).lockedOnce = s.lockedOnce := rfl
@[simp] theorem toHost_parentLost (s : State) (o : HostOut) : (toHost s o).parentLost = s.parentLost := rfl
@[simp] theorem toHost_sramUe (s : State) (o : HostOut) : (toHost s o).sramUe = s.sramUe := rfl
@[simp] theorem toHost_poolWaited (s : State) (o : HostOut) : (toHost s o).poolWaited = s.poolWaited := rfl

@[simp] theorem toLink_pending (s : State) (o : LinkOut) : (toLink s o).pending = s.pending := rfl
@[simp] theorem toLink_regs (s : State) (o : LinkOut) : (toLink s o).regs = s.regs := rfl
@[simp] theorem toLink_act (s : State) (o : LinkOut) : (toLink s o).act = s.act := rfl
@[simp] theorem toLink_halves (s : State) (o : LinkOut) : (toLink s o).halves = s.halves := rfl
@[simp] theorem toLink_latches (s : State) (o : LinkOut) : (toLink s o).latches = s.latches := rfl
@[simp] theorem toLink_rdata (s : State) (o : LinkOut) : (toLink s o).rdata = s.rdata := rfl
@[simp] theorem toLink_mem (s : State) (o : LinkOut) : (toLink s o).mem = s.mem := rfl
@[simp] theorem toLink_ue (s : State) (o : LinkOut) : (toLink s o).ue = s.ue := rfl
@[simp] theorem toLink_bobbin (s : State) (o : LinkOut) : (toLink s o).bobbin = s.bobbin := rfl
@[simp] theorem toLink_scratch (s : State) (o : LinkOut) : (toLink s o).scratch = s.scratch := rfl
@[simp] theorem toLink_ctxs (s : State) (o : LinkOut) : (toLink s o).ctxs = s.ctxs := rfl
@[simp] theorem toLink_threads (s : State) (o : LinkOut) : (toLink s o).threads = s.threads := rfl
@[simp] theorem toLink_rings (s : State) (o : LinkOut) : (toLink s o).rings = s.rings := rfl
@[simp] theorem toLink_due (s : State) (o : LinkOut) : (toLink s o).due = s.due := rfl
@[simp] theorem toLink_sems (s : State) (o : LinkOut) : (toLink s o).sems = s.sems := rfl
@[simp] theorem toLink_creel (s : State) (o : LinkOut) : (toLink s o).creel = s.creel := rfl
@[simp] theorem toLink_streams (s : State) (o : LinkOut) : (toLink s o).streams = s.streams := rfl
@[simp] theorem toLink_groups (s : State) (o : LinkOut) : (toLink s o).groups = s.groups := rfl
@[simp] theorem toLink_ops (s : State) (o : LinkOut) : (toLink s o).ops = s.ops := rfl
@[simp] theorem toLink_seq (s : State) (o : LinkOut) : (toLink s o).seq = s.seq := rfl
@[simp] theorem toLink_edgeSeq (s : State) (o : LinkOut) : (toLink s o).edgeSeq = s.edgeSeq := rfl
@[simp] theorem toLink_splices (s : State) (o : LinkOut) : (toLink s o).splices = s.splices := rfl
@[simp] theorem toLink_gens (s : State) (o : LinkOut) : (toLink s o).gens = s.gens := rfl
@[simp] theorem toLink_pool (s : State) (o : LinkOut) : (toLink s o).pool = s.pool := rfl
@[simp] theorem toLink_retiring (s : State) (o : LinkOut) : (toLink s o).retiring = s.retiring := rfl
@[simp] theorem toLink_running (s : State) (o : LinkOut) : (toLink s o).running = s.running := rfl
@[simp] theorem toLink_pmap (s : State) (o : LinkOut) : (toLink s o).pmap = s.pmap := rfl
@[simp] theorem toLink_pages (s : State) (o : LinkOut) : (toLink s o).pages = s.pages := rfl
@[simp] theorem toLink_releases (s : State) (o : LinkOut) : (toLink s o).releases = s.releases := rfl
@[simp] theorem toLink_migs (s : State) (o : LinkOut) : (toLink s o).migs = s.migs := rfl
@[simp] theorem toLink_migQueue (s : State) (o : LinkOut) : (toLink s o).migQueue = s.migQueue := rfl
@[simp] theorem toLink_plans (s : State) (o : LinkOut) : (toLink s o).plans = s.plans := rfl
@[simp] theorem toLink_ranks (s : State) (o : LinkOut) : (toLink s o).ranks = s.ranks := rfl
@[simp] theorem toLink_heldReds (s : State) (o : LinkOut) : (toLink s o).heldReds = s.heldReds := rfl
@[simp] theorem toLink_rowStates (s : State) (o : LinkOut) : (toLink s o).rowStates = s.rowStates := rfl
@[simp] theorem toLink_lkops (s : State) (o : LinkOut) : (toLink s o).lkops = s.lkops := rfl
@[simp] theorem toLink_outMsgs (s : State) (o : LinkOut) : (toLink s o).outMsgs = s.outMsgs := rfl
@[simp] theorem toLink_epochs (s : State) (o : LinkOut) : (toLink s o).epochs = s.epochs := rfl
@[simp] theorem toLink_ports (s : State) (o : LinkOut) : (toLink s o).ports = s.ports := rfl
@[simp] theorem toLink_inbox (s : State) (o : LinkOut) : (toLink s o).inbox = s.inbox := rfl
@[simp] theorem toLink_meshes (s : State) (o : LinkOut) : (toLink s o).meshes = s.meshes := rfl
@[simp] theorem toLink_jobs (s : State) (o : LinkOut) : (toLink s o).jobs = s.jobs := rfl
@[simp] theorem toLink_reels (s : State) (o : LinkOut) : (toLink s o).reels = s.reels := rfl
@[simp] theorem toLink_ply (s : State) (o : LinkOut) : (toLink s o).ply = s.ply := rfl
@[simp] theorem toLink_windows (s : State) (o : LinkOut) : (toLink s o).windows = s.windows := rfl
@[simp] theorem toLink_unretire (s : State) (o : LinkOut) : (toLink s o).unretire = s.unretire := rfl
@[simp] theorem toLink_pcOut (s : State) (o : LinkOut) : (toLink s o).pcOut = s.pcOut := rfl
@[simp] theorem toLink_bcOut (s : State) (o : LinkOut) : (toLink s o).bcOut = s.bcOut := rfl
@[simp] theorem toLink_checking (s : State) (o : LinkOut) : (toLink s o).checking = s.checking := rfl
@[simp] theorem toLink_armed (s : State) (o : LinkOut) : (toLink s o).armed = s.armed := rfl
@[simp] theorem toLink_throttled (s : State) (o : LinkOut) : (toLink s o).throttled = s.throttled := rfl
@[simp] theorem toLink_fw (s : State) (o : LinkOut) : (toLink s o).fw = s.fw := rfl
@[simp] theorem toLink_bells (s : State) (o : LinkOut) : (toLink s o).bells = s.bells := rfl
@[simp] theorem toLink_failed (s : State) (o : LinkOut) : (toLink s o).failed = s.failed := rfl
@[simp] theorem toLink_lastExpiry (s : State) (o : LinkOut) : (toLink s o).lastExpiry = s.lastExpiry := rfl
@[simp] theorem toLink_resetting (s : State) (o : LinkOut) : (toLink s o).resetting = s.resetting := rfl
@[simp] theorem toLink_fticks (s : State) (o : LinkOut) : (toLink s o).fticks = s.fticks := rfl
@[simp] theorem toLink_treadleHeld (s : State) (o : LinkOut) : (toLink s o).treadleHeld = s.treadleHeld := rfl
@[simp] theorem toLink_onAlt (s : State) (o : LinkOut) : (toLink s o).onAlt = s.onAlt := rfl
@[simp] theorem toLink_lastMarker (s : State) (o : LinkOut) : (toLink s o).lastMarker = s.lastMarker := rfl
@[simp] theorem toLink_phase (s : State) (o : LinkOut) : (toLink s o).phase = s.phase := rfl
@[simp] theorem toLink_vfs (s : State) (o : LinkOut) : (toLink s o).vfs = s.vfs := rfl
@[simp] theorem toLink_evtPhase (s : State) (o : LinkOut) : (toLink s o).evtPhase = s.evtPhase := rfl
@[simp] theorem toLink_evtSeq (s : State) (o : LinkOut) : (toLink s o).evtSeq = s.evtSeq := rfl
@[simp] theorem toLink_flash (s : State) (o : LinkOut) : (toLink s o).flash = s.flash := rfl
@[simp] theorem toLink_sec (s : State) (o : LinkOut) : (toLink s o).sec = s.sec := rfl
@[simp] theorem toLink_power (s : State) (o : LinkOut) : (toLink s o).power = s.power := rfl
@[simp] theorem toLink_hostOut (s : State) (o : LinkOut) : (toLink s o).hostOut = s.hostOut := rfl
@[simp] theorem toLink_freeCtr (s : State) (o : LinkOut) : (toLink s o).freeCtr = s.freeCtr := rfl
@[simp] theorem toLink_pci (s : State) (o : LinkOut) : (toLink s o).pci = s.pci := rfl
@[simp] theorem toLink_hostWait (s : State) (o : LinkOut) : (toLink s o).hostWait = s.hostWait := rfl
@[simp] theorem toLink_tilesOut (s : State) (o : LinkOut) : (toLink s o).tilesOut = s.tilesOut := rfl
@[simp] theorem toLink_held (s : State) (o : LinkOut) : (toLink s o).held = s.held := rfl
@[simp] theorem toLink_lockedOnce (s : State) (o : LinkOut) : (toLink s o).lockedOnce = s.lockedOnce := rfl
@[simp] theorem toLink_parentLost (s : State) (o : LinkOut) : (toLink s o).parentLost = s.parentLost := rfl
@[simp] theorem toLink_sramUe (s : State) (o : LinkOut) : (toLink s o).sramUe = s.sramUe := rfl
@[simp] theorem toLink_poolWaited (s : State) (o : LinkOut) : (toLink s o).poolWaited = s.poolWaited := rfl

@[simp] theorem stepOn_pending (s : State) (t : Tid) (th : Thread) : (stepOn s t th).pending = s.pending := rfl
@[simp] theorem stepOn_regs (s : State) (t : Tid) (th : Thread) : (stepOn s t th).regs = s.regs := rfl
@[simp] theorem stepOn_act (s : State) (t : Tid) (th : Thread) : (stepOn s t th).act = s.act := rfl
@[simp] theorem stepOn_halves (s : State) (t : Tid) (th : Thread) : (stepOn s t th).halves = s.halves := rfl
@[simp] theorem stepOn_latches (s : State) (t : Tid) (th : Thread) : (stepOn s t th).latches = s.latches := rfl
@[simp] theorem stepOn_rdata (s : State) (t : Tid) (th : Thread) : (stepOn s t th).rdata = s.rdata := rfl
@[simp] theorem stepOn_mem (s : State) (t : Tid) (th : Thread) : (stepOn s t th).mem = s.mem := rfl
@[simp] theorem stepOn_ue (s : State) (t : Tid) (th : Thread) : (stepOn s t th).ue = s.ue := rfl
@[simp] theorem stepOn_bobbin (s : State) (t : Tid) (th : Thread) : (stepOn s t th).bobbin = s.bobbin := rfl
@[simp] theorem stepOn_scratch (s : State) (t : Tid) (th : Thread) : (stepOn s t th).scratch = s.scratch := rfl
@[simp] theorem stepOn_ctxs (s : State) (t : Tid) (th : Thread) : (stepOn s t th).ctxs = s.ctxs := rfl
@[simp] theorem stepOn_rings (s : State) (t : Tid) (th : Thread) : (stepOn s t th).rings = s.rings := rfl
@[simp] theorem stepOn_due (s : State) (t : Tid) (th : Thread) : (stepOn s t th).due = s.due := rfl
@[simp] theorem stepOn_sems (s : State) (t : Tid) (th : Thread) : (stepOn s t th).sems = s.sems := rfl
@[simp] theorem stepOn_creel (s : State) (t : Tid) (th : Thread) : (stepOn s t th).creel = s.creel := rfl
@[simp] theorem stepOn_streams (s : State) (t : Tid) (th : Thread) : (stepOn s t th).streams = s.streams := rfl
@[simp] theorem stepOn_groups (s : State) (t : Tid) (th : Thread) : (stepOn s t th).groups = s.groups := rfl
@[simp] theorem stepOn_ops (s : State) (t : Tid) (th : Thread) : (stepOn s t th).ops = s.ops := rfl
@[simp] theorem stepOn_edgeSeq (s : State) (t : Tid) (th : Thread) : (stepOn s t th).edgeSeq = s.edgeSeq := rfl
@[simp] theorem stepOn_splices (s : State) (t : Tid) (th : Thread) : (stepOn s t th).splices = s.splices := rfl
@[simp] theorem stepOn_gens (s : State) (t : Tid) (th : Thread) : (stepOn s t th).gens = s.gens := rfl
@[simp] theorem stepOn_pool (s : State) (t : Tid) (th : Thread) : (stepOn s t th).pool = s.pool := rfl
@[simp] theorem stepOn_retiring (s : State) (t : Tid) (th : Thread) : (stepOn s t th).retiring = s.retiring := rfl
@[simp] theorem stepOn_running (s : State) (t : Tid) (th : Thread) : (stepOn s t th).running = s.running := rfl
@[simp] theorem stepOn_pmap (s : State) (t : Tid) (th : Thread) : (stepOn s t th).pmap = s.pmap := rfl
@[simp] theorem stepOn_pages (s : State) (t : Tid) (th : Thread) : (stepOn s t th).pages = s.pages := rfl
@[simp] theorem stepOn_releases (s : State) (t : Tid) (th : Thread) : (stepOn s t th).releases = s.releases := rfl
@[simp] theorem stepOn_migs (s : State) (t : Tid) (th : Thread) : (stepOn s t th).migs = s.migs := rfl
@[simp] theorem stepOn_migQueue (s : State) (t : Tid) (th : Thread) : (stepOn s t th).migQueue = s.migQueue := rfl
@[simp] theorem stepOn_plans (s : State) (t : Tid) (th : Thread) : (stepOn s t th).plans = s.plans := rfl
@[simp] theorem stepOn_ranks (s : State) (t : Tid) (th : Thread) : (stepOn s t th).ranks = s.ranks := rfl
@[simp] theorem stepOn_heldReds (s : State) (t : Tid) (th : Thread) : (stepOn s t th).heldReds = s.heldReds := rfl
@[simp] theorem stepOn_rowStates (s : State) (t : Tid) (th : Thread) : (stepOn s t th).rowStates = s.rowStates := rfl
@[simp] theorem stepOn_lkops (s : State) (t : Tid) (th : Thread) : (stepOn s t th).lkops = s.lkops := rfl
@[simp] theorem stepOn_outMsgs (s : State) (t : Tid) (th : Thread) : (stepOn s t th).outMsgs = s.outMsgs := rfl
@[simp] theorem stepOn_epochs (s : State) (t : Tid) (th : Thread) : (stepOn s t th).epochs = s.epochs := rfl
@[simp] theorem stepOn_ports (s : State) (t : Tid) (th : Thread) : (stepOn s t th).ports = s.ports := rfl
@[simp] theorem stepOn_inbox (s : State) (t : Tid) (th : Thread) : (stepOn s t th).inbox = s.inbox := rfl
@[simp] theorem stepOn_meshes (s : State) (t : Tid) (th : Thread) : (stepOn s t th).meshes = s.meshes := rfl
@[simp] theorem stepOn_jobs (s : State) (t : Tid) (th : Thread) : (stepOn s t th).jobs = s.jobs := rfl
@[simp] theorem stepOn_reels (s : State) (t : Tid) (th : Thread) : (stepOn s t th).reels = s.reels := rfl
@[simp] theorem stepOn_ply (s : State) (t : Tid) (th : Thread) : (stepOn s t th).ply = s.ply := rfl
@[simp] theorem stepOn_windows (s : State) (t : Tid) (th : Thread) : (stepOn s t th).windows = s.windows := rfl
@[simp] theorem stepOn_unretire (s : State) (t : Tid) (th : Thread) : (stepOn s t th).unretire = s.unretire := rfl
@[simp] theorem stepOn_pcOut (s : State) (t : Tid) (th : Thread) : (stepOn s t th).pcOut = s.pcOut := rfl
@[simp] theorem stepOn_bcOut (s : State) (t : Tid) (th : Thread) : (stepOn s t th).bcOut = s.bcOut := rfl
@[simp] theorem stepOn_checking (s : State) (t : Tid) (th : Thread) : (stepOn s t th).checking = s.checking := rfl
@[simp] theorem stepOn_armed (s : State) (t : Tid) (th : Thread) : (stepOn s t th).armed = s.armed := rfl
@[simp] theorem stepOn_throttled (s : State) (t : Tid) (th : Thread) : (stepOn s t th).throttled = s.throttled := rfl
@[simp] theorem stepOn_fw (s : State) (t : Tid) (th : Thread) : (stepOn s t th).fw = s.fw := rfl
@[simp] theorem stepOn_bells (s : State) (t : Tid) (th : Thread) : (stepOn s t th).bells = s.bells := rfl
@[simp] theorem stepOn_failed (s : State) (t : Tid) (th : Thread) : (stepOn s t th).failed = s.failed := rfl
@[simp] theorem stepOn_lastExpiry (s : State) (t : Tid) (th : Thread) : (stepOn s t th).lastExpiry = s.lastExpiry := rfl
@[simp] theorem stepOn_resetting (s : State) (t : Tid) (th : Thread) : (stepOn s t th).resetting = s.resetting := rfl
@[simp] theorem stepOn_fticks (s : State) (t : Tid) (th : Thread) : (stepOn s t th).fticks = s.fticks := rfl
@[simp] theorem stepOn_treadleHeld (s : State) (t : Tid) (th : Thread) : (stepOn s t th).treadleHeld = s.treadleHeld := rfl
@[simp] theorem stepOn_onAlt (s : State) (t : Tid) (th : Thread) : (stepOn s t th).onAlt = s.onAlt := rfl
@[simp] theorem stepOn_lastMarker (s : State) (t : Tid) (th : Thread) : (stepOn s t th).lastMarker = s.lastMarker := rfl
@[simp] theorem stepOn_phase (s : State) (t : Tid) (th : Thread) : (stepOn s t th).phase = s.phase := rfl
@[simp] theorem stepOn_vfs (s : State) (t : Tid) (th : Thread) : (stepOn s t th).vfs = s.vfs := rfl
@[simp] theorem stepOn_evtPhase (s : State) (t : Tid) (th : Thread) : (stepOn s t th).evtPhase = s.evtPhase := rfl
@[simp] theorem stepOn_evtSeq (s : State) (t : Tid) (th : Thread) : (stepOn s t th).evtSeq = s.evtSeq := rfl
@[simp] theorem stepOn_flash (s : State) (t : Tid) (th : Thread) : (stepOn s t th).flash = s.flash := rfl
@[simp] theorem stepOn_sec (s : State) (t : Tid) (th : Thread) : (stepOn s t th).sec = s.sec := rfl
@[simp] theorem stepOn_power (s : State) (t : Tid) (th : Thread) : (stepOn s t th).power = s.power := rfl
@[simp] theorem stepOn_hostOut (s : State) (t : Tid) (th : Thread) : (stepOn s t th).hostOut = s.hostOut := rfl
@[simp] theorem stepOn_linkOut (s : State) (t : Tid) (th : Thread) : (stepOn s t th).linkOut = s.linkOut := rfl
@[simp] theorem stepOn_freeCtr (s : State) (t : Tid) (th : Thread) : (stepOn s t th).freeCtr = s.freeCtr := rfl
@[simp] theorem stepOn_pci (s : State) (t : Tid) (th : Thread) : (stepOn s t th).pci = s.pci := rfl
@[simp] theorem stepOn_hostWait (s : State) (t : Tid) (th : Thread) : (stepOn s t th).hostWait = s.hostWait := rfl
@[simp] theorem stepOn_tilesOut (s : State) (t : Tid) (th : Thread) : (stepOn s t th).tilesOut = s.tilesOut := rfl
@[simp] theorem stepOn_held (s : State) (t : Tid) (th : Thread) : (stepOn s t th).held = s.held := rfl
@[simp] theorem stepOn_lockedOnce (s : State) (t : Tid) (th : Thread) : (stepOn s t th).lockedOnce = s.lockedOnce := rfl
@[simp] theorem stepOn_parentLost (s : State) (t : Tid) (th : Thread) : (stepOn s t th).parentLost = s.parentLost := rfl
@[simp] theorem stepOn_sramUe (s : State) (t : Tid) (th : Thread) : (stepOn s t th).sramUe = s.sramUe := rfl
@[simp] theorem stepOn_poolWaited (s : State) (t : Tid) (th : Thread) : (stepOn s t th).poolWaited = s.poolWaited := rfl

@[simp] theorem setT_threads (s : State) (t : Tid) (th : Thread) :
    (setT s t th).threads = tabSet s.threads (Tid.key t) th := rfl
@[simp] theorem setC_ctxs (s : State) (c : Nat) (x : CtxSt) : (setC s c x).ctxs = tabSet s.ctxs c x := rfl
@[simp] theorem setRing_rings (s : State) (k : Nat) (x : RingSt) : (setRing s k x).rings = tabSet s.rings k x := rfl
@[simp] theorem toHost_hostOut (s : State) (o : HostOut) :
    (toHost s o).hostOut = if s.power.clkPcie then s.hostOut ++ [o] else s.hostOut := rfl
@[simp] theorem toLink_linkOut (s : State) (o : LinkOut) : (toLink s o).linkOut = s.linkOut ++ [o] := rfl
@[simp] theorem stepOn_seq (s : State) (t : Tid) (th : Thread) : (stepOn s t th).seq = s.seq + 1 := rfl

end Sys2Proof.Machine
end

