-- ==== Sys2Proof/Laws/Tables.lean ====
section
/-! SUPPORT. Sparse tables and byte memory: read after write, and the canonical form that every memory operation keeps. -/

namespace Sys2Proof.Machine

/-! ## Tables -/

/-- A key reads what was listed for it. -/
@[simp] theorem tabGet?_tabSet_self {α : Type} (t : Tab α) (k : Nat) (v : α) : tabGet? (tabSet t k v) k = some v := by
  induction t with
  | nil => simp [tabSet, tabPut, tabGet?]
  | cons x r ih =>
    obtain ⟨j, y⟩ := x
    simp only [tabSet, tabPut]
    split
    · simp [tabGet?]
    · split
      · simp [tabGet?]
      · rename_i h1 h2
        have h3 : ¬ j = k := fun e => h2 e.symm
        simp only [tabGet?, h3, if_false]
        exact ih

/-- Every other key reads as before. -/
theorem tabGet?_tabPut_other {α : Type} (t : Tab α) (k j : Nat) (v : Option α) (h : j ≠ k) :
    tabGet? (tabPut t k v) j = tabGet? t j := by
  have hk : ¬ k = j := fun e => h e.symm
  induction t with
  | nil => cases v <;> simp [tabPut, tabGet?, hk]
  | cons x r ih =>
    obtain ⟨i, y⟩ := x
    simp only [tabPut]
    split
    · cases v <;> simp [tabGet?, hk]
    · split
      · rename_i h1 h2
        subst h2
        cases v <;> simp [tabGet?, hk]
      · simp only [tabGet?]
        split
        · rfl
        · exact ih

/-- Every other key reads as before it was listed. -/
@[simp] theorem tabGet?_tabSet_other {α : Type} (t : Tab α) (k j : Nat) (v : α) (h : j ≠ k) :
    tabGet? (tabSet t k v) j = tabGet? t j := tabGet?_tabPut_other t k j (some v) h

/-- A key with a default reads what was listed for it. -/
@[simp] theorem tabGet_tabSet_self {α : Type} (d : α) (t : Tab α) (k : Nat) (v : α) : tabGet d (tabSet t k v) k = v := by
  simp [tabGet]

/-- Every other key with a default reads as before. -/
@[simp] theorem tabGet_tabSet_other {α : Type} (d : α) (t : Tab α) (k j : Nat) (v : α) (h : j ≠ k) :
    tabGet d (tabSet t k v) j = tabGet d t j := by
  simp [tabGet, h]

/-- A larger bound is a stronger one. -/
theorem tabAbove_mono {α : Type} {lo lo' : Nat} (h : lo' ≤ lo) : ∀ {t : Tab α}, tabAbove lo t = true → tabAbove lo' t = true
  | [], _ => rfl
  | (j, y) :: r, ht => by
    simp only [tabAbove, Bool.and_eq_true, decide_eq_true_eq] at ht ⊢
    exact ⟨by omega, ht.2⟩

/-- A table above a bound is rising. -/
theorem tabRising_of_above {α : Type} {lo : Nat} : ∀ {t : Tab α}, tabAbove lo t = true → tabRising t = true
  | [], _ => rfl
  | (_, _) :: _, h => by
    simp only [tabAbove, Bool.and_eq_true] at h
    exact h.2

/-- Listing or removing a key above the bound keeps the bound. -/
theorem tabAbove_tabPut {α : Type} {lo k : Nat} (v : Option α) (hk : lo < k) :
    ∀ {t : Tab α}, tabAbove lo t = true → tabAbove lo (tabPut t k v) = true
  | [], _ => by cases v <;> simp [tabPut, tabAbove, hk]
  | (j, y) :: r, h => by
    simp only [tabAbove, Bool.and_eq_true, decide_eq_true_eq] at h
    simp only [tabPut]
    split
    · rename_i h1
      cases v <;> simp [tabAbove, h.1, h.2, hk, h1]
    · split
      · rename_i h1 h2
        subst h2
        cases v with
        | some x => simp [tabAbove, hk, h.2]
        | none => exact tabAbove_mono (Nat.le_of_lt hk) h.2
      · have h3 : j < k := by omega
        simp only [tabAbove, Bool.and_eq_true, decide_eq_true_eq]
        exact ⟨h.1, tabAbove_tabPut v h3 h.2⟩

/-- Listing or removing a key keeps the keys rising. -/
theorem tabRising_tabPut {α : Type} (k : Nat) (v : Option α) {t : Tab α} (h : tabRising t = true) :
    tabRising (tabPut t k v) = true := by
  cases t with
  | nil => cases v <;> simp [tabPut, tabRising, tabAbove]
  | cons x r =>
    obtain ⟨j, y⟩ := x
    simp only [tabRising] at h
    simp only [tabPut]
    split
    · rename_i h1
      cases v with
      | some x => simp [tabRising, tabAbove, h1, h]
      | none => simpa [tabRising] using h
    · split
      · rename_i h1 h2
        subst h2
        cases v with
        | some x => simpa [tabRising] using h
        | none => exact tabRising_of_above h
      · have h3 : j < k := by omega
        simpa [tabRising] using tabAbove_tabPut v h3 h

/-- A table with entries removed stays above its bound. -/
theorem tabAbove_filter {α : Type} (p : Nat × α → Bool) :
    ∀ {lo : Nat} {t : Tab α}, tabAbove lo t = true → tabAbove lo (t.filter p) = true
  | _, [], _ => rfl
  | lo, (j, y) :: r, h => by
    simp only [tabAbove, Bool.and_eq_true, decide_eq_true_eq] at h
    by_cases hp : p (j, y) = true
    · simp only [List.filter_cons, hp, if_true, tabAbove, Bool.and_eq_true, decide_eq_true_eq]
      exact ⟨h.1, tabAbove_filter p h.2⟩
    · simp only [List.filter_cons, hp]
      exact tabAbove_filter p (tabAbove_mono (Nat.le_of_lt h.1) h.2)

/-- A table with entries removed stays rising. -/
theorem tabRising_filter {α : Type} (p : Nat × α → Bool) {t : Tab α} (h : tabRising t = true) :
    tabRising (t.filter p) = true := by
  cases t with
  | nil => rfl
  | cons x r =>
    obtain ⟨j, y⟩ := x
    simp only [tabRising] at h
    by_cases hp : p (j, y) = true
    · simp only [List.filter_cons, hp, if_true, tabRising]
      exact tabAbove_filter p h
    · simp only [List.filter_cons, hp]
      exact tabRising_of_above (tabAbove_filter p h)

/-! ## Byte memory -/

/-- A property of every entry survives a change of one key that has it. -/
theorem all_tabPut {α : Type} (p : Nat × α → Bool) (k : Nat) (v : Option α) (hv : ∀ x, v = some x → p (k, x) = true) :
    ∀ {t : Tab α}, t.all p = true → (tabPut t k v).all p = true
  | [], _ => by
    cases v with
    | none => rfl
    | some x => simp [tabPut, hv x rfl]
  | (j, y) :: r, h => by
    simp only [List.all_cons, Bool.and_eq_true] at h
    have ih := all_tabPut p k v hv h.2
    simp only [tabPut]
    split
    · cases v with
      | none => simp only [List.all_cons, Bool.and_eq_true]; exact h
      | some x => simp only [List.all_cons, Bool.and_eq_true]; exact ⟨hv x rfl, h⟩
    · split
      · cases v with
        | none => exact h.2
        | some x => simp only [List.all_cons, Bool.and_eq_true]; exact ⟨hv x rfl, h.2⟩
      · simp only [List.all_cons, Bool.and_eq_true]
        exact ⟨h.1, ih⟩

/-- A byte written keeps the canonical form. -/
theorem Memory.wf_memPut {m : Memory} (a : Nat) (b : Byte) (h : Memory.wf m = true) : Memory.wf (memPut m a b) = true := by
  simp only [Memory.wf, Bool.and_eq_true] at h ⊢
  refine ⟨tabRising_tabPut _ _ h.1, all_tabPut _ _ _ ?_ h.2⟩
  intro x hx
  split at hx
  · exact absurd hx (by simp)
  · rename_i hb
    simp only [Option.some.injEq] at hx
    subst hx
    simpa using hb

/-- Bytes written keep the canonical form. -/
theorem Memory.wf_memWrite : ∀ (bs : List Byte) {m : Memory} (a : Nat), Memory.wf m = true → Memory.wf (memWrite m a bs) = true
  | [], _, _, h => h
  | b :: bs, _, a, h => Memory.wf_memWrite bs (a + 1) (Memory.wf_memPut a b h)

/-- Entries removed keep the canonical form. -/
theorem Memory.wf_filter {m : Memory} (p : Host.Cell → Bool) (h : Memory.wf m = true) : Memory.wf (m.filter p) = true := by
  simp only [Memory.wf, Bool.and_eq_true] at h ⊢
  refine ⟨tabRising_filter p h.1, ?_⟩
  rw [List.all_eq_true] at h ⊢
  intro x hx
  exact h.2 x (List.mem_of_mem_filter hx)

/-- Clearing a range keeps the canonical form. -/
theorem Memory.wf_memClear {m : Memory} (a n : Nat) (h : Memory.wf m = true) : Memory.wf (memClear m a n) = true :=
  Memory.wf_filter _ h

/-- Moving every key down by `d` keeps the keys rising, where none is below `d`. -/
theorem tabAbove_map_sub {α : Type} (d : Nat) :
    ∀ {t : Tab α} {lo : Nat}, d ≤ lo → tabAbove lo t = true → tabAbove (lo - d) (t.map (fun x => (x.1 - d, x.2))) = true
  | [], _, _, _ => rfl
  | (j, y) :: r, lo, hd, h => by
    simp only [tabAbove, Bool.and_eq_true, decide_eq_true_eq] at h
    simp only [List.map_cons, tabAbove, Bool.and_eq_true, decide_eq_true_eq]
    exact ⟨by omega, tabAbove_map_sub d (by omega) h.2⟩

/-- A slice of a memory has the canonical form. -/
theorem Memory.wf_memSlice {m : Memory} (a n : Nat) (h : Memory.wf m = true) : Memory.wf (memSlice m a n) = true := by
  have hf := Memory.wf_filter (fun c => decide (a ≤ c.1) && decide (c.1 < a + n)) h
  unfold memSlice
  generalize hg : m.filter (fun c => decide (a ≤ c.1) && decide (c.1 < a + n)) = f at hf
  have hlo : ∀ x ∈ f, a ≤ x.1 := by
    intro x hx
    rw [← hg, List.mem_filter] at hx
    have := hx.2
    simp only [Bool.and_eq_true, decide_eq_true_eq] at this
    exact this.1
  simp only [Memory.wf, Bool.and_eq_true] at hf ⊢
  refine ⟨?_, ?_⟩
  · cases f with
    | nil => rfl
    | cons x r =>
      obtain ⟨j, y⟩ := x
      simp only [tabRising] at hf
      have hj : a ≤ j := hlo (j, y) (by simp)
      simpa [tabRising] using tabAbove_map_sub a hj hf.1
  · rw [List.all_eq_true] at hf ⊢
    intro x hx
    obtain ⟨y, hy, rfl⟩ := List.mem_map.mp hx
    exact hf.2 y hy

/-- The bytes of a memory written from an address on keep the canonical form. -/
theorem Memory.wf_memPaste : ∀ (x : Memory) {m : Memory} (a : Nat), Memory.wf m = true → Memory.wf (memPaste m a x) = true
  | [], _, _, h => h
  | c :: r, _, a, h => Memory.wf_memPaste r a (Memory.wf_memPut (a + c.1) c.2 h)

/-- The empty memory has the canonical form. -/
theorem Memory.wf_nil : Memory.wf [] = true := rfl

/-- Another address reads as before a byte was written. -/
theorem memByte_memPut_other (m : Memory) (a k : Nat) (b : Byte) (h : k ≠ a) : memByte (memPut m a b) k = memByte m k := by
  simp [memByte, memPut, tabGet, tabGet?_tabPut_other _ _ _ _ h]

/-- An address above every listed key is not listed. -/
theorem tabGet?_above {α : Type} : ∀ {t : Tab α} {lo k : Nat}, tabAbove lo t = true → k ≤ lo → tabGet? t k = none
  | [], _, _, _, _ => rfl
  | (j, y) :: r, lo, k, h, hk => by
    simp only [tabAbove, Bool.and_eq_true, decide_eq_true_eq] at h
    have : ¬ j = k := by omega
    simp only [tabGet?, this, if_false]
    exact tabGet?_above h.2 (by omega)

/-- A removed key is not listed. -/
theorem tabGet?_tabDel_self {α : Type} {t : Tab α} (k : Nat) (h : tabRising t = true) : tabGet? (tabDel t k) k = none := by
  induction t with
  | nil => rfl
  | cons x r ih =>
    obtain ⟨j, y⟩ := x
    simp only [tabRising] at h
    simp only [tabDel, tabPut]
    split
    · rename_i h1
      have h2 : ¬ j = k := by omega
      simp only [tabGet?, h2, if_false]
      exact tabGet?_above h (by omega)
    · split
      · rename_i h1 h2
        subst h2
        exact tabGet?_above h (Nat.le_refl _)
      · rename_i h1 h2
        have h3 : ¬ j = k := fun e => h2 e.symm
        simp only [tabGet?, h3, if_false]
        exact ih (tabRising_of_above h)

/-- An address reads the byte written there. -/
theorem memByte_memPut_self {m : Memory} (a : Nat) (b : Byte) (h : Memory.wf m = true) : memByte (memPut m a b) a = b := by
  simp only [Memory.wf, Bool.and_eq_true] at h
  unfold memByte memPut tabGet
  split
  · rename_i hb
    have := tabGet?_tabDel_self a h.1
    simp only [tabDel] at this
    simp [this, hb]
  · have := tabGet?_tabSet_self m a b
    simp only [tabSet] at this
    simp [this]

/-- An address below the range, or above it, reads as before bytes were written. -/
theorem memByte_memWrite_other : ∀ (bs : List Byte) (m : Memory) (a k : Nat), k < a ∨ a + bs.length ≤ k →
    memByte (memWrite m a bs) k = memByte m k
  | [], _, _, _, _ => rfl
  | b :: bs, m, a, k, h => by
    simp only [List.length_cons] at h
    simp only [memWrite]
    rw [memByte_memWrite_other bs _ (a + 1) k (by omega), memByte_memPut_other _ _ _ _ (by omega)]

/-- A range reads the bytes written to it. -/
theorem memRead_memWrite : ∀ (bs : List Byte) {m : Memory} (a : Nat), Memory.wf m = true →
    memRead (memWrite m a bs) a bs.length = bs
  | [], _, _, _ => rfl
  | b :: bs, m, a, h => by
    have hw := Memory.wf_memPut a b h
    have h1 : memByte (memWrite (memPut m a b) (a + 1) bs) a = b := by
      rw [memByte_memWrite_other bs _ (a + 1) a (by omega)]
      exact memByte_memPut_self a b h
    simp only [memWrite, List.length_cons, memRead, h1]
    rw [memRead_memWrite bs (a + 1) hw]

end Sys2Proof.Machine
end

