-- ==== Sys2Proof/Laws/State.lean ====
section
/-! SUPPORT. The updates of the state's parts: what each leaves, and what is read after it. -/

namespace Sys2Proof.Machine

/-! ## Threads, contexts, rings -/

/-- A thread reads what was written for it. -/
@[simp] theorem getT?_setT_self (s : State) (t : Tid) (th : Thread) : getT? (setT s t th) t = some th := by
  simp [getT?, setT]

/-- Two threads have different keys. -/
theorem Tid.key_inj {t u : Tid} (h : Tid.key t = Tid.key u) : t = u := by
  obtain ⟨c, l⟩ := t
  obtain ⟨d, k⟩ := u
  simp only [Tid.key] at h
  have h1 : c.val = d.val := by omega
  have h2 : l.val = k.val := by omega
  rw [Fin.ext h1, Fin.ext h2]

/-- Another thread reads as before. -/
theorem getT?_setT_other (s : State) (t u : Tid) (th : Thread) (h : u ≠ t) : getT? (setT s t th) u = getT? s u := by
  have : Tid.key u ≠ Tid.key t := fun e => h (Tid.key_inj e)
  simp [getT?, setT, this]

/-- A context reads what was written for it. -/
@[simp] theorem getC_setC_self (s : State) (c : Nat) (x : CtxSt) : getC (setC s c x) c = x := by
  simp [getC, setC]

/-- Another context reads as before. -/
theorem getC_setC_other (s : State) (c d : Nat) (x : CtxSt) (h : d ≠ c) : getC (setC s c x) d = getC s d := by
  simp [getC, setC, h]

/-- A ring reads what was written for it. -/
@[simp] theorem getRing_setRing_self (s : State) (k : Nat) (x : RingSt) : getRing (setRing s k x) k = x := by
  simp [getRing, setRing]

/-- Another ring reads as before. -/
theorem getRing_setRing_other (s : State) (k j : Nat) (x : RingSt) (h : j ≠ k) : getRing (setRing s k x) j = getRing s j := by
  simp [getRing, setRing, h]

end Sys2Proof.Machine
end

