-- ==== Sys2Proof/Laws/Issue.lean ====
section
/-! SUPPORT. What the shared frames of a meaning can do: an instruction of a thread, an event, a check. -/

namespace Sys2Proof.Machine

/-- A check that holds goes on. -/
@[simp] theorem can_ok (b : Bool) (why : String) (h : b = true) : can b why = .ok () := by simp [can, need, h]

/-- A check that holds raises no fault. -/
@[simp] theorem needF_ok (s : State) (b : Bool) (f : PFault) (h : b = true) : needF s b f = .ok () := by simp [needF, need, h]

/-- A decode check that holds raises no fault. -/
@[simp] theorem dec_ok (s : State) (b : Bool) (h : b = true) : dec s b = .ok () := by simp [dec, needF, need, h]

/-- s0 is always ready. -/
@[simp] theorem ready_zero (th : Thread) : Ready th 0 := by simp [Ready, regPending]

/-- A register that no load writes is read at once. -/
theorem src_ready {th : Thread} {v : BitVec 16} (h : Ready th v) : src th v = .ok (reg th v.toNat) := by
  simp only [Ready] at h
  simp [src, can, need, h, bind, Except.bind]

/-- An instruction of a thread that issues: it completes, waits, or faults, as its meaning says. -/
theorem runThread_issues {s : State} {t : Tid} {th : Thread} (h : Issues s t th) (k : State → Thread → Ex State) :
    runThread s t k = match k (atIssue s t) th with
      | .ok s' => .next s'
      | .error (.no why) => .refused (.notEnabled why)
      | .error (.fault s' f) => .next (progFault s' t th.pc f) := by
  have h3 : (th.pastEnd || decide ((getC s t.ctx.val).tableWords ≤ th.pc.toNat)) = false := by
    have := h.inTable
    simp [h.notPast, this]
  simp only [runThread, h.here, h.may, if_true, h3, Bool.false_eq_true, if_false, atIssue] <;> rfl

/-- An instruction whose meaning goes on completes in the state it answers. -/
theorem runThread_ok {s : State} {t : Tid} {th : Thread} (h : Issues s t th) {k : State → Thread → Ex State} {s' : State}
    (hk : k (atIssue s t) th = .ok s') : runThread s t k = .next s' := by
  rw [runThread_issues h, hk]

/-- An instruction whose meaning faults tears its context down. -/
theorem runThread_fault {s : State} {t : Tid} {th : Thread} (h : Issues s t th) {k : State → Thread → Ex State} {s' : State}
    {f : PFault} (hk : k (atIssue s t) th = .error (.fault s' f)) :
    runThread s t k = .next (progFault s' t th.pc f) := by
  rw [runThread_issues h, hk]

/-- What an instruction of a thread can answer. -/
theorem runThread_next {s s' : State} {t : Tid} {k : State → Thread → Ex State} (h : runThread s t k = .next s') :
    ∃ th, getT? s t = some th ∧ canIssue s t th = true ∧
      (((th.pastEnd = true ∨ (getC s t.ctx.val).tableWords ≤ th.pc.toNat) ∧ s' = progFault (atIssue s t) t th.pc (fAddr 0)) ∨
       k (atIssue s t) th = .ok s' ∨
       ∃ s1 f, k (atIssue s t) th = .error (.fault s1 f) ∧ s' = progFault s1 t th.pc f) := by
  unfold runThread at h
  split at h
  · cases h
  · rename_i th hth
    refine ⟨th, hth, ?_⟩
    split at h
    · rename_i hc
      refine ⟨hc, ?_⟩
      simp only at h
      split at h
      · rename_i ht
        simp only [Host.Outcome.next.injEq] at h
        exact .inl ⟨by simpa using ht, h.symm⟩
      · cases hk : k (firstIssue s t.ctx.val) th with
        | ok s1 =>
          simp only [hk, Host.Outcome.next.injEq] at h
          exact .inr (.inl (by rw [atIssue, hk, h]))
        | error e =>
          cases e with
          | no why => simp [hk] at h
          | fault s1 f =>
            simp only [hk, Host.Outcome.next.injEq] at h
            exact .inr (.inr ⟨s1, f, hk, h.symm⟩)
    · cases h

/-- An event that occurs. -/
@[simp] theorem runEvent_ok (s : State) (t : Tid) (pc : Half) : runEvent (.ok s) t pc = .next s := rfl

/-- An event that occurs and faults no thread. -/
@[simp] theorem runPlain_ok (s : State) : runPlain (.ok s) = .next s := rfl

/-- A step takes the front of the queue. -/
theorem step_cons (c : Instr) (rest : List Instr) (s : State) (h : s.pending = c :: rest) :
    step s = exec c { s with pending := rest } := by simp [step, h]

/-- A step idles on an empty queue. -/
theorem step_nil (s : State) (h : s.pending = []) : step s = .next s := by simp [step, h]

end Sys2Proof.Machine
end

