-- ==== Sys2Proof/Laws/Region.lean ====
section
/-! SUPPORT. The authenticated region of the flash and the counter (19): what a write of the region leaves, and what an accepted counter
does. -/

namespace Sys2Proof.Machine

/-- A region that has been written passes its check. -/
@[simp] theorem authGood_putAuth (f : FlashSt) (g : AuthRegion → AuthRegion) : authGood (putAuth f g) = true := by
  simp [authGood, putAuth]

/-- The region of a new flash passes its check. -/
@[simp] theorem authGood_new : authGood {} = true := by
  simp [authGood]

/-- A region that passes its check is written without an event. -/
theorem writeAuth_good (s : State) (g : AuthRegion → AuthRegion) (h : authGood s.flash = true) :
    writeAuth s g = { s with flash := putAuth s.flash g } := by
  rw [writeAuth, if_pos h]

/-- A new value of C leaves the flash. -/
@[simp] theorem setCtr_flash (s : State) (c : Word) : (setCtr s c).flash = s.flash := rfl

/-- An accepted counter raises the reservation first where it has come to it, and then becomes C (R448). -/
theorem persist_good (s : State) (r : Rec) (hk : critKind r ≠ 5) (hg : authGood s.flash = true) :
    persist s r = setCtr { s with
      sec := { s.sec with failRun := 0 }
      flash := if s.flash.auth.cres ≤ r.w2.toNat then
        putAuth s.flash (fun a => { a with cres := min (r.w2.toNat + 0x10000) lastCtr.toNat }) else s.flash } r.w2 := by
  have h1 : (critKind r = 5) = False := eq_false hk
  by_cases h : s.flash.auth.cres ≤ r.w2.toNat
  · simp only [persist, h1, h, if_true, if_false, writeAuth_good _ _ (show authGood ({ s with sec := { s.sec with failRun := 0 } } : State).flash = true from hg)]
  · simp only [persist, h1, h, if_false]

/-- The region still passes its check. -/
theorem persist_authGood (s : State) (r : Rec) (hk : critKind r ≠ 5) (hg : authGood s.flash = true) :
    authGood (persist s r).flash = true := by
  rw [persist_good s r hk hg, setCtr_flash]
  by_cases h : s.flash.auth.cres ≤ r.w2.toNat
  · simp only [h, if_true, authGood_putAuth]
  · simp only [h, if_false, hg]

/-- The reservation after an accepted counter. -/
theorem persist_cres (s : State) (r : Rec) (hk : critKind r ≠ 5) (hg : authGood s.flash = true) :
    (persist s r).flash.auth.cres =
      if s.flash.auth.cres ≤ r.w2.toNat then min (r.w2.toNat + 0x10000) lastCtr.toNat else s.flash.auth.cres := by
  rw [persist_good s r hk hg, setCtr_flash]
  by_cases h : s.flash.auth.cres ≤ r.w2.toNat
  · simp only [h, if_true, putAuth]
  · simp only [h, if_false]

end Sys2Proof.Machine
end

