-- ==== Sys2Proof/Machine/Jtag.lean ====
section
/-! DEFINITION. The JTAG port (19, R450): its instructions, which of them a debug level grants, and what they read. The table has no row for
it, so no command reaches these definitions (DESIGN CHOICE, log 135). -/

namespace Sys2Proof.Machine

/-- An instruction of the port: those of IEEE 1149.1, those of IEEE 1149.6 on the AC-coupled lanes, and the reads of the debug levels. -/
inductive JtagOp where
  | bypass | idcode | samplePreload | extest | acTest
  | register (off : Nat)
  | flyer (t : Tid)
  | sram (spindle : Fin 64) (vector : Bool)
  | memory (a : Nat)
  | hub
  deriving DecidableEq, Repr

/-- What an instruction shifts out: bits of a pin or scan register, a register, a thread, the bytes of a memory, or the hub's state. -/
inductive JtagData where
  | bits (n : Nat) (v : Nat)
  | register (v : Word)
  | flyer (th : Option Thread)
  | sram (m : Memory)
  | memory (b : Byte)
  | hub (sec : SecSt) (flash : FlashSt)
  deriving DecidableEq, Repr

/-- The debug level in force, and the partition of level 2. -/
def debugLevel (s : State) : Nat := rfld s .secStatus 9 8
def debugPart (s : State) : Nat := rfld s .secStatus 11 10

/-- Whether an instruction is available at the level in force. -/
def jtagMay (s : State) : JtagOp → Bool
  | .bypass | .idcode | .samplePreload => true
  | .extest | .acTest | .register _ => decide (1 ≤ debugLevel s)
  | .flyer t => decide (2 ≤ debugLevel s) && partOf t.ctx == debugPart s
  | .sram i _ => decide (2 ≤ debugLevel s) && pHasQ s (debugPart s) (i / 16)
  | .memory a => decide (2 ≤ debugLevel s) && mayAccessRange s (debugPart s) a 1
  | .hub => decide (3 ≤ debugLevel s)

/-- The levels of the pins that the V12 drives or samples: PROCHOT_N, THERMTRIP_N, SMB_ALERT_N, TRD_SYNC_OUT, PWROK, GPIO[15:0]. -/
def pinLevels (p : PowerSt) : Nat :=
  flagsOf [p.prochotN, p.thermtripN, p.alertN, p.syncOut, p.pwrok] + p.gpio.toNat * 32

/-- What an instruction shifts out; none where the level does not grant it. -/
def jtagRead (s : State) (op : JtagOp) : Option JtagData :=
  if !jtagMay s op then none
  else some (match op with
    | .bypass => .bits 1 0
    | .idcode => .bits 32 (idcode s)
    | .samplePreload | .extest | .acTest => .bits 21 (pinLevels s.power)
    | .register off => .register (match regAt off with
        | some r => regValue s r
        | none => 0)
    | .flyer t => .flyer (getT? s t)
    | .sram i vector => .sram (tabGet [] (if vector then s.scratch else s.bobbin) i)
    | .memory a => .memory ((rd s a 1).headD 0)
    | .hub => .hub s.sec s.flash)

end Sys2Proof.Machine
end

