-- ==== Sys2Proof/Tests/Slice0.lean ====
section
/-! SUPPORT. The model's own tests. First, for every obligation that has hypotheses, a theorem `witness_<Name>` with states
and operands that meet them, at the values where its clauses branch; then the ill-formed commands that `Instr.wf` refuses;
then the worked examples of the spec. -/

-- One theorem at a time: the checks of many at once would need many stacks.
set_option Elab.async false

open Sys2Proof Sys2Proof.Machine

namespace Sys2Proof.Tests

/-! ## Small states and words -/

/-- Thread 0 of context 0. -/
def t0 : Tid := ⟨0, 0⟩

/-- A thread whose registers `s1`, `s2`, … hold the values given. -/
def thread (vs : List Word) : Thread :=
  (vs.zipIdx 1).foldl (fun th x => setReg th x.2 x.1) {}

/-- The memory that holds words at their addresses. -/
def cells (words : List (Nat × Word)) : Memory :=
  (words.insertionSort (fun a b => a.1 ≤ b.1)).flatMap (fun w =>
    ((wordBytes w.2).zipIdx.map (fun b => (w.1 + b.2, b.1))).filter (fun c => c.2 != 0))

/-- Partition 0 with quarter 0 and every other unit, a handle table of 16 entries at address 0, and context 0 of class `cls` in
state `st`, with memory words given by their addresses. -/
def ready (cls : Fin 4) (st : CState) (words : List (Nat × Word)) : State :=
  let s0 : State := setR (setR State.reset (.prtComp 0) 0x8001FFFFFFFFFF00) (.htab 0) 0x000F000000000000
  { s0 with pmap := [(0, List.range 16)], ctxs := [(0, { st := st, cls := cls })], mem := cells words }

/-- Context 0 runs with the thread `th` on its logical spindle 0. -/
def runs (th : Thread) (words : List (Nat × Word) := []) (cls : Fin 4 := 3) : State := setT (ready cls .running words) t0 th

/-- The same with registers. -/
def running (vs : List Word) (words : List (Nat × Word) := []) : State := runs (thread vs) words

/-- The fields of a word (R247). -/
def word (variant : BitVec 8) (ext : BitVec 16) (sl : List (BitVec 16)) : Fields :=
  let k (i : Nat) := (sl[i]?).getD 0
  { variant := variant, ext := ext, sl0 := k 0, sl1 := k 1, sl2 := k 2, sl3 := k 3, sl4 := k 4, sl5 := k 5 }

/-- The words of handle-table entry `i` (R225): format and rank, base, and (extent, stride) of each dimension. -/
def entry (i fmt : Nat) (base : Nat) (dims : List (Nat × Nat)) (w1 : Nat := 0) (w2 : Nat := 0) : List (Nat × Word) :=
  let ws := [base, w1 + dims.length * 256 + fmt * 16 + 1, w2] ++ dims.map (fun (d : Nat × Nat) => d.2 * 16777216 + d.1 - 1)
  ws.zipIdx.map (fun (x : Nat × Nat) => (64 * i + 8 * x.2, BitVec.ofNat 64 x.1))

/-- A vector operand word (R274): rows, length, format, offset in units of 64 bytes. -/
def vop (rows len fmt off : Nat) : Word :=
  BitVec.ofNat 64 ((rows - 1) * 2 ^ 42 + (len - 1) * 2 ^ 24 + fmt * 2 ^ 20 + off * 2 ^ 6)

/-- A region word (R278): slot size in units of 64 bytes, slots, flags from bit 48, offset. -/
def region (size count flags off : Nat) : Word :=
  BitVec.ofNat 64 (flags * 2 ^ 48 + (count - 1) * 2 ^ 40 + (size - 1) * 2 ^ 24 + off)

/-- A command completes and its next state has a property. -/
def after (i : Instr) (s : State) (p : State → Bool) : Bool :=
  match exec i s with
  | .next s' => p s'
  | _ => false

/-- A check or a read of an operand succeeds, with a value that has a property. -/
def sat {α : Type} (r : Ex α) (p : α → Bool := fun _ => true) : Bool := match r with
  | .ok x => p x
  | .error _ => false

/-- The thread `t0` of a state. -/
def th0 (s : State) : Thread := (getT? s t0).getD {}

/-- Context 0 is torn down for a fault, or has been. -/
def torn (s : State) : Bool := (getC s 0).st != .running

theorem issuesOf {s : State} {th : Thread}
    (h : (getT? s t0 == some th && canIssue s t0 th && decide (th.pc.toNat < (getC s 0).tableWords) && !th.pastEnd) = true) :
    Issues s t0 th := by
  simp only [Bool.and_eq_true, decide_eq_true_eq, beq_iff_eq, Bool.not_eq_true'] at h
  exact ⟨h.1.1.1, h.1.1.2, h.1.2, h.2⟩

/-! ## The queue and reset -/

/-- Both queues of `StepTakesFront` occur: one with a command in front, and the empty one. -/
theorem witness_StepTakesFront :
    (State.reset.pending = []) ∧ ({ State.reset with pending := [.vauxLoss] } : State).pending = [.vauxLoss] := ⟨rfl, rfl⟩

/-! ## Scalar instructions and control -/

/-- `ScalarAluResults`: the register form, the immediate form with an unsigned comparison, both forms of `li`; a write to
s63, and a write to s0. -/
theorem witness_ScalarAluResults : Issues (running [5, 7]) t0 (thread [5, 7]) ∧ Ready (thread [5, 7]) 1 ∧ Ready (thread [5, 7]) 2 ∧
    formOk (word 0 0 [3, 1, 2]) 1 0 [.scalar, .scalar, .scalar] = true ∧
    formOk (word 1 0 [63, 1, 0xFFFF]) 1 0 [.scalar, .scalar, .imm] = true ∧
    formOk (word 3 0 [3, 1, 0x7FFF]) 3 0 [.scalar, .scalar, .imm] = true ∧
    formOk (word 0 0 [0, 0xFFFF, 1, 0x8000]) 1 0 [.scalar, .imm, .imm, .imm] = true ∧
    formOk (word 1 0 [63, 0xFFFF]) 1 0 [.scalar, .imm] = true ∧ (63 < 64 ∧ (63 : BitVec 16).toNat < 64) := by
  refine ⟨issuesOf (by decide +kernel), ?_⟩
  simp only [Ready]; decide +kernel

/-- `MovForms`: its four forms, each special value at both ends of its range, and an undefined form. -/
theorem witness_MovForms : Issues (running [5]) t0 (thread [5]) ∧ Ready (thread [5]) 1 ∧
    (fld (word 0 0 [63, 1]).ext 2 0 = 0 ∧ formOk (word 0 0 [63, 1]) 0 7 [.scalar, .scalar] = true) ∧
    (fld (word 0 1 [1, 3]).ext 2 0 = 1 ∧ formOk (word 0 1 [1, 3]) 0 7 [.scalar, .counter] = true) ∧
    (fld (word 0 2 [3, 1]).ext 2 0 = 2 ∧ formOk (word 0 2 [3, 1]) 0 7 [.counter, .scalar] = true) ∧
    ([0, 1, 2, 3, 4, 5, 6, 7, 0xFFFF].all (fun v =>
      fld (word 0 3 [1, v]).ext 2 0 == 3 && formOk (word 0 3 [1, v]) 0 7 [.scalar, .imm])) = true ∧
    4 ≤ fld (word 0 4 [1, 1]).ext 2 0 := by
  refine ⟨issuesOf (by decide +kernel), ?_⟩
  simp only [Ready]; decide +kernel

/-- `DecodeRefusals`: a form that breaks each rule. -/
theorem witness_DecodeRefusals : Issues (running [5]) t0 (thread [5]) ∧
    formOk (word 0 0 [64, 1, 1]) 1 0 [.scalar, .scalar, .scalar] = false ∧
    formOk (word 4 0 [1, 1, 1]) 3 0 [.scalar, .scalar, .scalar] = false ∧ formOk (word 0 0 [1]) 0 0 [] = false ∧
    formOk (word 0 1 [1]) 0 0 [.imm] = false ∧ (word 0 0 [0]).sl0 = 0 ∧ 255 < (word 0 0 [256]).sl0.toNat ∧
    formOk (word 0 0 [64]) 0 0 [.scalar] = false ∧ formOk (word 0x10 0 []) 0xF 0 [] = false ∧ (word 0 0 []).variant = 0 := by
  refine ⟨issuesOf (by decide +kernel), ?_⟩
  decide +kernel

/-- `DecodeRefusals`: a first slot of each kind that has a range and is out of it, and the selections that have no meaning, at their first value. -/
theorem witness_DecodeRefusals_forms :
    let f := word 0 0 [0xFFFF, 1, 1, 1, 1, 1]
    (([[.scalar], [.stream], [.counter], [.localSem], [.sharedSem], [.group 2], [.group 4], [.unused]] : List (List SlotK)).all (fun k =>
      !formOk f 0xFF 0xFFFF (k ++ [.imm, .imm, .imm, .imm, .imm]))) = true ∧
    (fld (word 0 6 []).ext 3 0 = 6 ∧ fld (word 0 0x30 []).ext 5 4 = 3 ∧ 4 < (word 0 0 [1, 1, 5]).sl2.toNat ∧ 8 ≤ (word 1 0 [1, 1, 8]).sl2.toNat ∧
      64 < (word 0 0 [1, 1, 65]).sl2.toNat ∧ fld (word 7 0 []).variant 2 0 = 7 ∧ fld (word 9 0 []).variant 2 0 = 1 ∧ fld (word 3 0 []).variant 1 0 = 3 ∧
      4096 < fld (word 0 4097 []).ext 12 0 ∧ fld (word 0x18 0 []).variant 4 3 = 3 ∧ 5 ≤ fld (word 5 0 []).variant 2 0 ∧
      64 < fld (word 65 0 []).variant 6 0 ∧ 512 < fld (word 0 513 []).ext 9 0 ∧ fld (word 0 7 []).ext 2 0 = 7 ∧
      fld (word 0 0 [1, 1, 0x200]).sl2 15 9 ≠ 0 ∧ 16 ≤ (word 0 0 [1, 1, 1, 1, 16]).sl4.toNat) := by
  decide +kernel

/-- `LoadStoreResults` and `StoreFrame`: an access to memory and one to the host window, of 8 and of 1 byte, and a misaligned
one. -/
theorem witness_LoadStoreResults :
    let s := running [0x1000, 0x800000000000, 0x1001]
    let th := thread [0x1000, 0x800000000000, 0x1001]
    Issues s t0 th ∧ Ready th 1 ∧ Ready th 2 ∧ Ready th 3 ∧
    formOk (word 7 0 [4, 1, 8]) 7 0 [.scalar, .scalar, .imm] = true ∧ formOk (word 3 0 [4, 1, 8]) 3 0 [.scalar, .scalar, .imm] = true ∧
    (isLocal s 0x1008 = true ∧ 0x1008 % 8 = 0 ∧ okRange s 0 0x1008 8 = true ∧ 0x1008 < hostBase ∧
      sat (admitPages s (quarterOf s t0) 0 0x1008 8 false) (fun s2 => !ueIn s2 0x1008 8) = true ∧
      sat (admitPages (notReplayable s t0) (quarterOf s t0) 0 0x1008 8 true) = true) ∧
    (isLocal s 0x800000000000 = true ∧ okRange s 0 0x800000000000 1 = true ∧ hostBase ≤ 0x800000000000) ∧
    (isLocal s 0x1001 && 0x1001 % 8 == 0 && okRange s 0 0x1001 8) = false := by
  refine ⟨issuesOf (by decide +kernel), ?_⟩
  simp only [Ready]; decide +kernel

/-- `HandleAccessResults`: the handle in a slot and in a register, at both ends of the table; one word and the whole entry; an
entry that an open splice declares; registers beyond s56, an index beyond SIZE and a register with higher bits. -/
theorem witness_HandleAccessResults :
    let s := running [15]
    let x : Splice := { part := 0, slot := 0, gen := 1, opener := t0, committer := t0, decls := [⟨15, 0, 64, 64, 0x4000, []⟩] }
    let z : State := { s with splices := [x] }
    Issues s t0 (thread [15]) ∧ Issues z t0 (thread [15]) ∧ Ready (thread [15]) 1 ∧ ReadyG (thread [15]) 1 8 ∧
    (bit (word 1 0 [2, 0, 7]).variant 1 = false ∧ idxOk s 0 0 = true ∧ idxOk s 0 15 = true ∧
      bit (word 3 0 [2, 1, 7]).variant 1 = true ∧ (reg (thread [15]) 1).toNat = 15) ∧
    formOk (word 1 0 [2, 0, 7]) 3 0 [.scalar, .handle, .imm] = true ∧
    formOk (word 3 0 [2, 1, 7]) 3 0 [.scalar, .scalar, .imm] = true ∧
    formOk (word 2 0 [56, 1]) 3 0 [.scalar, .scalar, .unused] = true ∧
    formOk (word 3 0 [1, 1, 0]) 3 0 [.scalar, .scalar, .imm] = true ∧
    formOk (word 0 0 [15, 1]) 3 0 [.handle, .scalar, .unused] = true ∧
    (formOk (word 0 0 [57, 1]) 3 0 [.scalar, .handle, .unused] = true ∧ formOk (word 0 0 [15, 0]) 3 0 [.handle, .scalar, .unused] = true ∧
      ¬ (1 ≤ (57 : BitVec 16).toNat ∧ (57 : BitVec 16).toNat ≤ 56) ∧ ¬ (1 ≤ (0 : BitVec 16).toNat ∧ (0 : BitVec 16).toNat ≤ 56) ∧
      idxOk s 0 16 = false ∧ 65536 ≤ (reg (thread [65536]) 1).toNat ∧ Ready (thread [65536]) 1 ∧
      idxOk z 0 15 = true ∧ formOk (word 0 0 [15, 56]) 3 0 [.handle, .scalar, .unused] = true) ∧
    sat (readA s t0 (entryAddr s 0 15) 64) = true ∧ (declOf s 0 15).isNone = true ∧ (declOf z 0 15).isSome = true ∧
    sat (writeA (noteHset s t0 (entryAddr s 0 15)) t0 (entryAddr s 0 15) (wordBytes 15)) = true := by
  refine ⟨issuesOf (by decide +kernel), issuesOf (by decide +kernel), ?_⟩
  simp only [Ready, ReadyG]; decide +kernel

/-- `TransferResults`: each transfer inside and outside the instruction table, calls at depths 0 and 8, a return, and a branch
of each condition and kind. -/
theorem witness_TransferResults :
    let th := thread [5]
    let deep : Thread := { th with stack := List.replicate 8 1 }
    let k : State := setC (runs th) 0 { getC (runs th) 0 with tableWords := 6 }
    Issues k t0 th ∧ Issues (setT k t0 deep) t0 deep ∧ Ready th 1 ∧ (th.stack = [] ∧ th.stack.length < 8 ∧ 8 ≤ deep.stack.length) ∧
    inTable k 0 5 = true ∧ inTable k 0 6 = false ∧ inTable k 0 (-1) = false ∧
    formOk (word 0 0 []) 0 0 [] = true ∧ formOk (word 0 0 [5, 0]) 1 0 [.imm, .imm] = true ∧ formOk (word 1 0 [1]) 1 0 [.scalar] = true ∧
    ((List.range 6).all (fun c => (List.range 3).all (fun kind =>
      let f := word 0 (BitVec.ofNat 16 (64 + 16 * kind + c)) [1, 0xFFFF, 2, 0]
      formOk f 0 0x7F [if kind = 0 then .scalar else if kind = 1 then .counter else .localSem, .imm, .imm, .imm] &&
        fld f.ext 3 0 == c && fld f.ext 5 4 == kind && bit f.ext 6))) = true ∧
    formOk (word 0 0 [1, 1, 2, 0]) 0 0x7F [.scalar, .scalar, .imm, .imm] = true ∧
    6 ≤ fld (word 0 6 []).ext 3 0 ∧ fld (word 0 0x30 []).ext 5 4 = 3 := by
  refine ⟨issuesOf (by decide +kernel), issuesOf (by decide +kernel), ?_⟩
  simp only [Ready]; decide +kernel

/-- `LoopResults`: counts 0 and 65,535, a counter in use, an end outside the table; a word that ends no loop, and one that ends a
loop with counts 2 and 1. -/
theorem witness_LoopResults :
    let th := thread [5]
    let r : LoopRec := { active := true, start := 0, stop := 0, depth := 0 }
    let busy : Thread := { th with loops := th.loops.set 0 r }
    let k : State := setC (runs th) 0 { getC (runs th) 0 with tableWords := 6 }
    Issues k t0 th ∧ Issues (setT k t0 busy) t0 busy ∧ Ready th 1 ∧ (busy.loops.get 0).active = true ∧
    (th.loops.get 0).active = false ∧ inTable k 0 (0 + 5 : Nat) = true ∧ inTable k 0 (0 + 6 : Nat) = false ∧
    formOk (word 1 0 [0, 0xFFFF, 5]) 1 0 [.counter, .imm, .imm] = true ∧ formOk (word 1 0 [3, 0, 6]) 1 0 [.counter, .imm, .imm] = true ∧
    formOk (word 0 0 [0, 1, 5]) 1 0 [.counter, .scalar, .imm] = true ∧
    endingLoops th th.pc = [] ∧ endingLoops { busy with lc := busy.lc.set 0 2 } 0 = [0] ∧
    endingLoops { busy with lc := busy.lc.set 0 1 } 0 = [0] := by
  refine ⟨issuesOf (by decide +kernel), issuesOf (by decide +kernel), ?_⟩
  simp only [Ready]; decide +kernel

/-- `SemaphoreResults`: local and shared semaphores with a count that is enough and one too few, an undefined one, the classes
that R243 refuses, a signal to 65,535 and past it; blocked waits that are and are not served. -/
theorem witness_SemaphoreResults :
    let th : Thread := { thread [0] with sems := (thread [0]).sems.set 1 3 }
    let s := runs th
    let z (cls : Fin 4) (sc : Word) (n : BitVec 16) : State :=
      { setR (runs th [] cls) (.prtSem 0 2) (0x80000000 + sc * 0x10000) with sems := [(2, n)] }
    let b (sh : Bool) (amount : Nat) : Thread := { th with block := .sem sh (if sh then 2 else 1) amount 0 }
    Issues s t0 th ∧ Issues (z 3 1 3) t0 th ∧ Issues (z 0 1 3) t0 th ∧ Issues (z 1 1 65532) t0 th ∧ Ready th 1 ∧
    formOk (word 0 0 [1, 3]) 1 0 [.localSem, .imm] = true ∧ formOk (word 1 0 [2, 4]) 1 0 [.sharedSem, .imm] = true ∧
    formOk (word 1 0 [0, 2, 4]) 1 0 [.unused, .sharedSem, .imm] = true ∧
    formOk (word 0 0 [1, 1, 0xFFFF]) 1 0 [.scalar, .localSem, .imm] = true ∧ (th.sems.get 1).toNat = 3 ∧
    semDefined s 0 2 = false ∧ semDefined (z 3 1 3) 0 2 = true ∧ semClass (z 3 1 3) 0 2 < ctxCls (z 3 1 3) 0 ∧
    ctxCls (z 0 1 3) 0 < semClass (z 0 1 3) 0 2 ∧ ctxCls (z 1 1 65532) 0 = semClass (z 1 1 65532) 0 2 ∧
    sharedCount (z 1 1 65532) 0 2 + 3 < 65536 ∧ 65536 ≤ sharedCount (z 1 1 65532) 0 2 + 4 ∧
    earlierServable (z 3 1 3) 0 2 0 = false ∧ (getT? s (tid 0 0)).isSome = true ∧
    (powered s = true ∧ present s t0 = true ∧ (b false 3).block = .sem false 1 3 0 ∧ (b true 3).block = .sem true 2 3 0 ∧
      (getT? (setT (z 3 1 3) t0 (b true 3)) t0 = some (b true 3)) ∧ ((b false 4).sems.get 1).toNat < 4) := by
  refine ⟨issuesOf (by decide +kernel), issuesOf (by decide +kernel), issuesOf (by decide +kernel), issuesOf (by decide +kernel), ?_⟩
  simp only [Ready]; decide +kernel

/-- `TurnFenceHaltResults`: `turn` at both ends of its range, a fence that holds and one that does not, a halt with and without
an open splice, and with a hand-off that no instruction has taken. -/
theorem witness_TurnFenceHaltResults :
    let th := thread []
    let s := runs th
    let x : Splice := { part := 0, slot := 0, gen := 1, opener := t0, committer := t0 }
    let loads : Thread := { th with hostLoads := [⟨5, 8, false, hostBase, 0⟩] }
    let b : Thread := { th with block := .fence 1 1 [] }
    Issues s t0 th ∧ Issues (runs loads) t0 loads ∧ Issues { s with splices := [x] } t0 th ∧
    Issues (runs { th with accProd := some 0 }) t0 { th with accProd := some 0 } ∧
    formOk (word 0 0 [255]) 0 0 [.imm] = true ∧ formOk (word 0 0 [1]) 0 0 [.imm] = true ∧ formOk (word 0xF 0 []) 0xF 0 [] = true ∧
    fenceHolds s t0 th 0xF 0 [] = true ∧ fenceHolds (runs loads) t0 loads 0xF 1 [] = false ∧
    (getT? (setT s t0 b) t0 = some b ∧ powered s = true ∧ present s t0 = true ∧ fenceHolds (setT s t0 b) t0 b 1 1 [] = true) ∧
    formOk (word 0 0 []) 0 0 [] = true ∧ (th.accProd.isNone && th.vepiProd.isNone) = true ∧
    s.splices.all (fun x => x.opener != t0 || x.st == .passed) = true ∧
    ([x].all (fun x => x.opener != t0 || x.st == .passed)) = false := by
  refine ⟨issuesOf (by decide +kernel), issuesOf (by decide +kernel), issuesOf (by decide +kernel), issuesOf (by decide +kernel), ?_⟩
  decide +kernel

/-- `ScalarFrame`: a command of the list that answers a next state. -/
theorem witness_ScalarFrame : after (.nop t0 (word 0 0 []) none) (running []) (fun _ => true) = true := by decide +kernel

/-! ## Splices -/

/-- A declaration list of one handle at 0x2000, and the handle's entry 1: KF32, 16 elements at 0x4000. -/
def spliceWords : List (Nat × Word) := [(0x2000, 1)] ++ entry 1 5 0x4000 [(16, 1)]

/-- A splice pool of one page for partition 0. -/
def pooled (s : State) : State := { setR s (.prtSplpool 0) 0x0000200000000001 with pool := [(0, 0x200000, 0x200000)] }

/-- A splice of slot 0 that thread 0 of context 0 opened, with one declared handle. -/
def splice0 : Splice :=
  { part := 0, slot := 0, gen := 1, opener := t0, committer := t0, decls := [⟨1, 0x4000, 0x4000, 64, 0x200000, [0]⟩] }

/-- `SpliceBegins`: shadows that fit, that do not fit now, and that exceed the pool; no free slot; a blocked `spl.begin` that can
go on; the registers at both ends. -/
theorem witness_SpliceBegins :
    let th := thread [0x2000]
    let s := pooled (running [0x2000] spliceWords)
    let none' := running [0x2000] spliceWords
    let full : State := { s with splices := (List.range 256).map (fun n => { splice0 with slot := n }) }
    let b : Thread := { th with block := .pool 1 splice0.decls 5 }
    Issues s t0 th ∧ Issues none' t0 th ∧ Issues full t0 th ∧ Ready th 1 ∧ formOk (word 0 0 [1]) 0 0 [.scalar] = true ∧
    (sat (readDecls s 0 0x2000) (fun ds => decide ((ds.map (·.len)).sum ≤ poolCapacity s 0) && (poolTakeAll 0 ds s.pool).isSome &&
      (poolTakeAll 0 ds []).isNone && decide (poolCapacity none' 0 < (ds.map (·.len)).sum)) = true) ∧
    sat (readDecls none' 0 0x2000) = true ∧ freeSlot s 0 = some 0 ∧ poolWaiters s 0 = [] ∧
    freeSlot full 0 = none ∧
    (powered s = true ∧ getT? (setT s t0 b) t0 = some b ∧ (poolWaiters (setT s t0 b) 0).all (fun w => decide (5 ≤ w.2.2)) = true ∧
      (poolTakeAll 0 splice0.decls s.pool).isSome = true) ∧
    endingLoops { setReg th 63 (token 0 255 (nextGen s 0 255)) with block := .none } th.pc = [] := by
  refine ⟨issuesOf (by decide +kernel), issuesOf (by decide +kernel), issuesOf (by decide +kernel), ?_⟩
  simp only [Ready]; decide +kernel

/-- `SpliceInstructions`: a token of an open, a pending and a passed splice, and one that names none; each status selector. -/
theorem witness_SpliceInstructions :
    let th := thread [0x100, 7]
    let z (st : SplSt) : State := { running [0x100, 7] with splices := [{ splice0 with st := st }] }
    Issues (z .opened) t0 th ∧ Issues (z .pending) t0 th ∧ Issues (z .passed) t0 th ∧ Ready th 1 ∧ Ready th 2 ∧
    formOk (word 0 0 [1]) 0 0 [.scalar] = true ∧ formOk (word 0 0 [3, 1, 4]) 0 0 [.scalar, .scalar, .imm] = true ∧
    formOk (word 0 0 [3, 1, 0]) 0 0 [.scalar, .scalar, .imm] = true ∧ (th.accProd.isNone && th.vepiProd.isNone) = true ∧
    (spliceOf (z .opened) 0 0x100).isSome = true ∧ (spliceOf (z .pending) 0 0x100).isSome = true ∧
    (spliceOf (z .passed) 0 0x100).isSome = true ∧ spliceOf (z .opened) 0 7 = none ∧
    writesDeclared (z .opened) t0 { splice0 with st := .opened } = false ∧
    (let w : State := { z .opened with ops := [{ id := 0, t := t0, tag := .vadd, writes := splice0.decls.map (·.idx) }] }
     spliceOf w 0 0x100 = some { splice0 with st := .opened } ∧ writesDeclared w t0 { splice0 with st := .opened } = true) := by
  refine ⟨issuesOf (by decide +kernel), issuesOf (by decide +kernel), issuesOf (by decide +kernel), ?_⟩
  simp only [Ready]; decide +kernel

/-- `CommitCheckResults`: a check that passes, one of a hurt splice, one that fails with and without a replay and with ON_REFAIL,
and a shadow fill. -/
theorem witness_CommitCheckResults :
    let th : Thread := { thread [0x100] with block := .commit 0 1 }
    let x : Splice := { splice0 with st := .pending, tokenReg := 1 }
    let bad : Splice := { x with nUnder := 1 }
    let s (x : Splice) (pol : Word) : State := { runs th with splices := [x], act := [(Reg.offset (.qhpol 0), pol)] }
    let find (s : State) (x : Splice) := s.splices.find? (fun x => x.part == 0 && x.slot == 0 && x.st == .pending) = some x
    (powered (s x 0x60) = true ∧ find (s x 0x60) x ∧ getT? (s x 0x60) t0 = some th ∧ commitReady (s x 0x60) x = true ∧
      qhPolicy (s x 0x60) 0 = 0) ∧
    (find (s { x with hurt := true } 0x60) { x with hurt := true } ∧ commitReady (s { x with hurt := true } 0x60) x = true) ∧
    (find (s bad 0x11) bad ∧ qhPolicy (s bad 0x11) 0 = 1 ∧ healthFails (s bad 0x11) bad = true ∧ bad.replayable = true ∧
      bad.replayed = false ∧ commitReady (s bad 0x11) bad = true) ∧
    (([0x11, 0x15] : List Word).all (fun pol => healthFails (s { bad with replayed := true } pol) bad &&
      qhPolicy (s bad pol) 0 == 1 && bit (actR (s bad pol) (.qhpol 0)) 2 == (pol == 0x15))) = true ∧
    ((s { x with st := .passed } 0).splices.find? (fun x => x.part == 0 && x.slot == 0 && x.st == .passed && !x.filledIn)).isSome =
      true := by
  decide +kernel

/-! ## Streams -/

/-- Handle 1: KF32, 256 × 256 elements at 0x100000. -/
def tileWords : List (Nat × Word) := entry 1 5 0x100000 [(256, 256), (256, 1)]

/-- `LoadStoreStreamsOpen`: a load and a store stream in each of the four modes. -/
theorem witness_LoadStoreStreamsOpen :
    let s := running [region 4096 2 0 0, 0, 0x50] tileWords
    let th := thread [region 4096 2 0 0, 0, 0x50]
    Issues s t0 th ∧ Ready th 1 ∧ ReadyG th 2 2 ∧ formOk (word 0 0 [31, 1, 1, 2]) 0 0 [.stream, .handle, .scalar, .group 2] = true ∧
    sat (freshSid s t0 31) = true ∧
    sat (readRegion s t0 (region 4096 2 0 0) true false false) (fun r => sat (getH s 0 1) (fun h => !passedDecl s 0 h.idx &&
      sat (tileWalk s h 0 0x50 1 5 r.size) && sat (convOk s true h .kf32) && sat (convOk s false h .kf32) &&
      sat (rowsWalk s h 0x10000000FE 1 5 r.size) == false && sat (rowsWalk s h 0x1000000FE 1 5 r.size) &&
      sat (scaleOf? s 0 h) && sat (slubOf? s 0 h 5) && fillerOk s t0 h)) = true ∧
    sat (walkMode s 0x50) (· == (0, 5, 1)) = true ∧ sat (walkMode s 0xFF00000051) (· == (1, 5, 256)) = true ∧
    sat (walkMode s 0x52) (· == (2, 5, 1)) = true ∧ sat (walkMode s 0x53) (· == (3, 5, 1)) = true ∧ fmtOf 5 = some .kf32 := by
  refine ⟨issuesOf (by decide +kernel), ?_⟩
  simp only [Ready, ReadyG]; decide +kernel

/-- Handle 2: a KV cache of two pages (KF8, one head of 32), its page map at 0x8000; handle 3: one list of two entries. -/
def kvWords : List (Nat × Word) :=
  entry 2 2 0x200000 [(512, 32), (1, 32), (32, 1)] 0x2000 0x1000000008000 ++ entry 3 9 0x9000 [(1, 4), (4, 1)]

/-- `GatherAndMulticastOpen`: a gather stream; a sender with no group and one receiver that waits; a receiver that waits, one
that joins, and a seventeenth. -/
theorem witness_GatherAndMulticastOpen :
    let vs : List Word := [region 264 2 0 0, 0, 0, region 4096 1 0 0, 0, 0x50]
    let s := running vs (tileWords ++ kvWords)
    let th := thread vs
    let y : Stream := { t := ⟨0, 1⟩, sid := 0, kind := .member, size := 262144, slots := [none], tag := 255, walk := .unbound }
    let w : State := { s with streams := [y] }
    let g : Group := { ctx := 0, quarter := 0, tag := 255, sender := ⟨0, 1⟩, sid := 0, window := 1, src := { y with walk := .driven } }
    let j : State := { s with groups := [g], streams := [{ y with walk := .driven }] }
    let full : State := { s with streams := (List.range 16).map (fun k => { y with t := tid 0 (k + 1), sid := k }) }
    Issues s t0 th ∧ Issues w t0 th ∧ Issues j t0 th ∧ Issues full t0 th ∧ (∀ k, 1 ≤ k → k < 7 → Ready th (BitVec.ofNat 16 k)) ∧
    ReadyG th 5 2 ∧
    (formOk (word 0 0 [0, 2, 1, 3, 2, 3]) 0 0 [.stream, .handle, .scalar, .handle, .scalar, .scalar] = true ∧
      sat (freshSid s t0 0) = true ∧ sat (readRegion s t0 (region 264 2 0 0) false true true) (fun r =>
        sat (getH s 0 2) (fun h => h.fmt == 2 && sat (kvDims s h) (fun d => d == (1, 32) && decide (528 * 32 ≤ r.size)) &&
          fillerOk s t0 h && sat (getH s 0 3) (fun l => l.fmt == 9 && decide (fld (0 : Word) 31 0 + (fld (0 : Word) 47 32 + 1) ≤ l.rows)))) =
          true) ∧
    (let fi : State := { s with ctxs := [(0, { st := .running, cls := 3, filler := true, primary := 1 })] }
     sat (getH fi 0 3) (fillerOk fi t0) = true ∧
       fillerOk fi t0 { idx := 1, w0 := 0x900000000000, w1 := 0x251, w3 := 0x4000001, w4 := 0x1000003 } = false) ∧
    (formOk (word 0 0 [31, 1, 4, 5, 255, 64]) 0 0 [.stream, .handle, .scalar, .group 2, .imm, .imm] = true ∧
      sat (readRegion w t0 (region 4096 1 0 0) false false false) (fun r => sat (getH w 0 1) (fun h =>
        h.dev == devId w && decide (placeOf w h.lo = .hbm 0) && decide (placeOf w (h.hi - 1) = .hbm 0) &&
        sat (tileWalk w h 0 0x50 1 5 r.size) && sat (scaleOf? w 0 h) &&
        sat (slubOf? w 0 h 5) && fillerOk w t0 h &&
        ((membersOn w 0 0 255).filter (fun y => y.walk == .unbound)).all (fun y => y.size == r.size))) = true ∧
      (groupOf w 0 0 255).isNone = true ∧ ((membersOn w 0 0 255).filter (fun y => y.walk == .unbound)).length = 1) ∧
    (formOk (word 0 0 [31, 255, 4]) 0 0 [.stream, .imm, .scalar] = true ∧ (membersOn s 0 0 255).length < 16 ∧
      groupOf s 0 0 255 = none ∧ groupOf j 0 0 255 = some g ∧ g.src.size = 262144 ∧ 16 ≤ (membersOn full 0 0 255).length) := by
  refine ⟨issuesOf (by decide +kernel), issuesOf (by decide +kernel), issuesOf (by decide +kernel), issuesOf (by decide +kernel), ?_⟩
  simp only [Ready, ReadyG]; decide +kernel

/-- An open load stream 0 of four KF32 tiles and a store stream 1, both with one filled slot. -/
def ld0 : Stream := { t := t0, sid := 0, size := 262144, count := 1, slots := [some 0], filled := 1, fmt := 5,
                      walk := .tiles 0 0 2 2 false 1 }
def st1 : Stream := { t := t0, sid := 1, kind := .store, off := 0x80000, size := 262144, count := 1, slots := [some 0], filled := 1,
                      prod := 1, fmt := 5, walk := .tiles 0 0 1 1 false 1 }

/-- `DraftWaits`: a tile inside and beyond a fixed walk, a free of a load and of a store stream, a close; a wait that holds. -/
theorem witness_DraftWaits :
    let th := thread [3, 4]
    let s : State := { running [3, 4] with streams := [ld0, st1] }
    let b : Thread := { th with block := .draft (.tile 0 0) 0 }
    Issues s t0 th ∧ Ready th 1 ∧ Ready th 2 ∧ formOk (word 0 0 [0, 1]) 0 0 [.stream, .scalar] = true ∧
    stream? s t0 0 = some ld0 ∧ stream? s t0 1 = some st1 ∧ stream? s t0 31 = none ∧
    (ld0.total = some 4 ∧ fld (reg th 1) 31 0 < 4 ∧ 4 ≤ fld (reg th 2) 31 0) ∧
    formOk { word 2 0 [0, 0] with variant := (word 2 0 [0, 0]).variant &&& 0xFD } 0 0 [.stream, .unused] = true ∧
    formOk { word 1 0 [0, 0] with variant := (word 1 0 [0, 0]).variant &&& 0xFE } 0 0 [.stream, .unused] = true ∧
    (getT? (setT s t0 b) t0 = some b ∧ powered s = true ∧ present s t0 = true ∧ waitHolds (setT s t0 b) t0 (.tile 0 0) = true) := by
  refine ⟨issuesOf (by decide +kernel), ?_⟩
  simp only [Ready]; decide +kernel

/-- Handle 4: a plan of six entries at 0xA000: fetch pages 0 and 1, a mark of 9, release, dead, a fetch outside its region, end. -/
def planWords : List (Nat × Word) :=
  entry 4 11 0xA000 [(12, 1)] ++ [(0xA000, 0x1000000000000000), (0xA008, 2), (0xA010, 0x4000000000000000), (0xA018, 0x900000000),
    (0xA020, 0x2000000000000000), (0xA028, 1), (0xA030, 0x3000000000000000), (0xA038, 1), (0xA040, 0x1000000000000004), (0xA048, 1)]

/-- `PlanResults`: both forms, with and without a region and a plan; the cursor at each entry. -/
theorem witness_PlanResults :
    let th := thread [9]
    let k := running [9] planWords
    let s := setR (setR k (.poolHbm 0) 1) (.ureg 255) 0x8011000004000000
    let h := match getH s 0 4 with
      | .ok h => h
      | .error _ => noHandle
    let q (n : Nat) (w : List Nat) (e : Nat) (adv : List Half) : Plan :=
      { region := 255, t := t0, h := h, depth := 1, cursor := n, waiting := w, inEntry := e, advances := adv }
    let z (p : Plan) : State := { s with plans := [p] }
    let w (n i : Nat) : Word := BitVec.ofNat 64 (elemV s 0 h (h.ix 0 (2 * n + i)))
    Issues s t0 th ∧ Issues (z (q 0 [] 0 [])) t0 th ∧ Ready th 1 ∧
    formOk (word 0 0 [4, 255, 64]) 0 0 [.handle, .imm, .imm] = true ∧ sat (getH s 0 4) (fun h => h.fmt == 11 && h.rank == 1) = true ∧
    (∃ r, uregOf 255 (getR s (.ureg 255)) = some r ∧ r.owner = 0 ∧ r.policy = 1 ∧ r.size = 4 ∧ r.base = 0) ∧
    uregOf 254 (getR s (.ureg 254)) = none ∧
    formOk { word 1 0 [1, 255] with variant := (word 1 0 [1, 255]).variant &&& 0xFE } 0 0 [.scalar, .imm] = true ∧
    ((z (q 0 [] 0 [])).plans.find? (fun q => q.region == 255 && partOf q.t.ctx == 0)).isSome = true ∧
    s.plans.find? (fun q => q.region == 255 && partOf q.t.ctx == 0) = none ∧
    (powered s = true ∧ s.failed = false ∧ (getC s 0).st = .running ∧ (z (q 5 [] 0 [])).plans.find? (fun q => q.region == 255) =
      some (q 5 [] 0 []) ∧ 2 * 5 + 1 < h.dim 0) ∧
    ((List.range 6).all (fun n =>
      let e : List Part := [⟨h, [h.span 0 (2 * n) 1, h.span 0 (2 * n + 1) 1]⟩]
      sat (readReady s 0 e) (· == none) && sat (partsClean s 0 e) && fld (w n 0) 59 21 == 0 && fld (w n 1) 31 21 == 0)) = true ∧
    (let hu := { h with w0 := 0x100000000000 }
     let su : State := { s with pages := [(0, { frame := 0x10000000000 + boardLive s 0 - 0x40000000 })] }
     sat (readReady su 0 [⟨hu, [hu.span 0 0 1, hu.span 0 1 1]⟩]) (· == some 0) = true ∧ pageBusy su 0 = false) ∧
    ((List.range 6).map (fun n => (fld (w n 0) 63 60, fld (w n 0) 20 0, fld (w n 1) 20 0, fld (w n 1) 63 32))) =
      [(1, 0, 2, 0), (4, 0, 0, 9), (2, 0, 1, 0), (3, 0, 1, 0), (1, 4, 1, 0), (0, 0, 0, 0)] ∧
    ((q 0 [] 0 []).inEntry < 2 ∧ (q 0 [] 0 []).waiting.length < 1 ∧ 2 ≤ (q 0 [] 2 []).inEntry) ∧
    ((q 1 [] 0 [9]).advances = [9] ∧ (9 : Half).toNat = fld (w 1 1) 63 32 ∧ (8 : Half).toNat ≠ fld (w 1 1) 63 32) := by
  refine ⟨issuesOf (by decide +kernel), issuesOf (by decide +kernel), ?_⟩
  simp only [Ready]
  refine ⟨by decide +kernel, by decide +kernel, by decide +kernel, ⟨⟨255, 1, 0, 1, 4, 0⟩, by decide +kernel⟩, ?_⟩
  decide +kernel

/-- A view of two rows of four KF32 elements at a global address. -/
def rows2 (base : Word) : Handle := { idx := 1, w0 := base, w1 := 0x251, w3 := 0x4000001, w4 := 0x1000003 }

/-- Load stream 0 and store stream 1 over such a view, row by row. -/
def ldRows (base : Word) : Stream := { t := t0, sid := 0, slots := [none], fmt := 5, h := rows2 base, walk := .rows 0 2 1 }
def stRows (base : Word) : Stream :=
  { t := t0, sid := 1, kind := .store, off := 0x40, slots := [some 0], filled := 1, prod := 1, fmt := 5, h := rows2 base, walk := .rows 0 2 1 }

/-- Four pages of the unified range for partition 0; page 0 resides on board port 0. -/
def unified (s : State) : State :=
  { setR (setR (setR s (.poolHbm 0) 1) (.poolBt 0) 1) (.ureg 0) 0x8010000004000000 with
    pages := [(0, { frame := 0x10000000000 + boardLive s 0 - 0x40000000 })] }

/-- `TileMovement`: near and far ends in HBM, in a page that is not in HBM, in the host window, and on another device. -/
theorem witness_TileMovement :
    let s (b : Word) : State := unified { running [] with streams := [ldRows b, stRows b] }
    let ld (b : Word) : Bool := match stream? (s b) t0 0 with
      | some x => x == ldRows b && x.miss == none && x.kind == .load && (x.geo x.filled).isSome && x.free x.filled
      | none => false
    let st (b : Word) : Bool := match stream? (s b) t0 1 with
      | some x => x == stRows b && x.kind == .store && decide (x.drained < x.filled) && x.has x.drained && x.miss == none &&
        x.geo x.drained == some (.rows (rows2 b) 0 1) && !numSelected (s b) 0 ((drainElems (s b) x 0 (.rows (rows2 b) 0 1)).foldl
          (fun k e => k.add e.2.2.2) ({} : Cnt))
      | none => false
    let g (b : Word) : Geo := .rows (rows2 b) 0 1
    let ls (b : Word) : List Part := loadParts (ldRows b) (g b)
    let es (b : Word) := drainElems (s b) (stRows b) 0 (g b)
    let ds (b : Word) : List Part := (drainWrites (s b) (stRows b) 0 (g b) (es b)).map (·.part)
    let w : Writer := .tile t0 1 0
    let far : State := setR (setR (s 0x1000000000000) .lnkId 0x8000000020000000) (.lnkPort 0) 2
    powered (s 0) = true ∧ (s 0).failed = false ∧ present (s 0) t0 = true ∧
    (([0x100000, 0x100000000000, 0x800000000000, 0x1000000000000] : List Word).all (fun b => ld b && st b)) = true ∧
    (([0x100000, 0x800000000000] : List Word).all (fun b => sat (readReady (s b) 0 (ls b)) (· == none) &&
      sat (writeReady (s b) 0 (ds b) w) (· == none) && sat (partsClean (s b) 0 (ls b)) && (ls b).length == 1 && (ds b).length == 1 &&
      sat (fromOutside (s b) 0 (ls b) (.ok (List.replicate (if b == 0x100000 then 0 else 16) 1))) (fun y =>
        sat (slubsOk y.1 (farBytes y.1 0 y.2) (ldRows b) (g b)) &&
        sat (account y.1 0 (loadBytes (farBytes y.1 0 y.2) (ldRows b) (g b)).2)))) = true ∧
    sat (readReady (s 0x100000000000) 0 (ls 0x100000000000)) (· == some 0) = true ∧
    sat (writeReady (s 0x100000000000) 0 (ds 0x100000000000) w) (· == some 0) = true ∧
    sat (readReady (s 0x1000000000000) 0 (ls 0x1000000000000)) = false ∧
    sat (readReady far 0 (ls 0x1000000000000)) (· == none) = true ∧ sat (writeReady far 0 (ds 0x1000000000000) w) (· == none) = true := by
  decide +kernel

/-- The KV cache of `kvWords` as a handle, a list with one entry (page 1), and a gather stream over it. -/
def kvH : Handle := mkHandle 2 ((kvWords.take 6).flatMap (fun w => wordBytes w.2))
def listH : Handle := mkHandle 3 ((kvWords.drop 6).flatMap (fun w => wordBytes w.2))
def gather0 : Stream :=
  { t := t0, sid := 2, kind := .gather, size := 16896, slots := [none], fmt := 2, h := kvH, scaleH := some listH, walk := .lists 0 1 }

/-- Page 1 of the cache at 0x300000 or in unified page 0, with 256 positions filled; the list's count and its entry. -/
def pageWords (base : Word) (count : Word) : List (Nat × Word) :=
  kvWords ++ [(0x8008, base + 0x100000000000000), (0x9000, count + 0x100000000)]

/-- `StreamEngines`: a page part drains, and meets a page that is not in HBM; a gather entry comes into a slot, from a held one,
meets a missing page, and finds a list longer than its slots under hold; a page in motion; a stalled stream. -/
theorem witness_StreamEngines :
    let seg : Seg := { op := 0, h := kvH, tiles := [(1, 0)], first := 0, page := 1 }
    let st : Stream := { st1 with size := 67584, fmt := 2, walk := .driven, segs := [seg] }
    let s (base count : Word) (y : Stream) : State := unified { running [] (pageWords base count) with streams := [st, y] }
    let held : Stream := { gather0 with hold := true, slots := [some 0], filled := 1, gents := [⟨0, 0, 0, 1, 256, true⟩] }
    let a := s 0x300000 1 gather0
    let u := s 0x100000000000 1 gather0
    let h := s 0x300000 1 held
    let o := s 0x300000 2 { gather0 with hold := true }
    let m : State := { a with migs := [⟨0, 0, 0, 0⟩] }
    let map := mapPart a kvH 1
    let counts : List Part := [⟨listH, [listH.span 0 0 2]⟩]
    let list (n : Nat) : List Part := [⟨listH, [listH.span 0 0 (n + 2)]⟩]
    let said (z : State) (x : Stream) (n : Nat) (p : State → Stream → Bool) : Bool :=
      sat (gatherRead z x counts) (fun w => w.2 == none && listCount w.1 x 0 == n) &&
      sat (openList z x 1) (fun w => w.2.2 == none && w.2.1.gCount == some n && w.2.1.scaleH == some listH && w.2.1.t == t0 &&
        sat (gatherRead w.1 w.2.1 (list n)) (fun v => v.2 == none && p v.1 w.2.1))
    let ws := pageBytesOf a st 0 32 false
    let dst (b : Nat) := localPart a kvH b (joinSpans (ws.map (fun w => (b + w.1, w.2.length))))
    let sub (b : Nat) := localPart a kvH b [(b, 528 * 32)]
    let w : Writer := .tile t0 1 0
    powered a = true ∧ a.failed = false ∧ present a t0 = true ∧
    working a t0 = true ∧ regionIdle a st = true ∧ sat (slotClean a st 0) = true ∧
    (stream? a t0 1 = some st ∧ st.t = t0 ∧ st.miss = none ∧ st.drained < st.filled ∧ st.has 0 = true ∧
      st.geo 0 = some (.page kvH false 1 0) ∧ sat (kvDims a kvH) (· == (1, 32)) = true ∧
      sat (readReady a 0 [map]) (· == none) = true ∧ sat (pageEntry a 0 kvH 1 32 1) (fun y => y.2 == (0x300000, 256)) = true ∧
      sat (pageEntry u 0 kvH 1 32 1) (fun y => y.2 == (0x100000000000, 256)) = true ∧
      sat (writeReady a 0 [dst 0x300000] w) (· == none) = true ∧ sat (writeReady u 0 [dst 0x100000000000] w) (· == some 0) = true ∧
      sat (account a 0 { st := pagePoison a st 0 32 false }) = true) ∧
    (stream? a t0 2 = some gather0 ∧ gather0.miss = none ∧ regionIdle a gather0 = true ∧ gatherDone gather0 = false ∧ listsOf gather0 = 1 ∧
      said a gather0 1 (fun z y => listPage z y 0 0 == 1 && sat (kvDims z kvH) (· == (1, 32)) && sat (readReady z 0 [map]) (· == none) &&
        sat (pageEntry z 0 kvH 1 32 1) (fun e => sat (gatherRead e.1 y [sub 0x300000]) (·.2 == none))) = true ∧
      said u gather0 1 (fun z y => sat (pageEntry z 0 kvH 1 32 1) (fun e =>
        sat (gatherRead e.1 y [sub 0x100000000000]) (·.2 == some 0))) = true ∧
      sat (openList (s 0x300000 0 gather0) gather0 1) (fun w => w.2.1.gCount == none && w.2.2 == none) = true) ∧
    (stream? h t0 2 = some held ∧ said h held 1 (fun _ _ => true) = true ∧
      (held.gents.reverse.find? (fun k => k.page == 1)).isSome = true ∧ holdSlot { gather0 with hold := true } [1] = some 0) ∧
    (said o { gather0 with hold := true } 2 (fun _ y => decide (y.gEntry = 0 ∧ y.count < 2)) = true) ∧
    (m.migs.find? (fun m => m.page == 0) = some ⟨0, 0, 0, 0⟩ ∧ pageMiss m 0 true = true ∧ (bringIn m 0 0 0).isSome = true) ∧
    (({ gather0 with stall := 4 } : Stream).stall = 4 ∧ gather0.stall < 4) := by
  decide +kernel

/-- `MulticastDelivery`: a leading and a following member of a group, with its source in HBM and in a page that is not there; a
member outside its group asks the group's home. -/
theorem witness_MulticastDelivery :
    let src (b : Word) : Stream := { ldRows b with kind := .member, tag := 7 }
    let g (b : Word) : Group := { ctx := 0, quarter := 0, tag := 7, sender := t0, sid := 0, window := 1, src := src b,
                                  members := [⟨t0, 0, 0⟩] }
    let s (b : Word) : State := unified { running [] with streams := [src b], groups := [g b] }
    let far : Stream := { src 0x100000 with walk := .unbound, home := some 1 }
    let z : State := { running [] with streams := [far] }
    let m : Msg := { dst := 1, src := 0, op := .tileRequest, ctx := 0, tag := 0, epoch := epochOf z 0 0, cls := 3, last := true, mcg := 7 }
    let p (b : Word) : Geo := .rows (rows2 b) 0 1
    powered (s 0) = true ∧ (s 0).failed = false ∧ present (s 0) t0 = true ∧ stream? (s 0x100000) t0 0 = some (src 0x100000) ∧
    groupOf (s 0x100000) 0 0 7 = some (g 0x100000) ∧ (g 0x100000).members.any (fun m => m.t == t0 && m.sid == 0) = true ∧
    (groupSrc (s 0x100000) (g 0x100000)).geo 0 = some (p 0x100000) ∧ (src 0x100000).free 0 = true ∧
    working (s 0x100000) t0 = true ∧ regionIdle (s 0x100000) (src 0x100000) = true ∧
    (let ps (b : Word) := loadParts (src b) (p b)
     (ps 0x100000).all (fun k => mcastSource (s 0x100000) k.h) = true ∧
      (ps 0x800000000000).all (fun k => mcastSource (s 0x800000000000) k.h) = false ∧
      sat (readReady (s 0x100000) 0 (ps 0x100000)) (· == none) = true ∧ sat (partsClean (s 0x100000) 0 (ps 0x100000)) = true ∧
      sat (readReady (s 0x100000000000) 0 (ps 0x100000000000)) (· == some 0) = true) ∧
    sat (slubsOk (s 0x100000) (readV (s 0x100000) 0) (src 0x100000) (p 0x100000)) = true ∧ leadOf (s 0x100000) (g 0x100000) = 0 ∧
    sat (account (s 0x100000) 0 {}) = true ∧
    (stream? z t0 0 = some far ∧ groupOf z 0 0 7 = none ∧ far.home = some 1 ∧ far.free 0 = true ∧ freeCredit z 0 = true ∧
      freeTagOf z 0 = some 0 ∧ z.outMsgs = [] ∧ m.addr = 0 ∧
      sat (launchMsg (dropMember z t0 0 0) 0 m) (fun _ => true) = true) := by
  decide +kernel

/-! ## Engine instructions -/

/-- A thread whose operands are two sources, a destination of 2 × 4 KF32 elements in vector scratch, and further words. -/
def vecs (more : List Word := []) : List Word := [vop 2 4 5 0, vop 2 4 5 2, vop 2 4 5 4] ++ more

/-- `VopClaims`: a range outside every stream, at a stream's next slot, and elsewhere in its region; a local stream, a gather stream and a
member stream; a slot that is taken already; a store stream as a source, and another thread's stream. -/
theorem witness_VopClaims :
    let ld : Stream := { t := t0, sid := 0, scratch := true, size := 128, count := 2, slots := [none, none], walk := .driven }
    let s (x : Stream) : State := { running [] with streams := [x] }
    let v := vopOf (vop 2 4 5 0)
    let far := vopOf (vop 2 4 5 0x3FFC)
    (v.off = 0 ∧ v.bytes = 128 ∧ regionOf (running []) t0 0 128 = none ∧ far.off + far.bytes ≤ 0x100000) ∧
    (regionOf (s ld) t0 0 128 = some ld ∧ v.off = ld.slotOff (ld.slotNo ld.cons) ∧ v.bytes ≤ ld.size) ∧
    (regionOf (s { ld with cons := 1 }) t0 0 128 = some { ld with cons := 1 } ∧
      v.off ≠ ({ ld with cons := 1 } : Stream).slotOff (({ ld with cons := 1 } : Stream).slotNo 1)) ∧
    (regionOf (s { ld with walk := .localS }) t0 0 128 = some { ld with walk := .localS } ∧ v.off = ld.slotOff (ld.slotNo ld.prod)) ∧
    (([.gather, .member] : List SKind).all (fun k => regionOf (s { ld with kind := k }) t0 0 128 == some { ld with kind := k } && k != .store)) =
      true ∧
    (([⟨0, 0, false⟩] : List Claim).all (fun k => k.sid == ld.sid && !k.fills && ld.slotOff (ld.slotNo k.tile) == v.off)) = true ∧
    regionOf (s { ld with kind := .store }) t0 0 128 = some { ld with kind := .store } ∧
    (regionOf (s { ld with t := ⟨0, 1⟩ }) t0 0 128 = none ∧ regionOf (s { ld with size := 64, count := 2 }) t0 0 128 = some { ld with size := 64 }) := by
  decide +kernel

/-- `ElementwiseIssue`: each instruction with operands of one shape and with one of another shape, the broadcast forms, and the
reserved bit pair. -/
theorem witness_ElementwiseIssue :
    let vs := vecs [vop 1 4 5 6, vop 2 4 4 8]
    let s := running vs
    let th := thread vs
    Issues s t0 th ∧ sat (engineRoom s t0 2) = true ∧ Ready th 0 ∧ Ready th 1 ∧ Ready th 2 ∧ Ready th 3 ∧ Ready th 4 ∧ Ready th 5 ∧
    formOk (word 0 0 [3, 1, 2]) 3 0 [.scalar, .scalar, .scalar] = true ∧ formOk (word 2 0 [3, 1, 4]) 3 0 [.scalar, .scalar, .scalar] = true ∧
    formOk (word 0xF 0 [3, 1, 2, 2]) 0xF 0 [.scalar, .scalar, .scalar, .scalar] = true ∧
    formOk (word 0 0 [3, 1, 2, 2]) 0xF 0 [.scalar, .scalar, .scalar, .scalar] = true ∧
    formOk (word 7 0 [3, 1]) 7 0 [.scalar, .scalar] = true ∧ formOk (word 0 0 [5, 1]) 0 0 [.scalar, .scalar] = true ∧
    sat (readVop s (reg th 1)) (fun a => sat (readVop s (reg th 3)) (fun d => d.rows == a.rows && d.len == a.len &&
      sat (srcVop s t0 (newOp s t0 th .vadd (word 0 0 [3, 1, 2])) a) (fun x =>
        sat (takeOpd x.1 t0 x.2 (reg th 2) false false a.rows a.len) (fun y =>
          sat (takeOpd y.1 t0 y.2 (reg th 4) false true a.rows a.len) (fun z => sat (dstVop z.1 t0 z.2 d)))))) = true ∧
    sat (readVop s (reg th 5)) (fun d => convertible .kf32 d.f) = true ∧ convertible .kf32 .kf4 = false ∧
    sat (readVop s (reg th 4)) (fun d => d.rows != 2) = true ∧ (bit (word 3 0 [3, 1, 2]).variant 0 && bit (word 3 0 [3, 1, 2]).variant 1) = true := by
  refine ⟨issuesOf (by decide +kernel), ?_⟩
  simp only [Ready]; decide +kernel

/-- An instruction of thread 0 that has issued as number 0 with the operands of `vecs`. -/
def opOf (tag : EngTag) (f : Fields) (more : List Word := []) : EngOp :=
  { id := 0, t := t0, tag := tag, f := f, s := (thread (vecs more)).s }

/-- `LaneResults`: an instruction of each tag that may run and whose slots are ready, of a thread that works; a filler's. -/
theorem witness_LaneResults :
    let s (o : EngOp) : State := { running (vecs) with ops := [o] }
    let can (o : EngOp) : Bool := (s o).ops.find? (fun x => x.id == o.id && x.t == o.t) == some o && mayRun (s o) o && claimsReady (s o) o
    let a := vopOf (vop 2 4 5 0)
    let d := vopOf (vop 2 4 5 4)
    let rows (o : EngOp) (r : Nat) := (vopVals (s o) t0 a r).length == (opdRow (s o) t0 (opdOf (o.reg 2) false false) a.len r).length
    powered (s (opOf .vadd (word 0 0 [3, 1, 2]))) = true ∧ working (s (opOf .vadd (word 0 0 [3, 1, 2]))) t0 = true ∧
    sat (sramClean (s (opOf .vadd (word 0 0 [3, 1, 2]))) (opOf .vadd (word 0 0 [3, 1, 2]))) = true ∧
    (let f (o : EngOp) : State := { s o with ctxs := [(0, { st := .running, filler := true, primary := 1 })] }
     (getC (f (opOf .vadd (word 0 0 [3, 1, 2]))) 0).filler = true ∧
       fillerMay (f (opOf .vadd (word 0 0 [3, 1, 2]))) (opOf .vadd (word 0 0 [3, 1, 2])) = true) ∧
    can (opOf .vepi (word 0 0 [3, 1, 2, 2, 2])) = true ∧ can (opOf .vrot (word 0 0 [3, 1, 4, 2])) = true ∧
    can (opOf .vnorm (word 0 0 [3, 1, 4, 2, 2, 2])) = true ∧ can (opOf .vrng (word 2 0 [3, 1, 2])) = true ∧
    (([.vadd, .vmul, .vmax, .vmin] : List EngTag).all (fun tag => can (opOf tag (word 0 0 [3, 1, 2])) &&
      (List.range 2).all (rows (opOf tag (word 0 0 [3, 1, 2]))))) = true ∧
    can (opOf .vfma (word 0 0 [3, 1, 2, 2])) = true ∧ can (opOf .vcvt (word 0 0 [3, 1])) = true ∧ can (opOf .vfn (word 7 0 [3, 1])) = true ∧
    can (opOf .vrng (word 1 0 [3, 1, 2])) = true ∧ fld (word 1 0 [3, 1, 2]).variant 1 0 = 1 ∧ fld (word 0 0 [3, 1, 2]).variant 1 0 = 0 ∧
    sat (putRows (s (opOf .vadd (word 0 0 [3, 1, 2]))) t0 d [[(1, {}), (2, {}), (3, {}), (4, {})], [(5, {}), (6, {}), (7, {}), (8, {})]]) =
      true := by
  decide +kernel

/-- `ReductionIssue`: the whole, partial and combining forms of `vred` and `vstat`, a kind that is none, `vnorm`, `vrot` with an
odd and an even length, `vrng`. -/
theorem witness_ReductionIssue :
    let vs : List Word := [vop 2 4 5 0, vop 2 1 5 2, vop 1 2 5 4, 0, 7, vop 2 1 10 6, vop 1 2 5 8, vop 2 3 5 10, vop 1 1 5 12, 0x1000, 0, 0x10000,
      0x10000]
    let s := running vs
    let th := thread vs
    let o (tag : EngTag) := newOp s t0 th tag {}
    Issues s t0 th ∧ sat (engineRoom s t0 2) = true ∧ ReadyG th 1 13 ∧
    (formOk (word 0 0 [2, 1]) 0x3F 0 [.scalar, .scalar, .unused, .unused] = true ∧
      sat (takeSrc s t0 (o .vred) th 1 false 1) (fun x => x.2.2 == (2, 4) && sat (readVop s (reg th 2)) (fun d => d.rows == 2 && d.len == 1 &&
        sat (dstVop x.1 t0 x.2.1 d))) = true) ∧
    (fld (word 8 0 [3, 1, 4, 5, 5]).variant 4 3 = 1 ∧ formOk (word 8 0 [3, 1, 4, 5, 5]) 0x3F 0 [.scalar, .scalar, .scalar, .scalar, .scalar] = true ∧
      sat (partOk s 0 8 8) = true ∧ (reg th 5).toNat + 1 ≤ 2 * 4 ∧ 8 * ceilDiv 8 65536 ≤ (vopOf (vop 1 2 5 4)).bytes) ∧
    (fld (word 0x10 0 [9, 1, 0, 5]).variant 4 3 = 2 ∧ formOk (word 0x10 0 [9, 1, 0, 5]) 0x3F 0 [.scalar, .scalar, .unused, .scalar] = true ∧
      8 * ceilDiv 8 65536 ≤ (vopOf (reg th 1)).bytes ∧ (vopOf (reg th 9)).rows = 1 ∧ (vopOf (reg th 9)).len = 1) ∧
    5 ≤ fld (word 5 0 []).variant 2 0 ∧
    (formOk (word 0 0 [10, 1, 11]) 0xF 0 [.scalar, .scalar, .scalar, .unused, .unused] = true ∧
      sat (layoutOf s 0 false 2 4) (fun x => x == (4, 1, 2)) = true ∧ (0x1000 + 16 * 2 ≤ 0x100000) ∧
      sat (claimDst s t0 (o .vstat) 0x1000 32) = true) ∧
    formOk (word 1 0 [10, 1, 0, 4, 5, 5]) 0xF 0 [.scalar, .scalar, .unused, .scalar, .scalar, .scalar] = true ∧
    formOk (word 2 0 [10, 1, 0, 0, 5]) 0xF 0 [.scalar, .scalar, .unused, .unused, .scalar] = true ∧
    (formOk (word 0 0 [1, 1, 10, 3, 3, 4]) 0xF 0 [.scalar, .scalar, .group 2, .scalar, .scalar, .scalar] = true ∧
      scalarVal (reg th 4) = .num 0 ∧ sat (claimSrc s t0 (o .vnorm) 0x1000 32) = true) ∧
    (formOk (word 0 0 [1, 1, 6, 7]) 0 0 [.scalar, .scalar, .scalar, .scalar] = true ∧ sat (readVop s (reg th 6)) (fun p => p.fmt == 10 &&
      p.rows == 2 && p.len == 1) = true ∧ sat (readVop s (reg th 7)) (fun q => q.fmt == 5 && q.rows == 1 && 2 * q.len == 4) = true ∧
      sat (readVop s (reg th 8)) (fun a => a.len % 2 == 1) = true) ∧
    (formOk (word 1 0 [1, 10, 12]) 3 0 [.scalar, .group 2, .group 2] = true ∧ fld (word 2 0 []).variant 1 0 < 3) := by
  refine ⟨issuesOf (by decide +kernel), ?_⟩
  simp only [Ready, ReadyG]; decide +kernel

/-- `EpilogueIssue`: from a VOP and from a producer, to a VOP and as a producer, with and without producers. -/
theorem witness_EpilogueIssue :
    let vs := vecs [vop 1 4 5 6, 0x3F800000]
    let p : EngOp := { id := 0, t := t0, tag := .mma, m := 2, n := 4 }
    let th : Thread := { thread vs with accProd := some 0 }
    let both : Thread := { th with vepiProd := some 0 }
    let s (th : Thread) : State := { runs th with ops := [p], seq := 1 }
    Issues (s th) t0 th ∧ Issues (s both) t0 both ∧ Issues (s (thread vs)) t0 (thread vs) ∧ sat (engineRoom (s th) t0 2) = true ∧
    ReadyG th 1 5 ∧ th.accProd = some 0 ∧ (thread vs).accProd = none ∧ both.vepiProd.isSome = true ∧ th.vepiProd = none ∧
    formOk (word 0 0 [3, 1, 5, 5, 5]) 0xFF 0 [.scalar, .scalar, .scalar, .scalar, .scalar] = true ∧
    formOk (word 0x18 0 [0, 0, 5, 5, 5]) 0xFF 0 [.unused, .unused, .scalar, .scalar, .scalar] = true ∧
    formOk (word 0xE8 0 [3, 0, 4, 4, 4]) 0xFF 0 [.scalar, .unused, .scalar, .scalar, .scalar] = true ∧
    (s th).ops.find? (fun x => x.id = 0) = some p ∧
    sat (takeOpd (s th) t0 p (reg th 4) false true 2 4) (fun x => sat (takeOpd x.1 t0 x.2 (reg th 5) true true 2 4) (fun y =>
      y.1.seq == 1 && sat (readVop y.1 (reg th 3)) (fun d => d.rows == 2 && d.len == 4 && sat (dstVop y.1 t0 y.2 d)))) = true := by
  refine ⟨issuesOf (by decide +kernel), issuesOf (by decide +kernel), issuesOf (by decide +kernel), ?_⟩
  simp only [Ready, ReadyG]; decide +kernel

/-- Handles 5, 6, 7: A, B and D of a KF16 product of one row, one column and K = 1; handle 8: B with K = 2; the default streams. -/
def mmaWords : List (Nat × Word) :=
  entry 5 4 0x400000 [(1, 1), (1, 1)] ++ entry 6 4 0x401000 [(1, 1), (1, 1)] ++ entry 7 5 0x402000 [(1, 1), (1, 1)] ++
  entry 8 4 0x403000 [(2, 1), (1, 1)]
def mmaStreams : List Stream :=
  let x : Stream := { t := t0, sid := 0, fmt := 4, size := 131072, count := 2, slots := [none, none], walk := .driven }
  [x, { x with sid := 1, off := 0x40000 }, { x with sid := 2, kind := .store, fmt := 5, off := 0x80000, size := 262144 }]

/-- `MatrixIssue`: with D and as a producer; a K mismatch; a pair of formats that is not the handles'. -/
theorem witness_MatrixIssue :
    let th := thread [0x1000000000]
    let s : State := { running [0x1000000000] mmaWords with streams := mmaStreams }
    let f (p : BitVec 8) (b wb : BitVec 16) := word p 0 [5, b, 7, 0, 0, wb]
    Issues s t0 th ∧ sat (engineRoom s t0 0) = true ∧ Ready th 0 ∧ Ready th 1 ∧
    formOk (f 6 6 0) 0x1F 0 [.handle, .handle, .handle, .scalar, .scalar, .scalar] = true ∧
    formOk (f 6 6 1) 0x1F 0 [.handle, .handle, .handle, .scalar, .scalar, .scalar] = true ∧
    (fld (f 6 6 0).variant 2 0 = 6 ∧ bit (f 6 6 0).variant 3 = false ∧ fld (reg th 1) 2 0 = 0 ∧
      (bindingOf 1 (reg th 1)).hand = true ∧ (bindingOf 1 (reg th 1)).img = 0 ∧ (bindingOf 0 0).hand = false) ∧
    sat (getH s 0 5) (fun a => sat (getH s 0 6) (fun b => sat (getH s 0 8) (fun k => a.fmt == 4 && b.fmt == 4 && k.fmt == 4 && !a.slv &&
      a.rows == 1 && a.cols == 1 && b.rows == 1 && b.cols == 1 && k.rows == 2 && a.cols != k.rows && (pairFmts 0).1 != a.fmt &&
      sat (dIndex s th (f 6 6 0)) (fun i => i == 7 && sat (getH s 0 7) (fun d => d.fmt == 5 && d.rows == 1 && d.cols == 1)) &&
      sat (operandStream s t0 0 4 1 false) (fun ax => sat (operandStream s t0 1 4 1 true) (fun bx => bx.kind != .gather &&
        sat (operandScale s 0 a false) (·.isNone) && sat (operandScale s 0 b true) (·.isNone) &&
        sat (needStream (setStream (setStream s (bindOperand ax 0 a none none false [(0, 0)] 0)) (bindOperand bx 0 b none none true [(0, 0)] 0))
          t0 2) (fun x => x.walk == .driven && x.kind == .store && x.fmt.toNat == 5 && decide (footprint 5 ≤ x.size))))))) = true ∧
    (level1 (descOf 0 1 1 1) (descOf 0 1 1 1) 1 1 1 = [⟨0, 1, 0, 1, 0, 1, 0⟩] ∧ spills [⟨0, 1, 0, 1, 0, 1, 0⟩] 1 = false) ∧
    passedDecl s 0 7 = false ∧ th.accProd = none := by
  refine ⟨issuesOf (by decide +kernel), ?_⟩
  simp only [Ready]; decide +kernel

/-- Handle 9: a KF4 destination of one row of 32 elements with its scale handle 10; handle 2 is the KV cache. -/
def qntWords : List (Nat × Word) :=
  entry 9 0 0x404000 [(1, 32), (32, 1)] 0xA00000800 ++ entry 10 6 0x405000 [(1, 1), (1, 1)] ++ kvWords

/-- `QuantiseIssue`: the KF4 form and a page form, each from a VOP; a format that is neither; a threshold below 1. -/
theorem witness_QuantiseIssue :
    let vs : List Word := [vop 1 32 5 0, 0x3E00, 0, 0x3DFF]
    let th := thread vs
    let x : Stream := { t := t0, sid := 0, kind := .store, size := 34816, slots := [none], walk := .driven }
    let s : State := { running vs qntWords with streams := [x, { x with sid := 1, off := 0x40000, size := 67584, fmt := 2 }] }
    let o := newOp s t0 th .qnt (word 8 0 [9, 0, 1, 2, 0, 3])
    Issues s t0 th ∧ sat (engineRoom s t0 1) = true ∧ Ready th 2 ∧ Ready th 4 ∧
    formOk (word 8 0 [9, 0, 1, 2, 0, 3]) 0x3F 0x1FFF [.handle, .stream, .scalar, .scalar, .unused, .scalar] = true ∧
    formOk (word 9 0 [2, 1, 1, 2, 0, 3]) 0x3F 0x1FFF [.handle, .stream, .scalar, .scalar, .unused, .scalar] = true ∧
    (fld (word 8 0 []).variant 1 0 = 0 ∧ fld (word 9 0 []).variant 1 0 = 1 ∧ fld (word 8 0 []).variant 3 2 = 2) ∧
    (qThreshold (reg th 2)).isSome = true ∧ qThreshold (reg th 4) = none ∧
    sat (getH s 0 9) (fun h => h.fmt == 0 && !passedDecl s 0 h.idx && sat (qSlub s t0 h 0 false) && sat (getScale s 0 h) &&
      sat (qCarried s t0 (word 8 0 [9, 0, 1, 2, 0, 3]) h) (·.isNone) &&
      sat (qInTiles s t0 th o (word 8 0 [9, 0, 1, 2, 0, 3]) h) (fun q => q.tiles == [(0, 0)] &&
        sat (qStream q.s t0 0 h false q.tiles) (fun x => x.walk == .driven && sat (qScale q.s t0 (word 8 0 [9, 0, 1, 2, 0, 3]) h x) (·.isSome)))) = true ∧
    sat (getH s 0 2) (fun h => h.fmt == 2 && h.fmt != 0 && sat (qInPages s t0 th o (word 9 0 [2, 1, 1, 2, 0, 3]) h) (fun q =>
      q.tiles == [(0, 0)] && sat (qStream q.s t0 1 h true q.tiles))) = true := by
  refine ⟨issuesOf (by decide +kernel), ?_⟩
  simp only [Ready]; decide +kernel

/-- A thread with a softmax group, an entry word and a producer, and its state with a gather and a local stream. -/
def softThread : Thread := { thread [0x1000, 0, 0, 0x1F0000, 0, vop 1 32 5 0, 0, 0x8000000000] with accProd := some 0 }
def softState : State :=
  { runs softThread (pageWords 0x300000 2 ++ entry 11 5 0x406000 [(64, 1)]) with
    ops := [{ id := 0, t := t0, tag := .mma, m := 1, n := 256 }]
    streams := [gather0, { t := t0, sid := 3, off := 0x40000, size := 34816, slots := [none], walk := .localS }]
    seq := 1 }

/-- The same after a score step. -/
def softDue : State :=
  { softState with rowStates := [⟨t0, 0x1000, false, 0, true, []⟩], ops := [{ id := 0, t := t0, tag := .mma, m := 1, n := 32 }] }

/-- `SoftmaxIssue`: the first step of a row state, one out of order, an accumulate that is due and one that is not, a recompute,
both ends. -/
theorem witness_SoftmaxIssue :
    Issues softState t0 softThread ∧ Issues softDue t0 softThread ∧ sat (engineRoom softState t0 2) = true ∧
    Ready softThread 5 ∧ Ready softThread 7 ∧ Ready softThread 8 ∧
    sat (readGroup softState t0 softThread 1) (fun g => g.off == 0x1000 && g.n == 1 && g.d == 32) = true ∧
    stepForm (word 0 0 [1, 5, 2, 3]) false = true ∧ stepForm (word 2 0 [1, 5, 2, 3, 11, 7]) true = true ∧
    sat (stepStream softState t0 2 (reg softThread 5)) = true ∧ sat (stepStream softState t0 2 (reg softThread 8)) = true ∧
    (entryNo (reg softThread 5) = 0 ∧ entryNo (reg softThread 8) = 1 ∧ rowSt? softState t0 0x1000 false = none ∧
      rowSt? softState t0 0x1000 true = none ∧ (rowSt? softDue t0 0x1000 false).isSome = true) ∧
    sat (stepHand softState softThread (newOp softState t0 softThread .smScore {}) 1 256) (fun x =>
      sat (stepDst softState t0 x.1 3 34816)) = true ∧
    sat (stepHand softDue softThread (newOp softDue t0 softThread .smAcc {}) 1 32) = true ∧
    sat (getH softState 0 11) (fun h => decide (h.lo + 16 * ((reg softThread 7).toNat + 1) ≤ h.hi) &&
      !passedDecl softState 0 h.idx) = true ∧
    sat (readVop softState (reg softThread 6)) (fun d => d.fmt == 5 && d.rows == 1 && d.len == 32 &&
      sat (dstVop softState t0 (newOp softState t0 softThread .smEnd {}) d)) = true ∧
    formOk (word 0 0 [1, 6]) 1 0 [.group 4, .scalar] = true ∧
    formOk (word 1 0 [1, 6, 11, 7]) 1 0 [.group 4, .scalar, .handle, .scalar] = true := by
  refine ⟨issuesOf (by decide +kernel), issuesOf (by decide +kernel), ?_⟩
  simp only [Ready]; decide +kernel

/-- Handles 12, 13, 14, 15: a card set for the cache, a query with its scales, and its page lists; a forced entry at 0xB000. -/
def cardWords : List (Nat × Word) :=
  kvWords ++ entry 12 4 0x500000 [(8192, 1)] ++ entry 13 2 0x510000 [(1, 32), (32, 1)] 0xE00000800 ++
  entry 14 6 0x511000 [(1, 1), (1, 1)] ++ entry 15 9 0x512000 [(1, 4), (4, 1)] ++ [(0xB000, 1)]

/-- `CardingIssue`: both instructions, a head that is none, and fewer selected pages than forced ones. -/
theorem witness_CardingIssue :
    let vs : List Word := [0x10000, 0x100000000, 0, 0xB000, 0, 0]
    let th := thread vs
    let s := running vs cardWords
    Issues s t0 th ∧ sat (engineRoom s t0 3) = true ∧ sat (engineRoom s t0 0) = true ∧ Ready th 1 ∧ Ready th 2 ∧ ReadyG th 3 4 ∧
    formOk (word 0 0 [2, 12, 1]) 0 0 [.handle, .handle, .scalar] = true ∧
    sat (getH s 0 2) (fun h => h.fmt == 2 && sat (kvDims s h) (· == (1, 32)) && sat (getH s 0 12) (fun k => sat (cardSetOk s t0 k 32 h.pmapE false) &&
      sat (cardSetOk s t0 k 32 h.pmapE true) && !passedDecl s 0 k.idx) && decide (fld (reg th 1) 34 32 < 1) && decide (1 ≤ fld (reg th 2) 34 32) &&
      decide (fld (reg th 1) 15 0 + (fld (reg th 1) 31 16 + 1) ≤ h.pmapE)) = true ∧
    formOk (word 1 2 [13, 12, 2, 15, 3]) 0x7F 0x3FF [.handle, .handle, .handle, .handle, .group 4] = true ∧
    (fld (word 1 2 []).variant 6 0 = 1 ∧ fld (word 1 2 []).ext 9 0 = 2 ∧ fld (word 2 1 []).ext 9 0 < fld (word 2 1 []).variant 6 0) ∧
    sat (getH s 0 13) (fun q => sat (getH s 0 15) (fun l => q.fmt == 2 && l.fmt == 9 && q.cols == 32 && decide (0 < l.rows) &&
      decide (2 + 2 ≤ l.cols) && !passedDecl s 0 l.idx && sat (getScale s 0 q) (fun k => scaleAxisOk q k (q.rank - 1)))) = true ∧
    (isLocal s 0xB000 = true ∧ sat (readA s t0 0xB000 4) (fun y => forcedWords y.2 == [1]) = true ∧
      fld (1 : Half) 31 30 = 0 ∧ fld (1 : Half) 16 0 < 2) := by
  refine ⟨issuesOf (by decide +kernel), ?_⟩
  simp only [Ready, ReadyG]; decide +kernel

/-- Handles of `sw.conv`, `sw.pool` and `sw.patch`: 1 an input, 2 weights, 3 an output, 4 a bias, 5 an input of another rank, 6
tokens, 7 and 8 an input and weights of 3 × 3; of `sw.pix`: 1-3 planes of U8, 4 planes of KF16; of `sw.box` and `sw.nms`: 1-3 boxes, 4 scores, 5 a list, 6 classes. -/
def convWords : List (Nat × Word) :=
  entry 1 4 0x100000 [(1, 1), (1, 1), (1, 1), (1, 1)] ++ entry 2 4 0x101000 [(1, 1), (1, 1), (1, 1), (1, 1), (1, 1)] ++
  entry 3 4 0x102000 [(1, 1), (1, 1), (1, 1), (1, 1)] ++ entry 4 5 0x103000 [(1, 1)] ++ entry 5 4 0x104000 [(1, 1), (1, 1), (1, 1)] ++
  entry 6 4 0x105000 [(1, 1), (1, 1)] ++ entry 7 4 0x106000 [(1, 9), (3, 3), (3, 1), (1, 1)] ++
  entry 8 4 0x107000 [(1, 9), (3, 3), (3, 1), (1, 1), (1, 1)]
def pixWords : List (Nat × Word) :=
  entry 1 8 0x106000 [(2, 2), (2, 1)] ++ entry 2 8 0x107000 [(1, 1), (1, 1)] ++ entry 3 8 0x108000 [(1, 1), (1, 1)] ++
  entry 4 4 0x109000 [(3, 4), (2, 2), (2, 1)]
def boxWords : List (Nat × Word) :=
  entry 1 5 0x10A000 [(2, 4), (4, 1)] ++ entry 2 5 0x10B000 [(2, 4), (4, 1)] ++ entry 3 5 0x10C000 [(2, 4), (4, 1)] ++
  entry 4 5 0x10D000 [(2, 1)] ++ entry 5 9 0x10E000 [(1, 64), (64, 1)] ++ entry 6 10 0x10F000 [(2, 1)]

/-- A thread with the parameter block's address and the parameters of `sw.nms`: 1, 0 and 2. -/
def swiftRegs : List Word := [0x110000, 0x3FC00000, 0, 2]

/-- `SwiftIssue`: convolution, pooling and patches with legal operands; a convolution's input of another rank, padding beyond its
bound. -/
theorem witness_SwiftIssue_conv :
    let s := running swiftRegs convWords
    Issues s t0 (thread swiftRegs) ∧ sat (engineRoom s t0 4) = true ∧ sat (swiftRoom s t0) = true ∧ ReadyG (thread swiftRegs) 5 2 ∧
    formOk (word 4 0 [1, 2, 3, 4, 5]) 7 0x7FFF [.handle, .handle, .handle, .handle, .group 2] = true ∧
    formOk (word 0 0 [1, 3, 0, 5]) 3 0x1FF [.handle, .handle, .imm, .scalar] = true ∧
    formOk (word 1 0 [6, 1]) 1 0x3F [.handle, .handle] = true ∧ formOk (word 0 0 [1, 6]) 1 0x3F [.handle, .handle] = true ∧
    sat (getH s 0 1) (fun x => sat (getH s 0 2) (fun w => sat (getH s 0 3) (fun y => sat (getH s 0 4) (fun b =>
      x.fmt == 4 && x.rank == 4 && w.fmt == 4 && w.rank == 5 && w.dim 0 == 1 && w.dim 3 == x.dim 3 && y.fmt == 4 && y.rank == 4 && y.dim 0 == 1 &&
      y.dim 3 == w.dim 4 && b.fmt == 5 && b.rank == 1 && b.dim 0 == w.dim 4 && (convDims (word 4 0 []) x 0 0).1.padOk &&
      (convDims (word 4 0 []) x 0 0).1.out == 1 && (convDims (word 4 0 []) x 0 0).2.1.out == 1 &&
      (convDims (word 4 0 []) x 0 0).2.2.out == 1 && !passedDecl s 0 y.idx && (poolDims (word 0 0 []) x 0).1.padOk &&
      (poolDims (word 0 0 []) x 0).1.out == 1 && !(poolDims (word 0 0 []) x 1).1.padOk)))) = true ∧
    sat (getH s 0 5) (fun x => x.fmt == 4 && x.rank != 4) = true ∧
    sat (getH s 0 6) (fun k => k.rank == 2 && k.dim 0 == 1 && k.dim 1 == 1) = true := by
  refine ⟨issuesOf (by decide +kernel), ?_⟩
  simp only [Ready, ReadyG]; decide +kernel

/-- `SwiftIssue`: pixel conversion with legal planes and parameters, both ways. -/
theorem witness_SwiftIssue_pix :
    let s := running swiftRegs pixWords
    Issues s t0 (thread swiftRegs) ∧ sat (engineRoom s t0 4) = true ∧ sat (swiftRoom s t0) = true ∧ Ready (thread swiftRegs) 1 ∧
    formOk (word 2 0 [1, 2, 3, 4, 1]) 3 0 [.handle, .handle, .handle, .handle, .scalar] = true ∧
    formOk (word 3 0 [1, 2, 3, 4, 1]) 3 0 [.handle, .handle, .handle, .handle, .scalar] = true ∧
    sat (getH s 0 1) (fun y => sat (getH s 0 2) (fun cb => sat (getH s 0 3) (fun cr => sat (getH s 0 4) (fun k =>
      y.fmt == 8 && y.rank == 2 && y.dim 0 == 2 && y.dim 1 == 2 && cb.fmt == 8 && cb.rank == 2 && cb.dim 0 == 1 && cb.dim 1 == 1 &&
      cr.fmt == 8 && cr.rank == 2 && cr.dim 0 == 1 && cr.dim 1 == 1 && k.fmt == 4 && k.rank == 3 && k.dim 0 == 3 && k.dim 1 == 2 &&
      k.dim 2 == 2 && !passedDecl s 0 k.idx && !passedDecl s 0 y.idx && !passedDecl s 0 cb.idx && !passedDecl s 0 cr.idx)))) = true ∧
    isLocal s 0x110000 = true ∧ okRange s 0 0x110000 88 = true ∧ ueIn s 0x110000 88 = false := by
  refine ⟨issuesOf (by decide +kernel), ?_⟩
  simp only [Ready]; decide +kernel

/-- `SwiftIssue`: boxes and selection with legal operands. -/
theorem witness_SwiftIssue_box :
    let s := running swiftRegs boxWords
    let th := thread swiftRegs
    Issues s t0 th ∧ sat (engineRoom s t0 4) = true ∧ sat (swiftRoom s t0) = true ∧ ReadyG th 2 3 ∧
    formOk (word 1 0 [1, 2, 3, 2]) 1 0 [.handle, .handle, .handle, .group 3] = true ∧
    formOk (word 1 0 [1, 4, 6, 5, 2]) 1 0 [.handle, .handle, .handle, .handle, .group 3] = true ∧
    sat (getH s 0 1) (fun a => sat (getH s 0 2) (fun d => sat (getH s 0 3) (fun y => a.fmt == 5 && d.fmt == 5 && y.fmt == 5 &&
      a.cols == 4 && a.rows == 2 && d.cols == 4 && d.rows == 2 && y.cols == 4 && y.rows == 2 && !passedDecl s 0 y.idx &&
      sat (getH s 0 4) (fun sc => sat (getH s 0 5) (fun l => sat (getH s 0 6) (fun k => sc.fmt == 5 && sc.rows * sc.cols == 2 &&
        l.fmt == 9 && k.fmt == 10 && k.rows * k.cols == 2 && decide (roundUp (4 + 2 * min a.rows 2) 64 ≤ l.hi - l.lo) &&
        !passedDecl s 0 l.idx)))))) = true ∧
    scalarVal (reg th 2) = .num 1 ∧ scalarVal (reg th 3) = .num 0 ∧ (reg th 4).toNat = 2 := by
  refine ⟨issuesOf (by decide +kernel), ?_⟩
  simp only [Ready, ReadyG]; decide +kernel

/-! ## The units of the engines -/


/-- An instruction issues as number `id`, and its first unit is delivered in the state that `mid` makes of it, without a fault. -/
def unit (i : Instr) (s : State) (id : Nat := 0) (mid : State → State := fun s => s) (p : State → Bool := fun s => !torn s) : Bool :=
  after i s (fun a => !torn a && after (.engineComplete t0 id) (mid a) p)

/-- `LaneResults`: a source with an uncorrectable word; a position of `vrot` in its range and one outside; a normalisation with a statistic
and with COUNT 0; an epilogue from a VOP to a VOP. -/
theorem witness_LaneResults_runs :
    let vs : List Word := [vop 2 4 5 0, vop 2 4 5 4, vop 2 1 10 6, vop 1 2 5 8, 0x1000, 0, vop 1 4 5 10, 0x3F800000]
    let s := running vs
    let scr (n v : Nat) (s : State) : State := scratchWrite s 0 0 n (leBytes 8 v)
    let hurt (s : State) : State := { s with sramUe := [((physOf s 0 0).getD 64, [imageScratch / 32])] }
    unit (.vcvt t0 (word 0 0 [2, 1])) s = true ∧ unit (.vcvt t0 (word 0 0 [2, 1])) s 0 hurt torn = true ∧
    (List.range 2).map (fun r => vopRow s t0 (vopOf (vop 2 1 10 6)) r) = [[0], [0]] ∧ unit (.vrot t0 (word 0 0 [2, 1, 3, 4])) (scr 384 16777216 s) 0 id torn = true ∧
    unit (.vnorm t0 (word 0 0 [2, 1, 5, 8, 8, 8])) s 0 id torn = true ∧ unit (.vnorm t0 (word 0 0 [2, 1, 5, 8, 8, 8])) (scr 0x1000 4 (scr 0x1010 4 s)) = true ∧
    unit (.vepi t0 (word 0 0 [2, 1, 8, 8, 8])) s = true := by
  decide +kernel

/-- Every slot of a load or gather stream is full, the first entry of a list is delivered, and a producer beside a consumer has handed off a
tile of zeros. -/
def fed (s : State) : State :=
  { s with
    streams := s.streams.map (fun x => if x.kind == .store || x.walk == .localS then x else
      { x with filled := x.count, slots := (List.range x.count).map some,
               gents := if x.kind == .gather then [⟨0, 0, 0, 0, 256, false⟩] else [] })
    ops := s.ops.map (fun o => if o.tag == .mma && s.ops.length == 2 then
      { o with out := [{ mt := 0, nt := 0, q := List.replicate o.m (List.replicate o.n 0) }] } else o) }

/-- `EngineResults`: each form of a reduction and of a statistic, a combination whose records' counts do not sum, and one with
a record that is not there; an epilogue tile handed off. -/
theorem witness_EngineResults_lanes :
    let vs : List Word := [vop 2 4 5 0, vop 2 1 5 2, vop 1 2 5 4, 0, 7, vop 2 1 10 6, vop 1 2 5 8, vop 2 3 5 10, vop 1 1 5 12, 0x1000, 0, 0x10000,
      0x10000]
    let s := running vs
    unit (.vred t0 (word 0 0 [2, 1])) s = true ∧ unit (.vred t0 (word 8 0 [3, 1, 4, 5, 5])) s = true ∧
    unit (.vred t0 (word 0x10 0 [9, 1, 0, 5])) s = true ∧ unit (.vred t0 (word 0x10 0 [9, 1, 0, 12])) s 0 id torn = true ∧
    unit (.vstat t0 (word 0 0 [10, 1, 11])) s = true ∧ unit (.vstat t0 (word 1 0 [10, 1, 0, 4, 5, 5])) s = true ∧
    unit (.vstat t0 (word 2 0 [10, 1, 0, 0, 5])) s 0 id torn = true ∧
    unit (.vepi t0 (word 0x10 0 [0, 1, 5, 5, 5])) (running (vecs [vop 1 4 5 6, 0x3F800000])) = true := by
  decide +kernel

/-- `EngineResults`: a pass of an `mma` to its stream and as a producer; a tile of `qnt` from scratch, of both destinations. -/
theorem witness_EngineResults_array :
    let s : State := { running [0x1000000000] mmaWords with streams := mmaStreams }
    let x : Stream := { t := t0, sid := 0, kind := .store, size := 34816, slots := [none], walk := .driven }
    let q : State := { running [vop 1 32 5 0, 0x3E00, 0, 0x3DFF] qntWords with
      streams := [x, { x with sid := 1, off := 0x40000, size := 67584, fmt := 2 }] }
    unit (.mma t0 (word 6 0 [5, 6, 7, 0, 0, 0])) s 0 fed = true ∧ unit (.mma t0 (word 6 0 [5, 6, 7, 0, 0, 1])) s 0 fed = true ∧
    unit (.qnt t0 (word 8 0 [9, 0, 1, 2, 0, 3])) q = true ∧ unit (.qnt t0 (word 9 0 [2, 1, 1, 2, 0, 3])) q = true := by
  decide +kernel

/-- `EngineResults`: a score step, an accumulate step, a recompute step and both ends; a card, and a tile's page list. -/
theorem witness_EngineResults_attention :
    let c := running [0x10000, 0x100000000, 0, 0xB000, 0, 0] cardWords
    unit (.vsmxScore t0 (word 0 0 [1, 5, 2, 3])) softState 1 fed = true ∧ unit (.vsmxAcc t0 (word 0 0 [1, 5, 2])) softDue 1 fed = true ∧
    unit (.vsmxRecomp t0 (word 2 0 [1, 5, 2, 3, 11, 7])) softState 1 fed = true ∧ unit (.vsmxEnd t0 (word 0 0 [1, 6])) softState 1 = true ∧
    unit (.vsmxEnd t0 (word 1 0 [1, 6, 11, 7])) softState 1 = true ∧
    unit (.cardBuild t0 (word 0 0 [2, 12, 1])) c = true ∧ unit (.cardSel t0 (word 1 2 [13, 12, 2, 15, 3])) c = true := by
  decide +kernel

/-- `EngineResults`: a group of outputs of a direct convolution and a tile of a Winograd one, a pooled position, patches, pixels both ways,
boxes, and a suppression. -/
theorem witness_EngineResults_swift :
    let s := running swiftRegs convWords
    unit (.swConv t0 (word 4 0 [1, 2, 3, 4, 5])) s = true ∧ unit (.swConv t0 (word 0 0x90 [7, 8, 3, 0, 5])) s = true ∧ unit (.swPool t0 (word 0 0 [1, 3, 0, 5])) s = true ∧
    unit (.swPatch t0 (word 1 0 [6, 1])) s = true ∧ unit (.swPatch t0 (word 0 0 [1, 6])) s = true ∧
    unit (.swPix t0 (word 2 0 [1, 2, 3, 4, 1])) (running swiftRegs pixWords) = true ∧
    unit (.swPix t0 (word 3 0 [1, 2, 3, 4, 1])) (running swiftRegs pixWords) = true ∧
    unit (.swBox t0 (word 1 0 [1, 2, 3, 2])) (running swiftRegs boxWords) = true ∧
    unit (.swNms t0 (word 1 0 [1, 4, 6, 5, 2])) (running [0x110000, 0x3FC00000, 0x3FC00000, 2] boxWords) = true := by
  decide +kernel

/-! ## Links -/

/-- Handle 1: 256 bytes of U8; a thread with an offset, a remote address on device 1, byte counts 16, 0 and 2^30 + 1, a signal word
and a multicast group. -/
def linkWords : List (Nat × Word) := entry 1 8 0x100000 [(256, 1)]
def linkRegs : List Word := [0, 0x1000000200000, 16, 0, 0x40000001, 0x10000, 255, 0x200000, 0x1001]
def linkState : State := running linkRegs linkWords

/-- The state of thread 0 with an operation of group 3 that is not complete. -/
def linkBusy : State :=
  { linkState with lkops := [{ id := 0, t := t0, seq := 0, group := 3, op := .put, left := 16 }], seq := 1 }

/-- `LinkInstructions`: each instruction with a legal range and each refusal; `lk.wait` with its groups complete and not. -/
theorem witness_LinkInstructions :
    let th := thread linkRegs
    let b : Thread := { th with block := .links 8 1 }
    Issues linkState t0 th ∧ Issues linkBusy t0 th ∧ freeCredit linkState 0 = true ∧ ReadyG th 0 10 ∧
    sat (getH linkState 0 1) (fun h => h.dev == devId linkState && decide (0 + 16 ≤ h.hi - h.lo) && okRange linkState 0 h.loc 16 &&
      !passedDecl linkState 0 h.idx && decide (h.hi - h.lo < (reg th 9).toNat) && freeCredit (noteHandleWrite linkState t0 h.idx) 0) = true ∧
    formOk (word 1 0 [1, 1, 2, 3, 15, 6]) 1 0 [.handle, .scalar, .scalar, .scalar, .imm, .scalar] = true ∧
    formOk (word 0 0 [1, 1, 2, 3, 15]) 1 0 [.handle, .scalar, .scalar, .scalar, .imm, .unused] = true ∧
    formOk (word 0 0 [1, 1, 2, 3, 0]) 0 0 [.handle, .scalar, .scalar, .scalar, .imm] = true ∧
    formOk (word 8 0 [1, 1, 2, 3, 0, 6]) 0xF 0 [.handle, .scalar, .scalar, .scalar, .imm, .scalar] = true ∧
    formOk (word 0 0 [1, 1, 7, 3, 0]) 0 0 [.handle, .scalar, .group 2, .scalar, .imm] = true ∧
    ((reg th 3).toNat = 16 ∧ (reg th 4).toNat = 0 ∧ 2 ^ 30 < (reg th 5).toNat ∧ (reg th 7).toNat = 255 ∧ 256 ≤ (reg th 8).toNat ∧
      16 % redBytes 0 = 0 ∧ 1 ≤ redBytes 0 ∧ ¬ (0x200001 % redBytes 0 = 0) ∧ (reg th 9).toNat % redBytes 0 ≠ 0) ∧
    formOk (word 1 0 [6, 15]) 1 0 [.scalar, .imm] = true ∧ formOk (word 0 0 [8]) 0 0 [.imm] = true ∧
    groupsDone linkState t0 8 0 = true ∧ groupsDone linkBusy t0 8 1 = false ∧
    (getT? (setT linkState t0 b) t0 = some b ∧ powered linkState = true ∧ present linkState t0 = true ∧
      groupsDone (setT linkState t0 b) t0 8 1 = true ∧ groupsDone (setT linkBusy t0 b) t0 8 1 = false) := by
  refine ⟨issuesOf (by decide +kernel), issuesOf (by decide +kernel), ?_⟩
  simp only [Ready, ReadyG]; decide +kernel

/-- Context 0 of partition 0 with LNK_IMPORT open to every device, shared semaphore 2 defined for every class, and local semaphore 1
of thread 0 at 65,534. -/
def target : State :=
  let th : Thread := { thread [] with sems := (thread []).sems.set 1 65534 }
  setR (setR (runs th) (.lnkImport 0) 0x80000000FFFF0000) (.prtSem 0 2) 0x80030000

/-- A message of 4 bytes from device 1 to this one, at an address of HBM, and one that reaches nothing. -/
def msg (op : MsgOp) : Msg := { dst := 0, src := 1, op := op, addr := 0x100000, len := 3, data := [1, 2, 3, 4] }
def lost (op : MsgOp) : Msg := { msg op with addr := 0xFFFF00000000 }

/-- A state with one whole message in its in-box. -/
def holds (s : State) (m : Msg) : State := { s with inbox := [{ m := m }] }
/-- The message is found there. -/
def inFront (s : State) (m : Msg) : Bool := (holds s m).inbox.find? (fun e => e.m == m) == some { m := m }

/-- Whether an access or a signal is refused with a cause. -/
def refusedWith {α : Type} (r : Except Nat α) (k : Nat) : Bool := match r with
  | .ok _ => false
  | .error e => e == k
def answered' {α : Type} (r : Except Nat α) : Bool := match r with
  | .ok _ => true
  | .error _ => false

/-- `RemoteAccesses`: accepted and refused requests of each kind, a put with and without its signal, an add that is aligned and
one that is not. -/
theorem witness_RemoteAccesses :
    let sg : Word := 0x0000001100000000
    linksUp target = true ∧ (msg .put).dst.toNat = devId target ∧ (msg .put).data.length = (msg .put).len.toNat + 1 ∧
    (([.put, .add, .getRequest, .signal] : List MsgOp).all (fun op => inFront target (msg op))) = true ∧
    (holds target (msg .put)).inbox.length = 1 ∧ (leftInbox (holds target (msg .put)) { m := msg .put }).inbox = [] ∧
    refusedWith (reachTarget target (lost .put) 4 false) lkAddress = true ∧ ownerAt target 0x100000 = some 0 ∧ ownerAt target 0xFFFF00000000 = none ∧
    answered' (reachTarget (headerSeen target 0 (msg .put)) (msg .put) 4 false) = true ∧
    answered' (reachTarget (headerSeen target 0 (msg .add)) (msg .add) 4 false) = true ∧
    answered' (reachTarget (headerSeen target 0 (msg .getRequest)) (msg .getRequest) 4 true) = true ∧
    sat (admitRemote target (msg .put) 4 true) (fun s => !ueIn s 0x100000 4) = true ∧
    sat (admitRemote target (msg .getRequest) 4 false) (fun s => !ueIn s 0x100000 4 && ueIn { s with ue := [0x100000 / 32] } 0x100000 4) = true ∧
    (answered' (applySignal target (sg + 0x0000000100000000) false (some 0)) = false ∧
      refusedWith (applySignal target 0x00000010003F0000 false (some 0)) lkSignal = true) ∧
    ((msg .add).addr.toNat % redBytes 0 = 0 ∧ (msg .add).data.length % redBytes 0 = 0 ∧
      (redPieces 0x100000 [1, 2, 3, 4]).all (fun x => redAllowed target 0 0 x.1 none) = true ∧ ¬ (0x100001 % redBytes 0 = 0)) ∧
    (holdHot target 0 0 0x100000 4 = false ∧ sat (askOutside target 0 0x100000 4) = true ∧ (msg .getRequest).src.toNat ≠ devId target) := by
  decide +kernel

/-- `SignalRules`: a context that does not exist, a logical spindle at NL, an undefined semaphore, a class above SCLASS; sums of
65,535 and of 65,536 in both kinds of semaphore. -/
theorem witness_SignalRules :
    let s : State := { target with sems := [(2, 65534)] }
    let low := setR s (.prtSem 0 2) 0x80000000
    exists' s 1 = false ∧ exists' s 0 = true ∧ ctxNL s 0 = 16 ∧ 16 ≤ fld (0x0000001004000000 : Word) 27 22 ∧
    semDefined s 0 3 = false ∧ semClass low 0 2 < 1 ∧ semDefined s 0 2 = true ∧ 3 ≤ semClass s 0 2 ∧
    sharedCount s 0 2 + 1 < 65536 ∧ 65536 ≤ sharedCount s 0 2 + 2 ∧
    (0 < ctxNL s 0 ∧ (getT? s (tid 0 0)).isSome = true ∧ ((th0 s).sems.get 1).toNat + 1 < 65536 ∧ 65536 ≤ ((th0 s).sems.get 1).toNat + 2) := by
  decide +kernel

/-- The target with a multicast group of one device, itself, and a member stream outside its group. -/
def mcast : State :=
  { target with
    act := [(Reg.offset (.mcg 7), 0x8000000004000000)]
    streams := [{ t := t0, sid := 0, kind := .member, slots := [none], fmt := 5, tag := 7, walk := .unbound, home := some 1 }] }

/-- `MulticastMessages`: copies at a member, at the source and at an address that is nobody's; a draft tile; a tile request with and
without its group. -/
theorem witness_MulticastMessages :
    let src : Stream := { ldRows 0x100000 with kind := .member, tag := 7 }
    let g : Group := { ctx := 0, quarter := 0, tag := 7, sender := t0, sid := 0, window := 1, src := src }
    let s : State := { target with streams := [src], groups := [g] }
    linksUp mcast = true ∧ ownerAt mcast 0x100000 = some 0 ∧ ownerAt mcast 0xFFFF00000000 = none ∧ (boxOf mcast 7).isSome = true ∧
    boxOf target 7 = none ∧ (msg .multicastPut).src.toNat ≠ devId mcast ∧ ({ msg .multicastPut with src := 0 } : Msg).src.toNat = devId mcast ∧
    sat (holdMsg (holds mcast (msg .multicastPut)) (msg .multicastPut)) = true ∧
    sat (atTarget mcast (msg .multicastPut)) = true ∧ sat (atTarget mcast (lost .multicastPut)) = true ∧
    (let dt : Msg := { msg .draftTile with mcg := 7, addr := tileAddr 0 0 1 }
     let fit (z : State) (w : TileFit) : Bool := (reachedBy z dt).length == 1 && (reachedBy z dt).all (fun x => tileFit z x dt == w)
     let full : State := { mcast with streams := mcast.streams.map (fun x => { x with slots := [some 0], filled := 1 }) }
     fit mcast .next = true ∧ sat (takeMsg (holds mcast dt) dt) = true ∧ tileOf dt = 0 ∧ partOfTile dt = 0 ∧
      (reachedBy full { dt with addr := tileAddr 1 0 1 }).all (fun x => tileFit full x { dt with addr := tileAddr 1 0 1 } == .waits) = true) ∧
    mcast.groups.find? (fun g => g.ctx == 0 && g.tag == 7) = none ∧
    (s.groups.find? (fun g => g.ctx == 0 && g.tag == 7) = some g ∧ (groupSrc s g).geo 0 = some (.rows (rows2 0x100000) 0 1) ∧
      sat (slubsOk s (readV s 0) src (.rows (rows2 0x100000) 0 1)) = true ∧
      (loadParts src (.rows (rows2 0x100000) 0 1)).all (fun k => !farOutside k.h &&
        k.ss.all (fun a => okRead s 0 a.1 a.2 && !ueV s 0 k.h.idx a.1 a.2)) = true ∧
      sat (admitAll s 0 0 (readReach s 0 (loadParts src (.rows (rows2 0x100000) 0 1))) false) = true ∧
      (let n := (loadBytes (readV s 0) src (.rows (rows2 0x100000) 0 1)).1.length
       partOfTile { msg .tileRequest with addr := tileAddr 0 0 1 } < tileParts n ∧
        tileParts n ≤ partOfTile { msg .tileRequest with addr := tileAddr 0 5 1 }) ∧
      tileOf { msg .tileRequest with addr := tileAddr 2 0 1 } = 2 ∧
      (groupSrc s g).geo 2 = none ∧ (loadParts src (.rows (rows2 0x800000000000) 0 1)).all (fun k => !farOutside k.h) = false) ∧
    (([.multicastPut, .draftTile, .tileRequest] : List MsgOp).all (fun op => inFront mcast (msg op))) = true := by
  decide +kernel

/-- A get of 4 bytes and its one message. -/
def lk1 : LkOp := { id := 5, t := t0, seq := 0, group := 3, op := .getRequest, loc := 0x100000, out := 1 }
def out1 : OutMsg := { ctx := 0, tag := 7, op := .getRequest, lk := 5, loc := 0x100000, len := 4, dst := 1, due := [1] }
def issuer (stroke : Word) : State :=
  setR { running [] with lkops := [lk1], outMsgs := [out1] } .trdIndex stroke

/-- `ResponsesAtIssuer`: responses of each kind to the message and to none; a time-out at its edge and one stroke before. -/
theorem witness_ResponsesAtIssuer :
    let s := issuer 0
    let m (op : MsgOp) : Msg := { msg op with tag := 7 }
    linksUp s = true ∧ (m .acknowledgement).dst.toNat = devId s ∧ outMsg? s 0 7 = some out1 ∧ outMsg? s 0 8 = none ∧
    (([.acknowledgement, .refusal, .getResponse] : List MsgOp).all (fun op => inFront s (m op))) = true ∧
    outMsg? (headerSeen s 0 (m .getResponse)) 0 7 = some out1 ∧ (m .acknowledgement).epoch = epochOf s 0 7 ∧
    epochOf s 0 7 ≠ 1 ∧ out1.op ≠ .draftTile ∧ out1.op ≠ .tileRequest ∧ lkop? s out1.lk = some lk1 ∧
    lkop? (headerSeen s 0 (m .refusal)) out1.lk = some lk1 ∧ lk1.quiet = false ∧
    (m .getResponse).data.length = out1.len ∧ sat (landGet s out1 (m .getResponse).data) = true ∧ fld (actR s .lnkCfg) 15 8 = 4 ∧
    out1.free = false ∧ okRange s 0 0xC000000000 4 = false ∧
    (let l : LkOp := { lk1 with op := .put, failed := true, sig := some 1, left := 16 }
     l.failed = true ∧ l.sig.isSome = true ∧ l.left ≤ nextLen l) ∧
    4 ≤ (strokeNow (issuer 4) - BitVec.ofNat 64 out1.edge).toNat ∧ (strokeNow (issuer 3) - BitVec.ofNat 64 out1.edge).toNat < 4 := by
  decide +kernel

/-- A device with an ID in a torus of extent 2 × 1 × 1 and two ranks, and a port in a state. -/
def dev (port n : Nat) : State := setF (setR State.reset .lnkId 0x8000000100010000) (.lnkPort port) 2 0 n

/-- A flit of padding alone, with a sequence number. -/
def blank (seq : BitVec 12) : List Byte := flitBytes seq 4095 {}

/-- Padding has a CRC that holds. -/
theorem blank_good (n : BitVec 12) : flitGood (blank n) = true := by
  have h (b : List Byte) (h : b.length = 252) : flitGood (b ++ leBytes 4 (crc32 b).toNat) = true := by
    rw [flitGood, List.length_append, leBytes_length, h, List.drop_left' h, List.take_left' h, ofBytes_leBytes, Bool.and_eq_true,
      beq_iff_eq, beq_iff_eq]
    exact ⟨rfl, Nat.mod_eq_of_lt (BitVec.isLt _)⟩
  exact h _ (by rw [List.length_append, List.length_append, wordBytes_length, List.length_replicate]; rfl)

/-- `PortsAndFlits`: ports that may train and may not; ends of training with each number of lanes, without an ID, with the right and
with a wrong peer; port states; flits in order, repeated and bad; a request to send again; a message for another device. (`blank_good` says that such a flit's CRC holds.) -/
theorem witness_PortsAndFlits :
    let off := setR State.reset (.lnkPhy 8) 8
    let p : PortSt := { retry := [(5, {}), (6, { som := true })] }
    mayTrain (dev 8 1) 8 = true ∧ mayTrain off 8 = false ∧ portState (dev 8 1) 8 = 1 ∧ assigned (dev 8 1) = true ∧
    assigned State.reset = false ∧ unusedPort (dev 10 1) 10 = true ∧ unusedPort (dev 8 1) 8 = false ∧ liveGroup (dev 8 1) 8 = 8 ∧
    peerOk (dev 8 1) 8 (torusPeer (dev 8 1) 8).id (opposite 8) = true ∧ peerOk (dev 8 1) 8 0xFFFF 0 = false ∧
    (powered (dev 8 2) = true ∧ (here (dev 8 2)).rank ≠ 1 ∧ portState (dev 8 2) 8 = 2 ∧ portState (dev 7 3) 7 = 3) ∧
    ((blank 0).length = 256 ∧ ([[0, 3]] : List (List Nat)) ≠ [] ∧ ([0, 3].idxOf? ([0, 3].foldl max 0)) = some 1 ∧ (flitParts (blank 0)).1 = (getPort (dev 8 2) 8).expect ∧ ((0 : BitVec 12) - (flitParts (blank 4095)).1).toNat < 2048 ∧
      2048 ≤ ((0 : BitVec 12) - (flitParts (blank 1)).1).toNat ∧ ({} : PortSt).resend = false ∧
      (getPort { dev 8 2 with ports := [(8, { resend := true })] } 8).resend = true) ∧
    (p.retry.any (fun e => e.1 == 6) = true ∧ (p.retry.dropWhile (fun e => e.1 != 6)).length = 1 ∧ p.retry.any (fun e => e.1 == 7) = false) ∧
    (linksUp (dev 8 2) = true ∧ ({ dst := 1 } : Msg).dst.toNat ≠ devId (dev 8 2) ∧ inFront (dev 8 2) { dst := 1 } = true ∧
      sat (holdMsg (holds (dev 8 2) { dst := 1 }) { dst := 1 }) (fun x => x.2.2 == none) = true) := by
  decide +kernel

/-! ## Codec and reel -/

/-- A decode of one HEVC frame of 16 × 16: its descriptor at 0xC000 and the six handles. -/
def cdcWords : List (Nat × Word) :=
  [(0xC000, 0x10000000000F000F), (0xC008, 0x0001000200030004), (0xC010, 0x0005000600000000)] ++
  entry 1 7 0x100000 [(1, 256), (16, 16), (16, 1)] ++ entry 2 7 0x110000 [(1, 64), (8, 8), (8, 1)] ++
  entry 3 7 0x120000 [(1, 64), (8, 8), (8, 1)] ++ entry 4 7 0x130000 [(64, 1)] ++ entry 5 7 0x200000 [(8494689, 2)] ++
  entry 6 7 0x140000 [(128, 1)]
def cdcState : State := running [0xC000, 0xC001] cdcWords

/-- Its descriptor and handles, and its job: queued, on core 0, asked for that core, and torn. -/
def cdcDesc : List Word := [0x10000000000F000F, 0x0001000200030004, 0x0005000600000000, 0, 0, 0, 0, 0]
def cdcHs : List Handle := match (dHandles cdcDesc).mapM (getH cdcState 0) with
  | .ok hs => hs
  | .error _ => []
def cdcJob : CdcJob := { id := 0, t := t0, seq := 0, desc := cdcDesc, hs := cdcHs, sem := 3, amount := 1 }
def cdcRun (yields : List Nat) : State := { cdcState with jobs := [{ cdcJob with started := true, cores := [0], yields := yields }] }

/-- An encode of one frame of one unit, whose workspace is its bitstream handle. -/
def encJob : CdcJob := { cdcJob with desc := 0x000F000F :: cdcDesc.tail, hs := cdcHs.set 4 ((cdcHs[3]?).getD noHandle), started := true,
                                     cores := [0] }

/-- `CodecJobs`: a legal submission, a misaligned one and a full queue; a job that starts and reads its input, and a running one that takes
up a core; a unit that completes a frame, one of a torn job, and a frame that an entropy engine ends, with and without a yield; a frame
that is complete and one that is not; a torn job and a full one that end, and one that has not written its frame. -/
theorem witness_CodecJobs :
    let full : State := { cdcState with jobs := (List.range 16).map (fun k => { cdcJob with id := k }) }
    let torn : CdcJob := { cdcJob with torn := true, cores := [0] }
    let s : State := { cdcState with jobs := [torn] }
    Issues cdcState t0 (thread [0xC000, 0xC001]) ∧ Issues full t0 (thread [0xC000, 0xC001]) ∧ Ready (thread [0xC000, 0xC001]) 1 ∧
    Ready (thread [0xC000, 0xC001]) 2 ∧ formOk (word 0 0 [1, 3, 1]) 0 0 [.scalar, .localSem, .imm] = true ∧
    queuedJobs cdcState 0 < 16 ∧ 16 ≤ queuedJobs full 0 ∧ fld (0xC001 : Word) 5 0 ≠ 0 ∧
    sat (readA cdcState t0 0xC000 64) (fun x => (List.range 8).map (fun k => BitVec.ofNat 64 (ofBytes ((x.2.drop (8 * k)).take 8))) ==
      cdcDesc) = true ∧ sat ((dHandles cdcDesc).mapM (getH cdcState 0)) (· == cdcHs) = true ∧
    (cdcHs.take 3).all (fun h => h.fmt == 7) = true ∧ (cdcHs.map (·.fmt)) = [7, 7, 7, 7, 7, 7] ∧ dFieldsOk cdcDesc = true ∧
    dShapesOk cdcDesc cdcHs = true ∧ dGang cdcDesc = false ∧ ctxCls cdcState 0 = 3 ∧
    inHbmOrPinned cdcState 0 0x200000 16989377 = true ∧ cdcHs.all (viewOk cdcState 0) = true ∧
    (dWritten cdcDesc cdcHs).all (fun h => !passedDecl cdcState 0 h.idx) = true ∧
    startable { cdcState with jobs := [cdcJob] } cdcJob = true ∧
    sat (readInputs (cdcRun []) (cdcRun []).jobs) = true ∧
    (s.jobs.find? (fun j => j.id == 0 && !j.ended) = some torn ∧ sat (endJob s torn 4 false) = true ∧ cdcJob.started = false) := by
  refine ⟨issuesOf (by decide +kernel), issuesOf (by decide +kernel), ?_⟩
  simp only [Ready]; decide +kernel

/-- `CodecJobs`: what a core, an entropy engine and the end of a job do. -/
theorem witness_CodecJobs_units :
    let torn : CdcJob := { cdcJob with torn := true, cores := [0], work := [(0, 0, 0)] }
    let idle : CdcJob := { torn with work := [] }
    let s : State := { cdcState with jobs := [torn] }
    let e (js : List CdcJob) : State := { cdcState with jobs := js }
    let busy : CdcJob := { encJob with work := [(0, 0, 0)] }
    let done : CdcJob := { encJob with units := [(0, 0)] }
    let full : CdcJob := { encJob with full := true }
    let parse : CdcJob := { encJob with parsing := [(0, 0)] }
    let free : CdcJob := { encJob with cores := [] }
    jobOn (e [busy]) 0 = some busy ∧ busy.work.find? (fun w => w.1 == 0) = some (0, 0, 0) ∧ dDecode encJob.desc = false ∧
      parse.parsing.find? (fun x => x.1 == 0) = some (0, 0) ∧ jobOn (e [parse]) 0 = some parse ∧
      encJob.finished = false ∧ encJob.frameDone 0 = false ∧ done.frameDone 0 = true ∧ done.finished = false ∧
      sat (framesOut (e [encJob]) encJob 1) = true ∧ sat (framesOut (e [full]) full 1) = true ∧
      sat (cdcWrite (e [encJob]) encJob ((encJob.hs[3]?).getD noHandle) 0 [1]) = true ∧ encJob.bytes = 0 ∧
      jobOn s 0 = some torn ∧ torn.work.find? (fun w => w.1 == 0) = some (0, 0, 0) ∧ givesUp (e [full]) full 0 = false ∧
      givesUp (e [full]) { full with yields := [0] } 0 = true ∧ givesUp s torn 0 = true ∧
      cdcQueue (e [free]) 0 = [] ∧ (shareCores (e [free]) 0).jobs ≠ (e [free]).jobs ∧
      sat (endJob (e [full]) full 3 true) = true ∧ full.finished = true ∧ idle.torn = true ∧ idle.work = [] ∧ torn.work ≠ [] := by
  decide +kernel

/-- `CodecJobs`: without jobs no core is taken. -/
theorem witness_CodecJobs_idle : shareCores { cdcState with jobs := [] } 0 = { cdcState with jobs := [] } := rfl

/-- `CodecJobs`: a queue of one job. -/
theorem witness_CodecJobs_queue : cdcQueue { cdcState with jobs := [cdcJob] } 0 = [cdcJob] := by
  decide +kernel

/-- A partition whose reel is in a mode, with the ring's first page at 0x200000, and records for a replay from HEAD 0. -/
def reeled (mode : Word) (s : State) : State :=
  { setR s (.reelRing 0) 0x0000200000000001 with
    act := [(Reg.offset (.reelCtl 0), mode), (Reg.offset (.reelRing 0), 0x0000200000000001)] }

/-- `ReelMarksAndReplay`: a mark in each mode, met and not met; a record due now, a later one, and the end of the ring. -/
theorem witness_ReelMarksAndReplay :
    let th := thread [7]
    let r (v : Word) : ReelRec := { ty := 5, ctx := 0, stroke := 0, tick := 0, payload := wordBytes v ++ leBytes 2 3 }
    let exp (v : Word) : State := { reeled 2 (running [7]) with reels := [(0, { wanted := [r v] })] }
    let head (k last : Nat) : State := { setR (reeled 2 (running [])) (.trdIndex) (BitVec.ofNat 64 k) with reels := [(0, { last := last })] }
    let tail : State := { head 5 0 with reels := [(0, { wanted := [r 7] })] }
    let rec0 := (reelAt (head 5 64) 0 0).1
    Issues (running [7]) t0 th ∧ Issues (reeled 1 (running [7])) t0 th ∧ Issues (exp 7) t0 th ∧ Issues (exp 8) t0 th ∧ Ready th 1 ∧
    formOk (word 0 0 [1, 3]) 0 0 [.scalar, .imm] = true ∧ reelMode (running [7]) 0 = 0 ∧ reelMode (reeled 1 (running [7])) 0 = 1 ∧
    reelMode (exp 7) 0 = 2 ∧ (getReel (exp 7) 0).wanted.find? (fun r => r.ty == 5) = some (r 7) ∧ (getReel (head 5 0) 0).wanted = [] ∧
    ((getReel tail 0).last ≤ (getR tail (.reelHead 0)).toNat ∧ (getReel tail 0).wanted ≠ [] ∧ treadleRuns tail = true) ∧ (r 7).payload.take 10 = wordBytes (reg th 1) ++ leBytes 2 3 ∧
    (r 8).payload.take 10 ≠ wordBytes (reg th 1) ++ leBytes 2 3 ∧
    (treadleRuns (head 5 64) = true ∧ (head 5 64).failed = false ∧ (getR (head 5 64) (.reelHead 0)).toNat = 0 ∧
      (getReel (head 5 64) 0).last = 64 ∧ (getReel (head 5 0) 0).last = 0 ∧ (let k := (deliverAt (head 5 64) 0 rec0).1
       edgeReached (strokeNow (head 5 64)) k.toNat = true ∧ k ≠ strokeNow (head 5 64)) ∧
      sat (deliver (setR (markLate (head 5 64) 0) (.reelHead 0) 64) 0 rec0) = true ∧ max 64 (reelAt (head 5 64) 0 0).2 = 64 ∧ edgeReached (strokeNow (head 0 64)) (deliverAt (head 0 64) 0 { rec0 with stroke := 9 }).1.toNat = false) := by
  refine ⟨issuesOf (by decide +kernel), issuesOf (by decide +kernel), issuesOf (by decide +kernel), issuesOf (by decide +kernel), ?_⟩
  simp only [Ready]; decide +kernel

/-! ## Time, ply pairs, pre-emption and errors -/

/-- A state at a fine tick of a stroke of 500. -/
def atTick (n : Nat) (s : State := State.reset) : State := { setR s .trdTick (BitVec.ofNat 64 n) with fticks := n }

/-- `TreadleBoundaries`: the first tick, the last one, a held treadle; a turn of class 3 and of class 0 that has overrun, under each
policy. -/
theorem witness_TreadleBoundaries :
    let u : TurnSt := { start := 0, stop := 0 }
    let th : Thread := { thread [] with turn := some u }
    let o : EngOp := { id := 0, t := t0, tag := .vadd }
    let s (cls : Fin 4) (pol : Word) : State := { runs th [] cls with ops := [o], act := [(Reg.offset (.timepol 0), pol)] }
    treadleRuns State.reset = true ∧ strokeLen State.reset = 500 ∧ tickNow State.reset + 1 < 500 ∧ 500 ≤ tickNow (atTick 499) + 1 ∧
    treadleRuns { State.reset with treadleHeld := true } = false ∧
    (powered (s 3 0) = true ∧ (s 3 0).failed = false ∧ turnsRun (getC (s 3 0) 0) = true ∧ getT? (s 3 0) t0 = some th ∧
      ctxCls (s 3 0) 0 = 3 ∧ ctxCls (s 0 0) 0 = 0 ∧ u.stop ≤ (strokeNow (s 3 0)).toNat ∧ u.stop ≤ (s 0 0).fticks ∧
      turnWorkDone (s 3 0) t0 th u = false ∧ fld (actR (s 3 0) (.timepol 0)) 15 8 = 0 ∧ bit (actR (s 3 1) (.timepol 0)) 0 = true ∧
      fld (actR (s 3 0x100) (.timepol 0)) 15 8 = 1 ∧ u.stretched < 1 ∧ 1 ≤ ({ u with stretched := 1 } : TurnSt).stretched) := by
  decide +kernel

/-- A device in a synchronization mode (`TRD_SYNC`: MODE, port 8, ALTEN with ALTPORT 9, LOCK). -/
def synced (mode alt lock : Nat) : State :=
  setAct (setF (dev 8 2) .trdSync 5 4 lock) .trdSync (BitVec.ofNat 64 (0x98000000 + 8 * alt + mode))

/-- `TreadleMarkers`: the root; a follower that locks first, later, with a phase at and beyond 100 ns to either side, and with another
index; the parent's silence with and without ALTPORT; TRD_SYNC_IN of an armed treadle and of a running one. -/
theorem witness_TreadleMarkers :
    let mk (i : Word) (n : Nat) : Marker := { index := i, tick := 64, remain := n }
    let m1 (n : Nat) : Marker := mk 0 (n + rfld (synced 2 0 1) (.lnkPort 8) 31 16 * 1000 / 16)
    let e (n : Nat) : Int := (n : Int) - 500000 * ticksTo (spreadMarker { synced 2 0 1 with lastMarker := 0 } (mk 0 n) 8) (mk 0 n)
    let late (alt : Nat) : State := { synced 2 alt 1 with fticks := 256 }
    (treadleRuns (synced 1 0 0) = true ∧ syncMode (synced 1 0 0) = 1 ∧ (synced 1 0 0).fticks % 64 = 0) ∧
    (portUp (synced 2 0 1) 8 = true ∧ (synced 2 0 1).power.clkCore = true ∧ syncMode (synced 2 0 1) = 2 ∧ syncPort (synced 2 0 1) = 8 ∧
      syncMode (synced 1 0 0) ≠ 2 ∧ syncLock (synced 2 0 0) = 0 ∧ syncLock (synced 2 0 1) = 1 ∧ (m1 32000000).tick = 64) ∧
    (ownIndex (synced 2 0 1) 32000000 = (0 : Word).toNat ∧ ownIndex (synced 2 0 1) 32000000 ≠ (7 : Word).toNat) ∧
    (e 32100000 = 100000 ∧ e 32100001 = 100001 ∧ e 31900000 = -100000 ∧ e 31899999 = -100001) ∧
    ((late 1).lastMarker + 256 ≤ (late 1).fticks ∧ bit (actR (late 1) .trdSync) 3 = true ∧ (late 1).onAlt = false ∧ syncLock (late 1) ≠ 2 ∧
      treadleRuns (late 1) = true ∧ (late 1).parentLost = false ∧ ({ late 1 with parentLost := true } : State).parentLost = true ∧
      (synced 2 0 0).lockedOnce = false ∧ ({ synced 2 0 1 with lockedOnce := true } : State).lockedOnce = true ∧
      bit (actR (late 0) .trdSync) 3 = false ∧ (synced 2 0 1).fticks < (synced 2 0 1).lastMarker + 256) := by
  decide +kernel

/-- A device of a ply pair: role, options, state and misses of `PLY_CFG` and `PLY_STAT`, at edge 4. -/
def ply (role opts st : Nat) (misses : Nat := 0) : State :=
  setR (setF (setF (setF (setF State.reset .plyCfg 1 0 role) .plyCfg 9 8 opts) .plyStat 2 0 st) .plyStat 4 3 misses) .trdIndex 4

/-- `PlyPair`: both roles, each policy on the third miss, and a join at its two ends. -/
theorem witness_PlyPair :
    powered (ply 1 0 2) = true ∧ (ply 1 0 2).failed = false ∧ plyStandby (ply 2 0 2) = true ∧ plyActive (ply 1 0 2) = true ∧
    plyActive (ply 2 0 2) = false ∧ (4 : Word).toNat ≤ (strokeNow (ply 1 0 2)).toNat ∧
    (plyMisses (ply 1 1 2 3) = 3 ∧ plyActive (ply 1 1 2 3) = true ∧ bit (getR (ply 1 1 2 3) .plyCfg) 8 = true ∧
      bit (getR (ply 1 0 2 3) .plyCfg) 8 = false ∧ plyMisses (ply 2 0 2 3) = 3 ∧ bit (getR (ply 2 0 2 3) .plyCfg) 9 = false ∧
      (ply 2 0 2 3).ply.lost = false ∧ bit (getR (ply 2 2 2 3) .plyCfg) 9 = true ∧ plyState (ply 2 2 2 3) = 2 ∧
      plyState (ply 2 2 1 3) = 1 ∧ plyStandby (ply 2 2 1 3) = true ∧ plyMisses (ply 1 0 0) ≠ 3) ∧
    (plyState (ply 2 0 1) = 1 ∧ (ply 2 0 1).ply.joining = false ∧ plyRole (ply 2 0 1) = 2 ∧ plyRole (ply 1 0 1) = 1) ∧
    (let j (done : Bool) : State := { ply 2 0 1 with ply := { joining := true, imaged := done } }
     plyState (j true) = 1 ∧ (j true).ply.joining = true ∧ (j true).ply.imaged = true ∧ (j false).ply.imaged = false) ∧
    edgeReached (strokeNow (ply 1 0 2)) (4 : Word).toNat = true ∧ edgeReached (strokeNow (ply 1 0 2)) (5 : Word).toNat = false := by
  decide +kernel

/-- `Preemption`: a context asked to leave, one that is not, one that is being saved, before and at its point, and one that is being
restored. -/
theorem witness_Preemption :
    let x (p s r : Bool) : State :=
      setC (running []) 0 { st := .running, preempt := p, saving := s, restoring := r }
    powered (x true false false) = true ∧ (x true false false).failed = false ∧ treadleRuns (x true false false) = true ∧
    (getC (x true false false) 0).st = .running ∧ (getC (x true false false) 0).preempt = true ∧
    (getC (x true false false) 0).saving = false ∧ (getC (x true false false) 0).restoring = false ∧
    (getC (x false false false) 0).preempt = false ∧ (getC (x false true false) 0).saving = true ∧
    (getC (x false true false) 0).filler = false ∧ (getC (x false false true) 0).restoring = true ∧
    (getC (x false true false) 0).atPoint = false ∧ imagesCool (x false true false) 0 = true ∧ treadleRuns (x false true false) = true ∧ (getC (x false false true) 0).st = .running ∧
    (getC (setC (running []) 0 { st := .running, saving := true, atPoint := true }) 0).atPoint = true := by
  decide +kernel

/-- `HardwareErrors`: an error below, at and without THRESH, the last unit of a type; a window at its end and before it; a memory word
that is sound and one that is marked. -/
theorem witness_HardwareErrors :
    let u : UnitId := ⟨3, 15⟩
    let w : Window := { unit := u, opened := 0, count := 4 }
    let s (n : Nat) : State := { setF State.reset (.glbRetire 3) 31 16 n with windows := [w] }
    powered (s 5) = true ∧ (s 5).failed = false ∧ u.idx < unitCount u.ty ∧ openWindow (s 5) u = some w ∧ openWindow State.reset u = none ∧
    rfld (s 5) (.glbRetire u.ty) 31 16 = 5 ∧ w.count + 1 = 5 ∧ rfld (s 0) (.glbRetire u.ty) 31 16 = 0 ∧ w.count + 1 < rfld (s 6) (.glbRetire u.ty) 31 16 ∧
    (s 5).windows.find? (fun x => x.unit == u) = some w ∧ 0 + windowTicks (s 5) u.ty ≤ ({ s 5 with fticks := windowTicks (s 5) u.ty } : State).fticks ∧
    (s 5).fticks < 0 + windowTicks (s 5) u.ty ∧ (locate State.reset 0).isSome = true ∧ State.reset.ue.contains 0 = false ∧
    ({ State.reset with ue := [0] } : State).ue.contains 0 = true ∧ (⟨0, 0⟩ : UnitId).ty.val ≠ 3 ∧ (⟨0, 0⟩ : UnitId).idx < unitCount 0 ∧
    (State.reset.lastExpiry = none ∧ 5 + 2000000 < ({ State.reset with fticks := 2000006 } : State).fticks ∧
      ({ State.reset with fticks := 2000005 } : State).fticks ≤ 5 + 2000000) := by
  decide +kernel

/-! ## The host -/

/-- Partition 0 with the rings of `k` enabled, TAIL at `tail`. -/
def hosted (k : Nat) (tail : Nat := 0) (s : State := ready 3 .none []) : State :=
  setRing (setF (setF s (ringSqCtl k) 31 31 1) (ringCqCtl k) 31 31 1) k { sqTail := tail }

/-- The device in recovery. -/
def recovery : State := setF (ready 3 .none []) .secStatus 3 0 2

/-- `Doorbells`: in recovery, a ring off and on, a tail at the limit of the free entries and one beyond; the same of a completion
head; inline records taken and not; pages of PF0 and of a VF, and one that names no context; a function in D3hot; a half held. -/
theorem witness_Doorbells :
    let s := hosted 0 15
    let a := hosted 64 15
    let c := setF s (.cqCtl 0) 15 0 3
    let i := ready 0 .running []
    let v : State := { setR (ready 3 .stopped []) (.prtComp 0) 0x8011FFFFFFFFFF00 with vfs := 2 }
    let d : State := { s with pci := { s.pci with d3hot := [0] } }
    let half : State := { s with halves := [(0, Reg.offset (.bar4Win 0), 5)] }
    (hostFn s 0 = true ∧ inD3hot s 0 = false ∧ hostFn d 0 = true ∧ inD3hot d 0 = true ∧ hostFn v 1 = true ∧
      partOfFunc v 1 = some 0 ∧ hostFn v 2 = true ∧ partOfFunc v 2 = none ∧
      half.halves.find? (fun h => h.1 == 0) = some (0, Reg.offset (.bar4Win 0), 5) ∧ Reg.offset (.bar4Win 0) ≠ Reg.offset .admDb ∧
      s.halves.find? (fun h => h.1 == 0) = none) ∧
    (hostOk s = true ∧ recovering recovery = true ∧ sqOn State.reset 0 = false ∧ recovering s = false) ∧
    (sqOn s 0 = true ∧ (getRing s 0).sqTail < sqSize s 0 ∧ (sqHead s 0 + 2 * sqSize s 0 - 1 - (getRing s 0).sqTail) % sqSize s 0 = 0 ∧
      fld (15 : Half) 15 0 = (15 + 0) % sqSize s 0 ∧ fld (0 : Half) 15 0 ≠ (15 + 0) % sqSize s 0 ∧ sqOn a 64 = true) ∧
    (cqOn c 0 = true ∧ (getRing c 0).cqHead < 16 ∧ ringSize (rfld c (ringCqCtl 0) 19 16) = 16 ∧
      (rfld c (ringCqCtl 0) 15 0 + 16 - (getRing c 0).cqHead) % 16 = 3 ∧ fld (3 : Half) 15 0 = (0 + 3) % 16 ∧
      [0, 1, 2, 3].all (fun d => fld (4 : Half) 15 0 != (0 + d) % 16) = true) ∧
    (hubUp i = true ∧ reelMode i (partOf 0) ≠ 2 ∧ exists' i 0 = true ∧ ctxCls i 0 = 0 ∧ recOp { w0 := 2 } = 2 ∧ recOp { w0 := 6 } = 6) := by
  decide +kernel

/-- A host with record 1 of ring `k` waiting, the partition's contexts as `s` has them. -/
def waiting (k : Nat) (s : State) : State := hosted k 1 s

/-- `CommandRecords`: the refusals of R430 and R431; CREATE with the credits at their limit and beyond. -/
theorem witness_CommandRecords :
    let n := ready 3 .none []
    let w (s : State) (r : Rec) : Bool := hubUp (waiting 0 s) && recWaits (waiting 0 s) 0 r
    let f : State := setR n (.prtComp 0) 0x8031FFFFFFFFFF00
    let after (s : State) (r : Rec) : State := reelCommand (takeRec (passHead (fetchRec (waiting 0 s) 0) 0) 0 r).1 0 (recData r)
    let full : State := (List.range 3).foldl (fun s i => setF (setC s (i + 1) { st := .running }) (.lkcred (i + 1)) 11 0 4095) n
    let l (x : Nat) : State := setF full (.lkcred 0) 11 0 x
    (w f { w0 := 1 } = true ∧ ringUsable (after f { w0 := 1 }) 0 0 = false ∧ w n { w0 := 9 } = true ∧ w n { w0 := 1, w2 := 1 } = true ∧
      ringUsable (after n { w0 := 1 }) 0 0 = true ∧ ringUsable (after n { w0 := 1 }) 1 0 = false ∧ opOk 0 9 = false ∧ reservedOk { w0 := 1, w2 := 1 } = false) ∧
    (w n { w0 := 1, w1 := 3 } = true ∧ reservedOk { w0 := 1, w1 := 3 } = true ∧ (getC (after n { w0 := 1 }) 0).st = .none ∧
      plyClosed n 0 = false ∧ n.resetting = [] ∧ (getC (ready 3 .running []) 0).st ≠ .none ∧ leaseNames n 0 = false ∧
      creditSum (l 4095) 0 + rfld (l 4095) (.lkcred 0) 11 0 + 1 = 16384 ∧
      creditSum (setC (l 4095) 5 { st := .running }) 0 + 4096 = 16384 + rfld (l 4095) (.lkcred 5) 11 0 + 1) := by
  decide +kernel

/-- `CommandRecords`, LAUNCH: no context; class 0 stopped, running and with a range; a filler that may be and may not; a range up to
NL and beyond. -/
theorem witness_CommandRecords_launch :
    let w (s : State) (r : Rec) : Bool := hubUp (waiting 0 s) && recWaits (waiting 0 s) 0 r && reservedOk r
    let nl : Nat := nlEff (ready 3 .stopped []) 0
    let p (st : CState) : State := setC (ready 3 .stopped []) 1 { st := st, cls := 3 }
    let f : Rec := { w0 := 2, w1 := 0x0003000000000000 }
    w (ready 3 .none []) { w0 := 2 } = true ∧ w (ready 0 .stopped []) { w0 := 2 } = true ∧ w (ready 0 .running []) { w0 := 2 } = true ∧
    w (ready 0 .stopped []) { w0 := 2, w1 := 0x100000000 } = true ∧ w (ready 3 .stopped []) f = true ∧ bit f.w1 48 = true ∧
    mayFill (ready 3 .stopped []) 0 1 = false ∧ mayFill (p .running) 0 1 = true ∧ (getC (p .stopped) 1).st ≠ .running ∧
    nl = 16 ∧ w (ready 3 .stopped []) { w0 := 2, w1 := 0x0F0000000000 } = true ∧
    nl < fld (0x0F0100000000 : Word) 37 32 + (fld (0x0F0100000000 : Word) 45 40 + 1) ∧
    fld (0x0F0000000000 : Word) 37 32 + (fld (0x0F0000000000 : Word) 45 40 + 1) ≤ nl := by
  decide +kernel

/-- `CommandRecords`: TEARDOWN, MOVE within and outside the partition's memory, FENCE, SIGNAL of a semaphore and of none, STAGE of a
bank of the host's and of none. -/
theorem witness_CommandRecords_rest :
    let s := ready 3 .stopped []
    let w (r : Rec) : Bool := hubUp (waiting 0 s) && recWaits (waiting 0 s) 0 r && reservedOk r
    w { w0 := 3 } = true ∧ w { w0 := 4 } = true ∧ w { w0 := 4, w3 := 0x100000000 } = true ∧ w { w0 := 5 } = true ∧
    w { w0 := 6, w1 := 0x1000000000 } = true ∧ w { w0 := 7, w1 := 4 } = true ∧ w { w0 := 7, w1 := 5 } = true ∧ w { w0 := 7, w1 := 0x300 } = true ∧
    movePart s 0 0 1 false = some 0 ∧ movePart s 0 0 1 true = some 0 ∧ movePart s 0 0x3000000000 1 true = none ∧ reelRefuses s 0 = false ∧
    reelRefuses { s with act := [(Reg.offset (.reelCtl 0), 10)] } 0 = true ∧ exists' (ready 3 .none []) 0 = false ∧
    sat (match applySignal s 0x1000000000 true none with
      | .ok t => .ok t
      | .error _ => .error (.no "no semaphore")) = false ∧
    sat (match applySignal s 0x1000000000 false none with
      | .ok t => .ok t
      | .error _ => .error (.no "no semaphore")) = true ∧ bankOf s 0 4 = true ∧ bankOf s 0 5 = false := by
  decide +kernel

/-- Eight bytes of a list, as a word. -/
def wordAt (l : List Byte) (n : Nat) : Word := BitVec.ofNat 64 (ofBytes ((l.drop n).take 8))

theorem words_of_32 (l : List Byte) (h : l.length = 32) :
    [wordAt l 0, wordAt l 8, wordAt l 16, wordAt l 24].flatMap wordBytes = l := by
  have w (n : Nat) (hn : n ≤ 24) : wordBytes (wordAt l n) = (l.drop n).take 8 := by
    unfold wordAt
    exact wordBytes_ofBytes _ (by rw [List.length_take, List.length_drop]; omega)
  have e0 : l.drop 0 = l := rfl
  have e2 : l.drop 16 = (l.drop 8).drop 8 := by rw [List.drop_drop]
  have e3 : l.drop 24 = ((l.drop 8).drop 8).drop 8 := by rw [List.drop_drop, List.drop_drop]
  have e4 : (l.drop 24).take 8 = l.drop 24 := List.take_of_length_le (by rw [List.length_drop]; omega)
  simp only [List.flatMap_cons, List.flatMap_nil, List.append_nil, w 0 (by omega), w 8 (by omega), w 16 (by omega), w 24 (by omega), e4]
  rw [e3, e2, e0, List.take_append_drop, List.take_append_drop, List.take_append_drop]

/-- A record's tag can be the one that a keyed device asks for: the tag is no part of what it covers. -/
theorem authentic (s : State) (r : Rec) (d : List Byte) (hk : keyed s = true) (hd : rfld s .secStatus 9 8 ≠ 3) :
    ∃ a b c e, critAuth s { r with w4 := a, w5 := b, w6 := c, w7 := e } d = true := by
  have hl (key data : List Byte) (x : String) : (Config.kmac256 key data 256 x).length = 32 := by
    rw [Config.kmac256, List.length_map, List.length_range]
  obtain ⟨tag, ht⟩ : ∃ tag, tag = Config.kmac256 s.sec.key (s.sec.uid ++ critHead r ++ d) 256 "KV12 Critical" := ⟨_, rfl⟩
  have hw := words_of_32 tag (by rw [ht, hl])
  have hh (a b c e : Word) : critHead { r with w4 := a, w5 := b, w6 := c, w7 := e } = critHead r := rfl
  have hc (a b c e : Word) : critTag { r with w4 := a, w5 := b, w6 := c, w7 := e } = [a, b, c, e].flatMap wordBytes := rfl
  refine ⟨wordAt tag 0, wordAt tag 8, wordAt tag 16, wordAt tag 24, ?_⟩
  rw [critAuth, if_neg hd, if_pos hk, beq_iff_eq, hh, hc, hw, ht]

/-- A device with a command key, and a record of the admin ring waiting. -/
def secured : State := setF (waiting 64 (ready 3 .none [])) .secStatus 6 6 1

/-- A CRITICAL record of a kind: LEN, ARG, COUNTER. -/
def critical (kind len arg : Nat) (ctr : Word := 1) : Rec := { w0 := 8, w1 := BitVec.ofNat 64 (arg * 2 ^ 40 + len * 2 ^ 8 + kind), w2 := ctr }

/-- The state in which a record of `secured` is checked. -/
def checked (r : Rec) : State :=
  let taken := (takeRec (passHead (fetchRec secured 64) 64) 64 r).1
  if critLen r = 0 then taken else toHost taken (.read r.w3.toNat (critLen r))

/-- `CriticalCommands`: a record of each kind passes every check, whatever its tag has to be (`authentic`), and is refused for each
of its form, its tag (no key; debug level 3), and its counter. -/
theorem witness_CriticalCommands :
    let kinds : List (Nat × Nat × Nat) := [(1, 40, 1), (2, 8, 0), (3, 72, 4), (4, 100, 1), (5, 32, 0), (6, 0, 1), (7, 24, 0), (8, 8, 0)]
    let un : State := setF secured .secStatus 6 6 0
    let d3 : State := setF secured .secStatus 9 8 3
    (hubUp secured = true ∧ secured.fw = none ∧ sqOn secured 64 = true ∧ sqHead secured 64 ≠ (getRing secured 64).sqTail) ∧
    (kinds.all (fun k =>
      let r := critical k.1 k.2.1 k.2.2
      recOp r == 8 && critKind r == k.1 && critLen r == k.2.1 && critForm r (keyed (checked r)) (List.replicate k.2.1 0) == 0 && critCounter (checked r) r &&
        keyed (checked r) && rfld (checked r) .secStatus 9 8 != 3 && !critCounter (checked r) { r with w2 := 0 }) = true) ∧
    (critForm (critical 9 0 0) true [] = 1 ∧ critForm (critical 5 31 0) true (List.replicate 31 0) = 2 ∧ keyed un = false ∧
      critForm (critical 8 8 0) true [0, 0, 0, 0, 0, 0, 0, 1] = 2 ∧ critForm (critical 4 32 0) true (List.replicate 32 0) = 0 ∧
      critAuth un (critical 5 32 0) [] = false ∧ rfld d3 .secStatus 9 8 = 3 ∧ critAuth d3 (critical 5 32 0) [] = false) ∧
    (critForm (critical 4 4659 0) false (List.replicate 4659 0) = 0 ∧ critCounter un (critical 4 4659 0) = true) := by
  decide +kernel

/-- `CriticalCommands`: the tag of each of those records exists. -/
theorem witness_CriticalCommands_tag (r : Rec) (d : List Byte) (h : keyed (checked r) = true) (h' : rfld (checked r) .secStatus 9 8 ≠ 3) :
    ∃ q : Rec, q.w0 = r.w0 ∧ q.w1 = r.w1 ∧ q.w2 = r.w2 ∧ q.w3 = r.w3 ∧ critAuth (checked r) q d = true := by
  obtain ⟨a, b, c, e, h⟩ := authentic (checked r) r d h h'
  exact ⟨{ r with w4 := a, w5 := b, w6 := c, w7 := e }, rfl, rfl, rfl, rfl, h⟩

/-- `CriticalCommands`: where the actions branch: the running slot and the other; an edge two strokes ahead and one; a key that is
there; an owner's sequence number; a reel that is off and one that records; the ring inside its memory; device IDs. -/
theorem witness_CriticalCommands_actions :
    let s := secured
    rfld s .secStatus 4 4 = 0 ∧ (2 : Nat) = (strokeNow s).toNat + 2 ∧ s.sec.loaded = none ∧ critArg (critical 4 100 1) ≠ 0 ∧
    critArg (critical 6 0 3) % 4 = 3 ∧ reelMode s 0 = 0 ∧ rfld s (.reelCtl 0) 1 0 = 0 ∧
    rfld (setF s (.reelCtl 0) 1 0 1) (.reelCtl 0) 1 0 ≠ 0 ∧
    (let t := setAct s (.reelRing 0) 0x0000200000000000
     0 + 0x200000 ≤ reelSize t 0 ∧ inHbmOrBoard t 0 (reelBase t 0) 0x200000 = true ∧ ueIn t (reelBase t 0) 0x200000 = false ∧
       ueIn { t with ue := [3] } (reelBase t 0) 0x200000 = true ∧ ¬ 0 + 0x200001 ≤ reelSize t 0) ∧
    devidOk 0x00010000 = true ∧ devidOk 0x0001 = false ∧ (List.range 64).all (fun c => (getC s c).st == .none) = true := by
  decide +kernel

/-- A ring with a MOVE in progress. -/
def moving (toHost : Bool) (loc len : Nat) (s : State := ready 3 .stopped []) : State :=
  setRing s 0 { moves := [{ num := 1, cmdid := 7, host := 0x1000, loc := loc, len := len, toHost := toHost }] }

/-- `HostTransfers`, MOVE: each direction; a range that is the partition's and one that is not; an uncorrectable word; a standby. -/
theorem witness_HostTransfers :
    let s := moving true 0x100 32
    let m : MoveSt := { num := 1, cmdid := 7, host := 0x1000, loc := 0x100, len := 32, toHost := true }
    let sb : State := setF (setF s .plyCfg 1 0 2) .plyCfg 4 4 1
    hostOk s = true ∧ s.failed = false ∧ (getRing s 0).moves.find? (fun m => m.cmdid == 7) = some m ∧ movePart s 0 0x100 32 true = some 0 ∧
    movePart (moving true 0x3000000000 1) 0 0x3000000000 1 true = none ∧ sat (hostPages s 0x100 32 false) = true ∧ ueIn s 0x100 32 = false ∧
    ueIn { s with ue := [8] } 0x100 32 = true ∧ sat (hostPages (moving false 0x100 2) 0x100 2 true) = true ∧
    plyClosed s 0 = false ∧ plyClosed (setAct sb .plyCfg (getR sb .plyCfg)) 0 = true := by
  decide +kernel

/-- `HostTransfers`, the host window and BAR4: a load that waits and none; a window in the partition's pages and outside them; pages
that are sound and that are not; a write that is taken, and one that a replay of all inputs refuses. -/
theorem witness_HostTransfers_windows :
    let h : HostLoad := { reg := 1, bytes := 8, signed := false, addr := 0x800000000000, seq := 0 }
    let s : State := runs { thread [] with hostLoads := [h] }
    let u : State := unified (ready 3 .stopped [])
    let full : State := { u with act := [(Reg.offset (.reelCtl 0), 10)] }
    let a := bar4Addr u 0 0
    hostOk s = true ∧ s.failed = false ∧ getT? s ⟨1, 0⟩ = none ∧ inD3hot u 0 = false ∧ 0 + 8 ≤ bar4Bytes u 0 ∧
    inD3hot { u with pci := { u.pci with d3hot := [0] } } 0 = true ∧ (getT? s t0).map (fun th => th.hostLoads) = some [h] ∧
    hostFn u 0 = true ∧ recovering u = false ∧ bar4Part u 0 a 8 = some 0 ∧ bar4Part State.reset 0 a 8 = none ∧
    sat (hostPages u a 8 false) = true ∧ sat (hostPages u a 8 true) = true ∧ ueIn u a 8 = false ∧ ueIn { u with ue := [a / 32] } a 8 = true ∧
    reelRefuses u 0 = false ∧ plyClosed u 0 = false ∧ reelRefuses full 0 = true ∧ bar4Part full 0 a 8 = some 0 := by
  decide +kernel

/-! ## BAR0 -/

/-- `RegisterWrites`: sizes and alignments that are taken and not; a half held and its upper half; a register of another function. -/
theorem witness_RegisterWrites :
    let s := State.reset
    let v : State := { s with vfs := 1 }
    let half : State := { s with halves := [(0, Reg.offset (.bar4Win 0), 5)] }
    let x (off len : Nat) : Tlp := { off := off, len := len }
    let pend : State := { s with pci := { s.pci with masked := [(0, 7)], pending := [(0, 7)] } }
    hostFn s 0 = true ∧ sizeOk (x 0 8) = true ∧ sizeOk (x 4 8) = false ∧ sizeOk (x 4 4) = true ∧ sizeOk (x 0 16) = false ∧
    sizeOk { x 0 8 with enabled := false } = false ∧ recovering s = false ∧ hostFn recovery 0 = true ∧ recovering recovery = true ∧
    inD3hot s 0 = false ∧ inD3hot { s with pci := { s.pci with d3hot := [0] } } 0 = true ∧ (0x40 : Nat) / 4096 = (0 : Fin 64).val ∧
    pend.pci.pending.contains (0, 7) = true ∧ s.pci.pending.contains (0, 7) = false ∧
    bit (0 : Word) 0 = false ∧ regAt (Reg.offset (.bar4Win 0)) = some (.bar4Win 0) ∧ (Reg.wide (.bar4Win 0)) = true ∧
    (Reg.wide (.sqCtl 0)) = false ∧ responds s (.bar4Win 0) = true ∧ mayW s 0 (.bar4Win 0) = true ∧ mayW v 1 (.bar4Win 0) = false ∧
    hostFn v 1 = true ∧ s.halves.find? (fun h => h.1 == (0 : Func).val) = none ∧ half.halves = [((0 : Func).val, Reg.offset (.bar4Win 0), 5)] ∧
    Reg.offset (.sqCtl 0) ≠ Reg.offset (.bar4Win 0) ∧ responds recovery (.prtComp 0) = false := by
  decide +kernel

/-- `WriteEffects`: a register that is staged only; a context that runs and one that does not, with the credits at their limit and
beyond; rings on and off; units that are and are not; a bank; the event ring on and off. -/
theorem witness_WriteEffects :
    let r := ready 3 .running []
    let n := ready 3 .none []
    let three (x : Nat) : State := (List.range 3).foldl (fun s i => setF (setC s (i + 1) { st := .running }) (.lkcred (i + 1)) 11 0 x) n
    (Reg.staged (.prtComp 0)) = true ∧ ctxActive r 0 = true ∧ ctxActive n 0 = false ∧ creditSum (three 4095) 0 + 4095 + 1 = 16384 ∧
    16384 < creditSum (setC (three 4095) 4 { st := .running }) 0 + fld (4095 : Word) 11 0 + 1 ∧
    bit (getR (hosted 0) (.sqCtl 0)) 31 = true ∧ bit (getR n (.sqCtl 0)) 31 = false ∧ (getC r 0).st ≠ .none ∧ (getC n 0).st = .none ∧
    bit (1 : Word) 0 = true ∧ unitCount 3 ≤ 16 ∧ 15 < unitCount 3 ∧ bit (0x8000000000000000 : Word) 63 = true ∧
    n.unretire.contains ⟨3, 15⟩ = false ∧ bit (getR (setF n .evtCtl 31 31 1) .evtCtl) 31 = true ∧ bit (getR n .evtCtl) 31 = false ∧
    bit (0x80000000 : Word) 31 = true ∧ retired (setR n (.lnkPhy 8) 8) 3 8 = false ∧ bit (getR (setR n (.lnkPhy 8) 8) (.lnkPhy 8)) 3 = true := by
  decide +kernel

/-- `RegisterReads`: an absent slot, a register of another function, a wide and a narrow one, a half latched, a counter at its limit
and one below. -/
theorem witness_RegisterReads :
    let s := State.reset
    let v : State := { s with vfs := 1 }
    let c : Reg := .cnt 0 3
    let l : State := { s with latches := [(0, c.offset, 9)] }
    hostFn s 0 = true ∧ inD3hot s 0 = false ∧ inD3hot { s with pci := { s.pci with d3hot := [0] } } 0 = true ∧ bar4Bytes s 0 = 2 ^ (30 + 0) ∧
    hostFn recovery 0 = true ∧ recovering recovery = true ∧ recovering s = false ∧ regAt 0x90000 = none ∧ mayR v 1 c = false ∧ hostFn v 1 = true ∧
    regAt c.offset = some c ∧ c.offset % 8 = 0 ∧ (c.offset + 4) / 8 * 8 = c.offset ∧ responds s c = true ∧ mayR s 0 c = true ∧ c.wide = true ∧
    (Reg.wide (.sqCtl 0)) = false ∧ mayR s 0 (.sqCtl 0) = true ∧ regAt (Reg.offset (.sqCtl 0)) = some (.sqCtl 0) ∧ responds recovery c = false ∧
    l.latches.find? (fun l => l.1 == (0 : Func).val && l.2.1 == c.offset) = some (0, c.offset, 9) ∧
    s.latches.find? (fun l => l.1 == (0 : Func).val && l.2.1 == c.offset) = none ∧
    fld (0xFFFFFFFFFFFE : Word) 47 0 + 1 = 0xFFFFFFFFFFFF := by
  decide +kernel

/-- `SecurityEvents`: a check of an empty bank, and of one with an entry that it refuses; an attestation with CHAIN and without; GO
outside recovery and in it. -/
theorem witness_SecurityEvents :
    let s : State := { State.reset with checking := [0] }
    let bad : State := setF (setR (setR s (.stgEaddr 0 0) 0x8000000000000008) (.stgEval 0 0) 1) (.stgStatus 0) 2 0 1
    let att (chain : Bool) : State := { State.reset with sec := { State.reset.sec with att := some ([], 0x1000, chain) } }
    powered s = true ∧ s.failed = false ∧ s.checking.contains (0 : Fin 5).val = true ∧
    stgTest { s with checking := s.checking.filter (· != 0), armed := tabDel s.armed 0 } 0 = none ∧
    (stgTest { bad with checking := bad.checking.filter (· != 0), armed := tabDel bad.armed 0 } 0).isSome = true ∧
    hostOk (att true) = true ∧ fwStalls (att true) = false ∧ (att true).sec.att = some ([], 0x1000, true) ∧
    (att false).sec.att = some ([], 0x1000, false) ∧ hostFn State.reset 0 = true ∧ recovering State.reset = false ∧
    recovering recovery = true ∧ hostFn recovery 0 = true ∧ inD3hot recovery 0 = false ∧ inD3hot { State.reset with pci := { d3hot := [0] } } 0 = true ∧ (getR recovery .rcvLen).toNat = 0 ∧ ([] : List Byte).length = 0 := by
  decide +kernel

/-! ## Resets, pins and power -/

/-- `Resets`: a reset of PF0, of the function of a partition and of one of none; VF Enable; boots below and at 0 °C; a partition
reset. -/
theorem witness_Resets :
    let s := ready 3 .stopped []
    let v : State := { setR s (.prtComp 0) 0x8011FFFFFFFFFF00 with vfs := 2 }
    let b : State := { s with power := { s.power with bootWait := true } }
    let r : State := { s with resetting := [(0, 1)] }
    hostFn s 0 = true ∧ hostFn v 1 = true ∧ hostFn v 2 = true ∧ (1 : Func).val ≠ 0 ∧ partOfFunc v 1 = some 0 ∧ recovering s = false ∧ recovering recovery = true ∧ hostFn recovery 0 = true ∧
    partOfFunc v 2 = none ∧ s.pci.bar4Log = [] ∧ State.wf State.reset = true ∧ powered s = true ∧ hostOk s = true ∧ s.vfs = 0 ∧ 0 < v.vfs ∧
    b.power.pwrok = true ∧ b.power.thermtripN = true ∧ b.power.bootWait = true ∧
    r.resetting.find? (fun x => x.1 == (0 : PartN).val) = some (0, 1) ∧ r.failed = false := by
  decide +kernel

/-- The worked example of R173, and a stack at step 4 (R187): the 32 granules of row 0 that lie in it wait, the next does not. -/
theorem test_stacks :
    let s : State := setF State.reset (.hbmTemp 0) 10 8 4
    locate State.reset 0x3123456780 = some ⟨0, 96 + 43, 50903424⟩ ∧ waitsHot s 0x1FFF 1 = true ∧ waitsHot s 0x2000 256 = false ∧
    waitsHot s 0x1FFF 2 = true ∧ waitsHot State.reset 0x1FFF 1 = false := by
  decide +kernel

/-- `PowerAndPins`: each pin high and low, each clock on and off, a regulator asked; limits at their ends and beyond; a temperature
that rises, falls by less and by more than the margin, and enters the alarm. -/
theorem witness_PowerAndPins :
    let s := State.reset
    let p (x : PowerSt) : State := { s with power := x }
    let t (k : Nat) : State := setF { s with throttled := [3] } (.hbmTemp 3) 10 8 k
    s.power.pwrok = true ∧ s.power.prochotN = true ∧ (p { s.power with prochotN := false }).power.prochotN = false ∧
    s.power.thermtripN = true ∧ clockOn s.power .pcie = true ∧ clockOn s.power .core = true ∧
    clockOn (p { s.power with clkSk0 := false }).power .sk0 = false ∧ (p { s.power with avs := [2] }).power.avs.contains (2 : Fin 4).val = true ∧
    300 ≤ (300 : BitVec 16).toNat ∧ (2600 : BitVec 16).toNat ≤ 2600 ∧ 2600 < (2601 : BitVec 16).toNat ∧ (299 : BitVec 16).toNat < 300 ∧
    (p { s.power with pwrok := false }).power.pwrok = false ∧ bit s.power.status 6 = false ∧
    bit (p { s.power with status := 64 }).power.status 6 = true ∧
    (powered s = true ∧ nextDuty 0 84 = 0 ∧ nextDuty 0 85 = 1 ∧ nextDuty 1 82 = 1 ∧ nextDuty 1 81 = 0 ∧ nextDuty 3 105 = 4 ∧ nextDuty 4 102 = 4 ∧
      nextDuty 4 101 = 3 ∧ rfld (t 3) (.hbmTemp 3) 10 8 = 3 ∧ (t 3).throttled.contains (3 : Fin 12).val = true) := by
  decide +kernel

/-! ## Headline results -/

/-- `RoundTrips`, the register map: registers that exist at the ends of their blocks, and ones that do not. -/
theorem witness_RoundTrips_registers :
    Reg.exists' (.cnt 63 39) = true ∧ Reg.exists' (.stgEval 4 255) = true ∧ Reg.exists' (.cnt 64 0) = false ∧ regAt 0 ≠ none := by
  decide +kernel

/-- `TripLatched`: a device with THERMTRIP_N low takes a step that answers a next state, and is not cold reset. -/
theorem witness_TripLatched :
    let s : State := { State.reset with power := { State.reset.power with thermtripN := false }, pending := [.prochotAssert] }
    s.power.thermtripN = false ∧ (∀ k g rest, s.pending ≠ .coldReset k g :: rest) ∧ ∃ t, step s = .next t := by
  refine ⟨rfl, fun k g rest h => ?_, _, rfl⟩
  exact absurd (List.cons.inj h).1 (by intro e; cases e)

/-- `StateStaysCanonical`: the state after reset has the form, and takes a step. -/
theorem witness_StateStaysCanonical :
    State.wf State.reset = true ∧ ∃ t, step State.reset = .next t := ⟨by decide +kernel, _, rfl⟩

/-! ## Well-formed commands: an ill-formed term for each check is refused -/

/-- A check refuses one command and lets another through. -/
def refuses (bad good : Instr) : Bool := !bad.wf && good.wf

theorem test_wf_units_and_lanes :
    (refuses (.correctedError ⟨3, 16⟩) (.correctedError ⟨3, 15⟩) &&
      refuses (.portTrained 8 { lanes := 3, peerDev := 0, peerPort := 0, delay := 0 }) (.portTrained 8 { lanes := 4, peerDev := 0, peerPort := 0, delay := 0 })) = true := by
  decide +kernel

theorem test_wf_messages :
    let m (n : Nat) : Msg := { op := .put, len := 1, data := List.replicate n 0 }
    (refuses (.put (m 1)) (.put (m 2)) && refuses (.atomicAdd (m 3)) (.atomicAdd (m 2)) &&
      refuses (.multicastPut (m 0)) (.multicastPut (m 2))) = true := by
  decide +kernel

theorem test_wf_records :
    let r (n : Nat) : Rec := { w0 := BitVec.ofNat 64 n }
    ([(1, Instr.create), (2, .launch), (3, .teardown), (4, .move), (5, .ringFence), (6, .signal), (7, .stage)].all (fun x =>
      refuses (x.2 (.ctx 0) (r (if x.1 = 1 then 2 else 1))) (x.2 (.ctx 0) (r x.1)) && (x.2 .admin (r 9)).wf)) = true := by
  decide +kernel

theorem test_wf_critical :
    let r (k n : Nat) : Rec := { w0 := 8, w1 := BitVec.ofNat 64 (k + 256 * n) }
    ([(1, Instr.fwLoad), (2, .fwActivate), (3, .stageApply), (4, .keyInstall), (5, .keyRotate), (6, .debugUnlock), (7, .reelExport),
      (8, .devidAssign)].all (fun x =>
        refuses (x.2 (r (if x.1 = 1 then 2 else 1) 0) .bad) (x.2 (r x.1 0) .bad) && refuses (x.2 (r x.1 2) (.ok [0])) (x.2 (r x.1 1) (.ok [0])) &&
          refuses (x.2 { r x.1 0 with w0 := 4 } .bad) (x.2 (r 9 0) .bad))) = true := by
  decide +kernel

theorem test_wf_host :
    (refuses (.bar4Read 0 0 0) (.bar4Read 0 0 1) && refuses (.bar4Write 0 0 [] false) (.bar4Write 0 0 [0] false) &&
      refuses (.regWrite { off := 0x4000000 } 0) (.regWrite { off := 0x3FFFFF8 } 0) &&
      refuses (.counterRead { off := 0x4000000 }) (.counterRead {}) && refuses (.regReadLatch { off := 0x4000000, len := 4 }) (.regReadLatch { off := 4, len := 4 }) &&
      refuses (.regReadLatch {}) (.regReadLatch { len := 4 }) && refuses (.inlineRecord 1 16 true {}) (.inlineRecord 0 16 true {}) &&
      refuses (.sqTailWrite 1 (.ctx 16) 0) (.sqTailWrite 0 (.ctx 16) 0) && refuses (.cqHeadWrite 1 (.ctx 16) 0) (.cqHeadWrite 0 (.ctx 16) 0) &&
      refuses (.vfEnableSet 0) (.vfEnableSet 15)) = true := by
  decide +kernel

/-- No row of the table gives bits. -/
theorem test_no_table_word : decodeTableWord 128 0 = none ∧ (State.reset).withFetchWord 128 0 = State.reset := ⟨rfl, rfl⟩

/-! ## The spec's worked examples -/

/-- 02, worked conversions: the code, and whether a saturation is counted. -/
theorem test_conversions :
    let c (f : Fmt) (q : ℚ) (code sat : Nat) : Bool := (f.write (.num q)).1 == code && (f.write (.num q)).2.sat == sat
    (c .kf8 (3 / 10) 0x32 0 && c .kf8 (17 / 16) 0x40 0 && c .kf8 245 0x7F 0 && c .kf8 248 0x7F 1 && c .kf8 (17 / 10000) 0x02 0 &&
      c .kf8 (-4 / 10000) 0 0 && c .kf16 (-3 / 4294967296) 0 0 && c .kf16 (4095 / 4398046511104) 0x0200 0 &&
      c .kf16 (1025 / 1024) 0x3E00 0 && c .ki8 (5 / 2) 2 0 && c .ki8 (-1307 / 10) 0x80 1 && c .u10 (10236 / 10) 0x3FF 1 &&
      c .u10 (-1 / 5) 0 0 && c .u10 (-3 / 5) 0 1) = true := by
  decide +kernel

/-- 03, one block of the reference pass: the elements of block 2 of row 37, T = 8 and c = 256. -/
def workedBlock : List Val :=
  (List.range 32).map (fun j => if j = 5 then .num 40 else if j = 17 then .num (-9 / 10) else .num (1 / 2))

/-- 03: column 69 is escaped with the record word 0x48802545, and the scale's code is 0x99. -/
theorem test_worked_block :
    let q := quantBlock ⟨.kf4, 8, 256, none⟩ {} 37 2 32 workedBlock
    q.2.1 = 0x99 ∧ q.1[5]? = some 0b1000 ∧ q.1[17]? = some 0b1111 ∧ q.1[0]? = some 0b0101 ∧ q.2.2.recs = [(0x2545, 0x4880)] := by
  decide +kernel

/-- 03: with the list full, the scale's code is 0xAF, the small elements round to 0 and one slub overflow is counted. -/
theorem test_worked_block_refused :
    let q := quantBlock ⟨.kf4, 8, 256, none⟩ { full := true } 37 2 32 workedBlock
    q.2.1 = 0xAF ∧ q.1[5]? = some 0b0111 ∧ q.1[0]? = some 0 ∧ q.2.2.h.slub = 1 := by
  decide +kernel

/-- 05, the statistics of a row of 8 elements: n = 8, mean 5, M2 = 32. -/
theorem test_worked_statistics :
    let st (x : Nat) : Stat := (statStep none (.num x)).1
    let lv := [2, 4, 4, 4, 5, 5, 7, 9].map (fun x => some (st x))
    (pairTree (fun a b => statComb a b) 8 lv).1.map (fun z => statBytes z) =
      some (leBytes 8 8 ++ leBytes 4 (kf32Code (.num 5)) ++ leBytes 4 (kf32Code (.num 32))) := by
  decide +kernel

/-- 11 and 12: words written out from the encoding table spell their commands: `add s5, s6, 256`, an `mma`, the word of zeros; a
reserved opcode spells none but the word that faults. -/
theorem test_words :
    Necel.command t0 0x1001_0000_0000_0000_0000_0100_0006_0005 = .add t0 (word 1 0 [5, 6, 0x100]) ∧
    Necel.command t0 0x5004_0000_0032_0000_0000_0000_003D_003C = .mma t0 (word 4 0 [0x3C, 0x3D, 0, 0, 0, 0x32]) ∧
    Necel.command t0 0 = .nop t0 (word 0 0 []) none ∧ Necel.command t0 (0x0B <<< 120) = .nop t0 (word 0 0 []) (some 0x0B) ∧
    Necel.command t0 (0x4300 <<< 112) = .draftMcastSend t0 (word 0 0 []) ∧
    Necel.command t0 (0x4301 <<< 112) = .draftMcastRecv t0 (word 1 0 []) ∧
    Necel.wordOf ([5, 0, 6, 0, 0, 1] ++ List.replicate 8 0 ++ [1, 0x10]) = 0x1001_0000_0000_0000_0000_0100_0006_0005 := by
  decide +kernel

/-- 16: the CRC-32 of IEEE 802.3, on its customary check string "123456789". -/
theorem test_crc : crc32 [0x31, 0x32, 0x33, 0x34, 0x35, 0x36, 0x37, 0x38, 0x39] = 0xCBF43926 := by decide +kernel

/-- 20: the IDCODE of the A1 device. -/
theorem test_idcode : idcode State.reset = 0x10C12757 := by decide +kernel

/-- `RoundTrips`, messages and flits: a message whose length counts its data, one of a kind without data, and a flit whose payload fits. -/
theorem witness_RoundTrips :
    (msg .put).data.length = (if opData (msg .put).op then (msg .put).len.toNat + 1 else 0) ∧
    ({ op := .signal } : Msg).data.length = (if opData ({ op := .signal } : Msg).op then 1 else 0) ∧ ({} : Flit).payload.length ≤ 244 := by
  decide +kernel

/-- 11: the word of `add s5, s6, 256` adds 256 to s6. -/
theorem test_worked_add :
    after (.add t0 (word 1 0 [5, 6, 0x100])) (running [0, 0, 0, 0, 0, 7]) (fun s => reg (th0 s) 5 == 263) = true := by
  decide +kernel

/-- 16, the route of a put from device (3, 2, 15, 5), 0x197D, to 0xA48A: its first port is P9; at x = 20, P10; then P12; then P6. -/
theorem test_worked_route :
    let up (n : Nat) (s : State) : State := setF s (.lnkPort n) 2 0 2
    let at' (d : Nat) : State := up 6 (up 9 (up 10 (up 12 (setR State.reset .lnkId (BitVec.ofNat 64 (0x8000000000000000 + 0xFFFF * 65536 + d))))))
    let m : Msg := { op := .put, src := 0x197D, dst := 0xA48A }
    let hop (came : Option (Nat × Nat)) (c : Coord) : Nat × Nat := match nextHop (at' c.id) came m with
      | .ok p => p
      | .error _ => (99, 99)
    (coordOf 0x197D == ⟨3, 2, 15, 5⟩ && Coord.id ⟨20, 9, 1, 2⟩ == 0xA48A) = true ∧
    hop none ⟨3, 2, 15, 5⟩ = (9, 2) ∧ hop (some (8, 2)) ⟨0, 2, 15, 5⟩ = (9, 3) ∧ hop (some (8, 3)) ⟨31, 2, 15, 5⟩ = (9, 3) ∧
    hop (some (8, 3)) ⟨20, 2, 15, 5⟩ = (10, 2) ∧ hop (some (11, 2)) ⟨20, 9, 15, 5⟩ = (12, 3) ∧
    hop (some (13, 3)) ⟨20, 9, 0, 5⟩ = (12, 3) ∧ hop (some (13, 3)) ⟨20, 9, 1, 5⟩ = (6, 8) := by
  decide +kernel

/-- 21: the offsets of MEM_SHARE_2, of bank 2's registers and of context 37's CNT_SAT. -/
theorem test_worked_offsets :
    Reg.offset (.memShare 2) = 0x600210 ∧ Reg.offset (.stgEaddr 2 0) = 0x304000 ∧ Reg.offset (.stgEval 2 0) = 0x304008 ∧
    Reg.offset (.stgCheck 2) = 0x305008 ∧ Reg.offset (.stgApply 2) = 0x305010 ∧ Reg.offset (.cnt 37 3) = 0x514A18 := by
  decide +kernel

/-- 19, counters across a reset: an accepted 1,000 writes CRES = 66,536; 1,200 writes none; 66,537 writes 132,073. -/
theorem test_worked_counters :
    let r (n : Word) : Rec := { w0 := 8, w1 := 3, w2 := n }
    let a := persist State.reset (r 1000)
    a.flash.auth.cres = 66536 ∧ getR a .secCtr = 1000 ∧ (persist a (r 1200)).flash.auth.cres = 66536 ∧
      (persist a (r 66537)).flash.auth.cres = 132073 := by
  have k (n : Word) : critKind { w0 := 8, w1 := 3, w2 := n } ≠ 5 := by
    have h : fld (3 : Word) 7 0 = 3 := by decide
    exact fun e => absurd (h.symm.trans e) (by decide)
  have c := (persist_cres State.reset { w0 := 8, w1 := 3, w2 := 1000 } (k _) authGood_new).trans
    (show _ = 66536 by decide +kernel)
  have g := persist_authGood State.reset { w0 := 8, w1 := 3, w2 := 1000 } (k _) authGood_new
  refine ⟨c, ?_, (persist_cres _ _ (k _) g).trans (by rw [c]; decide +kernel), (persist_cres _ _ (k _) g).trans (by rw [c]; decide +kernel)⟩
  show getR (persist State.reset { w0 := 8, w1 := 3, w2 := 1000 }) .secCtr = 1000
  rw [persist_good State.reset { w0 := 8, w1 := 3, w2 := 1000 } (k _) authGood_new]
  decide +kernel

/-- 21: shares 10, 7 and 3 staged for partition 2 are checked, and armed for edge 9,000 at edge 8,990. -/
theorem test_worked_stage :
    let s := setR (setR (setR State.reset (.stgEaddr 2 0) 0x8000000000600210) (.stgEval 2 0) 0xCEA) .trdIndex 8990
    stgTest s 2 = none ∧ stgState (stgArm (stgFinish s 2) 2 9000 false).1 2 = 3 ∧ (stgArm (stgFinish s 2) 2 8991 false).2 = false := by
  decide +kernel

end Sys2Proof.Tests
end

/-! Semaphores (R241, R243, R244, R257): what a wait's test takes, what a signal adds, and what `wait`, `sig` and the
service of a blocked wait answer. -/

namespace Sys2Proof.Machine

/-! ## Checks that fail, and what follows a check -/

/-- After a step that goes through comes what follows it. -/
@[simp] theorem ex_ok_bind {α β : Type} (a : α) (k : α → Ex β) : (Except.ok a >>= k) = k a := rfl

/-- After a stop comes nothing. -/
@[simp] theorem ex_error_bind {α β : Type} (e : Halt) (k : α → Ex β) : (Except.error e >>= k) = .error e := rfl

/-- A check that fails raises its fault. -/
@[simp] theorem needF_fault (s : State) (b : Bool) (f : PFault) (h : b = false) : needF s b f = .error (.fault s f) := by
  simp [needF, need, h]

/-- A value that is present raises no fault. -/
@[simp] theorem theF_some {α : Type} (s : State) (a : α) (f : PFault) : theF s (some a) f = .ok a := rfl

/-- A value that is absent raises the fault. -/
@[simp] theorem theF_none {α : Type} (s : State) (f : PFault) : theF s (none : Option α) f = .error (.fault s f) := rfl

/-- A value that is present lets the event go on. -/
@[simp] theorem the_some {α : Type} (a : α) (why : String) : the (some a) why = .ok a := rfl

/-- A value that is absent refuses the event. -/
@[simp] theorem the_none {α : Type} (why : String) : the (none : Option α) why = .error (.no why) := rfl

/-- An event that cannot occur is refused. -/
@[simp] theorem runPlain_no (why : String) : runPlain (.error (.no why)) = .refused (.notEnabled why) := rfl

/-- The meaning of `wait`. -/
theorem exec_wait (t : Tid) (f : Fields) (s : State) : exec (.wait t f) s = execWait t f s := rfl

/-- The meaning of `sig`. -/
theorem exec_sig (t : Tid) (f : Fields) (s : State) : exec (.sig t f) s = execSig t f s := rfl

/-- The meaning of the service of a blocked wait. -/
theorem exec_semWaitSatisfied (t : Tid) (s : State) : exec (.semWaitSatisfied t) s = execSemWaitSatisfied t s := rfl

/-! ## Counts -/

/-- Marking splices as not replayable leaves the shared counts. -/
@[simp] theorem sharedCount_notReplayable (s : State) (t : Tid) (p n : Nat) :
    sharedCount (notReplayable s t) p n = sharedCount s p n := rfl

/-- A thread's step leaves the shared counts. -/
@[simp] theorem sharedCount_stepOn (s : State) (t : Tid) (th : Thread) (p n : Nat) :
    sharedCount (stepOn s t th) p n = sharedCount s p n := rfl

/-- A local count that suffices gives the amount (R241). -/
theorem semTake_local_enough {s : State} {t : Tid} {th : Thread} {n amount : Nat} (seq : Nat)
    (h : amount ≤ (th.sems.get (Fin.ofNat 16 n)).toNat) :
    semTake s t th false n amount seq = some (s, { th with
      sems := th.sems.set (Fin.ofNat 16 n) (BitVec.ofNat 16 ((th.sems.get (Fin.ofNat 16 n)).toNat - amount)) }) :=
  if_pos h

/-- A local count that is too small gives nothing (R241). -/
theorem semTake_local_short {s : State} {t : Tid} {th : Thread} {n amount : Nat} (seq : Nat)
    (h : (th.sems.get (Fin.ofNat 16 n)).toNat < amount) : semTake s t th false n amount seq = none :=
  if_neg (Nat.not_le.mpr h)

/-- A shared count that suffices, with no earlier waiter to serve, gives the amount (R244). -/
theorem semTake_shared_enough {s : State} {t : Tid} {th : Thread} {n amount seq : Nat}
    (h : amount ≤ sharedCount s (partOf t.ctx.val) n) (he : earlierServable s (partOf t.ctx.val) n seq = false) :
    semTake s t th true n amount seq =
      some (setShared s (partOf t.ctx.val) n (sharedCount s (partOf t.ctx.val) n - amount), th) := by
  simp [semTake, h, he]

/-- A shared count that is too small, or that an earlier waiter takes first, gives nothing (R241, R244; log 78). -/
theorem semTake_shared_held {s : State} {t : Tid} {th : Thread} {n amount seq : Nat}
    (h : sharedCount s (partOf t.ctx.val) n < amount ∨ earlierServable s (partOf t.ctx.val) n seq = true) :
    semTake s t th true n amount seq = none := by
  obtain h | h := h <;> simp [semTake, h]

/-- A signal that a local semaphore can hold adds its amount (R241). -/
theorem addLocal_fits {s : State} {u : Tid} {y : Thread} {n amount : Nat} (hy : getT? s u = some y)
    (h : (y.sems.get (Fin.ofNat 16 n)).toNat + amount < 65536) :
    addLocal s u n amount = some (setT s u { y with
      sems := y.sems.set (Fin.ofNat 16 n) (BitVec.ofNat 16 ((y.sems.get (Fin.ofNat 16 n)).toNat + amount)) }) := by
  simp only [addLocal, hy, if_pos h]

/-- A signal past a local semaphore's limit adds nothing (R241). -/
theorem addLocal_overflow {s : State} {u : Tid} {y : Thread} {n amount : Nat} (hy : getT? s u = some y)
    (h : 65536 ≤ (y.sems.get (Fin.ofNat 16 n)).toNat + amount) : addLocal s u n amount = none := by
  simp only [addLocal, hy, if_neg (Nat.not_lt.mpr h)]

/-- A signal that a shared semaphore can hold adds its amount (R241). -/
theorem addShared_fits {s : State} {p n amount : Nat} (h : sharedCount s p n + amount < 65536) :
    addShared s p n amount = some (setShared s p n (sharedCount s p n + amount)) :=
  if_pos h

/-- A signal past a shared semaphore's limit adds nothing (R241). -/
theorem addShared_overflow {s : State} {p n amount : Nat} (h : 65536 ≤ sharedCount s p n + amount) :
    addShared s p n amount = none :=
  if_neg (Nat.not_lt.mpr h)

/-! ## `wait` -/

/-- Where a `wait` leaves the machine, given what its test took: the thread goes on, or blocks with its issue number. -/
def afterWait (s : State) (t : Tid) (th : Thread) (f : Fields) : Option (State × Thread) → State
  | some (s2, th2) => stepOn s2 t th2
  | none => setT { notReplayable s t with seq := s.seq + 1 } t
      { th with block := .sem (bit f.variant 0) f.sl0.toNat f.sl1.toNat s.seq }

section Wait
variable {s : State} {t : Tid} {th : Thread} {f : Fields} (hi : Issues s t th)
  (hf : formOk f 1 0 [if bit f.variant 0 then .sharedSem else .localSem, .imm] = true) (ha : f.sl1 ≠ 0)
include hi hf ha

/-- A `wait` on a shared semaphore that is not defined faults (R243). -/
theorem wait_undefined (hsh : bit f.variant 0 = true)
    (hd : semDefined (atIssue s t) (partOf t.ctx.val) f.sl0.toNat = false) : Faults (.wait t f) s t th fSem := by
  rw [Faults, exec_wait]
  refine runThread_fault hi ?_
  simp only [dec_ok _ _ hf, dec_ok _ _ (bne_iff_ne.mpr ha), ex_ok_bind]
  simp [hsh, hd]

/-- A `wait` by a context of a class below SCLASS faults (R243). -/
theorem wait_below_class (hsh : bit f.variant 0 = true)
    (hd : semDefined (atIssue s t) (partOf t.ctx.val) f.sl0.toNat = true)
    (hc : ctxCls (atIssue s t) t.ctx.val < semClass (atIssue s t) (partOf t.ctx.val) f.sl0.toNat) :
    Faults (.wait t f) s t th fWaitClass := by
  rw [Faults, exec_wait]
  refine runThread_fault hi ?_
  simp only [dec_ok _ _ hf, dec_ok _ _ (bne_iff_ne.mpr ha), ex_ok_bind]
  simp [hsh, hd, hc]

/-- A `wait` that R243 admits does as its test says. -/
theorem wait_admitted {r : Option (State × Thread)}
    (hd : bit f.variant 0 = true → semDefined (atIssue s t) (partOf t.ctx.val) f.sl0.toNat = true ∧
      semClass (atIssue s t) (partOf t.ctx.val) f.sl0.toNat ≤ ctxCls (atIssue s t) t.ctx.val)
    (hr : semTake (notReplayable (atIssue s t) t) t th (bit f.variant 0) f.sl0.toNat f.sl1.toNat (atIssue s t).seq = r) :
    Completes (.wait t f) s (afterWait (atIssue s t) t th f r) := by
  rw [Completes, exec_wait]
  refine runThread_ok hi ?_
  simp only [dec_ok _ _ hf, dec_ok _ _ (bne_iff_ne.mpr ha), ex_ok_bind, hr]
  cases hsh : bit f.variant 0 with
  | false => cases r <;> simp [afterWait, hsh]
  | true =>
    obtain ⟨hdef, hcls⟩ := hd hsh
    cases r <;> simp [afterWait, hsh, hdef, hcls]

end Wait

/-! ## `sig` -/

section Sig
variable {s : State} {t : Tid} {th : Thread} {f : Fields} (hi : Issues s t th)
  (hf : formOk f 1 0 [if bit f.variant 0 then .unused else .scalar, if bit f.variant 0 then .sharedSem else .localSem, .imm] =
    true) (ha : f.sl2 ≠ 0)
include hi hf ha

/-- A `sig` of a shared semaphore that is not defined faults (R243). -/
theorem sig_undefined (hsh : bit f.variant 0 = true)
    (hd : semDefined (atIssue s t) (partOf t.ctx.val) f.sl1.toNat = false) : Faults (.sig t f) s t th fSem := by
  rw [Faults, exec_sig]
  refine runThread_fault hi ?_
  simp only [dec_ok _ _ hf, dec_ok _ _ (bne_iff_ne.mpr ha), ex_ok_bind]
  simp [hsh, hd]

/-- A `sig` by a context of a class above SCLASS faults (R243). -/
theorem sig_above_class (hsh : bit f.variant 0 = true)
    (hd : semDefined (atIssue s t) (partOf t.ctx.val) f.sl1.toNat = true)
    (hc : semClass (atIssue s t) (partOf t.ctx.val) f.sl1.toNat < ctxCls (atIssue s t) t.ctx.val) :
    Faults (.sig t f) s t th fSigClass := by
  rw [Faults, exec_sig]
  refine runThread_fault hi ?_
  simp only [dec_ok _ _ hf, dec_ok _ _ (bne_iff_ne.mpr ha), ex_ok_bind]
  simp [hsh, hd, hc]

section Shared
variable (hsh : bit f.variant 0 = true) (hd : semDefined (atIssue s t) (partOf t.ctx.val) f.sl1.toNat = true)
  (hc : ctxCls (atIssue s t) t.ctx.val ≤ semClass (atIssue s t) (partOf t.ctx.val) f.sl1.toNat)
include hsh hd hc

/-- A `sig` of a shared semaphore that R243 admits adds its amount (R241). -/
theorem sig_shared_fits (h : sharedCount (atIssue s t) (partOf t.ctx.val) f.sl1.toNat + f.sl2.toNat < 65536) :
    Completes (.sig t f) s (setShared (notReplayable (stepOn (atIssue s t) t th) t) (partOf t.ctx.val) f.sl1.toNat
      (sharedCount (atIssue s t) (partOf t.ctx.val) f.sl1.toNat + f.sl2.toNat)) := by
  rw [Completes, exec_sig]
  refine runThread_ok hi ?_
  simp only [dec_ok _ _ hf, dec_ok _ _ (bne_iff_ne.mpr ha), ex_ok_bind]
  have hadd := addShared_fits (s := notReplayable (stepOn (atIssue s t) t th) t) h
  simp [hsh, hd, hc, hadd]

/-- A `sig` that would carry a shared count past 65,535 faults (R241). -/
theorem sig_shared_overflow (h : 65536 ≤ sharedCount (atIssue s t) (partOf t.ctx.val) f.sl1.toNat + f.sl2.toNat) :
    Faults (.sig t f) s t th fSem := by
  rw [Faults, exec_sig]
  refine runThread_fault hi ?_
  simp only [dec_ok _ _ hf, dec_ok _ _ (bne_iff_ne.mpr ha), ex_ok_bind]
  have hadd := addShared_overflow (s := notReplayable (stepOn (atIssue s t) t th) t) h
  simp [hsh, hd, hc, hadd]

end Shared

section Local
variable (hsh : bit f.variant 0 = false) (hr : Ready th f.sl0) (hl : (reg th f.sl0.toNat).toNat < 64)
include hsh hr hl

/-- A `sig` of a local semaphore that takes its amount completes (R241, R257). -/
theorem sig_local_added {s' : State} (h : addLocal (notReplayable (stepOn (atIssue s t) t th) t)
      (tid t.ctx.val (reg th f.sl0.toNat).toNat) f.sl1.toNat f.sl2.toNat = some s') : Completes (.sig t f) s s' := by
  rw [Completes, exec_sig]
  refine runThread_ok hi ?_
  simp only [dec_ok _ _ hf, dec_ok _ _ (bne_iff_ne.mpr ha), ex_ok_bind]
  simp [hsh, src_ready hr, hl, h]

/-- A `sig` of a local semaphore that does not take its amount faults (R241, R257). -/
theorem sig_local_not_added (h : addLocal (notReplayable (stepOn (atIssue s t) t th) t)
      (tid t.ctx.val (reg th f.sl0.toNat).toNat) f.sl1.toNat f.sl2.toNat = none) : Faults (.sig t f) s t th fSem := by
  rw [Faults, exec_sig]
  refine runThread_fault hi ?_
  simp only [dec_ok _ _ hf, dec_ok _ _ (bne_iff_ne.mpr ha), ex_ok_bind]
  simp [hsh, src_ready hr, hl, h]

end Local
end Sig

/-! ## The service of a blocked wait -/

section Service
variable {s : State} {t : Tid} {th : Thread} {sh : Bool} {n amount seq : Nat} (ht : getT? s t = some th)
  (hpow : powered s = true) (hfail : s.failed = false) (hpres : present s t = true) (hb : th.block = .sem sh n amount seq)
include ht hpow hfail hpres hb

/-- A blocked wait whose test takes its amount goes on (R244). -/
theorem semWaitSatisfied_served {s1 : State} {th1 : Thread} (h : semTake s t th sh n amount seq = some (s1, th1)) :
    Completes (.semWaitSatisfied t) s (stepOn s1 t { th1 with block := .none }) := by
  rw [Completes, exec_semWaitSatisfied]
  simp [execSemWaitSatisfied, ht, hb, hpow, hfail, hpres, h]

/-- A blocked wait whose test takes nothing is not served (R244). -/
theorem semWaitSatisfied_notNow (h : semTake s t th sh n amount seq = none) : NotNow (.semWaitSatisfied t) s := by
  rw [NotNow, exec_semWaitSatisfied]
  simp [execSemWaitSatisfied, ht, hb, hpow, hfail, hpres, h]

end Service

/-! ## The obligation -/

/-- Settles O11: the checks of R243 first, then what the test of a wait takes or what a signal adds, case by case. -/
theorem semaphoreResults : Obligations.SemaphoreResults := by
  refine ⟨fun s t th f hi => ⟨fun hf ha => ?wait, fun hf ha => ?sig⟩, fun s t th n amount seq ht hpow hfail hpres => ?service⟩
  case wait =>
    refine ⟨fun hsh hc => ?_, fun hsh hc => ?_, wait_undefined hi hf ha, wait_below_class hi hf ha,
      fun hsh hd hcls => ⟨fun hc he => ?_, fun hc => ?_⟩⟩
    · exact wait_admitted hi hf ha (by simp [hsh]) (hsh ▸ semTake_local_enough _ hc)
    · exact wait_admitted hi hf ha (by simp [hsh]) (hsh ▸ semTake_local_short _ hc)
    · exact wait_admitted hi hf ha (fun _ => ⟨hd, hcls⟩) (hsh ▸ semTake_shared_enough (s := notReplayable (atIssue s t) t) hc he)
    · exact wait_admitted hi hf ha (fun _ => ⟨hd, hcls⟩) (hsh ▸ semTake_shared_held (s := notReplayable (atIssue s t) t) hc)
  case sig =>
    refine ⟨sig_undefined hi hf ha, sig_above_class hi hf ha,
      fun hsh hd hc => ⟨sig_shared_fits hi hf ha hsh hd hc, sig_shared_overflow hi hf ha hsh hd hc⟩,
      fun hsh hr hl y hy => ⟨fun h => ?_, fun h => ?_⟩⟩
    · exact sig_local_added hi hf ha hsh hr hl (addLocal_fits hy h)
    · exact sig_local_not_added hi hf ha hsh hr hl (addLocal_overflow hy h)
  case service =>
    refine ⟨fun hb hc => ?_, fun hb hc he => ?_, fun hb hc => ?_⟩
    · exact semWaitSatisfied_served ht hpow hfail hpres hb (semTake_local_enough seq hc)
    · exact semWaitSatisfied_served ht hpow hfail hpres hb (semTake_shared_enough hc he)
    · exact semWaitSatisfied_notNow ht hpow hfail hpres hb (semTake_local_short seq hc)

end Sys2Proof.Machine

/-! Scalar instructions (R222, R260, R261): what a register reads after a write, and what the ALU, `li` and `mov` answer. -/

namespace Sys2Proof.Machine

/-! ## Registers -/

/-- What a register reads after a write (R222). -/
theorem reg_setReg (th : Thread) (x : Nat) (v : Word) {k : Nat} (hk : k < 64) :
    reg (setReg th x v) k = if k = 0 then 0 else if k = x then v else reg th k := by
  by_cases hx : x = 0
  · by_cases h0 : k = 0 <;> simp [reg, setReg, hx, h0]
  · by_cases h0 : k = 0
    · simp [reg, h0]
    · by_cases hkx : k = x
      · subst hkx
        simp [reg, setReg, h0, hk]
      · simp [reg, setReg, hx, h0, hkx, Vector.getElem?_setIfInBounds_ne (Ne.symm hkx)]

/-- A destination reads as the register it is: the loads still out leave the registers. -/
theorem reg_dst (th : Thread) (x : BitVec 16) (v : Word) {k : Nat} (hk : k < 64) :
    reg (dst th x v) k = if k = 0 then 0 else if k = x.toNat then v else reg th k :=
  reg_setReg th x.toNat v hk

/-- A destination other than s0 holds the value written. -/
theorem reg_dst_same (th : Thread) {x : BitVec 16} (v : Word) (h0 : 1 ≤ x.toNat) (h : x.toNat < 64) :
    reg (dst th x v) x.toNat = v := by
  rw [reg_dst th x v h, if_neg (Nat.ne_of_gt h0), if_pos rfl]

/-- A register that is not the destination keeps its value. -/
theorem reg_dst_other (th : Thread) {x : BitVec 16} (v : Word) {k : Nat} (hk : k < 64) (h : k ≠ x.toNat) :
    reg (dst th x v) k = reg th k := by
  rw [reg_dst th x v hk, if_neg h]
  by_cases h0 : k = 0 <;> simp [h0, reg]

/-! ## The ALU and `li` -/

/-- The operands of an ALU instruction whose form is right and whose sources are ready (R260). -/
theorem aluOperands_ok {s : State} {th : Thread} {f : Fields} {var : Nat} (ha : Ready th f.sl1)
    (hb : bit f.variant 0 = false → Ready th f.sl2)
    (hf : formOk f var 0 [.scalar, .scalar, if bit f.variant 0 then .imm else .scalar] = true) :
    aluOperands s th f var =
      .ok (reg th f.sl1.toNat, if bit f.variant 0 then f.sl2.signExtend 64 else reg th f.sl2.toNat) := by
  simp only [aluOperands, dec_ok _ _ hf, src_ready ha, ex_ok_bind]
  cases himm : bit f.variant 0 with
  | true => simp [imm16]
  | false => simp [src_ready (hb himm)]

/-- An ALU instruction writes its function of the operands (R260). -/
theorem completes_of_aluOp {i : Instr} {s : State} {t : Tid} {th : Thread} {f : Fields} {var : Nat} {g : Word → Word → Word}
    (hi : Issues s t th) (hexec : exec i s = aluOp t f s var g)
    (hsrc : Ready th f.sl1 ∧ (bit f.variant 0 = false → Ready th f.sl2))
    (hf : formOk f var 0 [.scalar, .scalar, if bit f.variant 0 then .imm else .scalar] = true) :
    Completes i s (stepOn (atIssue s t) t (dst th f.sl0
      (g (reg th f.sl1.toNat) (if bit f.variant 0 then f.sl2.signExtend 64 else reg th f.sl2.toNat)))) := by
  obtain ⟨ha, hb⟩ := hsrc
  rw [Completes, hexec]
  refine runThread_ok hi ?_
  simp only [aluOperands_ok ha hb hf, ex_ok_bind]

/-- Writing the top 16 bits of a word leaves its low 48. -/
theorem setFld_63_48 (v : Word) (x : BitVec 16) : setFld v 63 48 x.toNat = (x ++ v.setWidth 48 : BitVec 64) := by
  refine BitVec.eq_of_getLsbD_eq fun i hi => ?_
  rw [getLsbD_setFld v 63 48 x.toNat i (by omega), BitVec.getLsbD_append]
  by_cases h : i < 48
  · simp [h, Nat.not_le.mpr h]
  · have hle : 48 ≤ i ∧ i ≤ 63 := by omega
    simp [h, hle, hi, BitVec.getLsbD]

/-- The meaning of `li`. -/
theorem exec_li (t : Tid) (f : Fields) (s : State) : exec (.li t f) s = execLi t f s := rfl

section Li
variable {s : State} {t : Tid} {th : Thread} {f : Fields} (hi : Issues s t th)
include hi

/-- `li` with H = 0 loads its imm48 (R260). -/
theorem li_imm48 (himm : bit f.variant 0 = false) (hf : formOk f 1 0 [.scalar, .imm, .imm, .imm] = true) :
    Completes (.li t f) s
      (stepOn (atIssue s t) t (dst th f.sl0 ((f.sl3 ++ f.sl2 ++ f.sl1 : BitVec 48).signExtend 64))) := by
  rw [Completes, exec_li]
  refine runThread_ok hi ?_
  simp [himm, hf, imm48]

/-- `li` with H = 1 replaces the top 16 bits (R260). -/
theorem li_high16 (himm : bit f.variant 0 = true) (hf : formOk f 1 0 [.scalar, .imm] = true) (hr : Ready th f.sl0) :
    Completes (.li t f) s
      (stepOn (atIssue s t) t (dst th f.sl0 (f.sl1 ++ (reg th f.sl0.toNat).setWidth 48 : BitVec 64))) := by
  rw [Completes, exec_li]
  refine runThread_ok hi ?_
  simp [himm, hf, src_ready hr, setFld_63_48]

end Li

/-- Settles O3: each ALU instruction is its function of the operands, `li` goes by its form, and a write to a register is read
back there alone. -/
theorem scalarAluResults : Obligations.ScalarAluResults := by
  refine ⟨fun s t th f hi => ?_, fun th x v k hk _ => reg_dst th x v hk⟩
  refine ⟨fun hs hf => ?_, fun hs hf => ?_, li_imm48 hi, li_high16 hi⟩
  · have alu {i : Instr} {g : Word → Word → Word} (hexec : exec i s = aluOp t f s 1 g) :=
      completes_of_aluOp hi hexec hs hf
    exact ⟨alu (g := (· + ·)) rfl, alu (g := (· - ·)) rfl, alu (g := (· * ·)) rfl, alu (g := divW) rfl, alu (g := remW) rfl,
      alu (g := (· &&& ·)) rfl, alu (g := (· ||| ·)) rfl, alu (g := (· ^^^ ·)) rfl, alu (g := shlW) rfl, alu (g := shrW) rfl,
      alu (g := sarW) rfl⟩
  · have alu {i : Instr} {g : Word → Word → Word} (hexec : exec i s = aluOp t f s 3 g) :=
      completes_of_aluOp hi hexec hs hf
    exact ⟨alu (g := minW (bit f.variant 1)) rfl, alu (g := maxW (bit f.variant 1)) rfl, alu (g := sltW (bit f.variant 1)) rfl⟩

/-! ## `mov` -/

/-- A special value beyond the seven is reserved (R261). -/
theorem specialValue_reserved (s : State) (t : Tid) (th : Thread) {n : Nat} (h : 7 ≤ n) : specialValue s t th n = none := by
  obtain ⟨m, rfl⟩ := Nat.exists_eq_add_of_le' h
  rfl

/-- The meaning of `mov`. -/
theorem exec_mov (t : Tid) (f : Fields) (s : State) : exec (.mov t f) s = execMov t f s := rfl

section Mov
variable {s : State} {t : Tid} {th : Thread} {f : Fields} (hi : Issues s t th)
include hi

/-- `mov` from a register to a register (R261). -/
theorem mov_register (hform : fld f.ext 2 0 = 0) (hf : formOk f 0 7 [.scalar, .scalar] = true) (hr : Ready th f.sl1) :
    Completes (.mov t f) s (stepOn (atIssue s t) t (dst th f.sl0 (reg th f.sl1.toNat))) := by
  rw [Completes, exec_mov]
  refine runThread_ok hi ?_
  simp [hform, hf, src_ready hr]

/-- `mov` from a loop counter to a register (R261). -/
theorem mov_fromCounter (hform : fld f.ext 2 0 = 1) (hf : formOk f 0 7 [.scalar, .counter] = true) :
    Completes (.mov t f) s (stepOn (atIssue s t) t
      (dst th f.sl0 ((th.lc.get (Fin.ofNat 4 f.sl1.toNat)).zeroExtend 64))) := by
  rw [Completes, exec_mov]
  refine runThread_ok hi ?_
  simp [hform, hf]

/-- `mov` from a register's low half to a loop counter (R261). -/
theorem mov_toCounter (hform : fld f.ext 2 0 = 2) (hf : formOk f 0 7 [.counter, .scalar] = true) (hr : Ready th f.sl1) :
    Completes (.mov t f) s (stepOn (atIssue s t) t
      { th with lc := th.lc.set (Fin.ofNat 4 f.sl0.toNat) ((reg th f.sl1.toNat).setWidth 32) }) := by
  rw [Completes, exec_mov]
  refine runThread_ok hi ?_
  simp [hform, hf, src_ready hr]

/-- `mov` of a special value to a register (R261). -/
theorem mov_special (hform : fld f.ext 2 0 = 3) (hf : formOk f 0 7 [.scalar, .imm] = true) {v : Word}
    (hv : specialValue (atIssue s t) t th f.sl1.toNat = some v) :
    Completes (.mov t f) s (stepOn (atIssue s t) t (dst th f.sl0 v)) := by
  rw [Completes, exec_mov]
  refine runThread_ok hi ?_
  simp [hform, hf, hv]

/-- `mov` of a reserved special value faults (R261). -/
theorem mov_special_reserved (hform : fld f.ext 2 0 = 3) (hf : formOk f 0 7 [.scalar, .imm] = true) (hn : 7 ≤ f.sl1.toNat) :
    Faults (.mov t f) s t th fDecode := by
  rw [Faults, exec_mov]
  refine runThread_fault hi ?_
  simp [hform, hf, specialValue_reserved _ _ _ hn]

/-- `mov` in a reserved form faults (R261). -/
theorem mov_form_reserved (hform : 4 ≤ fld f.ext 2 0) : Faults (.mov t f) s t th fDecode := by
  rw [Faults, exec_mov]
  refine runThread_fault (s' := atIssue s t) hi ?_
  obtain ⟨m, hm⟩ := Nat.exists_eq_add_of_le' hform
  rw [hm]
  rfl

end Mov

/-- Settles O4: the form picks the source and the destination, and the third form its special value. -/
theorem movForms : Obligations.MovForms := by
  intro s t th f hi
  refine ⟨mov_register hi, mov_fromCounter hi, mov_toCounter hi, fun hform hf => ?_, mov_form_reserved hi⟩
  have special {v : Word} := mov_special hi hform hf (v := v)
  refine ⟨fun h => special ?_, fun h => special ?_, fun h => special ?_, fun h => special ?_, fun h => special ?_,
    fun h => special ?_, fun h => special ?_, mov_special_reserved hi hform hf⟩ <;> rw [h] <;> rfl

end Sys2Proof.Machine

/-! Handle access (R264): the index that `hget` and `hset` name, a run of registers read and written, and what the two
instructions answer. -/

namespace Sys2Proof.Machine

/-! ## The index -/

/-- The handle index `i` that an operand names: in its slot, or with HREG in bits 15:0 of a register that has no bits above
them (R264). -/
def NamesIndex (th : Thread) (f : Fields) (v : BitVec 16) (i : Nat) : Prop :=
  (bit f.variant 1 = false → i = v.toNat) ∧
  (bit f.variant 1 = true → Ready th v ∧ i = (reg th v.toNat).toNat ∧ i < 65536)

section Index
variable {s : State} {t : Tid} {th : Thread} {f : Fields} {v : BitVec 16}

/-- A named index is tested against the table's SIZE. -/
theorem accessIndex_named {i : Nat} (h : NamesIndex th f v i) :
    accessIndex s t th (bit f.variant 1) v = (do needF s (idxOk s t.ctx.val i) (fHandle i); .ok i) := by
  obtain ⟨hslot, hreg⟩ := h
  cases hh : bit f.variant 1 with
  | false => simp [accessIndex, hslot hh]
  | true =>
    obtain ⟨hr, rfl, hlt⟩ := hreg hh
    simp [accessIndex, src_ready hr, hlt]

/-- A named index of the table is the access's index. -/
theorem accessIndex_inTable {i : Nat} (h : NamesIndex th f v i) (hok : idxOk s t.ctx.val i = true) :
    accessIndex s t th (bit f.variant 1) v = .ok i := by
  simp [accessIndex_named h, hok]

/-- A named index beyond SIZE is BAD_HANDLE. -/
theorem accessIndex_beyond {i : Nat} (h : NamesIndex th f v i) (hok : idxOk s t.ctx.val i = false) :
    accessIndex s t th (bit f.variant 1) v = .error (.fault s (fHandle i)) := by
  simp [accessIndex_named h, hok]

/-- A register with bits above the index is BAD_HANDLE. -/
theorem accessIndex_wide (hh : bit f.variant 1 = true) (hr : Ready th v) (hw : 65536 ≤ (reg th v.toNat).toNat) :
    accessIndex s t th (bit f.variant 1) v = .error (.fault s (fHandle ((reg th v.toNat).toNat % 65536))) := by
  simp [accessIndex, hh, src_ready hr, Nat.not_lt.mpr hw]

end Index

/-! ## Runs of registers -/

/-- The slot of the register `k` after the first of a run within the 64 registers. -/
theorem toNat_add_ofNat {v : BitVec 16} {k : Nat} (h : v.toNat + k ≤ 64) : (v + BitVec.ofNat 16 k).toNat = v.toNat + k := by
  simp only [BitVec.toNat_add, BitVec.toNat_ofNat]
  omega

/-- A thread with words written to the run of registers from `x`, the first word first. -/
def writeRun (th : Thread) (x : BitVec 16) (ws : List Word) : Thread :=
  ws.zipIdx.foldl (fun th y => dst th (x + BitVec.ofNat 16 y.2) y.1) th

/-- The last word of a run is written last. -/
theorem writeRun_concat (th : Thread) (x : BitVec 16) (ws : List Word) (w : Word) :
    writeRun th x (ws ++ [w]) = dst (writeRun th x ws) (x + BitVec.ofNat 16 ws.length) w := by
  simp [writeRun, List.zipIdx_append]

/-- A register outside a run keeps its value. -/
theorem reg_writeRun_outside (th : Thread) (x : BitVec 16) (ws : List Word) {k : Nat} (hk : k < 64)
    (hrun : x.toNat + ws.length ≤ 64) (hout : k < x.toNat ∨ x.toNat + ws.length ≤ k) :
    reg (writeRun th x ws) k = reg th k := by
  induction ws using List.reverseRecOn with
  | nil => rfl
  | append_singleton ws w ih =>
    rw [List.length_append, List.length_singleton] at hrun hout
    have hx := toNat_add_ofNat (v := x) (k := ws.length) (by omega)
    rw [writeRun_concat, reg_dst_other _ _ hk (by omega), ih (by omega) (by omega)]

/-- A register of a run holds its word. -/
theorem reg_writeRun_inside (th : Thread) (x : BitVec 16) (ws : List Word) {k : Nat} (h1 : 1 ≤ x.toNat)
    (hrun : x.toNat + ws.length ≤ 64) (hk : k < ws.length) : reg (writeRun th x ws) (x.toNat + k) = ws[k] := by
  induction ws using List.reverseRecOn with
  | nil => simp at hk
  | append_singleton ws w ih =>
    rw [List.length_append, List.length_singleton] at hrun hk
    have hx := toNat_add_ofNat (v := x) (k := ws.length) (by omega)
    rw [writeRun_concat]
    obtain hlt | rfl := Nat.lt_succ_iff_lt_or_eq.mp hk
    · rw [reg_dst_other _ _ (by omega) (by omega), ih (by omega) hlt, List.getElem_append_left hlt]
    · rw [← hx, reg_dst_same _ _ (by omega) (by omega), List.getElem_concat_length rfl]

/-- The bytes of a run of registers that are ready, the first register's first. -/
theorem foldlM_src_run {th : Thread} {v : BitVec 16} (ks : List Nat) (acc : List Byte)
    (h : ∀ k ∈ ks, Ready th (v + BitVec.ofNat 16 k) ∧ v.toNat + k ≤ 64) :
    ks.foldlM (fun (acc : List Byte) k => do
        let w ← src th (v + BitVec.ofNat 16 k)
        (.ok (acc ++ wordBytes w) : Ex (List Byte))) acc =
      .ok (acc ++ ks.flatMap (fun k => wordBytes (reg th (v.toNat + k)))) := by
  induction ks generalizing acc with
  | nil => simp [pure, Except.pure]
  | cons k ks ih =>
    obtain ⟨hr, hk⟩ := h k List.mem_cons_self
    rw [List.foldlM_cons, src_ready hr, toNat_add_ofNat hk, ex_ok_bind, ex_ok_bind,
      ih _ (fun j hj => h j (List.mem_cons_of_mem _ hj)), List.flatMap_cons, List.append_assoc]

/-- The words of an entry in the order of their registers: word `k` is made of the entry's bytes from `8 * k`. -/
theorem mkHandle_words (i : Nat) (bs : List Byte) :
    (mkHandle i bs).words = (List.range 8).map (fun k => BitVec.ofNat 64 (ofBytes ((bs.drop (8 * k)).take 8))) := rfl

/-- A register that may begin a whole entry. -/
theorem wholeReg_iff {v : BitVec 16} : wholeReg v = true ↔ 1 ≤ v.toNat ∧ v.toNat ≤ 56 := by
  simp [wholeReg]

/-! ## `hget` -/

/-- The meaning of `hget`. -/
theorem exec_hget (t : Tid) (f : Fields) (s : State) : exec (.hget t f) s = execHget t f s := rfl

/-- The values that the slots may take: a word number below 8, or the first register `v` of a whole entry. -/
def LegalAccess (f : Fields) (v : BitVec 16) : Prop :=
  (bit f.variant 0 = true → f.sl2.toNat < 8) ∧ (bit f.variant 0 = false → 1 ≤ v.toNat ∧ v.toNat ≤ 56)

/-- The decode check of the values is whether they are legal. -/
theorem legalAccess_iff {f : Fields} {v : BitVec 16} :
    (if bit f.variant 0 then decide (f.sl2.toNat < 8) else wholeReg v) = true ↔ LegalAccess f v := by
  cases h : bit f.variant 0 <;> simp [LegalAccess, h, wholeReg_iff]

/-- A decode check that fails raises DECODE. -/
theorem dec_fault (s : State) (b : Bool) (h : b = false) : dec s b = .error (.fault s fDecode) := needF_fault s b fDecode h

section Hget
variable {s : State} {t : Tid} {th : Thread} {f : Fields} (hi : Issues s t th)
  (hf : formOk f 3 0 [.scalar, if bit f.variant 1 then .scalar else .handle, if bit f.variant 0 then .imm else .unused] = true)
include hi hf

/-- `hget` of a whole entry to a register other than s1 to s56 faults (R264). -/
theorem hget_wholeReg_fault (hw : bit f.variant 0 = false) (h : ¬ (1 ≤ f.sl0.toNat ∧ f.sl0.toNat ≤ 56)) :
    Faults (.hget t f) s t th fDecode := by
  rw [Faults, exec_hget]
  refine runThread_fault (s' := atIssue s t) hi ?_
  have hlegal := Bool.eq_false_iff.mpr (mt legalAccess_iff.mp (fun hl => h (hl.2 hw)))
  simp only [dec_ok _ _ hf, dec_fault _ _ hlegal, ex_ok_bind, ex_error_bind]

variable (hl : LegalAccess f f.sl0)
include hl

/-- `hget` of an index that is refused faults as the index does. -/
theorem hget_index_fault {e : PFault}
    (h : accessIndex (atIssue s t) t th (bit f.variant 1) f.sl1 = .error (.fault (atIssue s t) e)) :
    Faults (.hget t f) s t th e := by
  rw [Faults, exec_hget]
  refine runThread_fault hi ?_
  simp only [dec_ok _ _ hf, dec_ok _ _ (legalAccess_iff.mpr hl), ex_ok_bind, h, ex_error_bind]

variable {i : Nat} (hn : NamesIndex th f f.sl1 i) (hok : idxOk (atIssue s t) t.ctx.val i = true)
include hn hok

/-- `hget` of one word writes that word (R264). -/
theorem hget_word (hw : bit f.variant 0 = true) {s2 : State} {bs : List Byte}
    (hread : readA (atIssue s t) t (entryAddr (atIssue s t) t.ctx.val i + 8 * f.sl2.toNat) 8 = .ok (s2, bs)) :
    Completes (.hget t f) s (stepOn s2 t (dst th f.sl0 (BitVec.ofNat 64 (ofBytes bs)))) := by
  rw [Completes, exec_hget]
  refine runThread_ok hi ?_
  simp only [dec_ok _ _ hf, dec_ok _ _ (legalAccess_iff.mpr hl), ex_ok_bind, accessIndex_inTable hn hok]
  simp [hw, hread]

/-- `hget` of a whole entry writes its words to the run of registers (R264). -/
theorem hget_entry (hw : bit f.variant 0 = false) {s2 : State} {bs : List Byte}
    (hread : readA (atIssue s t) t (entryAddr (atIssue s t) t.ctx.val i) 64 = .ok (s2, bs)) :
    Completes (.hget t f) s (stepOn s2 t (writeRun th f.sl0 (mkHandle i bs).words)) := by
  rw [Completes, exec_hget]
  refine runThread_ok hi ?_
  simp only [dec_ok _ _ hf, dec_ok _ _ (legalAccess_iff.mpr hl), ex_ok_bind, accessIndex_inTable hn hok]
  simp [hw, hread, writeRun, Handle.words]

end Hget

/-! ## `hset` -/

/-- The meaning of `hset`. -/
theorem exec_hset (t : Tid) (f : Fields) (s : State) : exec (.hset t f) s = execHset t f s := rfl

section Hset
variable {s : State} {t : Tid} {th : Thread} {f : Fields} (hi : Issues s t th)
  (hf : formOk f 3 0 [if bit f.variant 1 then .scalar else .handle, .scalar, if bit f.variant 0 then .imm else .unused] = true)
include hi hf

/-- `hset` of a whole entry from a register other than s1 to s56 faults (R264). -/
theorem hset_wholeReg_fault (hw : bit f.variant 0 = false) (h : ¬ (1 ≤ f.sl1.toNat ∧ f.sl1.toNat ≤ 56)) :
    Faults (.hset t f) s t th fDecode := by
  rw [Faults, exec_hset]
  refine runThread_fault (s' := atIssue s t) hi ?_
  have hlegal := Bool.eq_false_iff.mpr (mt legalAccess_iff.mp (fun hl => h (hl.2 hw)))
  simp only [dec_ok _ _ hf, dec_fault _ _ hlegal, ex_ok_bind, ex_error_bind]

variable (hl : LegalAccess f f.sl1)
include hl

/-- `hset` of an index that is refused faults as the index does. -/
theorem hset_index_fault {e : PFault}
    (h : accessIndex (atIssue s t) t th (bit f.variant 1) f.sl0 = .error (.fault (atIssue s t) e)) :
    Faults (.hset t f) s t th e := by
  rw [Faults, exec_hset]
  refine runThread_fault hi ?_
  simp only [dec_ok _ _ hf, dec_ok _ _ (legalAccess_iff.mpr hl), ex_ok_bind, h, ex_error_bind]

variable {i : Nat} (hn : NamesIndex th f f.sl0 i) (hok : idxOk (atIssue s t) t.ctx.val i = true)
include hn hok

/-- `hset` of a handle that an existing splice of the context declares faults (R264). -/
theorem hset_declared (hd : (declOf (atIssue s t) t.ctx.val i).isSome = true) : Faults (.hset t f) s t th fSplice := by
  rw [Faults, exec_hset]
  refine runThread_fault (s' := atIssue s t) hi ?_
  have hnone : (declOf (atIssue s t) t.ctx.val i).isNone = false := by simpa using hd
  simp only [dec_ok _ _ hf, dec_ok _ _ (legalAccess_iff.mpr hl), ex_ok_bind, accessIndex_inTable hn hok,
    needF_fault _ _ _ hnone, ex_error_bind]

variable (hd : (declOf (atIssue s t) t.ctx.val i).isNone = true)
include hd

/-- `hset` of one word writes that word (R264). -/
theorem hset_word (hw : bit f.variant 0 = true) (hr : Ready th f.sl1) {s2 : State}
    (hwrite : writeA (noteHset (atIssue s t) t (entryAddr (atIssue s t) t.ctx.val i)) t
      (entryAddr (atIssue s t) t.ctx.val i + 8 * f.sl2.toNat) (wordBytes (reg th f.sl1.toNat)) = .ok s2) :
    Completes (.hset t f) s (stepOn s2 t th) := by
  rw [Completes, exec_hset]
  refine runThread_ok hi ?_
  simp only [dec_ok _ _ hf, dec_ok _ _ (legalAccess_iff.mpr hl), ex_ok_bind, accessIndex_inTable hn hok,
    needF_ok _ _ _ hd]
  simp [hw, src_ready hr, hwrite]

/-- `hset` of a whole entry writes the words of the run of registers (R264). -/
theorem hset_entry (hw : bit f.variant 0 = false) (hr : ReadyG th f.sl1 8) {s2 : State}
    (hwrite : writeA (noteHset (atIssue s t) t (entryAddr (atIssue s t) t.ctx.val i)) t (entryAddr (atIssue s t) t.ctx.val i)
      ((List.range 8).flatMap (fun k => wordBytes (reg th (f.sl1.toNat + k)))) = .ok s2) :
    Completes (.hset t f) s (stepOn s2 t th) := by
  rw [Completes, exec_hset]
  refine runThread_ok hi ?_
  have hrun := foldlM_src_run (th := th) (v := f.sl1) (List.range 8) [] (fun k hk => by
    have hk8 := List.mem_range.mp hk
    have h56 := (hl.2 hw).2
    exact ⟨hr k hk8, by omega⟩)
  simp only [dec_ok _ _ hf, dec_ok _ _ (legalAccess_iff.mpr hl), ex_ok_bind, accessIndex_inTable hn hok,
    needF_ok _ _ _ hd]
  simp only [hw, Bool.false_eq_true, if_false, hrun, ex_ok_bind, List.nil_append, hwrite]

end Hset

/-! ## The obligation -/

/-- Settles O8: the decode checks come first, then the index, then the declaring splice, then the access. -/
theorem handleAccessResults : Obligations.HandleAccessResults := by
  intro s t th f i hi
  refine ⟨fun hn hok => ⟨fun hw hf hlt s2 bs hread => ?_, fun hw hf h1 h56 s2 bs hread => ?_⟩,
    fun hn hok hd => ⟨fun hw hf hlt hr s2 hwrite => ?_, fun hw hf h1 h56 hr s2 hwrite => ?_⟩,
    fun hf hw h => ?_, fun hf hw h => ?_, fun hf hl => ⟨fun ⟨hh, hr, hwide⟩ => ?_, fun hn hok => ?_⟩,
    fun hf hl => ⟨fun ⟨hh, hr, hwide⟩ => ?_, fun hn hok => ?_, fun hn hok hd => ?_⟩⟩
  · exact hget_word hi (by simpa [hw] using hf) ⟨fun _ => hlt, by simp [hw]⟩ hn hok hw hread
  · refine ⟨_, hget_entry hi (by simpa [hw] using hf) ⟨by simp [hw], fun _ => ⟨h1, h56⟩⟩ hn hok hw hread,
      fun k hk => ?_, fun k hk hout => ?_⟩
    · rw [reg_writeRun_inside th f.sl0 (mkHandle i bs).words h1 (Nat.add_le_add_right h56 8) hk]
      simp only [mkHandle_words, List.getElem_map, List.getElem_range]
    · exact reg_writeRun_outside th f.sl0 (mkHandle i bs).words hk (Nat.add_le_add_right h56 8) hout
  · exact hset_word hi (by simpa [hw] using hf) ⟨fun _ => hlt, by simp [hw]⟩ hn hok hd hw hr hwrite
  · exact hset_entry hi (by simpa [hw] using hf) ⟨by simp [hw], fun _ => ⟨h1, h56⟩⟩ hn hok hd hw hr hwrite
  · exact hget_wholeReg_fault hi hf hw h
  · exact hset_wholeReg_fault hi hf hw h
  · exact hget_index_fault hi hf hl (accessIndex_wide hh hr hwide)
  · exact hget_index_fault hi hf hl (accessIndex_beyond hn hok)
  · exact hset_index_fault hi hf hl (accessIndex_wide hh hr hwide)
  · exact hset_index_fault hi hf hl (accessIndex_beyond hn hok)
  · exact hset_declared hi hf hl hn hok hd

end Sys2Proof.Machine

/-! Signals at their target (R387): what `applySignal` answers to a signal of each kind. -/

namespace Sys2Proof.Machine

/-! ## What a target answers -/

/-- A signal for a context that does not exist is refused, whatever semaphore it names (R387). -/
theorem applySignal_noContext {s : State} {w : Word} (sh : Bool) (cls : Option Nat) (hc : exists' s (fld w 21 16) = false) :
    applySignal s w sh cls = .error lkSignal := by
  simp [applySignal, hc]

section Exists
variable {s : State} {w : Word} (hc : exists' s (fld w 21 16) = true) (ha : fld w 51 36 ≠ 0)
include hc ha

/-- A signal for a logical spindle at or beyond the context's NL is refused (R387). -/
theorem applySignal_local_beyondNL (cls : Option Nat) (hl : ctxNL s (fld w 21 16) ≤ fld w 27 22) :
    applySignal s w false cls = .error lkSignal := by
  simp [applySignal, hc, ha, hl]

/-- A signal for a thread that is there does as the thread's semaphore takes it: one that does not fit is refused with SEMOVF
(R241, R387). -/
theorem applySignal_local {y : Thread} (cls : Option Nat) (hl : fld w 27 22 < ctxNL s (fld w 21 16)) (hn : fld w 35 28 < 16)
    (hy : getT? s (tid (fld w 21 16) (fld w 27 22)) = some y) :
    applySignal s w false cls =
      (addLocal s (tid (fld w 21 16) (fld w 27 22)) (fld w 35 28) (fld w 51 36)).elim (.error lkSemovf) .ok := by
  cases hadd : addLocal s (tid (fld w 21 16) (fld w 27 22)) (fld w 35 28) (fld w 51 36) <;>
    simp [applySignal, hc, ha, hl, hn, hy, hadd]

/-- A signal for a shared semaphore that is not defined, or whose SCLASS is below the signaller's class, is refused (R243, R387). -/
theorem applySignal_shared_barred {cls : Nat}
    (h : semDefined s (partOf (fld w 21 16)) (fld w 35 28) = false ∨ semClass s (partOf (fld w 21 16)) (fld w 35 28) < cls) :
    applySignal s w true (some cls) = .error lkSignal := by
  obtain hundef | hbelow := h
  · simp [applySignal, hc, ha, hundef]
  · simp [applySignal, hc, ha, hbelow]

/-- A signal that R243 admits does as the shared semaphore takes it: one that does not fit is refused with SEMOVF (R241, R387). -/
theorem applySignal_shared {cls : Nat} (hd : semDefined s (partOf (fld w 21 16)) (fld w 35 28) = true)
    (hcls : cls ≤ semClass s (partOf (fld w 21 16)) (fld w 35 28)) :
    applySignal s w true (some cls) =
      (addShared s (partOf (fld w 21 16)) (fld w 35 28) (fld w 51 36)).elim (.error lkSemovf) .ok := by
  cases hadd : addShared s (partOf (fld w 21 16)) (fld w 35 28) (fld w 51 36) <;>
    simp [applySignal, hc, ha, hd, hcls, hadd]

end Exists

/-! ## The obligation -/

/-- Settles O36: the context comes first, then what bars the semaphore, and then whether the semaphore's count takes the amount. -/
theorem signalRules : Obligations.SignalRules := by
  intro s w cls
  refine ⟨fun sh hc => applySignal_noContext sh _ hc, fun hc ha => ⟨applySignal_local_beyondNL hc ha _,
    applySignal_shared_barred hc ha, fun hd hcls => ⟨fun h => ?_, fun h => ?_⟩, fun y hl hn hy => ⟨fun h => ?_, fun h => ?_⟩⟩⟩
  · rw [applySignal_shared hc ha hd hcls, addShared_overflow h, Option.elim_none]
  · rw [applySignal_shared hc ha hd hcls, addShared_fits h, Option.elim_some]
  · rw [applySignal_local hc ha _ hl hn hy, addLocal_overflow hy h, Option.elim_none]
  · rw [applySignal_local hc ha _ hl hn hy, addLocal_fits hy h, Option.elim_some]

end Sys2Proof.Machine

namespace Sys2Proof.Machine

/-! ## What the links, the pins and the events leave -/

/-- The memories are as they were, and so is THERMTRIP_N. -/
structure SameMem (s s' : State) : Prop where
  trip : s'.power.thermtripN = s.power.thermtripN
  mem : s'.mem = s.mem
  scratch : s'.scratch = s.scratch
  bobbin : s'.bobbin = s.bobbin
  ue : s'.ue = s.ue

/-- The state that THERMTRIP_N freezes (R485) is as it was: the pin itself, the memories, and everything that computes. -/
structure SameWork (s s' : State) : Prop extends SameMem s s' where
  ctxs : s'.ctxs = s.ctxs
  threads : s'.threads = s.threads
  streams : s'.streams = s.streams
  ops : s'.ops = s.ops
  splices : s'.splices = s.splices
  sems : s'.sems = s.sems
  flash : s'.flash = s.flash
  sec : s'.sec = s.sec
  fticks : s'.fticks = s.fticks

theorem SameWork.refl (s : State) : SameWork s s := ⟨⟨rfl, rfl, rfl, rfl, rfl⟩, rfl, rfl, rfl, rfl, rfl, rfl, rfl, rfl, rfl⟩

/-- A fold of updates that leave the memories leaves them. -/
theorem foldl_sameMem {α : Type} {g : State → α → State} (hg : ∀ s x, SameMem s (g s x)) (l : List α) (s : State) :
    SameMem s (l.foldl g s) := by
  induction l generalizing s with
  | nil => exact ⟨rfl, rfl, rfl, rfl, rfl⟩
  | cons x xs ih =>
    have h1 := hg s x
    have h2 := ih (g s x)
    grind [SameMem]

/-- A fold of updates that leave the work leaves it. -/
theorem foldl_sameWork {α : Type} {g : State → α → State} (hg : ∀ s x, SameWork s (g s x)) (l : List α) (s : State) :
    SameWork s (l.foldl g s) := by
  induction l generalizing s with
  | nil => exact .refl s
  | cons x xs ih =>
    have h1 := hg s x
    have h2 := ih (g s x)
    grind [SameWork, SameMem]

theorem setR_sameWork (s : State) (r : Reg) (v : Word) : SameWork s (setR s r v) := by grind [SameWork, SameMem, setR]
theorem setF_sameWork (s : State) (r : Reg) (hi lo v : Nat) : SameWork s (setF s r hi lo v) := setR_sameWork ..
theorem toHost_sameWork (s : State) (o : HostOut) : SameWork s (toHost s o) := by grind [SameWork, SameMem, toHost]
theorem toLink_sameWork (s : State) (o : LinkOut) : SameWork s (toLink s o) := by grind [SameWork, SameMem, toLink]
theorem sendMsix_sameWork (s : State) (fn v : Nat) : SameWork s (sendMsix s fn v) := by
  grind [SameWork, SameMem, sendMsix, toHost_sameWork]
theorem event_sameWork (s : State) (code : Nat) (c p : Option Nat) (d : List Byte) : SameWork s (event s code c p d) := by
  grind [SameWork, SameMem, event, sendMsix_sameWork, setF_sameWork, toHost_sameWork, setR_sameWork]

theorem bump_sameWork (s : State) (r : Reg) (k : Nat) : SameWork s (bump s r k) := by
  grind [SameWork, SameMem, bump, eventG, event_sameWork, setR_sameWork]
theorem setPortSt_sameWork (s : State) (n : Nat) (x : PortSt) : SameWork s (setPortSt s n x) := by
  grind [SameWork, SameMem, setPortSt]
theorem giveCredit_sameWork (s : State) (n vc cls k : Nat) : SameWork s (giveCredit s n vc cls k) := by
  grind [SameWork, SameMem, giveCredit, toLink_sameWork]
theorem releaseHeld_sameWork (s : State) : SameWork s (releaseHeld s) := by
  refine foldl_sameWork (fun s h => ?_) _ _
  grind [SameWork, SameMem, giveCredit_sameWork]
theorem sendFlit_sameWork (s : State) (n : Nat) (x : Flit) : SameWork s (sendFlit s n x) := by
  grind [SameWork, SameMem, sendFlit, emitFlit, toLink_sameWork, setPortSt_sameWork]
theorem txStep_sameWork (n : Nat) (a : State × List TxMsg) (w : TxMsg) : SameWork a.1 (txStep n a w).1 := by
  have h := fun (l : List Flit) (s : State) => foldl_sameWork (fun s x => sendFlit_sameWork s n x) l s
  grind [SameWork, SameMem, txStep, setPortSt_sameWork]
theorem txSteps_sameWork (n : Nat) (ws : List TxMsg) (a : State × List TxMsg) : SameWork a.1 (ws.foldl (txStep n) a).1 := by
  induction ws generalizing a with
  | nil => exact .refl _
  | cons w ws ih =>
    have h1 := txStep_sameWork n a w
    have h2 := ih (txStep n a w)
    grind [SameWork, SameMem]
theorem drainPort_sameWork (s : State) (n : Nat) : SameWork s (drainPort s n) := by
  have h := txSteps_sameWork n (getPort s n).waiting (s, [])
  grind [SameWork, SameMem, drainPort, releaseHeld_sameWork, setPortSt_sameWork]
theorem portMsg_sameWork (s : State) (n cls : Nat) (came : Option (Nat × Nat)) (hold : Option Nat) (m : Msg) :
    SameWork s (portMsg s n cls came hold m) := by
  grind [SameWork, SameMem, portMsg, drainPort_sameWork, setPortSt_sameWork]
theorem sendRefusal_sameWork (s : State) (r : Msg) : SameWork s (sendRefusal s r) := by
  grind [SameWork, SameMem, sendRefusal, toSelf, portMsg_sameWork, countUnreach, bump_sameWork]
theorem sendOn_sameWork (s : State) (came : Option (Nat × Nat)) (hold : Option Nat) (m : Msg) :
    SameWork s (sendOn s came hold m) := by
  grind [SameWork, SameMem, sendOn, portMsg_sameWork, sendRefusal_sameWork, countUnreach, bump_sameWork]
theorem strand_sameWork (s : State) (n : Nat) : SameWork s (strand s n) := by
  have h := fun (l : List TxMsg) (s : State) =>
    foldl_sameWork (fun s w => sendOn_sameWork s w.came w.hold { w.m with hops := w.m.hops - 1 }) l s
  grind [SameWork, SameMem, strand, releaseHeld_sameWork]
theorem spareCheck_sameWork (s : State) : SameWork s (spareCheck s) := by
  grind [SameWork, SameMem, spareCheck, setF_sameWork]
theorem setPort_sameWork (s : State) (n st : Nat) : SameWork s (setPort s n st) := by
  grind [SameWork, SameMem, setPort, setF_sameWork, spareCheck_sameWork, strand_sameWork, toLink_sameWork]
theorem statusRise_sameWork (s : State) (b : Nat) : SameWork s (statusRise s b) := by grind [SameWork, SameMem, statusRise]
theorem deviceFail_sameWork (s : State) : SameWork s (deviceFail s) := by
  grind [SameWork, SameMem, deviceFail, statusRise_sameWork, toHost_sameWork]

/-! ## What contexts that start, stop and are torn down leave -/

theorem setT_sameMem (s : State) (t : Tid) (th : Thread) : SameMem s (setT s t th) := ⟨rfl, rfl, rfl, rfl, rfl⟩
theorem setC_sameMem (s : State) (c : Nat) (x : CtxSt) : SameMem s (setC s c x) := ⟨rfl, rfl, rfl, rfl, rfl⟩
theorem stepOn_sameMem (s : State) (t : Tid) (th : Thread) : SameMem s (stepOn s t th) := ⟨rfl, rfl, rfl, rfl, rfl⟩
theorem setShared_sameMem (s : State) (p n v : Nat) : SameMem s (setShared s p n v) := ⟨rfl, rfl, rfl, rfl, rfl⟩
theorem notReplayable_sameMem (s : State) (t : Tid) : SameMem s (notReplayable s t) := ⟨rfl, rfl, rfl, rfl, rfl⟩
theorem bumpC_sameMem (s : State) (c i k : Nat) : SameMem s (bumpC s c i k) := by
  grind [SameMem, SameWork, bumpC, bump_sameWork]
theorem complete_sameMem (s : State) (ring num : Nat) (id : Half) (status : Nat) : SameMem s (complete s ring num id status) := by
  grind [SameMem, complete, setRing]
theorem firstIssue_sameMem (s : State) (c : Nat) : SameMem s (firstIssue s c) := by
  grind [SameMem, firstIssue, complete_sameMem, setC_sameMem]
theorem poolTakeBack_sameMem (s : State) (r : Retiring) : SameMem s (poolTakeBack s r) := by
  unfold poolTakeBack poolGive
  refine foldl_sameMem (fun s x => ?_) _ _
  exact ⟨rfl, rfl, rfl, rfl, rfl⟩
theorem poolFree_sameMem (s : State) (r : Retiring) : SameMem s (poolFree s r) := by
  grind [SameMem, poolFree, poolTakeBack_sameMem]
theorem poolSettle_sameMem (s : State) : SameMem s (poolSettle s) := by
  have h := fun (l : List Retiring) (s : State) => foldl_sameMem poolTakeBack_sameMem l s
  grind [SameMem, poolSettle]
theorem discardSplice_sameMem (s : State) (x : Splice) : SameMem s (discardSplice s x) := by
  grind [SameMem, foldl_sameMem, discardSplice, poolFree_sameMem]
theorem startOne_sameMem (s : State) (c : Nat) : SameMem s (startOne s c) := by
  grind [SameMem, foldl_sameMem, SameWork, startOne, setT_sameMem, setC_sameMem, setR_sameWork]
theorem startFillers_sameMem (s : State) (c : Nat) : SameMem s (startFillers s c) := by
  refine foldl_sameMem (fun s d => ?_) _ _
  grind [SameMem, startOne_sameMem, setC_sameMem]
theorem startCtx_sameMem (s : State) (c : Nat) : SameMem s (startCtx s c) := by
  grind [SameMem, startCtx, startOne_sameMem, startFillers_sameMem]
theorem place_sameMem (s : State) (c : Nat) : SameMem s (place s c) := by
  grind [SameMem, foldl_sameMem, place, startCtx_sameMem, setC_sameMem]
theorem serveOne_sameMem (s : State) (c : Nat) : SameMem s (serveOne s c) := by
  grind [SameMem, serveOne, place_sameMem]
theorem serve_sameMem (s : State) (p : Nat) : SameMem s (serve s p) := foldl_sameMem serveOne_sameMem _ _
theorem stopCtx_sameMem (s : State) (c : Nat) : SameMem s (stopCtx s c) := by
  grind [SameMem, stopCtx, dueUp, serve_sameMem, setC_sameMem]
theorem maybeStop_sameMem (s : State) (c : Nat) : SameMem s (maybeStop s c) := by
  grind [SameMem, maybeStop, stopCtx_sameMem]
theorem settle_sameMem (s : State) (c : Nat) : SameMem s (settle s c) := by
  grind [SameMem, settle, poolSettle_sameMem, maybeStop_sameMem]
theorem teardown_sameMem (s : State) (c status : Nat) (ref : Half) : SameMem s (teardown s c status ref) := by
  have h := fun (l : List Splice) (s : State) => foldl_sameMem discardSplice_sameMem l s
  grind [SameMem, teardown, poolSettle_sameMem, setC_sameMem, serve_sameMem]
theorem faultEvent_sameMem (s : State) (c l : Nat) (pc : Half) (f : PFault) : SameMem s (faultEvent s c l pc f) := 
  (event_sameWork ..).toSameMem
theorem progFault_sameMem (s : State) (t : Tid) (pc : Half) (f : PFault) : SameMem s (progFault s t pc f) := by
  grind [SameMem, progFault, faultEvent_sameMem, teardown_sameMem]
theorem overrunFault_sameMem (s : State) (c : Nat) : SameMem s (overrunFault s c) := by
  grind [SameMem, foldl_sameMem, overrunFault, faultEvent_sameMem, teardown_sameMem]
theorem overrunTurn_sameMem (s : State) (t : Tid) (th : Thread) (u : TurnSt) : SameMem s (overrunTurn s t th u) := by
  grind [SameMem, SameWork, overrunTurn, overrunFault_sameMem, bumpC_sameMem, setTstat, setR_sameWork, setT_sameMem]

end Sys2Proof.Machine

namespace Sys2Proof.Machine

/-! ## THERMTRIP_N is latched (R485) -/

section
variable {s s' : State} (hs : s.power.thermtripN = false)
include hs

theorem powered_tripped : powered s = false := by simp [powered, hs]
theorem hostOk_tripped : hostOk s = false := by simp [hostOk, powered_tripped hs]
theorem hostFn_tripped (fn : Nat) : hostFn s fn = false := by simp [hostFn, hostOk_tripped hs]
theorem linksUp_tripped : linksUp s = false := by simp [linksUp, powered_tripped hs]
theorem treadleRuns_tripped : treadleRuns s = false := by simp [treadleRuns, powered_tripped hs]
theorem hubUp_tripped : hubUp s = false := by simp [hubUp, hostOk_tripped hs]
theorem mayTrain_tripped (n : Nat) : mayTrain s n = false := by simp [mayTrain, powered_tripped hs]
theorem canIssue_tripped (t : Tid) (th : Thread) : canIssue s t th = false := by
  simp [canIssue, issuing, powered_tripped hs]

/-- No thread issues. -/
theorem runThread_tripped (t : Tid) (k : State → Thread → Ex State) : runThread s t k ≠ .next s' := by
  intro h
  obtain ⟨th, -, hi, -⟩ := runThread_next h
  simp [canIssue_tripped hs] at hi

end

/-- A computation that stops with a reason and changes nothing. -/
def Stops {α : Type} (x : Ex α) : Prop := ∃ why, x = .error (.no why)

theorem Stops.bind {α β : Type} {x : Ex α} (h : Stops x) (f : α → Ex β) : Stops (x >>= f) := by
  obtain ⟨why, rfl⟩ := h
  exact ⟨why, rfl⟩
theorem stops_can {α : Type} {b : Bool} {why : String} {k : Unit → Ex α} (hb : b = false) : Stops (can b why >>= k) := by
  subst hb; exact ⟨why, rfl⟩
theorem stops_after {α : Type} {b : Bool} {why : String} {k : Unit → Ex α} (h : Stops (k ())) : Stops (can b why >>= k) := by
  cases b with
  | false => exact ⟨why, rfl⟩
  | true => exact h
theorem stops_the {α β : Type} {o : Option α} {why : String} {k : α → Ex β} (h : ∀ a, Stops (k a)) : Stops (the o why >>= k) := by
  cases o with
  | none => exact ⟨why, rfl⟩
  | some a => exact h a

/-- An event whose computation stops does not occur. -/
theorem runEvent_ne {s' : State} {r : Ex State} {t : Tid} {pc : Half} (h : Stops r) : runEvent r t pc ≠ .next s' := by
  obtain ⟨why, rfl⟩ := h
  exact nofun
theorem runPlain_ne {s' : State} {r : Ex State} (h : Stops r) : runPlain r ≠ .next s' := runEvent_ne h

theorem arrives_stops {s : State} (hs : s.power.thermtripN = false) (m : Msg) (op : MsgOp) (p : Option Nat) :
    Stops (arrives s m op p) := stops_can (linksUp_tripped hs)

theorem movable_stops {s : State} (hs : s.power.thermtripN = false) (t : Tid) (sid : Nat) : Stops (movable s t sid) :=
  stops_can (by simp [powered_tripped hs])

/-! A part of a draft tile reaches its streams: no pin changes. -/

theorem bobbinWrite_trip (s : State) (c l a : Nat) (bs : List Byte) :
    (bobbinWrite s c l a bs).power.thermtripN = s.power.thermtripN := by grind [bobbinWrite, wr]
theorem scratchWrite_trip (s : State) (c l a : Nat) (bs : List Byte) :
    (scratchWrite s c l a bs).power.thermtripN = s.power.thermtripN := by grind [scratchWrite, wr]
theorem takePart_trip (s : State) (x : Stream) (m : Msg) : (takePart s x m).power.thermtripN = s.power.thermtripN := by
  grind [takePart, slotWrite, setStream, bobbinWrite_trip, scratchWrite_trip]
theorem dropMember_trip (s : State) (t : Tid) (sid n : Nat) : (dropMember s t sid n).power.thermtripN = s.power.thermtripN := by
  grind [dropMember, setStream, eventC, event_sameWork, bumpC_sameMem, SameMem, SameWork]
theorem takeTileMsg_trip (s : State) (x : Stream) (m : Msg) : (takeTileMsg s x m).power.thermtripN = s.power.thermtripN := by
  grind [takeTileMsg, progFault_sameMem, takePart_trip, setStream, dropMember_trip, SameMem]
theorem foldl_trip {α : Type} {g : State → α → State} (hg : ∀ s x, (g s x).power.thermtripN = s.power.thermtripN)
    (l : List α) (s : State) : (l.foldl g s).power.thermtripN = s.power.thermtripN := by
  induction l generalizing s with
  | nil => rfl
  | cons x xs ih => rw [List.foldl_cons, ih, hg]

/-- The commands that act on pins, clocks, rails and the management bus alone. -/
def pinCommand : Instr → Bool
  | .powerDown | .prochotAssert | .prochotRelease | .refclkLoss _ | .refclkReturn _ | .railFault _ | .avsTimeout _
  | .avsRequestComplete _ | .smbPlimitWrite .. | .smbAlertmaskWrite .. | .smbAlertResponse _ | .vauxLoss => true
  | _ => false

/-- With THERMTRIP_N low only a cold reset and the commands of the pins have a step. -/
theorem exec_tripped_ne {s s' : State} (hs : s.power.thermtripN = false) (c : Instr) (hp : pinCommand c = false)
    (hr : ∀ k g, c ≠ .coldReset k g) : exec c s ≠ .next s' := by
  have hp1 := powered_tripped hs
  have hp2 := linksUp_tripped hs
  have hp3 := treadleRuns_tripped hs
  have hp4 := hostFn_tripped hs
  have hp5 := hostOk_tripped hs
  have hp6 := hubUp_tripped hs
  have hp7 := mayTrain_tripped hs
  intro h
  cases c <;> simp only [exec] at h
  case nop | loop | jmp | brCond | call | ret | wait | sig | turn | fence | halt | li | mov | lds | sts | hget | hset | splBegin | splCommit | splAbort | splStatus | draftGather | draftMcastSend | draftMcastRecv | draftPlanStart | draftPlanAdvance | draftWait | draftWaitFree | draftWaitClose | mma | qnt | vred | vepi | vrot | vstat | vnorm | vsmxScore | vsmxAcc | vsmxRecomp | vsmxEnd | cardBuild | cardSel | swConv | swPool | swBox | swNms | swPatch | swPix | vrng | lkPut | lkGet | lkAdd | lkSig | lkMcast | lkWait | cdcSubmit | reelMark =>
    exact runThread_tripped hs _ _ h
  case add | sub | mul | divu | remu | and | or | xor | shl | shr | sar | min | max | slt =>
    simp only [execAdd, execSub, execMul, execDivu, execRemu, execAnd, execOr, execXor, execShl, execShr, execSar, execMin, execMax, execSlt, aluOp] at h
    exact runThread_tripped hs _ _ h
  case vadd | vmul | vfma | vmax | vmin =>
    simp only [execVadd, execVmul, execVfma, execVmax, execVmin, issueElem] at h
    exact runThread_tripped hs _ _ h
  case vcvt | vfn =>
    simp only [execVcvt, execVfn, issueUnary] at h
    exact runThread_tripped hs _ _ h
  case draftLd | draftSt =>
    simp only [execDraftLd, execDraftSt, openLdSt] at h
    exact runThread_tripped hs _ _ h
  case put | getRequest | getResponse | atomicAdd | linkSignal | acknowledgement | refusal =>
    exact runPlain_ne ((arrives_stops hs _ _ _).bind _) h
  case shadowFillComplete | migrationComplete | strokeEdge | fineTick | turnOverrun | treadleMarkerSend | trdMarkerReceive | trdParentTimeout | trdSyncInEdge | hbmTempRead | plyHeartbeatReceive | plyHeartbeatAck | plyRecordReceive | plyRecordAck | plyLoss | plyTakeover | plyJoin | plyJoined | reelDeliver | contextSuspend | saveComplete | restoreComplete | correctedError | uncorrectableError | retireWindowClose | watchdogExpiry | flitReceive | portTrain | portTrained | portStateReport | messageForward | multicastPut | responseTimeout | inlineRecord | sqTailWrite | cqHeadWrite | create | launch | teardown | move | ringFence | signal | stage | fwLoad | fwActivate | stageApply | keyInstall | keyRotate | debugUnlock | reelExport | devidAssign | bar4Write | ctxHtabWrite | ctxLkcredWrite | ringEnableWrite | stgEntryWrite | stgClear | stgCheck | stgApply | stgCancel | retireReq | unretireReq | attGo | evtRingEnable | evtRingHeadWrite | lnkPhyWrite | functionLevelReset | vfEnableClear | conventionalReset | bootTempRetry | thermtrip | prtReset | stgCheckDone | attReportDone | moveDone | vfEnableSet =>
    exact runPlain_ne (stops_can (by simp [*])) h
  case tileArrive | slotDrain | gatherEntryDeliver | mcastTileDeliver =>
    exact runEvent_ne ((movable_stops hs _ _).bind _) h
  case splPoolGrant => exact runPlain_ne (stops_can (by simp [*])) h
  case streamStall | hostWindowCompletion | planCursor | commitCheck | engineComplete | cdcJobStart | cdcUnitDone | cdcJobEnd =>
    exact runEvent_ne (stops_can (by simp [*])) h
  case semWaitSatisfied | fenceRelease | draftWaitDone | lkWaitDone =>
    refine runPlain_ne (stops_the fun th => ?_) h
    split
    · exact stops_can (by simp [hp1])
    · exact ⟨_, rfl⟩
  case coldReset k g => exact hr k g rfl
  case regWrite =>
    simp only [execRegWrite] at h
    split at h
    · exact runPlain_ne (stops_can (hp4 _)) h
    · exact runPlain_ne (stops_after (stops_after (stops_can (hp4 _)))) h
    · exact runPlain_ne (stops_after (stops_can (by simp [hp4]))) h
  case counterRead | regReadLatch =>
    simp only [execCounterRead, execRegReadLatch, readRow] at h
    split at h
    · exact runPlain_ne (stops_can (hp4 _)) h
    · exact runPlain_ne (stops_after (stops_can (hp4 _))) h
    · exact runPlain_ne (stops_after (stops_can (by simp [hp4]))) h
  case rcvGo | bar4Read => exact runPlain_ne (stops_can (by simp [*])) h
  case tileRequest => exact runPlain_ne ((arrives_stops hs _ _ _).bind _) h
  case draftTile =>
    refine runPlain_ne ?_ h
    dsimp only
    split
    · exact stops_can (by simp [hp2])
    · refine (arrives_stops ?_ _ _ _).bind _
      rw [foldl_trip, hs]
      intro s x
      split
      · exact takeTileMsg_trip ..
      · rfl
  all_goals cases hp

/-- An event that occurs meets its first condition. -/
theorem runPlain_can {s' : State} {b : Bool} {why : String} {k : Unit → Ex State} (h : runPlain (can b why >>= k) = .next s') :
    b = true ∧ runPlain (k ()) = .next s' := by
  cases b with
  | false => cases h
  | true => exact ⟨rfl, h⟩
theorem runPlain_ok_eq {s s' : State} (h : runPlain (.ok s) = .next s') : s' = s := (Host.Outcome.next.inj h).symm

theorem trainPort_sameWork (s : State) (n : Nat) : SameWork s (trainPort s n) := by
  grind [SameWork, SameMem, trainPort, setPort_sameWork, toLink_sameWork]

theorem setClock_sameWork (s : State) (k : RefClk) (on : Bool) : SameWork s (setClock s k on) := by
  cases k <;> exact ⟨⟨rfl, rfl, rfl, rfl, rfl⟩, rfl, rfl, rfl, rfl, rfl, rfl, rfl, rfl, rfl⟩

/-- A command of the pins leaves the work of the device. -/
theorem exec_pin_sameWork {s s' : State} (hs : s.power.thermtripN = false) (c : Instr) (hp : pinCommand c = true)
    (h : exec c s = .next s') : SameWork s s' := by
  cases c <;> try exact absurd hp Bool.false_ne_true
  all_goals simp only [exec] at h
  case powerDown =>
    have e := runPlain_ok_eq (runPlain_can h).2
    grind [SameWork, SameMem, statusFall]
  case prochotAssert =>
    have e := runPlain_ok_eq (runPlain_can h).2
    grind [SameWork, SameMem, statusRise_sameWork]
  case prochotRelease =>
    have e := runPlain_ok_eq (runPlain_can h).2
    grind [SameWork, SameMem, statusFall]
  case refclkLoss k =>
    have e := runPlain_ok_eq (runPlain_can h).2
    have down (s : State) (n : Nat) : SameWork s (if portState s n = 6 then s else setPort s n 0) := by
      split
      · exact .refl s
      · exact setPort_sameWork s n 0
    have h1 := foldl_sameWork down (clockPorts k) (setClock s k false)
    grind [SameWork, SameMem, setClock_sameWork, deviceFail_sameWork]
  case refclkReturn k =>
    have e := runPlain_ok_eq (runPlain_can h).2
    have train (s : State) (n : Nat) : SameWork s (if mayTrain s n then trainPort s n else s) := by
      split
      · exact trainPort_sameWork s n
      · exact .refl s
    have h1 := foldl_sameWork train (clockPorts k) (linkBack (setClock s k true))
    grind [SameWork, SameMem, setClock_sameWork, linkBack]
  case railFault =>
    have e := runPlain_ok_eq (runPlain_can h).2
    grind [SameWork, SameMem, deviceFail_sameWork, statusRise_sameWork]
  case avsTimeout =>
    have e := runPlain_ok_eq (runPlain_can h).2
    grind [SameWork, SameMem, statusRise_sameWork]
  case avsRequestComplete =>
    have e := runPlain_ok_eq (runPlain_can h).2
    grind [SameWork, SameMem]
  case smbPlimitWrite =>
    grind [SameWork, SameMem, execSmbPlimitWrite, smbWrite, smbSay]
  case smbAlertmaskWrite =>
    grind [SameWork, SameMem, execSmbAlertmaskWrite, smbWrite, smbSay]
  case smbAlertResponse x =>
    cases x <;> grind [SameWork, SameMem, execSmbAlertResponse, smbRead, smbSay]
  case vauxLoss =>
    grind [SameWork, SameMem, execVauxLoss]

/-- Settles O59: no command but a cold reset and those of the pins has a step (`exec_tripped_ne`), and the pins leave the work. -/
theorem tripLatched : Obligations.TripLatched := by
  unfold Obligations.TripLatched
  intro s s' ht hr h
  cases hq : s.pending with
  | nil =>
    rw [step_nil s hq] at h
    cases h
    exact ⟨ht, rfl, rfl, rfl, rfl, rfl, rfl, rfl, rfl, rfl, rfl, rfl, rfl⟩
  | cons c rest =>
    rw [step_cons c rest s hq] at h
    cases hp : pinCommand c with
    | false => exact absurd h (exec_tripped_ne (s := { s with pending := rest }) ht c hp (fun k g e => hr k g rest (e ▸ hq)))
    | true =>
      have k : SameWork { s with pending := rest } s' := exec_pin_sameWork ht c hp h
      exact ⟨k.trip.trans ht, k.mem, k.scratch, k.bobbin, k.ctxs, k.threads, k.streams, k.ops, k.splices, k.sems, k.flash, k.sec,
        k.fticks⟩
end Sys2Proof.Machine

namespace Sys2Proof.Machine

/-! ## What a computation answers

`Answers P Q x`: the computation `x` gives a value with `Q`, or faults in a state with `P`, or stops. The rules follow the steps of a
meaning, so that a property of every outcome is proved along the text of the meaning. -/

def Answers {α : Type} (P : State → Prop) (Q : α → Prop) : Ex α → Prop
  | .ok a => Q a
  | .error (.fault s _) => P s
  | .error (.no _) => True

section
variable {α β : Type} {P : State → Prop} {Q : α → Prop}

@[simp] theorem answers_ok (a : α) : Answers P Q (.ok a) ↔ Q a := Iff.rfl
@[simp] theorem answers_no (why : String) : Answers P Q (.error (.no why)) := trivial
@[simp] theorem answers_fault (s : State) (f : PFault) : Answers P Q (.error (.fault s f)) ↔ P s := Iff.rfl

@[simp] theorem answers_bind {R : β → Prop} (x : Ex α) (k : α → Ex β) :
    Answers P R (x >>= k) ↔ Answers P (fun a => Answers P R (k a)) x := by
  cases x with
  | ok a => rfl
  | error e => cases e <;> rfl

@[simp] theorem answers_can {R : Unit → Prop} (b : Bool) (why : String) : Answers P R (can b why) ↔ (b = true → R ()) := by
  cases b <;> simp [can, need]

@[simp] theorem answers_needF {R : Unit → Prop} (s : State) (b : Bool) (f : PFault) :
    Answers P R (needF s b f) ↔ (b = true → R ()) ∧ (b = false → P s) := by
  cases b <;> simp [needF, need]

@[simp] theorem answers_dec {R : Unit → Prop} (s : State) (b : Bool) :
    Answers P R (dec s b) ↔ (b = true → R ()) ∧ (b = false → P s) := answers_needF s b fDecode

@[simp] theorem answers_the (o : Option α) (why : String) : Answers P Q (the o why) ↔ ∀ a, o = some a → Q a := by
  cases o <;> simp [the]

@[simp] theorem answers_theF (s : State) (o : Option α) (f : PFault) :
    Answers P Q (theF s o f) ↔ (∀ a, o = some a → Q a) ∧ (o = none → P s) := by
  cases o <;> simp [theF]

@[simp] theorem answers_src {R : Word → Prop} (th : Thread) (v : BitVec 16) :
    Answers P R (src th v) ↔ (regPending th v.toNat = false → R (reg th v.toNat)) := by
  simp [src]

@[simp] theorem answers_ite (c : Prop) [Decidable c] (x y : Ex α) :
    Answers P Q (if c then x else y) ↔ (c → Answers P Q x) ∧ (¬ c → Answers P Q y) := by
  split <;> simp [*]

/-- What is answered may be weakened. -/
theorem Answers.mono {R : α → Prop} {x : Ex α} (h : Answers P Q x) (hqr : ∀ a, Q a → R a) : Answers P R x := by
  cases x with
  | ok a => exact hqr a h
  | error e => cases e <;> exact h

end

section
variable {P : State → Prop} {s s' : State} {t : Tid} {pc : Half}

/-- What a program fault keeps, and every outcome of an instruction has, every next state has. -/
theorem runThread_answers {k : State → Thread → Ex State} (h : runThread s t k = .next s')
    (hf : ∀ x pc f, P x → P (progFault x t pc f)) (h0 : P (atIssue s t)) (hk : ∀ th, Answers P P (k (atIssue s t) th)) : P s' := by
  obtain ⟨th, -, -, h1 | h1 | ⟨x, f, h1, h2⟩⟩ := runThread_next h
  · rw [h1.2]
    exact hf _ _ _ h0
  · simpa [h1] using hk th
  · rw [h2]
    exact hf _ _ _ (by simpa [h1] using hk th)

/-- An event likewise. -/
theorem runEvent_answers {x : Ex State} (h : runEvent x t pc = .next s') (hf : ∀ x pc f, P x → P (progFault x t pc f))
    (hk : Answers P P x) : P s' := by
  cases x with
  | ok s1 =>
    cases h
    exact hk
  | error e =>
    cases e with
    | no why => cases h
    | fault s1 f =>
      cases h
      exact hf _ _ _ hk

end

end Sys2Proof.Machine

namespace Sys2Proof.Machine

/-! ## Scalar and control instructions leave the memories (R251, R253-R262) -/

/-- Every outcome leaves the memories of `s`. -/
abbrev LeavesMem (s : State) : Ex State → Prop := Answers (SameMem s) (SameMem s)

theorem SameMem.refl (s : State) : SameMem s s := ⟨rfl, rfl, rfl, rfl, rfl⟩

theorem SameMem.trans {a b c : State} (h : SameMem a b) (k : SameMem b c) : SameMem a c :=
  ⟨k.trip.trans h.trip, k.mem.trans h.mem, k.scratch.trans h.scratch, k.bobbin.trans h.bobbin, k.ue.trans h.ue⟩

theorem runThread_leavesMem {s s' : State} {t : Tid} {k : State → Thread → Ex State} (h : runThread s t k = .next s')
    (hk : ∀ s th, LeavesMem s (k s th)) : SameMem s s' :=
  (firstIssue_sameMem s _).trans <| runThread_answers h (fun _ _ _ hx => hx.trans (progFault_sameMem ..)) (.refl _) (fun _ => hk _ _)

theorem runPlain_leavesMem {s s' : State} {x : Ex State} (h : runPlain x = .next s') (hx : LeavesMem s x) : SameMem s s' :=
  runEvent_answers h (fun _ _ _ hx => hx.trans (progFault_sameMem ..)) hx

theorem transfer_leavesMem {s0 s : State} {t : Tid} {th : Thread} {w : Int} {st : List Half} (h : SameMem s0 s) :
    Answers (SameMem s0) (SameMem s0) (transfer s t th w st) := by
  simp only [transfer, answers_bind, answers_needF, answers_ok]
  grind [SameMem, setT_sameMem]

theorem jumpTarget_answers {P : State → Prop} {Q : Int → Prop} {s : State} {th : Thread} {f : Fields} (hs : P s) (hq : ∀ w, Q w) :
    Answers P Q (jumpTarget s th f) := by
  simp [jumpTarget, hs, hq]

theorem execNop_sameMem {s s' : State} {t : Tid} {f : Fields} {r : Option (BitVec 8)} (h : execNop t f r s = .next s') : SameMem s s' := by
  refine runThread_leavesMem h fun s th => ?_
  simp [stepOn_sameMem, SameMem.refl]
theorem execLoop_sameMem {s s' : State} {t : Tid} {f : Fields} (h : execLoop t f s = .next s') : SameMem s s' := by
  refine runThread_leavesMem h fun s th => ?_
  simp
  grind [SameMem, setT_sameMem, stepOn_sameMem]
theorem execBrCond_sameMem {s s' : State} {t : Tid} {f : Fields} (h : execBrCond t f s = .next s') : SameMem s s' := by
  refine runThread_leavesMem h fun s th => ?_
  dsimp only
  generalize fld f.ext 5 4 = kind
  rcases kind with _ | _ | kind <;> simp <;> grind [SameMem, stepOn_sameMem, transfer_leavesMem]
theorem execSig_sameMem {s s' : State} {t : Tid} {f : Fields} (h : execSig t f s = .next s') : SameMem s s' := by
  refine runThread_leavesMem h fun s th => ?_
  simp
  grind [SameMem, setT_sameMem, stepOn_sameMem, addShared, addLocal, setShared_sameMem, notReplayable_sameMem]

theorem execMov_sameMem {s s' : State} {t : Tid} {f : Fields} (h : execMov t f s = .next s') : SameMem s s' := by
  refine runThread_leavesMem h fun s th => ?_
  split <;> simp [stepOn_sameMem, SameMem.refl]
theorem execWait_sameMem {s s' : State} {t : Tid} {f : Fields} (h : execWait t f s = .next s') : SameMem s s' := by
  refine runThread_leavesMem h fun s th => ?_
  simp
  grind [SameMem, setT_sameMem, stepOn_sameMem, semTake, setShared_sameMem, notReplayable_sameMem, answers_ok]
theorem execSemWaitSatisfied_sameMem {s s' : State} {t : Tid} (h : execSemWaitSatisfied t s = .next s') : SameMem s s' := by
  refine runPlain_leavesMem h ?_
  simp
  intro th _
  split <;> simp
  grind [SameMem, stepOn_sameMem, semTake, setShared_sameMem, answers_ok]
theorem execHalt_sameMem {s s' : State} {t : Tid} {f : Fields} (h : execHalt t f s = .next s') : SameMem s s' := by
  refine runThread_leavesMem h fun s th => ?_
  simp [noProducer]
  grind [SameMem, setT_sameMem, settle_sameMem]
theorem aluOp_sameMem {s s' : State} {t : Tid} {f : Fields} {v : Nat} {g : Word → Word → Word} (h : aluOp t f s v g = .next s') : SameMem s s' := by
  refine runThread_leavesMem h fun s th => ?_
  simp [aluOperands, stepOn_sameMem, SameMem.refl]

theorem execJmp_sameMem {s s' : State} {t : Tid} {f : Fields} (h : execJmp t f s = .next s') : SameMem s s' := by
  refine runThread_leavesMem h fun s th => ?_
  simp
  exact jumpTarget_answers (.refl s) fun w => transfer_leavesMem (.refl s)
theorem execCall_sameMem {s s' : State} {t : Tid} {f : Fields} (h : execCall t f s = .next s') : SameMem s s' := by
  refine runThread_leavesMem h fun s th => ?_
  simp
  exact jumpTarget_answers (.refl s) fun w => ⟨fun _ => transfer_leavesMem (.refl s), fun _ => .refl s⟩
theorem execRet_sameMem {s s' : State} {t : Tid} {f : Fields} (h : execRet t f s = .next s') : SameMem s s' := by
  refine runThread_leavesMem h fun s th => ?_
  simp [SameMem.refl]
  intro _
  split
  · simp [SameMem.refl]
  · exact transfer_leavesMem (.refl s)
theorem execTurn_sameMem {s s' : State} {t : Tid} {f : Fields} (h : execTurn t f s = .next s') : SameMem s s' := by
  refine runThread_leavesMem h fun s th => ?_
  simp [noProducer, SameMem.refl]
  grind [SameMem, setT_sameMem]
theorem execFence_sameMem {s s' : State} {t : Tid} {f : Fields} (h : execFence t f s = .next s') : SameMem s s' := by
  refine runThread_leavesMem h fun s th => ?_
  simp [SameMem.refl]
  grind [SameMem, setT_sameMem, stepOn_sameMem]
theorem execLi_sameMem {s s' : State} {t : Tid} {f : Fields} (h : execLi t f s = .next s') : SameMem s s' := by
  refine runThread_leavesMem h fun s th => ?_
  simp [SameMem.refl, stepOn_sameMem]
theorem execSplStatus_sameMem {s s' : State} {t : Tid} {f : Fields} (h : execSplStatus t f s = .next s') : SameMem s s' := by
  refine runThread_leavesMem h fun s th => ?_
  simp [SameMem.refl, stepOn_sameMem]
theorem execLkWait_sameMem {s s' : State} {t : Tid} {f : Fields} (h : execLkWait t f s = .next s') : SameMem s s' := by
  refine runThread_leavesMem h fun s th => ?_
  simp [SameMem.refl]
  grind [SameMem, setT_sameMem, stepOn_sameMem, notReplayable_sameMem]
theorem execFenceRelease_sameMem {s s' : State} {t : Tid}  (h : execFenceRelease t s = .next s') : SameMem s s' := by
  refine runPlain_leavesMem h ?_
  simp
  intro th _
  split <;> simp
  grind [SameMem, stepOn_sameMem]
theorem execLkWaitDone_sameMem {s s' : State} {t : Tid}  (h : execLkWaitDone t s = .next s') : SameMem s s' := by
  refine runPlain_leavesMem h ?_
  simp
  intro th _
  split <;> simp
  grind [SameMem, stepOn_sameMem]
theorem execTurnOverrun_sameMem {s s' : State} {t : Tid}  (h : execTurnOverrun t s = .next s') : SameMem s s' := by
  refine runPlain_leavesMem h ?_
  simp [overrunTurn_sameMem]

/-- Settles O13: each instruction's outcomes leave the memories, and so do its issue and the teardown of a fault. -/
theorem scalarFrame : Obligations.ScalarFrame := by
  unfold Obligations.ScalarFrame
  intro s s' t f i hi h
  suffices k : SameMem s s' from ⟨k.mem, k.scratch, k.bobbin, k.ue⟩
  simp only [List.mem_cons, List.not_mem_nil, or_false] at hi
  rcases hi with rfl | rfl | rfl | rfl | rfl | rfl | rfl | rfl | rfl | rfl | rfl | rfl | rfl | rfl | rfl | rfl | rfl | rfl | rfl |
    rfl | rfl | rfl | rfl | rfl | rfl | rfl | rfl | rfl | rfl | rfl | rfl | rfl | rfl <;> simp only [exec] at h
  · exact execNop_sameMem h
  · exact execLoop_sameMem h
  · exact execJmp_sameMem h
  · exact execBrCond_sameMem h
  · exact execCall_sameMem h
  · exact execRet_sameMem h
  · exact execWait_sameMem h
  · exact execSemWaitSatisfied_sameMem h
  · exact execSig_sameMem h
  · exact execTurn_sameMem h
  · exact execFence_sameMem h
  · exact execFenceRelease_sameMem h
  · exact execHalt_sameMem h
  · exact aluOp_sameMem h
  · exact aluOp_sameMem h
  · exact aluOp_sameMem h
  · exact aluOp_sameMem h
  · exact aluOp_sameMem h
  · exact aluOp_sameMem h
  · exact aluOp_sameMem h
  · exact aluOp_sameMem h
  · exact aluOp_sameMem h
  · exact aluOp_sameMem h
  · exact aluOp_sameMem h
  · exact aluOp_sameMem h
  · exact aluOp_sameMem h
  · exact aluOp_sameMem h
  · exact execLi_sameMem h
  · exact execMov_sameMem h
  · exact execSplStatus_sameMem h
  · exact execLkWait_sameMem h
  · exact execLkWaitDone_sameMem h
  · exact execTurnOverrun_sameMem h

end Sys2Proof.Machine

namespace Sys2Proof.Machine

/-! ## Instructions that issue: their outcome along the text of the meaning -/

/-- A computation that gives a value goes on with it. -/
theorem bind_of_ok {α β : Type} {x : Ex α} {a : α} (h : x = .ok a) (k : α → Ex β) : (x >>= k) = k a := by
  rw [h, ex_ok_bind]

/-- The computation of a meaning goes on past a check that holds. -/
theorem bind_dec_ok {α : Type} (s : State) {b : Bool} (k : Unit → Ex α) (h : b = true) : (dec s b >>= k) = k () := by
  simp [h, bind, Except.bind]
theorem bind_needF_ok {α : Type} (s : State) {b : Bool} (f : PFault) (k : Unit → Ex α) (h : b = true) : (needF s b f >>= k) = k () := by
  simp [h, bind, Except.bind]
theorem bind_src_ok {α : Type} {th : Thread} {v : BitVec 16} (k : Word → Ex α) (h : Ready th v) :
    (src th v >>= k) = k (reg th v.toNat) := by
  simp [src_ready h, bind, Except.bind]
theorem bind_needF_fault {α : Type} (s : State) {b : Bool} (f : PFault) (k : Unit → Ex α) (h : b = false) :
    (needF s b f >>= k) = .error (.fault s f) := by
  subst h; rfl
theorem bind_dec_fault {α : Type} (s : State) {b : Bool} (k : Unit → Ex α) (h : b = false) :
    (dec s b >>= k) = .error (.fault s fDecode) := by
  subst h; rfl


section
variable {s : State} {t : Tid} {th : Thread} {f : Fields}

theorem execNop_ok (h : Issues s t th) (hf : formOk f 0 0 [] = true) : execNop t f none s = .next (stepOn (atIssue s t) t th) :=
  runThread_ok h (by simp [hf])

/-- A jump that an instruction makes: its target is inside the table, or it is an address fault (R254). -/
theorem transfer_inTable {w : Int} {st : List Half} (hw : inTable s t.ctx.val w = true) :
    transfer s t th w st = .ok (setT { s with seq := s.seq + 1 } t
      { th with pc := BitVec.ofNat 32 w.toNat, stack := st, loops := leaveLoops th (BitVec.ofNat 32 w.toNat) st.length }) := by
  simp [transfer, hw]
theorem transfer_outside {w : Int} {st : List Half} (hw : inTable s t.ctx.val w = false) :
    transfer s t th w st = .error (.fault s (fAddr 0)) := by
  simp [transfer, needF, need, hw]

/-- An outcome of an instruction that jumps to word `w` with the call stack `st`. -/
def Jumps (r : Res) (s : State) (t : Tid) (th : Thread) (w : Int) (st : List Half) : Prop :=
  (inTable (atIssue s t) t.ctx.val w = true → r = .next (setT { atIssue s t with seq := (atIssue s t).seq + 1 } t
    { th with pc := BitVec.ofNat 32 w.toNat, stack := st, loops := leaveLoops th (BitVec.ofNat 32 w.toNat) st.length })) ∧
  (inTable (atIssue s t) t.ctx.val w = false → r = .next (progFault (atIssue s t) t th.pc (fAddr 0)))

/-- An instruction whose meaning ends in a transfer jumps. -/
theorem runThread_transfer (h : Issues s t th) {k : State → Thread → Ex State} {w : Int} {st : List Half}
    (hk : k (atIssue s t) th = transfer (atIssue s t) t th w st) : Jumps (runThread s t k) s t th w st :=
  ⟨fun hw => runThread_ok h (hk.trans (transfer_inTable hw)), fun hw => runThread_fault h (hk.trans (transfer_outside hw))⟩

theorem jumpTarget_rel (s : State) (hv : bit f.variant 0 = false) (hf : formOk f 1 0 [.imm, .imm] = true) :
    jumpTarget s th f = .ok (th.pc.toNat + imm32 f.sl0 f.sl1) := by simp [jumpTarget, hv, hf]

theorem jumpTarget_abs (s : State) (hv : bit f.variant 0 = true) (hf : formOk f 1 0 [.scalar] = true) (hr : Ready th f.sl0) :
    jumpTarget s th f = .ok (reg th f.sl0.toNat).toNat := by simp [jumpTarget, hv, hf, src_ready hr]

theorem execJmp_rel (h : Issues s t th) (hv : bit f.variant 0 = false) (hf : formOk f 1 0 [.imm, .imm] = true) :
    Jumps (execJmp t f s) s t th (th.pc.toNat + imm32 f.sl0 f.sl1) th.stack :=
  runThread_transfer h (by simp [jumpTarget_rel _ hv hf])
theorem execJmp_abs (h : Issues s t th) (hv : bit f.variant 0 = true) (hf : formOk f 1 0 [.scalar] = true) (hr : Ready th f.sl0) :
    Jumps (execJmp t f s) s t th (reg th f.sl0.toNat).toNat th.stack :=
  runThread_transfer h (by simp [jumpTarget_abs _ hv hf hr])
theorem execCall_rel (h : Issues s t th) (hd : th.stack.length < 8) (hv : bit f.variant 0 = false)
    (hf : formOk f 1 0 [.imm, .imm] = true) :
    Jumps (execCall t f s) s t th (th.pc.toNat + imm32 f.sl0 f.sl1) ((th.pc + 1) :: th.stack) :=
  runThread_transfer h (by simp [jumpTarget_rel _ hv hf, hd])
theorem execCall_abs (h : Issues s t th) (hd : th.stack.length < 8) (hv : bit f.variant 0 = true)
    (hf : formOk f 1 0 [.scalar] = true) (hr : Ready th f.sl0) :
    Jumps (execCall t f s) s t th (reg th f.sl0.toNat).toNat ((th.pc + 1) :: th.stack) :=
  runThread_transfer h (by simp [jumpTarget_abs _ hv hf hr, hd])
theorem execCall_deep (h : Issues s t th) (hd : 8 ≤ th.stack.length) (hv : bit f.variant 0 = false)
    (hf : formOk f 1 0 [.imm, .imm] = true) : execCall t f s = .next (progFault (atIssue s t) t th.pc fCallDepth) :=
  runThread_fault h (s' := atIssue s t) (by simp [jumpTarget_rel _ hv hf, needF, need, Nat.not_lt.mpr hd])
theorem execRet_empty (h : Issues s t th) (hf : formOk f 0 0 [] = true) (hs : th.stack = []) :
    execRet t f s = .next (progFault (atIssue s t) t th.pc fCallDepth) :=
  runThread_fault h (s' := atIssue s t) (by simp [hf, hs])
theorem execRet_jumps (h : Issues s t th) (hf : formOk f 0 0 [] = true) {w : Half} {rest : List Half} (hs : th.stack = w :: rest) :
    Jumps (execRet t f s) s t th (if w = 0 then 2 ^ 32 else (w.toNat : Int)) rest :=
  runThread_transfer h (by simp [hf, hs])

/-- The comparison of `br.cond` is the one that its condition names. -/
theorem brHolds_eq (cond : Nat) (a b : Word) : brHolds cond a b = match cond with
    | 0 => a == b
    | 1 => a != b
    | 2 => decide (a.toInt < b.toInt)
    | 3 => decide (b.toInt ≤ a.toInt)
    | 4 => decide (a.toNat < b.toNat)
    | _ => decide (b.toNat ≤ a.toNat) := by
  unfold brHolds
  split <;> simp [BitVec.slt, BitVec.ult, ← decide_not]

/-- The operands that `br.cond` compares. -/
def brA (th : Thread) (f : Fields) : Word :=
  if fld f.ext 5 4 = 0 then reg th f.sl0.toNat
  else if fld f.ext 5 4 = 1 then (th.lc.get (Fin.ofNat 4 f.sl0.toNat)).zeroExtend 64
  else (th.sems.get (Fin.ofNat 16 f.sl0.toNat)).zeroExtend 64
def brB (th : Thread) (f : Fields) : Word := if bit f.ext 6 then f.sl1.signExtend 64 else reg th f.sl1.toNat
def brKind (f : Fields) : SlotK := if fld f.ext 5 4 = 0 then .scalar else if fld f.ext 5 4 = 1 then .counter else .localSem

theorem execBrCond_issues (h : Issues s t th)
    (hf : formOk f 0 0x7F [brKind f, if bit f.ext 6 then .imm else .scalar, .imm, .imm] = true) (hc : fld f.ext 3 0 < 6)
    (hk : fld f.ext 5 4 < 3) (ha : fld f.ext 5 4 = 0 → Ready th f.sl0) (hb : bit f.ext 6 = false → Ready th f.sl1) :
    execBrCond t f s = runThread s t (fun s th => if brHolds (fld f.ext 3 0) (brA th f) (brB th f)
      then transfer s t th (th.pc.toNat + imm32 f.sl2 f.sl3) th.stack else .ok (stepOn s t th)) := by
  unfold execBrCond
  rw [runThread_issues h, runThread_issues h]
  unfold brKind at hf
  unfold brA brB
  generalize fld f.ext 5 4 = kind at *
  cases hbi : bit f.ext 6 <;> rcases kind with _ | _ | kind <;> simp_all [src_ready, imm16]
theorem execBrCond_jumps (h : Issues s t th)
    (hf : formOk f 0 0x7F [brKind f, if bit f.ext 6 then .imm else .scalar, .imm, .imm] = true) (hc : fld f.ext 3 0 < 6)
    (hk : fld f.ext 5 4 < 3) (ha : fld f.ext 5 4 = 0 → Ready th f.sl0) (hb : bit f.ext 6 = false → Ready th f.sl1)
    (hh : brHolds (fld f.ext 3 0) (brA th f) (brB th f) = true) :
    Jumps (execBrCond t f s) s t th (th.pc.toNat + imm32 f.sl2 f.sl3) th.stack := by
  rw [execBrCond_issues h hf hc hk ha hb]
  exact runThread_transfer h (if_pos hh)

theorem execBrCond_stays (h : Issues s t th)
    (hf : formOk f 0 0x7F [brKind f, if bit f.ext 6 then .imm else .scalar, .imm, .imm] = true) (hc : fld f.ext 3 0 < 6)
    (hk : fld f.ext 5 4 < 3) (ha : fld f.ext 5 4 = 0 → Ready th f.sl0) (hb : bit f.ext 6 = false → Ready th f.sl1)
    (hh : brHolds (fld f.ext 3 0) (brA th f) (brB th f) = false) :
    execBrCond t f s = .next (stepOn (atIssue s t) t th) := by
  rw [execBrCond_issues h hf hc hk ha hb]
  exact runThread_ok h (if_neg (by simp [hh]))

theorem execBrCond_reserved (h : Issues s t th) (hc : 6 ≤ fld f.ext 3 0 ∨ fld f.ext 5 4 = 3) :
    execBrCond t f s = .next (progFault (atIssue s t) t th.pc fDecode) := by
  refine runThread_fault h (s' := atIssue s t) ?_
  have h2 : (decide (fld f.ext 3 0 < 6) && decide (fld f.ext 5 4 < 3)) = false := by
    rcases hc with hc | hc <;> simp [hc]
  dsimp only
  rw [h2]
  generalize formOk _ _ _ _ = b
  cases b <;> rfl

end

/-- Settles O9: each transfer of control answers what its target is, `br.cond` where its comparison holds. -/
theorem transferResults : Obligations.TransferResults := by
  unfold Obligations.TransferResults
  intro s t th f h s1 jumps rel
  refine ⟨fun hf => execNop_ok h hf, fun hv hf => execJmp_rel h hv hf, fun hv hf hr => execJmp_abs h hv hf hr,
    fun hd hv hf => execCall_rel h hd hv hf, fun hd hv hf hr => execCall_abs h hd hv hf hr, fun hd hv hf => execCall_deep h hd hv hf,
    fun hf hs => execRet_empty h hf hs, fun w rest hf hs => execRet_jumps h hf hs, ?_, fun hc => ?_⟩
  · intro cond kind bimm ka a b holds hf hc hk ha hb
    have hh : holds = brHolds cond a b := (brHolds_eq cond a b).symm
    exact ⟨fun ht => execBrCond_jumps h hf hc hk ha hb (hh ▸ ht), fun ht => execBrCond_stays h hf hc hk ha hb (hh ▸ ht)⟩
  · exact execBrCond_reserved h hc

end Sys2Proof.Machine

namespace Sys2Proof.Machine

/-! ## Loops (R253), turns, fences and halts (R234, R258, R259) -/

section
variable {s : State} {t : Tid} {th : Thread} {f : Fields}

/-- The count that `loop` starts with. -/
def loopCount (th : Thread) (f : Fields) : Half :=
  if bit f.variant 0 then f.sl1.zeroExtend 32 else (reg th f.sl1.toNat).setWidth 32

/-- A `loop` of a legal form, with its operands ready. -/
structure LoopIssues (s : State) (t : Tid) (th : Thread) (f : Fields) : Prop extends Issues s t th where
  form : formOk f 1 0 [.counter, if bit f.variant 0 then .imm else .scalar, .imm] = true
  body : f.sl2 ≠ 0
  ready : bit f.variant 0 = false → Ready th f.sl1

theorem execLoop_busy (h : LoopIssues s t th f) (ha : (th.loops.get (Fin.ofNat 4 f.sl0.toNat)).active = true) :
    execLoop t f s = .next (progFault (atIssue s t) t th.pc fLoopBusy) := by
  obtain ⟨hi, hf, hl, hr⟩ := h
  refine runThread_fault hi (s' := atIssue s t) ?_
  cases hb : bit f.variant 0 <;> simp_all [src_ready, needF, need]

theorem execLoop_outside (h : LoopIssues s t th f) (ha : (th.loops.get (Fin.ofNat 4 f.sl0.toNat)).active = false)
    (hw : inTable (atIssue s t) t.ctx.val (th.pc.toNat + f.sl2.toNat : Nat) = false) :
    execLoop t f s = .next (progFault (atIssue s t) t th.pc (fAddr 0)) := by
  obtain ⟨hi, hf, hl, hr⟩ := h
  refine runThread_fault hi (s' := atIssue s t) ?_
  cases hb : bit f.variant 0 <;> simp_all [src_ready, needF, need]

theorem execLoop_ok (h : LoopIssues s t th f) (ha : (th.loops.get (Fin.ofNat 4 f.sl0.toNat)).active = false)
    (hw : inTable (atIssue s t) t.ctx.val (th.pc.toNat + f.sl2.toNat : Nat) = true) :
    execLoop t f s = .next (if loopCount th f = 0 then
        setT { atIssue s t with seq := (atIssue s t).seq + 1 } t
          { th with lc := th.lc.set (Fin.ofNat 4 f.sl0.toNat) 0, pc := BitVec.ofNat 32 (th.pc.toNat + 1 + f.sl2.toNat),
                    pastEnd := decide (2 ^ 32 ≤ th.pc.toNat + 1 + f.sl2.toNat) }
      else
        stepOn (atIssue s t) t { th with
          lc := th.lc.set (Fin.ofNat 4 f.sl0.toNat) (loopCount th f)
          loops := th.loops.set (Fin.ofNat 4 f.sl0.toNat)
            { active := true, start := BitVec.ofNat 32 (th.pc.toNat + 1), stop := BitVec.ofNat 32 (th.pc.toNat + f.sl2.toNat),
              depth := th.stack.length, order := (atIssue s t).seq } }) := by
  obtain ⟨hi, hf, hl, hr⟩ := h
  refine runThread_ok hi ?_
  rw [apply_ite (Except.ok (ε := Halt))]
  unfold loopCount
  cases hb : bit f.variant 0 <;> simp_all [src_ready]

end

/-- Settles O10: the outcomes of a `loop` that issues, and the end test of `advance`. -/
theorem loopResults : Obligations.LoopResults := by
  unfold Obligations.LoopResults
  refine ⟨?_, ?_⟩
  · intro s t th f h s1 imm i w l c hf hl hr
    have k : LoopIssues s t th f := { toIssues := h, form := hf, body := hl, ready := hr }
    refine ⟨fun ha => execLoop_busy k ha, fun ha hw => execLoop_outside k ha hw, fun ha hw => ⟨fun hc => ?_, fun hc => ?_⟩⟩
    · exact (execLoop_ok k ha hw).trans (by rw [if_pos (show loopCount th f = 0 from hc)])
    · exact (execLoop_ok k ha hw).trans (by rw [if_neg (show ¬ loopCount th f = 0 from hc)]; rfl)
  · intro th i r past
    refine ⟨fun he => ?_, fun he => ⟨fun hn => ?_, fun hn => ?_⟩⟩
    · simp only [advance, he, endTests]
      rfl
    · simp only [advance, he, endTests, hn, if_true]
      rfl
    · simp only [advance, he, endTests, Nat.not_lt.mpr hn, if_false]
      rfl
end Sys2Proof.Machine

namespace Sys2Proof.Machine

/-! ## Events: their outcome from that of their computation -/

theorem runPlain_of_ok {x : Ex State} {s' : State} (h : x = .ok s') : runPlain x = .next s' := by rw [h]; rfl
theorem runPlain_of_no {x : Ex State} (h : ∃ why, x = .error (.no why)) : ∃ why, runPlain x = .refused (.notEnabled why) := by
  obtain ⟨why, rfl⟩ := h
  exact ⟨why, rfl⟩
theorem runEvent_of_ok {x : Ex State} {s' : State} {t : Tid} {pc : Half} (h : x = .ok s') : runEvent x t pc = .next s' := by
  rw [h]; rfl
theorem runEvent_of_no {x : Ex State} {t : Tid} {pc : Half} (h : ∃ why, x = .error (.no why)) :
    ∃ why, runEvent x t pc = .refused (.notEnabled why) := by
  obtain ⟨why, rfl⟩ := h
  exact ⟨why, rfl⟩
theorem runEvent_of_fault {x : Ex State} {s' : State} {t : Tid} {pc : Half} {f : PFault} (h : x = .error (.fault s' f)) :
    runEvent x t pc = .next (progFault s' t pc f) := by
  rw [h]; rfl

/-! ## Turns, fences and halts (R234, R258, R259) -/

section
variable {s : State} {t : Tid} {th : Thread} {f : Fields}

theorem noProducer_ok (hp : (th.accProd.isNone && th.vepiProd.isNone) = true) : noProducer s th = .ok () := needF_ok _ _ _ hp

theorem execTurn_ok (h : Issues s t th) (hf : formOk f 0 0 [.imm] = true) (hl : 1 ≤ f.sl0.toNat) (hu : f.sl0.toNat ≤ 255)
    (hp : (th.accProd.isNone && th.vepiProd.isNone) = true) : execTurn t f s =
      .next (setT { atIssue s t with seq := (atIssue s t).seq + 1 } t { th with block := .turn f.sl0.toNat }) :=
  runThread_ok h (by simp [hf, hl, hu, noProducer_ok hp])

/-- The instruction number that a `fence` which issues carries, and the streams that it looks at. -/
abbrev fenceMask (f : Fields) : BitVec 4 := f.variant.setWidth 4
abbrev fenceStreams (s : State) (t : Tid) := startedStreams (atIssue s t) t

theorem execFence_issues (h : Issues s t th) (hf : formOk f 0xF 0 [] = true) (hm : f.variant ≠ 0) : execFence t f s =
      .next (if fenceHolds (atIssue s t) t th (fenceMask f) (atIssue s t).seq (fenceStreams s t) then stepOn (atIssue s t) t th else
        setT { atIssue s t with seq := (atIssue s t).seq + 1 } t
          { th with block := .fence (fenceMask f) (atIssue s t).seq (fenceStreams s t) }) := by
  refine runThread_ok h ?_
  rw [apply_ite (Except.ok (ε := Halt))]
  have hm' : (f.variant != 0) = true := bne_iff_ne.mpr hm
  simp only [dec_ok _ _ hf, dec_ok _ _ hm', ex_ok_bind]

theorem execFenceRelease_ok {mask : BitVec 4} {seq : Nat} {started : List (Nat × Nat)} (hb : th.block = .fence mask seq started)
    (hth : getT? s t = some th) (hp : powered s = true) (hf : s.failed = false) (hpr : present s t = true)
    (hh : fenceHolds s t th mask seq started = true) :
    execFenceRelease t s = .next (stepOn s t { th with block := .none }) :=
  runPlain_of_ok (by simp [hth, the, hb, hp, hf, hpr, hh])

theorem execHalt_quiet (h : Issues s t th) (hf : formOk f 0 0 [] = true) (hp : (th.accProd.isNone && th.vepiProd.isNone) = true)
    (hq : (atIssue s t).splices.all (fun x => x.opener != t || x.st == .passed) = true) : execHalt t f s =
      .next (settle (setT { atIssue s t with seq := (atIssue s t).seq + 1 } t { th with halted := true }) t.ctx) :=
  runThread_ok h (by simp only [dec_ok _ _ hf, ex_ok_bind, noProducer_ok hp, needF_ok _ _ _ hq])

theorem execHalt_open (h : Issues s t th) (hf : formOk f 0 0 [] = true) (hp : (th.accProd.isNone && th.vepiProd.isNone) = true)
    (hq : (atIssue s t).splices.all (fun x => x.opener != t || x.st == .passed) = false) :
    execHalt t f s = .next (progFault (atIssue s t) t th.pc fHaltOpen) :=
  runThread_fault h (s' := atIssue s t)
    (by simp only [dec_ok _ _ hf, ex_ok_bind, noProducer_ok hp]; exact bind_needF_fault _ _ _ hq)

theorem execHalt_handoff (h : Issues s t th) (hf : formOk f 0 0 [] = true)
    (hp : (th.accProd.isNone && th.vepiProd.isNone) = false) :
    execHalt t f s = .next (progFault (atIssue s t) t th.pc fHandoff) :=
  runThread_fault h (s' := atIssue s t) (by simp only [dec_ok _ _ hf, ex_ok_bind]; exact bind_needF_fault _ _ _ hp)

end

/-- Settles O12: the outcomes of `turn`, `fence`, its release and `halt`. -/
theorem turnFenceHaltResults : Obligations.TurnFenceHaltResults := by
  unfold Obligations.TurnFenceHaltResults
  intro s t th f s1 noHand m st quiet
  refine ⟨fun h hf hl hu hp => execTurn_ok h hf hl hu hp, fun h hf hm => ⟨fun hh => ?_, fun hh => ?_⟩,
    fun mask seq started hth hb hp hnf hpr hh => execFenceRelease_ok hb hth hp hnf hpr hh,
    fun h hf hp => ⟨fun hq => execHalt_quiet h hf hp hq, fun hq => execHalt_open h hf hp hq⟩,
    fun h hf hp => execHalt_handoff h hf hp⟩
  · exact (execFence_issues h hf hm).trans (by rw [if_pos hh])
  · exact (execFence_issues h hf hm).trans (by rw [if_neg (by rw [hh]; decide)])

end Sys2Proof.Machine

namespace Sys2Proof.Machine

/-! ## Loads and stores (R262, R310) -/

section
variable {s s' : State} {t : Tid} {th : Thread} {f : Fields}

/-- The address that a load or a store of the thread computes, and the width of its access. -/
abbrev lsAddr (th : Thread) (f : Fields) : Word := reg th f.sl1.toNat + f.sl2.signExtend 64
abbrev lsWidth (f : Fields) : Nat := 2 ^ fld f.variant 1 0

theorem ldstAddr_ok {var : Nat} {reads : Bool} (hf : formOk f var 0 [.scalar, .scalar, .imm] = true) (hr : Ready th f.sl1)
    (hl : isLocal s (lsAddr th f) = true) (ha : localOf (lsAddr th f) % lsWidth f = 0)
    (hm : (if reads then okRead s t.ctx.val (localOf (lsAddr th f)) (lsWidth f)
      else okRange s t.ctx.val (localOf (lsAddr th f)) (lsWidth f)) = true) :
    ldstAddr s t th f var reads = .ok (lsAddr th f, lsWidth f) := by
  simp only [ldstAddr, dec_ok _ _ hf, src_ready hr, ex_ok_bind, imm16]
  rw [bind_needF_ok _ _ _ (by simp only [hl, ha, hm, beq_self_eq_true, Bool.and_self])]

theorem ldstAddr_fault {var : Nat} {reads : Bool} (hf : formOk f var 0 [.scalar, .scalar, .imm] = true) (hr : Ready th f.sl1)
    (hm : (isLocal s (lsAddr th f) && localOf (lsAddr th f) % lsWidth f == 0 &&
      (if reads then okRead s t.ctx.val (localOf (lsAddr th f)) (lsWidth f)
        else okRange s t.ctx.val (localOf (lsAddr th f)) (lsWidth f))) = false) :
    ldstAddr s t th f var reads = .error (.fault s (fAddr (lsAddr th f))) := by
  simp only [ldstAddr, dec_ok _ _ hf, src_ready hr, ex_ok_bind, imm16]
  exact bind_needF_fault _ _ _ hm

/-- An access of this device's memory asks nothing of the outside. -/
theorem askOutside_memory {c a n : Nat} (h : a < hostBase) : askOutside s c a n = .ok s := if_pos (.inl h)
theorem putA_memory {c a : Nat} (bs : List Byte) (h : a < hostBase) : putA s c a bs = wr s a bs := if_pos h

theorem readA_memory {a n : Nat} {s2 : State} (h : a < hostBase) (hr : okRead s t.ctx.val a n = true)
    (hp : admitPages s (quarterOf s t) t.ctx.val a n false = .ok s2) (hu : ueIn s2 a n = false) :
    readA s t a n = .ok (s2, rd s2 a n) := by
  simp only [readA, needF_ok _ _ _ hr, ex_ok_bind, hp, hu, Bool.not_false, needF_ok _ _ _ rfl, askOutside_memory h]

theorem writeA_eq {a : Nat} {bs : List Byte} (h : a < hostBase) (hr : okRange s t.ctx.val a bs.length = true) :
    writeA s t a bs = (admitPages s (quarterOf s t) t.ctx.val a bs.length true >>= fun s1 => .ok (wr s1 a bs)) := by
  simp only [writeA, needF_ok _ _ _ hr, ex_ok_bind, putA_memory _ h]

theorem execLds_memory (h : Issues s t th) (hf : formOk f 7 0 [.scalar, .scalar, .imm] = true) (hr : Ready th f.sl1)
    (hl : isLocal (atIssue s t) (lsAddr th f) = true) (ha : localOf (lsAddr th f) % lsWidth f = 0)
    (hm : okRead (atIssue s t) t.ctx.val (localOf (lsAddr th f)) (lsWidth f) = true) (hb : localOf (lsAddr th f) < hostBase)
    {s2 : State} (hp : admitPages (atIssue s t) (quarterOf (atIssue s t) t) t.ctx.val (localOf (lsAddr th f)) (lsWidth f) false = .ok s2)
    (hu : ueIn s2 (localOf (lsAddr th f)) (lsWidth f) = false) :
    execLds t f s = .next (stepOn s2 t (dst th f.sl0
      (loadValue (bit f.variant 2) (lsWidth f) (ofBytes (rd s2 (localOf (lsAddr th f)) (lsWidth f)))))) :=
  runThread_ok h (by
    simp only [ldstAddr_ok (reads := true) hf hr hl ha hm, ex_ok_bind, if_neg (Nat.not_le.mpr hb), readA_memory hb hm hp hu])

theorem execLds_host (h : Issues s t th) (hf : formOk f 7 0 [.scalar, .scalar, .imm] = true) (hr : Ready th f.sl1)
    (hl : isLocal (atIssue s t) (lsAddr th f) = true) (ha : localOf (lsAddr th f) % lsWidth f = 0)
    (hm : okRead (atIssue s t) t.ctx.val (localOf (lsAddr th f)) (lsWidth f) = true) (hb : hostBase ≤ localOf (lsAddr th f)) :
    execLds t f s = .next (toHost (stepOn (atIssue s t) t { dst th f.sl0 (reg th f.sl0.toNat) with
        hostLoads := (dst th f.sl0 (reg th f.sl0.toNat)).hostLoads ++
          [⟨f.sl0.toNat, lsWidth f, bit f.variant 2, localOf (lsAddr th f), (atIssue s t).seq⟩] })
      (.read (localOf (lsAddr th f) - hostBase) (lsWidth f) (hostId (atIssue s t) t.ctx))) :=
  runThread_ok h (by simp only [ldstAddr_ok (reads := true) hf hr hl ha hm, ex_ok_bind, if_pos hb])

theorem execLds_fault (h : Issues s t th) (hf : formOk f 7 0 [.scalar, .scalar, .imm] = true) (hr : Ready th f.sl1)
    (hm : (isLocal (atIssue s t) (lsAddr th f) && localOf (lsAddr th f) % lsWidth f == 0 &&
      okRead (atIssue s t) t.ctx.val (localOf (lsAddr th f)) (lsWidth f)) = false) :
    execLds t f s = .next (progFault (atIssue s t) t th.pc (fAddr (lsAddr th f))) :=
  runThread_fault h (by simp only [ldstAddr_fault (reads := true) hf hr hm, ex_error_bind])

/-- A store that its checks let pass, up to the pages of its range. -/
theorem execSts_memory (h : Issues s t th) (hf : formOk f 3 0 [.scalar, .scalar, .imm] = true) (hr : Ready th f.sl1)
    (h0 : Ready th f.sl0) (hl : isLocal (atIssue s t) (lsAddr th f) = true) (ha : localOf (lsAddr th f) % lsWidth f = 0)
    (hm : okRange (atIssue s t) t.ctx.val (localOf (lsAddr th f)) (lsWidth f) = true) (hb : localOf (lsAddr th f) < hostBase) :
    execSts t f s = runThread s t (fun s th =>
      admitPages (notReplayable s t) (quarterOf (notReplayable s t) t) t.ctx.val (localOf (lsAddr th f)) (lsWidth f) true >>= fun s1 =>
        .ok (stepOn (wr s1 (localOf (lsAddr th f)) (leBytes (lsWidth f) (reg th f.sl0.toNat).toNat)) t th)) := by
  have hw := writeA_eq (s := notReplayable (atIssue s t) t) (bs := leBytes (lsWidth f) (reg th f.sl0.toNat).toNat) hb
    (by rw [leBytes_length]; exact hm)
  rw [leBytes_length] at hw
  rw [execSts, runThread_issues h, runThread_issues h]
  simp only [ldstAddr_ok (reads := false) hf hr hl ha hm, ex_ok_bind, src_ready h0, if_neg (Nat.not_le.mpr hb), hw, bind_assoc]

theorem execSts_host (h : Issues s t th) (hf : formOk f 3 0 [.scalar, .scalar, .imm] = true) (hr : Ready th f.sl1)
    (h0 : Ready th f.sl0) (hl : isLocal (atIssue s t) (lsAddr th f) = true) (ha : localOf (lsAddr th f) % lsWidth f = 0)
    (hm : okRange (atIssue s t) t.ctx.val (localOf (lsAddr th f)) (lsWidth f) = true) (hb : hostBase ≤ localOf (lsAddr th f)) :
    execSts t f s = .next (stepOn (toHost (notReplayable (atIssue s t) t)
      (.write (localOf (lsAddr th f) - hostBase) (leBytes (lsWidth f) (reg th f.sl0.toNat).toNat) (hostId (atIssue s t) t.ctx))) t th) :=
  runThread_ok h (by simp only [ldstAddr_ok (reads := false) hf hr hl ha hm, ex_ok_bind, src_ready h0, if_pos hb])

theorem execSts_fault (h : Issues s t th) (hf : formOk f 3 0 [.scalar, .scalar, .imm] = true) (hr : Ready th f.sl1)
    (hm : (isLocal (atIssue s t) (lsAddr th f) && localOf (lsAddr th f) % lsWidth f == 0 &&
      okRange (atIssue s t) t.ctx.val (localOf (lsAddr th f)) (lsWidth f)) = false) :
    execSts t f s = .next (progFault (atIssue s t) t th.pc (fAddr (lsAddr th f))) :=
  runThread_fault h (by simp only [ldstAddr_fault (reads := false) hf hr hm, ex_error_bind])

end

/-- Settles O6: the outcomes of `lds` and `sts` at an address of memory, of the host window, and at one that they may not access. -/
theorem loadStoreResults : Obligations.LoadStoreResults := by
  unfold Obligations.LoadStoreResults
  intro s t th f h s1 g a n legal
  refine ⟨fun ⟨hr, hl, ha⟩ hm hf => ⟨fun hb s2 hp hu => ?_, fun hb => ⟨_, execLds_host h hf hr hl ha hm hb, rfl⟩⟩,
    fun ⟨hr, hl, ha⟩ hm hf h0 => ⟨fun hb s2 hp => ?_, fun hb => execSts_host h hf hr h0 hl ha hm hb⟩,
    fun hr hm hf => execLds_fault h hf hr hm, fun hr hm hf => execSts_fault h hf hr hm⟩
  · exact execLds_memory h hf hr hl ha hm hb hp hu
  · exact (execSts_memory h hf hr h0 hl ha hm hb).trans (runThread_ok h (by rw [hp]; rfl))

end Sys2Proof.Machine

namespace Sys2Proof.Machine

/-! ## What a store leaves (R262, R310) -/

/-- A fold of computations that each keep a property keeps it. -/
theorem answers_foldlM {α β : Type} {P : State → Prop} {I : β → Prop} {g : β → α → Ex β} (hg : ∀ b x, I b → Answers P I (g b x))
    (l : List α) (b : β) (h : I b) : Answers P I (l.foldlM g b) := by
  induction l generalizing b with
  | nil => exact h
  | cons x xs ih =>
    rw [List.foldlM_cons, answers_bind]
    exact (hg b x h).mono fun c hc => ih c hc

theorem bringIn_sameMem {s s' : State} {pg A c : Nat} (h : bringIn s pg A c = some s') : SameMem s s' := by
  have put (s : State) (f : Nat) : SameMem s
      (bumpC { s with pages := tabSet s.pages pg { frame := f, last := strokeNow s } } c kUniIn 1) := by grind [SameMem, bumpC_sameMem]
  unfold bringIn at h
  split at h
  · cases h
  extract_lets may q at h
  clear_value q
  split at h
  · cases h
  split at h
  · cases h
    exact put ..
  split at h
  · cases h
  split at h
  · cases h
  · cases h
    refine .trans ?_ (put ..)
    grind [SameMem, bumpC_sameMem]
theorem touchPages_sameMem (s : State) (pgs : List Nat) : SameMem s (touchPages s pgs) := by
  refine foldl_sameMem (fun s pg => ?_) _ _
  grind [SameMem]

/-- The pages of an access come in, or the access waits: no byte changes and nothing faults. -/
theorem admitPages_answers (s : State) (A c a n : Nat) (write : Bool) :
    Answers (fun _ => False) (SameMem s) (admitPages s A c a n write) := by
  simp only [admitPages, answers_bind]
  refine (answers_foldlM (I := SameMem s) (fun b x hb => ?_) _ _ (.refl s)).mono fun b hb => ?_
  · simp only [answers_ite, answers_no, answers_the, answers_ok]
    exact ⟨fun _ => trivial, fun _ => ⟨fun _ => ⟨fun _ s' h => hb.trans (bringIn_sameMem h), fun _ => trivial⟩, fun _ => hb⟩⟩
  · simp only [answers_can, answers_ok]
    exact fun _ => hb.trans (touchPages_sameMem ..)

section
variable {s s' : State} {t : Tid} {th : Thread} {f : Fields}

/-- A store that completes to memory has written its bytes into memory as it was. -/
theorem execSts_mem (h : Issues s t th) (hf : formOk f 3 0 [.scalar, .scalar, .imm] = true) (hr : Ready th f.sl1)
    (h0 : Ready th f.sl0) (hl : isLocal (atIssue s t) (lsAddr th f) = true) (ha : localOf (lsAddr th f) % lsWidth f = 0)
    (hm : okRange (atIssue s t) t.ctx.val (localOf (lsAddr th f)) (lsWidth f) = true) (hb : localOf (lsAddr th f) < hostBase)
    (hs : execSts t f s = .next s') :
    s'.mem = memWrite s.mem (localOf (lsAddr th f)) (leBytes (lsWidth f) (reg th f.sl0.toNat).toNat) := by
  rw [execSts_memory h hf hr h0 hl ha hm hb, runThread_issues h] at hs
  have hp := admitPages_answers (notReplayable (atIssue s t) t) (quarterOf (notReplayable (atIssue s t) t) t) t.ctx.val
    (localOf (lsAddr th f)) (lsWidth f) true
  generalize admitPages _ _ _ _ _ _ = x at hs hp
  cases x with
  | error e =>
    cases e with
    | no why => cases hs
    | fault s1 g => exact hp.elim
  | ok s2 =>
    cases hs
    have hi : SameMem s (atIssue s t) := firstIssue_sameMem ..
    have hm2 : s2.mem = s.mem := by
      rw [hp.mem, (notReplayable_sameMem ..).mem, hi.mem]
    rw [(stepOn_sameMem ..).mem, ← hm2]
    rfl

end

/-- Settles O7: the memory after a store is `memWrite` of the memory before it. -/
theorem storeFrame : Obligations.StoreFrame := by
  unfold Obligations.StoreFrame
  intro s s' t th f h hw s1 g a n hf hr h0 hb hl ha hm hs
  have e := execSts_mem h hf hr h0 hl ha hm hb hs
  have hlen : (leBytes n (reg th f.sl0.toNat).toNat).length = n := leBytes_length ..
  refine ⟨?_, ?_, fun k hk => ?_⟩
  · rw [rd, e]
    have := memRead_memWrite (leBytes n (reg th f.sl0.toNat).toNat) a hw
    rwa [hlen] at this
  · rw [e]
    exact Memory.wf_memWrite _ _ hw
  · rw [e]
    exact memByte_memWrite_other _ _ _ _ (by rw [hlen]; exact hk)

end Sys2Proof.Machine

namespace Sys2Proof.Machine

/-! ## Refusals at decode (R249) -/

theorem low_reserved (t : Tid) (f : Fields) {op : BitVec 8} (h : op ∉ Necel.opcodes) : Necel.low t f op = .nop t f (some op) := by
  have ne {k : Nat} (hk : BitVec.ofNat 8 k ∈ Necel.opcodes) : op.toNat ≠ k := fun e => h (by rw [← e] at hk; simpa using hk)
  unfold Necel.low
  split
  rotate_right
  · rfl
  all_goals exact absurd ‹_› (ne (by decide))
theorem high_reserved (t : Tid) (f : Fields) {op : BitVec 8} (h : op ∉ Necel.opcodes) : Necel.high t f op = .nop t f (some op) := by
  have ne {k : Nat} (hk : BitVec.ofNat 8 k ∈ Necel.opcodes) : op.toNat ≠ k := fun e => h (by rw [← e] at hk; simpa using hk)
  unfold Necel.high
  extract_lets b
  split
  rotate_right
  · rfl
  all_goals exact absurd ‹_› (ne (by decide))

/-- A word with a reserved opcode is the `nop` that faults. -/
theorem command_reserved (t : Tid) (w : BitVec 128) (h : w.extractLsb' 120 8 ∉ Necel.opcodes) :
    Necel.command t w = .nop t (Fields.ofWord w) (some (w.extractLsb' 120 8)) := by
  unfold Necel.command
  extract_lets op
  split
  · exact low_reserved _ _ h
  · exact high_reserved _ _ h

section
variable {s : State} {t : Tid} {th : Thread} {f : Fields}

/-- What a thread's instruction answers that is refused at decode. -/
def Refused (r : Res) (s : State) (t : Tid) (th : Thread) : Prop := r = .next (progFault (atIssue s t) t th.pc fDecode)

variable {k : State → Thread → Ex State} {c d : Bool}

/-- A meaning that begins with a decode check which fails is refused. -/
theorem refused_of_dec (h : Issues s t th) {k' : Unit → Ex State} (hk : k (atIssue s t) th = dec (atIssue s t) c >>= k')
    (hc : c = false) : Refused (runThread s t k) s t th :=
  runThread_fault h (hk.trans (bind_dec_fault _ _ hc))

/-- A meaning that begins with two decode checks is refused where one fails. -/
theorem refused_of_dec2 (h : Issues s t th) {k' : Unit → Ex State}
    (hk : k (atIssue s t) th = dec (atIssue s t) c >>= fun _ => dec (atIssue s t) d >>= k') (hc : (c && d) = false) :
    Refused (runThread s t k) s t th := by
  refine runThread_fault h (s' := atIssue s t) (hk.trans ?_)
  cases c
  · rfl
  · rw [bind_dec_ok _ _ rfl]
    exact bind_dec_fault _ _ hc

theorem and_false_of_or {p q : Bool} (h : p = false ∨ q = false) : (p && q) = false := by
  rcases h with rfl | rfl <;> simp

/-- The operand of the scalar ALU in slot 2. -/
theorem refused_aluOp {n : Nat} (g : Word → Word → Word) (h : Issues s t th)
    (hf : formOk f n 0 [.scalar, .scalar, if bit f.variant 0 then .imm else .scalar] = false) :
    Refused (aluOp t f s n g) s t th :=
  runThread_fault h (s' := atIssue s t) (by simp only [aluOperands, bind_dec_fault _ _ hf, ex_error_bind])

theorem refused_jumpTarget {g : Int → Thread → State → Ex State} (h : Issues s t th)
    (hf : formOk f 1 0 (if bit f.variant 0 then [.scalar] else [.imm, .imm]) = false) :
    Refused (runThread s t fun s th => jumpTarget s th f >>= fun w => g w th s) s t th := by
  refine runThread_fault h (s' := atIssue s t) ?_
  cases hb : bit f.variant 0 <;> simp only [hb, if_true, Bool.false_eq_true, if_false] at hf <;>
    simp only [jumpTarget, hb, if_true, Bool.false_eq_true, if_false, bind_dec_fault _ _ hf, ex_error_bind]

theorem refused_ldst {n : Nat} {r : Bool} {g : Word × Nat → State → Thread → Ex State} (h : Issues s t th)
    (hf : formOk f n 0 [.scalar, .scalar, .imm] = false) :
    Refused (runThread s t fun s th => ldstAddr s t th f n r >>= fun x => g x s th) s t th :=
  runThread_fault h (s' := atIssue s t) (by simp only [ldstAddr, bind_dec_fault _ _ hf, ex_error_bind])

theorem refused_li (h : Issues s t th)
    (hf : formOk f 1 0 (if bit f.variant 0 then [.scalar, .imm] else [.scalar, .imm, .imm, .imm]) = false) :
    Refused (execLi t f s) s t th := by
  refine runThread_fault h (s' := atIssue s t) ?_
  cases hb : bit f.variant 0 <;> simp only [hb, if_true, Bool.false_eq_true, if_false] at hf <;>
    simp only [if_true, Bool.false_eq_true, if_false, bind_dec_fault _ _ hf]

theorem refused_mov (h : Issues s t th) {ks : List SlotK} (hm : (fld f.ext 2 0, ks) ∈
      [(0, [SlotK.scalar, .scalar]), (1, [.scalar, .counter]), (2, [.counter, .scalar]), (3, [.scalar, .imm])])
    (hf : formOk f 0 7 ks = false) : Refused (execMov t f s) s t th := by
  refine runThread_fault h (s' := atIssue s t) ?_
  simp only [List.mem_cons, Prod.mk.injEq, List.not_mem_nil, or_false] at hm
  rcases hm with ⟨e, rfl⟩ | ⟨e, rfl⟩ | ⟨e, rfl⟩ | ⟨e, rfl⟩ <;> simp only [e, bind_dec_fault _ _ hf]

theorem refused_nop (h : Issues s t th) {r : Option (BitVec 8)} (hc : r ≠ none ∨ formOk f 0 0 [] = false) :
    Refused (execNop t f r s) s t th :=
  refused_of_dec2 h rfl (and_false_of_or (by cases r <;> simp_all))

theorem refused_loop (h : Issues s t th)
    (hc : formOk f 1 0 [.counter, if bit f.variant 0 then .imm else .scalar, .imm] = false ∨ f.sl2 = 0) :
    Refused (execLoop t f s) s t th :=
  refused_of_dec2 h rfl (and_false_of_or (by simpa using hc))

theorem refused_brCond (h : Issues s t th)
    (hc : formOk f 0 0x7F [brKind f, if bit f.ext 6 then .imm else .scalar, .imm, .imm] = false ∨ 6 ≤ fld f.ext 3 0 ∨
      fld f.ext 5 4 = 3) : Refused (execBrCond t f s) s t th := by
  rcases hc with hf | hk
  · refine refused_of_dec h rfl ?_
    unfold brKind at hf
    generalize fld f.ext 5 4 = kind at hf ⊢
    rcases kind with _ | _ | kind <;> simpa using hf
  · exact execBrCond_reserved h hk

theorem refused_wait (h : Issues s t th)
    (hc : formOk f 1 0 [if bit f.variant 0 then .sharedSem else .localSem, .imm] = false ∨ f.sl1 = 0) :
    Refused (execWait t f s) s t th :=
  refused_of_dec2 h rfl (and_false_of_or (by simpa using hc))

theorem refused_sig (h : Issues s t th) (hc : formOk f 1 0 [if bit f.variant 0 then .unused else .scalar,
      if bit f.variant 0 then .sharedSem else .localSem, .imm] = false ∨ f.sl2 = 0) : Refused (execSig t f s) s t th :=
  refused_of_dec2 h rfl (and_false_of_or (by simpa using hc))

theorem refused_turn (h : Issues s t th) (hc : formOk f 0 0 [.imm] = false ∨ f.sl0 = 0 ∨ 255 < f.sl0.toNat) :
    Refused (execTurn t f s) s t th := by
  refine refused_of_dec2 h rfl (and_false_of_or (hc.imp id fun hn => ?_))
  rcases hn with hn | hn
  · rw [hn]; rfl
  · simp [hn]

theorem refused_fence (h : Issues s t th) (hc : formOk f 0xF 0 [] = false ∨ f.variant = 0) : Refused (execFence t f s) s t th :=
  refused_of_dec2 h rfl (and_false_of_or (hc.imp id fun hv => by rw [hv]; rfl))

theorem refused_mcastSend (h : Issues s t th) (hc : formOk f 0 0 [.stream, .handle, .scalar, .group 2, .imm, .imm] = false ∨
      255 < f.sl4.toNat ∨ f.sl5 = 0 ∨ 64 < f.sl5.toNat) : Refused (execDraftMcastSend t f s) s t th := by
  refine refused_of_dec2 h rfl (and_false_of_or (hc.imp id fun hn => ?_))
  rcases hn with hn | hn | hn <;> simp [hn]

theorem refused_planStart (h : Issues s t th) (hc : formOk f 0 0 [.handle, .imm, .imm] = false ∨ 255 < f.sl1.toNat ∨ f.sl2 = 0 ∨
      64 < f.sl2.toNat) : Refused (execDraftPlanStart t f s) s t th := by
  refine refused_of_dec2 h rfl (and_false_of_or (hc.imp id fun hn => ?_))
  rcases hn with hn | hn | hn <;> simp [hn]

theorem refused_mma (h : Issues s t th) (hc : formOk f 0x1F 0 [.handle, .handle, if bit f.variant 4 then .scalar else .handle,
      .scalar, .scalar, .scalar] = false ∨ fld f.variant 2 0 = 7 ∨
      (bit f.variant 3 = true ∧ fld f.variant 2 0 ≠ 1 ∧ fld f.variant 2 0 ≠ 5)) : Refused (execMma t f s) s t th := by
  refine refused_of_dec2 h rfl (and_false_of_or (hc.symm.imp (fun hp => ?_) id))
  rcases hp with hp | ⟨hz, h1, h5⟩ <;> simp [*]

/-- The form of `qnt`. -/
theorem refused_qnt (h : Issues s t th) (hc : formOk f 0x3F 0x1FFF [.handle, .stream, if fld f.variant 3 2 == 2 then .scalar else .unused,
      .scalar, if bit f.variant 4 then .handle else .unused, if fld f.variant 3 2 == 2 then .scalar else .unused] = false ∨
      fld f.variant 1 0 = 3 ∨ fld f.variant 3 2 = 3 ∨ 4096 < fld f.ext 12 0 ∨
      (fld f.variant 1 0 ≠ 0 ∧ (bit f.variant 4 = true ∨ fld f.ext 12 0 ≠ 0))) : Refused (execQnt t f s) s t th := by
  refine refused_of_dec2 h rfl (and_false_of_or (hc.symm.imp (fun hp => ?_) id))
  rcases hp with hp | hp | hp | ⟨h0, hp⟩
  · simp [qDf, hp]
  · simp [qSrc, hp]
  · simp [hp]
  · rcases hp with hp | hp <;> simp [qDf, h0, hp]

theorem refused_elem {tag : EngTag} {var : Nat} {fma : Bool} (h : Issues s t th)
    (hc : formOk f var 0 ([.scalar, .scalar, .scalar] ++ if fma then [.scalar] else []) = false ∨
      (bit f.variant 0 = true ∧ bit f.variant 1 = true) ∨ (bit f.variant 2 = true ∧ bit f.variant 3 = true)) :
    Refused (issueElem t f s tag var fma) s t th := by
  refine refused_of_dec2 h rfl (and_false_of_or (hc.imp id fun hp => ?_))
  rcases hp with ⟨h0, h1⟩ | ⟨h0, h1⟩ <;> simp [h0, h1]

theorem refused_vred (h : Issues s t th) (hc : formOk f 0x3F 0 [.scalar, if bit f.variant 5 then .stream else .scalar,
      if fld f.variant 4 3 == 1 then .scalar else .unused,
      if fld f.variant 4 3 != 0 || bit f.variant 5 then .scalar else .unused,
      if fld f.variant 4 3 == 1 then .scalar else .unused] = false ∨ 5 ≤ fld f.variant 2 0 ∨ fld f.variant 4 3 = 3 ∨
      (bit f.variant 5 = true ∧ fld f.variant 4 3 = 2)) : Refused (execVred t f s) s t th := by
  refine refused_of_dec2 h rfl (and_false_of_or (hc.symm.imp (fun hp => ?_) fun hf => ?_))
  · rcases hp with hp | hp | ⟨h5, hp⟩ <;> simp [*]
  · simpa using hf

theorem refused_vstat (h : Issues s t th) (hc : formOk f 0xF 0 [.scalar, if bit f.variant 2 then .stream else .scalar,
      if fld f.variant 1 0 == 0 then .scalar else .unused, if fld f.variant 1 0 == 1 then .scalar else .unused,
      if fld f.variant 1 0 != 0 || bit f.variant 2 then .scalar else .unused,
      if fld f.variant 1 0 == 1 then .scalar else .unused] = false ∨ fld f.variant 1 0 = 3 ∨
      (bit f.variant 2 = true ∧ fld f.variant 1 0 = 2) ∨ (bit f.variant 3 = true ∧ fld f.variant 1 0 ≠ 0)) :
    Refused (execVstat t f s) s t th := by
  refine refused_of_dec2 h rfl (and_false_of_or (hc.symm.imp (fun hp => ?_) fun hf => ?_))
  · rcases hp with hp | ⟨h2, hp⟩ | ⟨h3, hp⟩ <;> simp [*]
  · simpa using hf

theorem refused_vepi (h : Issues s t th) (hc : formOk f 0xFF 0 [if !bit f.variant 4 then .scalar else .unused,
      if !bit f.variant 3 then .scalar else .unused, .scalar, .scalar, .scalar] = false ∨ 6 ≤ fld f.variant 2 0) :
    Refused (execVepi t f s) s t th := by
  refine refused_of_dec2 h rfl (and_false_of_or (hc.symm.imp (fun hp => by simpa using hp) fun hf => ?_))
  cases h4 : bit f.variant 4 <;> cases h3 : bit f.variant 3 <;> simpa [h3, h4] using hf

theorem refused_vnorm (h : Issues s t th) (hc : formOk f 0xF 0 [.scalar, .scalar, .group 2, .scalar, .scalar, .scalar] = false ∨
      fld f.variant 1 0 = 3) : Refused (execVnorm t f s) s t th :=
  refused_of_dec2 h rfl (and_false_of_or (hc.symm.imp (fun hp => by simp [hp]) id))

theorem refused_vrng (h : Issues s t th) (hc : formOk f 3 0 [.scalar, .group 2, .group 2] = false ∨ fld f.variant 1 0 = 3) :
    Refused (execVrng t f s) s t th :=
  refused_of_dec2 h rfl (and_false_of_or (hc.symm.imp (fun hp => by simp [hp]) id))

theorem stepForm_false {rc : Bool} (hc : fld f.variant 1 0 = 3 ∨ formOk { f with variant := f.variant &&& 0xFC } 0 0
      [.group 4, .scalar, .stream, .stream, if rc then .handle else .unused, if rc then .scalar else .unused] = false) :
    stepForm f rc = false :=
  and_false_of_or (hc.imp (fun hp => by simp [hp]) id)

theorem refused_vsmx (h : Issues s t th) {i : Instr} {rc : Bool}
    (hi : (i, rc) ∈ [(Instr.vsmxScore t f, false), (.vsmxAcc t f, false), (.vsmxRecomp t f, true)])
    (hc : stepForm f rc = false) : Refused (exec i s) s t th := by
  simp only [List.mem_cons, Prod.mk.injEq, List.not_mem_nil, or_false] at hi
  rcases hi with ⟨rfl, rfl⟩ | ⟨rfl, rfl⟩ | ⟨rfl, rfl⟩
  · exact (refused_of_dec h rfl hc : Refused (execVsmxScore t f s) s t th)
  · exact (refused_of_dec h rfl hc : Refused (execVsmxAcc t f s) s t th)
  · exact (refused_of_dec h rfl hc : Refused (execVsmxRecomp t f s) s t th)

theorem refused_cardSel (h : Issues s t th) (hc : formOk f 0x7F 0x3FF [.handle, .handle, .handle, .handle, .group 4] = false ∨
      64 < fld f.variant 6 0 ∨ fld f.ext 9 0 = 0 ∨ 512 < fld f.ext 9 0) : Refused (execCardSel t f s) s t th := by
  refine refused_of_dec2 h rfl (and_false_of_or (hc.imp id fun hp => ?_))
  rcases hp with hp | hp | hp
  · have : ¬ selF f ≤ 64 := Nat.not_le.mpr hp
    simp [this]
  · simp [selK, hp]
  · have : ¬ selK f ≤ 512 := Nat.not_le.mpr hp
    simp [this]

theorem refused_swConv (h : Issues s t th) (hc : formOk f 7 0x7FFF [.handle, .handle, .handle,
      if bit f.variant 2 then .handle else .unused, .group 2] = false ∨ fld f.ext 2 0 = 7 ∨ fld f.ext 5 3 = 7 ∨ fld f.ext 8 6 = 7) :
    Refused (execSwConv t f s) s t th := by
  refine refused_of_dec2 h rfl (and_false_of_or (hc.imp id fun hp => ?_))
  rcases hp with hp | hp | hp <;> simp [convK, hp]

/-- A link instruction with a group outside 0 to 15. -/
theorem group_false (hg : 16 ≤ f.sl4.toNat) : decide (f.sl4.toNat < 16) = false := by simpa using hg

end

/-- What holds of every instruction of a list, from each. -/
theorem forall_one {P : Instr → Prop} {i : Instr} (h : P i) : ∀ j ∈ [i], P j := by simpa using h
theorem forall_two {P : Instr → Prop} {i j : Instr} (hi : P i) (hj : P j) : ∀ k ∈ [i, j], P k := by simpa using ⟨hi, hj⟩
theorem forall_three {P : Instr → Prop} {i j k : Instr} (hi : P i) (hj : P j) (hk : P k) : ∀ l ∈ [i, j, k], P l := by
  simpa using ⟨hi, hj, hk⟩

/-- Settles O5: the decode checks of each instruction come first, and one that fails is a DECODE fault. -/
theorem decodeRefusals : Obligations.DecodeRefusals := by
  unfold Obligations.DecodeRefusals
  intro s t th f h b v low cut opt broken refused
  refine ⟨?_, ?_, ?_, ?_, ?_, ?_, ⟨?_, ?_, ?_⟩, ?_, ?_, ?_, ?_, ?_, ?_, ?_, ?_, ?_, ?_⟩
  · intro hf
    simp only [refused, List.forall_mem_cons]
    exact ⟨refused_aluOp _ h hf, refused_aluOp _ h hf, refused_aluOp _ h hf, refused_aluOp _ h hf, refused_aluOp _ h hf,
      refused_aluOp _ h hf, refused_aluOp _ h hf, refused_aluOp _ h hf, refused_aluOp _ h hf, refused_aluOp _ h hf,
      refused_aluOp _ h hf, List.forall_mem_nil _⟩
  · exact fun hf => forall_three (refused_aluOp _ h hf) (refused_aluOp _ h hf) (refused_aluOp _ h hf)
  · exact fun hf => forall_one (refused_li h hf)
  · exact fun ks hm hf => forall_one (refused_mov h hm hf)
  · exact fun hf => forall_one (refused_ldst h hf : Refused (execLds t f s) s t th)
  · exact fun hf => forall_one (refused_ldst h hf : Refused (execSts t f s) s t th)
  · exact fun hf => forall_one (refused_of_dec h rfl hf : Refused (execHget t f s) s t th)
  · exact fun hf => forall_one (refused_of_dec h rfl hf : Refused (execHset t f s) s t th)
  · intro hv hl
    have hw (r : BitVec 16) : (if v 0 then decide (f.sl2.toNat < 8) else wholeReg r) = false := by simpa [hv] using hl
    exact forall_two
      (refused_of_dec2 h rfl (and_false_of_or (.inr (hw _))) : Refused (execHget t f s) s t th)
      (refused_of_dec2 h rfl (and_false_of_or (.inr (hw _))) : Refused (execHset t f s) s t th)
  · exact fun hf => forall_three
      (refused_nop h (.inr hf))
      (refused_of_dec h rfl hf : Refused (execRet t f s) s t th)
      (refused_of_dec h rfl hf : Refused (execHalt t f s) s t th)
  · exact fun w hw => forall_one (by rw [command_reserved t w hw]; exact refused_nop h (.inl nofun))
  · exact fun hc => forall_one (refused_loop h hc)
  · exact fun hf => forall_two
      (refused_jumpTarget h hf : Refused (execJmp t f s) s t th)
      (refused_jumpTarget h hf : Refused (execCall t f s) s t th)
  · exact fun hc => forall_one (refused_brCond h hc)
  · exact fun hc => forall_one (refused_wait h hc)
  · exact fun hc => forall_one (refused_sig h hc)
  · exact fun hc => forall_one (refused_turn h hc)
  · exact fun hc => forall_one (refused_fence h hc)
  refine ⟨?_, ?_, ?_, ?_, ?_, ?_, ?_, ?_, ?_, ?_, ?_, ?_, ?_, ?_, ?_, ?_, ?_⟩
  · exact fun hf => forall_three
      (refused_of_dec h rfl hf : Refused (execSplBegin t f s) s t th)
      (refused_of_dec h rfl hf : Refused (execSplCommit t f s) s t th)
      (refused_of_dec h rfl hf : Refused (execSplAbort t f s) s t th)
  · exact fun hc => forall_one (refused_of_dec2 h rfl (and_false_of_or (by simpa using hc)) : Refused (execSplStatus t f s) s t th)
  · exact fun hf => forall_one (refused_of_dec h rfl hf : Refused (execReelMark t f s) s t th)
  · exact fun hc => forall_one (refused_of_dec2 h rfl (and_false_of_or (by simpa using hc)) : Refused (execCdcSubmit t f s) s t th)
  · exact fun hf => forall_two
      (refused_of_dec h rfl hf : Refused (openLdSt t f s false) s t th)
      (refused_of_dec h rfl hf : Refused (openLdSt t f s true) s t th)
  · exact fun hf => forall_one (refused_of_dec h rfl hf : Refused (execDraftGather t f s) s t th)
  · exact fun hc => forall_one (refused_mcastSend h hc)
  · exact fun hc => forall_one
      (refused_of_dec2 h rfl (and_false_of_or (by simpa using hc)) : Refused (execDraftMcastRecv t f s) s t th)
  · exact fun hc => forall_one (refused_planStart h hc)
  · exact fun hc => forall_one
      (refused_of_dec2 h rfl (and_false_of_or (by simpa using hc)) : Refused (execDraftPlanAdvance t f s) s t th)
  · exact fun hf => forall_one (refused_of_dec h rfl hf : Refused (execDraftWait t f s) s t th)
  · exact fun hf => forall_one (refused_of_dec h rfl hf : Refused (execDraftWaitFree t f s) s t th)
  · exact fun hf => forall_one (refused_of_dec h rfl hf : Refused (execDraftWaitClose t f s) s t th)
  · exact fun hc => forall_one (refused_mma h hc)
  · exact fun hc => forall_one (refused_qnt h hc)
  · exact fun hc => forall_two (refused_elem h (hc.imp id .inl)) (refused_elem h (hc.imp id .inl))
  refine ⟨?_, ?_, ?_, ?_, ?_, ?_, ?_, ?_, ?_, ?_, ?_, ?_, ?_, ?_, ?_⟩
  · intro hc
    have hc' : formOk (cut 0xEF) 3 0 [.scalar, .scalar, .scalar] = false ∨
        (bit (cut 0xEF).variant 0 = true ∧ bit (cut 0xEF).variant 1 = true) ∨
        (bit (cut 0xEF).variant 2 = true ∧ bit (cut 0xEF).variant 3 = true) :=
      hc.imp id fun hb => .inl (by simpa [cut, bit, v] using hb)
    exact forall_two (refused_elem h hc') (refused_elem h hc')
  · exact fun hc => forall_one (refused_elem h hc)
  · exact fun hc => forall_one (refused_vred h hc)
  · exact fun hc => forall_one (refused_vstat h hc)
  · exact fun hf => forall_one (refused_of_dec h rfl hf : Refused (issueUnary t f s .vcvt 0) s t th)
  · exact fun hf => forall_one (refused_of_dec h rfl hf : Refused (issueUnary t f s .vfn 7) s t th)
  · exact fun hc => forall_one (refused_vepi h hc)
  · exact fun hf => forall_one (refused_of_dec h rfl hf : Refused (execVrot t f s) s t th)
  · exact fun hc => forall_one (refused_vnorm h hc)
  · exact fun hc => forall_one (refused_vrng h hc)
  · exact fun i rc hi hc => forall_one (refused_vsmx h hi (stepForm_false hc))
  · exact fun hf => forall_one (refused_of_dec h rfl hf : Refused (execVsmxEnd t f s) s t th)
  · exact fun hf => forall_one (refused_of_dec h rfl hf : Refused (execCardBuild t f s) s t th)
  · exact fun hc => forall_one (refused_cardSel h hc)
  refine ⟨fun hc => forall_one (refused_swConv h hc), ?_, ?_, ?_, ?_, ?_, ?_, ?_, ?_, ?_, ?_, ?_, ?_⟩
  · exact fun hc => forall_one (refused_of_dec h rfl (and_false_of_or (by simpa using hc)) : Refused (execSwPool t f s) s t th)
  · exact fun hf => forall_one (refused_of_dec h rfl hf : Refused (execSwBox t f s) s t th)
  · exact fun hf => forall_one (refused_of_dec h rfl hf : Refused (execSwNms t f s) s t th)
  · exact fun hf => forall_one (refused_of_dec h rfl hf : Refused (execSwPatch t f s) s t th)
  · exact fun hf => forall_one (refused_of_dec h rfl hf : Refused (execSwPix t f s) s t th)
  · intro hg
    have hg' := group_false hg
    simp only [refused, List.forall_mem_cons]
    exact ⟨(refused_of_dec2 h rfl (and_false_of_or (.inr hg')) : Refused (execLkPut t f s) s t th),
      (refused_of_dec2 h rfl (and_false_of_or (.inr hg')) : Refused (execLkGet t f s) s t th),
     
      (refused_of_dec2 h rfl (and_false_of_or (.inr hg')) : Refused (execLkAdd t f s) s t th),
      (refused_of_dec2 h rfl (and_false_of_or (.inr hg')) : Refused (execLkMcast t f s) s t th), List.forall_mem_nil _⟩
  · exact fun hf => forall_one (refused_of_dec h rfl hf : Refused (execLkPut t f s) s t th)
  · exact fun hf => forall_one (refused_of_dec h rfl hf : Refused (execLkGet t f s) s t th)
  · exact fun hf => forall_one (refused_of_dec h rfl hf : Refused (execLkAdd t f s) s t th)
  · exact fun hc => forall_one (refused_of_dec2 h rfl (and_false_of_or (by simpa using hc)) : Refused (execLkSig t f s) s t th)
  · exact fun hf => forall_one (refused_of_dec h rfl hf : Refused (execLkMcast t f s) s t th)
  · exact fun hc => forall_one (refused_of_dec2 h rfl (and_false_of_or (by simpa using hc)) : Refused (execLkWait t f s) s t th)
end Sys2Proof.Machine

namespace Sys2Proof.Machine

/-! ## A step and reset -/

/-- A register that nothing has written reads as its Reset value. -/
theorem getR_reset (r : Reg) : getR State.reset r = r.reset := rfl
theorem actR_reset (r : Reg) : actR State.reset r = r.reset := rfl

/-- Settles O1. -/
theorem stepTakesFront : Obligations.StepTakesFront := by
  unfold Obligations.StepTakesFront
  exact ⟨fun c rest s => step_cons c rest _ rfl, step_nil⟩

/-- Settles O2: after reset every table is empty, so each register reads as its Reset value and each byte as unlisted memory. -/
theorem resetState : Obligations.ResetState := by
  unfold Obligations.ResetState
  intro z
  refine ⟨getR_reset, rfl, rfl, rfl, rfl, rfl, rfl, fun c => ⟨rfl, rfl, rfl, rfl, rfl, rfl, rfl⟩, fun p => ⟨rfl, rfl, ?_⟩, actR_reset,
    rfl, rfl, rfl, rfl, rfl, rfl, rfl, rfl, fun a => rfl, rfl⟩
  simp only [pValid, z, getR_reset, Reg.reset]
  decide

end Sys2Proof.Machine

namespace Sys2Proof.Machine

/-- An instruction that cannot issue now is no event. -/
theorem runThread_no {s : State} {t : Tid} {th : Thread} (h : Issues s t th) {k : State → Thread → Ex State} {why : String}
    (hk : k (atIssue s t) th = .error (.no why)) : runThread s t k = .refused (.notEnabled why) := by
  rw [runThread_issues h, hk]

/-! ## Splices (13): their instructions and events -/

section
variable {s : State} {t : Tid} {th : Thread} {f : Fields}

/-- A splice instruction that issues with its token's register ready. -/
structure SpliceIssues (s : State) (t : Tid) (th : Thread) (f : Fields) : Prop extends Issues s t th where
  form : formOk f 0 0 [.scalar] = true
  ready : Ready th f.sl0

section
variable {ds : List Decl} {slot : Nat}

theorem execSplBegin_noSlot (h : SpliceIssues s t th f) (hd : readDecls (atIssue s t) t.ctx.val (reg th f.sl0.toNat) = .ok ds)
    (hs : freeSlot (atIssue s t) (partOf t.ctx.val) = none) :
    execSplBegin t f s = .next (progFault (atIssue s t) t th.pc fSplice) :=
  runThread_fault h.toIssues (by simp [dec_ok _ _ h.form, src_ready h.ready, hd, hs])

variable (h : SpliceIssues s t th f) (hd : readDecls (atIssue s t) t.ctx.val (reg th f.sl0.toNat) = .ok ds)
  (hs : freeSlot (atIssue s t) (partOf t.ctx.val) = some slot)
include h hd hs

theorem execSplBegin_large (hc : poolCapacity (atIssue s t) (partOf t.ctx.val) < (ds.map (·.len)).sum) :
    execSplBegin t f s = .next (progFault (atIssue s t) t th.pc fSplice) :=
  runThread_fault h.toIssues (s' := atIssue s t) (by
    simp only [dec_ok _ _ h.form, src_ready h.ready, hd, hs, ex_ok_bind, theF_some]
    exact bind_needF_fault _ _ _ (by simpa using hc))

theorem execSplBegin_opens (hc : (ds.map (·.len)).sum ≤ poolCapacity (atIssue s t) (partOf t.ctx.val)) {ds' : List Decl}
    {free : List (Nat × Nat × Nat)} (hp : poolTakeAll (partOf t.ctx.val) ds (atIssue s t).pool = some (ds', free)) :
    execSplBegin t f s = .next (openSplice (atIssue s t) t th slot f.sl0.toNat ds' free) :=
  runThread_ok h.toIssues (by
    simp only [dec_ok _ _ h.form, src_ready h.ready, hd, hs, ex_ok_bind, theF_some, needF_ok _ _ _ (decide_eq_true hc), hp])

theorem execSplBegin_waits (hc : (ds.map (·.len)).sum ≤ poolCapacity (atIssue s t) (partOf t.ctx.val))
    (hp : poolTakeAll (partOf t.ctx.val) ds (atIssue s t).pool = none) :
    execSplBegin t f s = .next (setT { atIssue s t with
        seq := (atIssue s t).seq + 1, poolWaited := t.ctx.val :: (atIssue s t).poolWaited.erase t.ctx.val } t
      { th with block := .pool f.sl0.toNat ds (atIssue s t).seq }) :=
  runThread_ok h.toIssues (by
    simp only [dec_ok _ _ h.form, src_ready h.ready, hd, hs, ex_ok_bind, theF_some, needF_ok _ _ _ (decide_eq_true hc), hp])

end

theorem execSplPoolGrant_opens {k seq slot : Nat} {ds ds' : List Decl} {free : List (Nat × Nat × Nat)} (hp : powered s = true)
    (hf : s.failed = false) (hth : getT? s t = some th) (hb : th.block = .pool k ds seq)
    (hw : ∀ w ∈ poolWaiters s (partOf t.ctx.val), seq ≤ w.2.2) (hs : freeSlot s (partOf t.ctx.val) = some slot)
    (ht : poolTakeAll (partOf t.ctx.val) ds s.pool = some (ds', free)) :
    execSplPoolGrant t s = .next (openSplice s t th slot k ds' free) := by
  have hw' : (poolWaiters s (partOf t.ctx.val)).all (fun w => decide (seq ≤ w.2.2)) = true := by simpa using hw
  exact runPlain_of_ok (by simp [hp, hf, hth, hb, -List.all_eq_true, hw', hs, ht])

/-- A thread whose word ends no loop goes on to the next word, and nothing else of it changes. -/
theorem advance_plain (h : endingLoops th th.pc = []) :
    advance th = { th with pc := th.pc + 1, pastEnd := th.pc + 1 == 0 } := by
  simp only [advance, h, endTests]

theorem reg_setReg_same {k : Nat} (v : Word) (h0 : 0 < k) (h : k < 64) : reg (setReg th k v) k = v := by
  rw [reg_setReg th k v h, if_neg (Nat.ne_of_gt h0), if_pos rfl]

/-- What an opened splice leaves: its thread at the next word with the token in its register, and the splice with its replay
point last in the table. -/
theorem openSplice_spec (s : State) (t : Tid) (th : Thread) (slot k : Nat) (ds : List Decl) (free : List (Nat × Nat × Nat)) :
    let p := partOf t.ctx.val
    let th1 := advance { setReg th k (token t.ctx.val slot (nextGen s p slot)) with block := .none }
    getT? (openSplice s t th slot k ds free) t = some th1 ∧
    (openSplice s t th slot k ds free).splices.getLast? = some
      { part := Fin.ofNat 4 p
        slot := slot
        gen := nextGen s p slot
        opener := t
        decls := ds
        committer := t
        replay := { s := th1.s, lc := th1.lc, loops := th1.loops, stack := th1.stack, pc := th1.pc,
                    streams := s.streams.filter (fun x => x.t == t) } } := by
  intro p th1
  exact ⟨getT?_setT_self _ _ _, List.getLast?_concat⟩

theorem setReg_stack (k : Nat) (v : Word) : (setReg th k v).stack = th.stack := by
  unfold setReg
  split <;> rfl

theorem setReg_pc (k : Nat) (v : Word) : (setReg th k v).pc = th.pc := by
  unfold setReg
  split <;> rfl

end

/-- Settles O14: the outcomes of `spl.begin` and of a grant, and what opening a splice leaves. -/
theorem spliceBegins : Obligations.SpliceBegins := by
  unfold Obligations.SpliceBegins
  constructor
  · intro s t th f s1 p r
    refine ⟨fun h hf hr ds hd => ?_, fun k ds seq slot ds' free hp hnf hth hb hw hs ht =>
      execSplPoolGrant_opens hp hnf hth hb hw hs ht⟩
    have hi : SpliceIssues s t th f := { toIssues := h, form := hf, ready := hr }
    exact ⟨fun hs => execSplBegin_noSlot hi hd hs, fun slot hs => ⟨fun hc => execSplBegin_large hi hd hs hc,
      fun hc => ⟨fun ds' free hp => execSplBegin_opens hi hd hs hc hp, fun hp => execSplBegin_waits hi hd hs hc hp⟩⟩⟩
  · intro s t th slot k ds free h0 h64 hslot he p s' tok
    obtain ⟨h1, h2⟩ := openSplice_spec s t th slot k ds free
    have hpc := setReg_pc (th := th) k (token t.ctx.val slot (nextGen s p slot))
    rw [advance_plain (by rw [← hpc] at he; exact he)] at h1 h2
    have hp : (Fin.ofNat 4 p).val = p := Nat.mod_eq_of_lt (by have := t.ctx.isLt; simp only [p, partOf]; omega)
    exact ⟨⟨_, h1, reg_setReg_same _ h0 h64, congrArg (· + 1) hpc, rfl, _, h2, hp, rfl, rfl, rfl, rfl, rfl, rfl, rfl,
      setReg_stack _ _⟩, rfl, rfl, rfl, rfl⟩


section
variable {s : State} {t : Tid} {th : Thread} {f : Fields} {x : Splice}

theorem execSplCommit_none (h : SpliceIssues s t th f) (hp : (th.accProd.isNone && th.vepiProd.isNone) = true)
    (hx : spliceOf (atIssue s t) t.ctx.val (reg th f.sl0.toNat) = none) :
    execSplCommit t f s = .next (progFault (atIssue s t) t th.pc fSplice) :=
  runThread_fault h.toIssues (by simp [dec_ok _ _ h.form, src_ready h.ready, noProducer_ok hp, hx])

theorem execSplAbort_none (h : SpliceIssues s t th f) (hx : spliceOf (atIssue s t) t.ctx.val (reg th f.sl0.toNat) = none) :
    execSplAbort t f s = .next (progFault (atIssue s t) t th.pc fSplice) :=
  runThread_fault h.toIssues (by simp [dec_ok _ _ h.form, src_ready h.ready, hx])

section
variable (h : SpliceIssues s t th f) (hx : spliceOf (atIssue s t) t.ctx.val (reg th f.sl0.toNat) = some x)
include h hx

theorem execSplCommit_opened (hp : (th.accProd.isNone && th.vepiProd.isNone) = true) (ho : x.st = .opened) :
    execSplCommit t f s = .next (setT (setSplice { atIssue s t with seq := (atIssue s t).seq + 1 }
      { x with st := .pending, committer := t, tokenReg := f.sl0.toNat, replayable := x.replayable && x.opener == t })
      t { th with block := .commit x.slot f.sl0.toNat }) :=
  runThread_ok h.toIssues (by simp [dec_ok _ _ h.form, src_ready h.ready, noProducer_ok hp, hx, ho])

theorem execSplCommit_notOpen (hp : (th.accProd.isNone && th.vepiProd.isNone) = true) (ho : x.st ≠ .opened) :
    execSplCommit t f s = .next (progFault (atIssue s t) t th.pc fSplice) :=
  runThread_fault h.toIssues (s' := atIssue s t) (by simp [dec_ok _ _ h.form, src_ready h.ready, noProducer_ok hp, hx, ho])

theorem execSplAbort_passed (hp : x.st = .passed) : execSplAbort t f s = .next (stepOn (atIssue s t) t th) :=
  runThread_ok h.toIssues (by simp [dec_ok _ _ h.form, src_ready h.ready, hx, hp])

theorem execSplAbort_waits (hp : x.st ≠ .passed) (hw : writesDeclared (atIssue s t) t x = true) :
    ∃ why, execSplAbort t f s = .refused (.notEnabled why) :=
  ⟨_, runThread_no h.toIssues (by simp [dec_ok _ _ h.form, src_ready h.ready, hx, hp, hw]; rfl)⟩

theorem execSplAbort_discards (hp : x.st ≠ .passed) (hw : writesDeclared (atIssue s t) t x = false) : execSplAbort t f s =
    .next (stepOn (bumpC (releaseCommitter (discardSplice (atIssue s t) x) x) t.ctx kSplAbort 1) t th) :=
  runThread_ok h.toIssues (by simp [dec_ok _ _ h.form, src_ready h.ready, hx, hp, hw])

end

theorem execSplStatus_word (h : Issues s t th) (hf : formOk f 0 0 [.scalar, .scalar, .imm] = true) (hs : f.sl2.toNat ≤ 4)
    (hr : Ready th f.sl1) : execSplStatus t f s = .next (stepOn (atIssue s t) t (dst th f.sl0
      (statusWord (spliceOf (atIssue s t) t.ctx.val (reg th f.sl1.toNat)) f.sl2.toNat))) :=
  runThread_ok h (by simp [dec_ok _ _ hf, src_ready hr, hs])

end

/-- Settles O15: the outcomes of the three instructions, `spl.status` by its selector. -/
theorem spliceInstructions : Obligations.SpliceInstructions := by
  unfold Obligations.SpliceInstructions
  intro s t th f h s1 tok
  constructor
  · intro hf hr
    have hi : SpliceIssues s t th f := { toIssues := h, form := hf, ready := hr }
    exact ⟨fun hp => ⟨fun x hx => ⟨fun ho => execSplCommit_opened hi hx hp ho, fun ho => execSplCommit_notOpen hi hx hp ho⟩,
        fun hx => execSplCommit_none hi hp hx⟩,
      fun x hx => ⟨fun hp => execSplAbort_passed hi hx hp, fun hp hw => execSplAbort_waits hi hx hp hw,
        fun hp hw => execSplAbort_discards hi hx hp hw⟩, fun hx => execSplAbort_none hi hx⟩
  · intro hf hs hr v
    have e := execSplStatus_word h hf hs hr
    constructor
    · intro hx
      rw [show spliceOf (atIssue s t) t.ctx.val (reg th f.sl1.toNat) = none from hx] at e
      exact e
    · intro x hx shown state word
      rw [show spliceOf (atIssue s t) t.ctx.val (reg th f.sl1.toNat) = some x from hx] at e
      have hn (n : Half) : shown n = if x.st == .passed then 0 else n.zeroExtend 64 := by simp only [shown, beq_iff_eq]
      refine ⟨fun hn0 => ?_, fun hn1 => ?_, fun hn2 => ?_, fun hn3 => ?_, fun hn4 => ?_⟩
      · rw [hn0] at e
        exact e
      · rw [hn1] at e
        rw [hn]
        exact e
      · rw [hn2] at e
        rw [hn]
        exact e
      · rw [hn3] at e
        rw [hn]
        exact e
      · rw [hn4] at e
        rw [hn]
        exact e

section
variable {s : State} {p : PartN} {slot : BitVec 8} {x : Splice} {th : Thread}

/-- The commit check of a pending splice whose work is complete. -/
theorem execCommitCheck_eq (hp : powered s = true) (hf : s.failed = false)
    (hx : s.splices.find? (fun x => x.part == p && x.slot == slot.toNat && x.st == .pending) = some x)
    (hth : getT? s x.committer = some th) (hr : commitReady s x = true) :
    execCommitCheck p slot s = runEvent (if x.hurt || x.decls.any (fun d => ueIn s d.shadow d.len) then .ok (dropSplice s x th)
      else if qhPolicy s x.opener.ctx == 1 && healthFails s x then
        if x.replayable && !x.replayed then .ok (replaySplice s x th)
        else if bit (actR s (.qhpol x.opener.ctx)) 2 then .error (.fault s fQhealth)
        else .ok (passSplice s x th true)
      else .ok (passSplice s x th false)) x.committer th.pc := by
  simp only [execCommitCheck, hx, hp, hf, hth, hr, Bool.not_false, Bool.and_self, can_ok, ex_ok_bind, the_some, pcOf]

/-- The shadow fill of a passed splice. -/
theorem execShadowFillComplete_ok (hp : powered s = true) (hf : s.failed = false)
    (hx : s.splices.find? (fun x => x.part == p && x.slot == slot.toNat && x.st == .passed && !x.filledIn) = some x)
    {s1 : State} (h1 : x.decls.foldlM (fun s d => fillDecl s x.opener.ctx d) s = .ok s1) :
    execShadowFillComplete p slot s = .next (bumpC (setSplice s1 { x with filledIn := true }) x.opener.ctx kSplFill
      (x.decls.map (fun d => d.blank.length)).sum) :=
  runPlain_of_ok (by simp only [hx, hp, hf, h1, Bool.not_false, Bool.and_self, can_ok, ex_ok_bind, the_some])

end

/-- Settles O16: the branches of the commit check, and the end of a shadow fill. -/
theorem commitCheckResults : Obligations.CommitCheckResults := by
  unfold Obligations.CommitCheckResults
  constructor
  · intro s p slot x th hp hf hx hth hr hurt fails again
    have e : exec (.commitCheck p slot) s = _ := execCommitCheck_eq hp hf hx hth hr
    have hfails : (qhPolicy s x.opener.ctx == 1 && healthFails s x) = decide fails := by simp [fails, Bool.beq_eq_decide_eq]
    have hagain : (x.replayable && !x.replayed) = decide again := by simp [again]
    rw [hfails, hagain] at e
    have e' (h : hurt = false) : exec (.commitCheck p slot) s = runEvent (if fails then
        if again then .ok (replaySplice s x th)
        else if bit (actR s (.qhpol x.opener.ctx)) 2 then .error (.fault s fQhealth) else .ok (passSplice s x th true)
      else .ok (passSplice s x th false)) x.committer th.pc := by
      simpa only [show (x.hurt || x.decls.any (fun d => ueIn s d.shadow d.len)) = false from h, Bool.false_eq_true, if_false,
        decide_eq_true_eq] using e
    refine ⟨fun h => ?_, fun h hn => ?_, fun h hn ha => ?_, fun h hn ha hb => ?_, fun h hn ha hb => ?_⟩
    · rw [if_pos h] at e
      exact e
    · rw [if_neg hn] at e'
      exact e' h
    · rw [if_pos hn, if_pos ha] at e'
      exact e' h
    · rw [if_pos hn, if_neg ha, if_neg (by rw [hb]; decide)] at e'
      exact e' h
    · rw [if_pos hn, if_neg ha, if_pos hb] at e'
      exact e' h
  · intro s p slot x hp hf hx blanks room s1 h1
    refine execShadowFillComplete_ok hp hf hx (s1 := s1) (Eq.trans ?_ h1)
    simp only [fillDecl, room, bind_assoc]
    rfl

end Sys2Proof.Machine

namespace Sys2Proof.Machine

/-! ## Streams open (09, 12) -/

section
variable {s : State} {t : Tid} {th : Thread} {f : Fields}

/-- The registers of a group of two have their values. -/
theorem srcG_zero {v : BitVec 16} {n : Nat} (h : ReadyG th v n) (hn : 0 < n) : srcG th v 0 = .ok (reg th v.toNat) := by
  have h0 := h 0 hn
  simp only [srcG, src_ready h0]
  simp
theorem srcG_ready {v : BitVec 16} {n k : Nat} (h : ReadyG th v n) (hk : k < n) :
    srcG th v k = .ok (reg th (v + BitVec.ofNat 16 k).toNat) := src_ready (h k hk)

theorem srcG_one {v : BitVec 16} (h : ReadyG th v 2) : srcG th v 1 = .ok (reg th (v + 1).toNat) := src_ready (h 1 (by decide))

theorem needFmt_ok (s : State) {c : Nat} {fmt : Fmt} (h : fmtOf c = some fmt) : needFmt s c = .ok fmt := by
  rw [needFmt, h, theF_some]

/-- A `draft.ld` or `draft.st` that issues: its operands are ready, its stream number is free, its region and walk words are
legal. -/
structure OpensLdSt (s : State) (t : Tid) (th : Thread) (f : Fields) (store : Bool) (r : Region) (mode fc rep : Nat) (fmt : Fmt) :
    Prop extends Issues s t th where
  form : formOk f 0 0 [.stream, .handle, .scalar, .group 2] = true
  ready : Ready th f.sl2
  readyG : ReadyG th f.sl3 2
  fresh : freshSid (atIssue s t) t f.sl0.toNat = .ok ()
  region : readRegion (atIssue s t) t (reg th f.sl2.toNat) true false (!store) = .ok r
  words : walkMode (atIssue s t) (reg th (f.sl3 + 1).toNat) = .ok (mode, fc, rep)
  fmtOk : fmtOf fc = some fmt

/-- The stream that it opens, before its walk is known. -/
abbrev ldStStream (s : State) (t : Tid) (th : Thread) (f : Fields) (store : Bool) (r : Region) (fc : Nat) : Stream :=
  { newStream t th f.sl0.toNat (if store then .store else .load) r (atIssue s t).seq with fmt := BitVec.ofNat 4 fc }

/-- The far end of a stream with a walk over a handle: its walk and the handles that go with it. -/
structure FarEnd (s : State) (t : Tid) (th : Thread) (f : Fields) (store : Bool) (r : Region) (mode fc rep : Nat) (fmt : Fmt)
    (h : Handle) (wk : Walk) (sc sl : Option Handle) : Prop where
  handle : getH s t.ctx f.sl1.toNat = .ok h
  write : store = true → passedDecl s t.ctx h.idx = false
  tiles : mode = 0 → tileWalk s h (reg th f.sl3.toNat) (reg th (f.sl3 + 1).toNat) rep fc r.size = .ok wk
  rows : mode = 1 → convOk s store h fmt = .ok () ∧ rowsWalk s h (reg th f.sl3.toNat) rep fc r.size = .ok wk
  scale : scaleOf? s t.ctx h = .ok sc
  noSlub : store = true → sl = none
  slub : store = false → slubOf? s t.ctx h fc = .ok sl
  filler : (h :: (sc.toList ++ sl.toList)).all (fillerOk s t) = true

variable {store : Bool} {r : Region} {mode fc rep : Nat} {fmt : Fmt}

theorem openLdSt_driven (h : OpensLdSt s t th f store r 2 fc rep fmt) : openLdSt t f s store =
    .next (stepOn { atIssue s t with
      streams := (atIssue s t).streams ++ [{ ldStStream s t th f store r fc with walk := .driven }] } t th) :=
  runThread_ok h.toIssues (by
    simp only [dec_ok _ _ h.form, src_ready h.ready, srcG_zero h.readyG Nat.two_pos, srcG_one h.readyG, h.fresh, h.region, h.words,
      needFmt_ok _ h.fmtOk, ex_ok_bind, reduceIte, Nat.reduceEqDiff, Nat.reduceLT, decide_false, Bool.and_false,
      Bool.false_eq_true])

theorem openLdSt_local (h : OpensLdSt s t th f store r 3 fc rep fmt) : openLdSt t f s store =
    .next (stepOn { atIssue s t with
      streams := (atIssue s t).streams ++ [{ ldStStream s t th f store r fc with walk := .localS, kind := .load }] } t th) :=
  runThread_ok h.toIssues (by
    simp only [dec_ok _ _ h.form, src_ready h.ready, srcG_zero h.readyG Nat.two_pos, srcG_one h.readyG, h.fresh, h.region, h.words,
      needFmt_ok _ h.fmtOk, ex_ok_bind, reduceIte, Nat.reduceEqDiff, Nat.reduceLT, decide_false, Bool.and_false,
      Bool.false_eq_true])

theorem openLdSt_far (h : OpensLdSt s t th f store r mode fc rep fmt) (hm : mode < 2) {k : Handle} {wk : Walk}
    {sc sl : Option Handle} (e : FarEnd (atIssue s t) t th f store r mode fc rep fmt k wk sc sl) : openLdSt t f s store =
    .next (stepOn { (if store then noteHandleWrite (atIssue s t) t f.sl1.toNat else atIssue s t) with
      streams := (if store then noteHandleWrite (atIssue s t) t f.sl1.toNat else atIssue s t).streams ++
        [{ ldStStream s t th f store r fc with h := k, walk := wk, scaleH := sc, slubH := sl }] } t th) := by
  refine runThread_ok h.toIssues ?_
  have hm2 : mode ≠ 2 := by omega
  have hm3 : mode ≠ 3 := by omega
  simp only [dec_ok _ _ h.form, src_ready h.ready, srcG_zero h.readyG Nat.two_pos, srcG_one h.readyG, h.fresh, h.region, h.words,
    needFmt_ok _ h.fmtOk, ex_ok_bind, if_neg hm2, if_neg hm3, e.handle, decide_eq_true hm, Bool.and_true]
  have walk (g : Walk → Ex State) : (if mode = 0 then
      tileWalk (atIssue s t) k (reg th f.sl3.toNat) (reg th (f.sl3 + 1).toNat) rep fc r.size >>= g else
      convOk (atIssue s t) store k fmt >>= fun _ =>
        rowsWalk (atIssue s t) k (reg th f.sl3.toNat) rep fc r.size >>= g) = g wk := by
    obtain rfl | rfl : mode = 0 ∨ mode = 1 := by omega
    · simp only [e.tiles rfl, ex_ok_bind, if_true]
    · simp only [e.rows rfl, ex_ok_bind, if_neg Nat.one_ne_zero]
  cases store
  · simp only [Bool.false_eq_true, if_false, e.slub rfl, e.scale, needF_ok _ _ _ e.filler, ex_ok_bind] at walk ⊢
    exact walk _
  · have hw : mayWrite (atIssue s t) t.ctx k.idx = .ok () := needF_ok _ _ _ (by simp [e.write rfl])
    obtain rfl := e.noSlub rfl
    simp only [if_true, hw, e.scale, needF_ok _ _ _ e.filler, ex_ok_bind] at walk ⊢
    exact walk _

end

/-- Settles O17: the stream that each mode of the walk opens. -/
theorem loadStoreStreamsOpen : Obligations.LoadStoreStreamsOpen := by
  unfold Obligations.LoadStoreStreamsOpen
  intro s t th f store r mode fc rep fmt hi s1 c i w0 w1 x opens hf hr hg hs hrg hw hfm
  have h : OpensLdSt s t th f store r mode fc rep fmt := ⟨hi, hf, hr, hg, hs, hrg, hw, hfm⟩
  have hx : exec i s = openLdSt t f s store := by cases store <;> rfl
  refine ⟨?_, ?_, ?_⟩
  · rintro rfl
    exact hx.trans (openLdSt_driven h)
  · rintro rfl
    exact hx.trans (openLdSt_local h)
  · intro k wk sc sl hm hk hwr ht hro hsc hns hsl hfi
    exact hx.trans (openLdSt_far h hm ⟨hk, hwr, ht, hro, hsc, hns, hsl, hfi⟩)

end Sys2Proof.Machine

namespace Sys2Proof.Machine

/-! ## `draft.gather` and `draft.mcast` (R200, R209, R281) -/

section
variable {s : State} {t : Tid} {th : Thread} {f : Fields} {r : Region}

/-- A `draft.gather` whose operands, handles and list pass their checks. -/
structure OpensGather (s : State) (t : Tid) (th : Thread) (f : Fields) (r : Region) (h l : Handle) (g d : Nat) : Prop
    extends Issues s t th where
  form : formOk f 0 0 [.stream, .handle, .scalar, .handle, .scalar, .scalar] = true
  ready2 : Ready th f.sl2
  ready4 : Ready th f.sl4
  ready5 : Ready th f.sl5
  fresh : freshSid (atIssue s t) t f.sl0.toNat = .ok ()
  region : readRegion (atIssue s t) t (reg th f.sl2.toNat) false true true = .ok r
  cache : getH (atIssue s t) t.ctx f.sl1.toNat = .ok h
  cacheFmt : h.fmt = 2
  dims : kvDims (atIssue s t) h = .ok (g, d)
  list : getH (atIssue s t) t.ctx f.sl3.toNat = .ok l
  listFmt : l.fmt = 9
  head : fld (reg th f.sl5.toNat) 2 0 < g
  room : 528 * d ≤ r.size
  rows : fld (reg th f.sl4.toNat) 31 0 + (fld (reg th f.sl4.toNat) 47 32 + 1) ≤ l.rows

/-- What a filler's gather stream reaches (R208). -/
abbrev gatherReach (s : State) (t : Tid) (h l : Handle) : Bool :=
  fillerOk s t h && fillerOk s t l && fillerRange s t h.pmap (8 * h.pmapE)

/-- The gather stream that opens. -/
abbrev gatherStream (s : State) (t : Tid) (th : Thread) (f : Fields) (r : Region) (h l : Handle) : Stream :=
  { newStream t th f.sl0.toNat .gather r s.seq with
    fmt := 2
    h := h
    scaleH := some l
    walk := .lists (fld (reg th f.sl4.toNat) 31 0) (fld (reg th f.sl4.toNat) 47 32 + 1)
    tag := fld (reg th f.sl5.toNat) 2 0 }

variable {h l : Handle} {g d : Nat}

/-- What is left of a legal `draft.gather` is the filler's check. -/
theorem execDraftGather_checked (i : OpensGather s t th f r h l g d) : execDraftGather t f s = runThread s t fun s th =>
    needF s (gatherReach s t h l) fStream >>= fun _ =>
      .ok (stepOn { s with streams := s.streams ++ [gatherStream s t th f r h l] } t th) := by
  rw [execDraftGather, runThread_issues i.toIssues, runThread_issues i.toIssues]
  simp only [dec_ok _ _ i.form, src_ready i.ready2, src_ready i.ready4, src_ready i.ready5, i.fresh, i.region, i.cache, i.dims, i.list,
    needF_ok _ _ _ (beq_iff_eq.mpr i.cacheFmt), needF_ok _ _ _ (beq_iff_eq.mpr i.listFmt), needF_ok _ _ _ (decide_eq_true i.head),
    needF_ok _ _ _ (decide_eq_true i.room), needF_ok _ _ _ (decide_eq_true i.rows), ex_ok_bind]

theorem execDraftGather_opens (i : OpensGather s t th f r h l g d) (hr : gatherReach (atIssue s t) t h l = true) : execDraftGather t f s =
    .next (stepOn { atIssue s t with
      streams := (atIssue s t).streams ++ [gatherStream (atIssue s t) t th f r h l] } t th) := by
  rw [execDraftGather_checked i]
  exact runThread_ok i.toIssues (by simp only [needF_ok _ _ _ hr, ex_ok_bind])

theorem execDraftGather_outOfReach (i : OpensGather s t th f r h l g d) (hr : gatherReach (atIssue s t) t h l = false) :
    execDraftGather t f s = .next (progFault (atIssue s t) t th.pc fStream) := by
  rw [execDraftGather_checked i]
  exact runThread_fault i.toIssues (bind_needF_fault _ _ _ hr)

/-- The receivers of the quarter that wait for the group of a tag. -/
abbrev waitingMembers (s : State) (t : Tid) (tag : Nat) : List Stream :=
  (membersOn s t.ctx.val (quarterOf s t) tag).filter (fun y => y.walk == .unbound)

/-- A sender of a multicast whose operands and region pass their checks, and whose group can start. -/
structure OpensSend (s : State) (t : Tid) (th : Thread) (f : Fields) (r : Region) (mode fc rep : Nat) (fmt : Fmt) : Prop
    extends Issues s t th where
  form : formOk f 0 0 [.stream, .handle, .scalar, .group 2, .imm, .imm] = true
  tag : f.sl4.toNat ≤ 255
  windowLow : 1 ≤ f.sl5.toNat
  windowHigh : f.sl5.toNat ≤ 64
  ready : Ready th f.sl2
  readyG : ReadyG th f.sl3 2
  fresh : freshSid (atIssue s t) t f.sl0.toNat = .ok ()
  region : readRegion (atIssue s t) t (reg th f.sl2.toNat) false false false = .ok r
  words : walkMode (atIssue s t) (reg th (f.sl3 + 1).toNat) = .ok (mode, fc, rep)
  mode3 : mode ≠ 3
  fmtOk : fmtOf fc = some fmt
  noGroup : (groupOf (atIssue s t) t.ctx.val (quarterOf (atIssue s t) t) f.sl4.toNat).isNone = true
  sizes : ∀ y ∈ waitingMembers (atIssue s t) t f.sl4.toNat, y.size = r.size
  few : (waitingMembers (atIssue s t) t f.sl4.toNat).length ≤ 15

/-- The sender's stream, before its walk is known. -/
abbrev sendStream (s : State) (t : Tid) (th : Thread) (f : Fields) (r : Region) (fc : Nat) : Stream :=
  { newStream t th f.sl0.toNat .member r s.seq with fmt := BitVec.ofNat 4 fc, tag := f.sl4.toNat }

/-- The state in which the sender's stream `x` is open and its group has started with the receivers that wait. -/
def groupStarts (s : State) (t : Tid) (th : Thread) (f : Fields) (x : Stream) : State :=
  let s2 := (waitingMembers s t f.sl4.toNat).foldl (fun s y => setStream s (bindMember x y)) s
  stepOn { s2 with
    streams := s2.streams ++ [x]
    groups := s2.groups.filter (fun z => !(z.ctx == t.ctx && z.quarter == quarterOf s t && z.tag == f.sl4.toNat)) ++
      [{ ctx := t.ctx, quarter := quarterOf s t, tag := f.sl4.toNat, sender := t, sid := x.sid, window := f.sl5.toNat, src := x,
         members := { t := t, sid := x.sid } :: (waitingMembers s t f.sl4.toNat).map (fun y => { t := y.t, sid := y.sid }),
         remote := remoteOf s f.sl4.toNat, spread := !(remoteOf s f.sl4.toNat).isEmpty }] } t th

variable {mode fc rep : Nat} {fmt : Fmt}

theorem sendWindow_ok (i : OpensSend s t th f r mode fc rep fmt) :
    (decide (f.sl4.toNat ≤ 255) && decide (1 ≤ f.sl5.toNat) && decide (f.sl5.toNat ≤ 64)) = true := by
  simp [i.tag, i.windowLow, i.windowHigh]

theorem sendGroup_ok (i : OpensSend s t th f r mode fc rep fmt) :
    ((waitingMembers (atIssue s t) t f.sl4.toNat).all (fun y => y.size == r.size) &&
      decide ((waitingMembers (atIssue s t) t f.sl4.toNat).length ≤ 15)) = true := by
  rw [Bool.and_eq_true, List.all_eq_true]
  exact ⟨fun y hy => beq_iff_eq.mpr (i.sizes y hy), decide_eq_true i.few⟩

theorem execDraftMcastSend_driven (i : OpensSend s t th f r 2 fc rep fmt) : execDraftMcastSend t f s =
    .next (groupStarts (atIssue s t) t th f { sendStream (atIssue s t) t th f r fc with walk := .driven }) := by
  refine runThread_ok i.toIssues ?_
  simp only [dec_ok _ _ i.form, dec_ok _ _ (sendWindow_ok i), src_ready i.ready, srcG_zero i.readyG Nat.two_pos, srcG_one i.readyG,
    i.fresh, i.region, i.words, needF_ok _ _ _ (bne_iff_ne.mpr i.mode3), needFmt_ok _ i.fmtOk, ex_ok_bind, reduceIte,
    needF_ok _ _ _ i.noGroup, needF_ok _ _ _ (sendGroup_ok i)]
  rfl

/-- The source of a multicast is this device's HBM, or in its unified regions. -/
def LocalSource (s : State) (h : Handle) : Prop :=
  h.dev = devId s ∧
    ((∃ k l, placeOf s h.lo = .hbm k ∧ placeOf s (h.hi - 1) = .hbm l) ∨
     (∃ k l, placeOf s h.lo = .unified k ∧ placeOf s (h.hi - 1) = .unified l))

theorem mcastSource_of_local {h : Handle} (hl : LocalSource s h) : mcastSource s h = true := by
  obtain ⟨hd, ⟨k, l, h1, h2⟩ | ⟨k, l, h1, h2⟩⟩ := hl <;> simp [mcastSource, hd, h1, h2]

/-- The far end of the sender's stream. -/
structure SendEnd (s : State) (t : Tid) (th : Thread) (f : Fields) (r : Region) (mode fc rep : Nat) (fmt : Fmt) (h : Handle)
    (wk : Walk) (sc sl : Option Handle) : Prop where
  handle : getH s t.ctx f.sl1.toNat = .ok h
  source : LocalSource s h
  scaleSource : ∀ k, sc = some k → LocalSource s k
  slubSource : ∀ k, sl = some k → LocalSource s k
  tiles : mode = 0 → tileWalk s h (reg th f.sl3.toNat) (reg th (f.sl3 + 1).toNat) rep fc r.size = .ok wk
  rows : mode = 1 → convOk s false h fmt = .ok () ∧ rowsWalk s h (reg th f.sl3.toNat) rep fc r.size = .ok wk
  scale : scaleOf? s t.ctx h = .ok sc
  slub : slubOf? s t.ctx h fc = .ok sl
  filler : (h :: (sc.toList ++ sl.toList)).all (fillerOk s t) = true

theorem execDraftMcastSend_far (i : OpensSend s t th f r mode fc rep fmt) (hm : mode < 2) {k : Handle} {wk : Walk}
    {sc sl : Option Handle} (e : SendEnd (atIssue s t) t th f r mode fc rep fmt k wk sc sl) : execDraftMcastSend t f s =
    .next (groupStarts (atIssue s t) t th f
      { sendStream (atIssue s t) t th f r fc with h := k, walk := wk, scaleH := sc, slubH := sl }) := by
  refine runThread_ok i.toIssues ?_
  have hm2 : mode ≠ 2 := by omega
  have hsrc : (sc.toList ++ sl.toList).all (mcastSource (atIssue s t)) = true := by
    rw [List.all_eq_true]
    intro k hk
    rw [List.mem_append, Option.mem_toList, Option.mem_toList] at hk
    exact mcastSource_of_local (hk.elim (e.scaleSource k) (e.slubSource k))
  simp only [dec_ok _ _ i.form, dec_ok _ _ (sendWindow_ok i), src_ready i.ready, srcG_zero i.readyG Nat.two_pos, srcG_one i.readyG,
    i.fresh, i.region, i.words, needF_ok _ _ _ (bne_iff_ne.mpr i.mode3), needFmt_ok _ i.fmtOk, ex_ok_bind, if_neg hm2,
    e.handle, needF_ok _ _ _ (mcastSource_of_local e.source)]
  obtain rfl | rfl : mode = 0 ∨ mode = 1 := by omega
  · simp only [e.tiles rfl, ex_ok_bind, reduceIte, e.scale, e.slub, needF_ok _ _ _ hsrc, needF_ok _ _ _ e.filler,
      needF_ok _ _ _ i.noGroup, needF_ok _ _ _ (sendGroup_ok i)]
    rfl
  · simp only [e.rows rfl, ex_ok_bind, reduceIte, Nat.one_ne_zero, e.scale, e.slub, needF_ok _ _ _ hsrc, needF_ok _ _ _ e.filler,
      needF_ok _ _ _ i.noGroup, needF_ok _ _ _ (sendGroup_ok i)]
    rfl

/-- A receiver whose operands and region pass their checks. -/
structure OpensRecv (s : State) (t : Tid) (th : Thread) (f : Fields) (r : Region) : Prop extends Issues s t th where
  form : formOk { f with variant := f.variant &&& 0xFE } 0 0 [.stream, .imm, .scalar] = true
  tag : f.sl1.toNat ≤ 255
  ready : Ready th f.sl2
  fresh : freshSid (atIssue s t) t f.sl0.toNat = .ok ()
  region : readRegion (atIssue s t) t (reg th f.sl2.toNat) false false false = .ok r

/-- A group of the tag has room for one more receiver. -/
abbrev recvRoom (s : State) (t : Tid) (tag : Nat) : Bool :=
  decide ((membersOn s t.ctx.val (quarterOf s t) tag).length < 16) &&
    (!drafted s tag || (groupOf s t.ctx.val (quarterOf s t) tag).isSome || decide ((farMembers s t.ctx.val tag).length < 16))

theorem recvRoom_ok {tag : Nat} (h1 : (membersOn s t.ctx.val (quarterOf s t) tag).length < 16)
    (h2 : drafted s tag = true → groupOf s t.ctx.val (quarterOf s t) tag = none → (farMembers s t.ctx.val tag).length < 16) :
    recvRoom s t tag = true := by
  cases hd : drafted s tag <;> cases hg : groupOf s t.ctx.val (quarterOf s t) tag <;> simp_all [recvRoom]

theorem recvRoom_full {tag : Nat} (h : 16 ≤ (membersOn s t.ctx.val (quarterOf s t) tag).length ∨ (drafted s tag = true ∧
      groupOf s t.ctx.val (quarterOf s t) tag = none ∧ 16 ≤ (farMembers s t.ctx.val tag).length)) :
    recvRoom s t tag = false := by
  rcases h with h | ⟨h1, h2, h3⟩
  · simp only [recvRoom, decide_eq_false (Nat.not_lt.mpr h), Bool.false_and]
  · simp only [recvRoom, h1, h2, decide_eq_false (Nat.not_lt.mpr h3), Bool.not_true, Option.isSome_none, Bool.or_false, Bool.and_false]

/-- The receiver's stream, waiting for its group. -/
abbrev recvStream (s : State) (t : Tid) (th : Thread) (f : Fields) (r : Region) : Stream :=
  { newStream t th f.sl0.toNat .member r s.seq with walk := .unbound, tag := f.sl1.toNat }

theorem execDraftMcastRecv_waits (i : OpensRecv s t th f r) (hr : recvRoom (atIssue s t) t f.sl1.toNat = true)
    (hg : groupOf (atIssue s t) t.ctx.val (quarterOf (atIssue s t) t) f.sl1.toNat = none) : execDraftMcastRecv t f s =
    .next (stepOn { atIssue s t with
      streams := (atIssue s t).streams ++ [recvStream (atIssue s t) t th f r] } t th) :=
  runThread_ok i.toIssues (by
    simp only [dec_ok _ _ i.form, dec_ok _ _ (decide_eq_true i.tag), src_ready i.ready, i.fresh, i.region, ex_ok_bind]
    rw [bind_needF_ok _ _ _ hr]
    simp only [hg])

theorem execDraftMcastRecv_joins (i : OpensRecv s t th f r) (hr : recvRoom (atIssue s t) t f.sl1.toNat = true) {g : Group}
    (hg : groupOf (atIssue s t) t.ctx.val (quarterOf (atIssue s t) t) f.sl1.toNat = some g) (hs : g.src.size = r.size) :
    execDraftMcastRecv t f s = .next (
      let s2 := setGroup (atIssue s t) { g with members := g.members ++ [{ t := t, sid := f.sl0.toNat }] }
      stepOn { s2 with
        streams := s2.streams ++ [bindMember (groupSrc (atIssue s t) g) (recvStream (atIssue s t) t th f r)] } t th) := by
  refine runThread_ok i.toIssues ?_
  simp only [dec_ok _ _ i.form, dec_ok _ _ (decide_eq_true i.tag), src_ready i.ready, i.fresh, i.region, ex_ok_bind]
  rw [bind_needF_ok _ _ _ hr]
  simp only [hg, needF_ok _ _ _ (beq_iff_eq.mpr hs), ex_ok_bind]
  rfl

theorem execDraftMcastRecv_full (i : OpensRecv s t th f r) (hr : recvRoom (atIssue s t) t f.sl1.toNat = false) :
    execDraftMcastRecv t f s = .next (progFault (atIssue s t) t th.pc fStream) :=
  runThread_fault i.toIssues (s' := atIssue s t) (by
    simp only [dec_ok _ _ i.form, dec_ok _ _ (decide_eq_true i.tag), src_ready i.ready, i.fresh, i.region, ex_ok_bind]
    exact bind_needF_fault _ _ _ hr)

end

/-- Settles O18: the gather stream, the sender's two forms of stream, and the receiver that waits, joins or finds no room. -/
theorem gatherAndMulticastOpen : Obligations.GatherAndMulticastOpen := by
  unfold Obligations.GatherAndMulticastOpen
  intro s t th f r hi s1 c q
  refine ⟨?_, ?_, ?_, ?_⟩
  · intro h l g d hf h2 h4 h5 hs hr hh hfmt hd hl hlf lw head hhd hsz hrw reach
    have i : OpensGather s t th f r h l g d := ⟨hi, hf, h2, h4, h5, hs, hr, hh, hfmt, hd, hl, hlf, hhd, hsz, hrw⟩
    exact ⟨fun ho => execDraftGather_opens i ho, fun ho => execDraftGather_outOfReach i (Bool.eq_false_iff.mpr ho)⟩
  · intro mode fc rep fmt hf h4 h5 h5' hr hg hs hrg w0 w1 tag wait hw hm hfm hno hsz hfew x0 local' starts
    have i : OpensSend s t th f r mode fc rep fmt := ⟨hi, hf, h4, h5, h5', hr, hg, hs, hrg, hw, hm, hfm, hno, hsz, hfew⟩
    constructor
    · rintro rfl
      exact execDraftMcastSend_driven i
    · intro h wk sc sl hm hh hsrc hsc hsl ht hro hsc' hsl' hfi
      exact execDraftMcastSend_far i hm ⟨hh, hsrc, hsc, hsl, ht, hro, hsc', hsl', hfi⟩
  · intro hf ht hr hs hrg tag x h16 hfar
    have i : OpensRecv s t th f r := ⟨hi, hf, ht, hr, hs, hrg⟩
    exact ⟨fun hg => execDraftMcastRecv_waits i (recvRoom_ok h16 hfar) hg,
      fun g hg hsz => execDraftMcastRecv_joins i (recvRoom_ok h16 hfar) hg hsz⟩
  · intro hf ht hr hs hrg hfull
    exact execDraftMcastRecv_full ⟨hi, hf, ht, hr, hs, hrg⟩ (recvRoom_full hfull)

end Sys2Proof.Machine

namespace Sys2Proof.Machine

/-! ## `draft.wait` (R197, R280) -/

section
variable {s : State} {t : Tid} {th : Thread} {f : Fields} {x : Stream}

theorem needStream_ok {sid : Nat} (h : stream? s t sid = some x) : needStream s t sid = .ok x := by rw [needStream, h, theF_some]

/-- A wait for a tile is bounded where its stream has a fixed walk. -/
def waitBounded (w : Walk) : Bool := match w with
  | .localS | .lists _ _ | .unbound => false
  | _ => true

/-- What the two checks of a wait for tile `n` ask. -/
def waitInWalk (x : Stream) (n : Nat) : Bool := match x.total with
  | some k => !waitBounded x.walk || decide (n < k)
  | none => true

theorem execDraftWait_checked (h : Issues s t th) (hf : formOk f 0 0 [.stream, .scalar] = true) (hr : Ready th f.sl1)
    (hx : stream? (atIssue s t) t f.sl0.toNat = some x) : execDraftWait t f s = runThread s t fun s th =>
      needF s (waitInWalk x (fld (reg th f.sl1.toNat) 31 0)) fStream >>= fun _ =>
        .ok (doWait s t th (.tile x.sid (fld (reg th f.sl1.toNat) 31 0))) := by
  rw [execDraftWait, runThread_issues h, runThread_issues h]
  simp only [dec_ok _ _ hf, src_ready hr, needStream_ok hx, ex_ok_bind, waitInWalk]
  cases hw : x.walk <;> cases ht : x.total <;> simp [waitBounded]

theorem execDraftWait_waits (h : Issues s t th) (hf : formOk f 0 0 [.stream, .scalar] = true) (hr : Ready th f.sl1)
    (hx : stream? (atIssue s t) t f.sl0.toNat = some x) (hn : waitInWalk x (fld (reg th f.sl1.toNat) 31 0) = true) :
    execDraftWait t f s = .next (doWait (atIssue s t) t th (.tile x.sid (fld (reg th f.sl1.toNat) 31 0))) := by
  rw [execDraftWait_checked h hf hr hx]
  exact runThread_ok h (bind_needF_ok _ _ _ hn)

theorem execDraftWait_beyond (h : Issues s t th) (hf : formOk f 0 0 [.stream, .scalar] = true) (hr : Ready th f.sl1)
    (hx : stream? (atIssue s t) t f.sl0.toNat = some x) (hn : waitInWalk x (fld (reg th f.sl1.toNat) 31 0) = false) :
    execDraftWait t f s = .next (progFault (atIssue s t) t th.pc fStream) := by
  rw [execDraftWait_checked h hf hr hx]
  exact runThread_fault h (bind_needF_fault _ _ _ hn)

theorem execDraftWait_noStream (h : Issues s t th) (hf : formOk f 0 0 [.stream, .scalar] = true) (hr : Ready th f.sl1)
    (hx : stream? (atIssue s t) t f.sl0.toNat = none) : execDraftWait t f s = .next (progFault (atIssue s t) t th.pc fStream) :=
  runThread_fault h (by simp only [dec_ok _ _ hf, src_ready hr, ex_ok_bind, needStream, hx, theF_none, ex_error_bind])

theorem execDraftWaitFree_store (h : Issues s t th)
    (hf : formOk { f with variant := f.variant &&& 0xFD } 0 0 [.stream, .unused] = true)
    (hx : stream? (atIssue s t) t f.sl0.toNat = some x) (hk : x.kind = .store) :
    execDraftWaitFree t f s = .next (progFault (atIssue s t) t th.pc fStream) :=
  runThread_fault h (s' := atIssue s t) (by
    simp only [dec_ok _ _ hf, needStream_ok hx, ex_ok_bind]
    exact bind_needF_fault _ _ _ (bne_eq_false_iff_eq.mpr hk))

theorem execDraftWaitFree_claims (h : Issues s t th)
    (hf : formOk { f with variant := f.variant &&& 0xFD } 0 0 [.stream, .unused] = true)
    (hx : stream? (atIssue s t) t f.sl0.toNat = some x) (hk : x.kind ≠ .store) : execDraftWaitFree t f s = .next (doWait
      (noteStreamUse (setStream (atIssue s t) { x with cons := x.cons + 1, kept := x.kept - 1 }) t x.sid x.cons false) t th
      (.free x.sid x.cons)) :=
  runThread_ok h (by simp only [dec_ok _ _ hf, needStream_ok hx, needF_ok _ _ _ (bne_iff_ne.mpr hk), ex_ok_bind])

theorem execDraftWaitClose_waits (h : Issues s t th)
    (hf : formOk { f with variant := f.variant &&& 0xFE } 0 0 [.stream, .unused] = true)
    (hx : stream? (atIssue s t) t f.sl0.toNat = some x) : execDraftWaitClose t f s =
      .next (doWait (noteStreamUse (atIssue s t) t x.sid 0 true) t th (.close x.sid)) :=
  runThread_ok h (by simp only [dec_ok _ _ hf, needStream_ok hx, ex_ok_bind])

theorem execDraftWaitDone_ok {w : DWait} {seq : Nat} (hth : getT? s t = some th) (hb : th.block = .draft w seq)
    (hp : powered s = true) (hf : s.failed = false) (hpr : present s t = true) (hw : waitHolds s t w = true) :
    execDraftWaitDone t s = .next (stepOn (waitEffect s t w) t { th with block := .none }) :=
  runPlain_of_ok (by simp [hth, hb, hp, hf, hpr, hw])

end

/-- Settles O19: the outcomes of the three forms and of the end of a wait. -/
theorem draftWaits : Obligations.DraftWaits := by
  unfold Obligations.DraftWaits
  intro s t th f s1
  refine ⟨?_, ?_, ?_, fun w seq hth hb hp hf hpr hw => execDraftWaitDone_ok hth hb hp hf hpr hw,
    fun h hf hr hx => execDraftWait_noStream h hf hr hx⟩
  · intro x h hf hr hx n bounded
    have hw : waitInWalk x n = match x.total with
      | some k => !bounded || decide (n < k)
      | none => true := rfl
    refine ⟨fun hn => execDraftWait_waits h hf hr hx (hw.trans ?_), fun k hb ht hk => execDraftWait_beyond h hf hr hx (hw.trans ?_)⟩
    · cases ht : x.total with
      | none => rfl
      | some k =>
        cases hb : bounded with
        | false => rfl
        | true => exact decide_eq_true (hn k hb ht)
    · simp only [ht, hb, Bool.not_true, Bool.false_or]
      exact decide_eq_false (Nat.not_lt.mpr hk)
  · intro x h hf hx
    exact ⟨fun hk => execDraftWaitFree_store h hf hx hk, fun hk => execDraftWaitFree_claims h hf hx hk⟩
  · intro x h hf hx
    exact execDraftWaitClose_waits h hf hx

end Sys2Proof.Machine

namespace Sys2Proof.Machine

/-! ## `draft.plan` and the plan cursor (R212-R214, R282) -/

section
variable {s : State} {t : Tid} {th : Thread} {f : Fields}

/-- A `draft.plan` that starts a plan, up to the check of its region. -/
structure StartsPlan (s : State) (t : Tid) (th : Thread) (f : Fields) (h : Handle) : Prop extends Issues s t th where
  form : formOk f 0 0 [.handle, .imm, .imm] = true
  region : f.sl1.toNat ≤ 255
  depthLow : 1 ≤ f.sl2.toNat
  depthHigh : f.sl2.toNat ≤ 64
  handle : getH (atIssue s t) t.ctx f.sl0.toNat = .ok h
  fmt : h.fmt = 11
  rank : h.rank = 1

/-- The region of a plan is the partition's, and a plan drives it. -/
def planRegionOk (s : State) (t : Tid) (n : Nat) : Bool := match uregOf n (getR s (.ureg n)) with
  | some r => r.owner == partOf t.ctx && r.policy == 1
  | none => false

theorem execDraftPlanStart_checked {h : Handle} (i : StartsPlan s t th f h) : execDraftPlanStart t f s = runThread s t fun s th =>
    needF s (planRegionOk s t f.sl1.toNat) fPlan0 >>= fun _ =>
      .ok (stepOn { notReplayable s t with plans := (notReplayable s t).plans.filter (fun q => q.region != f.sl1.toNat) ++
        [{ region := f.sl1.toNat, t := t, h := h, depth := f.sl2.toNat }] } t th) := by
  have hd : (decide (f.sl1.toNat ≤ 255) && decide (1 ≤ f.sl2.toNat) && decide (f.sl2.toNat ≤ 64)) = true := by
    simp [i.region, i.depthLow, i.depthHigh]
  have hh : (h.fmt == 11 && h.rank == 1) = true := by simp [i.fmt, i.rank]
  rw [execDraftPlanStart, runThread_issues i.toIssues, runThread_issues i.toIssues]
  simp only [dec_ok _ _ i.form, dec_ok _ _ hd, i.handle, needF_ok _ _ _ hh, ex_ok_bind]
  rfl

theorem execDraftPlanStart_starts {h : Handle} (i : StartsPlan s t th f h)
    (hr : planRegionOk (atIssue s t) t f.sl1.toNat = true) : execDraftPlanStart t f s =
    .next (stepOn { notReplayable (atIssue s t) t with
      plans := (notReplayable (atIssue s t) t).plans.filter (fun q => q.region != f.sl1.toNat) ++
        [{ region := f.sl1.toNat, t := t, h := h, depth := f.sl2.toNat }] } t th) := by
  rw [execDraftPlanStart_checked i]
  exact runThread_ok i.toIssues (bind_needF_ok _ _ _ hr)

theorem execDraftPlanStart_fault {h : Handle} (i : StartsPlan s t th f h)
    (hr : planRegionOk (atIssue s t) t f.sl1.toNat = false) :
    execDraftPlanStart t f s = .next (progFault (atIssue s t) t th.pc fPlan0) := by
  rw [execDraftPlanStart_checked i]
  exact runThread_fault i.toIssues (bind_needF_fault _ _ _ hr)

/-- A `draft.plan` that advances a plan. -/
structure AdvancesPlan (s : State) (t : Tid) (th : Thread) (f : Fields) : Prop extends Issues s t th where
  form : formOk { f with variant := f.variant &&& 0xFE } 0 0 [.scalar, .imm] = true
  region : f.sl1.toNat ≤ 255
  ready : Ready th f.sl0

/-- The plan of the partition that drives a region. -/
abbrev planOf (s : State) (t : Tid) (n : Nat) : Option Plan :=
  s.plans.find? (fun q => q.region == n && partOf q.t.ctx == partOf t.ctx)

theorem execDraftPlanAdvance_keeps (i : AdvancesPlan s t th f) {q : Plan} (hq : planOf (atIssue s t) t f.sl1.toNat = some q)
    (hl : q.advances.length < 65535) : execDraftPlanAdvance t f s =
    .next (stepOn { notReplayable (atIssue s t) t with
      plans := (notReplayable (atIssue s t) t).plans.map (fun k => if k.region == f.sl1.toNat
        then { q with advances := q.advances ++ [(reg th f.sl0.toNat).setWidth 32] } else k) } t th) :=
  runThread_ok i.toIssues (by
    simp only [dec_ok _ _ i.form, dec_ok _ _ (decide_eq_true i.region), src_ready i.ready, hq, theF_some,
      needF_ok _ _ _ (decide_eq_true hl), ex_ok_bind])

theorem execDraftPlanAdvance_full (i : AdvancesPlan s t th f) {q : Plan} (hq : planOf (atIssue s t) t f.sl1.toNat = some q)
    (hl : 65535 ≤ q.advances.length) : execDraftPlanAdvance t f s = .next (progFault (atIssue s t) t th.pc fPlan0) :=
  runThread_fault i.toIssues (s' := atIssue s t) (by
    simp only [dec_ok _ _ i.form, dec_ok _ _ (decide_eq_true i.region), src_ready i.ready, hq, theF_some, ex_ok_bind]
    exact bind_needF_fault _ _ _ (decide_eq_false (Nat.not_lt.mpr hl)))

theorem execDraftPlanAdvance_none (i : AdvancesPlan s t th f) (hq : planOf (atIssue s t) t f.sl1.toNat = none) :
    execDraftPlanAdvance t f s = .next (progFault (atIssue s t) t th.pc fPlan0) :=
  runThread_fault i.toIssues (by
    simp only [dec_ok _ _ i.form, dec_ok _ _ (decide_eq_true i.region), src_ready i.ready, hq, theF_none, ex_ok_bind, ex_error_bind])

end

/-! ### The cursor's entry -/

section
variable {s : State} {n : Nat} {q : Plan} {r : UReg} {w0 w1 : Word}

/-- The plan at its next entry. -/
abbrev planNext (q : Plan) : Plan := { q with cursor := q.cursor + 1, inEntry := 0 }

/-- What the words of an entry have to be. -/
def planWordsOk (r : UReg) (w0 w1 : Word) : Bool :=
  decide (fld w0 63 60 ≤ 4) && fld w0 59 21 == 0 && fld w1 31 21 == 0 && (fld w0 63 60 == 4 || fld w1 63 32 == 0) &&
    (if fld w0 63 60 = 0 ∨ fld w0 63 60 = 4 then fld w1 20 0 == 0 && fld w0 20 0 == 0
      else decide (1 ≤ fld w1 20 0) && decide (fld w0 20 0 + fld w1 20 0 ≤ r.size))

theorem planStep_bad (h : planWordsOk r w0 w1 = false) : planStep s n q r w0 w1 = .error (.fault s (fPlan q.cursor)) :=
  bind_needF_fault s (fPlan q.cursor) _ h

/-- An entry whose words are legal goes by its OP. -/
theorem planStep_good (h : planWordsOk r w0 w1 = true) : planStep s n q r w0 w1 = (match fld w0 63 60 with
    | 0 => .ok (setPlan s n none)
    | 1 =>
      if q.inEntry < fld w1 20 0 then
        can (decide (q.waiting.length < q.depth)) "depth fetched pages wait for their access (R213)" >>= fun _ =>
        .ok (if (match tabGet? s.pages (r.base + fld w0 20 0 + q.inEntry) with
          | some x => !isHbmFrame x.frame
          | none => true) then askMig (setPlan s n (some { q with
              inEntry := q.inEntry + 1, waiting := q.waiting ++ [r.base + fld w0 20 0 + q.inEntry] }))
              (r.base + fld w0 20 0 + q.inEntry) (quarterOf s q.t) q.t.ctx
          else setPlan s n (some { q with
              inEntry := q.inEntry + 1, waiting := q.waiting ++ [r.base + fld w0 20 0 + q.inEntry] }))
      else can q.waiting.isEmpty "a fetched page has not been passed (R213)" >>= fun _ => .ok (setPlan s n (some (planNext q)))
    | 4 => (match q.advances with
      | [] => .error (.no "the cursor stops at a mark (R213)")
      | v :: rest => needF s (v.toNat == fld w1 63 32) (fPlan q.cursor) >>= fun _ =>
        .ok (setPlan s n (some { planNext q with advances := rest })))
    | _ => can q.waiting.isEmpty "a fetched page has not been passed (R213)" >>= fun _ =>
        .ok (setPlan (((List.range (fld w1 20 0)).map (fun i => r.base + fld w0 20 0 + i)).foldl
          (if fld w0 63 60 = 2 then releasePage else killPage) s) n (some (planNext q)))) :=
  bind_needF_ok s (fPlan q.cursor) _ h

theorem planStep_end (h : planWordsOk r w0 w1 = true) (ho : fld w0 63 60 = 0) :
    planStep s n q r w0 w1 = .ok (setPlan s n none) := by
  simp only [planStep_good h, ho]

/-- A fetch entry asks for its next page where the page is not in HBM. -/
theorem planStep_fetch (h : planWordsOk r w0 w1 = true) (ho : fld w0 63 60 = 1) (hn : q.inEntry < fld w1 20 0)
    (hw : q.waiting.length < q.depth) {pg : Nat} (hpg : pg = r.base + fld w0 20 0 + q.inEntry) {s1 : State}
    (hs : s1 = setPlan s n (some { q with inEntry := q.inEntry + 1, waiting := q.waiting ++ [pg] })) :
    planStep s n q r w0 w1 = .ok (if (match tabGet? s.pages pg with
      | some x => isHbmFrame x.frame
      | none => false) then s1 else askMig s1 pg (quarterOf s q.t) q.t.ctx) := by
  subst hs hpg
  simp only [planStep_good h, ho, if_pos hn, decide_eq_true hw, can_ok, ex_ok_bind]
  cases tabGet? s.pages (r.base + fld w0 20 0 + q.inEntry) with
  | none => rfl
  | some x => cases hb : isHbmFrame x.frame <;> simp [hb]

theorem planStep_fetched (h : planWordsOk r w0 w1 = true) (ho : fld w0 63 60 = 1) (hn : fld w1 20 0 ≤ q.inEntry)
    (hw : q.waiting = []) : planStep s n q r w0 w1 = .ok (setPlan s n (some (planNext q))) := by
  simp only [planStep_good h, ho, if_neg (Nat.not_lt.mpr hn), hw, List.isEmpty_nil, can_ok, ex_ok_bind]

/-- A release or a dead entry acts on its pages. -/
theorem planStep_act (h : planWordsOk r w0 w1 = true) (ho : fld w0 63 60 = 2 ∨ fld w0 63 60 = 3) (hw : q.waiting = []) :
    planStep s n q r w0 w1 = .ok (setPlan (((List.range (fld w1 20 0)).map (fun i => r.base + fld w0 20 0 + i)).foldl
      (if fld w0 63 60 = 2 then releasePage else killPage) s) n (some (planNext q))) := by
  rcases ho with ho | ho <;> simp only [planStep_good h, ho, hw, List.isEmpty_nil, can_ok, ex_ok_bind]

theorem planStep_mark (h : planWordsOk r w0 w1 = true) (ho : fld w0 63 60 = 4) {v : Half} {rest : List Half}
    (hv : q.advances = v :: rest) (he : v.toNat = fld w1 63 32) :
    planStep s n q r w0 w1 = .ok (setPlan s n (some { planNext q with advances := rest })) := by
  simp only [planStep_good h, ho, hv, needF_ok _ _ _ (beq_iff_eq.mpr he), ex_ok_bind]

theorem planStep_otherMark (h : planWordsOk r w0 w1 = true) (ho : fld w0 63 60 = 4) {v : Half} {rest : List Half}
    (hv : q.advances = v :: rest) (he : v.toNat ≠ fld w1 63 32) :
    planStep s n q r w0 w1 = .error (.fault s (fPlan q.cursor)) := by
  simp only [planStep_good h, ho, hv, needF_fault _ _ _ (beq_eq_false_iff_ne.mpr he), ex_error_bind]

/-- The words of a fetch, a release or a dead entry. -/
theorem planWordsOk_pages (ho : fld w0 63 60 = 1 ∨ fld w0 63 60 = 2 ∨ fld w0 63 60 = 3) (hb : fld w0 59 21 = 0)
    (hc : fld w1 31 21 = 0) : planWordsOk r w0 w1 =
      decide (fld w1 63 32 = 0 ∧ 1 ≤ fld w1 20 0 ∧ fld w0 20 0 + fld w1 20 0 ≤ r.size) := by
  rw [planWordsOk, hb, hc, Bool.eq_iff_iff]
  rcases ho with ho | ho | ho <;> simp [ho]

/-- The words of an end entry or a mark. -/
theorem planWordsOk_end (ho : fld w0 63 60 = 0) (hb : fld w0 59 21 = 0) (hc : fld w1 31 21 = 0) (hv : fld w1 63 32 = 0)
    (hn : fld w1 20 0 = 0) (hp : fld w0 20 0 = 0) : planWordsOk r w0 w1 = true := by
  rw [planWordsOk, hb, hc, ho, hv, hn, hp]
  rfl
theorem planWordsOk_mark (ho : fld w0 63 60 = 4) (hb : fld w0 59 21 = 0) (hc : fld w1 31 21 = 0)
    (hn : fld w1 20 0 = 0) (hp : fld w0 20 0 = 0) : planWordsOk r w0 w1 = true := by
  rw [planWordsOk, hb, hc, ho, hn, hp]
  rfl

end

section
variable {s : State} {n : BitVec 8} {q : Plan} {r : UReg}

/-- The two words of the entry at the cursor. -/
abbrev planEntryPart (q : Plan) : Part := ⟨q.h, [q.h.span 0 (2 * q.cursor) 1, q.h.span 0 (2 * q.cursor + 1) 1]⟩
abbrev planWord (s : State) (q : Plan) (i : Nat) : Word := BitVec.ofNat 64 (elemV s q.t.ctx q.h (q.h.ix 0 (2 * q.cursor + i)))

/-- A cursor that is not at the end of its plan, in a context that runs. -/
structure CursorRuns (s : State) (n : BitVec 8) (q : Plan) (r : UReg) : Prop where
  power : powered s = true
  alive : s.failed = false
  plan : s.plans.find? (fun q => q.region == n.toNat) = some q
  running : (getC s q.t.ctx).st = .running
  notSaving : (getC s q.t.ctx).saving = false
  notRestoring : (getC s q.t.ctx).restoring = false
  region : uregOf n.toNat (getR s (.ureg n.toNat)) = some r
  inside : 2 * q.cursor + 1 < q.h.dim 0

variable (c : CursorRuns s n q r)
include c

theorem cursorRuns_can : ((getC s q.t.ctx).st == .running && !(getC s q.t.ctx).saving && !(getC s q.t.ctx).restoring) = true := by
  simp [c.running, c.notSaving, c.notRestoring]

theorem execPlanCursor_away {pg : Nat} (hp : readReady s q.t.ctx [planEntryPart q] = .ok (some pg)) (hb : pageBusy s pg = false) :
    execPlanCursor n s = .next (askMig s pg (quarterOf s q.t) q.t.ctx) := by
  refine runEvent_of_ok ?_
  simp only [c.power, c.alive, Bool.not_false, Bool.and_self, can_ok, ex_ok_bind, c.plan, the_some, cursorRuns_can c, c.region,
    needF_ok _ _ _ (decide_eq_true c.inside), hp, hb]

theorem execPlanCursor_entry {s0 : State} (hp : readReady s q.t.ctx [planEntryPart q] = .ok none)
    (hc : partsClean s q.t.ctx [planEntryPart q] = .ok ()) (ha : askAll s q.t.ctx (planEntryPart q).ss = .ok s0) :
    execPlanCursor n s = runEvent (planStep s0 n.toNat q r (planWord s0 q 0) (planWord s0 q 1) >>= fun s2 => .ok (pumpAll s2))
      q.t (pcOf s q.t) := by
  simp only [execPlanCursor, c.power, c.alive, Bool.not_false, Bool.and_self, can_ok, ex_ok_bind, c.plan, the_some,
    cursorRuns_can c, c.region, needF_ok _ _ _ (decide_eq_true c.inside), hp, hc, ha]

theorem execPlanCursor_goesOn {s0 s' : State} (hp : readReady s q.t.ctx [planEntryPart q] = .ok none)
    (hc : partsClean s q.t.ctx [planEntryPart q] = .ok ()) (ha : askAll s q.t.ctx (planEntryPart q).ss = .ok s0)
    (hs : planStep s0 n.toNat q r (planWord s0 q 0) (planWord s0 q 1) = .ok s') : execPlanCursor n s = .next (pumpAll s') := by
  rw [execPlanCursor_entry c hp hc ha, hs]
  rfl

theorem execPlanCursor_stops {s0 : State} (hp : readReady s q.t.ctx [planEntryPart q] = .ok none)
    (hc : partsClean s q.t.ctx [planEntryPart q] = .ok ()) (ha : askAll s q.t.ctx (planEntryPart q).ss = .ok s0)
    (hs : planStep s0 n.toNat q r (planWord s0 q 0) (planWord s0 q 1) = .error (.fault s0 (fPlan q.cursor))) :
    execPlanCursor n s = .next (progFault s0 q.t (pcOf s q.t) (fPlan q.cursor)) := by
  rw [execPlanCursor_entry c hp hc ha, hs]
  rfl

end

/-- Settles O20: the two forms of `draft.plan`, and the cursor's entry by its OP. -/
theorem planResults : Obligations.PlanResults := by
  unfold Obligations.PlanResults
  refine ⟨?_, ?_⟩
  · intro s t th f hi s1 s2 n
    constructor
    · intro h hf hn hd hd' hh hfm hrk
      have i : StartsPlan s t th f h := ⟨hi, hf, hn, hd, hd', hh, hfm, hrk⟩
      refine ⟨fun r hr ho hp => execDraftPlanStart_starts i ?_, fun r hr ho => execDraftPlanStart_fault i ?_,
        fun hr => execDraftPlanStart_fault i ?_⟩
      · simp only [planRegionOk, show uregOf f.sl1.toNat (getR (atIssue s t) (.ureg f.sl1.toNat)) = some r from hr, ho, hp,
          beq_self_eq_true, Bool.and_self]
      · rw [planRegionOk, show uregOf f.sl1.toNat (getR (atIssue s t) (.ureg f.sl1.toNat)) = some r from hr]
        rcases ho with ho | ho <;> simp [ho]
      · rw [planRegionOk, show uregOf f.sl1.toNat (getR (atIssue s t) (.ureg f.sl1.toNat)) = none from hr]
    · intro hf hn hr found
      have i : AdvancesPlan s t th f := ⟨hi, hf, hn, hr⟩
      exact ⟨fun q hq hl => execDraftPlanAdvance_keeps i hq hl, fun q hq hl => execDraftPlanAdvance_full i hq hl,
        fun hq => execDraftPlanAdvance_none i hq⟩
  · intro s n q r hp hnf hq hst hsv hrs hr hin a entry
    have c : CursorRuns s n q r := ⟨hp, hnf, hq, hst, hsv, hrs, hr, hin⟩
    refine ⟨fun pg hrd hb => execPlanCursor_away c hrd hb, ?_⟩
    intro s0 hrd hcl hask w goesOn stops hb hc op page cnt next pages legal
    have goes {s' : State} (h : planStep s0 n.toNat q r (w 0) (w 1) = .ok s') : goesOn s' := execPlanCursor_goesOn c hrd hcl hask h
    have bad (h : planStep s0 n.toNat q r (w 0) (w 1) = .error (.fault s0 (fPlan q.cursor))) : stops :=
      execPlanCursor_stops c hrd hcl hask h
    have ok (ho : pages) (hl : legal) : planWordsOk r (w 0) (w 1) = true := (planWordsOk_pages ho hb hc).trans (decide_eq_true hl)
    refine ⟨fun ho hv hn hpg => goes (planStep_end (planWordsOk_end ho hb hc hv hn hpg) ho), fun ho hl => ⟨?_, ?_⟩,
      fun ho hl hw => goes (planStep_act (ok (.inr ho) hl) ho hw), fun v rest ho hn hpg hv => ⟨fun he => ?_, fun he => ?_⟩,
      fun ho hl => ?_⟩
    · intro hn hw pg s1 inHbm
      exact goes (planStep_fetch (ok (.inl ho) hl) ho hn hw rfl rfl)
    · exact fun hn hw => goes (planStep_fetched (ok (.inl ho) hl) ho hn hw)
    · exact goes (planStep_mark (planWordsOk_mark ho hb hc hn hpg) ho hv he)
    · exact bad (planStep_otherMark (planWordsOk_mark ho hb hc hn hpg) ho hv he)
    · exact bad (planStep_bad ((planWordsOk_pages ho hb hc).trans (decide_eq_false hl)))

end Sys2Proof.Machine

namespace Sys2Proof.Machine

/-! ## Tile movement (R193, R280): a store stream whose segments do not belong to its walk

`drainPc` names the word of the first bound segment of a page whose tiles hold the tile drained, whatever the stream's walk is. A
store stream with a walk over rows that carries such a segment faults at that segment's word, not at the stream's. -/

namespace TileCex

def view : Handle := { idx := 1, w0 := 0x100000, w1 := 0x251, w3 := 0x1000000, w4 := 0x1000000 }
def who : Tid := ⟨0, 0⟩

/-- One row of one KF32 element, with a segment of a page that word 1 has bound. -/
def stream : Stream :=
  { t := who, sid := 1, kind := .store, slots := [some 0], filled := 1, prod := 1, fmt := 5, h := view, walk := .rows 0 1 1,
    segs := [{ op := 0, h := view, tiles := [(0, 0)], first := 0, page := 1, pc := 1 }] }

/-- Context 0 runs, selects a poison stored as a fault, and its slot holds one; the event ring is enabled. -/
def state : State :=
  { setR (setR State.reset (.prtComp 0) 0x8001FFFFFFFFFF00) .evtCtl 0x80000000 with
    pmap := [(0, List.range 16)]
    ctxs := [(0, { st := .running, cls := 3 })]
    act := [((Reg.numpol 0).offset, 4)]
    bobbin := [(0, [(3, 0x80)])]
    streams := [stream] }

def geo : Geo := .rows view 0 1
def elems : List (Nat × Nat × Nat × Cnt) := drainElems state stream 0 geo
def counts : Cnt := elems.foldl (fun k e => k.add e.2.2.2) {}

/-- What a command that goes on has sent to the host. -/
def sent (r : Res) : List HostOut := match r with
  | .next s => s.hostOut
  | _ => []

/-- An access that is ready and misses no page. -/
def ready (x : Ex (Option Nat)) : Bool := match x with
  | .ok none => true
  | _ => false
theorem ready_iff {x : Ex (Option Nat)} (h : ready x = true) : x = .ok none := by
  unfold ready at h
  split at h
  · rfl
  · cases h

theorem writes_ready : writeReady state 0 ((drainWrites state stream 0 geo elems).map (·.part)) (.tile who 1 0) = .ok none :=
  ready_iff (by decide +kernel)

theorem slot_clean : slotClean state stream 0 = .ok () := needF_ok _ _ _ (by decide +kernel)

/-- The event that the fault sends names word 1, and one at the stream's word would name word 0. -/
theorem sent_ne : sent (exec (.slotDrain who 1) state) ≠
    (progFault (countNum state 0 counts) who 0 (fNumeric (numCauses counts))).hostOut := by
  decide +kernel

end TileCex

/-- Refutes O21: the drain of `TileCex.stream` faults at the word of its segment, not at the word of the stream. -/
theorem not_tileMovement : ¬ Obligations.TileMovement := by
  unfold Obligations.TileMovement
  intro h
  have hs := (h TileCex.state TileCex.who 1 TileCex.stream TileCex.geo (by decide +kernel) rfl (by decide +kernel) rfl rfl
    (by decide +kernel)).2 rfl (by decide) (by decide +kernel) TileCex.slot_clean (by decide +kernel) (fun _ _ _ _ e => by cases e)
  have hf := hs.2.2 TileCex.writes_ready (by decide +kernel)
  exact TileCex.sent_ne (by rw [hf]; rfl)

end Sys2Proof.Machine

namespace Sys2Proof.Machine

/-! ## The streams' engines (R125, R181, R193, R200, R215) -/

/-- A stream whose engine may move a tile. -/
structure Moves (s : State) (t : Tid) (sid : Nat) (x : Stream) : Prop where
  power : powered s = true
  alive : s.failed = false
  working : working s t = true
  here : stream? s t sid = some x
  noMiss : x.miss = none
  idle : regionIdle s x = true

section
variable {s s' : State} {t : Tid} {sid : Nat} {x : Stream}

theorem movable_ok (m : Moves s t sid x) : movable s t sid = .ok x := by
  simp only [movable, m.power, m.alive, m.working, Bool.not_false, Bool.and_self, can_ok, ex_ok_bind, m.here, the_some, m.noMiss,
    Option.isNone_none, m.idle]

theorem streamPc_eq (h : stream? s t sid = some x) : streamPc s t sid = x.pc := by rw [streamPc, h]

/-! ### A part of a page drains -/

section
variable {h : Handle} {v : Bool} {p hd : Nat}

/-- A filled slot of a store stream that is a part of a page. -/
structure PagePart (s : State) (x : Stream) (h : Handle) (v : Bool) (p hd : Nat) : Prop where
  kind : x.kind = .store
  waits : x.drained < x.filled
  full : x.has x.drained = true
  clean : slotClean s x x.drained = .ok ()
  geo : x.geo x.drained = some (.page h v p hd)

theorem drainSlot_page (m : Moves s t sid x) (d : PagePart s x h v p hd) :
    drainSlot s t sid = drainPage s x x.drained h v p hd := by
  simp only [drainSlot, movable_ok m, ex_ok_bind, d.kind, beq_self_eq_true, can_ok, decide_eq_true d.waits, d.full, Bool.and_self,
    d.clean, d.geo, the_some]

variable {g d : Nat}

theorem drainPage_mapMiss (hk : kvDims s h = .ok (g, d)) {pg : Nat} (hr : readReady s x.t.ctx [mapPart s h p] = .ok (some pg)) (n : Nat) :
    drainPage s x n h v p hd = .ok (missPage s x pg) := by
  simp only [drainPage, hk, hr, ex_ok_bind]

/-- The spans of a part's bytes in its page, the part beginning at `lo`. -/
abbrev partWrites (s : State) (x : Stream) (n d : Nat) (v : Bool) (lo : Nat) : List (Nat × Nat) :=
  (pageBytesOf s x n d v).map (fun w => (lo + w.1, w.2.length))

section
variable {s0 : State} {base fill lo n : Nat} (hk : kvDims s h = .ok (g, d)) (hr : readReady s x.t.ctx [mapPart s h p] = .ok none)
  (he : pageEntry s x.t.ctx h g d p = .ok (s0, base, fill)) (hlo : base + hd * 528 * d = lo)
include hk hr he hlo

theorem drainPage_pageMiss {pg : Nat}
    (hw : writeReady s0 x.t.ctx [localPart s h base (joinSpans (partWrites s x n d v lo))] (.tile x.t x.sid n) = .ok (some pg)) :
    drainPage s x n h v p hd = .ok (missPage s0 x pg) := by
  subst hlo
  unfold drainPage
  exact (bind_of_ok hk _).trans ((bind_of_ok hr _).trans ((bind_of_ok he _).trans (bind_of_ok hw _)))

theorem drainPage_drains
    (hw : writeReady s0 x.t.ctx [localPart s h base (joinSpans (partWrites s x n d v lo))] (.tile x.t x.sid n) = .ok none)
    {s1 : State} (ha : account s0 x.t.ctx { st := pagePoison s x n d v } = .ok s1) :
    drainPage s x n h v p hd = .ok (settle (setStream (mendBytes
      ((pageBytesOf s x n d v).foldl (fun s y => writeV s x.t.ctx h.idx (lo + y.1) y.2 (.tile x.t x.sid n))
        (coverBytes (accessPages s1 x.t.ctx ((h.pmap + 8 * p, 8) :: partWrites s x n d v lo)) x.t.ctx h.idx
          (partWrites s x n d v lo) (.tile x.t x.sid n)))
      x.t.ctx h.idx (partWrites s x n d v lo) (.tile x.t x.sid n)) (x.drainedOne n)) x.t.ctx) := by
  subst hlo
  unfold drainPage
  exact (bind_of_ok hk _).trans ((bind_of_ok hr _).trans ((bind_of_ok he _).trans ((bind_of_ok hw _).trans (bind_of_ok ha _))))

end

end

/-! ### A gather stream's lists and entries -/

section
variable {lh : Handle}

theorem openList_open (h : x.gCount ≠ none) (k : Nat) : openList s x k = .ok (s, x, none) := by
  cases hc : x.gCount with
  | none => exact absurd hc h
  | some n => cases k <;> simp only [openList, hc]

section
variable (hc : x.gCount = none) (hl : x.scaleH = some lh) (hd : gatherDone x = false)
include hc hl hd

theorem openList_miss {s1 : State} {pg : Nat}
    (hr : gatherRead s x [⟨lh, [lh.span (listRow x + x.gList) 0 2]⟩] = .ok (s1, some pg)) (k : Nat) :
    openList s x (k + 1) = .ok (s1, x, some pg) := by
  rw [openList, hc, hl]
  simp only [hd, Bool.false_eq_true, if_false, hr, ex_ok_bind, Option.isSome_some, if_true]

theorem openList_count {s1 : State} (hr : gatherRead s x [⟨lh, [lh.span (listRow x + x.gList) 0 2]⟩] = .ok (s1, none)) (k : Nat) :
    openList s x (k + 1) = if x.gEntry < listCount s1 x x.gList then .ok (s1, { x with gCount := some (listCount s1 x x.gList) }, none)
      else openList s1 { x with gList := x.gList + 1, gEntry := 0, gCount := none, moved := true, stall := 0 } k := by
  rw [openList, hc, hl]
  simp only [hd, Bool.false_eq_true, if_false, hr, ex_ok_bind, Option.isSome_none, Stream.nextList, hl]

end

/-- A gather stream with entries left. -/
structure Gathers (s : State) (t : Tid) (sid : Nat) (x : Stream) : Prop extends Moves s t sid x where
  kind : x.kind = .gather
  left : gatherDone x = false

variable {s1 : State} {y : Stream}

theorem deliverEntry_none (g : Gathers s t sid x) (ho : openList s x (listsOf x) = .ok (s1, y, none)) (hc : y.gCount = none) :
    deliverEntry s t sid = .ok (poolSettle (setStream s1 { y with live := !gatherDone y })) := by
  simp only [deliverEntry, movable_ok g.toMoves, g.kind, g.left, beq_self_eq_true, Bool.not_false, can_ok, ex_ok_bind, ho, hc]

theorem deliverEntry_miss (g : Gathers s t sid x) {pg : Nat} (ho : openList s x (listsOf x) = .ok (s1, y, some pg)) :
    deliverEntry s t sid = .ok (missPage s1 y pg) := by
  simp only [deliverEntry, movable_ok g.toMoves, g.kind, g.left, beq_self_eq_true, Bool.not_false, can_ok, ex_ok_bind, ho]

theorem deliverEntry_serves (g : Gathers s t sid x) {n : Nat} (ho : openList s x (listsOf x) = .ok (s1, y, none))
    (hc : y.gCount = some n) : deliverEntry s t sid = serveEntry s1 y n := by
  simp only [deliverEntry, movable_ok g.toMoves, g.kind, g.left, beq_self_eq_true, Bool.not_false, can_ok, ex_ok_bind, ho, hc]

theorem fits_of_not {n : Nat} (hn : ¬ (y.hold = true ∧ y.gEntry = 0 ∧ y.count < n)) :
    (!(y.hold && y.gEntry == 0 && decide (y.count < n))) = true :=
  Bool.eq_true_of_not_eq_false fun hc => hn (by simpa [and_assoc] using hc)
theorem freed_all {slot : Nat} (hf : ∀ k ∈ y.gents, k.slot = slot → k.freed = true) :
    y.gents.all (fun k => k.slot != slot || k.freed) = true := by
  rw [List.all_eq_true]
  intro k hk
  by_cases h : k.slot = slot
  · simp [hf k hk h]
  · simp [h]

/-- The rows of a list that hold its COUNT and its entries. -/
abbrev listPart (lh : Handle) (y : Stream) (n : Nat) : Part := ⟨lh, [lh.span (listRow y + y.gList) 0 (n + 2)]⟩

section
variable {n : Nat} {s2 : State} (hl : y.scaleH = some lh)
include hl

theorem serveEntry_miss {pg : Nat} (hr : gatherRead s1 y [listPart lh y n] = .ok (s2, some pg)) :
    serveEntry s1 y n = .ok (missPage s2 y pg) := by
  simp only [serveEntry, hl, the_some, hr, ex_ok_bind]

variable (hr : gatherRead s1 y [listPart lh y n] = .ok (s2, none))
include hr

theorem serveEntry_long (hh : y.hold = true) (he : y.gEntry = 0) (hn : y.count < n) :
    serveEntry s1 y n = .error (.fault s2 fStream) := by
  simp only [serveEntry, hl, the_some, hr, ex_ok_bind]
  exact bind_needF_fault _ _ _ (by simp [hh, he, hn])

variable (hn : ¬ (y.hold = true ∧ y.gEntry = 0 ∧ y.count < n)) {g d : Nat} (hk : kvDims s2 y.h = .ok (g, d))
include hn hk

theorem serveEntry_mapMiss {pg : Nat}
    (hm : readReady s2 y.t.ctx [mapPart s2 y.h (listPage s2 y y.gList y.gEntry)] = .ok (some pg)) :
    serveEntry s1 y n = .ok (missPage s2 y pg) := by
  simp only [serveEntry, hl, the_some, hr, ex_ok_bind, needF_ok _ _ _ (fits_of_not hn), hk, hm]

variable (hm : readReady s2 y.t.ctx [mapPart s2 y.h (listPage s2 y y.gList y.gEntry)] = .ok none) {s3 : State} {base fill : Nat}
  (he : pageEntry s2 y.t.ctx y.h g d (listPage s2 y y.gList y.gEntry) = .ok (s3, base, fill))
include hm he

/-- The entry of page `p` of a gather stream whose list has `n` entries, once its page's entry is read. -/
abbrev entryPages (s2 s3 : State) (y : Stream) : State :=
  accessPages s3 y.t.ctx [(y.h.pmap + 8 * listPage s2 y y.gList y.gEntry, 8)]

theorem serveEntry_held {k : GEnt}
    (hh : (if y.hold then y.gents.reverse.find? (fun k => k.page == listPage s2 y y.gList y.gEntry) else none) = some k) :
    serveEntry s1 y n = .ok (bumpC (poolSettle (setStream (entryPages s2 s3 y)
      (y.gave n k.slot (listPage s2 y y.gList y.gEntry) fill))) y.t.ctx kGatherHold 1) := by
  simp only [serveEntry, hl, the_some, hr, ex_ok_bind, needF_ok _ _ _ (fits_of_not hn), hk, hm, he, hh]

variable (hh : (if y.hold then y.gents.reverse.find? (fun k => k.page == listPage s2 y y.gList y.gEntry) else none) = none)
  {slot : Nat} (hs : (if y.hold then holdSlot y ((List.range n).map (listPage (entryPages s2 s3 y) y y.gList))
    else some (y.filled % y.count)) = some slot) (hf : ∀ k ∈ y.gents, k.slot = slot → k.freed = true) {s5 : State}
include hh hs hf

theorem serveEntry_bytesMiss {pg : Nat}
    (hb : gatherRead (entryPages s2 s3 y) y [localPart (entryPages s2 s3 y) y.h base [(base + y.tag * 528 * d, 528 * d)]] =
      .ok (s5, some pg)) : serveEntry s1 y n = .ok (missPage s5 y pg) := by
  simp only [serveEntry, hl, the_some, hr, ex_ok_bind, needF_ok _ _ _ (fits_of_not hn), hk, hm, he, hh, hs,
    can_ok _ _ (freed_all hf), hb]

theorem serveEntry_read
    (hb : gatherRead (entryPages s2 s3 y) y [localPart (entryPages s2 s3 y) y.h base [(base + y.tag * 528 * d, 528 * d)]] =
      .ok (s5, none)) : serveEntry s1 y n = .ok (bumpC (poolSettle (setStream
        (slotWrite (creelFetch s5 y [(base + y.tag * 528 * d, 528 * d)]) y (y.slotOff slot)
          (rd s5 (base + y.tag * 528 * d) (528 * d)))
        (({ y with gents := y.gents.filter (fun k => k.slot != slot) } : Stream).gave n slot
          (listPage s2 y y.gList y.gEntry) fill))) y.t.ctx kGatherRead 1) := by
  simp only [serveEntry, hl, the_some, hr, ex_ok_bind, needF_ok _ _ _ (fits_of_not hn), hk, hm, he, hh, hs,
    can_ok _ _ (freed_all hf), hb]

end

/-- The stream after an entry is given, at its next entry or its next list. -/
theorem gave_eq (y : Stream) (n slot p fill : Nat) : y.gave n slot p fill =
    (let e := y.gEntry + 1
     let z : Stream := { y with gList := if e < n then y.gList else y.gList + 1, gEntry := if e < n then e else 0,
                                gCount := if e < n then y.gCount else none, filled := y.filled + 1, moved := true, stall := 0,
                                begun := false, gents := y.gents ++
                                  [{ list := y.gList, entry := y.gEntry, slot := slot, page := p, fill := fill }] }
     { z with live := !gatherDone z }) := by
  by_cases h : y.gEntry + 1 < n
  · simp only [Stream.gave, if_pos h]
  · simp only [Stream.gave, if_neg h, Stream.nextList]

end

/-! ### Pages in motion, and stalls -/

theorem execMigrationComplete_ok {page : BitVec 21} {m k : Mig} {s1 : State} (hp : powered s = true) (hf : s.failed = false)
    (hm : s.migs.find? (fun m => m.page == page.toNat) = some m)
    (hb : (if pageMiss s page.toNat true then bringIn s page.toNat m.quarter m.ctx else some s) = some s1)
    (hk : (s1.migs ++ s1.migQueue).find? (fun m => m.page == page.toNat) = some k) :
    execMigrationComplete page s = .next (pumpAll (nextMig (wakeStreams { s1 with
      migs := s1.migs.filter (fun m => m.page != page.toNat)
      migQueue := s1.migQueue.filter (fun m => m.page != page.toNat) } page.toNat) k.part)) := by
  refine runPlain_of_ok ?_
  simp only [hp, hf, Bool.not_false, Bool.and_self, can_ok, ex_ok_bind, hm, the_some, hb, dropMig, hk, Option.map_some,
    Option.getD_some]

theorem execStreamStall_stalled {sid : BitVec 5} (hp : powered s = true) (hf : s.failed = false) (hpr : present s t = true)
    (hx : stream? s t sid.toNat = some x) (h4 : 4 ≤ x.stall) : execStreamStall t sid s = .next (progFault s t x.pc fStall) := by
  rw [← streamPc_eq hx]
  refine runEvent_of_fault ?_
  simp only [hp, hf, hpr, Bool.not_false, Bool.and_self, can_ok, ex_ok_bind, hx, the_some, decide_eq_true h4]

theorem execStreamStall_notYet {sid : BitVec 5} (hp : powered s = true) (hf : s.failed = false) (hpr : present s t = true)
    (hx : stream? s t sid.toNat = some x) (h4 : x.stall < 4) : ∃ why, execStreamStall t sid s = .refused (.notEnabled why) := by
  refine runEvent_of_no ⟨"not stalled for four strokes (R215)", ?_⟩
  simp only [hp, hf, hpr, Bool.not_false, Bool.and_self, can_ok, ex_ok_bind, hx, the_some, decide_eq_false (Nat.not_le.mpr h4)]
  rfl

end

/-- Settles O22: the page part's drain, the gather stream's lists and entries, a page's arrival, and a stall. -/
theorem streamEngines : Obligations.StreamEngines := by
  unfold Obligations.StreamEngines
  intro s hp hf
  refine ⟨?_, ?_, ?_, fun t sid x hpr hx => ⟨fun h4 => execStreamStall_stalled hp hf hpr hx h4,
    fun h4 => execStreamStall_notYet hp hf hpr hx h4⟩⟩
  · intro t sid x h v p hd g d s0 base fill hw hx hm hi hk hlt hhas hcl hg ht hkv c n map
    subst ht
    have e := drainSlot_page ⟨hp, hf, hw, hx, hm, hi⟩ ⟨hk, hlt, hhas, hcl, hg⟩
    refine ⟨fun pg hr => runEvent_of_ok (e.trans (drainPage_mapMiss hkv hr _)), ?_⟩
    intro hr he lo ws ss dst w
    exact ⟨fun pg hwr => runEvent_of_ok (e.trans (drainPage_pageMiss hkv hr he rfl hwr)),
      fun hwr s1 ha => runEvent_of_ok (e.trans (drainPage_drains hkv hr he rfl hwr ha))⟩
  · intro t sid x lh hw hx hm hi hk hdn hl c goes
    have gs : Gathers s t sid.toNat x := ⟨⟨hp, hf, hw, hx, hm, hi⟩, hk, hdn⟩
    refine ⟨fun k hc => openList_open hc k, ?_,
      fun s1 y ho hc => runEvent_of_ok (deliverEntry_none gs ho hc), fun s1 y pg ho => runEvent_of_ok (deliverEntry_miss gs ho), ?_⟩
    · intro k s1 miss hc hr n
      cases miss with
      | some pg => exact openList_miss hc hl hdn hr k
      | none => exact openList_count hc hl hdn hr k
    intro s1 y n s2 miss ho hc hyl hyt lists hr
    subst hyt
    have go {s' : State} (e : serveEntry s1 y n = .ok s') : goes s' := runEvent_of_ok ((deliverEntry_serves gs ho hc).trans e)
    refine ⟨?_, ?_, ?_⟩
    · rintro pg rfl
      exact go (serveEntry_miss hyl hr)
    · rintro rfl hh he hn
      have e : exec (.gatherEntryDeliver y.t sid) s = .next (progFault s2 y.t (streamPc s y.t sid.toNat) fStream) :=
        runEvent_of_fault ((deliverEntry_serves gs ho hc).trans (serveEntry_long hyl hr hh he hn))
      rw [streamPc_eq hx] at e
      exact e
    · rintro g d rfl hn hkv p
      refine ⟨fun pg hmm => go (serveEntry_mapMiss hyl hr hn hkv hmm), ?_⟩
      intro s3 base fill hmm he s4 next a held
      refine ⟨fun k hh => ?_, ?_⟩
      · have e := serveEntry_held hyl hr hn hkv hmm he hh
        rw [gave_eq] at e
        exact go e
      · intro slot s5 miss hh hs hfr hb
        refine ⟨?_, ?_⟩
        · rintro pg rfl
          exact go (serveEntry_bytesMiss hyl hr hn hkv hmm he hh hs hfr hb)
        · rintro rfl
          have e := serveEntry_read hyl hr hn hkv hmm he hh hs hfr hb
          rw [gave_eq] at e
          exact go e
  · intro page m s1 hm hb hn s2 k hk
    refine execMigrationComplete_ok hp hf hm ?_ hk
    cases hmiss : pageMiss s page.toNat true with
    | true => exact hb hmiss
    | false => rw [hn hmiss]; rfl

end Sys2Proof.Machine

namespace Sys2Proof.Machine

/-! ## A multicast tile at a member (R209-R211, R393) -/

section
variable {s : State} {x : Stream} {g : Group} {p : Geo}

/-- A member of a group whose next slot is free, and whose tile the walk of the sender has. -/
structure MemberTakes (s : State) (x : Stream) (g : Group) (p : Geo) : Prop where
  geo : (groupSrc s g).geo x.filled = some p
  free : x.free x.filled = true

/-- What the tile of a member reads. -/
abbrev memberParts (s : State) (g : Group) (p : Geo) : List Part := loadParts (groupSrc s g) p

/-- Every part of the tile lies in the device's HBM or in its unified regions. -/
abbrev memberInside (s : State) (g : Group) (p : Geo) : Bool := (memberParts s g p).all (fun k => mcastSource s k.h)

variable (m : MemberTakes s x g p)
include m

theorem deliverMember_outside (h : memberInside s g p = false) : deliverMember s x g = .error (.fault s fStream) := by
  simp only [deliverMember, m.geo, the_some, ex_ok_bind, can_ok _ _ m.free]
  exact bind_needF_fault _ _ _ h

theorem deliverMember_miss (h : memberInside s g p = true) {pg : Nat}
    (hr : readReady s x.t.ctx (memberParts s g p) = .ok (some pg)) : deliverMember s x g = .ok (missPage s x pg) := by
  unfold deliverMember
  simp only [m.geo, the_some, ex_ok_bind, can_ok _ _ m.free]
  exact (bind_needF_ok _ _ _ h).trans (bind_of_ok hr _)

/-- The group, and the state, after the leading member has dropped the members that lag. -/
abbrev memberDrops (s : State) (x : Stream) (g : Group) : State × Group :=
  if x.filled == leadOf s g then dropLagging s g x.filled else (s, g)

/-- The state in which a member's slot is filled from the tile. -/
abbrev memberFilled (s s3 : State) (x : Stream) (g : Group) (p : Geo) : State :=
  poolSettle (setStream (slotWrite s3 x (x.slotOff (x.slotNo x.filled)) (loadBytes (readV s x.t.ctx) (groupSrc s g) p).1)
    ((x.filledOne x.filled).withRegion (readV s x.t.ctx) (groupSrc s g) p x.filled))

theorem deliverMember_fills (h : memberInside s g p = true) (hr : readReady s x.t.ctx (memberParts s g p) = .ok none)
    (hc : partsClean s x.t.ctx (memberParts s g p) = .ok ()) (hs : slubsOk s (readV s x.t.ctx) (groupSrc s g) p = .ok ()) {s3 : State}
    (ha : account (accessPages (setGroup (memberDrops s x g).1 (memberDrops s x g).2) x.t.ctx
      (readReach s x.t.ctx (memberParts s g p))) x.t.ctx (loadBytes (readV s x.t.ctx) (groupSrc s g) p).2 = .ok s3) :
    deliverMember s x g = .ok (if x.filled == leadOf s g then sendTiles (memberFilled s s3 x g p) (memberDrops s x g).2 x.filled
      ((groupSrc s g).total == some (x.filled + 1)) (loadBytes (readV s x.t.ctx) (groupSrc s g) p).1
      else memberFilled s s3 x g p) := by
  unfold deliverMember
  simp only [m.geo, the_some, ex_ok_bind, can_ok _ _ m.free]
  exact (bind_needF_ok _ _ _ h).trans ((bind_of_ok hr _).trans ((bind_of_ok hc _).trans ((bind_of_ok hs _).trans (bind_of_ok ha _))))

end

section
variable {s : State} {t : Tid} {sid : BitVec 5} {x : Stream}

/-- A multicast member's event where it is in its group. -/
theorem execMcastTileDeliver_member (m : Moves s t sid.toNat x) (hk : x.kind = .member) {g : Group}
    (hg : groupOf s t.ctx (quarterOf s t) x.tag = some g) (hm : g.members.any (fun m => m.t == t && m.sid == x.sid) = true) :
    execMcastTileDeliver t sid s = runEvent (deliverMember s x g) t x.pc := by
  simp only [execMcastTileDeliver, movable_ok m, ex_ok_bind, hk, beq_self_eq_true, can_ok, hg, hm, if_true, streamPc_eq m.here]

/-- A multicast member's event where it is outside its group. -/
theorem execMcastTileDeliver_outside (m : Moves s t sid.toNat x) (hk : x.kind = .member)
    (hg : ∀ g, groupOf s t.ctx (quarterOf s t) x.tag = some g → g.members.any (fun m => m.t == t && m.sid == x.sid) = false) :
    execMcastTileDeliver t sid s = runEvent (requestTile s x) t x.pc := by
  simp only [execMcastTileDeliver, movable_ok m, ex_ok_bind, hk, beq_self_eq_true, can_ok, streamPc_eq m.here]
  cases h : groupOf s t.ctx (quarterOf s t) x.tag with
  | none => rfl
  | some g => simp only [hg g h, Bool.false_eq_true, if_false]

/-- No request of the stream for a tile is outstanding. -/
theorem tileAsked_false (h : ∀ o ∈ s.outMsgs, ¬ (o.op = .tileRequest ∧ o.ctx = x.t.ctx ∧ o.lk = x.t.lsp.val ∧ o.hidx = x.sid)) :
    tileAsked s x = false := by
  rw [tileAsked, List.any_eq_false]
  intro o ho
  simpa [and_assoc] using h o ho

theorem requestTile_sends {home tag : _} (hh : x.home = some home) (hf : x.free x.filled = true) (ha : tileAsked s x = false)
    (hc : freeCredit s x.t.ctx = true) (ht : freeTagOf s x.t.ctx = some tag) {s2 : State} {ks : List NotSent} {m : Msg} {o : OutMsg}
    (hm : m = { dst := home, src := BitVec.ofNat 16 (devId s), op := .tileRequest, ctx := x.t.ctx, tag := tag,
                epoch := epochOf s x.t.ctx tag, cls := BitVec.ofNat 2 (ctxCls s x.t.ctx), last := true,
                mcg := BitVec.ofNat 8 x.tag, addr := tileAddr x.filled x.parts 1 })
    (ho : o = { ctx := x.t.ctx, tag := tag, op := .tileRequest, lk := x.t.lsp, loc := x.filled, len := x.parts, hidx := x.sid,
                dst := home, edge := (strokeNow s).toNat, due := [home.toNat] })
    (hl : launchMsg { (if x.dropped then s else dropMember s x.t x.sid x.filled) with
      outMsgs := (if x.dropped then s else dropMember s x.t x.sid x.filled).outMsgs ++ [o] } x.t.ctx m = .ok (s2, ks)) :
    requestTile s x = .ok (if ks.isEmpty then s2 else unsent s2 (draftOp s2 o) o m.epoch ks) := by
  subst hm ho
  unfold requestTile
  simp only [hh, the_some, ex_ok_bind, hf, ha, Bool.not_false, can_ok, hc, ht]
  exact bind_of_ok hl _

end

/-- Settles O23: what a member in its group and one outside it do with the next tile. -/
theorem multicastDelivery : Obligations.MulticastDelivery := by
  unfold Obligations.MulticastDelivery
  intro s t sid x hp hf hw hx hxt hm hi hk c n
  subst hxt
  have mv : Moves s x.t sid.toNat x := ⟨hp, hf, hw, hx, hm, hi⟩
  refine ⟨?_, ?_⟩
  · intro g p hg hmem hgeo hfree src ps inside
    have mt : MemberTakes s x g p := ⟨hgeo, hfree⟩
    have e := execMcastTileDeliver_member mv hk hg hmem
    refine ⟨fun h => e.trans (runEvent_of_fault (deliverMember_outside mt h)),
      fun pg h hr => e.trans (runEvent_of_ok (deliverMember_miss mt h hr)), ?_⟩
    intro h hr hc hs leads z s2 l s3 ha s4
    have d := deliverMember_fills mt h hr hc hs ha
    refine ⟨fun hl => e.trans (runEvent_of_ok (d.trans ?_)), fun hl => e.trans (runEvent_of_ok (d.trans ?_))⟩
    · rw [show (x.filled == leadOf s g) = false from hl]
      rfl
    · rw [if_pos hl]
      rfl
  · intro home tag hg hh hfree hc ht hno s1 m o s2 ks hmm ho hl
    exact (execMcastTileDeliver_outside mv hk hg).trans
      (runEvent_of_ok (requestTile_sends hh hfree (tileAsked_false hno) hc ht hmm ho hl))

end Sys2Proof.Machine

namespace Sys2Proof.Machine

/-! ## Claims of stream slots by vector operands (R280) -/

section
variable {s : State} {t : Tid} {o : EngOp} {v : Vop} {x : Stream} {a n : Nat}

theorem claimSrc_plain (h : regionOf s t a n = none) :
    claimSrc s t o a n = .ok (noteScrRead s t a n, { o with rds := o.rds ++ [(a, n)] }) := by rw [claimSrc, h]

/-- The instruction has claimed the slot at `a` of stream `x` as a source. -/
def Taken (o : EngOp) (x : Stream) (a : Nat) : Prop := ∃ k ∈ o.claims, k.sid = x.sid ∧ k.fills = false ∧ x.slotOff (x.slotNo k.tile) = a

theorem any_claim_iff : o.claims.any (fun k => k.sid == x.sid && !k.fills && x.slotOff (x.slotNo k.tile) == a) = true ↔ Taken o x a := by
  simp [Taken, and_assoc]

theorem claimSrc_taken (h : regionOf s t a n = some x) (ht : Taken o x a) :
    claimSrc s t o a n = .ok (s, { o with rds := o.rds ++ [(a, n)] }) := by
  simp only [claimSrc, h, any_claim_iff.mpr ht, if_true]

/-- A source that is not taken and not in a load stream of the thread claims nothing. -/
theorem claimSrc_other (h : regionOf s t a n = some x) (ht : ¬ Taken o x a) (hx : x.t ≠ t ∨ x.kind = .store) :
    claimSrc s t o a n = .ok (s, { o with rds := o.rds ++ [(a, n)] }) := by
  have hc : (x.t == t && x.kind != .store) = false := by rcases hx with hx | hx <;> simp [hx]
  simp only [claimSrc, h, mt any_claim_iff.mp ht, hc, if_false, Bool.false_eq_true]

/-- A source in a load stream of the thread claims the stream's next slot, or is a STREAM fault. -/
theorem claimSrc_own (h : regionOf s t a n = some x) (ht : ¬ Taken o x a) (hx : x.t = t) (hk : x.kind ≠ .store) :
    claimSrc s t o a n = needF s (a == x.slotOff (x.slotNo x.cons) && decide (n ≤ x.size)) fStream >>= fun _ =>
      .ok (setStream (noteLocalUse s t x) { x with cons := x.cons + 1 },
        { o with claims := o.claims ++ [⟨x.sid, x.cons, false⟩], rds := o.rds ++ [(a, n)] }) := by
  have hc : (x.t == t && x.kind != .store) = true := by simp [hx, hk]
  simp only [claimSrc, h, mt any_claim_iff.mp ht, hc, if_false, if_true, Bool.false_eq_true]

/-- After a stream is written, the streams of its thread and number are as written. -/
theorem setStream_cons {y : Stream} (hy : y ∈ (setStream s x).streams) (ht : y.t = x.t) (hs : y.sid = x.sid) : y.cons = x.cons := by
  obtain ⟨z, -, rfl⟩ := List.mem_map.mp hy
  by_cases hc : (z.t == x.t && z.sid == x.sid) = true
  · simp only [hc, if_true]
  · rw [if_neg hc] at ht hs
    exact absurd (by rw [ht, hs, beq_self_eq_true, beq_self_eq_true]; rfl) hc

theorem noteShapes_nil (rows len pitch : Nat) : noteShapes s t [] rows len pitch = s := rfl

theorem dstVop_plain (h : regionOf s t v.off v.bytes = none) :
    dstVop s t o v = .ok (noteScrWrite s t v.off v.bytes, { o with wrs := o.wrs ++ [(v.off, v.bytes)] }) := by
  simp only [dstVop, claimDst, h, ex_ok_bind, List.drop_length, noteShapes_nil]

/-- A destination that claims its stream's next slot in producer order. -/
abbrev Produces (x : Stream) (t : Tid) (a n : Nat) : Bool :=
  x.t == t && (x.kind == .store || x.walk == .localS) && a == x.slotOff (x.slotNo x.prod) && decide (n ≤ x.size)

theorem dstVop_fault (h : regionOf s t v.off v.bytes = some x) (hp : Produces x t v.off v.bytes = false) :
    dstVop s t o v = .error (.fault s fStream) := by
  simp only [dstVop, claimDst, h]
  rw [bind_needF_fault _ _ _ hp, ex_error_bind]

/-- A list of handles that no passed splice declares may be written. -/
theorem forM_mayWrite {c : Nat} : ∀ {hs : List Nat}, (∀ h ∈ hs, passedDecl s c h = false) → hs.forM (fun h => mayWrite s c h) = .ok ()
  | [], _ => rfl
  | h :: hs, hh => (bind_needF_ok _ _ _ (by rw [hh h List.mem_cons_self]; rfl)).trans
      (forM_mayWrite fun k hk => hh k (List.mem_cons_of_mem _ hk))

theorem dstVop_claims (h : regionOf s t v.off v.bytes = some x) (hp : Produces x t v.off v.bytes = true) {far : List Nat}
    (hfar : far = if x.kind = .store then farHandles x else []) (hw : ∀ h ∈ far, passedDecl s t.ctx h = false) :
    dstVop s t o v = .ok (noteShapes (setStream (far.foldl (fun s h => noteHandleWrite s t h) s) { x with prod := x.prod + 1 }) t
      [⟨x.sid, x.prod, true⟩] v.rows v.len v.pitch,
      { o with claims := o.claims ++ [⟨x.sid, x.prod, true⟩], wrs := o.wrs ++ [(v.off, v.bytes)] }) := by
  simp only [dstVop, claimDst, h]
  rw [bind_needF_ok _ _ _ hp]
  by_cases hk : x.kind = .store
  · rw [if_pos hk] at hfar
    subst hfar
    have hk' : (x.kind == .store) = true := beq_iff_eq.mpr hk
    simp only [hk', if_true, forM_mayWrite hw, ex_ok_bind, List.drop_left]
  · rw [if_neg hk] at hfar
    subst hfar
    have hk' : (x.kind == .store) = false := beq_eq_false_iff_ne.mpr hk
    simp only [hk', Bool.false_eq_true, if_false, ex_ok_bind, List.drop_left, List.foldl_nil]

end

/-- Settles O24: a source and a destination outside every region, at a claimed slot, at the next slot, and elsewhere. -/
theorem vopClaims : Obligations.VopClaims := by
  unfold Obligations.VopClaims
  intro s t o v a n plain
  refine ⟨fun h => ⟨claimSrc_plain h, dstVop_plain h⟩, fun x h => ?_⟩
  intro taken
  refine ⟨fun ht => claimSrc_taken h ht, fun ht hx hk => ?_, fun ht hx => claimSrc_other h ht hx, ?_, fun hx => dstVop_fault h ?_⟩
  · have e : srcVop s t o v = _ := claimSrc_own h ht hx hk
    refine ⟨fun ha hn => ⟨_, e.trans (bind_needF_ok _ _ _ (Bool.and_eq_true_iff.mpr ⟨beq_iff_eq.mpr ha, decide_eq_true hn⟩)), fun y hy hyt hys => ?_⟩,
      fun hno => e.trans (bind_needF_fault _ _ _ ?_)⟩
    · exact setStream_cons (x := { x with cons := x.cons + 1 }) hy (hyt.trans hx.symm) hys
    · exact Bool.eq_false_iff.mpr fun hc => hno (by simpa using hc)
  · intro hk hx ha hn far s1 hw
    refine dstVop_claims h ?_ rfl hw
    simp only [Produces, Bool.and_eq_true, Bool.or_eq_true, beq_iff_eq, decide_eq_true_eq]
    exact ⟨⟨⟨hx, hk⟩, ha⟩, hn⟩
  · rw [Produces, Bool.eq_false_iff]
    intro hc
    simp only [Bool.and_eq_true, Bool.or_eq_true, beq_iff_eq, decide_eq_true_eq] at hc
    obtain ⟨⟨⟨h1, h2⟩, h3⟩, h4⟩ := hc
    rcases hx with hx | ⟨hx1, hx2⟩ | hx | hx
    · exact hx h1
    · exact h2.elim hx1 hx2
    · exact hx h3
    · exact absurd h4 (Nat.not_le.mpr hx)

end Sys2Proof.Machine

namespace Sys2Proof.Machine

/-! ## Element-wise instructions and conversions issue (R274, R275, R290, R291) -/

section
variable {s : State} {t : Tid} {th : Thread} {f : Fields}

/-- A lane instruction whose form is legal, whose registers have their values, and whose first operand and destination are VOPs. -/
structure LaneIssues (s : State) (t : Tid) (th : Thread) (f : Fields) (a d : Vop) : Prop extends Issues s t th where
  room : engineRoom (atIssue s t) t 2 = .ok ()
  ready0 : Ready th f.sl0
  ready1 : Ready th f.sl1
  ready2 : Ready th f.sl2
  ready3 : Ready th f.sl3
  source : readVop (atIssue s t) (reg th f.sl1.toNat) = .ok a
  dest : readVop (atIssue s t) (reg th f.sl0.toNat) = .ok d

/-- The destination has the shape of the first operand. -/
abbrev sameShape (a d : Vop) : Prop := d.rows = a.rows ∧ d.len = a.len

theorem shape_ok {a d : Vop} (h : sameShape a d) : (d.rows == a.rows && d.len == a.len) = true := by simp [h.1, h.2]
theorem shape_bad {a d : Vop} (h : ¬ sameShape a d) : (d.rows == a.rows && d.len == a.len) = false :=
  Bool.eq_false_iff.mpr fun hc => h (by simpa using hc)

variable {a d : Vop} {tag : EngTag} {var : Nat} {fma : Bool}

/-- What is left of an element-wise instruction after its operands are read. -/
theorem issueElem_checked (i : LaneIssues s t th f a d) (hf : formOk f var 0 ([.scalar, .scalar, .scalar] ++ if fma then [.scalar] else []) = true)
    (hb : (bit f.variant 0 && bit f.variant 1) = false) (hc : (bit f.variant 2 && bit f.variant 3) = false) :
    issueElem t f s tag var fma = runThread s t fun s th => needF s (d.rows == a.rows && d.len == a.len) fOperand >>= fun _ =>
      srcVop s t (newOp s t th tag f) a >>= fun p1 =>
      takeOpd p1.1 t p1.2 (reg th f.sl2.toNat) (bit f.variant 0) (bit f.variant 1) a.rows a.len >>= fun p2 =>
      (if fma then takeOpd p2.1 t p2.2 (reg th f.sl3.toNat) (bit f.variant 2) (bit f.variant 3) a.rows a.len else .ok p2) >>= fun p3 =>
      dstVop p3.1 t p3.2 d >>= fun p4 => .ok (issueOp p4.1 t th p4.2) := by
  have hd : (!(bit f.variant 0 && bit f.variant 1) && !(bit f.variant 2 && bit f.variant 3)) = true := by rw [hb, hc]; rfl
  rw [issueElem, runThread_issues i.toIssues, runThread_issues i.toIssues]
  simp only [dec_ok _ _ hf, dec_ok _ _ hd, i.room, src_ready i.ready0, src_ready i.ready1, src_ready i.ready2, src_ready i.ready3,
    i.source, i.dest, ex_ok_bind]
  cases fma <;> rfl

theorem issueElem_shapes (i : LaneIssues s t th f a d) (hf : formOk f var 0 ([.scalar, .scalar, .scalar] ++ if fma then [.scalar] else []) = true)
    (hb : (bit f.variant 0 && bit f.variant 1) = false) (hc : (bit f.variant 2 && bit f.variant 3) = false) (hs : ¬ sameShape a d) :
    issueElem t f s tag var fma = .next (progFault (atIssue s t) t th.pc fOperand) := by
  rw [issueElem_checked i hf hb hc]
  exact runThread_fault i.toIssues (bind_needF_fault _ _ _ (shape_bad hs))

section
variable (i : LaneIssues s t th f a d) (hb : (bit f.variant 0 && bit f.variant 1) = false)
  (hc : (bit f.variant 2 && bit f.variant 3) = false) (hs : sameShape a d) {s2 s3 s4 s5 : State} {o2 o3 o4 o5 : EngOp}
  (h2 : srcVop (atIssue s t) t (newOp (atIssue s t) t th tag f) a = .ok (s2, o2))
  (h3 : takeOpd s2 t o2 (reg th f.sl2.toNat) (bit f.variant 0) (bit f.variant 1) a.rows a.len = .ok (s3, o3))
include i hb hc hs h2 h3

theorem issueElem_two (hf : formOk f var 0 [.scalar, .scalar, .scalar] = true) (h4 : dstVop s3 t o3 d = .ok (s4, o4)) :
    issueElem t f s tag var false = .next (issueOp s4 t th o4) := by
  rw [issueElem_checked i hf hb hc]
  refine runThread_ok i.toIssues ((bind_needF_ok _ _ _ (shape_ok hs)).trans ?_)
  exact (bind_of_ok h2 _).trans ((bind_of_ok h3 _).trans (bind_of_ok h4 _))

theorem issueElem_three (hf : formOk f var 0 [.scalar, .scalar, .scalar, .scalar] = true)
    (h4 : takeOpd s3 t o3 (reg th f.sl3.toNat) (bit f.variant 2) (bit f.variant 3) a.rows a.len = .ok (s4, o4))
    (h5 : dstVop s4 t o4 d = .ok (s5, o5)) : issueElem t f s tag var true = .next (issueOp s5 t th o5) := by
  rw [issueElem_checked i hf hb hc]
  refine runThread_ok i.toIssues ((bind_needF_ok _ _ _ (shape_ok hs)).trans ?_)
  exact (bind_of_ok h2 _).trans ((bind_of_ok h3 _).trans ((bind_of_ok h4 _).trans (bind_of_ok h5 _)))

end

/-- What is left of a conversion or a distaff function after its operands are read. -/
theorem issueUnary_checked (i : LaneIssues s t th f a d) (hf : formOk f var 0 [.scalar, .scalar] = true) :
    issueUnary t f s tag var = runThread s t fun s th => needF s (d.rows == a.rows && d.len == a.len) fOperand >>= fun _ =>
      needF s (tag != .vcvt || convertible a.f d.f) fFormat >>= fun _ =>
      srcVop s t (newOp s t th tag f) a >>= fun p1 => dstVop p1.1 t p1.2 d >>= fun p2 => .ok (issueOp p2.1 t th p2.2) := by
  rw [issueUnary, runThread_issues i.toIssues, runThread_issues i.toIssues]
  simp only [dec_ok _ _ hf, i.room, src_ready i.ready0, src_ready i.ready1, i.source, i.dest, ex_ok_bind]

theorem issueUnary_ok (i : LaneIssues s t th f a d) (hf : formOk f var 0 [.scalar, .scalar] = true) (hs : sameShape a d)
    (hv : tag = .vcvt → convertible a.f d.f = true) {s2 s3 : State} {o2 o3 : EngOp}
    (h2 : srcVop (atIssue s t) t (newOp (atIssue s t) t th tag f) a = .ok (s2, o2)) (h3 : dstVop s2 t o2 d = .ok (s3, o3)) :
    issueUnary t f s tag var = .next (issueOp s3 t th o3) := by
  have hv' : (tag != .vcvt || convertible a.f d.f) = true := by
    by_cases h : tag = .vcvt
    · rw [hv h, Bool.or_true]
    · rw [bne_iff_ne.mpr h, Bool.true_or]
  rw [issueUnary_checked i hf]
  refine runThread_ok i.toIssues ((bind_needF_ok _ _ _ (shape_ok hs)).trans ((bind_needF_ok _ _ _ hv').trans ?_))
  exact (bind_of_ok h2 _).trans (bind_of_ok h3 _)

theorem issueUnary_shapes (i : LaneIssues s t th f a d) (hf : formOk f var 0 [.scalar, .scalar] = true) (hs : ¬ sameShape a d) :
    issueUnary t f s tag var = .next (progFault (atIssue s t) t th.pc fOperand) := by
  rw [issueUnary_checked i hf]
  exact runThread_fault i.toIssues (bind_needF_fault _ _ _ (shape_bad hs))

theorem issueUnary_format (i : LaneIssues s t th f a d) (hf : formOk f var 0 [.scalar, .scalar] = true) (hs : sameShape a d)
    (ht : tag = .vcvt) (hv : convertible a.f d.f = false) :
    issueUnary t f s tag var = .next (progFault (atIssue s t) t th.pc fFormat) := by
  rw [issueUnary_checked i hf]
  refine runThread_fault i.toIssues (s' := atIssue s t) ((bind_needF_ok _ _ _ (shape_ok hs)).trans (bind_needF_fault _ _ _ ?_))
  rw [ht, hv]
  rfl

end

/-- Settles O25: the two-operand instructions, `vfma`, and the two instructions with one operand. -/
theorem elementwiseIssue : Obligations.ElementwiseIssue := by
  unfold Obligations.ElementwiseIssue
  intro s t th f hi hroom s1 m bs brow cs crow h0 h1 h2 h3 a d ha hd same two
  have i : LaneIssues s t th f a d := ⟨hi, hroom, h0, h1, h2, h3, ha, hd⟩
  have im : LaneIssues s t th m a d := ⟨hi, hroom, h0, h1, h2, h3, ha, hd⟩
  have low (k : Nat) (hk : k < 4) : bit m.variant k = bit f.variant k := by
    have : k = 0 ∨ k = 1 ∨ k = 2 ∨ k = 3 := by omega
    rcases this with rfl | rfl | rfl | rfl <;> simp [m, bit]
  have b0 := low 0 (by decide)
  have b1 := low 1 (by decide)
  have b2 := low 2 (by decide)
  have b3 := low 3 (by decide)
  refine ⟨?_, ?_, ?_, ?_, ?_, ?_, ?_⟩
  · exact fun hf hb hc => ⟨fun hs s2 o2 s3 o3 s4 o4 k2 k3 k4 => issueElem_two i hb hc hs k2 k3 hf k4,
      fun hs => issueElem_shapes (fma := false) i hf hb hc hs⟩
  · exact fun hf hb hc => ⟨fun hs s2 o2 s3 o3 s4 o4 k2 k3 k4 => issueElem_two i hb hc hs k2 k3 hf k4,
      fun hs => issueElem_shapes (fma := false) i hf hb hc hs⟩
  · intro hf hb hc
    simp only [bs, brow, cs, crow, ← b0, ← b1, ← b2, ← b3] at hb hc ⊢
    exact ⟨fun hs s2 o2 s3 o3 s4 o4 k2 k3 k4 => issueElem_two im hb hc hs k2 k3 hf k4,
      fun hs => issueElem_shapes (fma := false) im hf hb hc hs⟩
  · intro hf hb hc
    simp only [bs, brow, cs, crow, ← b0, ← b1, ← b2, ← b3] at hb hc ⊢
    exact ⟨fun hs s2 o2 s3 o3 s4 o4 k2 k3 k4 => issueElem_two im hb hc hs k2 k3 hf k4,
      fun hs => issueElem_shapes (fma := false) im hf hb hc hs⟩
  · exact fun hf hb hc => ⟨fun hs s2 o2 s3 o3 s4 o4 s5 o5 k2 k3 k4 k5 => issueElem_three i hb hc hs k2 k3 hf k4 k5,
      fun hs => issueElem_shapes (fma := true) i hf hb hc hs⟩
  · intro hb
    rw [Bool.and_eq_true] at hb
    exact ⟨refused_elem hi (.inr (.inl hb)), refused_elem hi (.inr (.inl hb))⟩
  · intro tag var j hj hf
    simp only [List.mem_cons, Prod.mk.injEq, List.not_mem_nil, or_false] at hj
    rcases hj with ⟨rfl, rfl, rfl⟩ | ⟨rfl, rfl, rfl⟩
    · exact ⟨fun hs hv s2 o2 s3 o3 k2 k3 => issueUnary_ok i hf hs hv k2 k3, fun hs => issueUnary_shapes i hf hs,
        fun hs ht hv => issueUnary_format i hf hs ht hv⟩
    · exact ⟨fun hs hv s2 o2 s3 o3 k2 k3 => issueUnary_ok i hf hs hv k2 k3, fun hs => issueUnary_shapes i hf hs,
        fun hs ht hv => issueUnary_format i hf hs ht hv⟩

end Sys2Proof.Machine

namespace Sys2Proof.Machine

/-! ## Reductions, statistics, normalisation, rotation and noise issue (R104, R105, R117, R118, R122, R292, R296) -/

section
variable {s : State} {t : Tid} {th : Thread} {f : Fields}

theorem lenOf_ok (s : State) {w : Word} (h : w.toNat + 1 ≤ 4294967296) : lenOf s w = .ok (w.toNat + 1) := by
  rw [lenOf, needF_ok _ _ _ (decide_eq_true h), ex_ok_bind]

/-- A slot that a form does not list is unused. -/
theorem formOk_four {var ext : Nat} (a b c d : SlotK) : formOk f var ext [a, b, c, d, .unused] = formOk f var ext [a, b, c, d] := rfl
theorem formOk_five {var ext : Nat} (a b c d e : SlotK) :
    formOk f var ext [a, b, c, d, e, .unused] = formOk f var ext [a, b, c, d, e] := rfl

/-- The kind of slot 1: a stream, or a VOP's register. -/
abbrev sourceKind (stream : Bool) : SlotK := if stream then .stream else .scalar

/-! ### `vred` -/

/-- A `vred` up to the check of its form. -/
structure VredIssues (s : State) (t : Tid) (th : Thread) (f : Fields) (d : Vop) (s2 : State) (o2 : EngOp) (rows len : Nat) : Prop
    extends Issues s t th where
  room : engineRoom (atIssue s t) t 2 = .ok ()
  kind : fld f.variant 2 0 < 5
  ready0 : Ready th f.sl0
  ready2 : Ready th f.sl2
  ready3 : Ready th f.sl3
  ready4 : Ready th f.sl4
  length : (reg th f.sl3.toNat).toNat + 1 ≤ 4294967296
  dest : readVop (atIssue s t) (reg th f.sl0.toNat) = .ok d
  source : takeSrc (atIssue s t) t (newOp (atIssue s t) t th .vred f) th f.sl1 (bit f.variant 5) ((reg th f.sl3.toNat).toNat + 1) =
    .ok (s2, o2, rows, len)

section
variable {d : Vop} {s2 s3 : State} {o2 o3 : EngOp} {rows len : Nat} (i : VredIssues s t th f d s2 o2 rows len)
  (h3 : dstVop s2 t o2 d = .ok (s3, o3))
include i h3

theorem execVred_rows (hform : fld f.variant 4 3 = 0) (hf : formOk f 0x3F 0 [.scalar, sourceKind (bit f.variant 5), .unused,
      if bit f.variant 5 then .scalar else .unused] = true) (hr : d.rows = rows) (hl : d.len = 1) :
    execVred t f s = .next (issueOp s3 t th o3) := by
  refine runThread_ok i.toIssues ?_
  simp only [hform]
  refine (bind_dec_ok _ _ (by simp [i.kind])).trans ((bind_dec_ok _ _ (by simpa [formOk_four] using hf)).trans ?_)
  refine (bind_of_ok i.room _).trans ((bind_src_ok _ i.ready0).trans ((bind_src_ok _ i.ready2).trans ?_))
  refine (bind_src_ok _ i.ready3).trans ((bind_src_ok _ i.ready4).trans ((bind_of_ok (lenOf_ok _ i.length) _).trans ?_))
  refine (bind_of_ok i.dest _).trans ((bind_of_ok i.source _).trans ?_)
  exact (bind_needF_ok _ _ _ (by simp [hr, hl])).trans (bind_of_ok h3 _)

theorem execVred_part (hform : fld f.variant 4 3 = 1)
    (hf : formOk f 0x3F 0 [.scalar, sourceKind (bit f.variant 5), .scalar, .scalar, .scalar] = true)
    (hp : partOk s2 (reg th f.sl2.toNat).toNat ((reg th f.sl3.toNat).toNat + 1) ((reg th f.sl4.toNat).toNat + 1) = .ok ())
    (hn : (reg th f.sl3.toNat).toNat + 1 ≤ rows * len) (hd : 8 * ceilDiv ((reg th f.sl3.toNat).toNat + 1) 65536 ≤ d.bytes) :
    execVred t f s = .next (issueOp s3 t th o3) := by
  refine runThread_ok i.toIssues ?_
  simp only [hform]
  refine (bind_dec_ok _ _ (by simp [i.kind])).trans ((bind_dec_ok _ _ (by simpa using hf)).trans ?_)
  refine (bind_of_ok i.room _).trans ((bind_src_ok _ i.ready0).trans ((bind_src_ok _ i.ready2).trans ?_))
  refine (bind_src_ok _ i.ready3).trans ((bind_src_ok _ i.ready4).trans ((bind_of_ok (lenOf_ok _ i.length) _).trans ?_))
  refine (bind_of_ok i.dest _).trans ((bind_of_ok i.source _).trans ((bind_of_ok hp _).trans ?_))
  exact (bind_needF_ok _ _ _ (by rw [decide_eq_true hn, decide_eq_true hd]; rfl)).trans (bind_of_ok h3 _)

theorem execVred_records (hform : fld f.variant 4 3 = 2) (hs : bit f.variant 5 = false)
    (hf : formOk f 0x3F 0 [.scalar, .scalar, .unused, .scalar] = true) (hr : d.rows = 1) (hl : d.len = 1)
    (hv : 8 * ceilDiv ((reg th f.sl3.toNat).toNat + 1) 65536 ≤ (vopOf (reg th f.sl1.toNat)).bytes) :
    execVred t f s = .next (issueOp s3 t th o3) := by
  refine runThread_ok i.toIssues ?_
  simp only [hform]
  refine (bind_dec_ok _ _ (by simp [i.kind, hs])).trans ((bind_dec_ok _ _ (by simpa [hs, formOk_four] using hf)).trans ?_)
  refine (bind_of_ok i.room _).trans ((bind_src_ok _ i.ready0).trans ((bind_src_ok _ i.ready2).trans ?_))
  refine (bind_src_ok _ i.ready3).trans ((bind_src_ok _ i.ready4).trans ((bind_of_ok (lenOf_ok _ i.length) _).trans ?_))
  refine (bind_of_ok i.dest _).trans ((bind_of_ok i.source _).trans ?_)
  exact (bind_needF_ok _ _ _ (by rw [decide_eq_true hv, hr, hl]; rfl)).trans (bind_of_ok h3 _)

end

/-! ### `vstat` -/

/-- A `vstat` up to the check of its form. -/
structure VstatIssues (s : State) (t : Tid) (th : Thread) (f : Fields) (s2 : State) (o2 : EngOp) (rows len : Nat) : Prop
    extends Issues s t th where
  room : engineRoom (atIssue s t) t 2 = .ok ()
  ready0 : Ready th f.sl0
  ready2 : Ready th f.sl2
  ready3 : Ready th f.sl3
  ready4 : Ready th f.sl4
  ready5 : Ready th f.sl5
  length : (reg th f.sl4.toNat).toNat + 1 ≤ 4294967296
  source : takeSrc (atIssue s t) t (newOp (atIssue s t) t th .vstat f) th f.sl1 (bit f.variant 2) ((reg th f.sl4.toNat).toNat + 1) =
    .ok (s2, o2, rows, len)

theorem recordsOk_ok (s : State) {a n : Nat} (h : a + n ≤ 0x100000) : recordsOk s a n = .ok () := needF_ok _ _ _ (decide_eq_true h)

section
variable {s2 s3 : State} {o2 o3 : EngOp} {rows len k : Nat} (i : VstatIssues s t th f s2 o2 rows len)
  (hk : (reg th f.sl0.toNat).toNat + 16 * k ≤ 0x100000)
  (h3 : claimDst s2 t o2 (reg th f.sl0.toNat).toNat (16 * k) = .ok (s3, o3))
include i hk h3

theorem execVstat_rows (hform : fld f.variant 1 0 = 0) (hf : formOk f 0xF 0 [.scalar, sourceKind (bit f.variant 2), .scalar, .unused,
      if bit f.variant 2 then .scalar else .unused] = true) {g rps : Nat}
    (hl : layoutOf s2 (reg th f.sl2.toNat) (bit f.variant 3) rows len = .ok (g, rps, k)) :
    execVstat t f s = .next (issueOp s3 t th o3) := by
  refine runThread_ok i.toIssues ?_
  simp only [hform]
  refine (bind_dec_ok _ _ (by simp)).trans ((bind_dec_ok _ _ (by simpa [formOk_five] using hf)).trans ?_)
  refine (bind_of_ok i.room _).trans ((bind_src_ok _ i.ready0).trans ((bind_src_ok _ i.ready2).trans ?_))
  refine (bind_src_ok _ i.ready3).trans ((bind_src_ok _ i.ready4).trans ((bind_src_ok _ i.ready5).trans ?_))
  refine (bind_of_ok (lenOf_ok _ i.length) _).trans ((bind_of_ok i.source _).trans ((bind_of_ok hl _).trans ?_))
  exact (bind_of_ok (recordsOk_ok _ hk) _).trans (bind_of_ok h3 _)

theorem execVstat_part (hform : fld f.variant 1 0 = 1) (hg : bit f.variant 3 = false)
    (hf : formOk f 0xF 0 [.scalar, sourceKind (bit f.variant 2), .unused, .scalar, .scalar, .scalar] = true)
    (hp : partOk s2 (reg th f.sl3.toNat).toNat ((reg th f.sl4.toNat).toNat + 1) ((reg th f.sl5.toNat).toNat + 1) = .ok ())
    (hn : (reg th f.sl4.toNat).toNat + 1 ≤ rows * len) (he : k = ceilDiv ((reg th f.sl4.toNat).toNat + 1) 65536) :
    execVstat t f s = .next (issueOp s3 t th o3) := by
  subst he
  refine runThread_ok i.toIssues ?_
  simp only [hform]
  refine (bind_dec_ok _ _ (by simp [hg])).trans ((bind_dec_ok _ _ (by simpa using hf)).trans ?_)
  refine (bind_of_ok i.room _).trans ((bind_src_ok _ i.ready0).trans ((bind_src_ok _ i.ready2).trans ?_))
  refine (bind_src_ok _ i.ready3).trans ((bind_src_ok _ i.ready4).trans ((bind_src_ok _ i.ready5).trans ?_))
  refine (bind_of_ok (lenOf_ok _ i.length) _).trans ((bind_of_ok i.source _).trans ((bind_of_ok hp _).trans ?_))
  refine (bind_needF_ok _ _ _ (decide_eq_true hn)).trans ((ex_ok_bind _ _).trans ?_)
  exact (bind_of_ok (recordsOk_ok _ hk) _).trans (bind_of_ok h3 _)

theorem execVstat_records (hform : fld f.variant 1 0 = 2) (hg : bit f.variant 3 = false) (hs : bit f.variant 2 = false)
    (hf : formOk f 0xF 0 [.scalar, .scalar, .unused, .unused, .scalar] = true)
    (hv : 16 * ceilDiv ((reg th f.sl4.toNat).toNat + 1) 65536 ≤ (vopOf (reg th f.sl1.toNat)).bytes) (he : k = 1) :
    execVstat t f s = .next (issueOp s3 t th o3) := by
  subst he
  refine runThread_ok i.toIssues ?_
  simp only [hform]
  refine (bind_dec_ok _ _ (by simp [hg, hs])).trans ((bind_dec_ok _ _ (by simpa [hs, formOk_five] using hf)).trans ?_)
  refine (bind_of_ok i.room _).trans ((bind_src_ok _ i.ready0).trans ((bind_src_ok _ i.ready2).trans ?_))
  refine (bind_src_ok _ i.ready3).trans ((bind_src_ok _ i.ready4).trans ((bind_src_ok _ i.ready5).trans ?_))
  refine (bind_of_ok (lenOf_ok _ i.length) _).trans ((bind_of_ok i.source _).trans ?_)
  refine (bind_needF_ok _ _ _ (decide_eq_true hv)).trans ((ex_ok_bind _ _).trans ?_)
  exact (bind_of_ok (recordsOk_ok _ hk) _).trans (bind_of_ok h3 _)

end

/-! ### `vnorm`, `vrot` and `vrng` -/

/-- A `vnorm` up to the claims of its operands. -/
structure VnormIssues (s : State) (t : Tid) (th : Thread) (f : Fields) (a d : Vop) (q : ℚ) (g rps k : Nat) : Prop
    extends Issues s t th where
  room : engineRoom (atIssue s t) t 2 = .ok ()
  mode : fld f.variant 1 0 < 3
  form : formOk f 0xF 0 [.scalar, .scalar, .group 2, .scalar, .scalar, .scalar] = true
  ready0 : Ready th f.sl0
  ready1 : Ready th f.sl1
  ready2 : ReadyG th f.sl2 2
  ready3 : Ready th f.sl3
  ready4 : Ready th f.sl4
  ready5 : Ready th f.sl5
  source : readVop (atIssue s t) (reg th f.sl1.toNat) = .ok a
  dest : readVop (atIssue s t) (reg th f.sl0.toNat) = .ok d
  shape : sameShape a d
  eps : scalarVal (reg th f.sl5.toNat) = .num q
  epsPos : 0 ≤ q
  layout : layoutOf (atIssue s t) (reg th (f.sl2 + 1).toNat) (fld f.variant 1 0 == 2) a.rows a.len = .ok (g, rps, k)
  inside : (reg th f.sl2.toNat).toNat + 16 * k ≤ 0x100000

theorem execVnorm_ok {a d : Vop} {q : ℚ} {g rps k : Nat} (i : VnormIssues s t th f a d q g rps k)
    {s2 s3 s4 s5 s6 : State} {o2 o3 o4 o5 o6 : EngOp}
    (h2 : srcVop (atIssue s t) t (newOp (atIssue s t) t th .vnorm f) a = .ok (s2, o2))
    (h3 : takeOpd s2 t o2 (reg th f.sl3.toNat) (!bit f.variant 2) true a.rows a.len = .ok (s3, o3))
    (h4 : takeOpd s3 t o3 (reg th f.sl4.toNat) (!bit f.variant 3) true a.rows a.len = .ok (s4, o4))
    (h5 : claimSrc s4 t o4 (reg th f.sl2.toNat).toNat (16 * k) = .ok (s5, o5)) (h6 : dstVop s5 t o5 d = .ok (s6, o6)) :
    execVnorm t f s = .next (issueOp s6 t th o6) := by
  refine runThread_ok i.toIssues ?_
  refine (bind_dec_ok _ _ (decide_eq_true i.mode)).trans ((bind_dec_ok _ _ i.form).trans ((bind_of_ok i.room _).trans ?_))
  refine (bind_src_ok _ i.ready0).trans ((bind_src_ok _ i.ready1).trans ((bind_of_ok (srcG_zero i.ready2 Nat.two_pos) _).trans ?_))
  refine (bind_of_ok (srcG_one i.ready2) _).trans ((bind_src_ok _ i.ready3).trans ((bind_src_ok _ i.ready4).trans ?_))
  refine (bind_src_ok _ i.ready5).trans ((bind_of_ok i.source _).trans ((bind_of_ok i.dest _).trans ?_))
  refine (bind_needF_ok _ _ _ (shape_ok i.shape)).trans ((bind_needF_ok _ _ _ ?_).trans ?_)
  · rw [i.eps]
    exact decide_eq_true i.epsPos
  refine (bind_of_ok i.layout _).trans ((bind_of_ok (recordsOk_ok _ i.inside) _).trans ((bind_of_ok h2 _).trans ?_))
  exact (bind_of_ok h3 _).trans ((bind_of_ok h4 _).trans ((bind_of_ok h5 _).trans (bind_of_ok h6 _)))

/-- A `vrot` whose operands are VOPs. -/
structure VrotIssues (s : State) (t : Tid) (th : Thread) (f : Fields) (d a p q : Vop) : Prop extends Issues s t th where
  room : engineRoom (atIssue s t) t 2 = .ok ()
  form : formOk f 0 0 [.scalar, .scalar, .scalar, .scalar] = true
  ready0 : Ready th f.sl0
  ready1 : Ready th f.sl1
  ready2 : Ready th f.sl2
  ready3 : Ready th f.sl3
  dest : readVop (atIssue s t) (reg th f.sl0.toNat) = .ok d
  source : readVop (atIssue s t) (reg th f.sl1.toNat) = .ok a
  places : readVop (atIssue s t) (reg th f.sl2.toNat) = .ok p
  freqs : readVop (atIssue s t) (reg th f.sl3.toNat) = .ok q

/-- The shapes that `vrot` asks for. -/
abbrev rotShapes (d a p q : Vop) : Bool :=
  d.rows == a.rows && d.len == a.len && decide (a.len % 2 = 0) && p.rows == a.rows && p.len == 1 && q.rows == 1 && 2 * q.len == a.len

theorem execVrot_checked {d a p q : Vop} (i : VrotIssues s t th f d a p q) : execVrot t f s = runThread s t fun s th =>
    needF s (rotShapes d a p q) fOperand >>= fun _ => needF s (p.fmt == 10 && q.fmt == 5) fFormat >>= fun _ =>
    srcVop s t (newOp s t th .vrot f) a >>= fun p1 => srcVop p1.1 t p1.2 p >>= fun p2 => srcVop p2.1 t p2.2 q >>= fun p3 =>
    dstVop p3.1 t p3.2 d >>= fun p4 => .ok (issueOp p4.1 t th p4.2) := by
  rw [execVrot, runThread_issues i.toIssues, runThread_issues i.toIssues]
  simp only [dec_ok _ _ i.form, i.room, src_ready i.ready0, src_ready i.ready1, src_ready i.ready2, src_ready i.ready3, i.source, i.dest,
    i.places, i.freqs, ex_ok_bind]

theorem execVrot_odd {d a p q : Vop} (i : VrotIssues s t th f d a p q) (h : a.len % 2 = 1) :
    execVrot t f s = .next (progFault (atIssue s t) t th.pc fOperand) := by
  rw [execVrot_checked i]
  exact runThread_fault i.toIssues (bind_needF_fault _ _ _ (by simp [h]))

section
variable {d a p q : Vop} (i : VrotIssues s t th f d a p q) (hs : rotShapes d a p q = true)
include i hs

theorem execVrot_format (h : (p.fmt == 10 && q.fmt == 5) = false) :
    execVrot t f s = .next (progFault (atIssue s t) t th.pc fFormat) := by
  rw [execVrot_checked i]
  exact runThread_fault i.toIssues (s' := atIssue s t) ((bind_needF_ok _ _ _ hs).trans (bind_needF_fault _ _ _ h))

theorem execVrot_ok (h : (p.fmt == 10 && q.fmt == 5) = true) {s2 s3 s4 s5 : State} {o2 o3 o4 o5 : EngOp}
    (h2 : srcVop (atIssue s t) t (newOp (atIssue s t) t th .vrot f) a = .ok (s2, o2)) (h3 : srcVop s2 t o2 p = .ok (s3, o3))
    (h4 : srcVop s3 t o3 q = .ok (s4, o4)) (h5 : dstVop s4 t o4 d = .ok (s5, o5)) : execVrot t f s = .next (issueOp s5 t th o5) := by
  rw [execVrot_checked i]
  refine runThread_ok i.toIssues ((bind_needF_ok _ _ _ hs).trans ((bind_needF_ok _ _ _ h).trans ?_))
  exact (bind_of_ok h2 _).trans ((bind_of_ok h3 _).trans ((bind_of_ok h4 _).trans (bind_of_ok h5 _)))

end

/-- A `vrng` whose destination is a VOP. -/
structure VrngIssues (s : State) (t : Tid) (th : Thread) (f : Fields) (d : Vop) : Prop extends Issues s t th where
  room : engineRoom (atIssue s t) t 2 = .ok ()
  dist : fld f.variant 1 0 < 3
  form : formOk f 3 0 [.scalar, .group 2, .group 2] = true
  ready0 : Ready th f.sl0
  ready1 : ReadyG th f.sl1 2
  ready2 : ReadyG th f.sl2 2
  dest : readVop (atIssue s t) (reg th f.sl0.toNat) = .ok d

theorem execVrng_checked {d : Vop} (i : VrngIssues s t th f d) : execVrng t f s = runThread s t fun s th =>
    needF s (fld f.variant 1 0 != 0 || d.fmt == 10) fFormat >>= fun _ =>
    dstVop s t (newOp s t th .vrng f) d >>= fun p => .ok (issueOp p.1 t th p.2) := by
  rw [execVrng, runThread_issues i.toIssues, runThread_issues i.toIssues]
  simp only [dec_ok _ _ (decide_eq_true i.dist), dec_ok _ _ i.form, i.room, src_ready i.ready0, srcG_zero i.ready1 Nat.two_pos,
    srcG_one i.ready1, srcG_zero i.ready2 Nat.two_pos, srcG_one i.ready2, List.forIn_cons, List.forIn_nil, i.dest, ex_ok_bind, pure,
    Except.pure]

theorem execVrng_format {d : Vop} (i : VrngIssues s t th f d) (h : (fld f.variant 1 0 != 0 || d.fmt == 10) = false) :
    execVrng t f s = .next (progFault (atIssue s t) t th.pc fFormat) := by
  rw [execVrng_checked i]
  exact runThread_fault i.toIssues (bind_needF_fault _ _ _ h)

theorem execVrng_ok {d : Vop} (i : VrngIssues s t th f d) (h : (fld f.variant 1 0 != 0 || d.fmt == 10) = true) {s2 : State}
    {o2 : EngOp} (h2 : dstVop (atIssue s t) t (newOp (atIssue s t) t th .vrng f) d = .ok (s2, o2)) :
    execVrng t f s = .next (issueOp s2 t th o2) := by
  rw [execVrng_checked i]
  exact runThread_ok i.toIssues ((bind_needF_ok _ _ _ h).trans (bind_of_ok h2 _))

end

/-- Settles O27: the forms of the five instructions. -/
theorem reductionIssue : Obligations.ReductionIssue := by
  unfold Obligations.ReductionIssue
  intro s t th f hi hroom s1 w kind
  refine ⟨?_, ?_, ?_, ?_, ?_, ?_⟩
  · intro hk h0 h2 h3 h4 sstr from1 n hn d s2 o2 rows len hd hs s3 o3 hv
    have i : VredIssues s t th f d s2 o2 rows len := ⟨hi, hroom, hk, h0, h2, h3, h4, hn, hd, hs⟩
    exact ⟨fun hform hf hr hl => execVred_rows i hv hform hf hr hl,
      fun hform hf hp hr hb => execVred_part i hv hform hf hp hr hb,
      fun hform hss hf hr hl hb => execVred_records i hv hform hss hf hr hl hb⟩
  · exact fun hk => refused_vred hi (.inr (.inl hk))
  · intro h0 h2 h3 h4 h5 sstr from1 n hn s2 o2 rows len hs writes
    have i : VstatIssues s t th f s2 o2 rows len := ⟨hi, hroom, h0, h2, h3, h4, h5, hn, hs⟩
    exact ⟨fun g rps k hform hf hl hk s3 o3 hc => execVstat_rows i hk hc hform hf hl,
      fun hform hg hf hp hr hk s3 o3 hc => execVstat_part i hk hc hform hg hf hp hr rfl,
      fun hform hg hss hf hv hk s3 o3 hc => execVstat_records i hk hc hform hg hss hf hv rfl⟩
  · intro hm hf h0 h1 h2 h3 h4 h5 a d q g rps k ha hd hr hl hq hq0 hlay hin s2 o2 s3 o3 s4 o4 s5 o5 s6 o6 k2 k3 k4 k5 k6
    exact execVnorm_ok ⟨hi, hroom, hm, hf, h0, h1, h2, h3, h4, h5, ha, hd, ⟨hr, hl⟩, hq, hq0, hlay, hin⟩ k2 k3 k4 k5 k6
  · intro hf h0 h1 h2 h3 d a p q hd ha hp hq
    have i : VrotIssues s t th f d a p q := ⟨hi, hroom, hf, h0, h1, h2, h3, hd, ha, hp, hq⟩
    refine ⟨fun ho => execVrot_odd i ho, fun hr hl he hpr hpl hqr hql => ?_⟩
    have hs : rotShapes d a p q = true := by simp [rotShapes, hr, hl, he, hpr, hpl, hqr, hql]
    refine ⟨fun hb => execVrot_format i hs ?_, fun hp10 hq5 s2 o2 s3 o3 s4 o4 s5 o5 k2 k3 k4 k5 =>
      execVrot_ok i hs (by rw [hp10, hq5]; rfl) k2 k3 k4 k5⟩
    rcases hb with hb | hb <;> simp [hb]
  · intro hdist hf h0 h1 h2 d hd
    have i : VrngIssues s t th f d := ⟨hi, hroom, hdist, hf, h0, h1, h2, hd⟩
    exact ⟨fun hz hb => execVrng_format i (by simp [hz, hb]), fun hz s2 o2 k2 => execVrng_ok i (by simpa using hz) k2⟩

end Sys2Proof.Machine

namespace Sys2Proof.Machine

/-! ## Epilogues issue (R114, R287, R290, R291) -/

section
variable {s : State} {t : Tid} {th : Thread} {f : Fields}

/-- A `vepi` of a legal form with room in the lanes' queue and its registers ready. -/
structure VepiIssues (s : State) (t : Tid) (th : Thread) (f : Fields) : Prop extends Issues s t th where
  room : engineRoom (atIssue s t) t 2 = .ok ()
  act : fld f.variant 2 0 < 6
  form : formOk f 0xFF 0 [if bit f.variant 4 then .unused else .scalar, if bit f.variant 3 then .unused else .scalar,
    .scalar, .scalar, .scalar] = true
  ready0 : Ready th f.sl0
  ready1 : Ready th f.sl1
  ready2 : Ready th f.sl2
  ready3 : Ready th f.sl3
  ready4 : Ready th f.sl4

/-- Where a `vepi` takes its source from: the accumulators, or its VOP. -/
def vepiSource (s : State) (t : Tid) (th : Thread) (f : Fields) : Ex (State × EngOp × Thread) :=
  if bit f.variant 3 then
    consumeAcc s th >>= fun (n, th1) => the (s.ops.find? (fun x => x.id = n)) "the producer is not in the engines" >>= fun p =>
    .ok (s, { newOp s t th .vepi f with src := some n, m := p.m, n := p.n }, th1)
  else
    readVop s (reg th f.sl1.toNat) >>= fun a => srcVop s t (newOp s t th .vepi f) a >>= fun (s1, o1) =>
    .ok (s1, { o1 with m := a.rows, n := a.len }, th)

/-- Where a `vepi` leaves its result: with a `qnt` as the producer, or in its VOP. -/
def vepiDest (s : State) (t : Tid) (th : Thread) (f : Fields) (w : Word) (m n : Nat) (o : EngOp) : Ex State :=
  if bit f.variant 4 then produceVepi s th >>= fun th2 => .ok (issueOp s t th2 o)
  else readVop s w >>= fun d => needF s (d.rows == m && d.len == n) fOperand >>= fun _ =>
    dstVop s t o d >>= fun (s5, o5) => .ok (issueOp s5 t th o5)

theorem execVepi_checked (i : VepiIssues s t th f) : execVepi t f s = runThread s t fun s th =>
    vepiSource s t th f >>= fun (s1, o1, th1) =>
    takeOpd s1 t o1 (reg th f.sl2.toNat) (!bit f.variant 7) true o1.m o1.n >>= fun (s2, o2) =>
    takeOpd s2 t o2 (reg th f.sl3.toNat) (!bit f.variant 6) true o1.m o1.n >>= fun (s3, o3) =>
    takeOpd s3 t o3 (reg th f.sl4.toNat) (!bit f.variant 5) true o1.m o1.n >>= fun (s4, o4) =>
    vepiDest s4 t th1 f (reg th f.sl0.toNat) o1.m o1.n o4 := by
  rw [execVepi, runThread_issues i.toIssues, runThread_issues i.toIssues]
  simp only [dec_ok _ _ (decide_eq_true i.act), dec_ok _ _ i.form, i.room, src_ready i.ready0, src_ready i.ready1, src_ready i.ready2,
    src_ready i.ready3, src_ready i.ready4, ex_ok_bind]
  cases h : bit f.variant 3 <;> simp only [vepiSource, vepiDest, h, Bool.false_eq_true, reduceIte, bind_assoc, ex_ok_bind]

/-! ### The source -/

theorem vepiSource_none (s : State) (t : Tid) (f : Fields) (ha : bit f.variant 3 = true) (hp : th.accProd = none) :
    vepiSource s t th f = .error (.fault s fHandoff) := by
  rw [vepiSource, if_pos ha, consumeAcc, hp]
  rfl

theorem vepiSource_acc {n : Nat} {p : EngOp} (ha : bit f.variant 3 = true) (hp : th.accProd = some n)
    (hf : s.ops.find? (fun x => x.id = n) = some p) :
    vepiSource s t th f = .ok (s, { newOp s t th .vepi f with src := some n, m := p.m, n := p.n }, { th with accProd := none }) := by
  rw [vepiSource, if_pos ha, consumeAcc, hp]
  simp only [theF_some, ex_ok_bind, hf, the_some]

theorem vepiSource_vop {a : Vop} {s1 : State} {o1 : EngOp} (ha : bit f.variant 3 = false)
    (hv : readVop s (reg th f.sl1.toNat) = .ok a) (hs : srcVop s t (newOp s t th .vepi f) a = .ok (s1, o1)) :
    vepiSource s t th f = .ok (s1, { o1 with m := a.rows, n := a.len }, th) := by
  rw [vepiSource, if_neg (by simp [ha]), bind_of_ok hv, bind_of_ok hs]

/-! ### The destination -/

theorem vepiDest_hands {w : Word} {m n : Nat} {o : EngOp} (hh : bit f.variant 4 = true) (hp : th.vepiProd = none) :
    vepiDest s t th f w m n o = .ok (issueOp s t { th with vepiProd := some s.seq } o) := by
  rw [vepiDest, if_pos hh, produceVepi, hp]
  rfl

theorem vepiDest_second {w : Word} {m n : Nat} {o : EngOp} (hh : bit f.variant 4 = true) (hp : th.vepiProd.isSome = true) :
    vepiDest s t th f w m n o = .error (.fault s fHandoff) := by
  obtain ⟨k, hk⟩ := Option.isSome_iff_exists.mp hp
  rw [vepiDest, if_pos hh, produceVepi, hk]
  rfl

theorem vepiDest_vop {w : Word} {m n : Nat} {o o5 : EngOp} {d : Vop} {s5 : State} (hh : bit f.variant 4 = false)
    (hv : readVop s w = .ok d) (hr : d.rows = m) (hl : d.len = n) (hd : dstVop s t o d = .ok (s5, o5)) :
    vepiDest s t th f w m n o = .ok (issueOp s5 t th o5) := by
  rw [vepiDest, if_neg (by simp [hh]), bind_of_ok hv, bind_needF_ok _ _ _ (by simp [hr, hl]), bind_of_ok hd]

/-! ### The instruction -/

theorem execVepi_noProducer (i : VepiIssues s t th f) (ha : bit f.variant 3 = true) (hp : th.accProd = none) :
    execVepi t f s = .next (progFault (atIssue s t) t th.pc fHandoff) := by
  rw [execVepi_checked i]
  exact runThread_fault i.toIssues (s' := atIssue s t) (by rw [vepiSource_none _ _ _ ha hp]; rfl)

section
variable {th1 : Thread} {s2 s3 s4 s5 : State} {o2 o3 o4 o5 : EngOp} (i : VepiIssues s t th f)
  (h2 : vepiSource (atIssue s t) t th f = .ok (s2, o2, th1))
  (h3 : takeOpd s2 t o2 (reg th f.sl2.toNat) (!bit f.variant 7) true o2.m o2.n = .ok (s3, o3))
  (h4 : takeOpd s3 t o3 (reg th f.sl3.toNat) (!bit f.variant 6) true o2.m o2.n = .ok (s4, o4))
  (h5 : takeOpd s4 t o4 (reg th f.sl4.toNat) (!bit f.variant 5) true o2.m o2.n = .ok (s5, o5))
include i h2 h3 h4 h5

theorem execVepi_ok {s6 : State} (h6 : vepiDest s5 t th1 f (reg th f.sl0.toNat) o2.m o2.n o5 = .ok s6) : execVepi t f s = .next s6 := by
  rw [execVepi_checked i]
  exact runThread_ok i.toIssues ((bind_of_ok h2 _).trans ((bind_of_ok h3 _).trans ((bind_of_ok h4 _).trans ((bind_of_ok h5 _).trans h6))))

theorem execVepi_fault {s6 : State} {k : PFault} (h6 : vepiDest s5 t th1 f (reg th f.sl0.toNat) o2.m o2.n o5 = .error (.fault s6 k)) :
    execVepi t f s = .next (progFault s6 t th.pc k) := by
  rw [execVepi_checked i]
  exact runThread_fault i.toIssues
    ((bind_of_ok h2 _).trans ((bind_of_ok h3 _).trans ((bind_of_ok h4 _).trans ((bind_of_ok h5 _).trans h6))))

end
end

/-- Settles O28: the source, the three operands and the destination, in the order in which they are claimed. -/
theorem epilogueIssue : Obligations.EpilogueIssue := by
  unfold Obligations.EpilogueIssue
  intro s t th f hi hroom s1 w acc hands o0 hact hform h0 h1 h2 h3 h4
  have i : VepiIssues s t th f := ⟨hi, hroom, hact, hform, h0, h1, h2, h3, h4⟩
  refine ⟨fun ha hp => execVepi_noProducer i ha hp, ?_⟩
  intro s2 o2 th1 hsrc s3 o3 s4 o4 s5 o5 k3 k4 k5
  have k2 : vepiSource s1 t th f = .ok (s2, o2, th1) ∧ th1.vepiProd = th.vepiProd := by
    rcases hsrc with ⟨ha, n, p, hn, hp, rfl, rfl, rfl⟩ | ⟨ha, a, o1, hv, hs, rfl, rfl⟩
    · exact ⟨vepiSource_acc ha hn hp, rfl⟩
    · exact ⟨vepiSource_vop ha hv hs, rfl⟩
  obtain ⟨k2, hprod⟩ := k2
  refine ⟨fun hh hp hseq => ?_, fun hh hp => ⟨s5, ?_⟩, fun hh d hv hr hl s6 o6 hd => ?_⟩
  · rw [← hseq]
    exact execVepi_ok i k2 k3 k4 k5 (vepiDest_hands hh (hprod.trans hp))
  · exact execVepi_fault i k2 k3 k4 k5 (vepiDest_second hh (by rw [hprod]; exact hp))
  · exact execVepi_ok i k2 k3 k4 k5 (vepiDest_vop hh hv hr hl hd)

end Sys2Proof.Machine

namespace Sys2Proof.Machine

/-! ## Matrix multiplications issue (R75-R78, R92-R96, R283-R287) -/

section
variable {s : State} {t : Tid} {th : Thread} {f : Fields}

/-- The binding of an `mma`. -/
abbrev mmaBinding (th : Thread) (f : Fields) : Binding := bindingOf f.sl5 (reg th f.sl5.toNat)

/-- An `mma` of a legal form, up to its operands' handles. -/
structure MmaForm (s : State) (t : Tid) (th : Thread) (f : Fields) (ah bh : Handle) : Prop extends Issues s t th where
  room : engineRoom (atIssue s t) t 0 = .ok ()
  pair : fld f.variant 2 0 < 7
  zp : bit f.variant 3 = true → fld f.variant 2 0 = 1 ∨ fld f.variant 2 0 = 5
  form : formOk f 0x1F 0 [.handle, .handle, if bit f.variant 4 then .scalar else .handle, .scalar, .scalar, .scalar] = true
  ready3 : Ready th f.sl3
  ready4 : Ready th f.sl4
  ready5 : Ready th f.sl5
  slot : f.sl5 = 0 ∨ fld (reg th f.sl5.toNat) 2 0 = 0
  hands : ¬ ((mmaBinding th f).hand = true ∧ 2 ≤ (mmaBinding th f).img)
  aHandle : getH (atIssue s t) t.ctx f.sl0.toNat = .ok ah
  bHandle : getH (atIssue s t) t.ctx f.sl1.toNat = .ok bh

theorem MmaForm.zpOk {ah bh : Handle} (i : MmaForm s t th f ah bh) :
    (decide (fld f.variant 2 0 < 7) && (!bit f.variant 3 || fld f.variant 2 0 == 1 || fld f.variant 2 0 == 5)) = true := by
  have h := i.zp
  cases hb : bit f.variant 3 <;> simp_all [i.pair]

theorem MmaForm.slotOk {ah bh : Handle} (i : MmaForm s t th f ah bh) :
    ((f.sl5 == 0 || fld (reg th f.sl5.toNat) 2 0 == 0) && !((mmaBinding th f).hand && decide (2 ≤ (mmaBinding th f).img))) = true := by
  have h := i.slot
  have h2 := i.hands
  simp only [Bool.and_eq_true, Bool.or_eq_true, beq_iff_eq, Bool.not_eq_true', Bool.and_eq_false_iff, decide_eq_false_iff_not]
  exact ⟨h, by simpa [Classical.or_iff_not_imp_left] using h2⟩

theorem pairOk {p x y : Nat} (hx : x = (pairFmts p).1) (hy : y = (pairFmts p).2) :
    (x == (pairFmts p).1 && y == (pairFmts p).2) = true := by simp [← hx, ← hy]

theorem pairBad {p x y : Nat} (h : x ≠ (pairFmts p).1 ∨ y ≠ (pairFmts p).2) :
    (x == (pairFmts p).1 && y == (pairFmts p).2) = false := by
  generalize (pairFmts p).1 = u at h ⊢
  generalize (pairFmts p).2 = v at h ⊢
  rcases h with h | h <;> simp [h]

theorem execMma_format {ah bh : Handle} (i : MmaForm s t th f ah bh)
    (h : ah.fmt ≠ (pairFmts (fld f.variant 2 0)).1 ∨ bh.fmt ≠ (pairFmts (fld f.variant 2 0)).2) :
    execMma t f s = .next (progFault (atIssue s t) t th.pc fFormat) := by
  refine runThread_fault i.toIssues (s' := atIssue s t) ?_
  refine (bind_dec_ok _ _ i.zpOk).trans ((bind_dec_ok _ _ i.form).trans ((bind_of_ok i.room _).trans ?_))
  refine (bind_src_ok _ i.ready3).trans ((bind_src_ok _ i.ready4).trans ((bind_src_ok _ i.ready5).trans ?_))
  refine (bind_needF_ok _ _ _ i.slotOk).trans ((bind_of_ok i.aHandle _).trans ((bind_of_ok i.bHandle _).trans ?_))
  exact bind_needF_fault _ _ _ (pairBad h)

theorem execMma_slub {ah bh : Handle} (i : MmaForm s t th f ah bh) (ha : ah.fmt = (pairFmts (fld f.variant 2 0)).1)
    (hb : bh.fmt = (pairFmts (fld f.variant 2 0)).2) (hs : ah.slv = true) (h1 : fld f.variant 2 0 ≠ 1) (h5 : fld f.variant 2 0 ≠ 5) :
    execMma t f s = .next (progFault (atIssue s t) t th.pc fDecode) := by
  refine runThread_fault i.toIssues (s' := atIssue s t) ?_
  refine (bind_dec_ok _ _ i.zpOk).trans ((bind_dec_ok _ _ i.form).trans ((bind_of_ok i.room _).trans ?_))
  refine (bind_src_ok _ i.ready3).trans ((bind_src_ok _ i.ready4).trans ((bind_src_ok _ i.ready5).trans ?_))
  refine (bind_needF_ok _ _ _ i.slotOk).trans ((bind_of_ok i.aHandle _).trans ((bind_of_ok i.bHandle _).trans ?_))
  refine (bind_needF_ok _ _ _ (pairOk ha hb)).trans (bind_needF_fault _ _ _ (by simp [hs, h1, h5]))

/-- The handle that an `mma` writes to, where it hands nothing off. -/
def mmaDest (s : State) (t : Tid) (th : Thread) (f : Fields) : Ex (Option Handle) :=
  if (mmaBinding th f).hand then .ok none else do
    let i ← dIndex s th f
    let h ← getH s t.ctx i
    needF s (h.fmt == 4 || h.fmt == 5) fFormat
    .ok (some h)

/-- The problem of an `mma`: the state that has read it, K and N. -/
def mmaProblem (s : State) (b0 : Stream) (b : Binding) (bh : Handle) : Ex (State × Nat × Nat) :=
  if b0.kind == .gather then gatherProblem s b0 b bh else .ok (s, bh.rows, bh.cols)

/-- A choice between two computations that a continuation joins. -/
theorem ite_bind_of_ok {α β : Type} {c : Prop} [Decidable c] {x y : Ex α} {a : α} (h : (if c then x else y) = .ok a)
    (k : α → Ex β) : (if c then x >>= k else y >>= k) = k a := by
  split <;> rename_i hc <;> simp only [hc, if_true, if_false] at h <;> exact bind_of_ok h k

/-- A guarded check that a continuation joins. -/
theorem when_bind_of_ok {β : Type} {c : Prop} [Decidable c] {x : Ex Unit} (h : c → x = .ok ()) (k : Unit → Ex β) :
    (if c then x >>= k else k ()) = k () := by
  split
  · exact bind_of_ok (h ‹_›) k
  · rfl

theorem mmaDest_bind {dh : Option Handle} (h : mmaDest s t th f = .ok dh) {β : Type} (k : Option Handle → Ex β) :
    (if (mmaBinding th f).hand = true then Except.ok none >>= k
      else dIndex s th f >>= fun i => getH s t.ctx i >>= fun h => needF s (h.fmt == 4 || h.fmt == 5) fFormat >>= fun _ =>
        Except.ok (some h) >>= k) = k dh := by
  have e := bind_of_ok h k
  rw [mmaDest] at e
  split <;> rename_i hc <;> simpa only [hc, if_true, if_false, Bool.false_eq_true, bind_assoc] using e

/-- An `mma` of legal formats whose problem is read and of legal dimensions. -/
structure MmaProblem (s : State) (t : Tid) (th : Thread) (f : Fields) (ah bh : Handle) (dh : Option Handle) (b0 : Stream) (s' : State)
    (kk n : Nat) : Prop extends MmaForm s t th f ah bh where
  aFormat : ah.fmt = (pairFmts (fld f.variant 2 0)).1
  bFormat : bh.fmt = (pairFmts (fld f.variant 2 0)).2
  slub : ah.slv = true → fld f.variant 2 0 = 1 ∨ fld f.variant 2 0 = 5
  dest : mmaDest (atIssue s t) t th f = .ok dh
  bStream : needStream (atIssue s t) t (mmaBinding th f).bstr = .ok b0
  problem : mmaProblem (atIssue s t) b0 (mmaBinding th f) bh = .ok (s', kk, n)
  aDims : ah.rows ≤ 16777216 ∧ ah.cols ≤ 16777216
  bDims : kk ≤ 16777216 ∧ n ≤ 16777216
  dDims : ∀ d ∈ dh, d.rows ≤ 16777216 ∧ d.cols ≤ 16777216
  kf16 : fld f.variant 2 0 = 6 → kk ≤ 4194304

section
variable {ah bh : Handle} {dh : Option Handle} {b0 : Stream} {s' : State} {kk n : Nat}
  (i : MmaProblem s t th f ah bh dh b0 s' kk n)
include i

theorem MmaProblem.slubOk : (!(ah.slv && fld f.variant 2 0 != 1 && fld f.variant 2 0 != 5)) = true := by
  have h := i.slub
  cases hs : ah.slv <;> simp_all

theorem MmaProblem.destDims : dh.toList.forM (fun d =>
    needF s' (decide (d.rows ≤ 16777216) && decide (d.cols ≤ 16777216)) (fHandle d.idx)) = .ok () := by
  have h := i.dDims
  cases dh with
  | none => rfl
  | some d => exact bind_needF_ok _ _ _ (by simp [h d rfl])

theorem MmaProblem.kf16Ok : (!(fld f.variant 2 0 == 6 && decide (4194304 < kk))) = true := by
  have h := i.kf16
  simp only [Bool.not_eq_true', Bool.and_eq_false_iff, beq_eq_false_iff_ne, decide_eq_false_iff_not]
  exact Classical.or_iff_not_imp_left.mpr fun hp => Nat.not_lt.mpr (h (not_not.mp hp))

end

theorem execMma_operand {ah bh : Handle} {dh : Option Handle} {b0 : Stream} {s' : State} {kk n : Nat}
    (i : MmaProblem s t th f ah bh dh b0 s' kk n) (h : ah.cols ≠ kk ∨ (b0.kind = .gather ∧ 256 < ah.rows)) :
    execMma t f s = .next (progFault s' t th.pc fOperand) := by
  refine runThread_fault i.toIssues (s' := s') ?_
  refine (bind_dec_ok _ _ i.zpOk).trans ((bind_dec_ok _ _ i.form).trans ((bind_of_ok i.room _).trans ?_))
  refine (bind_src_ok _ i.ready3).trans ((bind_src_ok _ i.ready4).trans ((bind_src_ok _ i.ready5).trans ?_))
  refine (bind_needF_ok _ _ _ i.slotOk).trans ((bind_of_ok i.aHandle _).trans ((bind_of_ok i.bHandle _).trans ?_))
  refine (bind_needF_ok _ _ _ (pairOk i.aFormat i.bFormat)).trans ((bind_needF_ok _ _ _ i.slubOk).trans ?_)
  refine (mmaDest_bind i.dest _).trans ((bind_of_ok i.bStream _).trans ((ite_bind_of_ok i.problem _).trans ?_))
  refine (bind_needF_ok _ _ _ (by simp only [i.aDims, decide_true, Bool.and_self])).trans ?_
  refine (bind_needF_ok _ _ _ (by simp only [i.bDims, decide_true, Bool.and_self])).trans ?_
  refine (bind_of_ok i.destDims _).trans ((bind_needF_ok _ _ _ i.kf16Ok).trans ?_)
  exact bind_needF_fault _ _ _ (by rcases h with h | ⟨h, h'⟩ <;> simp_all)

/-- The level-2 descriptor of an `mma`, and the level-1 descriptor. -/
abbrev mmaD2 (th : Thread) (f : Fields) (m n kk : Nat) : Desc :=
  descOf (reg th f.sl3.toNat) (ceilDiv m 256) (ceilDiv n 256) (ceilDiv kk 256)
abbrev mmaD1 (th : Thread) (f : Fields) (m n kk : Nat) : Desc :=
  descOf (reg th f.sl4.toNat) (ceilDiv m 256) (ceilDiv n 256) (ceilDiv kk 256)

/-- Whether an `mma` spills its accumulators. -/
abbrev mmaSpills (th : Thread) (f : Fields) (m n kk : Nat) : Bool :=
  spills (level1 (mmaD2 th f m n kk) (mmaD1 th f m n kk) (ceilDiv m 256) (ceilDiv n 256) (ceilDiv kk 256)) (ceilDiv kk 256)

/-- The handles that an `mma`'s spilled accumulators are written to. -/
abbrev mmaImages (th : Thread) (f : Fields) (m n kk : Nat) (im : Option Handle) : List Nat :=
  if mmaSpills th f m n kk || decide (2 ≤ (mmaBinding th f).img) then im.toList.map (·.idx) else []

/-- An `mma` whose shapes, descriptors, operand streams and image are legal. -/
structure MmaLegal (s : State) (t : Tid) (th : Thread) (f : Fields) (ah bh : Handle) (dh : Option Handle) (b0 : Stream) (s' : State)
    (kk n : Nat) (ax bx : Stream) (ak bk tk sl im : Option Handle) : Prop extends MmaProblem s t th f ah bh dh b0 s' kk n where
  inner : ah.cols = kk
  gather : b0.kind = .gather → ah.rows ≤ 256
  outer : ∀ d ∈ dh, d.rows = ah.rows ∧ d.cols = n
  reserved2 : fld (reg th f.sl3.toNat) 63 51 = 0
  reserved1 : fld (reg th f.sl4.toNat) 63 51 = 0
  order2 : fld (reg th f.sl3.toNat) 50 48 < 6
  order1 : fld (reg th f.sl4.toNat) 50 48 < 6
  blockM : (mmaD1 th f ah.rows n kk).m ≤ (mmaD2 th f ah.rows n kk).m
  blockN : (mmaD1 th f ah.rows n kk).n ≤ (mmaD2 th f ah.rows n kk).n
  blockK : (mmaD1 th f ah.rows n kk).k ≤ (mmaD2 th f ah.rows n kk).k
  accs : (mmaD1 th f ah.rows n kk).m * (mmaD1 th f ah.rows n kk).n ≤ 2
  aStream : operandStream s' t (mmaBinding th f).astr (pairFmts (fld f.variant 2 0)).1
    ((mmaD2 th f ah.rows n kk).m * (mmaD2 th f ah.rows n kk).k) false = .ok ax
  bStream' : operandStream s' t (mmaBinding th f).bstr (pairFmts (fld f.variant 2 0)).2
    ((mmaD2 th f ah.rows n kk).n * (mmaD2 th f ah.rows n kk).k) true = .ok bx
  aScale : (if ax.walk == .localS then .ok none else operandScale s' t.ctx ah false) = .ok ak
  bScale : (if bx.walk == .localS || bx.kind == .gather then .ok none else operandScale s' t.ctx bh true) = .ok bk
  table : (if (pairFmts (fld f.variant 2 0)).2 = 1 then operandScale s' t.ctx bh true else .ok none) = .ok tk
  records : (if ah.slv && fld f.variant 2 0 == 1 then (getSlub s' t.ctx ah).map some else .ok none) = .ok sl
  spilled : mmaSpills th f ah.rows n kk = true → (mmaBinding th f).img ≠ 0
  filler : (getC s' t.ctx).filler = true → mmaSpills th f ah.rows n kk = false ∧ (mmaBinding th f).img = 0
  image : imageOf s' t (mmaBinding th f) ah.rows n
    (operandRanges s' t.ctx bx (mmaBinding th f) ah bh dh.toList n (bit f.variant 3)) = .ok im
  aBound : boundOk s' t ax (ah :: (ak.toList ++ sl.toList)) = .ok ()
  bBound : boundOk s' t bx (bh :: bk.toList) = .ok ()
  writable : ∀ h ∈ mmaImages th f ah.rows n kk im, passedDecl s' t.ctx h = false

/-- What is read where a flag asks for it, before what a continuation does with it. -/
theorem some_bind {α β : Type} {b : Bool} {x : Ex α} {r : Option α} (h : (if b then x.map some else .ok none) = .ok r)
    (k : Option α → Ex β) : (if b = true then x >>= fun a => Except.ok (some a) >>= k else Except.ok none >>= k) = k r := by
  cases b with
  | false => simp only [Bool.false_eq_true, if_false] at h ⊢; exact bind_of_ok h k
  | true =>
    simp only [if_true] at h ⊢
    cases x with
    | error e => cases h
    | ok a => cases h; rfl

/-- The computation ends well, with a result of this kind. -/
def Yields {α : Type} (P : α → Prop) (x : Ex α) : Prop := ∃ a, x = .ok a ∧ P a

theorem Yields.of_eq {α : Type} {P : α → Prop} {x y : Ex α} (h : x = y) (hy : Yields P y) : Yields P x := h ▸ hy

/-- The engines' queue, the memories and the count of issued instructions are as they were. -/
structure SameQueue (s s' : State) : Prop where
  ops : s'.ops = s.ops
  mem : s'.mem = s.mem
  scratch : s'.scratch = s.scratch
  bobbin : s'.bobbin = s.bobbin
  seq : s'.seq = s.seq

theorem SameQueue.refl (s : State) : SameQueue s s := ⟨rfl, rfl, rfl, rfl, rfl⟩

theorem SameQueue.trans {s s1 s2 : State} (h1 : SameQueue s s1) (h2 : SameQueue s1 s2) : SameQueue s s2 :=
  ⟨h2.ops.trans h1.ops, h2.mem.trans h1.mem, h2.scratch.trans h1.scratch, h2.bobbin.trans h1.bobbin, h2.seq.trans h1.seq⟩

theorem setStream_sameQueue (s : State) (x : Stream) : SameQueue s (setStream s x) := ⟨rfl, rfl, rfl, rfl, rfl⟩
theorem noteHandleWrite_sameQueue (s : State) (t : Tid) (h : Nat) : SameQueue s (noteHandleWrite s t h) := ⟨rfl, rfl, rfl, rfl, rfl⟩
theorem noteLocalUse_sameQueue (s : State) (t : Tid) (x : Stream) : SameQueue s (noteLocalUse s t x) := ⟨rfl, rfl, rfl, rfl, rfl⟩

theorem foldl_noteHandleWrite_sameQueue (s : State) (t : Tid) (hs : List Nat) :
    SameQueue s (hs.foldl (fun s h => noteHandleWrite s t h) s) := by
  induction hs generalizing s with
  | nil => exact .refl s
  | cons h hs ih => exact (noteHandleWrite_sameQueue s t h).trans (ih _)

theorem SameQueue.ite {s s1 : State} (c : Prop) [Decidable c] (h : SameQueue s s1) : SameQueue s (if c then s1 else s) := by
  split
  · exact h
  · exact .refl s

/-- The state in which an `mma`'s operands are bound to their streams. -/
def mmaBound (s' : State) (t : Tid) (th : Thread) (f : Fields) (ah bh : Handle) (kk n : Nat) (ax bx : Stream)
    (ak bk sl im : Option Handle) : State :=
  let b := mmaBinding th f
  let l2 := level2 (mmaD2 th f ah.rows n kk) (ceilDiv ah.rows 256) (ceilDiv n 256) (ceilDiv kk 256)
  let keep := if b.keepa then (match l2.getLast? with
    | some k => (aTiles k).length
    | none => 0) else 0
  let sa := (mmaImages th f ah.rows n kk im).foldl (fun s h => noteHandleWrite s t h) s'
  let sb := if ax.walk == .localS then noteLocalUse sa t ax else sa
  let sc := if bx.walk == .localS then noteLocalUse sb t bx else sb
  let s2 := setStream sc (bindOperand ax s'.seq ah ak sl false (l2.flatMap aTiles) keep)
  match stream? s2 t b.bstr with
  | some y => if y.kind == .gather then s2 else setStream s2 (bindOperand y s'.seq bh bk none true (l2.flatMap bTiles) 0)
  | none => s2

theorem mmaBound_sameQueue (s' : State) (t : Tid) (th : Thread) (f : Fields) (ah bh : Handle) (kk n : Nat) (ax bx : Stream)
    (ak bk sl im : Option Handle) : SameQueue s' (mmaBound s' t th f ah bh kk n ax bx ak bk sl im) := by
  have h1 := foldl_noteHandleWrite_sameQueue s' t (mmaImages th f ah.rows n kk im)
  have h2 := h1.trans (.ite (ax.walk == .localS) (noteLocalUse_sameQueue _ t ax))
  have h3 (y : Stream) := (h2.trans (.ite (bx.walk == .localS) (noteLocalUse_sameQueue _ t bx))).trans (setStream_sameQueue _ y)
  simp only [mmaBound]
  split
  · split
    · exact h3 _
    · exact (h3 _).trans (setStream_sameQueue _ _)
  · exact h3 _

/-- A stream that an `mma` can fill with its destination: an open store stream of the format, or a local stream. -/
def Fillable (s : State) (c : Nat) (d : Handle) (x : Stream) : Prop :=
  (x.walk = .driven ∧ x.kind = .store ∧ x.fmt.toNat = d.fmt ∧ passedDecl s c d.idx = false) ∨ x.walk = .localS

theorem mmaFills_walk {c : Nat} {d : Handle} {x : Stream} (h : Fillable s c d x) :
    ((x.walk == .driven && x.kind == .store) || x.walk == .localS) = true := by
  rcases h with ⟨h1, h2, -, -⟩ | h <;> simp [*]

theorem mmaFills_fmt {c : Nat} {d : Handle} {x : Stream} (h : Fillable s c d x) :
    (x.walk == .localS || x.fmt.toNat == d.fmt) = true := by
  rcases h with ⟨-, -, h3, -⟩ | h <;> simp [*]

theorem mmaFills_writable {c : Nat} {d : Handle} {x : Stream} (h : Fillable s c d x) (hw : (x.walk == .driven) = true) :
    mayWrite s c d.idx = .ok () := by
  rcases h with ⟨-, -, -, h4⟩ | h
  · exact needF_ok _ _ _ (by simp [h4])
  · simp [h] at hw

/-- The stream that an `mma` fills takes its destination. -/
def mmaFills (s3 : State) (t : Tid) (b : Binding) (d : Handle) : Prop :=
  ∃ x, needStream s3 t b.dstr = .ok x ∧ Fillable s3 t.ctx d x ∧
    footprint d.fmt ≤ x.size ∧ boundOk s3 t x [d] = .ok ()

/-- The instruction that an `mma` puts into the array, and the state that it leaves. -/
structure MmaEnters (s' : State) (t : Tid) (th : Thread) (f : Fields) (hs : List Handle) (ah : Handle) (n : Nat) (ax : Stream)
    (writes : List Nat) (s4 : State) (o : EngOp) : Prop where
  id : o.id = s'.seq
  t : o.t = t
  tag : o.tag = .mma
  f : o.f = f
  s : o.s = th.s
  m : o.m = ah.rows
  n : o.n = n
  hs : o.hs = hs
  aBase : o.aBase = ax.cons
  out : o.out = []
  prog : o.prog = 0
  writes : o.writes = writes
  queue : SameQueue s' s4

theorem yields_next {P : State → Prop} {body : State → Thread → Ex State} (h : Issues s t th)
    (hy : Yields P (body (atIssue s t) th)) :
    ∃ s2, runThread s t body = .next s2 ∧ P s2 := by
  obtain ⟨a, ha, hp⟩ := hy
  exact ⟨a, runThread_ok h ha, hp⟩

theorem produceAcc_ok (s : State) (hp : th.accProd = none) : produceAcc s th = .ok { th with accProd := some s.seq } := by
  rw [produceAcc, hp]
  rfl

/-- The thread behind an `mma`, which is the producer of its hand-off. -/
theorem mmaThread_ok {s' s3 : State} (hacc : (mmaBinding th f).hand = true → th.accProd = none) (hq : s3.seq = s'.seq) :
    (if (mmaBinding th f).hand = true then produceAcc s3 th else .ok th) =
    .ok (if (mmaBinding th f).hand then { th with accProd := some s'.seq } else th) := by
  split
  · rw [produceAcc_ok s3 (hacc ‹_›), hq]
  · rfl

section
variable {ah bh : Handle} {dh : Option Handle} {b0 : Stream} {s' : State} {kk n : Nat} {ax bx : Stream} {ak bk tk sl im : Option Handle}
  (i : MmaLegal s t th f ah bh dh b0 s' kk n ax bx ak bk tk sl im)
  (hd : ∀ d ∈ dh, (mmaBinding th f).hand = false → (mmaBinding th f).img < 2 →
    mmaFills (mmaBound s' t th f ah bh kk n ax bx ak bk sl im) t (mmaBinding th f) d)
  (hacc : (mmaBinding th f).hand = true → th.accProd = none)
include i

theorem MmaLegal.innerOk : (ah.cols == kk && (b0.kind != .gather || decide (ah.rows ≤ 256))) = true := by
  have h := i.gather
  simp only [i.inner, beq_self_eq_true, Bool.true_and, Bool.or_eq_true, bne_iff_ne, ne_eq, decide_eq_true_eq]
  exact Classical.or_iff_not_imp_left.mpr fun hg => h (not_not.mp hg)

theorem MmaLegal.outerOk : dh.all (fun d => d.rows == ah.rows && d.cols == n) = true := by
  have h := i.outer
  cases dh with
  | none => rfl
  | some d => simpa using h d rfl

theorem MmaLegal.descriptorsOk : (fld (reg th f.sl3.toNat) 63 51 == 0 && fld (reg th f.sl4.toNat) 63 51 == 0 &&
    decide (fld (reg th f.sl3.toNat) 50 48 < 6) && decide (fld (reg th f.sl4.toNat) 50 48 < 6)) = true := by
  simp only [i.reserved1, i.reserved2, i.order1, i.order2, beq_self_eq_true, decide_true, Bool.and_self]

theorem MmaLegal.spillOk : (!(mmaSpills th f ah.rows n kk && (mmaBinding th f).img == 0)) = true := by
  have h := i.spilled
  cases hs : mmaSpills th f ah.rows n kk
  · rfl
  · simpa using h hs

theorem MmaLegal.fillerOk :
    (!((getC s' t.ctx).filler && (mmaSpills th f ah.rows n kk || (mmaBinding th f).img != 0))) = true := by
  have h := i.filler
  cases hf : (getC s' t.ctx).filler
  · rfl
  · simp [h hf]

theorem MmaLegal.imagesOk (h : (mmaSpills th f ah.rows n kk || decide (2 ≤ (mmaBinding th f).img)) = true) :
    im.toList.forM (fun h => mayWrite s' t.ctx h.idx) = .ok () := by
  have hw := i.writable
  rw [mmaImages, if_pos h] at hw
  cases im with
  | none => rfl
  | some x => exact bind_needF_ok _ _ _ (by simp [hw x.idx (List.mem_singleton.mpr rfl)])

include hd hacc

theorem execMma_ok : ∃ s2, execMma t f s = .next s2 ∧ ∃ s4 o,
    s2 = issueOp s4 t (if (mmaBinding th f).hand then { th with accProd := some s'.seq } else th) o ∧
    MmaEnters s' t th f ([ah, bh] ++ dh.toList ++ ak.toList ++ bk.toList ++ sl.toList ++ tk.toList ++ im.toList) ah n ax
      (mmaImages th f ah.rows n kk im) s4 o := by
  refine yields_next i.toIssues ?_
  refine .of_eq ((bind_dec_ok _ _ i.zpOk).trans ((bind_dec_ok _ _ i.form).trans ((bind_of_ok i.room _)))) ?_
  refine .of_eq ((bind_src_ok _ i.ready3).trans ((bind_src_ok _ i.ready4).trans ((bind_src_ok _ i.ready5)))) ?_
  refine .of_eq ((bind_needF_ok _ _ _ i.slotOk).trans ((bind_of_ok i.aHandle _).trans ((bind_of_ok i.bHandle _)))) ?_
  refine .of_eq ((bind_needF_ok _ _ _ (pairOk i.aFormat i.bFormat)).trans ((bind_needF_ok _ _ _ i.slubOk))) ?_
  refine .of_eq ((mmaDest_bind i.dest _).trans ((bind_of_ok i.bStream _).trans ((ite_bind_of_ok i.problem _)))) ?_
  refine .of_eq ((bind_needF_ok _ _ _ (by simp only [i.aDims, decide_true, Bool.and_self]))) ?_
  refine .of_eq ((bind_needF_ok _ _ _ (by simp only [i.bDims, decide_true, Bool.and_self]))) ?_
  refine .of_eq ((bind_of_ok i.destDims _).trans ((bind_needF_ok _ _ _ i.kf16Ok))) ?_
  refine .of_eq ((bind_needF_ok _ _ _ i.innerOk).trans ((bind_needF_ok _ _ _ i.outerOk))) ?_
  refine .of_eq ((bind_needF_ok _ _ _ i.descriptorsOk)) ?_
  refine .of_eq ((bind_needF_ok _ _ _ (by simp only [i.blockM, i.blockN, i.blockK, i.accs, decide_true, Bool.and_self]))) ?_
  refine .of_eq ((bind_of_ok i.aStream _).trans ((bind_of_ok i.bStream' _).trans ((ite_bind_of_ok i.aScale _)))) ?_
  refine .of_eq ((ite_bind_of_ok i.bScale _).trans ((ite_bind_of_ok i.table _).trans ((some_bind i.records _)))) ?_
  refine .of_eq ((bind_needF_ok _ _ _ i.spillOk).trans ((bind_needF_ok _ _ _ i.fillerOk).trans ((bind_of_ok i.image _)))) ?_
  refine .of_eq ((bind_of_ok i.aBound _).trans ((bind_of_ok i.bBound _).trans (when_bind_of_ok i.imagesOk _))) ?_
  have hq := mmaBound_sameQueue s' t th f ah bh kk n ax bx ak bk sl im
  generalize hT : (!(bindingOf f.sl5 (reg th f.sl5.toNat)).hand && decide ((bindingOf f.sl5 (reg th f.sl5.toNat)).img < 2)) = toD
  cases dh with
  | none =>
    refine .of_eq ((ex_ok_bind _ _).trans (ite_bind_of_ok (mmaThread_ok hacc hq.seq) _)) ?_
    exact ⟨_, rfl, _, _, rfl, rfl, rfl, rfl, rfl, rfl, rfl, rfl, rfl, rfl, rfl, rfl, rfl, hq⟩
  | some d =>
    cases toD with
    | false =>
      refine .of_eq ((ex_ok_bind _ _).trans (ite_bind_of_ok (mmaThread_ok hacc hq.seq) _)) ?_
      exact ⟨_, rfl, _, _, rfl, rfl, rfl, rfl, rfl, rfl, rfl, rfl, rfl, rfl, rfl, rfl, rfl, hq⟩
    | true =>
      simp only [Bool.and_eq_true, Bool.not_eq_true', decide_eq_true_eq] at hT
      obtain ⟨x, hx, hw, hsize, hb⟩ := hd d rfl hT.1 hT.2
      refine .of_eq ((bind_of_ok hx _).trans ((bind_needF_ok _ _ _ (mmaFills_walk hw)).trans (bind_needF_ok _ _ _ (mmaFills_fmt hw)))) ?_
      refine .of_eq ((bind_needF_ok _ _ _ (decide_eq_true hsize)).trans (when_bind_of_ok (mmaFills_writable hw) _)) ?_
      have hq2 (y : Stream) := (hq.trans (.ite (x.walk == .driven) (noteHandleWrite_sameQueue _ t d.idx))).trans (setStream_sameQueue _ y)
      refine .of_eq ((bind_of_ok hb _).trans ((ex_ok_bind _ _).trans (ite_bind_of_ok (mmaThread_ok hacc (hq2 _).seq) _))) ?_
      exact ⟨_, rfl, _, _, rfl, rfl, rfl, rfl, rfl, rfl, rfl, rfl, rfl, rfl, rfl, rfl, rfl, hq2 _⟩

end
end

/-- Settles O29: the checks in their order, then the streams bound and the destination filled. -/
theorem matrixIssue : Obligations.MatrixIssue := by
  unfold Obligations.MatrixIssue
  intro s t th f hi hroom s1 c pair w2 w1 wb b fa fb hpair hzp hform h3 h4 h5 hslot hhand ah bh ha hb
  have i : MmaForm s t th f ah bh := ⟨hi, hroom, hpair, hzp, hform, h3, h4, h5, hslot, hhand, ha, hb⟩
  refine ⟨fun h => execMma_format i h, fun hfa hfb hs h1 h5 => execMma_slub i hfa hfb hs h1 h5, ?_⟩
  intro hfa hfb hslub dh b0 s' kk n ax bx ak bk tk sl im hd0 hd1 hb0 hprob m mt nt kt d2 d1 hm hac hkk hn hdims hkf
  have hdest : mmaDest s1 t th f = .ok dh := by
    rw [mmaDest]
    split
    · rw [hd0 ‹_›]
    · rename_i hh
      obtain ⟨j, d, hj, hg, hfmt, rfl⟩ := hd1 (by simpa using hh)
      exact (bind_of_ok hj _).trans ((bind_of_ok hg _).trans (bind_needF_ok _ _ _ (by rcases hfmt with h | h <;> simp [h])))
  have p : MmaProblem s t th f ah bh dh b0 s' kk n := ⟨i, hfa, hfb, hslub, hdest, hb0, hprob, ⟨hm, hac⟩, ⟨hkk, hn⟩, hdims, hkf⟩
  refine ⟨fun h => execMma_operand p h, ?_⟩
  intro h1 h2 h3 h4 h5 h6 h7 h8 h9 h10 h11 h12 h13 hkind h14 h15 h16 h17 cs spill hs h18
    h19 h20 h21 h22 imgs h23 l2 keep sa sb sc s2 s3 hfill hacc
  obtain ⟨r, he, s4, o, rfl, e⟩ := execMma_ok (ax := ax) (bx := bx)
    ⟨p, h1, h2, h3, h4, h5, h6, h7, h8, h9, h10, h11, h12, h13, h14, h15, h16, h17, h18, h19, h20, h21, h22, h23⟩ hfill hacc
  exact ⟨s4, o, he, e.id, e.t, e.tag, e.f, e.s, e.m, e.n, e.hs, e.aBase, e.out, e.prog, e.writes,
    e.queue.ops, e.queue.mem, e.queue.scratch, e.queue.bobbin⟩

end Sys2Proof.Machine

namespace Sys2Proof.Machine

/-! ## Quantisation issues (R56, R59, R61, R287-R289) -/

section
variable {s : State} {t : Tid} {th : Thread} {f : Fields}

/-- A `qnt` of a legal form, up to its target's handle. -/
structure QntForm (s : State) (t : Tid) (th : Thread) (f : Fields) (h : Handle) : Prop extends Issues s t th where
  room : engineRoom (atIssue s t) t 1 = .ok ()
  target : qDf f < 3
  source : qSrc f < 3
  units : fld f.ext 12 0 ≤ 4096
  pages : qDf f ≠ 0 → bit f.variant 4 = false ∧ fld f.ext 12 0 = 0
  form : formOk f 0x3F 0x1FFF [.handle, .stream, if decide (qSrc f = 2) then .scalar else .unused, .scalar,
    if bit f.variant 4 then .handle else .unused, if decide (qSrc f = 2) then .scalar else .unused] = true
  ready : Ready th f.sl3
  handle : getH (atIssue s t) t.ctx f.sl0.toNat = .ok h

theorem QntForm.fieldsOk {h : Handle} (i : QntForm s t th f h) : (decide (qDf f < 3) && decide (qSrc f < 3) &&
    decide (fld f.ext 12 0 ≤ 4096) && (qDf f == 0 || (!bit f.variant 4 && fld f.ext 12 0 == 0))) = true := by
  have hp := i.pages
  simp only [i.target, i.source, i.units, decide_true, Bool.true_and, Bool.or_eq_true, beq_iff_eq]
  exact Classical.or_iff_not_imp_left.mpr fun hd => by simp [hp hd]

theorem execQnt_format {h : Handle} (i : QntForm s t th f h) (hf : h.fmt ≠ (if qDf f = 0 then 0 else 2)) :
    execQnt t f s = .next (progFault (atIssue s t) t th.pc fFormat) := by
  refine runThread_fault i.toIssues (s' := atIssue s t) ?_
  refine (bind_dec_ok _ _ i.fieldsOk).trans ((bind_dec_ok _ _ i.form).trans ((bind_of_ok i.room _).trans ?_))
  refine (bind_src_ok _ i.ready).trans ((bind_of_ok i.handle _).trans ?_)
  exact bind_needF_fault _ _ _ (beq_eq_false_iff_ne.mpr hf)

theorem execQnt_threshold {h : Handle} (i : QntForm s t th f h) (hf : h.fmt = (if qDf f = 0 then 0 else 2)) (hd : qDf f = 0)
    (hq : qThreshold (reg th f.sl3.toNat) = none) : execQnt t f s = .next (progFault (atIssue s t) t th.pc fOperand) := by
  refine runThread_fault i.toIssues (s' := atIssue s t) ?_
  refine (bind_dec_ok _ _ i.fieldsOk).trans ((bind_dec_ok _ _ i.form).trans ((bind_of_ok i.room _).trans ?_))
  refine (bind_src_ok _ i.ready).trans ((bind_of_ok i.handle _).trans ((bind_needF_ok _ _ _ (beq_iff_eq.mpr hf)).trans ?_))
  exact bind_needF_fault _ _ _ (by rw [hd, hq]; rfl)

/-- A `qnt` whose source, stream and scales are legal. -/
structure QntLegal (s : State) (t : Tid) (th : Thread) (f : Fields) (h : Handle) (sl : Option Handle) (limit : Nat) (ck : Option Handle)
    (q : QIn) (x : Stream) (sk : Option Handle) : Prop extends QntForm s t th f h where
  format : h.fmt = (if qDf f = 0 then 0 else 2)
  threshold : qDf f = 0 → (qThreshold (reg th f.sl3.toNat)).isSome = true
  slub : (if qDf f = 0 then qSlub (atIssue s t) t h (fld f.ext 12 0) (newOp (atIssue s t) t th .qnt f).replay else .ok (none, 0)) =
    .ok (sl, limit)
  carried : (if qDf f = 0 then qCarried (atIssue s t) t f h else .ok none) = .ok ck
  input : (if qDf f = 0 then qInTiles (atIssue s t) t th (newOp (atIssue s t) t th .qnt f) f h
    else qInPages (atIssue s t) t th (newOp (atIssue s t) t th .qnt f) f h) = .ok q
  stream : qStream q.s t f.sl1.toNat h (qDf f != 0) q.tiles = .ok x
  scale : (if qDf f = 0 then qScale (atIssue s t) t f h x else .ok none) = .ok sk
  writable : ∀ k ∈ if x.walk == .driven then [h.idx] else if x.kind == .store then farHandles x else [],
    passedDecl (atIssue s t) t.ctx k = false

section
variable {h : Handle} {sl : Option Handle} {limit : Nat} {ck : Option Handle} {q : QIn} {x : Stream} {sk : Option Handle}
  (i : QntLegal s t th f h sl limit ck q x sk)
include i

theorem QntLegal.thresholdOk : (qDf f != 0 || (qThreshold (reg th f.sl3.toNat)).isSome) = true := by
  have hq := i.threshold
  rw [Bool.or_eq_true, bne_iff_ne]
  exact Classical.or_iff_not_imp_left.mpr fun hd => hq (not_not.mp hd)

theorem execQnt_ok :
    let driven := x.walk == .driven
    let far := if driven then [h.idx] else if x.kind == .store then farHandles x else []
    let seg : Seg := { op := (atIssue s t).seq, h := h, tiles := q.tiles, first := (x.segs.map (fun g => g.tiles.length)).sum,
                       scaleH := sk, isB := bit f.variant 5, page := qDf f, pc := th.pc }
    let y := { x with prod := x.prod + q.tiles.length, segs := if driven then x.segs ++ [seg] else x.segs }
    let ws := far ++ sl.toList.map (·.idx)
    execQnt t f s = .next (issueOp (ws.foldl (fun s k => noteHandleWrite s t k) (setStream q.s y)) t q.th { q.o with
      hs := [h] ++ sl.toList ++ ck.toList, claims := q.o.claims ++ [⟨x.sid, x.prod, true⟩], dBase := x.prod, aBase := limit,
      writes := ws }) := by
  intro driven far seg y ws
  refine runThread_ok i.toIssues ?_
  refine (bind_dec_ok _ _ i.fieldsOk).trans ((bind_dec_ok _ _ i.form).trans ((bind_of_ok i.room _).trans ?_))
  refine (bind_src_ok _ i.ready).trans ((bind_of_ok i.handle _).trans ((bind_needF_ok _ _ _ (beq_iff_eq.mpr i.format)).trans ?_))
  refine (bind_needF_ok _ _ _ i.thresholdOk).trans ((ite_bind_of_ok i.slub _).trans ((ite_bind_of_ok i.carried _).trans ?_))
  refine (ite_bind_of_ok i.input _).trans ((bind_of_ok i.stream _).trans ((ite_bind_of_ok i.scale _).trans ?_))
  exact bind_of_ok (forM_mayWrite i.writable) _

end
end

/-- Settles O30: the form and the format, then the source, the stream and the scales of the target. -/
theorem quantiseIssue : Obligations.QuantiseIssue := by
  unfold Obligations.QuantiseIssue
  intro s t th f hi hroom s1 df sk c carried vop hdf hsk hc hp hform h3 h hh wt o0
  have i : QntForm s t th f h := ⟨hi, hroom, hdf, hsk, hc, hp, by simp only [decide_eq_true_eq]; exact hform, h3, hh⟩
  refine ⟨fun hf => execQnt_format i hf, ?_, fun hf hd hq => execQnt_threshold i (by rw [show qDf f = 0 from hd, hf]; rfl) hd hq⟩
  intro hf hq sl limit ck q x sk' k1 k2 k3 k4 k5 driven far k6 seg y ws
  exact execQnt_ok ⟨i, hf, hq, k1, k2, k3, k4, k5, k6⟩

end Sys2Proof.Machine

namespace Sys2Proof.Machine

/-! ## A `card.sel` without room in the array's queue (R304)

`card.sel` enters the carding engine and the array. Its issue waits for room in both queues before it compares the number of
forced entries with K. -/

namespace CardCex

def who : Tid := ⟨0, 0⟩
def thread : Thread := {}

/-- Two forced entries, and K 1. -/
def fields : Fields := { variant := 2, ext := 1, sl4 := 1 }
def waiting : EngOp := { id := 0, t := who, tag := .mma }

def state : State :=
  { State.reset with
    ctxs := [(0, { st := .running, cls := 3, tableWords := 1 })]
    threads := [(Tid.key who, thread)]
    ops := List.replicate 5 waiting }

/-- Whether a command goes on to a next state. -/
def goesOn (r : Res) : Bool := match r with
  | .next _ => true
  | _ => false

theorem issues : Issues state who thread := ⟨rfl, by decide +kernel, by decide, rfl⟩

theorem carding_room : engineRoom (atIssue state who) who 3 = .ok () := can_ok _ _ (by decide +kernel)

theorem waits : goesOn (exec (.cardSel who fields) state) = false := by decide +kernel

end CardCex

/-- Refutes O32: in `CardCex.state` five instructions wait for the array, and the `card.sel` with more forced entries than K is
refused, where the statement has it fault. -/
theorem not_cardingIssue : ¬ Obligations.CardingIssue := by
  unfold Obligations.CardingIssue
  intro h
  have hs := (h CardCex.state CardCex.who CardCex.thread CardCex.fields CardCex.issues CardCex.carding_room).2
  have hf := (hs (by decide) (by decide) (by decide) (by decide) (fun _ _ => Bool.and_false _)).1 (by decide)
  have hw := CardCex.waits
  rw [hf] at hw
  cases hw

end Sys2Proof.Machine

namespace Sys2Proof.Machine

/-! ## The softmax instructions issue (R143-R149, R286, R293) -/

section
variable {s : State} {t : Tid} {th : Thread} {f : Fields} {g : SGroup}

/-- A step of a row group whose registers have their values. -/
structure StepIssues (s : State) (t : Tid) (th : Thread) (f : Fields) (g : SGroup) : Prop extends Issues s t th where
  room : engineRoom (atIssue s t) t 2 = .ok ()
  group : readGroup (atIssue s t) t th f.sl0 = .ok g
  ready1 : Ready th f.sl1

/-- Whether the score step of entry `e` comes next after the row state's last. -/
def scoreInOrder (row : Option RowSt) (e : Nat) : Bool := match row with
  | some r => e == r.last + 1
  | none => e == 0

/-- The ALPHA values that a score step hands to the accumulate step behind it. -/
def scoreAlpha (row : Option RowSt) : List Nat := match row with
  | some r => r.alpha
  | none => []

/-! ### The score and accumulate steps -/

section
variable {sq : State} (i : StepIssues s t th f g) (hf : stepForm f false = true)
  (hq : stepStream (atIssue s t) t f.sl2 (reg th f.sl1.toNat) = .ok sq)
include i hf hq

theorem execVsmxScore_order (ho : scoreInOrder (rowSt? sq t g.off false) (entryNo (reg th f.sl1.toNat)) = false) :
    execVsmxScore t f s = .next (progFault sq t th.pc fAttOrder) := by
  refine runThread_fault i.toIssues ?_
  refine (bind_dec_ok _ _ hf).trans ((bind_of_ok i.room _).trans ((bind_src_ok _ i.ready1).trans ?_))
  exact (bind_of_ok i.group _).trans ((bind_of_ok hq _).trans (bind_needF_fault _ _ _ ho))

theorem execVsmxScore_ok (ho : scoreInOrder (rowSt? sq t g.off false) (entryNo (reg th f.sl1.toNat)) = true) {o1 o2 : EngOp}
    {th1 : Thread} {s2 : State} (h1 : stepHand sq th (newOp sq t th .smScore f) g.n 256 = .ok (o1, th1))
    (h2 : stepDst sq t o1 f.sl3 34816 = .ok (s2, o2)) :
    let row := rowSt? sq t g.off false
    let z := useState s2 t { o2 with aBase := if row.isNone then 1 else 0 } g (!row.isNone) true
    execVsmxScore t f s = .next (issueOp (setRow z.1 t g.off false
      (some ⟨t, g.off, false, entryNo (reg th f.sl1.toNat), true, scoreAlpha row⟩)) t th1 z.2) := by
  intro row z
  refine runThread_ok i.toIssues ?_
  refine (bind_dec_ok _ _ hf).trans ((bind_of_ok i.room _).trans ((bind_src_ok _ i.ready1).trans ?_))
  refine (bind_of_ok i.group _).trans ((bind_of_ok hq _).trans ((bind_needF_ok _ _ _ ho).trans ?_))
  exact (bind_of_ok h1 _).trans (bind_of_ok h2 _)

theorem execVsmxAcc_order (ho : (rowSt? sq t g.off false).all (fun r => !r.due || entryNo (reg th f.sl1.toNat) != r.last) = true) :
    execVsmxAcc t f s = .next (progFault sq t th.pc fAttOrder) := by
  refine runThread_fault i.toIssues ?_
  refine (bind_dec_ok _ _ hf).trans ((bind_of_ok i.room _).trans ((bind_src_ok _ i.ready1).trans ?_))
  refine (bind_of_ok i.group _).trans ((bind_of_ok hq _).trans ?_)
  cases hr : rowSt? sq t g.off false with
  | none => rfl
  | some r =>
    rw [hr] at ho
    refine (ex_ok_bind r _).trans (bind_needF_fault _ _ _ ?_)
    have hn : (!r.due || entryNo (reg th f.sl1.toNat) != r.last) = true := ho
    rw [← Bool.not_eq_true', Bool.not_and]
    exact hn

theorem execVsmxAcc_ok {r : RowSt} (hr : rowSt? sq t g.off false = some r) (hd : r.due = true)
    (he : entryNo (reg th f.sl1.toNat) = r.last) {o1 : EngOp} {th1 : Thread}
    (h1 : stepHand sq th { newOp sq t th .smAcc f with acc := alphaTile r.alpha } g.n g.d = .ok (o1, th1)) :
    let z := useState sq t o1 g true true
    execVsmxAcc t f s = .next (issueOp (setRow z.1 t g.off false (some { r with due := false })) t th1 z.2) := by
  intro z
  have hr' : theF sq (rowSt? sq t g.off false) fAttOrder = .ok r := by rw [hr, theF_some]
  refine runThread_ok i.toIssues ?_
  refine (bind_dec_ok _ _ hf).trans ((bind_of_ok i.room _).trans ((bind_src_ok _ i.ready1).trans ?_))
  refine (bind_of_ok i.group _).trans ((bind_of_ok hq _).trans ((bind_of_ok hr' _).trans ?_))
  exact (bind_needF_ok _ _ _ (by rw [hd, he, beq_self_eq_true]; rfl)).trans (bind_of_ok h1 _)

end

/-! ### The recompute step -/

section
variable {sq : State} (i : StepIssues s t th f g) (hf : stepForm f true = true) (h5 : Ready th f.sl5)
  (hq : stepStream (atIssue s t) t f.sl2 (reg th f.sl1.toNat) = .ok sq)
include i hf h5 hq

theorem execVsmxRecomp_order (ho : (entryNo (reg th f.sl1.toNat) == 0 ||
      (rowSt? sq t g.off true).any (fun r => entryNo (reg th f.sl1.toNat) == r.last + 1)) = false) :
    execVsmxRecomp t f s = .next (progFault sq t th.pc fAttOrder) := by
  refine runThread_fault i.toIssues ?_
  refine (bind_dec_ok _ _ hf).trans ((bind_of_ok i.room _).trans ((bind_src_ok _ i.ready1).trans ((bind_src_ok _ h5).trans ?_)))
  exact (bind_of_ok i.group _).trans ((bind_of_ok hq _).trans (bind_needF_fault _ _ _ ho))

theorem execVsmxRecomp_ok (ho : (entryNo (reg th f.sl1.toNat) == 0 ||
      (rowSt? sq t g.off true).any (fun r => entryNo (reg th f.sl1.toNat) == r.last + 1)) = true) {h : Handle} {o1 o2 : EngOp}
    {th1 : Thread} {s2 : State} (hh : getH sq t.ctx f.sl4.toNat = .ok h)
    (hs : h.lo + 16 * ((reg th f.sl5.toNat).toNat + g.n) ≤ h.hi)
    (h1 : stepHand sq th (newOp sq t th .smRecomp f) g.n 256 = .ok (o1, th1))
    (h2 : stepDst sq t o1 f.sl3 (1024 * g.n) = .ok (s2, o2)) :
    execVsmxRecomp t f s = .next (issueOp (setRow s2 t g.off true
      (some ⟨t, g.off, true, entryNo (reg th f.sl1.toNat), false, []⟩)) t th1 { o2 with hs := [h] }) := by
  refine runThread_ok i.toIssues ?_
  refine (bind_dec_ok _ _ hf).trans ((bind_of_ok i.room _).trans ((bind_src_ok _ i.ready1).trans ((bind_src_ok _ h5).trans ?_)))
  refine (bind_of_ok i.group _).trans ((bind_of_ok hq _).trans ((bind_needF_ok _ _ _ ho).trans ((bind_of_ok hh _).trans ?_)))
  exact (bind_needF_ok _ _ _ (decide_eq_true hs)).trans ((bind_of_ok h1 _).trans (bind_of_ok h2 _))

end

/-! ### The end of a row group -/

/-- The kind of the slots 2 and 3 of the end: the statistics, or nothing. -/
abbrev endKind (stats : Bool) (k : SlotK) : SlotK := if stats then k else .unused

/-- The handle of the statistics that the end of a row group writes. -/
def endHandles (s : State) (t : Tid) (th : Thread) (f : Fields) (g : SGroup) : Ex (List Handle) :=
  if bit f.variant 0 then
    getH s t.ctx f.sl2.toNat >>= fun h => statOk s h (reg th f.sl3.toNat).toNat g.n >>= fun _ => mayWrite s t.ctx h.idx >>= fun _ => .ok [h]
  else .ok []

theorem endHandles_bind {hs : List Handle} (h : endHandles s t th f g = .ok hs) {β : Type} (k : List Handle → Ex β) :
    (if bit f.variant 0 = true then getH s t.ctx f.sl2.toNat >>= fun h => statOk s h (reg th f.sl3.toNat).toNat g.n >>= fun _ =>
      mayWrite s t.ctx h.idx >>= fun _ => Except.ok [h] >>= k else Except.ok [] >>= k) = k hs := by
  have e := bind_of_ok h k
  rw [endHandles] at e
  split <;> rename_i hc <;> simpa only [hc, if_true, if_false, Bool.false_eq_true, bind_assoc] using e

theorem execVsmxEnd_ok (i : StepIssues s t th f g) {d : Vop} {hs : List Handle} {s2 : State} {o2 : EngOp}
    (hf : formOk f 1 0 [.group 4, .scalar, endKind (bit f.variant 0) .handle, endKind (bit f.variant 0) .scalar] = true)
    (h3 : Ready th f.sl3) (hd : readVop (atIssue s t) (reg th f.sl1.toNat) = .ok d) (hfmt : d.fmt = 5) (hr : d.rows = g.n)
    (hl : d.len = g.d) (hh : endHandles (atIssue s t) t th f g = .ok hs) {fresh : Bool}
    (hfr : (rowSt? (atIssue s t) t g.off false).isNone = fresh)
    (h2 : dstVop (hs.foldl (fun s h => noteHandleWrite s t h.idx) (atIssue s t)) t
      { newOp (atIssue s t) t th .smEnd f with hs := hs, writes := hs.map (·.idx), aBase := if fresh then 1 else 0 } d = .ok (s2, o2)) :
    let z := useState s2 t o2 g (!fresh) false
    execVsmxEnd t f s = .next (issueOp (setRow z.1 t g.off false none) t th z.2) := by
  subst hfr
  intro z
  refine runThread_ok i.toIssues ?_
  refine (bind_dec_ok _ _ hf).trans ((bind_of_ok i.room _).trans ((bind_src_ok _ i.ready1).trans ((bind_src_ok _ h3).trans ?_)))
  refine (bind_of_ok i.group _).trans ((bind_of_ok hd _).trans ((bind_needF_ok _ _ _ (beq_iff_eq.mpr hfmt)).trans ?_))
  refine (bind_needF_ok _ _ _ (by rw [hr, hl, beq_self_eq_true, beq_self_eq_true]; rfl)).trans ((endHandles_bind hh _).trans ?_)
  exact bind_of_ok h2 _

theorem endHandles_none (h : bit f.variant 0 = false) : endHandles s t th f g = .ok [] := by rw [endHandles, if_neg (by simp [h])]

theorem endHandles_stats {h : Handle} (hb : bit f.variant 0 = true) (hh : getH s t.ctx f.sl2.toNat = .ok h)
    (hs : h.lo + 16 * ((reg th f.sl3.toNat).toNat + g.n) ≤ h.hi) (hw : passedDecl s t.ctx h.idx = false) :
    endHandles s t th f g = .ok [h] := by
  rw [endHandles, if_pos hb]
  exact (bind_of_ok hh _).trans ((bind_needF_ok _ _ _ (decide_eq_true hs)).trans (bind_needF_ok _ _ _ (by rw [hw]; rfl)))

end

/-- Settles O31: the order of the steps of a row group, and what each one queues. -/
theorem softmaxIssue : Obligations.SoftmaxIssue := by
  unfold Obligations.SoftmaxIssue
  intro s t th f g hi hroom s1 we e hg h1
  have i : StepIssues s t th f g := ⟨hi, hroom, hg, h1⟩
  refine ⟨?_, ?_, ?_⟩
  · intro sq hf hq row inOrder
    refine ⟨?_, fun ho => execVsmxScore_order i hf hq ho, ?_, fun ho => execVsmxAcc_order i hf hq ho⟩
    · intro ho o1 th1 s2 o2 k1 k2
      exact execVsmxScore_ok i hf hq ho k1 k2
    · intro r o1 th1 hr hd he k1
      exact execVsmxAcc_ok i hf hq hr hd he k1
  · intro sq hf h5 hq inOrder
    exact ⟨fun ho h o1 th1 s2 o2 hh hs k1 k2 => execVsmxRecomp_ok i hf h5 hq ho hh hs k1 k2,
      fun ho => execVsmxRecomp_order i hf h5 hq ho⟩
  · intro d h3 hd hfmt hr hl o0 fresh ends
    constructor
    · intro hb hf s2 o2 k2
      exact execVsmxEnd_ok i (by rw [hb]; exact hf) h3 hd hfmt hr hl (endHandles_none hb) rfl k2
    · intro hb hf h hh hs hw s2 o2 k2
      exact execVsmxEnd_ok i (by rw [hb]; exact hf) h3 hd hfmt hr hl (endHandles_stats hb hh hs hw) rfl k2

end Sys2Proof.Machine

namespace Sys2Proof.Machine

/-! ## The swift instructions issue (R153-R156, R162-R167, R295) -/

section
variable {s : State} {t : Tid} {th : Thread} {f : Fields}

theorem shape_of (s : State) (h : Handle) {b : Bool} (hb : b = true) : shape s h b = .ok () := needF_ok _ _ _ hb

theorem bind_shape_ok {α : Type} (s : State) (h : Handle) {b : Bool} (k : Unit → Ex α) (hb : b = true) : (shape s h b >>= k) = k () :=
  bind_needF_ok _ _ _ hb

theorem bind_shape_fault {α : Type} (s : State) (h : Handle) {b : Bool} (k : Unit → Ex α) (hb : b = false) :
    (shape s h b >>= k) = .error (.fault s (fHandle h.idx)) := bind_needF_fault _ _ _ hb

theorem issueSwift_ok {o : EngOp} {hs : List Handle} {out : Handle} (hw : passedDecl s t.ctx out.idx = false) :
    issueSwift s t th o hs out = .ok (issueOp (noteHandleWrite s t out.idx) t th { o with hs := hs, writes := [out.idx] }) :=
  bind_needF_ok _ _ _ (by rw [hw]; rfl)

/-- The paddings of a window's three dimensions are inside the window. -/
abbrev padsOk (d : WDim × WDim × WDim) : Bool := d.1.padOk && d.2.1.padOk && d.2.2.padOk

/-- A handle has the shape of a window's output of `co` channels. -/
abbrev windowShape (d : WDim × WDim × WDim) (y : Handle) (co : Nat) : Bool :=
  y.rank == 4 && decide (1 ≤ d.1.out) && decide (1 ≤ d.2.1.out) && decide (1 ≤ d.2.2.out) && y.dim 0 == d.1.out &&
    y.dim 1 == d.2.1.out && y.dim 2 == d.2.2.out && y.dim 3 == co

theorem padsOk_of {d : WDim × WDim × WDim} (h1 : d.1.padOk = true) (h2 : d.2.1.padOk = true) (h3 : d.2.2.padOk = true) :
    padsOk d = true := by rw [padsOk, h1, h2, h3]; rfl

theorem windowShape_of {d : WDim × WDim × WDim} {y : Handle} {co : Nat} (hr : y.rank = 4) (o1 : 1 ≤ d.1.out) (o2 : 1 ≤ d.2.1.out)
    (o3 : 1 ≤ d.2.2.out) (h0 : y.dim 0 = d.1.out) (h1 : y.dim 1 = d.2.1.out) (h2 : y.dim 2 = d.2.2.out) (h3 : y.dim 3 = co) :
    windowShape d y co = true := by
  simp only [windowShape, hr, ← h0, ← h1, ← h2, h3] at o1 o2 o3 ⊢
  simp only [o1, o2, o3, beq_self_eq_true, decide_true, Bool.and_self]

/-- A handle in KF16 or KF32. -/
abbrev floating (h : Handle) : Bool := h.fmt == 4 || h.fmt == 5

theorem floating_of {h : Handle} (hf : h.fmt = 4 ∨ h.fmt = 5) : floating h = true := by rcases hf with hf | hf <;> simp [hf]

/-! ### Convolution -/

/-- The shape of the weights of a convolution. -/
abbrev weightShape (f : Fields) (x w : Handle) : Bool :=
  w.rank == 5 && w.dim 0 == (convK f).1 && w.dim 1 == (convK f).2.1 && w.dim 2 == (convK f).2.2 && w.dim 3 == x.dim 3

/-- The channels of a convolution are few enough. -/
abbrev channelsOk (x w : Handle) : Bool :=
  decide (x.dim 3 ≤ 1024) && decide (w.dim 4 ≤ 1024) && (decide (x.dim 3 ≤ 64) || decide (w.dim 4 ≤ 64))

/-- A `sw.conv` up to the shapes of its handles. -/
structure ConvIssues (s : State) (t : Tid) (th : Thread) (f : Fields) (x w y : Handle) (b : Option Handle) : Prop extends Issues s t th where
  room : swiftRoom (atIssue s t) t = .ok ()
  form : formOk f 7 0x7FFF [.handle, .handle, .handle, if bit f.variant 2 then .handle else .unused, .group 2] = true
  kernel : (decide ((convK f).1 ≤ 7) && decide ((convK f).2.1 ≤ 7) && decide ((convK f).2.2 ≤ 7)) = true
  ready : ReadyG th f.sl4 2
  input : getH (atIssue s t) t.ctx f.sl0.toNat = .ok x
  weights : getH (atIssue s t) t.ctx f.sl1.toNat = .ok w
  output : getH (atIssue s t) t.ctx f.sl2.toNat = .ok y
  bias : (if bit f.variant 2 then (getH (atIssue s t) t.ctx f.sl3.toNat).map some else .ok none) = .ok b
  formats : (x.fmt == 4 && w.fmt == 4 && floating y && b.all (fun b => b.fmt == 5)) = true

section
variable {x w y : Handle} {b : Option Handle} (i : ConvIssues s t th f x w y b)
include i

theorem execSwConv_rank (hr : (x.rank == 4) = false) : execSwConv t f s = .next (progFault (atIssue s t) t th.pc (fHandle x.idx)) := by
  refine runThread_fault i.toIssues (s' := atIssue s t) ?_
  refine (bind_dec_ok _ _ i.form).trans ((bind_dec_ok _ _ i.kernel).trans ((bind_of_ok i.room _).trans ?_))
  refine (bind_of_ok (srcG_zero i.ready Nat.two_pos) _).trans ((bind_of_ok (srcG_one i.ready) _).trans ?_)
  refine (bind_of_ok i.input _).trans ((bind_of_ok i.weights _).trans ((bind_of_ok i.output _).trans ?_))
  exact (some_bind i.bias _).trans ((bind_needF_ok _ _ _ i.formats).trans (bind_shape_fault _ _ _ hr))

theorem execSwConv_ok (hr : (x.rank == 4) = true) (hw : weightShape f x w = true) (hc : channelsOk x w = true)
    (hp : padsOk (convDims f x (reg th f.sl4.toNat) (reg th (f.sl4 + 1).toNat)) = true)
    (hy : windowShape (convDims f x (reg th f.sl4.toNat) (reg th (f.sl4 + 1).toNat)) y (w.dim 4) = true)
    (hb : ∀ h ∈ b, h.rank = 1 ∧ h.dim 0 = w.dim 4) (hpass : passedDecl (atIssue s t) t.ctx y.idx = false) :
    execSwConv t f s = .next (issueOp (noteHandleWrite (atIssue s t) t y.idx) t th
      { newOp (atIssue s t) t th .swConv f with hs := [x, w, y] ++ b.toList, writes := [y.idx] }) := by
  have hb' : b.toList.forM (fun h => shape (atIssue s t) h (h.rank == 1 && h.dim 0 == w.dim 4)) = .ok () := by
    cases b with
    | none => rfl
    | some h => exact bind_shape_ok _ _ _ (by simp [hb h rfl])
  refine runThread_ok i.toIssues ?_
  refine (bind_dec_ok _ _ i.form).trans ((bind_dec_ok _ _ i.kernel).trans ((bind_of_ok i.room _).trans ?_))
  refine (bind_of_ok (srcG_zero i.ready Nat.two_pos) _).trans ((bind_of_ok (srcG_one i.ready) _).trans ?_)
  refine (bind_of_ok i.input _).trans ((bind_of_ok i.weights _).trans ((bind_of_ok i.output _).trans ?_))
  refine (some_bind i.bias _).trans ((bind_needF_ok _ _ _ i.formats).trans ((bind_shape_ok _ _ _ hr).trans ?_))
  refine (bind_shape_ok _ _ _ hw).trans ((bind_shape_ok _ _ _ hc).trans ((bind_shape_ok _ _ _ hp).trans ?_))
  exact (bind_shape_ok _ _ _ hy).trans ((bind_of_ok hb' _).trans (issueSwift_ok hpass))

end

/-! ### Pooling -/

/-- A `sw.pool` up to its paddings. -/
structure PoolIssues (s : State) (t : Tid) (th : Thread) (f : Fields) (x y : Handle) : Prop extends Issues s t th where
  room : swiftRoom (atIssue s t) t = .ok ()
  form : (formOk f 3 0x1FF [.handle, .handle, .imm, .scalar] && fld f.sl2 15 9 == 0) = true
  ready : Ready th f.sl3
  input : getH (atIssue s t) t.ctx f.sl0.toNat = .ok x
  output : getH (atIssue s t) t.ctx f.sl1.toNat = .ok y
  formats : (floating x && floating y) = true
  rank : (x.rank == 4) = true

section
variable {x y : Handle} (i : PoolIssues s t th f x y)
include i

theorem execSwPool_pads (hp : padsOk (poolDims f x (reg th f.sl3.toNat)) = false) :
    execSwPool t f s = .next (progFault (atIssue s t) t th.pc fOperand) := by
  refine runThread_fault i.toIssues (s' := atIssue s t) ?_
  refine (bind_dec_ok _ _ i.form).trans ((bind_of_ok i.room _).trans ((bind_src_ok _ i.ready).trans ?_))
  refine (bind_of_ok i.input _).trans ((bind_of_ok i.output _).trans ((bind_needF_ok _ _ _ i.formats).trans ?_))
  exact (bind_shape_ok _ _ _ i.rank).trans (bind_needF_fault _ _ _ hp)

theorem execSwPool_ok (hp : padsOk (poolDims f x (reg th f.sl3.toNat)) = true)
    (hy : windowShape (poolDims f x (reg th f.sl3.toNat)) y (x.dim 3) = true) (hpass : passedDecl (atIssue s t) t.ctx y.idx = false) :
    execSwPool t f s = .next (issueOp (noteHandleWrite (atIssue s t) t y.idx) t th
      { newOp (atIssue s t) t th .swPool f with hs := [x, y], writes := [y.idx] }) := by
  refine runThread_ok i.toIssues ?_
  refine (bind_dec_ok _ _ i.form).trans ((bind_of_ok i.room _).trans ((bind_src_ok _ i.ready).trans ?_))
  refine (bind_of_ok i.input _).trans ((bind_of_ok i.output _).trans ((bind_needF_ok _ _ _ i.formats).trans ?_))
  refine (bind_shape_ok _ _ _ i.rank).trans ((bind_needF_ok _ _ _ hp).trans ((bind_shape_ok _ _ _ hy).trans ?_))
  exact issueSwift_ok hpass

end

/-! ### Patches -/

/-- The image of a `sw.patch`, and its tokens. -/
abbrev patchImage (f : Fields) (x y : Handle) : Handle := if bit f.variant 0 then y else x
abbrev patchTokens (f : Fields) (x y : Handle) : Handle := if bit f.variant 0 then x else y

/-- The image of a `sw.patch` is cut into whole patches. -/
abbrev imageShape (p : Nat × Nat × Nat) (img : Handle) : Bool :=
  img.rank == 4 && img.dim 0 % p.1 == 0 && img.dim 1 % p.2.1 == 0 && img.dim 2 % p.2.2 == 0

/-- The tokens of a `sw.patch` are the image's patches. -/
abbrev tokenShape (p : Nat × Nat × Nat) (img tok : Handle) : Bool :=
  tok.rank == 2 && tok.dim 0 == img.dim 0 / p.1 * (img.dim 1 / p.2.1) * (img.dim 2 / p.2.2) &&
    tok.dim 1 == p.1 * p.2.1 * p.2.2 * img.dim 3

theorem imageShape_of {p : Nat × Nat × Nat} {img : Handle} (hr : img.rank = 4) (h0 : img.dim 0 % p.1 = 0)
    (h1 : img.dim 1 % p.2.1 = 0) (h2 : img.dim 2 % p.2.2 = 0) : imageShape p img = true := by simp [imageShape, *]

theorem tokenShape_of {p : Nat × Nat × Nat} {img tok : Handle} (hr : tok.rank = 2)
    (h0 : tok.dim 0 = img.dim 0 / p.1 * (img.dim 1 / p.2.1) * (img.dim 2 / p.2.2))
    (h1 : tok.dim 1 = p.1 * p.2.1 * p.2.2 * img.dim 3) : tokenShape p img tok = true := by simp [tokenShape, *]

theorem execSwPatch_ok (i : Issues s t th) (hroom : swiftRoom (atIssue s t) t = .ok ())
    (hf : formOk f 1 0x3F [.handle, .handle] = true) {x y : Handle} (hx : getH (atIssue s t) t.ctx f.sl0.toNat = .ok x)
    (hy : getH (atIssue s t) t.ctx f.sl1.toNat = .ok y) (hfmt : (x.fmt == y.fmt && floating x) = true)
    (himg : imageShape (patchP f) (patchImage f x y) = true) (htok : tokenShape (patchP f) (patchImage f x y) (patchTokens f x y) = true)
    (hpass : passedDecl (atIssue s t) t.ctx y.idx = false) :
    execSwPatch t f s = .next (issueOp (noteHandleWrite (atIssue s t) t y.idx) t th
      { newOp (atIssue s t) t th .swPatch f with hs := [x, y], writes := [y.idx] }) := by
  refine runThread_ok i ?_
  refine (bind_dec_ok _ _ hf).trans ((bind_of_ok hroom _).trans ((bind_of_ok hx _).trans ((bind_of_ok hy _).trans ?_)))
  refine (bind_needF_ok _ _ _ hfmt).trans ((bind_shape_ok _ _ _ himg).trans ((bind_shape_ok _ _ _ htok).trans ?_))
  exact issueSwift_ok hpass

/-! ### Pixels -/

/-- A luma plane of even extents. -/
abbrev lumaShape (y : Handle) : Bool := y.rank == 2 && y.dim 0 % 2 == 0 && y.dim 1 % 2 == 0

/-- A chroma plane of half the luma's extents. -/
abbrev chromaShape (y c : Handle) : Bool := c.rank == 2 && 2 * c.dim 0 == y.dim 0 && 2 * c.dim 1 == y.dim 1

/-- A tensor of the luma's pixels in three channels. -/
abbrev pixelShape (y k : Handle) : Bool := k.rank == 3 && k.dim 0 == 3 && k.dim 1 == y.dim 0 && k.dim 2 == y.dim 1

/-- The 22 parameters of a `sw.pix`. -/
abbrev pixParams (bs : List Byte) : List AccTile :=
  [⟨0, 0, [(List.range 22).map (fun i => BitVec.ofNat 192 (ofBytes ((bs.drop (4 * i)).take 4)))]⟩]

/-- A `sw.pix` whose parameters are read. -/
structure PixIssues (s : State) (t : Tid) (th : Thread) (f : Fields) (y cb cr k : Handle) (s2 : State) (bs : List Byte) : Prop
    extends Issues s t th where
  room : swiftRoom (atIssue s t) t = .ok ()
  form : formOk f 3 0 [.handle, .handle, .handle, .handle, .scalar] = true
  ready : Ready th f.sl4
  luma : getH (atIssue s t) t.ctx f.sl0.toNat = .ok y
  blue : getH (atIssue s t) t.ctx f.sl1.toNat = .ok cb
  red : getH (atIssue s t) t.ctx f.sl2.toNat = .ok cr
  pixels : getH (atIssue s t) t.ctx f.sl3.toNat = .ok k
  formats : (y.fmt == 8 && cb.fmt == 8 && cr.fmt == 8 && k.fmt == 4) = true
  lumaOk : lumaShape y = true
  blueOk : chromaShape y cb = true
  redOk : chromaShape y cr = true
  pixelsOk : pixelShape y k = true
  aligned : (isLocal (atIssue s t) (reg th f.sl4.toNat) && localOf (reg th f.sl4.toNat) % 4 == 0) = true
  params : readA (atIssue s t) t (localOf (reg th f.sl4.toNat)) 88 = .ok (s2, bs)

section
variable {y cb cr k : Handle} {s2 : State} {bs : List Byte} (i : PixIssues s t th f y cb cr k s2 bs)
include i

theorem execSwPix_ok {s3 : State} (h : (if bit f.variant 0 then do
        mayWrite s2 t.ctx y.idx
        mayWrite s2 t.ctx cb.idx
        mayWrite s2 t.ctx cr.idx
        let s1 := [y, cb, cr].foldl (fun s h => noteHandleWrite s t h.idx) s2
        .ok (issueOp s1 t th { newOp s2 t th .swPix f with
          acc := pixParams bs, hs := [y, cb, cr, k], writes := [y.idx, cb.idx, cr.idx] })
      else issueSwift s2 t th { newOp s2 t th .swPix f with acc := pixParams bs } [y, cb, cr, k] k) = .ok s3) :
    execSwPix t f s = .next s3 := by
  refine runThread_ok i.toIssues ?_
  refine (bind_dec_ok _ _ i.form).trans ((bind_of_ok i.room _).trans ((bind_src_ok _ i.ready).trans ((bind_of_ok i.luma _).trans ?_)))
  refine (bind_of_ok i.blue _).trans ((bind_of_ok i.red _).trans ((bind_of_ok i.pixels _).trans ?_))
  refine (bind_needF_ok _ _ _ i.formats).trans ((bind_shape_ok _ _ _ i.lumaOk).trans ((bind_shape_ok _ _ _ i.blueOk).trans ?_))
  refine (bind_shape_ok _ _ _ i.redOk).trans ((bind_shape_ok _ _ _ i.pixelsOk).trans ((bind_needF_ok _ _ _ i.aligned).trans ?_))
  exact (bind_of_ok i.params _).trans h

theorem execSwPix_forward (hb : bit f.variant 0 = false) (hw : passedDecl s2 t.ctx k.idx = false) :
    execSwPix t f s = .next (issueOp (noteHandleWrite s2 t k.idx) t th
      { newOp s2 t th .swPix f with acc := pixParams bs, hs := [y, cb, cr, k], writes := [k.idx] }) :=
  execSwPix_ok i (by rw [if_neg (by simp [hb])]; exact issueSwift_ok hw)

theorem execSwPix_back (hb : bit f.variant 0 = true) (h1 : passedDecl s2 t.ctx y.idx = false) (h2 : passedDecl s2 t.ctx cb.idx = false)
    (h3 : passedDecl s2 t.ctx cr.idx = false) :
    execSwPix t f s = .next (issueOp ([y, cb, cr].foldl (fun s h => noteHandleWrite s t h.idx) s2) t th
      { newOp s2 t th .swPix f with acc := pixParams bs, hs := [y, cb, cr, k], writes := [y.idx, cb.idx, cr.idx] }) := by
  refine execSwPix_ok i ?_
  rw [if_pos hb]
  exact (bind_needF_ok _ _ _ (by rw [h1]; rfl)).trans ((bind_needF_ok _ _ _ (by rw [h2]; rfl)).trans
    (bind_needF_ok _ _ _ (by rw [h3]; rfl)))

end

/-! ### Boxes and suppression -/

theorem groupThree_bind {β : Type} {v : BitVec 16} (h : ReadyG th v 3) (k : PUnit → Ex β) :
    (forIn [0, 1, 2] PUnit.unit (fun i _ => srcG th v i >>= fun _ => Except.ok (ForInStep.yield PUnit.unit)) >>= k) = k PUnit.unit := by
  simp only [List.forIn_cons, List.forIn_nil, srcG_ready h (show 0 < 3 by decide), srcG_ready h (show 1 < 3 by decide),
    srcG_ready h (show 2 < 3 by decide), ex_ok_bind, pure, Except.pure]

theorem execSwBox_ok (i : Issues s t th) (hroom : swiftRoom (atIssue s t) t = .ok ())
    (hf : formOk f 1 0 [.handle, .handle, .handle, .group 3] = true) (hr : ReadyG th f.sl3 3) {a d y : Handle}
    (ha : getH (atIssue s t) t.ctx f.sl0.toNat = .ok a) (hd : getH (atIssue s t) t.ctx f.sl1.toNat = .ok d)
    (hy : getH (atIssue s t) t.ctx f.sl2.toNat = .ok y) (hfmt : (a.fmt == 5 && d.fmt == 5 && y.fmt == 5) = true)
    (ha' : (a.cols == 4 && decide (a.rows ≤ 65536)) = true) (hd' : (d.cols == 4 && d.rows == a.rows) = true)
    (hy' : (y.cols == 4 && y.rows == a.rows) = true) (hpass : passedDecl (atIssue s t) t.ctx y.idx = false) :
    execSwBox t f s = .next (issueOp (noteHandleWrite (atIssue s t) t y.idx) t th
      { newOp (atIssue s t) t th .swBox f with hs := [a, d, y], writes := [y.idx] }) := by
  refine runThread_ok i ?_
  refine (bind_dec_ok _ _ hf).trans ((bind_of_ok hroom _).trans ((groupThree_bind hr _).trans ((bind_of_ok ha _).trans ?_)))
  refine (bind_of_ok hd _).trans ((bind_of_ok hy _).trans ((bind_needF_ok _ _ _ hfmt).trans ((bind_shape_ok _ _ _ ha').trans ?_)))
  exact (bind_shape_ok _ _ _ hd').trans ((bind_shape_ok _ _ _ hy').trans (issueSwift_ok hpass))

/-- The thresholds and the count of a `sw.nms` are legal. -/
abbrev nmsOperands (th : Thread) (f : Fields) (n : Nat) : Bool :=
  decide (n ≤ 4096) && decide (1 ≤ (reg th (f.sl4 + 2).toNat).toNat) && decide ((reg th (f.sl4 + 2).toNat).toNat ≤ 4096) &&
    !(scalarVal (reg th (f.sl4 + 1).toNat)).isPoison &&
    (match scalarVal (reg th f.sl4.toNat) with
     | .num q => decide (0 ≤ q) && decide (q ≤ 1)
     | .poison => false)

theorem execSwNms_ok (i : Issues s t th) (hroom : swiftRoom (atIssue s t) t = .ok ())
    (hf : formOk f 1 0 [.handle, .handle, if bit f.variant 0 then .handle else .unused, .handle, .group 3] = true)
    (hr : ReadyG th f.sl4 3) {b sc y : Handle} {k : Option Handle} (hb : getH (atIssue s t) t.ctx f.sl0.toNat = .ok b)
    (hsc : getH (atIssue s t) t.ctx f.sl1.toNat = .ok sc) (hy : getH (atIssue s t) t.ctx f.sl3.toNat = .ok y)
    (hk : (if bit f.variant 0 then (getH (atIssue s t) t.ctx f.sl2.toNat).map some else .ok none) = .ok k)
    (hfmt : (b.fmt == 5 && sc.fmt == 5 && y.fmt == 9 && k.all (fun k => k.fmt == 10)) = true) (hn : nmsOperands th f b.rows = true)
    (hb' : (b.cols == 4) = true) (hsc' : (sc.rows * sc.cols == b.rows) = true) (hk' : ∀ h ∈ k, h.rows * h.cols = b.rows)
    (hy' : roundUp (4 + 2 * min b.rows (reg th (f.sl4 + 2).toNat).toNat) 64 ≤ y.hi - y.lo)
    (hpass : passedDecl (atIssue s t) t.ctx y.idx = false) :
    execSwNms t f s = .next (issueOp (noteHandleWrite (atIssue s t) t y.idx) t th
      { newOp (atIssue s t) t th .swNms f with hs := [b, sc, y] ++ k.toList, writes := [y.idx] }) := by
  have hk2 : k.toList.forM (fun h => shape (atIssue s t) h (h.rows * h.cols == b.rows)) = .ok () := by
    cases k with
    | none => rfl
    | some h => exact bind_shape_ok _ _ _ (beq_iff_eq.mpr (hk' h rfl))
  refine runThread_ok i ?_
  refine (bind_dec_ok _ _ hf).trans ((bind_of_ok hroom _).trans ((bind_of_ok (srcG_zero hr (by decide)) _).trans ?_))
  refine (bind_of_ok (srcG_ready hr (show 1 < 3 by decide)) _).trans ((bind_of_ok (srcG_ready hr (show 2 < 3 by decide)) _).trans ?_)
  refine (bind_of_ok hb _).trans ((bind_of_ok hsc _).trans ((bind_of_ok hy _).trans ((some_bind hk _).trans ?_)))
  refine (bind_needF_ok _ _ _ hfmt).trans ((bind_needF_ok _ _ _ hn).trans ((bind_shape_ok _ _ _ hb').trans ?_))
  refine (bind_shape_ok _ _ _ hsc').trans ((bind_of_ok hk2 _).trans ((bind_shape_ok _ _ _ (decide_eq_true hy')).trans ?_))
  exact issueSwift_ok hpass

end

/-- Settles O33: the checks of each of the six instructions, in their order. -/
theorem swiftIssue : Obligations.SwiftIssue := by
  unfold Obligations.SwiftIssue
  intro s t th f hi hroom s1 c goes
  refine ⟨?_, ?_, ?_, ?_, ?_, ?_⟩
  · intro x w y b hf k1 k2 k3 hr hx hw hy hb x4 w4 y4 hb5
    have i : ConvIssues s t th f x w y b := ⟨hi, hroom, hf, by simp [convK, k1, k2, k3], hr, hx, hw, hy, hb, by
      simp only [x4, w4, floating_of y4, beq_self_eq_true, Bool.and_self, Bool.true_and]
      cases b with
      | none => rfl
      | some h => exact beq_iff_eq.mpr (hb5 h rfl).1⟩
    refine ⟨fun h => execSwConv_rank i (beq_eq_false_iff_ne.mpr h), ?_⟩
    intro xr wr w0 w1 w2 w3 c1 c2 c3 dt dh dw p1 p2 p3 yr o1 o2 o3 y0 y1 y2 y3 hpass
    exact execSwConv_ok i (beq_iff_eq.mpr xr) (by simp [weightShape, convK, wr, w0, w1, w2, w3]) (by simp [channelsOk, c1, c2, c3])
      (padsOk_of p1 p2 p3) (windowShape_of yr o1 o2 o3 y0 y1 y2 y3) (fun h hh => ⟨(hb5 h hh).2.1, (hb5 h hh).2.2⟩) hpass
  · intro x y hf h9 h3 hx hy x45 y45 xr dt dh dw
    have i : PoolIssues s t th f x y := ⟨hi, hroom, by rw [hf, h9]; rfl, h3, hx, hy, by rw [floating_of x45, floating_of y45]; rfl,
      beq_iff_eq.mpr xr⟩
    refine ⟨fun hp => execSwPool_pads i hp, ?_⟩
    intro p1 p2 p3 yr o1 o2 o3 y0 y1 y2 y3 hpass
    exact execSwPool_ok i (padsOk_of p1 p2 p3) (windowShape_of yr o1 o2 o3 y0 y1 y2 y3) hpass
  · intro x y hf hx hy hxy x45 img tok pt ph pw ir i0 i1 i2 tr t0 t1 hpass
    exact execSwPatch_ok hi hroom hf hx hy (by rw [hxy, beq_self_eq_true, floating_of (hxy ▸ x45)]; rfl)
      (imageShape_of ir i0 i1 i2) (tokenShape_of tr t0 t1) hpass
  · intro y cb cr k hf hr hy hcb hcr hk y8 cb8 cr8 k4 yr y0 y1 cbr cb0 cb1 crr cr0 cr1 kr k0 k1 k2 w a hl ha s2 bs hread o
    have i : PixIssues s t th f y cb cr k s2 bs := ⟨hi, hroom, hf, hr, hy, hcb, hcr, hk, by rw [y8, cb8, cr8, k4]; rfl,
      by simp [lumaShape, *], by simp [chromaShape, *], by simp [chromaShape, *], by simp [pixelShape, *],
      by rw [hl, beq_iff_eq.mpr ha]; rfl, hread⟩
    exact ⟨fun hb hw => execSwPix_forward i hb hw, fun hb h1 h2 h3 => execSwPix_back i hb h1 h2 h3⟩
  · intro a d y hf hr ha hd hy a5 d5 y5 ac ar dc dr yc yr hpass
    exact execSwBox_ok hi hroom hf hr ha hd hy (by rw [a5, d5, y5]; rfl) (by simp [ac, ar]) (by simp [dc, dr]) (by simp [yc, yr]) hpass
  · intro b sc y k hf hr hb hsc hy hk b5 sc5 y9 hk10 m iou floor hiou i0 i1 hfloor bn m1 m2 bc scn hy' hpass
    refine execSwNms_ok hi hroom hf hr hb hsc hy hk ?_ ?_ (beq_iff_eq.mpr bc) (beq_iff_eq.mpr scn) (fun h hh => (hk10 h hh).2) hy' hpass
    · rw [b5, sc5, y9]
      cases k with
      | none => rfl
      | some h => exact beq_iff_eq.mpr (hk10 h rfl).1
    · rw [nmsOperands, hiou, hfloor]
      exact Bool.and_eq_true_iff.mpr ⟨by rw [decide_eq_true bn, decide_eq_true m1, decide_eq_true m2]; rfl,
        Bool.and_eq_true_iff.mpr ⟨decide_eq_true i0, decide_eq_true i1⟩⟩

end Sys2Proof.Machine

namespace Sys2Proof.Machine

/-! ## The link instructions (R299-R301, R304) -/

section
variable {s : State} {t : Tid} {th : Thread} {f : Fields}

theorem fld_lt {n : Nat} (w : BitVec n) (hi lo : Nat) : fld w hi lo < 2 ^ (hi + 1 - lo) := Nat.mod_lt _ (Nat.two_pow_pos _)

theorem toNat_ofNat_fld {n k hi lo : Nat} (w : BitVec n) (h : hi + 1 - lo = k) : (BitVec.ofNat k (fld w hi lo)).toNat = fld w hi lo := by
  rw [BitVec.toNat_ofNat, Nat.mod_eq_of_lt (h ▸ fld_lt w hi lo)]

/-! ### The byte count and the local range -/

theorem lkCount_ok (s : State) {w : Word} (h1 : 1 ≤ w.toNat) (h2 : w.toNat ≤ 2 ^ 30) : lkCount s w = .ok w.toNat := by
  rw [lkCount, needF_ok _ _ _ (by rw [decide_eq_true h1, decide_eq_true h2]; rfl), ex_ok_bind]

theorem lkCount_fault (s : State) {w : Word} (h : w.toNat = 0 ∨ 2 ^ 30 < w.toNat) : lkCount s w = .error (.fault s fOperand) := by
  refine bind_needF_fault _ _ _ ?_
  rcases h with h | h
  · rw [h]; rfl
  · rw [decide_eq_false (Nat.not_le.mpr h), Bool.and_false]

/-- A range of this device inside its handle's extent that the context may read, or write. -/
def LocalRange (s : State) (t : Tid) (h : Handle) (off n : Nat) (reads : Bool) : Prop :=
  (h.dev = devId s ∧ off + n ≤ h.hi - h.lo) ∧
    (if reads then okRead s t.ctx (h.loc + off) n else okRange s t.ctx (h.loc + off) n) = true

theorem localRange_iff {h : Handle} {off n : Nat} {reads : Bool} :
    (h.dev == devId s && decide (off + n ≤ h.hi - h.lo) &&
      (if reads then okRead s t.ctx (h.loc + off) n else okRange s t.ctx (h.loc + off) n)) = true ↔ LocalRange s t h off n reads := by
  rw [LocalRange, Bool.and_eq_true, Bool.and_eq_true, beq_iff_eq, decide_eq_true_eq]

theorem localRange_ok {h : Handle} {off n : Nat} {reads : Bool} (hl : LocalRange s t h off n reads) :
    localRange s t h off n reads = .ok (h.loc + off) := by
  rw [localRange, needF_ok _ _ _ (localRange_iff.mpr hl), ex_ok_bind]

theorem localRange_fault {h : Handle} {off n : Nat} {reads : Bool} (hl : ¬ LocalRange s t h off n reads) :
    localRange s t h off n reads = .error (.fault s (fAddr h.base)) :=
  bind_needF_fault _ _ _ (Bool.eq_false_iff.mpr (mt localRange_iff.mp hl))

/-! ### What a link operation asks of a range of this device itself (log 15) -/

/-- Whether the range at the target may be accessed, where the target is this device. -/
def targetFits (s : State) (t : Tid) (l : LkOp) : Bool := match l.op with
  | .put => okRange s t.ctx l.remote l.left
  | .getRequest => okRead s t.ctx l.remote l.left
  | .add =>
    let op := l.proto.redop.toNat
    okRange s t.ctx l.remote l.left && l.remote % redBytes op == 0 && (pieces l.remote l.left).all (fun x => match placeOf s x.1 with
      | .hbm _ | .unified _ => true
      | _ => false) &&
    (!redKfAdd op || ((List.range 16).filterMap (rwinOf s (partOf t.ctx))).all (fun w =>
      !overlaps w.base (256 * w.size) l.remote l.left || w.takes s (if l.proto.ranked then some l.proto.rank.toNat else none)))
  | _ => true

theorem localTarget_ok {l : LkOp} (h : l.proto.dst.toNat = devId s → targetFits s t l = true) : localTarget s t l = .ok () := by
  refine needF_ok _ _ _ (Bool.or_eq_true_iff.mpr ?_)
  rw [bne_iff_ne]
  exact Classical.or_iff_not_imp_left.mpr fun hd => h (not_not.mp hd)

theorem localTarget_fault {l : LkOp} (hd : l.proto.dst.toNat = devId s) (h : targetFits s t l = false) :
    localTarget s t l = .error (.fault s (fAddr (gAddr s l.remote))) :=
  needF_fault s _ _ (Bool.or_eq_false_iff.mpr ⟨bne_eq_false_iff_eq.mpr hd, h⟩)

/-- The state behind a link instruction: it is queued, and the context's link work goes on. -/
abbrev lkIssued (s : State) (t : Tid) (th : Thread) (l : LkOp) : State :=
  pumpCtx { stepOn (notReplayable s t) t th with lkops := (stepOn (notReplayable s t) t th).lkops ++ [l] } t.ctx

theorem issueLk_ok {l : LkOp} (h : l.proto.dst.toNat = devId s → targetFits s t l = true) (hc : freeCredit s t.ctx = true) :
    issueLk s t th l = .ok (lkIssued s t th l) := by
  rw [issueLk, localTarget_ok h, ex_ok_bind, can_ok _ _ hc, ex_ok_bind]

theorem issueLk_fault {l : LkOp} (hd : l.proto.dst.toNat = devId s) (h : targetFits s t l = false) :
    issueLk s t th l = .error (.fault s (fAddr (gAddr s l.remote))) := by
  rw [issueLk, localTarget_fault hd h, ex_error_bind]

/-- Whether a reduction may be made at a range of this device, for these windows. -/
def Reduces (s : State) (t : Tid) (op : Nat) (rank : Option Nat) (far n : Nat) : Prop :=
  far % redBytes op = 0 ∧ (∀ x ∈ pieces far n, match placeOf s x.1 with
    | .hbm _ | .unified _ => True
    | _ => False) ∧ (redKfAdd op = true → ∀ k z, k < 16 → rwinOf s (partOf t.ctx) k = some z →
      overlaps z.base (256 * z.size) far n = true → z.takes s rank = true)

theorem targetFits_add {l : LkOp} (ho : l.op = .add) {op : Nat} (hop : l.proto.redop.toNat = op) {rank : Option Nat}
    (hr : (if l.proto.ranked then some l.proto.rank.toNat else none) = rank) :
    targetFits s t l = true ↔ okRange s t.ctx l.remote l.left = true ∧ Reduces s t op rank l.remote l.left := by
  have hp (x : Nat × Nat) : (match placeOf s x.1 with
      | .hbm _ | .unified _ => true
      | _ => false) = true ↔ (match placeOf s x.1 with
      | .hbm _ | .unified _ => True
      | _ => False) := by
    split <;> simp
  rw [targetFits, ho]
  simp only [hop, hr, Reduces, Bool.and_eq_true, Bool.or_eq_true, Bool.not_eq_true', beq_iff_eq, List.all_eq_true,
    List.mem_filterMap, List.mem_range, hp, and_assoc]
  refine and_congr_right fun _ => and_congr_right fun _ => and_congr_right fun _ => ⟨?_, ?_⟩
  · intro h hk k z hlt hz hov
    rcases h with h | h
    · rw [h] at hk; cases hk
    · rcases h z ⟨k, hlt, hz⟩ with h' | h'
      · rw [hov] at h'; cases h'
      · exact h'
  · intro h
    rcases Bool.eq_false_or_eq_true (redKfAdd op) with hk | hk
    · refine .inr fun z ⟨k, hlt, hz⟩ => ?_
      rcases Bool.eq_false_or_eq_true (overlaps z.base (256 * z.size) l.remote l.left) with hov | hov
      · exact .inr (h hk k z hlt hz hov)
      · exact .inl hov
    · exact .inl hk

/-! ### Puts, gets, adds and multicast puts -/

/-- A link instruction over a local range whose registers have their values. -/
structure LkIssues (s : State) (t : Tid) (th : Thread) (f : Fields) (h : Handle) : Prop extends Issues s t th where
  free : freeCredit (atIssue s t) t.ctx = true
  ready1 : Ready th f.sl1
  ready2 : Ready th f.sl2
  ready3 : Ready th f.sl3
  group : f.sl4.toNat < 16
  handle : getH (atIssue s t) t.ctx f.sl0.toNat = .ok h

/-- The byte count of a link instruction is legal. -/
abbrev countOk (th : Thread) (f : Fields) : Prop := 1 ≤ (reg th f.sl3.toNat).toNat ∧ (reg th f.sl3.toNat).toNat ≤ 2 ^ 30
abbrev countBad (th : Thread) (f : Fields) : Prop := (reg th f.sl3.toNat).toNat = 0 ∨ 2 ^ 30 < (reg th f.sl3.toNat).toNat

/-- The local range of a link instruction. -/
abbrev lkRange (s : State) (t : Tid) (th : Thread) (f : Fields) (h : Handle) (reads : Bool) : Prop :=
  LocalRange (atIssue s t) t h (reg th f.sl1.toNat).toNat (reg th f.sl3.toNat).toNat reads

/-- The operation that a put, a get or an add queues. -/
abbrev lkTo (s : State) (t : Tid) (th : Thread) (f : Fields) (h : Handle) (op : MsgOp) : LkOp :=
  { newLk (atIssue s t) t f.sl4 op with
    proto := { (newLk (atIssue s t) t f.sl4 op).proto with dst := BitVec.ofNat 16 (fld (reg th f.sl2.toNat) 63 48) }
    loc := h.loc + (reg th f.sl1.toNat).toNat, hidx := h.idx, remote := localOf (reg th f.sl2.toNat)
    left := (reg th f.sl3.toNat).toNat }

/-- The value of a slot that is only read where a flag names it. -/
theorem src_if {b : Bool} {v : BitVec 16} (hr : Ready th v) :
    (if b = true then src th v else .ok 0) = .ok (if b then reg th v.toNat else 0) := by
  cases b
  · rfl
  · exact src_ready hr

/-- Two bodies that agree where the thread issues. -/
theorem runThread_body {b b' : State → Thread → Ex State} (i : Issues s t th) (h : b (atIssue s t) th = b' (atIssue s t) th) :
    runThread s t b = runThread s t b' := by
  rw [runThread_issues i, runThread_issues i, h]

theorem srcG_first {v : BitVec 16} (h : Ready th v) : srcG th v 0 = .ok (reg th v.toNat) := by
  rw [srcG, show v + BitVec.ofNat 16 0 = v from BitVec.add_zero v, src_ready h]

section
variable {h : Handle} (i : LkIssues s t th f h)

/-! #### `lk.put` -/

section
variable (hf : formOk f 1 0 [.handle, .scalar, .scalar, .scalar, .imm, if bit f.variant 0 then .scalar else .unused] = true)
  (h5 : Ready th f.sl5)

/-- The operation of a `lk.put`. -/
abbrev lkPut (s : State) (t : Tid) (th : Thread) (f : Fields) (h : Handle) : LkOp :=
  { lkTo s t th f h .put with sig := if bit f.variant 0 then some (reg th f.sl5.toNat) else none }

include i hf h5

theorem execLkPut_count (hn : countBad th f) : execLkPut t f s = .next (progFault (atIssue s t) t th.pc fOperand) := by
  refine runThread_fault i.toIssues (s' := atIssue s t) ?_
  refine (bind_dec_ok _ _ hf).trans ((bind_dec_ok _ _ (decide_eq_true i.group)).trans ((bind_src_ok _ i.ready1).trans ?_))
  refine (bind_src_ok _ i.ready2).trans ((bind_src_ok _ i.ready3).trans ((ite_bind_of_ok (src_if h5) _).trans ?_))
  exact (bind_of_ok i.handle _).trans (by rw [lkCount_fault _ hn, ex_error_bind])

theorem execLkPut_range (hn : countOk th f) (hl : ¬ lkRange s t th f h true) :
    execLkPut t f s = .next (progFault (atIssue s t) t th.pc (fAddr h.base)) := by
  refine runThread_fault i.toIssues (s' := atIssue s t) ?_
  refine (bind_dec_ok _ _ hf).trans ((bind_dec_ok _ _ (decide_eq_true i.group)).trans ((bind_src_ok _ i.ready1).trans ?_))
  refine (bind_src_ok _ i.ready2).trans ((bind_src_ok _ i.ready3).trans ((ite_bind_of_ok (src_if h5) _).trans ?_))
  exact (bind_of_ok i.handle _).trans ((bind_of_ok (lkCount_ok _ hn.1 hn.2) _).trans (by rw [localRange_fault hl, ex_error_bind]))

theorem execLkPut_issues (hn : countOk th f) (hl : lkRange s t th f h true) :
    execLkPut t f s = runThread s t fun s1 th => issueLk s1 t th (lkPut s t th f h) := by
  refine runThread_body i.toIssues ?_
  refine (bind_dec_ok _ _ hf).trans ((bind_dec_ok _ _ (decide_eq_true i.group)).trans ((bind_src_ok _ i.ready1).trans ?_))
  refine (bind_src_ok _ i.ready2).trans ((bind_src_ok _ i.ready3).trans ((ite_bind_of_ok (src_if h5) _).trans ?_))
  refine (bind_of_ok i.handle _).trans ((bind_of_ok (lkCount_ok _ hn.1 hn.2) _).trans ((bind_of_ok (localRange_ok hl) _).trans ?_))
  unfold lkPut
  cases bit f.variant 0 <;> rfl

end

/-! #### `lk.get` -/

include i in
theorem execLkGet_ok (hf : formOk f 0 0 [.handle, .scalar, .scalar, .scalar, .imm] = true) (hn : countOk th f)
    (hl : lkRange s t th f h false) (hw : passedDecl (atIssue s t) t.ctx h.idx = false)
    (ho : fld (reg th f.sl2.toNat) 63 48 = devId (atIssue s t) →
      okRead (noteHandleWrite (atIssue s t) t h.idx) t.ctx (localOf (reg th f.sl2.toNat)) (reg th f.sl3.toNat).toNat = true)
    (hc : freeCredit (noteHandleWrite (atIssue s t) t h.idx) t.ctx = true) :
    execLkGet t f s = .next (lkIssued (noteHandleWrite (atIssue s t) t h.idx) t th (lkTo s t th f h .getRequest)) := by
  refine runThread_ok i.toIssues ?_
  refine (bind_dec_ok _ _ hf).trans ((bind_dec_ok _ _ (decide_eq_true i.group)).trans ((bind_src_ok _ i.ready1).trans ?_))
  refine (bind_src_ok _ i.ready2).trans ((bind_src_ok _ i.ready3).trans ((bind_of_ok i.handle _).trans ?_))
  refine (bind_of_ok (lkCount_ok _ hn.1 hn.2) _).trans ((bind_of_ok (localRange_ok hl) _).trans ?_)
  refine (bind_needF_ok _ _ _ (by rw [hw]; rfl)).trans (issueLk_ok (fun hd => ?_) hc)
  exact ho ((toNat_ofNat_fld (reg th f.sl2.toNat) rfl).symm.trans hd)

/-! #### `lk.add` -/

section
variable (hf : formOk f 0xF 0 [.handle, .scalar, .scalar, .scalar, .imm, if bit f.variant 3 then .scalar else .unused] = true)
  (h5 : Ready th f.sl5)

/-- The operation of a `lk.add`. -/
abbrev lkAdd (s : State) (t : Tid) (th : Thread) (f : Fields) (h : Handle) : LkOp :=
  { lkTo s t th f h .add with proto := { (lkTo s t th f h .add).proto with
      redop := BitVec.ofNat 3 (fld f.variant 2 0), ranked := bit f.variant 3
      rank := if bit f.variant 3 then BitVec.ofNat 6 (fld (reg th f.sl5.toNat) 5 0) else 0 } }

/-- The rank that a `lk.add` names. -/
abbrev lkRank (th : Thread) (f : Fields) : Option Nat := if bit f.variant 3 then some (fld (reg th f.sl5.toNat) 5 0) else none

theorem lkAdd_fits : targetFits (atIssue s t) t (lkAdd s t th f h) = true ↔
    okRange (atIssue s t) t.ctx (localOf (reg th f.sl2.toNat)) (reg th f.sl3.toNat).toNat = true ∧
    Reduces (atIssue s t) t (fld f.variant 2 0) (lkRank th f) (localOf (reg th f.sl2.toNat)) (reg th f.sl3.toNat).toNat := by
  refine targetFits_add rfl (toNat_ofNat_fld f.variant rfl) ?_
  unfold lkRank
  show (if bit f.variant 3 then some (if bit f.variant 3 then BitVec.ofNat 6 (fld (reg th f.sl5.toNat) 5 0) else 0).toNat else none) = _
  cases bit f.variant 3
  · rfl
  · exact congrArg some (toNat_ofNat_fld (reg th f.sl5.toNat) rfl)

include i hf h5

theorem execLkAdd_count (hn : countOk th f) (hd : (reg th f.sl3.toNat).toNat % redBytes (fld f.variant 2 0) ≠ 0) :
    execLkAdd t f s = .next (progFault (atIssue s t) t th.pc fOperand) := by
  refine runThread_fault i.toIssues (s' := atIssue s t) ?_
  refine (bind_dec_ok _ _ hf).trans ((bind_dec_ok _ _ (decide_eq_true i.group)).trans ((bind_src_ok _ i.ready1).trans ?_))
  refine (bind_src_ok _ i.ready2).trans ((bind_src_ok _ i.ready3).trans ((ite_bind_of_ok (src_if h5) _).trans ?_))
  refine (bind_of_ok i.handle _).trans ((bind_of_ok (lkCount_ok _ hn.1 hn.2) _).trans ?_)
  exact bind_needF_fault _ _ _ (beq_eq_false_iff_ne.mpr hd)

theorem execLkAdd_issues (hn : countOk th f) (hd : (reg th f.sl3.toNat).toNat % redBytes (fld f.variant 2 0) = 0)
    (hl : lkRange s t th f h true) : execLkAdd t f s = runThread s t fun s1 th => issueLk s1 t th (lkAdd s t th f h) := by
  refine runThread_body i.toIssues ?_
  refine (bind_dec_ok _ _ hf).trans ((bind_dec_ok _ _ (decide_eq_true i.group)).trans ((bind_src_ok _ i.ready1).trans ?_))
  refine (bind_src_ok _ i.ready2).trans ((bind_src_ok _ i.ready3).trans ((ite_bind_of_ok (src_if h5) _).trans ?_))
  refine (bind_of_ok i.handle _).trans ((bind_of_ok (lkCount_ok _ hn.1 hn.2) _).trans ?_)
  refine (bind_needF_ok _ _ _ (beq_iff_eq.mpr hd)).trans ((bind_of_ok (localRange_ok hl) _).trans ?_)
  unfold lkAdd
  cases bit f.variant 3 <;> rfl

end

/-! #### `lk.mcast` -/

section
variable (hf : formOk f 0 0 [.handle, .scalar, .group 2, .scalar, .imm] = true) (h2 : Ready th (f.sl2 + 1))
include i hf h2

theorem execLkMcast_group (hg : 256 ≤ (reg th f.sl2.toNat).toNat) :
    execLkMcast t f s = .next (progFault (atIssue s t) t th.pc fOperand) := by
  refine runThread_fault i.toIssues (s' := atIssue s t) ?_
  refine (bind_dec_ok _ _ hf).trans ((bind_dec_ok _ _ (decide_eq_true i.group)).trans ((bind_src_ok _ i.ready1).trans ?_))
  refine (bind_of_ok (srcG_first i.ready2) _).trans ((bind_of_ok (src_ready h2) _).trans ((bind_src_ok _ i.ready3).trans ?_))
  exact bind_needF_fault _ _ _ (decide_eq_false (Nat.not_lt.mpr hg))

theorem execLkMcast_ok (hg : (reg th f.sl2.toNat).toNat < 256) (hn : countOk th f) (hl : lkRange s t th f h true) :
    execLkMcast t f s = .next (lkIssued (atIssue s t) t th { lkTo s t th f h .multicastPut with
      proto := { (newLk (atIssue s t) t f.sl4 .multicastPut).proto with mcg := BitVec.ofNat 8 (reg th f.sl2.toNat).toNat }
      remote := localOf (reg th (f.sl2 + 1).toNat) }) := by
  refine runThread_ok i.toIssues ?_
  refine (bind_dec_ok _ _ hf).trans ((bind_dec_ok _ _ (decide_eq_true i.group)).trans ((bind_src_ok _ i.ready1).trans ?_))
  refine (bind_of_ok (srcG_first i.ready2) _).trans ((bind_of_ok (src_ready h2) _).trans ((bind_src_ok _ i.ready3).trans ?_))
  refine (bind_needF_ok _ _ _ (decide_eq_true hg)).trans ((bind_of_ok i.handle _).trans ?_)
  refine (bind_of_ok (lkCount_ok _ hn.1 hn.2) _).trans ((bind_of_ok (localRange_ok hl) _).trans ?_)
  exact issueLk_ok (fun _ => rfl) i.free

end
end

/-! ### `lk.sig` and `lk.wait` -/

theorem execLkSig_ok (i : Issues s t th) (hc : freeCredit (atIssue s t) t.ctx = true) (hf : formOk f 1 0 [.scalar, .imm] = true)
    (hg : f.sl1.toNat < 16) (h0 : Ready th f.sl0) :
    execLkSig t f s = .next (lkIssued (atIssue s t) t th { newLk (atIssue s t) t f.sl1 .signal with
      left := 1
      proto := { (newLk (atIssue s t) t f.sl1 .signal).proto with
        dst := BitVec.ofNat 16 (fld (reg th f.sl0.toNat) 15 0), word3 := reg th f.sl0.toNat, redop := if bit f.variant 0 then 1 else 0 } }) := by
  refine runThread_ok i ?_
  refine (bind_dec_ok _ _ hf).trans ((bind_dec_ok _ _ (decide_eq_true hg)).trans ((bind_src_ok _ h0).trans ?_))
  exact issueLk_ok (fun _ => rfl) hc

theorem execLkWait_eq (i : Issues s t th) (hf : formOk f 0 0 [.imm] = true) (hm : f.sl0 ≠ 0) :
    execLkWait t f s = .next (if groupsDone (notReplayable (atIssue s t) t) t f.sl0 (atIssue s t).seq
      then stepOn (notReplayable (atIssue s t) t) t th
      else setT { notReplayable (atIssue s t) t with seq := (atIssue s t).seq + 1 } t { th with block := .links f.sl0 (atIssue s t).seq }) := by
  refine runThread_ok i ?_
  refine (bind_dec_ok _ _ hf).trans ((bind_dec_ok _ _ (bne_iff_ne.mpr hm)).trans ?_)
  rw [apply_ite (Except.ok (ε := Halt))]

/-- A thread that waits at a `lk.wait` and is not saved. -/
structure LinkWaits (s : State) (t : Tid) (th : Thread) (m : BitVec 16) (seq : Nat) : Prop where
  here : getT? s t = some th
  waits : th.block = .links m seq
  powered : powered s = true
  alive : s.failed = false
  present : present s t = true

theorem execLkWaitDone_eq {m : BitVec 16} {seq : Nat} (w : LinkWaits s t th m seq) :
    execLkWaitDone t s = runPlain (can (groupsDone s t m seq) "a link instruction is not complete (R300)" >>= fun _ =>
      .ok (stepOn s t { th with block := .none })) := by
  refine congrArg runPlain ?_
  have hth : the (getT? s t) "the thread does not exist" = .ok th := by rw [w.here, the_some]
  refine (bind_of_ok hth _).trans ?_
  simp only [w.waits]
  exact bind_of_ok (can_ok _ _ (by rw [w.powered, w.alive, w.present]; rfl)) _

end

/-- Settles O34: the checks of the five operations in their order, the two answers of `lk.wait`, and its end. -/
theorem linkInstructions : Obligations.LinkInstructions := by
  unfold Obligations.LinkInstructions
  intro s t th f s1 w base goes n
  refine ⟨?_, ?_, ?_, ?_⟩
  · intro hi hc h1 h2 h3 hg h hh held reads writes own far kf rank reduces s2 l0 dst put add
    have i : LkIssues s t th f h := ⟨hi, hc, h1, h2, h3, hg, hh⟩
    have hdst {x : Nat} (hd : (BitVec.ofNat 16 (fld (w f.sl2) 63 48)).toNat = x) : fld (w f.sl2) 63 48 = x :=
      (toNat_ofNat_fld (w f.sl2) rfl).symm.trans hd
    refine ⟨?_, ?_, ?_, ?_, ?_, ?_, ?_, ?_, ?_⟩
    · intro hf h5 n1 n2 hr ho
      exact (execLkPut_issues i hf h5 ⟨n1, n2⟩ hr).trans (runThread_ok hi (issueLk_ok (fun hd => ho (hdst hd)) hc))
    · exact fun hf h5 hn => execLkPut_count i hf h5 hn
    · exact fun hf h5 n1 n2 hr => execLkPut_range i hf h5 ⟨n1, n2⟩ hr
    · intro hf h5 n1 n2 hr ho hb
      exact (execLkPut_issues i hf h5 ⟨n1, n2⟩ hr).trans (runThread_fault hi (issueLk_fault ((toNat_ofNat_fld (w f.sl2) rfl).trans ho) hb))
    · exact fun hf n1 n2 hw ho hp hc2 => execLkGet_ok i hf ⟨n1, n2⟩ hw hp ho hc2
    · intro hf h5 n1 n2 hd hr ho
      exact (execLkAdd_issues i hf h5 ⟨n1, n2⟩ hd hr).trans
        (runThread_ok hi (issueLk_ok (fun hd => lkAdd_fits.mpr (ho (hdst hd))) hc))
    · intro hf h5 n1 n2 hd hr ho hb
      exact (execLkAdd_issues i hf h5 ⟨n1, n2⟩ hd hr).trans (runThread_fault hi (issueLk_fault
        ((toNat_ofNat_fld (w f.sl2) rfl).trans ho) (Bool.eq_false_iff.mpr (mt lkAdd_fits.mp hb))))
    · exact fun hf h5 n1 n2 hd => execLkAdd_count i hf h5 ⟨n1, n2⟩ hd
    · exact fun hf hg2 => ⟨fun hm n1 n2 hr => execLkMcast_ok i hf hg2 hm ⟨n1, n2⟩ hr, fun hm => execLkMcast_group i hf hg2 hm⟩
  · exact fun hi hc hf hg h0 => execLkSig_ok hi hc hf hg h0
  · intro hi hf hm s2
    have e := execLkWait_eq hi hf hm
    exact ⟨fun hd => e.trans (by rw [if_pos hd]), fun hd => e.trans (by rw [if_neg (by rw [hd]; exact Bool.false_ne_true)])⟩
  · intro m seq hth hb hp hf hpr
    have e := execLkWaitDone_eq ⟨hth, hb, hp, hf, hpr⟩
    refine ⟨fun hd => e.trans (runPlain_of_ok (bind_of_ok (can_ok _ _ hd) _)), fun hd => ?_⟩
    obtain ⟨why, hw⟩ := runPlain_of_no (x := can (groupsDone s t m seq) "a link instruction is not complete (R300)" >>= fun _ =>
      .ok (stepOn s t { th with block := .none })) ⟨_, by rw [hd]; rfl⟩
    exact ⟨why, e.trans hw⟩

end Sys2Proof.Machine

namespace Sys2Proof.Machine

/-! ## A message heard leaves the device's ID -/

/-- `LNK_ID` is as it was. -/
def SameId (s s' : State) : Prop := getR s' .lnkId = getR s .lnkId

theorem SameId.refl (s : State) : SameId s s := rfl
theorem SameId.trans {s s1 s2 : State} (h1 : SameId s s1) (h2 : SameId s1 s2) : SameId s s2 := Eq.trans h2 h1
theorem SameId.devId {s s' : State} (h : SameId s s') : devId s' = devId s := congrArg (fun w => fld w 15 0) h

theorem setR_sameId {r : Reg} (hr : r.offset ≠ Reg.offset .lnkId) (s : State) (v : Word) : SameId s (setR s r v) := by
  have e : tabGet? (tabPut s.regs r.offset (if v = r.reset then none else some v)) (Reg.offset .lnkId) =
      tabGet? s.regs (Reg.offset .lnkId) := tabGet?_tabPut_other _ _ _ _ (Ne.symm hr)
  exact congrArg (·.getD (Reg.reset .lnkId)) e

theorem foldl_sameId {α : Type} {g : State → α → State} (hg : ∀ s x, SameId s (g s x)) (l : List α) (s : State) :
    SameId s (l.foldl g s) := by
  induction l generalizing s with
  | nil => rfl
  | cons x xs ih => exact (hg s x).trans (ih _)

theorem setF_sameId {r : Reg} (hr : r.offset ≠ Reg.offset .lnkId) (s : State) (hi lo v : Nat) : SameId s (setF s r hi lo v) :=
  setR_sameId hr ..
theorem toHost_sameId (s : State) (o : HostOut) : SameId s (toHost s o) := by grind [SameId, toHost, getR]
theorem setRing_sameId (s : State) (k : Nat) (x : RingSt) : SameId s (setRing s k x) := rfl
theorem setC_sameId (s : State) (c : Nat) (x : CtxSt) : SameId s (setC s c x) := rfl
theorem setT_sameId (s : State) (t : Tid) (x : Thread) : SameId s (setT s t x) := rfl
theorem setReel_sameId (s : State) (p : Nat) (x : ReelSt) : SameId s (setReel s p x) := rfl
theorem setAct_sameId (s : State) (r : Reg) (v : Word) : SameId s (setAct s r v) := rfl
theorem setShared_sameId (s : State) (p n v : Nat) : SameId s (setShared s p n v) := rfl
theorem wr_sameId (s : State) (a : Nat) (bs : List Byte) : SameId s (wr s a bs) := rfl
theorem complete_sameId (s : State) (k n : Nat) (i : Half) (st : Nat) : SameId s (complete s k n i st) := rfl
theorem sendMsix_sameId (s : State) (fn v : Nat) : SameId s (sendMsix s fn v) := by grind [SameId, sendMsix, toHost_sameId, getR]

theorem event_sameId (s : State) (code : Nat) (c p : Option Nat) (d : List Byte) : SameId s (event s code c p d) := by
  have h1 := setF_sameId (r := .evtTail) (by decide)
  have h2 := setR_sameId (r := .evtLost) (by decide)
  grind [SameId, event, toHost, sendMsix_sameId, getR]

theorem bump_sameId {r : Reg} (hr : r.offset ≠ Reg.offset .lnkId) (s : State) (k : Nat) : SameId s (bump s r k) := by
  have h1 := setR_sameId hr
  grind [SameId, bump, eventG, event_sameId]

/-! ### The reel -/

theorem reel_offset (p : Nat) : (Reg.reelCtl p).offset ≠ Reg.offset .lnkId ∧ (Reg.reelStat p).offset ≠ Reg.offset .lnkId ∧
    (Reg.reelLost p).offset ≠ Reg.offset .lnkId ∧ (Reg.reelHead p).offset ≠ Reg.offset .lnkId := by
  simp only [Reg.offset]
  omega

theorem reelLose_sameId (s : State) (p : Nat) : SameId s (reelLose s p) := bump_sameId (reel_offset p).2.2.1 ..
theorem reelRecord_sameId (s : State) (p : Nat) (ty : BitVec 8) (c : Nat) (bs : List Byte) : SameId s (reelRecord s p ty c bs) := by
  grind [SameId, reelRecord, reelLose_sameId, setReel_sameId]
theorem reelOff_sameId (s : State) (p : Nat) : SameId s (reelOff s p) := by
  have h := setF_sameId (reel_offset p).1
  grind [SameId, reelOff, setReel_sameId, setAct_sameId]
theorem reelDone_sameId (s : State) (p : Nat) : SameId s (reelDone s p) := by
  have h := setR_sameId (reel_offset p).2.1
  grind [SameId, reelDone, reelOff_sameId]
theorem reelMismatch_sameId (s : State) (p q : Nat) : SameId s (reelMismatch s p q) := by
  have h := setR_sameId (reel_offset p).2.1
  grind [SameId, reelMismatch, reelOff_sameId, event_sameId]
theorem reelEnd_sameId (s : State) (p : Nat) : SameId s (reelEnd s p) := by grind [SameId, reelEnd, reelDone_sameId]
theorem reelLive_sameId (s : State) (p : Nat) (ty : BitVec 8) (c : Nat) (bs : List Byte) : SameId s (reelLive s p ty c bs) := by
  grind [SameId, reelLive, reelRecord_sameId, reelEnd_sameId, setReel_sameId, reelMismatch_sameId]
theorem reelCommand_sameId (s : State) (c : Nat) (bs : List Byte) : SameId s (reelCommand s c bs) := by
  grind [SameId, reelCommand, reelRecord_sameId]

/-! ### Launches and signals -/

theorem startOne_sameId (s : State) (c : Nat) : SameId s (startOne s c) := by
  have h1 := setR_sameId (r := .detstat c) (by simp only [Reg.offset, ctxOff]; omega)
  refine SameId.trans ?_ (h1 _ _)
  refine SameId.trans ?_ (setC_sameId _ _ _)
  exact SameId.trans (s1 := { s with threads := _, rowStates := _ }) rfl (foldl_sameId (fun s i => setT_sameId s _ _) _ _)

theorem startFillers_sameId (s : State) (c : Nat) : SameId s (startFillers s c) := by
  refine foldl_sameId (fun s d => ?_) _ _
  grind [SameId, startOne_sameId, setC_sameId]
theorem startCtx_sameId (s : State) (c : Nat) : SameId s (startCtx s c) := (startOne_sameId s c).trans (startFillers_sameId _ c)
theorem place_sameId (s : State) (c : Nat) : SameId s (place s c) := by
  have h := foldl_sameId (g := fun s d => setC s d { getC s d with preempt := !(getC s d).saving }) (fun s d => setC_sameId s d _)
  grind [SameId, place, setC_sameId, startCtx_sameId]
theorem serveOne_sameId (s : State) (c : Nat) : SameId s (serveOne s c) := by grind [SameId, serveOne, place_sameId]

theorem addLocal_sameId {s s' : State} {u : Tid} {n k : Nat} (h : addLocal s u n k = some s') : SameId s s' := by
  grind [SameId, addLocal, setT_sameId]
theorem addShared_sameId {s s' : State} {p n k : Nat} (h : addShared s p n k = some s') : SameId s s' := by
  grind [SameId, addShared, setShared_sameId]
theorem applySignal_sameId {s s' : State} {w : Word} {sh : Bool} {cls : Option Nat} (h : applySignal s w sh cls = .ok s') :
    SameId s s' := by
  cases cls <;> grind [SameId, applySignal, addLocal_sameId, addShared_sameId]

/-- What is left of the state by the effect of a record. -/
def effState : Eff → State
  | .ok (s, _) => s
  | .error (s, _) => s

theorem recEnd_sameId (k num : Nat) (id : Half) (e : Eff) : SameId (effState e) (recEnd k num id e) := by
  match e with
  | .error (s, st) => exact complete_sameId s k num id st
  | .ok (s, true) => exact complete_sameId s k num id 0
  | .ok (s, false) => rfl

theorem effLaunch_sameId (s : State) (c num : Nat) (r : Rec) : SameId s (effState (effLaunch s c num r)) := by
  grind [SameId, effState, effLaunch, startCtx_sameId, startFillers_sameId, serveOne_sameId, setC_sameId]
theorem effSignal_sameId (s : State) (c : Nat) (r : Rec) : SameId s (effState (effSignal s c r)) := by
  grind [SameId, effState, effSignal, applySignal_sameId]
theorem effect_sameId (s : State) (k num : Nat) {r : Rec} (hr : recOp r = 2 ∨ recOp r = 6) : SameId s (effState (effect s k num r)) := by
  rcases hr with hr | hr <;> simp only [effect, hr]
  · exact effLaunch_sameId s k num r
  · exact effSignal_sameId s k r

/-! ### Doorbells that a replay held -/

theorem decodeRec_sameId (s : State) (fn k num : Nat) {r : Rec} (hr : recOp r = 2 ∨ recOp r = 6) : SameId s (decodeRec s fn k num r) := by
  have h1 := fun s => effect_sameId s k num hr
  grind [SameId, decodeRec, reelCommand_sameId, complete_sameId, recEnd_sameId]
theorem inlineBell_sameId (s : State) (fn : Nat) (c : CtxN) (b : Bool) (r : Rec) : SameId s (inlineBell s fn c b r) := by
  grind [SameId, inlineBell, decodeRec_sameId, eventC, event_sameId]
theorem ringErr_sameId (s : State) (k : Nat) (r : Reg) : SameId s (ringErr s k r) := by
  grind [SameId, ringErr, eventC, eventReg, eventG, event_sameId]
theorem newTail_sameId (s : State) (fn k v : Nat) : SameId s (newTail s fn k v) := by grind [SameId, newTail, ringErr_sameId, setRing_sameId]
theorem newHead_sameId (s : State) (k v : Nat) : SameId s (newHead s k v) := by grind [SameId, newHead, ringErr_sameId, setRing_sameId]
theorem ringBell_sameId (s : State) (b : Bell) : SameId s (ringBell s b) := by
  cases b <;> grind [SameId, ringBell, tailBell, headBell, newTail_sameId, newHead_sameId, inlineBell_sameId]
theorem releaseBells_sameId (s : State) : SameId s (releaseBells s) :=
  SameId.trans (s1 := { s with bells := _ }) rfl (foldl_sameId ringBell_sameId _ _)
theorem headerSeen_sameId (s : State) (p : Nat) (m : Msg) : SameId s (headerSeen s p m) :=
  (reelLive_sameId s p 2 m.ctx (reelHdr m)).trans (releaseBells_sameId _)

theorem leftInbox_sameId (s : State) (e : InMsg) : SameId s (leftInbox s e) := by grind [SameId, leftInbox, giveCredit, toLink, getR]

end Sys2Proof.Machine

namespace Sys2Proof.Machine

/-! ## Remote accesses at their target (R384, R385) -/

section
variable {s : State} {m : Msg} {e : InMsg}

/-- A message of this device that has come, and the buffer entry that holds it. -/
structure Comes (s : State) (m : Msg) (e : InMsg) : Prop where
  up : linksUp s = true
  here : m.dst.toNat = devId s
  found : s.inbox.find? (fun e => e.m == m) = some e

/-- The state that has heard the message: its header is the partition's, where a partition records it (R359). -/
def heardBy (s : State) (m : Msg) (e : InMsg) (p : Option Nat) : State := match p with
  | some p => headerSeen (leftInbox s e) p m
  | none => leftInbox s e

theorem bind_of_error {α β : Type} {x : Ex α} {e : Halt} (h : x = .error e) (k : α → Ex β) : (x >>= k) = .error e := by
  rw [h, ex_error_bind]

theorem heardBy_devId (s : State) (m : Msg) (e : InMsg) (p : Option Nat) : devId (heardBy s m e p) = devId s := by
  cases p with
  | none => exact (leftInbox_sameId s e).devId
  | some p => exact ((leftInbox_sameId s e).trans (headerSeen_sameId _ p m)).devId

theorem Comes.msg (c : Comes s m e) : e.m = m := by simpa using List.find?_some c.found

theorem Comes.take (c : Comes s m e) : takeMsg s m = .ok (leftInbox s e, e.came) := by
  rw [takeMsg, c.found, the_some, ex_ok_bind, leftInbox, c.msg] <;> rfl

theorem Comes.arrives (c : Comes s m e) {op : MsgOp} (ho : m.op = op) (p : Option Nat) :
    arrives s m op p = .ok (heardBy s m e p, e.came) := by
  rw [Machine.arrives, can_ok _ _ c.up, ex_ok_bind, can_ok _ _ (by simp [ho, c.here]), ex_ok_bind, c.take, ex_ok_bind]
  cases p <;> rfl

/-- The partition that hears a request: the one whose context it signals, or the owner of the address. -/
abbrev hearer (s : State) (m : Msg) (op : MsgOp) : Option Nat :=
  if op == .signal then some (partOf (fld m.word3 21 16)) else ownerAt s m.addr.toNat

theorem serveRequest_ok (c : Comes s m e) {op : MsgOp} (ho : m.op = op) {s2 : State} {r : Msg}
    (h : atTarget (heardBy s m e (hearer s m op)) m = .ok (s2, r)) : serveRequest s m op = .next (sendResponse s2 r) :=
  runPlain_of_ok ((bind_of_ok (c.arrives ho _) _).trans (bind_of_ok h _))

theorem serveRequest_no (c : Comes s m e) {op : MsgOp} (ho : m.op = op)
    (h : ∃ why, atTarget (heardBy s m e (hearer s m op)) m = .error (.no why)) :
    ∃ why, serveRequest s m op = .refused (.notEnabled why) := by
  obtain ⟨why, h⟩ := h
  exact runPlain_of_no ⟨why, (bind_of_ok (c.arrives ho _) _).trans (bind_of_error h _)⟩

/-! ### The checks of an access from another device -/

/-- What an access of another device needs: an owner of the whole range, whose import window has its device. -/
def Reaches (s : State) (m : Msg) (len : Nat) (reads : Bool) (p : Nat) : Prop :=
  ownerAt s m.addr.toNat = some p ∧ m.addr.toNat + len ≤ hostBase ∧ mayAccessRange s p m.addr.toNat len = true ∧
    (reads = true → inReel s m.addr.toNat len = false) ∧
    let w := getR s (.lnkImport p)
    bit w 63 = true ∧ fld w 15 0 ≤ m.src.toNat ∧ m.src.toNat ≤ fld w 31 16

theorem reachTarget_iff {len p : Nat} {reads : Bool} (hs : m.src.toNat ≠ devId s) :
    reachTarget s m len reads = .ok p ↔ Reaches s m len reads p := by
  rw [reachTarget, if_neg hs, Reaches]
  cases ho : ownerAt s m.addr.toNat with
  | none => simp
  | some q =>
    have hr : (!(decide (m.addr.toNat + len ≤ hostBase)) || !mayAccessRange s q m.addr.toNat len ||
        (reads && inReel s m.addr.toNat len)) = true ↔
        ¬ (m.addr.toNat + len ≤ hostBase ∧ mayAccessRange s q m.addr.toNat len = true ∧
          (reads = true → inReel s m.addr.toNat len = false)) := by
      cases reads <;> cases inReel s m.addr.toNat len <;> cases mayAccessRange s q m.addr.toNat len <;> simp
    have hi : (bit (getR s (.lnkImport q)) 63 && decide (fld (getR s (.lnkImport q)) 15 0 ≤ m.src.toNat) &&
        decide (m.src.toNat ≤ fld (getR s (.lnkImport q)) 31 16)) = true ↔
        (bit (getR s (.lnkImport q)) 63 = true ∧ fld (getR s (.lnkImport q)) 15 0 ≤ m.src.toNat ∧
          m.src.toNat ≤ fld (getR s (.lnkImport q)) 31 16) := by simp [and_assoc]
    simp only [hr, hi]
    by_cases h1 : m.addr.toNat + len ≤ hostBase ∧ mayAccessRange s q m.addr.toNat len = true ∧
        (reads = true → inReel s m.addr.toNat len = false)
    · rw [if_neg (not_not.mpr h1)]
      split <;> rename_i h2
      · constructor
        · rintro ⟨⟩
          exact ⟨rfl, h1.1, h1.2.1, h1.2.2, h2⟩
        · rintro ⟨⟨⟩, -⟩
          rfl
      · refine ⟨nofun, ?_⟩
        rintro ⟨⟨⟩, -, -, -, h⟩
        exact absurd h h2
    · rw [if_pos h1]
      refine ⟨nofun, ?_⟩
      rintro ⟨⟨⟩, ha, hb, hc, -⟩
      exact absurd ⟨ha, hb, hc⟩ h1

/-! ### Puts -/

theorem targetPut_refused {k : Nat} (h : reachTarget s m m.data.length false = .error k) : targetPut s m = .ok (s, refuse m k) := by
  rw [targetPut, h]

section
variable {p : Nat} {s2 : State} (h : reachTarget s m m.data.length false = .ok p) (ha : admitRemote s m m.data.length true = .ok s2)
include h ha

theorem targetPut_plain (hs : m.sig = false) : targetPut s m = .ok (putA s2 m.ctx m.addr.toNat m.data, ackOf m) := by
  simp only [targetPut, h, bind_of_ok ha, hs, Bool.false_eq_true, if_false]

theorem targetPut_signal (hs : m.sig = true) {s4 : State}
    (hg : applySignal (putA s2 m.ctx m.addr.toNat m.data) m.word3 (bit m.redop 0) (some m.cls.toNat) = .ok s4) :
    targetPut s m = .ok (s4, ackOf m) := by
  simp only [targetPut, h, bind_of_ok ha, hs, if_true, hg]

theorem targetPut_signal_refused (hs : m.sig = true) {k : Nat}
    (hg : applySignal (putA s2 m.ctx m.addr.toNat m.data) m.word3 (bit m.redop 0) (some m.cls.toNat) = .error k) :
    targetPut s m = .ok (s, refuse m k) := by
  simp only [targetPut, h, bind_of_ok ha, hs, if_true, hg]

end

/-! ### Adds -/

/-- The rank of an add. -/
abbrev addRank (m : Msg) : Option Nat := if m.ranked then some m.rank.toNat else none

/-- An add is on its element, and every piece of it may be reduced where it is. -/
def AddFits (s : State) (m : Msg) (p : Nat) : Prop :=
  m.addr.toNat % redBytes m.redop.toNat = 0 ∧ m.data.length % redBytes m.redop.toNat = 0 ∧
    (redPieces m.addr.toNat m.data).all (fun x => redAllowed s p m.redop.toNat x.1 (addRank m)) = true

theorem addFits_iff {p : Nat} : (m.addr.toNat % redBytes m.redop.toNat != 0 || m.data.length % redBytes m.redop.toNat != 0 ||
    !(redPieces m.addr.toNat m.data).all (fun x => redAllowed s p m.redop.toNat x.1 (addRank m))) = true ↔ ¬ AddFits s m p := by
  rw [AddFits]
  generalize (redPieces m.addr.toNat m.data).all _ = b
  cases b <;> simp [Classical.or_iff_not_imp_left]

theorem targetAdd_refused {k : Nat} (h : reachTarget s m m.data.length false = .error k) : targetAdd s m = .ok (s, refuse m k) := by
  rw [targetAdd, h]

section
variable {p : Nat} (h : reachTarget s m m.data.length false = .ok p)
include h

theorem targetAdd_misfit (hf : ¬ AddFits s m p) : targetAdd s m = .ok (s, refuse m lkAddress) := by
  simp only [targetAdd, h]
  exact if_pos (addFits_iff.mpr hf)

theorem targetAdd_fits (hf : AddFits s m p) : targetAdd s m =
    can (!holdHot s p m.redop.toNat m.addr.toNat m.data.length) "a stack's controller issues nothing (R187)" >>= fun _ =>
    admitRemote s m m.data.length true >>= fun s1 =>
    if ueIn s1 m.addr.toNat m.data.length then .ok (s1, refuse m lkMemUe)
    else .ok (redAll s1 p (countCtx s m) m.redop.toNat m.addr.toNat m.data (addRank m), ackOf m) := by
  simp only [targetAdd, h]
  exact if_neg (mt addFits_iff.mp (not_not.mpr hf))

end

/-! ### Get requests -/

theorem targetGet_refused {k : Nat} (h : reachTarget s m (m.len.toNat + 1) true = .error k) : targetGet s m = .ok (s, refuse m k) := by
  simp only [targetGet, h]

section
variable {p : Nat} {s2 : State} (h : reachTarget s m (m.len.toNat + 1) true = .ok p)
  (ha : admitRemote s m (m.len.toNat + 1) false = .ok s2)
include h ha

theorem targetGet_ok (hu : ueIn s2 m.addr.toNat (m.len.toNat + 1) = false) {s3 : State}
    (hs : askOutside s2 m.ctx m.addr.toNat (m.len.toNat + 1) = .ok s3) :
    targetGet s m = .ok (s3, respond m .getResponse 0 (rd s3 m.addr.toNat (m.len.toNat + 1))) := by
  simp only [targetGet, h, bind_of_ok ha, hu, Bool.false_eq_true, if_false, bind_of_ok hs]

theorem targetGet_ue (hu : ueIn s2 m.addr.toNat (m.len.toNat + 1) = true) (hs : m.src.toNat ≠ devId s) :
    targetGet s m = .ok (s2, refuse m lkAddress) := by
  simp only [targetGet, h, bind_of_ok ha, hu, if_true, if_neg hs]

end

/-! ### Signals -/

theorem targetSignal_ok {s3 : State} (h : applySignal s m.word3 (bit m.redop 0) (some m.cls.toNat) = .ok s3) :
    targetSignal s m = (s3, ackOf m) := by rw [targetSignal, h]
theorem targetSignal_refused {k : Nat} (h : applySignal s m.word3 (bit m.redop 0) (some m.cls.toNat) = .error k) :
    targetSignal s m = (s, refuse m k) := by rw [targetSignal, h]

theorem atTarget_put (h : m.op = .put) : atTarget s m = targetPut s m := by rw [atTarget, h]
theorem atTarget_add (h : m.op = .add) : atTarget s m = targetAdd s m := by rw [atTarget, h]
theorem atTarget_get (h : m.op = .getRequest) : atTarget s m = targetGet s m := by rw [atTarget, h]
theorem atTarget_signal (h : m.op = .signal) : atTarget s m = .ok (targetSignal s m) := by rw [atTarget, h]

end

/-- Settles O35: the four kinds of requests, each with its answer. -/
theorem remoteAccesses : Obligations.RemoteAccesses := by
  unfold Obligations.RemoteAccesses
  intro s m e hup hdst hfind heard a n s1
  have c : Comes s m e := ⟨hup, hdst, hfind⟩
  have hid : devId s1 = devId s := heardBy_devId s m e (ownerAt s a)
  refine ⟨fun hs len reads p => ?_, fun ho => ⟨?_, ?_⟩, fun ho => ⟨?_, ?_⟩, fun ho => ⟨?_, ?_⟩, fun ho => ⟨?_, ?_⟩⟩
  · exact reachTarget_iff (fun hh => hs (hh.trans hid))
  · exact fun k h => serveRequest_ok c ho ((atTarget_put ho).trans (targetPut_refused h))
  · intro p s2 h ha s3
    refine ⟨fun hs => ?_, fun s4 hs hg => ?_, fun k hs hg => ?_⟩ <;> refine serveRequest_ok c ho ((atTarget_put ho).trans ?_)
    · exact targetPut_plain h ha hs
    · exact targetPut_signal h ha hs hg
    · exact targetPut_signal_refused h ha hs hg
  · exact fun k h => serveRequest_ok c ho ((atTarget_add ho).trans (targetAdd_refused h))
  · intro p h op rank fits
    refine ⟨fun hf => ?_, fun hf hh => ?_, fun s2 hf hh ha => ⟨fun hu => ?_, fun hu => ?_⟩⟩
    · exact serveRequest_ok c ho ((atTarget_add ho).trans (targetAdd_misfit h hf))
    · exact serveRequest_no c ho ⟨_, ((atTarget_add ho).trans (targetAdd_fits h hf)).trans (by rw [show holdHot _ _ _ _ _ = true from hh]; rfl)⟩
    all_goals
      refine serveRequest_ok c ho ((atTarget_add ho).trans ((targetAdd_fits h hf).trans ?_))
      refine (bind_of_ok (can_ok _ _ (by rw [show holdHot _ _ _ _ _ = false from hh]; rfl)) _).trans ((bind_of_ok ha _).trans ?_)
    · exact if_neg (by rw [show ueIn _ _ _ = false from hu]; exact Bool.false_ne_true)
    · exact if_pos hu
  · exact fun k h => serveRequest_ok c ho ((atTarget_get ho).trans (targetGet_refused h))
  · intro p s2 h ha
    refine ⟨fun s3 hu hs => ?_, fun hu hs => ?_⟩ <;> refine serveRequest_ok c ho ((atTarget_get ho).trans ?_)
    · exact targetGet_ok h ha hu hs
    · exact targetGet_ue h ha hu (fun hh => hs (hh.trans hid))
  · exact fun s3 h => serveRequest_ok c ho ((atTarget_signal ho).trans (congrArg Except.ok (targetSignal_ok h)))
  · exact fun k h => serveRequest_ok c ho ((atTarget_signal ho).trans (congrArg Except.ok (targetSignal_refused h)))

end Sys2Proof.Machine

namespace Sys2Proof.Machine

/-! ## Multicast puts, draft tiles and tile requests (R385, R391-R393) -/

section
variable {s : State} {m : Msg} {e : InMsg}

/-! ### Multicast puts -/

/-- The state in which the copies of a multicast put are on their way. -/
def mcastSpread (s s0 : State) (m : Msg) (came : Option (Nat × Nat)) (hold : Option Nat) : State :=
  let s1 := match ownerAt s m.addr.toNat with
    | some p => headerSeen s0 p m
    | none => s0
  closeHeld (match boxOf s1 m.mcg.toNat with
    | some b => spread s1 (b.next (here s1)) came hold m
    | none => s1) hold

section
variable (c : Comes s m e) (ho : m.op = .multicastPut) {s0 : State} {came : Option (Nat × Nat)} {hold : Option Nat}
  (hm : holdMsg s m = .ok (s0, came, hold))
include c ho hm

theorem execMulticastPut_eq : execMulticastPut m s = runPlain (if m.src.toNat = devId s then .ok (mcastSpread s s0 m came hold)
    else atTarget (mcastSpread s s0 m came hold) m >>= fun p => .ok (sendResponse p.1 p.2)) := by
  refine congrArg runPlain ((bind_of_ok (can_ok _ _ c.up) _).trans ((bind_of_ok (can_ok _ _ ?_) _).trans ?_))
  · rw [ho, c.here, beq_self_eq_true, beq_self_eq_true]; rfl
  · exact (bind_of_ok hm _).trans rfl

theorem execMulticastPut_source (hs : m.src.toNat = devId s) : execMulticastPut m s = .next (mcastSpread s s0 m came hold) := by
  rw [execMulticastPut_eq c ho hm, if_pos hs]
  rfl

theorem execMulticastPut_member (hs : m.src.toNat ≠ devId s) {s3 : State} {r : Msg}
    (ht : atTarget (mcastSpread s s0 m came hold) m = .ok (s3, r)) : execMulticastPut m s = .next (sendResponse s3 r) := by
  rw [execMulticastPut_eq c ho hm, if_neg hs]
  exact runPlain_of_ok (bind_of_ok ht _)

end

/-! ### Draft tiles -/

/-- The state in which the streams that a part of a draft tile reaches have taken it, or dropped. -/
def tileTaken (s : State) (m : Msg) : State :=
  (reachedBy s m).foldl (fun s x => match stream? s x.t x.sid with
    | some y => takeTileMsg s y m
    | none => s) s

theorem any_waits_iff : (reachedBy s m).any (fun x => tileFit s x m == .waits) = true ↔ ∃ x ∈ reachedBy s m, tileFit s x m = .waits := by
  simp

theorem execDraftTile_ends (hn : ∀ x ∈ reachedBy s m, tileFit s x m ≠ .waits) {s2 : State} {came : Option (Nat × Nat)}
    (ht : takeMsg (tileTaken s m) m = .ok (s2, came)) (hup : linksUp (tileTaken s m) = true) (ho : m.op = .draftTile)
    (hd : m.dst.toNat = devId (tileTaken s m)) :
    execDraftTile m s = .next (sendResponse (headerSeen s2 (partOf m.ctx) m) (ackOf m)) := by
  have hw : ¬ (reachedBy s m).any (fun x => tileFit s x m == .waits) = true := by
    rw [any_waits_iff]
    rintro ⟨x, hx, h⟩
    exact hn x hx h
  have ha : arrives (tileTaken s m) m .draftTile (some (partOf m.ctx)) = .ok (headerSeen s2 (partOf m.ctx) m, came) :=
    (bind_of_ok (can_ok _ _ hup) _).trans ((bind_of_ok (can_ok _ _ (by rw [ho, hd, beq_self_eq_true, beq_self_eq_true]; rfl)) _).trans
      (bind_of_ok ht _))
  exact runPlain_of_ok ((if_neg hw).trans (bind_of_ok ha _))

theorem execDraftTile_waits (c : Comes s m e) (hw : ∃ x ∈ reachedBy s m, tileFit s x m = .waits) :
    execDraftTile m s = runPlain (can (decide (tileTaken s m ≠ s)) "no member can take the tile" >>= fun _ => .ok (tileTaken s m)) := by
  have hany : s.inbox.any (fun e => e.m == m) = true := by
    rw [List.any_eq_true]
    exact ⟨e, List.mem_of_find?_eq_some c.found, by rw [c.msg, beq_self_eq_true]⟩
  refine congrArg runPlain ((if_pos (any_waits_iff.mpr hw)).trans ?_)
  rw [c.up, c.here, hany, beq_self_eq_true]
  rfl

/-! ### Tile requests -/

/-- What a tile request reads at its source may be read: inside the device, and no word of it is uncorrectable. -/
def SourceReadable (s : State) (c : Nat) (x : Stream) (p : Geo) : Prop :=
  (∀ k ∈ loadParts x p, farOutside k.h = false ∧ ∀ y ∈ k.ss, okRead s c y.1 y.2 = true ∧ ueV s c k.h.idx y.1 y.2 = false) ∧
    slubsOk s (readV s c) x p = .ok ()

theorem sourceReadable_iff {c : Nat} {x : Stream} {p : Geo} : ((loadParts x p).all (fun k => !farOutside k.h &&
    k.ss.all (fun a => okRead s c a.1 a.2 && !ueV s c k.h.idx a.1 a.2)) && passes (slubsOk s (readV s c) x p)) = true ↔
    SourceReadable s c x p := by
  have hp : passes (slubsOk s (readV s c) x p) = true ↔ slubsOk s (readV s c) x p = .ok () := by
    cases slubsOk s (readV s c) x p <;> simp [passes]
  rw [Bool.and_eq_true, hp, SourceReadable]
  simp only [List.all_eq_true, Bool.and_eq_true, Bool.not_eq_true']

/-- A tile request that has come, whose group is found: `s1` has heard it, and `x` is the group's source. -/
theorem execTileRequest_none (c : Comes s m e) (ho : m.op = .tileRequest) {s1 : State} (h1 : s1 = heardBy s m e (some (partOf m.ctx)))
    (hg : s1.groups.find? (fun g => g.ctx == m.ctx && g.tag == m.mcg.toNat) = none) :
    execTileRequest m s = .next (sendResponse s1 (refuse m lkAddress)) := by
  subst h1
  refine runPlain_of_ok ((bind_of_ok (c.arrives ho _) _).trans ?_)
  simp only [hg]

section
variable {s1 : State} (c : Comes s m e) (ho : m.op = .tileRequest) (h1 : s1 = heardBy s m e (some (partOf m.ctx))) {g : Group}
  (hg : s1.groups.find? (fun g => g.ctx == m.ctx && g.tag == m.mcg.toNat) = some g)
include c ho h1 hg

theorem execTileRequest_noTile (hx : (groupSrc s1 g).geo (tileOf m) = none) :
    execTileRequest m s = .next (sendResponse s1 (refuse m lkAddress)) := by
  subst h1
  refine runPlain_of_ok ((bind_of_ok (c.arrives ho _) _).trans ?_)
  simp only [hg, hx]

variable {p : Geo} (hx : (groupSrc s1 g).geo (tileOf m) = some p)
include hx

theorem execTileRequest_unreadable (hr : ¬ SourceReadable s1 (groupSrc s1 g).t.ctx (groupSrc s1 g) p) :
    execTileRequest m s = .next (sendResponse s1 (refuse m lkAddress)) := by
  subst h1
  refine runPlain_of_ok ((bind_of_ok (c.arrives ho _) _).trans ?_)
  simp only [hg, hx]
  exact if_neg (mt sourceReadable_iff.mp hr)

theorem execTileRequest_readable {s2 s3 : State} (hr : SourceReadable s1 (groupSrc s1 g).t.ctx (groupSrc s1 g) p)
    (ha : admitAll s1 (quarterOf s1 (groupSrc s1 g).t) (groupSrc s1 g).t.ctx
      (readReach s1 (groupSrc s1 g).t.ctx (loadParts (groupSrc s1 g) p)) false = .ok s2)
    (h3 : s3 = if tileParts (loadBytes (readV s1 (groupSrc s1 g).t.ctx) (groupSrc s1 g) p).1.length ≤ partOfTile m
      then sendResponse s1 (refuse m lkAddress)
      else sendResponse (accessPages s2 (groupSrc s1 g).t.ctx (readReach s1 (groupSrc s1 g).t.ctx (loadParts (groupSrc s1 g) p)))
        { respond m .getResponse 0 (((loadBytes (readV s1 (groupSrc s1 g).t.ctx) (groupSrc s1 g) p).1.drop
            (partBytes * partOfTile m)).take partBytes) with
          addr := tileAddr (tileOf m) (partOfTile m) (tileParts (loadBytes (readV s1 (groupSrc s1 g).t.ctx) (groupSrc s1 g) p).1.length)
          last := (groupSrc s1 g).total == some (tileOf m + 1) }) :
    execTileRequest m s = .next s3 := by
  subst h1
  refine runPlain_of_ok ((bind_of_ok (c.arrives ho _) _).trans ?_)
  simp only [hg, hx]
  refine (if_pos (sourceReadable_iff.mpr hr)).trans ((bind_of_ok ha _).trans ?_)
  rw [h3, apply_ite (Except.ok (ε := Halt))]

end
end

/-- Settles O37: the copies of a multicast put, a part of a draft tile at its members, and a tile request at its source. -/
theorem multicastMessages : Obligations.MulticastMessages := by
  unfold Obligations.MulticastMessages
  intro s m e hup hdst hfind heard n
  have c : Comes s m e := ⟨hup, hdst, hfind⟩
  refine ⟨?_, ?_, ?_⟩
  · intro ho s0 came hold hm s1 s2
    exact ⟨fun hs => execMulticastPut_source c ho hm hs, fun s3 r hs ht => execMulticastPut_member c ho hm hs ht⟩
  · intro ho xs s1
    refine ⟨fun hn s2 came ht hl hd => execDraftTile_ends hn ht hl ho (hdst.trans hd.symm), fun hw => ?_⟩
    have e := execDraftTile_waits c hw
    refine ⟨fun hne => e.trans (runPlain_of_ok (bind_of_ok (can_ok _ _ (decide_eq_true hne)) _)), fun heq => ?_⟩
    show ∃ why, execDraftTile m s = .refused (.notEnabled why)
    rw [e]
    exact runPlain_of_no (stops_can (decide_eq_false (not_not.mpr heq)))
  · intro ho s1 refused found
    refine ⟨fun hg => execTileRequest_none c ho rfl hg, fun g hg => ?_⟩
    intro x cx
    refine ⟨fun hx => execTileRequest_noTile c ho rfl hg hx, fun p hx => ?_⟩
    intro ps data k readable
    refine ⟨fun hr => execTileRequest_unreadable c ho rfl hg hx hr, fun s2 hr ha => ⟨fun hk => ?_, fun hk => ?_⟩⟩
    · exact execTileRequest_readable c ho rfl hg hx hr ha (if_pos hk).symm
    · exact execTileRequest_readable c ho rfl hg hx hr ha (if_neg (Nat.not_le.mpr hk)).symm

end Sys2Proof.Machine

namespace Sys2Proof.Machine

/-! ## Responses at the issuer (R385, R386, R389, R390, R394) -/

section
variable {s : State} {m : Msg} {e : InMsg}

/-- The state that has heard a response. -/
abbrev responseHeard (s : State) (m : Msg) (e : InMsg) : State := headerSeen (leftInbox s e) (partOf m.ctx) m

theorem takeResponse_ok (c : Comes s m e) {op : MsgOp} (ho : m.op = op) {s2 : State} (h : onResponse (responseHeard s m e) m = .ok s2) :
    takeResponse s m op = .next (pumpCtx s2 m.ctx) :=
  runPlain_of_ok ((bind_of_ok (c.arrives ho _) _).trans (bind_of_ok h _))

/-- A response whose tag is not taken, or is taken again, is discarded and counted. -/
theorem onResponse_stale (h : outMsg? s m.ctx m.tag = none ∨ m.epoch ≠ epochOf s m.ctx m.tag) :
    onResponse s m = .ok (bumpC s m.ctx kLkStale 1) := by
  rw [onResponse]
  cases ho : outMsg? s m.ctx m.tag with
  | none => rfl
  | some o =>
    rcases h with h | h
    · rw [ho] at h; cases h
    · exact if_pos (bne_iff_ne.mpr h)

/-- The operation that a response answers. -/
abbrev answeredOp (s : State) (o : OutMsg) : LkOp :=
  if o.op == .draftTile || o.op == .tileRequest then draftOp s o else (lkop? s o.lk).getD (draftOp s o)

theorem answeredOp_lk {o : OutMsg} {l : LkOp} (h1 : o.op ≠ .draftTile) (h2 : o.op ≠ .tileRequest) (h : lkop? s o.lk = some l) :
    answeredOp s o = l := by
  rw [answeredOp, if_neg (by simp [h1, h2]), h]
  rfl

section
variable {o : OutMsg} (ho : outMsg? s m.ctx m.tag = some o) (he : m.epoch = epochOf s m.ctx m.tag)
include ho he

theorem onResponse_ack (hm : m.op = .acknowledgement) :
    onResponse s m = .ok (answered (if o.op == .draftTile then tileAcked s o else s) o [m.src.toNat] true) := by
  simp only [onResponse, ho, he, bne_self_eq_false, Bool.false_eq_true, if_false, hm]

theorem onResponse_refusal (hm : m.op = .refusal) : onResponse s m =
    .ok (answered (answerFault s (answeredOp s o) o (m.word3.toNat % 256) m.epoch m.src.toNat) o [m.src.toNat] false) := by
  simp only [onResponse, ho, he, bne_self_eq_false, Bool.false_eq_true, if_false, hm]

variable (hm : m.op = .getResponse) (ht : o.op ≠ .tileRequest)
include hm ht

theorem onResponse_get {s2 : State} (h : landGet s o (m.data.take o.len) = .ok s2) :
    onResponse s m = .ok (answered s2 o [m.src.toNat] true) := by
  have ht' : (o.op == .tileRequest) = false := beq_eq_false_iff_ne.mpr ht
  simp only [onResponse, ho, he, bne_self_eq_false, Bool.false_eq_true, if_false, hm, ht', h]

theorem onResponse_get_fault {s2 : State} {f : PFault} (h : landGet s o (m.data.take o.len) = .error (.fault s2 f))
    (hf : o.free = false) : onResponse s m = .ok (answered (threadFault s2 (answeredOp s o).t f) o [m.src.toNat] false) := by
  have ht' : (o.op == .tileRequest) = false := beq_eq_false_iff_ne.mpr ht
  simp only [onResponse, ho, he, bne_self_eq_false, Bool.false_eq_true, if_false, hm, ht', h, hf, answeredOp]

end

theorem answerFault_link {l : LkOp} {o : OutMsg} {cause : Nat} {ep : BitVec 4} {dev : Nat} (hq : l.quiet = false) (hc : cause ≠ lkMemUe) :
    answerFault s l o cause ep dev = threadFault s l.t (fLink cause l.group o.tag.toNat ep.toNat dev) := by
  rw [answerFault, if_neg hc, linkFault, if_neg (by simp [hq])]
theorem answerFault_ue {l : LkOp} {o : OutMsg} {cause : Nat} {ep : BitVec 4} {dev : Nat} (hq : l.quiet = false) (hc : cause = lkMemUe) :
    answerFault s l o cause ep dev = threadFault s l.t (fMemUe o.goal) := by
  rw [answerFault, if_pos hc, if_neg (by simp [hq])]
theorem answerFault_quiet {l : LkOp} {o : OutMsg} {cause : Nat} {ep : BitVec 4} {dev : Nat} (hq : l.quiet = true) :
    answerFault s l o cause ep dev = s := by
  rw [answerFault, linkFault, if_pos hq, if_pos hq, ite_self]

theorem landGet_out {o : OutMsg} {data : List Byte} (hr : okRange s o.ctx o.loc data.length = false) (hf : o.free = false) :
    landGet s o data = .error (.fault s (fAddr (gAddr s o.loc))) := by
  simp only [landGet, hr, hf, Bool.not_false, if_true, Bool.false_eq_true, if_false]

/-- Whether a message is unanswered for TMO strokes. -/
abbrev Late (s : State) (o : OutMsg) : Prop := fld (actR s .lnkCfg) 15 8 ≤ (strokeNow s - BitVec.ofNat 64 o.edge).toNat

theorem execResponseTimeout_eq {c : CtxN} {tag : BitVec 12} {o : OutMsg} (hup : linksUp s = true) (ho : outMsg? s c tag = some o) :
    execResponseTimeout c tag s = runPlain (can (decide (Late s o)) "TMO strokes have not passed (R390)" >>= fun _ =>
      .ok (pumpCtx (finished (linkFault (bumpC s c kLkTmo 1) (answeredOp s o) lkTimeout tag (epochOf s c tag) (o.due.headD o.dst.toNat))
        o false) c)) := by
  have ho' : the (outMsg? s c tag) "the tag is not taken" = .ok o := by rw [ho, the_some]
  exact congrArg runPlain ((bind_of_ok (can_ok _ _ hup) _).trans (bind_of_ok ho' _))

/-- The last message of a put with SIG is kept back for good where another message of it has failed (R386). -/
theorem maySend_failed {l : LkOp} (hf : l.failed = true) (hs : l.sig.isSome = true) (hl : l.left ≤ nextLen l) (s : State) :
    maySend s l = false := by
  simp [maySend, barred, hf, hs, hl]

end

/-- Settles O38: the answers to a link operation, the timeout, and what a failed message keeps back. -/
theorem responsesAtIssuer : Obligations.ResponsesAtIssuer := by
  unfold Obligations.ResponsesAtIssuer
  refine ⟨?_, ?_, fun l hf hs hl s => maySend_failed hf hs hl s⟩
  · intro s m e hup hdst hfind c s1 dev cause ends
    have k : Comes s m e := ⟨hup, hdst, hfind⟩
    refine ⟨fun hst => ⟨fun ho => ?_, fun ho => ?_, fun ho => ?_⟩, fun o ho he => ⟨?_, ?_, ?_, ?_⟩⟩
    any_goals exact takeResponse_ok k ho (onResponse_stale hst)
    · intro hm hd
      exact takeResponse_ok k hm ((onResponse_ack ho he hm).trans (by rw [if_neg (by simp [hd])]))
    · intro hm hd more
      have h := onResponse_ack ho he hm
      rw [if_pos (by simp [hd]), tileAcked] at h
      exact ⟨fun h1 => takeResponse_ok k hm (h.trans (by rw [if_pos h1])),
        fun h1 => takeResponse_ok k hm (h.trans (by rw [if_neg (Bool.eq_false_iff.mp h1)]))⟩
    · intro l hm h1 h2 hl
      have h := onResponse_refusal ho he hm
      rw [answeredOp_lk h1 h2 hl] at h
      exact ⟨fun hq => takeResponse_ok k hm (h.trans (by rw [answerFault_quiet hq])),
        fun hq hc => takeResponse_ok k hm (h.trans (by rw [answerFault_link hq hc])),
        fun hq hc => takeResponse_ok k hm (h.trans (by rw [answerFault_ue hq hc]))⟩
    · intro hm ht
      refine ⟨fun s2 h => takeResponse_ok k hm (onResponse_get ho he hm ht h), fun l hd hl hf hr hc => ?_⟩
      have h := onResponse_get_fault ho he hm ht (landGet_out (by rw [hc]; exact hr) hf) hf
      rw [answeredOp_lk hd ht hl] at h
      exact takeResponse_ok k hm h
  · intro s c tag o hup ho late
    have h := execResponseTimeout_eq hup ho
    refine ⟨fun l hlate h1 h2 hl => ?_, fun hlate => ?_⟩
    · rw [answeredOp_lk h1 h2 hl] at h
      exact h.trans (runPlain_of_ok (bind_of_ok (can_ok _ _ (decide_eq_true hlate)) _))
    · show ∃ why, execResponseTimeout c tag s = .refused (.notEnabled why)
      rw [h]
      exact runPlain_of_no (stops_can (decide_eq_false hlate))

end Sys2Proof.Machine

namespace Sys2Proof.Machine

/-! ## Skein ports (R370-R374, R376, R379) -/

section
variable {s : State} {port : PortN}

/-! ### What the events leave of the ports -/

theorem event_ports (s : State) (code : Nat) (c p : Option Nat) (d : List Byte) : (event s code c p d).ports = s.ports := by
  grind [event, toHost, setF, setR, sendMsix]
theorem bump_ports (s : State) (r : Reg) (k : Nat) : (bump s r k).ports = s.ports := by grind [bump, eventG, event_ports, setR]
theorem bump_getPort (s : State) (r : Reg) (k n : Nat) : getPort (bump s r k) n = getPort s n := by rw [getPort, getPort, bump_ports]

@[simp] theorem getPort_setPortSt (s : State) (n : Nat) (x : PortSt) : getPort (setPortSt s n x) n = x :=
  tabGet_tabSet_self _ _ _ _

/-! ### Training -/

theorem execPortTrain_first (hm : mayTrain s port = true) (h2 : portState s port ≠ 2) (h3 : portState s port ≠ 3) :
    execPortTrain port s = .next (trainPort s port) := by
  refine runPlain_of_ok ((bind_of_ok (can_ok _ _ hm) _).trans ?_)
  rw [if_neg (not_or.mpr ⟨h2, h3⟩)]

theorem execPortTrain_again (hm : mayTrain s port = true) (h : portState s port = 2 ∨ portState s port = 3) :
    execPortTrain port s = .next (retrain s port) := by
  refine runPlain_of_ok ((bind_of_ok (can_ok _ _ hm) _).trans ?_)
  rw [if_pos h]

theorem execPortTrain_barred (hm : mayTrain s port = false) : ∃ why, execPortTrain port s = .refused (.notEnabled why) :=
  runPlain_of_no (stops_can hm)

/-- A training of a live group of lanes, or of none, that ends. -/
structure Trained (s : State) (port : PortN) (r : Training) : Prop where
  may : mayTrain s port = true
  state : portState s port = 1
  lanes : r.lanes.val = 0 ∨ ((r.lanes.val = 2 ∨ r.lanes.val = 4 ∨ r.lanes.val = 8) ∧ r.lanes.val ≤ liveGroup s port)

/-- What the port's register shows of its peer after a training. -/
abbrev peerShown (s : State) (port : PortN) (r : Training) : State :=
  setF (setF (setF s (.lnkPort port) 63 48 r.peerDev.toNat) (.lnkPort port) 47 44 r.peerPort.toNat) (.lnkPort port) 31 16 r.delay.toNat

/-- The port whose peer is not the expected one. -/
abbrev miswired (s : State) (port : PortN) (r : Training) : State :=
  eventG (setPort (peerShown s port r) port 4) 0x0300
    ([BitVec.ofNat 8 port, 0] ++ leBytes 2 r.peerDev.toNat ++ [r.peerPort.setWidth 8])

/-- The port of the expected peer in service, where it sends its retry buffer again. -/
def inService (s : State) (port : PortN) (r : Training) : State :=
  let s2 := setF (setPort (peerShown s port r) port (if port.val = 7 then 3 else 2)) (.lnkPort port) 11 8 r.lanes.val
  let s3 := spareCheck s2
  resume (if meshMask s2 != meshMask s3 then toLink s3 (.portStates (meshMask s3)) else s3) port

theorem execPortTrained_eq {r : Training} (h : Trained s port r) : execPortTrained port r s = .next (
    if r.lanes.val = 0 then retireUnit s 3 port 1
    else if !assigned s then setF (setPort (peerShown s port r) port 0) (.lnkPort port) 11 8 r.lanes.val
    else if peerOk (peerShown s port r) port r.peerDev.toNat r.peerPort.toNat then inService s port r
    else miswired s port r) := by
  have hl : (r.lanes.val == 0 || ((r.lanes.val == 2 || r.lanes.val == 4 || r.lanes.val == 8) &&
      decide (r.lanes.val ≤ liveGroup s port))) = true := by simpa [or_assoc] using h.lanes
  refine runPlain_of_ok ((bind_of_ok (can_ok _ _ ?_) _).trans ((bind_of_ok (can_ok _ _ hl) _).trans ?_))
  · rw [h.may, h.state]; rfl
  · simp only [apply_ite (Except.ok (ε := Halt))]
    rfl

/-! ### Flits, resends and credits -/

/-- A port in service. -/
structure InService (s : State) (port : PortN) : Prop where
  powered : powered s = true
  alive : s.failed = false
  state : portState s port = 2 ∨ portState s port = 3

theorem InService.ok (h : InService s port) :
    (Machine.powered s && !s.failed && (portState s port == 2 || portState s port == 3)) = true := by
  rw [h.powered, h.alive]
  rcases h.state with h | h <;> rw [h] <;> rfl

theorem execFlitReceive_flit (h : InService s port) {bytes : List Byte} {bursts : List (List Nat)} {fixed : Nat}
    (hb : bytes.length = 256) : execFlitReceive port (.flit bytes bursts fixed) s = .next (bursts.foldl (fun s e => countBurst s port e)
      (hearFlit (bump s (.feccor port) fixed) port bytes (!bursts.isEmpty))) :=
  runPlain_of_ok ((bind_of_ok (can_ok _ _ h.ok) _).trans (bind_of_ok (can_ok _ _ (beq_iff_eq.mpr hb)) _))
theorem execFlitReceive_resend (h : InService s port) (seq : BitVec 12) :
    execFlitReceive port (.resend seq) s = .next (hearResend s port seq) := runPlain_of_ok (bind_of_ok (can_ok _ _ h.ok) _)
theorem execFlitReceive_credit (h : InService s port) (vc : BitVec 2) (cls : BitVec 4) (k : Nat) :
    execFlitReceive port (.credit vc cls k) s = .next (hearCredit s port vc.toNat cls.toNat k) :=
  runPlain_of_ok (bind_of_ok (can_ok _ _ h.ok) _)

/-- A port whose retry buffer has lost what an ACK acknowledges. -/
abbrev acked (p : PortSt) (ack : BitVec 12) : PortSt := { p with retry := ackRetry p.retry ack }

section
variable {n : Nat} {bytes : List Byte} {p : PortSt} (hp : getPort s n = p)
include hp

theorem hearFlit_bad {c : Bool} (h : (c || !flitGood bytes) = true) :
    hearFlit s n bytes c = toLink (setPortSt s n { p with resend := true }) (.resend n p.expect) := by
  simp only [hearFlit, h, hp, if_true, askResend]

variable {seq ack : BitVec 12} {x : Flit} (hf : flitParts bytes = (seq, ack, x)) (hg : flitGood bytes = true)
include hf hg

theorem hearFlit_next (h : seq = p.expect) : hearFlit s n bytes false =
    takeFlit (setPortSt s n { acked p ack with expect := p.expect + 1, resend := false }) n x := by
  simp only [hearFlit, hg, hp, hf, h, Bool.not_true, Bool.or_self, Bool.false_eq_true, if_false, if_true]

variable (hs : seq ≠ p.expect)
include hs

theorem hearFlit_repeated (h : (p.expect - seq).toNat < 2048) : hearFlit s n bytes false = setPortSt s n (acked p ack) := by
  simp only [hearFlit, hg, hp, hf, hs, h, Bool.not_true, Bool.or_self, Bool.false_eq_true, if_false, if_true]

theorem hearFlit_gap (h : 2048 ≤ (p.expect - seq).toNat) : hearFlit s n bytes false =
    if p.resend then setPortSt s n (acked p ack)
    else toLink (setPortSt s n { acked p ack with resend := true }) (.resend n p.expect) := by
  simp only [hearFlit, hg, hp, hf, hs, Nat.not_lt.mpr h, Bool.not_true, Bool.or_self, Bool.false_eq_true, if_false, askResend]

end

theorem hearResend_held {n : Nat} {seq : BitVec 12} (h : (getPort s n).retry.any (fun e => e.1 == seq) = true) :
    hearResend s n seq = bump (((getPort s n).retry.dropWhile (fun e => e.1 != seq)).foldl (fun s e => emitFlit s n e)
      (setPortSt s n { getPort s n with retry := (getPort s n).retry.dropWhile (fun e => e.1 != seq) }))
      (.retry n) ((getPort s n).retry.dropWhile (fun e => e.1 != seq)).length := by
  simp only [hearResend, h, if_true, sendAgain, getPort_setPortSt]
theorem hearResend_gone {n : Nat} {seq : BitVec 12} (h : (getPort s n).retry.any (fun e => e.1 == seq) = false) :
    hearResend s n seq = s := by
  simp only [hearResend, h, Bool.false_eq_true, if_false]

end

/-- Settles O39: a training and its end, what a port hears, and a message in transit. -/
theorem portsAndFlits : Obligations.PortsAndFlits := by
  unfold Obligations.PortsAndFlits
  intro s port n
  refine ⟨?_, ?_, fun hm => execPortTrain_barred hm, ?_, ?_, ?_, ?_⟩
  · intro hm h2 h3
    have h := execPortTrain_first hm h2 h3
    refine ⟨fun ha hu => h.trans (by rw [trainPort, ha, hu]; rfl), fun hn => h.trans ?_⟩
    rw [trainPort, if_neg]
    rcases hn with hn | hn <;> simp [n, hn]
  · intro hm hst r
    have h := execPortTrain_again hm hst
    exact ⟨fun hr => h.trans (congrArg _ (if_neg (Bool.eq_false_iff.mp hr))), fun hr => h.trans (congrArg _ (if_pos hr))⟩
  · intro r hm hst s1
    constructor
    · intro hl
      exact (execPortTrained_eq ⟨hm, hst, .inl hl⟩).trans (by rw [if_pos hl])
    · intro hl hlive
      have h := execPortTrained_eq (r := r) ⟨hm, hst, .inr ⟨hl, hlive⟩⟩
      rw [if_neg (by omega)] at h
      refine ⟨fun ha => h.trans (by rw [ha]; rfl), fun ha hp => h.trans ?_, fun ha hp => h.trans ?_⟩ <;> rw [ha]
      · exact congrArg _ (if_neg (Bool.eq_false_iff.mp hp))
      · exact congrArg _ (if_pos hp)
  · intro rank live hp hf ha hr
    exact runPlain_of_ok (bind_of_ok (can_ok _ _ (by rw [hp, hf, ha, bne_iff_ne.mpr hr]; rfl)) _)
  · intro hp hf hst p
    have i : InService s port := ⟨hp, hf, hst⟩
    refine ⟨?_, fun seq => ?_, fun vc cls k => execFlitReceive_credit i vc cls k⟩
    · intro bytes bursts fixed hlen s1
      rcases hparts : flitParts bytes with ⟨seq, ack, x⟩
      dsimp -zeta only
      intro good heard worst counted ends
      have h := execFlitReceive_flit (bursts := bursts) (fixed := fixed) i hlen
      have hport : getPort s1 n = p := bump_getPort s (.feccor n) fixed n
      refine ⟨?_, ?_, ?_, ?_, ?_⟩
      · rintro ⟨rfl, hg⟩ hs
        exact h.trans (congrArg _ (hearFlit_next hport hparts hg hs))
      · rintro ⟨rfl, hg⟩ hs hd
        exact h.trans (congrArg _ (hearFlit_repeated hport hparts hg hs hd))
      · rintro ⟨rfl, hg⟩ hs hd hr
        exact h.trans (congrArg _ ((hearFlit_gap hport hparts hg hs hd).trans (if_pos hr)))
      · rintro ⟨rfl, hg⟩ hs hd hr
        exact h.trans (congrArg _ ((hearFlit_gap hport hparts hg hs hd).trans (if_neg (Bool.eq_false_iff.mp hr))))
      · intro hg
        refine h.trans (congrArg _ ?_)
        rw [hearFlit_bad hport ?_]
        · rfl
        · cases bursts with
          | nil => simpa [good] using hg
          | cons b bs => rfl
    · have h := execFlitReceive_resend i seq
      exact ⟨fun ha => h.trans (congrArg _ (hearResend_held ha)), fun ha => h.trans (congrArg _ (hearResend_gone ha))⟩
  · intro m e hup hd hfind s1 came hold hm
    exact runPlain_of_ok ((bind_of_ok (can_ok _ _ hup) _).trans ((bind_of_ok (can_ok _ _ (bne_iff_ne.mpr hd)) _).trans (bind_of_ok hm _)))

end Sys2Proof.Machine

namespace Sys2Proof.Machine

/-! ## A queued codec job with the number of a running one (R409)

`CDC_JOB_START` begins every job that is started in the state that serves the queue and has the number of a job that was not. A state
in which a queued job and a running one have the same number begins the running one again where the queued one asks it for a core. -/

namespace CodecCex

/-- A job of context 0, of class 1, that waits; and one of context 1, of class 2, that runs on two cores. -/
def queued : CdcJob := { id := 1, t := ⟨0, 0⟩, seq := 1, desc := [], sem := 0, amount := 1 }
def running : CdcJob := { id := 1, t := ⟨1, 0⟩, seq := 0, desc := [], sem := 0, amount := 1, started := true, cores := [0, 1] }

def state : State := { State.reset with ctxs := [(0, { cls := 1 }), (1, { cls := 2 })], jobs := [running, queued] }

/-- The jobs of the state to which a command goes on. -/
def jobsOf (r : Res) : List CdcJob := match r with
  | .next s => s.jobs
  | _ => []

theorem queue : cdcQueue state 0 = [queued] := by decide +kernel
theorem no_core : startable state queued = false := by decide +kernel
theorem asks : canYield state queued = true := decide_eq_true fun h => absurd (congrArg (·.jobs) h) (by decide +kernel)
theorem begins : jobsOf (exec (.cdcJobStart 0) state) ≠ (askYield state queued).jobs := by decide +kernel

end CodecCex

/-- Refutes O40: in `CodecCex.state` the start of a job begins the running job again, which gives the queued one its contents. -/
theorem not_codecJobs : ¬ Obligations.CodecJobs := by
  unfold Obligations.CodecJobs
  intro h
  obtain ⟨-, hstart, -⟩ := h CodecCex.state
  have hs := ((hstart 0 (by decide +kernel) rfl).1 _ _ CodecCex.state CodecCex.queue).2 CodecCex.no_core (.inl (by decide +kernel))
    CodecCex.asks
  exact CodecCex.begins (by rw [hs]; rfl)

end Sys2Proof.Machine

namespace Sys2Proof.Machine

/-! ## `reel.mark` and the delivery of records (R303, R357, R362-R365) -/

section
variable {s : State}

/-- The contents of a mark: the register and the immediate. -/
abbrev markBytes (th : Thread) (f : Fields) : List Byte := wordBytes (reg th f.sl0.toNat) ++ leBytes 2 f.sl1.toNat

theorem markBytes_length (th : Thread) (f : Fields) : (markBytes th f).length = 10 := by
  simp [markBytes, wordBytes, leBytes]

theorem execReelMark_ok {t : Tid} {th : Thread} {f : Fields} (i : Issues s t th) (hf : formOk f 0 0 [.scalar, .imm] = true)
    (h0 : Ready th f.sl0) : execReelMark t f s = .next (releaseBells
      (reelLive (stepOn (notReplayable (atIssue s t) t) t th) (partOf t.ctx) 5 t.ctx (markBytes th f))) :=
  runThread_ok i ((bind_dec_ok _ _ hf).trans (bind_src_ok _ h0))

section
variable {p c : Nat} {ty : BitVec 8} {bs : List Byte}

theorem reelLive_off (h : reelMode s p = 0) : reelLive s p ty c bs = s := by simp only [reelLive, h]
theorem reelLive_record (h : reelMode s p = 1) : reelLive s p ty c bs = reelRecord s p ty c bs := by simp only [reelLive, h]

/-- The input that a replay compares with the recorded one. -/
def liveRec (s : State) (p : Nat) (ty : BitVec 8) (c : Nat) (bs : List Byte) : ReelRec :=
  { ty := ty, ctx := Fin.ofNat 64 c, tick := tickNow s, payload := bs,
    stroke := (stampNow s + BitVec.ofNat 64 (getReel s p).s0 - getR s (.reelStart p)).toNat }

theorem reelLive_wanted (h : reelMode s p = 2) {r : ReelRec} (hr : (getReel s p).wanted.find? (fun r => r.ty == ty) = some r) :
    reelLive s p ty c bs = if reelSame r (liveRec s p ty c bs)
      then reelEnd (setReel s p { getReel s p with wanted := (getReel s p).wanted.erase r }) p else reelMismatch s p r.seq := by
  simp only [reelLive, h, hr]
  rfl

theorem reelLive_early (h : reelMode s p = 2) (hr : (getReel s p).wanted.find? (fun r => r.ty == ty) = none) :
    reelLive s p ty c bs = setReel s p { getReel s p with came := (getReel s p).came ++ [liveRec s p ty c bs] } := by
  simp only [reelLive, h, hr, liveRec]

end

/-- A mark is the recorded one where its contents are: the time of a mark is not compared. -/
theorem reelSame_mark {r live : ReelRec} (hr : r.ty = 5) {bs : List Byte} (hl : live.payload = bs) {n : Nat} (hn : bs.length = n) :
    reelSame r live = true ↔ r.payload.take n = bs := by
  simp [reelSame, hr, hl, hn]

/-! ### The delivery of records -/

/-- A partition whose replay runs. -/
structure Replays (s : State) (p : PartN) : Prop where
  runs : treadleRuns s = true
  alive : s.failed = false
  mode : reelMode s p = 2

/-- The time of the record at HEAD has come. -/
def DueNow (s : State) (due : Word × Nat) : Prop :=
  edgeReached (strokeNow s) due.1.toNat = true ∧ (due.1 ≠ strokeNow s ∨ due.2 ≤ tickNow s)

theorem dueNow_iff {due : Word × Nat} :
    (edgeReached (strokeNow s) due.1.toNat && (due.1 != strokeNow s || decide (due.2 ≤ tickNow s))) = true ↔ DueNow s due := by
  simp [DueNow]

section
variable {p : PartN} (w : Replays s p)
include w

theorem Replays.ok : (treadleRuns s && !s.failed && reelMode s p == 2) = true := by rw [w.runs, w.alive, w.mode]; rfl

theorem execReelDeliver_end (h : (getReel s p).last ≤ (getR s (.reelHead p)).toNat) : execReelDeliver p s = runPlain
    (can (getReel s p).wanted.isEmpty "a recorded input has not been compared" >>= fun _ => .ok (releaseBells (reelDone s p))) := by
  refine congrArg runPlain ((bind_of_ok (can_ok _ _ w.ok) _).trans ?_)
  exact if_pos h

theorem execReelDeliver_next (h : (getR s (.reelHead p)).toNat < (getReel s p).last) {r : ReelRec} {len : Nat}
    (hr : reelAt s p (getR s (.reelHead p)).toNat = (r, len)) : execReelDeliver p s = runPlain
    (can (edgeReached (strokeNow s) (deliverAt s p r).1.toNat &&
      ((deliverAt s p r).1 != strokeNow s || decide ((deliverAt s p r).2 ≤ tickNow s))) "the record's time has not come" >>= fun _ =>
    deliver (setR (if ((deliverAt s p r).1 ≠ strokeNow s ∨ (deliverAt s p r).2 < tickNow s) ∧ r.ty ≠ 6 then markLate s p else s)
      (.reelHead p) (BitVec.ofNat 64 ((getR s (.reelHead p)).toNat + max 64 len))) p r >>= fun s3 =>
    .ok (releaseBells (if reelMode s3 p = 2 then reelEnd s3 p else s3))) := by
  refine congrArg runPlain ((bind_of_ok (can_ok _ _ w.ok) _).trans ?_)
  refine (if_neg (Nat.not_le.mpr h)).trans ?_
  rw [hr]

end
end

/-- Settles O41: a mark in each mode, and the record at HEAD. -/
theorem reelMarksAndReplay : Obligations.ReelMarksAndReplay := by
  unfold Obligations.ReelMarksAndReplay
  intro s
  refine ⟨?_, ?_⟩
  · intro t th f hi hf h0 s1 p x mark goes
    have h := execReelMark_ok hi hf h0
    refine ⟨fun hm => ?_, fun hm => ?_, fun r hm hr => ?_, fun hm hr => ?_⟩
    · exact h.trans (by rw [reelLive_off hm])
    · exact h.trans (by rw [reelLive_record hm])
    · have hty : r.ty = 5 := by simpa using List.find?_some hr
      have hs := reelSame_mark (live := liveRec s1 p 5 t.ctx mark) hty rfl (markBytes_length th f)
      have h2 := h.trans (by rw [reelLive_wanted hm hr])
      exact ⟨fun he => h2.trans (by rw [if_pos (hs.mpr he)]), fun he => h2.trans (by rw [if_neg (mt hs.mp he)])⟩
    · exact ⟨liveRec s1 p 5 t.ctx mark, rfl, rfl, h.trans (by rw [reelLive_early hm hr])⟩
  · intro p hrun hfail hmode head x r due now come
    have w : Replays s p := ⟨hrun, hfail, hmode⟩
    refine ⟨fun hl hw => ?_, fun hl hw => ?_, fun hl => ?_⟩
    · exact (execReelDeliver_end w hl).trans (runPlain_of_ok (bind_of_ok (can_ok _ _ (List.isEmpty_iff.mpr hw)) _))
    · show ∃ why, execReelDeliver p s = .refused (.notEnabled why)
      rw [execReelDeliver_end w hl]
      exact runPlain_of_no (stops_can (Bool.eq_false_iff.mpr (mt List.isEmpty_iff.mp hw)))
    · intro s1
      have h := execReelDeliver_next w hl (r := r) (len := (reelAt s p head).2) rfl
      refine ⟨fun hc => ?_, fun s2 hc hd => ?_⟩
      · show ∃ why, execReelDeliver p s = .refused (.notEnabled why)
        rw [h]
        exact runPlain_of_no (stops_can (Bool.eq_false_iff.mpr (mt dueNow_iff.mp hc)))
      · exact h.trans (runPlain_of_ok ((bind_of_ok (can_ok _ _ (dueNow_iff.mpr hc)) _).trans (bind_of_ok hd _)))

end Sys2Proof.Machine

namespace Sys2Proof.Machine

/-! ## The treadle's boundaries (R234-R237, R245, R246) -/

section
variable {s : State}

theorem execFineTick_runs (m : Monitor) (h : treadleRuns s = true) :
    execFineTick m s = .next (if tickNow s + 1 < strokeLen s then tickOnce m s else edgeOnce m s) :=
  runPlain_of_ok (bind_of_ok (can_ok _ _ h) _)
theorem execStrokeEdge_runs (m : Monitor) (h : treadleRuns s = true) :
    execStrokeEdge m s = .next (edgeOnce m (tickN m (strokeLen s - 1 - tickNow s) s)) :=
  runPlain_of_ok (bind_of_ok (can_ok _ _ h) _)

/-- A thread of a context that runs, in a turn whose end has come and whose work is not complete. -/
structure Overruns (s : State) (t : Tid) (th : Thread) (u : TurnSt) : Prop where
  powered : powered s = true
  alive : s.failed = false
  runs : turnsRun (getC s t.ctx) = true
  here : getT? s t = some th
  turn : th.turn = some u
  come : if ctxCls s t.ctx = 0 then u.stop ≤ s.fticks else edgeReached (strokeNow s) u.stop = true
  open' : turnWorkDone s t th u = false

theorem turnEnded_of {live : Bool} {now stop ticks : Nat} {stroke : Word}
    (h : if live = true then stop ≤ ticks else edgeReached stroke stop = true) (hn : now = if live then ticks else stroke.toNat) :
    turnEnded live now stop = true := by
  subst hn
  cases live
  · simpa [turnEnded] using h
  · simpa [turnEnded] using h

theorem execTurnOverrun_ok {t : Tid} {th : Thread} {u : TurnSt} (o : Overruns s t th u) :
    execTurnOverrun t s = .next (overrunTurn s t th u) := by
  have hth : the (getT? s t) "the thread does not exist" = .ok th := by rw [o.here, the_some]
  have hu : the th.turn "no turn is open" = .ok u := by rw [o.turn, the_some]
  refine runPlain_of_ok ((bind_of_ok (can_ok _ _ (by rw [o.powered, o.alive, o.runs]; rfl)) _).trans ?_)
  refine (bind_of_ok hth _).trans ((bind_of_ok hu _).trans ((bind_of_ok (can_ok _ _ ?_) _).trans ?_))
  · exact turnEnded_of (by simpa using o.come) rfl
  · exact bind_of_ok (can_ok _ _ (by rw [o.open']; rfl)) _

/-- A turn that has overrun is a fault of its context under ON_OVERRUN, or after STRETCH_MAX stretches (R237). -/
theorem stretched_out_iff {pol : Word} {n : Nat} : (bit pol 0 || (fld pol 15 8 != 0 && decide (fld pol 15 8 ≤ n))) = true ↔
    bit pol 0 = true ∨ (fld pol 15 8 ≠ 0 ∧ fld pol 15 8 ≤ n) := by simp

end

/-- Settles O42: the fine tick, the stroke edge, and a turn that has overrun. -/
theorem treadleBoundaries : Obligations.TreadleBoundaries := by
  unfold Obligations.TreadleBoundaries
  intro s m
  refine ⟨fun h => ⟨fun ht => ?_, fun ht => ?_, execStrokeEdge_runs m h⟩, fun h => ⟨runPlain_of_no (stops_can h),
    runPlain_of_no (stops_can h)⟩, ?_⟩
  · exact (execFineTick_runs m h).trans (by rw [if_pos ht])
  · exact (execFineTick_runs m h).trans (by rw [if_neg (Nat.not_lt.mpr ht)])
  · intro t th u hp hf hr hth hu c now most s1 come hcome hw
    have h := execTurnOverrun_ok ⟨hp, hf, hr, hth, hu, hcome, hw⟩
    refine ⟨fun h0 hm => h.trans (congrArg _ (if_neg ?_)), fun hm => h.trans (congrArg _ (if_pos (stretched_out_iff.mpr hm)))⟩
    rw [stretched_out_iff, h0]
    rintro (h1 | ⟨h1, h2⟩)
    · cases h1
    · exact hm.elim h1 fun hm => absurd h2 (Nat.not_le.mpr hm)

end Sys2Proof.Machine

namespace Sys2Proof.Machine

/-! ## Coupled treadles (R396-R398) -/

section
variable {s : State}

theorem execTreadleMarkerSend_ok (hr : treadleRuns s = true) (hf : s.failed = false) (hm : syncMode s = 1) (h64 : s.fticks % 64 = 0)
    (hl : s.fticks = 0 ∨ s.lastMarker < s.fticks) : execTreadleMarkerSend s = .next (spreadMarker { s with lastMarker := s.fticks }
      { index := strokeNow s + BitVec.ofNat 64 ((tickNow s + 64) / strokeLen s), tick := (tickNow s + 64) % strokeLen s
        remain := 32000000 } 16) := by
  refine runPlain_of_ok ((bind_of_ok (can_ok _ _ (by rw [hr, hf, hm]; rfl)) _).trans (bind_of_ok (can_ok _ _ ?_) _))
  simp [h64, hl]

/-! ### A marker at a follower -/

/-- A marker whose distance is counted from the port, at the end of its delay. -/
abbrev markerHere (s : State) (port : PortN) (m : Marker) : Marker :=
  { m with remain := m.remain - rfld s (.lnkPort port) 31 16 * 1000 / 16 }

/-- The state that has heard a marker of its parent. -/
abbrev parentHeard (s : State) : State := { s with lastMarker := s.fticks, parentLost := false }

/-- The state that has forwarded a marker. -/
abbrev forwarded (s : State) (port : PortN) (m : Marker) : State := spreadMarker (parentHeard s) (markerHere s port m) port

/-- How far the marker's boundary lies from this device's, in picoseconds. -/
abbrev markerError (s : State) (port : PortN) (m : Marker) : Int :=
  ((markerHere s port m).remain : Int) - 500000 * ticksTo (forwarded s port m) (markerHere s port m)

/-- The marker's index is this device's. -/
abbrev sameIndex (s : State) (port : PortN) (m : Marker) : Prop := ownIndex s (markerHere s port m).remain = m.index.toNat

/-- A device whose port carries traffic. -/
structure PortHears (s : State) (port : PortN) : Prop where
  powered : powered s = true
  alive : s.failed = false
  clock : s.power.clkCore = true
  up : portUp s port = true

theorem PortHears.ok {port : PortN} (w : PortHears s port) :
    (Machine.powered s && !s.failed && s.power.clkCore && portUp s port) = true := by
  rw [w.powered, w.alive, w.clock, w.up]; rfl

section
variable {port : PortN} {m : Marker} (w : PortHears s port)
include w

theorem execTrdMarkerReceive_other (h : syncMode s ≠ 2 ∨ port.val ≠ syncPort s) : execTrdMarkerReceive port m s = .next s :=
  runPlain_of_ok ((bind_of_ok (can_ok _ _ w.ok) _).trans (if_pos h))

theorem execTrdMarkerReceive_parent (hm : syncMode s = 2) (hp : port.val = syncPort s) : execTrdMarkerReceive port m s = .next (
    if syncLock s = 1 ∧ (!(ownIndex s (markerHere s port m).remain == m.index.toNat)) = true then
      eventG (setF (parentHeard s) .trdSync 5 4 2) 0x0301 [BitVec.ofNat 8 port]
    else if !s.lockedOnce then firstLock (forwarded s port m) (markerHere s port m)
    else if ownIndex s (markerHere s port m).remain == m.index.toNat then
      { (if -100000 ≤ markerError s port m ∧ markerError s port m ≤ 100000 then setF (forwarded s port m) .trdSync 5 4 1
          else forwarded s port m) with phase := clampPs (markerError s port m) }
    else forwarded s port m) := by
  refine runPlain_of_ok ((bind_of_ok (can_ok _ _ w.ok) _).trans ((if_neg ?_).trans ?_))
  · rintro (h | h)
    · exact h hm
    · exact h hp
  · simp only [apply_ite (Except.ok (ε := Halt))]

end

/-! ### The parent's silence -/

theorem clampPs_mid {e : Int} (h1 : -100000 ≤ e) (h2 : e ≤ 100000) : clampPs e = e := by rw [clampPs]; omega
theorem clampPs_high {e : Int} (h : 100000 < e) : clampPs e = 100000 := by rw [clampPs]; omega
theorem clampPs_low {e : Int} (h : e < -100000) : clampPs e = -100000 := by rw [clampPs]; omega

theorem execTrdParentTimeout_early (h : s.fticks < s.lastMarker + 256) : ∃ why, execTrdParentTimeout s = .refused (.notEnabled why) :=
  runPlain_of_no (stops_after (stops_can (decide_eq_false (Nat.not_le.mpr h))))

section
variable (hr : treadleRuns s = true) (hf : s.failed = false) (hm : syncMode s = 2) (hl : s.lastMarker + 256 ≤ s.fticks)
include hr hf hm hl

theorem execTrdParentTimeout_eq : execTrdParentTimeout s = runPlain (
    if bit (actR s .trdSync) 3 && !s.onAlt then
      .ok (eventG { s with onAlt := true, lastMarker := s.fticks } 0x0302 [BitVec.ofNat 8 (syncPort s)])
    else can (!s.parentLost) "the loss has been reported" >>= fun _ =>
      .ok (eventG (setF { s with parentLost := true } .trdSync 5 4 2) 0x0303 [BitVec.ofNat 8 (syncPort s)])) :=
  congrArg runPlain ((bind_of_ok (can_ok _ _ (by rw [hr, hf, hm]; rfl)) _).trans (bind_of_ok (can_ok _ _ (decide_eq_true hl)) _))

theorem execTrdParentTimeout_alt (h3 : bit (actR s .trdSync) 3 = true) (ha : s.onAlt = false) : execTrdParentTimeout s =
    .next (eventG { s with onAlt := true, lastMarker := s.fticks } 0x0302 [BitVec.ofNat 8 (syncPort s)]) :=
  (execTrdParentTimeout_eq hr hf hm hl).trans (runPlain_of_ok (if_pos (by rw [h3, ha]; rfl)))

variable (h3 : bit (actR s .trdSync) 3 = false ∨ s.onAlt = true)
include h3

theorem execTrdParentTimeout_holdover (hp : s.parentLost = false) : execTrdParentTimeout s =
    .next (eventG (setF { s with parentLost := true } .trdSync 5 4 2) 0x0303 [BitVec.ofNat 8 (syncPort s)]) := by
  refine (execTrdParentTimeout_eq hr hf hm hl).trans (runPlain_of_ok ((if_neg ?_).trans (bind_of_ok (can_ok _ _ (by rw [hp]; rfl)) _)))
  rcases h3 with h | h <;> simp [h]

theorem execTrdParentTimeout_told (hp : s.parentLost = true) : ∃ why, execTrdParentTimeout s = .refused (.notEnabled why) := by
  rw [execTrdParentTimeout_eq hr hf hm hl, if_neg (by rcases h3 with h | h <;> simp [h])]
  exact runPlain_of_no (stops_can (by rw [hp]; rfl))

end

/-! ### TRD_SYNC_IN -/

section
variable (hp : powered s = true) (hf : s.failed = false)
include hp hf

theorem execTrdSyncInEdge_runs (h : s.treadleHeld = false) : execTrdSyncInEdge s = .next s :=
  runPlain_of_ok ((bind_of_ok (can_ok _ _ (by rw [hp, hf]; rfl)) _).trans (if_neg (by simp [h])))

theorem execTrdSyncInEdge_armed (h : s.treadleHeld = true) : execTrdSyncInEdge s = .next
    { setAct (setF s .trdSync 2 2 0) .trdSync (setFld (actR (setF s .trdSync 2 2 0) .trdSync) 2 2 0) with
      treadleHeld := false, power := { (setF s .trdSync 2 2 0).power with syncOut := true } } :=
  runPlain_of_ok ((bind_of_ok (can_ok _ _ (by rw [hp, hf]; rfl)) _).trans (if_pos h))

end
end

/-- Settles O43: the root's marker, a follower's, the parent's silence, and TRD_SYNC_IN. -/
theorem treadleMarkers : Obligations.TreadleMarkers := by
  unfold Obligations.TreadleMarkers
  intro s hp hf
  refine ⟨fun hr hm h64 hl => execTreadleMarkerSend_ok hr hf hm h64 hl, ?_, ?_, fun h => execTrdSyncInEdge_runs hp hf h,
    fun h => ⟨_, execTrdSyncInEdge_armed hp hf h, rfl, rfl, rfl, rfl, rfl⟩⟩
  · intro port m hc hu
    have w : PortHears s port := ⟨hp, hf, hc, hu⟩
    refine ⟨fun h => execTrdMarkerReceive_other w h, ?_⟩
    intro hm hport m1 s1 e same
    have h := execTrdMarkerReceive_parent (m := m) w hm hport
    have hin : same → ¬ (syncLock s = 1 ∧ (!(ownIndex s (markerHere s port m).remain == m.index.toNat)) = true) := by
      rintro hs ⟨-, h2⟩
      rw [beq_iff_eq.mpr hs] at h2
      cases h2
    refine ⟨fun hl hk => ?_, fun hl hs h1 h2 => ?_, fun hl hs h1 => ?_, fun hl hs h1 => ?_, fun hk hs => ?_, fun hl hk hs => ?_⟩ <;>
      refine h.trans (congrArg _ ?_)
    · rw [if_neg (fun h => hk h.1), if_pos (by rw [hl]; rfl)]
    · rw [if_neg (hin hs), if_neg (by simp [hl]), if_pos (beq_iff_eq.mpr hs), if_pos ⟨h1, h2⟩, clampPs_mid h1 h2]
    · rw [if_neg (hin hs), if_neg (by simp [hl]), if_pos (beq_iff_eq.mpr hs), if_neg (fun h => Int.not_lt.mpr h.2 h1), clampPs_high h1]
    · rw [if_neg (hin hs), if_neg (by simp [hl]), if_pos (beq_iff_eq.mpr hs), if_neg (fun h => Int.not_lt.mpr h.1 h1), clampPs_low h1]
    · rw [if_pos ⟨hk, by rw [beq_eq_false_iff_ne.mpr hs]; rfl⟩]
    · rw [if_neg (fun h => hk h.1), if_neg (by simp [hl]), if_neg (mt beq_iff_eq.mp hs)]
  · intro hr hm port
    exact ⟨fun hl h3 ha => execTrdParentTimeout_alt hr hf hm hl h3 ha, fun hl h3 =>
      ⟨fun hp => execTrdParentTimeout_holdover hr hf hm hl h3 hp, fun hp => execTrdParentTimeout_told hr hf hm hl h3 hp⟩,
      fun hl => execTrdParentTimeout_early hl⟩

end Sys2Proof.Machine

namespace Sys2Proof.Machine

/-! ## A ply pair (R326-R329) -/

section
variable {s : State} (hp : powered s = true) (hf : s.failed = false)
include hp hf

/-! ### Heartbeats and records -/

theorem execPlyHeartbeatReceive_ok (hs : plyStandby s = true) (edge : Word) :
    execPlyHeartbeatReceive edge s = .next (toLink (plyHeard s edge) (.heartbeatAck edge)) :=
  runPlain_of_ok (bind_of_ok (can_ok _ _ (by rw [hp, hf, hs]; rfl)) _)

theorem execPlyRecordReceive_ok (hs : plyStandby s = true) (r : PlyRecord) :
    execPlyRecordReceive r s = .next (toLink (setR (plyApply s r) .plyAck r.edge) (.recordAck r.edge)) :=
  runPlain_of_ok (bind_of_ok (can_ok _ _ (by rw [hp, hf, hs]; rfl)) _)

section
variable {edge : Word} (ha : plyActive s = true) (he : edgeReached (strokeNow s) edge.toNat = true)
include ha he

theorem execPlyHeartbeatAck_ok : execPlyHeartbeatAck edge s = .next (plyHeard s edge) :=
  runPlain_of_ok (bind_of_ok (can_ok _ _ (by rw [hp, hf, ha, he]; rfl)) _)
theorem execPlyRecordAck_ok : execPlyRecordAck edge s = .next (setR s .plyAck edge) :=
  runPlain_of_ok (bind_of_ok (can_ok _ _ (by rw [hp, hf, ha, he]; rfl)) _)

end

omit hp hf in
theorem notOut {edge : Word} (h : plyActive s = false ∨ edgeReached (strokeNow s) edge.toNat = false) :
    (powered s && !s.failed && plyActive s && edgeReached (strokeNow s) edge.toNat) = false := by
  rcases h with h | h <;> simp [h]

/-! ### The third miss -/

theorem execPlyLoss_active (hm : plyMisses s = 3) (ha : plyActive s = true) : execPlyLoss s = .next (
    if bit (getR s .plyCfg) 8 then setF (plyEvent s 0x0304) .plyStat 2 0 4 else plyFence (setF (plyEvent s 0x0304) .plyStat 2 0 3)) := by
  refine runPlain_of_ok ((bind_of_ok (can_ok _ _ (by rw [hp, hf, hm]; rfl)) _).trans ((if_pos ha).trans ?_))
  rw [apply_ite (Except.ok (ε := Halt))]

theorem execPlyLoss_standby (hm : plyMisses s = 3) (ha : plyActive s = false) (hs : plyStandby s = true)
    (h9 : bit (getR s .plyCfg) 9 = false) (hl : s.ply.lost = false) :
    execPlyLoss s = .next (plyEvent { s with ply := { s.ply with lost := true } } 0x0304) := by
  refine runPlain_of_ok ((bind_of_ok (can_ok _ _ (by rw [hp, hf, hm]; rfl)) _).trans ((if_neg (by simp [ha])).trans ?_))
  exact bind_of_ok (can_ok _ _ (by rw [hs, h9, hl]; rfl)) _

section
variable (hm : plyMisses s = 3) (hs : plyStandby s = true) (h9 : bit (getR s .plyCfg) 9 = true)
include hm hs h9

theorem execPlyTakeover_ok (h2 : plyState s = 2) :
    execPlyTakeover s = .next (plyEvent (setF (setF s .plyCfg 1 0 1) .plyStat 2 0 5) 0x0305) :=
  runPlain_of_ok ((bind_of_ok (can_ok _ _ (by rw [hp, hf, hs, hm]; rfl)) _).trans ((bind_of_ok (can_ok _ _ h9) _).trans
    (bind_of_ok (can_ok _ _ (by rw [h2]; rfl)) _)))

omit hp hf hm hs h9 in
theorem execPlyTakeover_joining (h1 : plyState s = 1) : ∃ why, execPlyTakeover s = .refused (.notEnabled why) :=
  runPlain_of_no (stops_after (stops_after (stops_can (by rw [h1]; rfl))))

end

omit hp hf in
theorem fewMisses (hm : plyMisses s ≠ 3) :
    (∃ why, execPlyLoss s = .refused (.notEnabled why)) ∧ ∃ why, execPlyTakeover s = .refused (.notEnabled why) :=
  ⟨runPlain_of_no (stops_can (by rw [beq_eq_false_iff_ne.mpr hm, Bool.and_false])),
    runPlain_of_no (stops_can (by rw [beq_eq_false_iff_ne.mpr hm, Bool.and_false]))⟩

/-! ### A join -/

/-- The state in which a join has begun. -/
abbrev joinBegun (s : State) : State := { s with ply := { s.ply with joining := true, cursor := 0, imaged := false } }

theorem execPlyJoin_ok (h1 : plyState s = 1) (hj : s.ply.joining = false) (hr : plyRole s ≠ 0) : execPlyJoin s = .next (
    if plyRole s = 2 then ((List.range 4).filter (mirrored s)).foldl clearPartition (joinBegun s) else joinBegun s) := by
  refine runPlain_of_ok ((bind_of_ok (can_ok _ _ (by rw [hp, hf, h1, hj, bne_iff_ne.mpr hr]; rfl)) _).trans ?_)
  simp only [apply_ite (Except.ok (ε := Halt))]

theorem execPlyJoined_ok (h1 : plyState s = 1) (hj : s.ply.joining = true) (hi : s.ply.imaged = true) : execPlyJoined s =
    .next (plyEvent (setF { s with ply := { s.ply with joining := false } } .plyStat 2 0 2) 0x0306) :=
  runPlain_of_ok (bind_of_ok (can_ok _ _ (by rw [hp, hf, h1, hj, hi]; rfl)) _)

end

/-- Settles O44: what each side of a pair does at its events. -/
theorem plyPair : Obligations.PlyPair := by
  unfold Obligations.PlyPair
  intro s hp hf
  refine ⟨fun edge => ?_, fun r hs => execPlyRecordReceive_ok hp hf hs r, fun hm => ?_, fun hm => fewMisses hm, fun h1 hj => ?_,
    fun h1 hj => ?_⟩
  · intro heard
    exact ⟨fun hs => execPlyHeartbeatReceive_ok hp hf hs edge,
      fun ha he => ⟨execPlyHeartbeatAck_ok hp hf ha he, execPlyRecordAck_ok hp hf ha he⟩,
      fun h => ⟨runPlain_of_no (stops_can (notOut h)), runPlain_of_no (stops_can (notOut h))⟩⟩
  · refine ⟨fun ha h8 => ?_, fun ha h8 => ?_, fun ha hs h9 hl => execPlyLoss_standby hp hf hm ha hs h9 hl,
      fun hs h9 h2 => execPlyTakeover_ok hp hf hm hs h9 h2, fun hs h9 h1 => execPlyTakeover_joining h1⟩
    · exact (execPlyLoss_active hp hf hm ha).trans (by rw [if_pos h8]; rfl)
    · exact (execPlyLoss_active hp hf hm ha).trans (by rw [if_neg (by simp [h8])]; rfl)
  · intro s1
    refine ⟨fun hr => ?_, fun hr => ?_⟩
    · exact (execPlyJoin_ok hp hf h1 hj (by rw [hr]; decide)).trans (by rw [if_pos hr])
    · exact (execPlyJoin_ok hp hf h1 hj (by rw [hr]; decide)).trans (by rw [if_neg (by rw [hr]; decide)])
  · exact ⟨fun hi => execPlyJoined_ok hp hf h1 hj hi, fun hi => runPlain_of_no (stops_can (by rw [hi, Bool.and_false]))⟩

/-! ## Pre-emption (R333-R339) -/

section
variable {s : State}

/-! ### The start of a suspension -/

/-- A context whose save runs from a stroke on, not yet at its fine-tick boundary. -/
structure SaveBegun (s : State) (c : Nat) (k : Word) : Prop where
  now : strokeNow s = k
  saving : (getC s c).saving = true
  preempt : (getC s c).preempt = false
  atPoint : (getC s c).atPoint = false
  suspEdge : (getC s c).suspEdge = k.toNat

/-- The start of the save of a context or of a filler of it. -/
def beginSave (s : State) (d : Nat) : State :=
  setC (moveTurns s d (· - stallLeft s (strokeNow s))) d { getC s d with
    saving := true, atPoint := false, preempt := false, suspEdge := (strokeNow s).toNat }

theorem foldl_keeps {α : Type} {P : State → Prop} {g : State → α → State} (hg : ∀ s x, P s → P (g s x)) (l : List α) {s : State}
    (h : P s) : P (l.foldl g s) := by
  induction l generalizing s with
  | nil => exact h
  | cons x xs ih => exact ih (hg s x h)

/-- A fold of steps that keep a property and of which one establishes it from an invariant that all of them keep. -/
theorem foldl_reaches {α : Type} {I P : State → Prop} {g : State → α → State} (hi : ∀ s x, I s → I (g s x))
    (hp : ∀ s x, P s → P (g s x)) {a : α} (ha : ∀ s, I s → P (g s a)) {l : List α} (hl : a ∈ l) {s : State} (h : I s) :
    P (l.foldl g s) := by
  induction l generalizing s with
  | nil => cases hl
  | cons x xs ih =>
    rcases List.mem_cons.mp hl with rfl | hm
    · exact foldl_keeps hp xs (ha s h)
    · exact ih hm (hi s x h)

theorem moveTurns_regs (s : State) (c : Nat) (g : Nat → Nat) : (moveTurns s c g).regs = s.regs := by
  refine foldl_keeps (P := fun s' => s'.regs = s.regs) (fun s' x h => ?_) _ rfl
  split
  · exact h
  · exact h
theorem moveTurns_ctxs (s : State) (c : Nat) (g : Nat → Nat) : (moveTurns s c g).ctxs = s.ctxs := by
  refine foldl_keeps (P := fun s' => s'.ctxs = s.ctxs) (fun s' x h => ?_) _ rfl
  split
  · exact h
  · exact h

theorem beginSave_strokeNow (s : State) (d : Nat) : strokeNow (beginSave s d) = strokeNow s :=
  congrArg (tabGet (Reg.reset .trdIndex) · (Reg.offset .trdIndex)) (moveTurns_regs s d _)

theorem getC_beginSave_self (s : State) (d : Nat) : getC (beginSave s d) d =
    { getC s d with saving := true, atPoint := false, preempt := false, suspEdge := (strokeNow s).toNat } := getC_setC_self _ _ _

theorem getC_beginSave_other (s : State) {c d : Nat} (h : c ≠ d) : getC (beginSave s d) c = getC s c := by
  rw [beginSave, getC_setC_other _ _ _ _ h, getC, moveTurns_ctxs]
  rfl

theorem beginSave_begun {c : Nat} {k : Word} (h : strokeNow s = k) : SaveBegun (beginSave s c) c k := by
  have e := getC_beginSave_self s c
  exact ⟨(beginSave_strokeNow s c).trans h, by rw [e], by rw [e], by rw [e], by rw [e, h]⟩

theorem SaveBegun.keeps {c : Nat} {k : Word} (h : SaveBegun s c k) (d : Nat) : SaveBegun (beginSave s d) c k := by
  by_cases hd : c = d
  · subst hd
    exact beginSave_begun h.now
  · have e := getC_beginSave_other s hd
    exact ⟨(beginSave_strokeNow s d).trans h.now, by rw [e, h.saving], by rw [e, h.preempt], by rw [e, h.atPoint], by rw [e, h.suspEdge]⟩

theorem beginSaves_begun {c : CtxN} (hp : (getC s c).preempt = true) (hr : (getC s c).st = .running) (hs : (getC s c).saving = false)
    (hr' : (getC s c).restoring = false) : SaveBegun (beginSaves s) c (strokeNow s) := by
  refine foldl_reaches (I := fun s' => strokeNow s' = strokeNow s) (P := fun s' => SaveBegun s' c (strokeNow s))
    (g := fun s c => (withFillers s c).foldl beginSave s) (a := c.val) ?_ ?_ ?_ ?_ rfl
  · exact fun s' d h => foldl_keeps (P := fun s' => strokeNow s' = strokeNow s) (fun s' x h => (beginSave_strokeNow s' x).trans h) _ h
  · exact fun s' d h => foldl_keeps (P := fun s' => SaveBegun s' c (strokeNow s)) (fun s' x h => h.keeps x) _ h
  · exact fun s' h => foldl_reaches (I := fun s' => strokeNow s' = strokeNow s) (P := fun s' => SaveBegun s' c (strokeNow s))
      (g := beginSave) (fun s' x h => (beginSave_strokeNow s' x).trans h)
      (fun s' x h => h.keeps x) (fun s' h => beginSave_begun h) (a := c.val) List.mem_cons_self h
  · exact List.mem_filter.mpr ⟨List.mem_range.mpr c.isLt, by rw [hp, hr, hs, hr']; rfl⟩

/-! ### The boundary, the end of the save and of the restore -/

theorem execContextSuspend_ok {c : CtxN} (hr : treadleRuns s = true) (hf : s.failed = false) (hs : (getC s c).saving = true)
    (hn : (getC s c).filler = false) (ha : (getC s c).atPoint = false) : execContextSuspend c s =
    .next ((withFillers s c).foldl (fun s d => leaveGroups (setC s d { getC s d with atPoint := true }) d) s) :=
  runPlain_of_ok ((bind_of_ok (can_ok _ _ (by rw [hr, hf]; rfl)) _).trans (bind_of_ok (can_ok _ _ (by rw [hs, hn, ha]; rfl)) _))

theorem execContextSuspend_no {c : CtxN} (h : (getC s c).saving = false ∨ (getC s c).atPoint = true) :
    ∃ why, execContextSuspend c s = .refused (.notEnabled why) :=
  runPlain_of_no (stops_after (stops_can (by rcases h with h | h <;> simp [h])))

theorem execSaveComplete_no {c : CtxN} (h : (getC s c).saving = false) : ∃ why, execSaveComplete c s = .refused (.notEnabled why) :=
  runPlain_of_no (stops_can (by simp [h]))

theorem execSaveComplete_hot {c : CtxN} (h : imagesCool s c = false) : ∃ why, execSaveComplete c s = .refused (.notEnabled why) :=
  runPlain_of_no (stops_after (stops_can h))

theorem execSaveComplete_ok {c : CtxN} (hp : powered s = true) (hf : s.failed = false) (hs : (getC s c).saving = true)
    (hn : (getC s c).filler = false) (ha : (getC s c).atPoint = true) (hc : imagesCool s c = true) : execSaveComplete c s =
    .next (serve ((withFillers (saveImages s c) c).foldl (fun s d =>
      setC s d { getC s d with st := .suspended, saving := false, atPoint := false }) (saveImages s c)) (partOf c)) :=
  runPlain_of_ok ((bind_of_ok (can_ok _ _ (by rw [hp, hf, hs, hn, ha]; rfl)) _).trans (bind_of_ok (can_ok _ _ hc) _))

theorem execRestoreComplete_hot {c : CtxN} (h : imagesCool s c = false) : ∃ why, execRestoreComplete c s = .refused (.notEnabled why) :=
  runPlain_of_no (stops_after (stops_can h))

theorem execRestoreComplete_ok {c : CtxN} (hp : powered s = true) (hf : s.failed = false) (hr : (getC s c).st = .running)
    (hs : (getC s c).restoring = true) (hc : imagesCool s c = true) :
    let s2 := (withFillers (restoreImages s c) c).foldl (fun s d =>
      resumeThreads (setC s d { getC s d with st := .running, restoring := false }) d) (restoreImages s c)
    execRestoreComplete c s = .next (startFillers ((withFillers s2 c).foldl settle s2) c) :=
  runPlain_of_ok ((bind_of_ok (can_ok _ _ (by rw [hp, hf, hr, hs]; rfl)) _).trans (bind_of_ok (can_ok _ _ hc) _))

end

/-- Settles O45: the start of a suspension, its boundary, and the ends of a save and of a restore. -/
theorem preemption : Obligations.Preemption := by
  unfold Obligations.Preemption
  intro s c
  refine ⟨fun hp hr hs hr' => ?_, fun hf hr hs hn => ⟨fun ha => execContextSuspend_ok hr hf hs hn ha,
    fun ha => execContextSuspend_no (.inr ha)⟩, fun hs => ⟨execContextSuspend_no (.inl hs), execSaveComplete_no hs⟩,
    fun hp hf hs hn ha => ⟨fun hc => execSaveComplete_hot hc, fun hc => execSaveComplete_ok hp hf hs hn ha hc⟩,
    fun hp hf hr hs => ⟨fun hc => execRestoreComplete_hot hc, fun hc => execRestoreComplete_ok hp hf hr hs hc⟩⟩
  have h := beginSaves_begun hp hr hs hr'
  exact ⟨h.saving, h.preempt, h.atPoint, h.suspEdge⟩

end Sys2Proof.Machine

namespace Sys2Proof.Machine

/-! ## Hardware errors (R451-R458) -/

theorem bind_the_of_some {α β : Type} {o : Option α} {a : α} (h : o = some a) (why : String) (k : α → Ex β) :
    (the o why >>= k) = k a := by
  rw [h]; rfl

section
variable {s : State}

theorem execRetireWindowClose_open {u : UnitId} {w : Window} (hw : s.windows.find? (fun x => x.unit == u) = some w)
    (h : s.fticks < w.opened + windowTicks s u.ty) : ∃ why, execRetireWindowClose u s = .refused (.notEnabled why) := by
  refine runPlain_of_no (stops_after ?_)
  rw [bind_the_of_some hw]
  exact stops_can (decide_eq_false (Nat.not_le.mpr h))

theorem execUncorrectableError_memWord_known {a : BitVec 48} {l : Loc} (hl : locate s a.toNat = some l)
    (hu : s.ue.contains (a.toNat / 32) = true) : ∃ why, execUncorrectableError (.memWord a) s = .refused (.notEnabled why) := by
  refine runPlain_of_no (stops_after ?_)
  dsimp only
  rw [bind_the_of_some hl]
  exact stops_can (by rw [hu]; rfl)

section
variable (hp : powered s = true) (hf : s.failed = false)
include hp hf

theorem running_bind {α : Type} (why : String) (k : Unit → Ex α) : (can (powered s && !s.failed) why >>= k) = k () :=
  bind_of_ok (can_ok _ _ (by rw [hp, hf]; rfl)) k

/-- A corrected error is counted; the unit is retired as its window reaches the threshold. -/
theorem execCorrectedError_eq {u : UnitId} (hu : u.idx < unitCount u.ty) (h3 : u.ty.val ≠ 3) : execCorrectedError u s =
    .next (if (countError s u).2 then retireUnit (countError s u).1 u.ty u.idx 0 else (countError s u).1) :=
  runPlain_of_ok ((running_bind hp hf _ _).trans ((bind_of_ok (can_ok _ _ (decide_eq_true hu)) _).trans
    (bind_of_ok (can_ok _ _ (bne_iff_ne.mpr h3)) _)))

theorem execRetireWindowClose_closes {u : UnitId} {w : Window} (hw : s.windows.find? (fun x => x.unit == u) = some w)
    (h : w.opened + windowTicks s u.ty ≤ s.fticks) :
    execRetireWindowClose u s = .next { s with windows := s.windows.filter (fun x => x.unit != u) } :=
  runPlain_of_ok ((running_bind hp hf _ _).trans ((bind_the_of_some hw _ _).trans (bind_of_ok (can_ok _ _ (decide_eq_true h)) _)))

theorem execUncorrectableError_memWord {a : BitVec 48} {l : Loc} (hl : locate s a.toNat = some l)
    (hu : s.ue.contains (a.toNat / 32) = false) : execUncorrectableError (.memWord a) s = .next (markWord s a.toNat l) :=
  runPlain_of_ok ((running_bind hp hf _ _).trans ((bind_the_of_some hl _ _).trans (bind_of_ok (can_ok _ _ (by rw [hu]; rfl)) _)))

theorem execWatchdogExpiry_eq : execWatchdogExpiry s =
    .next (if s.lastExpiry.any (fun k => decide (s.fticks ≤ k + 2000000)) then deviceFail { s with lastExpiry := some s.fticks }
      else { s with lastExpiry := some s.fticks }) :=
  runPlain_of_ok (running_bind hp hf _ _)

end
end

theorem next_ite_pos {b : Bool} {x y : State} {r : Res} (h : r = .next (if b then x else y)) (hb : b = true) : r = .next x := by
  rw [h, if_pos hb]
theorem next_ite_neg {b : Bool} {x y : State} {r : Res} (h : r = .next (if b then x else y)) (hb : b = false) : r = .next y := by
  rw [h, hb]; rfl

/-- Settles O46: corrected errors against their threshold, windows, every uncorrectable error, and the watchdog's second expiry. -/
theorem hardwareErrors : Obligations.HardwareErrors := by
  unfold Obligations.HardwareErrors
  intro s hp hf
  refine ⟨fun u hu h3 => ?counted, fun u w hw => ⟨execRetireWindowClose_closes hp hf hw, execRetireWindowClose_open hw⟩,
    fun i => runPlain_of_ok (running_bind hp hf _ _), fun q => runPlain_of_ok (running_bind hp hf _ _),
    fun q a => runPlain_of_ok (running_bind hp hf _ _), fun q => runPlain_of_ok (running_bind hp hf _ _),
    fun n => runPlain_of_ok (running_bind hp hf _ _),
    fun a l hl => ⟨execUncorrectableError_memWord hp hf hl, execUncorrectableError_memWord_known hl⟩,
    runPlain_of_ok (running_bind hp hf _ _), runPlain_of_ok (running_bind hp hf _ _), ?watchdog⟩
  case counted =>
    have h := execCorrectedError_eq hp hf hu h3
    exact ⟨fun hn => next_ite_neg h (decide_eq_false fun hc => hn.elim hc.1 (Nat.not_lt.mpr hc.2)),
      fun hn hw => next_ite_pos h (decide_eq_true ⟨hn, hw⟩)⟩
  case watchdog =>
    have h := execWatchdogExpiry_eq hp hf
    refine ⟨fun hk => next_ite_neg h ?_, fun k hk hl => next_ite_neg h ?_, fun k hk hl => next_ite_pos h ?_⟩
    · rw [hk]; rfl
    · rw [hk]; exact decide_eq_false (Nat.not_le.mpr hl)
    · rw [hk]; exact decide_eq_true hl

end Sys2Proof.Machine

namespace Sys2Proof.Machine

/-! ## Doorbells (R419, R421, R425, R426, R428) -/

/-! ### Indices of a ring -/

/-- An index lies at most `m` entries ahead of another one of the ring, exactly if it is reached by that many steps. -/
theorem ring_reach {n h m x : Nat} (hh : h < n) (hm : m < n) :
    (x < n ∧ (x + n - h) % n ≤ m) ↔ ∃ d, d ≤ m ∧ x = (h + d) % n := by
  have hn : 0 < n := Nat.lt_of_le_of_lt (Nat.zero_le _) hh
  constructor
  · intro ⟨hx, hd⟩
    refine ⟨(x + n - h) % n, hd, ?_⟩
    rw [Nat.add_mod, Nat.mod_mod, ← Nat.add_mod, show h + (x + n - h) = x + n by omega, Nat.add_mod_right, Nat.mod_eq_of_lt hx]
  · rintro ⟨d, hd, rfl⟩
    refine ⟨Nat.mod_lt _ hn, ?_⟩
    rcases Nat.lt_or_ge (h + d) n with hl | hl
    · rw [Nat.mod_eq_of_lt hl, show h + d + n - h = d + n by omega, Nat.add_mod_right]
      exact (Nat.mod_le d n).trans hd
    · rw [Nat.mod_eq_sub_mod hl, Nat.mod_eq_of_lt (by omega : h + d - n < n), show h + d - n + n - h = d by omega]
      exact (Nat.mod_le d n).trans hd

/-- A submission doorbell's value lies within the ring's free entries. -/
def TailWithin (s : State) (k x : Nat) : Prop :=
  ∃ d, d ≤ (sqHead s k + 2 * sqSize s k - 1 - (getRing s k).sqTail) % sqSize s k ∧ x = ((getRing s k).sqTail + d) % sqSize s k

/-- The entries of a completion ring. -/
def cqSize (s : State) (k : Nat) : Nat := ringSize (rfld s (ringCqCtl k) 19 16)

/-- A completion doorbell's value lies within the ring's used entries. -/
def HeadWithin (s : State) (k x : Nat) : Prop :=
  ∃ d, d ≤ (rfld s (ringCqCtl k) 15 0 + cqSize s k - (getRing s k).cqHead) % cqSize s k ∧ x = ((getRing s k).cqHead + d) % cqSize s k

section
variable {s : State} {k x : Nat}

theorem newTail_taken (fn : Nat) (ht : (getRing s k).sqTail < sqSize s k) (hx : TailWithin s k x) :
    newTail s fn k x = setRing s k { getRing s k with sqTail := x, sender := fn } :=
  if_pos ((ring_reach ht (Nat.mod_lt _ (Nat.zero_lt_of_lt ht))).mpr hx)

theorem newTail_refused (fn : Nat) (ht : (getRing s k).sqTail < sqSize s k) (hx : ¬ TailWithin s k x) :
    newTail s fn k x = ringErr s k (ringSqCtl k) :=
  if_neg (fun h => hx ((ring_reach ht (Nat.mod_lt _ (Nat.zero_lt_of_lt ht))).mp h))

theorem newHead_taken (hh : (getRing s k).cqHead < cqSize s k) (hx : HeadWithin s k x) :
    newHead s k x = setRing s k { getRing s k with cqHead := x, fullRaised := (getRing s k).fullRaised && x == (getRing s k).cqHead } :=
  if_pos ((ring_reach hh (Nat.mod_lt _ (Nat.zero_lt_of_lt hh))).mpr hx)

theorem newHead_refused (hh : (getRing s k).cqHead < cqSize s k) (hx : ¬ HeadWithin s k x) :
    newHead s k x = ringErr s k (ringCqCtl k) :=
  if_neg (fun h => hx ((ring_reach hh (Nat.mod_lt _ (Nat.zero_lt_of_lt hh))).mp h))

end

/-! ### A doorbell at its ring -/

section
variable {s : State} {ring : Ring}

theorem key_eq_64_iff : Ring.key ring = 64 ↔ ring = .admin := by
  cases ring with
  | admin => exact ⟨fun _ => rfl, fun _ => rfl⟩
  | ctx c => exact ⟨fun h => absurd h (Nat.ne_of_lt c.isLt), fun h => nomatch h⟩

theorem bellOn_off (h : recovering s = true ∧ Ring.key ring ≠ 64) : bellOn s ring = false := by
  obtain ⟨hr, hk⟩ := h
  rw [bellOn, hr, beq_false_of_ne fun h => hk (key_eq_64_iff.mpr h)]; rfl

theorem bellOn_on (h : recovering s = false ∨ Ring.key ring = 64) : bellOn s ring = true := by
  rcases h with h | h
  · rw [bellOn, h]; rfl
  · rw [bellOn, key_eq_64_iff.mp h]; exact Bool.or_true _

theorem tailBell_none (fn : Nat) (v : Half) (h : (recovering s = true ∧ Ring.key ring ≠ 64) ∨ sqOn s (Ring.key ring) = false) :
    tailBell s fn ring v = s :=
  if_neg (by rcases h with h | h
             · rw [bellOn_off h]; exact Bool.false_ne_true
             · rw [h, Bool.and_false]; exact Bool.false_ne_true)

theorem headBell_none (v : Half) (h : (recovering s = true ∧ Ring.key ring ≠ 64) ∨ cqOn s (Ring.key ring) = false) :
    headBell s ring v = s :=
  if_neg (by rcases h with h | h
             · rw [bellOn_off h]; exact Bool.false_ne_true
             · rw [h, Bool.and_false]; exact Bool.false_ne_true)

theorem tailBell_new (fn : Nat) (v : Half) (h : recovering s = false ∨ Ring.key ring = 64) (ho : sqOn s (Ring.key ring) = true) :
    tailBell s fn ring v = newTail s fn (Ring.key ring) (fld v 15 0) := if_pos (by rw [bellOn_on h, ho]; rfl)

theorem headBell_new (v : Half) (h : recovering s = false ∨ Ring.key ring = 64) (ho : cqOn s (Ring.key ring) = true) :
    headBell s ring v = newHead s (Ring.key ring) (fld v 15 0) := if_pos (by rw [bellOn_on h, ho]; rfl)

theorem ringErr_sqCtl (s : State) (ring : Ring) : ringErr s (Ring.key ring) (ringSqCtl (Ring.key ring)) =
    if Ring.key ring = 64 then eventG s 0x0205 (leBytes 4 (Reg.offset .admSqCtl))
    else eventC s 0x0205 (Ring.key ring) (leBytes 4 (Reg.offset (.sqCtl (Ring.key ring)))) := by
  cases ring with
  | admin => rfl
  | ctx c =>
    have hc : Ring.key (.ctx c) ≠ 64 := Nat.ne_of_lt c.isLt
    rw [if_neg hc, ringSqCtl, if_neg hc]
    exact if_pos c.isLt

theorem ringErr_cqCtl (s : State) (ring : Ring) : ringErr s (Ring.key ring) (ringCqCtl (Ring.key ring)) =
    if Ring.key ring = 64 then eventG s 0x0205 (leBytes 4 (Reg.offset .admCqCtl))
    else eventC s 0x0205 (Ring.key ring) (leBytes 4 (Reg.offset (.cqCtl (Ring.key ring)))) := by
  cases ring with
  | admin => rfl
  | ctx c =>
    have hc : Ring.key (.ctx c) ≠ 64 := Nat.ne_of_lt c.isLt
    rw [if_neg hc, ringCqCtl, if_neg hc]
    exact if_pos c.isLt

end

section
variable {s : State} {ring : Ring} {v : Half}

/-- What a doorbell of a submission ring does. -/
theorem writeTail_held (fn : Func) (hw : fwStalls s = true) :
    writeTail s fn ring v = { s with bells := s.bells ++ [.tail fn ring v] } := if_pos hw
theorem writeTail_bell (fn : Func) (hw : fwStalls s = false) : writeTail s fn ring v = tailBell s fn ring v :=
  if_neg (by rw [hw]; exact Bool.false_ne_true)
theorem writeHead_held (hw : fwStalls s = true) : writeHead s ring v = { s with bells := s.bells ++ [.head ring v] } := if_pos hw
theorem writeHead_bell (hw : fwStalls s = false) : writeHead s ring v = headBell s ring v :=
  if_neg (by rw [hw]; exact Bool.false_ne_true)

end

theorem hubUp_iff {s : State} : hubUp s = true ↔ ((hostOk s = true ∧ s.failed = false) ∧ recovering s = false) ∧ fwStalls s = false := by
  simp only [hubUp, Bool.and_eq_true, Bool.not_eq_true']

/-! ### The pages of BAR2 and the admin doorbell -/

section
variable {s : State} {fn : Func}

theorem memRow_d3hot (hfn : hostFn s fn = true) (hd : inD3hot s fn = true) (z : State) : memRow s fn z = .next (toHost s .unsupported) :=
  runPlain_of_ok ((bind_of_ok (can_ok _ _ hfn) _).trans (congrArg Except.ok (if_pos hd)))

theorem memRow_next (hfn : hostFn s fn = true) (hd : inD3hot s fn = false) (z : State) : memRow s fn z = .next z :=
  runPlain_of_ok ((bind_of_ok (can_ok _ _ hfn) _).trans (congrArg Except.ok (if_neg (by rw [hd]; exact Bool.false_ne_true))))

/-- The context that a page of BAR2 names: context `page` of PF0, context `page` of a VF's partition. -/
def NamedBy (s : State) (fn : Func) (page : Fin 64) (c : CtxN) : Prop :=
  (fn.val = 0 ∧ c = page) ∨ (fn.val ≠ 0 ∧ page.val < 16 ∧ ∃ p, partOfFunc s fn = some p ∧ c.val = 16 * p + page.val)

theorem pageCtx_named {page : Fin 64} {c : CtxN} (h : NamedBy s fn page c) : pageCtx s fn page = some c := by
  rcases h with ⟨hf, rfl⟩ | ⟨hf, hp, p, hpart, hc⟩
  · rw [pageCtx, if_pos hf, if_pos c.isLt]
    exact congrArg some (Fin.ext (Nat.mod_eq_of_lt c.isLt))
  · rw [pageCtx, if_neg hf, if_pos hp, hpart, Option.map_some, ← hc]
    exact congrArg some (Fin.ext (Nat.mod_eq_of_lt c.isLt))

theorem pageCtx_none {page : Fin 64} (h : ∀ c, ¬ NamedBy s fn page c) : pageCtx s fn page = none := by
  by_cases hf : fn.val = 0
  · exact absurd (.inl ⟨hf, rfl⟩) (h page)
  by_cases hp : page.val < 16
  · cases hpart : partOfFunc s fn with
    | none => rw [pageCtx, if_neg hf, if_pos hp, hpart]; rfl
    | some p =>
      have h4 : p < 4 := List.mem_range.mp (List.mem_of_find?_eq_some hpart)
      exact absurd (.inr ⟨hf, hp, p, hpart, rfl⟩) (h ⟨16 * p + page.val, by omega⟩)
  · rw [pageCtx, if_neg hf, if_neg hp]

/-- A doorbell of the admin ring is a write of a half of GLB_ADM_DB, which only PF0 writes. -/
theorem barWrite_admDb_vf (hf : fn.val ≠ 0) {a : BarAcc} {z : State} {lo : Option Half}
    (h : ∀ high, takeHalf s fn (Reg.offset .admDb) high = (z, lo)) :
    barWrite s fn (Reg.offset .admDb) a = z := by
  have hw : mayW z fn .admDb = false := by
    rw [mayW, beq_false_of_ne hf, Bool.false_or]
    cases partOfFunc z fn <;> rfl
  unfold barWrite
  rw [h, show regAt (Reg.offset .admDb) = some .admDb from rfl]
  dsimp only
  rw [hw, Bool.and_false]
  rfl

theorem barWrite_admDb_pf (hf : fn.val = 0) {a : BarAcc} {z : State} {lo : Option Half}
    (h : ∀ high, takeHalf s fn (Reg.offset .admDb) high = (z, lo)) :
    barWrite s fn (Reg.offset .admDb) a = regSlotWrite z fn .admDb a lo := by
  unfold barWrite
  rw [h, show regAt (Reg.offset .admDb) = some .admDb from rfl]
  dsimp only
  rw [mayW, beq_iff_eq.mpr hf, show responds z .admDb = true from Bool.or_eq_true_iff.mpr (.inl (Bool.or_true _))]
  rfl

theorem takeHalf_none {k : Nat} (hh : s.halves.find? (fun h => h.1 == k) = none) (slot : Nat) (high : Bool) :
    takeHalf s k slot high = (s, none) := by
  rw [takeHalf, hh]

theorem takeHalf_other {sl : Nat} {lo : Half} (hh : s.halves.find? (fun h => h.1 == fn.val) = some (fn.val, sl, lo)) {slot : Nat}
    (hs : sl ≠ slot) (high : Bool) : takeHalf s fn slot high =
    (regErr { s with halves := s.halves.filter (fun h => h.1 != fn.val) } sl 1, none) := by
  rw [takeHalf, hh]
  dsimp only
  rw [beq_false_of_ne hs, Bool.and_false]
  rfl

theorem regSlotWrite_admDb (s : State) (fn : Nat) (a : BarAcc) (low : Option Half) : regSlotWrite s fn .admDb a low =
    match a with
    | .whole v => writeHead (writeTail s fn .admin (BitVec.ofNat 32 (fld v 31 0))) .admin (BitVec.ofNat 32 (fld v 63 32))
    | .low v => writeTail s fn .admin v
    | .high v => writeHead s .admin v := if_pos rfl

section
variable (hfn : hostFn s fn = true) (hd : inD3hot s fn = false) {z : State} {lo : Option Half}
  (h : ∀ high, takeHalf s fn (Reg.offset .admDb) high = (z, lo)) (v : Half)
include hfn hd h

theorem adminDoorbells_vf (hf : fn.val ≠ 0) :
    execSqTailWrite fn .admin v s = .next z ∧ execCqHeadWrite fn .admin v s = .next z := by
  constructor
  · rw [execSqTailWrite, memRow_next hfn hd, tailRow, barWrite_admDb_vf hf h]
  · rw [execCqHeadWrite, memRow_next hfn hd, headRow, barWrite_admDb_vf hf h]

theorem execSqTailWrite_admin_pf (hf : fn.val = 0) : execSqTailWrite fn .admin v s = .next (writeTail z fn .admin v) := by
  rw [execSqTailWrite, memRow_next hfn hd, tailRow, barWrite_admDb_pf hf h]
  exact congrArg Host.Outcome.next (regSlotWrite_admDb z fn _ _)

theorem execCqHeadWrite_admin_pf (hf : fn.val = 0) : execCqHeadWrite fn .admin v s = .next (writeHead z .admin v) := by
  rw [execCqHeadWrite, memRow_next hfn hd, headRow, barWrite_admDb_pf hf h]
  exact congrArg Host.Outcome.next (regSlotWrite_admDb z fn _ _)

end

/-! ### Inline records -/

theorem inlineWrite_held {c : CtxN} {whole : Bool} {r : Rec} (h : fwStalls s = true ∨ reelMode s (partOf c) = 2) :
    inlineWrite s fn c whole r = { s with bells := s.bells ++ [.inline fn c whole r] } :=
  if_pos (by rcases h with h | h <;> simp [h])

theorem inlineWrite_bell {c : CtxN} {whole : Bool} {r : Rec} (hw : fwStalls s = false) (hr : reelMode s (partOf c) ≠ 2) :
    inlineWrite s fn c whole r = inlineBell s fn c whole r :=
  if_neg (by rw [hw, beq_false_of_ne hr]; exact Bool.false_ne_true)

theorem inlineBell_none {c : CtxN} {whole : Bool} {r : Rec} (h : recovering s = true ∨ s.failed = true) :
    inlineBell s fn c whole r = s := if_pos (Bool.or_eq_true_iff.mpr h)

theorem inlineBell_up {c : CtxN} {whole : Bool} {r : Rec} (hr : recovering s = false) (hf : s.failed = false) :
    inlineBell s fn c whole r =
      if whole = true ∧ exists' s c = true ∧ ctxCls s c = 0 ∧ (recOp r = 2 ∨ recOp r = 6) then decodeRec s fn c 0 r
      else eventC s 0x0204 c (leBytes 4 (Reg.offset (.sqCtl c))) := by
  rw [inlineBell, if_neg (by rw [hr, hf]; exact Bool.false_ne_true)]
  simp only [Bool.and_eq_true, Bool.or_eq_true, beq_iff_eq, and_assoc]

end

/-- Settles O47: every doorbell and inline record of a function, held ones, D3hot, recovery, and the admin ring's half writes. -/
theorem doorbells : Obligations.Doorbells := by
  unfold Obligations.Doorbells
  intro s fn hfn named tails heads
  have htails : ∀ i z ring v, exec i s = .next (writeTail z fn ring v) → tails i z ring v := fun i z ring v h =>
    ⟨fun hw => h.trans (congrArg _ (writeTail_held fn hw)),
      fun hw hn => h.trans (congrArg _ ((writeTail_bell fn hw).trans (tailBell_none fn v hn))),
      fun hw hr ho ht =>
        have hb := h.trans (congrArg _ ((writeTail_bell fn hw).trans (tailBell_new fn v hr ho)))
        ⟨fun d hd hx => hb.trans (congrArg _ (newTail_taken fn ht ⟨d, hd, hx⟩)),
          fun hx => hb.trans (congrArg _ ((newTail_refused fn ht fun ⟨d, hd, hx'⟩ => hx d hd hx').trans (ringErr_sqCtl z ring)))⟩⟩
  have hheads : ∀ i z ring v, exec i s = .next (writeHead z ring v) → heads i z ring v := fun i z ring v h =>
    ⟨fun hw => h.trans (congrArg _ (writeHead_held hw)),
      fun hw hn => h.trans (congrArg _ ((writeHead_bell hw).trans (headBell_none v hn))),
      fun hw hr ho ht =>
        have hb := h.trans (congrArg _ ((writeHead_bell hw).trans (headBell_new v hr ho)))
        ⟨fun d hd hx => hb.trans (congrArg _ (newHead_taken ht ⟨d, hd, hx⟩)),
          fun hx => hb.trans (congrArg _ ((newHead_refused ht fun ⟨d, hd, hx'⟩ => hx d hd hx').trans (ringErr_cqCtl z ring)))⟩⟩
  refine ⟨fun ring v page whole r hd => ⟨memRow_d3hot hfn hd _, memRow_d3hot hfn hd _, memRow_d3hot hfn hd _⟩,
    fun hd => ⟨fun page v whole r hn => ?unnamed, fun page c v hn => ?named, fun v => ?admin, fun page c whole r hn => ?inline⟩⟩
  case unnamed =>
    have hpage := pageCtx_none hn
    refine ⟨(memRow_next hfn hd _).trans (congrArg _ ?_), (memRow_next hfn hd _).trans (congrArg _ ?_),
      (memRow_next hfn hd _).trans (congrArg _ ?_)⟩
    · rw [tailRow, hpage]
    · rw [headRow, hpage]
    · rw [inlineRow, hpage]
  case named =>
    have hpage := pageCtx_named hn
    refine ⟨htails _ _ _ _ ((memRow_next hfn hd _).trans (congrArg _ ?_)), hheads _ _ _ _ ((memRow_next hfn hd _).trans (congrArg _ ?_))⟩
    · rw [tailRow, hpage]
    · rw [headRow, hpage]
  case admin =>
    refine ⟨fun hh hf => ?_, fun hh hf => ?_, fun slot lo hh hs => ⟨fun hf => ?_, fun hf => ?_⟩⟩
    · exact adminDoorbells_vf hfn hd (takeHalf_none hh _) v hf
    · exact ⟨htails _ _ _ _ (execSqTailWrite_admin_pf hfn hd (takeHalf_none hh _) v hf),
        hheads _ _ _ _ (execCqHeadWrite_admin_pf hfn hd (takeHalf_none hh _) v hf)⟩
    · exact adminDoorbells_vf hfn hd (takeHalf_other hh hs) v hf
    · exact ⟨htails _ _ _ _ (execSqTailWrite_admin_pf hfn hd (takeHalf_other hh hs) v hf),
        hheads _ _ _ _ (execCqHeadWrite_admin_pf hfn hd (takeHalf_other hh hs) v hf)⟩
  case inline =>
    have hrow : exec (.inlineRecord fn page whole r) s = .next (inlineWrite s fn c whole r) := by
      refine (memRow_next hfn hd _).trans (congrArg _ ?_)
      rw [inlineRow, pageCtx_named hn]
    refine ⟨fun h => hrow.trans (congrArg _ (inlineWrite_held h)),
      fun hw hr h => hrow.trans (congrArg _ ((inlineWrite_bell hw hr).trans (inlineBell_none h))), fun hu hr => ?_⟩
    obtain ⟨⟨⟨-, hf⟩, hrec⟩, hw⟩ := hubUp_iff.mp hu
    have hup := hrow.trans (congrArg _ ((inlineWrite_bell hw hr).trans (inlineBell_up hrec hf)))
    exact ⟨fun ht => hup.trans (congrArg _ (if_pos ht)), fun ht => hup.trans (congrArg _ (if_neg ht))⟩

end Sys2Proof.Machine

namespace Sys2Proof.Machine

/-! ## Command records (R429-R431) -/

/-! ### What every record does first -/

/-- The record at HEAD is fetched, passed and numbered. -/
def numbered (s : State) (k : Nat) (r : Rec) : State × Nat := takeRec (passHead (fetchRec s k) k) k r

/-- The state in which a record is checked and acts: a context's record is an input of its reel. -/
def atRecord (s : State) (k : Nat) (r : Rec) : State :=
  if k = 64 then (numbered s k r).1 else reelCommand (numbered s k r).1 k (recData r)

section
variable {s : State} {ring : Ring} {r : Rec} (hu : hubUp s = true) (hw : recWaits s (Ring.key ring) r = true) {op : Nat}

include hu hw in
theorem ringRecord_next (ho : recOp r = op ∨ opOk (Ring.key ring) (recOp r) = false) : ringRecord op ring r s =
    .next (decodeRec (numbered s (Ring.key ring) r).1 (getRing s (Ring.key ring)).sender (Ring.key ring) (numbered s (Ring.key ring) r).2 r) :=
  runPlain_of_ok ((bind_of_ok (can_ok _ _ hu) _).trans ((bind_of_ok (can_ok _ _ (by rcases ho with h | h <;> simp [h])) _).trans
    (bind_of_ok (can_ok _ _ hw) _)))

theorem recCheck_unusable {s : State} {fn k : Nat} (h : ringUsable s fn k = false) : recCheck s fn k r = 4 := by
  rw [recCheck, h]; rfl

theorem recCheck_opcode {s : State} {fn k : Nat} (h : ringUsable s fn k = true) (ho : opOk k (recOp r) = false) : recCheck s fn k r = 1 := by
  rw [recCheck, h, ho]; rfl

theorem recCheck_reserved {s : State} {fn k : Nat} (h : ringUsable s fn k = true) (ho : opOk k (recOp r) = true)
    (hr : reservedOk r = false) : recCheck s fn k r = 2 := by
  rw [recCheck, h, ho, hr]; rfl

theorem recCheck_good {s : State} {fn k : Nat} (h : ringUsable s fn k = true) (ho : opOk k (recOp r) = true)
    (hr : reservedOk r = true) : recCheck s fn k r = 0 := by
  rw [recCheck, h, ho, hr]; rfl

/-- A record that a check refuses completes with the check's status. -/
theorem decodeRec_refused {fn k n st : Nat} (h : recCheck (if k = 64 then s else reelCommand s k (recData r)) fn k r = st) (h0 : st ≠ 0) :
    decodeRec s fn k n r = complete (if k = 64 then s else reelCommand s k (recData r)) k n (cmdId r) st :=
  (if_neg (by rw [h]; exact h0)).trans (by rw [h])

theorem decodeRec_acts {fn k n : Nat} (h : recCheck (if k = 64 then s else reelCommand s k (recData r)) fn k r = 0) :
    decodeRec s fn k n r = recEnd k n (cmdId r) (effect (if k = 64 then s else reelCommand s k (recData r)) k n r) := if_pos h

include hu hw in
theorem ringRecord_refused {st : Nat} (ho : recOp r = op ∨ opOk (Ring.key ring) (recOp r) = false)
    (h : recCheck (atRecord s (Ring.key ring) r) (getRing s (Ring.key ring)).sender (Ring.key ring) r = st) (h0 : st ≠ 0) :
    ringRecord op ring r s =
      .next (complete (atRecord s (Ring.key ring) r) (Ring.key ring) (numbered s (Ring.key ring) r).2 (cmdId r) st) :=
  (ringRecord_next hu hw ho).trans (congrArg Host.Outcome.next (decodeRec_refused h h0))

include hu hw in
theorem ringRecord_acts (ho : recOp r = op)
    (h : recCheck (atRecord s (Ring.key ring) r) (getRing s (Ring.key ring)).sender (Ring.key ring) r = 0) :
    ringRecord op ring r s = .next (recEnd (Ring.key ring) (numbered s (Ring.key ring) r).2 (cmdId r)
      (effect (atRecord s (Ring.key ring) r) (Ring.key ring) (numbered s (Ring.key ring) r).2 r)) :=
  (ringRecord_next hu hw (.inl ho)).trans (congrArg Host.Outcome.next (decodeRec_acts h))

end

/-! ### What each kind does -/

section
variable {s : State} {c num : Nat} {r : Rec}

theorem effect_create (h : recOp r = 1) : effect s c num r = effCreate s c r := by rw [effect, h]; rfl
theorem effect_launch (h : recOp r = 2) : effect s c num r = effLaunch s c num r := by rw [effect, h]; rfl
theorem effect_teardown (h : recOp r = 3) : effect s c num r = effTeardown s c num r := by rw [effect, h]; rfl
theorem effect_move (h : recOp r = 4) : effect s c num r = effMove s c num r := by rw [effect, h]; rfl
theorem effect_fence (h : recOp r = 5) : effect s c num r = .ok (leaveRec s c 0, false) := by rw [effect, h]; rfl
theorem effect_signal (h : recOp r = 6) : effect s c num r = effSignal s c r := by rw [effect, h]; rfl
theorem effect_stage (h : recOp r = 7) : effect s c num r = effStage s c num r := by rw [effect, h]; rfl

/-! #### CREATE -/

/-- What CREATE refuses for: a context that is there, a partition in reset or closed by its ply, a class 0 that no lease names. -/
def CreateRefused (s : State) (c : Nat) (r : Rec) : Prop :=
  (getC s c).st ≠ .none ∨ s.resetting.any (fun x => x.1 == partOf c) = true ∨ plyClosed s (partOf c) = true ∨
    ((Fin.ofNat 4 (fld r.w1 1 0) : Fin 4) = 0 ∧ leaseNames s c = false)

theorem createRefused_iff : CreateRefused s c r ↔ ((getC s c).st ≠ .none ∨ s.resetting.any (fun x => x.1 == partOf c) ∨
    plyClosed s (partOf c) ∨ ((Fin.ofNat 4 (fld r.w1 1 0) : Fin 4) = 0 ∧ !leaseNames s c)) := by
  rw [CreateRefused, Bool.not_eq_true']

theorem effCreate_refused (h : CreateRefused s c r) : effCreate s c r = .error (s, 3) := if_pos (createRefused_iff.mp h)

theorem effCreate_credits (h : ¬ CreateRefused s c r) (hc : 16384 < creditSum s c + rfld s (.lkcred c) 11 0 + 1) :
    effCreate s c r = .error (eventC s 0x0207 c (leBytes 4 (Reg.offset (.lkcred c))), 3) :=
  (if_neg (fun h' => h (createRefused_iff.mpr h'))).trans (if_pos hc)

theorem effCreate_creates (h : ¬ CreateRefused s c r) (hc : creditSum s c + rfld s (.lkcred c) 11 0 + 1 ≤ 16384) :
    effCreate s c r = .ok (setR (clearEpochs (clearCounters (setC { s with poolWaited := s.poolWaited.erase c } c
      { st := .stopped, cls := Fin.ofNat 4 (fld r.w1 1 0) }) c) c) (.detstat c) 0, true) :=
  (if_neg (fun h' => h (createRefused_iff.mpr h'))).trans (if_neg (Nat.not_lt.mpr hc))

/-! #### LAUNCH -/

/-- The context with a launch record's fields. -/
def launched (s : State) (c num : Nat) (r : Rec) : CtxSt :=
  { launchOf (getC s c) r with order := nextOrder s, launchCmd := some (num, cmdId r) }

/-- A launch names no range of leases. -/
def NoRange (r : Rec) : Prop := fld r.w1 37 32 = 0 ∧ fld r.w1 45 40 = 0

theorem noRange_iff : (fld r.w1 37 32 == 0 && fld r.w1 45 40 == 0) = true ↔ NoRange r := by
  rw [NoRange, Bool.and_eq_true, beq_iff_eq, beq_iff_eq]

theorem noRange_true (h : NoRange r) : (fld r.w1 37 32 == 0 && fld r.w1 45 40 == 0) = true := noRange_iff.mpr h
theorem noRange_false (h : ¬ NoRange r) : (fld r.w1 37 32 == 0 && fld r.w1 45 40 == 0) = false :=
  Bool.eq_false_iff.mpr fun h' => h (noRange_iff.mp h')

theorem effLaunch_absent (h : exists' s c = false) : effLaunch s c num r = .error (s, 3) := if_pos (by rw [h]; rfl)

theorem not_not_true {b : Bool} (h : b = true) : ¬ (!b) = true := by rw [h]; exact Bool.false_ne_true
theorem not_false_true {b : Bool} (h : b = false) : (!b) = true := by rw [h]; rfl

section
variable (he : exists' s c = true)
include he

section
variable (h0 : (getC s c).cls = 0)
include h0

theorem effLaunch_class0 : effLaunch s c num r =
    if (getC s c).st ≠ .stopped ∨ bit r.w1 48 then .error (s, 3)
    else if !(fld r.w1 37 32 == 0 && fld r.w1 45 40 == 0) then .error (s, 2)
    else .ok (startCtx (setC s c { launched s c num r with first := 0, count := ctxNL s c }) c, false) :=
  (if_neg (not_not_true he)).trans (if_pos h0)

theorem effLaunch_class0_refused (h : (getC s c).st ≠ .stopped ∨ bit r.w1 48 = true) : effLaunch s c num r = .error (s, 3) :=
  (effLaunch_class0 he h0).trans (if_pos h)

section
variable (hs : (getC s c).st = .stopped) (hf : bit r.w1 48 = false)
include hs hf

theorem effLaunch_class0_stopped : effLaunch s c num r =
    if !(fld r.w1 37 32 == 0 && fld r.w1 45 40 == 0) then .error (s, 2)
    else .ok (startCtx (setC s c { launched s c num r with first := 0, count := ctxNL s c }) c, false) :=
  (effLaunch_class0 he h0).trans (if_neg fun h => h.elim (· hs) (by rw [hf]; exact Bool.false_ne_true))

theorem effLaunch_class0_range (hn : ¬ NoRange r) : effLaunch s c num r = .error (s, 2) :=
  (effLaunch_class0_stopped he h0 hs hf).trans (if_pos (not_false_true (noRange_false hn)))

theorem effLaunch_class0_starts (hn : NoRange r) :
    effLaunch s c num r = .ok (startCtx (setC s c { launched s c num r with first := 0, count := ctxNL s c }) c, false) :=
  (effLaunch_class0_stopped he h0 hs hf).trans (if_neg (not_not_true (noRange_true hn)))

end
end

section
variable (h0 : (getC s c).cls ≠ 0)
include h0

/-- A filler's primary runs and keeps its place. -/
def PrimaryRuns (s : State) (c num : Nat) (r : Rec) : Prop :=
  (getC s (launched s c num r).primary).st = .running ∧ (getC s (launched s c num r).primary).saving = false ∧
    (getC s (launched s c num r).primary).restoring = false

omit he h0 in
theorem primaryRuns_iff : ((getC s (launched s c num r).primary).st == .running && !(getC s (launched s c num r).primary).saving &&
    !(getC s (launched s c num r).primary).restoring) = true ↔ PrimaryRuns s c num r := by
  rw [PrimaryRuns, Bool.and_eq_true, Bool.and_eq_true, beq_iff_eq, Bool.not_eq_true', Bool.not_eq_true', and_assoc]

section
variable (hf : bit r.w1 48 = true)
include hf

theorem effLaunch_filler : effLaunch s c num r =
    if !mayFill s c (launched s c num r).primary then .error (s, 3)
    else if !(fld r.w1 37 32 == 0 && fld r.w1 45 40 == 0) then .error (s, 2)
    else .ok (if (getC s (launched s c num r).primary).st == .running && !(getC s (launched s c num r).primary).saving &&
        !(getC s (launched s c num r).primary).restoring
      then startFillers (setC s c { launched s c num r with first := 0, count := 0 }) (launched s c num r).primary
      else setC s c { launched s c num r with first := 0, count := 0 }, false) :=
  (if_neg (not_not_true he)).trans ((if_neg h0).trans (if_pos hf))

theorem effLaunch_filler_refused (hm : mayFill s c (launched s c num r).primary = false) : effLaunch s c num r = .error (s, 3) :=
  (effLaunch_filler he h0 hf).trans (if_pos (not_false_true hm))

section
variable (hm : mayFill s c (launched s c num r).primary = true)
include hm

theorem effLaunch_filler_range (hn : ¬ NoRange r) : effLaunch s c num r = .error (s, 2) :=
  (effLaunch_filler he h0 hf).trans ((if_neg (not_not_true hm)).trans (if_pos (not_false_true (noRange_false hn))))

theorem effLaunch_filler_whole (hn : NoRange r) : effLaunch s c num r =
    .ok (if (getC s (launched s c num r).primary).st == .running && !(getC s (launched s c num r).primary).saving &&
        !(getC s (launched s c num r).primary).restoring
      then startFillers (setC s c { launched s c num r with first := 0, count := 0 }) (launched s c num r).primary
      else setC s c { launched s c num r with first := 0, count := 0 }, false) :=
  (effLaunch_filler he h0 hf).trans ((if_neg (not_not_true hm)).trans (if_neg (not_not_true (noRange_true hn))))

theorem effLaunch_filler_joins (hn : NoRange r) (hp : PrimaryRuns s c num r) : effLaunch s c num r =
    .ok (startFillers (setC s c { launched s c num r with first := 0, count := 0 }) (launched s c num r).primary, false) :=
  (effLaunch_filler_whole he h0 hf hm hn).trans (congrArg (fun z => Except.ok (z, false)) (if_pos (primaryRuns_iff.mpr hp)))

theorem effLaunch_filler_waits (hn : NoRange r) (hp : ¬ PrimaryRuns s c num r) : effLaunch s c num r =
    .ok (setC s c { launched s c num r with first := 0, count := 0 }, false) :=
  (effLaunch_filler_whole he h0 hf hm hn).trans
    (congrArg (fun z => Except.ok (z, false)) (if_neg fun h => hp (primaryRuns_iff.mp h)))

end
end

section
variable (hf : bit r.w1 48 = false)
include hf

theorem effLaunch_leases : effLaunch s c num r =
    if nlEff s (partOf c) < (launched s c num r).first + (launched s c num r).count then .error (s, 3)
    else .ok (serveOne (setC s c (launched s c num r)) c, false) :=
  (if_neg (not_not_true he)).trans ((if_neg h0).trans (if_neg (ne_true_of_eq_false hf)))

theorem effLaunch_leases_refused (hn : nlEff s (partOf c) < (launched s c num r).first + (launched s c num r).count) :
    effLaunch s c num r = .error (s, 3) := (effLaunch_leases he h0 hf).trans (if_pos hn)

theorem effLaunch_leases_queues (hn : (launched s c num r).first + (launched s c num r).count ≤ nlEff s (partOf c)) :
    effLaunch s c num r = .ok (serveOne (setC s c (launched s c num r)) c, false) :=
  (effLaunch_leases he h0 hf).trans (if_neg (Nat.not_lt.mpr hn))

end
end
end

/-! #### TEARDOWN, MOVE, SIGNAL, STAGE -/

theorem effTeardown_there (h : exists' s c = true) : effTeardown s c num r = .ok (leaveRec (teardown s c 0 (cmdId r)) c num, false) :=
  if_pos h
theorem effTeardown_absent (h : exists' s c = false) : effTeardown s c num r = .error (s, 3) :=
  if_neg (by rw [h]; exact Bool.false_ne_true)

/-- The move that a MOVE record describes. -/
def moveOf (num : Nat) (r : Rec) : MoveSt :=
  { num := num, cmdid := cmdId r, host := r.w1, loc := fld r.w2 47 0, len := fld r.w3 31 0 + 1, toHost := bit r.w3 32 }

/-- The state with one more move of the ring. -/
def addMove (s : State) (c num : Nat) (r : Rec) : State :=
  setRing s c { getRing s c with moves := (getRing s c).moves ++ [moveOf num r] }

theorem effMove_eq : effMove s c num r = match movePart s c (moveOf num r).loc (moveOf num r).len (moveOf num r).toHost with
    | none => .error (s, 5)
    | some p => if !(moveOf num r).toHost && reelRefuses s p then .error (reelInput s p, 0x0B)
      else .ok (if (moveOf num r).toHost then addMove s c num r
        else toHost (addMove s c num r) (.read (moveOf num r).host.toNat (moveOf num r).len (ringId (addMove s c num r) c)), false) := rfl

theorem effMove_nowhere (h : movePart s c (moveOf num r).loc (moveOf num r).len (moveOf num r).toHost = none) :
    effMove s c num r = .error (s, 5) := by
  rw [effMove_eq, h]

section
variable {p : Nat} (h : movePart s c (moveOf num r).loc (moveOf num r).len (moveOf num r).toHost = some p)
include h

theorem effMove_out (ht : (moveOf num r).toHost = true) : effMove s c num r = .ok (addMove s c num r, false) := by
  rw [effMove_eq, h]; dsimp only; rw [ht]; rfl

theorem effMove_reel (ht : (moveOf num r).toHost = false) (hr : reelRefuses s p = true) :
    effMove s c num r = .error (reelInput s p, 0x0B) := by
  rw [effMove_eq, h]; dsimp only; rw [ht, hr]; rfl

theorem effMove_in (ht : (moveOf num r).toHost = false) (hr : reelRefuses s p = false) : effMove s c num r =
    .ok (toHost (addMove s c num r) (.read (moveOf num r).host.toNat (moveOf num r).len (ringId (addMove s c num r) c)), false) := by
  rw [effMove_eq, h]; dsimp only; rw [ht, hr]; rfl

end

theorem effSignal_absent (h : exists' s c = false) : effSignal s c r = .error (s, 3) := if_pos (by rw [h]; rfl)

theorem effSignal_ok {s3 : State} (h : exists' s c = true) (hs : applySignal s (setFld r.w1 21 16 c) (bit r.w2 0) none = .ok s3) :
    effSignal s c r = .ok (s3, true) := by
  rw [effSignal, h, hs]; rfl

theorem effSignal_refused (h : exists' s c = true) (hs : ∀ s3, applySignal s (setFld r.w1 21 16 c) (bit r.w2 0) none ≠ .ok s3) :
    effSignal s c r = .error (s, 0x0A) := by
  cases ha : applySignal s (setFld r.w1 21 16 c) (bit r.w2 0) none with
  | ok s3 => exact absurd ha (hs s3)
  | error e => rw [effSignal, h, ha]; rfl

theorem effStage_other (h : bankOf s c (fld r.w1 2 0) = false) : effStage s c num r = .error (s, 7) := if_pos (by rw [h]; rfl)

section
variable (h : bankOf s c (fld r.w1 2 0) = true)
include h

theorem effStage_bank : effStage s c num r = match fld r.w1 9 8 with
    | 0 => .ok (waitBank (stgBegin s (fld r.w1 2 0)) c num (fld r.w1 2 0), false)
    | 1 =>
      let (s1, ok) := stgArm s (fld r.w1 2 0) r.w2 false
      if ok then .ok (stgReports s1, true) else .error (stgReports s1, 7)
    | 2 => .ok (stgReports (stgDisarm s (fld r.w1 2 0)), true)
    | _ => .ok (stgReports (stgClearAll s (fld r.w1 2 0)), true) := if_neg (by rw [h]; exact Bool.false_ne_true)

theorem effStage_check (ha : fld r.w1 9 8 = 0) :
    effStage s c num r = .ok (waitBank (stgBegin s (fld r.w1 2 0)) c num (fld r.w1 2 0), false) := by
  rw [effStage_bank h, ha]; rfl

theorem recEnd_arm (ha : fld r.w1 9 8 = 1) (id : Half) : recEnd c num id (effStage s c num r) =
    complete (stgReports (stgArm s (fld r.w1 2 0) r.w2 false).1) c num id (if (stgArm s (fld r.w1 2 0) r.w2 false).2 then 0 else 7) := by
  rw [effStage_bank h, ha]
  rcases stgArm s (fld r.w1 2 0) r.w2 false with ⟨s1, ok⟩
  cases ok <;> rfl

theorem effStage_disarm (ha : fld r.w1 9 8 = 2) : effStage s c num r = .ok (stgReports (stgDisarm s (fld r.w1 2 0)), true) := by
  rw [effStage_bank h, ha]; rfl

theorem effStage_clear (ha : fld r.w1 9 8 = 3) : effStage s c num r = .ok (stgReports (stgClearAll s (fld r.w1 2 0)), true) := by
  rw [effStage_bank h, ha]; rfl

end
end

theorem next_recEnd_ok {i : Instr} {s s' : State} {k n : Nat} {id : Half} {e : Eff} (h : exec i s = .next (recEnd k n id e))
    (he : e = .ok (s', false)) : Completes i s s' := by rw [Completes, h, he]; rfl
theorem next_recEnd_done {i : Instr} {s s' : State} {k n : Nat} {id : Half} {e : Eff} (h : exec i s = .next (recEnd k n id e))
    (he : e = .ok (s', true)) : Completes i s (complete s' k n id 0) := by rw [Completes, h, he]; rfl
theorem next_recEnd_error {i : Instr} {s s' : State} {k n st : Nat} {id : Half} {e : Eff} (h : exec i s = .next (recEnd k n id e))
    (he : e = .error (s', st)) : Completes i s (complete s' k n id st) := by rw [Completes, h, he]; rfl

/-- Settles O48: the checks of a record, and every kind's effect and status. -/
theorem commandRecords : Obligations.CommandRecords := by
  unfold Obligations.CommandRecords
  intro s ring r hu hw k taken n fn s2 ends rows
  refine ⟨fun x hx ho => ?checks, fun hus hop hres => ?acts⟩
  case checks =>
    have hrow : exec x.2 s = ringRecord x.1 ring r s := by
      simp only [rows, List.mem_cons, List.not_mem_nil, or_false] at hx
      rcases hx with rfl | rfl | rfl | rfl | rfl | rfl | rfl <;> rfl
    exact ⟨fun h => hrow.trans (ringRecord_refused hu hw ho (recCheck_unusable h) (by decide)),
      fun h h1 => hrow.trans (ringRecord_refused hu hw ho (recCheck_opcode h h1) (by decide)),
      fun h h1 h2 => hrow.trans (ringRecord_refused hu hw ho (recCheck_reserved h h1 h2) (by decide))⟩
  case acts =>
    have hact : ∀ op, recOp r = op → ringRecord op ring r s = .next (recEnd k n (cmdId r) (effect s2 k n r)) :=
      fun op ho => ringRecord_acts hu hw ho (recCheck_good hus hop hres)
    refine ⟨fun ho => ?create, fun ho => ?launch, fun ho => ?teardown, fun ho => ?move, fun ho => ?fence, fun ho => ?signal, fun ho => ?stage⟩
    case create =>
      have h : exec (.create ring r) s = _ := hact 1 ho
      rw [effect_create ho] at h
      exact ⟨fun hr => next_recEnd_error h (effCreate_refused hr), fun hr hc => next_recEnd_error h (effCreate_credits hr hc),
        fun hr hc => next_recEnd_done h (effCreate_creates hr hc)⟩
    case launch =>
      have h : exec (.launch ring r) s = _ := hact 2 ho
      rw [effect_launch ho] at h
      exact ⟨fun hx => next_recEnd_error h (effLaunch_absent hx),
        fun hx h0 => ⟨fun hr => next_recEnd_error h (effLaunch_class0_refused hx h0 hr),
          fun hs hf hn => next_recEnd_error h (effLaunch_class0_range hx h0 hs hf hn),
          fun hs hf hn => next_recEnd_ok h (effLaunch_class0_starts hx h0 hs hf hn)⟩,
        fun hx h0 hf => ⟨fun hm => next_recEnd_error h (effLaunch_filler_refused hx h0 hf hm),
          fun hm hn => next_recEnd_error h (effLaunch_filler_range hx h0 hf hm hn),
          fun hm hn hp => next_recEnd_ok h (effLaunch_filler_joins hx h0 hf hm hn hp),
          fun hm hn hp => next_recEnd_ok h (effLaunch_filler_waits hx h0 hf hm hn hp)⟩,
        fun hx h0 hf => ⟨fun hn => next_recEnd_error h (effLaunch_leases_refused hx h0 hf hn),
          fun hn => next_recEnd_ok h (effLaunch_leases_queues hx h0 hf hn)⟩⟩
    case teardown =>
      have h : exec (.teardown ring r) s = _ := hact 3 ho
      rw [effect_teardown ho] at h
      exact ⟨fun hx => next_recEnd_ok h (effTeardown_there hx), fun hx => next_recEnd_error h (effTeardown_absent hx)⟩
    case move =>
      have h : exec (.move ring r) s = _ := hact 4 ho
      rw [effect_move ho] at h
      exact ⟨fun hp => next_recEnd_error h (effMove_nowhere hp), fun p hp => ⟨fun ht => next_recEnd_ok h (effMove_out hp ht),
        fun ht hr => next_recEnd_error h (effMove_reel hp ht hr), fun ht hr => next_recEnd_ok h (effMove_in hp ht hr)⟩⟩
    case fence =>
      have h : exec (.ringFence ring r) s = _ := hact 5 ho
      exact next_recEnd_ok h (effect_fence ho)
    case signal =>
      have h : exec (.signal ring r) s = _ := hact 6 ho
      rw [effect_signal ho] at h
      exact ⟨fun hx => next_recEnd_error h (effSignal_absent hx), fun hx => ⟨fun s3 hs => next_recEnd_done h (effSignal_ok hx hs),
        fun hs => next_recEnd_error h (effSignal_refused hx hs)⟩⟩
    case stage =>
      have h : exec (.stage ring r) s = _ := hact 7 ho
      rw [effect_stage ho] at h
      exact ⟨fun hb => next_recEnd_error h (effStage_other hb), fun hb => ⟨fun ha => next_recEnd_ok h (effStage_check hb ha),
        fun ha => h.trans (congrArg _ (recEnd_arm hb ha _)), fun ha => next_recEnd_done h (effStage_disarm hb ha),
        fun ha => next_recEnd_done h (effStage_clear hb ha)⟩⟩

end Sys2Proof.Machine

namespace Sys2Proof.Machine

/-! ## CRITICAL commands (R446-R450) -/

section
variable {s : State} {r : Rec} {d : List Byte} {num : Nat}

/-! ### The steps of a record -/

/-- The state of a CRITICAL record whose payload has been asked for. -/
def atCritical (s : State) (r : Rec) : State :=
  if critLen r = 0 then (numbered s 64 r).1 else toHost (numbered s 64 r).1 (.read r.w3.toNat (critLen r))

section
variable (hu : hubUp s = true) (hfw : s.fw = none) (ho : recOp r = 8) (hon : sqOn s 64 = true)
  (hne : sqHead s 64 ≠ (getRing s 64).sqTail) {kind : Nat}
include hu hfw ho hon hne

theorem critRecord_bad (hk : critKind r = kind ∨ critKind r = 0 ∨ 8 < critKind r) :
    critRecord kind r .bad s = .next (complete (atCritical s r) 64 (numbered s 64 r).2 (cmdId r) 6) :=
  runPlain_of_ok ((bind_of_ok (can_ok _ _ (by rw [hu, hfw]; rfl)) _).trans ((bind_of_ok (can_ok _ _
    (by rcases hk with h | h | h <;> simp [ho, h])) _).trans ((bind_of_ok (can_ok _ _ (by rw [hon, bne_iff_ne.mpr hne]; rfl)) _).trans
    (bind_of_ok (can_ok _ _ rfl) _))))

theorem critRecord_steps (hk : critKind r = kind ∨ critKind r = 0 ∨ 8 < critKind r) (hd : d.length = critLen r) :
    critRecord kind r (.ok d) s =
      .next (recEnd 64 (numbered s 64 r).2 (cmdId r) (critSteps (atCritical s r) r d (numbered s 64 r).2)) :=
  runPlain_of_ok ((bind_of_ok (can_ok _ _ (by rw [hu, hfw]; rfl)) _).trans ((bind_of_ok (can_ok _ _
    (by rcases hk with h | h | h <;> simp [ho, h])) _).trans ((bind_of_ok (can_ok _ _ (by rw [hon, bne_iff_ne.mpr hne]; rfl)) _).trans
    (bind_of_ok (can_ok _ _ (decide_eq_true hd)) _))))

end

theorem critSteps_form (h : critForm r (keyed s) d ≠ 0) : critSteps s r d num = .error (s, critForm r (keyed s) d) := if_pos h

theorem critSteps_auth (h : critForm r (keyed s) d = 0) (ha : critAuth s r d = false) : critSteps s r d num =
    .error (bump { s with sec := { s.sec with failRun := s.sec.failRun + 1 } } .secAuthfail 1, 8) :=
  (if_neg (not_not.mpr h)).trans (if_pos (not_false_true ha))

theorem critSteps_counter (h : critForm r (keyed s) d = 0) (ha : critAuth s r d = true) (hc : critCounter s r = false) :
    critSteps s r d num = .error (s, 9) :=
  (if_neg (not_not.mpr h)).trans ((if_neg (not_not_true ha)).trans (if_pos (not_false_true hc)))

theorem critSteps_act (h : critForm r (keyed s) d = 0) (ha : critAuth s r d = true) (hc : critCounter s r = true) :
    critSteps s r d num = critAct (persist s r) r d num :=
  (if_neg (not_not.mpr h)).trans ((if_neg (not_not_true ha)).trans (if_neg (not_not_true hc)))

/-- The upper half of the payload of DEVID_ASSIGN is reserved. -/
theorem critForm_devid {kd : Bool} (hk : critKind r = 8) (hw : fld r.w0 31 8 = 0) (ha : critArg r = 0) (hd : d.length = 8)
    (hb : ∃ b ∈ d.drop 4, b ≠ 0) : critForm r kd d = 2 := by
  have hany : (d.drop 4).any (· != 0) = true := by
    obtain ⟨b, hm, hb⟩ := hb
    exact List.any_eq_true.mpr ⟨b, hm, bne_iff_ne.mpr hb⟩
  unfold critForm
  rw [hw, hk, ha, hd, hany]
  cases kd <;> rfl

/-! ### FW_LOAD and FW_ACTIVATE -/

/-- A slot without an image is not valid. -/
theorem imgOk_nil (root : List Byte) (owner : Option OwnerBlob) (floor : Nat) : imgOk root owner floor [] = false := by
  have h : (imgBytes [] 0 8 == imgMagic) = false := by decide
  simp only [imgOk, h, Bool.false_and]

/-- The image that a slot holds: one longer than the slot leaves it empty. -/
def slotImage (d : List Byte) : List Byte := if d.length ≤ 0xF00000 then d else []

/-- The flash with an image in a slot. -/
def withSlot (s : State) (b : Bool) (d : List Byte) : State :=
  { s with flash := if b then { s.flash with slotB := slotImage d } else { s.flash with slotA := slotImage d } }

theorem fwSlot_withSlot (b : Bool) : fwSlot (withSlot s b d).flash b = slotImage d := by cases b <;> rfl

theorem slotOkNow_too_long {b : Bool} (h : ¬ d.length ≤ 0xF00000) : slotOkNow (withSlot s b d) b = false := by
  rw [slotOkNow, fwSlot_withSlot, slotImage, if_neg h, imgOk_nil]

theorem actFwLoad_eq : actFwLoad s r d = if rfld s .secStatus 4 4 = critArg r then .error (s, 3)
    else if slotOkNow (withSlot s (critArg r == 1) d) (critArg r == 1) then
      .ok ({ withSlot s (critArg r == 1) d with sec := { (withSlot s (critArg r == 1) d).sec with loaded := some (critArg r == 1) } }, true)
    else .error ({ withSlot s (critArg r == 1) d with sec := { (withSlot s (critArg r == 1) d).sec with loaded := none } }, 3) := rfl

theorem actFwLoad_running (h : rfld s .secStatus 4 4 = critArg r) : actFwLoad s r d = .error (s, 3) := if_pos h

theorem actFwLoad_loads (h : rfld s .secStatus 4 4 ≠ critArg r) (hs : slotOkNow (withSlot s (critArg r == 1) d) (critArg r == 1) = true) :
    actFwLoad s r d = .ok ({ withSlot s (critArg r == 1) d with
      sec := { (withSlot s (critArg r == 1) d).sec with loaded := some (critArg r == 1) } }, true) :=
  actFwLoad_eq.trans ((if_neg h).trans (if_pos hs))

theorem actFwLoad_invalid (h : rfld s .secStatus 4 4 ≠ critArg r)
    (hs : slotOkNow (withSlot s (critArg r == 1) d) (critArg r == 1) = false ∨ ¬ d.length ≤ 0xF00000) :
    actFwLoad s r d = .error ({ withSlot s (critArg r == 1) d with
      sec := { (withSlot s (critArg r == 1) d).sec with loaded := none } }, 3) := by
  have hs' := hs.elim id slotOkNow_too_long
  exact actFwLoad_eq.trans ((if_neg h).trans (if_neg (ne_true_of_eq_false hs')))

theorem actFwActivate_none (h : s.sec.loaded = none) : actFwActivate s r d num = .error (s, 3) := by rw [actFwActivate, h]

/-- The state after FW_ACTIVATE, with its stall noted. -/
def stalling (s : State) (r : Rec) (d : List Byte) (num : Nat) (b : Bool) : State :=
  { (freeWord s).2 with fw := some { from' := payN d 0 8, to' := payN d 0 8 + 1 + (freeWord s).1.toNat % 2, cmdid := cmdId r, num := num,
                                     raise := critArg r == 1, slot := b } }

theorem actFwActivate_some {b : Bool} (h : s.sec.loaded = some b) : actFwActivate s r d num =
    if payN d 0 8 < (strokeNow s).toNat + 2 ∨ !slotOkNow s b then .error (s, 3) else .ok (stalling s r d num b, false) := by
  rw [actFwActivate, h]; rfl

theorem actFwActivate_refused {b : Bool} (h : s.sec.loaded = some b) (hr : payN d 0 8 < (strokeNow s).toNat + 2 ∨ slotOkNow s b = false) :
    actFwActivate s r d num = .error (s, 3) :=
  (actFwActivate_some h).trans (if_pos (hr.imp_right not_false_true))

theorem actFwActivate_ok {b : Bool} (h : s.sec.loaded = some b) (he : (strokeNow s).toNat + 2 ≤ payN d 0 8) (hs : slotOkNow s b = true) :
    actFwActivate s r d num = .ok (stalling s r d num b, false) :=
  (actFwActivate_some h).trans (if_neg (not_or.mpr ⟨Nat.not_lt.mpr he, not_not_true hs⟩))

/-! ### STAGE_APPLY -/

theorem actStageApply_refused (h : 4 < critArg r ∨ bankDigest s (critArg r) ≠ d.drop 8) : actStageApply s r d = .error (s, 7) := if_pos h

theorem recEnd_stageApply (hb : critArg r ≤ 4) (hd : bankDigest s (critArg r) = d.drop 8) (k n : Nat) (id : Half) :
    recEnd k n id (actStageApply s r d) =
      complete (stgReports (stgArm s (critArg r) (BitVec.ofNat 64 (payN d 0 8)) true).1) k n id
        (if (stgArm s (critArg r) (BitVec.ofNat 64 (payN d 0 8)) true).2 then 0 else 7) := by
  rw [actStageApply]
  dsimp only
  rw [if_neg (not_or.mpr ⟨Nat.not_lt.mpr hb, not_not.mpr hd⟩)]
  rcases stgArm s (critArg r) (BitVec.ofNat 64 (payN d 0 8)) true with ⟨s1, ok⟩
  cases ok <;> rfl

/-! ### Keys -/

theorem actKeyInstall_again (ha : critArg r = 0) (hk : keyed s = true) : actKeyInstall s r d = .error (s, 3) :=
  (if_pos ha).trans (if_pos hk)

/-- The state with a command key of its own, wrapped in the flash. -/
def withKey (s : State) (key : List Byte) (g : AuthRegion → AuthRegion) : State :=
  { writeAuth s g with sec := { (writeAuth s g).sec with key := key } }

theorem actKeyInstall_first (ha : critArg r = 0) (hk : keyed s = false) : actKeyInstall s r d =
    .ok (setF (withKey s (d.take 32) (fun f => { f with wrapped := some (xorBytes (d.take 32) wrapKey) })) .secStatus 6 6 1, true) :=
  (if_pos ha).trans (if_neg (ne_true_of_eq_false hk))

theorem actKeyInstall_old (ha : critArg r ≠ 0) (hs : (Config.ownerParts d).2.1 ≤ s.flash.auth.ownerFloor) :
    actKeyInstall s r d = .error (s, 3) := (if_neg ha).trans (if_pos hs)

/-- The owner blob that a payload is. -/
def blobOf (d : List Byte) : OwnerBlob :=
  let o := Config.ownerParts d
  { bytes := d, uid := o.1, seq := o.2.1, keys := o.2.2.1, ownerFw := o.2.2.2.1, noDebug3 := o.2.2.2.2.1, sig := o.2.2.2.2.2 }

theorem actKeyInstall_owner (ha : critArg r ≠ 0) (hs : s.flash.auth.ownerFloor < (Config.ownerParts d).2.1) :
    actKeyInstall s r d = .ok ({ s with flash := { s.flash with newOwner := some (blobOf d) } }, true) :=
  (if_neg ha).trans (if_neg (Nat.not_le.mpr hs))

/-! ### DEBUG_UNLOCK -/

/-- A level granted stays when a lower one is asked for. -/
def raised (s : State) (l : Nat) : State := setF s .secStatus 9 8 (max l (rfld s .secStatus 9 8))

theorem actDebugUnlock_0 (h : critArg r % 4 = 0) : actDebugUnlock s r = .ok (s, true) := by
  unfold actDebugUnlock; rw [h]; rfl
theorem actDebugUnlock_1 (h : critArg r % 4 = 1) : actDebugUnlock s r = .ok (raised s 1, true) := by
  unfold actDebugUnlock; rw [h]; rfl
theorem actDebugUnlock_2 (h : critArg r % 4 = 2) : actDebugUnlock s r =
    .ok (beginReset (setF (raised s 2) .secStatus 11 10 (critArg r / 256 % 4)) (critArg r / 256 % 4) 0, true) := by
  unfold actDebugUnlock; rw [h]; rfl
theorem actDebugUnlock_3 (h : critArg r % 4 = 3) : actDebugUnlock s r =
    if (s.sec.ownerBlob.map (·.noDebug3)).getD false then .error (s, 3)
    else .ok (setF (writeAuth s (fun f => { f with debug3 := true })) .secStatus 13 13 1, true) := by
  unfold actDebugUnlock; rw [h]; dsimp only
  cases s.sec.ownerBlob <;> rfl

/-! ### REEL_EXPORT and DEVID_ASSIGN -/

/-- The reel of a partition is off. -/
def ReelOff (s : State) (p : Nat) : Prop := reelMode s p = 0 ∧ rfld s (.reelCtl p) 1 0 = 0

/-- The bytes handed out lie in the ring. -/
def ExportInside (s : State) (p : Nat) (d : List Byte) : Prop :=
  payN d 0 8 + payN d 8 8 ≤ reelSize s p ∧ inHbmOrBoard s p (reelBase s p + payN d 0 8) (payN d 8 8) = true

theorem actReelExport_eq : actReelExport s r d =
    if reelMode s (critArg r) ≠ 0 ∨ rfld s (.reelCtl (critArg r)) 1 0 ≠ 0 then .error (s, 3)
    else if reelSize s (critArg r) < payN d 0 8 + payN d 8 8 ∨
        !inHbmOrBoard s (critArg r) (reelBase s (critArg r) + payN d 0 8) (payN d 8 8) then .error (s, 5)
    else if ueIn s (reelBase s (critArg r) + payN d 0 8) (payN d 8 8) then .error (s, 6)
    else .ok (toHost s (.write (payN d 16 8) (rd s (reelBase s (critArg r) + payN d 0 8) (payN d 8 8))), true) := rfl

theorem actReelExport_on (h : ¬ ReelOff s (critArg r)) : actReelExport s r d = .error (s, 3) :=
  if_pos (not_and_or.mp h)

section
variable (h : ReelOff s (critArg r))
include h

theorem actReelExport_off : actReelExport s r d =
    if reelSize s (critArg r) < payN d 0 8 + payN d 8 8 ∨
        !inHbmOrBoard s (critArg r) (reelBase s (critArg r) + payN d 0 8) (payN d 8 8) then .error (s, 5)
    else if ueIn s (reelBase s (critArg r) + payN d 0 8) (payN d 8 8) then .error (s, 6)
    else .ok (toHost s (.write (payN d 16 8) (rd s (reelBase s (critArg r) + payN d 0 8) (payN d 8 8))), true) :=
  actReelExport_eq.trans (if_neg fun h' => h'.elim (· h.1) (· h.2))

theorem actReelExport_outside (hi : ¬ ExportInside s (critArg r) d) : actReelExport s r d = .error (s, 5) :=
  (actReelExport_off h).trans (if_pos ((not_and_or.mp hi).imp Nat.not_le.mp (not_false_true <| Bool.eq_false_iff.mpr ·)))

variable (hi : ExportInside s (critArg r) d)
include hi

theorem actReelExport_inside : actReelExport s r d =
    if ueIn s (reelBase s (critArg r) + payN d 0 8) (payN d 8 8) then .error (s, 6)
    else .ok (toHost s (.write (payN d 16 8) (rd s (reelBase s (critArg r) + payN d 0 8) (payN d 8 8))), true) :=
  (actReelExport_off h).trans (if_neg (not_or.mpr ⟨Nat.not_lt.mpr hi.1, not_not_true hi.2⟩))

end

theorem actDevidAssign_refused (h : devidOk (BitVec.ofNat 64 (payN d 0 8)) = false ∨ ¬ ∀ c, c < 64 → (getC s c).st = .none) :
    actDevidAssign s d = .error (s, 3) := by
  refine if_pos (Bool.or_eq_true_iff.mpr (h.imp not_false_true fun h => ?_))
  push Not at h
  obtain ⟨c, hc, hne⟩ := h
  exact List.any_eq_true.mpr ⟨c, List.mem_range.mpr hc, bne_iff_ne.mpr hne⟩

theorem actDevidAssign_ok (hv : devidOk (BitVec.ofNat 64 (payN d 0 8)) = true) (h : ∀ c, c < 64 → (getC s c).st = .none) :
    actDevidAssign s d = .ok (retrainAll (setR s .lnkId (BitVec.ofNat 64 (payN d 0 8) ||| mask 63 63)), true) := by
  refine if_neg fun h' => (Bool.or_eq_true_iff.mp h').elim (not_not_true hv) fun h' => ?_
  obtain ⟨c, hc, hne⟩ := List.any_eq_true.mp h'
  exact bne_iff_ne.mp hne (h c (List.mem_range.mp hc))

/-! ### The action of a kind -/

theorem critAct_1 (h : critKind r = 1) : critAct s r d num = actFwLoad s r d := by rw [critAct, h]; rfl
theorem critAct_2 (h : critKind r = 2) : critAct s r d num = actFwActivate s r d num := by rw [critAct, h]; rfl
theorem critAct_3 (h : critKind r = 3) : critAct s r d num = actStageApply s r d := by rw [critAct, h]; rfl
theorem critAct_4 (h : critKind r = 4) : critAct s r d num = actKeyInstall s r d := by rw [critAct, h]; rfl
theorem critAct_5 (h : critKind r = 5) : critAct s r d num = actKeyRotate s r d := by rw [critAct, h]; rfl
theorem critAct_6 (h : critKind r = 6) : critAct s r d num = actDebugUnlock s r := by rw [critAct, h]; rfl
theorem critAct_7 (h : critKind r = 7) : critAct s r d num = actReelExport s r d := by rw [critAct, h]; rfl
theorem critAct_8 (h : critKind r = 8) : critAct s r d num = actDevidAssign s d := by rw [critAct, h]; rfl

end

/-- Settles O49: the steps of R446 in their order, and every kind's action. -/
theorem criticalCommands : Obligations.CriticalCommands := by
  unfold Obligations.CriticalCommands
  intro s r hu hfw ho hon hne taken n s2 row ends
  refine ⟨fun x hx hk => ?bad, fun d hd => ?payload⟩
  case bad =>
    have hrow : exec x.2 s = critRecord x.1 r .bad s := by
      simp only [row, List.mem_cons, List.not_mem_nil, or_false] at hx
      rcases hx with rfl | rfl | rfl | rfl | rfl | rfl | rfl | rfl <;> rfl
    exact hrow.trans (critRecord_bad hu hfw ho hon hne (.inl hk))
  intro form wrap s3
  refine ⟨fun x hx hk => ?steps, fun hk hw ha hl hb => ?devid, fun hform hauth hctr => ?acts⟩
  case steps =>
    have hrow : exec x.2 s = critRecord x.1 r (.ok d) s := by
      simp only [row, List.mem_cons, List.not_mem_nil, or_false] at hx
      rcases hx with rfl | rfl | rfl | rfl | rfl | rfl | rfl | rfl <;> rfl
    have h := hrow.trans (critRecord_steps hu hfw ho hon hne hk hd)
    exact ⟨fun hf => next_recEnd_error h (critSteps_form hf), fun hf ha => next_recEnd_error h (critSteps_auth hf ha),
      fun hf ha hc => next_recEnd_error h (critSteps_counter hf ha hc)⟩
  case devid =>
    have hf : critForm r (keyed s2) d = 2 := critForm_devid hk hw ha hl hb
    have h : exec (.devidAssign r (.ok d)) s = _ := critRecord_steps hu hfw ho hon hne (.inl hk) hd
    exact next_recEnd_error h ((critSteps_form (s := s2) (fun h0 => nomatch hf.symm.trans h0)).trans (congrArg (fun st => Except.error (s2, st)) hf))
  case acts =>
    have hact : ∀ kind, critKind r = kind → critRecord kind r (.ok d) s = .next (recEnd 64 n (cmdId r) (critAct s3 r d n)) :=
      fun kind hk => (critRecord_steps hu hfw ho hon hne (.inl hk) hd).trans
        (congrArg (fun e => Host.Outcome.next (recEnd 64 n (cmdId r) e)) (critSteps_act hform hauth hctr))
    refine ⟨fun hk => ?load, fun hk => ?activate, fun hk => ?stage, fun hk ha => ?key, fun hk ha => ?owner, fun hk => ?rotate,
      fun hk => ?debug, fun hk => ?reel, fun hk => ?assign⟩
    case load =>
      have h : exec (.fwLoad r (.ok d)) s = _ := hact 1 hk
      rw [critAct_1 hk] at h
      exact ⟨fun hr => next_recEnd_error h (actFwLoad_running hr), fun hr => ⟨fun hs _ => next_recEnd_done h (actFwLoad_loads hr hs),
        fun hs => next_recEnd_error h (actFwLoad_invalid hr hs)⟩⟩
    case activate =>
      have h : exec (.fwActivate r (.ok d)) s = _ := hact 2 hk
      rw [critAct_2 hk] at h
      exact ⟨fun hl => next_recEnd_error h (actFwActivate_none hl), fun b hl => ⟨fun hr => next_recEnd_error h (actFwActivate_refused hl hr),
        fun he hs => ⟨_, next_recEnd_ok h (actFwActivate_ok hl he hs), rfl⟩⟩⟩
    case stage =>
      have h : exec (.stageApply r (.ok d)) s = _ := hact 3 hk
      rw [critAct_3 hk] at h
      exact ⟨fun hb => next_recEnd_error h (actStageApply_refused hb), fun hb hd => h.trans (congrArg _ (recEnd_stageApply hb hd _ _ _))⟩
    case key =>
      have h : exec (.keyInstall r (.ok d)) s = _ := hact 4 hk
      rw [critAct_4 hk] at h
      exact ⟨fun hy => next_recEnd_error h (actKeyInstall_again ha hy), fun hy => next_recEnd_done h (actKeyInstall_first ha hy)⟩
    case owner =>
      have h : exec (.keyInstall r (.ok d)) s = _ := hact 4 hk
      rw [critAct_4 hk] at h
      exact ⟨fun hs => next_recEnd_error h (actKeyInstall_old ha hs),
        fun hs => ⟨_, blobOf d, next_recEnd_done h (actKeyInstall_owner ha hs), rfl, rfl, rfl⟩⟩
    case rotate =>
      have h : exec (.keyRotate r (.ok d)) s = _ := hact 5 hk
      rw [critAct_5 hk] at h
      exact next_recEnd_done h rfl
    case debug =>
      have h : exec (.debugUnlock r (.ok d)) s = _ := hact 6 hk
      rw [critAct_6 hk] at h
      exact ⟨fun hl => next_recEnd_done h (actDebugUnlock_0 hl), fun hl => next_recEnd_done h (actDebugUnlock_1 hl),
        fun hl => next_recEnd_done h (actDebugUnlock_2 hl),
        fun hl hn => next_recEnd_error h ((actDebugUnlock_3 hl).trans (if_pos hn)),
        fun hl hn => next_recEnd_done h ((actDebugUnlock_3 hl).trans (if_neg (ne_true_of_eq_false hn)))⟩
    case reel =>
      have h : exec (.reelExport r (.ok d)) s = _ := hact 7 hk
      rw [critAct_7 hk] at h
      exact ⟨fun hr => next_recEnd_error h (actReelExport_on hr), fun hr hi => next_recEnd_error h (actReelExport_outside hr hi),
        fun hr hi hu => next_recEnd_error h ((actReelExport_inside hr hi).trans (if_pos hu)),
        fun hr hi hu => next_recEnd_done h ((actReelExport_inside hr hi).trans (if_neg (ne_true_of_eq_false hu)))⟩
    case assign =>
      have h : exec (.devidAssign r (.ok d)) s = _ := hact 8 hk
      rw [critAct_8 hk] at h
      exact ⟨fun hr => next_recEnd_error h (actDevidAssign_refused hr), fun hv hc => next_recEnd_done h (actDevidAssign_ok hv hc)⟩

end Sys2Proof.Machine

namespace Sys2Proof.Machine

/-! ## MOVE, the host window and BAR4 (R184, R423, R424, R429) -/

/-! ### The end of a MOVE -/

/-- Where no uncorrectable word meets a range, none of them cuts a part out of it. -/
theorem ue_parts_nil {ue : List Nat} {a n : Nat} (h : ue.any (fun w => overlaps (32 * w) 32 a n) = false) :
    (ue.map (fun w => (max a (32 * w), min (a + n) (32 * w + 32) - max a (32 * w)))).filter (fun r => decide (0 < r.2)) = [] := by
  refine List.filter_eq_nil_iff.mpr fun r hr => ?_
  obtain ⟨w, hw, rfl⟩ := List.mem_map.mp hr
  have hno := List.any_eq_false.mp h w hw
  rw [decide_eq_true_eq]
  intro hpos
  refine hno ?_
  simp only [overlaps, Bool.and_eq_true, decide_eq_true_eq]
  omega

theorem moveOut_whole {s : State} {k host a n : Nat} (h : ueIn s a n = false) :
    moveOut s k host a n = toHost s (.write host (rd s a n) (ringId s k)) := by
  unfold moveOut
  rw [ue_parts_nil h]
  show toHost s (.write (host + (a - a)) (rd s a n) (ringId s k)) = _
  rw [Nat.sub_self, Nat.add_zero]

section
variable {s : State} {ring : Ring} {id : Half} {m : MoveSt}

/-- The state with a MOVE of the ring taken out. -/
def moveTaken (s : State) (k : Nat) (m : MoveSt) : State :=
  setRing s k { getRing s k with moves := (getRing s k).moves.filter (fun y => y.num != m.num) }

section
variable (ho : hostOk s = true) (hf : s.failed = false)
  (hm : (getRing s (Ring.key ring)).moves.find? (fun m => m.cmdid == id) = some m)
include ho hf hm

theorem execMoveDone_nowhere (reply : HostReply) (hp : movePart s (Ring.key ring) m.loc m.len m.toHost = none) :
    execMoveDone ring id reply s = .next (complete (moveTaken s (Ring.key ring) m) (Ring.key ring) m.num id 5) := by
  refine runPlain_of_ok ((bind_of_ok (can_ok _ _ (by rw [ho, hf]; rfl)) _).trans ((bind_the_of_some hm _ _).trans ?_))
  dsimp only
  rw [hp]
  rfl

section
variable {p : Nat} (hp : movePart s (Ring.key ring) m.loc m.len m.toHost = some p)
include hp

theorem execMoveDone_bad :
    execMoveDone ring id .bad s = .next (complete (moveTaken s (Ring.key ring) m) (Ring.key ring) m.num id 6) := by
  refine runPlain_of_ok ((bind_of_ok (can_ok _ _ (by rw [ho, hf]; rfl)) _).trans ((bind_the_of_some hm _ _).trans ?_))
  dsimp only
  rw [hp]
  rfl

theorem execMoveDone_out {data : List Byte} (ht : m.toHost = true) {s2 : State}
    (h2 : hostPages (moveTaken s (Ring.key ring) m) m.loc m.len false = .ok s2) : execMoveDone ring id (.ok data) s =
    .next (complete (moveOut s2 (Ring.key ring) m.host.toNat m.loc m.len) (Ring.key ring) m.num id
      (if ueIn s2 m.loc m.len then 6 else 0)) := by
  refine runPlain_of_ok ((bind_of_ok (can_ok _ _ (by rw [ho, hf]; rfl)) _).trans ((bind_the_of_some hm _ _).trans ?_))
  dsimp only
  rw [hp]
  dsimp only
  rw [if_pos ht]
  exact bind_of_ok h2 _

theorem execMoveDone_in {data : List Byte} (ht : m.toHost = false) {s2 : State}
    (h2 : moveIn (moveTaken s (Ring.key ring) m) (Ring.key ring % 64) p m data = .ok s2) : execMoveDone ring id (.ok data) s =
    .next (releaseBells (complete s2 (Ring.key ring) m.num id 0)) := by
  refine runPlain_of_ok ((bind_of_ok (can_ok _ _ (by rw [ho, hf]; rfl)) _).trans ((bind_the_of_some hm _ _).trans ?_))
  dsimp only
  rw [hp]
  dsimp only
  rw [if_neg (ne_true_of_eq_false ht)]
  exact bind_of_ok h2 _

end
end

theorem moveIn_closed {c p : Nat} {data : List Byte} (hl : data.length = m.len) (hc : plyClosed s p = true) :
    moveIn s c p m data = .ok s := (bind_of_ok (can_ok _ _ (decide_eq_true hl)) _).trans (if_pos hc)

theorem moveIn_lands {c p : Nat} {data : List Byte} {s2 : State} (hl : data.length = m.len) (hc : plyClosed s p = false)
    (h2 : hostPages s m.loc m.len true = .ok s2) : moveIn s c p m data = .ok (reelTransfer (wr s2 m.loc data) p c m.loc data) :=
  (bind_of_ok (can_ok _ _ (decide_eq_true hl)) _).trans ((if_neg (ne_true_of_eq_false hc)).trans (bind_of_ok h2 _))

end

/-! ### Host-window loads -/

section
variable {s : State} (ho : hostOk s = true) (hf : s.failed = false) {t : Tid}
include ho hf

theorem windowLive : (powered s && s.power.clkPcie && !s.failed) = true := by
  rw [show (powered s && s.power.clkPcie) = hostOk s from rfl, ho, hf]; rfl

theorem execHostWindowCompletion_gone (reply : HostReply) (h : getT? s t = none) : execHostWindowCompletion t reply s = .next s := by
  refine runEvent_of_ok ((bind_of_ok (can_ok _ _ (windowLive ho hf)) _).trans ?_)
  rw [h]

section
variable {th : Thread} {l : HostLoad} {rest : List HostLoad} (h : getT? s t = some th) (hl : th.hostLoads = l :: rest)
include h hl

theorem execHostWindowCompletion_loads {bs : List Byte} (hb : bs.length = l.bytes) : execHostWindowCompletion t (.ok bs) s =
    .next (settle (setT s t { setReg th l.reg (loadValue l.signed l.bytes (ofBytes bs)) with hostLoads := rest }) t.ctx) := by
  refine runEvent_of_ok ((bind_of_ok (can_ok _ _ (windowLive ho hf)) _).trans ?_)
  rw [h]
  dsimp only
  rw [hl]
  exact bind_of_ok (can_ok _ _ (decide_eq_true hb)) _

theorem execHostWindowCompletion_bad : execHostWindowCompletion t .bad s = .next (progFault s t th.pc (fAddr (gAddr s l.addr))) := by
  have hpc : pcOf s t = th.pc := by rw [pcOf, h]
  rw [← hpc]
  refine runEvent_of_fault ((bind_of_ok (can_ok _ _ (windowLive ho hf)) _).trans ?_)
  rw [h]
  dsimp only
  rw [hl]

end
end

/-! ### BAR4 -/

section
variable {s : State} {fn : Func} {off : Nat} (hfn : hostFn s fn = true) (hr : recovering s = false)

/-- An access lies in BAR4. -/
def InBar4 (s : State) (fn : Func) (off n : Nat) : Prop := 0 < n ∧ off + n ≤ bar4Bytes s fn

section
variable {len : Nat} (hi : InBar4 s fn off len)
include hfn hr hi

theorem bar4_reach : (hostFn s fn && !recovering s && decide (0 < len)) = true := by
  rw [hfn, hr, decide_eq_true hi.1]; rfl

theorem execBar4Read_eq : execBar4Read fn off len s = runPlain (
    if inD3hot s fn then .ok (toHost s .unsupported)
    else match bar4Part s fn (bar4Addr s fn off) len with
    | none => .ok (hostUr s off)
    | some _ => hostPages s (bar4Addr s fn off) len false >>= fun s1 =>
      .ok (toHost s1 (.bar4 (if ueIn s1 (bar4Addr s fn off) len then none else some (rd s1 (bar4Addr s fn off) len))))) :=
  congrArg runPlain ((bind_of_ok (can_ok _ _ (bar4_reach hfn hr hi)) _).trans (bind_of_ok (can_ok _ _ (decide_eq_true hi.2)) _))

theorem execBar4Read_d3hot (hd : inD3hot s fn = true) : execBar4Read fn off len s = .next (toHost s .unsupported) :=
  (execBar4Read_eq hfn hr hi).trans (runPlain_of_ok (if_pos hd))

section
variable (hd : inD3hot s fn = false)
include hd

theorem execBar4Read_none (hp : bar4Part s fn (bar4Addr s fn off) len = none) : execBar4Read fn off len s = .next (hostUr s off) := by
  refine (execBar4Read_eq hfn hr hi).trans (runPlain_of_ok ((if_neg (ne_true_of_eq_false hd)).trans ?_))
  rw [hp]

theorem execBar4Read_some {p : Nat} {s1 : State} (hp : bar4Part s fn (bar4Addr s fn off) len = some p)
    (h1 : hostPages s (bar4Addr s fn off) len false = .ok s1) : execBar4Read fn off len s =
    .next (toHost s1 (.bar4 (if ueIn s1 (bar4Addr s fn off) len then none else some (rd s1 (bar4Addr s fn off) len)))) := by
  refine (execBar4Read_eq hfn hr hi).trans (runPlain_of_ok ((if_neg (ne_true_of_eq_false hd)).trans ?_))
  rw [hp]
  exact bind_of_ok h1 _

end
end

section
variable {data : List Byte} (hi : InBar4 s fn off data.length)
include hfn hr hi

theorem execBar4Write_eq (poisoned : Bool) : execBar4Write fn off data poisoned s = runPlain (
    if inD3hot s fn then .ok (toHost s .unsupported)
    else if poisoned then .ok (toHost s (.aer .poisoned))
    else match bar4Part s fn (bar4Addr s fn off) data.length with
    | none => .ok (hostUr s off)
    | some p =>
      if reelRefuses s p then .ok (reelInput s p)
      else if plyClosed s p then .ok s
      else hostPages s (bar4Addr s fn off) data.length true >>= fun s1 =>
        .ok (releaseBells (reelTransfer (wr s1 (bar4Addr s fn off) data) p (16 * p) (bar4Addr s fn off) data))) :=
  congrArg runPlain ((bind_of_ok (can_ok _ _ (bar4_reach hfn hr hi)) _).trans (bind_of_ok (can_ok _ _ (decide_eq_true hi.2)) _))

theorem execBar4Write_d3hot (hd : inD3hot s fn = true) (poisoned : Bool) :
    execBar4Write fn off data poisoned s = .next (toHost s .unsupported) :=
  (execBar4Write_eq hfn hr hi _).trans (runPlain_of_ok (if_pos hd))

section
variable (hd : inD3hot s fn = false)
include hd

theorem execBar4Write_poisoned : execBar4Write fn off data true s = .next (toHost s (.aer .poisoned)) :=
  (execBar4Write_eq hfn hr hi _).trans (runPlain_of_ok ((if_neg (ne_true_of_eq_false hd)).trans (if_pos rfl)))

theorem execBar4Write_none (hp : bar4Part s fn (bar4Addr s fn off) data.length = none) :
    execBar4Write fn off data false s = .next (hostUr s off) := by
  refine (execBar4Write_eq hfn hr hi _).trans (runPlain_of_ok ((if_neg (ne_true_of_eq_false hd)).trans ((if_neg Bool.false_ne_true).trans ?_)))
  rw [hp]

section
variable {p : Nat} (hp : bar4Part s fn (bar4Addr s fn off) data.length = some p)
include hp

theorem execBar4Write_some : execBar4Write fn off data false s = runPlain (
    if reelRefuses s p then .ok (reelInput s p)
    else if plyClosed s p then .ok s
    else hostPages s (bar4Addr s fn off) data.length true >>= fun s1 =>
      .ok (releaseBells (reelTransfer (wr s1 (bar4Addr s fn off) data) p (16 * p) (bar4Addr s fn off) data))) := by
  refine (execBar4Write_eq hfn hr hi _).trans (congrArg runPlain ((if_neg (ne_true_of_eq_false hd)).trans ((if_neg Bool.false_ne_true).trans ?_)))
  rw [hp]

theorem execBar4Write_reel (h : reelRefuses s p = true) : execBar4Write fn off data false s = .next (reelInput s p) :=
  (execBar4Write_some hfn hr hi hd hp).trans (runPlain_of_ok (if_pos h))

theorem execBar4Write_closed (h : reelRefuses s p = false) (hc : plyClosed s p = true) : execBar4Write fn off data false s = .next s :=
  (execBar4Write_some hfn hr hi hd hp).trans (runPlain_of_ok ((if_neg (ne_true_of_eq_false h)).trans (if_pos hc)))

theorem execBar4Write_lands (h : reelRefuses s p = false) (hc : plyClosed s p = false) {s1 : State}
    (h1 : hostPages s (bar4Addr s fn off) data.length true = .ok s1) : execBar4Write fn off data false s =
    .next (releaseBells (reelTransfer (wr s1 (bar4Addr s fn off) data) p (16 * p) (bar4Addr s fn off) data)) :=
  (execBar4Write_some hfn hr hi hd hp).trans (runPlain_of_ok
    ((if_neg (ne_true_of_eq_false h)).trans ((if_neg (ne_true_of_eq_false hc)).trans (bind_of_ok h1 _))))

end
end
end
end

/-- Settles O50: the end of a MOVE in every case, the return of a host-window load, and every access of BAR4. -/
theorem hostTransfers : Obligations.HostTransfers := by
  unfold Obligations.HostTransfers
  refine ⟨fun s ring id reply m ho hf => ?moves, fun s => ⟨fun ho hf t => ⟨fun reply h => execHostWindowCompletion_gone ho hf reply h,
    fun th h rest hth hl => ⟨fun bs hb => execHostWindowCompletion_loads ho hf hth hl hb, execHostWindowCompletion_bad ho hf hth hl⟩⟩,
    fun fn off hfn hr => ?bar4⟩⟩
  case moves =>
    intro k x hm s1 ends
    refine ⟨fun hp => execMoveDone_nowhere ho hf hm reply hp, fun p hp => ⟨?bad, ?out, ?into⟩⟩
    case bad =>
      rintro rfl
      exact execMoveDone_bad ho hf hm hp
    case out =>
      rintro data rfl ht s2 h2
      have h := execMoveDone_out (data := data) ho hf hm hp ht h2
      refine ⟨fun hu => ?_, fun hu _ => ?_⟩
      · rw [hu] at h
        exact h
      · rw [hu, moveOut_whole hu] at h
        exact h
    case into =>
      rintro data rfl ht hl
      exact ⟨fun hc => execMoveDone_in ho hf hm hp ht (moveIn_closed hl hc),
        fun hc s2 h2 => execMoveDone_in ho hf hm hp ht (moveIn_lands hl hc h2)⟩
  case bar4 =>
    intro a inside
    refine ⟨fun len data poisoned hd => ⟨fun hi => execBar4Read_d3hot hfn hr hi hd, fun hi => execBar4Write_d3hot hfn hr hi hd _⟩,
      fun data hd hi => execBar4Write_poisoned hfn hr hi hd, fun len hd hi => ⟨fun hp => execBar4Read_none hfn hr hi hd hp, fun p s1 hp h1 => ?_⟩,
      fun data hd hi => ⟨fun hp => execBar4Write_none hfn hr hi hd hp, fun p hp => ⟨fun h => execBar4Write_reel hfn hr hi hd hp h,
        fun h hc => execBar4Write_closed hfn hr hi hd hp h hc, fun s1 h hc h1 => execBar4Write_lands hfn hr hi hd hp h hc h1⟩⟩⟩
    have h := execBar4Read_some hfn hr hi hd hp h1
    refine ⟨fun hu => ?_, fun hu => ?_⟩
    · rw [hu] at h
      exact h
    · rw [hu] at h
      exact h

end Sys2Proof.Machine

namespace Sys2Proof.Machine

/-! ## Writes of BAR0, BAR2 and configuration space (R419-R422, R464, R465) -/

/-! ### An access of BAR0 -/

section
variable {s : State} {x : Tlp} {v : Word}

theorem sizeOk_iff : sizeOk x = true ↔ (x.len = 4 ∨ x.len = 8) ∧ x.off % x.len = 0 ∧ x.enabled = true := by
  simp only [sizeOk, Bool.and_eq_true, Bool.or_eq_true, beq_iff_eq, and_assoc]

theorem sizeOk_false_iff : sizeOk x = false ↔ (x.len ≠ 4 ∧ x.len ≠ 8) ∨ x.off % x.len ≠ 0 ∨ x.enabled = false := by
  rw [← Bool.not_eq_true, sizeOk_iff, not_and_or, not_and_or, not_or, Bool.not_eq_true]

theorem badAccess_small {z : State} {off size : Nat} (h : size ≤ 8) : badAccess z off size = eventG z 0x0209 (leBytes 4 off ++ [0]) :=
  if_neg (Nat.not_lt.mpr h)
theorem badAccess_large {z : State} {off size : Nat} (h : 8 < size) :
    badAccess z off size = toHost (eventG z 0x0209 (leBytes 4 off ++ [0])) .unsupported := if_pos h

section
variable (hfn : hostFn s x.fn = true) (hs : x.space = .bar0) (ho : x.off < 0x4000000)
  (hg : x.off = 0x400110 → bit v 0 = false ∨ recovering s = false ∨ sizeOk x = false ∨ x.poisoned = true)
include hfn hs ho hg

omit hfn hs ho in
theorem notRcvGo : (!(x.off == Reg.offset .rcvCtl && bit v 0 && recovering s && sizeOk x && !x.poisoned)) = true := by
  by_cases h : x.off = 0x400110
  · rcases hg h with h | h | h | h <;> simp [h]
  · rw [beq_false_of_ne (show x.off ≠ Reg.offset .rcvCtl from h)]; rfl

theorem execRegWrite_bar0 : execRegWrite x v s =
    .next (if inD3hot s x.fn then toHost s .unsupported else if x.poisoned then toHost s (.aer .poisoned) else bar0Write s x v) := by
  unfold execRegWrite
  rw [hs]
  exact runPlain_of_ok ((bind_of_ok (can_ok _ _ (decide_eq_true ho)) _).trans
    ((bind_of_ok (can_ok _ _ (notRcvGo hg)) _).trans (bind_of_ok (can_ok _ _ hfn) _)))

end

/-! ### An access of BAR2 -/

section
variable (hfn : hostFn s x.fn = true) (hs : x.space = .bar2) (hr : recovering s = false)
  (ho : x.off < if x.fn.val = 0 then 0x40000 else 0x10000)
include hfn hs hr ho

theorem execRegWrite_bar2 : execRegWrite x v s =
    .next (if inD3hot s x.fn then toHost s .unsupported else if x.poisoned then toHost s (.aer .poisoned) else bar2Write s x v) := by
  unfold execRegWrite
  rw [hs]
  exact runPlain_of_ok ((bind_of_ok (can_ok _ _ (decide_eq_true ho)) _).trans (bind_of_ok (can_ok _ _ (by rw [hfn, hr]; rfl)) _))

end

/-- A page's write, by its offset in the page. -/
theorem bar2Write_page {page : Fin 64} (hp : x.off / 4096 = page.val) : bar2Write s x v =
    if x.off % 4096 < 0x40 then inlineRow s x.fn page (x.off % 4096 == 0 && x.len == 64 && x.enabled) (recWords v x.more)
    else if !x.enabled then s
    else if x.off % 4096 = 0x40 ∧ x.len = 4 then tailRow s x.fn (.ctx page) (v.setWidth 32)
    else if x.off % 4096 = 0x44 ∧ x.len = 4 then headRow s x.fn (.ctx page) (v.setWidth 32)
    else if x.off % 4096 = 0x40 ∧ x.len = 8 then
      headRow (tailRow s x.fn (.ctx page) (v.setWidth 32)) x.fn (.ctx page) (BitVec.ofNat 32 (fld v 63 32))
    else s := by
  have hring : Ring.ctx (Fin.ofNat 64 page.val) = .ctx page := congrArg Ring.ctx (Fin.ext (Nat.mod_eq_of_lt page.isLt))
  unfold bar2Write
  dsimp only
  rw [hp, hring]
  exact if_neg (Nat.not_le.mpr page.isLt)

section
variable {page : Fin 64} (hp : x.off / 4096 = page.val)
include hp

theorem bar2Write_record {whole : Bool} (h : x.off % 4096 < 0x40) (hw : (x.off % 4096 == 0 && x.len == 64 && x.enabled) = whole) :
    bar2Write s x v = inlineRow s x.fn page whole (recWords v x.more) := by
  rw [bar2Write_page hp, if_pos h, hw]

theorem bar2Write_tail (he : x.enabled = true) (ha : x.off % 4096 = 0x40) (hl : x.len = 4) :
    bar2Write s x v = tailRow s x.fn (.ctx page) (v.setWidth 32) := by
  rw [bar2Write_page hp, ha, hl, he]; rfl

theorem bar2Write_head (he : x.enabled = true) (ha : x.off % 4096 = 0x44) (hl : x.len = 4) :
    bar2Write s x v = headRow s x.fn (.ctx page) (v.setWidth 32) := by
  rw [bar2Write_page hp, ha, hl, he]; rfl

theorem bar2Write_both (he : x.enabled = true) (ha : x.off % 4096 = 0x40) (hl : x.len = 8) : bar2Write s x v =
    headRow (tailRow s x.fn (.ctx page) (v.setWidth 32)) x.fn (.ctx page) (BitVec.ofNat 32 (fld v 63 32)) := by
  rw [bar2Write_page hp, ha, hl, he]; rfl

theorem bar2Write_rest (ha : 0x48 ≤ x.off % 4096) : bar2Write s x v = s := by
  have hr : ¬ x.off % 4096 < 0x40 := by omega
  have ht : ∀ n, ¬ (x.off % 4096 = 0x40 ∧ x.len = n) := fun n h => absurd h.1 (by omega)
  have hh : ¬ (x.off % 4096 = 0x44 ∧ x.len = 4) := fun h => absurd h.1 (by omega)
  rw [bar2Write_page hp, if_neg hr, if_neg (ht 4), if_neg hh, if_neg (ht 8), ite_self]

end

/-! ### A field of configuration space -/

section
variable (hfn : hostFn s x.fn = true) {k : CfgField} (hs : x.space = .config k)
include hfn hs

theorem execRegWrite_config : execRegWrite x v s =
    .next (if x.poisoned then toHost s (.aer .poisoned) else if recovering s then toHost s .retry else configWrite s x.fn k v) := by
  unfold execRegWrite
  rw [hs]
  exact runPlain_of_ok (bind_of_ok (can_ok _ _ hfn) _)

end
end

section
variable {s : State} {fn : Nat}

theorem contains_filter_ne {α : Type} [BEq α] [LawfulBEq α] (l : List α) (a b : α) :
    (l.filter (· != a)).contains b = (b != a && l.contains b) := by
  rw [Bool.eq_iff_iff]
  simp only [List.contains_iff_mem, List.mem_filter, bne_iff_ne, Bool.and_eq_true]
  exact and_comm

/-- A vector's mask bit, once set, stands beside the others. -/
theorem contains_cons_filter_ne {α : Type} [BEq α] [LawfulBEq α] (l : List α) (a b : α) :
    (a :: l.filter (· != a)).contains b = (b == a || l.contains b) := by
  rw [List.contains_cons, contains_filter_ne]
  cases h : b == a
  · rw [bne, h]; rfl
  · rfl

/-- The state with a function in D3hot, or out of it. -/
def withPower (s : State) (fn : Nat) (on : Bool) : State :=
  { s with pci := { s.pci with d3hot := if on then fn :: s.pci.d3hot.filter (· != fn) else s.pci.d3hot.filter (· != fn) } }

theorem withPower_self (on : Bool) : inD3hot (withPower s fn on) fn = on := by
  cases on
  · exact (contains_filter_ne _ _ _).trans (by simp)
  · exact (contains_cons_filter_ne _ _ _).trans (by simp)

theorem withPower_other (on : Bool) {g : Nat} (h : g ≠ fn) : inD3hot (withPower s fn on) g = inD3hot s g := by
  cases on
  · exact (contains_filter_ne _ _ _).trans (by rw [bne_iff_ne.mpr h]; rfl)
  · exact (contains_cons_filter_ne _ _ _).trans (by rw [beq_false_of_ne h]; rfl)

/-- The state with a size of BAR4 of a function. -/
def withBar4 (s : State) (fn k : Nat) : State := { s with pci := { s.pci with bar4Log := tabSet s.pci.bar4Log fn k } }

theorem withBar4_self (k : Nat) : bar4Bytes (withBar4 s fn k) fn = 2 ^ (30 + k) :=
  congrArg (fun n => 2 ^ (30 + n)) (tabGet_tabSet_self 0 s.pci.bar4Log fn k)

theorem withBar4_other (k : Nat) {g : Nat} (h : g ≠ fn) : bar4Bytes (withBar4 s fn k) g = bar4Bytes s g :=
  congrArg (fun n => 2 ^ (30 + n)) (tabGet_tabSet_other 0 s.pci.bar4Log fn g k h)

theorem configWrite_power {v : Word} (hv : v = 3 ∨ v = 0) : configWrite s fn .powerState v = withPower s fn (v == 3) := by
  rcases hv with rfl | rfl <;> rfl

theorem configWrite_power_other {v : Word} (h3 : v ≠ 3) (h0 : v ≠ 0) : configWrite s fn .powerState v = s :=
  (if_neg h3).trans (if_neg h0)

theorem configWrite_bar4 {v : Word} (h1 : 1 ≤ v.toNat) (hv : v.toNat ≤ 12) : configWrite s fn .bar4Size v = withBar4 s fn v.toNat := by
  have h0 : v ≠ 0 := by rintro rfl; exact absurd h1 (by decide)
  refine (if_pos hv).trans ?_
  rw [if_neg h0]
  rfl

theorem configWrite_bar4_other {v : Word} (hv : 12 < v.toNat) : configWrite s fn .bar4Size v = s := if_neg (Nat.not_le.mpr hv)

variable {n : Fin 256} {v : Word}

theorem maskVector_none (h : vectorsOf fn ≤ n.val) : configWrite s fn (.vectorMask n) v = s := if_pos h

/-- The state with a vector masked. -/
def withMask (s : State) (e : Nat × Nat) : State := { s with pci := { s.pci with masked := e :: s.pci.masked.filter (· != e) } }

/-- The state with a vector unmasked. -/
def withoutMask (s : State) (e : Nat × Nat) : State :=
  { s with pci := { s.pci with masked := s.pci.masked.filter (· != e), pending := s.pci.pending.filter (· != e) } }

theorem maskVector_on (h : n.val < vectorsOf fn) (hv : bit v 0 = true) :
    configWrite s fn (.vectorMask n) v = withMask s (fn, n.val) := (if_neg (Nat.not_le.mpr h)).trans (if_pos hv)

theorem maskVector_off (h : n.val < vectorsOf fn) (hv : bit v 0 = false) : configWrite s fn (.vectorMask n) v =
    if s.pci.pending.contains (fn, n.val) then toHost (withoutMask s (fn, n.val)) (.msix fn n) else withoutMask s (fn, n.val) := by
  have hm : (withoutMask s (fn, n.val)).pci.masked.contains (fn, n.val) = false :=
    (contains_filter_ne _ _ _).trans (by simp)
  have hsend : sendMsix (withoutMask s (fn, n.val)) fn n = toHost (withoutMask s (fn, n.val)) (.msix fn n) := if_pos (not_false_true hm)
  refine ((if_neg (Nat.not_le.mpr h)).trans (if_neg (ne_true_of_eq_false hv))).trans ?_
  rw [← hsend]
  rfl

end

/-! ### The slot of a register -/

theorem sendMsix_halves (s : State) (fn v : Nat) : (sendMsix s fn v).halves = s.halves := by
  unfold sendMsix
  split
  · rfl
  · split <;> rfl

theorem event_halves (s : State) (code : Nat) (ctx part : Option Nat) (detail : List Byte) :
    (event s code ctx part detail).halves = s.halves := by
  unfold event
  dsimp only
  split
  · exact sendMsix_halves _ _ _
  · rfl

section
variable {s : State} {fn : Nat} {r : Reg}

/-- A register's slot after the function's held half is taken or discarded. -/
theorem barWrite_slot (hr : regAt r.offset = some r) {a : BarAcc} {z : State} {lo : Option Half}
    (h : takeHalf s fn r.offset (match a with | .high _ => true | _ => false) = (z, lo)) :
    barWrite s fn r.offset a = if responds z r && mayW z fn r then regSlotWrite z fn r a lo else z := by
  unfold barWrite
  cases a <;> (dsimp only at h ⊢; rw [h, hr])

section
variable (hr : regAt r.offset = some r) (hh : s.halves.find? (fun h => h.1 == fn) = none)
include hr hh

theorem barWrite_refused (h : responds s r = false ∨ mayW s fn r = false) (a : BarAcc) : barWrite s fn r.offset a = s :=
  (barWrite_slot hr (takeHalf_none hh _ _)).trans (if_neg (by rcases h with h | h <;> simp [h]))

theorem barWrite_answers (h1 : responds s r = true) (h2 : mayW s fn r = true) (a : BarAcc) :
    barWrite s fn r.offset a = regSlotWrite s fn r a none :=
  (barWrite_slot hr (takeHalf_none hh _ _)).trans (if_pos (by rw [h1, h2]; rfl))

end

section
variable (hd : r ≠ .admDb)
include hd

theorem regSlotWrite_wide (hw : r.wide = true) (a : BarAcc) (low : Option Half) : regSlotWrite s fn r a low =
    match a, low with
    | .whole v, _ => doWrite s r v allBits
    | .low v, _ => { s with halves := (fn, r.offset, v) :: s.halves }
    | .high v, some lo => doWrite s r (v ++ lo : BitVec 64) allBits
    | .high v, none => doWrite s r (highWord v) highBits := (if_neg hd).trans (if_pos hw)

theorem regSlotWrite_narrow (hw : r.wide = false) (a : BarAcc) (low : Option Half) : regSlotWrite s fn r a low =
    match a with
    | .whole v => doWrite s r (v &&& mask 31 0) allBits
    | .low v => doWrite s r (v.setWidth 64) allBits
    | .high _ => s := (if_neg hd).trans (if_neg (ne_true_of_eq_false hw))

end

/-- A half that the function holds of the slot is taken for its upper half. -/
theorem barWrite_joins {lo hi : Half} (hr : regAt r.offset = some r) (hd : r ≠ .admDb) (hw : r.wide = true)
    (h1 : responds s r = true) (h2 : mayW s fn r = true) (hh : s.halves = [(fn, r.offset, lo)]) :
    barWrite s fn r.offset (.high hi) = doWrite { s with halves := [] } r (hi ++ lo : BitVec 64) allBits := by
  have ht : takeHalf s fn r.offset true = ({ s with halves := [] }, some lo) := by
    rw [takeHalf, hh]
    simp
  rw [barWrite_slot hr ht]
  exact (if_pos (Bool.and_eq_true_iff.mpr ⟨h1, h2⟩)).trans (regSlotWrite_wide hd hw _ _)

/-- A half that the function holds of another slot is discarded with REG_ERR. -/
theorem barWrite_discards {r' : Reg} {lo : Half} (ho : r.offset ≠ r'.offset) (hr : regAt r.offset = some r)
    (hh : s.halves = [(fn, r'.offset, lo)]) (a : BarAcc) : barWrite s fn r.offset a =
    barWrite (eventG { s with halves := [] } 0x0209 (leBytes 4 r'.offset ++ [1])) fn r.offset a := by
  have ht : ∀ high, takeHalf s fn r.offset high = (eventG { s with halves := [] } 0x0209 (leBytes 4 r'.offset ++ [1]), none) := by
    intro high
    rw [takeHalf, hh]
    simp [Ne.symm ho, regErr, leBytes]
  have hz : (eventG { s with halves := [] } 0x0209 (leBytes 4 r'.offset ++ [1])).halves.find? (fun h => h.1 == fn) = none := by
    rw [show (eventG { s with halves := [] } 0x0209 (leBytes 4 r'.offset ++ [1])).halves = [] from event_halves _ _ _ _ _]
    rfl
  rw [barWrite_slot hr (ht _), barWrite_slot hr (takeHalf_none hz _ _)]

end

theorem regRow_rule {s : State} {fn : Func} (hfn : hostFn s fn = true) (r : Reg) (a : BarAcc) :
    (inD3hot s fn = true → regRow s fn r a = .next (toHost s .unsupported)) ∧
    (inD3hot s fn = false → regRow s fn r a = .next (barWrite s fn r.offset a)) :=
  ⟨fun hd => memRow_d3hot hfn hd _, fun hd => memRow_next hfn hd _⟩

/-- Settles O51: the writes of BAR0, BAR2 and configuration space, and what a slot's write does with a held half. -/
theorem registerWrites : Obligations.RegisterWrites := by
  unfold Obligations.RegisterWrites
  refine ⟨fun s x v hfn => ?spaces, fun s fn hfn => ⟨fun a c ring cq b n val port => ?rows, fun r hr hd hh => ?slot,
    fun r lo hi hr hd hw h1 h2 hh => barWrite_joins hr hd hw h1 h2 hh, fun r r' a lo ho hr hh => barWrite_discards ho hr hh a⟩⟩
  case rows =>
    have h := regRow_rule hfn
    exact ⟨h _ a, h _ a, h _ a, h _ a, h _ a, h _ a, h _ a, h _ a, h _ a, h _ a, h _ a, h _ a, h _ a, h _ a⟩
  case slot =>
    refine ⟨barWrite_refused hr hh, fun h1 h2 => ?_⟩
    have h := barWrite_answers hr hh h1 h2
    exact ⟨fun v hw => (h _).trans (regSlotWrite_wide hd hw _ _), fun v hw => (h _).trans (regSlotWrite_wide hd hw _ _),
      fun v hw => (h _).trans (regSlotWrite_wide hd hw _ _), fun v hw => (h _).trans (regSlotWrite_narrow hd hw _ _),
      fun v hw => (h _).trans (regSlotWrite_narrow hd hw _ _)⟩
  case spaces =>
    intro ends
    refine ⟨fun hs ho hg => ?bar0, fun hs hr ho => ?bar2, fun k hs => ?config⟩
    case bar0 =>
      intro kept
      have h := execRegWrite_bar0 (v := v) hfn hs ho hg
      refine ⟨fun hd => next_ite_pos h hd, fun hd hp => next_ite_pos (h.trans (congrArg _ (if_neg (ne_true_of_eq_false hd)))) hp, fun hd hp => ?_⟩
      have hw : exec (.regWrite x v) s = .next (bar0Write s x v) :=
        next_ite_neg (h.trans (congrArg _ (if_neg (ne_true_of_eq_false hd)))) hp
      refine ⟨fun hbad hl => hw.trans (congrArg _ ?_), fun hl => hw.trans (congrArg _ ?_), fun hl ho he => hw.trans (congrArg _ ?_)⟩
      · exact (if_pos (not_false_true (sizeOk_false_iff.mpr hbad))).trans (badAccess_small hl)
      · exact (if_pos (not_false_true (sizeOk_false_iff.mpr (.inl ⟨by omega, by omega⟩)))).trans (badAccess_large hl)
      · exact if_neg (not_not_true (sizeOk_iff.mpr ⟨hl, ho, he⟩))
    case bar2 =>
      intro at' page hp
      have h := execRegWrite_bar2 (v := v) hfn hs hr ho
      refine ⟨fun hd => next_ite_pos h hd, fun hd hx => next_ite_pos (h.trans (congrArg _ (if_neg (ne_true_of_eq_false hd)))) hx, fun hd hx => ?_⟩
      have hw : exec (.regWrite x v) s = .next (bar2Write s x v) :=
        next_ite_neg (h.trans (congrArg _ (if_neg (ne_true_of_eq_false hd)))) hx
      intro w rec' whole
      refine ⟨fun ⟨ha, hl, he⟩ => ?_, fun ha hn => ?_, fun he ha hl => ?_, fun he ha hl => ?_, fun he ha hl => ?_, fun ha => ?_⟩
      · exact (hw.trans (congrArg _ (bar2Write_record (whole := true) hp (by rw [show x.off % 4096 = 0 from ha]; decide)
          (by rw [show x.off % 4096 = 0 from ha, hl, he]; rfl)))).trans (memRow_next hfn hd _).symm
      · refine (hw.trans (congrArg _ (bar2Write_record (whole := false) hp ha ?_))).trans (memRow_next hfn hd _).symm
        refine Bool.eq_false_iff.mpr fun hb => hn ?_
        simpa only [Bool.and_eq_true, beq_iff_eq, and_assoc] using hb
      · exact (hw.trans (congrArg _ (bar2Write_tail hp he ha hl))).trans (memRow_next hfn hd _).symm
      · exact (hw.trans (congrArg _ (bar2Write_head hp he ha hl))).trans (memRow_next hfn hd _).symm
      · exact hw.trans (congrArg _ (bar2Write_both hp he ha hl))
      · exact hw.trans (congrArg _ (bar2Write_rest hp ha))
    case config =>
      have h := execRegWrite_config (v := v) hfn hs
      refine ⟨fun hp => next_ite_pos h hp, fun hp hr => next_ite_pos (h.trans (congrArg _ (if_neg (ne_true_of_eq_false hp)))) hr, fun hp hr => ?_⟩
      have hw : exec (.regWrite x v) s = .next (configWrite s x.fn k v) :=
        next_ite_neg (h.trans (congrArg _ (if_neg (ne_true_of_eq_false hp)))) hr
      intro only others
      refine ⟨?ids, ?power, ?size, ?mask⟩
      case ids =>
        rintro rfl
        exact hw
      case power =>
        rintro rfl
        exact ⟨fun hv => ⟨withPower s x.fn (v == 3), hw.trans (congrArg _ (configWrite_power hv)), rfl, withPower_self _,
          fun g hg => ⟨withPower_other _ hg, rfl⟩, rfl⟩, fun h3 h0 => hw.trans (congrArg _ (configWrite_power_other h3 h0))⟩
      case size =>
        rintro rfl
        exact ⟨fun h1 h12 => ⟨withBar4 s x.fn v.toNat, hw.trans (congrArg _ (configWrite_bar4 h1 h12)), rfl, withBar4_self _,
          fun g hg => ⟨rfl, withBar4_other _ hg⟩, rfl⟩, fun h => hw.trans (congrArg _ (configWrite_bar4_other h))⟩
      case mask =>
        rintro n rfl
        intro e
        refine ⟨fun hn => hw.trans (congrArg _ (maskVector_none hn)), fun hn => ⟨fun hv => ?_, fun hv => ?_⟩⟩
        · exact ⟨withMask s e, hw.trans (congrArg _ (maskVector_on hn hv)), rfl, rfl, fun g hg => ⟨rfl, rfl⟩,
            fun y => contains_cons_filter_ne _ _ _⟩
        · have hm := hw.trans (congrArg _ (maskVector_off hn hv))
          exact ⟨fun hc => next_ite_pos hm hc, fun hc => next_ite_neg hm hc⟩

end Sys2Proof.Machine

namespace Sys2Proof.Machine

/-! ## What the write of each kind of register does (R4, R224, R388, R427, R434, R455) -/

/-! ### RW, W1C and kept fields -/

/-- A field that keeps its bits where the value written to it is one of certain values. -/
structure KeptField where
  hi : Nat
  lo : Nat
  keep : Nat → Bool

/-- The field of a register that keeps its bits for some values. -/
def keptField : Reg → Option KeptField
  | .trdSync | .reelCtl _ | .lnkPhy _ | .qhpol _ => some ⟨1, 0, (· == 3)⟩
  | .lnkCfg => some ⟨15, 8, (· == 0)⟩
  | .glbRetire _ => some ⟨15, 0, (· == 0)⟩
  | .sqCtl _ | .cqCtl _ | .admSqCtl | .admCqCtl => some ⟨19, 16, fun v => v == 1 || v == 2 || v == 3⟩
  | _ => none

/-- A bit that a write of the value leaves to its field. -/
def KeepsBit (r : Reg) (new : Word) (i : Nat) : Prop :=
  match r with
  | .trdSync | .reelCtl _ | .lnkPhy _ | .qhpol _ => i < 2 ∧ fld new 1 0 = 3
  | .lnkCfg => 8 ≤ i ∧ i < 16 ∧ fld new 15 8 = 0
  | .glbRetire _ => i < 16 ∧ fld new 15 0 = 0
  | .sqCtl _ | .cqCtl _ | .admSqCtl | .admCqCtl => 16 ≤ i ∧ i < 20 ∧ 1 ≤ fld new 19 16 ∧ fld new 19 16 ≤ 3
  | _ => False

theorem between_one_three {v : Nat} : (v == 1 || v == 2 || v == 3) = true ↔ 1 ≤ v ∧ v ≤ 3 := by
  simp only [Bool.or_eq_true, beq_iff_eq]
  omega

theorem keepsBit_iff (r : Reg) (new : Word) (i : Nat) : KeepsBit r new i ↔
    match keptField r with
    | some f => f.lo ≤ i ∧ i ≤ f.hi ∧ f.keep (fld new f.hi f.lo) = true
    | none => False := by
  cases r <;> simp only [KeepsBit, keptField, between_one_three, Nat.zero_le, true_and, Nat.lt_succ_iff, beq_iff_eq]

theorem fieldRule_eq (r : Reg) (old new : Word) : fieldRule r old new =
    match keptField r with
    | some f => keepField old new f.hi f.lo f.keep
    | none => new := by
  cases r <;> rfl

theorem bit_keepField_in {old new : Word} {hi lo i : Nat} {keep : Nat → Bool} (hl : lo ≤ i) (hh : i ≤ hi) (hi64 : i < 64)
    (hk : keep (fld new hi lo) = true) : bit (keepField old new hi lo keep) i = bit old i := by
  have hlt : i - lo < hi + 1 - lo := by omega
  rw [keepField, if_pos hk, bit, getLsbD_setFld _ _ _ _ _ (hl.trans hh), if_pos ⟨hl, hh⟩, testBit_fld, decide_eq_true hi64,
    decide_eq_true hlt, Nat.add_sub_cancel' hl, Bool.true_and, Bool.true_and, bit]

theorem bit_keepField_out {old new : Word} {hi lo i : Nat} {keep : Nat → Bool} (hle : lo ≤ hi)
    (h : ¬ (lo ≤ i ∧ i ≤ hi ∧ keep (fld new hi lo) = true)) : bit (keepField old new hi lo keep) i = bit new i := by
  unfold keepField
  split
  · rename_i hk
    rw [bit, getLsbD_setFld _ _ _ _ _ hle, if_neg fun hb => h ⟨hb.1, hb.2, hk⟩, bit]
  · rfl

theorem keptField_le {r : Reg} {f : KeptField} (h : keptField r = some f) : f.lo ≤ f.hi := by
  unfold keptField at h
  split at h <;> cases h <;> decide

theorem bit_fieldRule_held {r : Reg} {old new : Word} {i : Nat} (hi : i < 64) (h : KeepsBit r new i) :
    bit (fieldRule r old new) i = bit old i := by
  rw [keepsBit_iff] at h
  rw [fieldRule_eq]
  cases hf : keptField r with
  | none => rw [hf] at h; exact h.elim
  | some f =>
    rw [hf] at h
    exact bit_keepField_in h.1 h.2.1 hi h.2.2

theorem bit_fieldRule_free {r : Reg} {old new : Word} {i : Nat} (h : ¬ KeepsBit r new i) : bit (fieldRule r old new) i = bit new i := by
  rw [keepsBit_iff] at h
  rw [fieldRule_eq]
  cases hf : keptField r with
  | none => rfl
  | some f =>
    rw [hf] at h
    exact bit_keepField_out (keptField_le hf) h

/-- No bit of a register is both read-write and cleared by a written 1. -/
theorem rw_or_w1c_zero (r : Reg) : r.rw = 0 ∨ r.w1c = 0 := by
  cases r <;> simp only [Reg.rw, Reg.w1c, true_or, or_true]

theorem w1c_of_rw {r : Reg} {i : Nat} (h : bit r.rw i = true) : bit r.w1c i = false := by
  rcases rw_or_w1c_zero r with h0 | h0
  · simp [h0, bit] at h
  · simp [h0, bit]

/-- The word before the fields' own rules: RW bits that are written take the value's. -/
def plainPut (r : Reg) (old v m : Word) : Word := (old &&& ~~~(r.rw &&& m)) ||| (v &&& r.rw &&& m)

theorem bit_plainPut {r : Reg} {old v m : Word} {i : Nat} (hi : i < 64) :
    bit (plainPut r old v m) i = if bit r.rw i && bit m i then bit v i else bit old i := by
  simp only [plainPut, bit, BitVec.getLsbD_or, BitVec.getLsbD_and, BitVec.getLsbD_not, hi, decide_true, Bool.true_and]
  by_cases hr : r.rw.getLsbD i <;> by_cases hm : m.getLsbD i <;> simp [hr, hm]

/-- The word that a write of the bits `m` leaves in a register. -/
def putWord (r : Reg) (old v m : Word) : Word := fieldRule r old (plainPut r old v m) &&& ~~~(v &&& r.w1c &&& m)

theorem regPut_eq (s : State) (r : Reg) (v m : Word) : regPut s r v m = setR s r (putWord r (getR s r) v m) := rfl

section
variable {r : Reg} {old v m : Word} {i : Nat} (hi : i < 64)
include hi

theorem bit_putWord : bit (putWord r old v m) i =
    (bit (fieldRule r old (plainPut r old v m)) i && !(bit v i && bit r.w1c i && bit m i)) := by
  simp only [putWord, bit, BitVec.getLsbD_and, BitVec.getLsbD_not, hi, decide_true, Bool.true_and]

theorem bit_putWord_plain (hw : bit r.w1c i = false) : bit (putWord r old v m) i = bit (fieldRule r old (plainPut r old v m)) i := by
  rw [bit_putWord hi, hw, Bool.and_false, Bool.false_and, Bool.not_false, Bool.and_true]

theorem bit_putWord_written (hr : bit r.rw i = true) (hm : bit m i = true) (hh : ¬ KeepsBit r (plainPut r old v m) i) :
    bit (putWord r old v m) i = bit v i := by
  rw [bit_putWord_plain hi (w1c_of_rw hr), bit_fieldRule_free hh, bit_plainPut hi, hr, hm]; rfl

theorem bit_putWord_held (hr : bit r.rw i = true) (hh : KeepsBit r (plainPut r old v m) i) : bit (putWord r old v m) i = bit old i := by
  rw [bit_putWord_plain hi (w1c_of_rw hr), bit_fieldRule_held hi hh]

/-- A bit that the plain write leaves is left by the fields' rules too. -/
theorem bit_fieldRule_same (h : (bit r.rw i && bit m i) = false) : bit (fieldRule r old (plainPut r old v m)) i = bit old i := by
  by_cases hh : KeepsBit r (plainPut r old v m) i
  · exact bit_fieldRule_held hi hh
  · rw [bit_fieldRule_free hh, bit_plainPut hi, h]; rfl

theorem bit_putWord_unwritten (hr : bit r.rw i = true) (hm : bit m i = false) : bit (putWord r old v m) i = bit old i := by
  rw [bit_putWord_plain hi (w1c_of_rw hr), bit_fieldRule_same hi (by rw [hm, Bool.and_false])]

theorem bit_putWord_other (hr : bit r.rw i = false) (hw : bit r.w1c i = false) : bit (putWord r old v m) i = bit old i := by
  rw [bit_putWord_plain hi hw, bit_fieldRule_same hi (by rw [hr, Bool.false_and])]

theorem bit_putWord_w1c (hw : bit r.w1c i = true) : bit (putWord r old v m) i = (bit old i && !(bit v i && bit m i)) := by
  have hr : bit r.rw i = false := Bool.eq_false_iff.mpr fun h => absurd (w1c_of_rw h) (by simp [hw])
  rw [bit_putWord hi, bit_fieldRule_same hi (by rw [hr, Bool.false_and]), hw, Bool.and_true]

end

/-! ### Registers with an effect of their own -/

theorem doWrite_staged {s : State} {r : Reg} (h : r.staged = true) (v m : Word) : doWrite s r v m = eventG s 0x0201 (leBytes 4 r.offset) :=
  if_pos h

section
variable {s : State} {v m : Word}

section
variable {c : CtxN}

theorem htabWrite_busy (h : ctxActive s c = true) : doWrite s (.htab c) v m = eventC s 0x0200 c (leBytes 4 (Reg.offset (.htab c))) :=
  if_pos h
theorem htabWrite_put (h : ctxActive s c = false) : doWrite s (.htab c) v m = regPut s (.htab c) v m := if_neg (ne_true_of_eq_false h)

theorem lkcredWrite_busy (h : ctxActive s c = true) :
    doWrite s (.lkcred c) v m = eventC s 0x0200 c (leBytes 4 (Reg.offset (.lkcred c))) := if_pos h
theorem lkcredWrite_full (h : ctxActive s c = false) (hc : 16384 < creditSum s c + fld v 11 0 + 1) :
    doWrite s (.lkcred c) v m = eventC s 0x0207 c (leBytes 4 (Reg.offset (.lkcred c))) := (if_neg (ne_true_of_eq_false h)).trans (if_pos hc)
theorem lkcredWrite_put (h : ctxActive s c = false) (hc : creditSum s c + fld v 11 0 + 1 ≤ 16384) :
    doWrite s (.lkcred c) v m = regPut s (.lkcred c) v m := (if_neg (ne_true_of_eq_false h)).trans (if_neg (Nat.not_lt.mpr hc))

theorem ringSqCtl_ctx (c : CtxN) : ringSqCtl c = .sqCtl c := if_neg (Nat.ne_of_lt c.isLt)
theorem ringSqBase_ctx (c : CtxN) : ringSqBase c = .sqBase c := if_neg (Nat.ne_of_lt c.isLt)

theorem sqCtlWrite_eq : doWrite s (.sqCtl c) v m =
    if bit (getR s (.sqCtl c)) 31 then
      if bit v 31 then s
      else if (getC s c).st ≠ .none then ctxBusy s c (.sqCtl c)
      else setF s (.sqCtl c) 31 31 0
    else if bit v 31 then
      setRing (setF (regPut s (.sqCtl c) v m) (.sqCtl c) 15 0 0) c
        { getRing (setF (regPut s (.sqCtl c) v m) (.sqCtl c) 15 0 0) c with sqTail := 0 }
    else regPut s (.sqCtl c) v m := by
  show ringCtlWrite s c false v m = _
  unfold ringCtlWrite
  dsimp only
  rw [if_neg Bool.false_ne_true, ringSqCtl_ctx]
  simp only [c.isLt, true_and, Bool.false_eq_true, if_false]

section
variable (h : bit (getR s (.sqCtl c)) 31 = true)
include h

theorem sqCtlWrite_again (hv : bit v 31 = true) : doWrite s (.sqCtl c) v m = s := sqCtlWrite_eq.trans ((if_pos h).trans (if_pos hv))
theorem sqCtlWrite_busy (hv : bit v 31 = false) (hc : (getC s c).st ≠ .none) :
    doWrite s (.sqCtl c) v m = eventC s 0x0200 c (leBytes 4 (Reg.offset (.sqCtl c))) :=
  sqCtlWrite_eq.trans ((if_pos h).trans ((if_neg (ne_true_of_eq_false hv)).trans (if_pos hc)))
theorem sqCtlWrite_off (hv : bit v 31 = false) (hc : (getC s c).st = .none) : doWrite s (.sqCtl c) v m = setF s (.sqCtl c) 31 31 0 :=
  sqCtlWrite_eq.trans ((if_pos h).trans ((if_neg (ne_true_of_eq_false hv)).trans (if_neg (not_not.mpr hc))))

end

section
variable (h : bit (getR s (.sqCtl c)) 31 = false)
include h

theorem sqCtlWrite_on (hv : bit v 31 = true) : doWrite s (.sqCtl c) v m =
    setRing (setF (regPut s (.sqCtl c) v m) (.sqCtl c) 15 0 0) c
      { getRing (setF (regPut s (.sqCtl c) v m) (.sqCtl c) 15 0 0) c with sqTail := 0 } :=
  sqCtlWrite_eq.trans ((if_neg (ne_true_of_eq_false h)).trans (if_pos hv))
theorem sqCtlWrite_put (hv : bit v 31 = false) : doWrite s (.sqCtl c) v m = regPut s (.sqCtl c) v m :=
  sqCtlWrite_eq.trans ((if_neg (ne_true_of_eq_false h)).trans (if_neg (ne_true_of_eq_false hv)))

end

theorem sqBaseWrite_eq : doWrite s (.sqBase c) v m = if bit (getR s (.sqCtl c)) 31 then s else regPut s (.sqBase c) v m := by
  show ringBaseWrite s c false v m = _
  simp only [ringBaseWrite, Bool.false_eq_true, if_false, sqOn, ringSqCtl_ctx, ringSqBase_ctx]

end

/-! GLB_RETIRE_REQ (R455) -/

section
variable (hm : bit m 0 = true)
include hm

theorem retireReq_eq : doWrite s .glbRetireReq v m = retireWrite s v := if_pos hm

theorem retireReq_absent (h : unitCount (fld v 18 16) ≤ fld v 15 0) :
    doWrite s .glbRetireReq v m = eventG s 0x0205 (leBytes 4 (Reg.offset .glbRetireReq)) := (retireReq_eq hm).trans (if_pos h)

section
variable (h : fld v 15 0 < unitCount (fld v 18 16))
include h

theorem retireReq_retires (hv : bit v 63 = false) : doWrite s .glbRetireReq v m = retireUnit s (fld v 18 16) (fld v 15 0) 2 :=
  (retireReq_eq hm).trans ((if_neg (Nat.not_le.mpr h)).trans (if_neg (ne_true_of_eq_false hv)))

theorem retireReq_notes (hv : bit v 63 = true) (hu : s.unretire.contains ⟨Fin.ofNat 7 (fld v 18 16), fld v 15 0⟩ = false) :
    doWrite s .glbRetireReq v m = { s with unretire := s.unretire ++ [⟨Fin.ofNat 7 (fld v 18 16), fld v 15 0⟩] } :=
  (retireReq_eq hm).trans ((if_neg (Nat.not_le.mpr h)).trans ((if_pos hv).trans (if_neg (ne_true_of_eq_false hu))))

end
end

/-! EVT_RING_CTL and LNK_PHY (R434, R370) -/

section
variable (h : bit (getR s .evtCtl) 31 = true)
include h

theorem evtCtlWrite_again (hv : bit v 31 = true) : doWrite s .evtCtl v m = s := (if_pos h).trans (if_pos hv)
theorem evtCtlWrite_off (hv : bit v 31 = false) : doWrite s .evtCtl v m = setF s .evtCtl 31 31 0 :=
  (if_pos h).trans (if_neg (ne_true_of_eq_false hv))
theorem evtBaseWrite_on : doWrite s .evtBase v m = s := if_pos h

end

theorem evtCtlWrite_on (h : bit (getR s .evtCtl) 31 = false) (hv : bit v 31 = true) : doWrite s .evtCtl v m =
    { setR (setR (regPut s .evtCtl v m) .evtHead 0) .evtTail 0 with evtPhase := true } :=
  (if_neg (ne_true_of_eq_false h)).trans (if_pos hv)

theorem lnkPhyWrite_down {n : PortN} (hr : retired (regPut s (.lnkPhy n) v m) 3 n = false)
    (h : bit (getR (regPut s (.lnkPhy n) v m) (.lnkPhy n)) 3 = true) :
    doWrite s (.lnkPhy n) v m = setPort (regPut s (.lnkPhy n) v m) n 0 := (if_neg (ne_true_of_eq_false hr)).trans (if_pos h)

end

/-- Settles O52: the RW, W1C and kept bits of a plain write, and the effect of the registers that have one. -/
theorem writeEffects : Obligations.WriteEffects := by
  unfold Obligations.WriteEffects
  intro s v m
  refine ⟨fun r h => doWrite_staged h v m, fun r h hp => ?plain, fun r => ?bits, fun c => ?ctx, fun hm => ?retire, fun b hb => ?banks,
    fun h => ?evtOn, fun h hv => evtCtlWrite_on h hv, fun n => ?phy⟩
  case plain =>
    refine (if_neg (ne_true_of_eq_false h)).trans ?_
    split
    case h_23 => rfl
    all_goals exact hp.elim
  case bits =>
    intro old new held
    have hheld : ∀ i, held i ↔ KeepsBit r (plainPut r old v m) i := fun i => Iff.rfl
    refine ⟨putWord r old v m, rfl, fun i hi => ⟨fun hr hb hh => bit_putWord_written hi hr hb (mt (hheld i).mpr hh),
      fun hr hh => bit_putWord_held hi hr ((hheld i).mp hh), bit_putWord_unwritten hi, bit_putWord_other hi, bit_putWord_w1c hi⟩⟩
  case ctx =>
    exact ⟨fun h => ⟨htabWrite_busy h, lkcredWrite_busy h⟩, fun h => ⟨htabWrite_put h, lkcredWrite_full h, lkcredWrite_put h⟩,
      fun h => ⟨sqCtlWrite_again h, sqCtlWrite_busy h, sqCtlWrite_off h, sqBaseWrite_eq.trans (if_pos h)⟩,
      fun h => ⟨sqBaseWrite_eq.trans (if_neg (ne_true_of_eq_false h)), sqCtlWrite_on h, sqCtlWrite_put h⟩⟩
  case retire => exact ⟨retireReq_absent hm, retireReq_retires hm, retireReq_notes hm⟩
  case banks =>
    exact ⟨fun n hn => ⟨rfl, rfl⟩, fun hv => ⟨if_pos hv, if_pos hv, if_pos hv⟩, rfl⟩
  case evtOn => exact ⟨evtCtlWrite_again h, evtCtlWrite_off h, evtBaseWrite_on h⟩
  case phy => exact fun hr h => lnkPhyWrite_down hr h

end Sys2Proof.Machine

namespace Sys2Proof.Machine

/-! ## Reads of BAR0, BAR2 and configuration space (R460, R464, R465) -/

section
variable {s : State} {x : Tlp} (hfn : hostFn s x.fn = true)
include hfn

theorem readRow_bar0 (hs : x.space = .bar0) (ho : x.off < 0x4000000) :
    readRow s x = .next (if inD3hot s x.fn then toHost s .unsupported else barRead s x) := by
  unfold readRow
  rw [hs]
  exact runPlain_of_ok ((bind_of_ok (can_ok _ _ (decide_eq_true ho)) _).trans (bind_of_ok (can_ok _ _ hfn) _))

theorem readRow_bar2 (hs : x.space = .bar2) (hr : recovering s = false) (ho : x.off < if x.fn.val = 0 then 0x40000 else 0x10000) :
    readRow s x = .next (if inD3hot s x.fn then toHost s .unsupported else { s with rdata := 0 }) := by
  unfold readRow
  rw [hs]
  exact runPlain_of_ok ((bind_of_ok (can_ok _ _ (decide_eq_true ho)) _).trans (bind_of_ok (can_ok _ _ (by rw [hfn, hr]; rfl)) _))

theorem readRow_config {k : CfgField} (hs : x.space = .config k) :
    readRow s x = .next (if recovering s then toHost s .retry else { s with rdata := configValue s x.fn k }) := by
  unfold readRow
  rw [hs]
  exact runPlain_of_ok (bind_of_ok (can_ok _ _ hfn) _)

/-- A read of a slot of BAR0. -/
theorem readRow_slot (hs : x.space = .bar0) (ho : x.off < 0x4000000) (hd : inD3hot s x.fn = false) :
    readRow s x = .next (barRead s x) := next_ite_neg (readRow_bar0 hfn hs ho) hd

end

section
variable {s : State} {x : Tlp}

theorem barRead_bad (h : sizeOk x = false) : barRead s x = { badAccess s x.off x.len with rdata := 0 } := if_pos (not_false_true h)

section
variable (h : sizeOk x = true)
include h

theorem barRead_absent (hr : regAt (x.off / 8 * 8) = none) : barRead s x = { s with rdata := 0 } := by
  rw [barRead, if_neg (not_not_true h), hr]

variable {r : Reg} (hr : regAt (x.off / 8 * 8) = some r)
include hr

theorem barRead_refused (hn : responds s r = false ∨ mayR s x.fn r = false) : barRead s x = { s with rdata := 0 } := by
  rw [barRead, if_neg (not_not_true h), hr]
  exact if_neg (by rcases hn with hn | hn <;> simp [hn])

theorem barRead_answers (h1 : responds s r = true) (h2 : mayR s x.fn r = true) : barRead s x =
    { (regSlotRead s x.fn r x.len (x.off % 8 == 4)).1 with rdata := (regSlotRead s x.fn r x.len (x.off % 8 == 4)).2 } := by
  rw [barRead, if_neg (not_not_true h), hr]
  exact if_pos (by rw [h1, h2]; rfl)

end
end

section
variable {s : State} {fn : Nat} {r : Reg}

theorem regSlotRead_whole (high : Bool) : regSlotRead s fn r 8 high = (clearRead s r, regValue s r) := rfl

section
variable (hw : r.wide = false)
include hw

theorem regSlotRead_narrow : regSlotRead s fn r 4 false = (clearRead s r, regValue s r) := if_pos (not_false_true hw)
theorem regSlotRead_narrow_high : regSlotRead s fn r 4 true = (s, 0) := if_pos (not_false_true hw)

end

/-- The latches of the others. -/
def latchRest (s : State) (fn : Nat) (r : Reg) : List (Nat × Nat × Half) := s.latches.filter (fun l => !(l.1 == fn && l.2.1 == r.offset))

section
variable (hw : r.wide = true)
include hw

theorem regSlotRead_low : regSlotRead s fn r 4 false =
    (clearRead { s with latches := (fn, r.offset, BitVec.ofNat 32 (fld (regValue s r) 63 32)) :: latchRest s fn r } r,
      regValue s r &&& 0xFFFFFFFF) := if_neg (not_not_true hw)

theorem regSlotRead_high_none (hl : s.latches.find? (fun l => l.1 == fn && l.2.1 == r.offset) = none) :
    regSlotRead s fn r 4 true = (s, regValue s r >>> 32) := by
  refine (if_neg (not_not_true hw)).trans ((if_pos rfl).trans ?_)
  rw [hl]

theorem regSlotRead_high_some {l : Nat × Nat × Half} (hl : s.latches.find? (fun l => l.1 == fn && l.2.1 == r.offset) = some l) :
    regSlotRead s fn r 4 true = ({ s with latches := latchRest s fn r }, l.2.2.setWidth 64) := by
  refine (if_neg (not_not_true hw)).trans ((if_pos rfl).trans ?_)
  rw [hl]
  rfl

end
end

/-! ### A counter and its limit -/

theorem fld_47_0_lt (w : Word) : fld w 47 0 < 2 ^ 48 := Nat.mod_lt _ (by decide)

section
variable {w : Word} {k : Nat}

theorem countUp_same (h : k = 0 ∨ fld w 47 0 = 0xFFFFFFFFFFFF) : countUp w k = (w, false) := if_pos h

theorem countUp_full (h : ¬ (k = 0 ∨ fld w 47 0 = 0xFFFFFFFFFFFF)) (hf : 0xFFFFFFFFFFFF ≤ fld w 47 0 + k) :
    countUp w k = (setFld (setFld w 47 0 0xFFFFFFFFFFFF) 63 63 1, true) := (if_neg h).trans (if_pos hf)

theorem countUp_adds (h : ¬ (k = 0 ∨ fld w 47 0 = 0xFFFFFFFFFFFF)) (hf : ¬ 0xFFFFFFFFFFFF ≤ fld w 47 0 + k) :
    countUp w k = (setFld w 47 0 (fld w 47 0 + k), false) := (if_neg h).trans (if_neg hf)

theorem bit_63_setFld_low (w : Word) (v : Nat) : bit (setFld w 47 0 v) 63 = bit w 63 :=
  (getLsbD_setFld w 47 0 v 63 (by decide)).trans (if_neg (by decide))

theorem bit_63_setFld_top (w : Word) : bit (setFld w 63 63 1) 63 = true :=
  (getLsbD_setFld w 63 63 1 63 (by decide)).trans (if_pos (by decide))

/-- A counter stops at its limit, with OVF set as it reaches it. -/
theorem countUp_rule (w : Word) (k : Nat) : fld (countUp w k).1 47 0 = min 0xFFFFFFFFFFFF (fld w 47 0 + k) ∧
    (countUp w k).2 = decide (fld w 47 0 < 0xFFFFFFFFFFFF ∧ 0xFFFFFFFFFFFF ≤ fld w 47 0 + k) ∧
    bit (countUp w k).1 63 = (bit w 63 || decide (fld w 47 0 < 0xFFFFFFFFFFFF ∧ 0xFFFFFFFFFFFF ≤ fld w 47 0 + k)) := by
  have hlt := fld_47_0_lt w
  by_cases h : k = 0 ∨ fld w 47 0 = 0xFFFFFFFFFFFF
  · have hno : ¬ (fld w 47 0 < 0xFFFFFFFFFFFF ∧ 0xFFFFFFFFFFFF ≤ fld w 47 0 + k) := by omega
    rw [countUp_same h, decide_eq_false hno, Bool.or_false]
    exact ⟨by dsimp only; omega, rfl, rfl⟩
  by_cases hf : 0xFFFFFFFFFFFF ≤ fld w 47 0 + k
  · have hyes : fld w 47 0 < 0xFFFFFFFFFFFF ∧ 0xFFFFFFFFFFFF ≤ fld w 47 0 + k := by omega
    rw [countUp_full h hf, decide_eq_true hyes, Bool.or_true, fld_setFld_apart _ _ _ _ _ _ (by decide) (by decide),
      fld_setFld _ _ _ _ (by decide) (by decide), bit_63_setFld_top]
    exact ⟨by omega, rfl, rfl⟩
  · have hno : ¬ (fld w 47 0 < 0xFFFFFFFFFFFF ∧ 0xFFFFFFFFFFFF ≤ fld w 47 0 + k) := fun h' => hf h'.2
    rw [countUp_adds h hf, decide_eq_false hno, Bool.or_false, fld_setFld _ _ _ _ (by decide) (by decide), bit_63_setFld_low]
    exact ⟨by omega, rfl, rfl⟩

end

/-- Settles O53: the reads of BAR0, BAR2 and configuration space, and a counter's limit. -/
theorem registerReads : Obligations.RegisterReads := by
  unfold Obligations.RegisterReads
  refine ⟨fun s x hfn => ?spaces, fun s fn off hfn hd ho => ?slots, countUp_rule⟩
  case spaces =>
    intro ends
    refine ⟨fun hs ho hd => ⟨next_ite_pos (readRow_bar0 hfn hs ho) hd, next_ite_pos (readRow_bar0 (x := { x with len := 4 }) hfn hs ho) hd⟩,
      fun hs hr ho => ⟨next_ite_pos (readRow_bar2 hfn hs hr ho), next_ite_neg (readRow_bar2 hfn hs hr ho)⟩, fun k hs => ?_⟩
    have h := readRow_config hfn hs
    refine ⟨next_ite_pos h, fun hr => ?_⟩
    have hw := next_ite_neg h hr
    refine ⟨?_, ?_, ?_, ?_⟩
    · rintro rfl; exact hw
    · rintro rfl; exact hw
    · rintro rfl l hl
      have he : 30 + tabGet 0 s.pci.bar4Log x.fn = 30 + l := Nat.pow_right_injective (Nat.le_refl 2) hl
      rw [show l = tabGet 0 s.pci.bar4Log x.fn by omega]
      exact hw
    · rintro n rfl; exact hw
  case slots =>
    intro ends ends4
    have hread : ∀ (len : Nat) (en : Bool), readRow s { fn := fn, off := off, len := len, enabled := en } =
        .next (barRead s { fn := fn, off := off, len := len, enabled := en }) := fun len en => readRow_slot hfn rfl ho hd
    refine ⟨fun len en hbad => ?bad, fun len hl hm => ?none, fun r hr h1 h2 => ?reg⟩
    case bad =>
      exact (hread len en).trans (congrArg _ (barRead_bad (sizeOk_false_iff.mpr hbad)))
    case none =>
      have hok : sizeOk { fn := fn, off := off, len := len } = true := sizeOk_iff.mpr ⟨hl, hm, rfl⟩
      exact ⟨fun hr => (hread len true).trans (congrArg _ (barRead_absent hok hr)),
        fun r hr hn => (hread len true).trans (congrArg _ (barRead_refused hok hr hn))⟩
    case reg =>
      intro cleared mine
      have hat : ∀ len, (len = 4 ∨ len = 8) → off % len = 0 → ∀ {high : Bool} {t : State} {v : Word}, (off % 8 == 4) = high →
          regSlotRead s fn r len high = (t, v) → ends len { t with rdata := v } := by
        rintro len hl hm high t v rfl ht
        refine (hread len true).trans (congrArg _ ((barRead_answers (sizeOk_iff.mpr ⟨hl, hm, rfl⟩) hr h1 h2).trans ?_))
        exact congrArg (fun z : State × Word => { z.1 with rdata := z.2 }) ht
      have hat4 : ∀ {high : Bool} {t : State} {v : Word}, off % 4 = 0 → (off % 8 == 4) = high →
          regSlotRead s fn r 4 high = (t, v) → ends4 { t with rdata := v } := fun hm hh ht =>
        ⟨hat 4 (.inl rfl) hm hh ht, hat 4 (.inl rfl) hm hh ht⟩
      refine ⟨fun h0 => ?_, fun h4 => ?_⟩
      · have hm : off % 4 = 0 := by omega
        have hh : (off % 8 == 4) = false := by rw [h0]; rfl
        exact ⟨hat 8 (.inr rfl) h0 hh (regSlotRead_whole _), fun hw => hat4 hm hh (regSlotRead_narrow hw), fun hw => hat4 hm hh (regSlotRead_low hw)⟩
      · have hm : off % 4 = 0 := by omega
        have hh : (off % 8 == 4) = true := by rw [h4]; rfl
        exact ⟨fun hw => hat4 hm hh (regSlotRead_narrow_high hw), fun hw hl => hat4 hm hh (regSlotRead_high_none hw hl),
          fun l hw hl => hat4 hm hh (regSlotRead_high_some hw hl)⟩

end Sys2Proof.Machine

namespace Sys2Proof.Machine

/-! ## The status bit that falls with PWROK (R479, R486)

`POWER_DOWN` clears bit 0 of the management status as PWROK falls, where the statement has it change PWROK alone. A cold reset sets that
bit. -/

namespace ResetCex

/-- A powered device with bit 0 of its management status set, as a cold reset leaves it. -/
def state : State := { State.reset with power := { status := 1 } }

/-- The management status of the state to which a command goes on. -/
def statusOf (r : Res) : BitVec 16 := match r with
  | .next s => s.power.status
  | _ => 0

theorem powerDown_clears : statusOf (exec .powerDown state) = 0 := by decide +kernel

end ResetCex

/-- Refutes O55: in `ResetCex.state` a power down clears bit 0 of the status. -/
theorem not_resets : ¬ Obligations.Resets := by
  unfold Obligations.Resets
  rintro ⟨-, -, -, -, -, -, -, hdown, -⟩
  have h := congrArg ResetCex.statusOf (hdown ResetCex.state rfl)
  rw [ResetCex.powerDown_clears] at h
  exact absurd h (by decide)

end Sys2Proof.Machine

namespace Sys2Proof.Machine

/-! ## The security block's events (R320, R442, R445) -/

section
variable {s : State}

theorem execStgCheckDone_ok {b : Fin 5} (hp : powered s = true) (hf : s.failed = false) (hc : s.checking.contains b.val = true) :
    execStgCheckDone b s = .next (stgReports (stgFinish s b)) :=
  runPlain_of_ok (bind_of_ok (can_ok _ _ (by rw [hp, hf, hc]; rfl)) _)

theorem stgFinish_checked {b : Nat} (h : stgTest (disarm s b) b = none) :
    stgFinish s b = setR (disarm s b) (.stgStatus b) (BitVec.ofNat 64 2) := by
  unfold stgFinish
  dsimp only
  rw [h]
  rfl

theorem stgFinish_refused {b e n : Nat} (h : stgTest (disarm s b) b = some (e, n)) :
    stgFinish s b = setR (disarm s b) (.stgStatus b) (BitVec.ofNat 64 (5 + n * 256 + e * 65536)) := by
  unfold stgFinish
  dsimp only
  rw [h]
  rfl

/-! ### The end of a report -/

/-- The state in which BUSY has fallen. -/
def reported (s : State) : State := setF { s with sec := { s.sec with att := none } } .attCtl 2 2 0

section
variable {nonce : List Byte} {addr : Nat} {chain : Bool} (ho : hostOk s = true) (hf : s.failed = false) (hw : fwStalls s = false)
  (ha : s.sec.att = some (nonce, addr, chain))
include ho hf hw ha

theorem execAttReportDone_written : execAttReportDone true s = .next (
    if chain then setF (toHost (toHost (reported s) (.write addr (report s nonce))) (.write (addr + 5184) (certChain s))) .attCtl 63 32
      (certChain s).length
    else toHost (reported s) (.write addr (report s nonce))) :=
  runPlain_of_ok ((bind_of_ok (can_ok _ _ (by rw [ho, hf, hw]; rfl)) _).trans ((bind_the_of_some ha _ _).trans (if_pos rfl)))

theorem execAttReportDone_lost : execAttReportDone false s = .next (setF (reported s) .attCtl 11 8 2) :=
  runPlain_of_ok ((bind_of_ok (can_ok _ _ (by rw [ho, hf, hw]; rfl)) _).trans
    ((bind_the_of_some ha _ _).trans (if_neg Bool.false_ne_true)))

end

/-! ### GO in recovery -/

/-- A write of `SEC_RCV_CTL` sets GO. -/
def setsGo : BarAcc → Bool
  | .whole v => bit v 0
  | .low v => bit v 0
  | .high _ => false

section
variable {fn : Func} {a : BarAcc} {image : HostReply} (hfn : hostFn s fn = true)
  (hl : ∀ b, image = .ok b → b.length = (getR s .rcvLen).toNat)
include hfn hl

theorem execRcvGo_eq : execRcvGo fn a image s = runPlain (
    if inD3hot s fn then .ok (toHost s .unsupported)
    else if setsGo a && fn.val == 0 && recovering s then
      .ok (rcvImage (toHost (barWrite s fn (Reg.offset .rcvCtl) a) (.read (getR s .rcvAddr).toNat (getR s .rcvLen).toNat)) image)
    else .ok (barWrite s fn (Reg.offset .rcvCtl) a)) := by
  refine congrArg runPlain ((bind_of_ok (can_ok _ _ hfn) _).trans ((bind_of_ok (can_ok _ _ ?_) _).trans ?_))
  · cases image with
    | bad => rfl
    | ok b => exact decide_eq_true (hl b rfl)
  · cases a <;> rfl

theorem execRcvGo_d3hot (hd : inD3hot s fn = true) : execRcvGo fn a image s = .next (toHost s .unsupported) :=
  (execRcvGo_eq hfn hl).trans (runPlain_of_ok (if_pos hd))

theorem execRcvGo_write (hd : inD3hot s fn = false) (h : recovering s = false ∨ fn.val ≠ 0) :
    execRcvGo fn a image s = .next (barWrite s fn (Reg.offset .rcvCtl) a) := by
  refine (execRcvGo_eq hfn hl).trans (runPlain_of_ok ((if_neg (ne_true_of_eq_false hd)).trans (if_neg ?_)))
  rcases h with h | h <;> simp [h]

theorem execRcvGo_fetches (hd : inD3hot s fn = false) (hr : recovering s = true) (h0 : fn.val = 0) (hg : setsGo a = true) :
    execRcvGo fn a image s = .next
      (rcvImage (toHost (barWrite s fn (Reg.offset .rcvCtl) a) (.read (getR s .rcvAddr).toNat (getR s .rcvLen).toNat)) image) :=
  (execRcvGo_eq hfn hl).trans (runPlain_of_ok ((if_neg (ne_true_of_eq_false hd)).trans
    (if_pos (by rw [hg, h0, hr]; rfl))))

end

/-- An image that the ROM can start. -/
def ImageGood (s : State) (b : List Byte) : Prop :=
  b.length ≤ 0xF00000 ∧ imgOk s.flash.rootKey s.sec.ownerBlob s.flash.auth.svnFloor b = true

theorem rcvImage_good {b : List Byte} (h : ImageGood s b) :
    rcvImage s (.ok b) = bootRom (setF { s with flash := { s.flash with slotA := b } } .rcvCtl 1 1 0) :=
  if_pos (Bool.and_eq_true_iff.mpr ⟨decide_eq_true h.1, h.2⟩)

theorem rcvImage_invalid {b : List Byte} (h : ¬ ImageGood s b) : rcvImage s (.ok b) = setF s .rcvCtl 1 1 1 :=
  if_neg fun h' => h ⟨of_decide_eq_true (Bool.and_eq_true_iff.mp h').1, (Bool.and_eq_true_iff.mp h').2⟩

end

/-- Settles O54: the end of a stage check and of a report, and GO in recovery. -/
theorem securityEvents : Obligations.SecurityEvents := by
  unfold Obligations.SecurityEvents
  refine ⟨fun s b hp hf hc => ?check, fun s nonce addr chain ho hf hw ha => ?report, fun s fn a image hfn hl => ?go⟩
  case check =>
    have h := execStgCheckDone_ok hp hf hc
    exact ⟨fun ht => h.trans (congrArg (fun z => Host.Outcome.next (stgReports z)) (stgFinish_checked ht)),
      fun e n ht => h.trans (congrArg (fun z => Host.Outcome.next (stgReports z)) (stgFinish_refused ht))⟩
  case report =>
    have h := execAttReportDone_written ho hf hw ha
    exact ⟨next_ite_neg h, next_ite_pos h, execAttReportDone_lost ho hf hw ha⟩
  case go =>
    intro s1 go s2
    refine ⟨execRcvGo_d3hot hfn hl, execRcvGo_write hfn hl, fun hd hr h0 hg => ?_⟩
    have hgo : setsGo a = true := by rcases hg with rfl | rfl <;> rfl
    have h := execRcvGo_fetches hfn hl hd hr h0 hgo
    refine ⟨?_, ?_⟩
    · rintro rfl
      exact h
    · rintro b rfl
      exact ⟨fun hb => h.trans (congrArg _ (rcvImage_good hb)), fun hb => h.trans (congrArg _ (rcvImage_invalid hb))⟩

end Sys2Proof.Machine

namespace Sys2Proof.Machine

/-! ## Pins, clocks, rails, the management bus and HBM temperatures (R186, R476-R486) -/

/-! ### Bits of the status -/

section
variable {s : State} {b : Nat}

theorem bit_setFld_one {w : BitVec 16} (hb : b < 16) : bit (setFld w b b 1) b = true := by
  rw [bit, getLsbD_setFld w b b 1 b (Nat.le_refl b), if_pos ⟨Nat.le_refl b, Nat.le_refl b⟩, decide_eq_true hb, Nat.sub_self]
  rfl

theorem statusRise_set (h : bit s.power.status b = true) : statusRise s b = s := if_pos h

theorem statusRise_clear (h : bit s.power.status b = false) : statusRise s b =
    { s with power := { s.power with status := setFld s.power.status b b 1, alertN := s.power.alertN && !bit s.power.alertMask b } } :=
  if_neg (ne_true_of_eq_false h)

theorem bit_statusRise (hb : b < 16) : bit (statusRise s b).power.status b = true := by
  cases h : bit s.power.status b with
  | true => rw [statusRise_set h, h]
  | false => rw [statusRise_clear h]; exact bit_setFld_one hb

theorem statusRise_regs : (statusRise s b).regs = s.regs := by unfold statusRise; dsimp only; split <;> rfl
theorem statusRise_mem : (statusRise s b).mem = s.mem := by unfold statusRise; dsimp only; split <;> rfl

/-! ### Pins, rails, clocks and regulators -/

section
variable (hp : s.power.pwrok = true)
include hp

theorem execProchotAssert_ok (h : s.power.prochotN = true) :
    execProchotAssert s = .next (statusRise { s with power := { s.power with prochotN := false } } 6) :=
  runPlain_of_ok (bind_of_ok (can_ok _ _ (by rw [hp, h]; rfl)) _)

theorem execProchotRelease_ok (h : s.power.prochotN = false) :
    execProchotRelease s = .next (statusFall { s with power := { s.power with prochotN := true } } 6) :=
  runPlain_of_ok (bind_of_ok (can_ok _ _ (by rw [hp, h]; rfl)) _)

theorem execThermtrip_ok (h : s.power.thermtripN = true) : execThermtrip s = .next (trip s) :=
  runPlain_of_ok (bind_of_ok (can_ok _ _ (by rw [hp, h]; rfl)) _)

theorem execRailFault_ok (r : Rail) : execRailFault r s = .next (statusRise (deviceFail s) 3) :=
  runPlain_of_ok (bind_of_ok (can_ok _ _ hp) _)

/-- The state in which a clock is absent and the ports that it serves are down. -/
def clockLost (s : State) (k : RefClk) : State :=
  (clockPorts k).foldl (fun s n => if portState s n = 6 then s else setPort s n 0) (setClock s k false)

theorem execRefclkLoss_eq {k : RefClk} (h : clockOn s.power k = true) :
    execRefclkLoss k s = .next (if k = .core then deviceFail (clockLost s k) else clockLost s k) :=
  runPlain_of_ok (bind_of_ok (can_ok _ _ (by rw [hp, h]; rfl)) _)

theorem execRefclkReturn_ok {k : RefClk} (h : clockOn s.power k = false) : execRefclkReturn k s =
    .next ((clockPorts k).foldl (fun s n => if mayTrain s n then trainPort s n else s) (linkBack (setClock s k true))) :=
  runPlain_of_ok (bind_of_ok (can_ok _ _ (by rw [hp, h]; rfl)) _)

theorem execAvsTimeout_ok {q : Fin 4} (h : s.power.avs.contains q.val = true) :
    execAvsTimeout q s = .next (statusRise { s with power := { s.power with avsHeld := true } } 3) :=
  runPlain_of_ok (bind_of_ok (can_ok _ _ (by rw [hp, h]; rfl)) _)

theorem execAvsRequestComplete_ok {q : Fin 4} (h : s.power.avs.contains q.val = true) : execAvsRequestComplete q s =
    .next { s with power := { s.power with
      avs := s.power.avs.filter (· != q.val), avsHeld := s.power.avsHeld && !(s.power.avs.filter (· != q.val)).isEmpty
      vdd := s.power.vdd.setIfInBounds q (Config.vddFor s.power.asked) } } :=
  runPlain_of_ok (bind_of_ok (can_ok _ _ (by rw [hp, h]; rfl)) _)

end

theorem trip_regs : (trip s).regs = s.regs := statusRise_regs
theorem trip_mem : (trip s).mem = s.mem := statusRise_mem
theorem bit_trip_status : bit (trip s).power.status 4 = true := bit_statusRise (s := s) (by decide)
theorem powered_trip : powered (trip s) = false := by
  show ((trip s).power.pwrok && false && !(trip s).power.bootWait) = false
  rw [Bool.and_false, Bool.false_and]

end

/-! ### The management bus -/

section
variable {s : State} {code : BitVec 8} {v : BitVec 16} {pec : Option Byte}

theorem smbBytes_eq (v : BitVec 16) : smbBytes v = [v.setWidth 8, (v >>> 8).setWidth 8] := by
  have h0 : BitVec.ofNat 8 (fld v 7 0) = v.setWidth 8 := by
    apply BitVec.eq_of_toNat_eq
    simp [fld]
  have h1 : BitVec.ofNat 8 (fld v 15 8) = (v >>> 8).setWidth 8 := by
    apply BitVec.eq_of_toNat_eq
    simp [fld]
  rw [smbBytes, h0, h1]

/-- The bytes of a word on the bus, low byte first. -/
abbrev busBytes (v : BitVec 16) : List Byte := [v.setWidth 8, (v >>> 8).setWidth 8]

theorem smbAddrByte_write : smbAddrByte s false = s.power.smbAddr <<< 1 := BitVec.or_zero

/-- A Write Word that PWROK and its packet error code let pass. -/
def WriteGood (s : State) (code : BitVec 8) (v : BitVec 16) (pec : Option Byte) : Prop :=
  s.power.pwrok = true ∧ ∀ p, pec = some p → p = pecOf ([s.power.smbAddr <<< 1, code] ++ busBytes v)

theorem writeGood_iff : (s.power.pwrok && pecOk s code v pec) = true ↔ WriteGood s code v pec := by
  rw [WriteGood, Bool.and_eq_true, pecOk, smbAddrByte_write, smbBytes_eq]
  refine and_congr_right fun _ => ?_
  cases pec with
  | none => exact ⟨fun _ p h => (nomatch h), fun _ => rfl⟩
  | some p =>
    rw [Option.all_some, beq_iff_eq]
    exact ⟨fun h q hq => Option.some.inj hq ▸ h, fun h => h p rfl⟩

theorem smbWrite_good (h : WriteGood s code v pec) : smbWrite s code v pec =
    if code = 5 ∧ 300 ≤ v.toNat ∧ v.toNat ≤ 2600 then smbSay { s with power := { s.power with plimitNew := some v } } .ack
    else if code = 7 then smbSay { s with power := { s.power with alertMask := v } } .ack
    else smbSay s .nack := if_pos (writeGood_iff.mpr h)

theorem smbWrite_bad (h : ¬ WriteGood s code v pec) : smbWrite s code v pec = smbSay s .nack := if_neg fun h' => h (writeGood_iff.mp h')

theorem smbWrite_plimit (h : WriteGood s code v pec) (hc : code = 5) (hl : 300 ≤ v.toNat) (hu : v.toNat ≤ 2600) :
    smbWrite s code v pec = smbSay { s with power := { s.power with plimitNew := some v } } .ack :=
  (smbWrite_good h).trans (if_pos ⟨hc, hl, hu⟩)

theorem smbWrite_alertMask (h : WriteGood s code v pec) (hc : code = 7) :
    smbWrite s code v pec = smbSay { s with power := { s.power with alertMask := v } } .ack :=
  (smbWrite_good h).trans ((if_neg fun h5 => absurd (hc.symm.trans h5.1) (by decide)).trans (if_pos hc))

theorem smbWrite_other (h7 : code ≠ 7) (h : code ≠ 5 ∨ v.toNat < 300 ∨ 2600 < v.toNat) : smbWrite s code v pec = smbSay s .nack := by
  by_cases hg : WriteGood s code v pec
  · refine (smbWrite_good hg).trans ((if_neg fun h' => ?_).trans (if_neg h7))
    rcases h with h | h | h
    · exact h h'.1
    · exact absurd h'.2.1 (Nat.not_le.mpr h)
    · exact absurd h'.2.2 (Nat.not_le.mpr h)
  · exact smbWrite_bad hg

theorem smbRead_word {w : BitVec 16} (h : smbWord s code.toNat = some w) : smbRead s (.word code) = smbSay s
    (.word w (pecOf ([s.power.smbAddr <<< 1, code, (s.power.smbAddr <<< 1) ||| 1] ++ busBytes w))) := by
  rw [smbRead, h]
  dsimp only
  rw [smbAddrByte_write, smbBytes_eq]
  rfl

theorem smbRead_nack (h : smbWord s code.toNat = none) : smbRead s (.word code) = smbSay s .nack := by
  rw [smbRead, h]

theorem smbWord_powered {n : Nat} : s.power.pwrok = true → n ≠ 1 → smbWord s n =
    match n with
    | 2 => some (BitVec.ofInt 16 s.power.tj)
    | 3 => some (BitVec.ofNat 16 (((List.range 12).map (fun n => rfld s (.hbmTemp n) 7 0)).foldl max 0))
    | 4 => some (BitVec.ofNat 16 (s.power.wattsLog.sum / max 1 s.power.wattsLog.length))
    | 5 => some (s.power.plimitNew.getD s.power.plimit)
    | 6 => some (BitVec.ofNat 16 (freq s))
    | 7 => some s.power.alertMask
    | _ => none := fun hp h1 => (if_neg h1).trans (if_neg (not_not_true hp))

theorem smbWord_none (h1 : code ≠ 1) (h : s.power.pwrok = false ∨ code = 0 ∨ 7 < code.toNat) : smbWord s code.toNat = none := by
  have h1' : code.toNat ≠ 1 := fun h => h1 (BitVec.eq_of_toNat_eq h)
  cases hp : s.power.pwrok with
  | false => exact (if_neg h1').trans (if_pos (not_false_true hp))
  | true =>
    rw [smbWord_powered hp h1']
    rcases h with h | rfl | h
    · exact absurd (hp.symm.trans h) (by decide)
    · rfl
    · obtain ⟨n, hn⟩ : ∃ n, code.toNat = n + 8 := ⟨code.toNat - 8, by omega⟩
      rw [hn]; rfl

theorem smbRead_alert (h : s.power.alertN = false) :
    smbRead s .alertResponse = smbSay { s with power := { s.power with alertN := true } } (.alert (s.power.smbAddr <<< 1)) :=
  if_neg (ne_true_of_eq_false h)

end

/-! ### The temperature of an HBM stack -/

theorem tempStep_le (c : Nat) : tempStep c ≤ 4 := by
  unfold tempStep
  repeat' split
  all_goals decide

/-- The temperature at which a step of the duty is entered. -/
theorem dutyEntry_eq {cur : Nat} (h : cur ≠ 0) : dutyEntry cur = if cur = 1 then 85 else if cur = 2 then 90 else if cur = 3 then 95 else 105 := by
  match cur with
  | 0 => exact absurd rfl h
  | 1 | 2 | 3 => rfl
  | n + 4 => rfl

theorem nextDuty_up {cur c : Nat} (h : cur ≤ tempStep c) : nextDuty cur c = tempStep c := if_pos h

theorem nextDuty_down {cur c : Nat} (h : tempStep c < cur) : nextDuty cur c =
    if c + 3 < (if cur = 1 then 85 else if cur = 2 then 90 else if cur = 3 then 95 else 105) then cur - 1 else cur := by
  rw [nextDuty, if_neg (Nat.not_le.mpr h), dutyEntry_eq (Nat.ne_of_gt (Nat.lt_of_le_of_lt (Nat.zero_le _) h))]

/-- From step 4 the duty falls by one step at most. -/
theorem nextDuty_four_ne_zero (c : Nat) : nextDuty 4 c ≠ 0 := by
  rcases Nat.lt_or_ge (tempStep c) 4 with h | h
  · rw [nextDuty_down h]
    show (if c + 3 < 105 then 3 else 4) ≠ 0
    split <;> decide
  · rw [nextDuty_up h]
    omega

section
variable {s : State} {n : Fin 12} {c : BitVec 8}

/-- The step of a stack's duty before a reading, and after it. -/
def dutyNow (s : State) (n : Fin 12) : Nat := rfld s (.hbmTemp n) 10 8
def dutyNext (s : State) (n : Fin 12) (c : BitVec 8) : Nat := nextDuty (dutyNow s n) c.toNat

/-- The state with a reading and its step. -/
def tempKept (s : State) (n : Fin 12) (c : BitVec 8) : State :=
  setF (setF s (.hbmTemp n) 7 0 c.toNat) (.hbmTemp n) 10 8 (dutyNext s n c)

/-- THROTTLED is set where a step above 0 is entered. -/
def tempFlagged (s : State) (n : Fin 12) (c : BitVec 8) : State :=
  if dutyNext s n c ≠ dutyNow s n ∧ dutyNext s n c ≠ 0 then setF (tempKept s n c) (.hbmTemp n) 16 16 1 else tempKept s n c

theorem tempFlagged_throttled : (tempFlagged s n c).throttled = (tempKept s n c).throttled := by
  unfold tempFlagged; split <;> rfl

theorem tempFlagged_step (hk : dutyNext s n c ≠ 0) : tempFlagged s n c =
    if dutyNext s n c = dutyNow s n then tempKept s n c else setF (tempKept s n c) (.hbmTemp n) 16 16 1 := by
  by_cases h : dutyNext s n c = dutyNow s n
  · rw [if_pos h]
    exact if_neg fun h' => h'.1 h
  · rw [if_neg h]
    exact if_pos ⟨h, hk⟩

/-- The first throttling of a stack is told to the contexts that run on its quarter. -/
def tempTold (z s : State) (n : Fin 12) (k : Nat) : State :=
  if k = 0 ∨ s.throttled.contains n.val then s
  else setDetRunning { s with throttled := s.throttled ++ [n.val] } (fun c => pHasQ z (partOf c) (n / 3)) 8

/-- What the step before and after the reading do besides. -/
def tempEnds (s : State) (n : Fin 12) (cur k : Nat) : State :=
  if cur ≠ 4 ∧ k = 4 then eventG (setF s (.hbmTemp n) 17 17 1) 0x0102 [BitVec.ofNat 8 n, 4]
  else if cur = 4 then pumpAll s else s

section
variable (hp : powered s = true) (hf : s.failed = false)
include hp hf

theorem execHbmTempRead_eq : execHbmTempRead n c s =
    .next (tempEnds (tempTold s (tempFlagged s n c) n (dutyNext s n c)) n (dutyNow s n) (dutyNext s n c)) :=
  runPlain_of_ok (running_bind hp hf _ _)

theorem execHbmTempRead_zero (hk : dutyNext s n c = 0) : execHbmTempRead n c s = .next (tempKept s n c) := by
  have h4 : dutyNow s n ≠ 4 := fun h => nextDuty_four_ne_zero c.toNat (by rw [← h]; exact hk)
  have hflag : tempFlagged s n c = tempKept s n c := if_neg fun h => h.2 hk
  have htold : tempTold s (tempKept s n c) n (dutyNext s n c) = tempKept s n c := if_pos (.inl hk)
  have hends : tempEnds (tempKept s n c) n (dutyNow s n) (dutyNext s n c) = tempKept s n c :=
    (if_neg fun h => absurd h.2 (by rw [hk]; decide)).trans (if_neg h4)
  rw [execHbmTempRead_eq hp hf, hflag, htold, hends]

/-- A reading at a step above 0, of a stack that has been throttled before. -/
theorem execHbmTempRead_again (hk : dutyNext s n c ≠ 0) (ht : (tempKept s n c).throttled.contains n.val = true) :
    execHbmTempRead n c s = .next (tempEnds (if dutyNext s n c = dutyNow s n then tempKept s n c
      else setF (tempKept s n c) (.hbmTemp n) 16 16 1) n (dutyNow s n) (dutyNext s n c)) := by
  have htold : tempTold s (tempFlagged s n c) n (dutyNext s n c) = tempFlagged s n c :=
    if_pos (.inr (by rw [tempFlagged_throttled, ht]))
  rw [execHbmTempRead_eq hp hf, htold, tempFlagged_step hk]

end
end

/-- Settles O56: pins, rails, clocks and regulators, the management bus, and the readings of an HBM stack. -/
theorem powerAndPins : Obligations.PowerAndPins := by
  unfold Obligations.PowerAndPins
  refine ⟨fun s => ⟨fun hp => ?pins, ?bus, rfl, fun b hb => ⟨statusRise_set, fun h => ⟨bit_statusRise hb, ?alert⟩⟩⟩,
    fun c => rfl, fun cur c _ => ⟨nextDuty_up, nextDuty_down⟩, fun s n c hp hf => ?temp⟩
  case alert => rw [statusRise_clear h]
  case pins =>
    refine ⟨execProchotAssert_ok hp, execProchotRelease_ok hp,
      fun h => ⟨trip s, execThermtrip_ok hp h, rfl, bit_trip_status, powered_trip, trip_regs, trip_mem⟩, execRailFault_ok hp,
      fun k hk => ⟨fun h => ?_, fun h => ?_⟩, fun k hk => execRefclkReturn_ok hp hk,
      fun q hq => ⟨execAvsTimeout_ok hp hq, execAvsRequestComplete_ok hp hq⟩⟩
    · exact (execRefclkLoss_eq hp hk).trans (congrArg _ (if_pos h))
    · exact (execRefclkLoss_eq hp hk).trans (congrArg _ (if_neg h))
  case bus =>
    intro a say bytes
    refine ⟨fun code v pec => ⟨fun hg hc hl hu => congrArg Host.Outcome.next (smbWrite_plimit hg hc hl hu),
      fun hg hc => congrArg Host.Outcome.next (smbWrite_alertMask hg hc), fun h => congrArg Host.Outcome.next ?_, rfl⟩,
      ⟨?_, fun hp => ⟨?_, ?_, ?_, ?_, ?_, ?_⟩, fun code h1 h => congrArg Host.Outcome.next (smbRead_nack (smbWord_none h1 h))⟩,
      fun h => congrArg Host.Outcome.next (if_pos h), fun h => congrArg Host.Outcome.next (smbRead_alert h)⟩
    · rcases h with h | ⟨h7, h⟩
      · exact smbWrite_bad h
      · exact smbWrite_other h7 h
    · exact congrArg Host.Outcome.next (smbRead_word rfl)
    all_goals exact congrArg Host.Outcome.next (smbRead_word (smbWord_powered hp (by decide)))
  case temp =>
    intro r cur k s1
    refine ⟨fun hk => execHbmTempRead_zero hp hf hk, ?_⟩
    intro s2
    have hagain := fun hk ht => execHbmTempRead_again (n := n) (c := c) hp hf hk ht
    refine ⟨fun hk h4 hc ht => (hagain hk ht).trans (congrArg _ ?_), fun hc ht => (hagain ?_ ht).trans (congrArg _ ?_),
      fun hc h4 ht => (hagain ?_ ht).trans (congrArg _ ?_), fun hk => ⟨_, execHbmTempRead_eq hp hf⟩⟩
    · exact (if_neg fun h => h4 h.2).trans (if_neg hc)
    · intro h
      exact nextDuty_four_ne_zero c.toNat (by rw [← hc]; exact h)
    · exact (if_neg fun h => h.1 hc).trans (if_pos hc)
    · intro h
      exact absurd (h4.symm.trans h) (by decide)
    · exact if_pos ⟨hc, h4⟩

end Sys2Proof.Machine

namespace Sys2Proof.Machine

/-! ## Messages and flits read back as written (R373, R382) -/

/-! ### Fields of a word built from its parts -/

theorem fld_ofNat {v : Nat} (hv : v < 2 ^ 64) (hi lo : Nat) : fld (BitVec.ofNat 64 v) hi lo = v / 2 ^ lo % 2 ^ (hi + 1 - lo) := by
  rw [fld, BitVec.toNat_ofNat, Nat.mod_eq_of_lt hv, Nat.shiftRight_eq_div_pow]

theorem bit_ofNat {v : Nat} (hv : v < 2 ^ 64) (i : Nat) : bit (BitVec.ofNat 64 v) i = decide (v / 2 ^ i % 2 = 1) := by
  rw [bit, BitVec.getLsbD, BitVec.toNat_ofNat, Nat.mod_eq_of_lt hv, Nat.testBit_eq_decide_div_mod_eq]

theorem ofNat_toNat_self {n : Nat} (x : BitVec n) : BitVec.ofNat n x.toNat = x := BitVec.eq_of_toNat_eq (by simp)

/-- Two flags as the low bits of a word. -/
def flagNat (b : Bool) (n : Nat) : Nat := if b then n else 0

theorem flagNat_le (b : Bool) (n : Nat) : flagNat b n ≤ n := by cases b <;> simp [flagNat]

theorem flagNat_div (b : Bool) {n : Nat} (h : 0 < n) : decide (flagNat b n / n % 2 = 1) = b := by
  cases b
  · simp [flagNat]
  · rw [flagNat, if_pos rfl, Nat.div_self h]; rfl

/-! ### The words of a header -/

section
variable (m : Msg)

/-- The number that word 0 of a header is. -/
def hdr0Nat : Nat :=
  m.dst.toNat * 2 ^ 48 + m.src.toNat * 2 ^ 32 + opCode m.op * 2 ^ 28 + opVc m.op * 2 ^ 26 + m.ctx.val * 2 ^ 20 +
    m.epoch.toNat * 2 ^ 16 + m.tag.toNat * 2 ^ 4 + m.cls.toNat * 4 + flagNat m.last 2 + flagNat m.sig 1

/-- The number that word 2 of a header is. -/
def hdr2Nat : Nat :=
  m.hops.toNat * 2 ^ 56 + m.seg.toNat * 2 ^ 54 + m.wcnt.toNat * 2 ^ 52 + m.w2.toNat * 2 ^ 39 +
    m.w1.toNat * 2 ^ 26 + m.redop.toNat * 2 ^ 23 + m.rank.toNat * 2 ^ 17 + flagNat m.ranked 65536 + m.len.toNat

theorem opCode_lt (op : MsgOp) : opCode op < 16 := by cases op <;> decide
theorem opVc_lt (op : MsgOp) : opVc op < 3 := by cases op <;> decide
theorem opOf_opCode (op : MsgOp) : opOf (opCode op) = some op := by cases op <;> rfl

theorem hdr0_fields : hdr0Nat m < 2 ^ 64 ∧ hdr0Nat m / 2 ^ 48 % 2 ^ 16 = m.dst.toNat ∧ hdr0Nat m / 2 ^ 32 % 2 ^ 16 = m.src.toNat ∧
    hdr0Nat m / 2 ^ 28 % 2 ^ 4 = opCode m.op ∧ hdr0Nat m / 2 ^ 20 % 2 ^ 6 = m.ctx.val ∧ hdr0Nat m / 2 ^ 16 % 2 ^ 4 = m.epoch.toNat ∧
    hdr0Nat m / 2 ^ 4 % 2 ^ 12 = m.tag.toNat ∧ hdr0Nat m / 2 ^ 2 % 2 ^ 2 = m.cls.toNat ∧
    hdr0Nat m / 2 ^ 1 % 2 = flagNat m.last 2 / 2 ∧ hdr0Nat m / 2 ^ 0 % 2 = flagNat m.sig 1 := by
  have hdst := m.dst.isLt
  have hsrc := m.src.isLt
  have hop := opCode_lt m.op
  have hvc := opVc_lt m.op
  have hctx := m.ctx.isLt
  have hepoch := m.epoch.isLt
  have htag := m.tag.isLt
  have hcls := m.cls.isLt
  have hsig := flagNat_le m.sig 1
  have hlast : flagNat m.last 2 = 0 ∨ flagNat m.last 2 = 2 := by cases m.last <;> simp [flagNat]
  unfold hdr0Nat
  refine ⟨?_, ?_, ?_, ?_, ?_, ?_, ?_, ?_, ?_, ?_⟩ <;> omega

theorem hdr2_fields : hdr2Nat m < 2 ^ 64 ∧ hdr2Nat m / 2 ^ 56 % 2 ^ 6 = m.hops.toNat ∧ hdr2Nat m / 2 ^ 54 % 2 ^ 2 = m.seg.toNat ∧
    hdr2Nat m / 2 ^ 52 % 2 ^ 2 = m.wcnt.toNat ∧ hdr2Nat m / 2 ^ 39 % 2 ^ 13 = m.w2.toNat ∧ hdr2Nat m / 2 ^ 26 % 2 ^ 13 = m.w1.toNat ∧
    hdr2Nat m / 2 ^ 23 % 2 ^ 3 = m.redop.toNat ∧ hdr2Nat m / 2 ^ 17 % 2 ^ 6 = m.rank.toNat ∧
    hdr2Nat m / 2 ^ 16 % 2 = flagNat m.ranked 65536 / 65536 ∧ hdr2Nat m / 2 ^ 0 % 2 ^ 14 = m.len.toNat := by
  have hhops := m.hops.isLt
  have hseg := m.seg.isLt
  have hwcnt := m.wcnt.isLt
  have hw2 := m.w2.isLt
  have hw1 := m.w1.isLt
  have hredop := m.redop.isLt
  have hrank := m.rank.isLt
  have hlen := m.len.isLt
  have hranked : flagNat m.ranked 65536 = 0 ∨ flagNat m.ranked 65536 = 65536 := by cases m.ranked <;> simp [flagNat]
  unfold hdr2Nat
  refine ⟨?_, ?_, ?_, ?_, ?_, ?_, ?_, ?_, ?_, ?_⟩ <;> omega

theorem hdr1_fields : m.mcg.toNat * 2 ^ 56 + m.addr.toNat < 2 ^ 64 ∧ (m.mcg.toNat * 2 ^ 56 + m.addr.toNat) / 2 ^ 56 % 2 ^ 8 = m.mcg.toNat ∧
    (m.mcg.toNat * 2 ^ 56 + m.addr.toNat) / 2 ^ 0 % 2 ^ 48 = m.addr.toNat := by
  have hmcg := m.mcg.isLt
  have haddr := m.addr.isLt
  refine ⟨?_, ?_, ?_⟩ <;> omega

theorem headerMsg_hdr : headerMsg (hdr0 m) (hdr1 m) (hdr2 m) m.word3 = some { m with data := [] } := by
  obtain ⟨h0, hdst, hsrc, hop, hctx, hepoch, htag, hcls, hlast, hsig⟩ := hdr0_fields m
  obtain ⟨h1, hmcg, haddr⟩ := hdr1_fields m
  obtain ⟨h2, hhops, hseg, hwcnt, hw2, hw1, hredop, hrank, hranked, hlen⟩ := hdr2_fields m
  have e0 : hdr0 m = BitVec.ofNat 64 (hdr0Nat m) := rfl
  have e1 : hdr1 m = BitVec.ofNat 64 (m.mcg.toNat * 2 ^ 56 + m.addr.toNat) := rfl
  have e2 : hdr2 m = BitVec.ofNat 64 (hdr2Nat m) := rfl
  have blast : decide (flagNat m.last 2 / 2 = 1) = m.last := by cases m.last <;> rfl
  have bsig : decide (flagNat m.sig 1 = 1) = m.sig := by cases m.sig <;> rfl
  have branked : decide (flagNat m.ranked 65536 / 65536 = 1) = m.ranked := by cases m.ranked <;> rfl
  rw [e0, e1, e2]
  unfold headerMsg
  simp only [fld_ofNat h0, fld_ofNat h1, fld_ofNat h2, bit_ofNat h0, bit_ofNat h2, Nat.reduceAdd, Nat.reduceSub]
  rw [hop, opOf_opCode, hdst, hsrc, hctx, hepoch, htag, hcls, hlast, hsig, hmcg, haddr, hhops, hseg, hwcnt, hw2, hw1, hredop, hrank, hranked,
    hlen, blast, bsig, branked]
  simp only [ofNat_toNat_self, Option.map_some, Fin.ofNat_val_eq_self]

/-! ### The bytes of a message and its flits -/

theorem ofBytes_wordBytes (w : Word) : ofBytes (wordBytes w) = w.toNat := by
  exact (ofBytes_leBytes 8 w.toNat).trans (Nat.mod_eq_of_lt w.isLt)

theorem word_of_wordBytes (w : Word) : BitVec.ofNat 64 (ofBytes (wordBytes w)) = w := by
  rw [ofBytes_wordBytes, ofNat_toNat_self]

theorem headerBytes_length : (headerBytes m).length = 32 := by
  simp only [headerBytes, List.length_append, wordBytes_length]

theorem msgBytes_eq : msgBytes m =
    wordBytes (hdr0 m) ++ (wordBytes (hdr1 m) ++ (wordBytes (hdr2 m) ++ (wordBytes m.word3 ++ m.data))) := by
  simp only [msgBytes, headerBytes, List.append_assoc]

/-- A word behind others. -/
theorem drop_word (w : Word) (l : List Byte) (i : Nat) : (wordBytes w ++ l).drop (8 * (i + 1)) = l.drop (8 * i) := by
  rw [Nat.mul_succ, Nat.add_comm, ← List.drop_drop, List.drop_left' (wordBytes_length w)]

theorem take_word (w : Word) (l : List Byte) : ((wordBytes w ++ l).drop (8 * 0)).take 8 = wordBytes w :=
  List.take_left' (wordBytes_length w)

theorem msgBytes_data : (msgBytes m).drop 32 = m.data := List.drop_left' (headerBytes_length m)

theorem msgBytes_word0 : ((msgBytes m).drop (8 * 0)).take 8 = wordBytes (hdr0 m) := by rw [msgBytes_eq, take_word]
theorem msgBytes_word1 : ((msgBytes m).drop (8 * 1)).take 8 = wordBytes (hdr1 m) := by rw [msgBytes_eq, drop_word, take_word]
theorem msgBytes_word2 : ((msgBytes m).drop (8 * 2)).take 8 = wordBytes (hdr2 m) := by
  rw [msgBytes_eq, drop_word, drop_word, take_word]
theorem msgBytes_word3 : ((msgBytes m).drop (8 * 3)).take 8 = wordBytes m.word3 := by
  rw [msgBytes_eq, drop_word, drop_word, drop_word, take_word]

theorem headerMsg_msgBytes : headerMsg (BitVec.ofNat 64 (ofBytes (((msgBytes m).drop (8 * 0)).take 8)))
    (BitVec.ofNat 64 (ofBytes (((msgBytes m).drop (8 * 1)).take 8))) (BitVec.ofNat 64 (ofBytes (((msgBytes m).drop (8 * 2)).take 8)))
    (BitVec.ofNat 64 (ofBytes (((msgBytes m).drop (8 * 3)).take 8))) = some { m with data := [] } := by
  rw [msgBytes_word0, msgBytes_word1, msgBytes_word2, msgBytes_word3, word_of_wordBytes, word_of_wordBytes, word_of_wordBytes,
    word_of_wordBytes, headerMsg_hdr]

theorem msgBytes_length_ge : 32 ≤ (msgBytes m).length := by
  rw [msgBytes, List.length_append, headerBytes_length]
  exact Nat.le_add_right _ _

omit m in
/-- Bytes whose header is that of a message and whose data is of its length are that message with the data. -/
theorem msgOf_of {bs : List Byte} {m' : Msg}
    (h : headerMsg (BitVec.ofNat 64 (ofBytes ((bs.drop (8 * 0)).take 8))) (BitVec.ofNat 64 (ofBytes ((bs.drop (8 * 1)).take 8)))
      (BitVec.ofNat 64 (ofBytes ((bs.drop (8 * 2)).take 8))) (BitVec.ofNat 64 (ofBytes ((bs.drop (8 * 3)).take 8))) = some m')
    (hl : 32 ≤ bs.length) (hd : (bs.drop 32).length = if opData m'.op then m'.len.toNat + 1 else 0) :
    msgOf bs = some { m' with data := bs.drop 32 } := by
  unfold msgOf
  dsimp only
  rw [h]
  exact if_pos ⟨hl, hd⟩

theorem msgOf_msgBytes (h : m.data.length = if opData m.op then m.len.toNat + 1 else 0) : msgOf (msgBytes m) = some m := by
  rw [msgOf_of (headerMsg_msgBytes m) (msgBytes_length_ge m) (by rw [msgBytes_data]; exact h), msgBytes_data]

/-- Pieces of one size, one after another, are the list as far as they reach. -/
theorem flatMap_pieces {α : Type} (l : List α) (n k : Nat) : (List.range k).flatMap (fun i => (l.drop (n * i)).take n) = l.take (n * k) := by
  induction k with
  | zero => simp
  | succ k ih => rw [List.range_succ, List.flatMap_append, ih, List.flatMap_singleton, Nat.mul_succ, ← List.take_add]

theorem le_mul_ceilDiv (a : Nat) {b : Nat} (hb : 0 < b) : a ≤ b * ceilDiv a b := by
  unfold ceilDiv
  have h := Nat.lt_mul_div_succ (a + b - 1) hb
  rw [Nat.mul_succ] at h
  omega

theorem flitsOf_payloads (cls : Nat) : (flitsOf m cls).flatMap (·.payload) = msgBytes m := by
  unfold flitsOf
  rw [List.flatMap_map]
  exact (flatMap_pieces _ _ _).trans (List.take_of_length_le (le_mul_ceilDiv _ (by decide)))

theorem flitsOf_each (cls : Nat) {x : Flit} (hx : x ∈ flitsOf m cls) : x.payload.length ≤ 244 ∧ x.vc.toNat = opVc m.op := by
  obtain ⟨i, -, rfl⟩ := List.mem_map.mp hx
  refine ⟨List.length_take_le _ _, ?_⟩
  rw [BitVec.toNat_ofNat]
  exact Nat.mod_eq_of_lt ((opVc_lt m.op).trans (by decide))

end

/-! ### The 256 bytes of a flit -/

section
variable (seq ack : BitVec 12) (x : Flit)

/-- The number that a flit's head is. -/
def flitHeadNat : Nat :=
  seq.toNat + ack.toNat * 2 ^ 12 + x.vc.toNat * 2 ^ 24 + x.cls.toNat * 2 ^ 26 + flagNat x.som (2 ^ 30) + flagNat x.eom (2 ^ 31) +
    x.payload.length * 2 ^ 32

/-- The bytes that a flit's CRC covers. -/
def flitBody : List Byte := wordBytes (flitHead seq ack x) ++ (x.payload ++ List.replicate (244 - x.payload.length) 0)

theorem flitBytes_eq : flitBytes seq ack x = flitBody seq ack x ++ leBytes 4 (crc32 (flitBody seq ack x)).toNat := rfl

variable {x} (hx : x.payload.length ≤ 244)
include hx

theorem flitHead_fields : flitHeadNat seq ack x < 2 ^ 64 ∧ flitHeadNat seq ack x / 2 ^ 0 % 2 ^ 12 = seq.toNat ∧
    flitHeadNat seq ack x / 2 ^ 12 % 2 ^ 12 = ack.toNat ∧ flitHeadNat seq ack x / 2 ^ 24 % 2 ^ 2 = x.vc.toNat ∧
    flitHeadNat seq ack x / 2 ^ 26 % 2 ^ 4 = x.cls.toNat ∧ flitHeadNat seq ack x / 2 ^ 30 % 2 = flagNat x.som (2 ^ 30) / 2 ^ 30 ∧
    flitHeadNat seq ack x / 2 ^ 31 % 2 = flagNat x.eom (2 ^ 31) / 2 ^ 31 ∧
    flitHeadNat seq ack x / 2 ^ 32 % 2 ^ 8 = x.payload.length := by
  have hseq := seq.isLt
  have hack := ack.isLt
  have hvc := x.vc.isLt
  have hcls := x.cls.isLt
  have hsom : flagNat x.som (2 ^ 30) = 0 ∨ flagNat x.som (2 ^ 30) = 2 ^ 30 := by cases x.som <;> simp [flagNat]
  have heom : flagNat x.eom (2 ^ 31) = 0 ∨ flagNat x.eom (2 ^ 31) = 2 ^ 31 := by cases x.eom <;> simp [flagNat]
  unfold flitHeadNat
  refine ⟨?_, ?_, ?_, ?_, ?_, ?_, ?_, ?_⟩ <;> omega

theorem flitBody_length : (flitBody seq ack x).length = 252 := by
  simp only [flitBody, List.length_append, wordBytes_length, List.length_replicate]
  omega

theorem flitBytes_length : (flitBytes seq ack x).length = 256 := by
  rw [flitBytes_eq, List.length_append, flitBody_length seq ack hx, leBytes_length]

theorem flitBytes_good : flitGood (flitBytes seq ack x) = true := by
  have hb := flitBody_length seq ack hx
  rw [flitGood, flitBytes_length seq ack hx, flitBytes_eq, ← hb, List.drop_left, List.take_left, ofBytes_leBytes,
    show (crc32 (flitBody seq ack x)).toNat % 256 ^ 4 = _ from Nat.mod_eq_of_lt (crc32 (flitBody seq ack x)).isLt, beq_self_eq_true, Bool.true_and,
    beq_self_eq_true]

theorem flitParts_flitBytes : flitParts (flitBytes seq ack x) = (seq, ack, x) := by
  obtain ⟨h0, hseq, hack, hvc, hcls, hsom, heom, hlen⟩ := flitHead_fields seq ack hx
  have ehead : flitHead seq ack x = BitVec.ofNat 64 (flitHeadNat seq ack x) := rfl
  have bsom : decide (flagNat x.som (2 ^ 30) / 2 ^ 30 = 1) = x.som := by cases x.som <;> rfl
  have beom : decide (flagNat x.eom (2 ^ 31) / 2 ^ 31 = 1) = x.eom := by cases x.eom <;> rfl
  have htake : (flitBytes seq ack x).take 8 = wordBytes (flitHead seq ack x) := by
    rw [flitBytes_eq, flitBody, List.append_assoc]
    exact List.take_left' (wordBytes_length _)
  have hdrop : ((flitBytes seq ack x).drop 8).take x.payload.length = x.payload := by
    rw [flitBytes_eq, flitBody, List.append_assoc, List.drop_left' (wordBytes_length _), List.append_assoc, List.take_left]
  unfold flitParts
  dsimp only
  rw [htake, word_of_wordBytes, ehead]
  simp only [fld_ofNat h0, bit_ofNat h0, Nat.reduceAdd, Nat.reduceSub]
  rw [hseq, hack, hvc, hcls, hsom, heom, hlen, bsom, beom, Nat.min_eq_right hx, hdrop]
  simp only [ofNat_toNat_self]

end

end Sys2Proof.Machine

namespace Sys2Proof.Machine

/-! ## The register map and its reading (R462, R463) -/

/-! ### Slots of an array of registers -/

theorem slotIn_at {base i n : Nat} (h : i < n) : slotIn (base + 8 * i) base n = some i := by
  have hi : (base + 8 * i - base) / 8 = i := by omega
  rw [slotIn, if_pos ⟨by omega, by omega⟩, hi]

theorem slotIn_out {off base n : Nat} (h : off < base ∨ base + 8 * n ≤ off) : slotIn off base n = none := if_neg (by omega)

theorem slotIn_some {off base n i : Nat} (h8 : off % 8 = 0) (hb : base % 8 = 0) (h : slotIn off base n = some i) :
    off = base + 8 * i ∧ i < n := by
  unfold slotIn at h
  split at h
  · obtain rfl := Option.some.inj h
    omega
  · cases h

/-- A register of an array is at its own offset, where the array's offsets are those of its slots. -/
theorem slot_map_some {off base n : Nat} {f : Nat → Reg} {r : Reg} (h8 : off % 8 = 0) (hb : base % 8 = 0)
    (h : (slotIn off base n).map f = some r) : ∃ i, off = base + 8 * i ∧ i < n ∧ r = f i := by
  obtain ⟨i, hi, rfl⟩ := Option.map_eq_some_iff.mp h
  obtain ⟨ho, hn⟩ := slotIn_some h8 hb hi
  exact ⟨i, ho, hn, rfl⟩

theorem or_some {α : Type} {a b : Option α} {x : α} (h : a.or b = some x) : a = some x ∨ b = some x := by
  cases a with
  | none => exact .inr h
  | some y => exact .inl h

/-! ### Where the parts of the map are -/

section
variable {off o p : Nat}

theorem regAt_glb (h8 : off % 8 = 0) (h : off < 0x100000) : regAt off = regGlb off := (if_neg (not_not.mpr h8)).trans (if_pos h)

theorem regAt_prt (hp : p < 4) (ho : o < 0x10000) (h8 : o % 8 = 0) : regAt (prtOff p + o) = regPrt p o := by
  have hd : (prtOff p + o - 0x200000) / 0x10000 = p := by unfold prtOff; omega
  have hm : (prtOff p + o) % 0x10000 = o := by unfold prtOff; omega
  have hlo : 0x200000 ≤ prtOff p + o := by unfold prtOff; omega
  have hhi : prtOff p + o < 0x240000 := by unfold prtOff; omega
  have h8' : (prtOff p + o) % 8 = 0 := by unfold prtOff; omega
  unfold regAt
  rw [hd, hm]
  generalize prtOff p + o = off at *
  repeat rw [if_neg (by omega)]
  rw [if_pos hhi]

theorem regAt_ctx (hp : p < 64) (ho : o < 0x1000) (h8 : o % 8 = 0) : regAt (ctxOff p + o) = regCtx p o := by
  have hd : (ctxOff p + o - 0x240000) / 0x1000 = p := by unfold ctxOff; omega
  have hm : (ctxOff p + o) % 0x1000 = o := by unfold ctxOff; omega
  have hlo : 0x240000 ≤ ctxOff p + o := by unfold ctxOff; omega
  have hhi : ctxOff p + o < 0x280000 := by unfold ctxOff; omega
  have h8' : (ctxOff p + o) % 8 = 0 := by unfold ctxOff; omega
  unfold regAt
  rw [hd, hm]
  generalize ctxOff p + o = off at *
  repeat rw [if_neg (by omega)]
  rw [if_pos hhi]

theorem regAt_stg (hp : p < 5) (ho : o < 0x2000) (h8 : o % 8 = 0) : regAt (stgOff p + o) = regStg p o := by
  have hd : (stgOff p + o - 0x300000) / 0x2000 = p := by unfold stgOff; omega
  have hm : (stgOff p + o) % 0x2000 = o := by unfold stgOff; omega
  have hlo : 0x300000 ≤ stgOff p + o := by unfold stgOff; omega
  have hhi : stgOff p + o < 0x30A000 := by unfold stgOff; omega
  have h8' : (stgOff p + o) % 8 = 0 := by unfold stgOff; omega
  unfold regAt
  rw [hd, hm]
  generalize stgOff p + o = off at *
  repeat rw [if_neg (by omega)]
  rw [if_pos hhi]

theorem regAt_sec (h8 : off % 8 = 0) (hlo : 0x400000 ≤ off) (hhi : off < 0x600000) : regAt off = regSecEvt off := by
  unfold regAt
  repeat rw [if_neg (by omega)]
  rw [if_pos hhi]

theorem regAt_mem (h8 : off % 8 = 0) (hlo : 0x600000 ≤ off) (hhi : off < 0x800000) : regAt off = regMem off := by
  unfold regAt
  repeat rw [if_neg (by omega)]
  rw [if_pos hhi]

theorem regAt_lnk (h8 : off % 8 = 0) (hlo : 0x800000 ≤ off) (hhi : off < 0xA00000) : regAt off = regLnk off := by
  unfold regAt
  repeat rw [if_neg (by omega)]
  rw [if_pos hhi]

theorem regAt_cdc (h8 : off % 8 = 0) (hlo : 0xA00000 ≤ off) (hhi : off < 0xC00000) :
    regAt off = ((slotIn off 0xA00000 4).map .cdcCfg).or ((slotIn off 0xA00100 8).map .cdcCore) := by
  unfold regAt
  repeat rw [if_neg (by omega)]
  rw [if_pos hhi]

/-- The registers of a reel, by their offset in its part of the map. -/
def regReel (p o : Nat) : Option Reg :=
  if o = 0 then some (.reelCtl p) else if o = 8 then some (.reelRing p) else if o = 0x10 then some (.reelHead p)
  else if o = 0x18 then some (.reelStart p) else if o = 0x20 then some (.reelLost p)
  else if o = 0x28 then some (.reelStat p) else none

theorem regAt_reel (h8 : off % 8 = 0) (hlo : 0xC00000 ≤ off) (hhi : off < 0x1000000) :
    regAt off = if 4 ≤ (off - 0xC00000) / 0x100 then none else regReel ((off - 0xC00000) / 0x100) (off % 0x100) := by
  unfold regAt
  repeat rw [if_neg (by omega)]
  rw [if_pos hhi]
  rfl

theorem regAt_reel_at (hp : p < 4) (ho : o < 0x100) (h8 : o % 8 = 0) : regAt (0xC00000 + p * 0x100 + o) = regReel p o := by
  have hd : (0xC00000 + p * 0x100 + o - 0xC00000) / 0x100 = p := by omega
  have hm : (0xC00000 + p * 0x100 + o) % 0x100 = o := by omega
  rw [regAt_reel (by omega) (by omega) (by omega), hd, hm, if_neg (by omega)]

theorem regAt_q (hp : p < 4) (ho : o < 0x400000) (h8 : o % 8 = 0) : regAt (qOff p + o) = regQ p o := by
  have hd : (qOff p + o - 0x1000000) / 0x400000 = p := by unfold qOff; omega
  have hm : (qOff p + o) % 0x400000 = o := by unfold qOff; omega
  have hlo : 0x1000000 ≤ qOff p + o := by unfold qOff; omega
  have hhi : qOff p + o < 0x2000000 := by unfold qOff; omega
  have h8' : (qOff p + o) % 8 = 0 := by unfold qOff; omega
  unfold regAt
  rw [hd, hm]
  generalize qOff p + o = off at *
  repeat rw [if_neg (by omega)]
  rw [if_pos hhi]

end

theorem regAt_prt_first {p : Nat} (hp : p < 4) : regAt (prtOff p) = regPrt p 0 := by
  have h := regAt_prt (o := 0) hp (by decide) rfl
  rwa [Nat.add_zero] at h

theorem regAt_ctx_first {p : Nat} (hp : p < 64) : regAt (ctxOff p) = regCtx p 0 := by
  have h := regAt_ctx (o := 0) hp (by decide) rfl
  rwa [Nat.add_zero] at h

theorem regAt_q_first {p : Nat} (hp : p < 4) : regAt (qOff p) = regQ p 0 := by
  have h := regAt_q (o := 0) hp (by decide) rfl
  rwa [Nat.add_zero] at h

/-! ### The slot of a register that exists is that register's -/

section
variable {p n : Nat}

theorem regAt_glbRetire (h : n < 7) : regAt (Reg.offset (.glbRetire n)) = some (.glbRetire n) := by
  show regAt (0x100 + 8 * n) = _
  rw [regAt_glb (by omega) (by omega), regGlb]
  repeat rw [if_neg (by omega)]
  rw [slotIn_at h]

theorem regAt_bar4Win (h : n < 16) : regAt (Reg.offset (.bar4Win n)) = some (.bar4Win n) := by
  show regAt (0x200 + 8 * n) = _
  rw [regAt_glb (by omega) (by omega), regGlb]
  repeat rw [if_neg (by omega)]
  rw [slotIn_out (.inr (by omega)), slotIn_at h]

theorem regAt_rmap (h : n < 11) : regAt (Reg.offset (.rmap n)) = some (.rmap n) := by
  show regAt (0x1000 + 8 * n) = _
  rw [regAt_glb (by omega) (by omega), regGlb]
  repeat rw [if_neg (by omega)]
  rw [slotIn_out (.inr (by omega)), slotIn_out (.inr (by omega))]
  dsimp only
  rw [slotIn_at h]

theorem unitCount_le (t : Nat) : unitCount t ≤ 384 := by
  unfold unitCount
  split <;> decide

theorem regAt_ce (h : p < 7) (hn : n < unitCount p) : regAt (Reg.offset (.ce p n)) = some (.ce p n) := by
  have hle := unitCount_le p
  have hd : (0x10000 + p * 0x1000 + 8 * n - 0x10000) / 0x1000 = p := by omega
  have hm : (0x10000 + p * 0x1000 + 8 * n) % 0x1000 / 8 = n := by omega
  show regAt (0x10000 + p * 0x1000 + 8 * n) = _
  rw [regAt_glb (by omega) (by omega), regGlb, hd, hm]
  repeat rw [if_neg (by omega)]
  rw [slotIn_out (.inr (by omega)), slotIn_out (.inr (by omega))]
  dsimp only
  rw [slotIn_out (.inr (by omega))]
  dsimp only
  rw [if_pos (by omega), if_pos hn]

theorem regAt_prtSem (hp : p < 4) (h : n < 256) : regAt (Reg.offset (.prtSem p n)) = some (.prtSem p n) := by
  show regAt (prtOff p + 0x800 + 8 * n) = _
  rw [Nat.add_assoc, regAt_prt hp (by omega) (by omega), regPrt]
  repeat rw [if_neg (by omega)]
  rw [slotIn_at h]
  rfl

theorem regAt_stgEaddr (hp : p < 5) (h : n < 256) : regAt (Reg.offset (.stgEaddr p n)) = some (.stgEaddr p n) := by
  have hd : 16 * n / 16 = n := by omega
  show regAt (stgOff p + 16 * n) = _
  rw [regAt_stg hp (by omega) (by omega), regStg, if_pos (by omega), if_pos (by omega), hd]

theorem regAt_stgEval (hp : p < 5) (h : n < 256) : regAt (Reg.offset (.stgEval p n)) = some (.stgEval p n) := by
  have hd : (8 + 16 * n) / 16 = n := by omega
  show regAt (stgOff p + 8 + 16 * n) = _
  rw [Nat.add_assoc, regAt_stg hp (by omega) (by omega), regStg, if_pos (by omega), if_neg (by omega), hd]

theorem regAt_secUid (h : n < 4) : regAt (Reg.offset (.secUid n)) = some (.secUid n) := by
  show regAt (0x400020 + 8 * n) = _
  rw [regAt_sec (by omega) (by omega) (by omega), regSecEvt]
  repeat rw [if_neg (by omega)]
  rw [slotIn_at h]

theorem regAt_attNonce (h : n < 8) : regAt (Reg.offset (.attNonce n)) = some (.attNonce n) := by
  show regAt (0x400080 + 8 * n) = _
  rw [regAt_sec (by omega) (by omega) (by omega), regSecEvt]
  repeat rw [if_neg (by omega)]
  rw [slotIn_out (.inr (by omega)), slotIn_at h]

theorem regAt_cnt (hp : p < 64) (h : n < 40) : regAt (Reg.offset (.cnt p n)) = some (.cnt p n) := by
  have hd : (0x510000 + p * 0x200 + 8 * n - 0x510000) / 0x200 = p := by omega
  have hm : (0x510000 + p * 0x200 + 8 * n) % 0x200 / 8 = n := by omega
  show regAt (0x510000 + p * 0x200 + 8 * n) = _
  rw [regAt_sec (by omega) (by omega) (by omega), regSecEvt, hd, hm]
  repeat rw [if_neg (by omega)]
  rw [slotIn_out (.inr (by omega)), slotIn_out (.inr (by omega))]
  dsimp only
  rw [if_pos (by omega)]

/-- The arrays of the memory part, one after another. -/
theorem regMem_arrays {off : Nat} (h : off ≠ 0x600600) (hr : ¬ (0x601000 ≤ off ∧ off < 0x602000)) : regMem off =
    (((slotIn off 0x600000 4).map .poolHbm).or <| ((slotIn off 0x600100 16).map .poolBt).or <|
    ((slotIn off 0x600200 4).map .memShare).or <| ((slotIn off 0x600300 12).map .hbmTemp).or <|
    ((slotIn off 0x600400 4).map .qlive).or <| ((slotIn off 0x600500 16).map .blive).or <|
    ((slotIn off 0x602000 256).map .ureg)) := (if_neg h).trans (if_neg hr)

theorem regAt_poolHbm (h : n < 4) : regAt (Reg.offset (.poolHbm n)) = some (.poolHbm n) := by
  show regAt (0x600000 + 8 * n) = _
  rw [regAt_mem (by omega) (by omega) (by omega), regMem_arrays (by omega) (by omega), slotIn_at h]
  rfl
theorem regAt_poolBt (h : n < 16) : regAt (Reg.offset (.poolBt n)) = some (.poolBt n) := by
  show regAt (0x600100 + 8 * n) = _
  rw [regAt_mem (by omega) (by omega) (by omega), regMem_arrays (by omega) (by omega), slotIn_out (.inr (by omega)), slotIn_at h]
  rfl
theorem regAt_memShare (h : n < 4) : regAt (Reg.offset (.memShare n)) = some (.memShare n) := by
  show regAt (0x600200 + 8 * n) = _
  rw [regAt_mem (by omega) (by omega) (by omega), regMem_arrays (by omega) (by omega), slotIn_out (.inr (by omega)),
    slotIn_out (.inr (by omega)), slotIn_at h]
  rfl
theorem regAt_hbmTemp (h : n < 12) : regAt (Reg.offset (.hbmTemp n)) = some (.hbmTemp n) := by
  show regAt (0x600300 + 8 * n) = _
  rw [regAt_mem (by omega) (by omega) (by omega), regMem_arrays (by omega) (by omega), slotIn_out (.inr (by omega)),
    slotIn_out (.inr (by omega)), slotIn_out (.inr (by omega)), slotIn_at h]
  rfl
theorem regAt_qlive (h : n < 4) : regAt (Reg.offset (.qlive n)) = some (.qlive n) := by
  show regAt (0x600400 + 8 * n) = _
  rw [regAt_mem (by omega) (by omega) (by omega), regMem_arrays (by omega) (by omega), slotIn_out (.inr (by omega)),
    slotIn_out (.inr (by omega)), slotIn_out (.inr (by omega)), slotIn_out (.inr (by omega)), slotIn_at h]
  rfl
theorem regAt_blive (h : n < 16) : regAt (Reg.offset (.blive n)) = some (.blive n) := by
  show regAt (0x600500 + 8 * n) = _
  rw [regAt_mem (by omega) (by omega) (by omega), regMem_arrays (by omega) (by omega), slotIn_out (.inr (by omega)),
    slotIn_out (.inr (by omega)), slotIn_out (.inr (by omega)), slotIn_out (.inr (by omega)), slotIn_out (.inr (by omega)), slotIn_at h]
  rfl
theorem regAt_ureg (h : n < 256) : regAt (Reg.offset (.ureg n)) = some (.ureg n) := by
  show regAt (0x602000 + 8 * n) = _
  rw [regAt_mem (by omega) (by omega) (by omega), regMem_arrays (by omega) (by omega), slotIn_out (.inr (by omega)),
    slotIn_out (.inr (by omega)), slotIn_out (.inr (by omega)), slotIn_out (.inr (by omega)), slotIn_out (.inr (by omega)),
    slotIn_out (.inr (by omega)), slotIn_at h]
  rfl

/-- The windows of the reducer. -/
theorem regMem_window {o : Nat} (hp : p < 4) (hn : n < 16) (ho : o < 0x20) : regMem (0x601000 + p * 0x400 + n * 0x20 + o) =
    if o = 0 then some (.rwinBase p n) else if o = 8 then some (.rwinHold p n) else if o = 0x10 then some (.rwinSize p n) else none := by
  have hd : (0x601000 + p * 0x400 + n * 0x20 + o - 0x601000) / 0x400 = p := by omega
  have hm : (0x601000 + p * 0x400 + n * 0x20 + o) % 0x400 / 0x20 = n := by omega
  have ho' : (0x601000 + p * 0x400 + n * 0x20 + o) % 0x20 = o := by omega
  rw [regMem, if_neg (by omega), if_pos (by omega), hd, hm, ho']
  exact if_pos (by omega)

theorem regAt_rwinBase (hp : p < 4) (h : n < 16) : regAt (Reg.offset (.rwinBase p n)) = some (.rwinBase p n) := by
  show regAt (0x601000 + p * 0x400 + n * 0x20 + 0) = _
  rw [regAt_mem (by omega) (by omega) (by omega), regMem_window hp h (by decide)]
  rfl
theorem regAt_rwinHold (hp : p < 4) (h : n < 16) : regAt (Reg.offset (.rwinHold p n)) = some (.rwinHold p n) := by
  have he : Reg.offset (.rwinHold p n) = 0x601000 + p * 0x400 + n * 0x20 + 8 := by show 0x601008 + p * 0x400 + n * 0x20 = _; omega
  rw [he, regAt_mem (by omega) (by omega) (by omega), regMem_window hp h (by decide)]
  rfl
theorem regAt_rwinSize (hp : p < 4) (h : n < 16) : regAt (Reg.offset (.rwinSize p n)) = some (.rwinSize p n) := by
  have he : Reg.offset (.rwinSize p n) = 0x601000 + p * 0x400 + n * 0x20 + 0x10 := by show 0x601010 + p * 0x400 + n * 0x20 = _; omega
  rw [he, regAt_mem (by omega) (by omega) (by omega), regMem_window hp h (by decide)]
  rfl

/-- The arrays of the link part, one after another. -/
theorem regLnk_arrays {off : Nat} (h1 : off ≠ 0x800000) (h2 : off ≠ 0x800008) (h3 : off ≠ 0x800800) (h4 : off ≠ 0x800808)
    (h5 : off ≠ 0x800810) (h6 : off ≠ 0x800818) : regLnk off =
    (((slotIn off 0x800100 16).map .lnkPhy).or <| ((slotIn off 0x800200 16).map .lnkPort).or <|
    ((slotIn off 0x800300 4).map .lnkImport).or <| ((slotIn off 0x800400 16).map .feccor).or <|
    ((slotIn off 0x800500 16).map .retry).or <| ((slotIn off 0x800600 16).map .unreach).or <|
    ((slotIn off 0x801000 256).map .mcg).or <| ((slotIn off 0x810000 8192).map .detour)) := by
  rw [regLnk, if_neg h1, if_neg h2, if_neg h3, if_neg h4, if_neg h5, if_neg h6]

theorem regAt_lnkPhy (h : n < 16) : regAt (Reg.offset (.lnkPhy n)) = some (.lnkPhy n) := by
  show regAt (0x800100 + 8 * n) = _
  rw [regAt_lnk (by omega) (by omega) (by omega),
    regLnk_arrays (by omega) (by omega) (by omega) (by omega) (by omega) (by omega)]
  rw [slotIn_at h]
  rfl
theorem regAt_lnkPort (h : n < 16) : regAt (Reg.offset (.lnkPort n)) = some (.lnkPort n) := by
  show regAt (0x800200 + 8 * n) = _
  rw [regAt_lnk (by omega) (by omega) (by omega),
    regLnk_arrays (by omega) (by omega) (by omega) (by omega) (by omega) (by omega)]
  iterate 1 rw [slotIn_out (.inr (by omega))]
  rw [slotIn_at h]
  rfl
theorem regAt_lnkImport (h : n < 4) : regAt (Reg.offset (.lnkImport n)) = some (.lnkImport n) := by
  show regAt (0x800300 + 8 * n) = _
  rw [regAt_lnk (by omega) (by omega) (by omega),
    regLnk_arrays (by omega) (by omega) (by omega) (by omega) (by omega) (by omega)]
  iterate 2 rw [slotIn_out (.inr (by omega))]
  rw [slotIn_at h]
  rfl
theorem regAt_feccor (h : n < 16) : regAt (Reg.offset (.feccor n)) = some (.feccor n) := by
  show regAt (0x800400 + 8 * n) = _
  rw [regAt_lnk (by omega) (by omega) (by omega),
    regLnk_arrays (by omega) (by omega) (by omega) (by omega) (by omega) (by omega)]
  iterate 3 rw [slotIn_out (.inr (by omega))]
  rw [slotIn_at h]
  rfl
theorem regAt_retry (h : n < 16) : regAt (Reg.offset (.retry n)) = some (.retry n) := by
  show regAt (0x800500 + 8 * n) = _
  rw [regAt_lnk (by omega) (by omega) (by omega),
    regLnk_arrays (by omega) (by omega) (by omega) (by omega) (by omega) (by omega)]
  iterate 4 rw [slotIn_out (.inr (by omega))]
  rw [slotIn_at h]
  rfl
theorem regAt_unreach (h : n < 16) : regAt (Reg.offset (.unreach n)) = some (.unreach n) := by
  show regAt (0x800600 + 8 * n) = _
  rw [regAt_lnk (by omega) (by omega) (by omega),
    regLnk_arrays (by omega) (by omega) (by omega) (by omega) (by omega) (by omega)]
  iterate 5 rw [slotIn_out (.inr (by omega))]
  rw [slotIn_at h]
  rfl
theorem regAt_mcg (h : n < 256) : regAt (Reg.offset (.mcg n)) = some (.mcg n) := by
  show regAt (0x801000 + 8 * n) = _
  rw [regAt_lnk (by omega) (by omega) (by omega),
    regLnk_arrays (by omega) (by omega) (by omega) (by omega) (by omega) (by omega)]
  iterate 6 rw [slotIn_out (.inr (by omega))]
  rw [slotIn_at h]
  rfl
theorem regAt_detour (h : n < 8192) : regAt (Reg.offset (.detour n)) = some (.detour n) := by
  show regAt (0x810000 + 8 * n) = _
  rw [regAt_lnk (by omega) (by omega) (by omega),
    regLnk_arrays (by omega) (by omega) (by omega) (by omega) (by omega) (by omega)]
  iterate 7 rw [slotIn_out (.inr (by omega))]
  rw [slotIn_at h]
  rfl

theorem regAt_cdcCfg (h : n < 4) : regAt (Reg.offset (.cdcCfg n)) = some (.cdcCfg n) := by
  show regAt (0xA00000 + 8 * n) = _
  rw [regAt_cdc (by omega) (by omega) (by omega), slotIn_at h]
  rfl
theorem regAt_cdcCore (h : n < 8) : regAt (Reg.offset (.cdcCore n)) = some (.cdcCore n) := by
  show regAt (0xA00100 + 8 * n) = _
  rw [regAt_cdc (by omega) (by omega) (by omega), slotIn_out (.inr (by omega)), slotIn_at h]
  rfl

/-- A register of a reel. -/
theorem regAt_reelReg {o off : Nat} {r : Reg} (hp : p < 4) (ho : o < 0x100) (h8 : o % 8 = 0) (he : off = 0xC00000 + p * 0x100 + o)
    (hr : regReel p o = some r) : regAt off = some r := by
  rw [he, regAt_reel_at hp ho h8, hr]

theorem regAt_qSpin (hp : p < 4) (h : n < 16) : regAt (Reg.offset (.qSpin p n)) = some (.qSpin p n) := by
  show regAt (qOff p + 0x100 + 8 * n) = _
  rw [Nat.add_assoc, regAt_q hp (by omega) (by omega), regQ, if_neg (by omega), if_neg (by omega), slotIn_at h]
  rfl
theorem regAt_qPc (hp : p < 4) (h : n < 96) : regAt (Reg.offset (.qPc p n)) = some (.qPc p n) := by
  show regAt (qOff p + 0x1000 + 8 * n) = _
  rw [Nat.add_assoc, regAt_q hp (by omega) (by omega), regQ, if_neg (by omega), if_neg (by omega), slotIn_out (.inr (by omega)), slotIn_at h]
  rfl

end

/-- The slot of every register that exists is that register's. -/
theorem regAt_offset (r : Reg) (h : r.exists' = true) : regAt r.offset = some r := by
  cases r with
  | glbId | glbStatus | glbRetireReq | admSqBase | admSqCtl | admCqBase | admCqCtl | admDb | trdStroke | trdIndex
  | trdTick | trdSync | secStatus | secSvn | secCtr | secAuthfail | attAddr | attCtl | rcvAddr | rcvLen
  | rcvCtl | evtBase | evtCtl | evtHead | evtTail | evtLost | usize | lnkId | lnkCfg | plyCfg
  | plyStat | plyAck | plyBacklog => rfl
  | glbRetire n => exact regAt_glbRetire (of_decide_eq_true h)
  | bar4Win n => exact regAt_bar4Win (of_decide_eq_true h)
  | rmap n => exact regAt_rmap (of_decide_eq_true h)
  | secUid n => exact regAt_secUid (of_decide_eq_true h)
  | attNonce n => exact regAt_attNonce (of_decide_eq_true h)
  | poolHbm n => exact regAt_poolHbm (of_decide_eq_true h)
  | poolBt n => exact regAt_poolBt (of_decide_eq_true h)
  | memShare n => exact regAt_memShare (of_decide_eq_true h)
  | hbmTemp n => exact regAt_hbmTemp (of_decide_eq_true h)
  | qlive n => exact regAt_qlive (of_decide_eq_true h)
  | blive n => exact regAt_blive (of_decide_eq_true h)
  | ureg n => exact regAt_ureg (of_decide_eq_true h)
  | lnkPhy n => exact regAt_lnkPhy (of_decide_eq_true h)
  | lnkPort n => exact regAt_lnkPort (of_decide_eq_true h)
  | lnkImport n => exact regAt_lnkImport (of_decide_eq_true h)
  | feccor n => exact regAt_feccor (of_decide_eq_true h)
  | retry n => exact regAt_retry (of_decide_eq_true h)
  | unreach n => exact regAt_unreach (of_decide_eq_true h)
  | mcg n => exact regAt_mcg (of_decide_eq_true h)
  | detour n => exact regAt_detour (of_decide_eq_true h)
  | cdcCfg n => exact regAt_cdcCfg (of_decide_eq_true h)
  | cdcCore n => exact regAt_cdcCore (of_decide_eq_true h)
  | ce p n =>
    obtain ⟨hp, hn⟩ := Bool.and_eq_true_iff.mp h
    exact regAt_ce (of_decide_eq_true hp) (of_decide_eq_true hn)
  | prtSem p n =>
    obtain ⟨hp, hn⟩ := Bool.and_eq_true_iff.mp h
    exact regAt_prtSem (of_decide_eq_true hp) (of_decide_eq_true hn)
  | stgEaddr p n =>
    obtain ⟨hp, hn⟩ := Bool.and_eq_true_iff.mp h
    exact regAt_stgEaddr (of_decide_eq_true hp) (of_decide_eq_true hn)
  | stgEval p n =>
    obtain ⟨hp, hn⟩ := Bool.and_eq_true_iff.mp h
    exact regAt_stgEval (of_decide_eq_true hp) (of_decide_eq_true hn)
  | cnt p n =>
    obtain ⟨hp, hn⟩ := Bool.and_eq_true_iff.mp h
    exact regAt_cnt (of_decide_eq_true hp) (of_decide_eq_true hn)
  | rwinBase p n =>
    obtain ⟨hp, hn⟩ := Bool.and_eq_true_iff.mp h
    exact regAt_rwinBase (of_decide_eq_true hp) (of_decide_eq_true hn)
  | rwinHold p n =>
    obtain ⟨hp, hn⟩ := Bool.and_eq_true_iff.mp h
    exact regAt_rwinHold (of_decide_eq_true hp) (of_decide_eq_true hn)
  | rwinSize p n =>
    obtain ⟨hp, hn⟩ := Bool.and_eq_true_iff.mp h
    exact regAt_rwinSize (of_decide_eq_true hp) (of_decide_eq_true hn)
  | qSpin p n =>
    obtain ⟨hp, hn⟩ := Bool.and_eq_true_iff.mp h
    exact regAt_qSpin (of_decide_eq_true hp) (of_decide_eq_true hn)
  | qPc p n =>
    obtain ⟨hp, hn⟩ := Bool.and_eq_true_iff.mp h
    exact regAt_qPc (of_decide_eq_true hp) (of_decide_eq_true hn)
  | prtComp p => exact regAt_prt_first (of_decide_eq_true h)
  | prtLease p => exact regAt_prt (o := 0x8) (of_decide_eq_true h) (by decide) rfl
  | prtSave p => exact regAt_prt (o := 0x10) (of_decide_eq_true h) (by decide) rfl
  | prtSpindles p => exact regAt_prt (o := 0x18) (of_decide_eq_true h) (by decide) rfl
  | prtSplpool p => exact regAt_prt (o := 0x20) (of_decide_eq_true h) (by decide) rfl
  | numpol p => exact regAt_ctx_first (of_decide_eq_true h)
  | qhpol p => exact regAt_ctx (o := 0x8) (of_decide_eq_true h) (by decide) rfl
  | timepol p => exact regAt_ctx (o := 0x10) (of_decide_eq_true h) (by decide) rfl
  | tstat p => exact regAt_ctx (o := 0x18) (of_decide_eq_true h) (by decide) rfl
  | detstat p => exact regAt_ctx (o := 0x20) (of_decide_eq_true h) (by decide) rfl
  | htab p => exact regAt_ctx (o := 0x28) (of_decide_eq_true h) (by decide) rfl
  | lkcred p => exact regAt_ctx (o := 0x30) (of_decide_eq_true h) (by decide) rfl
  | ctxHost p => exact regAt_ctx (o := 0x38) (of_decide_eq_true h) (by decide) rfl
  | sqBase p => exact regAt_ctx (o := 0x40) (of_decide_eq_true h) (by decide) rfl
  | sqCtl p => exact regAt_ctx (o := 0x48) (of_decide_eq_true h) (by decide) rfl
  | cqBase p => exact regAt_ctx (o := 0x50) (of_decide_eq_true h) (by decide) rfl
  | cqCtl p => exact regAt_ctx (o := 0x58) (of_decide_eq_true h) (by decide) rfl
  | ctxState p => exact regAt_ctx (o := 0x60) (of_decide_eq_true h) (by decide) rfl
  | stgClear p => exact regAt_stg (o := 0x1000) (of_decide_eq_true h) (by decide) rfl
  | stgCheck p => exact regAt_stg (o := 0x1008) (of_decide_eq_true h) (by decide) rfl
  | stgApply p => exact regAt_stg (o := 0x1010) (of_decide_eq_true h) (by decide) rfl
  | stgCancel p => exact regAt_stg (o := 0x1018) (of_decide_eq_true h) (by decide) rfl
  | stgStatus p => exact regAt_stg (o := 0x1020) (of_decide_eq_true h) (by decide) rfl
  | reelCtl p => exact regAt_reelReg (o := 0x0) (of_decide_eq_true h) (by decide) rfl (by show 0xc00000 + p * 0x100 = _; omega) rfl
  | reelRing p => exact regAt_reelReg (o := 0x8) (of_decide_eq_true h) (by decide) rfl (by show 0xc00008 + p * 0x100 = _; omega) rfl
  | reelHead p => exact regAt_reelReg (o := 0x10) (of_decide_eq_true h) (by decide) rfl (by show 0xc00010 + p * 0x100 = _; omega) rfl
  | reelStart p => exact regAt_reelReg (o := 0x18) (of_decide_eq_true h) (by decide) rfl (by show 0xc00018 + p * 0x100 = _; omega) rfl
  | reelLost p => exact regAt_reelReg (o := 0x20) (of_decide_eq_true h) (by decide) rfl (by show 0xc00020 + p * 0x100 = _; omega) rfl
  | reelStat p => exact regAt_reelReg (o := 0x28) (of_decide_eq_true h) (by decide) rfl (by show 0xc00028 + p * 0x100 = _; omega) rfl
  | qStat p => exact regAt_q_first (of_decide_eq_true h)
  | qClk p => exact regAt_q (o := 0x8) (of_decide_eq_true h) (by decide) rfl

end Sys2Proof.Machine

namespace Sys2Proof.Machine

/-! ### Every slot that answers is that of a register that exists, at its own offset -/

/-- A register that exists is at an offset. -/
def IsAt (r : Reg) (off : Nat) : Prop := r.offset = off ∧ r.exists' = true

theorem of_ite {c : Prop} [Decidable c] {a b : Option Reg} {r : Reg} {P : Prop} (h : (if c then a else b) = some r)
    (ht : c → a = some r → P) (he : ¬ c → b = some r → P) : P := by
  by_cases hc : c
  · exact ht hc ((if_pos hc).symm.trans h)
  · exact he hc ((if_neg hc).symm.trans h)

/-- A choice between one register at its offset and the rest of a part. -/
theorem isAt_ite {off k : Nat} {r x : Reg} {rest : Option Reg} (h : (if off = k then some x else rest) = some r) (hx : IsAt x k)
    (hrest : rest = some r → IsAt r off) : IsAt r off :=
  of_ite h (fun hk h => hk ▸ Option.some.inj h ▸ hx) fun _ => hrest

theorem isAt_or {off : Nat} {r : Reg} {a b : Option Reg} (h : a.or b = some r) (ha : a = some r → IsAt r off)
    (hb : b = some r → IsAt r off) : IsAt r off := (or_some h).elim ha hb

section
variable {off : Nat} {r : Reg} (h8 : off % 8 = 0)
include h8

/-- A slot of an array whose registers exist at the array's slots. -/
theorem isAt_slot {base n : Nat} {f : Nat → Reg} (hb : base % 8 = 0) (hf : ∀ i, i < n → IsAt (f i) (base + 8 * i))
    (h : (slotIn off base n).map f = some r) : IsAt r off := by
  obtain ⟨i, ho, hi, rfl⟩ := slot_map_some h8 hb h
  exact ho ▸ hf i hi

theorem isAt_match {base n : Nat} {f : Nat → Reg} {rest : Option Reg} (hb : base % 8 = 0)
    (hf : ∀ i, i < n → IsAt (f i) (base + 8 * i))
    (h : (match slotIn off base n with | some i => some (f i) | none => rest) = some r) (hrest : rest = some r → IsAt r off) : IsAt r off := by
  cases hs : slotIn off base n with
  | none => rw [hs] at h; exact hrest h
  | some i => exact isAt_slot h8 hb hf (f := f) (by rw [hs]; rw [hs] at h; exact h)

theorem regGlb_isAt (h : regGlb off = some r) : IsAt r off := by
  refine isAt_ite h ⟨rfl, rfl⟩ fun h => isAt_ite h ⟨rfl, rfl⟩ fun h => isAt_ite h ⟨rfl, rfl⟩ fun h =>
    isAt_match (f := .glbRetire) h8 rfl (fun _ hi => ⟨rfl, decide_eq_true hi⟩) h fun h => isAt_match (f := .bar4Win) h8 rfl (fun _ hi => ⟨rfl, decide_eq_true hi⟩) h fun h =>
    isAt_ite h ⟨rfl, rfl⟩ fun h => isAt_ite h ⟨rfl, rfl⟩ fun h => isAt_ite h ⟨rfl, rfl⟩ fun h => isAt_ite h ⟨rfl, rfl⟩ fun h =>
    isAt_ite h ⟨rfl, rfl⟩ fun h => isAt_match (f := .rmap) h8 rfl (fun _ hi => ⟨rfl, decide_eq_true hi⟩) h fun h => ?_
  split at h
  · rename_i hr
    split at h
    · rename_i hn
      cases h
      refine ⟨?_, Bool.and_eq_true_iff.mpr ⟨decide_eq_true (by omega), decide_eq_true hn⟩⟩
      show 0x10000 + (off - 0x10000) / 0x1000 * 0x1000 + 8 * (off % 0x1000 / 8) = off
      omega
    · cases h
  · cases h

theorem regSecEvt_isAt (h : regSecEvt off = some r) : IsAt r off := by
  refine isAt_ite h ⟨rfl, rfl⟩ fun h => isAt_ite h ⟨rfl, rfl⟩ fun h => isAt_ite h ⟨rfl, rfl⟩ fun h => isAt_ite h ⟨rfl, rfl⟩ fun h =>
    isAt_ite h ⟨rfl, rfl⟩ fun h => isAt_ite h ⟨rfl, rfl⟩ fun h => isAt_ite h ⟨rfl, rfl⟩ fun h => isAt_ite h ⟨rfl, rfl⟩ fun h =>
    isAt_ite h ⟨rfl, rfl⟩ fun h => isAt_ite h ⟨rfl, rfl⟩ fun h => isAt_ite h ⟨rfl, rfl⟩ fun h => isAt_ite h ⟨rfl, rfl⟩ fun h =>
    isAt_ite h ⟨rfl, rfl⟩ fun h => isAt_ite h ⟨rfl, rfl⟩ fun h => isAt_match (f := .secUid) h8 rfl (fun _ hi => ⟨rfl, decide_eq_true hi⟩) h fun h =>
    isAt_match (f := .attNonce) h8 rfl (fun _ hi => ⟨rfl, decide_eq_true hi⟩) h fun h => ?_
  split at h
  · rename_i hr
    cases h
    refine ⟨?_, Bool.and_eq_true_iff.mpr ⟨decide_eq_true (by omega), decide_eq_true hr.2.2⟩⟩
    show 0x510000 + (off - 0x510000) / 0x200 * 0x200 + 8 * (off % 0x200 / 8) = off
    omega
  · cases h

/-- The registers of a window of the reducer. -/
theorem window_isAt {p n : Nat} (hp : p < 4) (hn : n < 16) (ho : off = 0x601000 + p * 0x400 + n * 0x20 + off % 0x20)
    (h : (if off % 0x20 = 0 then some (Reg.rwinBase p n) else if off % 0x20 = 8 then some (.rwinHold p n)
      else if off % 0x20 = 0x10 then some (.rwinSize p n) else none) = some r) : IsAt r off := by
  have hex : (decide (p < 4) && decide (n < 16)) = true := Bool.and_eq_true_iff.mpr ⟨decide_eq_true hp, decide_eq_true hn⟩
  split at h
  · cases h
    refine ⟨?_, hex⟩
    show 0x601000 + p * 0x400 + n * 0x20 = off
    omega
  split at h
  · cases h
    refine ⟨?_, hex⟩
    show 0x601008 + p * 0x400 + n * 0x20 = off
    omega
  split at h
  · cases h
    refine ⟨?_, hex⟩
    show 0x601010 + p * 0x400 + n * 0x20 = off
    omega
  · cases h

theorem regMem_isAt (h : regMem off = some r) : IsAt r off := by
  refine isAt_ite h ⟨rfl, rfl⟩ fun h => ?_
  split at h
  · rename_i hw
    dsimp only at h
    split at h
    · rename_i hlow
      exact window_isAt h8 (by omega) (by omega) (by omega) h
    · cases h
  · exact isAt_or h (isAt_slot h8 rfl fun _ hi => ⟨rfl, decide_eq_true hi⟩) fun h =>
      isAt_or h (isAt_slot h8 rfl fun _ hi => ⟨rfl, decide_eq_true hi⟩) fun h =>
      isAt_or h (isAt_slot h8 rfl fun _ hi => ⟨rfl, decide_eq_true hi⟩) fun h =>
      isAt_or h (isAt_slot h8 rfl fun _ hi => ⟨rfl, decide_eq_true hi⟩) fun h =>
      isAt_or h (isAt_slot h8 rfl fun _ hi => ⟨rfl, decide_eq_true hi⟩) fun h =>
      isAt_or h (isAt_slot h8 rfl fun _ hi => ⟨rfl, decide_eq_true hi⟩) (isAt_slot h8 rfl fun _ hi => ⟨rfl, decide_eq_true hi⟩)

theorem regLnk_isAt (h : regLnk off = some r) : IsAt r off :=
  isAt_ite h ⟨rfl, rfl⟩ fun h => isAt_ite h ⟨rfl, rfl⟩ fun h => isAt_ite h ⟨rfl, rfl⟩ fun h => isAt_ite h ⟨rfl, rfl⟩ fun h =>
    isAt_ite h ⟨rfl, rfl⟩ fun h => isAt_ite h ⟨rfl, rfl⟩ fun h =>
    isAt_or h (isAt_slot h8 rfl fun _ hi => ⟨rfl, decide_eq_true hi⟩) fun h =>
    isAt_or h (isAt_slot h8 rfl fun _ hi => ⟨rfl, decide_eq_true hi⟩) fun h =>
    isAt_or h (isAt_slot h8 rfl fun _ hi => ⟨rfl, decide_eq_true hi⟩) fun h =>
    isAt_or h (isAt_slot h8 rfl fun _ hi => ⟨rfl, decide_eq_true hi⟩) fun h =>
    isAt_or h (isAt_slot h8 rfl fun _ hi => ⟨rfl, decide_eq_true hi⟩) fun h =>
    isAt_or h (isAt_slot h8 rfl fun _ hi => ⟨rfl, decide_eq_true hi⟩) fun h =>
    isAt_or h (isAt_slot h8 rfl fun _ hi => ⟨rfl, decide_eq_true hi⟩) (isAt_slot h8 rfl fun _ hi => ⟨rfl, decide_eq_true hi⟩)

end

/-! The parts that repeat: a partition's, a context's, a bank's, a reel's and a quarter's registers. -/

section
variable {p o : Nat} {r : Reg}

/-- A register that exists is at an offset of a part. -/
def IsIn (base : Nat) (r : Reg) (o : Nat) : Prop := r.offset = base + o ∧ r.exists' = true

theorem isIn_ite {base k : Nat} {x : Reg} {rest : Option Reg} (h : (if o = k then some x else rest) = some r) (hx : IsIn base x k)
    (hrest : rest = some r → IsIn base r o) : IsIn base r o :=
  of_ite h (fun hk h => hk ▸ Option.some.inj h ▸ hx) fun _ => hrest

theorem isIn_first {base : Nat} {x : Reg} (h : x.offset = base) (hx : x.exists' = true) : IsIn base x 0 := ⟨h.trans (Nat.add_zero _).symm, hx⟩

theorem regPrt_isIn (hp : p < 4) (h8 : o % 8 = 0) (h : regPrt p o = some r) : IsIn (prtOff p) r o := by
  refine isIn_ite h (isIn_first rfl (decide_eq_true hp)) fun h => isIn_ite h ⟨rfl, decide_eq_true hp⟩ fun h =>
    isIn_ite h ⟨rfl, decide_eq_true hp⟩ fun h => isIn_ite h ⟨rfl, decide_eq_true hp⟩ fun h => isIn_ite h ⟨rfl, decide_eq_true hp⟩ fun h => ?_
  obtain ⟨n, rfl, hn, rfl⟩ := slot_map_some h8 rfl h
  exact ⟨Nat.add_assoc _ _ _, Bool.and_eq_true_iff.mpr ⟨decide_eq_true hp, decide_eq_true hn⟩⟩

theorem regCtx_isIn (hp : p < 64) (h : regCtx p o = some r) : IsIn (ctxOff p) r o :=
  isIn_ite h (isIn_first rfl (decide_eq_true hp)) fun h => isIn_ite h ⟨rfl, decide_eq_true hp⟩ fun h =>
    isIn_ite h ⟨rfl, decide_eq_true hp⟩ fun h => isIn_ite h ⟨rfl, decide_eq_true hp⟩ fun h => isIn_ite h ⟨rfl, decide_eq_true hp⟩ fun h =>
    isIn_ite h ⟨rfl, decide_eq_true hp⟩ fun h => isIn_ite h ⟨rfl, decide_eq_true hp⟩ fun h => isIn_ite h ⟨rfl, decide_eq_true hp⟩ fun h =>
    isIn_ite h ⟨rfl, decide_eq_true hp⟩ fun h => isIn_ite h ⟨rfl, decide_eq_true hp⟩ fun h => isIn_ite h ⟨rfl, decide_eq_true hp⟩ fun h =>
    isIn_ite h ⟨rfl, decide_eq_true hp⟩ fun h => isIn_ite h ⟨rfl, decide_eq_true hp⟩ fun h => nomatch h

theorem regStg_isIn (hp : p < 5) (h8 : o % 8 = 0) (h : regStg p o = some r) : IsIn (stgOff p) r o := by
  unfold regStg at h
  split at h
  · rename_i ho
    have hex : (decide (p < 5) && decide (o / 16 < 256)) = true :=
      Bool.and_eq_true_iff.mpr ⟨decide_eq_true hp, decide_eq_true (by omega)⟩
    split at h
    · cases h
      refine ⟨?_, hex⟩
      show stgOff p + 16 * (o / 16) = stgOff p + o
      omega
    · cases h
      refine ⟨?_, hex⟩
      show stgOff p + 8 + 16 * (o / 16) = stgOff p + o
      omega
  · exact isIn_ite h ⟨rfl, decide_eq_true hp⟩ fun h => isIn_ite h ⟨rfl, decide_eq_true hp⟩ fun h => isIn_ite h ⟨rfl, decide_eq_true hp⟩ fun h =>
      isIn_ite h ⟨rfl, decide_eq_true hp⟩ fun h => isIn_ite h ⟨rfl, decide_eq_true hp⟩ fun h => nomatch h

theorem regReel_isIn (hp : p < 4) (h : regReel p o = some r) : IsIn (0xC00000 + p * 0x100) r o :=
  isIn_ite h (isIn_first rfl (decide_eq_true hp)) fun h =>
    isIn_ite h ⟨by show 0xC00008 + p * 0x100 = _; omega, decide_eq_true hp⟩ fun h =>
    isIn_ite h ⟨by show 0xC00010 + p * 0x100 = _; omega, decide_eq_true hp⟩ fun h =>
    isIn_ite h ⟨by show 0xC00018 + p * 0x100 = _; omega, decide_eq_true hp⟩ fun h =>
    isIn_ite h ⟨by show 0xC00020 + p * 0x100 = _; omega, decide_eq_true hp⟩ fun h =>
    isIn_ite h ⟨by show 0xC00028 + p * 0x100 = _; omega, decide_eq_true hp⟩ fun h => nomatch h

theorem regQ_isIn (hp : p < 4) (h8 : o % 8 = 0) (h : regQ p o = some r) : IsIn (qOff p) r o := by
  refine isIn_ite h (isIn_first rfl (decide_eq_true hp)) fun h => isIn_ite h ⟨rfl, decide_eq_true hp⟩ fun h => ?_
  rcases or_some h with h | h
  · obtain ⟨n, rfl, hn, rfl⟩ := slot_map_some h8 rfl h
    exact ⟨Nat.add_assoc _ _ _, Bool.and_eq_true_iff.mpr ⟨decide_eq_true hp, decide_eq_true hn⟩⟩
  · obtain ⟨n, rfl, hn, rfl⟩ := slot_map_some h8 rfl h
    exact ⟨Nat.add_assoc _ _ _, Bool.and_eq_true_iff.mpr ⟨decide_eq_true hp, decide_eq_true hn⟩⟩

end

/-- Every slot that answers is that of a register that exists, at its own offset. -/
theorem regAt_isAt {off : Nat} {r : Reg} (h : regAt off = some r) : IsAt r off := by
  have part : ∀ {base o : Nat}, IsIn base r o → base + o = off → IsAt r off := fun hr ho => ⟨hr.1.trans ho, hr.2⟩
  refine of_ite h (fun _ h => nomatch h) fun h8 h => ?_
  rw [not_not] at h8
  refine of_ite h (fun _ => regGlb_isAt h8) fun _ h => isAt_ite h ⟨rfl, rfl⟩ fun h => isAt_ite h ⟨rfl, rfl⟩ fun h =>
    isAt_ite h ⟨rfl, rfl⟩ fun h => isAt_ite h ⟨rfl, rfl⟩ fun h => of_ite h (fun _ h => nomatch h) fun h1 h =>
    of_ite h (fun h2 h => part (regPrt_isIn (by omega) (by omega) h) (by unfold prtOff; omega)) fun h2 h =>
    of_ite h (fun h3 h => part (regCtx_isIn (by omega) h) (by unfold ctxOff; omega)) fun h3 h =>
    of_ite h (fun _ h => nomatch h) fun h4 h =>
    of_ite h (fun h5 h => part (regStg_isIn (by omega) (by omega) h) (by unfold stgOff; omega)) fun _ h =>
    of_ite h (fun _ h => nomatch h) fun _ h => of_ite h (fun _ => regSecEvt_isAt h8) fun _ h => of_ite h (fun _ => regMem_isAt h8) fun _ h =>
    of_ite h (fun _ => regLnk_isAt h8) fun _ h => of_ite h (fun _ h => isAt_or h (isAt_slot h8 rfl fun _ hi => ⟨rfl, decide_eq_true hi⟩)
      (isAt_slot h8 rfl fun _ hi => ⟨rfl, decide_eq_true hi⟩)) fun h6 h =>
    of_ite h (fun _ h => of_ite h (fun _ h => nomatch h) fun h7 h => part (regReel_isIn (by omega) h) (by omega)) fun h7 h =>
    of_ite h (fun h8' h => part (regQ_isIn (by omega) (by omega) h) (by unfold qOff; omega)) fun _ h => nomatch h

/-- Settles O57: headers, messages and flits read back, and the register map agrees with its reading. -/
theorem roundTrips : Obligations.RoundTrips := by
  unfold Obligations.RoundTrips
  exact ⟨headerMsg_hdr, msgOf_msgBytes, fun m cls => ⟨flitsOf_payloads m cls, fun x hx => flitsOf_each m cls hx⟩,
    fun seq ack x hx => ⟨flitBytes_length seq ack hx, flitBytes_good seq ack hx, flitParts_flitBytes seq ack hx⟩,
    regAt_offset, fun off r h => regAt_isAt h⟩

end Sys2Proof.Machine

namespace Sys2Proof.Machine

/-! ## An instruction in its engine: how `ENGINE_COMPLETE` comes to its unit (R221, R275) -/

/-- The instruction is in an engine, its context runs there, and where it is a filler's it may have the engine. -/
structure InEngine (s : State) (o : EngOp) : Prop where
  power : powered s = true
  alive : s.failed = false
  works : working s o.t = true
  found : s.ops.find? (fun x => x.id == o.id && x.t == o.t) = some o
  filler : (getC s o.t.ctx).filler = true → fillerMay s o = true

section
variable {s s' : State} {o : EngOp} {f : PFault}

theorem runUnit_runOp (h : InEngine s o) (ht : o.tag ≠ .mma) : runUnit s o = runOp s o := by
  unfold runUnit
  split
  · rename_i hf
    rw [bind_of_ok (can_ok _ _ (h.filler hf)), if_neg (by simpa using ht)]
  · rfl

theorem exec_engineComplete (h : InEngine s o) : exec (.engineComplete o.t o.id) s =
    runEvent (sramClean s o >>= fun _ => runUnit s o) o.t o.pc := by
  show execEngineComplete o.t o.id s = _
  unfold execEngineComplete
  dsimp only
  rw [bind_of_ok (can_ok _ _ (by simp [h.power, h.alive, h.works])), h.found]
  rfl

theorem engine_goes (h : InEngine s o) (hc : sramClean s o = .ok ()) (hr : runUnit s o = .ok s') :
    exec (.engineComplete o.t o.id) s = .next s' :=
  (exec_engineComplete h).trans (runEvent_of_ok ((bind_of_ok hc _).trans hr))

theorem engine_faults (h : InEngine s o) (hc : sramClean s o = .ok ()) (hr : runUnit s o = .error (.fault s' f)) :
    exec (.engineComplete o.t o.id) s = .next (progFault s' o.t o.pc f) :=
  (exec_engineComplete h).trans (runEvent_of_fault ((bind_of_ok hc _).trans hr))

theorem engine_hurt (h : InEngine s o) (hc : sramClean s o = .error (.fault s f)) :
    exec (.engineComplete o.t o.id) s = .next (progFault s o.t o.pc f) :=
  (exec_engineComplete h).trans (runEvent_of_fault (bind_of_error hc _))

theorem op_goes (h : InEngine s o) (hc : sramClean s o = .ok ()) (ht : o.tag ≠ .mma) (hr : runOp s o = .ok s') :
    exec (.engineComplete o.t o.id) s = .next s' :=
  engine_goes h hc ((runUnit_runOp h ht).trans hr)

theorem op_faults (h : InEngine s o) (hc : sramClean s o = .ok ()) (ht : o.tag ≠ .mma)
    (hr : runOp s o = .error (.fault s' f)) : exec (.engineComplete o.t o.id) s = .next (progFault s' o.t o.pc f) :=
  engine_faults h hc ((runUnit_runOp h ht).trans hr)

theorem unitReady_ok (hm : mayRun s o = true) (hcl : claimsReady s o = true) : unitReady s o = .ok () :=
  (bind_of_ok (can_ok _ _ hm) _).trans (can_ok _ _ hcl)

/-- An instruction of the lanes ends with the rows that it puts. -/
theorem putRows_finish {d : Vop} {k : Cnt} {rows rows' : List (List (Nat × Cnt))} (hr : rows = rows')
    {s1 : State} (hp : putRowsWith s o.t d k rows' = .ok s1) :
    (putRowsWith s o.t d k rows >>= fun s1 => Except.ok (finishOp s1 o d.rows)) = (.ok (finishOp s1 o d.rows) : Ex State) := by
  rw [hr, bind_of_ok hp]

/-! ### Zips with a row that repeats one value -/

theorem zip_zip_replicate_map {α β γ δ : Type} (xs : List α) (ys : List β) (z : γ) (n : Nat) (hx : xs.length = n)
    (g : α → β → γ → δ) : (xs.zip (ys.zip (List.replicate n z))).map (fun x => g x.1 x.2.1 x.2.2) =
      (xs.zip ys).map (fun x => g x.1 x.2 z) := by
  induction xs generalizing ys n with
  | nil => simp
  | cons x xs ih =>
    subst hx
    cases ys with
    | nil => simp
    | cons y ys => simpa [List.replicate_succ] using ih ys xs.length rfl

theorem vopVals_length (t : Tid) (v : Vop) (r : Nat) : (vopVals s t v r).length = v.len := by simp [vopVals, vopRow]

theorem gaussVal_halves (w : Half) :
    gaussVal w = if uniformVal w < 1 / 2 then -psi (uniformVal w) else psi (1 - uniformVal w) := by
  unfold gaussVal qmin
  dsimp only
  by_cases hu : uniformVal w < 1 / 2
  · rw [if_pos hu, if_pos hu, if_neg (by linarith)]
  · rw [if_neg hu, if_neg hu]
    split
    · rfl
    · rw [show 1 - uniformVal w = uniformVal w by linarith]

theorem filterMap_of_map_some {α : Type} {zs : List α} {xs : List (Option α)} (h : zs.map some = xs) :
    xs.filterMap id = zs ∧ xs.all (·.isSome) = true := by
  subst h
  simp [List.filterMap_map, List.all_map, Function.comp_def]

end

/-! ## The lanes' instructions (R117, R122, R275, R296, R298) -/

section
variable {s s1 : State} {o : EngOp}

theorem runElem_two (hu : unitReady s o = .ok ()) (ht : o.tag ≠ .vfma) :
    runElem s o = (putRowsWith s o.t (vopOf (o.reg o.f.sl0)) {} ((List.range (vopOf (o.reg o.f.sl1)).rows).map (fun r =>
      ((vopVals s o.t (vopOf (o.reg o.f.sl1)) r).zip (opdRow s o.t (opdOf (o.reg o.f.sl2) (bit o.f.variant 0) (bit o.f.variant 1))
        (vopOf (o.reg o.f.sl1)).len r)).map (fun x => storeVal (vopOf (o.reg o.f.sl0)).f (rnC (elemOp o.tag x.1 x.2 (.num 0)))))) >>=
      fun s1 => .ok (finishOp s1 o (vopOf (o.reg o.f.sl0)).rows)) := by
  unfold runElem
  rw [bind_of_ok hu, if_neg (by simpa using ht)]
  dsimp only [opdRow, putRows]
  simp only [zip_zip_replicate_map _ _ _ _ (vopVals_length _ _ _)
    (fun x y z => storeVal (vopOf (o.reg o.f.sl0)).f (rnC (elemOp o.tag x y z)))]

theorem runElem_three (hu : unitReady s o = .ok ()) (ht : o.tag = .vfma) :
    runElem s o = (putRowsWith s o.t (vopOf (o.reg o.f.sl0)) {} ((List.range (vopOf (o.reg o.f.sl1)).rows).map (fun r =>
      ((vopVals s o.t (vopOf (o.reg o.f.sl1)) r).zip ((opdRow s o.t (opdOf (o.reg o.f.sl2) (bit o.f.variant 0) (bit o.f.variant 1))
        (vopOf (o.reg o.f.sl1)).len r).zip (opdRow s o.t (opdOf (o.reg o.f.sl3) (bit o.f.variant 2) (bit o.f.variant 3))
        (vopOf (o.reg o.f.sl1)).len r))).map (fun x => storeVal (vopOf (o.reg o.f.sl0)).f (rnC (elemOp .vfma x.1 x.2.1 x.2.2))))) >>=
      fun s1 => .ok (finishOp s1 o (vopOf (o.reg o.f.sl0)).rows)) := by
  unfold runElem
  rw [bind_of_ok hu, if_pos (by simpa using ht), ht]
  rfl

theorem runUnary_ok (hu : unitReady s o = .ok ()) :
    runUnary s o = (putRowsWith s o.t (vopOf (o.reg o.f.sl0)) {} ((List.range (vopOf (o.reg o.f.sl1)).rows).map (fun r =>
      if o.tag == .vcvt then (vopRow s o.t (vopOf (o.reg o.f.sl1)) r).map
        (convertCode (vopOf (o.reg o.f.sl1)).f (vopOf (o.reg o.f.sl0)).f)
      else (vopVals s o.t (vopOf (o.reg o.f.sl1)) r).map (fun x =>
        storeVal (vopOf (o.reg o.f.sl0)).f (distaff (dfunOf (fld o.f.variant 2 0)) x)))) >>=
      fun s1 => .ok (finishOp s1 o (vopOf (o.reg o.f.sl0)).rows)) := by
  unfold runUnary
  rw [bind_of_ok hu]
  rfl

/-- What `vrng` makes of a word in each mode. -/
def rngVal (d : Fmt) (mode : Nat) (w : Half) : Nat × Cnt := match mode with
  | 0 => (w.toNat, {})
  | 1 => storeVal d (.num (uniformVal w), {})
  | _ => storeVal d (.num (gaussVal w), {})

/-- The words that a `vrng` draws. -/
def rngWords (o : EngOp) : List Half :=
  (List.range (ceilDiv ((vopOf (o.reg o.f.sl0)).rows * (vopOf (o.reg o.f.sl0)).len) 4)).flatMap (fun i =>
    whorl (o.reg (o.f.sl1 + 1) ++ o.reg o.f.sl1) ((o.reg (o.f.sl2 + 1) ++ o.reg o.f.sl2 : BitVec 128) + BitVec.ofNat 128 i))

theorem runVrng_ok (hu : unitReady s o = .ok ()) :
    runVrng s o = (putRowsWith s o.t (vopOf (o.reg o.f.sl0)) {} ((List.range (vopOf (o.reg o.f.sl0)).rows).map (fun r =>
      (((rngWords o).drop (r * (vopOf (o.reg o.f.sl0)).len)).take (vopOf (o.reg o.f.sl0)).len).map
        (rngVal (vopOf (o.reg o.f.sl0)).f (fld o.f.variant 1 0)))) >>=
      fun s1 => .ok (finishOp s1 o (vopOf (o.reg o.f.sl0)).rows)) := by
  unfold runVrng
  rw [bind_of_ok hu]
  rfl

/-- The position of row `r` of a `vrot`. -/
def rotPos (s : State) (o : EngOp) (r : Nat) : Int := twos 32 ((vopRow s o.t (vopOf (o.reg o.f.sl2)) r).head?.getD 0)

theorem runVrot_ok (hu : unitReady s o = .ok ())
    (hp : ∀ r, r < (vopOf (o.reg o.f.sl1)).rows → 0 ≤ rotPos s o r ∧ rotPos s o r < 16777216) :
    runVrot s o = (putRowsWith s o.t (vopOf (o.reg o.f.sl0)) {} ((List.range (vopOf (o.reg o.f.sl1)).rows).map (fun r =>
      (vopVals s o.t (vopOf (o.reg o.f.sl3)) 0).zipIdx.flatMap (fun w =>
        (rotPair (rotPos s o r) w.1 (((vopVals s o.t (vopOf (o.reg o.f.sl1)) r)[2 * w.2]?).getD .poison)
          (((vopVals s o.t (vopOf (o.reg o.f.sl1)) r)[2 * w.2 + 1]?).getD .poison)).map
            (storeVal (vopOf (o.reg o.f.sl0)).f)))) >>=
      fun s1 => .ok (finishOp s1 o (vopOf (o.reg o.f.sl0)).rows)) := by
  unfold runVrot
  rw [bind_of_ok hu]
  exact bind_needF_ok _ _ _ (by simpa [rotPos] using hp)

theorem runVrot_fault (hu : unitReady s o = .ok ()) {r : Nat} (hr : r < (vopOf (o.reg o.f.sl1)).rows)
    (hp : rotPos s o r < 0 ∨ 16777216 ≤ rotPos s o r) : runVrot s o = .error (.fault s fOperand) := by
  unfold runVrot
  rw [bind_of_ok hu]
  refine bind_needF_fault _ _ _ ?_
  rw [List.all_eq_false]
  refine ⟨r, List.mem_range.2 hr, ?_⟩
  show ¬ (decide (0 ≤ rotPos s o r) && decide (rotPos s o r < 16777216)) = true
  simp only [Bool.and_eq_true, decide_eq_true_eq]
  omega

/-- The statistics of a `vnorm`, and the gain and bias beside each element. -/
def normStats (s : State) (o : EngOp) (k : Nat) : List (Option Stat) :=
  (List.range k).map (fun i => statAt s o.t ((o.reg o.f.sl2).toNat + 16 * i))
def normScales (o : EngOp) (zs : List Stat) := zs.map (fun z => (z, normScale (fld o.f.variant 1 0) z (scalarVal (o.reg o.f.sl5))))
def normColumn (s : State) (o : EngOp) (v : BitVec 16) (k : Nat) : List Val :=
  opdRow s o.t (opdOf (o.reg v) (!bit o.f.variant k) true) (vopOf (o.reg o.f.sl1)).len 0

theorem runVnorm_fault (hu : unitReady s o = .ok ()) {g rps k i : Nat}
    (hl : layoutOf s (o.reg (o.f.sl2 + 1)) (fld o.f.variant 1 0 == 2) (vopOf (o.reg o.f.sl1)).rows (vopOf (o.reg o.f.sl1)).len =
      .ok (g, rps, k)) (hi : i < k) (hn : statAt s o.t ((o.reg o.f.sl2).toNat + 16 * i) = none) :
    runVnorm s o = .error (.fault s fOperand) := by
  unfold runVnorm
  rw [bind_of_ok hu]
  dsimp only
  rw [bind_of_ok hl]
  refine bind_needF_fault _ _ _ ?_
  rw [List.all_eq_false]
  exact ⟨none, List.mem_map.2 ⟨i, List.mem_range.2 hi, hn⟩, by simp⟩

theorem runVnorm_ok (hu : unitReady s o = .ok ()) {g rps k : Nat}
    (hl : layoutOf s (o.reg (o.f.sl2 + 1)) (fld o.f.variant 1 0 == 2) (vopOf (o.reg o.f.sl1)).rows (vopOf (o.reg o.f.sl1)).len =
      .ok (g, rps, k)) {zs : List Stat} (hz : zs.map some = normStats s o k) :
    runVnorm s o = (putRowsWith s o.t (vopOf (o.reg o.f.sl0)) (sumCnt ((normScales o zs).map (fun z => z.2.2)))
      ((List.range (vopOf (o.reg o.f.sl1)).rows).map (fun r =>
        ((vopVals s o.t (vopOf (o.reg o.f.sl1)) r).zip ((normColumn s o o.f.sl3 2).zip (normColumn s o o.f.sl4 3))).zipIdx.map
          (fun x => match (normScales o zs)[r / rps * ((vopOf (o.reg o.f.sl1)).len / g) + x.2 / g]? with
            | some z => storeVal (vopOf (o.reg o.f.sl0)).f (normElem (fld o.f.variant 1 0) z.1 z.2.1 x.1.2.1 x.1.2.2 x.1.1)
            | none => (0, {})))) >>=
      fun s1 => .ok (finishOp s1 o (vopOf (o.reg o.f.sl0)).rows)) := by
  obtain ⟨hf, ha⟩ := filterMap_of_map_some hz
  unfold runVnorm
  rw [bind_of_ok hu]
  dsimp only
  rw [bind_of_ok hl]
  refine (bind_needF_ok _ _ _ ha).trans ?_
  dsimp only
  rw [← normStats, hf]
  rfl

theorem runVepi_vop (hu : unitReady s o = .ok ()) (h3 : bit o.f.variant 3 = false) (h4 : bit o.f.variant 4 = false)
    (ho : o.out = []) (ht : o.prog < o.tiles) :
    runVepi s o = (putRowsWith s o.t (vopOf (o.reg o.f.sl0)) {} ((epiBlock s o 0 ((List.range (vopOf (o.reg o.f.sl1)).rows).map
      (vopVals s o.t (vopOf (o.reg o.f.sl1))))).map (fun r => r.map (storeVal (vopOf (o.reg o.f.sl0)).f))) >>=
      fun s1 => .ok (finishOp s1 o (vopOf (o.reg o.f.sl0)).rows)) := by
  unfold runVepi
  rw [bind_of_ok hu, bind_of_ok (can_ok _ _ (by simp [ho])), bind_of_ok (can_ok _ _ (by simpa using ht)), h3, h4]
  rfl

end

section
variable {s : State} {o : EngOp}

/-- What `ends` of the statement says: an instruction whose rows are put is complete. -/
theorem op_ends {d : Vop} {k : Cnt} {rows rows' : List (List (Nat × Cnt))} (h : InEngine s o) (hc : sramClean s o = .ok ())
    (ht : o.tag ≠ .mma)
    (hr : runOp s o = (putRowsWith s o.t d k rows >>= fun s1 => .ok (finishOp s1 o d.rows))) (he : rows = rows') (s1 : State)
    (hp : putRowsWith s o.t d k rows' = .ok s1) : exec (.engineComplete o.t o.id) s = .next (finishOp s1 o d.rows) :=
  op_goes h hc ht (hr.trans (putRows_finish he hp))

theorem runOp_elem (ht : o.tag ∈ [EngTag.vadd, .vmul, .vfma, .vmax, .vmin]) : runOp s o = runElem s o := by
  simp only [List.mem_cons, List.not_mem_nil, or_false] at ht
  rcases ht with ht | ht | ht | ht | ht <;> simp only [runOp, ht]

theorem runOp_unary (ht : o.tag = .vcvt ∨ o.tag = .vfn) : runOp s o = runUnary s o := by
  rcases ht with ht | ht <;> simp only [runOp, ht]

theorem elems_two {g : ℚ → ℚ → ℚ} {t : Tid} {d : Fmt} {a : Vop} {row : Nat → List Val}
    (hg : ∀ x y, elemOp o.tag x y (.num 0) = Val.map2 g x y) :
    ((List.range a.rows).map (fun r => ((vopVals s t a r).zip (row r)).map (fun x =>
      storeVal d (rnC (elemOp o.tag x.1 x.2 (.num 0)))))) =
    (List.range a.rows).map (fun r => ((vopVals s t a r).zip (row r)).map (fun x => storeVal d (rnC (Val.map2 g x.1 x.2)))) := by
  simp only [hg]

end

/-- Settles O26: each instruction of the lanes puts the rows of its arithmetic and ends, or faults. -/
theorem laneResults : Obligations.LaneResults := by
  unfold Obligations.LaneResults
  intro s o hp ha hw hf hm hcl hfl d a b c row column faults endsWith ends elems
  have h : InEngine s o := ⟨hp, ha, hw, hf, hfl⟩
  have hu : unitReady s o = .ok () := unitReady_ok hm hcl
  have ne_mma {x : EngTag} (hx : x ≠ .mma) (ht : o.tag = x) : o.tag ≠ .mma := ht ▸ hx
  refine ⟨fun f hc => engine_hurt h hc, fun hc => ⟨?_, ?_, ?_, ?_, ?_, ?_, ?_, ?_⟩⟩
  case refine_1 =>
    intro ht
    exact op_ends h hc (ne_mma (by decide) ht) ((runOp_elem (by simp [ht])).trans (runElem_three hu ht)) rfl
  case refine_2 =>
    intro ht
    exact op_ends h hc (ne_mma (by decide) ht) ((runOp_unary (.inl ht)).trans (runUnary_ok hu)) (by simp [ht, a, d])
  case refine_3 =>
    intro ht
    exact op_ends h hc (ne_mma (by decide) ht) ((runOp_unary (.inr ht)).trans (runUnary_ok hu)) (by simp [ht, a, d])
  case refine_4 =>
    intro _
    refine ⟨?_, ?_, ?_, ?_⟩ <;> intro ht <;>
      exact op_ends h hc (ne_mma (by decide) ht)
        ((runOp_elem (by simp [ht])).trans (runElem_two hu (by simp [ht]))) (elems_two (by intro x y; rw [ht]; rfl))
  case refine_5 =>
    intro ht key base words rows
    have hr : runOp s o = runVrng s o := by simp only [runOp, ht]
    have mode (g : Half → Nat × Cnt) (hg : ∀ w, rngVal d.f (fld o.f.variant 1 0) w = g w) : ends (rows g) :=
      op_ends h hc (ne_mma (by decide) ht) (hr.trans (runVrng_ok hu)) (by rw [show rngVal d.f (fld o.f.variant 1 0) = g from funext hg]; rfl)
    refine ⟨fun h0 => mode _ ?_, fun h1 => mode _ ?_, fun h2 => mode _ ?_⟩
    · intro w; rw [h0]; rfl
    · intro w; rw [h1]; rfl
    · intro w
      rw [h2]
      exact congrArg (fun q => storeVal d.f (Val.num q, {})) (gaussVal_halves w)
  case refine_6 =>
    intro ht pos ws
    have hr : runOp s o = runVrot s o := by simp only [runOp, ht]
    exact ⟨fun hpos => op_ends h hc (ne_mma (by decide) ht) (hr.trans (runVrot_ok hu hpos)) rfl,
      fun r hlt hpos => op_faults h hc (ne_mma (by decide) ht) (hr.trans (runVrot_fault hu hlt hpos))⟩
  case refine_7 =>
    intro ht g rps k hl stat
    have hr : runOp s o = runVnorm s o := by simp only [runOp, ht]
    exact ⟨fun i hi hn => op_faults h hc (ne_mma (by decide) ht) (hr.trans (runVnorm_fault hu hl hi hn)),
      fun zs hz => op_ends h hc (ne_mma (by decide) ht) (hr.trans (runVnorm_ok hu hl hz)) rfl⟩
  case refine_8 =>
    intro ht h3 h4 ho hlt
    exact op_ends h hc (ne_mma (by decide) ht)
      ((show runOp s o = runVepi s o by simp only [runOp, ht]).trans (runVepi_vop hu h3 h4 ho hlt)) rfl
end Sys2Proof.Machine

namespace Sys2Proof.Machine

/-! ## The units of the other engine instructions: the facts about their parts -/

section
variable {s s' : State} {o : EngOp}

theorem theF_of_some {α : Type} {x : Option α} {a : α} (h : x = some a) (f : PFault) : theF s x f = .ok a := by rw [h]; rfl

theorem theF_of_none {α : Type} {x : Option α} (h : x = none) (f : PFault) : theF s x f = .error (.fault s f) := by rw [h]; rfl

theorem bind_can {α : Type} {b : Bool} (hb : b = true) (why : String) (k : Unit → Ex α) : (can b why >>= k) = k () :=
  bind_of_ok (can_ok _ _ hb) _

/-- A read that is made only where a condition holds. -/
theorem ite_reads {b : Prop} [Decidable b] {x : Ex State} {s0 s1 : State} (h : if b then x = .ok s1 else s1 = s0) :
    (if b then x else .ok s0) = .ok s1 := by
  split at h
  · rwa [if_pos ‹b›]
  · rw [if_neg ‹¬b›, h]

theorem ite_keeps {b : Prop} [Decidable b] {x : Ex State} {s0 s1 : State} (h : if b then s1 = s0 else x = .ok s1) :
    (if b then .ok s0 else x) = .ok s1 := by
  split at h
  · rw [if_pos ‹b›, h]
  · rwa [if_neg ‹¬b›]

theorem head_of_cons {α : Type} {l : List α} {a : α} {r : List α} (h : l = a :: r) : l.head? = some a := by rw [h]; rfl

theorem of_bind_ok {α β : Type} {x : Ex α} {k : α → Ex β} {b : β} (h : (x >>= k) = .ok b) : ∃ a, x = .ok a ∧ k a = .ok b := by
  cases x with
  | error e => cases h
  | ok a => exact ⟨a, rfl, h⟩

theorem slotRead_form {v : BitVec 16} {s1 : State} {o1 : EngOp} (h : readSlot s o v = .ok (s1, o1)) :
    ∃ p acc, o1 = { o with prog := p, acc := acc } := by
  unfold readSlot at h
  obtain ⟨x, -, h⟩ := of_bind_ok h
  obtain ⟨c, -, h⟩ := of_bind_ok h
  obtain ⟨-, -, h⟩ := of_bind_ok h
  injection h with h
  injection h with _ h
  exact ⟨_, _, h.symm⟩

/-- A unit that a source gave is of the same instruction, with its progress and what it has read. -/
theorem takeUnit_form {v : BitVec 16} {b : Bool} {s0 : State} {o0 : EngOp} {whole : Bool}
    (h : takeUnit s o v b = .ok (s0, o0, whole)) : ∃ p acc, o0 = { o with prog := p, acc := acc } := by
  unfold takeUnit at h
  split at h
  · obtain ⟨-, -, h⟩ := of_bind_ok h
    obtain ⟨-, -, h⟩ := of_bind_ok h
    obtain ⟨⟨s1, o1⟩, hr, h⟩ := of_bind_ok h
    obtain ⟨-, -, h⟩ := of_bind_ok h
    obtain ⟨p, acc, he⟩ := slotRead_form hr
    injection h with h
    injection h with _ h
    injection h with h _
    exact ⟨p, acc, h ▸ he⟩
  · obtain ⟨-, -, h⟩ := of_bind_ok h
    injection h with h
    injection h with _ h
    injection h with h _
    exact ⟨_, _, h.symm⟩

end

/-! ### Reductions and statistics (R103-R105, R118-R120, R292) -/

section
variable {s s0 : State} {o o0 : EngOp}

theorem runVred_more (h : takeUnit s o o.f.sl1 (bit o.f.variant 5) = .ok (s0, o0, false)) : runVred s o = .ok s0 :=
  bind_of_ok h _

theorem runVstat_more (h : takeUnit s o o.f.sl1 (bit o.f.variant 2) = .ok (s0, o0, false)) : runVstat s o = .ok s0 :=
  bind_of_ok h _

end
/-! ### A pass of an `mma` (R87, R93-R97) -/

theorem readoutTile_ok {s s1 : State} {o : EngOp} {a : AccTile} {rest : List AccTile} {x : Stream} (ho : o.out = a :: rest)
    (hx : stream? s o.t o.binding.dstr = some x) :
    let n := o.dBase + doneTiles (mmaPasses o) (mmaTiles o).2.2 o.prog - o.out.length
    let fmt := ((o.hs[2]?).getD noHandle).fmt
    let rows := a.q.map (fun z => z.map (fun v => readoutCode fmt (la192 v)))
    x.free n = true → x.filled = n →
    account s o.t.ctx ((o.metIn a.mt a.nt).add (sumCnt (rows.map (fun z => sumCnt (z.map (·.2)))))) = .ok s1 →
    readoutTile s o a = .ok (mmaNext (setStream (rows.zipIdx.foldl (fun s z =>
        slotWrite s x (x.slotOff (x.slotNo n) + 256 * bitsOf fmt / 8 * z.2) (packCodes (bitsOf fmt) (z.1.map (·.1)))) s1)
      { x.put n with filled := n + 1 }) { o.told a.mt a.nt with out := rest }) := by
  intro n fmt rows hfree hfill hacc
  have hd : o.out.drop 1 = rest := by rw [ho]; rfl
  unfold readoutTile
  rw [bind_the_of_some hx, hd]
  dsimp only
  rw [bind_can (by rw [hfree, hfill]; exact beq_self_eq_true n)]
  exact bind_of_ok hacc _

theorem passTile_ok {s s1 : State} {o : EngOp} {l2 : List Chunk} {p : Pass} {start : List (List Val)} {a : ATile} {b : BTile}
    (ha : readTileA s o l2 p.c p.m p.k = .ok (s1, a)) (hb : readTileB s1 o l2 p.c p.k p.n = .ok b) :
    let inK : BTile := { b with val := fun k j => if k < a.ks then b.val k j else .num 0 }
    passTile s o l2 p start = .ok (s1, start.zipIdx.map (fun x => x.1.zipIdx.map (fun v =>
        Val.map2 (· + ·) v.1 (dotTile (fld o.f.variant 2 0 == 6) a inK x.2 v.2))),
      { new := (if p.n = 0 then ((List.range start.length).map (fun i => ((List.range a.ks).filter (a.lost i)).length)).sum else 0) +
        (if p.m = 0 then ((List.range (start.headD []).length).map (fun j =>
          ((List.range a.ks).filter (fun k => b.lost k j)).length)).sum else 0) }, a.stalls start.length) :=
  (bind_of_ok ha _).trans (bind_of_ok hb _)

/-! ### A tile of `qnt` (R56, R59, R289) -/

def qIsB (f : Fields) : Bool := if qDf f = 0 then bit f.variant 5 else qDf f == 2

/-- What `qnt` makes of a tile of values, with the scales carried into the state `s0`. -/
def qTileOf (s0 : State) (o : EngOp) (h : Handle) (i j : Nat) (vals : List (List Val)) : QTile :=
  quantTile ⟨if qDf o.f = 0 then .kf4 else .kf8, (qThreshold (o.reg o.f.sl3)).getD 8, o.aBase, o.qCarried.map (fun k => fun a q =>
      if qIsB o.f then scaleCode s0 o.t.ctx h k (256 * i + 32 * q) (256 * j + a)
      else scaleCode s0 o.t.ctx h k (256 * i + a) (256 * j + 32 * q))⟩
    (if qIsB o.f then transpose vals else vals)

def qStops (s : State) (o : EngOp) (h : Handle) (q : QTile) : Bool :=
  selectedHealth s o.t.ctx q.h && (qhPolicy s o.t.ctx == 2 || (qhPolicy s o.t.ctx == 1 && (openDecl s o.t.ctx h.idx).isNone))

/-- The state once a tile of `qnt` stands in its slot `n`. -/
def qPlaced (s2 : State) (o : EngOp) (x : Stream) (n : Nat) (vals : List (List Val)) (q : QTile) : State :=
  let s3 := slotWrite s2 x (x.slotOff (x.slotNo n)) (qTileBytes (if qDf o.f = 0 then 4 else 8) (qIsB o.f) vals.length (vals.head?.getD []).length q)
  let s4 := setStream s3 { x.put n with filled := n + 1, short := if qDf o.f = 0 then x.short else x.short ++ [(n, vals.length)] }
  if o.prog + 1 < o.tiles then setOp s4 { o with prog := o.prog + 1 }
  else finishOp s4 { o with prog := o.prog + 1, claims := o.claims.filter (fun z => !z.fills) } 0

theorem runQnt_counted {s sq s0 s1 : State} {o : EngOp} {k : Claim} {x : Stream} {h : Handle} {i j : Nat} {vals : List (List Val)}
    (hm : mayRun s o = true) (hcl : claimsReady s { o with claims := o.claims.filter (fun z => !z.fills) } = true)
    (hk : o.claims.find? (fun z => z.fills) = some k) (hx : stream? s o.t k.sid = some x) (hfree : x.free (o.dBase + o.prog) = true)
    (hfill : x.filled = o.dBase + o.prog) (hh : o.hs.head? = some h) (hin : qInput s o = .ok (sq, i, j, vals))
    (hcar : ∀ k, o.qCarried = some k → reachView sq o.t k (scalePart h k (.tile h (qIsB o.f) i j)).ss none = .ok s0)
    (hsame : o.qCarried = none → s0 = sq)
    (hacc : account (countHealth s0 o.t.ctx h.idx (qTileOf s0 o h i j vals).h) o.t.ctx (qTileOf s0 o h i j vals).k = .ok s1) :
    runQnt s o = (needF s1 (!qStops s o h (qTileOf s0 o h i j vals)) fQhealth >>= fun _ =>
      (match o.qSlub with
        | some k => putRegion s1 o k (slubPlace h (qIsB o.f) (256 * i) (256 * j)).1 (qTileOf s0 o h i j vals).recs
        | none => .ok s1) >>= fun s2 => .ok (qPlaced s2 o x (o.dBase + o.prog) vals (qTileOf s0 o h i j vals))) := by
  refine (bind_can hm _ _).trans ((bind_can hcl _ _).trans ((bind_the_of_some hk _ _).trans ((bind_the_of_some hx _ _).trans
    ((bind_can (by rw [hfree, hfill]; exact beq_self_eq_true _) _ _).trans ((bind_the_of_some hh _ _).trans ((bind_of_ok hin _).trans ?_))))))
  dsimp only
  split
  · refine (bind_of_ok (hcar _ ‹_›) _).trans ((bind_of_ok hacc _).trans (congrArg (needF _ _ _ >>= ·) (funext fun _ => ?_)))
    cases o.qSlub <;> rfl
  · obtain rfl := hsame ‹_›
    refine (bind_of_ok hacc _).trans (congrArg (needF _ _ _ >>= ·) (funext fun _ => ?_))
    cases o.qSlub <;> rfl

/-- Settles O58: each unit of an engine runs through its reads, its arithmetic and its counts to what it writes. -/
theorem engineResults : Obligations.EngineResults := by
  unfold Obligations.EngineResults
  intro s o hp ha hw hf hc hfl c r goes reads writes total
  have h : InEngine s o := ⟨hp, ha, hw, hf, hfl⟩
  have ne_mma {x : EngTag} (hx : x ≠ .mma) (ht : o.tag = x) : o.tag ≠ .mma := ht ▸ hx
  refine ⟨?reductions, ?statistics, ?epilogue, ?array, ?quantiser, ⟨?score, ?accumulate, ?recompute, ?groupEnd⟩, ?card, ?pageList,
    ?swift⟩
  case reductions =>
    intro ht s0 o0 whole htk kind n d xs
    have hr : runOp s o = runVred s o := by simp only [runOp, ht]
    have hm := ne_mma (by decide) ht
    obtain ⟨p, acc, rfl⟩ := takeUnit_form htk
    refine ⟨fun hw => op_goes h hc hm (hr.trans (runVred_more (hw ▸ htk))), fun hw => ?_⟩
    subst hw
    refine ⟨?_, ?_, ?_⟩
    · intro h0 s1 hp
      refine op_goes h hc hm (hr.trans ((bind_of_ok htk _).trans ?_))
      dsimp only
      rw [h0]
      exact bind_of_ok hp _
    · intro h1 cs s1 hp
      refine op_goes h hc hm (hr.trans ((bind_of_ok htk _).trans ?_))
      dsimp only
      rw [h1]
      exact bind_of_ok hp _
    · intro h2 a
      constructor
      · intro hn
        refine op_faults h hc hm (hr.trans ((bind_of_ok htk _).trans ?_))
        dsimp only
        rw [h2]
        exact bind_of_error (theF_of_none hn _) _
      · intro rs s1 hs z hp
        refine op_goes h hc hm (hr.trans ((bind_of_ok htk _).trans ?_))
        dsimp only
        rw [h2]
        exact (bind_of_ok (theF_of_some hs _) _).trans (bind_of_ok hp _)
  case statistics =>
    intro ht s0 o0 whole htk n rows put
    have hr : runOp s o = runVstat s o := by simp only [runOp, ht]
    have hm := ne_mma (by decide) ht
    obtain ⟨p, acc, rfl⟩ := takeUnit_form htk
    refine ⟨fun hw => op_goes h hc hm (hr.trans (runVstat_more (hw ▸ htk))), fun hw => ?_⟩
    subst hw
    refine ⟨?_, ?_, ?_⟩
    · intro h0 len g rps k hl zs s1 hp
      refine op_goes h hc hm (hr.trans ((bind_of_ok htk _).trans ?_))
      dsimp only
      rw [h0]
      refine (bind_of_ok hl _).trans ?_
      dsimp only
      simp only [List.map_map, Function.comp_def, zs] at hp ⊢
      exact bind_of_ok hp _
    · intro h1 cs s1 hp
      refine op_goes h hc hm (hr.trans ((bind_of_ok htk _).trans ?_))
      dsimp only
      rw [h1]
      exact bind_of_ok hp _
    · intro h2 rs z
      refine ⟨fun hn => op_faults h hc hm (hr.trans ((bind_of_ok htk _).trans ?_)),
        fun hs s1 hp => op_goes h hc hm (hr.trans ((bind_of_ok htk _).trans ?_))⟩
      · dsimp only
        rw [h2]
        exact bind_needF_fault _ _ _ (beq_false_of_ne hn)
      · dsimp only
        rw [h2]
        exact (bind_needF_ok _ _ _ (beq_iff_eq.2 hs)).trans (bind_of_ok hp _)
  case epilogue =>
    intro ht hmr hcl ho hlt hands
    have hr : runOp s o = runVepi s o := by simp only [runOp, ht]
    have hm := ne_mma (by decide) ht
    have tile : runVepi s o = _ := (bind_of_ok (unitReady_ok hmr hcl) _).trans ((bind_can (by rw [ho]; rfl) _ _).trans
      (bind_can (decide_eq_true hlt) _ _))
    constructor
    · intro h3 h4 nt s1 hp
      refine op_goes h hc hm (hr.trans (tile.trans ?_))
      rw [h3, h4]
      exact bind_of_ok hp _
    · intro h3 p a hh s0
      constructor
      · intro h4 s1 hp
        refine op_goes h hc hm (hr.trans (tile.trans ?_))
        rw [h3, h4]
        exact (bind_the_of_some hh _ _).trans (bind_of_ok hp _)
      · intro h4 o1 d res
        refine ⟨fun hl => op_goes h hc hm (hr.trans (tile.trans ?_)), fun hl s1 hp => op_goes h hc hm (hr.trans (tile.trans ?_))⟩
        all_goals rw [h3, h4]; refine (bind_the_of_some hh _ _).trans ?_
        · exact if_pos hl
        · exact (if_neg (Nat.not_lt.2 hl)).trans (bind_of_ok hp _)
  case array =>
    intro ht hmp ps cs l2 kt
    constructor
    · intro hfi p s1 o1 s2 hpp hst hall
      refine engine_goes h hc ((if_pos hfi).trans ((bind_can (hfl hfi) _ _).trans ((if_pos (beq_iff_eq.2 ht)).trans ?_)))
      exact (bind_can hmp _ _).trans ((bind_the_of_some hpp _ _).trans ((bind_of_ok hst _).trans (ite_bind_of_ok hall _)))
    · intro hfi
      have hr : runUnit s o = runMma s o := (if_neg (ne_true_of_eq_false hfi)).trans (by simp only [runOp, ht])
      constructor
      · intro a rest x s1 hh ho hx n fmt rows hfr hfil hacc s2
        refine engine_goes h hc (hr.trans ((bind_can hmp _ _).trans ?_))
        rw [hh, show (if false = true then none else o.out.head?) = some a by rw [ho]; rfl]
        exact readoutTile_ok ho hx hfr hfil hacc
      · intro p s1 k1 s2 start k2 s3 a b hh hpp hsl hlt hst hra hrb inK rows lost o1 ends s4 s5 o2 s6 o3 hacc hpl hsp
        refine engine_goes h hc (hr.trans ((bind_can hmp _ _).trans ?_))
        rw [show (if o.binding.hand = true then none else o.out.head?) = none by rcases hh with hh | hh <;> simp [hh]]
        refine bind_of_ok (x := runPass s o true) ((bind_the_of_some hpp _ _).trans ((bind_can ?_ _ _).trans ((bind_of_ok hlt _).trans ((bind_of_ok hst _).trans
          ((bind_of_ok (passTile_ok hra hrb) _).trans ((ite_bind_of_ok hacc _).trans ((bind_of_ok hpl _).trans
            (ite_bind_of_ok hsp _)))))))) _
        simpa using hsl
  case quantiser =>
    intro ht hmr k x hd sq i j vals s0 s1 s2 ins df isB n hcl hk hx hfree hfill hhs hin hcar carried q hacc stops
    have hr : runOp s o = runQnt s o := by simp only [runOp, ht]
    have hm := ne_mma (by decide) ht
    have hq : runQnt s o = _ := runQnt_counted hmr hcl hk hx hfree hfill hhs hin
      (fun k he => by rw [he] at hcar; exact hcar) (fun he => by rw [he] at hcar; exact hcar) hacc
    constructor
    · intro hs
      exact op_faults h hc hm (hr.trans (hq.trans (bind_needF_fault _ _ _ (congrArg (!·) hs))))
    · intro hs hslub
      refine op_goes h hc hm (hr.trans (hq.trans ((bind_needF_ok _ _ _ (congrArg (!·) hs)).trans (bind_of_ok ?_ _))))
      cases he : o.qSlub with
      | none => rw [he] at hslub; exact congrArg Except.ok hslub.symm
      | some k => rw [he] at hslub; exact hslub
  case score =>
    intro ht hmr hcl e p a k rest x s1 he hh hk hx old rows hacc s2 s3
    refine op_goes h hc (ne_mma (by decide) ht) ?_
    simp only [runOp, ht, runScore, beq_iff_eq]
    exact (((bind_can hmr _ _).trans ((bind_can hcl _ _).trans ((bind_of_ok he _).trans
      ((bind_the_of_some hh _ _).trans ((bind_the_of_some (head_of_cons hk) _ _).trans ((bind_the_of_some hx _ _).trans (bind_of_ok hacc _))))))))
  case accumulate =>
    intro ht hmr p a s1 hh rows hacc
    have hr : runOp s o = runAcc s o := by simp only [runOp, ht]
    exact op_goes h hc (ne_mma (by decide) ht) (hr.trans ((bind_can hmr _ _).trans ((bind_the_of_some hh _ _).trans (bind_of_ok hacc _))))
  case recompute =>
    intro ht hmr hcl e p a k rest x hd hs s0 s1 he hh hk hx hhs sp hread field rows hacc
    have hr : runOp s o = runRecomp s o := by simp only [runOp, ht]
    exact op_goes h hc (ne_mma (by decide) ht) (hr.trans ((bind_can hmr _ _).trans ((bind_can hcl _ _).trans ((bind_of_ok he _).trans
      ((bind_the_of_some hh _ _).trans ((bind_the_of_some (head_of_cons hk) _ _).trans ((bind_the_of_some hx _ _).trans ((bind_the_of_some (head_of_cons hhs) _ _).trans
        ((bind_of_ok hread _).trans (bind_of_ok hacc _))))))))))
  case groupEnd =>
    intro ht hmr hcl s2 s4 d rows hput s3
    have hm := ne_mma (by decide) ht
    constructor
    · intro hhs
      refine op_goes h hc hm ?_
      simp only [runOp, ht, runEnd, beq_iff_eq]
      refine (((bind_of_ok (unitReady_ok hmr hcl) _).trans ((bind_of_ok hput _).trans ?_)))
      rw [hhs]
      rfl
    · intro hd hs hhs hwr
      refine op_goes h hc hm ?_
      simp only [runOp, ht, runEnd, beq_iff_eq]
      refine (bind_of_ok (unitReady_ok hmr hcl) _).trans ((bind_of_ok hput _).trans ?_)
      rw [hhs]
      exact bind_of_ok hwr _
  case card =>
    intro ht hmr hd k g d s0 base fill s1 s2 s3 hhs hdims w p hent a hread card hacc hwr s4 o1
    have hr : runOp s o = runBuild s o := by simp only [runOp, ht]
    refine op_goes h hc (ne_mma (by decide) ht) (hr.trans ?_)
    have e0 : o.h 0 = hd := by rw [EngOp.h, hhs]; rfl
    have e1 : o.h 1 = k := by rw [EngOp.h, hhs]; rfl
    subst e0 e1
    exact (bind_can hmr _ _).trans ((bind_of_ok hdims _).trans ((bind_of_ok hent _).trans ((ite_bind_of_ok (ite_keeps hread) _).trans
      ((bind_of_ok hacc _).trans (bind_of_ok hwr _)))))
  case pageList =>
    intro ht hmp q cs kv l qs g d sa sb sc s2 fills s3 s5 hhs hdims wt lam k t n e hq hqs hcs hfills fill mean forced cards scored
      cand list short hacc s4 bs at' hwr s6 o1
    have hr : runOp s o = runSel s o := by simp only [runOp, ht]
    refine op_goes h hc (ne_mma (by decide) ht) (hr.trans ?_)
    have e0 : o.h 0 = q := by rw [EngOp.h, hhs]; rfl
    have e1 : o.h 1 = cs := by rw [EngOp.h, hhs]; rfl
    have e2 : o.h 2 = kv := by rw [EngOp.h, hhs]; rfl
    have e3 : o.h 3 = l := by rw [EngOp.h, hhs]; rfl
    have e4 : o.h 4 = qs := by rw [EngOp.h, hhs]; rfl
    subst e0 e1 e2 e3 e4
    exact (bind_can hmp _ _).trans ((bind_of_ok hdims _).trans ((bind_of_ok hq _).trans ((bind_of_ok hqs _).trans
      ((bind_of_ok hcs _).trans ((bind_of_ok hfills _).trans ((bind_of_ok hacc _).trans (bind_of_ok hwr _)))))))
  case swift =>
    intro hms x out writesEls whole
    refine ⟨?convolution, ?pooling, ?patches, ?pixels, ?boxes, ?suppression⟩
    all_goals intro ht
    case convolution =>
      intro s0 s1 s2
      dsimp only
      have hr : runOp s o = runConv s o := by simp only [runOp, ht]
      have hm := ne_mma (by decide) ht
      rcases hcv : o.conv with ⟨dt, dh, dw⟩
      intro hw hb
      constructor
      · intro hwi hread s3 hst
        refine op_goes h hc hm (hr.trans ?_)
        unfold runConv
        rw [hcv]
        exact (bind_can hms _ _).trans ((bind_of_ok hw _).trans ((ite_bind_of_ok (ite_reads hb) _).trans ((if_pos hwi).trans
          ((bind_of_ok hread _).trans (bind_of_ok hst _)))))
      · intro hwi hread s3 hst
        refine op_goes h hc hm (hr.trans ?_)
        unfold runConv
        rw [hcv]
        exact (bind_can hms _ _).trans ((bind_of_ok hw _).trans ((ite_bind_of_ok (ite_reads hb) _).trans
          ((if_neg (ne_true_of_eq_false hwi)).trans ((bind_of_ok hread _).trans (bind_of_ok hst _)))))
    case pooling =>
      intro s1 hread s2 hst
      have hr : runOp s o = runPool s o := by simp only [runOp, ht]
      exact op_goes h hc (ne_mma (by decide) ht) (hr.trans ((bind_can hms _ _).trans ((bind_of_ok hread _).trans (bind_of_ok hst _))))
    case patches =>
      intro s1 inv img pairs hread s2 hst
      have hr : runOp s o = runPatch s o := by simp only [runOp, ht]
      exact op_goes h hc (ne_mma (by decide) ht) (hr.trans ((bind_can hms _ _).trans ((bind_of_ok hread _).trans (bind_of_ok hst _))))
    case pixels =>
      intro cos k pl full
      have hr : runOp s o = runPix s o := by simp only [runOp, ht]
      constructor
      · intro hb s1 s2 hread m put hst
        exact op_goes h hc (ne_mma (by decide) ht) (hr.trans ((bind_can hms _ _).trans ((if_pos hb).trans
          ((bind_of_ok hread _).trans (bind_of_ok hst _)))))
      · intro hb s1 s2 s3 h2 w2 h1 h2' h3 sc s4 hst
        exact op_goes h hc (ne_mma (by decide) ht) (hr.trans ((bind_can hms _ _).trans ((if_neg (ne_true_of_eq_false hb)).trans
          ((bind_of_ok h1 _).trans ((bind_of_ok h2' _).trans ((bind_of_ok h3 _).trans (bind_of_ok hst _)))))))
    case boxes =>
      intro s1 s2 d y all bnd h1 h2 s3 hst
      have hr : runOp s o = runBox s o := by simp only [runOp, ht]
      exact op_goes h hc (ne_mma (by decide) ht) (hr.trans ((bind_can hms _ _).trans ((bind_of_ok h1 _).trans ((bind_of_ok h2 _).trans
        (bind_of_ok hst _)))))
    case suppression =>
      intro s1 s2 s3 s4 s5 sc y cls flat h1 h2 h3 all live ranked kept hacc bs res hwr
      have hr : runOp s o = runNms s o := by simp only [runOp, ht]
      exact op_goes h hc (ne_mma (by decide) ht) (hr.trans ((bind_can hms _ _).trans ((bind_of_ok h1 _).trans ((bind_of_ok h2 _).trans
        ((ite_bind_of_ok (ite_reads h3) _).trans ((bind_of_ok hacc _).trans (bind_of_ok hwr _)))))))
end Sys2Proof.Machine

namespace Sys2Proof.Machine

/-! ## The canonical form of the state (log 4): what keeps it

`Canon s` says what the statement does, `State.wf s`. Below stands one lemma `f_canon` per function `f` of the model that gives a
state, in the order of the model's files: `f` keeps the canonical form. Only the writers of memories, registers and rings have
anything to show; every other lemma follows the text of its function, one bind, branch or loop at a time. Where a branch of a
function is followed by more steps, those steps are a local function of the branch's value (`jp` below, with `hjp`). -/

/-- The canonical form of the state, as the statement has it. -/
def Canon (s : State) : Prop := State.wf s = true

/-- Where there is a next state, it has the canonical form. -/
def NextCanon : Res → Prop
  | .next s => Canon s
  | _ => True

/-- Where a function gives a state at all, it has the canonical form. -/
def SomeCanon : Option State → Prop
  | some s => Canon s
  | none => True

def OkCanon : Except Nat State → Prop
  | .ok s => Canon s
  | .error _ => True

/-- What the effect of a record leaves has the canonical form, where it is done and where it is refused. -/
def EffCanon : Eff → Prop
  | .ok r => Canon r.1
  | .error r => Canon r.1

section
variable {α β : Type} {P : α → Prop} {s : State}

theorem ite_both {c : Prop} [Decidable c] {a b : α} (ha : P a) (hb : P b) : P (if c then a else b) := by
  split
  · exact ha
  · exact hb

theorem foldl_canon {g : State → β → State} {l : List β} (hg : ∀ s x, Canon s → Canon (g s x)) (h : Canon s) :
    Canon (l.foldl g s) := foldl_keeps hg l h

theorem foldl_mem_canon {g : State → β → State} {l : List β} (hg : ∀ s x, x ∈ l → Canon s → Canon (g s x)) (h : Canon s) :
    Canon (l.foldl g s) := by
  induction l generalizing s with
  | nil => exact h
  | cons x xs ih => exact ih (fun s y hy => hg s y (.tail _ hy)) (hg s x (.head _) h)

theorem foldl_fst_canon {g : State × α → β → State × α} {l : List β} {z : State × α}
    (hg : ∀ z x, Canon z.1 → Canon (g z x).1) (h : Canon z.1) : Canon (l.foldl g z).1 := by
  induction l generalizing z with
  | nil => exact h
  | cons x xs ih => exact ih (hg z x h)

theorem Answers.bind {P : State → Prop} {Q : α → Prop} {R : β → Prop} {x : Ex α} {k : α → Ex β} (hx : Answers P Q x)
    (hk : ∀ a, Q a → Answers P R (k a)) : Answers P R (x >>= k) :=
  (answers_bind x k).2 (hx.mono hk)

theorem foldlM_canon {Q : α → Prop} {g : α → β → Ex α} {l : List β} {a : α} (hg : ∀ a x, Q a → Answers Canon Q (g a x))
    (h : Q a) : Answers Canon Q (l.foldlM g a) := by
  induction l generalizing a with
  | nil => exact h
  | cons x xs ih => exact (hg a x h).bind fun _ h1 => ih h1

theorem SomeCanon.of_eq {o : Option State} (h : SomeCanon o) (e : o = some s) : Canon s := by rwa [e] at h
theorem OkCanon.of_eq {r : Except Nat State} (h : OkCanon r) (e : r = .ok s) : Canon s := by rwa [e] at h
theorem Answers.of_ok {P : State → Prop} {Q : α → Prop} {x : Ex α} {a : α} (h : Answers P Q x) (e : x = .ok a) : Q a := by
  rwa [e] at h
theorem Answers.of_fault {P : State → Prop} {Q : α → Prop} {x : Ex α} {f : PFault} (h : Answers P Q x)
    (e : x = .error (.fault s f)) :
    P s := by rwa [e] at h
theorem EffCanon.ok {b : Bool} (h : Canon s) : EffCanon (.ok (s, b)) := h
theorem canon_of_fst_eq {r : State × α} {a : α} (h : Canon r.1) (e : r = (s, a)) : Canon s := by rwa [e] at h
theorem canon_of_snd_eq {r : α × State} {a : α} (h : Canon r.2) (e : r = (a, s)) : Canon s := by rwa [e] at h

theorem forM_canon {g : β → Ex Unit} {l : List β} (hg : ∀ x, Answers Canon (fun _ => True) (g x)) :
    Answers Canon (fun _ => True) (l.forM g) := by
  induction l with
  | nil => trivial
  | cons x xs ih => exact (hg x).bind fun _ _ => ih

theorem mapM_canon {g : α → Ex β} {l : List α} (hg : ∀ x, Answers Canon (fun _ => True) (g x)) :
    Answers Canon (fun _ => True) (l.mapM g) := by
  induction l with
  | nil => trivial
  | cons x xs ih =>
    rw [List.mapM_cons]
    exact (hg x).bind fun _ _ => ih.bind fun _ _ => trivial

theorem forIn_canon {g : β → PUnit → Ex (ForInStep PUnit)} {l : List β}
    (hg : ∀ x, Answers Canon (fun _ => True) (g x ⟨⟩)) : Answers Canon (fun _ => True) (forIn l ⟨⟩ g) := by
  induction l with
  | nil => trivial
  | cons x xs ih =>
    rw [List.forIn_cons]
    refine (hg x).bind fun r _ => ?_
    cases r
    · trivial
    · exact ih

theorem need_canon {b : Bool} {e : Halt} (he : Answers Canon (fun _ => True) (.error e : Ex Unit)) :
    Answers Canon (fun _ => True) (need b e) := by
  cases b
  · exact he
  · trivial
theorem can_canon {b : Bool} {why : String} : Answers Canon (fun _ => True) (can b why) := by simp
theorem needF_canon {b : Bool} {f : PFault} (h : Canon s) : Answers Canon (fun _ => True) (needF s b f) := by simp [h]
theorem dec_canon {b : Bool} (h : Canon s) : Answers Canon (fun _ => True) (dec s b) := needF_canon h
theorem the_canon {o : Option α} {why : String} : Answers Canon (fun _ => True) (the o why) := by simp
theorem theF_canon {o : Option α} {f : PFault} (h : Canon s) : Answers Canon (fun _ => True) (theF s o f) := by simp [h]
theorem the_some_canon {o : Option State} {why : String} (h : SomeCanon o) : Answers Canon Canon (the o why) := by
  cases o with
  | none => trivial
  | some s => exact h
theorem theF_some_canon {o : Option State} {f : PFault} (h : Canon s) (ho : SomeCanon o) : Answers Canon Canon (theF s o f) := by
  cases o with
  | none => exact h
  | some s => exact ho
theorem src_canon {th : Thread} {v : BitVec 16} : Answers Canon (fun _ => True) (src th v) := by simp

end
end Sys2Proof.Machine

namespace Sys2Proof.Machine

/-! ### The parts of the canonical form -/

/-- The parts of the canonical form, one per memory and table. -/
structure CanonParts (s : State) : Prop where
  mem : Memory.wf s.mem = true
  bobbin : s.bobbin.all (fun x => Memory.wf x.2) = true
  scratch : s.scratch.all (fun x => Memory.wf x.2) = true
  regs : tabRising s.regs = true
  act : tabRising s.act = true
  rings : tabRising s.rings = true
  bobbinKeys : tabRising s.bobbin = true
  scratchKeys : tabRising s.scratch = true

theorem canon_iff {s : State} : Canon s ↔ CanonParts s := by
  simp only [Canon, State.wf, State.memOk, Bool.and_eq_true]
  constructor
  · rintro ⟨⟨⟨⟨⟨⟨⟨hm, hb⟩, hs⟩, hr⟩, ha⟩, hg⟩, hbk⟩, hsk⟩
    exact ⟨hm, hb, hs, hr, ha, hg, hbk, hsk⟩
  · rintro ⟨hm, hb, hs, hr, ha, hg, hbk, hsk⟩
    exact ⟨⟨⟨⟨⟨⟨⟨hm, hb⟩, hs⟩, hr⟩, ha⟩, hg⟩, hbk⟩, hsk⟩

/-- A state with the same memories and tables as one of canonical form has that form too. -/
theorem Canon.same {s s' : State} (h : Canon s) (mem : s'.mem = s.mem) (bobbin : s'.bobbin = s.bobbin)
    (scratch : s'.scratch = s.scratch) (regs : s'.regs = s.regs) (act : s'.act = s.act) (rings : s'.rings = s.rings) : Canon s' := by
  have p := canon_iff.1 h
  exact canon_iff.2 { mem := mem ▸ p.mem, bobbin := bobbin ▸ p.bobbin, scratch := scratch ▸ p.scratch, regs := regs ▸ p.regs,
                      act := act ▸ p.act, rings := rings ▸ p.rings, bobbinKeys := bobbin ▸ p.bobbinKeys,
                      scratchKeys := scratch ▸ p.scratchKeys }

/-- An SRAM of canonical form. -/
structure SramOk (m : Sram) : Prop where
  bobbin : Memory.wf m.bobbin = true
  scratch : Memory.wf m.scratch = true

section
variable {s : State}

/-- What a table of memories lists under a key has the form that all of its memories have. -/
theorem wf_tabGet {t : Tab Memory} (h : t.all (fun x => Memory.wf x.2) = true) (i : Nat) : Memory.wf (tabGet [] t i) = true := by
  induction t with
  | nil => rfl
  | cons x xs ih =>
    obtain ⟨j, m⟩ := x
    simp only [List.all_cons, Bool.and_eq_true] at h
    simp only [tabGet, tabGet?] at ih ⊢
    split
    · exact h.1
    · exact ih h.2

theorem all_tabSet {t : Tab Memory} (h : t.all (fun x => Memory.wf x.2) = true) (i : Nat) {m : Memory} (hm : Memory.wf m = true) :
    (tabSet t i m).all (fun x => Memory.wf x.2) = true :=
  all_tabPut _ _ _ (by rintro _ ⟨⟩; exact hm) h

/-! ### The writers of memories, registers and rings -/

theorem Canon.mem (h : Canon s) : Memory.wf s.mem = true := (canon_iff.1 h).mem

/-- A state whose memory is replaced by another of canonical form. -/
theorem Canon.setMem {m : Memory} (h : Canon s) (hm : Memory.wf m = true) : Canon { s with mem := m } :=
  canon_iff.2 { canon_iff.1 h with mem := hm }

theorem Canon.writeMem {a : Nat} {bs : List Byte} (h : Canon s) : Canon { s with mem := memWrite s.mem a bs } :=
  h.setMem (Memory.wf_memWrite _ _ h.mem)

theorem setR_canon {r : Reg} {v : Word} (h : Canon s) : Canon (setR s r v) :=
  canon_iff.2 { canon_iff.1 h with regs := tabRising_tabPut _ _ (canon_iff.1 h).regs }

theorem setAct_canon {r : Reg} {v : Word} (h : Canon s) : Canon (setAct s r v) :=
  canon_iff.2 { canon_iff.1 h with act := tabRising_tabPut _ _ (canon_iff.1 h).act }

theorem setRing_canon {k : Nat} {x : RingSt} (h : Canon s) : Canon (setRing s k x) :=
  canon_iff.2 { canon_iff.1 h with rings := tabRising_tabPut _ _ (canon_iff.1 h).rings }

theorem wr_canon {a : Nat} {bs : List Byte} (h : Canon s) : Canon (wr s a bs) := h.setMem (Memory.wf_memWrite _ _ h.mem)

theorem clearMem_canon {a n : Nat} (h : Canon s) : Canon (clearMem s a n) := h.setMem (Memory.wf_memClear _ _ h.mem)

theorem setSlice_canon {a n : Nat} {m : Memory} (h : Canon s) : Canon (setSlice s a n m) :=
  (clearMem_canon h).setMem (Memory.wf_memPaste _ _ (clearMem_canon h).mem)

theorem imageSram_ok {c l : Nat} (h : Canon s) : SramOk (imageSram s c l) :=
  ⟨Memory.wf_memSlice _ _ h.mem, Memory.wf_memSlice _ _ h.mem⟩

theorem spindleSram_ok {i : Nat} (h : Canon s) : SramOk (spindleSram s i) :=
  ⟨wf_tabGet (canon_iff.1 h).bobbin i, wf_tabGet (canon_iff.1 h).scratch i⟩

theorem setSpindle_canon {i : Nat} {m : Sram} (h : Canon s) (hm : SramOk m) : Canon (setSpindle s i m) :=
  canon_iff.2 { canon_iff.1 h with
    bobbin := all_tabSet (canon_iff.1 h).bobbin i hm.bobbin
    scratch := all_tabSet (canon_iff.1 h).scratch i hm.scratch
    bobbinKeys := tabRising_tabPut _ _ (canon_iff.1 h).bobbinKeys
    scratchKeys := tabRising_tabPut _ _ (canon_iff.1 h).scratchKeys }

theorem bobbinWrite_canon {c l a : Nat} {bs : List Byte} (h : Canon s) : Canon (bobbinWrite s c l a bs) := by
  unfold bobbinWrite
  refine ite_both ?_ (wr_canon h)
  exact canon_iff.2 { canon_iff.1 h with
    bobbin := all_tabSet (canon_iff.1 h).bobbin _ (Memory.wf_memWrite _ _ (wf_tabGet (canon_iff.1 h).bobbin _))
    bobbinKeys := tabRising_tabPut _ _ (canon_iff.1 h).bobbinKeys }

theorem scratchWrite_canon {c l a : Nat} {bs : List Byte} (h : Canon s) : Canon (scratchWrite s c l a bs) := by
  unfold scratchWrite
  refine ite_both ?_ (wr_canon h)
  exact canon_iff.2 { canon_iff.1 h with
    scratch := all_tabSet (canon_iff.1 h).scratch _ (Memory.wf_memWrite _ _ (wf_tabGet (canon_iff.1 h).scratch _))
    scratchKeys := tabRising_tabPut _ _ (canon_iff.1 h).scratchKeys }

/-- SRAMs of which some are cleared. -/
theorem Canon.filterSrams {p q : Nat × Memory → Bool} (h : Canon s) :
    Canon { s with bobbin := s.bobbin.filter p, scratch := s.scratch.filter q } :=
  canon_iff.2 { canon_iff.1 h with
    bobbin := List.all_eq_true.2 fun x hx => List.all_eq_true.1 (canon_iff.1 h).bobbin x (List.mem_filter.1 hx).1
    scratch := List.all_eq_true.2 fun x hx => List.all_eq_true.1 (canon_iff.1 h).scratch x (List.mem_filter.1 hx).1
    bobbinKeys := tabRising_filter p (canon_iff.1 h).bobbinKeys
    scratchKeys := tabRising_filter q (canon_iff.1 h).scratchKeys }

end
end Sys2Proof.Machine

namespace Sys2Proof.Machine

/-! ### The canonical form: registers -/

theorem setF_canon {s : State} {r : Reg} {hi lo v : Nat} (hc : Canon s) : Canon (setF s r hi lo v) := setR_canon hc

/-! ### The canonical form: partitions and contexts -/

theorem setRetired_canon {s : State} {ty idx : Nat} {v : Bool} (hc : Canon s) : Canon (setRetired s ty idx v) := setF_canon hc

theorem maskRetired_canon {s : State} (hc : Canon s) : Canon (maskRetired s) :=
  foldl_canon (fun _ _ hc1 => ite_both (foldl_canon (fun _ _ hc2 => setF_canon hc2) hc1) hc1) hc

theorem setC_canon {s : State} {c : Nat} {x : CtxSt} (hc : Canon s) : Canon (setC s c x) := hc

theorem setT_canon {s : State} {t : Tid} {th : Thread} (hc : Canon s) : Canon (setT s t th) := hc

/-! ### The canonical form: events, counters, completion records -/

theorem freeWord_canon {s : State} (hc : Canon s) : Canon (freeWord s).2 := hc

theorem freeBytes_canon {s : State} {n : Nat} (hc : Canon s) : Canon (freeBytes s n).2 := hc

theorem toHost_canon {s : State} {o : HostOut} (hc : Canon s) : Canon (toHost s o) := hc

theorem sendMsix_canon {s : State} {fn v : Nat} (hc : Canon s) : Canon (sendMsix s fn v) :=
  ite_both (toHost_canon hc) (ite_both hc hc)

theorem toLink_canon {s : State} {o : LinkOut} (hc : Canon s) : Canon (toLink s o) := hc

theorem event_canon {s : State} {code : Nat} {ctx part : Option Nat} {detail : List Byte} (hc : Canon s) :
    Canon (event s code ctx part detail) := by
  unfold event
  extract_lets s1 tail head base s2 s3 s4
  have h1 : Canon s1 := hc
  have h3 : Canon s3 := setF_canon (toHost_canon h1)
  have h4 : Canon s4 := h3
  exact ite_both (sendMsix_canon h4) (setR_canon h1)

theorem eventC_canon {s : State} {code c : Nat} {detail : List Byte} (hc : Canon s) : Canon (eventC s code c detail) :=
  event_canon hc

theorem eventG_canon {s : State} {code : Nat} {detail : List Byte} (hc : Canon s) : Canon (eventG s code detail) := event_canon hc

theorem eventReg_canon {s : State} {code : Nat} {r : Reg} (hc : Canon s) : Canon (eventReg s code r) := eventG_canon hc

theorem bump_canon {s : State} {r : Reg} {k : Nat} (hc : Canon s) : Canon (bump s r k) :=
  ite_both (eventG_canon (setR_canon hc)) (setR_canon hc)

theorem bumpC_canon {s : State} {c i k : Nat} (hc : Canon s) : Canon (bumpC s c i k) := ite_both (bump_canon hc) hc

theorem dueUp_canon {s : State} {d : Due} (hc : Canon s) : Canon (dueUp s d) := hc

theorem complete_canon {s : State} {ring num : Nat} {cmdid : Half} {status : Nat} (hc : Canon s) :
    Canon (complete s ring num cmdid status) :=
  setRing_canon hc

theorem leaveRec_canon {s : State} {k num : Nat} (hc : Canon s) : Canon (leaveRec s k num) := setRing_canon hc

theorem cqWrite_canon {s : State} {ring : Nat} {w0 w1 : Word} (hc : Canon s) : Canon (cqWrite s ring w0 w1) :=
  setRing_canon (setF_canon (toHost_canon hc))

theorem raiseFull_canon {s : State} {ring : Nat} (hc : Canon s) : Canon (raiseFull s ring) :=
  ite_both hc (ite_both (eventC_canon (setRing_canon hc)) (eventReg_canon (setRing_canon hc)))

theorem cqHold_canon {s : State} {ring : Nat} {w0 w1 : Word} (hc : Canon s) : Canon (cqHold s ring w0 w1) :=
  raiseFull_canon (setRing_canon hc)

theorem postHeld_canon {s : State} {ring n : Nat} (hc : Canon s) : Canon (postHeld s ring n).1 := by
  induction n generalizing s with
  | zero => exact hc
  | succ n ih =>
    unfold postHeld
    dsimp only
    split
    · exact hc
    · split
      · exact ih (cqWrite_canon (setRing_canon hc))
      · exact raiseFull_canon hc

theorem postDues_canon {s : State} {tick : Nat} {ds : List Due} (hc : Canon s) : Canon (postDues s tick ds).1 := by
  induction ds generalizing s with
  | nil => exact hc
  | cons d ds ih =>
    unfold postDues
    dsimp only
    split
    · exact ih (cqWrite_canon hc)
    · exact ih (cqHold_canon hc)

theorem postRing_canon {s : State} {ring tick : Nat} {ds : List Due} (hc : Canon s) : Canon (postRing s ring tick ds) :=
  ite_both (setRing_canon (postDues_canon (postHeld_canon hc)))
    (sendMsix_canon (setRing_canon (postDues_canon (postHeld_canon hc))))

theorem postAll_canon {s : State} {sel : Nat → Bool} (hc : Canon s) : Canon (postAll s sel) :=
  foldl_canon (fun _ _ hc1 => ite_both hc1 (postRing_canon hc1)) hc

/-! ### The canonical form: link routes -/

theorem countUnreach_canon {s : State} {port : Nat} (hc : Canon s) : Canon (countUnreach s port) := ite_both (bump_canon hc) hc

/-! ### The canonical form: memory -/

theorem putA_canon {s : State} {c a : Nat} {bs : List Byte} (hc : Canon s) : Canon (putA s c a bs) :=
  ite_both (wr_canon hc) (ite_both (toLink_canon hc) (toHost_canon hc))

theorem halfOut_canon {s : State} {c a : Nat} {high : Bool} {v : Nat} (hc : Canon s) : Canon (halfOut s c a high v) :=
  ite_both (toLink_canon hc) (toHost_canon hc)

theorem mayDepart_canon {s : State} {c dev : Nat} (hc : Canon s) : Answers Canon (fun _ => True) (mayDepart s c dev) := by
  unfold mayDepart
  dsimp only
  split
  · exact ite_both (countUnreach_canon hc) hc
  · exact hc
  · exact trivial

theorem askOutside_canon {s : State} {c a n : Nat} (hc : Canon s) : Answers Canon Canon (askOutside s c a n) :=
  ite_both hc (ite_both
    ((mayDepart_canon hc).bind fun _ _ =>
    ite_both ((freeBytes_canon (freeBytes_canon (ite_both (toLink_canon hc) (toHost_canon hc)))).writeMem)
    (freeBytes_canon (ite_both (toLink_canon hc) (toHost_canon hc))))
    (ite_both ((freeBytes_canon (freeBytes_canon (ite_both (toLink_canon hc) (toHost_canon hc)))).writeMem)
    (freeBytes_canon (ite_both (toLink_canon hc) (toHost_canon hc)))))

theorem askAll_canon {s : State} {c : Nat} {ss : List (Nat × Nat)} (hc : Canon s) : Answers Canon Canon (askAll s c ss) :=
  foldlM_canon (fun _ _ hc1 => askOutside_canon hc1) hc

theorem copyMem_canon {s : State} {src dst n : Nat} (hc : Canon s) : Canon (copyMem s src dst n) := wr_canon hc

theorem bringIn_canon {s : State} {pg A c : Nat} (hc : Canon s) : SomeCanon (bringIn s pg A c) := by
  unfold bringIn
  split
  · exact trivial
  · refine ite_both trivial ?_
    split
    · exact bumpC_canon hc
    · split
      · exact trivial
      · dsimp only
        split
        · exact trivial
        · exact bumpC_canon (bumpC_canon hc)

theorem touchPages_canon {s : State} {pgs : List Nat} (hc : Canon s) : Canon (touchPages s pgs) := by
  unfold touchPages
  refine foldl_canon (fun _ _ hc1 => ?_) hc
  split
  · exact hc1
  · exact hc1

theorem admitPages_canon {s : State} {A c a n : Nat} {write : Bool} (hc : Canon s) :
    Answers Canon Canon (admitPages s A c a n write) := by
  unfold admitPages
  refine (foldlM_canon (Q := Canon) (fun s1 pg h1 => ?_) hc).bind fun s1 h1 => can_canon.bind fun _ _ => touchPages_canon h1
  split
  · trivial
  · refine ite_both (ite_both (the_some_canon (bringIn_canon h1)) trivial) h1

theorem admitAll_canon {s : State} {A c : Nat} {ss : List (Nat × Nat)} {write : Bool} (hc : Canon s) :
    Answers Canon Canon (admitAll s A c ss write) :=
  foldlM_canon (fun _ _ hc1 => admitPages_canon hc1) hc

theorem readA_canon {s : State} {t : Tid} {a n : Nat} (hc : Canon s) : Answers Canon (fun r => Canon r.1) (readA s t a n) :=
  (needF_canon hc).bind fun _ _ => (admitPages_canon hc).bind fun _ hc1 => (needF_canon hc1).bind fun _ _ =>
    (askOutside_canon hc1).bind fun _ hc2 => hc2

theorem writeA_canon {s : State} {t : Tid} {a : Nat} {bs : List Byte} (hc : Canon s) : Answers Canon Canon (writeA s t a bs) :=
  (needF_canon hc).bind fun _ _ => (admitPages_canon hc).bind fun _ hc1 => putA_canon hc1

theorem setSplice_canon {s : State} {x : Splice} (hc : Canon s) : Canon (setSplice s x) := hc

theorem copyGranule_canon {s : State} {src dst : Nat} (hc : Canon s) : Canon (copyGranule s src dst) :=
  ite_both (wr_canon (freeBytes_canon hc)) (copyMem_canon hc)

theorem writePiece_canon {s : State} {c h a : Nat} {bs : List Byte} {w : Writer} (hc : Canon s) :
    Canon (writePiece s c h a bs w) := by
  unfold writePiece
  dsimp only
  split
  · exact putA_canon hc
  · exact ite_both (wr_canon
      (ite_both (ite_both hc (bumpC_canon (copyGranule_canon hc)))
      (setSplice_canon (ite_both hc (bumpC_canon (copyGranule_canon hc)))))) (putA_canon hc)

theorem writeV_canon {s : State} {c h a : Nat} {bs : List Byte} {w : Writer} (hc : Canon s) : Canon (writeV s c h a bs w) :=
  foldl_fst_canon (fun _ _ hc1 => writePiece_canon hc1) hc

theorem coverV_canon {s : State} {c h : Nat} {ss : List (Nat × Nat)} {w : Writer} (hc : Canon s) : Canon (coverV s c h ss w) := by
  unfold coverV
  split
  · exact hc
  · exact ite_both hc (setSplice_canon hc)

theorem mendV_canon {s : State} {c h : Nat} {ss : List (Nat × Nat)} {w : Writer} (hc : Canon s) : Canon (mendV s c h ss w) := hc

theorem coverBytes_canon {s : State} {c h : Nat} {ss : List (Nat × Nat)} {w : Writer} (hc : Canon s) :
    Canon (coverBytes s c h ss w) :=
  coverV_canon hc

theorem mendBytes_canon {s : State} {c h : Nat} {ss : List (Nat × Nat)} {w : Writer} (hc : Canon s) :
    Canon (mendBytes s c h ss w) :=
  mendV_canon hc

theorem freeSpan_canon {s : State} {a n : Nat} (hc : Canon s) : Canon (freeSpan s a n) :=
  ite_both hc (wr_canon (freeBytes_canon hc))

theorem freeLost_canon {s : State} {a n : Nat} (hc : Canon s) : Canon (freeLost s a n) :=
  foldl_canon (fun _ _ hc1 => freeSpan_canon hc1) hc

theorem saveImage_canon {s : State} {c l : Nat} {m : Sram} (hc : Canon s) : Canon (saveImage s c l m) := by
  unfold saveImage
  extract_lets _ st
  have hc1 : Canon st := freeSpan_canon (freeSpan_canon (setSlice_canon (setSlice_canon hc)))
  clear_value st
  exact freeLost_canon hc1

theorem noteScrRead_canon {s : State} {t : Tid} {a n : Nat} (hc : Canon s) : Canon (noteScrRead s t a n) := hc

theorem noteScrWrite_canon {s : State} {t : Tid} {a n : Nat} (hc : Canon s) : Canon (noteScrWrite s t a n) := hc

theorem notReplayable_canon {s : State} {t : Tid} (hc : Canon s) : Canon (notReplayable s t) := hc

theorem noteHandleWrite_canon {s : State} {t : Tid} {h : Nat} (hc : Canon s) : Canon (noteHandleWrite s t h) := hc

/-! ### The canonical form: flits -/

theorem setPortSt_canon {s : State} {n : Nat} {x : PortSt} (hc : Canon s) : Canon (setPortSt s n x) := hc

theorem emitFlit_canon {s : State} {n : Nat} {e : BitVec 12 × Flit} (hc : Canon s) : Canon (emitFlit s n e) := toLink_canon hc

theorem sendFlit_canon {s : State} {n : Nat} {x : Flit} (hc : Canon s) : Canon (sendFlit s n x) :=
  emitFlit_canon (setPortSt_canon hc)

theorem txStep_canon {n : Nat} {acc : State × List TxMsg} {w : TxMsg} (hc : Canon acc.1) : Canon (txStep n acc w).1 := by
  obtain ⟨s, kept⟩ := acc
  unfold txStep
  dsimp only
  split
  · exact hc
  · exact foldl_canon (fun _ _ h => sendFlit_canon h) (setPortSt_canon hc)

theorem giveCredit_canon {s : State} {n vc cls k : Nat} (hc : Canon s) : Canon (giveCredit s n vc cls k) :=
  ite_both hc (toLink_canon hc)

theorem releaseHeld_canon {s : State} (hc : Canon s) : Canon (releaseHeld s) :=
  foldl_canon (fun _ _ hc1 => ite_both hc1 (giveCredit_canon hc1)) hc

theorem drainPort_canon {s : State} {n : Nat} (hc : Canon s) : Canon (drainPort s n) :=
  ite_both (releaseHeld_canon (setPortSt_canon (foldl_fst_canon (fun _ _ hc1 => txStep_canon hc1) hc))) hc

theorem portMsg_canon {s : State} {n cls : Nat} {came : Option (Nat × Nat)} {hold : Option Nat} {m : Msg} (hc : Canon s) :
    Canon (portMsg s n cls came hold m) :=
  drainPort_canon (setPortSt_canon hc)

theorem toSelf_canon {s : State} {m : Msg} (hc : Canon s) : Canon (toSelf s m) := hc

theorem sendRefusal_canon {s : State} {r : Msg} (hc : Canon s) : Canon (sendRefusal s r) := by
  unfold sendRefusal
  refine ite_both (toSelf_canon hc) ?_
  dsimp only
  split
  · exact portMsg_canon hc
  · exact countUnreach_canon hc

theorem sendOn_canon {s : State} {came : Option (Nat × Nat)} {hold : Option Nat} {m : Msg} (hc : Canon s) :
    Canon (sendOn s came hold m) := by
  unfold sendOn
  split
  · exact portMsg_canon hc
  · exact ite_both (countUnreach_canon hc) (sendRefusal_canon (countUnreach_canon hc))

theorem sendResponse_canon {s : State} {r : Msg} (hc : Canon s) : Canon (sendResponse s r) :=
  ite_both (toSelf_canon hc) (sendOn_canon hc)

theorem strand_canon {s : State} {n : Nat} (hc : Canon s) : Canon (strand s n) :=
  releaseHeld_canon (foldl_canon (fun _ _ hc1 => sendOn_canon hc1) hc)

theorem takeFlit_canon {s : State} {n : Nat} {x : Flit} (hc : Canon s) : Canon (takeFlit s n x) := by
  unfold takeFlit
  refine ite_both hc (ite_both (setPortSt_canon hc) ?_)
  extract_lets s1
  have h1 : Canon s1 := setPortSt_canon hc
  split
  · exact ite_both h1 (giveCredit_canon h1)
  · exact giveCredit_canon h1

theorem askResend_canon {s : State} {n : Nat} {p : PortSt} (hc : Canon s) : Canon (askResend s n p) :=
  toLink_canon (setPortSt_canon hc)

theorem hearFlit_canon {s : State} {n : Nat} {bs : List Byte} {corrupt : Bool} (hc : Canon s) : Canon (hearFlit s n bs corrupt) :=
  ite_both (askResend_canon hc)
    (ite_both (takeFlit_canon (setPortSt_canon hc))
    (ite_both (setPortSt_canon hc) (ite_both (setPortSt_canon hc) (askResend_canon hc))))

theorem sendAgain_canon {s : State} {n : Nat} (hc : Canon s) : Canon (sendAgain s n) :=
  foldl_canon (fun _ _ hc1 => emitFlit_canon hc1) hc

theorem hearResend_canon {s : State} {n : Nat} {seq : BitVec 12} (hc : Canon s) : Canon (hearResend s n seq) :=
  ite_both (bump_canon (sendAgain_canon (setPortSt_canon hc))) hc

theorem hearCredit_canon {s : State} {n vc cls k : Nat} (hc : Canon s) : Canon (hearCredit s n vc cls k) :=
  drainPort_canon (setPortSt_canon hc)

theorem takeMsg_canon {s : State} {m : Msg} (hc : Canon s) : Answers Canon (fun r => Canon r.1) (takeMsg s m) := by
  unfold takeMsg
  refine the_canon.bind fun _ _ => ?_
  split
  · exact giveCredit_canon hc
  · exact hc

theorem holdMsg_canon {s : State} {m : Msg} (hc : Canon s) : Answers Canon (fun r => Canon r.1) (holdMsg s m) := by
  unfold holdMsg
  refine the_canon.bind fun _ _ => ?_
  split
  · exact hc
  · exact hc

theorem closeHeld_canon {s : State} {hold : Option Nat} (hc : Canon s) : Canon (closeHeld s hold) := releaseHeld_canon hc

/-! ### The canonical form: the reducers -/

theorem redApply_canon {s : State} {op a : Nat} {data : List Byte} (hc : Canon s) : Canon (redApply s op a data).1 := wr_canon hc

theorem redDue_canon {s : State} {w : RWin} {g n : Nat} (hc : Canon s) : Canon (redDue s w g n) := by
  induction n generalizing s with
  | zero => exact hc
  | succ n ih =>
    unfold redDue
    dsimp only
    split
    · exact wr_canon hc
    · split
      · exact hc
      · exact ih (wr_canon (bumpC_canon (redApply_canon hc)))

theorem redOne_canon {s : State} {p c op a : Nat} {data : List Byte} {rank : Option Nat} (hc : Canon s) :
    Canon (redOne s p c op a data rank) := by
  unfold redOne
  split
  · exact ite_both (bumpC_canon hc) (ite_both (redDue_canon (wr_canon (bumpC_canon (redApply_canon hc)))) (wr_canon hc))
  · exact bumpC_canon (redApply_canon hc)

theorem redAll_canon {s : State} {p c op a : Nat} {data : List Byte} {rank : Option Nat} (hc : Canon s) :
    Canon (redAll s p c op a data rank) :=
  foldl_canon (fun _ _ hc1 => redOne_canon hc1) hc

/-! ### The canonical form: placement, teardown, faults -/

theorem statusRise_canon {s : State} {b : Nat} (hc : Canon s) : Canon (statusRise s b) := ite_both hc hc

theorem statusFall_canon {s : State} {b : Nat} (hc : Canon s) : Canon (statusFall s b) := hc

theorem setDet_canon {s : State} {c : Nat} {bits : Word} (hc : Canon s) : Canon (setDet s c bits) := setR_canon hc

theorem setTstat_canon {s : State} {c : Nat} {bits : Word} (hc : Canon s) : Canon (setTstat s c bits) := setR_canon hc

theorem setDetRunning_canon {s : State} {sel : Nat → Bool} {bits : Word} (hc : Canon s) : Canon (setDetRunning s sel bits) :=
  foldl_canon (fun _ _ hc1 => setDet_canon hc1) hc

theorem deviceFail_canon {s : State} (hc : Canon s) : Canon (deviceFail s) := statusRise_canon (toHost_canon hc)

theorem poolGive_canon {s : State} {p a n : Nat} (hc : Canon s) : Canon (poolGive s p a n) := foldl_canon (fun _ _ hc1 => hc1) hc

theorem poolTakeBack_canon {s : State} {r : Retiring} (hc : Canon s) : Canon (poolTakeBack s r) := poolGive_canon hc

theorem poolFree_canon {s : State} {r : Retiring} (hc : Canon s) : Canon (poolFree s r) := ite_both hc (poolTakeBack_canon hc)

theorem poolSettle_canon {s : State} (hc : Canon s) : Canon (poolSettle s) :=
  foldl_canon (fun _ _ hc1 => poolTakeBack_canon hc1) hc

theorem discardSplice_canon {s : State} {x : Splice} (hc : Canon s) : Canon (discardSplice s x) :=
  foldl_canon (fun _ _ hc1 => poolFree_canon hc1) hc

theorem startOne_canon {s : State} {c : Nat} (hc : Canon s) : Canon (startOne s c) :=
  setR_canon (setC_canon (foldl_canon (fun _ _ hc1 => setT_canon hc1) hc))

theorem startFillers_canon {s : State} {c : Nat} (hc : Canon s) : Canon (startFillers s c) :=
  foldl_canon (fun _ _ hc1 => ite_both (startOne_canon (setC_canon hc1)) hc1) hc

theorem startCtx_canon {s : State} {c : Nat} (hc : Canon s) : Canon (startCtx s c) := startFillers_canon (startOne_canon hc)

theorem place_canon {s : State} {c : Nat} (hc : Canon s) : Canon (place s c) :=
  ite_both (ite_both (setC_canon hc) (startCtx_canon hc)) (ite_both (foldl_canon (fun _ _ hc1 => setC_canon hc1) hc) hc)

theorem serveOne_canon {s : State} {c : Nat} (hc : Canon s) : Canon (serveOne s c) := ite_both (place_canon hc) hc

theorem serve_canon {s : State} {p : Nat} (hc : Canon s) : Canon (serve s p) := foldl_canon (fun _ _ hc1 => serveOne_canon hc1) hc

theorem stopCtx_canon {s : State} {c : Nat} (hc : Canon s) : Canon (stopCtx s c) := serve_canon (dueUp_canon (setC_canon hc))

theorem teardown_canon {s : State} {c : Nat} {status : Nat} {ref : Half} (hc : Canon s) : Canon (teardown s c status ref) := by
  unfold teardown
  extract_lets _ _ _ st1
  have hc1 : Canon st1 := poolSettle_canon (foldl_canon (fun _ _ hc1 => discardSplice_canon hc1) hc)
  clear_value st1
  exact serve_canon (setC_canon hc1)

theorem faultEvent_canon {s : State} {c l : Nat} {pc : Half} {f : PFault} (hc : Canon s) : Canon (faultEvent s c l pc f) :=
  eventC_canon hc

theorem progFault_canon {s : State} {t : Tid} {pc : Half} {f : PFault} (hc : Canon s) : Canon (progFault s t pc f) :=
  teardown_canon (faultEvent_canon hc)

theorem threadFault_canon {s : State} {t : Tid} {f : PFault} (hc : Canon s) : Canon (threadFault s t f) := progFault_canon hc

theorem overrunFault_canon {s : State} {c : Nat} (hc : Canon s) : Canon (overrunFault s c) :=
  teardown_canon (foldl_canon (fun _ _ hc1 => faultEvent_canon hc1) hc)

theorem reloadSems_canon {s : State} {p : Nat} (hc : Canon s) : Canon (reloadSems s p) := hc

theorem beginReset_canon {s : State} {p cause : Nat} (hc : Canon s) : Canon (beginReset s p cause) := by
  have hs : Canon ((partCtxs s p).foldl (fun s c =>
      let (l, pc) := match (threadsOf s c).head? with
        | some (l, th) => (l, th.pc)
        | none => (0, 0)
      teardown (faultEvent s c l pc fPartReset) c 0x23 0) s) := foldl_canon (fun _ _ h => by
    dsimp only
    split <;> exact teardown_canon (faultEvent_canon h)) hc
  exact reloadSems_canon (ite_both hs.filterSrams (clearMem_canon hs.filterSrams))

theorem firstIssue_canon {s : State} {c : Nat} (hc : Canon s) : Canon (firstIssue s c) := by
  unfold firstIssue
  dsimp only
  split
  · exact complete_canon (setC_canon hc)
  · exact hc

theorem runThread_canon {s : State} {t : Tid} {k : State → Thread → Ex State} (hc : Canon s)
    (hk : ∀ s th, Canon s → Answers Canon Canon (k s th)) : NextCanon (runThread s t k) := by
  cases he : runThread s t k with
  | next s' => exact runThread_answers (P := Canon) he (fun x pc f => progFault_canon) (firstIssue_canon hc) fun th => hk _ th (firstIssue_canon hc)
  | _ => trivial

theorem runEvent_canon {x : Ex State} {t : Tid} {pc : Half} (hx : Answers Canon Canon x) : NextCanon (runEvent x t pc) := by
  cases he : runEvent x t pc with
  | next s' => exact runEvent_answers (P := Canon) he (fun x pc f => progFault_canon) hx
  | _ => trivial

theorem runPlain_canon {x : Ex State} (hx : Answers Canon Canon x) : NextCanon (runPlain x) := runEvent_canon hx

theorem stepOn_canon {s : State} {t : Tid} {th : Thread} (hc : Canon s) : Canon (stepOn s t th) := setT_canon hc

/-! ### The canonical form: operands and handle-table entries -/

theorem srcG_canon {th : Thread} {v : BitVec 16} {k : Nat} : Answers Canon (fun _ => True) (srcG th v k) := src_canon

theorem getH_canon {s : State} {c i : Nat} (hc : Canon s) : Answers Canon (fun _ => True) (getH s c i) :=
  (needF_canon hc).bind fun _ _ => (needF_canon hc).bind fun _ _ => can_canon.bind fun _ _ => (needF_canon hc).bind fun _ _ =>
    (needF_canon hc).bind fun _ _ => (needF_canon hc).bind fun _ _ => trivial

theorem getScale_canon {s : State} {c : Nat} {h : Handle} (hc : Canon s) : Answers Canon (fun _ => True) (getScale s c h) :=
  (needF_canon hc).bind fun _ _ => (getH_canon hc).bind fun _ _ => (needF_canon hc).bind fun _ _ =>
    (needF_canon hc).bind fun _ _ => trivial

theorem getSlub_canon {s : State} {c : Nat} {h : Handle} (hc : Canon s) : Answers Canon (fun _ => True) (getSlub s c h) :=
  (needF_canon hc).bind fun _ _ => (getH_canon hc).bind fun _ _ => (needF_canon hc).bind fun _ _ => trivial

theorem putElemV_canon {s : State} {c : Nat} {h : Handle} {w : Writer} {ix : List Nat} {v : Nat} (hc : Canon s) :
    Canon (putElemV s c h w ix v) :=
  ite_both (ite_both (halfOut_canon hc) (writeV_canon hc)) (writeV_canon hc)

theorem putElemsV_canon {s : State} {c : Nat} {h : Handle} {w : Writer} {es : List (List Nat × Nat)} (hc : Canon s) :
    Canon (putElemsV s c h w es) :=
  mendV_canon (foldl_canon (fun _ _ hc1 => putElemV_canon hc1) (coverV_canon hc))

theorem noProducer_canon {s : State} {th : Thread} (hc : Canon s) : Answers Canon (fun _ => True) (noProducer s th) :=
  needF_canon hc

theorem mayWrite_canon {s : State} {c h : Nat} (hc : Canon s) : Answers Canon (fun _ => True) (mayWrite s c h) := needF_canon hc

theorem newTurn_canon {s : State} {t : Tid} (hc : Canon s) : Canon (newTurn s t) := hc

/-! ### The canonical form: the reel -/

theorem setReel_canon {s : State} {p : Nat} {r : ReelSt} (hc : Canon s) : Canon (setReel s p r) := hc

theorem reelOff_canon {s : State} {p : Nat} (hc : Canon s) : Canon (reelOff s p) := setReel_canon (setAct_canon (setF_canon hc))

theorem reelDrop_canon {s : State} {p n k : Nat} (hc : Canon s) : Canon (reelDrop s p n k) := by
  induction k generalizing s with
  | zero => exact hc
  | succ k ih =>
    unfold reelDrop
    dsimp only
    split
    · exact hc
    · exact ih (setR_canon (setReel_canon hc))

theorem reelLose_canon {s : State} {p : Nat} (hc : Canon s) : Canon (reelLose s p) := bump_canon hc

theorem reelPut_canon {s : State} {p : Nat} {r : ReelRec} {len : Nat} (hc : Canon s) : Canon (reelPut s p r len) :=
  setR_canon (setReel_canon (wr_canon hc))

theorem reelRoom_canon {s : State} {p n : Nat} (hc : Canon s) : Canon (reelRoom s p n) := ite_both (reelDrop_canon hc) hc

theorem reelPad_canon {s : State} {p : Nat} {r : ReelRec} (hc : Canon s) : Canon (reelPad s p r) :=
  ite_both (reelPut_canon (reelRoom_canon hc)) hc

theorem reelWrite_canon {s : State} {p : Nat} {r : ReelRec} (hc : Canon s) : Canon (reelWrite s p r) :=
  ite_both (reelLose_canon hc)
    (ite_both (reelLose_canon (event_canon (setReel_canon (reelRoom_canon (reelPad_canon hc)))))
    (reelPut_canon (reelRoom_canon (reelPad_canon hc))))

theorem reelEdge_canon {s : State} {p : Nat} (hc : Canon s) : Canon (reelEdge s p) :=
  foldl_canon (fun _ _ hc1 => reelWrite_canon hc1) (setReel_canon hc)

theorem reelMismatch_canon {s : State} {p seq : Nat} (hc : Canon s) : Canon (reelMismatch s p seq) :=
  event_canon (setR_canon (reelOff_canon hc))

theorem reelRecord_canon {s : State} {p : Nat} {ty : BitVec 8} {c : Nat} {payload : List Byte} (hc : Canon s) :
    Canon (reelRecord s p ty c payload) :=
  ite_both (reelLose_canon hc) (setReel_canon hc)

theorem reelDone_canon {s : State} {p : Nat} (hc : Canon s) : Canon (reelDone s p) := setR_canon (reelOff_canon hc)

theorem reelEnd_canon {s : State} {p : Nat} (hc : Canon s) : Canon (reelEnd s p) := ite_both (reelDone_canon hc) hc

theorem reelLive_canon {s : State} {p : Nat} {ty : BitVec 8} {c : Nat} {payload : List Byte} (hc : Canon s) :
    Canon (reelLive s p ty c payload) := by
  unfold reelLive
  split
  · exact reelRecord_canon hc
  · dsimp only
    split
    · exact ite_both (reelEnd_canon (setReel_canon hc)) (reelMismatch_canon hc)
    · exact setReel_canon hc
  · exact hc

theorem reelWant_canon {s : State} {p : Nat} {r : ReelRec} (hc : Canon s) : Canon (reelWant s p r) := by
  unfold reelWant
  dsimp only
  split
  · exact ite_both (setReel_canon hc) (reelMismatch_canon hc)
  · exact setReel_canon hc

theorem reelMark_canon {s : State} {p c : Nat} {payload : List Byte} (hc : Canon s) : Canon (reelMark s p c payload) :=
  reelLive_canon hc

theorem reelHeader_canon {s : State} {p c : Nat} {header : List Byte} (hc : Canon s) : Canon (reelHeader s p c header) :=
  reelLive_canon hc

theorem reelCommand_canon {s : State} {c : Nat} {record : List Byte} (hc : Canon s) : Canon (reelCommand s c record) :=
  ite_both (reelRecord_canon hc) hc

theorem reelTransfer_canon {s : State} {p c a : Nat} {bs : List Byte} (hc : Canon s) : Canon (reelTransfer s p c a bs) :=
  ite_both (foldl_canon (fun _ _ hc1 => reelRecord_canon hc1) hc) (reelLive_canon hc)

theorem reelInput_canon {s : State} {p : Nat} (hc : Canon s) : Canon (reelInput s p) := event_canon hc

theorem reelStop_canon {s : State} {p : Nat} (hc : Canon s) : Canon (reelStop s p) :=
  setReel_canon (ite_both (reelEdge_canon hc) hc)

theorem reelStart_canon {s : State} {p new : Nat} (hc : Canon s) : Canon (reelStart s p new) :=
  ite_both (reelWrite_canon (setR_canon (setReel_canon (setR_canon hc)))) (setReel_canon (setR_canon (setR_canon hc)))

theorem reelApply_canon {s : State} {p : Nat} (hc : Canon s) : Canon (reelApply s p) :=
  ite_both (setAct_canon (setAct_canon hc))
    (ite_both (setAct_canon (setAct_canon (ite_both hc (reelStop_canon hc))))
    (ite_both (reelStart_canon (setAct_canon (setAct_canon (ite_both hc (reelStop_canon hc)))))
    (event_canon (setAct_canon (setAct_canon (setF_canon (ite_both hc (reelStop_canon hc))))))))

end Sys2Proof.Machine

namespace Sys2Proof.Machine

/-! ### The canonical form: control instructions -/

theorem execNop_canon {t : Tid} {f : Fields} {reserved : Option (BitVec 8)} {s : State} (hc : Canon s) :
    NextCanon (execNop t f reserved s) :=
  runThread_canon hc (fun _ _ hc1 => (dec_canon hc1).bind fun _ _ => (dec_canon hc1).bind fun _ _ => stepOn_canon hc1)

theorem execLoop_canon {t : Tid} {f : Fields} {s : State} (hc : Canon s) : NextCanon (execLoop t f s) := by
  unfold execLoop
  refine runThread_canon hc (fun _ _ hc1 => ?_)
  refine (dec_canon hc1).bind fun _ _ => (dec_canon hc1).bind fun _ _ => ?_
  extract_lets _ _ _ _ jp
  have hjp : ∀ a, Answers Canon Canon (jp a) := by
    rintro _
    exact (needF_canon hc1).bind fun _ _ => (needF_canon hc1).bind fun _ _ => ite_both (setT_canon hc1) (stepOn_canon hc1)
  clear_value jp
  exact ite_both (hjp _) (src_canon.bind fun _ _ => hjp _)

theorem transfer_canon {s : State} {t : Tid} {th : Thread} {w : Int} {stack : List Half} (hc : Canon s) :
    Answers Canon Canon (transfer s t th w stack) :=
  (needF_canon hc).bind fun _ _ => setT_canon hc

theorem jumpTarget_canon {s : State} {th : Thread} {f : Fields} (hc : Canon s) :
    Answers Canon (fun _ => True) (jumpTarget s th f) :=
  ite_both ((dec_canon hc).bind fun _ _ => src_canon.bind fun _ _ => trivial) ((dec_canon hc).bind fun _ _ => trivial)

theorem execJmp_canon {t : Tid} {f : Fields} {s : State} (hc : Canon s) : NextCanon (execJmp t f s) :=
  runThread_canon hc (fun _ _ hc1 => (jumpTarget_canon hc1).bind fun _ _ => transfer_canon hc1)

theorem execBrCond_canon {t : Tid} {f : Fields} {s : State} (hc : Canon s) : NextCanon (execBrCond t f s) := by
  unfold execBrCond
  refine runThread_canon hc (fun _ _ hc1 => ?_)
  refine (dec_canon hc1).bind fun _ _ => (dec_canon hc1).bind fun _ _ => ?_
  extract_lets jp
  have hjp : ∀ a, Answers Canon Canon (jp a) := by
    rintro _
    exact ite_both (ite_both (transfer_canon hc1) (stepOn_canon hc1))
      (src_canon.bind fun _ _ => ite_both (transfer_canon hc1) (stepOn_canon hc1))
  clear_value jp
  split
  · exact src_canon.bind fun _ _ => hjp _
  · exact hjp _
  · exact hjp _

theorem execCall_canon {t : Tid} {f : Fields} {s : State} (hc : Canon s) : NextCanon (execCall t f s) :=
  runThread_canon hc (fun _ _ hc1 => (jumpTarget_canon hc1).bind fun _ _ => (needF_canon hc1).bind fun _ _ => transfer_canon hc1)

theorem execRet_canon {t : Tid} {f : Fields} {s : State} (hc : Canon s) : NextCanon (execRet t f s) := by
  unfold execRet
  refine runThread_canon hc (fun _ _ hc1 => ?_)
  refine (dec_canon hc1).bind fun _ _ => ?_
  split
  · exact hc1
  · exact transfer_canon hc1

theorem setShared_canon {s : State} {p n v : Nat} (hc : Canon s) : Canon (setShared s p n v) := hc

theorem semTake_canon {s s' : State} {t : Tid} {th th' : Thread} {shared : Bool} {n k q : Nat} (hc : Canon s)
    (he : semTake s t th shared n k q = some (s', th')) : Canon s' := by
  unfold semTake at he
  grind [setShared_canon]

theorem execWait_canon {t : Tid} {f : Fields} {s : State} (hc : Canon s) : NextCanon (execWait t f s) := by
  refine runThread_canon hc fun s th h => (dec_canon h).bind fun _ _ => (dec_canon h).bind fun _ _ => ?_
  have take : Answers Canon Canon (match semTake (notReplayable s t) t th (bit f.variant 0) f.sl0.toNat f.sl1.toNat s.seq with
      | some (s2, th2) => .ok (stepOn s2 t th2)
      | none => .ok (setT { notReplayable s t with seq := s.seq + 1 } t
          { th with block := .sem (bit f.variant 0) f.sl0.toNat f.sl1.toNat s.seq }) : Ex State) := by
    split
    · exact stepOn_canon (semTake_canon (notReplayable_canon h) ‹_›)
    · exact setT_canon (notReplayable_canon (t := t) h)
  exact ite_both ((needF_canon h).bind fun _ _ => (needF_canon h).bind fun _ _ => take) take

theorem execSemWaitSatisfied_canon {t : Tid} {s : State} (hc : Canon s) : NextCanon (execSemWaitSatisfied t s) := by
  refine runPlain_canon (the_canon.bind fun th _ => ?_)
  split
  · refine can_canon.bind fun _ _ => Answers.bind (Q := fun r => Canon r.1) ?_ fun _ h => stepOn_canon h
    exact (answers_the _ _).2 fun r hr => semTake_canon hc hr
  · trivial

theorem addLocal_canon {s : State} {u : Tid} {n amount : Nat} (hc : Canon s) : SomeCanon (addLocal s u n amount) := by
  unfold addLocal
  split
  · exact trivial
  · exact ite_both (setT_canon hc) trivial

theorem addShared_canon {s : State} {p n amount : Nat} (hc : Canon s) : SomeCanon (addShared s p n amount) :=
  ite_both (setShared_canon hc) trivial

theorem execSig_canon {t : Tid} {f : Fields} {s : State} (hc : Canon s) : NextCanon (execSig t f s) :=
  runThread_canon hc (fun _ _ hc1 => (dec_canon hc1).bind fun _ _ => (dec_canon hc1).bind fun _ _ =>
    ite_both ((needF_canon hc1).bind fun _ _ => (needF_canon hc1).bind fun _ _ =>
    theF_some_canon hc1 (addShared_canon (notReplayable_canon (stepOn_canon hc1))))
    (src_canon.bind fun _ _ => (needF_canon hc1).bind fun _ _ =>
    theF_some_canon hc1 (addLocal_canon (notReplayable_canon (stepOn_canon hc1)))))

theorem execTurn_canon {t : Tid} {f : Fields} {s : State} (hc : Canon s) : NextCanon (execTurn t f s) :=
  runThread_canon hc (fun _ _ hc1 => (dec_canon hc1).bind fun _ _ => (dec_canon hc1).bind fun _ _ =>
    (noProducer_canon hc1).bind fun _ _ => setT_canon hc1)

theorem execFence_canon {t : Tid} {f : Fields} {s : State} (hc : Canon s) : NextCanon (execFence t f s) :=
  runThread_canon hc (fun _ _ hc1 => (dec_canon hc1).bind fun _ _ => (dec_canon hc1).bind fun _ _ =>
    ite_both (stepOn_canon hc1) (setT_canon hc1))

theorem execFenceRelease_canon {t : Tid} {s : State} (hc : Canon s) : NextCanon (execFenceRelease t s) := by
  unfold execFenceRelease
  refine runPlain_canon (the_canon.bind fun _ _ => ?_)
  split
  · exact can_canon.bind fun _ _ => can_canon.bind fun _ _ => stepOn_canon hc
  · exact trivial

/-! ### The canonical form: counting and policy -/

theorem countNum_canon {s : State} {c : Nat} {k : Cnt} (hc : Canon s) : Canon (countNum s c k) :=
  bumpC_canon (bumpC_canon (bumpC_canon (bumpC_canon hc)))

theorem account_canon {s : State} {c : Nat} {k : Cnt} (hc : Canon s) : Answers Canon Canon (account s c k) :=
  ite_both (countNum_canon hc) (countNum_canon hc)

theorem countHealth_canon {s : State} {c h : Nat} {k : Health} (hc : Canon s) : Canon (countHealth s c h k) := by
  unfold countHealth
  extract_lets st
  have hc1 : Canon st := bumpC_canon (bumpC_canon (bumpC_canon (bumpC_canon (bumpC_canon hc))))
  clear_value st
  split
  · exact setSplice_canon hc1
  · exact hc1

/-! ### The canonical form: streams -/

theorem needStream_canon {s : State} {t : Tid} {sid : Nat} (hc : Canon s) : Answers Canon (fun _ => True) (needStream s t sid) :=
  theF_canon hc

theorem readRegion_canon {s : State} {t : Tid} {w : Word} {spaceOk holdOk creelOk : Bool} (hc : Canon s) :
    Answers Canon (fun _ => True) (readRegion s t w spaceOk holdOk creelOk) :=
  (needF_canon hc).bind fun _ _ => (needF_canon hc).bind fun _ _ => (needF_canon hc).bind fun _ _ => trivial

theorem freshSid_canon {s : State} {t : Tid} {sid : Nat} (hc : Canon s) : Answers Canon (fun _ => True) (freshSid s t sid) :=
  needF_canon hc

theorem slotWrite_canon {s : State} {x : Stream} {off : Nat} {bs : List Byte} (hc : Canon s) : Canon (slotWrite s x off bs) :=
  ite_both (scratchWrite_canon hc) (bobbinWrite_canon hc)

theorem slotClean_canon {s : State} {x : Stream} {n : Nat} (hc : Canon s) : Answers Canon (fun _ => True) (slotClean s x n) :=
  needF_canon hc

theorem setStream_canon {s : State} {x : Stream} (hc : Canon s) : Canon (setStream s x) := hc

theorem slubsOk_canon {s : State} {rdf : FarRd} {x : Stream} {g : Geo} (hc : Canon s) :
    Answers Canon (fun _ => True) (slubsOk s rdf x g) := by
  unfold slubsOk
  split
  · exact needF_canon hc
  · exact trivial

theorem kvDims_canon {s : State} {h : Handle} (hc : Canon s) : Answers Canon (fun _ => True) (kvDims s h) :=
  (needF_canon hc).bind fun _ _ => trivial

theorem creelFetch_canon {s : State} {x : Stream} {ss : List (Nat × Nat)} (hc : Canon s) : Canon (creelFetch s x ss) :=
  ite_both (bumpC_canon (bumpC_canon hc)) hc

theorem askMig_canon {s : State} {pg q : Nat} {c : CtxN} (hc : Canon s) : Canon (askMig s pg q c) := ite_both hc (ite_both hc hc)

theorem nextMig_canon {s : State} {p : Nat} (hc : Canon s) : Canon (nextMig s p) := by
  unfold nextMig
  split
  · exact ite_both hc hc
  · exact hc

theorem wakeStreams_canon {s : State} {pg : Nat} (hc : Canon s) : Canon (wakeStreams s pg) := hc

theorem dropMig_canon {s : State} {pg : Nat} (hc : Canon s) : Canon (dropMig s pg) := nextMig_canon (wakeStreams_canon hc)

theorem missPage_canon {s : State} {x : Stream} {pg : Nat} (hc : Canon s) : Canon (missPage s x pg) :=
  setStream_canon (bumpC_canon (askMig_canon hc))

theorem accessPages_canon {s : State} {c : Nat} {ss : List (Nat × Nat)} (hc : Canon s) : Canon (accessPages s c ss) :=
  touchPages_canon hc

theorem maybeStop_canon {s : State} {c : Nat} (hc : Canon s) : Canon (maybeStop s c) := ite_both (stopCtx_canon hc) hc

theorem settle_canon {s : State} {c : Nat} (hc : Canon s) : Canon (settle s c) := maybeStop_canon (poolSettle_canon hc)

/-! ### The canonical form: link operations -/

theorem admitRemote_canon {s : State} {m : Msg} {n : Nat} {write : Bool} (hc : Canon s) :
    Answers Canon Canon (admitRemote s m n write) :=
  admitPages_canon hc

theorem applySignal_canon {s : State} {w : Word} {sh : Bool} {cls : Option Nat} (hc : Canon s) :
    OkCanon (applySignal s w sh cls) := by
  unfold applySignal
  refine ite_both trivial (ite_both ?_ ?_)
  · refine ite_both trivial ?_
    split
    · exact (addShared_canon hc).of_eq ‹_›
    · exact trivial
  · refine ite_both trivial ?_
    split
    · exact hc
    · split
      · exact (addLocal_canon hc).of_eq ‹_›
      · exact trivial

theorem targetPut_canon {s : State} {m : Msg} (hc : Canon s) : Answers Canon (fun r => Canon r.1) (targetPut s m) := by
  unfold targetPut
  split
  · exact hc
  · refine (admitRemote_canon hc).bind fun _ hc1 => ite_both ?_ (putA_canon hc1)
    split
    · exact (applySignal_canon (putA_canon hc1)).of_eq ‹_›
    · exact hc

theorem targetGet_canon {s : State} {m : Msg} (hc : Canon s) : Answers Canon (fun r => Canon r.1) (targetGet s m) := by
  unfold targetGet
  dsimp only
  split
  · exact hc
  · exact (admitRemote_canon hc).bind fun _ hc1 => ite_both (ite_both hc1 hc1) ((askOutside_canon hc1).bind fun _ hc2 => hc2)

theorem targetAdd_canon {s : State} {m : Msg} (hc : Canon s) : Answers Canon (fun r => Canon r.1) (targetAdd s m) := by
  unfold targetAdd
  dsimp only
  split
  · exact hc
  · exact ite_both hc (can_canon.bind fun _ _ => (admitRemote_canon hc).bind fun _ hc1 => ite_both hc1 (redAll_canon hc1))

theorem targetSignal_canon {s : State} {m : Msg} (hc : Canon s) : Canon (targetSignal s m).1 := by
  unfold targetSignal
  split
  · exact (applySignal_canon hc).of_eq ‹_›
  · exact hc

theorem atTarget_canon {s : State} {m : Msg} (hc : Canon s) : Answers Canon (fun r => Canon r.1) (atTarget s m) := by
  unfold atTarget
  split
  · exact targetPut_canon hc
  · exact targetPut_canon hc
  · exact targetGet_canon hc
  · exact targetAdd_canon hc
  · exact targetSignal_canon hc
  · exact trivial

theorem freeTag_canon {s : State} {c : Nat} {tag : BitVec 12} (hc : Canon s) : Canon (freeTag s c tag) := hc

theorem setLkOp_canon {s : State} {l : LkOp} (hc : Canon s) : Canon (setLkOp s l) := ite_both (settle_canon hc) hc

theorem linkFault_canon {s : State} {l : LkOp} {cause : Nat} {tag : BitVec 12} {epoch : BitVec 4} {dev : Nat} (hc : Canon s) :
    Canon (linkFault s l cause tag epoch dev) :=
  ite_both hc (threadFault_canon hc)

theorem answerFault_canon {s : State} {l : LkOp} {o : OutMsg} {cause : Nat} {epoch : BitVec 4} {dev : Nat} (hc : Canon s) :
    Canon (answerFault s l o cause epoch dev) :=
  ite_both (ite_both hc (threadFault_canon hc)) (linkFault_canon hc)

theorem finished_canon {s : State} {o : OutMsg} {acked : Bool} (hc : Canon s) : Canon (finished s o acked) := by
  unfold finished
  dsimp only
  split
  · exact setLkOp_canon (freeTag_canon hc)
  · exact freeTag_canon hc

theorem answered_canon {s : State} {o : OutMsg} {devs : List Nat} {acked : Bool} (hc : Canon s) :
    Canon (answered s o devs acked) :=
  ite_both (finished_canon hc) hc

theorem landGet_canon {s : State} {o : OutMsg} {data : List Byte} (hc : Canon s) : Answers Canon Canon (landGet s o data) :=
  ite_both (ite_both hc hc)
    (ite_both (putA_canon hc)
    (ite_both ((admitAll_canon hc).bind fun _ hc1 => foldl_canon (fun _ _ hc2 => wr_canon hc2) hc1)
    ((admitAll_canon hc).bind fun _ hc1 => (admitAll_canon hc1).bind fun _ hc2 => writeV_canon hc2)))

theorem takePart_canon {s : State} {x : Stream} {m : Msg} (hc : Canon s) : Canon (takePart s x m) :=
  ite_both (setStream_canon (slotWrite_canon hc)) (setStream_canon (slotWrite_canon hc))

theorem landTile_canon {s : State} {o : OutMsg} {m : Msg} (hc : Canon s) : Canon (landTile s o m) := by
  unfold landTile
  split
  · exact ite_both (takePart_canon hc) hc
  · exact hc

theorem tileAcked_canon {s : State} {o : OutMsg} (hc : Canon s) : Canon (tileAcked s o) := ite_both hc hc

theorem onResponse_canon {s : State} {m : Msg} (hc : Canon s) : Answers Canon Canon (onResponse s m) := by
  unfold onResponse
  split
  · exact bumpC_canon hc
  · refine ite_both (bumpC_canon hc) ?_
    dsimp only
    split
    · refine ite_both (answered_canon (landTile_canon hc)) ?_
      split
      · exact answered_canon ((landGet_canon hc).of_ok ‹_›)
      · exact answered_canon (ite_both ((landGet_canon hc).of_fault ‹_›) (threadFault_canon ((landGet_canon hc).of_fault ‹_›)))
      · exact trivial
    · exact answered_canon (answerFault_canon hc)
    · exact answered_canon (ite_both (tileAcked_canon hc) hc)

theorem spread_canon {s : State} {next : List (Nat × Coord)} {came : Option (Nat × Nat)} {hold : Option Nat} {m : Msg}
    (hc : Canon s) :
    Canon (spread s next came hold m) :=
  foldl_canon (fun _ _ hc1 => ite_both (portMsg_canon hc1) (sendRefusal_canon (countUnreach_canon hc1))) hc

theorem sourceData_canon {s : State} {l : LkOp} {n : Nat} (hc : Canon s) :
    Answers Canon (fun r => Canon r.1) (sourceData s l n) := by
  unfold sourceData
  split
  · exact (needF_canon hc).bind fun _ _ => (needF_canon hc).bind fun _ _ => (admitAll_canon hc).bind fun _ hc1 =>
      (askOutside_canon hc1).bind fun _ hc2 => hc2
  · exact (needF_canon hc).bind fun _ _ => (needF_canon hc).bind fun _ _ => (admitAll_canon hc).bind fun _ hc1 =>
      (askOutside_canon hc1).bind fun _ hc2 => hc2
  · exact (needF_canon hc).bind fun _ _ => (needF_canon hc).bind fun _ _ => (admitAll_canon hc).bind fun _ hc1 =>
      (askOutside_canon hc1).bind fun _ hc2 => hc2
  · exact hc

theorem depart_canon {s : State} {p : Nat} {i : Msg} (hc : Canon s) : Canon (depart s p i).1 := by
  unfold depart
  split
  · exact portMsg_canon hc
  · exact ite_both (countUnreach_canon hc) hc
  · exact hc

theorem launchCopies_canon {s : State} {c : Nat} {b : Box} {m : Msg} (hc : Canon s) : Canon (launchCopies s c b m).1 := by
  unfold launchCopies
  dsimp only
  split
  · exact hc
  · refine foldl_fst_canon (fun _ _ hc1 => ?_) hc
    split
    · exact spread_canon hc1
    · split
      · exact canon_of_fst_eq (depart_canon hc1) ‹_›
      · exact canon_of_fst_eq (depart_canon hc1) ‹_›

theorem launchMsg_canon {s : State} {c : Nat} {m : Msg} (hc : Canon s) :
    Answers Canon (fun r => Canon r.1) (launchMsg s c m) := by
  unfold launchMsg
  refine ite_both ?_ (ite_both
    ((atTarget_canon hc).bind fun ⟨_, _⟩ hc1 => (needF_canon hc1).bind fun _ _ => (onResponse_canon hc1).bind fun _ hc2 => hc2)
    (ite_both hc (depart_canon hc)))
  split
  · exact hc
  · exact launchCopies_canon hc

theorem unsent_canon {s : State} {l : LkOp} {o : OutMsg} {epoch : BitVec 4} {ks : List NotSent} (hc : Canon s) :
    Canon (unsent s l o epoch ks) :=
  answered_canon (foldl_canon (fun _ _ hc1 => linkFault_canon hc1) hc)

theorem opFault_canon {s : State} {l : LkOp} {f : PFault} (hc : Canon s) : Canon (opFault s l f) :=
  ite_both (setLkOp_canon hc) (threadFault_canon hc)

theorem sendNext_canon {s : State} {l : LkOp} (hc : Canon s) : Canon (sendNext s l).1 := by
  have hd := sourceData_canon (l := l) (n := nextLen l) hc
  unfold sendNext
  dsimp only
  split
  · exact hc
  · split
    · exact hc
    · exact opFault_canon (hd.of_fault ‹_›)
    · rename_i tag s1 data he
      have h1 : Canon s1 := hd.of_ok he
      split
      · exact hc
      · rename_i s3 f hl
        have h3 : Canon s3 := (launchMsg_canon (by exact h1)).of_fault hl
        exact finished_canon (ite_both h3 (threadFault_canon h3))
      · rename_i s3 hl
        have h3 : Canon s3 := (launchMsg_canon (by exact h1)).of_ok hl
        exact ite_both (finished_canon h3) h3
      · rename_i s3 ks _ hl
        have h3 : Canon s3 := (launchMsg_canon (by exact h1)).of_ok hl
        exact unsent_canon h3

theorem sendPart_canon {s : State} {x : TileOut} {tag : BitVec 12} (hc : Canon s) : Answers Canon Canon (sendPart s x tag) := by
  unfold sendPart
  extract_lets parts data m o rest
  clear_value m o rest
  refine (launchMsg_canon (by exact hc)).bind ?_
  rintro ⟨s1, _⟩ h1
  exact ite_both (P := Canon) h1 (unsent_canon h1)

theorem pumpTiles_canon {s : State} {c n : Nat} (hc : Canon s) : Canon (pumpTiles s c n) := by
  induction n generalizing s with
  | zero => exact hc
  | succ n ih =>
    unfold pumpTiles
    split
    · rename_i x tag _ _
      refine ite_both ?_ hc
      have hp := sendPart_canon (s := { s with tilesOut := x :: s.tilesOut.erase x }) (x := x) (tag := tag) hc
      dsimp only
      split
      · exact ih (hp.of_ok ‹_›)
      · exact hc
    · exact hc

theorem pump_canon {s : State} {c n : Nat} (hc : Canon s) : Canon (pump s c n) := by
  induction n generalizing s with
  | zero => exact hc
  | succ n ih =>
    unfold pump
    split
    · exact hc
    · rename_i l _
      have hn := sendNext_canon (l := l) hc
      revert hn
      generalize sendNext s l = r
      exact fun hn => ite_both (ih hn) hn

theorem pumpCtx_canon {s : State} {c : Nat} (hc : Canon s) : Canon (pumpCtx s c) := pumpTiles_canon (pump_canon hc)

theorem pumpAll_canon {s : State} (hc : Canon s) : Canon (pumpAll s) := foldl_canon (fun _ _ hc1 => pumpCtx_canon hc1) hc

theorem localTarget_canon {s : State} {t : Tid} {l : LkOp} (hc : Canon s) : Answers Canon (fun _ => True) (localTarget s t l) :=
  needF_canon hc

theorem issueLk_canon {s : State} {t : Tid} {th : Thread} {l : LkOp} (hc : Canon s) : Answers Canon Canon (issueLk s t th l) := by
  unfold issueLk
  refine (localTarget_canon hc).bind fun _ _ => can_canon.bind fun _ _ => ?_
  extract_lets s1
  have h1 : Canon s1 := stepOn_canon (notReplayable_canon hc)
  exact pumpCtx_canon h1

theorem localRange_canon {s : State} {t : Tid} {h : Handle} {off n : Nat} {reads : Bool} (hc : Canon s) :
    Answers Canon (fun _ => True) (localRange s t h off n reads) :=
  (needF_canon hc).bind fun _ _ => trivial

theorem lkCount_canon {s : State} {w : Word} (hc : Canon s) : Answers Canon (fun _ => True) (lkCount s w) :=
  (needF_canon hc).bind fun _ _ => trivial

theorem execLkPut_canon {t : Tid} {f : Fields} {s : State} (hc : Canon s) : NextCanon (execLkPut t f s) := by
  unfold execLkPut
  refine runThread_canon hc (fun _ _ hc1 => ?_)
  refine (dec_canon hc1).bind fun _ _ => (dec_canon hc1).bind fun _ _ => ?_
  refine src_canon.bind fun _ _ => src_canon.bind fun _ _ => src_canon.bind fun _ _ => ?_
  extract_lets _ _ jp
  have hjp : ∀ a, Answers Canon Canon (jp a) := by
    rintro _
    exact (getH_canon hc1).bind fun _ _ => (lkCount_canon hc1).bind fun _ _ => (localRange_canon hc1).bind fun _ _ =>
      issueLk_canon hc1
  clear_value jp
  exact ite_both (src_canon.bind fun _ _ => hjp _) (hjp _)

theorem execLkGet_canon {t : Tid} {f : Fields} {s : State} (hc : Canon s) : NextCanon (execLkGet t f s) :=
  runThread_canon hc (fun _ _ hc1 => (dec_canon hc1).bind fun _ _ => (dec_canon hc1).bind fun _ _ => src_canon.bind fun _ _ =>
    src_canon.bind fun _ _ => src_canon.bind fun _ _ => (getH_canon hc1).bind fun _ _ => (lkCount_canon hc1).bind fun _ _ =>
    (localRange_canon hc1).bind fun _ _ => (mayWrite_canon hc1).bind fun _ _ => issueLk_canon (noteHandleWrite_canon hc1))

theorem execLkAdd_canon {t : Tid} {f : Fields} {s : State} (hc : Canon s) : NextCanon (execLkAdd t f s) := by
  unfold execLkAdd
  refine runThread_canon hc (fun _ _ hc1 => ?_)
  refine (dec_canon hc1).bind fun _ _ => (dec_canon hc1).bind fun _ _ => ?_
  refine src_canon.bind fun _ _ => src_canon.bind fun _ _ => src_canon.bind fun _ _ => ?_
  extract_lets _ _ jp
  have hjp : ∀ a, Answers Canon Canon (jp a) := by
    rintro _
    exact (getH_canon hc1).bind fun _ _ => (lkCount_canon hc1).bind fun _ _ => (needF_canon hc1).bind fun _ _ =>
      (localRange_canon hc1).bind fun _ _ => issueLk_canon hc1
  clear_value jp
  exact ite_both (src_canon.bind fun _ _ => hjp _) (hjp _)

theorem execLkSig_canon {t : Tid} {f : Fields} {s : State} (hc : Canon s) : NextCanon (execLkSig t f s) :=
  runThread_canon hc (fun _ _ hc1 => (dec_canon hc1).bind fun _ _ => (dec_canon hc1).bind fun _ _ => src_canon.bind fun _ _ =>
    issueLk_canon hc1)

theorem execLkMcast_canon {t : Tid} {f : Fields} {s : State} (hc : Canon s) : NextCanon (execLkMcast t f s) :=
  runThread_canon hc (fun _ _ hc1 => (dec_canon hc1).bind fun _ _ => (dec_canon hc1).bind fun _ _ => src_canon.bind fun _ _ =>
    srcG_canon.bind fun _ _ => srcG_canon.bind fun _ _ => src_canon.bind fun _ _ => (needF_canon hc1).bind fun _ _ =>
    (getH_canon hc1).bind fun _ _ => (lkCount_canon hc1).bind fun _ _ => (localRange_canon hc1).bind fun _ _ => issueLk_canon hc1)

theorem execLkWait_canon {t : Tid} {f : Fields} {s : State} (hc : Canon s) : NextCanon (execLkWait t f s) :=
  runThread_canon hc (fun _ _ hc1 => (dec_canon hc1).bind fun _ _ => (dec_canon hc1).bind fun _ _ =>
    ite_both (stepOn_canon (notReplayable_canon (t := t) hc1)) (setT_canon (notReplayable_canon (t := t) hc1)))

theorem execLkWaitDone_canon {t : Tid} {s : State} (hc : Canon s) : NextCanon (execLkWaitDone t s) := by
  unfold execLkWaitDone
  refine runPlain_canon (the_canon.bind fun _ _ => ?_)
  split
  · exact can_canon.bind fun _ _ => can_canon.bind fun _ _ => stepOn_canon hc
  · exact trivial

theorem execResponseTimeout_canon {c : CtxN} {tag : BitVec 12} {s : State} (hc : Canon s) :
    NextCanon (execResponseTimeout c tag s) :=
  runPlain_canon (can_canon.bind fun _ _ => the_canon.bind fun _ _ => can_canon.bind fun _ _ =>
    pumpCtx_canon (finished_canon (linkFault_canon (bumpC_canon hc))))

theorem execMessageForward_canon {m : Msg} {s : State} (hc : Canon s) : NextCanon (execMessageForward m s) :=
  runPlain_canon (can_canon.bind fun _ _ => can_canon.bind fun _ _ => (holdMsg_canon hc).bind fun ⟨_, _, _⟩ hc1 =>
    closeHeld_canon (sendOn_canon hc1))

end Sys2Proof.Machine

namespace Sys2Proof.Machine

/-! ### The canonical form: draft instructions and tiles -/

theorem needFmt_canon {s : State} {c : Nat} (hc : Canon s) : Answers Canon (fun _ => True) (needFmt s c) := theF_canon hc

theorem walkMode_canon {s : State} {w1 : Word} (hc : Canon s) : Answers Canon (fun _ => True) (walkMode s w1) :=
  (needF_canon hc).bind fun _ _ => trivial

theorem tileWalk_canon {s : State} {h : Handle} {w0 w1 : Word} {rep fmt size : Nat} (hc : Canon s) :
    Answers Canon (fun _ => True) (tileWalk s h w0 w1 rep fmt size) :=
  (needF_canon hc).bind fun _ _ => (needF_canon hc).bind fun _ _ => (needF_canon hc).bind fun _ _ => trivial

theorem rowsWalk_canon {s : State} {h : Handle} {w0 : Word} {rep fmt size : Nat} (hc : Canon s) :
    Answers Canon (fun _ => True) (rowsWalk s h w0 rep fmt size) :=
  (needF_canon hc).bind fun _ _ => (needF_canon hc).bind fun _ _ => trivial

theorem scaleOf?_canon {s : State} {c : Nat} {h : Handle} (hc : Canon s) : Answers Canon (fun _ => True) (scaleOf? s c h) :=
  ite_both ((getScale_canon hc).bind fun _ _ => trivial) trivial

theorem slubOf?_canon {s : State} {c : Nat} {h : Handle} {fmt : Nat} (hc : Canon s) :
    Answers Canon (fun _ => True) (slubOf? s c h fmt) :=
  ite_both ((getSlub_canon hc).bind fun _ _ => trivial) trivial

theorem convOk_canon {s : State} {store : Bool} {h : Handle} {fmt : Fmt} (hc : Canon s) :
    Answers Canon (fun _ => True) (convOk s store h fmt) :=
  (needFmt_canon hc).bind fun _ _ => (needF_canon hc).bind fun _ _ => needF_canon hc

theorem openLdSt_canon {t : Tid} {f : Fields} {s : State} {store : Bool} (hc : Canon s) : NextCanon (openLdSt t f s store) := by
  unfold openLdSt
  refine runThread_canon hc (fun _ _ hc1 => ?_)
  refine (dec_canon hc1).bind fun _ _ => src_canon.bind fun _ _ => ?_
  refine srcG_canon.bind fun _ _ => srcG_canon.bind fun _ _ => (freshSid_canon hc1).bind fun _ _ => ?_
  refine (readRegion_canon hc1).bind fun _ _ => (walkMode_canon hc1).bind ?_
  rintro ⟨_, _, _⟩ _
  refine ite_both ((needFmt_canon hc1).bind fun _ _ => stepOn_canon (ite_both (noteHandleWrite_canon hc1) hc1)) ?_
  refine ite_both ((needFmt_canon hc1).bind fun _ _ => stepOn_canon (ite_both (noteHandleWrite_canon hc1) hc1)) ?_
  refine (getH_canon hc1).bind fun _ _ => (needFmt_canon hc1).bind fun _ _ => ?_
  extract_lets _ s1 walked jp
  have h1 : Canon s1 := ite_both (noteHandleWrite_canon hc1) hc1
  clear_value s1
  have hwalked : ∀ wk, Answers Canon Canon (walked wk) := by
    intro wk
    refine (scaleOf?_canon hc1).bind fun _ _ => ?_
    exact ite_both ((needF_canon hc1).bind fun _ _ => stepOn_canon (by exact h1))
      ((slubOf?_canon hc1).bind fun _ _ => (needF_canon hc1).bind fun _ _ => stepOn_canon (by exact h1))
  clear_value walked
  have hjp : ∀ a, Answers Canon Canon (jp a) := fun _ =>
    ite_both ((tileWalk_canon hc1).bind fun _ _ => hwalked _)
      ((convOk_canon hc1).bind fun _ _ => (rowsWalk_canon hc1).bind fun _ _ => hwalked _)
  clear_value jp
  exact ite_both ((mayWrite_canon hc1).bind fun _ _ => hjp _) (hjp _)

theorem execDraftLd_canon {t : Tid} {f : Fields} {s : State} (hc : Canon s) : NextCanon (execDraftLd t f s) := openLdSt_canon hc

theorem execDraftSt_canon {t : Tid} {f : Fields} {s : State} (hc : Canon s) : NextCanon (execDraftSt t f s) := openLdSt_canon hc

theorem execDraftGather_canon {t : Tid} {f : Fields} {s : State} (hc : Canon s) : NextCanon (execDraftGather t f s) :=
  runThread_canon hc (fun _ _ hc1 => (dec_canon hc1).bind fun _ _ => src_canon.bind fun _ _ => src_canon.bind fun _ _ =>
    src_canon.bind fun _ _ => (freshSid_canon hc1).bind fun _ _ => (readRegion_canon hc1).bind fun _ _ =>
    (getH_canon hc1).bind fun _ _ => (needF_canon hc1).bind fun _ _ => (kvDims_canon hc1).bind fun ⟨_, _⟩ _ =>
    (getH_canon hc1).bind fun _ _ => (needF_canon hc1).bind fun _ _ => (needF_canon hc1).bind fun _ _ =>
    (needF_canon hc1).bind fun _ _ => (needF_canon hc1).bind fun _ _ => (needF_canon hc1).bind fun _ _ => stepOn_canon hc1)

theorem pageEntry_canon {s : State} {c : Nat} {h : Handle} {g d p : Nat} (hc : Canon s) :
    Answers Canon (fun r => Canon r.1) (pageEntry s c h g d p) := by
  unfold pageEntry
  refine (needF_canon hc).bind fun _ _ => (needF_canon hc).bind fun _ _ => (needF_canon hc).bind fun _ _ => ?_
  refine (askOutside_canon hc).bind fun s1 hc1 => ?_
  extract_lets w b
  clear_value w b
  refine (needF_canon hc1).bind fun _ _ => ?_
  refine (needF_canon hc1).bind fun _ _ => ?_
  exact hc1

theorem waitEffect_canon {s : State} {t : Tid} {w : DWait} (hc : Canon s) : Canon (waitEffect s t w) := by
  unfold waitEffect
  split
  · exact hc
  · split
    · exact setStream_canon hc
    · exact hc
  · exact hc

theorem doWait_canon {s : State} {t : Tid} {th : Thread} {w : DWait} (hc : Canon s) : Canon (doWait s t th w) :=
  ite_both (stepOn_canon (waitEffect_canon hc)) (setT_canon hc)

theorem execDraftWait_canon {t : Tid} {f : Fields} {s : State} (hc : Canon s) : NextCanon (execDraftWait t f s) :=
  runThread_canon hc (fun _ _ hc1 => (dec_canon hc1).bind fun _ _ => src_canon.bind fun _ _ =>
    (needStream_canon hc1).bind fun _ _ => (needF_canon hc1).bind fun _ _ => (needF_canon hc1).bind fun _ _ => doWait_canon hc1)

theorem noteStreamUse_canon {s : State} {t : Tid} {sid tile : Nat} {closing : Bool} (hc : Canon s) :
    Canon (noteStreamUse s t sid tile closing) :=
  hc

theorem execDraftWaitFree_canon {t : Tid} {f : Fields} {s : State} (hc : Canon s) : NextCanon (execDraftWaitFree t f s) :=
  runThread_canon hc (fun _ _ hc1 => (dec_canon hc1).bind fun _ _ => (needStream_canon hc1).bind fun _ _ =>
    (needF_canon hc1).bind fun _ _ => doWait_canon (noteStreamUse_canon (setStream_canon hc1)))

theorem execDraftWaitClose_canon {t : Tid} {f : Fields} {s : State} (hc : Canon s) : NextCanon (execDraftWaitClose t f s) :=
  runThread_canon hc (fun _ _ hc1 => (dec_canon hc1).bind fun _ _ => (needStream_canon hc1).bind fun _ _ =>
    doWait_canon (noteStreamUse_canon hc1))

theorem execDraftWaitDone_canon {t : Tid} {s : State} (hc : Canon s) : NextCanon (execDraftWaitDone t s) := by
  unfold execDraftWaitDone
  refine runPlain_canon (the_canon.bind fun _ _ => ?_)
  split
  · exact can_canon.bind fun _ _ => can_canon.bind fun _ _ => stepOn_canon (waitEffect_canon hc)
  · exact trivial

theorem movable_canon {s : State} {t : Tid} {sid : Nat} : Answers Canon (fun _ => True) (movable s t sid) :=
  can_canon.bind fun _ _ => the_canon.bind fun _ _ => can_canon.bind fun _ _ => can_canon.bind fun _ _ => trivial

theorem partsOk_canon {s : State} {c : Nat} {ps : List Part} {reads : Bool} (hc : Canon s) :
    Answers Canon (fun _ => True) (partsOk s c ps reads) := by
  unfold partsOk
  refine forM_canon (fun _ => ?_)
  refine ite_both ?_ (mayDepart_canon hc)
  split
  · exact hc
  · exact trivial

theorem cool_canon {s : State} {ss : List (Nat × Nat)} : Answers Canon (fun _ => True) (cool s ss) := can_canon

theorem readReady_canon {s : State} {c : Nat} {ps : List Part} (hc : Canon s) :
    Answers Canon (fun _ => True) (readReady s c ps) :=
  (partsOk_canon hc).bind fun _ _ => cool_canon.bind fun _ _ => trivial

theorem writeReady_canon {s : State} {c : Nat} {ps : List Part} {w : Writer} (hc : Canon s) :
    Answers Canon (fun _ => True) (writeReady s c ps w) :=
  (partsOk_canon hc).bind fun _ _ => cool_canon.bind fun _ _ => trivial

theorem partsClean_canon {s : State} {c : Nat} {ps : List Part} (hc : Canon s) :
    Answers Canon (fun _ => True) (partsClean s c ps) := by
  unfold partsClean
  refine forM_canon (fun _ => ?_)
  split
  · exact hc
  · exact trivial

theorem fromOutside_canon {s : State} {c : Nat} {ps : List Part} {reply : FarReply} (hc : Canon s) :
    Answers Canon (fun r => Canon r.1) (fromOutside s c ps reply) := by
  unfold fromOutside
  dsimp only
  split
  · exact hc
  · exact can_canon.bind fun _ _ => foldl_canon (fun _ _ hc1 => ite_both (toHost_canon hc1) hc1) hc
  · exact the_canon.bind fun ⟨_, _, _⟩ _ => hc
  · exact the_canon.bind fun ⟨_, _, _⟩ _ => can_canon.bind fun _ _ => hc

theorem arriveTile_canon {s : State} {t : Tid} {sid : Nat} {reply : FarReply} (hc : Canon s) :
    Answers Canon Canon (arriveTile s t sid reply) := by
  unfold arriveTile
  refine movable_canon.bind fun _ _ => can_canon.bind fun _ _ => ?_
  refine the_canon.bind fun _ _ => can_canon.bind fun _ _ => (readReady_canon hc).bind fun _ _ => ?_
  split
  · exact missPage_canon hc
  · exact (fromOutside_canon hc).bind fun ⟨_, _⟩ hc1 => (partsClean_canon hc1).bind fun _ _ => (slubsOk_canon hc1).bind fun _ _ =>
      (account_canon (accessPages_canon (creelFetch_canon hc1))).bind fun _ hc2 =>
      poolSettle_canon (setStream_canon (slotWrite_canon hc2))

theorem execTileArrive_canon {t : Tid} {sid : BitVec 5} {reply : FarReply} {s : State} (hc : Canon s) :
    NextCanon (execTileArrive t sid reply s) :=
  runEvent_canon (arriveTile_canon hc)

theorem padRow_canon {s : State} {c : Nat} {h : Handle} {w : Writer} {r : Nat} (hc : Canon s) : Canon (padRow s c h w r) :=
  writeV_canon hc

theorem drainPage_canon {s : State} {x : Stream} {n : Nat} {h : Handle} {v : Bool} {p hd : Nat} (hc : Canon s) :
    Answers Canon Canon (drainPage s x n h v p hd) := by
  unfold drainPage
  refine (kvDims_canon hc).bind ?_
  rintro ⟨_, _⟩ _
  refine (readReady_canon hc).bind fun _ _ => ?_
  split
  · exact missPage_canon hc
  · refine (pageEntry_canon hc).bind ?_
    rintro ⟨_, _, _⟩ hc1
    refine (writeReady_canon hc1).bind fun _ _ => ?_
    split
    · exact missPage_canon hc1
    · refine (account_canon hc1).bind fun _ hc2 => ?_
      extract_lets _ st
      have hc3 : Canon st := foldl_canon (fun _ _ hc3 => writeV_canon hc3) (coverBytes_canon (accessPages_canon hc2))
      clear_value st
      exact settle_canon (setStream_canon (mendBytes_canon hc3))

theorem runOut_canon {s : State} {c : Nat} {r : Nat × List Nat} (hc : Canon s) : Canon (runOut s c r) := by
  unfold runOut
  extract_lets _ _ _ _ _ st
  have hc1 : Canon st := ite_both (ite_both (halfOut_canon hc) hc) (putA_canon (ite_both (halfOut_canon hc) hc))
  clear_value st
  exact ite_both (halfOut_canon hc1) hc1

theorem putFar_canon {s : State} {c : Nat} {w : Writer} {f : FarWrite} (hc : Canon s) : Canon (putFar s c w f) :=
  ite_both (foldl_canon (fun _ _ hc1 => runOut_canon hc1) hc)
    (mendV_canon (foldl_canon (fun _ _ hc1 => padRow_canon hc1)
    (foldl_canon (fun _ _ hc1 => putElemV_canon hc1) (coverV_canon hc))))

theorem drainSlot_canon {s : State} {t : Tid} {sid : Nat} (hc : Canon s) : Answers Canon Canon (drainSlot s t sid) := by
  unfold drainSlot
  refine movable_canon.bind fun _ _ => can_canon.bind fun _ _ => ?_
  refine can_canon.bind fun _ _ => (slotClean_canon hc).bind fun _ _ => the_canon.bind fun _ _ => ?_
  split
  · exact drainPage_canon hc
  · refine (writeReady_canon hc).bind fun _ _ => ?_
    split
    · exact missPage_canon hc
    · refine (account_canon hc).bind fun _ hc1 => ?_
      extract_lets _ st
      have hc2 : Canon st := foldl_canon (fun _ _ hc2 => putFar_canon hc2) (accessPages_canon hc1)
      clear_value st
      exact settle_canon (setStream_canon hc2)

theorem execSlotDrain_canon {t : Tid} {sid : BitVec 5} {s : State} (hc : Canon s) : NextCanon (execSlotDrain t sid s) :=
  runEvent_canon (drainSlot_canon hc)

theorem execMigrationComplete_canon {page : BitVec 21} {s : State} (hc : Canon s) : NextCanon (execMigrationComplete page s) := by
  unfold execMigrationComplete
  refine runPlain_canon (can_canon.bind fun _ _ => the_canon.bind fun m _ => ?_)
  refine (the_some_canon ?_).bind fun _ hc1 => pumpAll_canon (dropMig_canon hc1)
  split
  · exact bringIn_canon hc
  · exact hc

theorem gatherRead_canon {s : State} {x : Stream} {ps : List Part} (hc : Canon s) :
    Answers Canon (fun r => Canon r.1) (gatherRead s x ps) := by
  unfold gatherRead
  refine (needF_canon hc).bind fun _ _ => (readReady_canon hc).bind fun _ _ => ?_
  split
  · exact hc
  · exact (partsClean_canon hc).bind fun _ _ => (foldlM_canon (fun _ _ hc1 => askAll_canon hc1) hc).bind fun _ hc1 =>
      accessPages_canon hc1

theorem openList_canon {s : State} {x : Stream} {n : Nat} (hc : Canon s) :
    Answers Canon (fun r => Canon r.1) (openList s x n) := by
  induction n generalizing s x with
  | zero => exact hc
  | succ n ih =>
    unfold openList
    split
    · refine ite_both hc ((gatherRead_canon hc).bind ?_)
      rintro ⟨s1, miss⟩ h1
      exact ite_both h1 (ite_both h1 (ih h1))
    · exact hc

theorem serveEntry_canon {s : State} {x : Stream} {n : Nat} (hc : Canon s) : Answers Canon Canon (serveEntry s x n) := by
  unfold serveEntry
  refine the_canon.bind fun _ _ => (gatherRead_canon hc).bind ?_
  rintro ⟨_, _⟩ hc1
  dsimp only
  split
  · exact missPage_canon hc1
  · refine (needF_canon hc1).bind fun _ _ => (kvDims_canon hc1).bind ?_
    rintro ⟨_, _⟩ _
    refine (readReady_canon hc1).bind fun _ _ => ?_
    split
    · exact missPage_canon hc1
    · refine (pageEntry_canon hc1).bind ?_
      rintro ⟨_, _, _⟩ hc2
      split
      · exact bumpC_canon (poolSettle_canon (setStream_canon (accessPages_canon hc2)))
      · refine the_canon.bind fun _ _ => ?_
        refine can_canon.bind fun _ _ => (gatherRead_canon (accessPages_canon hc2)).bind ?_
        rintro ⟨_, _⟩ hc3
        split
        · exact missPage_canon hc3
        · exact bumpC_canon (poolSettle_canon (setStream_canon (slotWrite_canon (creelFetch_canon hc3))))

theorem deliverEntry_canon {s : State} {t : Tid} {sid : Nat} (hc : Canon s) : Answers Canon Canon (deliverEntry s t sid) := by
  unfold deliverEntry
  refine movable_canon.bind fun _ _ => ?_
  refine can_canon.bind fun _ _ => can_canon.bind fun _ _ => (openList_canon hc).bind ?_
  rintro ⟨_, _, _⟩ hc1
  dsimp only
  split
  · exact missPage_canon hc1
  · exact serveEntry_canon hc1
  · exact poolSettle_canon (setStream_canon hc1)

theorem execGatherEntryDeliver_canon {t : Tid} {sid : BitVec 5} {s : State} (hc : Canon s) :
    NextCanon (execGatherEntryDeliver t sid s) :=
  runEvent_canon (deliverEntry_canon hc)

theorem execStreamStall_canon {t : Tid} {sid : BitVec 5} {s : State} (hc : Canon s) : NextCanon (execStreamStall t sid s) :=
  runEvent_canon (can_canon.bind fun _ _ => the_canon.bind fun _ _ => can_canon.bind fun _ _ => hc)

theorem execDraftPlanStart_canon {t : Tid} {f : Fields} {s : State} (hc : Canon s) : NextCanon (execDraftPlanStart t f s) :=
  runThread_canon hc (fun _ _ hc1 => (dec_canon hc1).bind fun _ _ => (dec_canon hc1).bind fun _ _ =>
    (getH_canon hc1).bind fun _ _ => (needF_canon hc1).bind fun _ _ => (needF_canon hc1).bind fun _ _ =>
    stepOn_canon (notReplayable_canon (t := t) hc1))

theorem execDraftPlanAdvance_canon {t : Tid} {f : Fields} {s : State} (hc : Canon s) : NextCanon (execDraftPlanAdvance t f s) :=
  runThread_canon hc (fun _ _ hc1 => (dec_canon hc1).bind fun _ _ => (dec_canon hc1).bind fun _ _ => src_canon.bind fun _ _ =>
    (theF_canon hc1).bind fun _ _ => (needF_canon hc1).bind fun _ _ => stepOn_canon (notReplayable_canon (t := t) hc1))

theorem releasePage_canon {s : State} {pg : Nat} (hc : Canon s) : Canon (releasePage s pg) := by
  unfold releasePage
  split
  · exact hc
  · exact hc

theorem killPage_canon {s : State} {pg : Nat} (hc : Canon s) : Canon (killPage s pg) := clearMem_canon (dropMig_canon hc)

theorem setPlan_canon {s : State} {n : Nat} {q : Option Plan} (hc : Canon s) : Canon (setPlan s n q) := hc

theorem planStep_canon {s : State} {n : Nat} {q : Plan} {r : UReg} {w0 w1 : Word} (hc : Canon s) :
    Answers Canon Canon (planStep s n q r w0 w1) := by
  refine (need_canon (e := .fault s _) hc).bind fun _ _ => ?_
  dsimp only
  split
  · exact setPlan_canon hc
  · refine ite_both (can_canon.bind fun _ _ => ?_) (can_canon.bind fun _ _ => setPlan_canon hc)
    exact ite_both (askMig_canon (setPlan_canon hc)) (setPlan_canon hc)
  · split
    · trivial
    · exact (need_canon (e := .fault s _) hc).bind fun _ _ => setPlan_canon hc
  · refine can_canon.bind fun _ _ => setPlan_canon (foldl_canon (fun s x h => ?_) hc)
    split
    · exact releasePage_canon h
    · exact killPage_canon h

theorem execPlanCursor_canon {n : BitVec 8} {s : State} (hc : Canon s) : NextCanon (execPlanCursor n s) := by
  unfold execPlanCursor
  refine runEvent_canon (can_canon.bind fun _ _ => ?_)
  refine the_canon.bind fun _ _ => can_canon.bind fun _ _ => the_canon.bind fun _ _ => ?_
  refine (needF_canon hc).bind fun _ _ => (readReady_canon hc).bind fun _ _ => ?_
  split
  · exact can_canon.bind fun _ _ => askMig_canon hc
  · exact (partsClean_canon hc).bind fun _ _ => (askAll_canon hc).bind fun _ hc1 => (planStep_canon hc1).bind fun _ hc2 =>
      pumpAll_canon hc2

/-! ### The canonical form: issue of engine instructions -/

theorem engineRoom_canon {s : State} {t : Tid} {e : Nat} : Answers Canon (fun _ => True) (engineRoom s t e) :=
  can_canon

theorem issueOp_canon {s : State} {t : Tid} {th : Thread} {o : EngOp} (hc : Canon s) : Canon (issueOp s t th o) := stepOn_canon hc

theorem setOp_canon {s : State} {o : EngOp} (hc : Canon s) : Canon (setOp s o) := hc

theorem dropOp_canon {s : State} {o : EngOp} (hc : Canon s) : Canon (dropOp s o) := hc

theorem readVop_canon {s : State} {w : Word} (hc : Canon s) : Answers Canon (fun _ => True) (readVop s w) :=
  (needF_canon hc).bind fun _ _ => (needF_canon hc).bind fun _ _ => trivial

theorem putRow_canon {s : State} {t : Tid} {v : Vop} {r : Nat} {cs : List Nat} (hc : Canon s) : Canon (putRow s t v r cs) :=
  scratchWrite_canon hc

theorem noteLocalUse_canon {s : State} {t : Tid} {x : Stream} (hc : Canon s) : Canon (noteLocalUse s t x) := hc

theorem claimSrc_canon {s : State} {t : Tid} {o : EngOp} {a n : Nat} (hc : Canon s) :
    Answers Canon (fun r => Canon r.1) (claimSrc s t o a n) := by
  unfold claimSrc
  split
  · exact noteScrRead_canon hc
  · exact ite_both hc (ite_both ((needF_canon hc).bind fun _ _ => setStream_canon (noteLocalUse_canon hc)) hc)

theorem claimDst_canon {s : State} {t : Tid} {o : EngOp} {a n : Nat} (hc : Canon s) :
    Answers Canon (fun r => Canon r.1) (claimDst s t o a n) := by
  unfold claimDst
  split
  · exact noteScrWrite_canon hc
  · refine (needF_canon hc).bind fun _ _ => ?_
    extract_lets st jp
    have hst : Canon st := ite_both (foldl_canon (fun _ _ hc1 => noteHandleWrite_canon hc1) hc) hc
    have hjp : ∀ a, Answers Canon (fun r => Canon r.1) (jp a) := fun _ => setStream_canon hst
    clear_value jp
    exact ite_both ((forM_canon (fun _ => mayWrite_canon hc)).bind fun _ _ => hjp _) (hjp _)

theorem noteShapes_canon {s : State} {t : Tid} {cs : List Claim} {rows len pitch : Nat} (hc : Canon s) :
    Canon (noteShapes s t cs rows len pitch) := by
  unfold noteShapes
  refine foldl_canon (fun _ _ hc1 => ?_) hc
  split
  · exact ite_both (setStream_canon hc1) hc1
  · exact hc1

theorem srcVop_canon {s : State} {t : Tid} {o : EngOp} {v : Vop} (hc : Canon s) :
    Answers Canon (fun r => Canon r.1) (srcVop s t o v) :=
  claimSrc_canon hc

theorem dstVop_canon {s : State} {t : Tid} {o : EngOp} {v : Vop} (hc : Canon s) :
    Answers Canon (fun r => Canon r.1) (dstVop s t o v) :=
  (claimDst_canon hc).bind fun ⟨_, _⟩ hc1 => noteShapes_canon hc1

theorem doneClaim_canon {s : State} {t : Tid} {rows : Nat} {c : Claim} (hc : Canon s) : Canon (doneClaim s t rows c) := by
  unfold doneClaim
  split
  · exact hc
  · exact ite_both (setStream_canon hc) (setStream_canon hc)

theorem finishOp_canon {s : State} {o : EngOp} {rows : Nat} (hc : Canon s) : Canon (finishOp s o rows) :=
  settle_canon (dropOp_canon (foldl_canon (fun _ _ hc1 => doneClaim_canon hc1) hc))

theorem reachFrom_canon {s : State} {A c : Nat} {h : Handle} {ss : List (Nat × Nat)} {w : Option Writer} (hc : Canon s) :
    Answers Canon Canon (reachFrom s A c h ss w) := by
  unfold reachFrom
  extract_lets jp
  have hjp : ∀ a, Answers Canon Canon (jp a) := by
    rintro _
    dsimp only [jp]
    split
    · exact (admitAll_canon hc).bind fun _ hc1 => (needF_canon hc1).bind fun _ _ => askAll_canon hc1
    · exact (admitAll_canon hc).bind fun _ hc1 => admitAll_canon hc1
  clear_value jp
  exact ite_both ((needF_canon hc).bind fun _ _ => hjp _) ((mayDepart_canon hc).bind fun _ _ => hjp _)

theorem reachView_canon {s : State} {t : Tid} {h : Handle} {ss : List (Nat × Nat)} {w : Option Writer} (hc : Canon s) :
    Answers Canon Canon (reachView s t h ss w) :=
  reachFrom_canon hc

theorem produceAcc_canon {s : State} {th : Thread} (hc : Canon s) : Answers Canon (fun _ => True) (produceAcc s th) :=
  (needF_canon hc).bind fun _ _ => trivial

theorem produceVepi_canon {s : State} {th : Thread} (hc : Canon s) : Answers Canon (fun _ => True) (produceVepi s th) :=
  (needF_canon hc).bind fun _ _ => trivial

theorem consumeAcc_canon {s : State} {th : Thread} (hc : Canon s) : Answers Canon (fun _ => True) (consumeAcc s th) :=
  (theF_canon hc).bind fun _ _ => trivial

theorem consumeVepi_canon {s : State} {th : Thread} (hc : Canon s) : Answers Canon (fun _ => True) (consumeVepi s th) :=
  (theF_canon hc).bind fun _ _ => trivial

theorem endOp_canon {s : State} {o : EngOp} (hc : Canon s) : Canon (endOp s o) :=
  ite_both (settle_canon (dropOp_canon hc)) (finishOp_canon hc)

theorem takeTile_canon {s : State} {p : EngOp} {more : Bool} (hc : Canon s) : Canon (takeTile s p more) :=
  ite_both (setOp_canon hc) (endOp_canon hc)

end Sys2Proof.Machine

namespace Sys2Proof.Machine

/-! ### The canonical form: `mma` -/

theorem operandStream_canon {s : State} {t : Tid} {sid fmt tiles : Nat} {gatherOk : Bool} (hc : Canon s) :
    Answers Canon (fun _ => True) (operandStream s t sid fmt tiles gatherOk) := by
  unfold operandStream
  refine (needStream_canon hc).bind fun _ _ => ?_
  dsimp only
  split
  · exact (needF_canon hc).bind fun _ _ => trivial
  · exact (needF_canon hc).bind fun _ _ => (needF_canon hc).bind fun _ _ => (needF_canon hc).bind fun _ _ => trivial
  · exact (needF_canon hc).bind fun _ _ => trivial
  · exact (needF_canon hc).bind fun _ _ => trivial
  · exact hc

theorem operandScale_canon {s : State} {c : Nat} {h : Handle} {isB : Bool} (hc : Canon s) :
    Answers Canon (fun _ => True) (operandScale s c h isB) :=
  ite_both ((getScale_canon hc).bind fun _ _ => (needF_canon hc).bind fun _ _ => trivial) trivial

theorem imageOf_canon {s : State} {t : Tid} {b : Binding} {m n : Nat} {others : List (Nat × Nat)} (hc : Canon s) :
    Answers Canon (fun _ => True) (imageOf s t b m n others) :=
  ite_both trivial ((getH_canon hc).bind fun _ _ => (needF_canon hc).bind fun _ _ => (needF_canon hc).bind fun _ _ =>
    (needF_canon hc).bind fun _ _ => trivial)

theorem dIndex_canon {s : State} {th : Thread} {f : Fields} (hc : Canon s) : Answers Canon (fun _ => True) (dIndex s th f) :=
  ite_both (src_canon.bind fun _ _ => (needF_canon hc).bind fun _ _ => trivial) trivial

theorem needEntry_canon {s : State} {x : Stream} {list entry : Nat} (hc : Canon s) :
    Answers Canon Canon (needEntry s x list entry) := by
  unfold needEntry
  split
  · exact (needF_canon hc).bind fun _ _ => (reachView_canon hc).bind fun _ hc1 => (needF_canon hc1).bind fun _ _ => hc1
  · exact hc

theorem gatherProblem_canon {s : State} {x : Stream} {b : Binding} {h : Handle} (hc : Canon s) :
    Answers Canon (fun r => Canon r.1) (gatherProblem s x b h) :=
  (kvDims_canon hc).bind fun ⟨_, _⟩ _ => (needEntry_canon hc).bind fun _ hc1 => hc1

theorem boundOk_canon {s : State} {t : Tid} {x : Stream} {hs : List Handle} (hc : Canon s) :
    Answers Canon (fun _ => True) (boundOk s t x hs) := by
  unfold boundOk
  split
  · exact (needF_canon hc).bind fun _ _ => needF_canon hc
  · exact needF_canon hc
  · exact trivial

theorem execMma_canon {t : Tid} {f : Fields} {s : State} (hc : Canon s) : NextCanon (execMma t f s) := by
  unfold execMma
  refine runThread_canon hc (fun _ _ hc1 => ?_)
  refine (dec_canon hc1).bind fun _ _ => (dec_canon hc1).bind fun _ _ => ?_
  refine engineRoom_canon.bind fun _ _ => src_canon.bind fun _ _ => ?_
  refine src_canon.bind fun _ _ => src_canon.bind fun _ _ => (needF_canon hc1).bind fun _ _ => ?_
  refine (getH_canon hc1).bind fun _ _ => (getH_canon hc1).bind fun _ _ => ?_
  refine (needF_canon hc1).bind fun _ _ => (needF_canon hc1).bind fun _ _ => ?_
  extract_lets m mt toD withD
  clear_value m mt toD
  have hWithD : ∀ a, Answers Canon Canon (withD a) := by
    rintro _
    refine (needStream_canon hc1).bind fun _ _ => ?_
    extract_lets withProblem
    have hWithProblem : ∀ a, Canon a.1 → Answers Canon Canon (withProblem a) := by
      rintro ⟨_, _, _⟩ hc2
      refine (needF_canon hc2).bind fun _ _ => (needF_canon hc2).bind fun _ _ => ?_
      refine (forM_canon (fun _ => needF_canon hc2)).bind fun _ _ => (needF_canon hc2).bind fun _ _ => ?_
      refine (needF_canon hc2).bind fun _ _ => (needF_canon hc2).bind fun _ _ => ?_
      refine (needF_canon hc2).bind fun _ _ => (needF_canon hc2).bind fun _ _ => ?_
      refine (operandStream_canon hc2).bind fun _ _ => (operandStream_canon hc2).bind fun _ _ => ?_
      extract_lets cs spill o0 l2 at' bt keep order withAk
      have hWithAk : ∀ a, Answers Canon Canon (withAk a) := by
        rintro _
        dsimp -zeta only [withAk]
        extract_lets withBk
        have hWithBk : ∀ a, Answers Canon Canon (withBk a) := by
          rintro _
          dsimp -zeta only [withBk]
          extract_lets withTk
          have hWithTk : ∀ a, Answers Canon Canon (withTk a) := by
            rintro _
            dsimp -zeta only [withTk]
            extract_lets withSlub
            have hWithSlub : ∀ a, Answers Canon Canon (withSlub a) := by
              rintro _
              dsimp -zeta only [withSlub]
              refine (needF_canon hc2).bind fun _ _ => ?_
              refine (needF_canon hc2).bind fun _ _ => (imageOf_canon hc2).bind fun _ _ => ?_
              refine (boundOk_canon hc2).bind fun _ _ => (boundOk_canon hc2).bind fun _ _ => ?_
              extract_lets im sn sa sb s1 s2 bBase issue written
              have hn : Canon sn := foldl_canon (fun _ _ h => noteHandleWrite_canon h) hc2
              have ha : Canon sa := ite_both (noteLocalUse_canon hn) hn
              have hb : Canon sb := ite_both (noteLocalUse_canon ha) ha
              have h1 : Canon s1 := setStream_canon hb
              have hc4 : Canon s2 := by
                dsimp -zeta only [s2]
                split
                · exact ite_both h1 (setStream_canon h1)
                · exact h1
              clear_value sn sa sb s1 s2
              have hissue : ∀ a, Canon a.1 → Answers Canon Canon (issue a) := by
                rintro ⟨_, _⟩ hc5
                exact ite_both ((produceAcc_canon hc5).bind fun _ _ => issueOp_canon hc5) (issueOp_canon hc5)
              clear_value issue
              have hWritten : ∀ a, Answers Canon Canon (written a) := by
                rintro _
                dsimp -zeta only [written]
                split
                · refine (needStream_canon hc4).bind fun _ _ => (needF_canon hc4).bind fun _ _ => ?_
                  refine (needF_canon hc4).bind fun _ _ => (needF_canon hc4).bind fun _ _ => ?_
                  extract_lets first y s' z jp1
                  have hjp1 : ∀ a, Answers Canon Canon (jp1 a) := by
                    rintro _
                    exact (boundOk_canon hc4).bind fun _ _ =>
                      hissue _ (setStream_canon (ite_both (noteHandleWrite_canon hc4) hc4))
                  clear_value jp1
                  exact ite_both ((mayWrite_canon hc4).bind fun _ _ => hjp1 _) (hjp1 _)
                · exact hissue _ hc4
              clear_value written
              exact ite_both ((forM_canon (fun _ => mayWrite_canon hc2)).bind fun _ _ => hWritten _) (hWritten _)
            clear_value withSlub
            exact ite_both ((getSlub_canon hc2).bind fun _ _ => hWithSlub _) (hWithSlub _)
          clear_value withTk
          exact ite_both ((operandScale_canon hc2).bind fun _ _ => hWithTk _) (hWithTk _)
        clear_value withBk
        exact ite_both (hWithBk _) ((operandScale_canon hc2).bind fun _ _ => hWithBk _)
      clear_value withAk
      exact ite_both (hWithAk _) ((operandScale_canon hc2).bind fun _ _ => hWithAk _)
    clear_value withProblem
    exact ite_both ((gatherProblem_canon hc1).bind fun ⟨_, _, _⟩ hc2 => hWithProblem _ hc2) (hWithProblem _ hc1)
  clear_value withD
  exact ite_both (hWithD _)
    ((dIndex_canon hc1).bind fun _ _ => (getH_canon hc1).bind fun _ _ => (needF_canon hc1).bind fun _ _ => hWithD _)

theorem aRecords_canon {s : State} {o : EngOp} {x : Stream} {p mt kt : Nat} (hc : Canon s) :
    Answers Canon (fun r => Canon r.1) (aRecords s o x p mt kt) := by
  unfold aRecords
  dsimp only
  split
  · split
    · exact (theF_canon hc).bind fun _ _ => hc
    · exact (reachView_canon hc).bind fun _ hc1 => (theF_canon hc1).bind fun _ _ => hc1
  · exact hc

theorem storeImage_canon {s : State} {o : EngOp} {h : Handle} {a : AccTile} (hc : Canon s) : Canon (storeImage s o h a) :=
  putElemsV_canon hc

theorem readTileB_canon {s : State} {o : EngOp} {l2 : List Chunk} {c : Chunk} {kt nt : Nat} :
    Answers Canon (fun _ => True) (readTileB s o l2 c kt nt) :=
  the_canon.bind fun _ _ => ite_both (the_canon.bind fun _ _ => trivial) (can_canon.bind fun _ _ => trivial)

theorem readTileA_canon {s : State} {o : EngOp} {l2 : List Chunk} {c : Chunk} {mt kt : Nat} (hc : Canon s) :
    Answers Canon (fun r => Canon r.1) (readTileA s o l2 c mt kt) :=
  the_canon.bind fun _ _ => can_canon.bind fun _ _ => (aRecords_canon hc).bind fun ⟨_, _, _⟩ hc1 => hc1

theorem passTile_canon {s : State} {o : EngOp} {l2 : List Chunk} {p : Pass} {start : List (List Val)} (hc : Canon s) :
    Answers Canon (fun r => Canon r.1) (passTile s o l2 p start) :=
  (readTileA_canon hc).bind fun ⟨_, _⟩ hc1 => readTileB_canon.bind fun _ _ => hc1

theorem freePass_canon {s : State} {o : EngOp} {ps : List Pass} {l2 : List Chunk} {j : Nat} {p : Pass} (hc : Canon s) :
    Canon (freePass s o ps l2 j p) := by
  unfold freePass
  extract_lets _ _ st
  have hc1 : Canon st := by
    dsimp only [st]
    split
    · exact hc
    · exact ite_both hc (setStream_canon hc)
  clear_value st
  split
  · exact hc1
  · exact ite_both (ite_both (setStream_canon hc1) hc1) (ite_both hc1 (setStream_canon hc1))

theorem startTile_canon {s : State} {o : EngOp} {cs : List Chunk} {p : Pass} (hc : Canon s) :
    Answers Canon (fun r => Canon r.1) (startTile s o cs p) := by
  unfold startTile
  dsimp only
  split
  · exact hc
  · exact ite_both ((reachView_canon hc).bind fun _ hc1 => hc1) (ite_both ((reachView_canon hc).bind fun _ hc1 => hc1) hc)
  · exact hc

theorem tileOut_canon {s : State} {o : EngOp} {a : AccTile} (hc : Canon s) : Answers Canon Canon (tileOut s o a) :=
  the_canon.bind fun _ _ => (reachView_canon hc).bind fun _ hc1 => storeImage_canon hc1

theorem placeTile_canon {s : State} {o : EngOp} {kt : Nat} {p : Pass} {a : AccTile} (hc : Canon s) :
    Answers Canon (fun r => Canon r.1) (placeTile s o kt p a) :=
  ite_both hc (ite_both ((tileOut_canon hc).bind fun _ hc1 => hc1) hc)

theorem spillTiles_canon {s : State} {o : EngOp} {cs : List Chunk} {kt i : Nat} (hc : Canon s) :
    Answers Canon (fun r => Canon r.1) (spillTiles s o cs kt i) :=
  (foldlM_canon (fun _ _ hc1 => tileOut_canon hc1) hc).bind fun _ hc1 => hc1

theorem mmaNext_canon {s : State} {o : EngOp} (hc : Canon s) : Canon (mmaNext s o) :=
  ite_both (settle_canon (dropOp_canon hc)) (setOp_canon hc)

theorem readoutTile_canon {s : State} {o : EngOp} {a : AccTile} (hc : Canon s) : Answers Canon Canon (readoutTile s o a) :=
  the_canon.bind fun _ _ => can_canon.bind fun _ _ => (account_canon hc).bind fun _ hc1 =>
    mmaNext_canon (setStream_canon (foldl_canon (fun _ _ hc2 => slotWrite_canon hc2) hc1))

theorem loadTables_canon {s : State} {o : EngOp} (hc : Canon s) : Answers Canon (fun r => Canon r.1) (loadTables s o) :=
  ite_both ((reachView_canon hc).bind fun _ hc1 => hc1) hc

theorem runPass_canon {s : State} {o : EngOp} {free : Bool} (hc : Canon s) :
    Answers Canon (fun r => Canon r.1) (runPass s o free) :=
  the_canon.bind fun _ _ => can_canon.bind fun _ _ => (loadTables_canon hc).bind fun ⟨_, _⟩ hc1 =>
    (startTile_canon hc1).bind fun ⟨_, _, _⟩ hc2 => (passTile_canon hc2).bind fun ⟨_, _, _, _⟩ hc3 =>
    ite_both ((account_canon hc3).bind fun _ hc4 => (placeTile_canon (bumpC_canon hc4)).bind fun ⟨_, _⟩ hc5 =>
    ite_both (ite_both (freePass_canon hc5) hc5)
    ((spillTiles_canon hc5).bind fun ⟨_, _⟩ hc6 => ite_both (freePass_canon hc6) hc6))
    ((placeTile_canon (bumpC_canon hc3)).bind fun ⟨_, _⟩ hc4 =>
    ite_both (ite_both (freePass_canon hc4) hc4)
    ((spillTiles_canon hc4).bind fun ⟨_, _⟩ hc5 => ite_both (freePass_canon hc5) hc5))

theorem runMma_canon {s : State} {o : EngOp} (hc : Canon s) : Answers Canon Canon (runMma s o) := by
  unfold runMma
  refine can_canon.bind fun _ _ => ?_
  split
  · exact readoutTile_canon hc
  · exact (runPass_canon hc).bind fun ⟨_, _⟩ hc1 => mmaNext_canon hc1

theorem stepPasses_canon {i : Nat} {ps : List Pass} {s : State} {o : EngOp} (hc : Canon s) :
    Answers Canon (fun r => Canon r.1) (stepPasses i ps s o) := by
  induction ps generalizing s o with
  | nil => exact hc
  | cons p ps ih =>
    unfold stepPasses
    refine ite_both ((runPass_canon hc).bind ?_) hc
    rintro ⟨s1, o1⟩ h1
    exact ih (setOp_canon h1)

theorem freeStep_canon {s : State} {o : EngOp} {j : Nat} (hc : Canon s) : Canon (freeStep s o j) :=
  foldl_canon (fun _ _ hc1 => freePass_canon hc1) hc

theorem readAll_canon {n : Nat} {s : State} {id : Nat} (hc : Canon s) : Answers Canon Canon (readAll n s id) := by
  induction n generalizing s with
  | zero => exact hc
  | succ n ih =>
    unfold readAll
    split
    · exact (readoutTile_canon hc).bind fun _ h => ih h
    · exact hc

/-! ### The canonical form: splices -/

theorem openSplice_canon {s : State} {t : Tid} {th : Thread} {slot reg : Nat} {ds : List Decl} {free : List (Nat × Nat × Nat)}
    (hc : Canon s) :
    Canon (openSplice s t th slot reg ds free) := by
  unfold openSplice
  extract_lets p gen _ th1 s1 pt
  have h1 : Canon s1 := setT_canon (notReplayable_canon hc)
  exact h1

theorem readDecls_canon {s : State} {c : Nat} {d : Word} (hc : Canon s) : Answers Canon (fun _ => True) (readDecls s c d) :=
  (needF_canon hc).bind fun _ _ => (needF_canon hc).bind fun _ _ => (needF_canon hc).bind fun _ _ =>
    (mapM_canon (fun _ => getH_canon hc)).bind fun _ _ => (needF_canon hc).bind fun _ _ =>
    (mapM_canon (fun _ => getH_canon hc)).bind fun _ _ => (needF_canon hc).bind fun _ _ => (needF_canon hc).bind fun _ _ =>
    (needF_canon hc).bind fun _ _ => (needF_canon hc).bind fun _ _ => (needF_canon hc).bind fun _ _ => trivial

theorem execSplBegin_canon {t : Tid} {f : Fields} {s : State} (hc : Canon s) : NextCanon (execSplBegin t f s) := by
  unfold execSplBegin
  refine runThread_canon hc (fun _ _ hc1 => ?_)
  refine (dec_canon hc1).bind fun _ _ => ?_
  refine src_canon.bind fun _ _ => (readDecls_canon hc1).bind fun _ _ => ?_
  refine (theF_canon hc1).bind fun _ _ => (needF_canon hc1).bind fun _ _ => ?_
  split
  · exact openSplice_canon hc1
  · exact setT_canon hc1

theorem execSplPoolGrant_canon {t : Tid} {s : State} (hc : Canon s) : NextCanon (execSplPoolGrant t s) := by
  unfold execSplPoolGrant
  refine runPlain_canon (can_canon.bind fun _ _ => the_canon.bind fun _ _ => ?_)
  dsimp only
  split
  · exact can_canon.bind fun _ _ => the_canon.bind fun _ _ => the_canon.bind fun ⟨_, _⟩ _ => openSplice_canon hc
  · exact trivial

theorem execSplCommit_canon {t : Tid} {f : Fields} {s : State} (hc : Canon s) : NextCanon (execSplCommit t f s) :=
  runThread_canon hc (fun _ _ hc1 => (dec_canon hc1).bind fun _ _ => src_canon.bind fun _ _ =>
    (noProducer_canon hc1).bind fun _ _ => (theF_canon hc1).bind fun _ _ => (needF_canon hc1).bind fun _ _ =>
    setT_canon (setSplice_canon hc1))

theorem replaySplice_canon {s : State} {x : Splice} {th : Thread} (hc : Canon s) : Canon (replaySplice s x th) := by
  unfold replaySplice
  extract_lets _ _ _ _ st
  have hc1 : Canon st := foldl_canon (fun _ _ hc1 => wr_canon hc1) (bumpC_canon (setSplice_canon hc))
  clear_value st
  exact setT_canon (foldl_canon (fun _ _ hc2 => setStream_canon hc2) hc1)

theorem passSplice_canon {s : State} {x : Splice} {th : Thread} {degraded : Bool} (hc : Canon s) :
    Canon (passSplice s x th degraded) :=
  stepOn_canon (ite_both (bumpC_canon (setSplice_canon hc)) (setSplice_canon hc))

theorem dropSplice_canon {s : State} {x : Splice} {th : Thread} (hc : Canon s) : Canon (dropSplice s x th) :=
  stepOn_canon (dueUp_canon (bumpC_canon (discardSplice_canon hc)))

theorem execCommitCheck_canon {p : PartN} {slot : BitVec 8} {s : State} (hc : Canon s) : NextCanon (execCommitCheck p slot s) :=
  runEvent_canon (can_canon.bind fun _ _ => the_canon.bind fun _ _ => the_canon.bind fun _ _ => can_canon.bind fun _ _ =>
    ite_both (dropSplice_canon hc)
    (ite_both (ite_both (replaySplice_canon hc) (ite_both hc (passSplice_canon hc))) (passSplice_canon hc)))

theorem fillDecl_canon {s : State} {c : Nat} {d : Decl} (hc : Canon s) : Answers Canon Canon (fillDecl s c d) :=
  foldlM_canon (fun _ _ hc1 => (admitPages_canon hc1).bind fun _ hc2 => (admitPages_canon hc2).bind fun _ hc3 =>
    copyGranule_canon hc3) hc

theorem execShadowFillComplete_canon {p : PartN} {slot : BitVec 8} {s : State} (hc : Canon s) :
    NextCanon (execShadowFillComplete p slot s) :=
  runPlain_canon (can_canon.bind fun _ _ => the_canon.bind fun _ _ =>
    (foldlM_canon (fun _ _ hc1 => fillDecl_canon hc1) hc).bind fun _ hc1 => bumpC_canon (setSplice_canon hc1))

theorem flipSplice_canon {s : State} {x : Splice} (hc : Canon s) : Canon (flipSplice s x) := by
  unfold flipSplice
  extract_lets _ _ _ st
  have hc1 : Canon st := foldl_canon (fun _ _ hc1 => poolFree_canon hc1) (foldl_canon (fun _ _ hc1 => wr_canon hc1) hc)
  clear_value st
  exact dueUp_canon (bumpC_canon hc1)

theorem releaseCommitter_canon {s : State} {x : Splice} (hc : Canon s) : Canon (releaseCommitter s x) := by
  unfold releaseCommitter
  split
  · exact stepOn_canon hc
  · exact hc

theorem execSplAbort_canon {t : Tid} {f : Fields} {s : State} (hc : Canon s) : NextCanon (execSplAbort t f s) :=
  runThread_canon hc (fun _ _ hc1 => (dec_canon hc1).bind fun _ _ => src_canon.bind fun _ _ => (theF_canon hc1).bind fun _ _ =>
    ite_both (stepOn_canon hc1)
    (can_canon.bind fun _ _ => stepOn_canon (bumpC_canon (releaseCommitter_canon (discardSplice_canon hc1)))))

theorem execSplStatus_canon {t : Tid} {f : Fields} {s : State} (hc : Canon s) : NextCanon (execSplStatus t f s) :=
  runThread_canon hc (fun _ _ hc1 => (dec_canon hc1).bind fun _ _ => (dec_canon hc1).bind fun _ _ => src_canon.bind fun _ _ =>
    stepOn_canon hc1)

/-! ### The canonical form: vector instructions -/

theorem takeOpd_canon {s : State} {t : Tid} {o : EngOp} {w : Word} {bs brow : Bool} {rows len : Nat} (hc : Canon s) :
    Answers Canon (fun r => Canon r.1) (takeOpd s t o w bs brow rows len) :=
  ite_both hc ((readVop_canon hc).bind fun _ _ => (needF_canon hc).bind fun _ _ => srcVop_canon hc)

theorem putRowsWith_canon {s : State} {t : Tid} {d : Vop} {k : Cnt} {rows : List (List (Nat × Cnt))} (hc : Canon s) :
    Answers Canon Canon (putRowsWith s t d k rows) :=
  (account_canon hc).bind fun _ hc1 => foldl_canon (fun _ _ hc2 => putRow_canon hc2) hc1

theorem putRows_canon {s : State} {t : Tid} {d : Vop} {rows : List (List (Nat × Cnt))} (hc : Canon s) :
    Answers Canon Canon (putRows s t d rows) :=
  putRowsWith_canon hc

theorem unitReady_canon {s : State} {o : EngOp} : Answers Canon (fun _ => True) (unitReady s o) :=
  can_canon.bind fun _ _ => can_canon

theorem issueElem_canon {t : Tid} {f : Fields} {s : State} {tag : EngTag} {var : Nat} {fma : Bool} (hc : Canon s) :
    NextCanon (issueElem t f s tag var fma) :=
  runThread_canon hc (fun _ _ hc1 => (dec_canon hc1).bind fun _ _ => (dec_canon hc1).bind fun _ _ =>
    engineRoom_canon.bind fun _ _ => src_canon.bind fun _ _ => src_canon.bind fun _ _ => src_canon.bind fun _ _ =>
    src_canon.bind fun _ _ => (readVop_canon hc1).bind fun _ _ => (readVop_canon hc1).bind fun _ _ =>
    (needF_canon hc1).bind fun _ _ => (srcVop_canon hc1).bind fun ⟨_, _⟩ hc2 => (takeOpd_canon hc2).bind fun ⟨_, _⟩ hc3 =>
    ite_both ((takeOpd_canon hc3).bind fun ⟨_, _⟩ hc4 => (dstVop_canon hc4).bind fun ⟨_, _⟩ hc5 => issueOp_canon hc5)
    ((dstVop_canon hc3).bind fun ⟨_, _⟩ hc4 => issueOp_canon hc4))

theorem execVadd_canon {t : Tid} {f : Fields} {s : State} (hc : Canon s) : NextCanon (execVadd t f s) := issueElem_canon hc

theorem execVmul_canon {t : Tid} {f : Fields} {s : State} (hc : Canon s) : NextCanon (execVmul t f s) := issueElem_canon hc

theorem execVfma_canon {t : Tid} {f : Fields} {s : State} (hc : Canon s) : NextCanon (execVfma t f s) := issueElem_canon hc

theorem execVmax_canon {t : Tid} {f : Fields} {s : State} (hc : Canon s) : NextCanon (execVmax t f s) := issueElem_canon hc

theorem execVmin_canon {t : Tid} {f : Fields} {s : State} (hc : Canon s) : NextCanon (execVmin t f s) := issueElem_canon hc

theorem runElem_canon {s : State} {o : EngOp} (hc : Canon s) : Answers Canon Canon (runElem s o) :=
  unitReady_canon.bind fun _ _ => (putRows_canon hc).bind fun _ hc1 => finishOp_canon hc1

theorem issueUnary_canon {t : Tid} {f : Fields} {s : State} {tag : EngTag} {var : Nat} (hc : Canon s) :
    NextCanon (issueUnary t f s tag var) :=
  runThread_canon hc (fun _ _ hc1 => (dec_canon hc1).bind fun _ _ => engineRoom_canon.bind fun _ _ =>
    src_canon.bind fun _ _ => src_canon.bind fun _ _ => (readVop_canon hc1).bind fun _ _ => (readVop_canon hc1).bind fun _ _ =>
    (needF_canon hc1).bind fun _ _ => (needF_canon hc1).bind fun _ _ => (srcVop_canon hc1).bind fun ⟨_, _⟩ hc2 =>
    (dstVop_canon hc2).bind fun ⟨_, _⟩ hc3 => issueOp_canon hc3)

theorem execVcvt_canon {t : Tid} {f : Fields} {s : State} (hc : Canon s) : NextCanon (execVcvt t f s) := issueUnary_canon hc

theorem execVfn_canon {t : Tid} {f : Fields} {s : State} (hc : Canon s) : NextCanon (execVfn t f s) := issueUnary_canon hc

theorem runUnary_canon {s : State} {o : EngOp} (hc : Canon s) : Answers Canon Canon (runUnary s o) :=
  unitReady_canon.bind fun _ _ => (putRows_canon hc).bind fun _ hc1 => finishOp_canon hc1

theorem takeSrc_canon {s : State} {t : Tid} {o : EngOp} {th : Thread} {v : BitVec 16} {sstr : Bool} {n : Nat} (hc : Canon s) :
    Answers Canon (fun r => Canon r.1) (takeSrc s t o th v sstr n) :=
  ite_both ((needStream_canon hc).bind fun _ _ => (needF_canon hc).bind fun _ _ => (needF_canon hc).bind fun _ _ =>
    setStream_canon (noteLocalUse_canon hc))
    (src_canon.bind fun _ _ => (readVop_canon hc).bind fun _ _ => (srcVop_canon hc).bind fun ⟨_, _⟩ hc1 => hc1)

theorem readSlot_canon {s : State} {o : EngOp} {v : BitVec 16} (hc : Canon s) :
    Answers Canon (fun r => Canon r.1) (readSlot s o v) :=
  the_canon.bind fun _ _ => the_canon.bind fun _ _ => can_canon.bind fun _ _ => setOp_canon (setStream_canon hc)

theorem takeUnit_canon {s : State} {o : EngOp} {v : BitVec 16} {sstr : Bool} (hc : Canon s) :
    Answers Canon (fun r => Canon r.1) (takeUnit s o v sstr) :=
  ite_both (can_canon.bind fun _ _ => can_canon.bind fun _ _ => (readSlot_canon hc).bind fun ⟨_, _⟩ hc1 =>
    can_canon.bind fun _ _ => hc1) (unitReady_canon.bind fun _ _ => hc)

theorem partOk_canon {s : State} {first len whole : Nat} (hc : Canon s) :
    Answers Canon (fun _ => True) (partOk s first len whole) :=
  needF_canon hc

theorem lenOf_canon {s : State} {w : Word} (hc : Canon s) : Answers Canon (fun _ => True) (lenOf s w) :=
  (needF_canon hc).bind fun _ _ => trivial

theorem execVred_canon {t : Tid} {f : Fields} {s : State} (hc : Canon s) : NextCanon (execVred t f s) := by
  unfold execVred
  refine runThread_canon hc (fun _ _ hc1 => ?_)
  refine (dec_canon hc1).bind fun _ _ => (dec_canon hc1).bind fun _ _ => ?_
  refine engineRoom_canon.bind fun _ _ => src_canon.bind fun _ _ => src_canon.bind fun _ _ => ?_
  refine src_canon.bind fun _ _ => src_canon.bind fun _ _ => (lenOf_canon hc1).bind fun _ _ => ?_
  refine (readVop_canon hc1).bind fun _ _ => (takeSrc_canon hc1).bind ?_
  rintro ⟨_, _, _, _⟩ hc2
  dsimp only
  split
  · exact (needF_canon hc2).bind fun _ _ => (dstVop_canon hc2).bind fun ⟨_, _⟩ hc3 => issueOp_canon hc3
  · exact (partOk_canon hc2).bind fun _ _ => (needF_canon hc2).bind fun _ _ => (dstVop_canon hc2).bind fun ⟨_, _⟩ hc3 =>
      issueOp_canon hc3
  · exact (needF_canon hc2).bind fun _ _ => (dstVop_canon hc2).bind fun ⟨_, _⟩ hc3 => issueOp_canon hc3

theorem runVred_canon {s : State} {o : EngOp} (hc : Canon s) : Answers Canon Canon (runVred s o) := by
  unfold runVred
  refine (takeUnit_canon hc).bind ?_
  rintro ⟨_, _, _⟩ hc1
  refine ite_both hc1 ?_
  dsimp only
  split
  · exact (putRows_canon hc1).bind fun _ hc2 => finishOp_canon hc2
  · exact (account_canon hc1).bind fun _ hc2 => finishOp_canon (scratchWrite_canon hc2)
  · exact (theF_canon hc1).bind fun _ _ => (putRows_canon hc1).bind fun _ hc2 => finishOp_canon hc2

theorem layoutOf_canon {s : State} {w : Word} {group : Bool} {rows len : Nat} (hc : Canon s) :
    Answers Canon (fun _ => True) (layoutOf s w group rows len) :=
  (needF_canon hc).bind fun _ _ => trivial

theorem recordsOk_canon {s : State} {a n : Nat} (hc : Canon s) : Answers Canon (fun _ => True) (recordsOk s a n) := needF_canon hc

theorem execVstat_canon {t : Tid} {f : Fields} {s : State} (hc : Canon s) : NextCanon (execVstat t f s) := by
  unfold execVstat
  generalize fld f.variant 1 0 = form
  refine runThread_canon hc (fun _ _ hc1 => ?_)
  refine (dec_canon hc1).bind fun _ _ => (dec_canon hc1).bind fun _ _ => ?_
  refine engineRoom_canon.bind fun _ _ => src_canon.bind fun _ _ => ?_
  refine src_canon.bind fun _ _ => src_canon.bind fun _ _ => src_canon.bind fun _ _ => ?_
  refine src_canon.bind fun _ _ => (lenOf_canon hc1).bind fun _ _ => (takeSrc_canon hc1).bind ?_
  rintro ⟨_, _, _, _⟩ hc2
  dsimp -zeta only
  split
  · exact (layoutOf_canon hc2).bind fun ⟨_, _, _⟩ _ => (recordsOk_canon hc2).bind fun _ _ =>
      (claimDst_canon hc2).bind fun ⟨_, _⟩ hc3 => issueOp_canon hc3
  · exact (partOk_canon hc2).bind fun _ _ => (needF_canon hc2).bind fun _ _ => (recordsOk_canon hc2).bind fun _ _ =>
      (claimDst_canon hc2).bind fun ⟨_, _⟩ hc3 => issueOp_canon hc3
  · exact (needF_canon hc2).bind fun _ _ => (recordsOk_canon hc2).bind fun _ _ => (claimDst_canon hc2).bind fun ⟨_, _⟩ hc3 =>
      issueOp_canon hc3

theorem runVstat_canon {s : State} {o : EngOp} (hc : Canon s) : Answers Canon Canon (runVstat s o) := by
  unfold runVstat
  refine (takeUnit_canon hc).bind ?_
  rintro ⟨_, _, _⟩ hc1
  refine ite_both hc1 ?_
  dsimp only
  split
  · exact (layoutOf_canon hc1).bind fun ⟨_, _, _⟩ _ => (account_canon hc1).bind fun _ hc2 =>
      finishOp_canon (scratchWrite_canon hc2)
  · exact (account_canon hc1).bind fun _ hc2 => finishOp_canon (scratchWrite_canon hc2)
  · exact (needF_canon hc1).bind fun _ _ => (account_canon hc1).bind fun _ hc2 => finishOp_canon (scratchWrite_canon hc2)

theorem execVnorm_canon {t : Tid} {f : Fields} {s : State} (hc : Canon s) : NextCanon (execVnorm t f s) :=
  runThread_canon hc (fun _ _ hc1 => (dec_canon hc1).bind fun _ _ => (dec_canon hc1).bind fun _ _ =>
    engineRoom_canon.bind fun _ _ => src_canon.bind fun _ _ => src_canon.bind fun _ _ => srcG_canon.bind fun _ _ =>
    srcG_canon.bind fun _ _ => src_canon.bind fun _ _ => src_canon.bind fun _ _ => src_canon.bind fun _ _ =>
    (readVop_canon hc1).bind fun _ _ => (readVop_canon hc1).bind fun _ _ => (needF_canon hc1).bind fun _ _ =>
    (needF_canon hc1).bind fun _ _ => (layoutOf_canon hc1).bind fun ⟨_, _, _⟩ _ => (recordsOk_canon hc1).bind fun _ _ =>
    (srcVop_canon hc1).bind fun ⟨_, _⟩ hc2 => (takeOpd_canon hc2).bind fun ⟨_, _⟩ hc3 =>
    (takeOpd_canon hc3).bind fun ⟨_, _⟩ hc4 => (claimSrc_canon hc4).bind fun ⟨_, _⟩ hc5 =>
    (dstVop_canon hc5).bind fun ⟨_, _⟩ hc6 => issueOp_canon hc6)

theorem runVnorm_canon {s : State} {o : EngOp} (hc : Canon s) : Answers Canon Canon (runVnorm s o) :=
  unitReady_canon.bind fun _ _ => (layoutOf_canon hc).bind fun ⟨_, _, _⟩ _ => (needF_canon hc).bind fun _ _ =>
    (putRowsWith_canon hc).bind fun _ hc1 => finishOp_canon hc1

theorem execVrot_canon {t : Tid} {f : Fields} {s : State} (hc : Canon s) : NextCanon (execVrot t f s) :=
  runThread_canon hc (fun _ _ hc1 => (dec_canon hc1).bind fun _ _ => engineRoom_canon.bind fun _ _ =>
    src_canon.bind fun _ _ => src_canon.bind fun _ _ => src_canon.bind fun _ _ => src_canon.bind fun _ _ =>
    (readVop_canon hc1).bind fun _ _ => (readVop_canon hc1).bind fun _ _ => (readVop_canon hc1).bind fun _ _ =>
    (readVop_canon hc1).bind fun _ _ => (needF_canon hc1).bind fun _ _ => (needF_canon hc1).bind fun _ _ =>
    (srcVop_canon hc1).bind fun ⟨_, _⟩ hc2 => (srcVop_canon hc2).bind fun ⟨_, _⟩ hc3 => (srcVop_canon hc3).bind fun ⟨_, _⟩ hc4 =>
    (dstVop_canon hc4).bind fun ⟨_, _⟩ hc5 => issueOp_canon hc5)

theorem runVrot_canon {s : State} {o : EngOp} (hc : Canon s) : Answers Canon Canon (runVrot s o) :=
  unitReady_canon.bind fun _ _ => (needF_canon hc).bind fun _ _ => (putRows_canon hc).bind fun _ hc1 => finishOp_canon hc1

theorem execVepi_canon {t : Tid} {f : Fields} {s : State} (hc : Canon s) : NextCanon (execVepi t f s) := by
  unfold execVepi
  refine runThread_canon hc (fun _ _ hc1 => ?_)
  refine (dec_canon hc1).bind fun _ _ => (dec_canon hc1).bind fun _ _ => ?_
  refine engineRoom_canon.bind fun _ _ => src_canon.bind fun _ _ => src_canon.bind fun _ _ => ?_
  refine src_canon.bind fun _ _ => src_canon.bind fun _ _ => src_canon.bind fun _ _ => ?_
  extract_lets _ jp
  have hjp : ∀ a, Canon a.1 → Answers Canon Canon (jp a) := by
    rintro ⟨_, _, _⟩ hc2
    exact (takeOpd_canon hc2).bind fun ⟨_, _⟩ hc3 => (takeOpd_canon hc3).bind fun ⟨_, _⟩ hc4 =>
      (takeOpd_canon hc4).bind fun ⟨_, _⟩ hc5 =>
      ite_both ((produceVepi_canon hc5).bind fun _ _ => issueOp_canon hc5)
      ((readVop_canon hc5).bind fun _ _ => (needF_canon hc5).bind fun _ _ => (dstVop_canon hc5).bind fun ⟨_, _⟩ hc6 =>
      issueOp_canon hc6)
  clear_value jp
  exact ite_both ((consumeAcc_canon hc1).bind fun ⟨_, _⟩ _ => the_canon.bind fun _ _ => hjp _ hc1)
    ((readVop_canon hc1).bind fun _ _ => (srcVop_canon hc1).bind fun ⟨_, _⟩ hc2 => hjp _ hc2)

theorem putBlock_canon {s : State} {t : Tid} {d : Vop} {r0 c0 : Nat} {rows : List (List (Nat × Cnt))} (hc : Canon s) :
    Canon (putBlock s t d r0 c0 rows) :=
  foldl_canon (fun _ _ hc1 => putRow_canon hc1) hc

theorem runVepiVop_canon {s : State} {o : EngOp} (hc : Canon s) : Answers Canon Canon (runVepiVop s o) :=
  the_canon.bind fun ⟨_, _⟩ _ =>
    ite_both (setOp_canon (takeTile_canon hc))
    ((account_canon (takeTile_canon hc)).bind fun _ hc1 => finishOp_canon (foldl_canon (fun _ _ hc2 => putBlock_canon hc2) hc1))

theorem handVepi_canon {s : State} {o : EngOp} {mt nt : Nat} {vals : List (List Val)} (hc : Canon s) :
    Answers Canon Canon (handVepi s o mt nt vals) :=
  (account_canon hc).bind fun _ hc1 => setOp_canon hc1

theorem runVepi_canon {s : State} {o : EngOp} (hc : Canon s) : Answers Canon Canon (runVepi s o) := by
  unfold runVepi
  refine unitReady_canon.bind fun _ _ => can_canon.bind fun _ _ => can_canon.bind fun _ _ => ?_
  split
  · exact the_canon.bind fun ⟨_, _⟩ _ => handVepi_canon (takeTile_canon hc)
  · exact runVepiVop_canon hc
  · exact handVepi_canon hc
  · exact (putRows_canon hc).bind fun _ hc1 => finishOp_canon hc1

theorem execVrng_canon {t : Tid} {f : Fields} {s : State} (hc : Canon s) : NextCanon (execVrng t f s) := by
  unfold execVrng
  refine runThread_canon hc fun _ _ hc1 => ?_
  refine (dec_canon hc1).bind fun _ _ => (dec_canon hc1).bind fun _ _ => engineRoom_canon.bind fun _ _ => ?_
  refine src_canon.bind fun _ _ => (forIn_canon fun _ => ?_).bind fun _ _ => ?_
  · exact srcG_canon.bind fun _ _ => srcG_canon.bind fun _ _ => trivial
  · exact (readVop_canon hc1).bind fun _ _ => (needF_canon hc1).bind fun _ _ => (dstVop_canon hc1).bind fun ⟨_, _⟩ hc2 =>
      issueOp_canon hc2

theorem runVrng_canon {s : State} {o : EngOp} (hc : Canon s) : Answers Canon Canon (runVrng s o) :=
  unitReady_canon.bind fun _ _ => (putRows_canon hc).bind fun _ hc1 => finishOp_canon hc1

/-! ### The canonical form: `qnt` -/

theorem qSlub_canon {s : State} {t : Tid} {h : Handle} {c : Nat} {replay : Bool} (hc : Canon s) :
    Answers Canon (fun _ => True) (qSlub s t h c replay) :=
  ite_both ((getSlub_canon hc).bind fun _ _ => (needF_canon hc).bind fun _ _ => (needF_canon hc).bind fun _ _ =>
    (mayWrite_canon hc).bind fun _ _ => trivial) ((needF_canon hc).bind fun _ _ => trivial)

theorem qStream_canon {s : State} {t : Tid} {sid : Nat} {h : Handle} {page : Bool} {tiles : List (Nat × Nat)} (hc : Canon s) :
    Answers Canon (fun _ => True) (qStream s t sid h page tiles) :=
  (needStream_canon hc).bind fun _ _ => (needF_canon hc).bind fun _ _ => (needF_canon hc).bind fun _ _ =>
    (needF_canon hc).bind fun _ _ => trivial

theorem qScale_canon {s : State} {t : Tid} {f : Fields} {h : Handle} {x : Stream} (hc : Canon s) :
    Answers Canon (fun _ => True) (qScale s t f h x) :=
  ite_both ((getScale_canon hc).bind fun _ _ => (needF_canon hc).bind fun _ _ => (needF_canon hc).bind fun _ _ => trivial) trivial

theorem takeHand_canon {s : State} {th : Thread} {o : EngOp} {acc : Bool} (hc : Canon s) :
    Answers Canon (fun r => Canon r.s) (takeHand s th o acc) :=
  ite_both ((consumeAcc_canon hc).bind fun ⟨_, _⟩ _ => the_canon.bind fun _ _ => hc)
    ((consumeVepi_canon hc).bind fun ⟨_, _⟩ _ => the_canon.bind fun _ _ => hc)

theorem qInTiles_canon {s : State} {t : Tid} {th : Thread} {o : EngOp} {f : Fields} {h : Handle} (hc : Canon s) :
    Answers Canon (fun r => Canon r.s) (qInTiles s t th o f h) :=
  ite_both (src_canon.bind fun _ _ => src_canon.bind fun _ _ => (readVop_canon hc).bind fun _ _ =>
    (needF_canon hc).bind fun _ _ => (needF_canon hc).bind fun _ _ => (srcVop_canon hc).bind fun ⟨_, _⟩ hc1 => hc1)
    ((takeHand_canon hc).bind fun _ hc1 => (needF_canon hc).bind fun _ _ => hc1)

theorem qInPages_canon {s : State} {t : Tid} {th : Thread} {o : EngOp} {f : Fields} {h : Handle} (hc : Canon s) :
    Answers Canon (fun r => Canon r.s) (qInPages s t th o f h) :=
  (kvDims_canon hc).bind fun ⟨_, _⟩ _ =>
    ite_both (src_canon.bind fun _ _ => src_canon.bind fun _ _ => (readVop_canon hc).bind fun _ _ =>
    (needF_canon hc).bind fun _ _ => (needF_canon hc).bind fun _ _ => (needF_canon hc).bind fun _ _ =>
    (srcVop_canon hc).bind fun ⟨_, _⟩ hc1 => hc1)
    ((takeHand_canon hc).bind fun _ hc1 => (needF_canon hc).bind fun _ _ => (needF_canon hc).bind fun _ _ => hc1)

theorem qCarried_canon {s : State} {t : Tid} {f : Fields} {h : Handle} (hc : Canon s) :
    Answers Canon (fun _ => True) (qCarried s t f h) :=
  ite_both ((getH_canon hc).bind fun _ _ => (needF_canon hc).bind fun _ _ => (needF_canon hc).bind fun _ _ => trivial) trivial

theorem execQnt_canon {t : Tid} {f : Fields} {s : State} (hc : Canon s) : NextCanon (execQnt t f s) := by
  unfold execQnt
  refine runThread_canon hc (fun _ _ hc1 => ?_)
  refine (dec_canon hc1).bind fun _ _ => ?_
  refine (dec_canon hc1).bind fun _ _ => engineRoom_canon.bind fun _ _ => ?_
  refine src_canon.bind fun _ _ => (getH_canon hc1).bind fun _ _ => ?_
  refine (needF_canon hc1).bind fun _ _ => (needF_canon hc1).bind fun _ _ => ?_
  extract_lets o0 limited
  have hlimited : ∀ a, Answers Canon Canon (limited a) := by
    rintro ⟨sl, limit⟩
    dsimp -zeta only [limited]
    extract_lets carried
    have hcarried : ∀ a, Answers Canon Canon (carried a) := by
      intro ck
      dsimp -zeta only [carried]
      extract_lets read
      have hread : ∀ a, Canon a.s → Answers Canon Canon (read a) := by
        intro q hc2
        refine (qStream_canon hc2).bind fun x _ => ?_
        extract_lets driven far first ws _ scaled
        have hscaled : ∀ a, Answers Canon Canon (scaled a) := by
          intro sk
          exact (forM_canon (fun _ => mayWrite_canon hc1)).bind fun _ _ =>
            issueOp_canon (foldl_canon (fun _ _ hc3 => noteHandleWrite_canon hc3) (setStream_canon hc2))
        clear_value scaled
        exact ite_both ((qScale_canon hc1).bind fun _ _ => hscaled _) (hscaled _)
      clear_value read
      exact ite_both ((qInTiles_canon hc1).bind fun _ hc2 => hread _ hc2) ((qInPages_canon hc1).bind fun _ hc2 => hread _ hc2)
    clear_value carried
    exact ite_both ((qCarried_canon hc1).bind fun _ _ => hcarried _) (hcarried _)
  clear_value limited
  exact ite_both ((qSlub_canon hc1).bind fun ⟨_, _⟩ _ => hlimited _) (hlimited _)

theorem qInput_canon {s : State} {o : EngOp} (hc : Canon s) : Answers Canon (fun r => Canon r.1) (qInput s o) := by
  unfold qInput
  refine ite_both ?_ (the_canon.bind fun ⟨_, _⟩ _ => takeTile_canon hc)
  split
  · exact hc
  · exact hc

theorem putRegion_canon {s : State} {o : EngOp} {k : Handle} {region : Nat} {recs : List (Nat × Nat)} (hc : Canon s) :
    Answers Canon Canon (putRegion s o k region recs) :=
  (reachView_canon hc).bind fun _ hc1 => writeV_canon hc1

theorem runQnt_canon {s : State} {o : EngOp} (hc : Canon s) : Answers Canon Canon (runQnt s o) := by
  unfold runQnt
  refine can_canon.bind fun _ _ => ?_
  refine can_canon.bind fun _ _ => the_canon.bind fun _ _ => the_canon.bind fun _ _ => ?_
  refine can_canon.bind fun _ _ => the_canon.bind fun _ _ => (qInput_canon hc).bind ?_
  rintro ⟨_, _, _, _⟩ hc1
  dsimp only
  split
  · refine (reachView_canon hc1).bind fun _ hc2 => ?_
    refine (account_canon (countHealth_canon hc2)).bind fun _ hc3 => ?_
    refine (needF_canon hc3).bind fun _ _ => ?_
    split
    · exact (putRegion_canon hc3).bind fun _ hc4 =>
        ite_both (setOp_canon (setStream_canon (slotWrite_canon hc4))) (finishOp_canon (setStream_canon (slotWrite_canon hc4)))
    · exact ite_both (setOp_canon (setStream_canon (slotWrite_canon hc3)))
        (finishOp_canon (setStream_canon (slotWrite_canon hc3)))
  · show Answers _ _ (_)
    refine (account_canon (countHealth_canon hc1)).bind fun _ hc2 => ?_
    refine (needF_canon hc2).bind fun _ _ => ?_
    split
    · exact (putRegion_canon hc2).bind fun _ hc3 =>
        ite_both (setOp_canon (setStream_canon (slotWrite_canon hc3))) (finishOp_canon (setStream_canon (slotWrite_canon hc3)))
    · exact ite_both (setOp_canon (setStream_canon (slotWrite_canon hc2)))
        (finishOp_canon (setStream_canon (slotWrite_canon hc2)))

/-! ### The canonical form: softmax and carding -/

theorem scrPut_canon {s : State} {t : Tid} {a : Nat} {vs : List Val} (hc : Canon s) : Canon (scrPut s t a vs) :=
  scratchWrite_canon hc

theorem setRow_canon {s : State} {t : Tid} {off : Nat} {rc : Bool} {r : Option RowSt} (hc : Canon s) :
    Canon (setRow s t off rc r) :=
  hc

theorem readGroup_canon {s : State} {t : Tid} {th : Thread} {v : BitVec 16} (hc : Canon s) :
    Answers Canon (fun _ => True) (readGroup s t th v) :=
  srcG_canon.bind fun _ _ => srcG_canon.bind fun _ _ => srcG_canon.bind fun _ _ => srcG_canon.bind fun _ _ =>
    (recordsOk_canon hc).bind fun _ _ => (needF_canon hc).bind fun _ _ => trivial

theorem stepStream_canon {s : State} {t : Tid} {v : BitVec 16} {w : Word} (hc : Canon s) :
    Answers Canon Canon (stepStream s t v w) :=
  (needStream_canon hc).bind fun _ _ => (needF_canon hc).bind fun _ _ => needEntry_canon hc

theorem stepEntry_canon {s : State} {o : EngOp} : Answers Canon (fun _ => True) (stepEntry s o) :=
  the_canon.bind fun _ _ => the_canon

theorem stepHand_canon {s : State} {th : Thread} {o : EngOp} {m n : Nat} (hc : Canon s) :
    Answers Canon (fun _ => True) (stepHand s th o m n) :=
  (consumeAcc_canon hc).bind fun ⟨_, _⟩ _ => the_canon.bind fun _ _ => (needF_canon hc).bind fun _ _ => trivial

theorem stepDst_canon {s : State} {t : Tid} {o : EngOp} {v : BitVec 16} {n : Nat} (hc : Canon s) :
    Answers Canon (fun r => Canon r.1) (stepDst s t o v n) :=
  (needStream_canon hc).bind fun _ _ => (needF_canon hc).bind fun _ _ => setStream_canon hc

theorem useState_canon {s : State} {t : Tid} {o : EngOp} {g : SGroup} {reads writes : Bool} (hc : Canon s) :
    Canon (useState s t o g reads writes).1 :=
  ite_both (noteScrWrite_canon (ite_both (noteScrRead_canon hc) hc)) (ite_both (noteScrRead_canon hc) hc)

theorem giveAlpha_canon {s : State} {t : Tid} {off : Nat} {al : List Nat} (hc : Canon s) : Canon (giveAlpha s t off al) := hc

theorem execVsmxScore_canon {t : Tid} {f : Fields} {s : State} (hc : Canon s) : NextCanon (execVsmxScore t f s) :=
  runThread_canon hc (fun _ _ hc1 => (dec_canon hc1).bind fun _ _ => engineRoom_canon.bind fun _ _ =>
    src_canon.bind fun _ _ => (readGroup_canon hc1).bind fun _ _ => (stepStream_canon hc1).bind fun _ hc2 =>
    (needF_canon hc2).bind fun _ _ => (stepHand_canon hc2).bind fun ⟨_, _⟩ _ => (stepDst_canon hc2).bind fun ⟨_, _⟩ hc3 =>
    issueOp_canon (setRow_canon
    (ite_both (noteScrWrite_canon (ite_both (noteScrRead_canon hc3) hc3)) (ite_both (noteScrRead_canon hc3) hc3))))

theorem execVsmxAcc_canon {t : Tid} {f : Fields} {s : State} (hc : Canon s) : NextCanon (execVsmxAcc t f s) :=
  runThread_canon hc (fun _ _ hc1 => (dec_canon hc1).bind fun _ _ => engineRoom_canon.bind fun _ _ =>
    src_canon.bind fun _ _ => (readGroup_canon hc1).bind fun _ _ => (stepStream_canon hc1).bind fun _ hc2 =>
    (theF_canon hc2).bind fun _ _ => (needF_canon hc2).bind fun _ _ => (stepHand_canon hc2).bind fun ⟨_, _⟩ _ =>
    issueOp_canon (setRow_canon
    (ite_both (noteScrWrite_canon (ite_both (noteScrRead_canon hc2) hc2)) (ite_both (noteScrRead_canon hc2) hc2))))

theorem statOk_canon {s : State} {h : Handle} {first n : Nat} (hc : Canon s) :
    Answers Canon (fun _ => True) (statOk s h first n) :=
  needF_canon hc

theorem execVsmxRecomp_canon {t : Tid} {f : Fields} {s : State} (hc : Canon s) : NextCanon (execVsmxRecomp t f s) :=
  runThread_canon hc (fun _ _ hc1 => (dec_canon hc1).bind fun _ _ => engineRoom_canon.bind fun _ _ =>
    src_canon.bind fun _ _ => src_canon.bind fun _ _ => (readGroup_canon hc1).bind fun _ _ =>
    (stepStream_canon hc1).bind fun _ hc2 => (needF_canon hc2).bind fun _ _ => (getH_canon hc2).bind fun _ _ =>
    (statOk_canon hc2).bind fun _ _ => (stepHand_canon hc2).bind fun ⟨_, _⟩ _ => (stepDst_canon hc2).bind fun ⟨_, _⟩ hc3 =>
    issueOp_canon (setRow_canon hc3))

theorem execVsmxEnd_canon {t : Tid} {f : Fields} {s : State} (hc : Canon s) : NextCanon (execVsmxEnd t f s) := by
  unfold execVsmxEnd
  refine runThread_canon hc (fun _ _ hc1 => ?_)
  refine (dec_canon hc1).bind fun _ _ => ?_
  refine engineRoom_canon.bind fun _ _ => src_canon.bind fun _ _ => src_canon.bind fun _ _ => ?_
  refine (readGroup_canon hc1).bind fun _ _ => (readVop_canon hc1).bind fun _ _ => ?_
  refine (needF_canon hc1).bind fun _ _ => (needF_canon hc1).bind fun _ _ => ?_
  extract_lets _ _ jp
  have hjp : ∀ a, Answers Canon Canon (jp a) := by
    rintro _
    exact (dstVop_canon (foldl_canon (fun _ _ hc2 => noteHandleWrite_canon hc2) hc1)).bind fun ⟨_, _⟩ hc2 =>
      issueOp_canon (setRow_canon
      (ite_both (noteScrWrite_canon (ite_both (noteScrRead_canon hc2) hc2)) (ite_both (noteScrRead_canon hc2) hc2)))
  clear_value jp
  exact ite_both ((getH_canon hc1).bind fun _ _ => (statOk_canon hc1).bind fun _ _ => (mayWrite_canon hc1).bind fun _ _ => hjp _)
    (hjp _)

theorem runScore_canon {s : State} {o : EngOp} (hc : Canon s) : Answers Canon Canon (runScore s o) := by
  unfold runScore
  refine can_canon.bind fun _ _ => ?_
  refine can_canon.bind fun _ _ => stepEntry_canon.bind fun _ _ => the_canon.bind ?_
  rintro ⟨_, _⟩ _
  refine the_canon.bind fun _ _ => ?_
  refine the_canon.bind fun _ _ => (account_canon (takeTile_canon hc)).bind fun _ hc1 => ?_
  extract_lets st
  have hc2 : Canon st := foldl_canon (fun _ _ hc2 => ite_both (scrPut_canon (scrPut_canon hc2)) (scrPut_canon hc2)) hc1
  clear_value st
  exact finishOp_canon (giveAlpha_canon (slotWrite_canon hc2))

theorem runAcc_canon {s : State} {o : EngOp} (hc : Canon s) : Answers Canon Canon (runAcc s o) :=
  can_canon.bind fun _ _ => the_canon.bind fun ⟨_, _⟩ _ => (account_canon (takeTile_canon hc)).bind fun _ hc1 =>
    finishOp_canon (foldl_canon (fun _ _ hc2 => scrPut_canon hc2) hc1)

theorem runRecomp_canon {s : State} {o : EngOp} (hc : Canon s) : Answers Canon Canon (runRecomp s o) :=
  can_canon.bind fun _ _ => can_canon.bind fun _ _ => stepEntry_canon.bind fun _ _ => the_canon.bind fun ⟨_, _⟩ _ =>
    the_canon.bind fun _ _ => the_canon.bind fun _ _ => the_canon.bind fun _ _ => (reachView_canon hc).bind fun _ hc1 =>
    (account_canon (takeTile_canon hc1)).bind fun _ hc2 => finishOp_canon (slotWrite_canon hc2)

theorem runEnd_canon {s : State} {o : EngOp} (hc : Canon s) : Answers Canon Canon (runEnd s o) := by
  unfold runEnd
  refine unitReady_canon.bind fun _ _ => (putRowsWith_canon hc).bind fun _ hc1 => ?_
  dsimp only
  split
  · exact finishOp_canon (bumpC_canon hc1)
  · exact (reachView_canon (bumpC_canon hc1)).bind fun _ hc2 => finishOp_canon (writeV_canon hc2)

theorem cardSetOk_canon {s : State} {t : Tid} {h : Handle} {d e : Nat} {reads : Bool} (hc : Canon s) :
    Answers Canon (fun _ => True) (cardSetOk s t h d e reads) :=
  (needF_canon hc).bind fun _ _ => needF_canon hc

theorem execCardBuild_canon {t : Tid} {f : Fields} {s : State} (hc : Canon s) : NextCanon (execCardBuild t f s) :=
  runThread_canon hc (fun _ _ hc1 => (dec_canon hc1).bind fun _ _ => engineRoom_canon.bind fun _ _ =>
    src_canon.bind fun _ _ => (getH_canon hc1).bind fun _ _ => (needF_canon hc1).bind fun _ _ =>
    (kvDims_canon hc1).bind fun ⟨_, _⟩ _ => (getH_canon hc1).bind fun _ _ => (cardSetOk_canon hc1).bind fun _ _ =>
    (needF_canon hc1).bind fun _ _ => (needF_canon hc1).bind fun _ _ => (mayWrite_canon hc1).bind fun _ _ =>
    issueOp_canon (noteHandleWrite_canon hc1))

theorem cardEntry_canon {s : State} {t : Tid} {h : Handle} {g d p : Nat} (hc : Canon s) :
    Answers Canon (fun r => Canon r.1) (cardEntry s t h g d p) :=
  (admitPages_canon hc).bind fun _ hc1 => pageEntry_canon hc1

theorem runBuild_canon {s : State} {o : EngOp} (hc : Canon s) : Answers Canon Canon (runBuild s o) :=
  can_canon.bind fun _ _ => (kvDims_canon hc).bind fun ⟨_, _⟩ _ => (cardEntry_canon hc).bind fun ⟨_, _, _⟩ hc1 =>
    ite_both ((account_canon hc1).bind fun _ hc2 => (reachView_canon hc2).bind fun _ hc3 =>
    ite_both (setOp_canon (writeV_canon (writeV_canon hc3))) (finishOp_canon (writeV_canon (writeV_canon hc3))))
    ((reachView_canon hc1).bind fun _ hc2 => (account_canon hc2).bind fun _ hc3 => (reachView_canon hc3).bind fun _ hc4 =>
    ite_both (setOp_canon (writeV_canon (writeV_canon hc4))) (finishOp_canon (writeV_canon (writeV_canon hc4))))

theorem execCardSel_canon {t : Tid} {f : Fields} {s : State} (hc : Canon s) : NextCanon (execCardSel t f s) := by
  unfold execCardSel
  refine runThread_canon hc (fun _ _ hc1 => ?_)
  refine (dec_canon hc1).bind fun _ _ => ?_
  refine (dec_canon hc1).bind fun _ _ => engineRoom_canon.bind fun _ _ => ?_
  refine engineRoom_canon.bind fun _ _ => srcG_canon.bind fun _ _ => ?_
  refine srcG_canon.bind fun _ _ => srcG_canon.bind fun _ _ => srcG_canon.bind fun _ _ => ?_
  refine (needF_canon hc1).bind fun _ _ => (getH_canon hc1).bind fun _ _ => ?_
  refine (getH_canon hc1).bind fun _ _ => (getH_canon hc1).bind fun _ _ => ?_
  refine (getH_canon hc1).bind fun _ _ => (needF_canon hc1).bind fun _ _ => (kvDims_canon hc1).bind ?_
  rintro ⟨_, _⟩ _
  refine (getScale_canon hc1).bind fun _ _ => ?_
  refine (needF_canon hc1).bind fun _ _ => (cardSetOk_canon hc1).bind fun _ _ => ?_
  refine (needF_canon hc1).bind fun _ _ => (needF_canon hc1).bind fun _ _ => ?_
  extract_lets jp
  have hjp : ∀ a, Canon a.1 → Answers Canon Canon (jp a) := by
    rintro ⟨_, _⟩ hc2
    exact (needF_canon hc2).bind fun _ _ => (needF_canon hc2).bind fun _ _ => (mayWrite_canon hc2).bind fun _ _ =>
      issueOp_canon (noteHandleWrite_canon hc2)
  clear_value jp
  exact ite_both (hjp _ hc1) ((readA_canon hc1).bind fun ⟨_, _⟩ hc2 => hjp _ hc2)

theorem pageFills_canon {s : State} {t : Tid} {kv : Handle} {g d : Nat} (hc : Canon s) :
    Answers Canon (fun r => Canon r.1) (pageFills s t kv g d) :=
  foldlM_canon (fun _ _ hc1 => (cardEntry_canon hc1).bind fun ⟨_, _, _⟩ hc2 => hc2) hc

theorem runSel_canon {s : State} {o : EngOp} (hc : Canon s) : Answers Canon Canon (runSel s o) :=
  can_canon.bind fun _ _ => (kvDims_canon hc).bind fun ⟨_, _⟩ _ => (reachView_canon hc).bind fun _ hc1 =>
    (reachView_canon hc1).bind fun _ hc2 => (reachView_canon hc2).bind fun _ hc3 => (pageFills_canon hc3).bind fun ⟨_, _⟩ hc4 =>
    (account_canon hc4).bind fun _ hc5 => (reachView_canon (bumpC_canon (bumpC_canon hc5))).bind fun _ hc6 =>
    ite_both (setOp_canon (writeV_canon (coverBytes_canon hc6))) (finishOp_canon (writeV_canon (coverBytes_canon hc6)))

/-! ### The canonical form: the codec -/

theorem execCdcSubmit_canon {t : Tid} {f : Fields} {s : State} (hc : Canon s) : NextCanon (execCdcSubmit t f s) := by
  unfold execCdcSubmit
  refine runThread_canon hc (fun _ _ hc1 => ?_)
  refine (dec_canon hc1).bind fun _ _ => (dec_canon hc1).bind fun _ _ => can_canon.bind fun _ _ => ?_
  refine src_canon.bind fun _ _ => (needF_canon hc1).bind fun _ _ => (readA_canon hc1).bind ?_
  rintro ⟨_, _⟩ hc2
  refine (mapM_canon (fun _ => getH_canon hc2)).bind fun _ _ => ?_
  refine (needF_canon hc2).bind fun _ _ => (needF_canon hc2).bind fun _ _ => ?_
  refine (needF_canon hc2).bind fun _ _ => (needF_canon hc2).bind fun _ _ => ?_
  refine (needF_canon hc2).bind fun _ _ => (needF_canon hc2).bind fun _ _ => ?_
  refine (forM_canon (fun _ => mayWrite_canon hc2)).bind fun _ _ => ?_
  extract_lets st
  have hc3 : Canon st := foldl_canon (fun _ _ hc3 => noteHandleWrite_canon hc3) (notReplayable_canon hc2)
  clear_value st
  exact stepOn_canon hc3

theorem setJob_canon {s : State} {j : CdcJob} (hc : Canon s) : Canon (setJob s j) := hc

theorem shareOut_canon {s : State} {js : List CdcJob} (hc : Canon s) : Canon (shareOut s js) := by
  induction js generalizing s with
  | nil => exact hc
  | cons j js ih => exact ite_both (ite_both hc (ih hc)) (ih (setJob_canon hc))

theorem shareCores_canon {s : State} {p : Nat} (hc : Canon s) : Canon (shareCores s p) := shareOut_canon hc

theorem askYield_canon {s : State} {j : CdcJob} (hc : Canon s) : Canon (askYield s j) := hc

theorem serveQueue_canon {s : State} {js : List CdcJob} (hc : Canon s) : SomeCanon (serveQueue s js) := by
  induction js with
  | nil => trivial
  | cons j js ih => exact ite_both (setJob_canon hc) (ite_both (askYield_canon hc) (ite_both trivial ih))

theorem readInput_canon {s : State} {j : CdcJob} (hc : Canon s) : Answers Canon (fun r => Canon r.1) (readInput s j) :=
  ite_both ((reachFrom_canon hc).bind fun _ hc1 => hc1)
    ((foldlM_canon (fun _ _ hc1 => reachFrom_canon hc1) hc).bind fun _ hc1 => hc1)

theorem readInputs_canon {s : State} {js : List CdcJob} (hc : Canon s) : Answers Canon Canon (readInputs s js) :=
  foldlM_canon (fun _ _ hc1 => (readInput_canon hc1).bind fun ⟨_, _⟩ hc2 => setJob_canon hc2) hc

theorem beginJob_canon {s : State} {j : CdcJob} (hc : Canon s) : Canon (beginJob s j) := by
  unfold beginJob
  split
  · exact setJob_canon hc
  · exact hc

theorem execCdcJobStart_canon {p : PartN} {s : State} (hc : Canon s) : NextCanon (execCdcJobStart p s) := by
  unfold execCdcJobStart
  refine runEvent_canon (can_canon.bind fun _ _ => ?_)
  split
  · exact (readInputs_canon ((serveQueue_canon hc).of_eq ‹_›)).bind fun _ hc1 =>
      foldl_canon (fun _ _ hc2 => beginJob_canon hc2) hc1
  · exact can_canon.bind fun _ _ => shareCores_canon hc

theorem cdcWrite_canon {s : State} {j : CdcJob} {h : Handle} {off : Nat} {bs : List Byte} (hc : Canon s) :
    Answers Canon Canon (cdcWrite s j h off bs) :=
  (reachFrom_canon hc).bind fun _ hc1 => ite_both (writeV_canon hc1) (putElemsV_canon hc1)

theorem writeFrame_canon {s : State} {j : CdcJob} {k : Nat} (hc : Canon s) : Answers Canon Canon (writeFrame s j k) :=
  the_canon.bind fun _ _ => foldlM_canon (fun _ _ hc1 => (reachFrom_canon hc1).bind fun _ hc2 => putElemsV_canon hc2) hc

theorem frameOut_canon {s : State} {j : CdcJob} (hc : Canon s) : Answers Canon (fun r => Canon r.1) (frameOut s j) :=
  ite_both ((writeFrame_canon hc).bind fun _ hc1 => bumpC_canon hc1)
    (ite_both hc ((cdcWrite_canon hc).bind fun _ hc1 => bumpC_canon hc1))

theorem framesOut_canon {s : State} {j : CdcJob} {n : Nat} (hc : Canon s) :
    Answers Canon (fun r => Canon r.1) (framesOut s j n) := by
  induction n generalizing s j with
  | zero => exact hc
  | succ n ih =>
    refine ite_both hc ((frameOut_canon hc).bind ?_)
    rintro ⟨s1, j1⟩ h1
    exact ih h1

theorem coresFreed_canon {s : State} {p : Nat} (hc : Canon s) : Canon (coresFreed s p) := shareCores_canon (maskRetired_canon hc)

theorem execCdcUnitDone_canon {core : Fin 8} {entropy : Bool} {s : State} (hc : Canon s) :
    NextCanon (execCdcUnitDone core entropy s) := by
  unfold execCdcUnitDone
  refine runEvent_canon (can_canon.bind fun _ _ => the_canon.bind fun _ _ => ?_)
  refine ite_both (the_canon.bind fun ⟨_, _⟩ _ => setJob_canon hc) (the_canon.bind ?_)
  rintro ⟨_, _, _⟩ _
  extract_lets _ jp
  have hjp : ∀ a, Canon a.1 → Answers Canon Canon (jp a) := by
    rintro ⟨_, _⟩ hc1
    exact ite_both (coresFreed_canon (ite_both (setJob_canon hc1) (bumpC_canon (setJob_canon hc1))))
      (coresFreed_canon (setJob_canon hc1))
  clear_value jp
  exact ite_both (hjp _ hc) ((framesOut_canon hc).bind fun ⟨_, _⟩ hc1 => hjp _ hc1)

theorem dropJob_canon {s : State} {j : CdcJob} (hc : Canon s) : Canon (dropJob s j) :=
  ite_both (setC_canon (maskRetired_canon hc)) (maskRetired_canon hc)

theorem endJob_canon {s : State} {j : CdcJob} {status : Nat} {signals : Bool} (hc : Canon s) :
    Answers Canon Canon (endJob s j status signals) := by
  unfold endJob
  extract_lets c sth wsp
  have ends {z : State} (hz : Canon z) : Answers Canon Canon (if signals then match addLocal z j.t j.sem j.amount with
      | some s6 => .ok (settle s6 c)
      | none => .error (.fault z fSem)
    else .ok (settle z c) : Ex State) := by
    split
    · split
      · exact settle_canon ((addLocal_canon hz).of_eq ‹_›)
      · exact hz
    · exact settle_canon hz
  have shared {z : State} (hz : Canon z) : Canon
    (shareCores (dropJob (bumpC (bumpC z c kCdcJobs 1) c kCdcErr (if status = 0 then 0 else 1)) j) (partOf c)) :=
    shareCores_canon (dropJob_canon (bumpC_canon (bumpC_canon hz)))
  refine (cdcWrite_canon hc).bind fun s1 hc1 => ?_
  rcases he : freeBytes s1 (if j.started then wsp.hi - wsp.lo else 0) with ⟨junk, s2⟩
  have h2 : Canon s2 := canon_of_snd_eq (freeBytes_canon hc1) he
  dsimp only
  split
  · exact ends (shared h2)
  · exact (cdcWrite_canon h2).bind fun _ hc3 => ends (shared hc3)

theorem execCdcJobEnd_canon {job : Nat} {s : State} (hc : Canon s) : NextCanon (execCdcJobEnd job s) :=
  runEvent_canon (can_canon.bind fun _ _ => the_canon.bind fun _ _ => can_canon.bind fun _ _ => endJob_canon hc)

theorem tearJob_canon {s : State} {core : Nat} (hc : Canon s) : Canon (tearJob s core) := by
  unfold tearJob
  split
  · exact hc
  · split
    · exact (endJob_canon hc).of_ok ‹_›
    · exact progFault_canon ((endJob_canon hc).of_fault ‹_›)
    · exact coresFreed_canon (setJob_canon hc)

end Sys2Proof.Machine

namespace Sys2Proof.Machine

/-! ### The canonical form: staging -/

theorem stgRegs_canon {s : State} {es : List (Nat × Nat × Word)} (hc : Canon s) : Canon (stgRegs s es) := by
  unfold stgRegs
  refine foldl_canon (fun _ _ hc1 => ?_) hc
  split
  · exact setR_canon hc1
  · exact hc1

theorem shrinkLive_canon {t : State} {es : List (Nat × Nat × Word)} (hc : Canon t) : Canon (shrinkLive t es) := hc

theorem setStg_canon {s : State} {b st err entry : Nat} (hc : Canon s) : Canon (setStg s b st err entry) := setR_canon hc

theorem disarm_canon {s : State} {b : Nat} (hc : Canon s) : Canon (disarm s b) := hc

theorem stgWritten_canon {s : State} {b : Nat} (hc : Canon s) : Canon (stgWritten s b) := setF_canon (disarm_canon hc)

theorem stgClearAll_canon {s : State} {b : Nat} (hc : Canon s) : Canon (stgClearAll s b) :=
  setStg_canon (disarm_canon (foldl_canon (fun _ _ hc1 => setF_canon hc1) hc))

theorem stgBegin_canon {s : State} {b : Nat} (hc : Canon s) : Canon (stgBegin s b) := ite_both hc hc

theorem stgFinish_canon {s : State} {b : Nat} (hc : Canon s) : Canon (stgFinish s b) := by
  unfold stgFinish
  dsimp only
  split
  · exact setStg_canon (disarm_canon hc)
  · exact setStg_canon (disarm_canon hc)

theorem stgRefuse_canon {s : State} {b code : Nat} (hc : Canon s) : Canon (stgRefuse s b code) := setStg_canon (disarm_canon hc)

theorem stgArm_canon {s : State} {b : Nat} {edge : Word} {critical : Bool} (hc : Canon s) :
    Canon (stgArm s b edge critical).1 := by
  unfold stgArm
  split
  · exact stgRefuse_canon hc
  · split
    · exact stgRefuse_canon hc
    · split
      · exact stgRefuse_canon hc
      · exact setStg_canon hc

theorem stgDisarm_canon {s : State} {b : Nat} (hc : Canon s) : Canon (stgDisarm s b) :=
  ite_both (setStg_canon (disarm_canon hc)) hc

theorem reinit_canon {t : State} {es : List (Nat × Nat × Word)} (hc : Canon t) : Canon (reinit t es) :=
  foldl_canon (fun _ _ hc1 => clearMem_canon hc1) (foldl_canon (fun _ _ hc1 => clearMem_canon hc1) hc)

theorem dropPages_canon {s t : State} {es : List (Nat × Nat × Word)} (hc1 : Canon t) : Canon (dropPages s t es) :=
  foldl_canon (fun _ _ hc2 => clearMem_canon hc2) (foldl_canon (fun _ _ hc2 => dropMig_canon hc2) hc1)

theorem moveCarves_canon {s t : State} (hc1 : Canon t) : Canon (moveCarves s t) := by
  unfold moveCarves
  extract_lets _ st
  have hc2 : Canon st := foldl_canon (fun _ _ hc2 => ite_both (freeSpan_canon hc2) (ite_both (clearMem_canon hc2) hc2)) hc1
  clear_value st
  exact foldl_canon (fun _ _ hc3 => ite_both (freeSpan_canon hc3) (ite_both (clearMem_canon hc3) hc3)) hc2

theorem applyEffect_canon {s : State} {r : Reg} (hc : Canon s) : Canon (applyEffect s r) := by
  unfold applyEffect
  split
  · exact ite_both hc hc
  · exact hc
  · exact ite_both (clearMem_canon hc) hc
  · exact ite_both (setDetRunning_canon hc) hc
  · exact hc

theorem applyPly_canon {s t : State} (hc1 : Canon t) : Canon (applyPly s t) :=
  ite_both hc1 (ite_both (setF_canon (setF_canon hc1)) (ite_both (setF_canon (setF_canon hc1)) hc1))

theorem applyEntries_canon {s : State} {es : List (Nat × Nat × Word)} (hc : Canon s) : Canon (applyEntries s es) := by
  unfold applyEntries
  extract_lets _ st
  have hc1 : Canon st :=
    applyPly_canon (dropPages_canon (moveCarves_canon (reinit_canon (shrinkLive_canon (stgRegs_canon hc)))))
  clear_value st
  exact foldl_canon (fun _ _ hc2 => applyEffect_canon hc2) hc1

theorem stgApplyAll_canon {s : State} {b : Nat} (hc : Canon s) : Canon (stgApplyAll s b) :=
  setStg_canon (disarm_canon (applyEntries_canon hc))

theorem stgEdge_canon {s : State} {k : Word} (hc : Canon s) : Canon (stgEdge s k).1 := by
  unfold stgEdge
  refine foldl_fst_canon (fun _ _ hc1 => ?_) hc
  dsimp only
  split
  · split
    · exact stgApplyAll_canon hc1
    · exact event_canon (setStg_canon (disarm_canon hc1))
  · exact hc1

/-! ### The canonical form: the ply pair -/

theorem plyCount_canon {s : State} {k : Nat} (hc : Canon s) : Canon (plyCount s k) := ite_both (setF_canon hc) hc

theorem flipOne_canon {budget : Nat} {acc : State × Nat × Bool × PlyOut} {x : Splice} (hc : Canon acc.1) :
    Canon (flipOne budget acc x).1 := by
  unfold flipOne
  dsimp only
  split
  · split
    · exact hc
    · split
      · split
        · exact flipSplice_canon hc
        · exact bumpC_canon hc
      · exact flipSplice_canon hc
  · exact flipSplice_canon hc

theorem flipAll_canon {s : State} (hc : Canon s) : Canon (flipAll s).1 :=
  setF_canon (setR_canon (foldl_fst_canon (fun _ _ hc1 => flipOne_canon hc1) hc))

theorem plyShip_canon {s : State} {k : Word} {es : List (Nat × Word)} {gs : PlyOut} (hc : Canon s) : Canon (plyShip s k es gs) :=
  ite_both (ite_both hc (foldl_canon (fun _ _ hc1 => toLink_canon hc1) (toLink_canon hc))) hc

theorem plyHeard_canon {s : State} {edge : Word} (hc : Canon s) : Canon (plyHeard s edge) := hc

theorem execPlyHeartbeatReceive_canon {edge : Word} {s : State} (hc : Canon s) : NextCanon (execPlyHeartbeatReceive edge s) :=
  runPlain_canon (can_canon.bind fun _ _ => toLink_canon (plyHeard_canon hc))

theorem execPlyHeartbeatAck_canon {edge : Word} {s : State} (hc : Canon s) : NextCanon (execPlyHeartbeatAck edge s) :=
  runPlain_canon (can_canon.bind fun _ _ => plyHeard_canon hc)

theorem plyFill_canon {s : State} {r : PlyRecord} {e : Nat × List Byte} (hc : Canon s) : Canon (plyFill s r e) :=
  ite_both hc (foldl_canon (fun _ _ hc1 => ite_both hc1 (copyMem_canon hc1)) hc)

theorem plyImage_canon {s : State} {r : PlyRecord} (hc : Canon s) : Canon (plyImage s r) := by
  unfold plyImage
  extract_lets st
  have hc1 : Canon st := foldl_canon (fun _ _ hc1 => wr_canon hc1) (foldl_canon (fun _ _ hc1 => clearMem_canon hc1) hc)
  clear_value st
  exact ite_both hc1 hc1

theorem plyApply_canon {s : State} {r : PlyRecord} (hc : Canon s) : Canon (plyApply s r) := by
  unfold plyApply
  extract_lets s1 s2 s3 s4
  have h2 : Canon s2 := foldl_canon (fun _ _ hc1 => plyFill_canon hc1) (applyEntries_canon hc)
  have h3 : Canon s3 := foldl_canon (fun _ _ hc1 => wr_canon hc1) h2
  have h4 : Canon s4 := plyImage_canon (foldl_canon (fun _ _ hc1 => wr_canon hc1) h3)
  exact h4

theorem execPlyRecordReceive_canon {r : PlyRecord} {s : State} (hc : Canon s) : NextCanon (execPlyRecordReceive r s) :=
  runPlain_canon (can_canon.bind fun _ _ => toLink_canon (setR_canon (plyApply_canon hc)))

theorem execPlyRecordAck_canon {edge : Word} {s : State} (hc : Canon s) : NextCanon (execPlyRecordAck edge s) :=
  runPlain_canon (can_canon.bind fun _ _ => setR_canon hc)

theorem plyEvent_canon {s : State} {code : Nat} (hc : Canon s) : Canon (plyEvent s code) := eventG_canon hc

theorem plyFence_canon {s : State} (hc : Canon s) : Canon (plyFence s) :=
  foldl_canon (fun _ _ hc1 => teardown_canon (faultEvent_canon hc1)) hc

theorem execPlyLoss_canon {s : State} (hc : Canon s) : NextCanon (execPlyLoss s) :=
  runPlain_canon (can_canon.bind fun _ _ =>
    ite_both (ite_both (setF_canon (plyEvent_canon hc)) (plyFence_canon (setF_canon (plyEvent_canon hc))))
    (can_canon.bind fun _ _ => plyEvent_canon hc))

theorem execPlyTakeover_canon {s : State} (hc : Canon s) : NextCanon (execPlyTakeover s) :=
  runPlain_canon (can_canon.bind fun _ _ => can_canon.bind fun _ _ => can_canon.bind fun _ _ =>
    plyEvent_canon (setF_canon (setF_canon hc)))

theorem clearPartition_canon {s : State} {p : Nat} (hc : Canon s) : Canon (clearPartition s p) := by
  unfold clearPartition
  extract_lets _ st
  have hc1 : Canon st := foldl_canon (fun _ _ hc1 => clearMem_canon hc1) (foldl_canon (fun _ _ hc1 => clearMem_canon hc1) hc)
  clear_value st
  exact foldl_canon (fun _ _ hc2 => clearMem_canon hc2) hc1

theorem execPlyJoin_canon {s : State} (hc : Canon s) : NextCanon (execPlyJoin s) :=
  runPlain_canon (can_canon.bind fun _ _ => ite_both (foldl_canon (fun _ _ hc1 => clearPartition_canon hc1) hc) hc)

theorem execPlyJoined_canon {s : State} (hc : Canon s) : NextCanon (execPlyJoined s) :=
  runPlain_canon (can_canon.bind fun _ _ => plyEvent_canon (setF_canon hc))

/-! ### The canonical form: rings, records, the host -/

theorem ringErr_canon {s : State} {k : Nat} {r : Reg} (hc : Canon s) : Canon (ringErr s k r) :=
  ite_both (eventC_canon hc) (eventReg_canon hc)

theorem newTail_canon {s : State} {fn k v : Nat} (hc : Canon s) : Canon (newTail s fn k v) :=
  ite_both (setRing_canon hc) (ringErr_canon hc)

theorem newHead_canon {s : State} {k v : Nat} (hc : Canon s) : Canon (newHead s k v) :=
  ite_both (setRing_canon hc) (ringErr_canon hc)

theorem holdBell_canon {s : State} {b : Bell} (hc : Canon s) : Canon (holdBell s b) := hc

theorem tailBell_canon {s : State} {fn : Nat} {ring : Ring} {v : Half} (hc : Canon s) : Canon (tailBell s fn ring v) :=
  ite_both (newTail_canon hc) hc

theorem headBell_canon {s : State} {ring : Ring} {v : Half} (hc : Canon s) : Canon (headBell s ring v) :=
  ite_both (newHead_canon hc) hc

theorem writeTail_canon {s : State} {fn : Nat} {ring : Ring} {v : Half} (hc : Canon s) : Canon (writeTail s fn ring v) :=
  ite_both (holdBell_canon hc) (tailBell_canon hc)

theorem writeHead_canon {s : State} {ring : Ring} {v : Half} (hc : Canon s) : Canon (writeHead s ring v) :=
  ite_both (holdBell_canon hc) (headBell_canon hc)

theorem clearCounters_canon {s : State} {c : Nat} (hc : Canon s) : Canon (clearCounters s c) :=
  foldl_canon (fun _ _ hc1 => setF_canon hc1) hc

theorem clearEpochs_canon {s : State} {c : Nat} (hc : Canon s) : Canon (clearEpochs s c) := hc

theorem effCreate_canon {s : State} {c : Nat} {r : Rec} (hc : Canon s) : EffCanon (effCreate s c r) :=
  ite_both hc (ite_both (eventC_canon hc) (setR_canon (clearEpochs_canon (clearCounters_canon (setC_canon hc)))))

theorem effLaunch_canon {s : State} {c num : Nat} {r : Rec} (hc : Canon s) : EffCanon (effLaunch s c num r) := by
  unfold effLaunch
  extract_lets x _ y noRange p s1
  have h1 : Canon s1 := setC_canon hc
  clear_value x y noRange p s1
  split
  · exact hc
  · split
    · split
      · exact hc
      · split
        · exact hc
        · exact .ok (startCtx_canon (setC_canon hc))
    · split
      · split
        · exact hc
        · split
          · exact hc
          · exact .ok (ite_both (startFillers_canon h1) h1)
      · split
        · exact hc
        · exact .ok (serveOne_canon (setC_canon hc))

theorem effTeardown_canon {s : State} {c num : Nat} {r : Rec} (hc : Canon s) : EffCanon (effTeardown s c num r) :=
  ite_both (leaveRec_canon (teardown_canon hc)) hc

theorem effMove_canon {s : State} {k num : Nat} {r : Rec} (hc : Canon s) : EffCanon (effMove s k num r) := by
  unfold effMove
  extract_lets m
  clear_value m
  split
  · exact hc
  · refine ite_both (reelInput_canon hc) ?_
    exact ite_both (P := Canon) (setRing_canon hc) (toHost_canon (setRing_canon hc))

theorem effSignal_canon {s : State} {c : Nat} {r : Rec} (hc : Canon s) : EffCanon (effSignal s c r) := by
  unfold effSignal
  refine ite_both hc ?_
  split
  · exact (applySignal_canon hc).of_eq ‹_›
  · exact hc

theorem stgReports_canon {s : State} (hc : Canon s) : Canon (stgReports s) := by
  unfold stgReports
  refine foldl_canon (fun _ _ hc1 => ?_) hc
  refine foldl_canon (fun _ _ hc2 => ?_) hc1
  split
  · exact complete_canon hc2
  · exact hc2

theorem waitBank_canon {s : State} {k num b : Nat} (hc : Canon s) : Canon (waitBank s k num b) := setRing_canon hc

theorem effStage_canon {s : State} {k num : Nat} {r : Rec} (hc : Canon s) : EffCanon (effStage s k num r) := by
  unfold effStage
  refine ite_both hc ?_
  split
  · exact waitBank_canon (stgBegin_canon hc)
  · exact ite_both (stgReports_canon (stgArm_canon hc)) (stgReports_canon (stgArm_canon hc))
  · exact stgReports_canon (stgDisarm_canon hc)
  · exact stgReports_canon (stgClearAll_canon hc)

theorem effect_canon {s : State} {k num : Nat} {r : Rec} (hc : Canon s) : EffCanon (effect s k num r) := by
  unfold effect
  split
  · exact effCreate_canon hc
  · exact effLaunch_canon hc
  · exact effTeardown_canon hc
  · exact effMove_canon hc
  · exact leaveRec_canon hc
  · exact effSignal_canon hc
  · exact effStage_canon hc
  · exact hc

theorem recEnd_canon {k num : Nat} {id : Half} {e : Eff} (he : EffCanon e) : Canon (recEnd k num id e) := by
  match e with
  | .error (s, st) => exact complete_canon he
  | .ok (s, true) => exact complete_canon he
  | .ok (s, false) => exact he

theorem decodeRec_canon {s : State} {fn k num : Nat} {r : Rec} (hc : Canon s) : Canon (decodeRec s fn k num r) :=
  ite_both (recEnd_canon (effect_canon (ite_both hc (reelCommand_canon hc))))
    (complete_canon (ite_both hc (reelCommand_canon hc)))

theorem takeRec_canon {s : State} {k : Nat} {r : Rec} (hc : Canon s) : Canon (takeRec s k r).1 := setRing_canon hc

theorem fetchRec_canon {s : State} {k : Nat} (hc : Canon s) : Canon (fetchRec s k) := toHost_canon hc

theorem passHead_canon {s : State} {k : Nat} (hc : Canon s) : Canon (passHead s k) := setF_canon hc

theorem ringRecord_canon {op : Nat} {ring : Ring} {r : Rec} {s : State} (hc : Canon s) : NextCanon (ringRecord op ring r s) :=
  runPlain_canon (can_canon.bind fun _ _ => can_canon.bind fun _ _ => can_canon.bind fun _ _ =>
    decodeRec_canon (takeRec_canon (passHead_canon (fetchRec_canon hc))))

theorem execCreate_canon {ring : Ring} {r : Rec} {s : State} (hc : Canon s) : NextCanon (execCreate ring r s) :=
  ringRecord_canon hc

theorem execLaunch_canon {ring : Ring} {r : Rec} {s : State} (hc : Canon s) : NextCanon (execLaunch ring r s) :=
  ringRecord_canon hc

theorem execTeardown_canon {ring : Ring} {r : Rec} {s : State} (hc : Canon s) : NextCanon (execTeardown ring r s) :=
  ringRecord_canon hc

theorem execMove_canon {ring : Ring} {r : Rec} {s : State} (hc : Canon s) : NextCanon (execMove ring r s) := ringRecord_canon hc

theorem execRingFence_canon {ring : Ring} {r : Rec} {s : State} (hc : Canon s) : NextCanon (execRingFence ring r s) :=
  ringRecord_canon hc

theorem execSignal_canon {ring : Ring} {r : Rec} {s : State} (hc : Canon s) : NextCanon (execSignal ring r s) :=
  ringRecord_canon hc

theorem execStage_canon {ring : Ring} {r : Rec} {s : State} (hc : Canon s) : NextCanon (execStage ring r s) := ringRecord_canon hc

theorem inlineBell_canon {s : State} {fn : Nat} {c : CtxN} {whole : Bool} {r : Rec} (hc : Canon s) :
    Canon (inlineBell s fn c whole r) :=
  ite_both hc (ite_both (decodeRec_canon hc) (eventC_canon hc))

theorem inlineWrite_canon {s : State} {fn : Nat} {c : CtxN} {whole : Bool} {r : Rec} (hc : Canon s) :
    Canon (inlineWrite s fn c whole r) :=
  ite_both (holdBell_canon hc) (inlineBell_canon hc)

theorem ringBell_canon {s : State} {b : Bell} (hc : Canon s) : Canon (ringBell s b) := by
  cases b with
  | tail fn ring v => exact tailBell_canon hc
  | head ring v => exact headBell_canon hc
  | inline fn c whole r => exact inlineBell_canon hc

theorem releaseBells_canon {s : State} (hc : Canon s) : Canon (releaseBells s) :=
  foldl_canon (fun _ _ hc1 => ringBell_canon hc1) hc

theorem hostPages_canon {s : State} {a n : Nat} {write : Bool} (hc : Canon s) : Answers Canon Canon (hostPages s a n write) := by
  unfold hostPages
  refine can_canon.bind fun _ _ => foldlM_canon (fun _ _ hc1 => ?_) hc
  refine ite_both trivial (ite_both hc1 ?_)
  split
  · exact hc1
  · exact ite_both (the_some_canon (bringIn_canon hc1)) (the_canon.bind fun _ _ => hc1)

theorem moveIn_canon {s : State} {c p : Nat} {m : MoveSt} {data : List Byte} (hc : Canon s) :
    Answers Canon Canon (moveIn s c p m data) :=
  can_canon.bind fun _ _ => ite_both hc ((hostPages_canon hc).bind fun _ hc1 => reelTransfer_canon (wr_canon hc1))

theorem moveOut_canon {s : State} {k host a n : Nat} (hc : Canon s) : Canon (moveOut s k host a n) :=
  foldl_canon (fun _ _ hc1 => toHost_canon hc1) hc

theorem execMoveDone_canon {ring : Ring} {cmdid : Half} {reply : HostReply} {s : State} (hc : Canon s) :
    NextCanon (execMoveDone ring cmdid reply s) := by
  unfold execMoveDone
  refine runPlain_canon (can_canon.bind fun _ _ => the_canon.bind fun _ _ => ?_)
  dsimp only
  split
  · exact complete_canon (setRing_canon hc)
  · exact complete_canon (setRing_canon hc)
  · exact ite_both ((hostPages_canon (setRing_canon hc)).bind fun _ hc1 => complete_canon (moveOut_canon hc1))
      ((moveIn_canon (setRing_canon hc)).bind fun _ hc1 => releaseBells_canon (complete_canon hc1))

/-! ### The canonical form: ports -/

theorem spareCheck_canon {s : State} (hc : Canon s) : Canon (spareCheck s) := by
  unfold spareCheck
  refine ite_both ?_ hc
  split
  · exact ite_both (setF_canon (setF_canon hc)) (setF_canon (setF_canon hc))
  · exact hc

theorem setPort_canon {s : State} {n st : Nat} (hc : Canon s) : Canon (setPort s n st) := by
  unfold setPort
  extract_lets _ _ st1
  have hc1 : Canon st1 :=
    spareCheck_canon (ite_both (setF_canon (ite_both (setF_canon hc) (setF_canon (setF_canon hc))))
    (ite_both (setF_canon hc) (setF_canon (setF_canon hc))))
  clear_value st1
  exact ite_both (toLink_canon (ite_both hc1 (strand_canon hc1))) (ite_both hc1 (strand_canon hc1))

theorem trainPort_canon {s : State} {n : Nat} (hc : Canon s) : Canon (trainPort s n) :=
  ite_both (setPort_canon hc) (toLink_canon (setPort_canon hc))

theorem saveRmap_canon {s : State} (hc : Canon s) : Canon (saveRmap s) := hc

theorem markRetired_canon {s : State} {ty idx reason : Nat} (hc : Canon s) : Canon (markRetired s ty idx reason) := by
  unfold markRetired
  extract_lets s1 s2
  have h1 : Canon s1 := saveRmap_canon (setRetired_canon hc)
  have h2 : Canon s2 := h1
  clear_value s2
  exact eventG_canon h2

theorem loseQuarter_canon {s : State} {q : Nat} (hc : Canon s) : Canon (loseQuarter s q) := by
  unfold loseQuarter
  split
  · exact hc
  · rename_i p _
    extract_lets s1 s2 s3
    have h1 : Canon s1 := ite_both hc (beginReset_canon hc)
    have h2 : Canon s2 := ite_both (setF_canon h1) h1
    have h3 : Canon s3 := setF_canon (foldl_canon (fun _ _ h => poolGive_canon h) h2)
    exact ite_both (setF_canon h3) h3

theorem retireQuarter_canon {s : State} {q reason : Nat} (hc : Canon s) : Canon (retireQuarter s q reason) :=
  ite_both hc (loseQuarter_canon (markRetired_canon hc))

theorem countError_canon {s : State} {u : UnitId} (hc : Canon s) : Canon (countError s u).1 := bump_canon hc

theorem retrain_canon {s : State} {n : Nat} (hc : Canon s) : Canon (retrain s n) :=
  ite_both (setPort_canon (markRetired_canon (countError_canon hc))) (trainPort_canon (countError_canon hc))

theorem retireUnit_canon {s : State} {ty idx reason : Nat} (hc : Canon s) : Canon (retireUnit s ty idx reason) := by
  unfold retireUnit
  refine ite_both hc ?_
  split
  · exact ite_both (ite_both (markRetired_canon hc) (setPort_canon (markRetired_canon (markRetired_canon hc))))
      (ite_both (retrain_canon (markRetired_canon hc)) (ite_both (trainPort_canon (markRetired_canon hc)) (markRetired_canon hc)))
  · exact setPort_canon (markRetired_canon hc)
  · exact ite_both (retireQuarter_canon (markRetired_canon hc)) (markRetired_canon hc)
  · exact retireQuarter_canon hc
  · exact maskRetired_canon (markRetired_canon hc)
  · exact markRetired_canon hc

theorem execPortTrain_canon {port : PortN} {s : State} (hc : Canon s) : NextCanon (execPortTrain port s) :=
  runPlain_canon (can_canon.bind fun _ _ => ite_both (retrain_canon hc) (trainPort_canon hc))

theorem resume_canon {s : State} {n : Nat} (hc : Canon s) : Canon (resume s n) :=
  drainPort_canon (sendAgain_canon (setPortSt_canon hc))

theorem execPortTrained_canon {port : PortN} {r : Training} {s : State} (hc : Canon s) :
    NextCanon (execPortTrained port r s) := by
  unfold execPortTrained
  refine runPlain_canon ?_
  refine can_canon.bind fun _ _ => can_canon.bind fun _ _ => ite_both (retireUnit_canon hc) ?_
  refine ite_both (setF_canon (setPort_canon (setF_canon (setF_canon (setF_canon hc))))) ?_
  refine ite_both ?_ (eventG_canon (setPort_canon (setF_canon (setF_canon (setF_canon hc)))))
  extract_lets st
  have hc1 : Canon st := setF_canon (setPort_canon (setF_canon (setF_canon (setF_canon hc))))
  clear_value st
  exact resume_canon (ite_both (toLink_canon (spareCheck_canon hc1)) (spareCheck_canon hc1))

theorem execPortStateReport_canon {rank : Fin 8} {live : BitVec 8} {s : State} (hc : Canon s) :
    NextCanon (execPortStateReport rank live s) :=
  runPlain_canon (can_canon.bind fun _ _ => hc)

theorem countBurst_canon {s : State} {n : Nat} {errors : List Nat} (hc : Canon s) : Canon (countBurst s n errors) :=
  ite_both (retireUnit_canon (countError_canon hc)) (countError_canon hc)

theorem execFlitReceive_canon {port : PortN} {x : FlitIn} {s : State} (hc : Canon s) : NextCanon (execFlitReceive port x s) := by
  unfold execFlitReceive
  refine runPlain_canon (can_canon.bind fun _ _ => ?_)
  split
  · exact can_canon.bind fun _ _ => foldl_canon (fun _ _ hc1 => countBurst_canon hc1) (hearFlit_canon (bump_canon hc))
  · exact hearResend_canon hc
  · exact hearCredit_canon hc

/-! ### The canonical form: security -/

theorem setUid_canon {s : State} {u : List Byte} (hc : Canon s) : Canon (setUid s u) :=
  foldl_canon (fun _ _ hc1 => setR_canon hc1) hc

theorem deriveKeys_canon {s : State} {ms : List (List Byte)} (hc : Canon s) : Canon (deriveKeys s ms) :=
  ite_both hc (setF_canon (setF_canon (setUid_canon hc)))

theorem startSlot_canon {s : State} {b : Bool} (hc : Canon s) : Canon (startSlot s b) :=
  statusRise_canon (setF_canon (setF_canon (setR_canon (deriveKeys_canon hc))))

theorem recover_canon {s : State} (hc : Canon s) : Canon (recover s) := setF_canon hc

theorem writeAuth_canon {s : State} {g : AuthRegion → AuthRegion} (hc : Canon s) : Canon (writeAuth s g) :=
  ite_both hc (eventG_canon hc)

theorem bootRom_canon {s : State} (hc : Canon s) : Canon (bootRom s) :=
  ite_both (ite_both (startSlot_canon (setR_canon (setR_canon hc)))
    (ite_both (startSlot_canon (setR_canon (setR_canon hc))) (recover_canon (setR_canon (setR_canon hc))))) (recover_canon hc)

theorem fwDone_canon {s : State} {f : FwSt} (hc : Canon s) : Canon (fwDone s f) := by
  unfold fwDone
  extract_lets svn s1
  have h1 : Canon s1 := writeAuth_canon hc
  exact complete_canon (startSlot_canon (by exact h1))

theorem fwBegin_canon {s : State} {f : FwSt} (hc : Canon s) : Canon (fwBegin s f) := by
  unfold fwBegin
  refine foldl_canon (fun _ _ hc1 => ?_) hc
  extract_lets live d open' st
  have hc2 : Canon st := by
    refine foldl_canon (fun _ _ h => ?_) hc1
    split
    · exact setT_canon h
    · exact h
  exact setDet_canon (ite_both (setTstat_canon hc2) hc2)

/-! ### The canonical form: register accesses -/

theorem regPut_canon {s : State} {r : Reg} {v m : Word} (hc : Canon s) : Canon (regPut s r v m) := setR_canon hc

theorem ctxBusy_canon {s : State} {c : Nat} {r : Reg} (hc : Canon s) : Canon (ctxBusy s c r) := eventC_canon hc

theorem htabWrite_canon {s : State} {c : Nat} {v m : Word} (hc : Canon s) : Canon (htabWrite s c v m) :=
  ite_both (ctxBusy_canon hc) (regPut_canon hc)

theorem lkcredWrite_canon {s : State} {c : Nat} {v m : Word} (hc : Canon s) : Canon (lkcredWrite s c v m) :=
  ite_both (ctxBusy_canon hc) (ite_both (eventC_canon hc) (regPut_canon hc))

theorem ringCtlWrite_canon {s : State} {k : Nat} {cq : Bool} {v m : Word} (hc : Canon s) : Canon (ringCtlWrite s k cq v m) :=
  ite_both (ite_both hc (ite_both (ctxBusy_canon hc) (setF_canon hc)))
    (ite_both (ite_both (setRing_canon (setF_canon (regPut_canon hc))) (setRing_canon (setF_canon (regPut_canon hc))))
    (regPut_canon hc))

theorem ringBaseWrite_canon {s : State} {k : Nat} {cq : Bool} {v m : Word} (hc : Canon s) : Canon (ringBaseWrite s k cq v m) :=
  ite_both hc (regPut_canon hc)

theorem retireWrite_canon {s : State} {v : Word} (hc : Canon s) : Canon (retireWrite s v) :=
  ite_both (ringErr_canon hc) (ite_both (ite_both hc hc) (retireUnit_canon hc))

theorem attWrite_canon {s : State} {v m : Word} (hc : Canon s) : Canon (attWrite s v m) := by
  unfold attWrite
  extract_lets s1 nonce s2
  have h1 : Canon s1 := regPut_canon hc
  have h2 : Canon s2 := setF_canon (setF_canon h1)
  clear_value nonce s1 s2
  exact ite_both (ite_both (h2.same rfl rfl rfl rfl rfl rfl) (setF_canon h1)) h1

theorem evtCtlWrite_canon {s : State} {v m : Word} (hc : Canon s) : Canon (evtCtlWrite s v m) := by
  unfold evtCtlWrite
  refine ite_both (ite_both hc (setF_canon hc)) (ite_both ?_ (regPut_canon hc))
  have h2 : Canon (setR (setR (regPut s .evtCtl v m) .evtHead 0) .evtTail 0) := setR_canon (setR_canon (regPut_canon hc))
  exact h2

theorem evtHeadWrite_canon {s : State} {v m : Word} (hc : Canon s) : Canon (evtHeadWrite s v m) := ite_both (regPut_canon hc) hc

theorem lnkPhyPut_canon {s : State} {n : Nat} {v m : Word} (hc : Canon s) : Canon (lnkPhyPut s n v m) :=
  ite_both (regPut_canon hc)
    (ite_both (setPort_canon (regPut_canon hc)) (ite_both (trainPort_canon (regPut_canon hc)) (regPut_canon hc)))

theorem doWrite_canon {s : State} {r : Reg} {v m : Word} (hc : Canon s) : Canon (doWrite s r v m) := by
  unfold doWrite
  refine ite_both (eventReg_canon hc) ?_
  split
  · exact ite_both (retireWrite_canon hc) hc
  · exact ringBaseWrite_canon hc
  · exact ringBaseWrite_canon hc
  · exact ringCtlWrite_canon hc
  · exact ringCtlWrite_canon hc
  · exact ringBaseWrite_canon hc
  · exact ringBaseWrite_canon hc
  · exact ringCtlWrite_canon hc
  · exact ringCtlWrite_canon hc
  · exact htabWrite_canon hc
  · exact lkcredWrite_canon hc
  · exact stgReports_canon (stgWritten_canon (regPut_canon hc))
  · exact stgReports_canon (stgWritten_canon (regPut_canon hc))
  · exact ite_both (stgReports_canon (stgClearAll_canon hc)) hc
  · exact ite_both (stgBegin_canon hc) hc
  · exact stgReports_canon (stgArm_canon hc)
  · exact ite_both (stgReports_canon (stgDisarm_canon hc)) hc
  · exact attWrite_canon hc
  · exact ite_both hc (regPut_canon hc)
  · exact evtCtlWrite_canon hc
  · exact evtHeadWrite_canon hc
  · exact lnkPhyPut_canon hc
  · exact regPut_canon hc

theorem regErr_canon {s : State} {off kind : Nat} (hc : Canon s) : Canon (regErr s off kind) := eventG_canon hc

theorem takeHalf_canon {s : State} {fn slot : Nat} {high : Bool} (hc : Canon s) : Canon (takeHalf s fn slot high).1 := by
  unfold takeHalf
  split
  · exact hc
  · dsimp only
    split
    · exact hc
    · exact regErr_canon hc

theorem regSlotWrite_canon {s : State} {fn : Nat} {r : Reg} {a : BarAcc} {low : Option Half} (hc : Canon s) :
    Canon (regSlotWrite s fn r a low) := by
  unfold regSlotWrite
  refine ite_both ?_ ?_
  · split
    · exact writeHead_canon (writeTail_canon hc)
    · exact writeTail_canon hc
    · exact writeHead_canon hc
  · refine ite_both ?_ ?_
    · split
      · exact doWrite_canon hc
      · exact hc
      · exact doWrite_canon hc
      · exact doWrite_canon hc
    · split
      · exact doWrite_canon hc
      · exact doWrite_canon hc
      · exact hc

theorem barWrite_canon {s : State} {fn slot : Nat} {a : BarAcc} (hc : Canon s) : Canon (barWrite s fn slot a) := by
  unfold barWrite
  dsimp only
  split
  · exact takeHalf_canon hc
  · exact ite_both (regSlotWrite_canon (takeHalf_canon hc)) (takeHalf_canon hc)

theorem badAccess_canon {s : State} {off size : Nat} (hc : Canon s) : Canon (badAccess s off size) :=
  ite_both (toHost_canon (regErr_canon hc)) (regErr_canon hc)

theorem memRow_canon {s : State} {fn : Nat} {s' : State} (hc : Canon s) (hc1 : Canon s') : NextCanon (memRow s fn s') :=
  runPlain_canon (can_canon.bind fun _ _ => ite_both (toHost_canon hc) hc1)

theorem regRow_canon {s : State} {fn : Func} {r : Reg} {a : BarAcc} (hc : Canon s) : NextCanon (regRow s fn r a) :=
  memRow_canon hc (barWrite_canon hc)

theorem tailRow_canon {s : State} {fn : Nat} {ring : Ring} {v : Half} (hc : Canon s) : Canon (tailRow s fn ring v) := by
  unfold tailRow
  split
  · exact barWrite_canon hc
  · split
    · exact writeTail_canon hc
    · exact hc

theorem headRow_canon {s : State} {fn : Nat} {ring : Ring} {v : Half} (hc : Canon s) : Canon (headRow s fn ring v) := by
  unfold headRow
  split
  · exact barWrite_canon hc
  · split
    · exact writeHead_canon hc
    · exact hc

theorem inlineRow_canon {s : State} {fn page : Nat} {whole : Bool} {r : Rec} (hc : Canon s) :
    Canon (inlineRow s fn page whole r) := by
  unfold inlineRow
  split
  · exact inlineWrite_canon hc
  · exact hc

theorem execSqTailWrite_canon {fn : Func} {ring : Ring} {v : Half} {s : State} (hc : Canon s) :
    NextCanon (execSqTailWrite fn ring v s) :=
  memRow_canon hc (tailRow_canon hc)

theorem execCqHeadWrite_canon {fn : Func} {ring : Ring} {v : Half} {s : State} (hc : Canon s) :
    NextCanon (execCqHeadWrite fn ring v s) :=
  memRow_canon hc (headRow_canon hc)

theorem execInlineRecord_canon {fn : Func} {page : Fin 64} {whole : Bool} {r : Rec} {s : State} (hc : Canon s) :
    NextCanon (execInlineRecord fn page whole r s) :=
  memRow_canon hc (inlineRow_canon hc)

theorem bar2Write_canon {s : State} {x : Tlp} {v : Word} (hc : Canon s) : Canon (bar2Write s x v) :=
  ite_both hc (ite_both (inlineRow_canon hc)
    (ite_both hc (ite_both (tailRow_canon hc) (ite_both (headRow_canon hc) (ite_both (headRow_canon (tailRow_canon hc)) hc)))))

theorem maskVector_canon {s : State} {fn n : Nat} {on : Bool} (hc : Canon s) : Canon (maskVector s fn n on) :=
  ite_both hc (ite_both hc (ite_both (sendMsix_canon hc) hc))

theorem configWrite_canon {s : State} {fn : Nat} {k : CfgField} {v : Word} (hc : Canon s) : Canon (configWrite s fn k v) := by
  unfold configWrite
  dsimp only
  split
  · exact hc
  · exact ite_both hc (ite_both hc hc)
  · exact ite_both hc hc
  · exact maskVector_canon hc

theorem configRow_canon {s s' : State} (hc : Canon s) (hc1 : Canon s') : Canon (configRow s s') := ite_both (toHost_canon hc) hc1

theorem clearRead_canon {s : State} {r : Reg} (hc : Canon s) : Canon (clearRead s r) := setR_canon hc

theorem regSlotRead_canon {s : State} {fn : Nat} {r : Reg} {size : Nat} {high : Bool} (hc : Canon s) :
    Canon (regSlotRead s fn r size high).1 := by
  unfold regSlotRead
  dsimp only
  split
  · exact clearRead_canon hc
  · split
    · split
      · exact hc
      · exact clearRead_canon hc
    · split
      · split
        · exact hc
        · exact hc
      · exact clearRead_canon hc

theorem barRead_canon {s : State} {x : Tlp} (hc : Canon s) : Canon (barRead s x) := by
  unfold barRead
  refine ite_both (badAccess_canon hc) ?_
  split
  · exact hc
  · exact ite_both (regSlotRead_canon hc) hc

theorem bar0Write_canon {s : State} {x : Tlp} {v : Word} (hc : Canon s) : Canon (bar0Write s x v) :=
  ite_both (badAccess_canon (takeHalf_canon hc)) (barWrite_canon hc)

theorem execRegWrite_canon {x : Tlp} {v : Word} {s : State} (hc : Canon s) : NextCanon (execRegWrite x v s) := by
  unfold execRegWrite
  split
  · exact runPlain_canon (can_canon.bind fun _ _ => ite_both (toHost_canon hc) (configRow_canon hc (configWrite_canon hc)))
  · exact runPlain_canon (can_canon.bind fun _ _ => can_canon.bind fun _ _ => can_canon.bind fun _ _ =>
      ite_both (toHost_canon hc) (ite_both (toHost_canon hc) (bar0Write_canon hc)))
  · exact runPlain_canon (can_canon.bind fun _ _ => can_canon.bind fun _ _ =>
      ite_both (toHost_canon hc) (ite_both (toHost_canon hc) (bar2Write_canon hc)))

theorem readRow_canon {s : State} {x : Tlp} (hc : Canon s) : NextCanon (readRow s x) := by
  unfold readRow
  split
  · exact runPlain_canon (can_canon.bind fun _ _ => configRow_canon hc hc)
  · exact runPlain_canon (can_canon.bind fun _ _ => can_canon.bind fun _ _ => ite_both (toHost_canon hc) (barRead_canon hc))
  · exact runPlain_canon (can_canon.bind fun _ _ => can_canon.bind fun _ _ => ite_both (toHost_canon hc) hc)

theorem execCounterRead_canon {x : Tlp} {s : State} (hc : Canon s) : NextCanon (execCounterRead x s) := readRow_canon hc

theorem execRegReadLatch_canon {x : Tlp} {s : State} (hc : Canon s) : NextCanon (execRegReadLatch x s) := readRow_canon hc

theorem execCtxHtabWrite_canon {fn : Func} {c : CtxN} {a : BarAcc} {s : State} (hc : Canon s) :
    NextCanon (execCtxHtabWrite fn c a s) :=
  regRow_canon hc

theorem execCtxLkcredWrite_canon {fn : Func} {c : CtxN} {a : BarAcc} {s : State} (hc : Canon s) :
    NextCanon (execCtxLkcredWrite fn c a s) :=
  regRow_canon hc

theorem execRingEnableWrite_canon {fn : Func} {ring : Ring} {cq : Bool} {a : BarAcc} {s : State} (hc : Canon s) :
    NextCanon (execRingEnableWrite fn ring cq a s) :=
  regRow_canon hc

theorem execStgEntryWrite_canon {fn : Func} {b : Fin 5} {n : Fin 256} {val : Bool} {a : BarAcc} {s : State} (hc : Canon s) :
    NextCanon (execStgEntryWrite fn b n val a s) :=
  regRow_canon hc

theorem execStgClear_canon {fn : Func} {b : Fin 5} {a : BarAcc} {s : State} (hc : Canon s) : NextCanon (execStgClear fn b a s) :=
  regRow_canon hc

theorem execStgCheck_canon {fn : Func} {b : Fin 5} {a : BarAcc} {s : State} (hc : Canon s) : NextCanon (execStgCheck fn b a s) :=
  regRow_canon hc

theorem execStgApply_canon {fn : Func} {b : Fin 5} {a : BarAcc} {s : State} (hc : Canon s) : NextCanon (execStgApply fn b a s) :=
  regRow_canon hc

theorem execStgCancel_canon {fn : Func} {b : Fin 5} {a : BarAcc} {s : State} (hc : Canon s) :
    NextCanon (execStgCancel fn b a s) :=
  regRow_canon hc

theorem execStgCheckDone_canon {b : Fin 5} {s : State} (hc : Canon s) : NextCanon (execStgCheckDone b s) :=
  runPlain_canon (can_canon.bind fun _ _ => stgReports_canon (stgFinish_canon hc))

theorem execRetireReq_canon {fn : Func} {a : BarAcc} {s : State} (hc : Canon s) : NextCanon (execRetireReq fn a s) :=
  regRow_canon hc

theorem execUnretireReq_canon {fn : Func} {a : BarAcc} {s : State} (hc : Canon s) : NextCanon (execUnretireReq fn a s) :=
  regRow_canon hc

theorem execAttGo_canon {fn : Func} {a : BarAcc} {s : State} (hc : Canon s) : NextCanon (execAttGo fn a s) := regRow_canon hc

theorem execEvtRingEnable_canon {fn : Func} {a : BarAcc} {s : State} (hc : Canon s) : NextCanon (execEvtRingEnable fn a s) :=
  regRow_canon hc

theorem execEvtRingHeadWrite_canon {fn : Func} {a : BarAcc} {s : State} (hc : Canon s) :
    NextCanon (execEvtRingHeadWrite fn a s) :=
  regRow_canon hc

theorem execLnkPhyWrite_canon {fn : Func} {port : PortN} {a : BarAcc} {s : State} (hc : Canon s) :
    NextCanon (execLnkPhyWrite fn port a s) :=
  regRow_canon hc

theorem execAttReportDone_canon {written : Bool} {s : State} (hc : Canon s) : NextCanon (execAttReportDone written s) := by
  unfold execAttReportDone
  refine runPlain_canon (can_canon.bind fun _ _ => the_canon.bind fun x _ => ?_)
  extract_lets _ s1 s2 s3 chain
  have h1 : Canon s1 := hc
  have h2 : Canon s2 := setF_canon h1
  have h3 : Canon s3 := toHost_canon h2
  clear_value s2 s3 chain
  split
  · exact ite_both (P := Canon) (setF_canon (toHost_canon h3)) h3
  · exact setF_canon h2

theorem rcvImage_canon {s : State} {image : HostReply} (hc : Canon s) : Canon (rcvImage s image) := by
  unfold rcvImage
  split
  · exact setF_canon hc
  · exact ite_both (bootRom_canon (setF_canon hc)) (setF_canon hc)

theorem execRcvGo_canon {fn : Func} {a : BarAcc} {image : HostReply} {s : State} (hc : Canon s) :
    NextCanon (execRcvGo fn a image s) :=
  runPlain_canon (can_canon.bind fun _ _ => can_canon.bind fun _ _ =>
    ite_both (toHost_canon hc) (ite_both (rcvImage_canon (toHost_canon (barWrite_canon hc))) (barWrite_canon hc)))

theorem hostUr_canon {s : State} {off : Nat} (hc : Canon s) : Canon (hostUr s off) := eventG_canon (toHost_canon hc)

theorem execBar4Read_canon {fn : Func} {off len : Nat} {s : State} (hc : Canon s) : NextCanon (execBar4Read fn off len s) := by
  unfold execBar4Read
  refine runPlain_canon ?_
  refine can_canon.bind fun _ _ => can_canon.bind fun _ _ => ite_both (toHost_canon hc) ?_
  split
  · exact hostUr_canon hc
  · exact (hostPages_canon hc).bind fun _ hc1 => toHost_canon hc1

theorem execBar4Write_canon {fn : Func} {off : Nat} {data : List Byte} {poisoned : Bool} {s : State} (hc : Canon s) :
    NextCanon (execBar4Write fn off data poisoned s) := by
  unfold execBar4Write
  refine runPlain_canon (can_canon.bind fun _ _ => ?_)
  refine can_canon.bind fun _ _ => ite_both (toHost_canon hc) (ite_both (toHost_canon hc) ?_)
  split
  · exact hostUr_canon hc
  · exact ite_both (reelInput_canon hc)
      (ite_both hc ((hostPages_canon hc).bind fun _ hc1 => releaseBells_canon (reelTransfer_canon (wr_canon hc1))))

/-! ### The canonical form: CRITICAL commands -/

theorem setCtr_canon {s : State} {c : Word} (hc : Canon s) : Canon (setCtr s c) := setF_canon (setR_canon hc)

theorem persist_canon {s : State} {r : Rec} (hc : Canon s) : Canon (persist s r) :=
  ite_both hc (setCtr_canon (ite_both (writeAuth_canon hc) hc))

theorem actFwLoad_canon {s : State} {r : Rec} {d : List Byte} (hc : Canon s) : EffCanon (actFwLoad s r d) :=
  ite_both hc (ite_both hc hc)

theorem actFwActivate_canon {s : State} {r : Rec} {d : List Byte} {num : Nat} (hc : Canon s) :
    EffCanon (actFwActivate s r d num) := by
  unfold actFwActivate
  dsimp only
  split
  · exact hc
  · exact ite_both hc (freeWord_canon hc)

theorem actStageApply_canon {s : State} {r : Rec} {d : List Byte} (hc : Canon s) : EffCanon (actStageApply s r d) :=
  ite_both hc (ite_both (stgReports_canon (stgArm_canon hc)) (stgReports_canon (stgArm_canon hc)))

theorem actKeyInstall_canon {s : State} {r : Rec} {d : List Byte} (hc : Canon s) : EffCanon (actKeyInstall s r d) := by
  unfold actKeyInstall
  split
  · split
    · exact hc
    · extract_lets k s1
      have h1 : Canon s1 := writeAuth_canon hc
      exact setF_canon (by exact h1)
  · extract_lets o blob
    split
    · exact hc
    · exact hc

theorem actKeyRotate_canon {s : State} {r : Rec} {d : List Byte} (hc : Canon s) : EffCanon (actKeyRotate s r d) := by
  unfold actKeyRotate
  extract_lets k s1
  have h1 : Canon s1 := writeAuth_canon hc
  exact setCtr_canon (by exact h1)

theorem actDebugUnlock_canon {s : State} {r : Rec} (hc : Canon s) : EffCanon (actDebugUnlock s r) := by
  unfold actDebugUnlock
  dsimp only
  split
  · exact hc
  · exact setF_canon hc
  · exact beginReset_canon (setF_canon (setF_canon hc))
  · exact ite_both hc (setF_canon (writeAuth_canon hc))

theorem actReelExport_canon {s : State} {r : Rec} {d : List Byte} (hc : Canon s) : EffCanon (actReelExport s r d) :=
  ite_both hc (ite_both hc (ite_both hc (toHost_canon hc)))

theorem retrainAll_canon {s : State} (hc : Canon s) : Canon (retrainAll s) :=
  foldl_canon (fun _ _ hc1 => ite_both (trainPort_canon hc1) hc1) hc

theorem actDevidAssign_canon {s : State} {d : List Byte} (hc : Canon s) : EffCanon (actDevidAssign s d) := by
  unfold actDevidAssign
  extract_lets v
  generalize v ||| mask 63 63 = w
  split
  · exact hc
  · exact .ok (retrainAll_canon (setR_canon hc))

theorem critAct_canon {s : State} {r : Rec} {d : List Byte} {num : Nat} (hc : Canon s) : EffCanon (critAct s r d num) := by
  unfold critAct
  split
  · exact actFwLoad_canon hc
  · exact actFwActivate_canon hc
  · exact actStageApply_canon hc
  · exact actKeyInstall_canon hc
  · exact actKeyRotate_canon hc
  · exact actDebugUnlock_canon hc
  · exact actReelExport_canon hc
  · exact actDevidAssign_canon hc

theorem critSteps_canon {s : State} {r : Rec} {d : List Byte} {num : Nat} (hc : Canon s) : EffCanon (critSteps s r d num) :=
  ite_both hc (ite_both (bump_canon hc) (ite_both hc (critAct_canon (persist_canon hc))))

theorem critRecord_canon {kind : Nat} {r : Rec} {payload : HostReply} {s : State} (hc : Canon s) :
    NextCanon (critRecord kind r payload s) := by
  unfold critRecord
  refine runPlain_canon (can_canon.bind fun _ _ => ?_)
  refine can_canon.bind fun _ _ => can_canon.bind fun _ _ => can_canon.bind fun _ _ => ?_
  dsimp only
  split
  · exact complete_canon (ite_both (takeRec_canon (passHead_canon (fetchRec_canon hc)))
      (toHost_canon (takeRec_canon (passHead_canon (fetchRec_canon hc)))))
  · exact recEnd_canon (critSteps_canon
      (ite_both (takeRec_canon (passHead_canon (fetchRec_canon hc)))
      (toHost_canon (takeRec_canon (passHead_canon (fetchRec_canon hc))))))

theorem execFwLoad_canon {r : Rec} {payload : HostReply} {s : State} (hc : Canon s) : NextCanon (execFwLoad r payload s) :=
  critRecord_canon hc

theorem execFwActivate_canon {r : Rec} {payload : HostReply} {s : State} (hc : Canon s) :
    NextCanon (execFwActivate r payload s) :=
  critRecord_canon hc

theorem execStageApply_canon {r : Rec} {payload : HostReply} {s : State} (hc : Canon s) :
    NextCanon (execStageApply r payload s) :=
  critRecord_canon hc

theorem execKeyInstall_canon {r : Rec} {payload : HostReply} {s : State} (hc : Canon s) :
    NextCanon (execKeyInstall r payload s) :=
  critRecord_canon hc

theorem execKeyRotate_canon {r : Rec} {payload : HostReply} {s : State} (hc : Canon s) : NextCanon (execKeyRotate r payload s) :=
  critRecord_canon hc

theorem execDebugUnlock_canon {r : Rec} {payload : HostReply} {s : State} (hc : Canon s) :
    NextCanon (execDebugUnlock r payload s) :=
  critRecord_canon hc

theorem execReelExport_canon {r : Rec} {payload : HostReply} {s : State} (hc : Canon s) :
    NextCanon (execReelExport r payload s) :=
  critRecord_canon hc

theorem execDevidAssign_canon {r : Rec} {payload : HostReply} {s : State} (hc : Canon s) :
    NextCanon (execDevidAssign r payload s) :=
  critRecord_canon hc

end Sys2Proof.Machine

namespace Sys2Proof.Machine

/-! ### The canonical form: clocks -/

theorem trip_canon {s : State} (hc : Canon s) : Canon (trip s) := statusRise_canon hc

theorem clockTick_canon {s : State} {m : Monitor} (hc : Canon s) : Canon (clockTick s m) :=
  ite_both (trip_canon (ite_both
    (ite_both (statusRise_canon (eventG_canon hc)) (ite_both (statusFall_canon (eventG_canon hc)) hc))
    (setDetRunning_canon (ite_both (statusRise_canon (eventG_canon hc)) (ite_both (statusFall_canon (eventG_canon hc)) hc)))))
    (ite_both (ite_both (statusRise_canon (eventG_canon hc)) (ite_both (statusFall_canon (eventG_canon hc)) hc))
    (setDetRunning_canon (ite_both (statusRise_canon (eventG_canon hc)) (ite_both (statusFall_canon (eventG_canon hc)) hc))))

/-! ### The canonical form: multicast -/

theorem setGroup_canon {s : State} {g : Group} (hc : Canon s) : Canon (setGroup s g) := hc

theorem execDraftMcastSend_canon {t : Tid} {f : Fields} {s : State} (hc : Canon s) : NextCanon (execDraftMcastSend t f s) := by
  unfold execDraftMcastSend
  refine runThread_canon hc (fun _ _ hc1 => ?_)
  refine (dec_canon hc1).bind fun _ _ => (dec_canon hc1).bind fun _ _ => src_canon.bind fun _ _ => ?_
  refine srcG_canon.bind fun _ _ => srcG_canon.bind fun _ _ => (freshSid_canon hc1).bind fun _ _ => ?_
  refine (readRegion_canon hc1).bind fun _ _ => (walkMode_canon hc1).bind ?_
  rintro ⟨_, _, _⟩ _
  refine (needF_canon hc1).bind fun _ _ => ?_
  extract_lets _ _ _ jp
  have hjp : ∀ a, Answers Canon Canon (jp a) := by
    rintro _
    exact (needF_canon hc1).bind fun _ _ => (needF_canon hc1).bind fun _ _ =>
      stepOn_canon (foldl_canon (fun _ _ hc2 => setStream_canon hc2) hc1)
  clear_value jp
  refine ite_both ((needFmt_canon hc1).bind fun _ _ => hjp _) ((getH_canon hc1).bind fun _ _ => ?_)
  refine (needFmt_canon hc1).bind fun _ _ => (needF_canon hc1).bind fun _ _ => ?_
  extract_lets jp1
  have hjp1 : ∀ a, Answers Canon Canon (jp1 a) := by
    rintro _
    exact (scaleOf?_canon hc1).bind fun _ _ => (slubOf?_canon hc1).bind fun _ _ => (needF_canon hc1).bind fun _ _ =>
      (needF_canon hc1).bind fun _ _ => hjp _
  clear_value jp1
  exact ite_both ((tileWalk_canon hc1).bind fun _ _ => hjp1 _)
    ((convOk_canon hc1).bind fun _ _ => (rowsWalk_canon hc1).bind fun _ _ => hjp1 _)

theorem execDraftMcastRecv_canon {t : Tid} {f : Fields} {s : State} (hc : Canon s) : NextCanon (execDraftMcastRecv t f s) := by
  unfold execDraftMcastRecv
  refine runThread_canon hc (fun s1 _ hc1 => ?_)
  refine (dec_canon hc1).bind fun _ _ => (dec_canon hc1).bind fun _ _ => ?_
  refine src_canon.bind fun _ _ => (freshSid_canon hc1).bind fun _ _ => ?_
  refine (readRegion_canon hc1).bind fun _ _ => (needF_canon hc1).bind fun _ _ => ?_
  dsimp only
  split
  · exact stepOn_canon hc1
  · exact (needF_canon hc1).bind fun _ _ => stepOn_canon (by exact hc1)

theorem dropMember_canon {s : State} {t : Tid} {sid tile : Nat} (hc : Canon s) : Canon (dropMember s t sid tile) := by
  unfold dropMember
  extract_lets st
  have hc1 : Canon st := by
    dsimp only [st]
    split
    · exact setStream_canon hc
    · exact hc
  clear_value st
  exact bumpC_canon (eventC_canon hc1)

theorem dropLagging_canon {s : State} {g : Group} {n : Nat} (hc : Canon s) : Canon (dropLagging s g n).1 :=
  foldl_canon (fun _ _ hc1 => dropMember_canon hc1) hc

theorem sendTiles_canon {s : State} {g : Group} {n : Nat} {last : Bool} {data : List Byte} (hc : Canon s) :
    Canon (sendTiles s g n last data) :=
  pumpCtx_canon hc

theorem deliverMember_canon {s : State} {x : Stream} {g : Group} (hc : Canon s) : Answers Canon Canon (deliverMember s x g) := by
  unfold deliverMember
  extract_lets n from' c leads
  have hg : Canon (if leads then dropLagging s g n else (s, g)).1 := by
    split
    · exact dropLagging_canon hc
    · exact hc
  clear_value n from' c leads
  refine the_canon.bind fun _ _ => can_canon.bind fun _ _ => ?_
  refine (needF_canon hc).bind fun _ _ => (readReady_canon hc).bind fun _ _ => ?_
  split
  · exact missPage_canon hc
  · refine (partsClean_canon hc).bind fun _ _ => (slubsOk_canon hc).bind fun _ _ => ?_
    generalize (if leads then dropLagging s g n else (s, g)) = z at hg ⊢
    obtain ⟨s1, g1⟩ := z
    refine (account_canon (accessPages_canon (setGroup_canon hg))).bind fun _ hc1 => ?_
    exact ite_both (P := Canon) (sendTiles_canon (poolSettle_canon (setStream_canon (slotWrite_canon hc1))))
      (poolSettle_canon (setStream_canon (slotWrite_canon hc1)))

theorem requestTile_canon {s : State} {x : Stream} (hc : Canon s) : Answers Canon Canon (requestTile s x) := by
  unfold requestTile
  refine the_canon.bind fun home _ => ?_
  extract_lets n c s1
  have h1 : Canon s1 := ite_both hc (dropMember_canon hc)
  clear_value s1
  generalize freeTagOf s c.val = free
  refine can_canon.bind fun _ _ => can_canon.bind fun _ _ => can_canon.bind fun _ _ => the_canon.bind fun tag _ => ?_
  extract_lets m o
  clear_value m o
  refine (launchMsg_canon (by exact h1)).bind ?_
  rintro ⟨s2, ks⟩ h2
  exact ite_both (P := Canon) h2 (unsent_canon h2)

theorem execMcastTileDeliver_canon {t : Tid} {sid : BitVec 5} {s : State} (hc : Canon s) :
    NextCanon (execMcastTileDeliver t sid s) := by
  unfold execMcastTileDeliver
  refine runEvent_canon (movable_canon.bind fun _ _ => can_canon.bind fun _ _ => ?_)
  split
  · exact ite_both (deliverMember_canon hc) (requestTile_canon hc)
  · exact requestTile_canon hc

theorem takeTileMsg_canon {s : State} {x : Stream} {m : Msg} (hc : Canon s) : Canon (takeTileMsg s x m) := by
  unfold takeTileMsg
  dsimp only
  split
  · exact ite_both (progFault_canon hc) (takePart_canon hc)
  · exact setStream_canon hc
  · exact setStream_canon hc
  · exact dropMember_canon (setStream_canon hc)

/-! ### The canonical form: the treadle -/

theorem closeTurn_canon {s : State} {t : Tid} {th : Thread} {u : TurnSt} (hc : Canon s) : Canon (closeTurn s t th u) :=
  ite_both (dueUp_canon (setT_canon hc)) (setT_canon hc)

theorem overrunTurn_canon {s : State} {t : Tid} {th : Thread} {u : TurnSt} (hc : Canon s) : Canon (overrunTurn s t th u) :=
  ite_both (overrunFault_canon (ite_both hc (bumpC_canon hc)))
    (setT_canon (setTstat_canon (bumpC_canon (ite_both hc (bumpC_canon hc)))))

theorem testTurn_canon {s : State} {now : Nat} {live : Bool} {k : Nat} (hc : Canon s) : Canon (testTurn s now live k) := by
  unfold testTurn
  dsimp only
  split
  · exact hc
  · split
    · exact hc
    · exact ite_both (ite_both (closeTurn_canon hc) (overrunTurn_canon hc)) hc

theorem testTurns_canon {s : State} {now : Nat} {live : Bool} (hc : Canon s) : Canon (testTurns s now live) :=
  foldl_canon (fun _ _ hc1 => testTurn_canon hc1) hc

theorem startTurn_canon {s : State} {t : Tid} {th : Thread} {n now : Nat} (hc : Canon s) : Canon (startTurn s t th n now) :=
  ite_both (setT_canon hc) (ite_both (setT_canon (newTurn_canon hc)) (setTstat_canon (setT_canon (newTurn_canon hc))))

theorem startThreads_canon {s : State} {now : Nat} {live : Bool} (hc : Canon s) : Canon (startThreads s now live) := by
  unfold startThreads
  refine foldl_canon (fun _ _ hc1 => ?_) hc
  dsimp only
  split
  · exact hc1
  · refine ite_both ?_ hc1
    split
    · exact startTurn_canon hc1
    · exact setT_canon hc1

theorem execTurnOverrun_canon {t : Tid} {s : State} (hc : Canon s) : NextCanon (execTurnOverrun t s) :=
  runPlain_canon (can_canon.bind fun _ _ => the_canon.bind fun _ _ => the_canon.bind fun _ _ => can_canon.bind fun _ _ =>
    can_canon.bind fun _ _ => overrunTurn_canon hc)

theorem saveSide_canon {s : State} {p l : Nat} {m : Sram} (hc : Canon s) : Canon (saveSide s p l m) := by
  unfold saveSide
  split
  · exact ite_both hc (saveImage_canon hc)
  · exact hc

theorem putSram_canon {s : State} {p l : Nat} {m : Sram} (hc : Canon s) (hm : SramOk m) : Canon (putSram s p l m) := by
  unfold putSram
  dsimp only
  split
  · exact hc
  · exact ite_both (setSpindle_canon hc hm) (saveSide_canon hc)

theorem setPmap_canon {s : State} {k : Nat} {l : List Nat} (hc : Canon s) : Canon (setPmap s k l) := hc

theorem sramOf_ok {s : State} {p l : Nat} (hc : Canon s) : SramOk (sramOf s p l) := by
  unfold sramOf
  dsimp only
  split
  · exact ⟨rfl, rfl⟩
  · split
    · exact ite_both (imageSram_ok hc) (spindleSram_ok hc)
    · exact ite_both ⟨rfl, rfl⟩ (spindleSram_ok hc)

theorem remapList_canon {s0 s : State} {p : Nat} (h0 : Canon s0) (hc : Canon s) : Canon (remapList s0 s p) := by
  refine ite_both (P := Canon) hc (foldl_mem_canon (fun s x hx h => putSram_canon h ?_) (setPmap_canon hc))
  obtain ⟨i, -, hi⟩ := List.mem_map.1 (List.fst_mem_of_mem_zipIdx hx)
  exact hi ▸ sramOf_ok h0

theorem remapLease_canon {s0 s : State} {p : Nat} (hc : Canon s0) (hc1 : Canon s) : Canon (remapLease s0 s p) := by
  unfold remapLease
  refine ite_both hc1 ?_
  extract_lets st
  have hc2 : Canon st := foldl_canon (fun _ _ hc2 => setSpindle_canon hc2 (spindleSram_ok hc)) hc1
  clear_value st
  exact setPmap_canon hc2

theorem remapOne_canon {s0 s : State} {p : Nat} (hc : Canon s0) (hc1 : Canon s) : Canon (remapOne s0 s p) :=
  remapList_canon hc (remapLease_canon hc hc1)

theorem remapAll_canon {s0 s : State} (hc : Canon s0) (hc1 : Canon s) : Canon (remapAll s0 s) :=
  foldl_canon (fun _ _ hc2 => remapOne_canon hc hc2) hc1

theorem switchOne_canon {s : State} {p i low : Nat} (hc : Canon s) : Canon (switchOne s p i low) := by
  unfold switchOne
  extract_lets run idle first hot m s1
  clear_value run idle first hot
  split
  · have h1 : Canon (setSpindle s1 i m) := setSpindle_canon (saveSide_canon hc) (sramOf_ok hc)
    exact h1
  · exact hc

theorem switchAll_canon {s : State} (hc : Canon s) : Canon (switchAll s) :=
  foldl_canon (fun _ _ hc1 => foldl_canon (fun _ _ hc2 => ite_both (switchOne_canon hc2) hc2) hc1) hc

theorem countStalls_canon {s : State} (hc : Canon s) : Canon (countStalls s) := foldl_canon (fun _ _ hc1 => bumpC_canon hc1) hc

theorem tickCounts_canon {s : State} (hc : Canon s) : Canon (tickCounts s) :=
  foldl_canon (fun _ _ hc1 => bumpC_canon hc1) (foldl_canon (fun _ _ hc1 => bumpC_canon hc1) hc)

theorem moveTurns_canon {s : State} {c : Nat} {g : Nat → Nat} (hc : Canon s) : Canon (moveTurns s c g) := by
  unfold moveTurns
  refine foldl_canon (fun _ _ hc1 => ?_) hc
  dsimp only
  split
  · exact setT_canon hc1
  · exact hc1

theorem beginSaves_canon {s : State} (hc : Canon s) : Canon (beginSaves s) :=
  foldl_canon (fun _ _ hc1 => foldl_canon (fun _ _ hc2 => setC_canon (moveTurns_canon hc2)) hc1) hc

theorem tickOnce_canon {m : Monitor} {s : State} (hc : Canon s) : Canon (tickOnce m s) := by
  unfold tickOnce
  refine ite_both hc (ite_both (clockTick_canon (setF_canon hc)) ?_)
  extract_lets _ st
  have hc1 : Canon st := testTurns_canon (tickCounts_canon (clockTick_canon (setF_canon hc)))
  clear_value st
  exact beginSaves_canon (startThreads_canon (postAll_canon hc1))

theorem tickN_canon {m : Monitor} {n : Nat} {s : State} (hc : Canon s) : Canon (tickN m n s) := by
  induction n generalizing s with
  | zero => exact hc
  | succ n ih => exact ih (tickOnce_canon hc)

/-- What is listed under one key after another leaves the keys rising. -/
theorem tabRising_foldl_tabSet {α : Type} {xs t : Tab α} (h : tabRising t = true) :
    tabRising (xs.foldl (fun t x => tabSet t x.1 x.2) t) = true := by
  induction xs generalizing t with
  | nil => exact h
  | cons x xs ih => exact ih (tabRising_tabPut _ _ h)

theorem adoptRegs_canon {s : State} (hc : Canon s) : Canon (adoptRegs s) :=
  foldl_canon (fun _ _ h => reelApply_canon h) (canon_iff.2 { canon_iff.1 hc with
    act := tabRising_foldl_tabSet (tabRising_filter _ (canon_iff.1 hc).regs) })

theorem adoptSync_canon {s0 s : State} (hc1 : Canon s) : Canon (adoptSync s0 s) := by
  unfold adoptSync
  extract_lets old new cleared s1
  have h1 : Canon s1 := by
    dsimp -zeta only [s1]
    split
    · exact hc1
    · have h : Canon cleared := setF_canon hc1
      exact h
  clear_value old new s1
  split
  · have h : Canon (setF (setR s1 .trdIndex 0) .trdTick 17 0 0) := setF_canon (setR_canon h1)
    exact h
  · exact h1

theorem markThrottle_canon {s : State} (hc : Canon s) : Canon (markThrottle s) := setDetRunning_canon hc

theorem stopFull_canon {s : State} (hc : Canon s) : Canon (stopFull s) :=
  foldl_canon (fun _ _ hc1 => ite_both (setRing_canon hc1) hc1) hc

theorem fwEdge_canon {s : State} {k : Word} (hc : Canon s) : Canon (fwEdge s k) := by
  unfold fwEdge
  split
  · exact ite_both (fwDone_canon hc) (ite_both (fwBegin_canon hc) hc)
  · exact hc

theorem edgeApply_canon {s : State} (hc : Canon s) : Canon (edgeApply s).1 := by
  unfold edgeApply
  exact remapAll_canon hc (adoptSync_canon (adoptRegs_canon (stgEdge_canon hc)))

theorem edgeOnce_canon {m : Monitor} {s : State} (hc : Canon s) : Canon (edgeOnce m s) := by
  unfold edgeOnce
  extract_lets k n s0 s1 s2 s3
  have h0 : Canon s0 := setF_canon (setR_canon (by exact hc))
  have h1 : Canon s1 := tickCounts_canon (clockTick_canon (countStalls_canon h0))
  have h3 : Canon s3 := releaseBells_canon (fwEdge_canon (testTurns_canon (testTurns_canon h1)))
  clear_value k s0 s3
  refine ite_both hc (ite_both (clockTick_canon h0) ?_)
  split
  rename_i s3' es he
  have h4 : Canon (releaseBells s3') := releaseBells_canon (canon_of_fst_eq (edgeApply_canon h3) he)
  extract_lets s4
  split
  rename_i s5 gs hf
  have h5 : Canon s5 := canon_of_fst_eq (flipAll_canon (plyCount_canon h4)) hf
  extract_lets s6 s7 s8 s9
  have h6 : Canon s6 := postAll_canon (stopFull_canon h5)
  have h7 : Canon s7 := plyShip_canon (foldl_canon (fun _ _ h => ite_both (reelEdge_canon h) h) h6)
  have h9 : Canon s9 := startThreads_canon (startThreads_canon (markThrottle_canon (switchAll_canon h7)))
  clear_value s9
  exact pumpAll_canon (beginSaves_canon (by exact h9))

theorem execStrokeEdge_canon {m : Monitor} {s : State} (hc : Canon s) : NextCanon (execStrokeEdge m s) :=
  runPlain_canon (can_canon.bind fun _ _ => edgeOnce_canon (tickN_canon hc))

theorem execFineTick_canon {m : Monitor} {s : State} (hc : Canon s) : NextCanon (execFineTick m s) :=
  runPlain_canon (can_canon.bind fun _ _ => ite_both (tickOnce_canon hc) (edgeOnce_canon hc))

theorem spreadMarker_canon {s : State} {m : Marker} {but : Nat} (hc : Canon s) : Canon (spreadMarker s m but) :=
  foldl_canon (fun _ _ hc1 => toLink_canon hc1) hc

theorem execTreadleMarkerSend_canon {s : State} (hc : Canon s) : NextCanon (execTreadleMarkerSend s) :=
  runPlain_canon (can_canon.bind fun _ _ => can_canon.bind fun _ _ => spreadMarker_canon hc)

theorem firstLock_canon {s : State} {m : Marker} (hc : Canon s) : Canon (firstLock s m) := by
  unfold firstLock
  extract_lets n left pos s1
  have h1 : Canon s1 := setF_canon (setR_canon hc)
  have locked {z : State} {p : Int} (h : Canon z) : Canon { z with phase := p, lockedOnce := true } :=
    h.same rfl rfl rfl rfl rfl rfl
  exact locked (setF_canon h1)

theorem execTrdMarkerReceive_canon {port : PortN} {m : Marker} {s : State} (hc : Canon s) :
    NextCanon (execTrdMarkerReceive port m s) := by
  unfold execTrdMarkerReceive
  refine runPlain_canon ?_
  refine can_canon.bind fun _ _ => ite_both hc (ite_both (eventG_canon (setF_canon hc)) ?_)
  refine ite_both (firstLock_canon (spreadMarker_canon hc)) (ite_both ?_ (spreadMarker_canon hc))
  extract_lets st
  have hc1 : Canon st := ite_both (setF_canon (spreadMarker_canon hc)) (spreadMarker_canon hc)
  clear_value st
  exact hc1

theorem execTrdParentTimeout_canon {s : State} (hc : Canon s) : NextCanon (execTrdParentTimeout s) :=
  runPlain_canon (can_canon.bind fun _ _ => can_canon.bind fun _ _ =>
    ite_both (eventG_canon hc) (can_canon.bind fun _ _ => eventG_canon (setF_canon hc)))

theorem execTrdSyncInEdge_canon {s : State} (hc : Canon s) : NextCanon (execTrdSyncInEdge s) :=
  runPlain_canon (can_canon.bind fun _ _ => ite_both (setAct_canon (setF_canon hc)) hc)

theorem execHbmTempRead_canon {stack : Fin 12} {celsius : BitVec 8} {s : State} (hc : Canon s) :
    NextCanon (execHbmTempRead stack celsius s) := by
  unfold execHbmTempRead
  refine runPlain_canon (can_canon.bind fun _ _ => ?_)
  extract_lets r cur k s1 s2 s3
  have h1 : Canon s1 := setF_canon (setF_canon hc)
  have h2 : Canon s2 := ite_both (setF_canon h1) h1
  have h3 : Canon s3 := ite_both h2 (setDetRunning_canon (by exact h2))
  clear_value cur k s3
  exact ite_both (P := Canon) (eventG_canon (setF_canon h3)) (ite_both (pumpAll_canon h3) h3)

/-! ### The canonical form: delivery -/

theorem deliver_canon {s : State} {p : Nat} {r : ReelRec} (hc : Canon s) : Answers Canon Canon (deliver s p r) := by
  unfold deliver
  split
  · exact can_canon.bind fun _ _ => decodeRec_canon (takeRec_canon hc)
  · exact reelWant_canon hc
  · exact reelWant_canon hc
  · exact reelWant_canon hc
  · exact (hostPages_canon hc).bind fun _ hc1 => wr_canon hc1
  · exact hc

theorem markLate_canon {s : State} {p : Nat} (hc : Canon s) : Canon (markLate s p) := setDetRunning_canon hc

theorem execReelDeliver_canon {p : PartN} {s : State} (hc : Canon s) : NextCanon (execReelDeliver p s) :=
  runPlain_canon (can_canon.bind fun _ _ =>
    ite_both (can_canon.bind fun _ _ => releaseBells_canon (reelDone_canon hc))
    (can_canon.bind fun _ _ => (deliver_canon (setR_canon (ite_both (markLate_canon hc) hc))).bind fun _ hc1 =>
    releaseBells_canon (ite_both (reelEnd_canon hc1) hc1)))

theorem execReelMark_canon {t : Tid} {f : Fields} {s : State} (hc : Canon s) : NextCanon (execReelMark t f s) :=
  runThread_canon hc (fun _ _ hc1 => (dec_canon hc1).bind fun _ _ => src_canon.bind fun _ _ =>
    releaseBells_canon (reelMark_canon (stepOn_canon (notReplayable_canon hc1))))

/-! ### The canonical form: the swift engine -/

theorem swiftRoom_canon {s : State} {t : Tid} : Answers Canon (fun _ => True) (swiftRoom s t) := can_canon

theorem shape_canon {s : State} {h : Handle} {b : Bool} (hc : Canon s) : Answers Canon (fun _ => True) (shape s h b) :=
  needF_canon hc

theorem issueSwift_canon {s : State} {t : Tid} {th : Thread} {o : EngOp} {hs : List Handle} {out : Handle} (hc : Canon s) :
    Answers Canon Canon (issueSwift s t th o hs out) :=
  (mayWrite_canon hc).bind fun _ _ => issueOp_canon (noteHandleWrite_canon hc)

theorem storeUnits_canon {s : State} {o : EngOp} {us : List (Handle × List (List Nat × Nat × Cnt))} (hc : Canon s) :
    Answers Canon Canon (storeUnits s o us) :=
  (account_canon hc).bind fun _ hc1 => (foldlM_canon (fun _ _ hc2 => reachView_canon hc2) hc1).bind fun _ hc2 =>
    foldl_canon (fun _ _ hc3 => putElemsV_canon hc3) hc2

theorem storeUnit_canon {s : State} {o : EngOp} {h : Handle} {es : List (List Nat × Nat × Cnt)} (hc : Canon s) :
    Answers Canon Canon (storeUnit s o h es) :=
  storeUnits_canon hc

theorem nextUnit_canon {s : State} {o : EngOp} {total : Nat} (hc : Canon s) : Canon (nextUnit s o total) :=
  ite_both (setOp_canon hc) (finishOp_canon hc)

theorem execSwConv_canon {t : Tid} {f : Fields} {s : State} (hc : Canon s) : NextCanon (execSwConv t f s) := by
  unfold execSwConv
  refine runThread_canon hc (fun _ _ hc1 => ?_)
  refine (dec_canon hc1).bind fun _ _ => ?_
  refine (dec_canon hc1).bind fun _ _ => swiftRoom_canon.bind fun _ _ => ?_
  refine srcG_canon.bind fun _ _ => srcG_canon.bind fun _ _ => (getH_canon hc1).bind fun _ _ => ?_
  refine (getH_canon hc1).bind fun _ _ => (getH_canon hc1).bind fun _ _ => ?_
  extract_lets _ _ jp
  have hjp : ∀ a, Answers Canon Canon (jp a) := by
    rintro _
    exact (needF_canon hc1).bind fun _ _ => (shape_canon hc1).bind fun _ _ => (shape_canon hc1).bind fun _ _ =>
      (shape_canon hc1).bind fun _ _ => (shape_canon hc1).bind fun _ _ => (shape_canon hc1).bind fun _ _ =>
      (forM_canon (fun _ => shape_canon hc1)).bind fun _ _ => issueSwift_canon hc1
  clear_value jp
  exact ite_both ((getH_canon hc1).bind fun _ _ => hjp _) (hjp _)

theorem runConv_canon {s : State} {o : EngOp} (hc : Canon s) : Answers Canon Canon (runConv s o) := by
  unfold runConv
  refine can_canon.bind fun _ _ => (reachView_canon hc).bind fun _ hc1 => ?_
  extract_lets _ _ _ _ _ _ _ _ jp
  have hjp : ∀ a, Canon a → Answers Canon Canon (jp a) := by
    rintro _ hc2
    exact ite_both ((reachView_canon hc2).bind fun _ hc3 => (storeUnit_canon hc3).bind fun _ hc4 => nextUnit_canon hc4)
      ((reachView_canon hc2).bind fun _ hc3 => (storeUnit_canon hc3).bind fun _ hc4 => nextUnit_canon hc4)
  clear_value jp
  exact ite_both ((reachView_canon hc1).bind fun _ hc2 => hjp _ hc2) (hjp _ hc1)

theorem execSwPool_canon {t : Tid} {f : Fields} {s : State} (hc : Canon s) : NextCanon (execSwPool t f s) :=
  runThread_canon hc (fun _ _ hc1 => (dec_canon hc1).bind fun _ _ => swiftRoom_canon.bind fun _ _ =>
    src_canon.bind fun _ _ => (getH_canon hc1).bind fun _ _ => (getH_canon hc1).bind fun _ _ => (needF_canon hc1).bind fun _ _ =>
    (shape_canon hc1).bind fun _ _ => (needF_canon hc1).bind fun _ _ => (shape_canon hc1).bind fun _ _ => issueSwift_canon hc1)

theorem runPool_canon {s : State} {o : EngOp} (hc : Canon s) : Answers Canon Canon (runPool s o) :=
  can_canon.bind fun _ _ => (reachView_canon hc).bind fun _ hc1 => (storeUnit_canon hc1).bind fun _ hc2 => nextUnit_canon hc2

theorem execSwPatch_canon {t : Tid} {f : Fields} {s : State} (hc : Canon s) : NextCanon (execSwPatch t f s) :=
  runThread_canon hc (fun _ _ hc1 => (dec_canon hc1).bind fun _ _ => swiftRoom_canon.bind fun _ _ =>
    (getH_canon hc1).bind fun _ _ => (getH_canon hc1).bind fun _ _ => (needF_canon hc1).bind fun _ _ =>
    (shape_canon hc1).bind fun _ _ => (shape_canon hc1).bind fun _ _ => issueSwift_canon hc1)

theorem runPatch_canon {s : State} {o : EngOp} (hc : Canon s) : Answers Canon Canon (runPatch s o) :=
  can_canon.bind fun _ _ => (reachView_canon hc).bind fun _ hc1 => (storeUnit_canon hc1).bind fun _ hc2 => finishOp_canon hc2

theorem execSwPix_canon {t : Tid} {f : Fields} {s : State} (hc : Canon s) : NextCanon (execSwPix t f s) :=
  runThread_canon hc (fun _ _ hc1 => (dec_canon hc1).bind fun _ _ => swiftRoom_canon.bind fun _ _ =>
    src_canon.bind fun _ _ => (getH_canon hc1).bind fun _ _ => (getH_canon hc1).bind fun _ _ => (getH_canon hc1).bind fun _ _ =>
    (getH_canon hc1).bind fun _ _ => (needF_canon hc1).bind fun _ _ => (shape_canon hc1).bind fun _ _ =>
    (shape_canon hc1).bind fun _ _ => (shape_canon hc1).bind fun _ _ => (shape_canon hc1).bind fun _ _ =>
    (needF_canon hc1).bind fun _ _ => (readA_canon hc1).bind fun ⟨_, _⟩ hc2 =>
    ite_both ((mayWrite_canon hc2).bind fun _ _ => (mayWrite_canon hc2).bind fun _ _ => (mayWrite_canon hc2).bind fun _ _ =>
    issueOp_canon (foldl_canon (fun _ _ hc3 => noteHandleWrite_canon hc3) hc2)) (issueSwift_canon hc2))

theorem runPix_canon {s : State} {o : EngOp} (hc : Canon s) : Answers Canon Canon (runPix s o) :=
  can_canon.bind fun _ _ =>
    ite_both ((reachView_canon hc).bind fun _ hc1 => (storeUnits_canon hc1).bind fun _ hc2 => finishOp_canon hc2)
    ((reachView_canon hc).bind fun _ hc1 => (reachView_canon hc1).bind fun _ hc2 => (reachView_canon hc2).bind fun _ hc3 =>
    (storeUnit_canon hc3).bind fun _ hc4 => finishOp_canon hc4)

theorem execSwBox_canon {t : Tid} {f : Fields} {s : State} (hc : Canon s) : NextCanon (execSwBox t f s) := by
  unfold execSwBox
  refine runThread_canon hc fun _ _ hc1 => ?_
  refine (dec_canon hc1).bind fun _ _ => swiftRoom_canon.bind fun _ _ => (forIn_canon fun _ => ?_).bind fun _ _ => ?_
  · exact srcG_canon.bind fun _ _ => trivial
  · exact (getH_canon hc1).bind fun _ _ => (getH_canon hc1).bind fun _ _ => (getH_canon hc1).bind fun _ _ =>
      (needF_canon hc1).bind fun _ _ => (shape_canon hc1).bind fun _ _ => (shape_canon hc1).bind fun _ _ =>
      (shape_canon hc1).bind fun _ _ => issueSwift_canon hc1

theorem runBox_canon {s : State} {o : EngOp} (hc : Canon s) : Answers Canon Canon (runBox s o) :=
  can_canon.bind fun _ _ => (reachView_canon hc).bind fun _ hc1 => (reachView_canon hc1).bind fun _ hc2 =>
    (storeUnit_canon hc2).bind fun _ hc3 => finishOp_canon hc3

theorem execSwNms_canon {t : Tid} {f : Fields} {s : State} (hc : Canon s) : NextCanon (execSwNms t f s) := by
  unfold execSwNms
  refine runThread_canon hc (fun _ _ hc1 => ?_)
  refine (dec_canon hc1).bind fun _ _ => ?_
  refine swiftRoom_canon.bind fun _ _ => srcG_canon.bind fun _ _ => ?_
  refine srcG_canon.bind fun _ _ => srcG_canon.bind fun _ _ => (getH_canon hc1).bind fun _ _ => ?_
  refine (getH_canon hc1).bind fun _ _ => (getH_canon hc1).bind fun _ _ => ?_
  extract_lets _ jp
  have hjp : ∀ a, Answers Canon Canon (jp a) := by
    rintro _
    exact (needF_canon hc1).bind fun _ _ => (needF_canon hc1).bind fun _ _ => (shape_canon hc1).bind fun _ _ =>
      (shape_canon hc1).bind fun _ _ => (forM_canon (fun _ => shape_canon hc1)).bind fun _ _ => (shape_canon hc1).bind fun _ _ =>
      issueSwift_canon hc1
  clear_value jp
  exact ite_both ((getH_canon hc1).bind fun _ _ => hjp _) (hjp _)

theorem runNms_canon {s : State} {o : EngOp} (hc : Canon s) : Answers Canon Canon (runNms s o) := by
  unfold runNms
  refine can_canon.bind fun _ _ => ?_
  refine (reachView_canon hc).bind fun _ hc1 => (reachView_canon hc1).bind fun _ hc2 => ?_
  extract_lets _ _ jp
  have hjp : ∀ a, Canon a → Answers Canon Canon (jp a) := by
    rintro _ hc3
    exact (account_canon hc3).bind fun _ hc4 => (reachView_canon hc4).bind fun _ hc5 => finishOp_canon (writeV_canon hc5)
  clear_value jp
  exact ite_both ((reachView_canon hc2).bind fun _ hc3 => hjp _ hc3) (hjp _ hc2)

/-! ### The canonical form: completion of engine instructions -/

theorem runOp_canon {s : State} {o : EngOp} (hc : Canon s) : Answers Canon Canon (runOp s o) := by
  unfold runOp
  split
  · exact runMma_canon hc
  · exact runQnt_canon hc
  · exact runElem_canon hc
  · exact runElem_canon hc
  · exact runElem_canon hc
  · exact runElem_canon hc
  · exact runElem_canon hc
  · exact runVred_canon hc
  · exact runUnary_canon hc
  · exact runUnary_canon hc
  · exact runVepi_canon hc
  · exact runVrot_canon hc
  · exact runVstat_canon hc
  · exact runVnorm_canon hc
  · exact runScore_canon hc
  · exact runAcc_canon hc
  · exact runRecomp_canon hc
  · exact runEnd_canon hc
  · exact runBuild_canon hc
  · exact runSel_canon hc
  · exact runConv_canon hc
  · exact runPool_canon hc
  · exact runBox_canon hc
  · exact runNms_canon hc
  · exact runPatch_canon hc
  · exact runPix_canon hc
  · exact runVrng_canon hc

theorem handAll_canon {n : Nat} {s : State} {id : Nat} (hc : Canon s) : Answers Canon Canon (handAll n s id) := by
  induction n generalizing s id with
  | zero => exact hc
  | succ n ih =>
    unfold handAll
    split
    · exact hc
    · exact ite_both hc (the_canon.bind fun _ _ => can_canon.bind fun _ _ => (runOp_canon hc).bind fun _ h1 => (ih h1).bind fun _ h2 => ih h2)

theorem fillerMma_canon {s : State} {o : EngOp} (hc : Canon s) : Answers Canon Canon (fillerMma s o) :=
  can_canon.bind fun _ _ => the_canon.bind fun _ _ => (stepPasses_canon hc).bind fun ⟨_, _⟩ hc1 =>
    ite_both ((handAll_canon hc1).bind fun _ hc2 => freeStep_canon hc2) ((readAll_canon hc1).bind fun _ hc2 => freeStep_canon hc2)

theorem sramClean_canon {s : State} {o : EngOp} (hc : Canon s) : Answers Canon (fun _ => True) (sramClean s o) := by
  unfold sramClean
  split
  · exact hc
  · exact trivial

theorem runUnit_canon {s : State} {o : EngOp} (hc : Canon s) : Answers Canon Canon (runUnit s o) :=
  ite_both (can_canon.bind fun _ _ => ite_both (fillerMma_canon hc) (runOp_canon hc)) (runOp_canon hc)

theorem execEngineComplete_canon {t : Tid} {id : Nat} {s : State} (hc : Canon s) : NextCanon (execEngineComplete t id s) :=
  runEvent_canon (can_canon.bind fun _ _ => the_canon.bind fun _ _ => (sramClean_canon hc).bind fun _ _ => runUnit_canon hc)

/-! ### The canonical form: hardware errors -/

theorem execCorrectedError_canon {u : UnitId} {s : State} (hc : Canon s) : NextCanon (execCorrectedError u s) :=
  runPlain_canon (can_canon.bind fun _ _ => can_canon.bind fun _ _ => can_canon.bind fun _ _ =>
    ite_both (retireUnit_canon (countError_canon hc)) (countError_canon hc))

theorem execRetireWindowClose_canon {u : UnitId} {s : State} (hc : Canon s) : NextCanon (execRetireWindowClose u s) :=
  runPlain_canon (can_canon.bind fun _ _ => the_canon.bind fun _ _ => can_canon.bind fun _ _ => hc)

theorem markWord_canon {s : State} {a : Nat} {l : Loc} (hc : Canon s) : Canon (markWord s a l) :=
  retireUnit_canon (eventG_canon hc)

theorem resetQuarterPart_canon {s : State} {q : Nat} (hc : Canon s) : Canon (resetQuarterPart s q) := by
  unfold resetQuarterPart
  split
  · exact ite_both hc (beginReset_canon hc)
  · exact hc

theorem execUncorrectableError_canon {e : UErr} {s : State} (hc : Canon s) : NextCanon (execUncorrectableError e s) := by
  unfold execUncorrectableError
  refine runPlain_canon (can_canon.bind fun _ _ => ?_)
  split
  · exact retireUnit_canon (resetQuarterPart_canon hc)
  · exact retireUnit_canon (resetQuarterPart_canon hc)
  · exact hc
  · exact hc
  · exact retireUnit_canon (tearJob_canon hc)
  · exact the_canon.bind fun _ _ => can_canon.bind fun _ _ => markWord_canon hc
  · exact deviceFail_canon hc
  · exact toHost_canon hc

theorem execWatchdogExpiry_canon {s : State} (hc : Canon s) : NextCanon (execWatchdogExpiry s) := by
  unfold execWatchdogExpiry
  refine runPlain_canon (can_canon.bind fun _ _ => ?_)
  extract_lets again s1
  have h1 : Canon s1 := hc
  clear_value again s1
  exact ite_both (P := Canon) (deviceFail_canon h1) h1

/-! ### The canonical form: the halt -/

theorem execHalt_canon {t : Tid} {f : Fields} {s : State} (hc : Canon s) : NextCanon (execHalt t f s) :=
  runThread_canon hc (fun _ _ hc1 => (dec_canon hc1).bind fun _ _ => (noProducer_canon hc1).bind fun _ _ =>
    (needF_canon hc1).bind fun _ _ => settle_canon (setT_canon hc1))

/-! ### The canonical form: messages that come in -/

theorem headerSeen_canon {s : State} {p : Nat} {m : Msg} (hc : Canon s) : Canon (headerSeen s p m) :=
  releaseBells_canon (reelHeader_canon hc)

theorem arrives_canon {s : State} {m : Msg} {op : MsgOp} {p : Option Nat} (hc : Canon s) :
    Answers Canon (fun r => Canon r.1) (arrives s m op p) := by
  unfold arrives
  refine can_canon.bind fun _ _ => can_canon.bind fun _ _ => (takeMsg_canon hc).bind ?_
  rintro ⟨s1, _⟩ hc1
  have seen : Canon (match p with | some p => headerSeen s1 p m | none => s1) := by
    split
    · exact headerSeen_canon hc1
    · exact hc1
  exact seen

theorem serveRequest_canon {s : State} {m : Msg} {op : MsgOp} (hc : Canon s) : NextCanon (serveRequest s m op) :=
  runPlain_canon ((arrives_canon hc).bind fun ⟨_, _⟩ hc1 => (atTarget_canon hc1).bind fun ⟨_, _⟩ hc2 => sendResponse_canon hc2)

theorem execPut_canon {m : Msg} {s : State} (hc : Canon s) : NextCanon (execPut m s) := serveRequest_canon hc

theorem execGetRequest_canon {m : Msg} {s : State} (hc : Canon s) : NextCanon (execGetRequest m s) := serveRequest_canon hc

theorem execAtomicAdd_canon {m : Msg} {s : State} (hc : Canon s) : NextCanon (execAtomicAdd m s) := serveRequest_canon hc

theorem execLinkSignal_canon {m : Msg} {s : State} (hc : Canon s) : NextCanon (execLinkSignal m s) := serveRequest_canon hc

theorem execMulticastPut_canon {m : Msg} {s : State} (hc : Canon s) : NextCanon (execMulticastPut m s) := by
  unfold execMulticastPut
  refine runPlain_canon (can_canon.bind fun _ _ => can_canon.bind fun _ _ => (holdMsg_canon hc).bind ?_)
  rintro ⟨_, _, _⟩ hc1
  refine ite_both ?_ ?_
  · refine closeHeld_canon ?_
    split
    · refine spread_canon ?_
      split
      · exact headerSeen_canon hc1
      · exact hc1
    · split
      · exact headerSeen_canon hc1
      · exact hc1
  · refine Answers.bind (Q := fun r => Canon r.1) ?_ ?_
    · refine atTarget_canon (closeHeld_canon ?_)
      split
      · refine spread_canon ?_
        split
        · exact headerSeen_canon hc1
        · exact hc1
      · split
        · exact headerSeen_canon hc1
        · exact hc1
    · rintro ⟨_, _⟩ hc2
      exact sendResponse_canon hc2

theorem takeResponse_canon {s : State} {m : Msg} {op : MsgOp} (hc : Canon s) : NextCanon (takeResponse s m op) :=
  runPlain_canon ((arrives_canon hc).bind fun ⟨_, _⟩ hc1 => (onResponse_canon hc1).bind fun _ hc2 => pumpCtx_canon hc2)

theorem execGetResponse_canon {m : Msg} {s : State} (hc : Canon s) : NextCanon (execGetResponse m s) := takeResponse_canon hc

theorem execAcknowledgement_canon {m : Msg} {s : State} (hc : Canon s) : NextCanon (execAcknowledgement m s) :=
  takeResponse_canon hc

theorem execRefusal_canon {m : Msg} {s : State} (hc : Canon s) : NextCanon (execRefusal m s) := takeResponse_canon hc

theorem execDraftTile_canon {m : Msg} {s : State} (hc : Canon s) : NextCanon (execDraftTile m s) := by
  unfold execDraftTile
  refine runPlain_canon ?_
  extract_lets _ st
  have hc1 : Canon st := by
    dsimp only [st]
    refine foldl_canon (fun _ _ hc1 => ?_) hc
    split
    · exact takeTileMsg_canon hc1
    · exact hc1
  clear_value st
  exact ite_both (can_canon.bind fun _ _ => hc1) ((arrives_canon hc1).bind fun ⟨_, _⟩ hc2 => sendResponse_canon hc2)

theorem execTileRequest_canon {m : Msg} {s : State} (hc : Canon s) : NextCanon (execTileRequest m s) := by
  unfold execTileRequest
  refine runPlain_canon ((arrives_canon hc).bind ?_)
  rintro ⟨_, _⟩ hc1
  dsimp only
  split
  · exact sendResponse_canon hc1
  · split
    · exact sendResponse_canon hc1
    · exact ite_both ((admitAll_canon hc1).bind fun _ hc2 =>
        ite_both (sendResponse_canon hc1) (sendResponse_canon (accessPages_canon hc2))) (sendResponse_canon hc1)

/-! ### The canonical form: pre-emption -/

theorem leaveGroups_canon {s : State} {c : Nat} (hc : Canon s) : Canon (leaveGroups s c) :=
  foldl_canon (fun _ _ hc1 => dropMember_canon hc1) hc

theorem execContextSuspend_canon {c : CtxN} {s : State} (hc : Canon s) : NextCanon (execContextSuspend c s) :=
  runPlain_canon (can_canon.bind fun _ _ => can_canon.bind fun _ _ =>
    foldl_canon (fun _ _ hc1 => leaveGroups_canon (setC_canon hc1)) hc)

theorem saveImages_canon {s : State} {c : Nat} (hc : Canon s) : Canon (saveImages s c) :=
  foldl_canon (fun _ _ hc1 => ite_both (saveImage_canon hc1) hc1) hc

theorem execSaveComplete_canon {c : CtxN} {s : State} (hc : Canon s) : NextCanon (execSaveComplete c s) := by
  unfold execSaveComplete
  refine runPlain_canon (can_canon.bind fun _ _ => can_canon.bind fun _ _ => ?_)
  extract_lets _ st
  have hc1 : Canon st := foldl_canon (fun _ _ hc1 => setC_canon hc1) (saveImages_canon hc)
  clear_value st
  exact serve_canon hc1

theorem restoreImages_canon {s : State} {c : Nat} (hc : Canon s) : Canon (restoreImages s c) := by
  unfold restoreImages
  refine foldl_canon (fun _ _ hc1 => ?_) hc
  dsimp only
  split
  · exact ite_both (setSpindle_canon hc1 (imageSram_ok hc1)) hc1
  · exact hc1

theorem resumeThreads_canon {s : State} {c : Nat} (hc : Canon s) : Canon (resumeThreads s c) := by
  unfold resumeThreads
  extract_lets _ _ _ st
  have hc1 : Canon st := moveTurns_canon (foldl_canon (fun _ _ hc1 => setT_canon hc1) hc)
  clear_value st
  exact setDet_canon (ite_both (setTstat_canon hc1) hc1)

theorem execRestoreComplete_canon {c : CtxN} {s : State} (hc : Canon s) : NextCanon (execRestoreComplete c s) := by
  unfold execRestoreComplete
  refine runPlain_canon (can_canon.bind fun _ _ => can_canon.bind fun _ _ => ?_)
  extract_lets _ st
  have hc1 : Canon st := foldl_canon (fun _ _ hc1 => resumeThreads_canon (setC_canon hc1)) (restoreImages_canon hc)
  clear_value st
  exact startFillers_canon (foldl_canon (fun _ _ hc2 => settle_canon hc2) hc1)

end Sys2Proof.Machine

namespace Sys2Proof.Machine

/-! ### The canonical form: resets, power, pins -/

theorem clearRing_canon {s : State} {k : Nat} (hc : Canon s) : Canon (clearRing s k) :=
  foldl_canon (fun _ _ h => setR_canon h) (canon_iff.2 { canon_iff.1 hc with
    rings := tabRising_tabPut _ _ (canon_iff.1 hc).rings })

theorem flrPartition_canon {s : State} {p : Nat} (hc : Canon s) : Canon (flrPartition s p) :=
  foldl_canon (fun _ _ hc1 => setR_canon (clearRing_canon hc1)) (foldl_canon (fun _ _ hc1 => teardown_canon hc1) hc)

theorem dropFunction_canon {s : State} {fn : Nat} (hc : Canon s) : Canon (dropFunction s fn) := hc

theorem flrVf_canon {s : State} {fn : Nat} (hc : Canon s) : Canon (flrVf s fn) := by
  unfold flrVf
  split
  · exact flrPartition_canon (dropFunction_canon hc)
  · exact dropFunction_canon hc

theorem flrPf0_canon {s : State} (hc : Canon s) : Canon (flrPf0 s) := by
  have phase {z : State} (h : Canon z) : Canon { z with evtPhase := true } := h
  exact phase (foldl_canon (fun _ _ h => setR_canon h) (clearRing_canon (foldl_canon (fun _ _ h => flrPartition_canon h) (dropFunction_canon hc))))

theorem execFunctionLevelReset_canon {fn : Func} {s : State} (hc : Canon s) : NextCanon (execFunctionLevelReset fn s) :=
  runPlain_canon (can_canon.bind fun _ _ => configRow_canon hc (ite_both (flrPf0_canon hc) (flrVf_canon hc)))

theorem execVfEnableClear_canon {s : State} (hc : Canon s) : NextCanon (execVfEnableClear s) :=
  runPlain_canon (can_canon.bind fun _ _ => configRow_canon hc (foldl_canon (fun _ _ hc1 => flrVf_canon hc1) hc))

theorem execVfEnableSet_canon {n : Fin 16} {s : State} (hc : Canon s) : NextCanon (execVfEnableSet n s) :=
  runPlain_canon (can_canon.bind fun _ _ => configRow_canon hc hc)

theorem execConventionalReset_canon {s : State} (hc : Canon s) : NextCanon (execConventionalReset s) :=
  runPlain_canon (can_canon.bind fun _ _ => flrPf0_canon hc)

theorem loadRmap_canon {old s : State} (hc1 : Canon s) : Canon (loadRmap old s) := by
  unfold loadRmap
  extract_lets _ _ st
  have hc2 : Canon st :=
    ite_both (foldl_canon (fun _ _ hc2 => setR_canon hc2) hc1) (saveRmap_canon (foldl_canon (fun _ _ hc2 => setR_canon hc2) hc1))
  clear_value st
  exact ite_both (eventG_canon hc2) hc2

theorem bootStatus_canon {s : State} (hc : Canon s) : Canon (bootStatus s) :=
  ite_both (statusRise_canon hc) (statusRise_canon (statusRise_canon hc))

theorem bootOrWait_canon {s : State} {coldest : Int} (hc : Canon s) : Canon (bootOrWait s coldest) :=
  ite_both hc (bootRom_canon hc)

/-- After reset every memory and every table is empty. -/
theorem canon_reset : Canon State.reset := rfl

theorem execColdReset_canon {coldest : Int} {gpio : BitVec 16} {s : State} :
    NextCanon (execColdReset coldest gpio s) :=
  bootOrWait_canon (loadRmap_canon (bootStatus_canon canon_reset))

theorem execBootTempRetry_canon {coldest : Int} {s : State} (hc : Canon s) : NextCanon (execBootTempRetry coldest s) :=
  runPlain_canon (can_canon.bind fun _ _ => bootOrWait_canon hc)

theorem execPowerDown_canon {s : State} (hc : Canon s) : NextCanon (execPowerDown s) :=
  runPlain_canon (can_canon.bind fun _ _ => statusFall_canon hc)

theorem execProchotAssert_canon {s : State} (hc : Canon s) : NextCanon (execProchotAssert s) :=
  runPlain_canon (can_canon.bind fun _ _ => statusRise_canon hc)

theorem execProchotRelease_canon {s : State} (hc : Canon s) : NextCanon (execProchotRelease s) :=
  runPlain_canon (can_canon.bind fun _ _ => statusFall_canon hc)

theorem execThermtrip_canon {s : State} (hc : Canon s) : NextCanon (execThermtrip s) :=
  runPlain_canon (can_canon.bind fun _ _ => trip_canon hc)

theorem setClock_canon {s : State} {k : RefClk} {on : Bool} (hc : Canon s) : Canon (setClock s k on) := hc

theorem execRefclkLoss_canon {k : RefClk} {s : State} (hc : Canon s) : NextCanon (execRefclkLoss k s) := by
  unfold execRefclkLoss
  refine runPlain_canon (can_canon.bind fun _ _ => ?_)
  extract_lets st
  have hc1 : Canon st := foldl_canon (fun _ _ hc1 => ite_both hc1 (setPort_canon hc1)) (setClock_canon hc)
  clear_value st
  exact ite_both (deviceFail_canon hc1) hc1

theorem linkBack_canon {s : State} (hc : Canon s) : Canon (linkBack s) := ite_both hc hc

theorem execRefclkReturn_canon {k : RefClk} {s : State} (hc : Canon s) : NextCanon (execRefclkReturn k s) :=
  runPlain_canon (can_canon.bind fun _ _ =>
    foldl_canon (fun _ _ hc1 => ite_both (trainPort_canon hc1) hc1) (linkBack_canon (setClock_canon hc)))

theorem execRailFault_canon {_r : Rail} {s : State} (hc : Canon s) : NextCanon (execRailFault _r s) :=
  runPlain_canon (can_canon.bind fun _ _ => statusRise_canon (deviceFail_canon hc))

theorem execAvsTimeout_canon {q : Fin 4} {s : State} (hc : Canon s) : NextCanon (execAvsTimeout q s) :=
  runPlain_canon (can_canon.bind fun _ _ => statusRise_canon hc)

theorem execAvsRequestComplete_canon {q : Fin 4} {s : State} (hc : Canon s) : NextCanon (execAvsRequestComplete q s) :=
  runPlain_canon (can_canon.bind fun _ _ => hc)

theorem smbSay_canon {s : State} {o : SmbOut} (hc : Canon s) : Canon (smbSay s o) := hc

theorem smbWrite_canon {s : State} {code : BitVec 8} {v : BitVec 16} {pec : Option Byte} (hc : Canon s) :
    Canon (smbWrite s code v pec) :=
  ite_both (ite_both (smbSay_canon hc) (ite_both (smbSay_canon hc) (smbSay_canon hc))) (smbSay_canon hc)

theorem smbRead_canon {s : State} {r : SmbRead} (hc : Canon s) : Canon (smbRead s r) := by
  unfold smbRead
  split
  · split
    · exact hc
    · exact hc
  · split
    · exact hc
    · exact hc

theorem execSmbPlimitWrite_canon {code : BitVec 8} {v : BitVec 16} {pec : Option Byte} {s : State} (hc : Canon s) :
    NextCanon (execSmbPlimitWrite code v pec s) :=
  smbWrite_canon hc

theorem execSmbAlertmaskWrite_canon {v : BitVec 16} {pec : Option Byte} {s : State} (hc : Canon s) :
    NextCanon (execSmbAlertmaskWrite v pec s) :=
  smbWrite_canon hc

theorem execSmbAlertResponse_canon {x : SmbRead} {s : State} (hc : Canon s) : NextCanon (execSmbAlertResponse x s) :=
  smbRead_canon hc

theorem execVauxLoss_canon {s : State} (hc : Canon s) : NextCanon (execVauxLoss s) := hc

theorem execPrtReset_canon {p : PartN} {s : State} (hc : Canon s) : NextCanon (execPrtReset p s) :=
  runPlain_canon (can_canon.bind fun _ _ => the_canon.bind fun ⟨_, _⟩ _ => event_canon (remapOne_canon hc hc))

/-! ### The canonical form: scalar instructions -/

theorem aluOperands_canon {s : State} {th : Thread} {f : Fields} {var : Nat} (hc : Canon s) :
    Answers Canon (fun _ => True) (aluOperands s th f var) :=
  (dec_canon hc).bind fun _ _ => src_canon.bind fun _ _ => ite_both trivial (src_canon.bind fun _ _ => trivial)

theorem aluOp_canon {t : Tid} {f : Fields} {s : State} {var : Nat} {g : Word → Word → Word} (hc : Canon s) :
    NextCanon (aluOp t f s var g) :=
  runThread_canon hc (fun _ _ hc1 => (aluOperands_canon hc1).bind fun ⟨_, _⟩ _ => stepOn_canon hc1)

theorem execAdd_canon {t : Tid} {f : Fields} {s : State} (hc : Canon s) : NextCanon (execAdd t f s) := aluOp_canon hc

theorem execSub_canon {t : Tid} {f : Fields} {s : State} (hc : Canon s) : NextCanon (execSub t f s) := aluOp_canon hc

theorem execMul_canon {t : Tid} {f : Fields} {s : State} (hc : Canon s) : NextCanon (execMul t f s) := aluOp_canon hc

theorem execDivu_canon {t : Tid} {f : Fields} {s : State} (hc : Canon s) : NextCanon (execDivu t f s) := aluOp_canon hc

theorem execRemu_canon {t : Tid} {f : Fields} {s : State} (hc : Canon s) : NextCanon (execRemu t f s) := aluOp_canon hc

theorem execAnd_canon {t : Tid} {f : Fields} {s : State} (hc : Canon s) : NextCanon (execAnd t f s) := aluOp_canon hc

theorem execOr_canon {t : Tid} {f : Fields} {s : State} (hc : Canon s) : NextCanon (execOr t f s) := aluOp_canon hc

theorem execXor_canon {t : Tid} {f : Fields} {s : State} (hc : Canon s) : NextCanon (execXor t f s) := aluOp_canon hc

theorem execShl_canon {t : Tid} {f : Fields} {s : State} (hc : Canon s) : NextCanon (execShl t f s) := aluOp_canon hc

theorem execShr_canon {t : Tid} {f : Fields} {s : State} (hc : Canon s) : NextCanon (execShr t f s) := aluOp_canon hc

theorem execSar_canon {t : Tid} {f : Fields} {s : State} (hc : Canon s) : NextCanon (execSar t f s) := aluOp_canon hc

theorem execMin_canon {t : Tid} {f : Fields} {s : State} (hc : Canon s) : NextCanon (execMin t f s) := aluOp_canon hc

theorem execMax_canon {t : Tid} {f : Fields} {s : State} (hc : Canon s) : NextCanon (execMax t f s) := aluOp_canon hc

theorem execSlt_canon {t : Tid} {f : Fields} {s : State} (hc : Canon s) : NextCanon (execSlt t f s) := aluOp_canon hc

theorem execLi_canon {t : Tid} {f : Fields} {s : State} (hc : Canon s) : NextCanon (execLi t f s) :=
  runThread_canon hc (fun _ _ hc1 =>
    ite_both ((dec_canon hc1).bind fun _ _ => src_canon.bind fun _ _ => stepOn_canon hc1)
    ((dec_canon hc1).bind fun _ _ => stepOn_canon hc1))

theorem execMov_canon {t : Tid} {f : Fields} {s : State} (hc : Canon s) : NextCanon (execMov t f s) := by
  unfold execMov
  refine runThread_canon hc (fun _ _ hc1 => ?_)
  split
  · exact (dec_canon hc1).bind fun _ _ => src_canon.bind fun _ _ => stepOn_canon hc1
  · exact (dec_canon hc1).bind fun _ _ => stepOn_canon hc1
  · exact (dec_canon hc1).bind fun _ _ => src_canon.bind fun _ _ => stepOn_canon hc1
  · exact (dec_canon hc1).bind fun _ _ => (theF_canon hc1).bind fun _ _ => stepOn_canon hc1
  · exact hc1

theorem ldstAddr_canon {s : State} {t : Tid} {th : Thread} {f : Fields} {var : Nat} {reads : Bool} (hc : Canon s) :
    Answers Canon (fun _ => True) (ldstAddr s t th f var reads) :=
  (dec_canon hc).bind fun _ _ => src_canon.bind fun _ _ => (needF_canon hc).bind fun _ _ => trivial

theorem execLds_canon {t : Tid} {f : Fields} {s : State} (hc : Canon s) : NextCanon (execLds t f s) :=
  runThread_canon hc (fun _ _ hc1 => (ldstAddr_canon hc1).bind fun ⟨_, _⟩ _ =>
    ite_both (toHost_canon (stepOn_canon hc1)) ((readA_canon hc1).bind fun ⟨_, _⟩ hc2 => stepOn_canon hc2))

theorem execSts_canon {t : Tid} {f : Fields} {s : State} (hc : Canon s) : NextCanon (execSts t f s) :=
  runThread_canon hc (fun _ _ hc1 => (ldstAddr_canon hc1).bind fun ⟨_, _⟩ _ => src_canon.bind fun _ _ =>
    ite_both (stepOn_canon (toHost_canon (notReplayable_canon hc1)))
    ((writeA_canon (notReplayable_canon hc1)).bind fun _ hc2 => stepOn_canon hc2))

theorem execHostWindowCompletion_canon {t : Tid} {reply : HostReply} {s : State} (hc : Canon s) :
    NextCanon (execHostWindowCompletion t reply s) := by
  unfold execHostWindowCompletion
  refine runEvent_canon (can_canon.bind fun _ _ => ?_)
  split
  · exact hc
  · split
    · exact trivial
    · split
      · exact hc
      · exact can_canon.bind fun _ _ => settle_canon (setT_canon hc)

theorem accessIndex_canon {s : State} {t : Tid} {th : Thread} {hreg : Bool} {v : BitVec 16} (hc : Canon s) :
    Answers Canon (fun _ => True) (accessIndex s t th hreg v) :=
  ite_both (src_canon.bind fun _ _ => (needF_canon hc).bind fun _ _ => (needF_canon hc).bind fun _ _ => trivial)
    ((needF_canon hc).bind fun _ _ => trivial)

theorem execHget_canon {t : Tid} {f : Fields} {s : State} (hc : Canon s) : NextCanon (execHget t f s) :=
  runThread_canon hc (fun _ _ hc1 => (dec_canon hc1).bind fun _ _ => (dec_canon hc1).bind fun _ _ =>
    (accessIndex_canon hc1).bind fun _ _ =>
    ite_both ((readA_canon hc1).bind fun ⟨_, _⟩ hc2 => stepOn_canon hc2)
    ((readA_canon hc1).bind fun ⟨_, _⟩ hc2 => stepOn_canon hc2))

theorem noteHset_canon {s : State} {t : Tid} {a : Nat} (hc : Canon s) : Canon (noteHset s t a) := hc

theorem execHset_canon {t : Tid} {f : Fields} {s : State} (hc : Canon s) : NextCanon (execHset t f s) := by
  unfold execHset
  refine runThread_canon hc fun _ _ hc1 => ?_
  refine (dec_canon hc1).bind fun _ _ => (dec_canon hc1).bind fun _ _ => (accessIndex_canon hc1).bind fun _ _ => ?_
  refine (needF_canon hc1).bind fun _ _ => ite_both ?_ ?_
  · exact src_canon.bind fun _ _ => (writeA_canon (noteHset_canon hc1)).bind fun _ hc2 => stepOn_canon hc2
  · refine (foldlM_canon (Q := fun _ => True) (fun _ _ _ => ?_) trivial).bind fun _ _ => ?_
    · exact src_canon.bind fun _ _ => trivial
    · exact (writeA_canon (noteHset_canon hc1)).bind fun _ hc2 => stepOn_canon hc2

/-! ### Every step -/

/-- Every command keeps the canonical form. -/
theorem exec_canon {s : State} (hc : Canon s) : (i : Instr) → NextCanon (exec i s)
  | .nop .. => execNop_canon hc
  | .loop .. => execLoop_canon hc
  | .jmp .. => execJmp_canon hc
  | .brCond .. => execBrCond_canon hc
  | .call .. => execCall_canon hc
  | .ret .. => execRet_canon hc
  | .wait .. => execWait_canon hc
  | .semWaitSatisfied .. => execSemWaitSatisfied_canon hc
  | .sig .. => execSig_canon hc
  | .turn .. => execTurn_canon hc
  | .fence .. => execFence_canon hc
  | .fenceRelease .. => execFenceRelease_canon hc
  | .halt .. => execHalt_canon hc
  | .add .. => execAdd_canon hc
  | .sub .. => execSub_canon hc
  | .mul .. => execMul_canon hc
  | .divu .. => execDivu_canon hc
  | .remu .. => execRemu_canon hc
  | .and .. => execAnd_canon hc
  | .or .. => execOr_canon hc
  | .xor .. => execXor_canon hc
  | .shl .. => execShl_canon hc
  | .shr .. => execShr_canon hc
  | .sar .. => execSar_canon hc
  | .min .. => execMin_canon hc
  | .max .. => execMax_canon hc
  | .slt .. => execSlt_canon hc
  | .li .. => execLi_canon hc
  | .mov .. => execMov_canon hc
  | .lds .. => execLds_canon hc
  | .sts .. => execSts_canon hc
  | .hget .. => execHget_canon hc
  | .hset .. => execHset_canon hc
  | .splBegin .. => execSplBegin_canon hc
  | .splPoolGrant .. => execSplPoolGrant_canon hc
  | .splCommit .. => execSplCommit_canon hc
  | .commitCheck .. => execCommitCheck_canon hc
  | .shadowFillComplete .. => execShadowFillComplete_canon hc
  | .splAbort .. => execSplAbort_canon hc
  | .splStatus .. => execSplStatus_canon hc
  | .draftLd .. => execDraftLd_canon hc
  | .draftSt .. => execDraftSt_canon hc
  | .draftGather .. => execDraftGather_canon hc
  | .draftMcastSend .. => execDraftMcastSend_canon hc
  | .draftMcastRecv .. => execDraftMcastRecv_canon hc
  | .draftPlanStart .. => execDraftPlanStart_canon hc
  | .draftPlanAdvance .. => execDraftPlanAdvance_canon hc
  | .planCursor .. => execPlanCursor_canon hc
  | .draftWait .. => execDraftWait_canon hc
  | .draftWaitFree .. => execDraftWaitFree_canon hc
  | .draftWaitClose .. => execDraftWaitClose_canon hc
  | .draftWaitDone .. => execDraftWaitDone_canon hc
  | .tileArrive .. => execTileArrive_canon hc
  | .migrationComplete .. => execMigrationComplete_canon hc
  | .slotDrain .. => execSlotDrain_canon hc
  | .gatherEntryDeliver .. => execGatherEntryDeliver_canon hc
  | .mcastTileDeliver .. => execMcastTileDeliver_canon hc
  | .streamStall .. => execStreamStall_canon hc
  | .engineComplete .. => execEngineComplete_canon hc
  | .mma .. => execMma_canon hc
  | .qnt .. => execQnt_canon hc
  | .vadd .. => execVadd_canon hc
  | .vmul .. => execVmul_canon hc
  | .vfma .. => execVfma_canon hc
  | .vmax .. => execVmax_canon hc
  | .vmin .. => execVmin_canon hc
  | .vred .. => execVred_canon hc
  | .vcvt .. => execVcvt_canon hc
  | .vepi .. => execVepi_canon hc
  | .vrot .. => execVrot_canon hc
  | .vfn .. => execVfn_canon hc
  | .vstat .. => execVstat_canon hc
  | .vnorm .. => execVnorm_canon hc
  | .vsmxScore .. => execVsmxScore_canon hc
  | .vsmxAcc .. => execVsmxAcc_canon hc
  | .vsmxRecomp .. => execVsmxRecomp_canon hc
  | .vsmxEnd .. => execVsmxEnd_canon hc
  | .cardBuild .. => execCardBuild_canon hc
  | .cardSel .. => execCardSel_canon hc
  | .swConv .. => execSwConv_canon hc
  | .swPool .. => execSwPool_canon hc
  | .swBox .. => execSwBox_canon hc
  | .swNms .. => execSwNms_canon hc
  | .swPatch .. => execSwPatch_canon hc
  | .swPix .. => execSwPix_canon hc
  | .vrng .. => execVrng_canon hc
  | .lkPut .. => execLkPut_canon hc
  | .lkGet .. => execLkGet_canon hc
  | .lkAdd .. => execLkAdd_canon hc
  | .lkSig .. => execLkSig_canon hc
  | .lkMcast .. => execLkMcast_canon hc
  | .lkWait .. => execLkWait_canon hc
  | .lkWaitDone .. => execLkWaitDone_canon hc
  | .cdcSubmit .. => execCdcSubmit_canon hc
  | .reelMark .. => execReelMark_canon hc
  | .cdcJobStart .. => execCdcJobStart_canon hc
  | .cdcUnitDone .. => execCdcUnitDone_canon hc
  | .cdcJobEnd .. => execCdcJobEnd_canon hc
  | .strokeEdge .. => execStrokeEdge_canon hc
  | .fineTick .. => execFineTick_canon hc
  | .turnOverrun .. => execTurnOverrun_canon hc
  | .treadleMarkerSend => execTreadleMarkerSend_canon hc
  | .trdMarkerReceive .. => execTrdMarkerReceive_canon hc
  | .trdParentTimeout => execTrdParentTimeout_canon hc
  | .trdSyncInEdge => execTrdSyncInEdge_canon hc
  | .hbmTempRead .. => execHbmTempRead_canon hc
  | .plyHeartbeatReceive .. => execPlyHeartbeatReceive_canon hc
  | .plyHeartbeatAck .. => execPlyHeartbeatAck_canon hc
  | .plyRecordReceive .. => execPlyRecordReceive_canon hc
  | .plyRecordAck .. => execPlyRecordAck_canon hc
  | .plyLoss => execPlyLoss_canon hc
  | .plyTakeover => execPlyTakeover_canon hc
  | .plyJoin => execPlyJoin_canon hc
  | .plyJoined => execPlyJoined_canon hc
  | .reelDeliver .. => execReelDeliver_canon hc
  | .contextSuspend .. => execContextSuspend_canon hc
  | .saveComplete .. => execSaveComplete_canon hc
  | .restoreComplete .. => execRestoreComplete_canon hc
  | .correctedError .. => execCorrectedError_canon hc
  | .uncorrectableError .. => execUncorrectableError_canon hc
  | .retireWindowClose .. => execRetireWindowClose_canon hc
  | .watchdogExpiry => execWatchdogExpiry_canon hc
  | .flitReceive .. => execFlitReceive_canon hc
  | .portTrain .. => execPortTrain_canon hc
  | .portTrained .. => execPortTrained_canon hc
  | .portStateReport .. => execPortStateReport_canon hc
  | .messageForward .. => execMessageForward_canon hc
  | .put .. => execPut_canon hc
  | .getRequest .. => execGetRequest_canon hc
  | .getResponse .. => execGetResponse_canon hc
  | .atomicAdd .. => execAtomicAdd_canon hc
  | .linkSignal .. => execLinkSignal_canon hc
  | .multicastPut .. => execMulticastPut_canon hc
  | .draftTile .. => execDraftTile_canon hc
  | .tileRequest .. => execTileRequest_canon hc
  | .acknowledgement .. => execAcknowledgement_canon hc
  | .refusal .. => execRefusal_canon hc
  | .responseTimeout .. => execResponseTimeout_canon hc
  | .inlineRecord .. => execInlineRecord_canon hc
  | .sqTailWrite .. => execSqTailWrite_canon hc
  | .cqHeadWrite .. => execCqHeadWrite_canon hc
  | .create .. => execCreate_canon hc
  | .launch .. => execLaunch_canon hc
  | .teardown .. => execTeardown_canon hc
  | .move .. => execMove_canon hc
  | .ringFence .. => execRingFence_canon hc
  | .signal .. => execSignal_canon hc
  | .stage .. => execStage_canon hc
  | .fwLoad .. => execFwLoad_canon hc
  | .fwActivate .. => execFwActivate_canon hc
  | .stageApply .. => execStageApply_canon hc
  | .keyInstall .. => execKeyInstall_canon hc
  | .keyRotate .. => execKeyRotate_canon hc
  | .debugUnlock .. => execDebugUnlock_canon hc
  | .reelExport .. => execReelExport_canon hc
  | .devidAssign .. => execDevidAssign_canon hc
  | .bar4Read .. => execBar4Read_canon hc
  | .bar4Write .. => execBar4Write_canon hc
  | .hostWindowCompletion .. => execHostWindowCompletion_canon hc
  | .regWrite .. => execRegWrite_canon hc
  | .counterRead .. => execCounterRead_canon hc
  | .regReadLatch .. => execRegReadLatch_canon hc
  | .ctxHtabWrite .. => execCtxHtabWrite_canon hc
  | .ctxLkcredWrite .. => execCtxLkcredWrite_canon hc
  | .ringEnableWrite .. => execRingEnableWrite_canon hc
  | .stgEntryWrite .. => execStgEntryWrite_canon hc
  | .stgClear .. => execStgClear_canon hc
  | .stgCheck .. => execStgCheck_canon hc
  | .stgApply .. => execStgApply_canon hc
  | .stgCancel .. => execStgCancel_canon hc
  | .retireReq .. => execRetireReq_canon hc
  | .unretireReq .. => execUnretireReq_canon hc
  | .attGo .. => execAttGo_canon hc
  | .rcvGo .. => execRcvGo_canon hc
  | .evtRingEnable .. => execEvtRingEnable_canon hc
  | .evtRingHeadWrite .. => execEvtRingHeadWrite_canon hc
  | .lnkPhyWrite .. => execLnkPhyWrite_canon hc
  | .functionLevelReset .. => execFunctionLevelReset_canon hc
  | .vfEnableClear => execVfEnableClear_canon hc
  | .conventionalReset => execConventionalReset_canon hc
  | .coldReset .. => execColdReset_canon
  | .bootTempRetry .. => execBootTempRetry_canon hc
  | .powerDown => execPowerDown_canon hc
  | .prochotAssert => execProchotAssert_canon hc
  | .prochotRelease => execProchotRelease_canon hc
  | .thermtrip => execThermtrip_canon hc
  | .refclkLoss .. => execRefclkLoss_canon hc
  | .refclkReturn .. => execRefclkReturn_canon hc
  | .railFault r => execRailFault_canon (_r := r) hc
  | .avsTimeout .. => execAvsTimeout_canon hc
  | .smbPlimitWrite .. => execSmbPlimitWrite_canon hc
  | .smbAlertmaskWrite .. => execSmbAlertmaskWrite_canon hc
  | .smbAlertResponse .. => execSmbAlertResponse_canon hc
  | .prtReset .. => execPrtReset_canon hc
  | .stgCheckDone .. => execStgCheckDone_canon hc
  | .attReportDone .. => execAttReportDone_canon hc
  | .moveDone .. => execMoveDone_canon hc
  | .avsRequestComplete .. => execAvsRequestComplete_canon hc
  | .vauxLoss => execVauxLoss_canon hc
  | .vfEnableSet .. => execVfEnableSet_canon hc

/-- A step keeps the canonical form: the queue that it pops is no part of it. -/
theorem step_canon {s : State} (hc : Canon s) : NextCanon (step s) := by
  unfold step
  split
  · exact hc
  · exact exec_canon (by exact hc) _

/-- Settles O60: each command keeps the canonical form, since each function that it is made of does. -/
theorem stateStaysCanonical : Obligations.StateStaysCanonical := by
  unfold Obligations.StateStaysCanonical
  intro s s' hc hs
  have h := step_canon hc
  rwa [hs] at h

end Sys2Proof.Machine
